-- ==== Sys2Proof/Word.lean ====
section
/-! DEFINITION. The data words of the model: bytes, 64-byte lines and the index types of
the unit counts of Table 1.2 (01 R12). -/

namespace Sys2Proof

/-- One byte. -/
abbrev Byte := BitVec 8
/-- One 64-byte line; byte `i` is bits `8*i+7 .. 8*i` (Notation of 00: little-endian). -/
abbrev Line := BitVec 512
/-- A port controller, 0-63 (09 R240). -/
abbrev PortId := Fin 64
/-- A link die L0-L3. -/
abbrev LinkDie := Fin 4
/-- A memory die M0-M3. -/
abbrev MemDie := Fin 4
/-- A die ID, Table 0.4: L0=0 .. L3=3, M0=4 .. M3=7. -/
abbrev DieId := Fin 8
/-- A global wing. -/
abbrev WingId := Fin 16
/-- A global DDR channel. -/
abbrev ChanId := Fin 32
/-- A Corridor link of Table 12.1. -/
abbrev LinkId := Fin 24
/-- A unit number of Table 14.1. -/
abbrev UnitId := Fin 376
/-- A lodging. -/
abbrev LodgeId := Fin 4096
/-- A tariff label. -/
abbrev LabelId := Fin 65536
/-- An offload queue. -/
abbrev QueueId := Fin 1024
/-- A preset dictionary. -/
abbrev DictId := Fin 1024
/-- A global home slice (01 R20). -/
abbrev SliceId := Fin 64
/-- A regulator rail, in the order of Table 19.3. -/
abbrev RailId := Fin 20

end Sys2Proof
end

