-- ==== Sys2Proof/Syntax.lean ====
section
/-! DEFINITION. The commands: one constructor per row of spec/opcode_table.json. The operands of
a command are the model's choice (log 5): the table gives none. An operand is what a sender puts
into the command, or what the outside world answers (a sensor reading, a verification result). -/

namespace Sys2Proof

/-- Who makes a dictionary access (02 R43, R46): the session it uses. The source class of a
Courier origin is taken from physical presence when the sequencer orders the access (13 R351). -/
inductive Origin where
  /-- A Courier source address (17 R420). -/
  | courier (addr : BitVec 18)
  /-- Keeper firmware. -/
  | keeper
  /-- The FM API, the 0xC000 mailbox family included (02 Table 2.7). -/
  | fmApi
  /-- One Steward core. -/
  | steward (core : Fin 8)
deriving DecidableEq, Repr

/-- How arbitration for the Courier bus ended (17 R416). -/
inductive Arb where
  /-- The frame went through whole. -/
  | won
  /-- A 1 was overridden within DEST or SRC: the frame waits for the END of the winner. -/
  | lost
  /-- A 1 was overridden after SRC: a second node holds the device's address. -/
  | duplicate
deriving DecidableEq, Repr

/-- A change of a vote that no other command brings about (16 Table 16.2). -/
inductive VoteChange where
  /-- The Steward vote register is written. -/
  | steward (v : Fin 4)
  /-- The Keeper vote register is written. -/
  | keeper (v : Fin 4)
  /-- A port whose link is UP enters or leaves L1. -/
  | portL1 (p : PortId) (inL1 : Bool)
  /-- The hardware's own votes (lodgings, ports, movers) have changed with the state. -/
  | hardware
deriving DecidableEq, Repr

/-- What a debug access is for (13 Table 13.6). -/
inductive DebugTarget where
  /-- IDCODE of the debug access port. -/
  | idcode
  /-- Steward trace buffers and performance counters. -/
  | stewardTrace
  /-- Halt, step, registers and memory of Steward cores. -/
  | stewardInvasive
  /-- Keeper trace and counters. -/
  | keeperTrace
  /-- Halt the Keeper pair, step it, reach its registers and memory. -/
  | keeperInvasive
  /-- Let the halted Keeper pair run again. -/
  | keeperRun
  /-- A line of Steward memory, by die in order: read, or written. -/
  | stewardMemory (line : Fin 98304) (write : Option Line)
  /-- A line of Keeper memory: read, or written. -/
  | keeperMemory (line : Fin 16384) (write : Option Line)
  /-- A way of a set of the management L2: its data read, or written. -/
  | l2Line (set : Fin 1024) (way : Fin 16) (write : Option Line)
  /-- A structure of the datapath. -/
  | datapath
deriving DecidableEq, Repr


/-- What a word of retention SRAM holds (02 Table 2.10). -/
inductive Retained where
  /-- A NIGHT-class value of the dictionary, by its key. -/
  | value (key : Nat)
  /-- A record of the error log, by its number. -/
  | logRecord (seq : Nat)
  /-- The digests of R56 and 07 Table 7.7, the wrapped keys, or the kept high-water marks. -/
  | sealing
deriving DecidableEq, Repr

/-- What a word of an SRAM bank holds, where an uncorrectable word has an outcome of its own (11 R306). -/
inductive SramHolds where
  /-- Ways of a directory set (08 R224), numbered (4096 * slice + set) * 16 + way. -/
  | directory (ways : List (Fin 4194304))
  /-- A label record (10 R284). -/
  | label (n : LabelId)
  /-- A word of a die's priority mirror: 16 labels (10 R284). -/
  | mirror (d : DieId) (word : Fin 4096)
  /-- The state of an arbitration point (10 R284). -/
  | point (i : Fin 108)
  /-- The activate-count table of a bank (11 R300). -/
  | actTable (c : ChanId) (bank : Fin 512)
  /-- A line of the Landing cache, by its place. -/
  | cacheLine (place : Fin 3145728)
  /-- An entry of a channel's merge buffer. -/
  | merge (c : ChanId) (i : Fin 32)
  /-- A root counter (07 Table 7.8). -/
  | root (d : MemDie) (m : Fin 262144) (h : Fin 2)
  /-- A node or leaf in the integrity and metadata cache; level 0 is a leaf. -/
  | node (d : MemDie) (m : Fin 262144) (h : Fin 2) (level : Fin 6) (k : Fin 16807)
  /-- A line of the descriptor cache, and whether it is newer than DRAM. -/
  | descriptors (n : LodgeId) (page : BitVec 34) (newer : Bool)
  /-- A key slot of a memory die. -/
  | keySlot (d : MemDie) (n : LodgeId)
  /-- A record of one of the two extent tables of a port. -/
  | extents (p : PortId) (second : Bool) (i : Fin 512)
  /-- The baggage tag of a request that waits in a home queue (01 R26). -/
  | tag (h : SliceId) (i : Fin 8192)
  /-- A dictionary in a die's store, by its number (05 R145). -/
  | dictionary (d : MemDie) (x : DictId)
  /-- A die's record of a dictionary (05 R145). -/
  | dictRecord (d : MemDie) (x : DictId)
  /-- The staging buffer of a move context. -/
  | staging (d : MemDie) (c : Fin 32)
  /-- A word of the active island's retention SRAM (01 R11). -/
  | retention (what : Retained)
  /-- A line of the management L2 (13 R338). -/
  | l2 (set : Fin 1024) (way : Fin 16)
  /-- A directory way whose word reads as good and holds the reserved state code 3 (00 R8, 08 Table 8.1). -/
  | directoryCode (way : Fin 4194304)
  /-- A transfer stored in a link die's switch buffer (09 R253). -/
  | switchBuffer (l : LinkDie) (i : Fin 16384)
  /-- A key of an IDE stream (07 R208). -/
  | ideKey (p : PortId) (j : Fin 9)
  /-- What the staging buffers of a queue's die hold of a job. -/
  | jobStaging (q : QueueId) (j : Fin 4096)
  /-- An HDM decoder of one of the two decoder copies of a port (01 R27). -/
  | decoder (p : PortId) (second : Bool) (k : Fin 10)
  /-- One copy of a region register (13 R344). -/
  | region (checker : Fin 160) (i : Fin 64) (second : Bool)
  /-- Anything else. -/
  | other
deriving DecidableEq, Repr

/-- A firmware image in a slot of the flash (13 R342): its SHA-384 digest, whether its ECDSA P-384 signature over that holds
under the key it comes with, its security version, the digest of that key. -/
structure FwImage where
  digest : BitVec 384
  signed : Bool
  version : Nat
  key : BitVec 384
deriving DecidableEq, Repr

/-- The two image slots of a world's firmware. -/
structure FwSlots where
  a : Option FwImage
  b : Option FwImage
deriving DecidableEq, Repr

/-- A word as the SRAM patrol reads it: the word that was written, and the bits of its 79 that read back wrong (01 R13). -/
structure SramRead where
  word : BitVec 64
  err : BitVec 79
deriving DecidableEq, Repr

/-- One current as the two Safelight islands measure it in the same sample (15 R376). -/
structure IslandCurrents where
  active : BitVec 32
  other : BitVec 32
deriving DecidableEq, Repr

/-- Whether a record that was written verifies in the circulating area, and in the permanent one (17 R431). -/
structure GbVerified where
  circular : Bool
  permanent : Bool
deriving DecidableEq, Repr

/-- What is found in the boot flash when standby power rises: whether it answers at all, and the sectors of the guest book
whose header was being written when power was lost (17 R431, 19 R455). -/
structure FlashAtRise where
  ok : Bool
  torn : List (Fin 1388)
deriving DecidableEq, Repr

/-- What a host asks of a queue's register page (06 R160): a write of the register that the row names, a write of another
word of the page, a read of a word. The table has no row for a read, so it comes as one of the page's rows (log 139). -/
inductive QueueAccess where
  | write (v : BitVec 32)
  | other (word : Fin 1024) (v : BitVec 32)
  | read (word : Fin 1024)
deriving DecidableEq, Repr

/-- Which engine of a job is found faulty or stalls (06 R169): the compressor, or a decompressor. -/
inductive EngineFault where
  | coder | decoder
deriving DecidableEq, Repr

/-- What a downstream device asks of IME BAR 2 (09 R247): a read of `len` bytes, a posted write, or an AtomicOp
(0 FetchAdd, 1 Swap, 2 CAS) with its operand size in bytes. -/
inductive Bar2Op where
  | read (len : BitVec 13)
  | write (bytes : List Byte)
  | atomic (op : Fin 3) (size : BitVec 8) (operand compare : BitVec 128)
deriving DecidableEq, Repr

/-- What an end of a Corridor link sends (12 R321-R329). -/
inductive LinkSend where
  /-- A transfer that is not stored: acknowledge and credit counts alone. -/
  | idle
  /-- The next held transfer of a replay. -/
  | again
  /-- A new transfer: class, data or header, `DATA_COUNT`, payload, and the die it is for. -/
  | fresh (cls : Fin 8) (data : Bool) (count : Fin 128) (payload : Line) (dst : DieId)
  /-- The next transfer of a class that the sending die has received and forwards over this link. -/
  | relay (cls : Fin 8)
deriving DecidableEq, Repr

/-- One command: one row of the table of operations and events, those with operands first. -/
inductive Instr where
  /-- DICT_READ (R40): Mailbox opcode 0xC000 on FM_PORT carries one dictionary read access to the sequencer. -/
  | dictRead (port : PortId) (payload : List Byte)
  /-- DICT_WRITE (R40): Mailbox opcode 0xC001 on FM_PORT carries one dictionary write access to the sequencer. -/
  | dictWrite (port : PortId) (payload : List Byte)
  /-- DICT_SEQ_READ (R40): Mailbox opcode 0xC002 returns the most recently given sequence number without entering the sequencer. -/
  | dictSeqRead (port : PortId)
  /-- PARAM_WRITE (R49): A dictionary write to a member with no behaviour of its own is checked in the order of R49 and applied or staged. -/
  | paramWrite (o : Origin) (param : BitVec 24) (ty : Byte) (offset : BitVec 32) (value : List Byte)
  /-- SELECT (R43): A write of a table window's SELECT sets the session's row or is refused while staged row values are held. -/
  | selectRow (o : Origin) (group : BitVec 16) (row : BitVec 32)
  /-- COMMIT (R42): COMMIT with argument 0 applies all staged values of a group in one sequencer step after checking the combined result. -/
  | commit (o : Origin) (group : BitVec 16)
  /-- COMMIT_DISCARD (R42): COMMIT with argument 1 discards the session's staged values of the group. -/
  | commitDiscard (o : Origin) (group : BitVec 16)
  /-- OWNER_COMMIT (R48): A commit of a group-ownership row changes the owner of a group if the source is the owner or presence-authenticated Courier. -/
  | ownerCommit (o : Origin)
  /-- FM_PORT_WRITE (R55): A write of FM_PORT that changes the port discards the FM_API session before taking effect. -/
  | fmPortWrite (o : Origin) (port : Byte)
  /-- LODGE_CREATE (R82): A lodging COMMIT in FREE checks limits, floors and admission, increments GENERATION and starts preparing the lodging. -/
  | lodgeCreate (o : Origin) (n : LodgeId)
  /-- LODGE_PREPARE_DONE (R82): When every die has written the lodging's descriptors ZERO and keys are installed, the lodging becomes READY and extents are offered. -/
  | lodgePrepareDone (n : LodgeId) (ok : Bool)
  /-- LODGE_CHANGE (R83): A lodging COMMIT in READY or ACTIVE applies size, port, label, attribute or domain changes after the checks of R82. -/
  | lodgeChange (o : Origin) (n : LodgeId)
  /-- ISOLATED_REWRITE_LINE (R59): A memory die rewrites the ISOLATED bit of one descriptor line of the lodging at its home arbiter within the move budget. -/
  | isolatedRewriteLine (n : LodgeId) (d : MemDie)
  /-- DESTROY (R85): LODGE_CMD DESTROY starts destruction with host release of every extent. -/
  | destroy (o : Origin) (n : LodgeId)
  /-- DESTROY_FORCED (R85): LODGE_CMD DESTROY_FORCED starts or escalates destruction with forced release of every extent. -/
  | destroyForced (o : Origin) (n : LodgeId)
  /-- REQUEST_RELEASE (R84): LODGE_CMD REQUEST_RELEASE sends Release Capacity event records for extents covering granules at or above k. -/
  | requestRelease (o : Origin) (n : LodgeId) (k : BitVec 32)
  /-- REOFFER (R84): LODGE_CMD REOFFER sets UNMAPPED granules ZERO and offers them to bound ports holding no record over them. -/
  | reoffer (o : Origin) (n : LodgeId)
  /-- DESTROY_OFFER_TIMEOUT (R85): After 10 s of waiting at destruction step 1, unanswered offers are withdrawn and release requests are sent. -/
  | destroyOfferTimeout (n : LodgeId)
  /-- DESTROY_RECORDS_GONE (R85): When no extent record of the lodging remains, the lodging becomes WIPING and Keeper wipes its key slots. -/
  | destroyRecordsGone (n : LodgeId)
  /-- DESTROY_WIPE_DONE (R85): After the key wipe, locks are released, space is queued for blanking, segments are freed and the lodging becomes FREE. -/
  | destroyWipeDone (n : LodgeId)
  /-- ADD_DYNAMIC_CAPACITY_RESPONSE (R64): A host's acceptance of an offered extent marks the record accepted so the lookup uses it. -/
  | addDynamicCapacityResponse (p : PortId) (extents : List (BitVec 19 × BitVec 19))
  /-- RELEASE_DYNAMIC_CAPACITY (R65): A host release removes the extent from both lookup tables and starts the drain of requests that passed the lookup. -/
  | releaseDynamicCapacity (p : PortId) (extents : List (BitVec 19 × BitVec 19))
  /-- EXTENT_DRAIN_DONE (R65): When every ordered request through the removed extent has completed, pages held by no other port become UNMAPPED and are freed. -/
  | extentDrainDone (p : PortId)
  /-- IDENTIFY_MEMORY_DEVICE (R245): IME mailbox command returning the view's identity. -/
  | identifyMemoryDevice (p : PortId)
  /-- GET_SUPPORTED_LOGS (R245): IME mailbox command returning the supported logs. -/
  | getSupportedLogs (p : PortId)
  /-- GET_LOG (R245): IME mailbox command returning a log. -/
  | getLog (p : PortId) (log : BitVec 128) (offset length : BitVec 32)
  /-- GET_EVENT_RECORDS (R245): IME mailbox command returning event records of a log. -/
  | getEventRecords (p : PortId) (log : Byte)
  /-- CLEAR_EVENT_RECORDS (R245): IME mailbox command clearing event records of a log. -/
  | clearEventRecords (p : PortId) (log count : Byte)
  /-- GET_DYNAMIC_CAPACITY_CONFIGURATION (R62): IME mailbox command returning the two Dynamic Capacity regions. -/
  | getDynamicCapacityConfiguration (p : PortId)
  /-- GET_DYNAMIC_CAPACITY_EXTENT_LIST (R66): IME mailbox command returning the port's extents. -/
  | getDynamicCapacityExtentList (p : PortId)
  /-- IDENTIFY (R252): FM API Identify, executed as reads of group 0x0000 identity members. -/
  | fmIdentify (p : PortId)
  /-- BACKGROUND_OPERATION_STATUS (R252): FM API command reading the CMD member the last background command started. -/
  | backgroundOperationStatus (p : PortId)
  /-- GET_RESPONSE_MESSAGE_LIMIT (R252): FM API command returning a response limit of 4 KiB. -/
  | getResponseMessageLimit (p : PortId)
  /-- IDENTIFY_SWITCH_DEVICE (R252): FM API command reading SW_ROLE_COUNT, SW_VCS_MAP and every PORT_ROLE. -/
  | identifySwitchDevice (p : PortId)
  /-- GET_PHYSICAL_PORT_STATE (R252): FM API command reading the state members of each named port. -/
  | getPhysicalPortState (p : PortId) (ports : List PortId)
  /-- ASSERT_PERST (R252): FM API Physical Port Control option Assert PERST, written as PORT_CMD PERST_ASSERT. -/
  | assertPerst (p t : PortId)
  /-- DEASSERT_PERST (R252): FM API Physical Port Control option Deassert PERST, written as PORT_CMD PERST_DEASSERT. -/
  | deassertPerst (p t : PortId)
  /-- RESET_PPB (R252): FM API Physical Port Control option Reset PPB, written as PORT_CMD HOT_RESET. -/
  | resetPpb (p t : PortId)
  /-- GET_VIRTUAL_CXL_SWITCH_INFO (R252): FM API command reading SW_VCS_MAP. -/
  | getVirtualCxlSwitchInfo (p : PortId)
  /-- BIND_VPPB (R252): FM API Bind vPPB, written as SW_BIND_CMD code 1. -/
  | bindVppb (p : PortId) (v b target : Byte)
  /-- UNBIND_VPPB_WAIT (R252): FM API Unbind vPPB option 0, written as SW_BIND_CMD UNBIND_WAIT. -/
  | unbindVppbWait (p : PortId) (v b : Byte)
  /-- UNBIND_VPPB_MANAGED (R252): FM API Unbind vPPB option 1, written as SW_BIND_CMD UNBIND_MANAGED. -/
  | unbindVppbManaged (p : PortId) (v b : Byte)
  /-- UNBIND_VPPB_SURPRISE (R252): FM API Unbind vPPB option 2, written as SW_BIND_CMD UNBIND_SURPRISE. -/
  | unbindVppbSurprise (p : PortId) (v b : Byte)
  /-- GET_DCD_INFO (R252): FM API command reading group 0x0010 and the region geometry. -/
  | getDcdInfo (p : PortId)
  /-- GET_HOST_DC_REGION_CONFIGURATION (R252): FM API command reading the region geometry for the host's port. -/
  | getHostDcRegionConfiguration (p host : PortId)
  /-- SET_DC_REGION_CONFIGURATION (R252): FM API command comparing the given region values with R62. -/
  | setDcRegionConfiguration (p : PortId) (region : Byte) (length block : BitVec 64)
  /-- GET_DC_REGION_EXTENT_LISTS (R252): FM API command reading EXTENTS of each lodging bound to the port. -/
  | getDcRegionExtentLists (p host : PortId)
  /-- INITIATE_DYNAMIC_CAPACITY_ADD (R252): FM API command staging HOST_PORTS with the port added and committing it. -/
  | initiateDynamicCapacityAdd (p host : PortId) (region : Byte) (tag : BitVec 128)
  /-- INITIATE_DYNAMIC_CAPACITY_RELEASE (R252): FM API command staging HOST_PORTS without the port and committing it. -/
  | initiateDynamicCapacityRelease (p host : PortId) (tag : BitVec 128) (forced : Bool)
  /-- MEMRD (R217): A host CXL.mem MemRd is decoded, stamped, ordered at its home arbiter and served with the directory transition of Table 8.2. -/
  | memrd (p : PortId) (hpa : BitVec 52) (tag : BitVec 16) (grant : Fin 3)
  /-- MEMINV (R217): A host MemInv changes the directory as the matching MemRd would, without data. -/
  | meminv (p : PortId) (hpa : BitVec 52) (tag : BitVec 16) (grant : Fin 3)
  /-- MEMWR (R28): A host full-line MemWr is ordered at its home arbiter and completed once its data is in the Landing cache or write queue. -/
  | memwr (p : PortId) (hpa : BitVec 52) (tag : BitVec 16) (grant : Fin 3) (data : Line)
  /-- MEMWRPTL (R308): A host partial-line write is ordered and merged in the Landing cache or merge buffer. -/
  | memwrptl (p : PortId) (hpa : BitVec 52) (tag : BitVec 16) (grant : Fin 3) (data : Line) (mask : BitVec 64)
  /-- MEMCLNEVCT (R217): A host clean eviction removes the port from the line's directory entry. -/
  | memclnevct (p : PortId) (hpa : BitVec 52) (tag : BitVec 16)
  /-- BIRSP (R219): A host BIRsp is ordered at the home arbiter and updates the directory entry for its port. -/
  | birsp (p : PortId) (n : LodgeId) (page : BitVec 34) (line : Fin 64) (rsp : Fin 3) (block : Bool)
  /-- BICONFLICT (R221): A host BIConflict is answered with BIConflictAck in the order the home arbiter can state. -/
  | biconflict (p : PortId) (n : LodgeId) (page : BitVec 34) (line : Fin 64)
  /-- FETCHADD (R226): A PCIe FetchAdd AtomicOp on a lodging line is performed at the home slice in place or resident. -/
  | fetchAdd (p : PortId) (dpa : BitVec 47) (tag : BitVec 16) (size : BitVec 8) (operand : BitVec 128)
  /-- SWAP (R226): A PCIe Swap AtomicOp on a lodging line is performed at the home slice. -/
  | atomSwap (p : PortId) (dpa : BitVec 47) (tag : BitVec 16) (size : BitVec 8) (operand : BitVec 128)
  /-- CAS (R226): A PCIe CAS AtomicOp on a lodging line is performed at the home slice. -/
  | atomCas (p : PortId) (dpa : BitVec 47) (tag : BitVec 16) (size : BitVec 8) (operand compare : BitVec 128)
  /-- DSP_BAR2_REQUEST (R247): A downstream device's read, write or AtomicOp in IME BAR 2 is decoded against the USP's extent table and served as AGENT 1. -/
  | dspBar2Request (p : PortId) (dpa : BitVec 47) (tag : BitVec 16) (what : Bar2Op)
  /-- CXL_IO_ROUTE (R251): A CXL.io request, completion or message between vPPBs of one VCS is routed under its ACS controls. -/
  | cxlIoRoute (src dst : PortId) (kind : Fin 3) (tag : BitVec 16) (bytes : List Byte) (acs : Fin 3)
  /-- MULTICAST_WRITE (R256): A PCIe multicast posted write is stored once per link die holding target ports and sent to each target. -/
  | multicastWrite (v : PortId) (src : PortId) (targets : BitVec 64) (group : Fin 64) (bytes : List Byte)
  /-- HDM_DECODER_COMMIT (R246): A host commits an HDM decoder and both decoder copies take it in the same handshake. -/
  | hdmDecoderCommit (p : PortId) (k : Fin 10) (base size skip : BitVec 52) (ways gran : Fin 16) (targets : List (Fin 32))
  /-- STALLED_WRITE_RESUME (R79): A stalled write is ordered in queue order once R78 admits it. -/
  | stalledWriteResume (h : SliceId)
  /-- BLANK_DONE (R86): A freed frame or run finishes blanking and becomes allocatable, releasing writes that wait for blanked space. -/
  | blankDone (w : WingId) (tgt : Option (BitVec 29))
  /-- CAP_RELEASE_REPEAT (R77): Every 600 s in LOW or RESERVE, Release Capacity records are sent again for releasable lodgings above floor. -/
  | capReleaseRepeat (d : MemDie)
  /-- WRITE_BACK (R93): An evicted DIRTY line is ordered at the home arbiter and written to the location the descriptor then gives. -/
  | writeBack (d : MemDie)
  /-- LINE_WRITE_OUT (R196): A line leaves the DRAM write queue encrypted, with counter and tag updates for a sealed page. -/
  | lineWriteOut (c : ChanId)
  /-- NODE_WRITE_BACK (R194): A dirty counter-tree node or leaf is written back under a new parent counter to its home and mirror copies. -/
  | nodeWriteBack (d : MemDie) (m : Fin 262144) (h : Fin 2) (level : Fin 6) (k : Fin 16807)
  /-- TIER_EPOCH (R95): Each TIER_EPOCH seconds a memory die's epoch counter advances modulo 2,048. -/
  | tierEpoch (d : MemDie)
  /-- SWEEP_VISIT (R97): The tier mover visits a descriptor line, clamping old ages and queuing demotions and repacks. -/
  | sweepVisit (n : LodgeId) (page : BitVec 34)
  /-- SWEEP_PASS_END (R123): At the end of a sweep pass the mover may choose a wing and start its evacuation automatically. -/
  | sweepPassEnd (d : MemDie)
  /-- MOVE_START (R103): An idle move context takes a queued page, arms a watch and enters SNAPSHOT. -/
  | moveStart (d : MemDie) (c : Fin 32)
  /-- MOVE_SNAPSHOT_DONE (R103): The page is in the staging buffer and the move enters ENCODE, or aborts on a failed check. -/
  | moveSnapshotDone (d : MemDie) (c : Fin 32)
  /-- MOVE_ENCODE_DONE (R103): Compression or encryption ends and the move enters VERIFY. -/
  | moveEncodeDone (d : MemDie) (c : Fin 32)
  /-- MOVE_VERIFY_DONE (R107): The verifying decode ends; a mismatch aborts and takes the engine out, otherwise the move enters PLACE. -/
  | moveVerifyDone (d : MemDie) (c : Fin 32) (ok : Bool)
  /-- MOVE_PLACE_DONE (R103): The new location's DRAM write is acknowledged and the move enters COMMIT. -/
  | movePlaceDone (d : MemDie) (c : Fin 32)
  /-- MOVE_COMMIT (R105): The mover takes the page lock, checks the watch, rewrites the descriptor and releases the lock. -/
  | moveCommit (d : MemDie) (c : Fin 32)
  /-- EVACUATE (R120): WING_CMD EVACUATE checks the wing and sets it DRAINING. -/
  | evacuate (o : Origin) (w : WingId)
  /-- REOPEN (R120): WING_CMD REOPEN cancels an evacuation or starts powering a SHUT wing. -/
  | reopen (o : Origin) (w : WingId)
  /-- WING_EMPTY (R120): When WING_USED is 0 with nothing in flight, the wing becomes EMPTY and then SHUTTERING, opening its branch. -/
  | wingEmpty (w : WingId)
  /-- WING_SHUT (R120): When the branch reports off the wing becomes SHUT and EVACUATE ends OK. -/
  | wingShut (w : WingId)
  /-- AUTO_REOPEN (R122): When open free space falls below the reopen mark or compaction yields no frame, the lowest SHUT wing is reopened. -/
  | autoReopen (d : MemDie)
  /-- WING_REOPEN_TRAINED (R122): After a reopened wing's channels train, the wing becomes OPEN and is queued for blanking. -/
  | wingReopenTrained (w : WingId)
  /-- DICT_STORE_LOAD (R145): A die's dictionary store loads, decrypts and checks a dictionary, repairing the copy from another die on failure. -/
  | dictStoreLoad (d : MemDie) (x : DictId) (bad : BitVec 4)
  /-- TRAIN (R147): DICT_CMD TRAIN starts building a dictionary for a lodging on one compressor. -/
  | train (o : Origin) (x : DictId) (n : BitVec 16)
  /-- TRAIN_COMPLETE (R147): Training ends; the dictionary is written to all dies and installed. -/
  | trainComplete (x : DictId) (bad : Bool)
  /-- DICT_RETIRE (R149): DICT_CMD RETIRE sets the dictionary RETIRING and waits for moves naming it. -/
  | dictRetire (o : Origin) (x : DictId)
  /-- DICT_RETIRE_CHECK (R149): When moves naming the dictionary have ended, the counts decide whether it is freed or restored. -/
  | dictRetireCheck (x : DictId) (d : MemDie)
  /-- CANCEL (R148): DICT_CMD CANCEL stops a training and frees the row. -/
  | cancel (o : Origin) (x : DictId)
  /-- ENABLE (R159): Q_CMD ENABLE starts a configured queue with indices and token bucket reset. -/
  | enable (o : Origin) (q : QueueId)
  /-- DISABLE (R159): Q_CMD DISABLE puts the queue in DRAINING until its fetched jobs have ended. -/
  | disable (o : Origin) (q : QueueId)
  /-- Q_RESET (R159): Q_CMD RESET frees every context of a STOPPED queue and disables it. -/
  | qReset (o : Origin) (q : QueueId)
  /-- SQ_TAIL (R163): A host write of SQ_TAIL submits descriptors or stops the queue when the ring would overflow. -/
  | sqTail (p : PortId) (q : QueueId) (a : QueueAccess)
  /-- CQ_HEAD (R160): A host write of CQ_HEAD releases completion slots. -/
  | cqHead (p : PortId) (q : QueueId) (v : BitVec 32)
  /-- JOB_FETCH (R163): The queue die fetches and checks a descriptor, takes its tokens and writes a PENDING completion. -/
  | jobFetch (q : QueueId) (desc : Option (BitVec 512)) (src : Option (List (BitVec 128)))
  /-- TOKEN_REFILL (R164): Every 1 µs a queue's token bucket gains tokens up to Q_BURST. -/
  | tokenRefill (q : QueueId)
  /-- COMPRESS (R167): A COMPRESS job starts, compressing its source in its format and level. -/
  | compress (q : QueueId) (j : Fin 4096) (src : Option (List Byte)) (outs : Option (List (BitVec 128)))
      (bad : Option EngineFault)
  /-- DECOMPRESS (R167): A DECOMPRESS job starts, decoding its source format. -/
  | decompress (q : QueueId) (j : Fin 4096) (src : Option (List Byte)) (outs : Option (List (BitVec 128))) (bad : Bool)
  /-- EXPORT (R173): An EXPORT job starts bulk export of a range of its lodging's pages. -/
  | exportJob (q : QueueId) (j : Fin 4096) (outs : Option (List (BitVec 128)))
  /-- EXPORT_DICT (R175): An EXPORT_DICT job starts writing a DICT record of a dictionary of its lodging. -/
  | exportDict (q : QueueId) (j : Fin 4096) (outs : Option (List (BitVec 128)))
  /-- RESUME (R171): A RESUME job reads back and checks the save area and continues a saved stream. -/
  | resume (q : QueueId) (j : Fin 4096) (area : Option (List Byte)) (outs : Option (List (BitVec 128)))
  /-- RELEASE_CTX (R171): A RELEASE_CTX job frees a stream context without output. -/
  | releaseCtx (q : QueueId) (j : Fin 4096)
  /-- EXPORT_PAGE (R174): The export of one page is ordered at its home arbiter and its record built on the home die's engines. -/
  | exportPage (q : QueueId) (j : Fin 4096) (page : BitVec 34) (bad : Option EngineFault)
  /-- EXPORT_RECORD_ARRIVE (R174): A finished export record reaches the queue die and is placed in the output stream in page order. -/
  | exportRecordArrive (q : QueueId) (j : Fin 4096) (page : BitVec 34)
  /-- JOB_COMPLETE (R166): A job ends and its final completion record, and any NOTIFY message, is written after its output. -/
  | jobComplete (q : QueueId) (j : Fin 4096)
  /-- INSTALL (R181): KEY_CMD INSTALL draws the lodging secret and transports it to every memory die. -/
  | install (o : Origin) (n : LodgeId)
  /-- WIPE (R181): KEY_CMD WIPE zeroes the lodging's key slots on all dies and drops derived keys. -/
  | wipe (o : Origin) (n : LodgeId)
  /-- REKEY (R202): KEY_CMD REKEY draws the next-epoch secret into a transition slot on all dies. -/
  | rekey (o : Origin) (n : LodgeId)
  /-- KEY_TRANSPORT (R180): An authenticated key-transport message between dies is received and installed and acknowledged. -/
  | keyTransport (d : MemDie) (err : BitVec 384)
  /-- REKEY_REQUEST (R202): REKEY_REQUEST starts a re-key of a READY or ACTIVE lodging. -/
  | rekeyRequest (o : Origin) (n : LodgeId)
  /-- REKEY_VISIT (R204): A re-key engine re-encrypts one page under the new epoch and advances its boundary. -/
  | rekeyVisit (d : MemDie) (n : LodgeId)
  /-- REKEY_FINISH (R205): When all boundaries pass the range, dictionaries are re-encrypted, slot n takes the new secret and KEY_EPOCH increments. -/
  | rekeyFinish (n : LodgeId)
  /-- SPDM_REQUEST (R207): An SPDM request over DOE is served by Keeper, or answered Busy while Keeper restarts. -/
  | spdmRequest (p : PortId) (req : List Byte) (opens : Bool)
  /-- IDE_KM (R208): An IDE_KM message installs or refreshes a key set of an IDE stream. -/
  | ideKm (p : PortId) (j : Fin 9) (op : Fin 3) (set : Fin 2) (slot : Fin 6) (key : BitVec 256)
  /-- IDE_CHECK_FAIL (R209): A flit failing its IDE check is held, the stream goes Insecure and the port's link is taken down. -/
  | ideCheckFail (p : PortId) (j : Fin 9)
  /-- BI_TIMEOUT (R220): A snoop unanswered for COH_BI_TIMEOUT takes the port's link down and raises an alert. -/
  | biTimeout (p : PortId)
  /-- ABSENCE_TIMEOUT (R235): When a down port's absence timeout expires, the dead-agent scan starts. -/
  | absenceTimeout (p : PortId)
  /-- DEAD_AGENT_SCAN_DONE (R235): After the directory scan, STRICT lodgings go down, waiting requests resume and notices are sent. -/
  | deadAgentScanDone (p : PortId)
  /-- COH_RESET (R237): COH_RESET brings a DOWN coherence domain back UP once no snoop of it is open. -/
  | cohReset (o : Origin) (n : LodgeId)
  /-- ATOM_COOL_TICK (R228): Each ATOM_COOL_TIME without an atomic lowers a resident line's predictor, releasing it below 2. -/
  | atomCoolTick (n : LodgeId) (page : BitVec 34) (line : Fin 64)
  /-- LINK_UP (R242): A port finishes training at its width and rate and D is recomputed. -/
  | linkUp (p : PortId) (width : Fin 17) (rate : Fin 7)
  /-- LINK_DOWN (R258): A port goes down and its traffic ends as Table 9.8 or R260 gives. -/
  | linkDown (p : PortId)
  /-- HOST_HOT_RESET (R262): A Hot Reset or Link Disable from a USP's host resets its VCS registers and propagates to bound DSPs. -/
  | hostHotReset (p : PortId)
  /-- SECONDARY_BUS_RESET (R262): A host Secondary Bus Reset on a vPPB hot-resets its DSP or resets its IME view. -/
  | secondaryBusReset (v : PortId) (b : Fin 32)
  /-- FLR (R262): A host FLR or CXL Reset of an IME view resets its registers and stops its queues. -/
  | flr (p : PortId)
  /-- PORT_PERST_N (R440): An assertion of at least 100 µs on a USP's PORT_PERST_N acts as a host reset. -/
  | portPerstN (p : PortId)
  /-- SLOT_POWER_OFF (R250): A host turning a slot's power controller off completes a managed unbind. -/
  | slotPowerOff (v : PortId) (b : Fin 32)
  /-- LINK_DISABLE (R264): PORT_CMD LINK_DISABLE takes the port's link down and holds it disabled. -/
  | linkDisable (o : Origin) (p : PortId)
  /-- LINK_ENABLE (R264): PORT_CMD LINK_ENABLE lets a disabled port train. -/
  | linkEnable (o : Origin) (p : PortId)
  /-- RETRAIN (R264): PORT_CMD RETRAIN retrains an UP link. -/
  | retrain (o : Origin) (p : PortId)
  /-- HOT_RESET (R262): PORT_CMD HOT_RESET sends Hot Reset towards a DSP's device. -/
  | hotReset (o : Origin) (p : PortId)
  /-- PERST_ASSERT (R262): PORT_CMD PERST_ASSERT drives a DSP's PORT_PERST_N low. -/
  | perstAssert (o : Origin) (p : PortId)
  /-- PERST_DEASSERT (R264): PORT_CMD PERST_DEASSERT releases a DSP's PORT_PERST_N. -/
  | perstDeassert (o : Origin) (p : PortId)
  /-- BIND (R249): SW_BIND_CMD BIND binds a vPPB to a DSP or the IME and reports a presence change. -/
  | bind (o : Origin) (v b target : Byte)
  /-- UNBIND_WAIT (R250): SW_BIND_CMD UNBIND_WAIT arms an unbind taking effect at the DSP's link down. -/
  | unbindWait (o : Origin) (v b : Byte)
  /-- UNBIND_MANAGED (R250): SW_BIND_CMD UNBIND_MANAGED signals hot-remove and unbinds when slot power goes off. -/
  | unbindManaged (o : Origin) (v b : Byte)
  /-- UNBIND_SURPRISE (R250): SW_BIND_CMD UNBIND_SURPRISE unbinds at once with the outcome of a DSP link down. -/
  | unbindSurprise (o : Origin) (v b : Byte)
  /-- EGRESS_ADMIT (R255): A held transfer is admitted into a port's egress queue when cells under R254 allow. -/
  | egressAdmit (p : PortId) (cls : Fin 8)
  /-- EGRESS_SEND (R279): An egress queue starts sending a transfer when its link and shaper credit allow. -/
  | egressSend (p : PortId) (cls : Fin 8)
  /-- SAMPLE_FLUSH (R271): A link die's sample transfer is sent when it holds twelve samples or 1 µs after its first. -/
  | sampleFlush (l : LinkDie) (m : MemDie)
  /-- SAMPLE_APPLY (R272): The owning die applies each arriving latency sample to its label's EWMA, P99 and priority. -/
  | sampleApply (m : MemDie)
  /-- PRIO_MIRROR_UPDATE (R272): A MGMT message updates a label's priority in a die's mirror. -/
  | prioMirrorUpdate (d : DieId)
  /-- MISS_WINDOW (R273): Each MISS_WINDOW each memory die evaluates its labels for guarantee misses. -/
  | missWindow (m : MemDie)
  /-- HOME_QUEUE_SELECT (R275): An arbitration point selects the next request by fair queueing among share groups and priority within a group. -/
  | homeQueueSelect (h : SliceId)
  /-- DRAM_APPLY (R290): DRAM_APPLY code 0 checks every channel declaration and trains every populated channel. -/
  | dramApply (o : Origin)
  /-- DRAM_APPLY_TEST (R294): DRAM_APPLY code 1 trains every populated channel with the memory test. -/
  | dramApplyTest (o : Origin)
  /-- CHANNEL_TRAINED (R294): A channel finishes training and test, becomes ACTIVE and queues its wing for blanking, or fails. -/
  | channelTrained (c : ChanId) (spd : Option (BitVec 2)) (ok : Bool) (bad : List (BitVec 33))
  /-- DRAM_COMMAND_ISSUE (R296): The channel scheduler issues its next command in the fixed priority order. -/
  | dramCommandIssue (c : ChanId) (barred : BitVec 128)
  /-- REF_DUE (R297): A rank's tREFI elapses and a REF falls due or is postponed. -/
  | refDue (c : ChanId) (rank : Fin 8) (postpone : Bool)
  /-- MODULE_TEMP_READ (R297): Every 10 ms the controller reads each module's thermal sensor and sets the refresh interval. -/
  | moduleTempRead (c : ChanId) (t : BitVec 32)
  /-- TABLE_VALID (R300): 32 ms after a table became not valid, it becomes valid and probabilistic mitigation stops. -/
  | tableValid (c : ChanId)
  /-- CA_PARITY_ALERT (R301): An RCD ALERT_N for CA parity stops the channel's commands until it is released. -/
  | caParityAlert (c : ChanId) (latency : BitVec 16)
  /-- CA_REPLAY (R301): After ALERT_N is released, banks are precharged and recent commands are replayed. -/
  | caReplay (c : ChanId) (again : Bool)
  /-- DRAM_READ_RETURN (R304): A line's read data returns and is decoded word by word and checked against its line check. -/
  | dramReadReturn (d : MemDie) (f : BitVec 30) (j : Fin 64) (agent : Fin 6) (err : BitVec 640)
  /-- MERGE_HOLD (R308): A merge-buffer entry held for MERGE_HOLD is written back. -/
  | mergeHold (c : ChanId)
  /-- SCRUB_READ (R312): The night watch reads the next line of a channel at its patrol pace. -/
  | scrubRead (c : ChanId) (err : BitVec 640)
  /-- OWNER_SEARCH (R310): A pass of the tier mover over descriptors finds the pages holding pending frames and applies their outcome. -/
  | ownerSearch (d : MemDie)
  /-- RETIRE_FRAME (R314): RETIRE_CMD RETIRE_FRAME retires one frame. -/
  | retireFrame (o : Origin) (arg : BitVec 64)
  /-- RETIRE_ROW (R314): RETIRE_CMD RETIRE_ROW retires the frames holding a row. -/
  | retireRow (o : Origin) (arg : BitVec 64)
  /-- RETIRE_BANK (R314): RETIRE_CMD RETIRE_BANK retires every frame holding a bank. -/
  | retireBank (o : Origin) (arg : BitVec 64)
  /-- RETIRE_CLEAR (R314): RETIRE_CMD RETIRE_CLEAR removes a wing's entries from the retired list. -/
  | retireClear (o : Origin) (arg : BitVec 64)
  /-- CORRIDOR_TRANSFER (R323): A Corridor transfer is received, checked, delivered in order and its ACK, NAK and credits applied. -/
  | corridorTransfer (k : LinkId) (toB : Bool) (what : LinkSend) (err : BitVec 896) (invalid : Bool)
  /-- CL_RESET (R335): CL_CMD RESET starts a Corridor link reset. -/
  | clReset (o : Origin) (k : LinkId)
  /-- RESET_REQ (R331): A Corridor RESET_REQ starts or joins a link reset with leader chosen by R332. -/
  | resetReq (k : LinkId) (byB : Bool) (cause : Byte)
  /-- LINK_GROUP_TEST_DONE (R331): The group test of both directions ends and the leader sends MAP. -/
  | linkGroupTestDone (k : LinkId) (badAB badBA : BitVec 78)
  /-- MAP (R331): A MAP message sets widths and spares, answered unchanged by the follower or failing the link. -/
  | linkMap (k : LinkId) (unchanged : Bool)
  /-- CREDITS (R331): A CREDITS message advertises credits and the expected SEQ. -/
  | linkCredits (k : LinkId)
  /-- READY (R331): A READY message resumes the link, resending held transfers. -/
  | linkReady (k : LinkId)
  /-- CORRIDOR_RESET_TIMEOUT (R333): A link whose reset has not completed within 1 ms fails and leaves service. -/
  | corridorResetTimeout (k : LinkId)
  /-- WORLD_CALL (R337): A Steward core's world call flushes its caches and is queued for Keeper. -/
  | worldCall (core : Fin 8) (req : List Byte)
  /-- WORLD_CALL_REPLY (R337): Keeper's reply is written and the caller's caches are flushed before it resumes. -/
  | worldCallReply (answer : List Byte)
  /-- STEWARD_WDOG (R339): An expired Steward watchdog restarts that core alone. -/
  | stewardWdog (core : Fin 8)
  /-- KEEPER_RESUME (R340): After firmware verification Keeper resumes and reissues key commands PREPARING lodgings need. -/
  | keeperResume (img : FwSlots)
  /-- REGION_COMMIT (R347): A commit of a region-window row writes a free region register, on both channels of a wing. -/
  | regionCommit (o : Origin)
  /-- DEBUG_ACCESS (R348): An access through the debug access port is admitted only under the debug enables. -/
  | debugAccess (t : DebugTarget)
  /-- PRESENCE_N (R351): PRESENCE_N held low 20 ms after a falling edge opens or restarts the 60 s button window. -/
  | presenceN (low : Bool)
  /-- PRESENCE_END (R351): PRESENCE_END closes the button window at once. -/
  | presenceEnd (o : Origin)
  /-- SEAL_LOOP_SAMPLE (R351): Every 1 ms Safelight drives and compares the seal loop pattern. -/
  | sealLoopSample (matched : Bool)
  /-- PROVISION (R353): LC_CMD PROVISION blows P and the operator ID and resets into PROVISIONED. -/
  | provision (o : Origin) (operand : List Byte) (readBack : Bool)
  /-- DEPLOY (R353): LC_CMD DEPLOY blows Y and resets into DEPLOYED. -/
  | deploy (o : Origin) (readBack : Bool)
  /-- ENTER_SERVICE (R353): LC_CMD ENTER_SERVICE blows a thermometer bit and resets into SERVICE. -/
  | enterService (o : Origin) (readBack : Bool)
  /-- LEAVE_SERVICE (R353): LC_CMD LEAVE_SERVICE blows a thermometer bit and resets into DEPLOYED. -/
  | leaveService (o : Origin) (readBack : Bool)
  /-- LC_RETIRE (R354): LC_CMD RETIRE blows T, erases the configuration area and resets into RETIRED. -/
  | lcRetire (o : Origin) (readBack : Bool)
  /-- DEV_RESET (R355): DEV_RESET starts a device reset with cause COMMAND. -/
  | devReset (o : Origin)
  /-- UNIT_WDOG (R361): A stage's handshake watchdog expires and its unit leaves service with cause 1. -/
  | unitWdog (u : UnitId)
  /-- TAKE_OUT (R363): UNIT_CMD TAKE_OUT drains a unit out of service by class. -/
  | takeOut (o : Origin) (u : UnitId)
  /-- DRAIN_COMPLETE (R360): A DRAINING unit's last admitted operation ends and it becomes OUT_OF_SERVICE. -/
  | drainComplete (u : UnitId)
  /-- TAKEOVER_SCAN_DONE (R364): The buddy slice finishes scanning the failed slice's sets and serves its addresses; link dies resend requests. -/
  | takeoverScanDone (sl : SliceId)
  /-- REBUILD_LINE (R366): During a memory die rejoin one descriptor line is rewritten LOST within the move budget. -/
  | rebuildLine (d : MemDie)
  /-- MIRROR_RESTORE (R25): When a die's interior nodes are copied to its partner, its mirror bit is set and restoration reported. -/
  | mirrorRestore (d : MemDie)
  /-- REJOIN (R368): UNIT_CMD REJOIN starts a unit's self-test, or reopens a wing. -/
  | rejoin (o : Origin) (u : UnitId)
  /-- REJOIN_TEST_DONE (R368): A rejoining unit's self-test ends and its interfaces and state are reinitialised before REJOINING. -/
  | rejoinTestDone (u : UnitId) (ok : Bool)
  /-- UNIT_PROBATION (R368): After UNIT_PROBATION without fault a rejoining unit enters IN_SERVICE. -/
  | unitProbation (u : UnitId)
  /-- ALERT_HOLD (R373): When ALERT_HOLD passes, a held-back alert of a KIND is raised with the count written meanwhile. -/
  | alertHold (kind : Fin 16)
  /-- SEAT_CHANGE (R378): A seating input change starts seating, or a low for 1 µs opens both gates and makes the state UNSEATED. -/
  | seatChange (a b : Bool)
  /-- MAIN_SAMPLE (R383): Every 10 µs the main input is sampled, driving the window, accumulator, ramp limits and backup checks. -/
  | mainSample (vin vmid vout : BitVec 16) (cur : IslandCurrents)
  /-- FAST_TRIP (R382): Main current above HS_FAST_TRIP pulls both gates off within 1 µs and latches. -/
  | fastTrip (cur : BitVec 32)
  /-- MOSFET_CHECK (R380): The step-5 MOSFET check ends, passing to RAMP or latching with cause 8. -/
  | mosfetCheck (midOff midOn vin rise : BitVec 16)
  /-- CLEAR (R385): HS_CMD CLEAR clears a trip latch and restarts the sequence at step 2. -/
  | hsClear (o : Origin)
  /-- BRANCH_RAMP_START (R387): A requested branch starts its ramp when no other branch or the main input is ramping. -/
  | branchRampStart (w : WingId)
  /-- BRANCH_POWER_GOOD (R387): A branch reaches power good and its wing's channels may train. -/
  | branchPowerGood (w : WingId)
  /-- BRANCH_RAMP_TIMEOUT (R387): A branch ramp without power good within 100 ms trips with cause 4. -/
  | branchRampTimeout (w : WingId)
  /-- BRANCH_SAMPLE (R387): Every 40 µs each branch is sampled and its accumulator updated. -/
  | branchSample (w : WingId) (vout : BitVec 16) (cur : IslandCurrents)
  /-- BRANCH_TRIP (R389): A branch fast trip or accumulator trip opens its gate and takes its wing out of service. -/
  | branchTrip (w : WingId) (fast : Bool) (cur : BitVec 32)
  /-- BRANCH_OFF (R388): A branch reports off below 1.0 V. -/
  | branchOff (w : WingId)
  /-- FET_FAULT (R388): A branch not off within 10 ms of its gate pull-down is driven on again and its wing reopens. -/
  | fetFault (w : WingId)
  /-- VOTE_CHANGE (R396): A client's vote changes and the target state is recomputed, raising or lowering the state. -/
  | voteChange (c : VoteChange)
  /-- PS_SHELF_VOTE (R395): A write of PS_SHELF_VOTE sets the shelf controller's vote. -/
  | psShelfVote (o : Origin) (v : Byte)
  /-- ENGINE_GATE (R398): An engine idle for PS_ENG_IDLE is power-gated. -/
  | engineGate (u : UnitId)
  /-- SELF_REFRESH_ENTRY (R398): In IDLE a wing idle for PS_SR_IDLE enters self-refresh. -/
  | selfRefreshEntry (w : WingId)
  /-- PS_VCORE (R399): A write of PS_VCORE moves a die's core rail to a new step under the order rules. -/
  | psVcore (o : Origin) (j : DieId) (v : Byte)
  /-- PS_PACE (R399): A write of PS_PACE sets a memory die's pace ceiling after order and admission checks. -/
  | psPace (o : Origin) (m : MemDie) (v : BitVec 32)
  /-- PS_DDR_RATE (R400): A write of PS_DDR_RATE changes a die's DDR rate through self-refresh. -/
  | psDdrRate (o : Origin) (m : MemDie) (v : Byte)
  /-- PS_SERDES_CAP (R400): A write of PS_SERDES_CAP retrains a link die's ports at the new cap. -/
  | psSerdesCap (o : Origin) (x : LinkDie) (v : Byte)
  /-- RAIL_SETTLED (R399): A core regulator reports power good and 50 µs later the step has settled. -/
  | railSettled (d : DieId)
  /-- RAIL_SETTLE_TIMEOUT (R445): A core regulator without power good by 200 µs leaves its die at the former step with an alert. -/
  | railSettleTimeout (d : DieId)
  /-- READ (R418): A Courier READ frame addressed to the device is queued as one dictionary read access. -/
  | courierRead (dest src : BitVec 18) (param : BitVec 24) (data : List Byte) (crc : BitVec 16) (endOk : Bool)
  /-- WRITE (R418): A Courier WRITE frame addressed to the device is queued as one dictionary write access. -/
  | courierWrite (dest src : BitVec 18) (param : BitVec 24) (data : List Byte) (crc : BitVec 16) (endOk : Bool)
  /-- REPLY (R419): The device sends a REPLY frame for a completed Courier access. -/
  | reply (arb : Arb)
  /-- ALERT (R424): The device sends the oldest waiting alert record as an ALERT frame. -/
  | alert (arb : Arb)
  /-- ASSIGN (R421): An unaddressed device enabled by ENUM_IN takes the ASSIGN's address and answers ASSIGN_ACK. -/
  | assign (dest src : BitVec 18) (crc : BitVec 16) (endOk : Bool)
  /-- ENUM_IN (R421): A change of ENUM_IN enables assignment or drops ENUM_OUT. -/
  | enumIn (high : Bool)
  /-- RELEASE (R422): A Courier RELEASE clears the device's address and DUPLICATE and drops ENUM_OUT. -/
  | release (dest src : BitVec 18) (crc : BitVec 16) (endOk : Bool)
  /-- CR_STALL_TIMEOUT (R415): A spacer or held rail beyond CR_STALL_TIMEOUT abandons the frame and raises a Courier alert. -/
  | crStallTimeout (railHeld : Bool)
  /-- CR_BIT_NS (R428): A write of CR_BIT_NS takes effect after the REPLY to it. -/
  | crBitNs (o : Origin) (ns : BitVec 32)
  /-- CUT (R432): GB_CMD CUT ends the present guest-book period. -/
  | cut (o : Origin)
  /-- GB_RECORD_WRITE (R431): A waiting guest-book record is written to the next slot, erasing the sector first when needed. -/
  | gbRecordWrite (verified : GbVerified)
  /-- GB_FIGURES (R436): A die's figures arrive over Corridor management traffic and are added to the accumulators. -/
  | gbFigures (d : DieId)
  /-- JUNCTION_SENSOR_READ (R450): Every 1 ms die sensors are read, driving THERM_N and the shutdown count. -/
  | junctionSensorRead (d : DieId) (t0 t1 t2 t3 : BitVec 32)
  /-- THERMAL_SHUTDOWN (R450): A die at or above 115 °C for 10 ms drops every die rail and opens every branch. -/
  | thermalShutdown (d : DieId)
  /-- REGULATOR_POWER_GOOD (R446): A regulator reports power good and the next rail of the order is enabled. -/
  | regulatorPowerGood (r : RailId)
  /-- REGULATOR_TIMEOUT (R446): A rail without power good within 1 ms stays disabled with its die's later rails and the die leaves service. -/
  | regulatorTimeout (r : RailId)
  /-- POWER_GOOD_LOSS (R447): A power good falling while enabled takes the die out of service and drops its other rails. -/
  | powerGoodLoss (r : RailId)
  /-- STANDBY_RISE (R455): VSTBY rising starts both islands, samples straps and runs the start-up order. -/
  | standbyRise (strap : BitVec 2) (slSel : Bool) (flash : FlashAtRise)
  /-- BOOT_FIRMWARE_START (R455): Keeper and Steward firmware are verified and start, channels are declared and ports take roles. -/
  | bootFirmwareStart (keeper steward : FwSlots)
  /-- STEWARD_CORE_RESTART_DONE (R339): A restarting Steward core's firmware has been loaded, verified and measured, and the core runs again with WORLD_STATUS showing it running. -/
  | stewardCoreRestartDone (core : Fin 8) (img : FwSlots)
  /-- CXL_MEM_ROUTE (R244): A CXL.mem request, response or Back-Invalidate message passes between a USP and a bound DSP's Type 3 device through the switch. -/
  | cxlMemRoute (src dst : PortId) (kind : Fin 5) (tag : BitVec 16) (bytes : List Byte)
  /-- SRAM_PATROL (R345): The SRAM patrol reads the next word of an SRAM bank as agent class SCRUB and writes back each word it corrects. -/
  | sramPatrol (bank : Fin 128) (read : SramRead) (held : SramHolds)
  /-- CAP_STATUS_UPDATE (R80): At least once a second the memory dies update the capacity status group. -/
  | capStatusUpdate
  /-- SCALE_NOTICE_HOLD (R282): When the 10 s notice hold passes, a deferred scaling notice is sent with the φ then in force. -/
  | scaleNoticeHold
  /-- ACT_TABLE_CLEAR (R299): Every 32 ms refresh window every activate-count table is cleared. -/
  | actTableClear
  /-- RETIRE_COMPLETE (R315): When nothing remains in the retired frames, I_d falls and RETIRE_CMD ends OK. -/
  | retireComplete
  /-- KEEPER_WDOG (R340): An expired Keeper watchdog restarts or halts Keeper. -/
  | keeperWdog
  /-- LOCKSTEP_MISMATCH (R340): A lockstep compare mismatch restarts or halts Keeper. -/
  | lockstepMismatch
  /-- PRESENCE_WINDOW_END (R351): The button window closes after 60 s. -/
  | presenceWindowEnd
  /-- DEV_RESET_N (R441): Release of DEV_RESET_N after 1 µs low starts a device reset with cause PIN. -/
  | devResetN
  /-- HEARTBEAT_TIMEOUT (R367): The standby Safelight island takes over when the active island's heartbeat is missing 1 ms. -/
  | heartbeatTimeout
  /-- HWM_REFRESH (R366): At least once a millisecond Safelight refreshes its retained copies of HWM_d. -/
  | hwmRefresh
  /-- HS_SEAT_DEBOUNCE (R377): Both seating inputs held high for the debounce move the sequence to WINDOW. -/
  | hsSeatDebounce
  /-- HS_INSERT_DELAY (R377): The insertion delay ends and the MOSFET check starts. -/
  | hsInsertDelay
  /-- MAIN_POWER_GOOD (R377): MAIN_VOUT reaches power good and the main input is ON. -/
  | mainPowerGood
  /-- HS_RETRY_TIME (R385): After HS_RETRY_TIME a TRIPPED main input retries from step 2. -/
  | hsRetryTime
  /-- RETRY_COUNT_CLEAR (R385): One hour in ON returns the retry count to 0. -/
  | retryCountClear
  /-- NIGHT_ENTRY (R402): The target falling to NIGHT starts the entry sequence of Table 16.4. -/
  | nightEntry
  /-- NIGHT_ENTRY_ADVANCE (R402): A step of NIGHT entry completes and the next begins, or the entry is abandoned at an abort point. -/
  | nightEntryAdvance
  /-- NIGHT_EXIT (R406): A wake from NIGHT or OFF starts the exit order of Table 16.6. -/
  | nightExit
  /-- NIGHT_EXIT_ADVANCE (R406): A step of the exit order completes and the next begins. -/
  | nightExitAdvance
  /-- OFF_ENTRY (R407): With no lodging, the target reaching 0 runs entry, opens every branch and parks the main input. -/
  | offEntry
  /-- WAKE_TIMER (R404): The Safelight wake timer expires and wakes or abandons entry. -/
  | wakeTimer
  /-- WAKE_HOLD_EXPIRE (R404): The wake-hold vote lapses after PS_WAKE_HOLD. -/
  | wakeHoldExpire
  /-- HS_ALERT (R405): The hot-swap alert level wakes the device or is sampled at the end of handover. -/
  | hsAlert
  /-- ENUM_OUT_RAISE (R421): 1 ms after ASSIGN_ACK ends, with ENUM_IN high, ENUM_OUT rises. -/
  | enumOutRaise
  /-- RAIL_HOLD_RELEASE (R412): The device's drivers release a rail held beyond CR_BIT_NS ÷ 2 + 1 µs. -/
  | railHoldRelease
  /-- GB_HOUR_CUT (R432): Every hour of the Safelight timebase a guest-book cut occurs. -/
  | gbHourCut
  /-- TEMP_SAMPLE (R435): Every 1 s each die's junction temperature is binned into the guest-book histogram. -/
  | tempSample
  /-- FLASH_WRITE_DONE (R429): A configuration journal entry has been programmed and the FLASH write returns OK. -/
  | flashWriteDone
  /-- THERMAL_RECOVERY (R450): After 60 s and the package below 95 °C, the dies are powered and a THERMAL reset is applied. -/
  | thermalRecovery
  /-- STANDBY_LOSS (R447): Loss of VSTBY removes all power and opens every gate. -/
  | standbyLoss
  /-- UNCORRECTABLE_INSTRUCTION_FETCH (R340): A Keeper instruction fetch meets an uncorrectable SRAM word and restarts or halts Keeper as Table 13.1 gives. -/
  | uncorrectableInstructionFetch
  /-- COURIER_BUS_IDLE (R415): After standby power rises, the Courier receiver has seen a 100 µs spacer and treats the bus as idle, gaining its footing in the symbol stream. -/
  | courierBusIdle
  /-- ENUM_IN_HELD_HIGH (R421): ENUM_IN has been high for 1 ms, which enables an unaddressed device to accept ASSIGN or drives ENUM_OUT high on an addressed one. -/
  | enumInHeldHigh
deriving DecidableEq, Repr

end Sys2Proof
end

