-- ==== Sys2Proof/WellFormed.lean ====
section
/-! DEFINITION. When a command's operands are of the sizes its path can carry. -/

namespace Sys2Proof

/-- The size checks of the operands. -/
def Instr.wf : Instr → Bool
  | .dictRead _ payload => decide (payload.length ≤ 12)
  | .dictWrite _ payload => decide (payload.length ≤ 12 + 4096)
  | .worldCall _ req => decide (req.length ≤ 256)
  | .worldCallReply answer => decide (answer.length ≤ 256)
  | _ => true

end Sys2Proof
end

