-- ==== Sys2Proof/Decode.lean ====
section
/-! DEFINITION. What a word spells. The block takes commands, not encoded words: no row of the
table of operations has bits, so no word spells a command (INVENTORY.md, Instructions). -/

namespace Sys2Proof

/-- The command a word of `nbits` bits spells by the table's bits: the table gives no row any. -/
def decodeTableWord (_nbits _w : Nat) : Option Instr := none

end Sys2Proof
end

