-- ==== Sys2Proof/Config.lean ====
section
/-! DEFINITION. What an implementation fixes and the free values: opaque constants without a
body, so that no proof can see a value of them (log 6). Each is applied to the plain counter
`fresh` of State, which a step advances, or to the operands the value depends on. -/

namespace Sys2Proof

/-- FREE: a 256-bit secret drawn from the true random generator (07 R177, R179). -/
opaque Config.trng : Nat → BitVec 256
/-- FREE: a 32-bit seed of a sampling or mitigation LFSR (10 R271, 11 R300). -/
opaque Config.lfsrSeed : Nat → BitVec 32
/-- FREE: the next value of a 32-bit LFSR whose polynomial the spec does not give (10 R271, 11 R300). -/
opaque Config.lfsrStep : BitVec 32 → BitVec 32
/-- FREE: the hash of a four-byte string that indexes a compressor's chain table (05 R140). -/
opaque Config.hash4 : Nat → Nat
/-- FREE: the rank in which tied candidates are taken in the search, the optimal parse and package-merge (05 R140), by what
tells them apart. -/
opaque Config.tieRank : List Nat → Nat
/-- FREE: what the level-8 and level-9 parse takes a symbol to cost that the pass before did not use (05 R140): whether it
is a distance symbol, the symbol. -/
opaque Config.unusedCost : Bool → Nat → Nat
/-- FREE: the run-length coding of a table section with its code-length code (05 R140): format (0 Maeri, 1 DEFLATE),
literal/length lengths, distance lengths. -/
opaque Config.tableBits : Nat → List Nat → List Nat → List Bool
/-- FREE: the SHA-384 digest of the boot ROM version (13 R341, register 0). -/
opaque Config.romVersion : BitVec 384
/-- FREE: the fused unique ID (13 R341). -/
opaque Config.uniqueId : BitVec 128
/-- FREE: the device serial number (17 R421). -/
opaque Config.serial : BitVec 64
/-- FREE: the Ouvyth vendor ID (17 R421). -/
opaque Config.vendorId : BitVec 16
/-- FREE: whether the engine that makes a check or a decode, by draw, errs although its input is good (log 133). -/
opaque Config.engineErrs : Nat → Bool
/-- FREE: whether a line that the memory dies wrote to DRAM at entry into `NIGHT` reads back with an uncorrectable word at exit
(02 R56, 07 R201; log 150): draw, image (0-3 a die's root image, 4-7 its partner's copy, 8 the night region, 9 its mirror), line. -/
opaque Config.nightLineBad : Nat → Nat → Nat → Bool
/-- FREE: whether a port's two loads of the extent region differ at exit from `NIGHT` (03 R68; log 150): draw, port. -/
opaque Config.extentsDiffer : Nat → Nat → Bool
/-- FREE: a value the spec leaves open for an operation, by draw. -/
opaque Config.freeBits : Nat → Nat
/-- FREE: how long a line operation of the device itself takes, in ns (log 142): draw, which of the operations. -/
opaque Config.lineLatency : Nat → Nat → Nat
/-- FREE: the ECDSA P-384 signature of a message by the device identity key that the fused seed gives (13 R342; log 161). -/
opaque Config.identitySign : BitVec 256 → List Byte → List Byte
/-- FREE: the certificate chain of that key (13 R342; log 161). -/
opaque Config.certificates : BitVec 256 → List Byte
/-- FREE: the bytes of a standard payload whose fields the spec leaves to the CXL or SPDM
standard (log 9): opcode, draw. -/
opaque Config.standardPayload : Nat → Nat → List Byte

end Sys2Proof
end

