-- ==== Sys2Proof/Machine/State.lean ====
section
/-! DEFINITION. The state of the block as plain data, and the state after reset. Every field is
named in INVENTORY.md with the rule of spec/ that gives it. Indexed sets are sparse maps
(`SMap`): a key that is not listed holds the set's reset value. -/

namespace Sys2Proof.Machine

/-- A sparse map: keys strictly rising, no entry equal to what an unlisted key reads as. -/
abbrev SMap (α : Type) := List (Nat × α)

/-- Why the block stops with a fault. -/
inductive Fault where
  /-- Raised by no command: every address a command forms lies in a frame the map holds. Kept
  so that the type says what a fault would be. Safe. -/
  | noSuchCell
deriving DecidableEq, Repr

/-- Why the block has no meaning for a command. -/
inductive Refusal where
  /-- Raised by an arm of exec whose command has no meaning yet. Safe. -/
  | notModelled (mnemonic : String)
deriving DecidableEq, Repr

/-! ### Dictionary (02) -/

/-- The source classes of Table 2.7, by code. -/
inductive SrcClass where
  | courierPresent | keeper | fmApi | steward | courier
deriving DecidableEq, Repr

/-- A response of R38: the header's fields and the value. -/
structure Resp where
  status : Nat
  ty : Nat
  seq : Nat
  value : List Byte
deriving DecidableEq, Repr

/-- The status record of a CMD member (Table 2.6). -/
structure CmdRec where
  status : Nat := 0
  source : Nat := 0
  detail : Nat := 0
  seq : Nat := 0
deriving DecidableEq, Repr

/-- One session (R43): its origin, its last use, the group whose values it holds staged with
those values by member, and the row selected in each window. -/
structure Session where
  origin : Origin
  used : Nat
  group : Option Nat := none
  staged : SMap (List Byte) := []
  cursors : SMap Nat := []
deriving DecidableEq, Repr

/-- Who waits for a response: the path it returns on. -/
inductive ReplyTo where
  /-- The waiting Courier reply with this ticket. -/
  | courier (ticket : Nat)
  /-- The IME mailbox of a port. -/
  | mailbox (port : Nat)
  /-- A management core or an FM API command: the response is an output. -/
  | core (o : Origin)
  /-- Keeper, which was held in reset before the response came: it is discarded (13 R340). -/
  | discarded
deriving DecidableEq, Repr

/-- A FLASH value whose journal entry is being programmed, and the response owed after it. -/
structure FlashEntry where
  key : Nat
  value : Nat
  reply : Option (ReplyTo × Nat × Resp)
deriving DecidableEq, Repr

/-- The dictionary sequencer (02 R42-R54). `seqMirror` and `mirror` are the standby island's copies of the number and of the
NIGHT values that retention SRAM holds (01 R11, 02 Table 2.10). -/
structure Dict where
  seq : Nat := 0
  seqMirror : Nat := 0
  mirror : SMap Nat := []
  rejectCount : Nat := 0
  lastReject : Nat := 0
  params : SMap Nat := []
  sessions : List Session := []
  uses : Nat := 0
  cmds : SMap CmdRec := []
  owners : SMap Nat := []
  flashQ : List FlashEntry := []
  lastBg : Option (Nat × Nat) := none
deriving DecidableEq, Repr

/-! ### The Safelight island (13, 15, 19, 20) -/

/-- `BOOT_STAGE`, Table 20.2. -/
inductive BootStage where
  | standby | powering | booting | firmware | training | ready
deriving DecidableEq, Repr

/-- What the rails are being raised for (19 R446, 16 Table 16.6). -/
inductive RailsFor where
  /-- Nothing: no order of Table 19.4 runs. -/
  | none
  /-- A device reset follows at step 6. -/
  | boot
  /-- The exit order of Table 16.6 goes on at its step 3. -/
  | exit
deriving DecidableEq, Repr

/-- The standby island's copy of what the active island's retention SRAM keeps of a sealed device (01 R11): high-water marks,
digests, wrapped keys. -/
structure SealedCopy where
  hwmCopy : SMap Nat := []
  nightDigest : BitVec 256 := 0#256
  rootDigest : BitVec 256 := 0#256
  wrapped : List Byte := []
deriving DecidableEq, Repr

/-- Straps, life-cycle fuses, presence, rails, thermal state and the flash; `mirror` is the standby island's copy. -/
structure Safelight where
  onL2 : Bool := false
  standbyAlive : Bool := true
  vstby : Bool := true
  straps : Nat := 0
  resetCause : Nat := 1
  resetArmed : Nat := 0
  bootStage : BootStage := .standby
  fuseP : Bool := false
  fuseY : Bool := false
  fuseT : Bool := false
  fuseC : Nat := 0
  fuseVersion : Nat := 0
  fuseKey : BitVec 384 := 0#384
  fuseSeed : BitVec 256 := 0#256
  operatorId : Nat := 0
  presenceLow : Bool := false
  windowEnd : Option Nat := none
  sealMatches : Nat := 0
  railEn : BitVec 20 := 0#20
  railPg : BitVec 20 := 0#20
  railDenied : List Nat := []
  railStep : Nat := 0
  railsFor : RailsFor := .none
  tj : SMap Int := []
  thermN : Bool := false
  hotMs : SMap Nat := []
  thermShutdown : Bool := false
  thermWarnings : Nat := 0
  thermShutdowns : Nat := 0
  thermLast : Nat := 0
  hwmCopy : SMap Nat := []
  nightDigest : BitVec 256 := 0#256
  rootDigest : BitVec 256 := 0#256
  wrapped : List Byte := []
  kNight : BitVec 256 := 0#256
  kXport : BitVec 256 := 0#256
  flashOk : Bool := true
  journal : SMap Nat := []
  mirror : SealedCopy := {}
deriving DecidableEq, Repr

/-! ### Power entry (15) -/

/-- `HS_STATE`, Table 15.3. -/
inductive HsState where
  | unseated | seating | window | cooling | delay | check | ramp | on | tripped | latched | parked
deriving DecidableEq, Repr

/-- `BR_STATE`, Table 15.5. -/
inductive BrState where
  | off | ramp | on | tripped | fetFault
deriving DecidableEq, Repr

/-- One wing branch (15 R387-R391). `accum` is the fraction of the trip budget in 2^-48
(log 11), `accum2` the standby island's own (R376); `ramping` says that it is its turn to ramp. -/
structure Branch where
  state : BrState := .off
  gate : Bool := false
  ramping : Bool := false
  cooling : Bool := false
  current : Nat := 0
  vout : Nat := 0
  power : Nat := 0
  energy : Nat := 0
  energySub : Nat := 0
  accum : Nat := 0
  accum2 : Nat := 0
deriving DecidableEq, Repr

/-- The main input and the branches. -/
structure HotSwap where
  state : HsState := .unseated
  seatA : Bool := false
  seatB : Bool := false
  fltN : Bool := false
  gateA : Bool := false
  gateB : Bool := false
  tripCause : Nat := 0
  accum : Nat := 0
  accum2 : Nat := 0
  retries : Nat := 0
  vin : Nat := 0
  vmid : Nat := 0
  vout : Nat := 0
  current : Nat := 0
  power : Nat := 0
  energy : Nat := 0
  energySub : Nat := 0
  underUs : Nat := 0
  dropUs : Nat := 0
  diffUs : Nat := 0
  plimUs : Nat := 0
  rampUs : Nat := 0
  rampPlim : Nat := 0
  rampPlimTime : Nat := 0
  rampTimeout : Nat := 0
  onSince : Nat := 0
  lastTrip : Nat := 0
  counts : SMap Nat := []
  peak : Nat := 0
  windowReturn : Bool := false
  branches : SMap Branch := []
  rampQueue : List Nat := []
deriving DecidableEq, Repr

/-! ### Power states (16) -/

/-- `PS_STATE`, Table 16.7. -/
inductive PsState where
  | run | drowse | idle | entering | night | exiting | off
deriving DecidableEq, Repr

/-- Votes, entry and exit sequences, the wake timer, and gated engines. -/
structure PowerStates where
  state : PsState := .run
  target : Nat := 3
  steward : Nat := 0
  keeper : Nat := 0
  wakeHold : Bool := false
  entryStep : Nat := 0
  entryToOff : Bool := false
  abort : Option Nat := none
  latchedWake : Option Nat := none
  exitStep : Nat := 0
  exitFromOff : Bool := false
  timerEnd : Option Nat := none
  lastWake : Nat := 0
  counts : SMap Nat := []
  moving : SMap (Option Nat) := []
  gated : List Nat := []
deriving DecidableEq, Repr

/-! ### Courier (17) -/

/-- An alert record (Table 17.5). -/
structure Alert where
  source : Nat
  kind : Nat
  count : Nat
  anum : Nat
  seq : Nat
  time : Nat
  detail : Nat
deriving DecidableEq, Repr

/-- A REPLY owed to a Courier request (R418): its ticket, the requester, the parameter, and the
response once the access has completed. -/
structure CrReply where
  ticket : Nat
  src : Nat
  param : Nat
  resp : Option Resp
  newBit : Bool := false
deriving DecidableEq, Repr

/-- The Courier node. -/
structure Courier where
  address : Option Nat := none
  duplicate : Bool := false
  enumIn : Bool := false
  enumInHeld : Bool := false
  enumOut : Bool := false
  ackSent : Bool := false
  railHeld : Bool := false
  busIdle : Bool := false
  bitNs : Nat := 160
  tickets : Nat := 0
  replies : List CrReply := []
  anum : Nat := 0
  alerts : List Alert := []
  waiting : List Alert := []
  counts : SMap Nat := []
deriving DecidableEq, Repr

/-! ### Guest book (18) -/

/-- A latched cut whose records wait to be written (R432): the header fields its records share,
the figures, and the kinds still to be written. -/
structure GbCut where
  cut : Nat
  cause : Nat
  fromState : Nat
  toState : Nat
  folded : Nat
  period : Nat
  opTime : Nat
  standby : Bool
  figs : SMap Nat
  rails : SMap (Nat × Nat)
  lastTrip : Nat
  kinds : List Nat
deriving DecidableEq, Repr

/-- A sector of the guest-book areas (R430). -/
structure GbSector where
  erases : Nat := 0
  retired : Bool := false
deriving DecidableEq, Repr

/-- The guest book. `figs` holds the accumulators by figure number, `dieFigs` what each die has
not sent yet. -/
structure GuestBook where
  status : Nat := 0
  rnum : Nat := 0
  cutNum : Nat := 0
  opTime : Nat := 0
  opSub : Nat := 0
  cycles : Nat := 0
  perm : SMap Nat := []
  circ : SMap Nat := []
  sectors : SMap GbSector := []
  circPos : Nat := 0
  permPos : Nat := 0
  permCount : Nat := 0
  failed : Bool := false
  latches : List GbCut := []
  figs : SMap Nat := []
  dieFigs : SMap (SMap Nat) := []
  rails : SMap (Nat × Nat) := []
  tripSeen : Bool := false
  periodStart : Nat := 0
  lastCut : Nat := 0
  folded : Nat := 0
  fromState : Nat := 0
  major : Nat := 0
deriving DecidableEq, Repr

/-! ### Worlds (13) -/

/-- Keeper as `WORLD_STATUS` shows it, with the states in which it does not run for another
reason: held by invasive debug. -/
inductive KeeperState where
  | running | restarting | halted
deriving DecidableEq, Repr

/-- A world call waiting for Keeper or being served, and when it reached Keeper (R337). -/
structure WorldCall where
  core : Nat
  req : List Byte
  abandoned : Bool := false
  since : Nat := 0
deriving DecidableEq, Repr

/-- A region register, held twice (R344). -/
structure Region where
  main : BitVec 128 := 0#128
  copy : BitVec 128 := 0#128
deriving DecidableEq, Repr

/-- A line of the management L2 (R338): its world bit (set for Keeper), the line of management memory it holds, and whether
it is newer than that memory. -/
structure L2Line where
  keeper : Bool
  addr : Nat
  data : Line
  dirty : Bool
deriving DecidableEq, Repr

/-- Keeper, Steward, measurement and the region checkers. `mem` is the management memory by 64-byte line: the Steward memory
of L0 to L3, then Keeper's; `l2` the management L2, keyed 1024 * way + set. -/
structure Worlds where
  keeper : KeeperState := .running
  keeperUp : Bool := false
  debugHalt : Bool := false
  restarts : Nat := 0
  restartCause : Nat := 0
  restartTimes : List Nat := []
  stewardUp : BitVec 8 := 0#8
  stewardRestarting : BitVec 8 := 0#8
  calls : List WorldCall := []
  keyReissue : Bool := false
  keeperDigest : BitVec 384 := 0#384
  stewardDigest : BitVec 384 := 0#384
  spdm : List Nat := []
  meas : SMap (BitVec 384) := []
  regions : SMap Region := []
  violations : SMap Nat := []
  mem : SMap Line := []
  l2 : SMap L2Line := []
deriving DecidableEq, Repr

/-! ### Units and the error log (14) -/

/-- Service states, Table 14.2. -/
inductive UnitState where
  | inService | draining | outOfService | testing | rejoining
deriving DecidableEq, Repr

/-- One replaceable unit (R359, R374): `recent` holds the times in ns of its counts under R362
within the last second, `step` the rejoin step of Table 14.4. -/
structure UnitRec where
  state : UnitState := .inService
  cause : Nat := 0
  faults : Nat := 0
  fails : Nat := 0
  recent : List Nat := []
  step : Nat := 0
deriving DecidableEq, Repr

/-- An error log record (Table 14.8). -/
structure LogRec where
  seq : Nat
  time : Nat
  kind : Nat
  unit : Nat
  severity : Nat
  page : Option (Nat × Nat)
  body : Nat
deriving DecidableEq, Repr

/-- The hold on the alerts of one KIND (R373). -/
structure AlertHold where
  held : Bool := false
  since : Nat := 0
  seq : Nat := 0
deriving DecidableEq, Repr

/-- Unit service. `logMirror` is the standby island's copy of the error log (R372); `skew` is how far the timebase of each die stands ahead of the lowest, in ns (01 R15). -/
structure UnitService where
  units : SMap UnitRec := []
  takeover : SMap Nat := []
  scanning : List Nat := []
  rebuild : SMap (List Nat) := []
  log : List LogRec := []
  logMirror : List LogRec := []
  logSeq : Nat := 0
  holds : SMap AlertHold := []
  sramPos : SMap Nat := []
  sramCounts : SMap Nat := []
  skew : SMap Nat := []
deriving DecidableEq, Repr


/-! ### Corridor links (12) -/

/-- `CL_STATE`, Table 12.5. -/
inductive ClState where
  | off | reset | active | stopped | failed
deriving DecidableEq, Repr

/-- A `VALID` transfer held by its sender (R325): the dies it comes from and goes to, the links left after this one (01
R17), and, when this die forwards it, the link, direction and number it was received on (R324). -/
structure Xfer where
  seq : Nat
  cls : Nat
  data : Bool
  count : Nat
  payload : Line
  src : Nat
  dst : Nat
  path : List Nat := []
  came : Option (Nat × Bool × Nat) := none
deriving DecidableEq, Repr

/-- A transfer a receiver has accepted and not yet acknowledged (R324): whether its die has taken responsibility for it, and,
while it waits to be forwarded, the transfer. -/
structure RxEntry where
  seq : Nat
  cls : Nat
  data : Bool
  done : Bool := false
  onward : Option Xfer := none
deriving DecidableEq, Repr

/-- A transfer that the sender of a failed link goes on to send over the link it stands at (R333): `due` is not 0 for data
whose header went over the failed link, and counts what its message has still to send; with `unsent` the transfer stands only
for that rest. -/
structure Detour where
  x : Xfer
  unsent : Bool := false
  due : Nat := 0
deriving DecidableEq, Repr

/-- One direction of a link: the sender's side (next number, held transfers oldest first of which the
first `spilled` lie in the spill region, the next one to send again, consecutive replays, data
transfers still due per class with the link that their header came over and the die they are for, credits taken and returned,
the class whose turn it is, the `ACK` of the last `NAK`, transfers of failed links) and the receiver's side (expected number,
`NAK`, transfers not yet acknowledged, credits freed and last sent, `ACK` and `NAK` last sent). `sel` is the first of the data
groups in use. -/
structure ClDir where
  width : Nat := 0
  sel : Nat := 0
  spares : List Nat := []
  bad : BitVec 78 := 0#78
  nextSeq : Nat := 0
  held : List Xfer := []
  spilled : Nat := 0
  resend : Option Nat := none
  stuck : Nat := 0
  dataDue : SMap Nat := []
  dueFrom : SMap (Option (Nat × Bool)) := []
  dueTo : SMap Nat := []
  taken : SMap Nat := []
  returned : SMap Nat := []
  pct : Nat := 100
  turn : Nat := 0
  nakAt : Option Nat := none
  detour : List Detour := []
  expSeq : Nat := 0
  nak : Bool := false
  rx : List RxEntry := []
  freed : SMap Nat := []
  crSent : SMap Nat := []
  crTurn : Nat := 0
  ackSent : Nat := 0
  nakSent : Bool := false
deriving DecidableEq, Repr

/-- A Corridor link; `step` is the step of Table 12.4, `fails` the consecutive resets that failed. -/
structure CorrLink where
  state : ClState := .off
  ab : ClDir := {}
  ba : ClDir := {}
  step : Nat := 0
  byB : Bool := false
  lastReset : Nat := 0
  fails : Nat := 0
  counts : SMap Nat := []
deriving DecidableEq, Repr

/-! ### Lodgings (03) -/

/-- `LODGE_STATE`, Table 3.9. -/
inductive LodgeState where
  | free | preparing | ready | active | releasing | wiping
deriving DecidableEq, Repr

/-- An extent record (Table 3.4); `VALID` is that it is listed, `PORT` the table it stands in. -/
structure Extent where
  accepted : Bool
  region : Nat
  lodging : Nat
  gen : Nat
  dpa : Nat
  len : Nat
  logical : Nat
deriving DecidableEq, Repr

/-- One lodging: what Table 3.1 shows beside its committed parameters, the slot of each granule, the bytes it
holds on each die (U_{L,d}), an `ISOLATED` rewrite with the descriptor lines left on each die (R59), and how far
a destruction has come (Table 3.10). -/
structure Lodge where
  state : LodgeState := .free
  gen : Nat := 0
  pagesLost : Nat := 0
  used : SMap Nat := []
  slots : SMap Nat := []
  isoTo : Option Bool := none
  isoLeft : SMap Nat := []
  forced : Bool := false
  step : Nat := 0
deriving DecidableEq, Repr

/-- A granule slot (Table 3.11): owner, logical granule, sealed; the segment on each die. -/
structure SlotRec where
  lodging : Nat
  granule : Nat
  isSealed : Bool
  segs : List Nat
deriving DecidableEq, Repr

/-- A host release waiting for the end of a pending commit (R87): port, lodging, first granule, length. -/
structure HostRelease where
  port : Nat
  dpa : Nat
  len : Nat
deriving DecidableEq, Repr

/-- The lodgings, both copies of every port's extent table, the extent-record region, extents whose requests
drain (R65), the granule map and the capacity status. -/
structure Lodgings where
  lodges : SMap Lodge := []
  extA : SMap (List Extent) := []
  extB : SMap (List Extent) := []
  extKept : SMap (List Extent) := []
  drains : List (Nat × Extent) := []
  releases : List HostRelease := []
  slots : SMap SlotRec := []
  dirBase : SMap Nat := []
  stage : SMap Nat := []
  stageAlert : SMap Nat := []
  status : SMap Nat := []
  stranded : SMap Nat := []
deriving DecidableEq, Repr

/-! ### Ports and the switch (09) -/

/-- `LINK_STATE`, Table 9.10. -/
inductive LinkState where
  | off | disabled | training | up | down
deriving DecidableEq, Repr

/-- What an event record in a log of an IME view says (R373). -/
inductive EventBody where
  /-- General Media Event: the DPA in the port's mapping. -/
  | media (dpa : Nat)
  /-- Vendor-defined: lodging and page. -/
  | page (lodging page : Nat)
  /-- Vendor-defined: what happened (a Table 14.9 row), and its payload. -/
  | vendor (code body : Nat)
  /-- Memory Module Event: unit, state. -/
  | module (unit state : Nat)
  /-- Dynamic Capacity: 0 add, 1 release, 2 forced release; the extent. -/
  | capacity (what : Nat) (e : Extent)
deriving DecidableEq, Repr

/-- A committed HDM decoder (R246): base, size, ways, granularity, targets (vPPBs, or this IME view's position
among the interleave ways), DPA skip. -/
structure Hdm where
  base : Nat
  size : Nat
  ways : Nat
  gran : Nat
  targets : List Nat
  skip : Nat
deriving DecidableEq, Repr

/-- What a transfer through a port carries. -/
inductive Msg where
  /-- A read's data: tag, line, poison. -/
  | data (tag : Nat) (l : Line) (poison : Bool)
  /-- A completion, and the cache state it grants: 0 `Cmp`, 1 `Cmp-S`, 2 `Cmp-E`. -/
  | cmp (tag grant : Nat)
  /-- `BIConflictAck` for a line. -/
  | conflictAck (n page line : Nat)
  /-- An atomic's old value: tag, operand bytes. -/
  | atomic (tag old : Nat) (poison : Bool)
  /-- A downstream device's read completion: the lines in address order. -/
  | lines (tag : Nat) (l : List (Line × Bool))
  /-- Completed with Unsupported Request. -/
  | unsupported (tag : Nat)
  /-- A back-invalidate snoop: 0 `BISnpInv`, 1 `BISnpData`, 2 `BISnpCur`; the line, which the port's view maps to its
  own DPA. -/
  | snoop (op n page line : Nat)
  /-- A message-signalled interrupt. -/
  | interrupt (vector : Nat)
  /-- A routed PCIe or CXL transfer: kind (class of Table 9.7), source port, tag, bytes. -/
  | routed (kind src tag : Nat) (bytes : List Byte)
  /-- A multicast copy. -/
  | multicast (group : Nat) (bytes : List Byte)
  /-- A posted write to host memory: address, bytes. -/
  | dma (addr : Nat) (bytes : List Byte)
  /-- A read completion of a word of a queue's register page: queue, offset, value. -/
  | word (q off v : Nat)
  /-- What a vPPB tells its host: 0 absent, 1 present, 2 hot-remove requested, 3 Surprise Down through AER. -/
  | slot (b what : Nat)
deriving DecidableEq, Repr

/-- What a response keeps of its request's baggage tag (R270, 01 R26): agent, label, arrival in ns, home slice; whether the
request ended without poison, discard or refusal. -/
structure LatTag where
  agent : Nat
  label : Nat
  since : Nat
  home : Nat := 0
  good : Bool := true
deriving DecidableEq, Repr

/-- A transfer held or queued at a link die's switch buffer (R253-R256): class, bytes, target ports, the port it
entered by if any, latency tag; once stored, whether it lies in reserved cells; whether a word of it has been lost, so that the
path check of its tag fails at the port (01 R26). -/
structure Xmit where
  cls : Nat
  bytes : Nat
  targets : List Nat
  ingress : Option Nat
  msg : Msg
  lat : Option LatTag
  reserved : Bool := false
  spoiled : Bool := false
deriving DecidableEq, Repr

/-- A port controller. `credit` is the shaper credit of each class in units of 10^-4 bytes. -/
structure Port where
  link : LinkState := .off
  width : Nat := 0
  rate : Nat := 0
  inL1 : Bool := false
  perstOut : Bool := false
  noMem : Bool := false
  dpc : Bool := false
  linkCounts : SMap Nat := []
  dropCounts : SMap Nat := []
  events : SMap (List EventBody) := []
  overflow : SMap Nat := []
  hdmA : SMap Hdm := []
  hdmB : SMap Hdm := []
  lfsr : BitVec 32 := 0#32
  credit : SMap Int := []
  creditAt : SMap Nat := []
  busyTo : Nat := 0
  scaleSeen : Bool := false
deriving DecidableEq, Repr

/-- The switch: bindings, armed unbinds (code, target), transfers held outside the buffers, transfers stored in
each link die's buffer, open routed requests (requester's port, DSP, kind, tag), fan-out counts. -/
structure Switch where
  vcs : SMap Nat := []
  armed : SMap (Nat × Nat) := []
  waiting : List Xmit := []
  stored : SMap (List Xmit) := []
  routed : List (Nat × Nat × Nat × Nat) := []
  fanout : SMap Nat := []
deriving DecidableEq, Repr

/-! ### Regulation (10) -/

/-- The measured half of a label record (Table 10.1). `prio` is none while it stands at `BASE_PRIO`. -/
structure LabelRec where
  ewma : Nat := 0
  p99 : Nat := 0
  win : Nat := 0
  misses : Nat := 0
  prio : Option Nat := none
  latch : Bool := false
deriving DecidableEq, Repr

/-- A latency sample (R271). -/
structure Sample where
  label : Nat
  lat : Nat
  agent : Nat
deriving DecidableEq, Repr

/-- A fair-queueing point (R275): its virtual time and the tags of each share group. -/
structure Fair where
  v : Nat := 0
  s : SMap Nat := []
  f : SMap Nat := []
deriving DecidableEq, Repr

/-- Labels, mirrors, share groups, samples and the scale factor. Samples being packed are keyed by
4 * link die + memory die, transfers on their way by memory die with the link whose credit each has (2 * link, plus 1 from A
to B; 48 for none); `fair` by point: 0-63 home queues, 64-95 channels,
96-107 engine queues; `lastUsed` the cache lines and pool entries of the share groups that a lost memory die last
reported (02 R464): keys 8 * group + 2 * die, plus 1 for the pool. -/
structure Regulation where
  labels : SMap LabelRec := []
  mirror : SMap Nat := []
  mirrorMsgs : List (Nat × Nat × Nat) := []
  samples : SMap (List Sample) := []
  flights : SMap (List (Nat × List Sample)) := []
  sgMisses : SMap Nat := []
  counts : SMap Nat := []
  fair : SMap Fair := []
  lastUsed : SMap Nat := []
  bw : Nat := 0
  scale : Nat := 65536
  notified : Nat := 65536
  holding : Bool := false
deriving DecidableEq, Repr

/-! ### DRAM channels and wings (11, 04) -/

/-- `CH_STATE`, Table 11.10. -/
inductive ChState where
  | unpopulated | declared | training | active | selfRefresh | off | failed
deriving DecidableEq, Repr

/-- `WING_STATE`, Table 4.4. -/
inductive WingState where
  | openW | draining | empty | shuttering | shut | reopening
deriving DecidableEq, Repr

/-- What a queued line write holds. -/
inductive WBody where
  /-- Stored bytes and metadata, as they go to the DIMM. -/
  | raw (bytes : Line) (poison hint : Bool)
  /-- Plaintext of a lodging's line: the integrity unit seals it on the way out (07 R196). -/
  | plain (lodging page line : Nat) (bytes : Line) (poison : Bool)
deriving DecidableEq, Repr

/-- A queued write: frame and line on the die, when it arrived, and whether it is the night watch's own (13 R343). -/
structure WEntry where
  frame : Nat
  line : Nat
  body : WBody
  time : Nat
  scrub : Bool
deriving DecidableEq, Repr

/-- A queued read (11 R295): frame and line on the die, the tariff label it carries, when it arrived. -/
structure ReadEntry where
  frame : Nat
  line : Nat
  label : Nat
  time : Nat
deriving DecidableEq, Repr

/-- A merge-buffer entry (R308). -/
structure MergeEntry where
  lodging : Nat
  page : Nat
  line : Nat
  bytes : Line
  mask : BitVec 64
  since : Nat
deriving DecidableEq, Repr

/-- An activate-count table (R299), its entries row and count; `valid` as R300 gives. -/
structure ActTable where
  rows : List (Nat × Nat) := []
  openRow : Option Nat := none
deriving DecidableEq, Repr

/-- A command in the retry buffer (R301): when issued; 0 REF, 1 ACT, 2 RFMsb, 3 write, 4 read, 5 DRFM sample, 6 DRFMsb; bank
key; row; the stored line of a write. -/
structure RetryCmd where
  time : Nat
  kind : Nat
  bank : Nat
  row : Nat
  data : Option WEntry
deriving DecidableEq, Repr

/-- A DDR channel. `ceRows` counts corrected lines per row group, `ceTimes` holds the times of a row's corrected
lines, `owed` the REFs owed per rank, `since` when the tables last began to count anew, `blind` when a bank's own table's SRAM failed, `drfm` the modules that
support DRFM, `mitigate` the mitigations that wait (bank
key, row), `scrubAsked` that the night watch has asked the `E` holder of its next line (08 R222). -/
structure Chan where
  state : ChState := .unpopulated
  test : Bool := false
  temp : Int := 0
  hot : Bool := false
  ce : Nat := 0
  ue : Nat := 0
  log : List Nat := []
  counts : SMap Nat := []
  ceRows : SMap Nat := []
  ceTimes : SMap (List Nat) := []
  ceAlert : SMap Nat := []
  writes : List WEntry := []
  reads : List ReadEntry := []
  merge : List MergeEntry := []
  owed : SMap Nat := []
  acts : SMap ActTable := []
  tableValid : Bool := false
  since : Nat := 0
  blind : SMap Nat := []
  drfm : BitVec 2 := 0#2
  lfsr : BitVec 32 := 0#32
  mitigate : List (Nat × Nat) := []
  retry : List RetryCmd := []
  alertN : Bool := false
  replays : Nat := 0
  scrub : Nat := 0
  scrubAsked : Bool := false
  bursting : Bool := false
deriving DecidableEq, Repr

/-- A wing: its state, the origin of an evacuation (none: an automatic one; a unit: `TAKE_OUT`) with whether
`WING_CMD` waits for it, a reopening with the same, the epochs since it last reopened (stopping at 2,047). -/
structure Wing where
  state : WingState := .openW
  byCmd : Bool := false
  byUnit : Option Nat := none
  reopenByCmd : Bool := false
  reopenUnit : Option Nat := none
  reopenWanted : Bool := false
  reopened : Option Nat := none
deriving DecidableEq, Repr

/-! ### Page descriptors, keys and the counter tree (03 R71, 07) -/

/-- Descriptor states, Table 3.6. -/
inductive PageState where
  | unmapped | zero | plain | packed | moving | lost
deriving DecidableEq, Repr

/-- A page descriptor (Table 3.5). `loc` is `FRAME` or `SLOT` as the state reads it; `tag` is `IMAGE_TAG` or
`REFILL`; `hasFrame` says that a `LOST` page holds a refill frame. -/
structure Desc where
  state : PageState := .zero
  owner : Nat := 0
  level : Nat := 0
  dict : Nat := 0
  phase : Bool := false
  poison : Bool := false
  pinned : Bool := false
  isSealed : Bool := false
  isolated : Bool := false
  loc : Nat := 0
  version : Nat := 0
  tag : Nat := 0
  crc : Nat := 0
  len : Nat := 0
  heat : Nat := 0
  touch : Nat := 0
  hasFrame : Bool := false
deriving DecidableEq, Repr

/-- A transition slot (Table 7.2), the same on every die that has received it. -/
structure TSlot where
  secret : BitVec 256
  lodging : Nat
  epoch : Nat
deriving DecidableEq, Repr

/-- A key operation under way (R181, R202): 1 `INSTALL`, 3 `REKEY`; the secret, the dies that have not
acknowledged it, the transition slot. -/
structure KeyJob where
  op : Nat
  lodging : Nat
  secret : BitVec 256
  left : List Nat
  slot : Nat
deriving DecidableEq, Repr

/-- A re-key of a lodging: its transition slot and the boundary on each die. `asked`: requested, and Keeper has
not yet issued `REKEY`. Of each die's visit under way: its page once the snoops are out, whether its watch has fired, the
consecutive aborts of its page, and the descriptor as it was before the visit locked it (04 R106). -/
structure Rekey where
  asked : Bool := true
  slot : Nat := 0
  bounds : SMap Nat := []
  asking : SMap Nat := []
  fired : List Nat := []
  aborts : SMap Nat := []
  locked : SMap Desc := []
deriving DecidableEq, Repr

/-- The state of an IDE stream (R208). -/
inductive IdeState where
  | none | keyed | secure | insecure
deriving DecidableEq, Repr

/-- A stream entry: its state, its keys by slot (key set, direction, sub-stream), the key set in use. -/
structure IdeStream where
  state : IdeState := .none
  keys : SMap (BitVec 256) := []
  keySet : Nat := 0
deriving DecidableEq, Repr

/-- Keys and integrity. Secrets are keyed 4096 * die + lodging, transition slots 4 * die + slot; `desc` holds the
descriptors that differ from what their granule was written with (`base`, by slot number), by page key;
`ctr` and `tags` the counters and line tags of sealed frames by page key; `child`, `root`, `mac`, `nodeM` (the mirror copies: a
node's counters and MAC) and `leafTag` the counter tree by the numbers of 07 R187 and R190; `dirty` the nodes and leaves to be written back. -/
structure Protect where
  secrets : SMap (BitVec 256) := []
  tslots : SMap TSlot := []
  kMeta : SMap (BitVec 512) := []
  kTree : SMap (BitVec 256) := []
  kXport : SMap (BitVec 256) := []
  messages : SMap Nat := []
  jobs : List KeyJob := []
  epoch : SMap Nat := []
  rekeys : SMap Rekey := []
  sealFails : SMap Nat := []
  base : SMap Desc := []
  desc : SMap Desc := []
  ctr : SMap (List Nat) := []
  tags : SMap (List Nat) := []
  child : SMap Nat := []
  treeBase : SMap Nat := []
  root : SMap Nat := []
  mac : SMap Nat := []
  nodeM : SMap (List Nat × Nat) := []
  leafTag : SMap Nat := []
  dirty : List Nat := []
  hwm : SMap Nat := []
  images : SMap (List Byte) := []
  fails : SMap Nat := []
  mirrorOff : List Nat := []
  ide : SMap IdeStream := []
deriving DecidableEq, Repr

/-! ### Memory requests and coherence (08) -/

/-- What a request asks of one line. -/
inductive ReqOp where
  /-- A read: the MetaValue 0 `I`, 1 `S`, 2 `A`; whether it wants data (`MemRd`) or not (`MemInv`). -/
  | read (grant : Nat) (data : Bool)
  /-- A write of the bytes of a mask: the MetaValue. -/
  | write (grant : Nat) (bytes : Line) (mask : BitVec 64)
  /-- `MemClnEvct`. -/
  | evict
  /-- An AtomicOp: 0 FetchAdd, 1 Swap, 2 CAS; byte offset, size in bytes, operand, compare value. -/
  | atomic (op off size operand compare : Nat)
  /-- A line to be marked lost (R233). -/
  | lost
deriving DecidableEq, Repr

/-- A request with what its baggage tag says: `AGENT`, `SRC_PORT`, the requester's tag and which line of a request of
several it is, lodging, page, line, arrival in ns, label, DPA; `HOME`, `XID` and `PATH_CHECK` of the tag as stamped (01
Table 1.4). `snooped`: its snoops have been answered; `ordered`: the arbiter has
ordered it, and it waits again; `arrived`: when it first came to its home queue;
`contended`: an atomic operation that has met contention (08 R228). -/
structure MemReq where
  agent : Nat
  port : Nat
  tag : Nat
  part : Nat := 0
  n : Nat
  p : Nat
  i : Nat
  op : ReqOp
  since : Nat
  label : Nat
  dpa : Nat
  home : Nat := 0
  xid : Nat := 0
  check : Nat := 0
  snooped : Bool := false
  ordered : Bool := false
  arrived : Option Nat := none
  contended : Bool := false
deriving DecidableEq, Repr

/-- A request that waits in a home queue, where (0 slot of the slice, 1 overflow pool, 2 the Corridor receive buffer; R277),
when it arrived there, and in a receive buffer the link whose credit it keeps (2 * link, plus 1 from A to B; 48 for none). -/
structure HomeReq where
  req : MemReq
  place : Nat
  arrived : Nat := 0
  via : Nat := 48
deriving DecidableEq, Repr

/-- A directory entry (Table 8.1); a free way is not listed. With `coarse` the holders are port pairs. -/
structure DirEntry where
  excl : Bool
  coarse : Bool
  holders : List Nat
  tag : Nat
  age : Nat
deriving DecidableEq, Repr

/-- Why a coherence transaction is open. -/
inductive TxCause where
  /-- A request needs the line. -/
  | request (r : MemReq)
  /-- The entry gives up its way to a request for another line. -/
  | victim (r : MemReq)
  /-- The entry is removed, or a move or re-key reads the line. -/
  | device
deriving DecidableEq, Repr

/-- An open coherence transaction (R216): the line's slice and key, the snoop (0 `BISnpInv`, 1 `BISnpData`, 2
`BISnpCur`), the ports that have not answered, whether write-backs in answer are discarded. -/
structure Tx where
  slice : Nat
  key : Nat
  op : Nat
  left : List Nat
  drop : Bool
  cause : TxCause
deriving DecidableEq, Repr

/-- A snoop that the device itself wants and that has no tracker yet, or whose line has a transaction open (R216): slice,
line, kind (0 `BISnpInv`, 2 `BISnpCur`, 3 `BISnpInv` to every port of `HOST_PORTS`); `drop` discards what is written back. -/
structure Recall where
  slice : Nat
  key : Nat
  op : Nat
  drop : Bool
deriving DecidableEq, Repr

/-- A downstream device's request of several lines: port, tag, lines still due, whether it reads, lines by position. -/
structure Gather where
  port : Nat
  tag : Nat
  left : Nat
  reads : Bool
  got : SMap (Line × Bool)
  lat : LatTag
deriving DecidableEq, Repr

/-- The home slices: directory (keyed (4096 * slice + set) * 16 + way), `SUSPECT` sets and disabled ways, open
transactions, snoops the device has still to open, requests waiting behind one, home queues, predictors (4096 * slice + index), rotating priority, domains
down, lines lost, ports absent and ports being scanned, counts (8 * die + index), resident lines written; the next `XID`
of each link die, and the tokens each memory die has admitted in the µs of its timebase given (01 R16); `asked` the line keys
whose holder an agent of the device has asked since it was granted `E` (R222). -/
structure Coherence where
  dir : SMap DirEntry := []
  suspect : List Nat := []
  disabled : List Nat := []
  txs : List Tx := []
  due : List Recall := []
  lineQ : List MemReq := []
  home : SMap (List HomeReq) := []
  stalled : SMap (List MemReq) := []
  pred : SMap Nat := []
  rr : SMap Nat := []
  down : List Nat := []
  linesLost : SMap Nat := []
  absent : List Nat := []
  dying : List Nat := []
  counts : SMap Nat := []
  gathers : List Gather := []
  written : List Nat := []
  xids : SMap Nat := []
  tokens : SMap Nat := []
  tokenUs : SMap Nat := []
  asked : List Nat := []
deriving DecidableEq, Repr

/-! ### Preset dictionaries (05) -/

/-- `DICT_STATE`, Table 5.7. -/
inductive DictState where
  | free | training | installed | retiring | damaged
deriving DecidableEq, Repr

/-- What a die's copy of a dictionary's record holds beside its number: the content CRC and the 321 code lengths
(Table 5.6). -/
structure DictRec where
  crc : Nat := 0
  lengths : List Nat := []
deriving DecidableEq, Repr

/-- A dictionary: its state and the one a retirement returns to, its owner, its record by die, pages sampled, reference
counts by die, and of a retirement the dies that have not yet checked their moves and the sum of the counts read (R149). -/
structure DictRow where
  state : DictState := .free
  former : DictState := .free
  owner : Nat := 0xFFFF
  recs : SMap DictRec := []
  sampled : Nat := 0
  refs : SMap Nat := []
  left : List Nat := []
  found : Nat := 0
deriving DecidableEq, Repr

/-- A slot of a die's dictionary store: a dictionary and its content (R145). -/
structure StoreSlot where
  dict : Nat
  content : List Byte
deriving DecidableEq, Repr

/-- The dictionaries, each die's store (least recently used first), and decompressor errors per die: counts (12 * die +
code - 0x20) and the last record. -/
structure Comp where
  rows : SMap DictRow := []
  store : SMap (List StoreSlot) := []
  counts : SMap Nat := []
  last : SMap Nat := []
deriving DecidableEq, Repr

/-! ### Physical space, Landing cache and the tier mover (03 R75, 04) -/

/-- What a stretch of a die's frames is used for. -/
inductive UseKind where
  /-- A plain frame of a page. -/
  | page (n p : Nat)
  /-- Freed, waiting to be blanked. -/
  | blanking
  /-- A slab of 16 frames for runs of `k` slots: the page of each live run, none for a run being blanked. -/
  | slab (k : Nat) (runs : SMap (Option (Nat × Nat)))
  /-- A sealed group of 80 frames: the page of each data frame in use, none for one being blanked. -/
  | group (frames : SMap (Option (Nat × Nat)))
  /-- A reserved region: 0 granule map, 1 dictionary copy, 2 extent records, 3 night region, 4 the descriptor
  segment of a granule slot. -/
  | region (what slot : Nat)
  /-- Retired. -/
  | retired
deriving DecidableEq, Repr

/-- A stretch of frames. -/
structure Use where
  len : Nat
  kind : UseKind
deriving DecidableEq, Repr

/-- A reserved region that waits for blanked frames: die, what, granule slot, frames, alignment. -/
structure RegionWant where
  die : Nat
  what : Nat
  slot : Nat
  len : Nat
  align : Nat
deriving DecidableEq, Repr

/-- A freed stretch waiting to be blanked, in order: frames, or one run of a slab, or one data frame of a sealed
group, or the eight frames of a freed dictionary's copy, which stay reserved (05 R149). -/
inductive BlankItem where
  | frames (start len : Nat)
  | run (slab k j : Nat)
  | data (group i : Nat)
  | copy (start : Nat)
deriving DecidableEq, Repr

/-- Physical space. `uses` is keyed 2^30 * die + first frame; `passed` is how many frames of a wing the blanking pass
after training has blanked; `blankQ` holds what was freed since, by wing; `reserve` the bytes that moves have drawn from
a die's working reserve; `retired` the list of each die (R317's entry, frame); `retireJob` the retirement under way: die,
stretches of frames, entry; `search` the frames each die's owner search looks for. -/
structure Space where
  dram : List Host.Cell := []
  marks : SMap Nat := []
  uses : SMap Use := []
  passed : SMap Nat := []
  blankQ : SMap (List BlankItem) := []
  wants : List RegionWant := []
  reserve : SMap Nat := []
  retired : SMap (List (Nat × Nat)) := []
  retireJob : Option (Nat × List (Nat × Nat) × Nat) := none
  search : SMap (List Nat) := []
deriving DecidableEq, Repr

/-- Landing cache line states (Table 4.1). -/
inductive LcState where
  | clean | dirty | atomic
deriving DecidableEq, Repr

/-- A line in the Landing cache; an `INVALID` way is not listed. -/
structure LcLine where
  lodging : Nat
  page : Nat
  line : Nat
  group : Nat
  state : LcState
  rrpv : Nat
  data : Line
  poison : Bool := false
deriving DecidableEq, Repr

/-- Kinds of move (R103). -/
inductive MoveKind where
  | demote | promote | repack | relocate
deriving DecidableEq, Repr

/-- Move context states (Table 4.2). -/
inductive MoveState where
  | snapshot | encode | verify | place | commit
deriving DecidableEq, Repr

/-- A page queued for a move, with its consecutive aborts. -/
structure MoveReq where
  kind : MoveKind
  n : Nat
  p : Nat
  aborts : Nat := 0
deriving DecidableEq, Repr

/-- A move context at work: whether its watch has fired, whether it runs under the page lock throughout (R106), the
staged plaintext or ciphertext, the image, its level and dictionary, where it goes; the engine at work in the present
state (none while it waits for one), and the compressor that made the image (R107). -/
structure Move where
  req : MoveReq
  state : MoveState
  fired : Bool := false
  pess : Bool := false
  pre : Desc
  staged : List Byte := []
  marks : List Nat := []
  image : List Byte := []
  level : Nat := 0
  dict : Nat := 1024
  crc : Nat := 0
  loc : Option Nat := none
  drew : Nat := 0
  engine : Option Nat := none
  coder : Nat := 0
deriving DecidableEq, Repr

/-- The tier movers: epochs, sweep positions, queues, contexts (keyed 32 * die + context), counts,
and the evicted `DIRTY` lines whose write-back has not been ordered (R93). -/
structure Tier where
  epoch : SMap Nat := []
  sweep : SMap Nat := []
  queue : SMap (List MoveReq) := []
  moves : SMap Move := []
  counts : SMap (SMap Nat) := []
  evicted : List LcLine := []
deriving DecidableEq, Repr
/-! ### Offload jobs (06) -/

/-- `Q_STATE`, Table 6.2. -/
inductive QState where
  | disabled | enabled | stopped | draining
deriving DecidableEq, Repr

/-- An offload queue: its state, the `DETAIL` of its last stop, the indices of its register page (Table 6.3), the pass
phase of the next descriptor, the token bucket in units of 10^-6 tokens, `Q_COUNTS`. -/
structure Queue where
  state : QState := .disabled
  detail : Nat := 0
  sqTail : Nat := 0
  cqHead : Nat := 0
  sqHead : Nat := 0
  phase : Bool := true
  tokens : Nat := 0
  counts : SMap Nat := []
deriving DecidableEq, Repr

/-- A stretch of a stream that waits to be written: where it starts (its first bit in the source, or its page), its
bytes, whether it is a `LOST` or `POISONED` record, and the frame of the stream it is of. -/
structure Piece where
  start : Nat
  bytes : List Byte
  lost : Bool := false
  frame : Nat := 0
deriving DecidableEq, Repr

/-- A job's stream: opcode, format, level, lodging, dictionary (1,024 for none); the pieces still to be written; how it ends after them (status,
position, frame index); the source of a compression; source bytes consumed; the running check; of an export the next
page to be placed, the pages left, the pages whose snoops are out, the records built and those that have arrived. -/
structure Stream where
  op : Nat
  fmt : Nat := 0
  level : Nat := 0
  lodging : Nat := 0xFFFF
  dict : Nat := 1024
  pieces : List Piece := []
  last : Nat × Nat × Nat := (0, 0, 0)
  source : List Byte := []
  used : Nat := 0
  total : Nat := 0
  check : BitVec 32 := 0xFFFFFFFF#32
  next : Nat := 0
  left : Nat := 0
  asked : List Nat := []
  built : SMap Piece := []
  arrived : SMap Piece := []
deriving DecidableEq, Repr

/-- A fetched job that has not ended: queue, slot, phase, descriptor, source bytes of a source list; once started its
stream, the output entries left (address, bytes), the counts of its record, and how it ends once it has. -/
structure Job where
  queue : Nat
  index : Nat
  phase : Bool
  desc : BitVec 512
  listed : Nat := 0
  stream : Option Stream := none
  outs : List (Nat × Nat) := []
  inCount : Nat := 0
  outBytes : Nat := 0
  position : Nat := 0
  lost : Nat := 0
  saved : Bool := false
  ended : Option (Nat × Nat) := none
deriving DecidableEq, Repr

/-- A `SAVED` context: the stream, the save area's address and CRC-32C. -/
structure SavedCtx where
  stream : Stream
  area : Nat
  crc : BitVec 32
deriving DecidableEq, Repr

/-- Queues, jobs in the order fetched, and contexts: an unlisted one is `FREE`, one that holds none is `RUNNING`, one that
holds a stream is `SAVED`. -/
structure Offload where
  queues : SMap Queue := []
  jobs : List Job := []
  ctxs : SMap (Option SavedCtx) := []
deriving DecidableEq, Repr

/-! ### What leaves the device -/

/-- The MODEL's own record of what the device sends (log 12). -/
inductive Output where
  /-- The response to a dictionary access of a management core or the FM API. -/
  | dictReply (o : Origin) (param : Nat) (r : Resp)
  /-- An IME mailbox response: port, CXL return code, output payload. -/
  | mailbox (port code : Nat) (payload : List Byte)
  /-- A Courier frame: function, destination, source, parameter, data. -/
  | courier (func dest src param : Nat) (data : List Byte)
  /-- The reply to a world call: 0 served, 2 BUSY; the call buffer. -/
  | worldReply (core status : Nat) (data : List Byte)
  /-- A load of a management core was denied: it takes a data-abort trap (13 R346); 0-7 Steward, 8 the Keeper pair. -/
  | dataAbort (core : Nat)
  /-- An answer of the debug access port: opened, or IDCODE only. -/
  | debug (opened : Bool)
  /-- A line read through the debug access port. -/
  | debugLine (data : Line)
  /-- A transfer leaves a port: class of Table 9.7, what it carries. -/
  | port (p cls : Nat) (m : Msg)
  /-- VOUT_COMMAND over PMBus to the core regulator of an enable bit of Table 19.3: the step it sets (19 R445). -/
  | vout (bit step : Nat)
  /-- A level of a pin changes: its name as the spec has it, its index, whether it is high. -/
  | pin (name : String) (index : Nat) (high : Bool)
deriving DecidableEq, Repr

/-! ### The whole state -/

/-- The block: every piece of state of INVENTORY.md. -/
structure State where
  /-- the commands that wait, first in first out -/
  pending : List Instr
  /-- the aligned die timebases, in ns since device reset (01 R15) -/
  time : Nat
  /-- the active Safelight island's timebase, in ns since standby power rose -/
  slTime : Nat
  /-- the MODEL's own: how many free values have been drawn (log 6) -/
  fresh : Nat
  /-- the MODEL's own: what has left the device, oldest first (log 12) -/
  out : List Output
  /-- the dictionary sequencer (02) -/
  dict : Dict
  /-- straps, life-cycle, rails, thermal state, flash (13, 15, 19, 20) -/
  sl : Safelight
  /-- power entry (15) -/
  hs : HotSwap
  /-- power states and votes (16) -/
  ps : PowerStates
  /-- the Courier node (17) -/
  cr : Courier
  /-- the guest book (18) -/
  gb : GuestBook
  /-- Keeper, Steward, measurement, region checkers (13) -/
  world : Worlds
  /-- unit service and the error log (14) -/
  unit : UnitService
  /-- the Corridor links, by number (12) -/
  link : SMap CorrLink
  /-- lodgings, extent tables, the granule map, capacity status (03) -/
  lod : Lodgings
  /-- the port controllers, by number (09) -/
  port : SMap Port
  /-- virtual switches, bindings and the switch buffers (09) -/
  sw : Switch
  /-- labels, share groups, samples, the scale factor (10) -/
  reg : Regulation
  /-- the DDR channels, by global number (11) -/
  ch : SMap Chan
  /-- the wings, by global number (04) -/
  wing : SMap Wing
  /-- descriptors, keys, counters and IDE streams (03, 07) -/
  prot : Protect
  /-- physical space and the contents of the DIMMs (03, 04, 11) -/
  space : Space
  /-- the Landing cache, keyed (49152 * die + set of the die) * 16 + way (04) -/
  lc : SMap LcLine
  /-- the tier movers (04) -/
  tier : Tier
  /-- the home slices: directory, transactions, queues (08) -/
  coh : Coherence
  /-- preset dictionaries and decompressor errors (05) -/
  comp : Comp
  /-- offload queues, jobs and stream contexts (06) -/
  job : Offload
deriving DecidableEq, Repr

/-- The block right after reset: every part at the value the spec gives or, where it gives none, at
the value log 2, 3, 6 or 10 names. -/
def State.reset : State where
  pending := []
  time := 0
  slTime := 0
  fresh := 0
  out := []
  dict := {}
  sl := {}
  hs := {}
  ps := {}
  cr := {}
  gb := {}
  world := {}
  unit := {}
  link := []
  lod := {}
  port := []
  sw := {}
  reg := {}
  ch := []
  wing := []
  prot := {}
  space := {}
  lc := []
  tier := {}
  coh := {}
  comp := {}
  job := {}

end Sys2Proof.Machine
end

