-- ==== Sys2Proof/Machine/Ops.lean ====
section
/-! DEFINITION. Named operations every family uses: sparse maps, little-endian values, bit
fields, saturating counts, the update of one part of the state, free values, outputs. -/

namespace Sys2Proof.Machine

/-! ### Sparse maps -/

/-- What a key holds; `d` is what an unlisted key reads as. -/
def smGet {α : Type} (d : α) : SMap α → Nat → α
  | [], _ => d
  | e :: m, k => if e.1 = k then e.2 else smGet d m k

/-- Whether a key is listed, and what it holds. -/
def smFind {α : Type} : SMap α → Nat → Option α
  | [], _ => none
  | e :: m, k => if e.1 = k then some e.2 else smFind m k

/-- The map without a key. -/
def smErase {α : Type} : SMap α → Nat → SMap α
  | [], _ => []
  | e :: m, k => if e.1 = k then smErase m k else e :: smErase m k

/-- A key put before the first larger one. -/
def smInsert {α : Type} : SMap α → Nat → α → SMap α
  | [], k, v => [(k, v)]
  | e :: m, k, v => if k < e.1 then (k, v) :: e :: m else e :: smInsert m k v

/-- The map with a key listed. -/
def smSet {α : Type} (m : SMap α) (k : Nat) (v : α) : SMap α := smInsert (smErase m k) k v

/-- The map in which `k` reads `v`: a value equal to the default is not listed. -/
def smPut {α : Type} [DecidableEq α] (d : α) (m : SMap α) (k : Nat) (v : α) : SMap α :=
  if v = d then smErase m k else smSet m k v

/-- One key changed by a function. -/
def smMod {α : Type} [DecidableEq α] (d : α) (m : SMap α) (k : Nat) (f : α → α) : SMap α :=
  smPut d m k (f (smGet d m k))

/-- The entries whose key and value meet a test. -/
def smFilter {α : Type} (p : Nat → α → Bool) (m : SMap α) : SMap α := m.filter fun e => p e.1 e.2

/-- Strictly rising keys, no entry equal to the default. -/
def smWf {α : Type} [DecidableEq α] (d : α) : SMap α → Bool
  | [] => true
  | [e] => decide (e.2 ≠ d)
  | e :: e' :: m => decide (e.2 ≠ d) && decide (e.1 < e'.1) && smWf d (e' :: m)

/-! ### Bytes, fields, counts -/

/-- The number a list of bytes spells, little-endian. -/
def leNat : List Byte → Nat
  | [] => 0
  | b :: bs => b.toNat + 256 * leNat bs

/-- A number as `n` bytes, little-endian. -/
def leBytes : Nat → Nat → List Byte
  | 0, _ => []
  | n + 1, v => BitVec.ofNat 8 v :: leBytes n (v / 256)

/-- Bits `lo + w - 1 .. lo` of a number. -/
def bitsOf (v lo w : Nat) : Nat := v / 2 ^ lo % 2 ^ w

/-- Bit `i` of a number. -/
def bitOf (v i : Nat) : Bool := v.testBit i

/-- A Boolean as a bit. -/
def bNat (b : Bool) : Nat := if b then 1 else 0

/-- A count that stops at all ones of `w` bits. -/
def satAdd (w a b : Nat) : Nat := min (2 ^ w - 1) (a + b)

/-- Slice of a list: `n` entries from `o`. -/
def slice {α : Type} (o n : Nat) (l : List α) : List α := (l.drop o).take n

/-- A list cut or filled to `n` entries. -/
def fit {α : Type} (d : α) : Nat → List α → List α
  | 0, _ => []
  | n + 1, [] => d :: fit d n []
  | n + 1, x :: xs => x :: fit d n xs

/-- The newest `n` entries of a list whose newest entry is last. -/
def newest {α : Type} (n : Nat) (l : List α) : List α := l.drop (l.length - n)

/-- All numbers below `n`, rising. -/
def below (n : Nat) : List Nat := List.range n

/-- The smallest number below `n` that meets a test. -/
def firstBelow (n : Nat) (p : Nat → Bool) : Option Nat := (below n).find? p

/-- A table's entry, or a default. -/
def nth {α : Type} (d : α) (l : List α) (i : Nat) : α := l.getD i d

/-- A signed 32-bit word as an integer (type S32 of Table 2.2). -/
def s32 (b : BitVec 32) : Int := b.toInt

/-- An integer as the number its S32 encoding spells. -/
def s32Nat (i : Int) : Nat := (BitVec.ofInt 32 i).toNat

/-! ### CRC-32C and CRC-16 (05 R139, 17 R414) -/

/-- One bit of CRC-32C: reflected polynomial 0x82F6_3B78. -/
def crc32cBit (c : BitVec 32) : BitVec 32 :=
  if c.getLsbD 0 then (c >>> 1) ^^^ 0x82F63B78#32 else c >>> 1

/-- One byte of CRC-32C. -/
def crc32cByte (c : BitVec 32) (b : Byte) : BitVec 32 :=
  crc32cBit (crc32cBit (crc32cBit (crc32cBit (crc32cBit (crc32cBit (crc32cBit (crc32cBit
    (c ^^^ b.setWidth 32))))))))

/-- CRC-32C of bytes: initial value and final XOR all ones. -/
def crc32c (bs : List Byte) : BitVec 32 :=
  (bs.foldl crc32cByte 0xFFFFFFFF#32) ^^^ 0xFFFFFFFF#32

/-- One bit of CRC-32 (gzip), reflected. -/
def crc32Bit (c : BitVec 32) : BitVec 32 := if c.getLsbD 0 then (c >>> 1) ^^^ 0xEDB88320#32 else c >>> 1

/-- One byte of CRC-32. -/
def crc32Byte (c : BitVec 32) (b : Byte) : BitVec 32 :=
  (below 8).foldl (fun c _ => crc32Bit c) (c ^^^ b.setWidth 32)

/-- One bit of the Courier CRC, most significant bit first: polynomial 0x1021. -/
def crc16Bit (c : BitVec 16) (b : Bool) : BitVec 16 :=
  if c.getLsbD 15 != b then (c <<< 1) ^^^ 0x1021#16 else c <<< 1

/-- The `w` bits of a number, most significant first. -/
def msbBits : Nat → Nat → List Bool
  | 0, _ => []
  | w + 1, v => v.testBit w :: msbBits w v

/-- CRC-16 of a bit string: initial value 0xFFFF, no final XOR. -/
def crc16 (bs : List Bool) : BitVec 16 := bs.foldl crc16Bit 0xFFFF#16

/-! ### The state as a whole -/

/-- What exec answers. -/
abbrev Out := Host.Outcome State Fault Refusal

/-! ### Updates of one part of the state -/

/-- The state with `time` changed by a function. -/
def modTime (f : Nat → Nat) (s : State) : State := { s with time := f s.time }
/-- The state with `slTime` changed by a function. -/
def modSlTime (f : Nat → Nat) (s : State) : State := { s with slTime := f s.slTime }
/-- The state with `dict` changed by a function. -/
def modDict (f : Dict → Dict) (s : State) : State := { s with dict := f s.dict }
/-- The state with `sl` changed by a function. -/
def modSl (f : Safelight → Safelight) (s : State) : State := { s with sl := f s.sl }
/-- The state with `hs` changed by a function. -/
def modHs (f : HotSwap → HotSwap) (s : State) : State := { s with hs := f s.hs }
/-- The state with `ps` changed by a function. -/
def modPs (f : PowerStates → PowerStates) (s : State) : State := { s with ps := f s.ps }
/-- The state with `cr` changed by a function. -/
def modCr (f : Courier → Courier) (s : State) : State := { s with cr := f s.cr }
/-- The state with `gb` changed by a function. -/
def modGb (f : GuestBook → GuestBook) (s : State) : State := { s with gb := f s.gb }
/-- The state with `world` changed by a function. -/
def modWorld (f : Worlds → Worlds) (s : State) : State := { s with world := f s.world }
/-- The state with `unit` changed by a function. -/
def modUnit (f : UnitService → UnitService) (s : State) : State := { s with unit := f s.unit }
/-- The state with `link` changed by a function. -/
def modLink (f : SMap CorrLink → SMap CorrLink) (s : State) : State := { s with link := f s.link }
/-- The state with `lod` changed by a function. -/
def modLod (f : Lodgings → Lodgings) (s : State) : State := { s with lod := f s.lod }
/-- The state with `port` changed by a function. -/
def modPort (f : SMap Port → SMap Port) (s : State) : State := { s with port := f s.port }
/-- The state with `sw` changed by a function. -/
def modSw (f : Switch → Switch) (s : State) : State := { s with sw := f s.sw }
/-- The state with `reg` changed by a function. -/
def modReg (f : Regulation → Regulation) (s : State) : State := { s with reg := f s.reg }
/-- The state with `ch` changed by a function. -/
def modCh (f : SMap Chan → SMap Chan) (s : State) : State := { s with ch := f s.ch }
/-- The state with `wing` changed by a function. -/
def modWing (f : SMap Wing → SMap Wing) (s : State) : State := { s with wing := f s.wing }
/-- The state with `prot` changed by a function. -/
def modProt (f : Protect → Protect) (s : State) : State := { s with prot := f s.prot }
/-- The state with `space` changed by a function. -/
def modSpace (f : Space → Space) (s : State) : State := { s with space := f s.space }
/-- The state with `lc` changed by a function. -/
def modLc (f : SMap LcLine → SMap LcLine) (s : State) : State := { s with lc := f s.lc }
/-- The state with `tier` changed by a function. -/
def modTier (f : Tier → Tier) (s : State) : State := { s with tier := f s.tier }
/-- The state with `coh` changed by a function. -/
def modCoh (f : Coherence → Coherence) (s : State) : State := { s with coh := f s.coh }
/-- The state with `comp` changed by a function. -/
def modComp (f : Comp → Comp) (s : State) : State := { s with comp := f s.comp }
/-- The state with `job` changed by a function. -/
def modJob (f : Offload → Offload) (s : State) : State := { s with job := f s.job }

/-- What the active island's retention SRAM keeps of a sealed device is written to both islands' (01 R11). -/
def Safelight.mirrored (l : Safelight) : Safelight :=
  if l.standbyAlive then { l with mirror := ⟨l.hwmCopy, l.nightDigest, l.rootDigest, l.wrapped⟩ } else l

/-- The active island writes its retention SRAM. -/
def retain (f : Safelight → Safelight) (s : State) : State := modSl (fun l => (f l).mirrored) s

/-- A thing leaves the device. -/
def emit (o : Output) (s : State) : State := { s with out := s.out ++ [o] }

/-- The free-value counter, read and advanced. -/
def drawn (s : State) : Nat := s.fresh
/-- The state after a draw. -/
def afterDraw (s : State) : State := { s with fresh := s.fresh + 1 }

/-- The timebase of a die (01 R15), die IDs as in Table 0.4. -/
def dieTime (s : State) (d : Nat) : Nat := s.time + smGet 0 s.unit.skew d

/-- A function applied for every element of a list, in order. -/
def forAll {α : Type} (l : List α) (f : α → State → State) (s : State) : State :=
  l.foldl (fun t a => f a t) s

/-- A change made only where a condition holds. -/
def onlyIf (b : Bool) (f : State → State) (s : State) : State := if b then f s else s

end Sys2Proof.Machine
end

