-- ==== Sys2Proof/Machine/Params.lean ====
section
/-! DEFINITION. The parameter tables of the spec: for every group of Table 2.4 that is defined,
its members with type, access right, default, range and persistence (02 R31-R36 and the
parameter table of every chapter). -/

namespace Sys2Proof.Machine

/-- The types of Table 2.2. -/
inductive PType where
  | u8 | u16 | u32 | u64 | s32 | bool | enum | bits32 | str32 | blob | table | cmd
deriving DecidableEq, Repr

/-- The access rights of Table 2.3. -/
inductive PAcc where
  | ro | rw | rwp | rwk | wo | cmd
deriving DecidableEq, Repr

/-- The persistence classes of R35; `fixed` for the tables' dash. -/
inductive PPers where
  | volatile | night | flash | fixed
deriving DecidableEq, Repr

/-- The range or code table of a parameter (R33). -/
inductive PRange where
  | any
  | upTo (lo hi : Nat)
  | codes (l : List Nat)
  | mask (m : Nat)
  | oneOf (lo hi other : Nat)
  | aligned (n : Nat)
deriving DecidableEq, Repr

/-- One row of a parameter table: `count` members from `first`; `size` is the bytes of its value. -/
structure PSpec where
  first : Nat
  count : Nat
  ty : PType
  acc : PAcc
  size : Nat
  dflt : Nat
  range : PRange
  staged : Bool
  pers : PPers
deriving DecidableEq, Repr

/-- One range of groups of one kind: default owner code (Table 2.7), whether it is fixed, rows of
its table window (0 for none), whether it is staged, and its members. -/
structure GSpec where
  first : Nat
  count : Nat
  owner : Nat
  ownerFixed : Bool
  rows : Nat
  staged : Bool
  members : List PSpec
deriving DecidableEq, Repr

/-- The type code of Table 2.2. -/
def PType.code : PType → Nat
  | .u8 => 1 | .u16 => 2 | .u32 => 3 | .u64 => 4 | .s32 => 5 | .bool => 6 | .enum => 7
  | .bits32 => 8 | .str32 => 9 | .blob => 10 | .table => 11 | .cmd => 12

/-- Whether a value lies in a range (R7, R33). -/
def PRange.holds : PRange → Nat → Bool
  | .any, _ => true
  | .upTo lo hi, v => decide (lo ≤ v) && decide (v ≤ hi)
  | .codes l, v => l.contains v
  | .mask m, v => Nat.land v m == v
  | .oneOf lo hi x, v => (decide (lo ≤ v) && decide (v ≤ hi)) || v == x
  | .aligned n, v => v % n == 0

/-- The members of group P.0000, but for GROUP_INFO. -/
def members0000 : List PSpec :=
  [ ⟨0x10, 1, .enum, .ro, 1, 0, .any, false, .fixed⟩  -- LC_STATE (R357)
  , ⟨0x11, 1, .cmd, .cmd, 16, 0, .any, false, .fixed⟩  -- LC_CMD (R357)
  , ⟨0x12, 1, .u8, .ro, 1, 0, .any, false, .fixed⟩  -- LC_SERVICE_LEFT (R357)
  , ⟨0x13, 1, .blob, .ro, 32, 0, .any, false, .fixed⟩  -- OPERATOR_ID (R357)
  , ⟨0x14, 1, .enum, .ro, 1, 1, .any, false, .fixed⟩  -- RESET_CAUSE (R357)
  , ⟨0x15, 1, .cmd, .cmd, 16, 0, .any, false, .fixed⟩  -- DEV_RESET (R357)
  , ⟨0x16, 1, .enum, .ro, 1, 0, .any, false, .fixed⟩  -- BOOT_STAGE (R456)
  ]

/-- The members of group P.0001, but for GROUP_INFO. -/
def members0001 : List PSpec :=
  [ ⟨0x10, 1, .table, .ro, 32, 0, .any, false, .fixed⟩  -- TJ_DIE (R452)
  , ⟨0x11, 1, .u8, .rw, 1, 105, .upTo 85 110, false, .flash⟩  -- TJ_WARN (R452)
  , ⟨0x12, 1, .table, .ro, 8, 0, .any, false, .fixed⟩  -- THERM_EVENTS (R452)
  , ⟨0x13, 1, .bits32, .ro, 4, 0, .any, false, .fixed⟩  -- STRAPS (R452)
  , ⟨0x14, 1, .blob, .ro, 16, 0, .any, false, .fixed⟩  -- THERM_LAST (R452)
  ]

/-- The members of group P.0002, but for GROUP_INFO. -/
def members0002 : List PSpec :=
  [ ⟨0x01, 1, .u64, .ro, 8, 0, .any, false, .volatile⟩  -- DICT_SEQ (R54)
  , ⟨0x02, 1, .u8, .ro, 1, 0, .any, false, .volatile⟩  -- SESSION_COUNT (R54)
  , ⟨0x03, 1, .u32, .ro, 4, 0, .any, false, .volatile⟩  -- REJECT_COUNT (R54)
  , ⟨0x04, 1, .blob, .ro, 16, 0, .any, false, .volatile⟩  -- LAST_REJECT (R54)
  , ⟨0x05, 1, .u8, .rw, 1, 255, .oneOf 0 63 0xFF, false, .flash⟩  -- FM_PORT (R54)
  ]

/-- The members of group P.0003, but for GROUP_INFO. -/
def members0003 : List PSpec :=
  [ ⟨0x01, 1, .u32, .rw, 4, 0, .any, false, .fixed⟩  -- SELECT (R43)
  , ⟨0x02, 1, .cmd, .cmd, 16, 0, .any, false, .fixed⟩  -- COMMIT (R43)
  , ⟨0x03, 1, .u32, .ro, 4, 0, .any, false, .fixed⟩  -- ROW_COUNT (R43)
  , ⟨0x04, 1, .bool, .ro, 1, 0, .upTo 0 1, false, .fixed⟩  -- ROW_USED (R43)
  , ⟨0x10, 1, .enum, .rw, 1, 0, .codes [0, 1, 2, 3], true, .flash⟩  -- OWNER (R48)
  , ⟨0x11, 1, .bool, .ro, 1, 0, .upTo 0 1, false, .fixed⟩  -- OWNER_FIXED (R48)
  ]

/-- The members of group P.0010, but for GROUP_INFO. -/
def members0010 : List PSpec :=
  [ ⟨0x10, 4, .u64, .ro, 8, 0, .any, false, .night⟩  -- CAP_USABLE (R80)
  , ⟨0x14, 4, .u64, .ro, 8, 0, .any, false, .night⟩  -- CAP_FREE (R80)
  , ⟨0x18, 4, .enum, .ro, 1, 0, .any, false, .night⟩  -- CAP_STAGE (R80)
  , ⟨0x1C, 4, .u64, .ro, 8, 0, .any, false, .night⟩  -- CAP_SHORTFALL (R80)
  , ⟨0x20, 1, .u32, .ro, 4, 0, .any, false, .night⟩  -- FLOOR_TOTAL (R80)
  , ⟨0x21, 1, .u32, .ro, 4, 0, .any, false, .night⟩  -- LOGICAL_TOTAL (R80)
  , ⟨0x22, 1, .u64, .ro, 8, 0, .any, false, .night⟩  -- STRANDED (R80)
  ]

/-- The members of group P.0100, but for GROUP_INFO. -/
def members0100 : List PSpec :=
  [ ⟨0x01, 1, .u32, .ro, 4, 0, .any, false, .fixed⟩  -- CR_ADDRESS (R428)
  , ⟨0x02, 1, .bits32, .ro, 4, 0, .any, false, .fixed⟩  -- CR_STATUS (R428)
  , ⟨0x10, 1, .u32, .rw, 4, 160, .upTo 80 1000000, false, .flash⟩  -- CR_BIT_NS (R428)
  , ⟨0x11, 1, .u32, .rw, 4, 10, .upTo 0 60000, false, .flash⟩  -- CR_STALL_TIMEOUT (R428)
  , ⟨0x12, 1, .u32, .rw, 4, 4294967295, .oneOf 0 0x3FFFF 0xFFFFFFFF, false, .flash⟩  -- CR_ALERT_DEST (R428)
  , ⟨0x13, 1, .u32, .ro, 4, 0, .any, false, .fixed⟩  -- CR_ALERT_NUM (R428)
  , ⟨0x14, 1, .table, .ro, 2048, 0, .any, false, .fixed⟩  -- CR_ALERTS (R428)
  , ⟨0x15, 1, .table, .ro, 32, 0, .any, false, .fixed⟩  -- CR_COUNTS (R428)
  ]

/-- The members of group P.0180, but for GROUP_INFO. -/
def members0180 : List PSpec :=
  [ ⟨0x10, 1, .bits32, .ro, 4, 0, .any, false, .fixed⟩  -- PRESENCE_STATE (R357)
  , ⟨0x11, 1, .u8, .ro, 1, 0, .any, false, .fixed⟩  -- PRESENCE_LEFT (R357)
  , ⟨0x12, 1, .cmd, .cmd, 16, 0, .any, false, .fixed⟩  -- PRESENCE_END (R357)
  ]

/-- The members of group P.0200, but for GROUP_INFO. -/
def members0200 : List PSpec :=
  [ ⟨0x01, 1, .enum, .ro, 1, 0, .any, false, .fixed⟩  -- HS_STATE (R393)
  , ⟨0x02, 1, .cmd, .cmd, 16, 0, .any, false, .fixed⟩  -- COMMIT (R393)
  , ⟨0x03, 1, .cmd, .cmd, 16, 0, .any, false, .fixed⟩  -- HS_CMD (R393)
  , ⟨0x10, 1, .u16, .rw, 2, 10800, .upTo 9000 12000, true, .flash⟩  -- HS_UV (R393)
  , ⟨0x11, 1, .u16, .rw, 2, 13200, .upTo 12500 14000, true, .flash⟩  -- HS_OV (R393)
  , ⟨0x12, 1, .u16, .rw, 2, 0, .upTo 0 10000, true, .flash⟩  -- HS_INSERT_DELAY (R393)
  , ⟨0x13, 1, .u16, .rw, 2, 50, .upTo 10 1000, true, .flash⟩  -- HS_SEAT_DEBOUNCE (R393)
  , ⟨0x14, 1, .u16, .rw, 2, 1000, .upTo 100 12000, true, .flash⟩  -- HS_DVDT (R393)
  , ⟨0x15, 1, .u16, .rw, 2, 60, .upTo 10 400, true, .flash⟩  -- HS_FET_PLIM (R393)
  , ⟨0x16, 1, .u16, .rw, 2, 10, .upTo 1 100, true, .flash⟩  -- HS_PLIM_TIME (R393)
  , ⟨0x17, 1, .u16, .rw, 2, 100, .upTo 10 1000, true, .flash⟩  -- HS_RAMP_TIMEOUT (R393)
  , ⟨0x18, 1, .u32, .rw, 4, 250000, .upTo 10000 400000, true, .flash⟩  -- HS_FAST_TRIP (R393)
  , ⟨0x19, 1, .blob, .rw, 64, 0x7d00003a9800000271000036ee80000c35000030d4000030d400002ab98000f4240000249f0009896800001e848039387000001adb000000000000186a0, .any, true, .flash⟩  -- HS_CURVE (R393)
  , ⟨0x1A, 1, .u32, .rw, 4, 10000, .upTo 1000 600000, true, .flash⟩  -- HS_COOL_TAU (R393)
  , ⟨0x1B, 1, .u8, .rw, 1, 25, .upTo 1 99, true, .flash⟩  -- HS_RESTART_MARK (R393)
  , ⟨0x1C, 1, .u32, .rw, 4, 30000, .upTo 1000 3600000, true, .flash⟩  -- HS_RETRY_TIME (R393)
  , ⟨0x1D, 1, .u8, .rw, 1, 3, .upTo 0 16, true, .flash⟩  -- HS_RETRY_LIMIT (R393)
  , ⟨0x1E, 1, .u32, .rw, 4, 100, .upTo 20 10000, true, .flash⟩  -- HS_SHUNT (R393)
  , ⟨0x20, 1, .u32, .rw, 4, 25000, .upTo 1000 60000, true, .flash⟩  -- BR_FAST_TRIP (R393)
  , ⟨0x21, 1, .blob, .rw, 64, 0x7d000005dc000002710000057e40000c35000004e2000030d400000445c000f424000003a9800989680000030d40393870000002af80000000000002710, .any, true, .flash⟩  -- BR_CURVE (R393)
  , ⟨0x22, 1, .u16, .rw, 2, 1000, .upTo 100 12000, true, .flash⟩  -- BR_DVDT (R393)
  , ⟨0x23, 1, .u32, .rw, 4, 2000, .upTo 200 50000, true, .flash⟩  -- BR_SHUNT (R393)
  , ⟨0x30, 1, .u16, .ro, 2, 0, .any, false, .fixed⟩  -- HS_VIN (R393)
  , ⟨0x31, 1, .u16, .ro, 2, 0, .any, false, .fixed⟩  -- HS_VOUT (R393)
  , ⟨0x32, 1, .u32, .ro, 4, 0, .any, false, .fixed⟩  -- HS_CURRENT (R393)
  , ⟨0x33, 1, .u32, .ro, 4, 0, .any, false, .fixed⟩  -- HS_POWER (R393)
  , ⟨0x34, 1, .u64, .ro, 8, 0, .any, false, .fixed⟩  -- HS_ENERGY (R393)
  , ⟨0x35, 1, .u32, .ro, 4, 0, .any, false, .fixed⟩  -- HS_ACCUM (R393)
  , ⟨0x36, 1, .blob, .ro, 16, 0, .any, false, .fixed⟩  -- HS_LAST_TRIP (R393)
  , ⟨0x37, 1, .table, .ro, 32, 0, .any, false, .fixed⟩  -- HS_COUNTS (R393)
  , ⟨0x40, 16, .enum, .ro, 1, 0, .any, false, .fixed⟩  -- BR_STATE (R393)
  , ⟨0x50, 16, .u32, .ro, 4, 0, .any, false, .fixed⟩  -- BR_CURRENT (R393)
  , ⟨0x60, 16, .u16, .ro, 2, 0, .any, false, .fixed⟩  -- BR_VOUT (R393)
  , ⟨0x70, 16, .u32, .ro, 4, 0, .any, false, .fixed⟩  -- BR_POWER (R393)
  , ⟨0x80, 16, .u64, .ro, 8, 0, .any, false, .fixed⟩  -- BR_ENERGY (R393)
  , ⟨0x90, 16, .u32, .ro, 4, 0, .any, false, .fixed⟩  -- BR_ACCUM (R393)
  ]

/-- The members of group P.0300, but for GROUP_INFO. -/
def members0300 : List PSpec :=
  [ ⟨0x01, 1, .enum, .ro, 1, 0, .any, false, .fixed⟩  -- PS_STATE (R408)
  , ⟨0x02, 1, .u8, .ro, 1, 3, .any, false, .fixed⟩  -- PS_TARGET (R408)
  , ⟨0x10, 1, .u8, .rw, 1, 3, .upTo 0 3, false, .night⟩  -- PS_SHELF_VOTE (R408)
  , ⟨0x11, 1, .table, .ro, 4172, 0, .any, false, .fixed⟩  -- PS_VOTES (R408)
  , ⟨0x12, 1, .u32, .rw, 4, 0, .any, false, .night⟩  -- PS_WAKE_TIMER (R408)
  , ⟨0x13, 1, .u16, .rw, 2, 10, .upTo 1 3600, false, .flash⟩  -- PS_WAKE_HOLD (R408)
  , ⟨0x14, 1, .u16, .rw, 2, 100, .upTo 10 60000, false, .flash⟩  -- PS_SR_IDLE (R408)
  , ⟨0x15, 1, .u16, .rw, 2, 2000, .upTo 200 60000, false, .flash⟩  -- PS_ENG_IDLE (R408)
  , ⟨0x16, 1, .blob, .ro, 16, 0, .any, false, .fixed⟩  -- PS_LAST_WAKE (R408)
  , ⟨0x17, 1, .table, .ro, 24, 0, .any, false, .fixed⟩  -- PS_COUNTS (R408)
  , ⟨0x20, 8, .u8, .rw, 1, 3, .upTo 0 5, false, .flash⟩  -- PS_VCORE (R408)
  , ⟨0x28, 4, .u32, .rw, 4, 10000, .upTo 1000 12000, false, .flash⟩  -- PS_PACE (R408)
  , ⟨0x2C, 4, .enum, .rw, 1, 3, .codes [1, 2, 3], false, .flash⟩  -- PS_DDR_RATE (R408)
  , ⟨0x30, 4, .enum, .rw, 1, 6, .codes [1, 2, 3, 4, 5, 6], false, .flash⟩  -- PS_SERDES_CAP (R408)
  , ⟨0x34, 8, .u8, .ro, 1, 0, .any, false, .fixed⟩  -- PS_RAIL_STATE (R408)
  ]

/-- The members of group P.0400, but for GROUP_INFO. -/
def members0400 : List PSpec :=
  [ ⟨0x01, 1, .bits32, .ro, 4, 0, .any, false, .fixed⟩  -- GB_STATUS (R437)
  , ⟨0x02, 1, .cmd, .cmd, 16, 0, .any, false, .fixed⟩  -- GB_CMD (R437)
  , ⟨0x10, 1, .table, .ro, 1048576, 0, .any, false, .fixed⟩  -- GB_PERMANENT (R437)
  , ⟨0x11, 1, .table, .ro, 4220160, 0, .any, false, .fixed⟩  -- GB_RECENT (R437)
  , ⟨0x12, 1, .u32, .ro, 4, 0, .any, false, .fixed⟩  -- GB_OLDEST (R437)
  , ⟨0x13, 1, .u32, .ro, 4, 0, .any, false, .fixed⟩  -- GB_NEXT (R437)
  , ⟨0x14, 1, .u32, .ro, 4, 0, .any, false, .fixed⟩  -- GB_OP_TIME (R437)
  , ⟨0x15, 1, .u32, .ro, 4, 0, .any, false, .fixed⟩  -- GB_CYCLES (R437)
  , ⟨0x16, 1, .table, .ro, 5552, 0, .any, false, .fixed⟩  -- GB_SECTORS (R437)
  , ⟨0x17, 1, .u16, .rw, 2, 10, .upTo 1 3600, false, .flash⟩  -- GB_MIN_CUT (R437)
  ]

/-- The members of group P.1nnn, but for GROUP_INFO. -/
def members1nnn : List PSpec :=
  [ ⟨0x01, 1, .enum, .ro, 1, 0, .any, false, .night⟩  -- LODGE_STATE (R57)
  , ⟨0x02, 1, .cmd, .cmd, 16, 0, .any, false, .fixed⟩  -- COMMIT (R57)
  , ⟨0x03, 1, .cmd, .cmd, 16, 0, .any, false, .fixed⟩  -- LODGE_CMD (R57)
  , ⟨0x10, 1, .u32, .rw, 4, 0, .upTo 0 262144, true, .night⟩  -- LOGICAL_SIZE (R57)
  , ⟨0x11, 1, .u32, .rw, 4, 0, .upTo 0 262144, true, .night⟩  -- FLOOR (R57)
  , ⟨0x12, 1, .bits32, .rw, 4, 0, .mask 0x1F, true, .night⟩  -- ATTR (R57)
  , ⟨0x13, 1, .u16, .rw, 2, 0, .any, true, .night⟩  -- LABEL (R57)
  , ⟨0x14, 1, .u64, .rw, 8, 0, .any, true, .night⟩  -- HOST_PORTS (R57)
  , ⟨0x15, 1, .enum, .rw, 1, 0, .codes [0, 1], true, .night⟩  -- DOMAIN (R57)
  , ⟨0x20, 1, .u16, .ro, 2, 0, .any, false, .night⟩  -- GENERATION (R57)
  , ⟨0x21, 1, .u64, .ro, 8, 0, .any, false, .volatile⟩  -- USED_BYTES (R57)
  , ⟨0x22, 1, .u64, .ro, 8, 0, .any, false, .volatile⟩  -- SHORTFALL (R57)
  , ⟨0x23, 1, .u64, .ro, 8, 0, .any, false, .night⟩  -- PAGES_LOST (R57)
  , ⟨0x24, 1, .table, .ro, 524288, 0, .any, false, .night⟩  -- EXTENTS (R57)
  , ⟨0x30, 1, .bits32, .rw, 4, 0, .mask 3, false, .night⟩  -- LODGE_TIER (R126)
  , ⟨0x31, 1, .u16, .rw, 2, 0, .upTo 0 1023, false, .night⟩  -- LODGE_DEMOTE_AGE (R126)
  , ⟨0x32, 1, .u64, .ro, 8, 0, .any, false, .volatile⟩  -- PLAIN_BYTES (R126)
  , ⟨0x33, 1, .u64, .ro, 8, 0, .any, false, .volatile⟩  -- PACKED_BYTES (R126)
  , ⟨0x34, 1, .u64, .ro, 8, 0, .any, false, .volatile⟩  -- LOGICAL_PACKED (R126)
  , ⟨0x40, 1, .u16, .rw, 2, 65535, .oneOf 0 1023 0xFFFF, false, .night⟩  -- LODGE_DICT (R152)
  , ⟨0x50, 1, .u32, .ro, 4, 0, .any, false, .night⟩  -- KEY_EPOCH (R211)
  , ⟨0x51, 1, .enum, .ro, 1, 0, .any, false, .night⟩  -- REKEY_STATE (R211)
  , ⟨0x52, 1, .table, .ro, 32, 0, .any, false, .night⟩  -- REKEY_BOUNDARY (R211)
  , ⟨0x53, 1, .cmd, .cmd, 16, 0, .any, false, .fixed⟩  -- REKEY_REQUEST (R211)
  , ⟨0x54, 1, .u64, .ro, 8, 0, .any, false, .night⟩  -- SEAL_FAILS (R211)
  , ⟨0x60, 1, .enum, .ro, 1, 0, .any, false, .night⟩  -- COH_STATE (R239)
  , ⟨0x61, 1, .cmd, .cmd, 16, 0, .any, false, .fixed⟩  -- COH_RESET (R239)
  , ⟨0x62, 1, .u64, .ro, 8, 0, .any, false, .night⟩  -- LINES_LOST (R239)
  ]

/-- The members of group P.2000, but for GROUP_INFO. -/
def members2000 : List PSpec :=
  [ ⟨0x01, 1, .u16, .rw, 2, 30, .upTo 1 1023, false, .flash⟩  -- TIER_DEMOTE_AGE (R125)
  , ⟨0x02, 1, .u8, .rw, 1, 0, .upTo 0 255, false, .flash⟩  -- TIER_DEMOTE_HEAT (R125)
  , ⟨0x03, 1, .u8, .rw, 1, 4, .upTo 1 254, false, .flash⟩  -- TIER_PROMOTE_THRESHOLD (R125)
  , ⟨0x04, 1, .u8, .rw, 1, 1, .upTo 1 16, false, .flash⟩  -- TIER_PROMOTE_WINDOW (R125)
  , ⟨0x05, 1, .u16, .rw, 2, 720, .upTo 2 1023, false, .flash⟩  -- TIER_REPACK_AGE (R125)
  , ⟨0x06, 1, .u16, .rw, 2, 60, .upTo 1 3600, false, .flash⟩  -- TIER_EPOCH (R125)
  , ⟨0x07, 1, .u16, .rw, 2, 8, .upTo 1 512, false, .flash⟩  -- TIER_SWEEP_PERIOD (R125)
  , ⟨0x08, 1, .u8, .rw, 1, 3, .upTo 1 9, false, .flash⟩  -- TIER_DEMOTE_LEVEL (R125)
  , ⟨0x09, 1, .u8, .rw, 1, 8, .upTo 1 9, false, .flash⟩  -- TIER_REPACK_LEVEL (R125)
  , ⟨0x0A, 1, .u8, .rw, 1, 12, .upTo 1 16, false, .flash⟩  -- TIER_MAX_SLOTS (R125)
  , ⟨0x0B, 1, .u16, .rw, 2, 4, .upTo 1 1023, false, .flash⟩  -- TIER_AGGR_AGE (R125)
  , ⟨0x0C, 1, .u8, .rw, 1, 2, .upTo 0 255, false, .flash⟩  -- TIER_AGGR_HEAT (R125)
  , ⟨0x0D, 1, .u32, .rw, 4, 4000, .upTo 100 40000, false, .flash⟩  -- TIER_MOVE_BUDGET (R125)
  , ⟨0x0E, 1, .u16, .rw, 2, 0, .any, false, .flash⟩  -- TIER_LABEL (R125)
  , ⟨0x0F, 1, .bits32, .rw, 4, 15, .mask 0x1F, false, .flash⟩  -- TIER_ENABLE (R125)
  , ⟨0x10, 1, .u8, .rw, 1, 50, .upTo 10 90, false, .flash⟩  -- TIER_COMPACT_FILL (R125)
  , ⟨0x11, 1, .u8, .rw, 1, 10, .upTo 5 50, false, .flash⟩  -- TIER_SHUTTER_MARGIN (R125)
  , ⟨0x12, 1, .u8, .rw, 1, 5, .upTo 2 49, false, .flash⟩  -- TIER_REOPEN_MARK (R125)
  , ⟨0x13, 1, .u8, .rw, 1, 4, .upTo 1 16, false, .flash⟩  -- TIER_RETRY_LIMIT (R125)
  , ⟨0x14, 1, .u16, .ro, 2, 0, .any, false, .night⟩  -- TIER_NOW_EPOCH (R125)
  , ⟨0x15, 1, .cmd, .cmd, 16, 0, .any, false, .fixed⟩  -- WING_CMD (R125)
  , ⟨0x16, 1, .bool, .rw, 1, 1, .upTo 0 1, false, .flash⟩  -- LC_WRITE_ALLOCATE (R125)
  , ⟨0x17, 1, .u16, .rw, 2, 60, .upTo 0 1023, false, .flash⟩  -- TIER_SHUTTER_HOLD (R125)
  , ⟨0x1F, 1, .bits32, .ro, 4, 0, .any, false, .night⟩  -- WING_ANCHORS (R125)
  , ⟨0x20, 16, .enum, .ro, 1, 0, .any, false, .night⟩  -- WING_STATE (R125)
  , ⟨0x30, 16, .u64, .ro, 8, 0, .any, false, .night⟩  -- WING_USED (R125)
  , ⟨0x40, 4, .table, .ro, 64, 0, .any, false, .volatile⟩  -- TIER_COUNTS (R125)
  ]

/-- The members of group P.2100, but for GROUP_INFO. -/
def members2100 : List PSpec :=
  [ ⟨0x01, 1, .u16, .rw, 2, 64, .upTo 1 4096, false, .flash⟩  -- COMP_TRAIN_SAMPLE (R151)
  , ⟨0x02, 1, .u32, .rw, 4, 4096, .upTo 16 65536, false, .flash⟩  -- COMP_TRAIN_PAGES (R151)
  , ⟨0x03, 1, .u16, .rw, 2, 4, .upTo 2 65535, false, .flash⟩  -- COMP_TRAIN_MIN (R151)
  , ⟨0x04, 1, .u8, .rw, 1, 6, .upTo 4 9, false, .flash⟩  -- COMP_TRAIN_LEVEL (R151)
  , ⟨0x05, 1, .bool, .rw, 1, 1, .upTo 0 1, false, .flash⟩  -- COMP_DEFAULT_TABLES (R151)
  , ⟨0x10, 4, .table, .ro, 48, 0, .any, false, .volatile⟩  -- COMP_ERR_COUNTS (R151)
  , ⟨0x14, 4, .blob, .ro, 16, 0, .any, false, .volatile⟩  -- COMP_LAST_ERROR (R151)
  ]

/-- The members of group P.2200, but for GROUP_INFO. -/
def members2200 : List PSpec :=
  [ ⟨0x01, 1, .u32, .rw, 4, 0, .any, false, .fixed⟩  -- SELECT (R43)
  , ⟨0x02, 1, .cmd, .cmd, 16, 0, .any, false, .fixed⟩  -- COMMIT (R43)
  , ⟨0x03, 1, .u32, .ro, 4, 0, .any, false, .fixed⟩  -- ROW_COUNT (R43)
  , ⟨0x04, 1, .bool, .ro, 1, 0, .upTo 0 1, false, .fixed⟩  -- ROW_USED (R43)
  , ⟨0x05, 1, .cmd, .cmd, 16, 0, .any, false, .fixed⟩  -- DICT_CMD (R152)
  , ⟨0x10, 1, .enum, .ro, 1, 0, .any, false, .night⟩  -- DICT_STATE (R152)
  , ⟨0x11, 1, .u16, .ro, 2, 65535, .any, false, .night⟩  -- DICT_OWNER (R152)
  , ⟨0x12, 1, .table, .ro, 16, 0, .any, false, .night⟩  -- DICT_REFS (R152)
  , ⟨0x13, 1, .blob, .ro, 192, 0, .any, false, .night⟩  -- DICT_RECORD (R152)
  , ⟨0x14, 1, .u32, .ro, 4, 0, .any, false, .night⟩  -- DICT_SAMPLED (R152)
  ]

/-- The members of group P.2300, but for GROUP_INFO. -/
def members2300 : List PSpec :=
  [ ⟨0x01, 1, .u32, .rw, 4, 0, .any, false, .fixed⟩  -- SELECT (R43)
  , ⟨0x02, 1, .cmd, .cmd, 16, 0, .any, false, .fixed⟩  -- COMMIT (R43)
  , ⟨0x03, 1, .u32, .ro, 4, 0, .any, false, .fixed⟩  -- ROW_COUNT (R43)
  , ⟨0x04, 1, .bool, .ro, 1, 0, .upTo 0 1, false, .fixed⟩  -- ROW_USED (R43)
  , ⟨0x05, 1, .cmd, .cmd, 16, 0, .any, false, .fixed⟩  -- Q_CMD (R157)
  , ⟨0x10, 1, .u8, .rw, 1, 255, .oneOf 0 63 0xFF, true, .night⟩  -- Q_PORT (R157)
  , ⟨0x11, 1, .u16, .rw, 2, 65535, .oneOf 0 4095 0xFFFF, true, .night⟩  -- Q_LODGING (R157)
  , ⟨0x12, 1, .u64, .rw, 8, 0, .aligned 4096, true, .night⟩  -- Q_SQ_BASE (R157)
  , ⟨0x13, 1, .u64, .rw, 8, 0, .aligned 4096, true, .night⟩  -- Q_CQ_BASE (R157)
  , ⟨0x14, 1, .u16, .rw, 2, 64, .codes [16, 32, 64, 128, 256, 512, 1024, 2048, 4096], true, .night⟩  -- Q_SIZE (R157)
  , ⟨0x15, 1, .u32, .rw, 4, 100000, .upTo 1 16000000, true, .night⟩  -- Q_RATE (R157)
  , ⟨0x16, 1, .u16, .rw, 2, 256, .upTo 1 65535, true, .night⟩  -- Q_BURST (R157)
  , ⟨0x17, 1, .u16, .rw, 2, 0, .any, true, .night⟩  -- Q_LABEL (R157)
  , ⟨0x18, 1, .u16, .rw, 2, 0, .upTo 0 16383, true, .night⟩  -- Q_CTX_FIRST (R157)
  , ⟨0x19, 1, .u16, .rw, 2, 0, .upTo 0 4096, true, .night⟩  -- Q_CTX_COUNT (R157)
  , ⟨0x1A, 1, .u16, .rw, 2, 0, .upTo 0 2047, true, .night⟩  -- Q_VECTOR (R157)
  , ⟨0x1B, 1, .enum, .ro, 1, 0, .any, false, .volatile⟩  -- Q_STATE (R157)
  , ⟨0x1C, 1, .table, .ro, 48, 0, .any, false, .volatile⟩  -- Q_COUNTS (R157)
  ]

/-- The members of group P.3000, but for GROUP_INFO. -/
def members3000 : List PSpec :=
  [ ⟨0x01, 1, .cmd, .cmd, 16, 0, .any, false, .fixed⟩  -- KEY_CMD (R210)
  , ⟨0x10, 1, .bool, .rwk, 1, 1, .upTo 0 1, false, .flash⟩  -- SEAL_REQUIRE_IDE (R210)
  , ⟨0x11, 1, .bits32, .ro, 4, 15, .any, false, .volatile⟩  -- MIRROR_STATE (R210)
  , ⟨0x12, 1, .table, .ro, 64, 0, .any, false, .volatile⟩  -- INTEGRITY_FAILS (R210)
  , ⟨0x13, 1, .table, .ro, 32, 0, .any, false, .night⟩  -- HWM (R210)
  ]

/-- The members of group P.3100, but for GROUP_INFO. -/
def members3100 : List PSpec :=
  [ ⟨0x01, 1, .u32, .rw, 4, 500, .upTo 10 60000, false, .flash⟩  -- COH_ABSENCE_TIMEOUT (R238)
  , ⟨0x02, 1, .u32, .rw, 4, 100, .upTo 1 10000, false, .flash⟩  -- COH_BI_TIMEOUT (R238)
  , ⟨0x03, 1, .u32, .rw, 4, 10, .upTo 1 10000, false, .flash⟩  -- ATOM_COOL_TIME (R238)
  , ⟨0x04, 1, .enum, .rw, 1, 0, .codes [0, 1], false, .flash⟩  -- ATOM_MODE (R238)
  , ⟨0x10, 4, .u32, .ro, 4, 0, .any, false, .volatile⟩  -- COH_DIR_USED (R238)
  , ⟨0x14, 4, .table, .ro, 64, 0, .any, false, .volatile⟩  -- COH_COUNTS (R238)
  , ⟨0x18, 4, .u32, .ro, 4, 0, .any, false, .volatile⟩  -- COH_SUSPECT_SETS (R238)
  ]

/-- The members of group P.40pp, but for GROUP_INFO. -/
def members40pp : List PSpec :=
  [ ⟨0x01, 1, .enum, .ro, 1, 0, .any, false, .volatile⟩  -- LINK_STATE (R264)
  , ⟨0x02, 1, .cmd, .cmd, 16, 0, .any, false, .fixed⟩  -- COMMIT (R264)
  , ⟨0x03, 1, .cmd, .cmd, 16, 0, .any, false, .fixed⟩  -- PORT_CMD (R264)
  , ⟨0x10, 1, .enum, .rw, 1, 0, .codes [0, 1, 2], true, .flash⟩  -- PORT_ROLE (R264)
  , ⟨0x11, 1, .enum, .rw, 1, 6, .codes [1, 2, 3, 4, 5, 6], true, .flash⟩  -- PORT_MAX_RATE (R264)
  , ⟨0x12, 1, .bool, .rw, 1, 1, .upTo 0 1, true, .flash⟩  -- PORT_L1_ENABLE (R264)
  , ⟨0x13, 1, .bool, .rw, 1, 0, .upTo 0 1, true, .flash⟩  -- DSP_P2P (R264)
  , ⟨0x14, 1, .bool, .rw, 1, 1, .upTo 0 1, true, .flash⟩  -- DSP_DPC (R264)
  , ⟨0x20, 1, .u8, .ro, 1, 0, .any, false, .volatile⟩  -- PORT_WIDTH (R264)
  , ⟨0x21, 1, .enum, .ro, 1, 0, .any, false, .volatile⟩  -- PORT_RATE (R264)
  , ⟨0x22, 1, .u16, .ro, 2, 32768, .any, false, .night⟩  -- PORT_BINDING (R264)
  , ⟨0x23, 1, .table, .ro, 48, 0, .any, false, .volatile⟩  -- PORT_LINK_COUNTS (R264)
  , ⟨0x24, 1, .table, .ro, 48, 0, .any, false, .volatile⟩  -- PORT_DROP_COUNTS (R264)
  , ⟨0x30, 8, .u32, .rw, 4, 0, .upTo 0 128000, true, .flash⟩  -- PORT_SHAPE_RATE (R287)
  , ⟨0x38, 8, .u32, .rw, 4, 4096, .upTo 256 1048576, true, .flash⟩  -- PORT_SHAPE_BURST (R287)
  ]

/-- The members of group P.4100, but for GROUP_INFO. -/
def members4100 : List PSpec :=
  [ ⟨0x01, 1, .cmd, .cmd, 16, 0, .any, false, .fixed⟩  -- SW_BIND_CMD (R265)
  , ⟨0x10, 16, .enum, .rw, 1, 3, .codes [0, 1, 2, 3], false, .flash⟩  -- SW_BIFURCATION (R265)
  , ⟨0x20, 1, .enum, .rw, 1, 4, .codes [0, 1, 2, 3, 4, 5, 6, 7], false, .flash⟩  -- SW_ALPHA + 0 (R265)
  , ⟨0x21, 1, .enum, .rw, 1, 3, .codes [0, 1, 2, 3, 4, 5, 6, 7], false, .flash⟩  -- SW_ALPHA + 1 (R265)
  , ⟨0x22, 1, .enum, .rw, 1, 5, .codes [0, 1, 2, 3, 4, 5, 6, 7], false, .flash⟩  -- SW_ALPHA + 2 (R265)
  , ⟨0x23, 1, .enum, .rw, 1, 4, .codes [0, 1, 2, 3, 4, 5, 6, 7], false, .flash⟩  -- SW_ALPHA + 3 (R265)
  , ⟨0x24, 1, .enum, .rw, 1, 4, .codes [0, 1, 2, 3, 4, 5, 6, 7], false, .flash⟩  -- SW_ALPHA + 4 (R265)
  , ⟨0x25, 1, .enum, .rw, 1, 5, .codes [0, 1, 2, 3, 4, 5, 6, 7], false, .flash⟩  -- SW_ALPHA + 5 (R265)
  , ⟨0x26, 1, .enum, .rw, 1, 5, .codes [0, 1, 2, 3, 4, 5, 6, 7], false, .flash⟩  -- SW_ALPHA + 6 (R265)
  , ⟨0x27, 1, .enum, .rw, 1, 6, .codes [0, 1, 2, 3, 4, 5, 6, 7], false, .flash⟩  -- SW_ALPHA + 7 (R265)
  , ⟨0x30, 4, .u32, .ro, 4, 15872, .any, false, .volatile⟩  -- SW_BUF_FREE (R265)
  , ⟨0x34, 1, .u16, .ro, 2, 0, .any, false, .volatile⟩  -- SW_ROLE_COUNT (R265)
  , ⟨0x40, 1, .table, .ro, 2048, 255, .any, false, .night⟩  -- SW_VCS_MAP (R265)
  , ⟨0x41, 1, .table, .ro, 32, 0, .any, false, .volatile⟩  -- SW_FANOUT_COUNTS (R265)
  ]

/-- The members of group P.5000, but for GROUP_INFO. -/
def members5000 : List PSpec :=
  [ ⟨0x01, 1, .u32, .rw, 4, 0, .any, false, .fixed⟩  -- SELECT (R43)
  , ⟨0x02, 1, .cmd, .cmd, 16, 0, .any, false, .fixed⟩  -- COMMIT (R43)
  , ⟨0x03, 1, .u32, .ro, 4, 0, .any, false, .fixed⟩  -- ROW_COUNT (R43)
  , ⟨0x04, 1, .bool, .ro, 1, 0, .upTo 0 1, false, .fixed⟩  -- ROW_USED (R43)
  , ⟨0x10, 1, .u32, .rw, 4, 0, .upTo 0 1000000, true, .night⟩  -- LBL_TARGET (R268)
  , ⟨0x11, 1, .u32, .rw, 4, 0, .upTo 0 4000000, true, .night⟩  -- LBL_GUARANTEE (R268)
  , ⟨0x12, 1, .u8, .rw, 1, 0, .upTo 0 15, true, .night⟩  -- LBL_BASE_PRIO (R268)
  , ⟨0x13, 1, .u8, .rw, 1, 4, .upTo 0 15, true, .night⟩  -- LBL_EWMA_SHIFT (R268)
  , ⟨0x20, 1, .u8, .ro, 1, 0, .any, false, .volatile⟩  -- LBL_PRIO (R268)
  , ⟨0x21, 1, .u32, .ro, 4, 0, .any, false, .volatile⟩  -- LBL_LAT_EWMA (R268)
  , ⟨0x22, 1, .u32, .ro, 4, 0, .any, false, .volatile⟩  -- LBL_LAT_P99 (R268)
  , ⟨0x23, 1, .u16, .ro, 2, 0, .any, false, .volatile⟩  -- LBL_WIN_SAMPLES (R268)
  , ⟨0x24, 1, .u32, .ro, 4, 0, .any, false, .volatile⟩  -- LBL_MISSES (R268)
  , ⟨0x25, 1, .u16, .ro, 2, 0, .any, false, .volatile⟩  -- LBL_REFS (R268)
  , ⟨0x26, 1, .u32, .ro, 4, 0, .any, false, .volatile⟩  -- LBL_EFFECTIVE (R268)
  ]

/-- The members of group P.5100, but for GROUP_INFO. -/
def members5100 : List PSpec :=
  [ ⟨0x01, 1, .u64, .ro, 8, 0, .any, false, .volatile⟩  -- GUARANTEE_TOTAL (R285)
  , ⟨0x02, 1, .u32, .ro, 4, 0, .any, false, .volatile⟩  -- DELIVERABLE_BW (R285)
  , ⟨0x03, 1, .bool, .rw, 1, 0, .upTo 0 1, false, .flash⟩  -- ALLOW_OVERCOMMIT (R285)
  , ⟨0x04, 1, .u32, .ro, 4, 65536, .any, false, .volatile⟩  -- GUARANTEE_SCALE (R285)
  , ⟨0x05, 1, .u8, .rw, 1, 2, .upTo 0 8, false, .flash⟩  -- LAT_SAMPLE_SHIFT (R285)
  , ⟨0x06, 1, .u16, .rw, 2, 100, .upTo 10 10000, false, .flash⟩  -- MISS_WINDOW (R285)
  , ⟨0x07, 1, .u16, .rw, 2, 64, .upTo 1 65535, false, .flash⟩  -- MISS_MIN_SAMPLES (R285)
  , ⟨0x08, 1, .u8, .rw, 1, 20, .upTo 0 128, false, .flash⟩  -- SHAPE_OVERHEAD (R285)
  , ⟨0x09, 1, .table, .ro, 48, 0, .any, false, .volatile⟩  -- REG_COUNTS (R285)
  ]

/-- The members of group P.5101, but for GROUP_INFO. -/
def members5101 : List PSpec :=
  [ ⟨0x01, 1, .u32, .rw, 4, 0, .any, false, .fixed⟩  -- SELECT (R43)
  , ⟨0x02, 1, .cmd, .cmd, 16, 0, .any, false, .fixed⟩  -- COMMIT (R43)
  , ⟨0x03, 1, .u32, .ro, 4, 0, .any, false, .fixed⟩  -- ROW_COUNT (R43)
  , ⟨0x04, 1, .bool, .ro, 1, 0, .upTo 0 1, false, .fixed⟩  -- ROW_USED (R43)
  , ⟨0x10, 1, .u32, .rw, 4, 100, .upTo 1 1000000, true, .night⟩  -- SG_EXTRA (R286)
  , ⟨0x11, 1, .u16, .rw, 2, 0, .upTo 0 144, true, .night⟩  -- SG_LC_QUOTA (R286)
  , ⟨0x12, 1, .u16, .rw, 2, 1, .upTo 0 32, true, .night⟩  -- SG_Q_RESERVE (R286)
  , ⟨0x13, 1, .u16, .rw, 2, 128, .upTo 1 512, true, .night⟩  -- SG_Q_LIMIT (R286)
  , ⟨0x14, 1, .u16, .rw, 2, 256, .upTo 0 4096, true, .night⟩  -- SG_POOL_LIMIT (R286)
  , ⟨0x20, 1, .u32, .ro, 4, 100, .any, false, .volatile⟩  -- SG_WEIGHT (R286)
  , ⟨0x21, 1, .table, .ro, 16, 0, .any, false, .volatile⟩  -- SG_LC_USED (R286)
  , ⟨0x22, 1, .u32, .ro, 4, 0, .any, false, .volatile⟩  -- SG_MISSES (R286)
  , ⟨0x23, 1, .table, .ro, 8, 0, .any, false, .volatile⟩  -- SG_POOL_USED (R286)
  ]

/-- The members of group P.60cc, but for GROUP_INFO. -/
def members60cc : List PSpec :=
  [ ⟨0x01, 1, .enum, .ro, 1, 0, .any, false, .volatile⟩  -- CH_STATE (R316)
  , ⟨0x02, 1, .cmd, .cmd, 16, 0, .any, false, .fixed⟩  -- COMMIT (R316)
  , ⟨0x10, 1, .u8, .rw, 1, 0, .upTo 0 2, true, .flash⟩  -- CH_MODULES (R316)
  , ⟨0x11, 1, .enum, .rw, 1, 0, .codes [1, 2, 3, 4, 5, 6, 7], true, .flash⟩  -- CH_MODULE_CODE (R316)
  , ⟨0x12, 1, .u8, .rw, 1, 1, .codes [1, 2, 4], true, .flash⟩  -- CH_RANKS (R316)
  , ⟨0x13, 1, .enum, .rw, 1, 1, .codes [1, 2, 3], true, .flash⟩  -- CH_RATE (R316)
  , ⟨0x14, 1, .u8, .rw, 1, 4, .upTo 0 8, true, .flash⟩  -- CH_REF_POSTPONE (R316)
  , ⟨0x20, 1, .s32, .ro, 4, 0, .any, false, .volatile⟩  -- CH_TEMP (R316)
  , ⟨0x21, 1, .u64, .ro, 8, 0, .any, false, .volatile⟩  -- CH_CE_COUNT (R316)
  , ⟨0x22, 1, .u64, .ro, 8, 0, .any, false, .volatile⟩  -- CH_UE_COUNT (R316)
  , ⟨0x23, 1, .table, .ro, 512, 0, .any, false, .volatile⟩  -- CH_LOG (R316)
  , ⟨0x24, 1, .table, .ro, 64, 0, .any, false, .volatile⟩  -- CH_COUNTS (R316)
  , ⟨0x25, 1, .table, .ro, 64, 0, .any, false, .volatile⟩  -- CH_CE_ROWS (R316)
  ]

/-- The members of group P.6100, but for GROUP_INFO. -/
def members6100 : List PSpec :=
  [ ⟨0x01, 1, .cmd, .cmd, 16, 0, .any, false, .fixed⟩  -- DRAM_APPLY (R317)
  , ⟨0x02, 1, .u16, .rw, 2, 24, .upTo 1 168, false, .flash⟩  -- SCRUB_PERIOD (R317)
  , ⟨0x03, 1, .u16, .rw, 2, 2048, .upTo 256 32768, false, .flash⟩  -- RH_THRESHOLD (R317)
  , ⟨0x04, 1, .u16, .rw, 2, 1000, .upTo 100 10000, false, .flash⟩  -- MERGE_HOLD (R317)
  , ⟨0x05, 1, .u8, .rw, 1, 3, .upTo 1 8, false, .flash⟩  -- CA_RETRY_LIMIT (R317)
  , ⟨0x06, 1, .u16, .rw, 2, 16, .upTo 1 65535, false, .flash⟩  -- CE_ROW_ALERT (R317)
  , ⟨0x07, 1, .cmd, .cmd, 16, 0, .any, false, .fixed⟩  -- RETIRE_CMD (R317)
  , ⟨0x08, 1, .table, .ro, 262144, 0, .any, false, .flash⟩  -- RETIRED (R317)
  , ⟨0x09, 1, .table, .ro, 128, 0, .any, false, .volatile⟩  -- ECC_COUNTS (R317)
  ]

/-- The members of group P.70kk, but for GROUP_INFO. -/
def members70kk : List PSpec :=
  [ ⟨0x01, 1, .enum, .ro, 1, 0, .any, false, .volatile⟩  -- CL_STATE (R335)
  , ⟨0x03, 1, .cmd, .cmd, 16, 0, .any, false, .fixed⟩  -- CL_CMD (R335)
  , ⟨0x10, 1, .u8, .rw, 1, 8, .upTo 2 64, false, .flash⟩  -- CL_REPLAY_LIMIT (R335)
  , ⟨0x11, 1, .u16, .rw, 2, 2048, .upTo 0 4096, false, .flash⟩  -- CL_SPILL_QUOTA (R335)
  , ⟨0x20, 1, .u8, .ro, 1, 0, .any, false, .volatile⟩  -- CL_WIDTH (R335)
  , ⟨0x21, 1, .table, .ro, 32, 0, .any, false, .volatile⟩  -- CL_BAD_GROUPS (R335)
  , ⟨0x22, 1, .u32, .ro, 4, 0, .any, false, .volatile⟩  -- CL_LAST_RESET (R335)
  , ⟨0x23, 1, .table, .ro, 64, 0, .any, false, .volatile⟩  -- CL_COUNTS (R335)
  ]

/-- The members of group P.7800, but for GROUP_INFO. -/
def members7800 : List PSpec :=
  [ ⟨0x01, 1, .bits32, .ro, 4, 0, .any, false, .volatile⟩  -- WORLD_STATUS (R357)
  , ⟨0x02, 1, .u32, .ro, 4, 0, .any, false, .volatile⟩  -- KEEPER_RESTARTS (R357)
  , ⟨0x03, 1, .u16, .rwk, 2, 1000, .upTo 10 10000, false, .flash⟩  -- KEEPER_WDOG (R357)
  , ⟨0x04, 1, .u8, .rwk, 1, 3, .upTo 1 16, false, .flash⟩  -- KEEPER_RESTART_LIMIT (R357)
  , ⟨0x05, 1, .u16, .rwk, 2, 1000, .upTo 10 10000, false, .flash⟩  -- STEWARD_WDOG (R357)
  , ⟨0x10, 1, .bool, .rwp, 1, 0, .upTo 0 1, false, .night⟩  -- DBG_STEWARD_NONINV (R357)
  , ⟨0x11, 1, .bool, .rwp, 1, 0, .upTo 0 1, false, .night⟩  -- DBG_STEWARD_INV (R357)
  , ⟨0x12, 1, .bool, .rwp, 1, 0, .upTo 0 1, false, .night⟩  -- DBG_KEEPER_NONINV (R357)
  , ⟨0x13, 1, .bool, .rwp, 1, 0, .upTo 0 1, false, .night⟩  -- DBG_KEEPER_INV (R357)
  , ⟨0x14, 1, .bool, .rwp, 1, 0, .upTo 0 1, false, .flash⟩  -- SEAL_PORT_LOCK (R357)
  , ⟨0x20, 1, .table, .ro, 384, 0, .any, false, .volatile⟩  -- MEAS (R357)
  , ⟨0x21, 1, .table, .ro, 256, 0, .any, false, .fixed⟩  -- REGION_BANKS (R357)
  , ⟨0x22, 1, .table, .ro, 640, 0, .any, false, .volatile⟩  -- REGION_VIOLATIONS (R357)
  ]

/-- The members of group P.7801, but for GROUP_INFO. -/
def members7801 : List PSpec :=
  [ ⟨0x01, 1, .u32, .rw, 4, 0, .any, false, .fixed⟩  -- SELECT (R43)
  , ⟨0x02, 1, .cmd, .cmd, 16, 0, .any, false, .fixed⟩  -- COMMIT (R43)
  , ⟨0x03, 1, .u32, .ro, 4, 0, .any, false, .fixed⟩  -- ROW_COUNT (R43)
  , ⟨0x04, 1, .bool, .ro, 1, 0, .upTo 0 1, false, .fixed⟩  -- ROW_USED (R43)
  , ⟨0x10, 1, .blob, .rw, 16, 0, .any, true, .volatile⟩  -- REGION_REG (R357)
  ]

/-- The members of group P.7C00, but for GROUP_INFO. -/
def members7C00 : List PSpec :=
  [ ⟨0x01, 1, .u16, .rw, 2, 10, .upTo 1 1000, false, .flash⟩  -- UNIT_WDOG (R374)
  , ⟨0x02, 1, .u32, .rw, 4, 1000, .upTo 100 60000, false, .flash⟩  -- UNIT_PROBATION (R374)
  , ⟨0x03, 1, .u8, .rw, 1, 25, .upTo 5 100, false, .flash⟩  -- UNIT_REJOIN_CAP (R374)
  , ⟨0x04, 1, .u8, .rw, 1, 2, .upTo 1 16, false, .flash⟩  -- UNIT_FAULT_LIMIT (R374)
  , ⟨0x05, 1, .u8, .rw, 1, 3, .upTo 1 16, false, .flash⟩  -- UNIT_REJOIN_LIMIT (R374)
  , ⟨0x06, 1, .u64, .ro, 8, 0, .any, false, .night⟩  -- LOG_SEQ (R374)
  , ⟨0x07, 1, .table, .ro, 131072, 0, .any, false, .night⟩  -- ERROR_LOG (R374)
  , ⟨0x08, 1, .u16, .rw, 2, 10, .upTo 1 1000, false, .flash⟩  -- ALERT_HOLD (R374)
  ]

/-- The members of group P.7C01, but for GROUP_INFO. -/
def members7C01 : List PSpec :=
  [ ⟨0x01, 1, .u32, .rw, 4, 0, .any, false, .fixed⟩  -- SELECT (R43)
  , ⟨0x02, 1, .cmd, .cmd, 16, 0, .any, false, .fixed⟩  -- COMMIT (R43)
  , ⟨0x03, 1, .u32, .ro, 4, 0, .any, false, .fixed⟩  -- ROW_COUNT (R43)
  , ⟨0x04, 1, .bool, .ro, 1, 0, .upTo 0 1, false, .fixed⟩  -- ROW_USED (R43)
  , ⟨0x05, 1, .cmd, .cmd, 16, 0, .any, false, .fixed⟩  -- UNIT_CMD (R374)
  , ⟨0x10, 1, .enum, .ro, 1, 0, .any, false, .night⟩  -- UNIT_STATE (R374)
  , ⟨0x11, 1, .u8, .ro, 1, 0, .any, false, .night⟩  -- UNIT_CAUSE (R374)
  , ⟨0x12, 1, .u32, .ro, 4, 0, .any, false, .night⟩  -- UNIT_FAULTS (R374)
  , ⟨0x13, 1, .u8, .ro, 1, 0, .any, false, .night⟩  -- UNIT_REJOIN_FAILS (R374)
  ]

/-- Every defined group (R36, Table 2.4). -/
def groupTable : List GSpec :=
  [ ⟨0x0000, 1, 0, true, 0, false, members0000⟩
  , ⟨0x0001, 1, 0, true, 0, false, members0001⟩
  , ⟨0x0002, 1, 0, true, 0, false, members0002⟩
  , ⟨0x0003, 1, 0, true, 61440, true, members0003⟩
  , ⟨0x0010, 1, 0, true, 0, false, members0010⟩
  , ⟨0x0100, 1, 0, true, 0, false, members0100⟩
  , ⟨0x0180, 1, 0, true, 0, false, members0180⟩
  , ⟨0x0200, 1, 0, true, 0, true, members0200⟩
  , ⟨0x0300, 1, 0, true, 0, false, members0300⟩
  , ⟨0x0400, 1, 0, true, 0, false, members0400⟩
  , ⟨0x1000, 4096, 0, false, 0, true, members1nnn⟩
  , ⟨0x2000, 1, 0, false, 0, false, members2000⟩
  , ⟨0x2100, 1, 0, false, 0, false, members2100⟩
  , ⟨0x2200, 1, 0, false, 1024, true, members2200⟩
  , ⟨0x2300, 1, 0, false, 1024, true, members2300⟩
  , ⟨0x3000, 1, 1, true, 0, false, members3000⟩
  , ⟨0x3100, 1, 0, false, 0, false, members3100⟩
  , ⟨0x4000, 64, 0, false, 0, true, members40pp⟩
  , ⟨0x4100, 1, 0, false, 0, false, members4100⟩
  , ⟨0x5000, 1, 0, false, 65536, true, members5000⟩
  , ⟨0x5100, 1, 0, false, 0, false, members5100⟩
  , ⟨0x5101, 1, 0, false, 256, true, members5101⟩
  , ⟨0x6000, 32, 0, false, 0, true, members60cc⟩
  , ⟨0x6100, 1, 0, false, 0, false, members6100⟩
  , ⟨0x7000, 24, 0, false, 0, false, members70kk⟩
  , ⟨0x7800, 1, 1, true, 0, false, members7800⟩
  , ⟨0x7801, 1, 1, true, 10240, true, members7801⟩
  , ⟨0x7C00, 1, 0, false, 0, false, members7C00⟩
  , ⟨0x7C01, 1, 0, false, 376, true, members7C01⟩
  ]

/-- The row of Table 2.4 that a group belongs to, if it is defined (R32). -/
def groupSpec (g : Nat) : Option GSpec :=
  groupTable.find? fun r => decide (r.first ≤ g) && decide (g < r.first + r.count)

/-- Member 0x00 of every group: `GROUP_INFO` (R32). -/
def groupInfoSpec : PSpec := ⟨0, 1, .u64, .ro, 8, 0, .any, false, .fixed⟩

/-- The row of the parameter tables that a member belongs to. -/
def memberSpec (g : GSpec) (m : Nat) : Option PSpec :=
  if m = 0 then some groupInfoSpec
  else g.members.find? fun r => decide (r.first ≤ m) && decide (m < r.first + r.count)

/-- The specification of a 24-bit parameter number (R31, R32; R7: groups from 0xF000 are none). -/
def paramSpec (n : Nat) : Option PSpec := (groupSpec (n / 256)).bind fun g => memberSpec g (n % 256)

/-- The key under which the dictionary holds a member's value: row, then number. -/
def pkey (row n : Nat) : Nat := row * 2 ^ 24 + n

/-- The value of an RW, RWP or RWK member: what was last committed, else its default (R35). -/
def prow (s : State) (row n : Nat) : Nat :=
  match smFind s.dict.params (pkey row n) with
  | some v => v
  | none => match paramSpec n with
    | some p => p.dflt
    | none => 0

/-- The value of a member that is no row of a window. -/
def pnum (s : State) (n : Nat) : Nat := prow s 0 n

/-- The persistence class of a parameter. -/
def persOf (n : Nat) : PPers := match paramSpec n with | some r => r.pers | none => .fixed

/-! ### Parameter numbers -/

/-- P.0000.10 `LC_STATE`. -/
abbrev P.LC_STATE : Nat := 0x000010
/-- P.0000.11 `LC_CMD`. -/
abbrev P.LC_CMD : Nat := 0x000011
/-- P.0000.12 `LC_SERVICE_LEFT`. -/
abbrev P.LC_SERVICE_LEFT : Nat := 0x000012
/-- P.0000.13 `OPERATOR_ID`. -/
abbrev P.OPERATOR_ID : Nat := 0x000013
/-- P.0000.14 `RESET_CAUSE`. -/
abbrev P.RESET_CAUSE : Nat := 0x000014
/-- P.0000.15 `DEV_RESET`. -/
abbrev P.DEV_RESET : Nat := 0x000015
/-- P.0000.16 `BOOT_STAGE`. -/
abbrev P.BOOT_STAGE : Nat := 0x000016
/-- P.0001.10 `TJ_DIE`. -/
abbrev P.TJ_DIE : Nat := 0x000110
/-- P.0001.11 `TJ_WARN`. -/
abbrev P.TJ_WARN : Nat := 0x000111
/-- P.0001.12 `THERM_EVENTS`. -/
abbrev P.THERM_EVENTS : Nat := 0x000112
/-- P.0001.13 `STRAPS`. -/
abbrev P.STRAPS : Nat := 0x000113
/-- P.0001.14 `THERM_LAST`. -/
abbrev P.THERM_LAST : Nat := 0x000114
/-- P.0002.01 `DICT_SEQ`. -/
abbrev P.DICT_SEQ : Nat := 0x000201
/-- P.0002.02 `SESSION_COUNT`. -/
abbrev P.SESSION_COUNT : Nat := 0x000202
/-- P.0002.03 `REJECT_COUNT`. -/
abbrev P.REJECT_COUNT : Nat := 0x000203
/-- P.0002.04 `LAST_REJECT`. -/
abbrev P.LAST_REJECT : Nat := 0x000204
/-- P.0002.05 `FM_PORT`. -/
abbrev P.FM_PORT : Nat := 0x000205
/-- P.0003.10 `OWNER`. -/
abbrev P.OWNER : Nat := 0x000310
/-- P.0003.11 `OWNER_FIXED`. -/
abbrev P.OWNER_FIXED : Nat := 0x000311
/-- P.0010.10 `CAP_USABLE`. -/
abbrev P.CAP_USABLE : Nat := 0x001010
/-- P.0010.14 `CAP_FREE`. -/
abbrev P.CAP_FREE : Nat := 0x001014
/-- P.0010.18 `CAP_STAGE`. -/
abbrev P.CAP_STAGE : Nat := 0x001018
/-- P.0010.1C `CAP_SHORTFALL`. -/
abbrev P.CAP_SHORTFALL : Nat := 0x00101C
/-- P.0010.20 `FLOOR_TOTAL`. -/
abbrev P.FLOOR_TOTAL : Nat := 0x001020
/-- P.0010.21 `LOGICAL_TOTAL`. -/
abbrev P.LOGICAL_TOTAL : Nat := 0x001021
/-- P.0010.22 `STRANDED`. -/
abbrev P.STRANDED : Nat := 0x001022
/-- P.0100.01 `CR_ADDRESS`. -/
abbrev P.CR_ADDRESS : Nat := 0x010001
/-- P.0100.02 `CR_STATUS`. -/
abbrev P.CR_STATUS : Nat := 0x010002
/-- P.0100.10 `CR_BIT_NS`. -/
abbrev P.CR_BIT_NS : Nat := 0x010010
/-- P.0100.11 `CR_STALL_TIMEOUT`. -/
abbrev P.CR_STALL_TIMEOUT : Nat := 0x010011
/-- P.0100.12 `CR_ALERT_DEST`. -/
abbrev P.CR_ALERT_DEST : Nat := 0x010012
/-- P.0100.13 `CR_ALERT_NUM`. -/
abbrev P.CR_ALERT_NUM : Nat := 0x010013
/-- P.0100.14 `CR_ALERTS`. -/
abbrev P.CR_ALERTS : Nat := 0x010014
/-- P.0100.15 `CR_COUNTS`. -/
abbrev P.CR_COUNTS : Nat := 0x010015
/-- P.0180.10 `PRESENCE_STATE`. -/
abbrev P.PRESENCE_STATE : Nat := 0x018010
/-- P.0180.11 `PRESENCE_LEFT`. -/
abbrev P.PRESENCE_LEFT : Nat := 0x018011
/-- P.0180.12 `PRESENCE_END`. -/
abbrev P.PRESENCE_END : Nat := 0x018012
/-- P.0200.01 `HS_STATE`. -/
abbrev P.HS_STATE : Nat := 0x020001
/-- P.0200.03 `HS_CMD`. -/
abbrev P.HS_CMD : Nat := 0x020003
/-- P.0200.10 `HS_UV`. -/
abbrev P.HS_UV : Nat := 0x020010
/-- P.0200.11 `HS_OV`. -/
abbrev P.HS_OV : Nat := 0x020011
/-- P.0200.12 `HS_INSERT_DELAY`. -/
abbrev P.HS_INSERT_DELAY : Nat := 0x020012
/-- P.0200.13 `HS_SEAT_DEBOUNCE`. -/
abbrev P.HS_SEAT_DEBOUNCE : Nat := 0x020013
/-- P.0200.14 `HS_DVDT`. -/
abbrev P.HS_DVDT : Nat := 0x020014
/-- P.0200.15 `HS_FET_PLIM`. -/
abbrev P.HS_FET_PLIM : Nat := 0x020015
/-- P.0200.16 `HS_PLIM_TIME`. -/
abbrev P.HS_PLIM_TIME : Nat := 0x020016
/-- P.0200.17 `HS_RAMP_TIMEOUT`. -/
abbrev P.HS_RAMP_TIMEOUT : Nat := 0x020017
/-- P.0200.18 `HS_FAST_TRIP`. -/
abbrev P.HS_FAST_TRIP : Nat := 0x020018
/-- P.0200.19 `HS_CURVE`. -/
abbrev P.HS_CURVE : Nat := 0x020019
/-- P.0200.1A `HS_COOL_TAU`. -/
abbrev P.HS_COOL_TAU : Nat := 0x02001A
/-- P.0200.1B `HS_RESTART_MARK`. -/
abbrev P.HS_RESTART_MARK : Nat := 0x02001B
/-- P.0200.1C `HS_RETRY_TIME`. -/
abbrev P.HS_RETRY_TIME : Nat := 0x02001C
/-- P.0200.1D `HS_RETRY_LIMIT`. -/
abbrev P.HS_RETRY_LIMIT : Nat := 0x02001D
/-- P.0200.1E `HS_SHUNT`. -/
abbrev P.HS_SHUNT : Nat := 0x02001E
/-- P.0200.20 `BR_FAST_TRIP`. -/
abbrev P.BR_FAST_TRIP : Nat := 0x020020
/-- P.0200.21 `BR_CURVE`. -/
abbrev P.BR_CURVE : Nat := 0x020021
/-- P.0200.22 `BR_DVDT`. -/
abbrev P.BR_DVDT : Nat := 0x020022
/-- P.0200.23 `BR_SHUNT`. -/
abbrev P.BR_SHUNT : Nat := 0x020023
/-- P.0200.30 `HS_VIN`. -/
abbrev P.HS_VIN : Nat := 0x020030
/-- P.0200.31 `HS_VOUT`. -/
abbrev P.HS_VOUT : Nat := 0x020031
/-- P.0200.32 `HS_CURRENT`. -/
abbrev P.HS_CURRENT : Nat := 0x020032
/-- P.0200.33 `HS_POWER`. -/
abbrev P.HS_POWER : Nat := 0x020033
/-- P.0200.34 `HS_ENERGY`. -/
abbrev P.HS_ENERGY : Nat := 0x020034
/-- P.0200.35 `HS_ACCUM`. -/
abbrev P.HS_ACCUM : Nat := 0x020035
/-- P.0200.36 `HS_LAST_TRIP`. -/
abbrev P.HS_LAST_TRIP : Nat := 0x020036
/-- P.0200.37 `HS_COUNTS`. -/
abbrev P.HS_COUNTS : Nat := 0x020037
/-- P.0200.40 `BR_STATE`. -/
abbrev P.BR_STATE : Nat := 0x020040
/-- P.0200.50 `BR_CURRENT`. -/
abbrev P.BR_CURRENT : Nat := 0x020050
/-- P.0200.60 `BR_VOUT`. -/
abbrev P.BR_VOUT : Nat := 0x020060
/-- P.0200.70 `BR_POWER`. -/
abbrev P.BR_POWER : Nat := 0x020070
/-- P.0200.80 `BR_ENERGY`. -/
abbrev P.BR_ENERGY : Nat := 0x020080
/-- P.0200.90 `BR_ACCUM`. -/
abbrev P.BR_ACCUM : Nat := 0x020090
/-- P.0300.01 `PS_STATE`. -/
abbrev P.PS_STATE : Nat := 0x030001
/-- P.0300.02 `PS_TARGET`. -/
abbrev P.PS_TARGET : Nat := 0x030002
/-- P.0300.10 `PS_SHELF_VOTE`. -/
abbrev P.PS_SHELF_VOTE : Nat := 0x030010
/-- P.0300.11 `PS_VOTES`. -/
abbrev P.PS_VOTES : Nat := 0x030011
/-- P.0300.12 `PS_WAKE_TIMER`. -/
abbrev P.PS_WAKE_TIMER : Nat := 0x030012
/-- P.0300.13 `PS_WAKE_HOLD`. -/
abbrev P.PS_WAKE_HOLD : Nat := 0x030013
/-- P.0300.14 `PS_SR_IDLE`. -/
abbrev P.PS_SR_IDLE : Nat := 0x030014
/-- P.0300.15 `PS_ENG_IDLE`. -/
abbrev P.PS_ENG_IDLE : Nat := 0x030015
/-- P.0300.16 `PS_LAST_WAKE`. -/
abbrev P.PS_LAST_WAKE : Nat := 0x030016
/-- P.0300.17 `PS_COUNTS`. -/
abbrev P.PS_COUNTS : Nat := 0x030017
/-- P.0300.20 `PS_VCORE`. -/
abbrev P.PS_VCORE : Nat := 0x030020
/-- P.0300.28 `PS_PACE`. -/
abbrev P.PS_PACE : Nat := 0x030028
/-- P.0300.2C `PS_DDR_RATE`. -/
abbrev P.PS_DDR_RATE : Nat := 0x03002C
/-- P.0300.30 `PS_SERDES_CAP`. -/
abbrev P.PS_SERDES_CAP : Nat := 0x030030
/-- P.0300.34 `PS_RAIL_STATE`. -/
abbrev P.PS_RAIL_STATE : Nat := 0x030034
/-- P.0400.01 `GB_STATUS`. -/
abbrev P.GB_STATUS : Nat := 0x040001
/-- P.0400.02 `GB_CMD`. -/
abbrev P.GB_CMD : Nat := 0x040002
/-- P.0400.10 `GB_PERMANENT`. -/
abbrev P.GB_PERMANENT : Nat := 0x040010
/-- P.0400.11 `GB_RECENT`. -/
abbrev P.GB_RECENT : Nat := 0x040011
/-- P.0400.12 `GB_OLDEST`. -/
abbrev P.GB_OLDEST : Nat := 0x040012
/-- P.0400.13 `GB_NEXT`. -/
abbrev P.GB_NEXT : Nat := 0x040013
/-- P.0400.14 `GB_OP_TIME`. -/
abbrev P.GB_OP_TIME : Nat := 0x040014
/-- P.0400.15 `GB_CYCLES`. -/
abbrev P.GB_CYCLES : Nat := 0x040015
/-- P.0400.16 `GB_SECTORS`. -/
abbrev P.GB_SECTORS : Nat := 0x040016
/-- P.0400.17 `GB_MIN_CUT`. -/
abbrev P.GB_MIN_CUT : Nat := 0x040017
/-- P.1nnn.01 `LODGE_STATE`. -/
abbrev P.LODGE_STATE : Nat := 0x100001
/-- P.1nnn.03 `LODGE_CMD`. -/
abbrev P.LODGE_CMD : Nat := 0x100003
/-- P.1nnn.10 `LOGICAL_SIZE`. -/
abbrev P.LOGICAL_SIZE : Nat := 0x100010
/-- P.1nnn.11 `FLOOR`. -/
abbrev P.FLOOR : Nat := 0x100011
/-- P.1nnn.12 `ATTR`. -/
abbrev P.ATTR : Nat := 0x100012
/-- P.1nnn.13 `LABEL`. -/
abbrev P.LABEL : Nat := 0x100013
/-- P.1nnn.14 `HOST_PORTS`. -/
abbrev P.HOST_PORTS : Nat := 0x100014
/-- P.1nnn.15 `DOMAIN`. -/
abbrev P.DOMAIN : Nat := 0x100015
/-- P.1nnn.20 `GENERATION`. -/
abbrev P.GENERATION : Nat := 0x100020
/-- P.1nnn.21 `USED_BYTES`. -/
abbrev P.USED_BYTES : Nat := 0x100021
/-- P.1nnn.22 `SHORTFALL`. -/
abbrev P.SHORTFALL : Nat := 0x100022
/-- P.1nnn.23 `PAGES_LOST`. -/
abbrev P.PAGES_LOST : Nat := 0x100023
/-- P.1nnn.24 `EXTENTS`. -/
abbrev P.EXTENTS : Nat := 0x100024
/-- P.1nnn.30 `LODGE_TIER`. -/
abbrev P.LODGE_TIER : Nat := 0x100030
/-- P.1nnn.31 `LODGE_DEMOTE_AGE`. -/
abbrev P.LODGE_DEMOTE_AGE : Nat := 0x100031
/-- P.1nnn.32 `PLAIN_BYTES`. -/
abbrev P.PLAIN_BYTES : Nat := 0x100032
/-- P.1nnn.33 `PACKED_BYTES`. -/
abbrev P.PACKED_BYTES : Nat := 0x100033
/-- P.1nnn.34 `LOGICAL_PACKED`. -/
abbrev P.LOGICAL_PACKED : Nat := 0x100034
/-- P.1nnn.40 `LODGE_DICT`. -/
abbrev P.LODGE_DICT : Nat := 0x100040
/-- P.1nnn.50 `KEY_EPOCH`. -/
abbrev P.KEY_EPOCH : Nat := 0x100050
/-- P.1nnn.51 `REKEY_STATE`. -/
abbrev P.REKEY_STATE : Nat := 0x100051
/-- P.1nnn.52 `REKEY_BOUNDARY`. -/
abbrev P.REKEY_BOUNDARY : Nat := 0x100052
/-- P.1nnn.53 `REKEY_REQUEST`. -/
abbrev P.REKEY_REQUEST : Nat := 0x100053
/-- P.1nnn.54 `SEAL_FAILS`. -/
abbrev P.SEAL_FAILS : Nat := 0x100054
/-- P.1nnn.60 `COH_STATE`. -/
abbrev P.COH_STATE : Nat := 0x100060
/-- P.1nnn.61 `COH_RESET`. -/
abbrev P.COH_RESET : Nat := 0x100061
/-- P.1nnn.62 `LINES_LOST`. -/
abbrev P.LINES_LOST : Nat := 0x100062
/-- P.2000.01 `TIER_DEMOTE_AGE`. -/
abbrev P.TIER_DEMOTE_AGE : Nat := 0x200001
/-- P.2000.02 `TIER_DEMOTE_HEAT`. -/
abbrev P.TIER_DEMOTE_HEAT : Nat := 0x200002
/-- P.2000.03 `TIER_PROMOTE_THRESHOLD`. -/
abbrev P.TIER_PROMOTE_THRESHOLD : Nat := 0x200003
/-- P.2000.04 `TIER_PROMOTE_WINDOW`. -/
abbrev P.TIER_PROMOTE_WINDOW : Nat := 0x200004
/-- P.2000.05 `TIER_REPACK_AGE`. -/
abbrev P.TIER_REPACK_AGE : Nat := 0x200005
/-- P.2000.06 `TIER_EPOCH`. -/
abbrev P.TIER_EPOCH : Nat := 0x200006
/-- P.2000.07 `TIER_SWEEP_PERIOD`. -/
abbrev P.TIER_SWEEP_PERIOD : Nat := 0x200007
/-- P.2000.08 `TIER_DEMOTE_LEVEL`. -/
abbrev P.TIER_DEMOTE_LEVEL : Nat := 0x200008
/-- P.2000.09 `TIER_REPACK_LEVEL`. -/
abbrev P.TIER_REPACK_LEVEL : Nat := 0x200009
/-- P.2000.0A `TIER_MAX_SLOTS`. -/
abbrev P.TIER_MAX_SLOTS : Nat := 0x20000A
/-- P.2000.0B `TIER_AGGR_AGE`. -/
abbrev P.TIER_AGGR_AGE : Nat := 0x20000B
/-- P.2000.0C `TIER_AGGR_HEAT`. -/
abbrev P.TIER_AGGR_HEAT : Nat := 0x20000C
/-- P.2000.0D `TIER_MOVE_BUDGET`. -/
abbrev P.TIER_MOVE_BUDGET : Nat := 0x20000D
/-- P.2000.0E `TIER_LABEL`. -/
abbrev P.TIER_LABEL : Nat := 0x20000E
/-- P.2000.0F `TIER_ENABLE`. -/
abbrev P.TIER_ENABLE : Nat := 0x20000F
/-- P.2000.10 `TIER_COMPACT_FILL`. -/
abbrev P.TIER_COMPACT_FILL : Nat := 0x200010
/-- P.2000.11 `TIER_SHUTTER_MARGIN`. -/
abbrev P.TIER_SHUTTER_MARGIN : Nat := 0x200011
/-- P.2000.12 `TIER_REOPEN_MARK`. -/
abbrev P.TIER_REOPEN_MARK : Nat := 0x200012
/-- P.2000.13 `TIER_RETRY_LIMIT`. -/
abbrev P.TIER_RETRY_LIMIT : Nat := 0x200013
/-- P.2000.14 `TIER_NOW_EPOCH`. -/
abbrev P.TIER_NOW_EPOCH : Nat := 0x200014
/-- P.2000.15 `WING_CMD`. -/
abbrev P.WING_CMD : Nat := 0x200015
/-- P.2000.16 `LC_WRITE_ALLOCATE`. -/
abbrev P.LC_WRITE_ALLOCATE : Nat := 0x200016
/-- P.2000.17 `TIER_SHUTTER_HOLD`. -/
abbrev P.TIER_SHUTTER_HOLD : Nat := 0x200017
/-- P.2000.1F `WING_ANCHORS`. -/
abbrev P.WING_ANCHORS : Nat := 0x20001F
/-- P.2000.20 `WING_STATE`. -/
abbrev P.WING_STATE : Nat := 0x200020
/-- P.2000.30 `WING_USED`. -/
abbrev P.WING_USED : Nat := 0x200030
/-- P.2000.40 `TIER_COUNTS`. -/
abbrev P.TIER_COUNTS : Nat := 0x200040
/-- P.2100.01 `COMP_TRAIN_SAMPLE`. -/
abbrev P.COMP_TRAIN_SAMPLE : Nat := 0x210001
/-- P.2100.02 `COMP_TRAIN_PAGES`. -/
abbrev P.COMP_TRAIN_PAGES : Nat := 0x210002
/-- P.2100.03 `COMP_TRAIN_MIN`. -/
abbrev P.COMP_TRAIN_MIN : Nat := 0x210003
/-- P.2100.04 `COMP_TRAIN_LEVEL`. -/
abbrev P.COMP_TRAIN_LEVEL : Nat := 0x210004
/-- P.2100.05 `COMP_DEFAULT_TABLES`. -/
abbrev P.COMP_DEFAULT_TABLES : Nat := 0x210005
/-- P.2100.10 `COMP_ERR_COUNTS`. -/
abbrev P.COMP_ERR_COUNTS : Nat := 0x210010
/-- P.2100.14 `COMP_LAST_ERROR`. -/
abbrev P.COMP_LAST_ERROR : Nat := 0x210014
/-- P.2200.05 `DICT_CMD`. -/
abbrev P.DICT_CMD : Nat := 0x220005
/-- P.2200.10 `DICT_STATE`. -/
abbrev P.DICT_STATE : Nat := 0x220010
/-- P.2200.11 `DICT_OWNER`. -/
abbrev P.DICT_OWNER : Nat := 0x220011
/-- P.2200.12 `DICT_REFS`. -/
abbrev P.DICT_REFS : Nat := 0x220012
/-- P.2200.13 `DICT_RECORD`. -/
abbrev P.DICT_RECORD : Nat := 0x220013
/-- P.2200.14 `DICT_SAMPLED`. -/
abbrev P.DICT_SAMPLED : Nat := 0x220014
/-- P.2300.05 `Q_CMD`. -/
abbrev P.Q_CMD : Nat := 0x230005
/-- P.2300.10 `Q_PORT`. -/
abbrev P.Q_PORT : Nat := 0x230010
/-- P.2300.11 `Q_LODGING`. -/
abbrev P.Q_LODGING : Nat := 0x230011
/-- P.2300.12 `Q_SQ_BASE`. -/
abbrev P.Q_SQ_BASE : Nat := 0x230012
/-- P.2300.13 `Q_CQ_BASE`. -/
abbrev P.Q_CQ_BASE : Nat := 0x230013
/-- P.2300.14 `Q_SIZE`. -/
abbrev P.Q_SIZE : Nat := 0x230014
/-- P.2300.15 `Q_RATE`. -/
abbrev P.Q_RATE : Nat := 0x230015
/-- P.2300.16 `Q_BURST`. -/
abbrev P.Q_BURST : Nat := 0x230016
/-- P.2300.17 `Q_LABEL`. -/
abbrev P.Q_LABEL : Nat := 0x230017
/-- P.2300.18 `Q_CTX_FIRST`. -/
abbrev P.Q_CTX_FIRST : Nat := 0x230018
/-- P.2300.19 `Q_CTX_COUNT`. -/
abbrev P.Q_CTX_COUNT : Nat := 0x230019
/-- P.2300.1A `Q_VECTOR`. -/
abbrev P.Q_VECTOR : Nat := 0x23001A
/-- P.2300.1B `Q_STATE`. -/
abbrev P.Q_STATE : Nat := 0x23001B
/-- P.2300.1C `Q_COUNTS`. -/
abbrev P.Q_COUNTS : Nat := 0x23001C
/-- P.3000.01 `KEY_CMD`. -/
abbrev P.KEY_CMD : Nat := 0x300001
/-- P.3000.10 `SEAL_REQUIRE_IDE`. -/
abbrev P.SEAL_REQUIRE_IDE : Nat := 0x300010
/-- P.3000.11 `MIRROR_STATE`. -/
abbrev P.MIRROR_STATE : Nat := 0x300011
/-- P.3000.12 `INTEGRITY_FAILS`. -/
abbrev P.INTEGRITY_FAILS : Nat := 0x300012
/-- P.3000.13 `HWM`. -/
abbrev P.HWM : Nat := 0x300013
/-- P.3100.01 `COH_ABSENCE_TIMEOUT`. -/
abbrev P.COH_ABSENCE_TIMEOUT : Nat := 0x310001
/-- P.3100.02 `COH_BI_TIMEOUT`. -/
abbrev P.COH_BI_TIMEOUT : Nat := 0x310002
/-- P.3100.03 `ATOM_COOL_TIME`. -/
abbrev P.ATOM_COOL_TIME : Nat := 0x310003
/-- P.3100.04 `ATOM_MODE`. -/
abbrev P.ATOM_MODE : Nat := 0x310004
/-- P.3100.10 `COH_DIR_USED`. -/
abbrev P.COH_DIR_USED : Nat := 0x310010
/-- P.3100.14 `COH_COUNTS`. -/
abbrev P.COH_COUNTS : Nat := 0x310014
/-- P.3100.18 `COH_SUSPECT_SETS`. -/
abbrev P.COH_SUSPECT_SETS : Nat := 0x310018
/-- P.40pp.01 `LINK_STATE`. -/
abbrev P.LINK_STATE : Nat := 0x400001
/-- P.40pp.03 `PORT_CMD`. -/
abbrev P.PORT_CMD : Nat := 0x400003
/-- P.40pp.10 `PORT_ROLE`. -/
abbrev P.PORT_ROLE : Nat := 0x400010
/-- P.40pp.11 `PORT_MAX_RATE`. -/
abbrev P.PORT_MAX_RATE : Nat := 0x400011
/-- P.40pp.12 `PORT_L1_ENABLE`. -/
abbrev P.PORT_L1_ENABLE : Nat := 0x400012
/-- P.40pp.13 `DSP_P2P`. -/
abbrev P.DSP_P2P : Nat := 0x400013
/-- P.40pp.14 `DSP_DPC`. -/
abbrev P.DSP_DPC : Nat := 0x400014
/-- P.40pp.20 `PORT_WIDTH`. -/
abbrev P.PORT_WIDTH : Nat := 0x400020
/-- P.40pp.21 `PORT_RATE`. -/
abbrev P.PORT_RATE : Nat := 0x400021
/-- P.40pp.22 `PORT_BINDING`. -/
abbrev P.PORT_BINDING : Nat := 0x400022
/-- P.40pp.23 `PORT_LINK_COUNTS`. -/
abbrev P.PORT_LINK_COUNTS : Nat := 0x400023
/-- P.40pp.24 `PORT_DROP_COUNTS`. -/
abbrev P.PORT_DROP_COUNTS : Nat := 0x400024
/-- P.40pp.30 `PORT_SHAPE_RATE`. -/
abbrev P.PORT_SHAPE_RATE : Nat := 0x400030
/-- P.40pp.38 `PORT_SHAPE_BURST`. -/
abbrev P.PORT_SHAPE_BURST : Nat := 0x400038
/-- P.4100.01 `SW_BIND_CMD`. -/
abbrev P.SW_BIND_CMD : Nat := 0x410001
/-- P.4100.10 `SW_BIFURCATION`. -/
abbrev P.SW_BIFURCATION : Nat := 0x410010
/-- P.4100.20 `SW_ALPHA`. -/
abbrev P.SW_ALPHA : Nat := 0x410020
/-- P.4100.30 `SW_BUF_FREE`. -/
abbrev P.SW_BUF_FREE : Nat := 0x410030
/-- P.4100.34 `SW_ROLE_COUNT`. -/
abbrev P.SW_ROLE_COUNT : Nat := 0x410034
/-- P.4100.40 `SW_VCS_MAP`. -/
abbrev P.SW_VCS_MAP : Nat := 0x410040
/-- P.4100.41 `SW_FANOUT_COUNTS`. -/
abbrev P.SW_FANOUT_COUNTS : Nat := 0x410041
/-- P.5000.10 `LBL_TARGET`. -/
abbrev P.LBL_TARGET : Nat := 0x500010
/-- P.5000.11 `LBL_GUARANTEE`. -/
abbrev P.LBL_GUARANTEE : Nat := 0x500011
/-- P.5000.12 `LBL_BASE_PRIO`. -/
abbrev P.LBL_BASE_PRIO : Nat := 0x500012
/-- P.5000.13 `LBL_EWMA_SHIFT`. -/
abbrev P.LBL_EWMA_SHIFT : Nat := 0x500013
/-- P.5000.20 `LBL_PRIO`. -/
abbrev P.LBL_PRIO : Nat := 0x500020
/-- P.5000.21 `LBL_LAT_EWMA`. -/
abbrev P.LBL_LAT_EWMA : Nat := 0x500021
/-- P.5000.22 `LBL_LAT_P99`. -/
abbrev P.LBL_LAT_P99 : Nat := 0x500022
/-- P.5000.23 `LBL_WIN_SAMPLES`. -/
abbrev P.LBL_WIN_SAMPLES : Nat := 0x500023
/-- P.5000.24 `LBL_MISSES`. -/
abbrev P.LBL_MISSES : Nat := 0x500024
/-- P.5000.25 `LBL_REFS`. -/
abbrev P.LBL_REFS : Nat := 0x500025
/-- P.5000.26 `LBL_EFFECTIVE`. -/
abbrev P.LBL_EFFECTIVE : Nat := 0x500026
/-- P.5100.01 `GUARANTEE_TOTAL`. -/
abbrev P.GUARANTEE_TOTAL : Nat := 0x510001
/-- P.5100.02 `DELIVERABLE_BW`. -/
abbrev P.DELIVERABLE_BW : Nat := 0x510002
/-- P.5100.03 `ALLOW_OVERCOMMIT`. -/
abbrev P.ALLOW_OVERCOMMIT : Nat := 0x510003
/-- P.5100.04 `GUARANTEE_SCALE`. -/
abbrev P.GUARANTEE_SCALE : Nat := 0x510004
/-- P.5100.05 `LAT_SAMPLE_SHIFT`. -/
abbrev P.LAT_SAMPLE_SHIFT : Nat := 0x510005
/-- P.5100.06 `MISS_WINDOW`. -/
abbrev P.MISS_WINDOW : Nat := 0x510006
/-- P.5100.07 `MISS_MIN_SAMPLES`. -/
abbrev P.MISS_MIN_SAMPLES : Nat := 0x510007
/-- P.5100.08 `SHAPE_OVERHEAD`. -/
abbrev P.SHAPE_OVERHEAD : Nat := 0x510008
/-- P.5100.09 `REG_COUNTS`. -/
abbrev P.REG_COUNTS : Nat := 0x510009
/-- P.5101.10 `SG_EXTRA`. -/
abbrev P.SG_EXTRA : Nat := 0x510110
/-- P.5101.11 `SG_LC_QUOTA`. -/
abbrev P.SG_LC_QUOTA : Nat := 0x510111
/-- P.5101.12 `SG_Q_RESERVE`. -/
abbrev P.SG_Q_RESERVE : Nat := 0x510112
/-- P.5101.13 `SG_Q_LIMIT`. -/
abbrev P.SG_Q_LIMIT : Nat := 0x510113
/-- P.5101.14 `SG_POOL_LIMIT`. -/
abbrev P.SG_POOL_LIMIT : Nat := 0x510114
/-- P.5101.20 `SG_WEIGHT`. -/
abbrev P.SG_WEIGHT : Nat := 0x510120
/-- P.5101.21 `SG_LC_USED`. -/
abbrev P.SG_LC_USED : Nat := 0x510121
/-- P.5101.22 `SG_MISSES`. -/
abbrev P.SG_MISSES : Nat := 0x510122
/-- P.5101.23 `SG_POOL_USED`. -/
abbrev P.SG_POOL_USED : Nat := 0x510123
/-- P.60cc.01 `CH_STATE`. -/
abbrev P.CH_STATE : Nat := 0x600001
/-- P.60cc.10 `CH_MODULES`. -/
abbrev P.CH_MODULES : Nat := 0x600010
/-- P.60cc.11 `CH_MODULE_CODE`. -/
abbrev P.CH_MODULE_CODE : Nat := 0x600011
/-- P.60cc.12 `CH_RANKS`. -/
abbrev P.CH_RANKS : Nat := 0x600012
/-- P.60cc.13 `CH_RATE`. -/
abbrev P.CH_RATE : Nat := 0x600013
/-- P.60cc.14 `CH_REF_POSTPONE`. -/
abbrev P.CH_REF_POSTPONE : Nat := 0x600014
/-- P.60cc.20 `CH_TEMP`. -/
abbrev P.CH_TEMP : Nat := 0x600020
/-- P.60cc.21 `CH_CE_COUNT`. -/
abbrev P.CH_CE_COUNT : Nat := 0x600021
/-- P.60cc.22 `CH_UE_COUNT`. -/
abbrev P.CH_UE_COUNT : Nat := 0x600022
/-- P.60cc.23 `CH_LOG`. -/
abbrev P.CH_LOG : Nat := 0x600023
/-- P.60cc.24 `CH_COUNTS`. -/
abbrev P.CH_COUNTS : Nat := 0x600024
/-- P.60cc.25 `CH_CE_ROWS`. -/
abbrev P.CH_CE_ROWS : Nat := 0x600025
/-- P.6100.01 `DRAM_APPLY`. -/
abbrev P.DRAM_APPLY : Nat := 0x610001
/-- P.6100.02 `SCRUB_PERIOD`. -/
abbrev P.SCRUB_PERIOD : Nat := 0x610002
/-- P.6100.03 `RH_THRESHOLD`. -/
abbrev P.RH_THRESHOLD : Nat := 0x610003
/-- P.6100.04 `MERGE_HOLD`. -/
abbrev P.MERGE_HOLD : Nat := 0x610004
/-- P.6100.05 `CA_RETRY_LIMIT`. -/
abbrev P.CA_RETRY_LIMIT : Nat := 0x610005
/-- P.6100.06 `CE_ROW_ALERT`. -/
abbrev P.CE_ROW_ALERT : Nat := 0x610006
/-- P.6100.07 `RETIRE_CMD`. -/
abbrev P.RETIRE_CMD : Nat := 0x610007
/-- P.6100.08 `RETIRED`. -/
abbrev P.RETIRED : Nat := 0x610008
/-- P.6100.09 `ECC_COUNTS`. -/
abbrev P.ECC_COUNTS : Nat := 0x610009
/-- P.70kk.01 `CL_STATE`. -/
abbrev P.CL_STATE : Nat := 0x700001
/-- P.70kk.03 `CL_CMD`. -/
abbrev P.CL_CMD : Nat := 0x700003
/-- P.70kk.10 `CL_REPLAY_LIMIT`. -/
abbrev P.CL_REPLAY_LIMIT : Nat := 0x700010
/-- P.70kk.11 `CL_SPILL_QUOTA`. -/
abbrev P.CL_SPILL_QUOTA : Nat := 0x700011
/-- P.70kk.20 `CL_WIDTH`. -/
abbrev P.CL_WIDTH : Nat := 0x700020
/-- P.70kk.21 `CL_BAD_GROUPS`. -/
abbrev P.CL_BAD_GROUPS : Nat := 0x700021
/-- P.70kk.22 `CL_LAST_RESET`. -/
abbrev P.CL_LAST_RESET : Nat := 0x700022
/-- P.70kk.23 `CL_COUNTS`. -/
abbrev P.CL_COUNTS : Nat := 0x700023
/-- P.7800.01 `WORLD_STATUS`. -/
abbrev P.WORLD_STATUS : Nat := 0x780001
/-- P.7800.02 `KEEPER_RESTARTS`. -/
abbrev P.KEEPER_RESTARTS : Nat := 0x780002
/-- P.7800.03 `KEEPER_WDOG`. -/
abbrev P.KEEPER_WDOG : Nat := 0x780003
/-- P.7800.04 `KEEPER_RESTART_LIMIT`. -/
abbrev P.KEEPER_RESTART_LIMIT : Nat := 0x780004
/-- P.7800.05 `STEWARD_WDOG`. -/
abbrev P.STEWARD_WDOG : Nat := 0x780005
/-- P.7800.10 `DBG_STEWARD_NONINV`. -/
abbrev P.DBG_STEWARD_NONINV : Nat := 0x780010
/-- P.7800.11 `DBG_STEWARD_INV`. -/
abbrev P.DBG_STEWARD_INV : Nat := 0x780011
/-- P.7800.12 `DBG_KEEPER_NONINV`. -/
abbrev P.DBG_KEEPER_NONINV : Nat := 0x780012
/-- P.7800.13 `DBG_KEEPER_INV`. -/
abbrev P.DBG_KEEPER_INV : Nat := 0x780013
/-- P.7800.14 `SEAL_PORT_LOCK`. -/
abbrev P.SEAL_PORT_LOCK : Nat := 0x780014
/-- P.7800.20 `MEAS`. -/
abbrev P.MEAS : Nat := 0x780020
/-- P.7800.21 `REGION_BANKS`. -/
abbrev P.REGION_BANKS : Nat := 0x780021
/-- P.7800.22 `REGION_VIOLATIONS`. -/
abbrev P.REGION_VIOLATIONS : Nat := 0x780022
/-- P.7801.10 `REGION_REG`. -/
abbrev P.REGION_REG : Nat := 0x780110
/-- P.7C00.01 `UNIT_WDOG`. -/
abbrev P.UNIT_WDOG : Nat := 0x7C0001
/-- P.7C00.02 `UNIT_PROBATION`. -/
abbrev P.UNIT_PROBATION : Nat := 0x7C0002
/-- P.7C00.03 `UNIT_REJOIN_CAP`. -/
abbrev P.UNIT_REJOIN_CAP : Nat := 0x7C0003
/-- P.7C00.04 `UNIT_FAULT_LIMIT`. -/
abbrev P.UNIT_FAULT_LIMIT : Nat := 0x7C0004
/-- P.7C00.05 `UNIT_REJOIN_LIMIT`. -/
abbrev P.UNIT_REJOIN_LIMIT : Nat := 0x7C0005
/-- P.7C00.06 `LOG_SEQ`. -/
abbrev P.LOG_SEQ : Nat := 0x7C0006
/-- P.7C00.07 `ERROR_LOG`. -/
abbrev P.ERROR_LOG : Nat := 0x7C0007
/-- P.7C00.08 `ALERT_HOLD`. -/
abbrev P.ALERT_HOLD : Nat := 0x7C0008
/-- P.7C01.05 `UNIT_CMD`. -/
abbrev P.UNIT_CMD : Nat := 0x7C0105
/-- P.7C01.10 `UNIT_STATE`. -/
abbrev P.UNIT_STATE : Nat := 0x7C0110
/-- P.7C01.11 `UNIT_CAUSE`. -/
abbrev P.UNIT_CAUSE : Nat := 0x7C0111
/-- P.7C01.12 `UNIT_FAULTS`. -/
abbrev P.UNIT_FAULTS : Nat := 0x7C0112
/-- P.7C01.13 `UNIT_REJOIN_FAILS`. -/
abbrev P.UNIT_REJOIN_FAILS : Nat := 0x7C0113

end Sys2Proof.Machine
end

