-- ==== Sys2Proof/Machine/Log.lean ====
section
/-! DEFINITION. The error log, Courier alerts and the guest book's figures: how an outcome is
reported inside the device (14 R372-R373, R465; 17 R424-R425; 18 R435). -/

namespace Sys2Proof.Machine

/-- A count in a table of counts that stop at all ones of `w` bits. -/
def bump (w : Nat) (m : SMap Nat) (k n : Nat) : SMap Nat := smPut 0 m k (satAdd w (smGet 0 m k) n)

/-- An alert is numbered, stored among the newest 64, and put behind those that wait; it is not
sent while `CR_ALERT_DEST` names no node or 64 wait (R424, R425). -/
def raiseAlert (source kind count seq detail : Nat) (s : State) : State :=
  let a : Alert := ⟨source, kind, min 65535 count, s.cr.anum, seq, s.slTime / 1000, detail⟩
  modCr (fun c =>
    { c with
      anum := c.anum + 1
      alerts := newest 64 (c.alerts ++ [a])
      waiting := if pnum s P.CR_ALERT_DEST = 0xFFFFFFFF ∨ 64 ≤ c.waiting.length then c.waiting
        else c.waiting ++ [a]
      counts := if pnum s P.CR_ALERT_DEST = 0xFFFFFFFF ∨ 64 ≤ c.waiting.length
        then bump 32 c.counts 7 1 else c.counts }) s

/-- At most one alert per KIND in each `ALERT_HOLD`; later records of the KIND are counted (R373). -/
def alertForKind (kind seq : Nat) (s : State) : State :=
  let h := smGet {} s.unit.holds kind
  if h.held then
    modUnit (fun u => { u with holds := smPut {} u.holds kind { h with since := h.since + 1, seq := seq } }) s
  else
    raiseAlert 1 kind 0 seq 0
      (modUnit (fun u => { u with holds := smPut {} u.holds kind { held := true, since := 0, seq := seq } }) s)

/-- A record of Table 14.8 without an alert, written into both islands' retention SRAM. `TIME` is the common part of the die
timebases, without a die's offset: the model's choice (log 152). -/
def logQuiet (kind unit severity : Nat) (page : Option (Nat × Nat)) (body : Nat) (s : State) : State :=
  let r : LogRec := ⟨s.unit.logSeq, s.time / 1000, kind, unit, severity, page, body⟩
  modUnit (fun u => { u with
    log := newest 2048 (u.log ++ [r]), logMirror := newest 2048 (u.logMirror ++ [r]), logSeq := u.logSeq + 1 }) s

/-- An event of the error log (R372): the record, and an alert unless it is a corrected error
(Table 14.9). -/
def logEvent (kind unit severity : Nat) (page : Option (Nat × Nat)) (body : Nat) (s : State) : State :=
  if severity = 0 then logQuiet kind unit severity page body s
  else alertForKind kind s.unit.logSeq (logQuiet kind unit severity page body s)

/-- A record that names no unit and no page. -/
def logPlain (kind severity : Nat) (s : State) : State := logEvent kind 0xFFFF severity none 0 s

/-- `ALERT_HOLD` passes for a KIND: a held-back alert is raised with the number of records written
meanwhile, else the hold ends (R373). -/
def alertHoldEnd (kind : Nat) (s : State) : State :=
  let h := smGet {} s.unit.holds kind
  if h.held = false then s
  else if h.since = 0 then modUnit (fun u => { u with holds := smErase u.holds kind }) s
  else raiseAlert 1 kind h.since h.seq 0
    (modUnit (fun u => { u with holds := smPut {} u.holds kind { held := true, since := 0, seq := h.seq } }) s)

/-! ### Guest-book figures (18 Table 18.3): the numbers under which they are kept

`16*d+b` samples of die `d` in temperature bin `b`; `200+d` samples of die `d`;
`1000+16*c+g` corrected lines; `2000+c` uncorrectable lines; `2100+c` CA replays;
`3000+p` retrains; `3100+p` FEC-corrected flits; `3200+p` link-downs; `3300+k` resets;
`3400+k` CRC failures; `3500` rail-held events; `3501` frames discarded; `4000+k` images of
`k+1` slots; `4100` no gain; `4101` zero pages; `4200+g` miss windows; `5000` main peak;
`5001` main energy in microjoules; `5010+w`, `5030+w` branch peak and energy; `5050+i` the
increments of `HS_COUNTS`. -/

/-- A figure of the island itself grows. -/
def gbAdd (k n : Nat) (s : State) : State :=
  modGb (fun g => { g with figs := smPut 0 g.figs k (smGet 0 g.figs k + n) }) s

/-- A figure of the island itself is a maximum. -/
def gbMax (k v : Nat) (s : State) : State :=
  modGb (fun g => { g with figs := smPut 0 g.figs k (max v (smGet 0 g.figs k)) }) s

/-- A figure a die keeps until it sends its figures to the island (R436). -/
def gbDie (d k n : Nat) (s : State) : State :=
  modGb (fun g => { g with
    dieFigs := smPut [] g.dieFigs d
      (smPut 0 (smGet [] g.dieFigs d) k (smGet 0 (smGet [] g.dieFigs d) k + n)) }) s

/-- A rail sample while powered: its minimum and maximum in the period. -/
def gbRail (r mv : Nat) (s : State) : State :=
  let v := match smFind s.gb.rails r with
    | some (lo, hi) => (min lo mv, max hi mv)
    | none => (mv, mv)
  modGb (fun g => { g with rails := smSet g.rails r v }) s

/-! ### Commands -/

/-- ALERT_HOLD (R373). -/
def execAlertHold (kind : Fin 16) (s : State) : Out := .next (alertHoldEnd kind.val s)

end Sys2Proof.Machine
end

