-- ==== Sys2Proof/Machine/GuestBook.lean ====
section
/-! DEFINITION. The guest book: cuts, the records of Tables 18.2 and 18.3, and the flash areas they
are written to (18). -/

namespace Sys2Proof.Machine

/-! ### Life-cycle code, needed by the start record (13 Table 13.7) -/

/-- `LC_STATE` from the fuses (R352): a set that matches no row is treated as `RETIRED`. -/
def lcState (s : State) : Nat :=
  if s.sl.fuseT then 4
  else match s.sl.fuseP, s.sl.fuseY with
    | false, false => if s.sl.fuseC = 0 then 0 else 4
    | true, false => if s.sl.fuseC = 0 then 1 else 4
    | true, true => if s.sl.fuseC % 2 = 0 then 2 else 3
    | false, true => 4

/-- Whether the fuse set matches a row of Table 13.7. -/
def fusesLegal (s : State) : Bool :=
  s.sl.fuseT || (s.sl.fuseP && (s.sl.fuseY || s.sl.fuseC == 0)) ||
    (!s.sl.fuseP && !s.sl.fuseY && s.sl.fuseC == 0)

/-! ### Cuts (R432) -/

/-- A cut occurs: the accumulators are latched and zeroed, and a new period begins. -/
def gbCutNow (cause toSt : Nat) (s : State) : State :=
  let c : GbCut :=
    { cut := s.gb.cutNum
      cause := cause
      fromState := s.gb.fromState
      toState := toSt
      folded := s.gb.folded
      period := (s.slTime - s.gb.periodStart) / 10 ^ 9
      opTime := s.gb.opTime
      standby := false
      figs := s.gb.figs
      rails := s.gb.rails
      lastTrip := if s.gb.tripSeen then s.hs.lastTrip else 0
      kinds := [1, 2, 3, 4, 5, 6] }
  modGb (fun g => { g with
    latches := g.latches ++ [c]
    cutNum := g.cutNum + 1
    figs := []
    rails := []
    tripSeen := false
    folded := 0
    periodStart := s.slTime
    lastCut := s.slTime
    fromState := toSt
    major := toSt
    status := if g.failed then Nat.lor g.status 4 else g.status - Nat.land g.status 4
    failed := false }) s

/-- A state change or a cut that does not cut: it is counted in the next record's `FOLDED`. -/
def gbFold (toSt : Nat) (s : State) : State :=
  modGb (fun g => { g with folded := min 255 (g.folded + 1), major := toSt }) s

/-- A cut arrives (R432): it is folded while the records of two earlier cuts wait. -/
def gbCut (cause toSt : Nat) (s : State) : State :=
  if 2 ≤ s.gb.latches.length then gbFold toSt s else gbCutNow cause toSt s

/-- The code of `PS_STATE`. -/
def PsState.code : PsState → Nat
  | .run => 0 | .drowse => 1 | .idle => 2 | .entering => 3 | .night => 4 | .exiting => 5 | .off => 6

/-- `PS_STATE` becomes `st`: a change among RUN, IDLE, NIGHT and OFF cuts a period, or is folded when
it comes less than `GB_MIN_CUT` after the previous cut (R432). -/
def psEnter (st : PsState) (s : State) : State :=
  let s1 := modPs (fun p => { p with state := st }) s
  let c := if st = .drowse then 0 else st.code
  if st = .entering ∨ st = .exiting ∨ c = s.gb.major then s1
  else if s.slTime < s.gb.lastCut + pnum s P.GB_MIN_CUT * 10 ^ 9 then gbFold c s1
  else gbCut 2 c s1

/-! ### The record (R433-R435) -/

/-- The 4-bit log code of a count. -/
def logCode (n : Nat) : Nat := if n = 0 then 0 else min 15 (Nat.log2 n + 1)

/-- A field of a record body: value, position, and whether it is saturated. -/
structure GbField where
  pos : Nat
  value : Nat
  sat : Bool

/-- A log-coded figure. -/
def gbLog (figs : SMap Nat) (pos k : Nat) : GbField :=
  ⟨pos, logCode (smGet 0 figs k), decide (15 ≤ logCode (smGet 0 figs k))⟩

/-- A count that saturates at `w` bits. -/
def gbSat (w : Nat) (figs : SMap Nat) (pos k : Nat) : GbField :=
  ⟨pos, min (2 ^ w - 1) (smGet 0 figs k), decide (2 ^ w - 1 ≤ smGet 0 figs k)⟩

/-- Fields for every index below `n`. -/
def gbEach (n : Nat) (f : Nat → GbField) : List GbField := (below n).map f

/-- Kind 1: histogram shares of a die in 1/255, rounded down, and rail extremes. -/
def gbBody1 (c : GbCut) : List GbField :=
  gbEach 128 (fun i =>
    let tot := smGet 0 c.figs (200 + i / 16)
    ⟨256 + 8 * i, if tot = 0 then 0 else smGet 0 c.figs i * 255 / tot, false⟩) ++
  gbEach 11 (fun r =>
    let v := smGet (0, 0) c.rails r
    ⟨1280 + 32 * r, v.1 % 65536 + (v.2 % 65536) * 65536, false⟩)

/-- Kind 2: peaks and energies of current, trips, the newest trip. -/
def gbBody2 (c : GbCut) : List GbField :=
  [⟨256, smGet 0 c.figs 5000 % 2 ^ 32, false⟩,
   ⟨288, min (2 ^ 32 - 1) (smGet 0 c.figs 5001 / 1000000), decide (2 ^ 32 - 1 ≤ smGet 0 c.figs 5001 / 1000000)⟩] ++
  gbEach 16 (fun w => ⟨320 + 48 * w,
    min 65535 (smGet 0 c.figs (5010 + w) / 10) +
      min (2 ^ 32 - 1) (smGet 0 c.figs (5030 + w) / 1000000) * 65536,
    decide (65535 ≤ smGet 0 c.figs (5010 + w) / 10) || decide (2 ^ 32 - 1 ≤ smGet 0 c.figs (5030 + w) / 1000000)⟩) ++
  gbEach 8 (fun i => gbSat 8 c.figs (1088 + 8 * i) (5050 + i)) ++ [⟨1152, c.lastTrip, false⟩]

/-- Kinds 3 and 4: memory of channels 16h to 16h+15. -/
def gbBody3 (c : GbCut) (h : Nat) : List GbField :=
  gbEach 256 (fun i => gbLog c.figs (256 + 64 * (i / 16) + 4 * (i % 16)) (1000 + 16 * (16 * h + i / 16) + i % 16)) ++
  gbEach 16 (fun j => gbLog c.figs (1280 + 4 * j) (2000 + 16 * h + j)) ++
  gbEach 16 (fun j => gbLog c.figs (1344 + 4 * j) (2100 + 16 * h + j))

/-- Kind 5: ports, Corridor links, Courier. -/
def gbBody5 (c : GbCut) : List GbField :=
  gbEach 64 (fun p => gbSat 8 c.figs (256 + 16 * p) (3000 + p)) ++
  gbEach 64 (fun p => gbLog c.figs (256 + 16 * p + 8) (3100 + p)) ++
  gbEach 64 (fun p => gbLog c.figs (256 + 16 * p + 12) (3200 + p)) ++
  gbEach 24 (fun k => gbLog c.figs (1280 + 8 * k) (3300 + k)) ++
  gbEach 24 (fun k => gbLog c.figs (1280 + 8 * k + 4) (3400 + k)) ++
  [gbLog c.figs 1480 3500, gbLog c.figs 1484 3501]

/-- Kind 6: compression and tariffs. -/
def gbBody6 (c : GbCut) : List GbField :=
  gbEach 16 (fun k => gbSat 32 c.figs (256 + 32 * k) (4000 + k)) ++
  [gbSat 32 c.figs 768 4100, gbSat 32 c.figs 800 4101] ++
  gbEach 256 (fun g => gbLog c.figs (832 + 4 * g) (4200 + g))

/-- The body of a record of a kind; kind 7 holds what the cut carries for it. -/
def gbBody (c : GbCut) (kind : Nat) : List GbField :=
  match kind with
  | 1 => gbBody1 c
  | 2 => gbBody2 c
  | 3 => gbBody3 c 0
  | 4 => gbBody3 c 1
  | 5 => gbBody5 c
  | 6 => gbBody6 c
  | _ => [⟨256, c.lastTrip, false⟩]

/-- A record of 256 bytes as a number, its CRC over bytes 0-23 and 28-255 set. -/
def gbRecord (c : GbCut) (kind : Nat) (s : State) : Nat :=
  let fs := gbBody c kind
  let body := fs.foldl (fun a f => a + f.value * 2 ^ f.pos) 0
  let flags := bNat (decide (2 ^ 32 - 1 ≤ s.gb.cycles)) + 2 * bNat (decide (2 ^ 32 - 1 ≤ c.opTime)) +
    4 * bNat (fs.any (·.sat)) + 8 * bNat c.standby
  let r := 0x6B5A + kind * 2 ^ 16 + 1 * 2 ^ 24 + (s.gb.rnum % 2 ^ 32) * 2 ^ 32 +
    min (2 ^ 32 - 1) c.opTime * 2 ^ 64 + min (2 ^ 32 - 1) s.gb.cycles * 2 ^ 96 + c.cause * 2 ^ 128 +
    c.fromState * 2 ^ 136 + c.toState * 2 ^ 140 + flags * 2 ^ 144 + c.folded * 2 ^ 152 +
    (c.period % 2 ^ 32) * 2 ^ 160 + (c.cut % 2 ^ 32) * 2 ^ 224 + body
  let bs := leBytes 256 r
  r + (crc32c (bs.take 24 ++ bs.drop 28)).toNat * 2 ^ 192

/-! ### Where records go (R430, R431) -/

/-- A sector of the two areas: 0-287 permanent, 288-1,387 circulating. -/
def gbSector (s : State) (i : Nat) : GbSector := smGet {} s.gb.sectors i
/-- A sector changed. -/
def modSector (i : Nat) (f : GbSector → GbSector) (s : State) : State :=
  modGb (fun g => { g with sectors := smMod {} g.sectors i f }) s

/-- How many circulating sectors are good. -/
def gbGood (s : State) : Nat := 1100 - (s.gb.sectors.filter fun e => decide (288 ≤ e.1) && e.2.retired).length

/-- A sector is retired (R430); below 1,094 good circulating sectors bit 1 is set with an alert (R431). -/
def gbRetire (i : Nat) (s : State) : State :=
  let s1 := modSector i (fun x => { x with retired := true }) s
  if gbGood s1 < 1094 ∧ bitOf s.gb.status 1 = false then
    logPlain 14 1 (modGb (fun g => { g with status := Nat.lor g.status 2 }) s1)
  else s1

/-- The next good circulating sector from `i`, wrapping round. -/
def gbNextSector (s : State) (i : Nat) : Option Nat :=
  ((below 1100).find? fun k => (gbSector s (288 + (i + k) % 1100)).retired == false).map fun k => (i + k) % 1100

/-- Whether a circulating sector holds records. -/
def gbHolds (s : State) (sec : Nat) : Bool := s.gb.circ.any fun e => e.1 / 15 == sec

/-- A write or an erase failed to verify: the sector is retired and the failure noted. -/
def gbWriteFailed (sector : Nat) (s : State) : State :=
  gbRetire sector (modGb (fun g => { g with failed := true, status := Nat.lor g.status 4 }) s)

/-- The permanent sector that takes the next record: the one being filled, or the next good one. -/
def gbPermSector (s : State) : Option Nat :=
  firstBelow 288 fun k => decide (s.gb.permPos / 15 ≤ k) && (gbSector s k).retired == false

/-- A record enters the permanent area. -/
def gbPermPut (rec : Nat) (s : State) : State :=
  match gbPermSector s with
    | none => modGb (fun g => { g with status := Nat.lor g.status 1 }) s
    | some k =>
      let pos := if k = s.gb.permPos / 15 then s.gb.permPos else 15 * k
      modGb (fun g => { g with
        perm := smPut 0 g.perm g.permCount rec, permCount := g.permCount + 1, permPos := pos + 1
        status := if g.permCount + 1 = 4096 then Nat.lor g.status 1 else g.status }) s

/-- The copy of a record in the permanent area, for the first 4,096 records. `ok` says whether its program verified: where it did
not, the sector is retired, and the record goes to the next good one (R431). -/
def gbPermanent (ok : Bool) (rec : Nat) (s : State) : State :=
  if 4096 ≤ s.gb.permCount then s
  else match ok, gbPermSector s with
    | false, some k => gbPermPut rec (gbWriteFailed k s)
    | _, _ => gbPermPut rec s

/-- A sector whose header is found erased or with a failing CRC has the highest erase count of its area + 1 (R430). -/
def gbHeaderLost (i : Nat) (s : State) : State :=
  let area := s.gb.sectors.filter fun e => decide (e.1 < 288) == decide (i < 288)
  let top := (area.map (·.2.erases)).foldl max 0
  let s1 := modSector i (fun x => { x with erases := min 100000 (top + 1) }) s
  if 100000 ≤ top + 1 then gbRetire i s1 else s1

/-- The first waiting record has been written: the next kind, or the next cut, is due. -/
def gbPop (s : State) : State :=
  modGb (fun g => { g with
    rnum := g.rnum + 1
    latches := match g.latches with
      | [] => []
      | c :: cs => if c.kinds.length ≤ 1 then cs else { c with kinds := c.kinds.drop 1 } :: cs }) s

/-- One record is written (R431): to the next slot of the circulating area, the sector erased first
when the write enters one that holds records; and to the permanent area while it takes any. `ok` and `okPerm` say
whether the program in each area, and the erase where there was one, verified. Without a flash nothing is written. -/
def gbRecordWrite (ok okPerm : Bool) (s : State) : State :=
  if s.sl.flashOk = false ∨ s.sl.vstby = false then s
  else match s.gb.latches with
  | [] => s
  | c :: _ =>
    match c.kinds with
    | [] => modGb (fun g => { g with latches := g.latches.drop 1 }) s
    | kind :: _ =>
      match gbNextSector s (s.gb.circPos / 15) with
      | none => gbPop (gbPermanent okPerm (gbRecord c kind s) s)
      | some sec =>
        let pos := if sec = s.gb.circPos / 15 then s.gb.circPos else 15 * sec
        let erase := decide (pos % 15 = 0) && gbHolds s sec
        let s1 := if erase then
            modSector (288 + sec) (fun x => { x with erases := min 100000 (x.erases + 1) })
              (modGb (fun g => { g with circ := g.circ.filter fun e => e.1 / 15 != sec }) s)
          else s
        if ok = false then gbWriteFailed (288 + sec) s1
        else if 100000 ≤ (gbSector s1 (288 + sec)).erases then gbRetire (288 + sec) s1
        else
          let rec_ := gbRecord c kind s
          gbPop (gbPermanent okPerm rec_ (modGb (fun g => { g with
            circ := smPut 0 g.circ pos rec_, circPos := (pos + 1) % 16500 }) s1))

/-- `GB_OLDEST`: the RNUM of the oldest record retained. -/
def gbOldest (s : State) : Nat :=
  (s.gb.circ.map fun e => bitsOf e.2 32 32).foldl min s.gb.rnum

/-- The newest valid record of the circulating area. -/
def gbNewest (s : State) : Option Nat :=
  (s.gb.circ.find? fun e => bitsOf e.2 32 32 + 1 == s.gb.rnum).map (·.2)

/-- Standby power rises (R434): the counts go on from the newest record, and one kind-7 record with
`CAUSE` 4 and `PERIOD` 0 is due. -/
def gbStandbyRise (s : State) : State :=
  let op := match gbNewest s with
    | some r => bitsOf r 64 32
    | none => 0
  let cy := match gbNewest s with
    | some r => min (2 ^ 32 - 1) (bitsOf r 96 32 + 1)
    | none => 1
  let c : GbCut :=
    { cut := s.gb.cutNum
      cause := 4
      fromState := 6
      toState := 6
      folded := 0
      period := 0
      opTime := op
      standby := false
      figs := []
      rails := []
      lastTrip := lcState s + (s.sl.straps % 4) * 256 + (s.sl.straps / 4 % 2) * 1024
      kinds := [7] }
  modGb (fun g => { g with
    opTime := op
    opSub := 0
    cycles := cy
    figs := []
    dieFigs := []
    rails := []
    tripSeen := false
    folded := 0
    periodStart := s.slTime
    lastCut := s.slTime
    fromState := 6
    major := 6
    failed := false
    cutNum := g.cutNum + 1
    latches := [c] }) s

/-- The bin of a junction temperature (Table 18.3). -/
def tempBin (t : Int) : Nat :=
  if t < 15 then 0 else if 113 ≤ t then 15 else ((t - 15) / 7).toNat + 1

/-- A core rail set point in mV by its step (16 Table 16.3). -/
def coreMv (step : Nat) : Nat := 600 + 50 * step

/-- Whether a die is powered: its core rail reports power good (19 Table 19.3). -/
def diePowered (s : State) (d : Nat) : Bool :=
  s.sl.railPg.getLsbD (if 4 ≤ d then d else d + 8)

/-- The 1 s sample of one powered die: its temperature bin and its core rail (log 14). -/
def tempSampleDie (d : Nat) (s : State) : State :=
  if diePowered s d then
    gbRail d (coreMv (pnum s (P.PS_VCORE + d)))
      (gbAdd (16 * d + tempBin (smGet 0 s.sl.tj d)) 1 (gbAdd (200 + d) 1 s))
  else s

/-! ### Commands -/

/-- GB_HOUR_CUT (R432). -/
def execGbHourCut (s : State) : Out := .next (onlyIf s.sl.vstby (gbCut 1 s.gb.major) s)
/-- GB_RECORD_WRITE (R431). -/
def execGbRecordWrite (verified : GbVerified) (s : State) : Out :=
  .next (gbRecordWrite verified.circular verified.permanent s)
/-- TEMP_SAMPLE (R435). -/
def execTempSample (s : State) : Out := .next (onlyIf s.sl.vstby (fun t => gbRail 10 3300 (forAll (below 8) tempSampleDie t)) s)

end Sys2Proof.Machine
end

