-- ==== Sys2Proof/Machine/Courier.lean ====
section
/-! DEFINITION. The Courier node: frames, discards, enumeration, replies and alerts on the bus (17).
What a READ or WRITE does to the dictionary is in Access.lean. -/

namespace Sys2Proof.Machine

/-- The symbols of a frame from DEST to the end of DATA, one bit each, as R414 orders them. -/
def crFrameBits (dest src func param : Nat) (data : List Byte) : List Bool :=
  msbBits 18 dest ++ msbBits 18 src ++ msbBits 8 func ++ msbBits 24 param ++ msbBits 9 data.length ++
    data.flatMap fun b => msbBits 8 b.toNat

/-- The CRC a frame must carry (R414). -/
def crFrameCrc (dest src func param : Nat) (data : List Byte) : BitVec 16 :=
  crc16 (crFrameBits dest src func param data)

/-- One of the eight `CR_COUNTS` grows. -/
def bumpCr (i : Nat) (s : State) : State := modCr (fun c => { c with counts := bump 32 c.counts i 1 }) s

/-- A frame is discarded (R415): counted, here and in the guest book; nothing else. -/
def frameDiscard (badCrc : Bool) (s : State) : State :=
  gbAdd 3501 1 (bumpCr (if badCrc then 2 else 3) s)

/-- What is wrong with a frame addressed to the device, if anything: `some true` a CRC that differs,
`some false` any other reason (R415, R417). -/
def crFrameFault (dest src func param : Nat) (data : List Byte) (crc : BitVec 16) (endOk : Bool)
    (lenOk : Bool) : Option Bool :=
  if endOk = false ∨ 256 < data.length then some false
  else if crc ≠ crFrameCrc dest src func param data then some true
  else if lenOk then none else some false

/-- Whether the receiver has its footing and the frame is for this node (R415, R420). -/
def frameHere (dest : BitVec 18) (s : State) : Bool :=
  s.sl.vstby && s.cr.busIdle && s.cr.address == some dest.toNat

/-- A good frame has been received: it is counted, and the rails are seen free. -/
def frameTaken (s : State) : State := bumpCr 0 (modCr (fun c => { c with railHeld := false }) s)

/-- The 16 header bytes of a response (R38). -/
def respHeader (r : Resp) : List Byte :=
  leBytes 1 r.status ++ leBytes 1 r.ty ++ leBytes 2 r.value.length ++ leBytes 4 0 ++ leBytes 8 r.seq

/-- The 32 bytes of an alert record (Table 17.5). -/
def alertBytes (a : Alert) : List Byte :=
  leBytes 32 (a.source + a.kind * 2 ^ 8 + a.count * 2 ^ 16 + (a.anum % 2 ^ 32) * 2 ^ 32 +
    (a.seq % 2 ^ 64) * 2 ^ 64 + (a.time % 2 ^ 40) * 2 ^ 128 + (a.detail % 2 ^ 32) * 2 ^ 168)

/-- The device has met its 1 overridden: within DEST or SRC it has lost and tries again, after SRC it
has met its own address and sets `DUPLICATE`, with an alert of SOURCE 5 (R416, R427). -/
def arbLost (arb : Arb) (s : State) : State :=
  match arb with
  | .won => s
  | .lost => bumpCr 4 s
  | .duplicate => raiseAlert 5 0 0 0 2 (bumpCr 4 (modCr (fun c => { c with duplicate := true }) s))

/-- Whether the device may send a frame of its own: it holds an address, sees no duplicate, has its footing on the bus, and no
other node holds a rail (R416, R422, R427). -/
def maySend (s : State) : Bool :=
  s.sl.vstby && s.cr.busIdle && !s.cr.railHeld && s.cr.address.isSome && !s.cr.duplicate

/-- The oldest reply whose access has completed. -/
def replyReady (s : State) : Option CrReply := s.cr.replies.find? fun r => r.resp.isSome

/-- A REPLY goes through: it leaves the device, and a new `CR_BIT_NS` takes effect after it (R428). -/
def replySent (r : CrReply) (rsp : Resp) (s : State) : State :=
  emit (.courier 3 r.src (s.cr.address.getD 0) r.param (respHeader rsp ++ rsp.value))
    (bumpCr 1 (modCr (fun c => { c with
      replies := c.replies.filter fun x => x.ticket ≠ r.ticket
      bitNs := if r.newBit then pnum s P.CR_BIT_NS else c.bitNs }) s))

/-- The REPLY command (R419). -/
def sendReply (arb : Arb) (s : State) : State :=
  if maySend s = false then s
  else match replyReady s with
    | none => s
    | some r =>
      match r.resp with
      | none => s
      | some rsp => if arb = .won then replySent r rsp s else arbLost arb s

/-- The ALERT command (R424): the oldest waiting record goes to `CR_ALERT_DEST`. -/
def sendAlert (arb : Arb) (s : State) : State :=
  if maySend s = false ∨ pnum s P.CR_ALERT_DEST = 0xFFFFFFFF then s
  else match s.cr.waiting with
    | [] => s
    | a :: rest =>
      if arb = .won then
        emit (.courier 4 (pnum s P.CR_ALERT_DEST) (s.cr.address.getD 0) 0 (alertBytes a))
          (bumpCr 1 (modCr (fun c => { c with waiting := rest }) s))
      else arbLost arb s

/-- The identity an ASSIGN_ACK carries (R421). -/
def identityBytes (s : State) : List Byte :=
  leBytes 2 Config.vendorId.toNat ++ leBytes 2 0x8640 ++ leBytes 8 Config.serial.toNat ++
    leBytes 1 (lcState s) ++ leBytes 3 0

/-- An ASSIGN (R421): accepted only while the device holds no address and ENUM_IN has been high 1 ms. -/
def takeAssign (dest src : BitVec 18) (crc : BitVec 16) (endOk : Bool) (s : State) : State :=
  if s.sl.vstby = false ∨ s.cr.busIdle = false ∨ s.cr.address ≠ none ∨ s.cr.enumInHeld = false then s
  else match crFrameFault dest.toNat src.toNat 5 0 [] crc endOk true with
    | some bad => frameDiscard bad s
    | none =>
      emit (.courier 6 src.toNat dest.toNat 0 (identityBytes s))
        (bumpCr 1 (modCr (fun c => { c with address := some dest.toNat, ackSent := true, duplicate := false })
          (frameTaken s)))

/-- A RELEASE (R422): the address and DUPLICATE are cleared and ENUM_OUT drops; no reply. -/
def takeRelease (dest src : BitVec 18) (crc : BitVec 16) (endOk : Bool) (s : State) : State :=
  if frameHere dest s = false then s
  else match crFrameFault dest.toNat src.toNat 7 0 [] crc endOk true with
    | some bad => frameDiscard bad s
    | none => modCr (fun c => { c with address := none, duplicate := false, enumOut := false, ackSent := false })
        (frameTaken s)

/-- ENUM_IN changes (R421): a fall drops ENUM_OUT, a rise has yet to last 1 ms. -/
def enumInChange (high : Bool) (s : State) : State :=
  modCr (fun c => { c with enumIn := high, enumInHeld := c.enumInHeld && high, enumOut := c.enumOut && high }) s

/-- ENUM_IN has been high for 1 ms (R421): ASSIGN may be accepted; with an address, ENUM_OUT rises. -/
def enumInHeldHigh (s : State) : State :=
  if s.cr.enumIn then
    modCr (fun c => { c with enumInHeld := true, enumOut := c.enumOut || c.address.isSome }) s
  else s

/-- 1 ms after the ACK ends, ENUM_IN having been high for 1 ms, ENUM_OUT rises (R421). -/
def enumOutRaise (s : State) : State :=
  if s.cr.enumInHeld ∧ s.cr.ackSent ∧ s.cr.address.isSome then modCr (fun c => { c with enumOut := true }) s else s

/-- A rail or a spacer has lasted beyond `CR_STALL_TIMEOUT` (R415, R427); with the value 0 it never does. -/
def stallTimeout (railHeld : Bool) (s : State) : State :=
  if s.sl.vstby = false ∨ pnum s P.CR_STALL_TIMEOUT = 0 then s
  else if railHeld then
    raiseAlert 5 0 0 0 1 (gbAdd 3500 1 (modCr (fun c => { c with railHeld := true }) s))
  else raiseAlert 5 0 0 0 3 (frameDiscard false s)

/-- `CR_STATUS` (Table 17.6). -/
def crStatus (s : State) : Nat :=
  bNat s.cr.address.isSome + 2 * bNat s.cr.enumIn + 4 * bNat s.cr.enumOut + 8 * bNat s.cr.duplicate +
    16 * bNat s.cr.railHeld + 32 * bNat (s.ps.state == .night || s.ps.state == .off)

/-! ### Commands -/

/-- REPLY (R419). -/
def execReply (arb : Arb) (s : State) : Out := .next (sendReply arb s)
/-- ALERT (R424). -/
def execAlert (arb : Arb) (s : State) : Out := .next (sendAlert arb s)
/-- ASSIGN (R421). -/
def execAssign (dest src : BitVec 18) (crc : BitVec 16) (endOk : Bool) (s : State) : Out :=
  .next (takeAssign dest src crc endOk s)
/-- ENUM_OUT_RAISE (R421). -/
def execEnumOutRaise (s : State) : Out := .next (enumOutRaise s)
/-- ENUM_IN (R421). -/
def execEnumIn (high : Bool) (s : State) : Out := .next (enumInChange high s)
/-- ENUM_IN_HELD_HIGH (R421). -/
def execEnumInHeldHigh (s : State) : Out := .next (enumInHeldHigh s)
/-- RELEASE (R422). -/
def execRelease (dest src : BitVec 18) (crc : BitVec 16) (endOk : Bool) (s : State) : Out :=
  .next (takeRelease dest src crc endOk s)
/-- CR_STALL_TIMEOUT (R415, R427). -/
def execCrStallTimeout (railHeld : Bool) (s : State) : Out := .next (stallTimeout railHeld s)
/-- RAIL_HOLD_RELEASE (R412): the drivers release the rail and the event is counted. -/
def execRailHoldRelease (s : State) : Out := .next (onlyIf s.sl.vstby (bumpCr 6) s)
/-- COURIER_BUS_IDLE (R415). -/
def execCourierBusIdle (s : State) : Out :=
  .next (onlyIf s.sl.vstby (modCr fun c => { c with busIdle := true, railHeld := false }) s)

end Sys2Proof.Machine
end

