-- ==== Sys2Proof/Machine/Loss.lean ====
section
/-! DEFINITION. What a loss of die power takes with it (15 R386, 19 R447, R450). -/

namespace Sys2Proof.Machine

/-- What a device reset and a loss of die power leave of everything held on the dies: nothing (13 Table 13.9, 15 R386).
Lodgings, units and what the DIMMs hold are settled by the two cases below. -/
def dieSramGone (s : State) : State :=
  { s with
    world := { debugHalt := false }
    link := []
    port := []
    sw := {}
    reg := {}
    ch := []
    wing := []
    prot := {}
    lc := []
    tier := {}
    coh := {}
    comp := {}
    job := {}
    gb := { s.gb with dieFigs := [] } }

/-- The dies and the DIMMs are without power: nothing held in DRAM or in die SRAM survives (R386). The lodgings become
`FREE` at the reset that follows; the retired list is in the flash (11 R317). -/
def diesLost (s : State) : State :=
  modSpace (fun x => { retired := x.retired }) (dieSramGone s)

/-- Every branch opens with the main input (15 R388). -/
def openAllBranches (s : State) : State :=
  modHs (fun h => { h with
    rampQueue := []
    branches := h.branches.map fun e =>
      (e.1, { e.2 with gate := false, ramping := false,
                       state := if e.2.state = .ramp then .off else e.2.state }) }) s

/-- The dies' power goes (R386): rails down, `BOOT_STAGE` `STANDBY`, `PS_STATE` `OFF`, die contents
lost, branches open, and a reset of cause `cause` due at the next power good. -/
def diePowerLost (cause : Nat) (s : State) : State :=
  let s1 := modSl (fun l => { l with
    railEn := 0#20
    railPg := 0#20
    railStep := 0
    railsFor := .none
    bootStage := .standby
    resetArmed := cause }) s
  let s2 := modPs (fun p => { p with
    entryStep := 0
    exitStep := 0
    abort := none
    latchedWake := none
    timerEnd := none }) s1
  diesLost (openAllBranches (psEnter .off s2))

/-- The main input opened in `ON` (R386). -/
def mainPowerLost (s : State) : State := diePowerLost 5 s

end Sys2Proof.Machine
end

