-- ==== Sys2Proof/Machine/Maeri.lean ====
section
/-! DEFINITION. The Maeri frame format and its decoder, with the code and bit offset of every kind of bad
input (05 R127-R139, R153-R154). -/

namespace Sys2Proof.Machine

/-! ### Bits of a frame (R128) -/

/-- The bits of bytes, bit 0 of each byte first. -/
def frameBits (bs : List Byte) : List Bool := bs.flatMap fun b => (below 8).map fun i => b.getLsbD i

/-- What is left of an input, and the offset of its first bit. -/
structure Reader where
  bits : List Bool
  pos : Nat

/-- A step of decoding: an error with its code and offset, or a value and what is left. -/
inductive Dec (α : Type) where
  | err (code offset : Nat)
  | ok (v : α) (r : Reader)

/-- The input ends: `INPUT_TRUNCATED` at its length in bits. -/
def truncated {α : Type} (r : Reader) : Dec α := .err 0x24 (r.pos + r.bits.length)

/-- A field of `n` bits, least significant first. -/
def readBits (n : Nat) (r : Reader) : Dec Nat :=
  if r.bits.length < n then truncated r
  else .ok ((r.bits.take n).foldr (fun b a => bNat b + 2 * a) 0) ⟨r.bits.drop n, r.pos + n⟩

/-! ### Codes (R134, R135) -/

/-- A code as the tree its codewords spell. -/
inductive CTree where
  | empty
  | sym (n : Nat)
  | node (zero one : CTree)

/-- A codeword put into a tree. -/
def CTree.insert (n : Nat) : List Bool → CTree → CTree
  | [], _ => .sym n
  | b :: bs, t =>
    let z := match t with | .node z _ => z | _ => .empty
    let o := match t with | .node _ o => o | _ => .empty
    if b then .node z (insert n bs o) else .node (insert n bs z) o

/-- How many symbols have a length. -/
def countLen (lens : List Nat) (l : Nat) : Nat := if l = 0 then 0 else lens.count l

/-- The first codeword of each length, from 1 up. -/
def firstCodes (lens : List Nat) : Nat → Nat → Nat → List Nat
  | 0, _, _ => []
  | k + 1, l, code =>
    let c := (code + countLen lens (l - 1)) * 2
    c :: firstCodes lens k (l + 1) c

/-- The canonical code of a list of lengths. -/
def canonical (maxLen : Nat) (lens : List Nat) : CTree :=
  let step (q : CTree × List Nat) (e : Nat × Nat) : CTree × List Nat :=
    if e.1 = 0 then q
    else
      let c := nth 0 q.2 (e.1 - 1)
      (q.1.insert e.2 (msbBits e.1 c), q.2.take (e.1 - 1) ++ (c + 1) :: q.2.drop e.1)
  ((lens.zip (below lens.length)).foldl step (.empty, firstCodes lens maxLen 1 0)).1

/-- The Kraft sum in units of 2^-maxLen. -/
def kraft (maxLen : Nat) (lens : List Nat) : Nat :=
  lens.foldl (fun a l => if l = 0 then a else a + 2 ^ (maxLen - l)) 0

/-- Whether a set of lengths is valid; only a distance code may be empty. -/
def lengthsValid (maxLen : Nat) (mayBeEmpty : Bool) (lens : List Nat) : Bool :=
  let used := lens.filter (· != 0)
  if used = [] then mayBeEmpty
  else used == [1] || kraft maxLen lens == 2 ^ maxLen

/-- One symbol; bits that no codeword begins with are `ILLEGAL_CODE` at the first of them. -/
def readSym (start : Nat) : CTree → Reader → Dec Nat
  | .empty, _ => .err 0x21 start
  | .sym n, r => .ok n r
  | .node z o, r =>
    match r.bits with
    | [] => truncated r
    | b :: bs => if b then readSym start o ⟨bs, r.pos + 1⟩ else readSym start z ⟨bs, r.pos + 1⟩

/-- One symbol of a code; with no bit left the input is truncated, also for an empty code. -/
def decodeSym (t : CTree) (r : Reader) : Dec Nat :=
  match r.bits with
  | [] => truncated r
  | _ :: _ => readSym r.pos t r

/-! ### The table section (R133) -/

/-- The order in which the code-length-code lengths come. -/
def clOrder : List Nat := [15, 14, 13, 0, 8, 7, 9, 6, 10, 5, 11, 4, 12, 3, 2, 1]

/-- Fields of 3 bits. -/
def readTriples : Nat → Reader → Dec (List Nat)
  | 0, r => .ok [] r
  | k + 1, r =>
    match readBits 3 r with
    | .err c o => .err c o
    | .ok v r1 =>
      match readTriples k r1 with
      | .err c o => .err c o
      | .ok vs r2 => .ok (v :: vs) r2

/-- A run of the sequence of lengths: its least count, its extra bits; `sym` counts from the repeat symbol. -/
def clRun (sym : Nat) : Nat × Nat := if sym = 0 then (3, 2) else if sym = 1 then (3, 3) else (11, 7)

/-- The sequence of `total` lengths, held in reverse; `rep` is the repeat symbol, 13 in Maeri. -/
def readLengths (t : CTree) (rep total : Nat) : Nat → List Nat → Reader → Dec (List Nat)
  | 0, acc, r => .ok acc.reverse r
  | fuel + 1, acc, r =>
    if total ≤ acc.length then .ok acc.reverse r
    else match decodeSym t r with
      | .err c o => .err c o
      | .ok sym r1 =>
        if sym < rep then readLengths t rep total fuel (sym :: acc) r1
        else if sym = rep ∧ acc = [] then .err 0x29 r.pos
        else if total < acc.length + (clRun (sym - rep)).1 then .err 0x29 r.pos
        else match readBits (clRun (sym - rep)).2 r1 with
          | .err c o => .err c o
          | .ok x r2 =>
            let n := (clRun (sym - rep)).1 + x
            if total < acc.length + n then .err 0x29 r.pos
            else
              let v := if sym = rep then acc.headD 0 else 0
              readLengths t rep total fuel (List.replicate n v ++ acc) r2

/-- The lengths of the table section: literal/length, distance (R133, R135). -/
def readTableLengths (r : Reader) : Dec (List Nat × List Nat) :=
  match readBits 5 r with
  | .err c o => .err c o
  | .ok nlx r1 =>
  match readBits 5 r1 with
  | .err c o => .err c o
  | .ok ndx r2 =>
  match readBits 4 r2 with
  | .err c o => .err c o
  | .ok ncx r3 =>
  if 16 < ncx + 4 then .err 0x29 r2.pos
  else match readTriples (ncx + 4) r3 with
  | .err c o => .err c o
  | .ok cl r4 =>
  let clLens := (below 16).map fun s =>
    match (clOrder.zip cl).find? fun e => e.1 == s with
    | some e => e.2
    | none => 0
  if lengthsValid 7 false clLens = false then .err 0x29 r4.pos
  else match readLengths (canonical 7 clLens) 13 (258 + nlx + ndx + 1) (258 + nlx + ndx + 2) [] r4 with
  | .err c o => .err c o
  | .ok ls r5 =>
  let lit := ls.take (258 + nlx)
  let dst := ls.drop (258 + nlx)
  if lengthsValid 12 false lit = false ∨ nth 0 lit 256 = 0 ∨ lengthsValid 12 true dst = false then .err 0x29 r5.pos
  else .ok (lit, dst) r5

/-- The two codes of a body: literal/length and distance. -/
structure Codes where
  lit : CTree
  dist : CTree

/-- The codes of two lists of lengths of at most `maxLen` bits, where they could be read. -/
def codesOf (maxLen : Nat) : Dec (List Nat × List Nat) → Dec Codes
  | .err c o => .err c o
  | .ok q r => .ok ⟨canonical maxLen q.1, canonical maxLen q.2⟩ r

/-- The codes that the table section gives. -/
def readTables (r : Reader) : Dec Codes := codesOf 12 (readTableLengths r)

/-! ### Lengths and distances (R131, R132) -/

/-- First length and extra bits of a length code (Table 5.2). -/
def lenCode (c : Nat) : Nat × Nat :=
  if c < 8 then (4 + c, 0)
  else if c < 12 then (12 + 2 * (c - 8), 1)
  else if c < 16 then (20 + 4 * (c - 12), 2)
  else if c < 20 then (36 + 8 * (c - 16), 3)
  else if c < 24 then (68 + 16 * (c - 20), 4)
  else if c < 28 then (132 + 32 * (c - 24), 5)
  else if c < 30 then (260 + 128 * (c - 28), 7)
  else (516 + 256 * (c - 30), 8)

/-- First distance and extra bits of a distance code (Table 5.3). -/
def distCode (c : Nat) : Nat × Nat :=
  if c < 4 then (1 + c, 0)
  else if c < 30 then
    let e := c / 2 - 1
    (1 + (2 + c % 2) * 2 ^ e, e)
  else (32769 + 2048 * (c - 30), 11)

/-! ### The body (R136) -/

/-- A match copied byte by byte; the history is held newest first. -/
def copyMatch : Nat → Nat → List Byte → List Byte
  | 0, _, h => h
  | k + 1, dist, h => copyMatch k dist (nth 0#8 h (dist - 1) :: h)

/-- The alphabets of a format: the literal/length and distance symbols from which codewords are illegal, and what the
codes stand for. -/
structure Alphabet where
  litEnd : Nat
  distEnd : Nat
  len : Nat → Nat × Nat
  dist : Nat → Nat × Nat

/-- Maeri's alphabets: every symbol of a code is legal. -/
def maeriAlphabet : Alphabet := ⟨4096, 4096, lenCode, distCode⟩

/-- What a body has produced: bytes out, the history newest first, the symbols that produced output newest first, each
with its first bit and its bytes. -/
structure Flow where
  n : Nat := 0
  hist : List Byte := []
  syms : List (Nat × Nat) := []

/-- A length that passes the end of the output, where the format fixes it. -/
def passes (orig : Option Nat) (n : Nat) : Bool := match orig with | some o => decide (o < n) | none => false

/-- A pair after its length codeword `c`, which began at `start`: length and distance, or the error of lowest offset,
and of lowest code among those at one offset. Where the input ends in the length's extra bits, the least length of the code
establishes a `LENGTH_OVERRUN`, as R154 says of runs (DEDUCED, log 137). -/
def readPair (a : Alphabet) (codes : Codes) (c start n hist : Nat) (orig : Option Nat) (r : Reader) : Dec (Nat × Nat) :=
  match readBits (a.len c).2 r with
  | .err e o => if passes orig (n + (a.len c).1) then .err 0x23 start else .err e o
  | .ok x r1 =>
    let len := (a.len c).1 + x
    let past := passes orig (n + len)
    match decodeSym codes.dist r1 with
    | .err e o => if past then .err 0x23 start else .err e o
    | .ok dc r2 =>
      if a.distEnd ≤ dc then (if past then .err 0x23 start else .err 0x21 r1.pos)
      else match readBits (a.dist dc).2 r2 with
      | .err e o => if past then .err 0x23 start else .err e o
      | .ok y r3 =>
        let dist := (a.dist dc).1 + y
        if hist + n < dist then .err 0x22 start
        else if past then .err 0x23 start
        else .ok (len, dist) r3

/-- The symbols of a body up to end-of-page or end-of-block; `past` bytes of history come before the output. -/
def readBody (a : Alphabet) (codes : Codes) (past : Nat) (orig : Option Nat) : Nat → Flow → Reader → Flow × Dec Unit
  | 0, f, r => (f, truncated r)
  | fuel + 1, f, r =>
    match decodeSym codes.lit r with
    | .err c o => (f, .err c o)
    | .ok sym r1 =>
      if sym < 256 then
        (if passes orig (f.n + 1) then (f, .err 0x23 r.pos)
         else readBody a codes past orig fuel ⟨f.n + 1, BitVec.ofNat 8 sym :: f.hist, (r.pos, 1) :: f.syms⟩ r1)
      else if sym = 256 then (f, if orig = none ∨ orig = some f.n then .ok () r1 else .err 0x23 r.pos)
      else if a.litEnd ≤ sym then (f, .err 0x21 r.pos)
      else match readPair a codes (sym - 257) r.pos f.n past orig r1 with
        | .err c o => (f, .err c o)
        | .ok q r2 =>
          readBody a codes past orig fuel ⟨f.n + q.1, copyMatch q.1 q.2 f.hist, (r.pos, q.1) :: f.syms⟩ r2

/-- Stored bytes: as many as the input holds. -/
def readStored : Nat → Flow → Reader → Flow × Dec Unit
  | 0, f, r => (f, .ok () r)
  | k + 1, f, r =>
    match readBits 8 r with
    | .err c o => (f, .err c o)
    | .ok b r1 => readStored k ⟨f.n + 1, BitVec.ofNat 8 b :: f.hist, (r.pos, 1) :: f.syms⟩ r1

/-- The bytes a flow has put out. -/
def Flow.out (f : Flow) : List Byte := (f.hist.take f.n).reverse

/-- Padding to the byte boundary: a nonzero bit is `LENGTH_OVERRUN` there. -/
def readPadding : Nat → Reader → Dec Unit
  | 0, r => .ok () r
  | k + 1, r =>
    if r.pos % 8 = 0 then .ok () r
    else match r.bits with
      | [] => truncated r
      | b :: bs => if b then .err 0x23 r.pos else readPadding k ⟨bs, r.pos + 1⟩

/-! ### The header (R129, R130) -/

/-- A header's fields. -/
structure Header where
  level : Nat
  mode : Nat
  dict : Nat
  orig : Nat
  tables : Bool
deriving DecidableEq, Repr

/-- `HCHECK` of the seven bytes before it. -/
def headerCheck (bs : List Byte) : Byte := (bs.take 7).foldl (fun a b => a ^^^ b) 0xA5#8

/-- The header, where R130's general conditions hold. -/
def parseHeader (bs : List Byte) : Option Header :=
  let v := leNat (bs.take 8)
  let h : Header := ⟨bitsOf v 4 4, bitsOf v 8 2, bitsOf v 10 10, bitsOf v 20 13, bitOf v 33⟩
  if bitsOf v 0 4 = 1 ∧ h.level ≤ 9 ∧ h.mode ≠ 3 ∧ (h.level = 0 ↔ h.mode = 0) ∧
      (h.mode = 2 → 4 ≤ h.level) ∧ (h.mode ≠ 2 → h.dict = 0 ∧ h.tables = false) ∧
      1 ≤ h.orig ∧ h.orig ≤ 4096 ∧ bitsOf v 34 22 = 0 ∧ headerCheck bs = BitVec.ofNat 8 (bitsOf v 56 8)
  then some h else none

/-- A header's bytes. -/
def headerBytes (h : Header) : List Byte :=
  let b := leBytes 7 (1 + h.level * 16 + h.mode * 2 ^ 8 + h.dict * 2 ^ 10 + h.orig * 2 ^ 20 + bNat h.tables * 2 ^ 33)
  b ++ [headerCheck b]

/-- `LEVEL_MODE` of a level and mode (R130). -/
def levelMode (level mode : Nat) : Nat := if mode = 2 then level + 6 else level

/-- The level and whether a dictionary is used, of a `LEVEL_MODE`. -/
def levelOf (lm : Nat) : Nat := if lm ≤ 9 then lm else lm - 6

/-- A preset dictionary as the decoder needs it: content and default code lengths. -/
structure DictBody where
  content : List Byte
  lengths : List Nat
deriving DecidableEq, Repr

/-- A decoded frame: its output and what follows it, or the error with code and bit offset. -/
inductive Decoded where
  | bad (code offset : Nat)
  | good (out : List Byte) (r : Reader)

/-- The codes of a body: the dictionary's default codes, or those of the table section. -/
def bodyCodes (h : Header) (dict : Option DictBody) (r : Reader) : Dec Codes :=
  match h.tables, dict with
  | true, some d => .ok ⟨canonical 12 (d.lengths.take 289), canonical 12 (d.lengths.drop 289)⟩ r
  | _, _ => readTables r

/-- The body after a good header, and its padding. -/
def decodeBody (h : Header) (dict : Option DictBody) (r : Reader) : Flow × Dec Unit :=
  if h.mode = 0 then readStored h.orig {} r
  else
    let past := match dict with
      | some d => d.content
      | none => []
    match bodyCodes h dict r with
    | .err c o => ({}, .err c o)
    | .ok codes r1 =>
      match readBody maeriAlphabet codes past.length (some h.orig) (r.bits.length + 1) ⟨0, past.reverse, []⟩ r1 with
      | (f, .err c o) => (f, .err c o)
      | (f, .ok _ r2) => (f, readPadding 8 r2)

/-- A frame at the head of an input that begins at byte `base` of its stream: header, dictionary, body (R154). -/
def flowFrame (good : Header → Bool) (dictOf : Nat → Option DictBody) (base : Nat) (bs : List Byte) : Flow × Dec Unit :=
  if bs.length < 8 then ({}, .err 0x24 (8 * (base + bs.length)))
  else match parseHeader bs with
    | none => ({}, .err 0x20 (8 * base))
    | some h =>
      if good h = false then ({}, .err 0x20 (8 * base))
      else if h.mode = 2 ∧ (dictOf h.dict).isNone then ({}, .err 0x25 (8 * base + 10))
      else decodeBody h (if h.mode = 2 then dictOf h.dict else none) ⟨frameBits (bs.drop 8), 8 * base + 64⟩

/-- A frame decoded whole. -/
def decodeFrame (good : Header → Bool) (dictOf : Nat → Option DictBody) (bs : List Byte) : Decoded :=
  match flowFrame good dictOf 0 bs with
  | (_, .err c o) => .bad c o
  | (f, .ok _ r) => .good f.out r

/-- A frame held inside the device, against its descriptor's fields (R130, R137, R139). -/
def decodeInside (lm dictId crc : Nat) (dictOf : Nat → Option DictBody) (image : List Byte) : Nat × Nat ⊕ List Byte :=
  match decodeFrame (fun h => h.orig == 4096 && h.mode != 0 && levelMode h.level h.mode == lm && h.dict == dictId)
      dictOf image with
  | .bad c o => .inl (c, o)
  | .good out r =>
    if r.bits ≠ [] then .inl (0x23, r.pos)
    else if (crc32c out).toNat ≠ crc then .inl (0x26, 8 * image.length)
    else .inr out

/-- An exported frame at the head of an input: its flow and the length of the frame in bytes, its trailer checked
(R137, R139). -/
def flowExported (dictOf : Nat → Option DictBody) (base : Nat) (bs : List Byte) : Flow × (Nat × Nat ⊕ Nat) :=
  match flowFrame (fun _ => true) dictOf base bs with
  | (f, .err c o) => (f, .inl (c, o))
  | (f, .ok _ r) =>
    if r.bits.length < 32 then (f, .inl (0x24, 8 * (base + bs.length)))
    else if r.bits.take 32 ≠ frameBits (leBytes 4 (crc32c f.out).toNat) then (f, .inl (0x26, r.pos))
    else (f, .inr (r.pos / 8 + 4 - base))

/-- A `STORED` frame with its trailer (R138). -/
def storedFrame (bs : List Byte) : List Byte :=
  headerBytes ⟨0, 0, 0, bs.length, false⟩ ++ bs ++ leBytes 4 (crc32c bs).toNat

end Sys2Proof.Machine
end

