-- ==== Sys2Proof/Machine/Ecc.lean ====
section
/-! DEFINITION. The DRAM code word, the line check, and where a line lives (11 R292-R306). -/

namespace Sys2Proof.Machine

/-! ### BCH(127,113) shortened to 79 bits (R302) -/

/-- The residue of one more bit, highest coefficient first, modulo g(x) = 0x4377. -/
def bchBit (c : BitVec 14) (b : Bool) : BitVec 14 :=
  let t := c <<< 1
  let t := if b then t ||| 1#14 else t
  if c.getLsbD 13 then t ^^^ 0x0377#14 else t

/-- A polynomial of `n` coefficients modulo g(x). -/
def bchMod (n v : Nat) : BitVec 14 := (msbBits n v).foldl bchBit 0#14

/-- The residue of x^i. -/
def bchPower (i : Nat) : BitVec 14 := bchMod (i + 1) (2 ^ i)

/-- The check bits of data and metadata. -/
def bchCheck (d : Nat) (m : Bool) : BitVec 14 := bchMod 79 ((d + bNat m * 2 ^ 64) * 2 ^ 14)

/-- Whether a number has an odd count of set bits. -/
def oddBits (w v : Nat) : Bool := (below w).foldl (fun p i => p != v.testBit i) false

/-- The code word of Table 11.4: `d` in bits 63:0, `k` in 77:64, `P` in 78, `meta` in 79. -/
def encodeWord (d : Nat) (m : Bool) : Nat :=
  let w := d + (bchCheck d m).toNat * 2 ^ 64 + bNat m * 2 ^ 79
  w + bNat (oddBits 80 w) * 2 ^ 78

/-- The BCH polynomial of a code word: `k`, `d`, `meta` from the lowest coefficient. -/
def bchPoly (w : Nat) : Nat := bitsOf w 64 14 + bitsOf w 0 64 * 2 ^ 14 + bitsOf w 79 1 * 2 ^ 78

/-- The bit of the code word at a BCH position. -/
def posBit (i : Nat) : Nat := if i < 14 then 64 + i else if i < 78 then i - 14 else 79

/-- The one position, if any, whose error has a syndrome. -/
def onePattern (syn : BitVec 14) : Option Nat := firstBelow 79 fun i => bchPower i == syn

/-- The two positions, if any, whose errors together have a syndrome. -/
def twoPattern (syn : BitVec 14) : Option (Nat × Nat) :=
  let ps := (below 79).map bchPower
  (below 79).findSome? fun i =>
    ((below i).find? fun j => nth 0#14 ps i ^^^ nth 0#14 ps j == syn).map fun j => (i, j)

/-- A word decoded (Table 11.5): the number of corrected bits and the word, or none. -/
def decodeWord (w : Nat) : Option (Nat × Nat) :=
  let syn := bchMod 79 (bchPoly w)
  let odd := oddBits 80 w
  if syn = 0#14 then some (if odd then (1, Nat.xor w (2 ^ 78)) else (0, w))
  else match onePattern syn with
    | some i => if odd then some (1, Nat.xor w (2 ^ posBit i)) else none
    | none =>
      match twoPattern syn with
      | some (i, j) => if odd then none else some (2, Nat.xor (Nat.xor w (2 ^ posBit i)) (2 ^ posBit j))
      | none => none

/-- A 64-bit SRAM word with the error bits it came back with, as Table 11.4 numbers them (R306): the code of a DRAM word
without the metadata bit. -/
def decodeSram (word : BitVec 64) (err : BitVec 79) : Option (Nat × Nat) :=
  if err = 0#79 then some (0, word.toNat)
  else match decodeWord (Nat.xor (encodeWord word.toNat false) err.toNat) with
    | some (n, v) => if v.testBit 79 then none else some (n, bitsOf v 0 64)
    | none => none

/-! ### The line (R304, R305) -/

/-- One bit of the line check: x^6 + x + 1. -/
def crc6Bit (c : BitVec 6) (b : Bool) : BitVec 6 :=
  if c.getLsbD 5 != b then (c <<< 1) ^^^ 0x03#6 else c <<< 1

/-- Bytes least significant bit first. -/
def lsbBits (b : Byte) : List Bool := (below 8).map fun i => b.getLsbD i

/-- The line check over stored bytes, channel line index, `POISON` and `TIER_HINT`. -/
def lineCheck (bs : List Byte) (idx : Nat) (poison hint : Bool) : BitVec 6 :=
  ((bs ++ leBytes 5 idx ++ [BitVec.ofNat 8 (bNat poison + 2 * bNat hint)]).flatMap lsbBits).foldl crc6Bit 0x3F#6

/-- What a DRAM line holds beside its code bits. -/
structure RawLine where
  bytes : Line
  poison : Bool
  hint : Bool
deriving DecidableEq, Repr

/-- The metadata bit of word `w`. -/
def metaBit (l : RawLine) (idx w : Nat) : Bool :=
  if w = 0 then l.poison else if w = 1 then l.hint
  else (lineCheck (leBytes 64 l.bytes.toNat) idx l.poison l.hint).getLsbD (w - 2)

/-- The eight code words of a line. -/
def encodeLine (l : RawLine) (idx : Nat) : List Nat :=
  (below 8).map fun w => encodeWord (bitsOf l.bytes.toNat (64 * w) 64) (metaBit l idx w)

/-- A read line: good with the words and bits corrected, or uncorrectable with the words that failed. -/
inductive LineRead where
  | good (l : RawLine) (words bits : Nat)
  | bad (words : Nat)
deriving DecidableEq, Repr

/-- A line decoded with the error bits it came back with, 80 for each word (R304). -/
def decodeLine (l : RawLine) (idx : Nat) (err : BitVec 640) : LineRead :=
  if err = 0#640 then .good l 0 0
  else
    let raw := (encodeLine l idx).zip (below 8) |>.map fun x => Nat.xor x.1 (bitsOf err.toNat (80 * x.2) 80)
    let dec := raw.map decodeWord
    let failed := (below 8).foldl (fun a w => if (nth none dec w).isNone then a + 2 ^ w else a) 0
    let fixed := (below 8).foldl (fun a w => match nth none dec w with
      | some (n, _) => if n = 0 then a else a + 2 ^ w
      | none => a) 0
    let bits := dec.foldl (fun a d => match d with | some (n, _) => a + n | none => a) 0
    let twos := (dec.filter fun d => match d with | some (n, _) => n == 2 | none => false).length
    let val (w : Nat) : Nat := match nth none dec w with | some (_, v) => v | none => 0
    let m (w : Nat) : Bool := (val w).testBit 79
    let bytes := (below 8).foldl (fun a w => a + bitsOf (val w) 0 64 * 2 ^ (64 * w)) 0
    let got : RawLine := ⟨BitVec.ofNat 512 bytes, m 0, m 1⟩
    let chk := (below 6).foldl (fun a i => a + bNat (m (i + 2)) * 2 ^ i) 0
    if failed ≠ 0 then .bad failed
    else if 1 < twos then .bad fixed
    else if (lineCheck (leBytes 64 bytes) idx got.poison got.hint).toNat ≠ chk then .bad fixed
    else .good got fixed bits

/-! ### Modules and placement (R288-R293) -/

/-- A supported module code: x4 or not, density in Gb, 3DS. -/
def moduleOf (code : Nat) : Option (Bool × Nat × Bool) :=
  match code with
  | 1 => some (false, 16, false)
  | 2 => some (true, 16, false)
  | 3 => some (false, 32, false)
  | 4 => some (true, 32, false)
  | 5 => some (true, 64, false)
  | 6 => some (true, 16, true)
  | 7 => some (true, 32, true)
  | _ => none

/-- How the line index of a channel is laid out: column bits, rank bits, module bits, row bits. -/
structure Geometry where
  col : Nat
  rank : Nat
  modl : Nat
  row : Nat
deriving DecidableEq, Repr

/-- Log2 of 1, 2 or 4. -/
def log2Small (n : Nat) : Nat := if n = 4 then 2 else if n = 2 then 1 else 0

/-- The geometry of a declared channel. -/
def geometry (modules code ranks : Nat) : Option Geometry :=
  match moduleOf code with
  | none => none
  | some (x4, gb, _) =>
    if modules = 0 then none
    else some ⟨if x4 then 7 else 6, log2Small ranks, if modules = 2 then 1 else 0,
      if gb = 16 then 16 else if gb = 32 then 17 else 18⟩

/-- The bytes of a channel: two subchannels of 2^(5 + column + rank + module + row) lines. -/
def Geometry.bytes (g : Geometry) : Nat := 2 ^ (g.col + g.rank + g.modl + g.row + 12)

/-- Where a line of a frame lies: local channel and channel line index (R292). -/
def placeLine (f i : Nat) : Nat × Nat :=
  (2 * bitsOf f 28 2 + (i % 2 + f % 2) % 2, f % 2 ^ 28 * 32 + i / 2)

/-- The frame and line at a channel line index of a local channel. -/
def lineAt (ch idx : Nat) : Nat × Nat :=
  let f := ch / 2 * 2 ^ 28 + idx / 32
  (f, idx % 32 * 2 + (ch % 2 + f % 2) % 2)

/-- A DRAM address of Table 11.2. -/
structure DramAddr where
  sub : Nat
  group : Nat
  line : Nat
  bank : Nat
  rank : Nat
  modl : Nat
  row : Nat
deriving DecidableEq, Repr

/-- The decode of a channel line index (R293). -/
def dramAddr (g : Geometry) (idx : Nat) : DramAddr :=
  let x := idx / 2
  ⟨idx % 2, bitsOf x 0 3, bitsOf x 3 g.col, bitsOf x (g.col + 3) 2, bitsOf x (g.col + 5) g.rank,
    bitsOf x (g.col + 5 + g.rank) g.modl, x / 2 ^ (g.col + 5 + g.rank + g.modl)⟩

/-- The channel line index of a DRAM address. -/
def dramIndex (g : Geometry) (a : DramAddr) : Nat :=
  2 * (a.group + a.line * 8 + a.bank * 2 ^ (g.col + 3) + a.rank * 2 ^ (g.col + 5) +
    a.modl * 2 ^ (g.col + 5 + g.rank) + a.row * 2 ^ (g.col + 5 + g.rank + g.modl)) + a.sub

/-- The bank of an address, as a key of the activate-count tables. -/
def bankKey (a : DramAddr) : Nat := a.sub + a.modl * 2 + a.rank * 4 + a.group * 16 + a.bank * 128

end Sys2Proof.Machine
end

