-- ==== Sys2Proof/Machine/Presence.lean ====
section
/-! DEFINITION. Physical presence (13 R351) and the source class of an access (02 Table 2.7). -/

namespace Sys2Proof.Machine

/-- Whether the button window is open. -/
def windowOpenNow (s : State) : Bool :=
  match s.sl.windowEnd with
  | some t => decide (s.slTime < t)
  | none => false

/-- Whether the seal path is permitted: `STRAP[1:0]` = 10 as sampled. -/
def sealPermitted (s : State) : Bool := s.sl.straps % 4 == 2

/-- Whether the seal loop is intact: the last 16 samples have matched. -/
def sealIntact (s : State) : Bool := decide (16 ≤ s.sl.sealMatches)

/-- Whether physical presence holds (R351). -/
def presenceHolds (s : State) : Bool := windowOpenNow s || (sealPermitted s && sealIntact s)

/-- `PRESENCE_STATE` (Table 13.11). -/
def presenceState (s : State) : Nat :=
  bNat (presenceHolds s) + 2 * bNat (windowOpenNow s) + 4 * bNat (sealIntact s) + 8 * bNat (sealPermitted s)

/-- `PRESENCE_LEFT`: seconds left in the button window. -/
def presenceLeft (s : State) : Nat :=
  match s.sl.windowEnd with
  | some t => min 255 ((t - s.slTime + 10 ^ 9 - 1) / 10 ^ 9)
  | none => 0

/-- `PRESENCE_N` has stayed low for 20 ms after a falling edge: the window opens, or restarts its 60 s. -/
def presenceLow (s : State) : State :=
  modSl (fun l => { l with presenceLow := true, windowEnd := some (s.slTime + 60 * 10 ^ 9) }) s

/-- The button is released: nothing but the level changes. -/
def presenceHigh (s : State) : State := modSl (fun l => { l with presenceLow := false }) s

/-- The window closes. -/
def windowClose (s : State) : State := modSl (fun l => { l with windowEnd := none }) s

/-- A sample of the seal loop (R351): it breaks at the first mismatch. -/
def sealSample (matched : Bool) (s : State) : State :=
  modSl (fun l => { l with sealMatches := if matched then min 16 (l.sealMatches + 1) else 0 }) s

/-- The source class of an origin when its access is ordered (R46, R351). -/
def srcClass (s : State) : Origin → SrcClass
  | .courier _ => if presenceHolds s then .courierPresent else .courier
  | .keeper => .keeper
  | .fmApi => .fmApi
  | .steward _ => .steward

/-- The code of a source class (Table 2.7). -/
def SrcClass.code : SrcClass → Nat
  | .courierPresent => 0 | .keeper => 1 | .fmApi => 2 | .steward => 3 | .courier => 4

/-- The owner code a source class satisfies. -/
def SrcClass.owner : SrcClass → Nat
  | .courierPresent => 0 | .keeper => 1 | .fmApi => 2 | .steward => 3 | .courier => 0

/-! ### Commands -/

/-- PRESENCE_WINDOW_END (R351). -/
def execPresenceWindowEnd (s : State) : Out := .next (windowClose s)
/-- SEAL_LOOP_SAMPLE (R351). -/
def execSealLoopSample (matched : Bool) (s : State) : Out := .next (if s.sl.vstby then sealSample matched s else s)

end Sys2Proof.Machine
end

