-- ==== Sys2Proof/Machine/Cmd.lean ====
section
/-! DEFINITION. The status records of commands and the accesses the device makes for itself (02 R44, R45, R46). -/

namespace Sys2Proof.Machine

/-- The owner code of a group: as committed, else the default of Table 2.4 (R46, R48). -/
def ownerOf (s : State) (g : Nat) : Nat :=
  match groupSpec g with
  | some r => smGet r.owner s.dict.owners g
  | none => 0

/-- Where the record of a command member is kept: the `COMMIT` of a window is one member for all its rows (R43, R44). -/
def cmdKey (row param : Nat) : Nat := pkey (if param % 256 = 2 then 0 else row) param

/-- The record of a command member. -/
def cmdAt (s : State) (row param : Nat) : CmdRec := smGet {} s.dict.cmds (cmdKey row param)

/-- Whether a command is `PENDING`. -/
def cmdPending (s : State) (row param : Nat) : Bool := (cmdAt s row param).status == 1

/-- A pending command ends with a status and a `DETAIL` (R44). -/
def cmdEnd (row param status detail : Nat) (s : State) : State :=
  if cmdPending s row param then
    modDict (fun d => { d with cmds := smMod {} d.cmds (cmdKey row param) fun c =>
      { c with status := status, detail := min 0xFFFFFFFF detail } }) s
  else s

/-- Whether a member's value is held across `NIGHT` in retention SRAM, not in the night region (02 R35). -/
def inRetention (n : Nat) : Bool := persOf n == .night && !(decide (0x1000 ≤ n / 256) && decide (n / 256 < 0x2000)) && n / 256 != 0x2200

/-- The values with one set; a value equal to the default is not listed. -/
def putValue (row n v : Nat) (m : SMap Nat) : SMap Nat :=
  if v = (match paramSpec n with | some r => r.dflt | none => 0) then smErase m (pkey row n) else smSet m (pkey row n) v

/-- A member takes a value; one that retention SRAM holds goes into both islands' (01 R11). -/
def putParam (row n v : Nat) (s : State) : State :=
  modDict (fun d => { d with
    params := putValue row n v d.params, mirror := if inRetention n then putValue row n v d.mirror else d.mirror }) s

/-- The code of the source class that owns a parameter's group. -/
def ownerClass (s : State) (param : Nat) : Nat :=
  match [SrcClass.courierPresent, .keeper, .fmApi, .steward, .courier].find? fun c => c.owner == ownerOf s (param / 256) with
  | some c => c.code
  | none => 0

/-- A command the device writes on behalf of a group's present owner is refused: numbered, counted and recorded as any
refused access (R50). -/
def autoRefused (param st : Nat) (s : State) : State :=
  modDict (fun d => { d with
    seq := d.seq + 1
    seqMirror := d.seq + 1
    rejectCount := satAdd 32 d.rejectCount 1
    lastReject := param + ownerClass s param * 2 ^ 24 + st * 2 ^ 32 + (d.seq + 1) * 2 ^ 64 }) s

/-- A command the device writes on behalf of a group's present owner: numbered, and `PENDING` (04 R123). -/
def autoCommand (param : Nat) (s : State) : State :=
  let code := ownerClass s param
  modDict (fun d => { d with
    seq := d.seq + 1
    seqMirror := d.seq + 1
    cmds := smSet d.cmds (pkey 0 param) ⟨1, code, 0, d.seq + 1⟩ }) s

end Sys2Proof.Machine
end

