-- ==== Sys2Proof/Machine/Links.lean ====
section
/-! DEFINITION. Corridor links: transfers, replay, credits and reset (12 R318-R335). A transfer for the receiving die is
handed to its unit in the step that accepts it (log 7); one to be forwarded waits for its turn on the next link. -/

namespace Sys2Proof.Machine

/-- Link `k`. -/
def linkAt (s : State) (k : Nat) : CorrLink := smGet {} s.link k
/-- Link `k` changed. -/
def modLinkAt (k : Nat) (f : CorrLink → CorrLink) (s : State) : State :=
  modLink (fun m => smMod {} m k f) s

/-- The lower die of link `k` (Table 12.1). -/
def linkEndA (k : Nat) : Nat := if k < 16 then k / 4 else nth 0 [4, 5, 6, 4, 0, 1, 2, 0] (k - 16)
/-- The higher die of link `k`. -/
def linkEndB (k : Nat) : Nat := if k < 16 then 4 + k % 4 else nth 0 [5, 6, 7, 7, 1, 2, 3, 3] (k - 16)

/-- The link between two dies, if they share one. -/
def linkBetween (a b : Nat) : Option Nat :=
  firstBelow 24 fun k => (linkEndA k == a && linkEndB k == b) || (linkEndA k == b && linkEndB k == a)

/-- One direction of a link: `toB` is A to B. -/
def ClDir.of (l : CorrLink) (toB : Bool) : ClDir := if toB then l.ab else l.ba
/-- One direction changed. -/
def CorrLink.modDir (l : CorrLink) (toB : Bool) (f : ClDir → ClDir) : CorrLink :=
  if toB then { l with ab := f l.ab } else { l with ba := f l.ba }

/-! ### The CRC and the control word (R322, R323) -/

/-- One bit of CRC-16 with polynomial 0x8BB7. -/
def crcLinkBit (c : BitVec 16) (b : Bool) : BitVec 16 :=
  if c.getLsbD 15 != b then (c <<< 1) ^^^ 0x8BB7#16 else c <<< 1

/-- The CRC over bytes, each most significant bit first, initial value 0. -/
def crcLink (bs : List Byte) : BitVec 16 :=
  (bs.flatMap fun b => msbBits 8 b.toNat).foldl crcLinkBit 0#16

/-- The control word of a transfer (Table 12.2). -/
def controlWord (valid : Bool) (cls : Nat) (data : Bool) (count seq ack : Nat) (nak : Bool)
    (pair crCount : Nat) : Nat :=
  bNat valid + cls * 2 + bNat data * 16 + count * 32 + seq * 2 ^ 12 + ack * 2 ^ 28 + bNat nak * 2 ^ 44 +
    (pair / 2) * 2 ^ 45 + (pair % 2) * 2 ^ 48 + 2 ^ 49 + crCount * 2 ^ 50

/-- Modulo 2^16. -/
def w16 (n : Nat) : Nat := n % 65536

/-! ### Credits (R327, R328) -/

/-- Table 12.3: the credits of a pair, 2 * class + kind. -/
def advertised (pair : Nat) : Nat := nth 0 [64, 0, 32, 0, 64, 0, 32, 128, 32, 128, 16, 16] pair

/-- What a direction's receiver advertises: a rejoining link a share of Table 12.3 (14 Table 14.5). -/
def advertisedBy (d : ClDir) (pair : Nat) : Nat := advertised pair * d.pct / 100

/-- The credits a sender holds for a pair. -/
def available (d : ClDir) (pair : Nat) : Nat :=
  advertisedBy d pair - w16 (smGet 0 d.taken pair + 65536 - smGet 0 d.returned pair)

/-- A returned count is taken unless it is older than the one held. -/
def creditReturned (pair n : Nat) (d : ClDir) : ClDir :=
  if 2 ^ 15 < w16 (n + 65536 - smGet 0 d.returned pair) then d
  else { d with returned := smPut 0 d.returned pair n }

/-- A transfer that is not followed through the link takes its credit of a pair (R327). -/
def creditOut (via pair : Nat) (s : State) : State :=
  if 48 ≤ via then s
  else modLinkAt (via / 2) (fun l => l.modDir (via % 2 == 1) fun d =>
    { d with taken := smPut 0 d.taken pair (w16 (smGet 0 d.taken pair + 1)) }) s

/-- The receiver frees such a credit. -/
def creditBack (via pair : Nat) (s : State) : State :=
  if 48 ≤ via then s
  else modLinkAt (via / 2) (fun l => l.modDir (via % 2 == 1) fun d =>
    { d with freed := smPut 0 d.freed pair (w16 (smGet 0 d.freed pair + 1)) }) s

/-- The credits of a pair that such transfers hold on a link's direction: samples on their way, and requests held in the
receive buffer (10 R271, R277). -/
def creditsOut (s : State) (via pair : Nat) : Nat :=
  if pair = 10 then (s.reg.flights.flatMap fun e => e.2.filter fun f => f.1 == via).length
  else if pair = 0 then (s.coh.home.flatMap fun e => e.2.filter fun h => h.via == via).length
  else 0

/-- The pair whose count goes next: in rotation, a changed one before the others. -/
def creditTurn (d : ClDir) : Nat :=
  let order := (below 12).map fun i => (d.crTurn + i) % 12
  (order.find? fun p => smGet 0 d.freed p != smGet 0 d.crSent p).getD (d.crTurn % 12)

/-- The number below which a receiver's die has taken responsibility for everything: the oldest it has not yet acknowledged. -/
def ackOf (d : ClDir) : Nat :=
  match d.rx with
  | [] => d.expSeq
  | e :: _ => e.seq

/-- The `ACK` a receiver sends: with `NAK` the number it expects (R326), else what it acknowledges (R324, log 143). -/
def ackField (d : ClDir) : Nat := if d.nak then d.expSeq else ackOf d

/-- Whether `ACK`, `NAK` or a credit count of a receiver has changed since it last sent them (R329). -/
def ackChanged (d : ClDir) : Bool :=
  ackField d != d.ackSent || d.nak != d.nakSent || (below 12).any fun p => smGet 0 d.freed p != smGet 0 d.crSent p

/-! ### Sending (R325-R327) -/

/-- The two ends of a link in a direction: sender, receiver. -/
def linkEnds (k : Nat) (toB : Bool) : Nat × Nat :=
  if toB then (linkEndA k, linkEndB k) else (linkEndB k, linkEndA k)

/-- The entries of a die's spill region in use. -/
def spillUsed (s : State) (die : Nat) : Nat :=
  (below 24).foldl (fun n k =>
    n + (if linkEndA k = die then (linkAt s k).ab.spilled else 0) +
      (if linkEndB k = die then (linkAt s k).ba.spilled else 0)) 0

/-- Whether a transfer comes at its place in its class: data while data is due, a header while none is (R324). -/
def orderAllows (d : ClDir) (cls : Nat) (data : Bool) : Bool :=
  if data then decide (0 < smGet 0 d.dataDue cls) else decide (smGet 0 d.dataDue cls = 0)

/-- Whether a header finds the credits of its whole message (R327). -/
def creditsThere (d : ClDir) (cls : Nat) (data : Bool) (count : Nat) : Bool :=
  data || decide (0 < available d (2 * cls)) && decide (count ≤ available d (2 * cls + 1))

/-- Whether a transfer's place in its class's message order and its credits let it be sent. -/
def creditsAllow (d : ClDir) (cls : Nat) (data : Bool) (count : Nat) : Bool :=
  orderAllows d cls data && creditsThere d cls data count

/-- Whether a transfer is held for credit alone. -/
def creditShort (d : ClDir) (cls : Nat) (data : Bool) (count : Nat) : Bool :=
  orderAllows d cls data && !creditsThere d cls data count

/-- Whether the sender has room to hold one more transfer. -/
def holdRoom (s : State) (k : Nat) (toB : Bool) : Bool :=
  let d := ClDir.of (linkAt s k) toB
  decide (d.held.length - d.spilled < 256) ||
    (decide (d.spilled < pnum s (P.CL_SPILL_QUOTA + 256 * k)) && decide (spillUsed s (linkEnds k toB).1 < 8192))

/-- One count of `CL_COUNTS` grows. -/
def bumpLink (k i : Nat) (s : State) : State :=
  modLinkAt k (fun l => { l with counts := bump 64 l.counts i 1 }) s

/-- A new transfer is numbered, takes its credits and is held; with the replay buffer full, its oldest
entry moves to the spill region. -/
def holdNew (k : Nat) (toB : Bool) (x : Xfer) (s : State) : State :=
  modLinkAt k (fun l =>
    let d := ClDir.of l toB
    let spill := decide (256 ≤ d.held.length - d.spilled)
    let taken := if x.data then d.taken
      else smPut 0 (smPut 0 d.taken (2 * x.cls) (w16 (smGet 0 d.taken (2 * x.cls) + 1)))
        (2 * x.cls + 1) (w16 (smGet 0 d.taken (2 * x.cls + 1) + x.count))
    let due := if x.data then smPut 0 d.dataDue x.cls (smGet 0 d.dataDue x.cls - 1)
      else smPut 0 d.dataDue x.cls x.count
    let l1 := l.modDir toB fun d =>
      { d with
        held := d.held ++ [{ x with seq := d.nextSeq }]
        nextSeq := w16 (d.nextSeq + 1)
        spilled := d.spilled + bNat spill
        taken := taken
        dataDue := due
        dueFrom := if x.data then d.dueFrom else smPut none d.dueFrom x.cls (x.came.map fun c => (c.1, c.2.1))
        dueTo := if x.data then d.dueTo else smPut 8 d.dueTo x.cls x.dst
        turn := (x.cls + 1) % 6 }
    let c := bump 64 l.counts 0 1
    { l1 with counts := if spill then smPut 0 (bump 64 c 5 1) 6 (max (smGet 0 c 6) (d.spilled + 1)) else c }) s

/-- What the sender puts on the wires: whether it is `VALID`, and the transfer. -/
structure OnWire where
  valid : Bool
  x : Xfer
deriving DecidableEq, Repr

/-! ### Routes (01 R17-R19) -/

/-- Whether a link takes traffic: a link that drains takes none (14 Table 14.2). -/
def linkLive (s : State) (k : Nat) : Bool :=
  (linkAt s k).state != .failed && (linkAt s k).state != .off && (smGet {} s.unit.units (344 + k)).state != .draining

/-- Whether two dies share a link that carries traffic. -/
def linkedLive (s : State) (a b : Nat) : Bool :=
  match linkBetween a b with
  | some k => linkLive s k
  | none => false

/-- The links between the dies of a list, in turn. -/
def hopLinks (dies : List Nat) : List Nat := (dies.zip (dies.drop 1)).filterMap fun q => linkBetween q.1 q.2

/-- The dies of a ring from one die to another of its kind, upward or downward. -/
def ringWay (a b : Nat) (up : Bool) : List Nat :=
  let base := a / 4 * 4
  let n := if up then (b + 4 - a) % 4 else (a + 4 - b) % 4
  (below (n + 1)).map fun i => base + (if up then a - base + i else a - base + 4 - i) % 4

/-- The dies of the route from a link die to a memory die: directly, or through the link die adjacent on the L ring, the
lower die ID first, whose own link to the memory die is in service (R17, R18). -/
def diesAcross (s : State) (l m : Nat) : List Nat :=
  if linkedLive s l m then [l, m]
  else match (if l % 4 = 0 then [1, 3] else if l % 4 = 3 then [0, 2] else [l - 1, l + 1]).find? fun n => linkedLive s n m with
    | some n => [l, n, m]
    | none => []

/-- The dies of the route between two dies of one kind: the ring link of adjacent dies, the intermediate die with the lower
ID of opposite ones; the other way round the ring where a link of that way is out of service (R17, R18). -/
def diesAround (s : State) (a b : Nat) : List Nat :=
  let ways := [ringWay a b true, ringWay a b false]
  let better (x y : List Nat) : Bool := decide (x.length < y.length ∨ (x.length = y.length ∧ nth 0 x 1 < nth 0 y 1))
  let first := if better (nth [] ways 0) (nth [] ways 1) then nth [] ways 0 else nth [] ways 1
  let other := if first = nth [] ways 0 then nth [] ways 1 else nth [] ways 0
  if (hopLinks first).all (linkLive s) then first else if (hopLinks other).all (linkLive s) then other else []

/-- The links of the route between two dies as it stands; none where no route is left. -/
def route (s : State) (a b : Nat) : List Nat :=
  hopLinks (if a = b then [] else if a / 4 = b / 4 then diesAround s a b
    else if a < 4 then diesAcross s a b else (diesAcross s b a).reverse)

/-- The first link of the route between two dies, with its direction: 2 * link, plus 1 from A to B; 48 for none. -/
def routeVia (s : State) (a b : Nat) : Nat :=
  match route s a b with
  | [] => 48
  | k :: _ => 2 * k + bNat (linkEndA k == a)

/-- The transfers of a class between two dies that the first has sent and still holds, with the links of their routes. -/
def routesHeld (s : State) (a b cls : Nat) : List (List Nat) :=
  s.link.flatMap fun (e : Nat × CorrLink) =>
    let mine (x : Xfer) : Bool := x.came.isNone && x.src == a && x.dst == b && x.cls == cls
    ((e.2.ab.held ++ e.2.ba.held ++ (e.2.ab.detour ++ e.2.ba.detour).map (·.x)).filter mine).map fun x => e.1 :: x.path

/-- Whether a class's traffic between two dies may take a route now: what went another way has been acknowledged (R19). -/
def routeFree (s : State) (a b cls : Nat) (r : List Nat) : Bool := (routesHeld s a b cls).all (· == r)

/-- The links a received transfer has still to take from a die: the rest of its route, or another where that is broken. -/
def onwardPath (s : State) (r : Nat) (x : Xfer) : List Nat := if x.path.all (linkLive s) then x.path else route s r x.dst

/-- The transfer of a class that a die forwards next over a link: of each receive buffer, the first of the class that waits
to be forwarded may go (R274), while data is due only the message's own (R324). -/
def relayNext (s : State) (k : Nat) (toB : Bool) (cls : Nat) : Option Xfer :=
  let r := (linkEnds k toB).1
  let d := ClDir.of (linkAt s k) toB
  let inTurn (x : Xfer) : Bool :=
    orderAllows d cls x.data && (!x.data || smGet none d.dueFrom cls == x.came.map fun c => (c.1, c.2.1))
  (below 48).findSome? fun i =>
    if (linkEnds (i / 2) (i % 2 == 0)).2 ≠ r then none
    else match ((ClDir.of (linkAt s (i / 2)) (i % 2 == 0)).rx.filterMap (·.onward)).find? (·.cls == cls) with
      | some x => if (onwardPath s r x).head? = some k && inTurn x then some x else none
      | none => none

/-- Whether a transfer of a class waits at a sender that came to it from a failed link. -/
def detoured (d : ClDir) (cls : Nat) : Bool := d.detour.any fun e => e.x.cls == cls

/-- What a message of a class has still to send after its header went over a failed link goes on here, with its credits. -/
def dueLift (cls : Nat) (d : ClDir) : ClDir :=
  match d.detour.find? fun e => e.x.cls == cls with
  | none => d
  | some e =>
    if e.due = 0 ∨ smGet 0 d.dataDue cls ≠ 0 ∨ available d (2 * cls + 1) < e.due then d
    else { d with
      dataDue := smPut 0 d.dataDue cls e.due
      dueFrom := smPut none d.dueFrom cls (e.x.came.map fun c => (c.1, c.2.1))
      dueTo := smPut 8 d.dueTo cls e.x.dst
      taken := smPut 0 d.taken (2 * cls + 1) (w16 (smGet 0 d.taken (2 * cls + 1) + e.due))
      detour := if e.unsent then d.detour.erase e else d.detour.map fun y => if y = e then { e with due := 0 } else y }

/-- A sender with every such rest taken up that can be. -/
def dueLifted (d : ClDir) : ClDir := (below 6).foldl (fun d c => dueLift c d) d

/-- The next transfer of failed links that may go: of each class the first. -/
def detourNext (d : ClDir) : Option Xfer :=
  (d.detour.find? fun e => d.detour.find? (fun y => y.x.cls == e.x.cls) == some e && !e.unsent && e.due == 0 &&
    creditsAllow d e.x.cls e.x.data e.x.count).map (·.x)

/-- The class that a die forwards from next over a link: in rotation, the first that can send (R327). -/
def relayTurn (s : State) (k : Nat) (toB : Bool) : Option Nat :=
  let d := ClDir.of (linkAt s k) toB
  ((below 6).map fun i => (d.turn + i) % 6).find? fun c => !detoured d c &&
    (relayNext s k toB c).any fun x => creditsAllow d c x.data x.count

/-- A receive buffer's entry has been handed to the next link. -/
def rxSent (seq : Nat) (d : ClDir) : ClDir :=
  { d with rx := d.rx.map fun e => if e.seq = seq then { e with onward := none } else e }

/-- What is sent, and the state after the sender's bookkeeping; nothing where the sender may not send. A new transfer is
sent on the first link of its route. -/
def linkSend (k : Nat) (toB : Bool) (what : LinkSend) (s : State) : State × Option OnWire :=
  let s := modLinkAt k (fun l => l.modDir toB dueLifted) s
  let d := ClDir.of (linkAt s k) toB
  match what with
  | .idle =>
    if d.resend.isSome ∨ (detourNext d).isSome ∨ (relayTurn s k toB).isSome ∨
        ackChanged (ClDir.of (linkAt s k) (!toB)) = false then (s, none)
    else (s, some ⟨false, ⟨d.nextSeq, 0, false, 0, 0#512, (linkEnds k toB).1, (linkEnds k toB).2, [], none⟩⟩)
  | .again =>
    (match d.resend with
     | none =>
       (match detourNext d with
        | none => (s, none)
        | some x =>
          if holdRoom s k toB = false then (s, none)
          else (holdNew k toB x (modLinkAt k (fun l => l.modDir toB fun d =>
              { d with detour := d.detour.eraseP fun e => e.x == x && !e.unsent }) s), some ⟨true, { x with seq := d.nextSeq }⟩))
     | some i =>
       match d.held[i]? with
       | none => (s, none)
       | some x =>
         (modLinkAt k (fun l => l.modDir toB fun d =>
            { d with resend := if i + 1 < d.held.length then some (i + 1) else none }) s,
          some ⟨true, x⟩))
  | .fresh cls data count payload dst =>
    let src := (linkEnds k toB).1
    let r := route s src dst.val
    if r.head? ≠ some k ∨ routeFree s src dst.val cls.val r = false then (s, none)
    else if 6 ≤ cls.val ∨ 65 ≤ count.val ∨ (data = true ∧ count.val ≠ 0) ∨ d.resend.isSome ∨ detoured d cls.val ∨
        (data = true ∧ ((smGet none d.dueFrom cls.val).isSome ∨ smGet 8 d.dueTo cls.val ≠ dst.val)) then (s, none)
    else if creditsAllow d cls.val data count.val = false then
      (onlyIf (creditShort d cls.val data count.val) (bumpLink k 7) s, none)
    else if holdRoom s k toB = false then (s, none)
    else
      let x : Xfer := ⟨d.nextSeq, cls.val, data, count.val, payload, src, dst.val, r.drop 1, none⟩
      (holdNew k toB x s, some ⟨true, x⟩)
  | .relay cls =>
    let r := (linkEnds k toB).1
    match relayNext s k toB cls.val with
    | none => (s, none)
    | some x =>
      if d.resend.isSome ∨ detoured d x.cls then (s, none)
      else if creditsAllow d x.cls x.data x.count = false then
        (onlyIf (creditShort d x.cls x.data x.count) (bumpLink k 7) s, none)
      else if relayTurn s k toB ≠ some cls.val ∨ holdRoom s k toB = false then (s, none)
      else
        let y := { x with seq := d.nextSeq, path := (onwardPath s r x).drop 1 }
        let s1 := match x.came with
          | some c => modLinkAt c.1 (fun l => l.modDir c.2.1 (rxSent c.2.2)) s
          | none => s
        (holdNew k toB y s1, some ⟨true, y⟩)

/-! ### Receiving (R323-R326) -/

/-- Transfers acknowledged: freed oldest first, from the spill region first. Those this die forwarded
are acknowledged to the die they came from. -/
def ackHeld (n : Nat) (d : ClDir) : ClDir :=
  { d with
    held := d.held.drop n
    spilled := d.spilled - n
    resend := match d.resend with
      | some i => if n < d.held.length then some (i - n) else none
      | none => none
    stuck := if n = 0 then d.stuck else 0 }

/-- A receiver's die has taken responsibility for the transfer of a number: its credit is free, and what is so taken from the
oldest on is acknowledged. -/
def rxDone (seq : Nat) (d : ClDir) : ClDir :=
  match d.rx.find? (·.seq == seq) with
  | none => d
  | some e =>
    let p := 2 * e.cls + bNat e.data
    { d with
      rx := (d.rx.map fun x => if x.seq = seq then { x with done := true, onward := none } else x).dropWhile (·.done)
      freed := smPut 0 d.freed p (w16 (smGet 0 d.freed p + 1)) }

/-- Every number below `ack` is acknowledged for the sender of direction `toB`. -/
def applyAck (k : Nat) (toB : Bool) (ack : Nat) (s : State) : State :=
  let d := ClDir.of (linkAt s k) toB
  match d.held with
  | [] => s
  | x :: _ =>
    let n := w16 (ack + 65536 - x.seq)
    if d.held.length < n then s
    else
      forAll ((d.held.take n).filterMap (·.came))
        (fun c => modLinkAt c.1 fun l => l.modDir c.2.1 (rxDone c.2.2))
        (modLinkAt k (fun l => l.modDir toB (ackHeld n)) s)

/-- A `NAK` starts a replay from its `ACK` on, unless one runs; the flag says that `CL_REPLAY_LIMIT` replays have passed
without an advance (R326). -/
def applyNak (k : Nat) (toB : Bool) (ack : Nat) (s : State) : State × Bool :=
  let d := ClDir.of (linkAt s k) toB
  match d.held with
  | [] => (s, false)
  | x :: _ =>
    let n := w16 (ack + 65536 - x.seq)
    let stuck := if d.nakAt = some ack then d.stuck else 0
    if d.resend.isSome ∨ d.held.length ≤ n then (s, false)
    else if pnum s (P.CL_REPLAY_LIMIT + 256 * k) ≤ stuck then (s, true)
    else (bumpLink k 3 (modLinkAt k (fun l => l.modDir toB fun d =>
        { d with resend := some n, stuck := stuck + 1, nakAt := some ack }) s), false)

/-- A transfer is discarded whole: the receiver asks for a replay. -/
def rxDiscard (k : Nat) (toB : Bool) (s : State) : State :=
  modLinkAt k (fun l => l.modDir toB fun d => { d with nak := true }) s

/-- A `VALID` transfer is delivered; one to be forwarded waits for its turn on the next link, and then for that link's
acknowledge. -/
def rxDeliver (k : Nat) (toB : Bool) (x : Xfer) (s : State) : State :=
  let here := decide (x.dst = (linkEnds k toB).2)
  let entry : RxEntry := ⟨x.seq, x.cls, x.data, false, if here then none else some { x with came := some (k, toB, x.seq) }⟩
  modLinkAt k (fun l => l.modDir toB fun d =>
    let d1 := { d with expSeq := w16 (d.expSeq + 1), nak := false, rx := d.rx ++ [entry] }
    if here then rxDone x.seq d1 else d1) s

/-- How many symbols a transfer takes at a width (R330). -/
def symbolsOf (width : Nat) : Nat := if width = 2 then 2 else if width = 1 then 4 else 1

/-- Whether the control and check bytes that each further symbol repeats are received alike (R330). -/
def copiesMatch (width : Nat) (err : BitVec 896) : Bool :=
  (below (symbolsOf width - 1)).all fun j => err.extractLsb' (608 + 96 * j) 96 == err.extractLsb' 512 96

/-- A transfer whose check holds, with the control word `rcw` received (R326, R327): one with another number than the expected
is discarded; else it is delivered, its acknowledgement or `NAK` and its credit count applied. The flag says that the replay
limit is reached. -/
def goodArrival (k : Nat) (toB : Bool) (x : Xfer) (rcw : Nat) (s : State) : State × Bool :=
  let exp := (ClDir.of (linkAt s k) toB).expSeq
  if bitOf rcw 0 ∧ bitsOf rcw 12 16 ≠ exp then (rxDiscard k toB s, false)
  else
    let s1 := if bitOf rcw 0 then
        rxDeliver k toB { x with seq := exp, cls := bitsOf rcw 1 3, data := bitOf rcw 4, count := bitsOf rcw 5 7 } s
      else s
    let s2 := if bitOf rcw 44 then s1 else applyAck k (!toB) (bitsOf rcw 28 16) s1
    let s3 := if bitOf rcw 49 then
        modLinkAt k (fun l => l.modDir (!toB)
          (creditReturned (2 * bitsOf rcw 45 3 + bitsOf rcw 48 1) (bitsOf rcw 50 16))) s2
      else s2
    if bitOf rcw 44 then applyNak k (!toB) (bitsOf rcw 28 16) s3 else (s3, false)

/-- One transfer over a link (R321-R330): sent, damaged by `err` on the way, checked and applied. The
flag says that the sender must start a reset (R326). The received control word and payload are the
sent ones with the damaged bits turned over; bit 0 of `err` is bit 0 of payload byte 0, bit 512 bit 0
of the control word, bit 592 bit 0 of the CRC, and from bit 608 on the control word and CRC of each further symbol. -/
def transfer (k : Nat) (toB : Bool) (what : LinkSend) (err : BitVec 896) (invalid : Bool) (s : State) :
    State × Bool :=
  if (linkAt s k).state ≠ .active then (s, false)
  else match linkSend k toB what s with
  | (s1, none) => (s1, false)
  | (s1, some w) =>
    let back := ClDir.of (linkAt s1 k) (!toB)
    let pair := creditTurn back
    let cnt := smGet 0 back.freed pair
    let cw := controlWord w.valid w.x.cls w.x.data w.x.count w.x.seq (ackField back) back.nak pair cnt
    let s2 := modLinkAt k (fun l => l.modDir (!toB) fun d =>
      { d with crSent := smPut 0 d.crSent pair cnt, crTurn := (pair + 1) % 12, ackSent := ackField d, nakSent := d.nak }) s1
    let crc := crcLink (leBytes 64 w.x.payload.toNat ++ leBytes 10 cw)
    let pl := w.x.payload ^^^ err.extractLsb' 0 512
    let rcw := (BitVec.ofNat 80 cw ^^^ err.extractLsb' 512 80).toNat
    let ok := crcLink (leBytes 64 pl.toNat ++ leBytes 10 rcw) == crc ^^^ err.extractLsb' 592 16 &&
      copiesMatch (ClDir.of (linkAt s1 k) toB).width err
    if invalid then (rxDiscard k toB (bumpLink k 2 s2), false)
    else if ok = false then (rxDiscard k toB (bumpLink k 1 s2), false)
    else goodArrival k toB { w.x with payload := pl } rcw s2

/-! ### Width and spares (R330) -/

/-- How many groups of a list are bad. -/
def badIn (bad : BitVec 78) (l : List Nat) : Nat := (l.filter fun g => bad.getLsbD g).length

/-- Data groups `lo .. lo + n - 1`. -/
def dataGroups (lo n : Nat) : List Nat := (below n).map (· + lo)

/-- The width of a direction, the first of its data groups in use and their number, or none: control and check groups are
replaced by spares first, and the widest choice the spares left allow is taken. -/
def widthPick (bad : BitVec 78) : Option (Nat × Nat × Nat) :=
  let spares := 2 - badIn bad [76, 77]
  let ctl := badIn bad (dataGroups 64 12)
  if spares < ctl then none
  else
    [(3, 0, 64), (2, 0, 32), (2, 32, 32), (1, 0, 16), (1, 16, 16), (1, 32, 16), (1, 48, 16)].find? fun t =>
      decide (badIn bad (dataGroups t.2.1 t.2.2) ≤ spares - ctl)

/-- The width of a direction and the groups its spares replace, or none. -/
def widthOf (bad : BitVec 78) : Option (Nat × List Nat) :=
  (widthPick bad).map fun t =>
    (t.1, (dataGroups 64 12 ++ dataGroups t.2.1 t.2.2).filter fun g => bad.getLsbD g)

/-- The first of the data groups that a direction uses. -/
def widthFirst (bad : BitVec 78) : Nat := match widthPick bad with | some t => t.2.1 | none => 0

/-- `CL_WIDTH` (Table 12.5). -/
def clWidth (l : CorrLink) : Nat :=
  l.ab.width + l.ba.width * 4 + (l.ab.spares.length + l.ba.spares.length) * 16

/-- `CL_BAD_GROUPS`. -/
def clBadGroups (l : CorrLink) : List Nat :=
  [bitsOf l.ab.bad.toNat 0 64, bitsOf l.ab.bad.toNat 64 14, bitsOf l.ba.bad.toNat 0 64, bitsOf l.ba.bad.toNat 64 14]

/-! ### Reset (R331-R333) -/

/-- The code of `CL_STATE`. -/
def ClState.code : ClState → Nat
  | .off => 0 | .reset => 1 | .active => 2 | .stopped => 3 | .failed => 4

/-- A reset makes a receiver discard what it has not handed on, from the first number after which nothing was handed on; the
sender holds it and will send it again (R331, log 143). -/
def rxForget (d : ClDir) : ClDir :=
  let keep := d.rx.reverse.dropWhile (·.onward.isSome) |>.reverse
  match d.rx.drop keep.length with
  | [] => d
  | e :: _ => { d with rx := keep, expSeq := e.seq }

/-- A reset starts (R331): causes 1 partner, 2 replay limit, 3 watchdog, 4 command, 5 rejoin, 6 power
exit, 0 device reset. A reset that starts before the last one completed counts that one as failed; the
flag says that three have (R333). -/
def linkReset (k : Nat) (byB : Bool) (cause : Nat) (s : State) : State × Bool :=
  let l := linkAt s k
  let fails := if l.state = .reset then l.fails + 1 else l.fails
  let leader := if byB then linkEndB k else linkEndA k
  (modLinkAt k (fun l =>
    { l with
      state := .reset
      step := 1
      byB := byB
      fails := fails
      ab := rxForget l.ab
      ba := rxForget l.ba
      lastReset := leader + cause * 2 ^ 8 + 1 * 2 ^ 16
      counts := bump 64 l.counts 4 1 }) s, decide (3 ≤ fails))

/-- A `RESET_REQ` from the partner (R331, R332): with the other end's request unanswered, the lower die
leads and both causes are recorded; else a reset starts. -/
def linkResetReq (k : Nat) (byB : Bool) (cause : Nat) (s : State) : State × Bool :=
  let l := linkAt s k
  if l.state = .failed ∨ l.state = .off then (s, false)
  else if l.state = .reset ∧ l.step = 1 then
    (if l.byB = byB then s
     else
       let first := bitsOf l.lastReset 8 8
       let a := if byB then first else cause
       let b := if byB then cause else first
       modLinkAt k (fun l => { l with byB := false, lastReset := linkEndA k + a * 2 ^ 8 + b * 2 ^ 16 }) s, false)
  else linkReset k byB cause s

/-- Step 2 ends (R331): the failed groups are recorded; the flag says that no width qualifies. -/
def linkTested (k : Nat) (badAB badBA : BitVec 78) (s : State) : State × Bool :=
  if (linkAt s k).state ≠ .reset ∨ (linkAt s k).step ≠ 1 then (s, false)
  else
    (modLinkAt k (fun l => { l with step := 3, ab := { l.ab with bad := badAB }, ba := { l.ba with bad := badBA } }) s,
      (widthOf badAB).isNone || (widthOf badBA).isNone)

/-- Step 3 (R331): an unchanged answer sets widths and spares; the flag says that the link fails. -/
def linkMapped (k : Nat) (unchanged : Bool) (s : State) : State × Bool :=
  if (linkAt s k).state ≠ .reset ∨ (linkAt s k).step ≠ 3 then (s, false)
  else if unchanged = false then (s, true)
  else
    let set (d : ClDir) : ClDir := match widthOf d.bad with
      | some (w, sp) => { d with width := w, sel := widthFirst d.bad, spares := sp }
      | none => d
    (modLinkAt k (fun l => { l with step := 4, ab := set l.ab, ba := set l.ba }) s, false)

/-- The credits that held transfers, which are sent again, take of a fresh count. -/
def heldCredits (held : List Xfer) : SMap Nat :=
  held.foldl (fun m x => smPut 0 m (2 * x.cls + bNat x.data) (smGet 0 m (2 * x.cls + bNat x.data) + 1)) []

/-- How many held transfers the partner's number acknowledges in step 4. -/
def restartAck (d : ClDir) : Nat :=
  match d.held with
  | [] => 0
  | x :: _ => let n := w16 (ackOf d + 65536 - x.seq)
              if d.held.length < n then 0 else n

/-- The first held transfer that the partner still expects, if any. -/
def resendFrom (d : ClDir) : Option Nat :=
  match d.held with
  | [] => none
  | x :: _ => if w16 (d.expSeq + 65536 - x.seq) < d.held.length then some (w16 (d.expSeq + 65536 - x.seq)) else none

/-- The credits that are out when the counts restart: of the transfers to be sent again, of those that the receiver still
holds, and of the data still due. -/
def openCredits (d : ClDir) : SMap Nat :=
  let add (m : SMap Nat) (p n : Nat) : SMap Nat := smPut 0 m p (smGet 0 m p + n)
  let again := match resendFrom d with | some i => d.held.drop i | none => []
  d.dataDue.foldl (fun m e => add m (2 * e.1 + 1) e.2)
    ((d.rx.filter (!·.done)).foldl (fun m e => add m (2 * e.cls + bNat e.data) 1) (heldCredits again))

/-- Step 4 for one direction: what the partner's number acknowledges is freed, and every
cumulative count restarts at 0. `pct` is the share of Table 12.3 that is advertised. -/
def creditsRestart (pct : Nat) (d : ClDir) : ClDir :=
  let d1 := ackHeld (restartAck d) d
  { d1 with
    nextSeq := if d1.held = [] then d1.expSeq else d1.nextSeq
    taken := openCredits d1
    returned := []
    freed := []
    crSent := []
    crTurn := 0
    pct := pct }

/-- Step 4 (R331). -/
def linkCreditsSent (k pct : Nat) (s : State) : State :=
  if (linkAt s k).state ≠ .reset ∨ (linkAt s k).step ≠ 4 then s
  else
    let l := linkAt s k
    let done := l.ab.held.take (restartAck l.ab) ++ l.ba.held.take (restartAck l.ba)
    let kept (toB : Bool) (d : ClDir) : ClDir := { d with
      taken := [0, 10].foldl (fun m p => smPut 0 m p (smGet 0 m p + creditsOut s (2 * k + bNat toB) p)) d.taken }
    modLinkAt k (fun l => { l with
      step := 5, ab := kept true (creditsRestart pct l.ab), ba := kept false (creditsRestart pct l.ba) })
      (forAll (done.filterMap (·.came)) (fun c => modLinkAt c.1 fun l => l.modDir c.2.1 (rxDone c.2.2)) s)

/-- Step 5 (R331): every held transfer is sent again from the partner's expected number on, and the link is `ACTIVE`. -/
def linkResumes (k : Nat) (s : State) : State :=
  if (linkAt s k).state ≠ .reset ∨ (linkAt s k).step ≠ 5 then s
  else
    let go (d : ClDir) : ClDir := { d with resend := resendFrom d, stuck := 0, nakAt := none, nak := false }
    modLinkAt k (fun l => { l with state := .active, step := 0, fails := 0, ab := go l.ab, ba := go l.ba }) s

/-! ### Failure and routes (R333, R17-R19) -/

/-- What a failed link's sender has still to send, by class in the original order: what it holds, then the rest of a message
under way, then what had come to it from other failed links. -/
def ClDir.leftOver (d : ClDir) (src : Nat) : List Detour :=
  (below 6).flatMap (fun c =>
    let mine := d.held.filter fun x => x.cls == c
    let due := smGet 0 d.dataDue c
    let lead := (mine.takeWhile (·.data)).length + (if mine.all (·.data) then due else 0)
    match mine with
    | [] =>
      if due = 0 then []
      else [⟨⟨0, c, true, 0, 0#512, src, smGet 8 d.dueTo c, [], (smGet none d.dueFrom c).map fun q => (q.1, q.2, 0)⟩, true, due⟩]
    | x :: rest => ⟨x, false, if x.data then lead else 0⟩ :: rest.map fun y => ⟨y, false, 0⟩) ++ d.detour

/-- What a failed link's sender has still to send waits at the first link of the route that is left, behind what waits there;
where none is left, for the link to rejoin (R333, R19). -/
def rerouted (k : Nat) (toB : Bool) (e : Detour) (s : State) : State :=
  let a := (linkEnds k toB).1
  match route s a e.x.dst with
  | [] => modLinkAt k (fun l => l.modDir toB fun d => { d with detour := d.detour ++ [e] }) s
  | j :: rest => modLinkAt j (fun l => l.modDir (decide (linkEndA j = a)) fun d =>
      { d with detour := d.detour ++ [{ e with x := { e.x with path := rest } }] }) s

/-- A link fails: `FAILED`, its senders resend what they hold on the alternative route, in order (R333, R19), and a `CL_CMD`
under way ends. -/
def linkDown (k : Nat) (s : State) : State :=
  let clear (d : ClDir) : ClDir := { d with
    held := [], rx := [], spilled := 0, resend := none, width := 0, sel := 0, spares := [], dataDue := [], dueFrom := [], dueTo := []
    detour := [] }
  let l := linkAt s k
  let s1 := modLinkAt k (fun l => { l with state := .failed, step := 0, fails := 0, ab := clear l.ab, ba := clear l.ba }) s
  cmdEnd 0 (P.CL_CMD + 256 * k) 0x0C 0 (forAll (l.ba.leftOver (linkEndB k)) (rerouted k false)
    (forAll (l.ab.leftOver (linkEndA k)) (rerouted k true) s1))

/-- Whether a link holds nothing unacknowledged, and nothing waits to be sent over it. -/
def CorrLink.quiet (l : CorrLink) : Bool :=
  l.ab.held == [] && l.ba.held == [] && l.ab.detour == [] && l.ba.detour == []

/-- A link stops for a power state when it holds nothing unacknowledged (R334). -/
def linkStops (k : Nat) (s : State) : State :=
  if (linkAt s k).state = .active ∧ (linkAt s k).quiet = true then
    modLinkAt k (fun l => { l with state := .stopped }) s
  else s

/-- What the ends of a stopped link keep while their dies are off: their counts and the spare map (R334), not the VOLATILE
values of Table 12.5. -/
def CorrLink.asleep (l : CorrLink) : CorrLink :=
  { l with step := 0, fails := 0, lastReset := 0, counts := [], ab := { l.ab with bad := 0#78 }, ba := { l.ba with bad := 0#78 } }

/-- Whether every link that is active could stop. -/
def linksQuiet (s : State) : Bool := s.link.all fun e => e.2.state != .active || e.2.quiet

end Sys2Proof.Machine
end

