-- ==== Sys2Proof/Machine/Notice.lean ====
section
/-! DEFINITION. How hosts learn of outcomes: event records in the logs of IME views (14 R373, 09 R245). A log
that holds 256 records counts what it cannot take (log 8). -/

namespace Sys2Proof.Machine

/-- Port `p`. -/
def portAt (s : State) (p : Nat) : Port := smGet {} s.port p
/-- Port `p` changed. -/
def modPortAt (p : Nat) (f : Port → Port) (s : State) : State := modPort (fun m => smMod {} m p f) s

/-- `PORT_ROLE` of a port: 0 none, 1 USP, 2 DSP. -/
def portRole (s : State) (p : Nat) : Nat := pnum s (P.PORT_ROLE + 256 * p)

/-- The numbers of the set bits of a word. -/
def bitsSet (w v : Nat) : List Nat := (below w).filter fun i => v.testBit i

/-- A lodging. -/
def lodgeAt (s : State) (n : Nat) : Lodge := smGet {} s.lod.lodges n
/-- A lodging changed. -/
def modLodge (n : Nat) (f : Lodge → Lodge) (s : State) : State :=
  modLod (fun l => { l with lodges := smMod {} l.lodges n f }) s

/-- A committed parameter of lodging `n`. -/
def lodgeP (s : State) (n param : Nat) : Nat := pnum s (param + 256 * n)
/-- The ports named in `HOST_PORTS`. -/
def hostPorts (s : State) (n : Nat) : List Nat := bitsSet 64 (lodgeP s n P.HOST_PORTS)
/-- A bit of `ATTR` (Table 3.2): 0 sealed, 1 isolated, 2 shared, 3 pin, 4 releasable. -/
def lodgeAttr (s : State) (n i : Nat) : Bool := bitOf (lodgeP s n P.ATTR) i
/-- Lodgings that are not `FREE`. -/
def liveLodges (s : State) : List Nat := (s.lod.lodges.filter fun e => e.2.state != .free).map (·.1)

/-- The extent table of a port (first decoder copy). -/
def extentsOf (s : State) (p : Nat) : List Extent := smGet [] s.lod.extA p

/-- The DPA of a page in a port's mapping, where an accepted extent covers it. -/
def dpaOf (s : State) (p n page : Nat) : Option Nat :=
  ((extentsOf s p).find? fun e => e.accepted && e.lodging == n &&
    decide (e.logical ≤ page / 65536) && decide (page / 65536 < e.logical + e.len)).map fun e =>
      (e.dpa + page / 65536 - e.logical) * 2 ^ 28 + page % 65536 * 4096

/-- A record enters an event log of a view: 0 Informational, 1 Warning, 2 Failure, 3 Fatal, 4 Dynamic Capacity. -/
def putEvent (p log : Nat) (b : EventBody) (s : State) : State :=
  modPortAt p (fun x =>
    let l := smGet [] x.events log
    if 256 ≤ l.length then { x with overflow := bump 16 x.overflow log 1 }
    else { x with events := smPut [] x.events log (l ++ [b]) }) s

/-- A record to the views of several ports. -/
def putEvents (ps : List Nat) (log : Nat) (b : EventBody) (s : State) : State :=
  forAll ps (fun p => putEvent p log b) s

/-- A record about a page to every port of its lodging (R373). -/
def notePage (log n page : Nat) (s : State) : State :=
  forAll (hostPorts s n) (fun p t => putEvent p log
    (match dpaOf s p n page with
     | some a => .media a
     | none => .page n page) t) s

/-- Every view: all upstream ports. -/
def allViews (s : State) : List Nat := (below 64).filter fun p => portRole s p == 1

/-- The ports bound to sealed lodgings. -/
def sealedViews (s : State) : List Nat :=
  ((liveLodges s).filter (lodgeAttr s · 0)).flatMap (hostPorts s) |>.eraseDups

/-- A unit leaves or returns: a Memory Module Event to the view of `FM_PORT` (Table 14.9). -/
def noticeFmPort (u st : Nat) (s : State) : State :=
  let p := pnum s P.FM_PORT
  if p < 64 then putEvent p 0 (.module u st) s else s

/-- Data lost with notice: an error-log record with an alert, and the Failure log of every bound view. -/
def lossNotice (kind n page body : Nat) (s : State) : State :=
  notePage 2 n page (logEvent kind 0xFFFF 2 (some (n, page)) body s)

/-- A request refused by a check: Warning log of the issuing host, and an alert (Table 14.9). -/
def refusedNotice (kind p dpa : Nat) (s : State) : State :=
  putEvent p 1 (.media dpa) (logEvent kind 0xFFFF 1 none 0 s)

end Sys2Proof.Machine
end

