-- ==== Sys2Proof/Machine/Regulate.lean ====
section
/-! DEFINITION. Tariff labels, guarantees and scheduling (10), and the deliverable bandwidth (01 R29). -/

namespace Sys2Proof.Machine

/-! ### Units (used below and in 14) -/

/-- Unit `u`. -/
def unitAt (s : State) (u : Nat) : UnitRec := smGet {} s.unit.units u
/-- Unit `u` changed. -/
def modUnitRec (u : Nat) (f : UnitRec → UnitRec) (s : State) : State :=
  modUnit (fun x => { x with units := smMod {} x.units u f }) s
/-- Whether a unit carries traffic. -/
def unitServes (s : State) (u : Nat) : Bool :=
  (unitAt s u).state == .inService || (unitAt s u).state == .rejoining || (unitAt s u).state == .draining

/-- Whether a unit takes new work: one that drains completes what it has admitted and admits none (14 Table 14.2). -/
def unitAdmits (s : State) (u : Nat) : Bool := (unitAt s u).state == .inService || (unitAt s u).state == .rejoining

/-- How many of `n` a unit may use: while it rejoins `UNIT_REJOIN_CAP` percent, rounded up and at least one (14 Table 14.5). -/
def rejoinCap (s : State) (u n : Nat) : Nat :=
  if (unitAt s u).state = .rejoining then max 1 ((n * pnum s P.UNIT_REJOIN_CAP + 99) / 100) else n

/-- A wrong value is counted against a suspected unit of die `d` (14 R362); it leaves service where the counts of one second
reach the limit, before the clocks go on (log 136). -/
def unitSuspect (u d : Nat) (s : State) : State :=
  let now := dieTime s d
  modUnitRec u (fun r => { r with
    faults := satAdd 32 r.faults 1, recent := now :: r.recent.filter fun t => decide (now < t + 10 ^ 9) }) s

/-! ### Users of labels (R269) -/

/-- The rows of a window parameter that hold a committed value, with it. -/
def rowsHeld (s : State) (param : Nat) : List (Nat × Nat) :=
  (s.dict.params.filter fun e => e.1 % 2 ^ 24 == param).map fun e => (e.1 / 2 ^ 24, e.2)

/-- The queues whose committed `Q_PORT` names a port. -/
def boundQueues (s : State) : List Nat := ((rowsHeld s P.Q_PORT).filter fun e => e.2 != 0xFF).map (·.1)

/-- One entry per user of a label: lodgings, offload queues, the tier mover. -/
def labelUsers (s : State) : List Nat :=
  (liveLodges s).map (fun n => lodgeP s n P.LABEL) ++ (boundQueues s).map (fun q => prow s q P.Q_LABEL) ++
    [pnum s P.TIER_LABEL]

/-- `REFS` of a label. -/
def labelRefs (s : State) (n : Nat) : Nat := (labelUsers s).count n

/-- The sum of the guarantees of the labels in use. -/
def sigma (s : State) : Nat :=
  (labelUsers s).eraseDups.foldl (fun a n => a + prow s n P.LBL_GUARANTEE) 0

/-! ### The deliverable bandwidth (01 R29) -/

/-- A rate code of `PORT_MAX_RATE` in MT/s. -/
def rateMT (code : Nat) : Nat := nth 0 [0, 2500, 5000, 8000, 16000, 32000, 64000] code

/-- The payload bandwidth of a trained port in MB/s: 20 bytes of overhead in each 256-byte flit. -/
def payloadBW (width code : Nat) : Nat := width * rateMT code * 236 / 2048

/-- Wing `w`'s state. -/
def wingAt (s : State) (w : Nat) : Wing := smGet {} s.wing w
/-- Wing `w` changed. -/
def modWingAt (w : Nat) (f : Wing → Wing) (s : State) : State := modWing (fun m => smMod {} m w f) s
/-- Channel `c`. -/
def chanAt (s : State) (c : Nat) : Chan := smGet {} s.ch c
/-- Channel `c` changed. -/
def modChan (c : Nat) (f : Chan → Chan) (s : State) : State := modCh (fun m => smMod {} m c f) s
/-- A member of channel group `c`. -/
def chanP (s : State) (c param : Nat) : Nat := pnum s (param + 256 * c)

/-- Whether a channel carries data: trained, in service, its wing not shuttered. -/
def chanServes (s : State) (c : Nat) : Bool :=
  ((chanAt s c).state == .active || (chanAt s c).state == .selfRefresh) && unitServes s (64 + c) &&
    ((wingAt s (c / 2)).state == .openW || (wingAt s (c / 2)).state == .draining ||
      (wingAt s (c / 2)).state == .empty)

/-- The data rate in use on a die: the least of its limit and of its populated channels' highest (11 R291). -/
def ddrRateInUse (s : State) (m : Nat) : Nat :=
  let rates := ((below 8).map (· + 8 * m)).filterMap fun c =>
    if chanP s c P.CH_MODULES = 0 then none else some (chanP s c P.CH_RATE)
  if rates = [] then 0 else rates.foldl min (pnum s (P.PS_DDR_RATE + m))

/-- MB/s of a channel at a data-rate code. -/
def ddrMBs (code : Nat) : Nat := nth 0 [0, 38400, 44800, 51200] code

/-- *D* in MB/s. -/
def deliverable (s : State) : Nat :=
  let ports := (below 64).foldl (fun a p =>
    if portRole s p = 1 ∧ (portAt s p).link = .up ∧ unitServes s p then
      a + payloadBW (portAt s p).width (portAt s p).rate else a) 0
  let dram := (below 32).foldl (fun a c =>
    if chanServes s c then a + ddrMBs (ddrRateInUse s (c / 8)) else a) 0
  let pace := (below 4).foldl (fun a m =>
    if unitServes s (372 + m) then a + 64 * pnum s (P.PS_PACE + m) else a) 0
  min ports (min (dram * 8 / 10) pace)

/-! ### Admission and scaling (R281-R283) -/

/-- A, the admissible total of a deliverable bandwidth. -/
def admissible (d : Nat) : Nat := d * 85 / 100

/-- Whether a change from `s` to `t` that may raise the total passes admission. -/
def admits (s t : State) : Bool :=
  pnum s P.ALLOW_OVERCOMMIT == 1 || decide (sigma t ≤ sigma s) || decide (sigma t ≤ admissible (deliverable t))

/-- Whether a command that takes the device from `s` to `t` may lower *D* by choice. -/
def admitsLower (s t : State) : Bool :=
  pnum s P.ALLOW_OVERCOMMIT == 1 || decide (deliverable s ≤ deliverable t) ||
    decide (sigma t ≤ admissible (deliverable t))

/-- φ in units of 2^-16. -/
def scaleOf (s : State) : Nat :=
  let g := sigma s
  if g = 0 then 65536 else min 65536 (admissible (deliverable s) * 65536 / g)

/-- `LBL_EFFECTIVE` (R282). -/
def effective (s : State) (n : Nat) : Nat := prow s n P.LBL_GUARANTEE * s.reg.scale / 65536

/-- w_g (R275). -/
def groupWeight (s : State) (g : Nat) : Nat :=
  ((labelUsers s).eraseDups.filter fun n => n / 256 == g).foldl (fun a n => a + effective s n) (prow s g P.SG_EXTRA)

/-- Whether φ is due for a notice against the last one (R282). -/
def scaleDue (now last : Nat) : Bool :=
  (now == 65536 && last != 65536) || (now != 65536 && last == 65536) ||
    (now != 65536 && decide (256 < max now last - min now last))

/-- The views of every port bound to a lodging whose label has a nonzero guarantee. -/
def guaranteedViews (s : State) : List Nat :=
  ((liveLodges s).filter fun n => prow s (lodgeP s n P.LABEL) P.LBL_GUARANTEE != 0).flatMap (hostPorts s) |>.eraseDups

/-- The notices of φ: a Courier alert of source 4 and a record to the views concerned; none again for 10 s. -/
def scaleNotice (s : State) : State :=
  let phi := s.reg.scale
  putEvents (guaranteedViews s) (if phi = 65536 then 0 else 1) (.vendor 1 phi)
    (raiseAlert 4 0 0 0 phi (modReg (fun r => { r with notified := phi, holding := true }) s))

/-- *D*, φ and the weights are computed anew (R29, R282). -/
def recomputeD (s : State) : State :=
  let s1 := modReg (fun r => { r with bw := deliverable s, scale := scaleOf s }) s
  if s1.reg.holding = false ∧ scaleDue s1.reg.scale s1.reg.notified then scaleNotice s1 else s1

/-- Ten seconds have passed since the last notice. -/
def scaleHoldEnd (s : State) : State :=
  let s1 := modReg (fun r => { r with holding := false }) s
  if s.reg.holding ∧ scaleDue s.reg.scale s.reg.notified then scaleNotice s1 else s1

/-- One of the counts of `REG_COUNTS` grows. -/
def bumpReg (i n : Nat) (s : State) : State := modReg (fun r => { r with counts := bump 64 r.counts i n }) s

/-- A refusal by admission counts (R285): an `OVERCOMMIT` that no floor gives. -/
def admissionFailed (status : Nat) (s : State) : State := onlyIf (status == 0x0A) (bumpReg 4 1) s

/-! ### Share-group and label commits (R268, R286) -/

/-- The status with which a commit of share-group row `g` is refused; `t` is the state it would leave. -/
def groupRefused (t : State) (g : Nat) : Option Nat :=
  if prow t g P.SG_Q_LIMIT < prow t g P.SG_Q_RESERVE then some 0x06
  else if 144 < (below 256).foldl (fun a i => a + prow t i P.SG_LC_QUOTA) 0 then some 0x0B
  else if 384 < (below 256).foldl (fun a i => a + prow t i P.SG_Q_RESERVE) 0 then some 0x0B
  else none

/-! ### Measurement (R270-R273) -/

/-- The record of a label. -/
def labelAt (s : State) (n : Nat) : LabelRec := smGet {} s.reg.labels n
/-- `PRIO`: at `BASE_PRIO` until a sample has moved it. -/
def labelPrio (s : State) (n : Nat) : Nat := (labelAt s n).prio.getD (prow s n P.LBL_BASE_PRIO)

/-- The priority a label's average gives it (R272). -/
def prioOf (e t b : Nat) : Nat :=
  if t = 0 ∨ 2 * e ≤ t then b
  else if t ≤ e then 15
  else b + (15 - b) * (2 * e - t) / t

/-- One sample applied to a record (R272). -/
def sampleRec (target shift base x : Nat) (r : LabelRec) : LabelRec :=
  let e : Int := (r.ewma : Int) + Int.fdiv ((x * 256 : Nat) - (r.ewma : Int)) (2 ^ shift : Nat)
  let ew := e.toNat
  let d := max 1 (target / 4096)
  { r with
    ewma := ew
    p99 := if r.p99 < x then min 1048575 (r.p99 + 99 * d) else r.p99 - d
    win := min 65535 (r.win + 1)
    prio := some (prioOf (ew / 256) target base) }

/-- A label's priority that differs from what it was goes to its own die's mirror and, as messages, to the other seven. -/
def prioTell (n old : Nat) (s : State) : State :=
  let new := labelPrio s n
  if new = old then s
  else
    let home := 4 + n % 4
    modReg (fun r => { r with
      mirror := smSet r.mirror (home * 65536 + n) new
      mirrorMsgs := r.mirrorMsgs ++ ((below 8).filter (· ≠ home)).map fun d => (d, n, new)
      counts := bump 64 r.counts 2 7 }) s

/-- A label's record is back at its defaults; where that changes its priority, the mirrors are told (R272). -/
def labelLost (n : Nat) (s : State) : State :=
  prioTell n (labelPrio s n) (modReg (fun r => { r with labels := smErase r.labels n }) s)

/-- A sample reaches the label's record; a changed priority goes to the mirrors of the other seven dies. -/
def sampleApply (x : Sample) (s : State) : State :=
  prioTell x.label (labelPrio s x.label) <| modReg (fun r => { r with
    labels := smMod {} r.labels x.label
      (sampleRec (prow s x.label P.LBL_TARGET) (prow s x.label P.LBL_EWMA_SHIFT) (prow s x.label P.LBL_BASE_PRIO) x.lat)
    counts := bump 64 r.counts 0 1 }) s

/-- The priority of a label in a die's mirror (R272). -/
def mirrorPrio (s : State) (die n : Nat) : Nat :=
  (smFind s.reg.mirror (die * 65536 + n)).getD (prow s n P.LBL_BASE_PRIO)

/-- Before a new `BASE_PRIO` is committed, a priority that still stands at the old one is kept: the change takes effect at the
label's next sample (R268). -/
def prioHold (n : Nat) (s : State) : State :=
  let b := prow s n P.LBL_BASE_PRIO
  modReg (fun r => { r with
    labels := smMod {} r.labels n fun x => { x with prio := some (x.prio.getD b) }
    mirror := (below 8).foldl (fun m d => if (smFind m (d * 65536 + n)).isSome then m else smSet m (d * 65536 + n) b) r.mirror }) s

/-- The oldest message to a die arrives. -/
def mirrorUpdate (die : Nat) (s : State) : State :=
  match s.reg.mirrorMsgs.find? fun m => m.1 == die with
  | none => s
  | some m => modReg (fun r => { r with
      mirror := smSet r.mirror (die * 65536 + m.2.1) m.2.2
      mirrorMsgs := r.mirrorMsgs.erase m }) s

/-- A packed transfer leaves a link die with a MGMT header credit of the first link of its route; without a free one its
samples are dropped and counted. -/
def sampleFlush (l m : Nat) (s : State) : State :=
  let q := smGet [] s.reg.samples (4 * l + m)
  if q = [] then s
  else
    let s1 := modReg (fun r => { r with samples := smErase r.samples (4 * l + m) }) s
    let via := routeVia s l (4 + m)
    if 48 ≤ via ∨ available (ClDir.of (linkAt s (via / 2)) (via % 2 == 1)) 10 = 0 then bumpReg 1 q.length s1
    else creditOut via 10 (modReg (fun r => { r with flights := smMod [] r.flights m (· ++ [(via, q)]) }) s1)

/-- A sample joins the transfer a link die packs for a memory die; at twelve the transfer goes (R271). -/
def sampleAdd (l m : Nat) (x : Sample) (s : State) : State :=
  let q := smGet [] s.reg.samples (4 * l + m) ++ [x]
  onlyIf (decide (12 ≤ q.length)) (sampleFlush l m) (modReg (fun r => { r with samples := smSet r.samples (4 * l + m) q }) s)

/-- Whether the device enters or leaves a power state, or sleeps: no move starts (04 R124), no latency is sampled (16 Table
16.4). -/
def entryRuns (s : State) : Bool :=
  match s.ps.state with
  | .entering | .night | .exiting | .off => true
  | .run | .drowse | .idle => false

/-- A request of port `p` completes: the port's LFSR advances, and the completion is sampled when its lowest
`LAT_SAMPLE_SHIFT` bits are all 0, but not one that ended in poison, discard or refusal (`good`). -/
def sampleTake (p : Nat) (t : LatTag) (good : Bool) (s : State) : State :=
  let v := Config.lfsrStep (portAt s p).lfsr
  if entryRuns s then s
  else
  let s1 := modPortAt p (fun x => { x with lfsr := v }) s
  if good && v.toNat % 2 ^ pnum s P.LAT_SAMPLE_SHIFT == 0 then
    sampleAdd (p / 16) (t.label % 4) ⟨t.label, min 1048575 (dieTime s (p / 16) - t.since), t.agent⟩ s1
  else s1

/-! ### Pace (01 R16) -/

/-- The tokens a memory die has admitted in the present µs of its timebase, the window in which the model counts the rate (log
155). -/
def tokensUsed (s : State) (d : Nat) : Nat :=
  if smGet 0 s.coh.tokenUs d = dieTime s (4 + d) / 1000 then smGet 0 s.coh.tokens d else 0

/-- Whether a die's pace ceiling, in tokens per µs, admits another transfer. -/
def paceOpen (s : State) (d : Nat) : Bool := decide (tokensUsed s d < pnum s (P.PS_PACE + d))

/-- The home arbiters of a die admit some transfers. -/
def tokensTake (d k : Nat) (s : State) : State :=
  modCoh (fun c => { c with
    tokens := smPut 0 c.tokens d (tokensUsed s d + k), tokenUs := smPut 0 c.tokenUs d (dieTime s (4 + d) / 1000) }) s

/-! ### Line operations of the device's agents -/

/-- The line operations of an agent of the device on die `d`: the home arbiters admit them (01 R16), and they are sampled at
their home die as they complete (R270); how long each took is a free value (log 142). -/
def sampleHome (d agent label n : Nat) (s0 : State) : State :=
  let s := tokensTake d n s0
  let q := (below n).map fun i => (⟨label, min 1048575 (Config.lineLatency s.fresh i), agent⟩ : Sample)
  if entryRuns s then s else afterDraw (modReg (fun r => { r with flights := smMod [] r.flights (label % 4) (· ++ [(48, q)]) }) s)

/-- The oldest transfer to a memory die arrives, and its samples are applied in order. -/
def flightApply (m : Nat) (s : State) : State :=
  match smGet [] s.reg.flights m with
  | [] => s
  | q :: rest => forAll q.2 sampleApply (creditBack q.1 10 (modReg (fun r => { r with flights := smPut [] r.flights m rest }) s))

/-- The payload of a guarantee-miss record (Table 10.3). -/
def missPayload (n target : Nat) (r : LabelRec) : Nat :=
  n + target * 2 ^ 16 + r.p99 * 2 ^ 36 + r.ewma / 256 % 2 ^ 20 * 2 ^ 56 + r.win * 2 ^ 76 + r.misses * 2 ^ 92

/-- A label is evaluated at the end of a window; the count is of labels with a new event (R273). -/
def missLabel (n : Nat) (q : State × Nat) : State × Nat :=
  let s := q.1
  let r := labelAt s n
  let target := prow s n P.LBL_TARGET
  if target ≠ 0 ∧ pnum s P.MISS_MIN_SAMPLES ≤ r.win ∧ target < r.p99 then
    let r1 := { r with misses := min 0xFFFFFF (r.misses + 1), latch := true }
    let s1 := gbAdd (4200 + n / 256) 1 (modReg (fun g => { g with
      labels := smPut {} g.labels n { r1 with win := 0 }
      sgMisses := bump 32 g.sgMisses (n / 256) 1
      counts := bump 64 g.counts 3 1 }) s)
    if r.latch then (s1, q.2)
    else (putEvents (((liveLodges s).filter fun l => lodgeP s l P.LABEL == n).flatMap (hostPorts s) |>.eraseDups) 1
        (.vendor 2 (missPayload n target r1)) s1, q.2 + 1)
  else (modReg (fun g => { g with labels := smMod {} g.labels n fun x => { x with win := 0, latch := false } }) s, q.2)

/-- The end of a miss window on a memory die: its labels in ascending order, at most one alert. -/
def missWindow (m : Nat) (s : State) : State :=
  let q := ((s.reg.labels.map (·.1)).filter fun n => n % 4 == m).foldl (fun q n => missLabel n q) (s, 0)
  if q.2 = 0 then q.1 else raiseAlert 3 0 0 0 (q.2 % 65536 + m * 65536) q.1

/-! ### Fair queueing (R275) -/

/-- Tag difference modulo 2^64. -/
def tagDiff (a b : Nat) : Nat := (a + 2 ^ 64 - b) % 2 ^ 64

/-- A request of group `g` arrives at a point where the group has none queued. -/
def fairArrive (point g : Nat) (s : State) : State :=
  modReg (fun r => { r with fair := smMod {} r.fair point fun x =>
    let f := smGet 0 x.f g
    { x with s := smPut 0 x.s g (if tagDiff f x.v < 2 ^ 62 then f else x.v) } }) s

/-- Where a tag stands against the virtual time: that of a group that could not be served lies behind it and comes first. -/
def tagKey (a v : Nat) : Nat := tagDiff (a + 2 ^ 63) v

/-- The group served next among those that have a request: smallest start tag, then lower number. -/
def fairPick (s : State) (point : Nat) (groups : List Nat) : Option Nat :=
  let x := smGet {} s.reg.fair point
  groups.foldl (fun best g => match best with
    | none => some g
    | some b =>
      let dg := tagKey (smGet 0 x.s g) x.v
      let db := tagKey (smGet 0 x.s b) x.v
      if dg < db ∨ (dg = db ∧ g < b) then some g else best) none

/-- A request of group `g` and length `len` is served; `more` says that the group has another queued. -/
def fairServe (point g len : Nat) (more : Bool) (s : State) : State :=
  let w := groupWeight s g
  modReg (fun r => { r with fair := smMod {} r.fair point fun x =>
    let st := smGet 0 x.s g
    let f := (st + (len * 1024 + w - 1) / w) % 2 ^ 64
    { v := if tagKey x.v st ≤ 2 ^ 63 then st else x.v, f := smPut 0 x.f g f, s := if more then smPut 0 x.s g f else x.s } }) s

/-- A request that finds its point free is served at once. -/
def fairPass (point label len : Nat) (s : State) : State :=
  fairServe point (label / 256) len false (fairArrive point (label / 256) s)

/-! ### Device reset and `NIGHT` exit (R284) -/

/-- Measurement state returns to its reset values, samples in flight are discarded. -/
def regulationReset (s : State) : State :=
  modReg (fun r => { r with
    labels := []
    mirror := []
    mirrorMsgs := []
    samples := []
    flights := []
    sgMisses := []
    counts := []
    fair := [] }) s

/-! ### Commands -/

/-- SAMPLE_FLUSH (R271). -/
def execSampleFlush (l : LinkDie) (m : MemDie) (s : State) : Out := .next (sampleFlush l.val m.val s)
/-- SAMPLE_APPLY (R272). -/
def execSampleApply (m : MemDie) (s : State) : Out := .next (flightApply m.val s)
/-- PRIO_MIRROR_UPDATE (R272). -/
def execPrioMirrorUpdate (d : DieId) (s : State) : Out := .next (mirrorUpdate d.val s)
/-- MISS_WINDOW (R273). -/
def execMissWindow (m : MemDie) (s : State) : Out := .next (missWindow m.val s)
/-- SCALE_NOTICE_HOLD (R282). -/
def execScaleNoticeHold (s : State) : Out := .next (scaleHoldEnd s)

end Sys2Proof.Machine
end

