-- ==== Sys2Proof/Machine/Egress.lean ====
section
/-! DEFINITION. The shared switch buffer and egress shaping (09 R253-R257, 10 R279-R280). -/

namespace Sys2Proof.Machine

/-- The virtual switch a port belongs to: its own for a USP, the one a DSP is bound in. -/
def vcsOf (s : State) (p : Nat) : Option Nat :=
  if portRole s p = 1 then some p
  else (s.sw.vcs.find? fun e => e.2 == p).map (·.1 / 32)

/-! ### Cells (R253, R254) -/

/-- The bytes of a transfer, header and payload; a header is counted as 16 bytes (log 153). -/
def Msg.size : Msg → Nat
  | .data _ _ _ => 16 + 64
  | .lines _ l => 16 + 64 * l.length
  | .atomic _ _ _ => 16 + 16
  | .routed _ _ _ b => 16 + b.length
  | .multicast _ b => 16 + b.length
  | .dma _ b => 16 + b.length
  | .word _ _ _ => 16 + 4
  | .interrupt _ => 16 + 4
  | .cmp _ _ => 16
  | .conflictAck _ _ _ => 16
  | .unsupported _ => 16
  | .snoop _ _ _ _ => 16
  | .slot _ _ => 16

/-- The cells a transfer takes. -/
def cellsOf (n : Nat) : Nat := max 1 ((n + 255) / 256)

/-- The transfers stored in a link die's buffer, in arrival order. -/
def storedOf (s : State) (x : Nat) : List Xmit := smGet [] s.sw.stored x

/-- Whether a transfer stands in the queue of port `p` and class `c`. -/
def Xmit.inQueue (x : Xmit) (p c : Nat) : Bool := x.cls == c && x.targets.contains p

/-- The reserved cells a queue holds. -/
def reservedHeld (s : State) (p c : Nat) : Nat :=
  (storedOf s (p / 16)).foldl (fun a x => if x.inQueue p c && x.reserved then a + cellsOf x.bytes else a) 0

/-- S_q: the shared cells a queue holds. -/
def sharedHeld (s : State) (p c : Nat) : Nat :=
  (storedOf s (p / 16)).foldl (fun a x => if x.inQueue p c && !x.reserved then a + cellsOf x.bytes else a) 0

/-- F: the free shared cells of a link die. -/
def freeShared (s : State) (x : Nat) : Nat :=
  15872 - (storedOf s x).foldl (fun a y => if y.reserved then a else a + cellsOf y.bytes) 0

/-- Whether a queue's reserved cells take `n` more. -/
def reservedFit (s : State) (p c n : Nat) : Bool := decide (reservedHeld s p c + n ≤ 4)

/-- Whether the shared cells take `n` more for a queue: S_q + n ≤ α × F. -/
def sharedFit (s : State) (p c n : Nat) : Bool :=
  decide ((sharedHeld s p c + n) * 16 ≤ 2 ^ pnum s (P.SW_ALPHA + c) * freeShared s (p / 16)) &&
    decide (n ≤ freeShared s (p / 16))

/-- The place in `SW_FANOUT_COUNTS` of a message that is stored once for its targets; the next place counts sent copies. -/
def Msg.fanCount : Msg → Option Nat
  | .multicast _ _ => some 0
  | .snoop _ _ _ _ => some 2
  | _ => none

/-- Whether a transfer is admitted now, and whether into reserved cells; its targets lie on one link die. What is stored once
for several targets takes its cells from those shared (R256). -/
def admission (s : State) (x : Xmit) : Option Bool :=
  let n := cellsOf x.bytes
  match x.targets with
  | [] => none
  | p :: rest =>
    if x.msg.fanCount = none ∧ rest = [] then
      (if reservedFit s p x.cls n then some true else if sharedFit s p x.cls n then some false else none)
    else if x.targets.all (fun q => reservedFit s q x.cls n || sharedFit s q x.cls n) ∧ n ≤ freeShared s (p / 16) then
      some false
    else none

/-! ### The shaper (R279, R280) -/

/-- L of a port in 10^-4 bytes per ns. -/
def rawRate (s : State) (p : Nat) : Nat := (portAt s p).width * rateMT (portAt s p).rate * 5 / 4

/-- R of a queue in 10^-4 bytes per ns. -/
def shapeRate (s : State) (p c : Nat) : Nat := pnum s (P.PORT_SHAPE_RATE + c + 256 * p) * 10

/-- Whether a queue holds a transfer. -/
def queueBusy (s : State) (p c : Nat) : Bool := (storedOf s (p / 16)).any (·.inQueue p c)

/-- The credit of a queue brought up to the present; while it still sends, the credit is that at the end of the transfer. -/
def creditNow (s : State) (p c : Nat) (busy : Bool) : Int :=
  let x := portAt s p
  let busy := busy || decide (dieTime s (p / 16) < smGet 0 x.creditAt c)
  let old := smGet 0 x.credit c
  let grown := old + ((shapeRate s p c * (dieTime s (p / 16) - smGet 0 x.creditAt c) : Nat) : Int)
  if busy then min ((pnum s (P.PORT_SHAPE_BURST + c + 256 * p) * 10000 : Nat) : Int) grown
  else if old < 0 then min 0 grown
  else 0

/-- The credit brought up to the present and kept. -/
def creditTouch (p c : Nat) (busy : Bool) (s : State) : State :=
  if shapeRate s p c = 0 then s
  else
    let v := creditNow s p c busy
    modPortAt p (fun x =>
      { x with
        credit := smPut 0 x.credit c v
        creditAt := smPut 0 x.creditAt c (max (dieTime s (p / 16)) (smGet 0 x.creditAt c)) }) s

/-- n′ of a transfer of `n` bytes. -/
def shapedLength (o n : Nat) : Nat := n + o * ((n + (256 - o) - 1) / (256 - o))

/-! ### Arrival and sending -/

/-- One fan-out count grows. -/
def bumpFan (i n : Nat) (s : State) : State := modSw (fun w => { w with fanout := bump 64 w.fanout i n }) s

/-- A transfer is stored. -/
def storeXmit (x : Xmit) (s : State) : State :=
  let s1 := match x.msg.fanCount with
    | some i => bumpFan i 1 s
    | none => s
  forAll x.targets (fun p t => creditTouch p x.cls (queueBusy t p x.cls) t) s1 |>
    modSw fun w => { w with stored := smMod [] w.stored ((x.targets.headD 0) / 16) (· ++ [x]) }

/-- Whether one of some transfers waits, in the receive buffer of the port that a transfer came through, for one of its
queues. -/
def behind (l : List Xmit) (x : Xmit) : Bool :=
  x.ingress.isSome && l.any fun y => y.ingress == x.ingress && y.cls == x.cls && x.targets.any y.targets.contains

/-- Whether a transfer from a port to another link die finds credit on the ring for its message (R255, 01 R17): posted writes
and requests with data go as `WDATA`, completions with data as `RDATA`, the rest as requests, responses or snoops. -/
def ringOpen (s : State) (x : Xmit) : Bool :=
  match x.ingress, x.targets with
  | some i, p :: _ =>
    if i / 16 = p / 16 then true
    else
      let c := nth 0 [3, 0, 4, 0, 3, 2, 4, 1] x.cls
      let n := if c = 3 ∨ c = 4 then (x.bytes - 16 + 63) / 64 else 0
      (match route s (i / 16) (p / 16) with
       | [] => false
       | k :: _ =>
         let d := ClDir.of (linkAt s k) (decide (linkEndA k = i / 16))
         decide ((linkAt s k).state = .active) && creditsThere d c false n)
  | _, _ => true

/-- Whether a transfer is admitted now: it can reach the target's link die, and the cells take it. -/
def admitted (s : State) (x : Xmit) : Option Bool := if ringOpen s x then admission s x else none

/-- A transfer arrives: admitted, or held where it is until it is (R255): the credit of its ingress port's link for it is out
as long as it stands among those waiting. A transfer to a port that is down is not stored. -/
def egressOffer (x : Xmit) (s : State) : State :=
  if x.targets = [] then s
  else match admitted s x with
    | some r => if behind s.sw.waiting x then modSw (fun w => { w with waiting := w.waiting ++ [x] }) s
        else storeXmit { x with reserved := r } s
    | none => modSw (fun w => { w with waiting := w.waiting ++ [x] }) s

/-- A transfer to several ports is stored once on each link die that holds targets (R256, R257). -/
def fanOut (cls bytes : Nat) (targets : List Nat) (ingress : Option Nat) (m : Msg) (s : State) : State :=
  forAll (below 4) (fun x t =>
    let ts := targets.filter fun p => p / 16 == x && (portAt t p).link == .up
    if ts = [] then t
    else egressOffer ⟨cls, bytes, ts, ingress, m, none, false, false⟩ t) s

/-- The oldest held transfer of a queue that is first in its receive buffer and that cells take now, and whether reserved
ones. -/
def nextAdmitted (s : State) (p c : Nat) : Option (Xmit × Bool) :=
  s.sw.waiting.findSome? fun x =>
    if x.inQueue p c && !behind (s.sw.waiting.takeWhile (· ≠ x)) x then (admitted s x).map fun r => (x, r) else none

/-- A held transfer of a queue is admitted where cells now allow (R254, R255). -/
def egressAdmit (p c : Nat) (s : State) : State :=
  match nextAdmitted s p c with
  | none => s
  | some (x, r) => storeXmit { x with reserved := r } (modSw (fun w => { w with waiting := w.waiting.erase x }) s)

/-- A port lets go of the first transfer of a list that stands in one of its queues. -/
def unstore (p c : Nat) : List Xmit → List Xmit
  | [] => []
  | x :: rest =>
    if x.inQueue p c then
      (if x.targets = [p] then rest else { x with targets := x.targets.filter (· ≠ p) } :: rest)
    else x :: unstore p c rest

/-- Whether a message counts in latency sampling: not one that ended in poison or refusal (R270). -/
def Msg.sampled : Msg → Bool
  | .data _ _ poison => !poison
  | .cmp _ _ => true
  | .conflictAck _ _ _ => false
  | .atomic _ _ poison => !poison
  | .lines _ l => l.all fun e => !e.2
  | .unsupported _ => false
  | .snoop _ _ _ _ => false
  | .interrupt _ => false
  | .routed _ _ _ _ => false
  | .multicast _ _ => false
  | .dma _ _ => false
  | .word _ _ _ => false
  | .slot _ _ => false

/-- A port that finds the path check of a response's tag wrong does not act on what it carries: a read's data goes out as
poison, anything else is discarded; logged, and counted against the home slice that stored it (01 R26, 14 R362). -/
def spoiledSent (p c : Nat) (x : Xmit) (s : State) : State :=
  let s1 := logEvent 4 0xFFFF 1 none 0 (match x.lat with
    | some t => unitSuspect (280 + t.home) (4 + t.home / 16) s
    | none => s)
  match x.msg with
  | .data tag _ _ => emit (.port p c (.data tag 0#512 true)) s1
  | .atomic tag _ _ => emit (.port p c (.atomic tag 0 true)) s1
  | .lines tag l => emit (.port p c (.lines tag (l.map fun _ => (0#512, true)))) s1
  | _ => s1

/-- An egress queue starts its next transfer where its link and its shaper credit allow, and sends it to its
end (R279). -/
def egressSend (p c : Nat) (s : State) : State :=
  let l := rawRate s p
  let r := shapeRate s p c
  match (storedOf s (p / 16)).find? fun x => x.inQueue p c with
  | none => s
  | some x =>
    if (portAt s p).link ≠ .up ∨ l = 0 ∨ dieTime s (p / 16) < (portAt s p).busyTo ∨ (r ≠ 0 ∧ creditNow s p c true < 0) then s
    else
      let n := shapedLength (pnum s P.SHAPE_OVERHEAD) x.bytes * 10000
      let stop := dieTime s (p / 16) + (n + l - 1) / l
      let s1 := modPortAt p (fun y =>
        { y with
          busyTo := stop
          credit := if r = 0 then y.credit
            else smPut 0 y.credit c (creditNow s p c true + ((n * r / l : Nat) : Int) - (n : Int))
          creditAt := if r = 0 then y.creditAt else smPut 0 y.creditAt c stop }) s
      let s2 := modSw (fun w => { w with stored := smMod [] w.stored (p / 16) (unstore p c) }) s1
      let s3 := match x.msg.fanCount with
        | some i => bumpFan (i + 1) 1 s2
        | none => s2
      let s4 := match x.lat with
        | some t => sampleTake p t (x.msg.sampled && t.good && !x.spoiled) s3
        | none => s3
      if x.spoiled then spoiledSent p c x s4 else emit (.port p c x.msg) s4

/-! ### What a port drops (R256, R257, R259) -/

/-- One of the counts of `PORT_DROP_COUNTS` grows. -/
def bumpDrop (p i n : Nat) (s : State) : State :=
  modPortAt p (fun x => { x with dropCounts := bump 64 x.dropCounts i n }) s

/-- The drop count a flushed message belongs to, if any: writes, responses, snoops, multicast references, posted writes. A
request that is no write and what a slot says have none. -/
def Msg.dropCount : Msg → Option Nat
  | .snoop _ _ _ _ => some 3
  | .multicast _ _ => some 4
  | .dma _ _ => some 5
  | .interrupt _ => some 5
  | .routed k _ _ _ => nth none [some 5, none, some 2, none, some 1, some 2, some 2, some 3] k
  | .slot _ _ => none
  | .data _ _ _ => some 2
  | .cmp _ _ => some 2
  | .conflictAck _ _ _ => some 2
  | .atomic _ _ _ => some 2
  | .lines _ _ => some 2
  | .unsupported _ => some 2
  | .word _ _ _ => some 2

/-- A port's references leave a list of transfers. -/
def dropPort (p : Nat) (l : List Xmit) : List Xmit :=
  l.filterMap fun x =>
    if x.targets.contains p then
      (let ts := x.targets.filter (· ≠ p)
       if ts = [] then none else some { x with targets := ts })
    else some x

/-- Every egress queue of a port is flushed. -/
def flushEgress (p : Nat) (s : State) : State :=
  let gone := ((storedOf s (p / 16)) ++ s.sw.waiting).filter fun x => x.targets.contains p
  forAll (gone.filterMap fun x => x.msg.dropCount) (fun i => bumpDrop p i 1)
    (modPortAt p (fun x => { x with credit := [], creditAt := [], busyTo := 0 })
      (modSw (fun w => { w with
        stored := smMod [] w.stored (p / 16) (dropPort p)
        waiting := dropPort p w.waiting }) s))

/-- The response of port `p`'s request goes to its egress. -/
def respondPort (p cls : Nat) (m : Msg) (lat : Option LatTag) (s : State) : State :=
  egressOffer ⟨cls, m.size, [p], none, m, lat, false, false⟩ s

/-! ### Commands -/

/-- EGRESS_ADMIT (R255). -/
def execEgressAdmit (p : PortId) (cls : Fin 8) (s : State) : Out := .next (egressAdmit p.val cls.val s)
/-- EGRESS_SEND (R279). -/
def execEgressSend (p : PortId) (cls : Fin 8) (s : State) : Out := .next (egressSend p.val cls.val s)
/-- MULTICAST_WRITE (R256): the ports of the group in VCS `v`, never the IME; a copy goes to no port of another
VCS, and none comes from one (R251). -/
def execMulticastWrite (v src : PortId) (targets : BitVec 64) (group : Fin 64) (bytes : List Byte) (s : State) : Out :=
  let ts := (bitsSet 64 targets.toNat).filter fun p => p != src.val && vcsOf s p == some v.val
  let m : Msg := .multicast group.val bytes
  .next (if vcsOf s src.val = some v.val then fanOut 0 m.size ts (some src.val) m s else s)

end Sys2Proof.Machine
end

