-- ==== Sys2Proof/Machine/Crypto.lean ====
section
/-! DEFINITION. The published cryptographic primitives the spec names and does not print: SHA-256,
SHA-384, AES-256, XTS, CMAC, GHASH and AES key wrap (PRESUMED, log 8). -/

namespace Sys2Proof.Machine

/-- The word that stands `i` places before the last in a number of words of `w` bits. -/
def wordAt (w big i : Nat) : BitVec w := BitVec.ofNat w (big >>> (w * i))

/-- The words of a number of `n` words of `w` bits, first word most significant. -/
def wordsOf (w big : Nat) (n : Nat) : List (BitVec w) := (below n).map fun i => wordAt w big (n - 1 - i)

/-- Cube-root fractions of SHA-2, eight of 64 bits (part 0). -/
def sha2K0 : Nat := 0x428a2f98d728ae227137449123ef65cdb5c0fbcfec4d3b2fe9b5dba58189dbbc3956c25bf348b53859f111f1b605d019923f82a4af194f9bab1c5ed5da6d8118
/-- Cube-root fractions of SHA-2, eight of 64 bits (part 1). -/
def sha2K1 : Nat := 0xd807aa98a303024212835b0145706fbe243185be4ee4b28c550c7dc3d5ffb4e272be5d74f27b896f80deb1fe3b1696b19bdc06a725c71235c19bf174cf692694
/-- Cube-root fractions of SHA-2, eight of 64 bits (part 2). -/
def sha2K2 : Nat := 0xe49b69c19ef14ad2efbe4786384f25e30fc19dc68b8cd5b5240ca1cc77ac9c652de92c6f592b02754a7484aa6ea6e4835cb0a9dcbd41fbd476f988da831153b5
/-- Cube-root fractions of SHA-2, eight of 64 bits (part 3). -/
def sha2K3 : Nat := 0x983e5152ee66dfaba831c66d2db43210b00327c898fb213fbf597fc7beef0ee4c6e00bf33da88fc2d5a79147930aa72506ca6351e003826f142929670a0e6e70
/-- Cube-root fractions of SHA-2, eight of 64 bits (part 4). -/
def sha2K4 : Nat := 0x27b70a8546d22ffc2e1b21385c26c9264d2c6dfc5ac42aed53380d139d95b3df650a73548baf63de766a0abb3c77b2a881c2c92e47edaee692722c851482353b
/-- Cube-root fractions of SHA-2, eight of 64 bits (part 5). -/
def sha2K5 : Nat := 0xa2bfe8a14cf10364a81a664bbc423001c24b8b70d0f89791c76c51a30654be30d192e819d6ef5218d69906245565a910f40e35855771202a106aa07032bbd1b8
/-- Cube-root fractions of SHA-2, eight of 64 bits (part 6). -/
def sha2K6 : Nat := 0x19a4c116b8d2d0c81e376c085141ab532748774cdf8eeb9934b0bcb5e19b48a8391c0cb3c5c95a634ed8aa4ae3418acb5b9cca4f7763e373682e6ff3d6b2b8a3
/-- Cube-root fractions of SHA-2, eight of 64 bits (part 7). -/
def sha2K7 : Nat := 0x748f82ee5defb2fc78a5636f43172f6084c87814a1f0ab728cc702081a6439ec90befffa23631e28a4506cebde82bde9bef9a3f7b2c67915c67178f2e372532b
/-- Cube-root fractions of SHA-2, eight of 64 bits (part 8). -/
def sha2K8 : Nat := 0xca273eceea26619cd186b8c721c0c207eada7dd6cde0eb1ef57d4f7fee6ed17806f067aa72176fba0a637dc5a2c898a6113f9804bef90dae1b710b35131c471b
/-- Cube-root fractions of SHA-2, eight of 64 bits (part 9). -/
def sha2K9 : Nat := 0x28db77f523047d8432caab7b40c724933c9ebe0a15c9bebc431d67c49c100d4c4cc5d4becb3e42b6597f299cfc657e2a5fcb6fab3ad6faec6c44198c4a475817
/-- Round constants of SHA-384: the fractions of the cube roots of the first 80 primes. -/
def sha384K : List (BitVec 64) :=
  [sha2K0, sha2K1, sha2K2, sha2K3, sha2K4, sha2K5, sha2K6, sha2K7, sha2K8, sha2K9].flatMap fun b => wordsOf 64 b 8
/-- Round constants of SHA-256: the first halves of the first 64 of these. -/
def sha256K : List (BitVec 32) := (sha384K.take 64).map fun k => k.extractLsb' 32 32
/-- Initial hash value of SHA-256. -/
def sha256H : List (BitVec 32) := wordsOf 32 0x6a09e667bb67ae853c6ef372a54ff53a510e527f9b05688c1f83d9ab5be0cd19 8
/-- Initial hash value of SHA-384. -/
def sha384H : List (BitVec 64) := wordsOf 64
  0xcbbb9d5dc1059ed8629a292a367cd5079159015a3070dd17152fecd8f70e593967332667ffc00b318eb44a8768581511db0c2e0d64f98fa747b5481dbefa4fa4 8
/-- The AES substitution box, entries 0 to 31, last entry first. -/
def aesSbox0 : Nat := 0xc072a49cafa2d4adf04759fa7dc982ca76abd7fe2b670130c56f6bf27b777c63
/-- The AES substitution box, entries 32 to 63, last entry first. -/
def aesSbox1 : Nat := 0x75b227ebe28012079a059618c323c7041531d871f1e5a534ccf73f362693fdb7
/-- The AES substitution box, entries 64 to 95, last entry first. -/
def aesSbox2 : Nat := 0xcf584c4a39becb6a5bb1fc20ed00d153842fe329b3d63b52a05a6e1b1a2c8309
/-- The AES substitution box, entries 96 to 127, last entry first. -/
def aesSbox3 : Nat := 0xd2f3ff1021dab6bcf5389d928f40a351a89f3c507f02f94585334d43fbaaefd0
/-- The AES substitution box, entries 128 to 159, last entry first. -/
def aesSbox4 : Nat := 0xdb0b5ede14b8ee4688902a22dc4f816073195d643d7ea7c41744975fec130ccd
/-- The AES substitution box, entries 160 to 191, last entry first. -/
def aesSbox5 : Nat := 0x08ae7a65eaf4566ca94ed58d6d37c8e779e4959162acd3c25c2406490a3a32e0
/-- The AES substitution box, entries 192 to 223, last entry first. -/
def aesSbox6 : Nat := 0x9e1dc186b95735610ef6034866b53e708a8bbd4b1f74dde8c6b4a61c2e2578ba
/-- The AES substitution box, entries 224 to 255, last entry first. -/
def aesSbox7 : Nat := 0x16bb54b00f2d99416842e6bf0d89a18cdf2855cee9871e9b948ed9691198f8e1
/-- The AES substitution box. -/
def aesSbox (b : Byte) : Byte :=
  wordAt 8 (nth 0 [aesSbox0, aesSbox1, aesSbox2, aesSbox3, aesSbox4, aesSbox5, aesSbox6, aesSbox7] (b.toNat / 32)) (b.toNat % 32)
/-- The inverse AES substitution box, entries 0 to 31, last entry first. -/
def aesInvSbox0 : Nat := 0xcbe9dec444438e3487ff2f9b8239e37cfbd7f3819ea340bf38a53630d56a0952
/-- The inverse AES substitution box, entries 32 to 63, last entry first. -/
def aesInvSbox1 : Nat := 0x25d18b6d49a25b76b224d92866a12e084ec3fa420b954cee3d23c2a632947b54
/-- The inverse AES substitution box, entries 64 to 95, last entry first. -/
def aesInvSbox2 : Nat := 0x849d8da75746155edab9edfd5048706c92b6655dcc5ca4d41698688664f6f872
/-- The inverse AES substitution box, entries 96 to 127, last entry first. -/
def aesInvSbox3 : Nat := 0x6b8a130103bdafc1020f3fca8f1e2cd00645b3b80558e4f70ad3bc8c00abd890
/-- The inverse AES substitution box, entries 128 to 159, last entry first. -/
def aesInvSbox4 : Nat := 0x6edf751ce837f9e28535ade72274ac9673e6b4f0cecff297eadc674f4111913a
/-- The inverse AES substitution box, entries 160 to 191, last entry first. -/
def aesInvSbox5 : Nat := 0xf45acd78fec0db9a2079d2c64b3e56fc1bbe18aa0e62b76f89c5291d711af147
/-- The inverse AES substitution box, entries 192 to 223, last entry first. -/
def aesInvSbox6 : Nat := 0xef9cc9939f7ae52d0d4ab519a97f51605fec8027591012b131c7078833a8dd1f
/-- The inverse AES substitution box, entries 224 to 255, last entry first. -/
def aesInvSbox7 : Nat := 0x7d0c2155631469e126d677ba7e042b17619953833cbbebc8b0f52aae4d3be0a0
/-- The inverse AES substitution box. -/
def aesInvSbox (b : Byte) : Byte :=
  wordAt 8 (nth 0 [aesInvSbox0, aesInvSbox1, aesInvSbox2, aesInvSbox3, aesInvSbox4, aesInvSbox5, aesInvSbox6, aesInvSbox7] (b.toNat / 32)) (b.toNat % 32)

/-! ### SHA -/

/-- Bytes as a big-endian number. -/
def beNat (bs : List Byte) : Nat := bs.foldl (fun a b => a * 256 + b.toNat) 0
/-- A number as `n` big-endian bytes. -/
def beBytes (n v : Nat) : List Byte := (leBytes n v).reverse

/-- Lists of `n` entries each, cut from a list; `fuel` bounds how many. -/
def chunks {α : Type} (n : Nat) : Nat → List α → List (List α)
  | 0, _ => []
  | f + 1, l => if l.isEmpty then [] else l.take n :: chunks n f (l.drop n)

/-- The padded message of a SHA with blocks of `blk` bytes and a length field of `lf` bytes. -/
def shaPad (blk lf : Nat) (m : List Byte) : List Byte :=
  m ++ [0x80#8] ++ List.replicate ((blk - (m.length + 1 + lf) % blk) % blk) 0#8 ++ beBytes lf (8 * m.length)

/-- The rotations of a SHA-2 function: of its two schedule sums (two turns and a shift each) and of its two round sums. -/
structure Sha2Turns where
  /-- First schedule sum. -/
  low : Nat × Nat × Nat
  /-- Second schedule sum. -/
  high : Nat × Nat × Nat
  /-- Round sum over the first working word. -/
  onA : Nat × Nat × Nat
  /-- Round sum over the fifth working word. -/
  onE : Nat × Nat × Nat

/-- The turns of SHA-256. -/
def turns256 : Sha2Turns := ⟨(7, 18, 3), (17, 19, 10), (2, 13, 22), (6, 11, 25)⟩
/-- The turns of SHA-384. -/
def turns384 : Sha2Turns := ⟨(1, 8, 7), (19, 61, 6), (28, 34, 39), (14, 18, 41)⟩

/-- Two turns of a word and its shift, summed. -/
def turnShift {w : Nat} (t : Nat × Nat × Nat) (x : BitVec w) : BitVec w :=
  x.rotateRight t.1 ^^^ x.rotateRight t.2.1 ^^^ (x >>> t.2.2)
/-- Three turns of a word, summed. -/
def turnThree {w : Nat} (t : Nat × Nat × Nat) (x : BitVec w) : BitVec w :=
  x.rotateRight t.1 ^^^ x.rotateRight t.2.1 ^^^ x.rotateRight t.2.2

/-- `n` further words of a SHA-2 message schedule, held newest first. -/
def sha2More {w : Nat} (t : Sha2Turns) : Nat → List (BitVec w) → List (BitVec w)
  | 0, ws => ws
  | n + 1, ws =>
    let back (k : Nat) : BitVec w := nth 0 ws (k - 1)
    sha2More t n ((back 16 + turnShift t.low (back 15) + back 7 + turnShift t.high (back 2)) :: ws)

/-- One SHA-2 round: the round constant and the schedule word enter as their sum. The eight working words move down by
one place, the fourth taking in the first sum and the new first word both sums. -/
def sha2Round {w : Nat} (t : Sha2Turns) (v : List (BitVec w)) (kw : BitVec w) : List (BitVec w) :=
  let at' (k : Nat) : BitVec w := nth 0 v k
  let pick := (at' 4 &&& at' 5) ||| (~~~(at' 4) &&& at' 6)
  let most := (at' 0 &&& (at' 1 ||| at' 2)) ||| (at' 1 &&& at' 2)
  let sum := at' 7 + turnThree t.onE (at' 4) + pick + kw
  (sum + turnThree t.onA (at' 0) + most) :: (v.take 3 ++ (at' 3 + sum) :: (v.drop 4).take 3)

/-- The hash value after a block of 16 words. -/
def sha2Block {w : Nat} (t : Sha2Turns) (ks : List (BitVec w)) (h : List (BitVec w)) (blk : List Byte) : List (BitVec w) :=
  let ws := (chunks (w / 8) 16 blk).map fun c => BitVec.ofNat w (beNat c)
  let full := (sha2More t (ks.length - 16) ws.reverse).reverse
  List.zipWith (· + ·) h ((List.zipWith (· + ·) ks full).foldl (sha2Round t) h)

/-- The hash value of a padded message. -/
def sha2 {w : Nat} (t : Sha2Turns) (ks h0 : List (BitVec w)) (m : List Byte) : List (BitVec w) :=
  let p := shaPad (2 * w) (w / 4) m
  (chunks (2 * w) (p.length / (2 * w)) p).foldl (sha2Block t ks) h0

/-- SHA-256 of bytes. -/
def sha256 (m : List Byte) : List Byte := (sha2 turns256 sha256K sha256H m).flatMap fun x => beBytes 4 x.toNat

/-- SHA-384 of bytes, as 48 bytes. -/
def sha384 (m : List Byte) : List Byte := ((sha2 turns384 sha384K sha384H m).take 6).flatMap fun x => beBytes 8 x.toNat

/-- Bytes of a digest, first byte most significant. -/
def digestBytes (n : Nat) (d : BitVec (8 * n)) : List Byte := beBytes n d.toNat

/-! ### AES-256 -/

/-- Multiplication by x in the field of AES. -/
def aesX (b : Byte) : Byte := if b.getLsbD 7 then (b <<< 1) ^^^ 0x1b#8 else b <<< 1

/-- A product in the field of AES by a small constant. -/
def aesMul (k : Nat) (b : Byte) : Byte :=
  (if k.testBit 0 then b else 0#8) ^^^ (if k.testBit 1 then aesX b else 0#8) ^^^
  (if k.testBit 2 then aesX (aesX b) else 0#8) ^^^ (if k.testBit 3 then aesX (aesX (aesX b)) else 0#8)

/-- Bytewise exclusive or. -/
def xorBytes (a b : List Byte) : List Byte := List.zipWith (· ^^^ ·) a b

/-- Substitution of every byte. -/
def aesSub (l : List Byte) : List Byte := l.map aesSbox
/-- Inverse substitution of every byte. -/
def aesInvSub (l : List Byte) : List Byte := l.map aesInvSbox

/-- Round constants of the AES-256 key schedule. -/
def aesRcon : List Byte := [0x01, 0x02, 0x04, 0x08, 0x10, 0x20, 0x40]

/-- Key schedule: words of four bytes, newest first, `i` the index of the next word. -/
def aesExpand : Nat → Nat → List (List Byte) → List (List Byte)
  | 0, _, w => w
  | n + 1, i, w =>
    let t := nth [] w 0
    let t := if i % 8 = 0 then
        xorBytes (aesSub (t.drop 1 ++ t.take 1)) [nth 0#8 aesRcon (i / 8 - 1), 0#8, 0#8, 0#8]
      else if i % 8 = 4 then aesSub t else t
    aesExpand n (i + 1) (xorBytes (nth [] w 7) t :: w)

/-- The fifteen round keys of an AES-256 key. -/
def aesKeys (key : List Byte) : List (List Byte) :=
  (chunks 4 15 (aesExpand 52 8 (chunks 4 8 key).reverse).reverse).map fun c => c.flatten

/-- Rows shifted; the state is column by column. -/
def aesShift (l : List Byte) : List Byte := (below 16).map fun i => nth 0#8 l ((i + 4 * (i % 4)) % 16)
/-- Rows shifted back. -/
def aesInvShift (l : List Byte) : List Byte := (below 16).map fun i => nth 0#8 l ((i + 16 - 4 * (i % 4)) % 16)

/-- One column mixed with the four coefficients of its first row. -/
def aesMixCol (k : List Nat) (c : List Byte) : List Byte :=
  (below 4).map fun r => (below 4).foldl
    (fun a j => a ^^^ aesMul (nth 0 k ((j + 4 - r) % 4)) (nth 0#8 c j)) 0#8

/-- All columns mixed. -/
def aesMix (k : List Nat) (l : List Byte) : List Byte := (chunks 4 4 l).flatMap (aesMixCol k)

/-- One block encrypted under round keys. -/
def aesEncWith (ks : List (List Byte)) (p : List Byte) : List Byte :=
  let s := (slice 1 13 ks).foldl
    (fun t k => xorBytes (aesMix [2, 3, 1, 1] (aesShift (aesSub t))) k) (xorBytes p (nth [] ks 0))
  xorBytes (aesShift (aesSub s)) (nth [] ks 14)

/-- One block decrypted under round keys. -/
def aesDecWith (ks : List (List Byte)) (c : List Byte) : List Byte :=
  let s := (slice 1 13 ks).reverse.foldl
    (fun t k => aesMix [14, 11, 13, 9] (xorBytes (aesInvSub (aesInvShift t)) k)) (xorBytes c (nth [] ks 14))
  xorBytes (aesInvSub (aesInvShift s)) (nth [] ks 0)

/-- One block encrypted under a 32-byte key. -/
def aesEnc (key p : List Byte) : List Byte := aesEncWith (aesKeys key) p
/-- One block decrypted under a 32-byte key. -/
def aesDec (key c : List Byte) : List Byte := aesDecWith (aesKeys key) c

/-! ### Modes -/

/-- Doubling of an XTS tweak: the block is a little-endian polynomial. -/
def xtsDouble (t : List Byte) : List Byte :=
  let n := leNat t
  leBytes 16 (Nat.xor (n * 2 % 2 ^ 128) (if n.testBit 127 then 0x87 else 0))

/-- XTS over whole blocks, with the block function of the direction. -/
def xtsBlocks (f : List Byte → List Byte) : Nat → List Byte → List Byte → List Byte
  | 0, _, _ => []
  | n + 1, t, d => xorBytes (f (xorBytes (d.take 16) t)) t ++ xtsBlocks f n (xtsDouble t) (d.drop 16)

/-- XTS-AES-256 encryption of a data unit: data key, tweak key, tweak block. -/
def xtsEnc (k1 k2 tweak d : List Byte) : List Byte :=
  let ks := aesKeys k1
  xtsBlocks (aesEncWith ks) (d.length / 16) (aesEnc k2 tweak) d
/-- XTS-AES-256 decryption of a data unit. -/
def xtsDec (k1 k2 tweak d : List Byte) : List Byte :=
  let ks := aesKeys k1
  xtsBlocks (aesDecWith ks) (d.length / 16) (aesEnc k2 tweak) d

/-- Doubling of a CMAC subkey: the block is a big-endian polynomial. -/
def cmacDouble (t : List Byte) : List Byte :=
  let n := beNat t
  beBytes 16 (Nat.xor (n * 2 % 2 ^ 128) (if n.testBit 127 then 0x87 else 0))

/-- CMAC-AES-256. -/
def cmac (key m : List Byte) : List Byte :=
  let ks := aesKeys key
  let k1 := cmacDouble (aesEncWith ks (List.replicate 16 0#8))
  let nb := max 1 ((m.length + 15) / 16)
  let last := m.drop (16 * (nb - 1))
  let fin := if last.length = 16 then xorBytes last k1
    else xorBytes (fit 0#8 16 (last ++ [0x80#8])) (cmacDouble k1)
  let mid := (chunks 16 (nb - 1) (m.take (16 * (nb - 1)))).foldl
    (fun a b => aesEncWith ks (xorBytes a b)) (List.replicate 16 0#8)
  aesEncWith ks (xorBytes mid fin)

/-- Multiplication in the field of GHASH, bit 127 of the number the first bit of the block. -/
def ghashMulStep (x : Nat) : Nat → Nat → Nat → Nat
  | 0, z, _ => z
  | i + 1, z, v =>
    ghashMulStep x i (if x.testBit i then Nat.xor z v else z)
      (if v.testBit 0 then Nat.xor (v / 2) (0xE1 * 2 ^ 120) else v / 2)

/-- Product of two blocks in the field of GHASH. -/
def ghashMul (x y : Nat) : Nat := ghashMulStep x 128 0 y

/-- GHASH of bytes, filled with zeros to whole blocks, under the hash key `h`. -/
def ghash (h : Nat) (m : List Byte) : Nat :=
  (chunks 16 ((m.length + 15) / 16) m).foldl (fun a b => ghashMul (Nat.xor a (beNat (fit 0#8 16 b))) h) 0

/-- The counter blocks of GCM from a first counter: `n` key-stream blocks. -/
def ctrStream (ks : List (List Byte)) : Nat → Nat → List Byte
  | 0, _ => []
  | n + 1, c => aesEncWith ks (beBytes 16 c) ++ ctrStream ks n (c / 2 ^ 32 * 2 ^ 32 + (c + 1) % 2 ^ 32)

/-- AES-256-GCM with a 96-bit nonce: ciphertext and 16-byte tag. -/
def gcmEnc (key nonce aad p : List Byte) : List Byte × List Byte :=
  let ks := aesKeys key
  let h := beNat (aesEncWith ks (List.replicate 16 0#8))
  let j0 := beNat (fit 0#8 12 nonce) * 2 ^ 32 + 1
  let c := xorBytes p (ctrStream ks ((p.length + 15) / 16) (j0 + 1))
  let blk (m : List Byte) : List Byte := m ++ List.replicate ((16 - m.length % 16) % 16) 0#8
  let s := ghash h (blk aad ++ blk c ++ beBytes 8 (8 * aad.length) ++ beBytes 8 (8 * c.length))
  (c, beBytes 16 (Nat.xor s (beNat (aesEncWith ks (beBytes 16 j0)))))

/-- The plaintext of an AES-256-GCM message, if its 16-byte tag is the one its ciphertext has. -/
def gcmDec (key nonce aad c tag : List Byte) : Option (List Byte) :=
  let p := (gcmEnc key nonce aad c).1
  if (gcmEnc key nonce aad p).2 = tag then some p else none

/-- One pass of AES key wrap over the registers: `t` the step count so far. -/
def kwPass (ks : List (List Byte)) : List Byte → Nat → List (List Byte) → List Byte × List (List Byte)
  | a, _, [] => (a, [])
  | a, t, r :: rs =>
    let b := aesEncWith ks (a ++ r)
    let q := kwPass ks (xorBytes (b.take 8) (beBytes 8 (t + 1))) (t + 1) rs
    (q.1, b.drop 8 :: q.2)

/-- AES key wrap of a multiple of eight bytes. -/
def aesWrap (kek p : List Byte) : List Byte :=
  let ks := aesKeys kek
  let n := p.length / 8
  let r := (below 6).foldl (fun (s : List Byte × List (List Byte)) j => kwPass ks s.1 (n * j) s.2)
    (List.replicate 8 0xA6#8, chunks 8 n p)
  r.1 ++ r.2.flatten

/-- One pass of unwrap over the registers, last first: `t` the step count of the next one. -/
def kwUnpass (ks : List (List Byte)) : List Byte → Nat → List (List Byte) → List Byte × List (List Byte)
  | a, _, [] => (a, [])
  | a, t, r :: rs =>
    let b := aesDecWith ks (xorBytes a (beBytes 8 t) ++ r)
    let q := kwUnpass ks (b.take 8) (t - 1) rs
    (q.1, b.drop 8 :: q.2)

/-- AES key unwrap: none where the check value does not come out. -/
def aesUnwrap (kek c : List Byte) : Option (List Byte) :=
  let ks := aesKeys kek
  let n := c.length / 8 - 1
  let r := (below 6).foldl (fun (s : List Byte × List (List Byte)) j => kwUnpass ks s.1 (n * (6 - j)) s.2)
    (c.take 8, (chunks 8 n (c.drop 8)).reverse)
  if r.1 = List.replicate 8 0xA6#8 then some r.2.reverse.flatten else none

end Sys2Proof.Machine
end

