-- ==== Sys2Proof/Machine/Worlds.lean ====
section
/-! DEFINITION. Keeper and Steward, measurement, region checkers and debug (13 R336-R348). -/

namespace Sys2Proof.Machine

/-! ### Measurement (R341) -/

/-- A measurement register. -/
def measReg (s : State) (n : Nat) : BitVec 384 := smGet 0#384 s.world.meas n

/-- A register extended with a digest: SHA-384 of the register followed by it. -/
def measExtend (n : Nat) (d : List Byte) (s : State) : State :=
  modWorld (fun w => { w with
    meas := smPut 0#384 w.meas n
      (BitVec.ofNat 384 (beNat (sha384 (beBytes 48 (smGet 0#384 w.meas n).toNat ++ d)))) }) s

/-- A register set to zero. -/
def measZero (n : Nat) (s : State) : State := modWorld (fun w => { w with meas := smErase w.meas n }) s

/-- The security configuration record of register 3 (Table 13.2; its coding is log 16). -/
def securityRecord (s : State) : List Byte :=
  [lcState s, s.sl.straps % 4, pnum s P.DBG_STEWARD_NONINV, pnum s P.DBG_STEWARD_INV,
    pnum s P.DBG_KEEPER_NONINV, pnum s P.DBG_KEEPER_INV, pnum s P.SEAL_PORT_LOCK,
    pnum s P.SEAL_REQUIRE_IDE].map fun n => BitVec.ofNat 8 n

/-- Register 3 takes the present security configuration. -/
def measSecurity (s : State) : State := measExtend 3 (sha384 (securityRecord s)) s

/-- The digest of the image that the boot ROM starts (R342): slot A where its signature holds under the firmware key whose digest
is fused and its security version is not below the fused minimum, else slot B. -/
def verified (s : State) (x : FwSlots) : Option (BitVec 384) :=
  (([x.a, x.b].filterMap id).find? fun i => i.signed && i.key == s.sl.fuseKey && decide (s.sl.fuseVersion ≤ i.version)).map (·.digest)

/-! ### Keeper (R340) -/

/-- The status with which an access that needs Keeper is refused: none while it runs, BUSY while it is
restarting or not yet started, FAULT while it is halted (02 R52). -/
def keeperStatus (s : State) : Option Nat :=
  match s.world.keeper with
  | .halted => some 0x0C
  | .restarting => some 0x02
  | .running => if s.world.keeperUp && !s.world.debugHalt && diePowered s 1 then none else some 0x02

/-- No access reaches the sequencer from Keeper while its pair is held in reset or halted (R340). -/
def keeperSilent (s : State) (o : Origin) : Bool :=
  o == .keeper && (s.world.keeper != .running || !s.world.keeperUp || s.world.debugHalt)

/-- Every queued world call is answered BUSY (R337, Table 13.1 step 1). -/
def callsBusy (s : State) : State :=
  forAll s.world.calls (fun c => onlyIf (!c.abandoned) (emit (.worldReply c.core 2 [])))
    (modWorld (fun w => { w with calls := [] }) s)

/-- A session is discarded with its staged values and cursors (02 R43). -/
def dropSession (o : Origin) (s : State) : State :=
  modDict (fun d => { d with sessions := d.sessions.filter fun x => x.origin ≠ o }) s

/-- The responses that are owed to Keeper when its pair is held in reset are discarded; their accesses complete (R340). -/
def keeperUnheard (s : State) : State :=
  modDict (fun d => { d with flashQ := d.flashQ.map fun e =>
    { e with reply := e.reply.map fun r => if r.1 = .core .keeper then (.discarded, r.2) else r } }) s

/-! ### Management memory and the L2 (R338, R339) -/

/-- The first line of Keeper memory among the lines of management memory. -/
def keeperLines : Nat := 98304

/-- The first way of a world, and how many it has (R338). -/
def l2Ways (keeper : Bool) : Nat × Nat := if keeper then (0, 4) else (4, 12)

/-- The ways of the set of a memory line that belong to a world, as keys of the L2 (the set of a line is log 131). -/
def l2Keys (keeper : Bool) (a : Nat) : List Nat :=
  (below (l2Ways keeper).2).map fun w => 1024 * ((l2Ways keeper).1 + w) + a % 1024

/-- Where a world's lookup hits: a line of the other world is never hit, whatever way it lies in. -/
def l2Hit (s : State) (keeper : Bool) (a : Nat) : Option (Nat × L2Line) :=
  (below 16).findSome? fun w => match smFind s.world.l2 (1024 * w + a % 1024) with
    | some l => if l.keeper = keeper ∧ l.addr = a then some (1024 * w + a % 1024, l) else none
    | none => none

/-- A line leaves the L2: one newer than its memory is written back. -/
def l2Evict (k : Nat) (s : State) : State :=
  match smFind s.world.l2 k with
  | none => s
  | some l => modWorld (fun w => { w with
      l2 := smErase w.l2 k, mem := if l.dirty then smPut 0#512 w.mem l.addr l.data else w.mem }) s

/-- The way that a world's fill replaces: an empty one of its own, else one of its own that the spec does not name (free). -/
def l2Victim (s : State) (keeper : Bool) (a : Nat) : Nat :=
  ((l2Keys keeper a).find? fun k => (smFind s.world.l2 k).isNone).getD
    (1024 * ((l2Ways keeper).1 + Config.freeBits s.fresh % (l2Ways keeper).2) + a % 1024)

/-- A line of management memory comes into the L2 of a world: its key, and it. -/
def l2Fill (keeper : Bool) (a : Nat) (s : State) : Nat × L2Line × State :=
  match l2Hit s keeper a with
  | some q => (q.1, q.2, s)
  | none =>
    let k := l2Victim s keeper a
    let s1 := l2Evict k s
    let l : L2Line := ⟨keeper, a, smGet 0#512 s1.world.mem a, false⟩
    (k, l, afterDraw (modWorld (fun w => { w with l2 := smSet w.l2 k l }) s1))

/-- A world reads or writes a line of management memory. -/
def l2Access (keeper : Bool) (a : Nat) (write : Option Line) (s : State) : Line × State :=
  let q := l2Fill keeper a s
  match write with
  | none => (q.2.1.data, q.2.2)
  | some v => (v, modWorld (fun w => { w with l2 := smSet w.l2 q.1 { q.2.1 with data := v, dirty := true } }) q.2.2)

/-- A line whose world bit cannot be trusted is invalidated without write-back, with a Courier alert (R338). -/
def l2Invalidate (k : Nat) (s : State) : State := logPlain 14 1 (modWorld (fun w => { w with l2 := smErase w.l2 k }) s)

/-- A stretch of management memory is zeroed, with what the L2 holds of it. -/
def memZero (lo n : Nat) (s : State) : State :=
  modWorld (fun w => { w with
    mem := w.mem.filter fun e => !(decide (lo ≤ e.1) && decide (e.1 < lo + n))
    l2 := w.l2.filter fun e => !(decide (lo ≤ e.2.addr) && decide (e.2.addr < lo + n)) }) s

/-- Step 3 of Table 13.1: Keeper memory and ways 0-3 of the L2 are zeroed. -/
def keeperZero (s : State) : State :=
  modWorld (fun w => { w with l2 := w.l2.filter fun e => decide (4096 ≤ e.1) }) (memZero keeperLines 16384 s)

/-- A Steward core's share of its die's memory is zeroed (R339; the shares are log 131). -/
def coreZero (core : Nat) (s : State) : State := memZero (12288 * core) 12288 s

/-- Keeper halts until device reset, with a Courier alert. -/
def keeperHalt (s : State) : State :=
  logPlain 14 1 (callsBusy (dropSession .keeper (keeperUnheard
    (modWorld (fun w => { w with keeper := .halted, keeperUp := false, debugHalt := false, spdm := [] }) s))))

/-- How many restarts fell within the last hour of the timebase. -/
def restartsInHour (s : State) : Nat :=
  (s.world.restartTimes.filter fun t => decide (dieTime s 1 < t + 3600 * 10 ^ 9)).length

/-- A trigger of Table 13.1 (R340): Keeper restarts, or halts when `KEEPER_RESTART_LIMIT` restarts fall
within one hour. Causes: 1 watchdog, 2 lockstep, 3 instruction fetch (log 16). -/
def keeperTrigger (cause : Nat) (s : State) : State :=
  if s.world.keeper ≠ .running ∨ s.world.keeperUp = false then s
  else if pnum s P.KEEPER_RESTART_LIMIT ≤ restartsInHour s then keeperHalt s
  else keeperZero <| callsBusy (dropSession .keeper <| keeperUnheard (modWorld (fun w => { w with
      keeper := .restarting
      keeperUp := false
      debugHalt := false
      restartCause := cause
      restartTimes := dieTime s 1 :: w.restartTimes.filter fun t => decide (dieTime s 1 < t + 3600 * 10 ^ 9)
      spdm := [] }) s))

/-- The restart record of register 4: cause, timebase, count. -/
def restartRecord (s : State) : List Byte :=
  leBytes 1 s.world.restartCause ++ leBytes 8 (dieTime s 1) ++ leBytes 4 (s.world.restarts + 1)

/-- Step 4 and 5 of Table 13.1, but for the key commands Keeper then issues: the verified image's digest
is measured and Keeper runs; without a valid image it halts. -/
def keeperResumeCore (img : Option (BitVec 384)) (s : State) : State :=
  if s.world.keeper ≠ .restarting then s
  else match img with
    | none => keeperHalt s
    | some d =>
      modWorld (fun w => { w with
          keeper := .running, keeperUp := true, keyReissue := true, restarts := satAdd 32 w.restarts 1 })
        (measExtend 4 (sha384 (restartRecord s)) (measExtend 1 (digestBytes 48 d) (measZero 1 s)))

/-! ### Steward restarts (R339) -/

/-- A bit of an eight-bit set. -/
def setBit8 (v : BitVec 8) (i : Nat) (b : Bool) : BitVec 8 :=
  if b then v ||| (1#8 <<< i) else v &&& ~~~(1#8 <<< i)

/-- The calls after a core's restart: the one being served is abandoned, a waiting one is dropped. -/
def dropCalls (core : Nat) : List WorldCall → List WorldCall
  | [] => []
  | c :: rest => (if c.core = core then { c with abandoned := true } else c) ::
      rest.filter fun x => x.core ≠ core

/-- A Steward watchdog expires (R339): that core alone restarts. -/
def stewardRestart (core : Nat) (s : State) : State :=
  if s.world.stewardUp.getLsbD core = false then s
  else if h : core < 8 then
    coreZero core <| dropSession (.steward ⟨core, h⟩) (modWorld (fun w => { w with
      stewardUp := setBit8 w.stewardUp core false
      stewardRestarting := setBit8 w.stewardRestarting core true
      calls := dropCalls core w.calls }) s)
  else s

/-- The restarted core's firmware is loaded, verified and measured (R339). -/
def stewardRestartDone (core : Nat) (img : Option (BitVec 384)) (s : State) : State :=
  if s.world.stewardRestarting.getLsbD core = false then s
  else
    let s1 := modWorld (fun w => { w with stewardRestarting := setBit8 w.stewardRestarting core false }) s
    match img with
    | none => s1
    | some d => modWorld (fun w => { w with stewardUp := setBit8 w.stewardUp core true })
        (measExtend 2 (digestBytes 48 d) s1)

/-- `WORLD_STATUS` (Table 13.10). -/
def worldStatus (s : State) : Nat :=
  (match s.world.keeper with | .running => 0 | .restarting => 1 | .halted => 2) + s.world.stewardUp.toNat * 16

/-! ### Region checkers (R343-R347) -/

/-- Agent classes, Table 13.3, in the order of the PERM bits of Table 13.4. -/
inductive AgentClass where
  | hostEngine | steward | keeper | scrub | debug
deriving DecidableEq, Repr

/-- The position of a class's read grant in a region register; its write grant is the next bit. -/
def AgentClass.bit : AgentClass → Nat
  | .hostEngine => 4 | .steward => 6 | .keeper => 8 | .scrub => 10 | .debug => 12

/-- The class of an access by its `AGENT` (Table 13.3). -/
def agentClass (agent : Nat) : AgentClass :=
  match agent with
  | 4 => .scrub
  | 6 => .steward
  | 7 => .keeper
  | _ => .hostEngine

/-- A region register from its fields. -/
def mkRegion (lock : Bool) (perm base limit : Nat) : BitVec 128 :=
  BitVec.ofNat 128 (1 + 2 * bNat lock + perm * 16 + base * 2 ^ 32 + limit * 2 ^ 64)

/-- Whether a register is valid and covers a unit. -/
def regionCovers (r : BitVec 128) (u : Nat) : Bool :=
  bitOf r.toNat 0 && decide (bitsOf r.toNat 32 32 ≤ u) && decide (u ≤ bitsOf r.toNat 64 32)

/-- Whether a register grants a class an operation. -/
def regionGrants (r : BitVec 128) (c : AgentClass) (write : Bool) : Bool :=
  bitOf r.toNat (c.bit + bNat write)

/-- A region register, held twice. -/
def regionAt (s : State) (checker reg : Nat) : Region := smGet {} s.world.regions (64 * checker + reg)

/-- Whether a checker's two copies agree everywhere (R344). -/
def regionCopiesAgree (s : State) (checker : Nat) : Bool :=
  (below 64).all fun i => (regionAt s checker i).main == (regionAt s checker i).copy

/-- Whether a checker permits an access (R344): some valid register covers it, and every one that covers
it grants it; a mismatch of copies denies. -/
def regionPermits (s : State) (checker : Nat) (c : AgentClass) (write : Bool) (u : Nat) : Bool :=
  regionCopiesAgree s checker &&
  ((below 64).any fun i => regionCovers (regionAt s checker i).main u) &&
  ((below 64).all fun i => !regionCovers (regionAt s checker i).main u || regionGrants (regionAt s checker i).main c write)

/-- What a bank of SRAM is used for (Table 13.5; which bank serves which use is log 17): 0 datapath of a
memory die, 1 switch buffer, 2 Steward memory, 3 trace buffer, 4 Safelight retention, 5 Keeper memory,
6 management L2. -/
def bankUse (b : Nat) : Nat :=
  if b < 96 then 0
  else
    let die := (b - 96) / 8
    match (b - 96) % 8 with
    | 4 => 2
    | 5 => 3
    | 6 => if die = 1 then 5 else if die = 0 ∨ die = 2 then 4 else 1
    | 7 => if die = 1 then 6 else 1
    | _ => 1

/-- The die ID of an SRAM bank. -/
def bankDie (b : Nat) : Nat := if b < 96 then 4 + b / 24 else (b - 96) / 8

/-- The memory error record of a word of an SRAM bank (11 Table 11.7): `w` its place in its line, how many bits were corrected,
and the agent that read it. -/
def sramRecord (s : State) (kind b w bits agent : Nat) : Nat :=
  kind + b * 2 ^ 8 + 2 ^ (64 + w) + bits * 2 ^ 72 + agent * 2 ^ 80 + dieTime s (bankDie b) / 1000 % 2 ^ 40 * 2 ^ 88

/-- A Keeper instruction fetch meets an uncorrectable word (11 R306): a record of kind 9, of a word in Keeper memory or in the
management L2, which the command does not tell apart (free; log 160). -/
def keeperFetchBad (s : State) : State :=
  if s.world.keeper ≠ .running ∨ s.world.keeperUp = false then s
  else
  let r := sramRecord s 9 (110 + Config.freeBits s.fresh % 2) (Config.freeBits (s.fresh + 1) % 8) 0 7
  keeperTrigger 3 (logEvent 1 0xFFFF 1 none r (afterDraw (afterDraw s)))

/-- `REGION_BANKS` record of a bank: die, bank on it, use code. -/
def bankRecord (b : Nat) : Nat :=
  bankDie b + (if b < 96 then b % 24 else (b - 96) % 8) * 8 + bankUse b * 256

/-- The PERM field the boot ROM locks for a use (Table 13.5), two bits per class. -/
def lockedPerm (use : Nat) : Nat :=
  match use with
  | 2 => 0x3FC
  | 3 => 0x3D4
  | 5 => 0x3F0
  | 6 => 0x3FC
  | _ => 0x0C3

/-- Register 0 of a checker as locked at device reset (R345). -/
def lockedRegion (checker : Nat) : BitVec 128 :=
  mkRegion true (lockedPerm (if checker < 32 then 0 else bankUse (checker - 32))) 0 0xFFFFFFFF

/-- Whether a checker has free registers (Table 13.5). -/
def checkerFree (checker : Nat) : Bool :=
  decide (32 ≤ checker) && (let u := bankUse (checker - 32); u == 2 || u == 3 || u == 5 || u == 6)

/-- What a row of the region window reads: the registers the boot ROM fixes read locked and invalid. -/
def regionRead (s : State) (row : Nat) : Nat :=
  let v := (regionAt s (row / 64) (row % 64)).main.toNat
  if checkerFree (row / 64) = false ∧ row % 64 ≠ 0 ∧ s.world.regions ≠ [] then 2 else v

/-- The region registers after the boot ROM has locked register 0 of every checker. -/
def lockedRegions : SMap Region :=
  (below 160).map fun c => (64 * c, ⟨lockedRegion c, lockedRegion c⟩)

/-- What is wrong with a commit of a region row (R347), if anything: RANGE or WRONG_STATE. -/
def regionCommitFault (s : State) (row v : Nat) : Option Nat :=
  let r := BitVec.ofNat 128 v
  let lim := bitsOf v 64 32
  let base := bitsOf v 32 32
  let z := (regionAt s (row / 64) 0).main
  if lim < base ∨ bitOf v 1 then some 0x06
  else if bitOf v 0 ∧ ((regionGrants z .scrub false ∧ regionGrants r .scrub false = false) ∨
      (regionGrants z .scrub true ∧ regionGrants r .scrub true = false)) then some 0x06
  else if bitOf (regionAt s (row / 64) (row % 64)).main.toNat 1 ∨ checkerFree (row / 64) = false then some 0x03
  else none

/-- A committed region row: reserved bits dropped; a DRAM row is written to both channels of its wing. -/
def regionCommit (row v : Nat) (s : State) : State :=
  let w := bitsOf v 0 1 + (bitsOf v 4 10) * 16 + (bitsOf v 32 64) * 2 ^ 32
  let r : Region := ⟨BitVec.ofNat 128 w, BitVec.ofNat 128 w⟩
  let put (row : Nat) (s : State) : State :=
    modWorld (fun x => { x with regions := smPut {} x.regions row r }) s
  if row / 64 < 32 then put (64 * (row / 64 / 2 * 2 + 1) + row % 64) (put (64 * (row / 64 / 2 * 2) + row % 64) s)
  else put row s

/-- Every locked region register in row order (Table 13.2, register 5). -/
def lockedRegisterBytes : List Byte :=
  (below (160 * 64)).flatMap fun row =>
    if row % 64 = 0 then leBytes 16 (lockedRegion (row / 64)).toNat
    else if checkerFree (row / 64) then [] else leBytes 16 2

/-- The number of an agent class, in the order of the PERM bits. -/
def AgentClass.code (c : AgentClass) : Nat := c.bit / 2 - 2

/-- The body of a denial's record: checker, class, operation and unit (R346; the places of the fields are log 53). -/
def denialBody (checker : Nat) (c : AgentClass) (write : Bool) (u : Nat) : Nat :=
  checker + c.code * 2 ^ 8 + bNat write * 2 ^ 11 + u * 2 ^ 32

/-- A checker denies a class an operation on a unit (R346): logged, counted for the checker, alerted. -/
def regionDenied (checker : Nat) (c : AgentClass) (write : Bool) (u : Nat) (s : State) : State :=
  logEvent 6 0xFFFF 1 none (denialBody checker c write u)
    (modWorld (fun w => { w with violations := bump 32 w.violations checker 1 }) s)

/-- The SRAM bank that holds a line of management memory, and its line in the bank (log 17). -/
def memBank (a : Nat) : Nat × Nat :=
  if a < keeperLines then (100 + 8 * (a / 24576), a % 24576) else (110, a - keeperLines)

/-- A line of management memory that the L2 holds newer is written back, and dropped from it. -/
def l2Flush (a : Nat) (s : State) : State :=
  forAll ((below 16).map fun w => 1024 * w + a % 1024)
    (fun k t => if (smFind t.world.l2 k).any (fun l => l.addr == a) then l2Evict k t else t) s

/-- A management core stores a line (R336, R343): what the checker denies is discarded (R346). -/
def coreStore (c : AgentClass) (a : Nat) (v : Line) (s : State) : State :=
  let q := memBank a
  if regionPermits s (32 + q.1) c true q.2 then modWorld (fun w => { w with mem := smPut 0#512 w.mem a v }) (l2Flush a s)
  else regionDenied (32 + q.1) c true q.2 s

/-- A management core loads a line: one that the checker denies takes a data-abort trap (R346). -/
def coreLoad (c : AgentClass) (core a : Nat) (s : State) : Option Line × State :=
  let q := memBank a
  let t := l2Flush a s
  if regionPermits s (32 + q.1) c false q.2 then (some (smGet 0#512 t.world.mem a), t)
  else (none, emit (.dataAbort core) (regionDenied (32 + q.1) c false q.2 s))

/-! ### World calls (R337) -/

/-- The lines of a core's call buffer: the first four of its share of its die's Steward memory (log 131). -/
def callLines (core : Nat) : List Nat := (below 4).map (12288 * core + ·)

/-- A call buffer written by a core of a class. -/
def bufferStore (c : AgentClass) (core : Nat) (b : List Byte) (s : State) : State :=
  forAll (below 4) (fun i => coreStore c (12288 * core + i) (BitVec.ofNat 512 (leNat (slice (64 * i) 64 b)))) s

/-- A call buffer read by a core of a class; nothing from the first load that traps on. -/
def bufferLoad (c : AgentClass) (reader core : Nat) (s : State) : Option (List Byte) × State :=
  (callLines core).foldl (fun q a => match q.1 with
    | none => q
    | some b =>
      let r := coreLoad c reader a q.2
      (r.1.map fun v => b ++ leBytes 64 v.toNat, r.2)) (some [], s)

/-- A call joins those that wait: behind earlier ones, and among those of its own handshake in ascending core number (R337,
log 141). -/
def callPut (c : WorldCall) (q : List WorldCall) : List WorldCall :=
  let before (y : WorldCall) : Bool := decide (y.since ≠ c.since ∨ y.core < c.core)
  q.takeWhile before ++ c :: q.dropWhile before

/-- A Steward core calls Keeper (R337): at most one call outstanding; BUSY while Keeper does not run. -/
def worldCall (core : Nat) (req : List Byte) (s : State) : State :=
  if s.world.stewardUp.getLsbD core = false ∨ s.world.calls.any (fun c => c.core == core && !c.abandoned) then s
  else if keeperStatus s ≠ none then emit (.worldReply core 2 []) s
  else bufferStore .steward core (fit 0#8 256 req) (modWorld (fun w => { w with
      calls := callPut { core := core, req := fit 0#8 256 req, since := dieTime s 1 } w.calls }) s)

/-- Keeper reads the buffer of the call it serves, the oldest, and writes its reply into it; the core resumes and reads that. The
reply to an abandoned call is discarded. The caches, TLB and branch-prediction state that steps 1 and 4 clean are private to the
core and hold nothing that State does not. -/
def worldReply (answer : List Byte) (s : State) : State :=
  if keeperStatus s ≠ none then s
  else match s.world.calls with
    | [] => s
    | c :: rest =>
      let s1 := modWorld (fun w => { w with calls := rest }) s
      if c.abandoned then s1
      else
        let q := bufferLoad .steward c.core c.core
          (bufferStore .keeper c.core (fit 0#8 256 answer) (bufferLoad .keeper 8 c.core s1).2)
        match q.1 with
        | some b => emit (.worldReply c.core 0 b) q.2
        | none => q.2

/-! ### Debug (R348) -/

/-- Whether the debug access port admits an access (Table 13.6): an invasive enable turns on its
non-invasive partner; no enable reaches a structure of the datapath. -/
def debugAdmits (s : State) : DebugTarget → Bool
  | .idcode => true
  | .stewardTrace => lcState s != 4 && (pnum s P.DBG_STEWARD_NONINV == 1 || pnum s P.DBG_STEWARD_INV == 1)
  | .stewardInvasive => lcState s != 4 && pnum s P.DBG_STEWARD_INV == 1
  | .keeperTrace => lcState s == 3 && (pnum s P.DBG_KEEPER_NONINV == 1 || pnum s P.DBG_KEEPER_INV == 1)
  | .keeperInvasive => lcState s == 3 && pnum s P.DBG_KEEPER_INV == 1
  | .keeperRun => lcState s == 3 && pnum s P.DBG_KEEPER_INV == 1
  | .stewardMemory _ _ => stewardOpen s
  | .keeperMemory _ _ => keeperOpen s
  | .l2Line _ w _ => if w.val < 4 then keeperOpen s else stewardOpen s
  | .datapath => false
where
  /-- Whether Steward cores are open to invasive debug. -/
  stewardOpen (s : State) : Bool := lcState s != 4 && pnum s P.DBG_STEWARD_INV == 1
  /-- Whether the Keeper pair is open to invasive debug. -/
  keeperOpen (s : State) : Bool := lcState s == 3 && pnum s P.DBG_KEEPER_INV == 1

/-- A debug access to a line behind a region checker: what the checker denies is recorded and not done (R346). -/
def debugLine (bank unit : Nat) (write : Bool) (act : State → Line × State) (s : State) : State :=
  if diePowered s (bankDie bank) = false then emit (.debug false) s
  else if regionPermits s (32 + bank) .debug write unit = false then emit (.debug false) (regionDenied (32 + bank) .debug write unit s)
  else
    let q := act s
    let t := emit (.debug true) q.2
    if write then t else emit (.debugLine q.1) t

/-- A way of the L2 read, or its data replaced; a way that holds no line reads 0 and takes nothing (log 131). -/
def l2Raw (k : Nat) (write : Option Line) (s : State) : Line × State :=
  match smFind s.world.l2 k, write with
  | none, _ => (0#512, s)
  | some l, none => (l.data, s)
  | some l, some v => (v, modWorld (fun w => { w with l2 := smSet w.l2 k { l with data := v, dirty := true } }) s)

/-- An access that the enables admit: memory through its world's ways of the L2; an invasive access to Keeper halts the
pair, and lets it run. -/
def debugDo (t : DebugTarget) (s : State) : State :=
  match t with
  | .keeperInvasive => emit (.debug true) (modWorld (fun w => { w with debugHalt := true }) s)
  | .keeperRun => emit (.debug true) (modWorld (fun w => { w with debugHalt := false }) s)
  | .stewardMemory a v => debugLine (memBank a.val).1 (memBank a.val).2 v.isSome (l2Access false a.val v) s
  | .keeperMemory a v =>
    debugLine (memBank (keeperLines + a.val)).1 (memBank (keeperLines + a.val)).2 v.isSome (l2Access true (keeperLines + a.val) v) s
  | .l2Line i w v => debugLine 111 (1024 * w.val + i.val) v.isSome (l2Raw (1024 * w.val + i.val) v) s
  | _ => emit (.debug true) s

/-- A debug access (R348): what the enables do not admit finds the port closed. -/
def debugAccess (t : DebugTarget) (s : State) : State := if debugAdmits s t then debugDo t s else emit (.debug false) s

/-! ### Commands -/

/-- WORLD_CALL (R337). -/
def execWorldCall (core : Fin 8) (req : List Byte) (s : State) : Out := .next (worldCall core.val req s)
/-- WORLD_CALL_REPLY (R337). -/
def execWorldCallReply (answer : List Byte) (s : State) : Out := .next (worldReply answer s)
/-- STEWARD_WDOG (R339). -/
def execStewardWdog (core : Fin 8) (s : State) : Out := .next (stewardRestart core.val s)
/-- STEWARD_CORE_RESTART_DONE (R339). -/
def execStewardCoreRestartDone (core : Fin 8) (img : FwSlots) (s : State) : Out :=
  .next (stewardRestartDone core.val (verified s img) s)
/-- KEEPER_WDOG (R340): it does not count while the pair is halted by invasive debug. -/
def execKeeperWdog (s : State) : Out := .next (if s.world.debugHalt then s else keeperTrigger 1 s)
/-- LOCKSTEP_MISMATCH (R340). -/
def execLockstepMismatch (s : State) : Out := .next (keeperTrigger 2 s)
/-- UNCORRECTABLE_INSTRUCTION_FETCH (R340, 11 R306). -/
def execUncorrectableInstructionFetch (s : State) : Out := .next (keeperFetchBad s)
/-- DEBUG_ACCESS (R348). -/
def execDebugAccess (t : DebugTarget) (s : State) : Out := .next (debugAccess t s)

end Sys2Proof.Machine
end

