-- ==== Sys2Proof/Machine/Keys.lean ====
section
/-! DEFINITION. Keys: derivation, slots, transport, and IDE streams (07 R177-R181, R202, R207-R208). -/

namespace Sys2Proof.Machine

/-! ### Home of a page (01 R20) -/

/-- The key of a page: lodging and page number together. -/
def pageKey (n p : Nat) : Nat := n * 2 ^ 34 + p
/-- The XOR-fold of a key in six-bit pieces. -/
def homeFold (k : Nat) : Nat :=
  (below 8).foldl (fun a i => Nat.xor a (bitsOf k (6 * i) 6)) 0
/-- The home die index of a page. -/
def homeDie (n p : Nat) : Nat := homeFold (pageKey n p) % 4
/-- The global home slice of a page: 16 * die + slice. -/
def homeSlice (n p : Nat) : Nat := 16 * homeDie n p + homeFold (pageKey n p) / 4

/-! ### Derived keys (R178) -/

/-- One block of the KDF. -/
def kdfBlock (secret : BitVec 256) (i : Nat) (label : List Byte) (n e : Nat) : List Byte :=
  cmac (beBytes 32 secret.toNat) (beBytes 1 i ++ label ++ [0#8] ++ beBytes 2 n ++ beBytes 4 e ++ [0x01#8, 0x00#8])

/-- A 256-bit derived key. -/
def kdf (secret : BitVec 256) (label : List Byte) (n e : Nat) : List Byte :=
  kdfBlock secret 1 label n e ++ kdfBlock secret 2 label n e

/-- K1: label "XTD1". -/
def keyData (secret : BitVec 256) (n e : Nat) : List Byte := kdf secret [0x58#8, 0x54#8, 0x44#8, 0x31#8] n e
/-- K2: label "XTD2". -/
def keyTweak (secret : BitVec 256) (n e : Nat) : List Byte := kdf secret [0x58#8, 0x54#8, 0x44#8, 0x32#8] n e
/-- KT: label "TAGK". -/
def keyTag (secret : BitVec 256) (n e : Nat) : List Byte := kdf secret [0x54#8, 0x41#8, 0x47#8, 0x4B#8] n e

/-- The present epoch of a lodging. -/
def keyEpoch (s : State) (n : Nat) : Nat := smGet 0 s.prot.epoch n

/-- The secret, if one is installed on die `d`, and the epoch that a `KEY_PHASE` selects (R203). -/
def secretFor (s : State) (d n : Nat) (phase : Bool) : Option (BitVec 256 × Nat) :=
  let e := keyEpoch s n
  if phase = decide (e % 2 = 1) then (smFind s.prot.secrets (4096 * d + n)).map fun k => (k, e)
  else ((below 4).findSome? fun t => match smFind s.prot.tslots (4 * d + t) with
    | some x => if x.lodging = n then some x else none
    | none => none).map fun x => (x.secret, x.epoch)

/-! ### XTS on part of a data unit (R182, R184) -/

/-- The tweak value of block `j` of a data unit. -/
def xtsTweakAt (k2 : List Byte) (t j : Nat) : List Byte :=
  (below j).foldl (fun x _ => xtsDouble x) (aesEnc k2 (leBytes 16 t))

/-- Blocks from `j` of a data unit with tweak `t`. -/
def xtsFrom (enc : Bool) (k1 k2 : List Byte) (t j : Nat) (d : List Byte) : List Byte :=
  let ks := aesKeys k1
  xtsBlocks (if enc then aesEncWith ks else aesDecWith ks) (d.length / 16) (xtsTweakAt k2 t j) d

/-! ### Tags and MACs (R187) -/

/-- MSB_64(GH(C) XOR AES_K(B)) with counter, identity and type in B. -/
def tagOf (key : List Byte) (c : List Byte) (counter identity type : Nat) : Nat :=
  let h := beNat (aesEnc key (List.replicate 16 0#8))
  let gh := ghash h (c ++ beBytes 8 0 ++ beBytes 8 (8 * c.length))
  Nat.xor gh (beNat (aesEnc key (beBytes 16 (counter * 2 ^ 64 + identity * 2 ^ 8 + type)))) / 2 ^ 64

/-- How a tag changes when only its counter does (R196 step 3). -/
def tagPad (key : List Byte) (counter identity type : Nat) : Nat :=
  beNat (aesEnc key (beBytes 16 (counter * 2 ^ 64 + identity * 2 ^ 8 + type))) / 2 ^ 64

/-! ### Key slots (R179-R181, R202) -/

/-- A fresh secret: one that yields K1 = K2 is discarded and another is drawn (R178). No draw in `fuel` of them serves:
`none` (log 135). -/
def drawSecret : Nat → Nat → Nat → State → Option (BitVec 256) × State
  | 0, _, _, s => (none, s)
  | fuel + 1, n, e, s =>
    let v := Config.trng s.fresh
    if keyData v n e = keyTweak v n e then drawSecret fuel n e (afterDraw s) else (some v, afterDraw s)

/-- How many draws the key unit makes at most for one secret (log 135). -/
def drawLimit : Nat := 65536

/-- The memory dies whose key unit answers. -/
def keyDies (s : State) : List Nat := (below 4).filter fun d => diePowered s (4 + d)

/-- `INSTALL` (R181): the key unit of M(n mod 4) draws the secret into slot `n` and sends it to the others. -/
def keyInstall (n : Nat) (s : State) : State :=
  let q := drawSecret drawLimit n 0 s
  match q.1 with
  | none => q.2
  | some v => modProt (fun p => { p with
      secrets := smSet p.secrets (4096 * (n % 4) + n) v
      epoch := smErase p.epoch n
      jobs := p.jobs ++ [⟨1, n, v, (below 4).filter (· ≠ n % 4), 0⟩] }) q.2

/-- `WIPE` (R181): slot `n` and any transition slot of `n` are zeroed on all four dies. -/
def keyWipe (n : Nat) (s : State) : State :=
  modProt (fun p => { p with
    secrets := smFilter (fun k _ => k % 4096 != n) p.secrets
    tslots := smFilter (fun _ t => t.lodging != n) p.tslots
    jobs := p.jobs.filter fun j => j.lodging ≠ n
    rekeys := smErase p.rekeys n }) s

/-- The lowest transition slot free on all dies. -/
def freeTSlot (s : State) : Option Nat :=
  firstBelow 4 fun t => (below 4).all fun d => (smFind s.prot.tslots (4 * d + t)).isNone

/-- `REKEY` (R202): the next secret into the same transition slot on all dies, boundaries 0, `RUNNING`. -/
def keyRekey (n t : Nat) (s : State) : State :=
  let e := keyEpoch s n
  let q := drawSecret drawLimit n (e + 1) s
  match q.1 with
  | none => q.2
  | some v => modProt (fun p => { p with
      tslots := smSet p.tslots (4 * (n % 4) + t) ⟨v, n, e + 1⟩
      rekeys := smSet p.rekeys n { asked := false, slot := t, bounds := [] }
      jobs := p.jobs ++ [⟨3, n, v, (below 4).filter (· ≠ n % 4), t⟩] }) q.2

/-- `K_XPORT` as die `d` holds it. -/
def transportKey (s : State) (d : Nat) : List Byte := beBytes 32 (smGet 0#256 s.prot.kXport d).toNat

/-- The nonce of the next key-transport message that memory die `d` sends: its die ID, then its message count (R180). -/
def transportNonce (s : State) (d : Nat) : List Byte := beBytes 4 (4 + d) ++ beBytes 8 (smGet 0 s.prot.messages d)

/-- Die `d` sends a message: its count goes on. -/
def messageSent (d : Nat) (s : State) : State :=
  modProt (fun p => { p with messages := bump 64 p.messages d 1 }) s

/-- What die `d` takes from a message in which die `a` sends a secret and the link has inverted the bits `err` of
ciphertext and tag: nothing where it does not authenticate (R180). -/
def keyReceived (a d : Nat) (secret : BitVec 256) (err : BitVec 384) (s : State) : Option (BitVec 256) :=
  let m := gcmEnc (transportKey s a) (transportNonce s a) [] (beBytes 32 secret.toNat)
  let c := xorBytes (m.1 ++ m.2) (beBytes 48 err.toNat)
  (gcmDec (transportKey s d) (transportNonce s a) [] (c.take 32) (c.drop 32)).map fun p => BitVec.ofNat 256 (beNat p)

/-- A secret stands on one more die: the job as it goes on, and the job that ends by it. -/
def keyPlaced (d : Nat) (j : KeyJob) (v : BitVec 256) (s : State) : State × Option KeyJob :=
  let left := j.left.filter (· ≠ d)
  (modProt (fun p => { p with
    secrets := if j.op = 1 then smSet p.secrets (4096 * d + j.lodging) v else p.secrets
    tslots := if j.op = 3 then smSet p.tslots (4 * d + j.slot) ⟨v, j.lodging, keyEpoch s j.lodging + 1⟩ else p.tslots
    jobs := if left = [] then p.jobs.erase j else p.jobs.map fun x => if x = j then { x with left := left } else x }) s,
   if left = [] then some j else none)

/-- A key-transport message reaches a die (R180): one that fails its authentication installs nothing, and its sender sends
it again; else the secret is installed and acknowledged. The job that ends by it is the second answer. -/
def keyTransport (d : Nat) (err : BitVec 384) (s : State) : State × Option KeyJob :=
  match s.prot.jobs.find? fun j => j.left.contains d with
  | none => (s, none)
  | some j =>
    let s1 := messageSent (j.lodging % 4) s
    match keyReceived (j.lodging % 4) d j.secret err s with
    | none => (s1, none)
    | some v => keyPlaced d j v s1

/-- Whether a lodging's present secret stands on every die in service. -/
def keysInstalled (s : State) (n : Nat) : Bool :=
  (below 4).all fun d => (unitAt s (372 + d)).state == .outOfService || (smFind s.prot.secrets (4096 * d + n)).isSome

/-! ### IDE streams (R207, R208) -/

/-- Stream entry `i` (0-8) of a port. -/
def ideAt (s : State) (p i : Nat) : IdeStream := smGet {} s.prot.ide (16 * p + i)

/-- Whether the CXL.cachemem stream of a port is Secure. -/
def ideSecure (s : State) (p : Nat) : Bool := (ideAt s p 8).state == .secure

/-- The keys of one set of a stream entry (R208): transmit and receive for each of PR, NPR and CPL of a CXL.io stream (slot
3 * direction + sub-stream), one transmit and one receive key of the CXL.cachemem stream. -/
def ideSlots (i : Nat) : Nat := if i = 8 then 2 else 6

/-- Whether a port has a stream entry: the selective streams end at the Internal Memory Endpoint, so they are an upstream
port's only (Table 7.9). -/
def ideHas (s : State) (p i : Nat) : Bool := decide (i = 0) || decide (i = 8) || portRole s p == 1

/-- A key set of a stream is programmed, set to go, or stopped, over an SPDM session that Keeper terminates:
0 KEY_PROG, 1 K_SET_GO, 2 K_SET_STOP. -/
def ideKeyMessage (p i op set slot : Nat) (key : BitVec 256) (s : State) : State :=
  if keyStatusFree s ∧ s.world.spdm.contains p ∧ ideHas s p i ∧ (op = 0 → slot < ideSlots i) then
    modProt (fun x => { x with ide := smMod {} x.ide (16 * p + i) fun e =>
      match op with
      | 0 => { e with keys := smSet e.keys (16 * set + slot) key, state := if e.state = .secure then .secure else .keyed }
      | 1 => if e.keys.any (fun k => k.1 / 16 == set) then { e with state := .secure, keySet := set } else e
      | _ => {} }) s
  else s
where
  /-- Whether Keeper runs. -/
  keyStatusFree (s : State) : Bool := keeperStatus s == none

/-- A stream leaves the Secure state: its keys are zeroed (R208). -/
def ideInsecure (p i : Nat) (s : State) : State :=
  modProt (fun x => { x with ide := smPut {} x.ide (16 * p + i) { state := .insecure } }) s

/-- A port goes down: the keys of all its streams are zeroed (R208). -/
def ideClear (p : Nat) (s : State) : State :=
  modProt (fun x => { x with ide := smFilter (fun k _ => k / 16 != p) x.ide }) s

/-- A session of SPDM 1.3 is open on a port from now on. -/
def spdmOpen (p : Nat) (s : State) : State :=
  if s.world.spdm.contains p then s else modWorld (fun w => { w with spdm := w.spdm ++ [p] }) s

/-- The measurement blocks of registers in a `MEASUREMENTS` response: register `n` is index `n` + 1 (13 R341). The layout and the
codes of SPDM 1.3 are log 161. -/
def measBlocks (s : State) (l : List Nat) : List Byte :=
  l.flatMap fun n => leBytes 1 (n + 1) ++ leBytes 1 1 ++ leBytes 2 51 ++ leBytes 1 (Config.freeBits s.fresh) ++ leBytes 2 48 ++
    beBytes 48 (measReg s n).toNat

/-- The answer to `GET_MEASUREMENTS`: how many indices there are, or the register of one, or all; signed with the device
identity key where the request asks for it (13 R341, R342). -/
def measAnswer (req : List Byte) (s : State) : List Byte :=
  let op := (nth 0#8 req 3).toNat
  let l := if op = 255 then below 8 else (below 8).filter (· + 1 = op)
  let body := leBytes 1 0x13 ++ leBytes 1 0x60 ++ leBytes 1 (if op = 0 then 8 else 0) ++ leBytes 1 0 ++ leBytes 1 l.length ++
    leBytes 3 (measBlocks s l).length ++ measBlocks s l ++ fit 0#8 32 (Config.standardPayload 0x60 s.fresh) ++ leBytes 2 0
  body ++ (if bitOf (nth 0#8 req 2).toNat 0 then fit 0#8 96 (Config.identitySign s.sl.fuseSeed (req ++ body)) else [])

/-- The answer to `GET_CERTIFICATE`: the part of the chain that is asked for (13 R342). -/
def certAnswer (req : List Byte) (s : State) : List Byte :=
  let chain := Config.certificates s.sl.fuseSeed
  let off := leNat (slice 4 2 req)
  let part := slice off (leNat (slice 6 2 req)) chain
  leBytes 1 0x13 ++ leBytes 1 0x02 ++ slice 2 1 req ++ leBytes 1 0 ++ leBytes 2 part.length ++
    leBytes 2 (chain.length - off - part.length) ++ part

/-- What Keeper answers to an SPDM request: the bytes of any other one are left to the standard (free). -/
def spdmAnswer (req : List Byte) (s : State) : List Byte :=
  match (nth 0#8 req 1).toNat with
  | 0xE0 => measAnswer req s
  | 0x82 => certAnswer req s
  | _ => Config.standardPayload (leNat (req.take 2)) s.fresh

/-- An SPDM message on a port's DOE (R207, Table 7.9). On an upstream port Keeper is the responder: the request is served,
Busy while Keeper does not run. On a downstream port it is the requester: the message answers its own request, opens the
session where it completes the handshake, and is not answered (log 135). -/
def spdmRequest (p : Nat) (req : List Byte) (opens : Bool) (s : State) : State :=
  match portRole s p, keeperStatus s with
  | 1, some _ => emit (.mailbox p 2 []) s
  | 1, none =>
    emit (.mailbox p 0 (spdmAnswer req s)) (afterDraw (onlyIf opens (spdmOpen p) s))
  | 2, none => onlyIf opens (spdmOpen p) s
  | _, _ => s

/-! ### Commands -/

/-- SPDM_REQUEST (R207). -/
def execSpdmRequest (p : PortId) (req : List Byte) (opens : Bool) (s : State) : Out :=
  .next (spdmRequest p.val req opens s)
/-- IDE_KM (R208). -/
def execIdeKm (p : PortId) (i : Fin 9) (op : Fin 3) (set : Fin 2) (slot : Fin 6) (key : BitVec 256) (s : State) : Out :=
  .next (ideKeyMessage p.val i.val op.val set.val slot.val key s)

end Sys2Proof.Machine
end

