-- ==== Sys2Proof/Machine/Wakes.lean ====
section
/-! DEFINITION. Wakes, and the engines that wake on use (16 R398, R403-R405). -/

namespace Sys2Proof.Machine

/-! ### Wakes (R403-R405) -/

/-- `PS_LAST_WAKE`: source, abort point, timebase in microseconds. -/
def recordWake (source point : Nat) (s : State) : State :=
  modPs (fun p => { p with lastWake := source + point * 2 ^ 8 + (s.slTime / 1000 % 2 ^ 64) * 2 ^ 64 }) s

/-- One of the six `PS_COUNTS` grows. -/
def bumpPs (i : Nat) (s : State) : State := modPs (fun p => { p with counts := bump 32 p.counts i 1 }) s

/-- Whether a wake that comes during step 6 is kept (Table 16.5): the timer and Courier. -/
def wakeLatches (source : Nat) : Bool := source == 3 || source == 4

/-- A wake source acts (Table 16.5): 1 port, 2 doorbell, 3 timer, 4 Courier, 5 presence, 6 hot-swap
alert, 8 vote. Before step 6 it aborts the entry, during step 6 only what is latched is kept, and from then on, in
`NIGHT` or `OFF`, it wakes, unless it is a source only of powered dies. -/
def wake (source : Nat) (s : State) : State :=
  match s.ps.state with
  | .entering =>
    if s.ps.entryStep < 6 then modPs (fun p => { p with abort := p.abort.or (some source) }) s
    else if wakeLatches source ∨ (7 ≤ s.ps.entryStep ∧ source ≠ 1 ∧ source ≠ 2) then modPs (fun p => { p with latchedWake := p.latchedWake.or (some source) }) s
    else s
  | .night | .off =>
    if source = 1 ∨ source = 2 ∨ s.hs.state ≠ (if s.ps.state = .night then .on else .parked) then s
    else modPs (fun p => { p with latchedWake := p.latchedWake.or (some source) }) s
  | _ => s

/-- The engines of every memory die: unit numbers 112 to 271. -/
def allEngines : List Nat := (below 160).map (· + 112)

/-- `RUN`, or `DROWSE`, which shows in its place while every engine is gated (R394). -/
def runState (s : State) : PsState := if allEngines.all (s.ps.gated.contains ·) then .drowse else .run

/-- A port's vote rises to `RUN`: the device leaves `IDLE` at once (R396, R398), and training start, L1 exit and any request
are wake sources (Table 16.5). -/
def portVotesRun (s : State) : State :=
  wake 1 (if s.ps.state = .idle then psEnter (runState s) (modPs (fun p => { p with target := 3 }) s) else s)

/-- A request on a port takes its link out of L1, and is a wake source (Table 16.5). -/
def portActivity (p : Nat) (s : State) : State :=
  if (portAt s p).link = .up then portVotesRun (modPortAt p (fun x => { x with inL1 := false }) s) else s

/-! ### Engines (R398) -/

/-- An engine's next operation wakes it: `RUN` shows again. -/
def engineWake (u : Nat) (s : State) : State :=
  if s.ps.gated.contains u then
    let s1 := modPs (fun p => { p with gated := p.gated.filter (· ≠ u) }) s
    if s.ps.state = .drowse then psEnter .run s1 else s1
  else s

/-- An operation takes an engine of a class on a memory die: one that runs where there is one, else the lowest gated one
wakes. The class is given by its first unit number of the die and its size. -/
def engineUse (base size : Nat) (s : State) : State :=
  let own := ((below size).map (base + ·)).filter (unitAdmits s)
  if own.any (fun u => !s.ps.gated.contains u) then s
  else match own with
    | [] => s
    | u :: _ => engineWake u s

/-- Whether an engine takes an operation; one that rejoins has one at a time (14 Table 14.5). -/
def engineOpen (s : State) (u : Nat) : Bool :=
  unitAdmits s u && !((unitAt s u).state == .rejoining && s.tier.moves.any fun e => e.2.engine == some u)

/-- Whether a class has an engine that takes work. -/
def engineThere (base size : Nat) (s : State) : Bool := (below size).any fun i => engineOpen s (base + i)

/-- The engine of a class that an operation which failed ran on: any one that takes work (log 6). -/
def engineDrawn (base size : Nat) (s : State) : Nat :=
  let own := ((below size).map (base + ·)).filter (engineOpen s)
  nth base own (Config.freeBits s.fresh % max 1 own.length)

/-- An engine of a class other than `avoid` takes an operation, where another serves: its number, and whether it errs on this
operation, a free value (log 133). -/
def drawEngine (base size avoid : Nat) (s : State) : (Nat × Bool) × State :=
  let own := ((below size).map (base + ·)).filter fun u => unitAdmits s u && u != avoid
  ((nth avoid own (Config.freeBits s.fresh % max 1 own.length), Config.engineErrs (s.fresh + 1)), afterDraw (afterDraw s))

/-- The body of a kind-7 record: new state, cause. -/
def unitBody (st cause : Nat) : Nat := st + cause * 256

/-- A unit is put out of service: recorded, logged with a Courier alert, and told to the view of `FM_PORT`
(14 Table 14.9). -/
def unitOut (u cause : Nat) (s : State) : State :=
  let sev := if 372 ≤ u then 4 else 3
  noticeFmPort u 2 (logEvent 7 u sev none (unitBody 2 cause)
    (modUnitRec u (fun r => { r with state := .outOfService, cause := cause, step := 0 }) s))

/-- An engine found to have erred leaves service with status `FAULT` (05 R155, 07 R197); a move it works on aborts (04
R107). -/
def engineOut (u : Nat) (s : State) : State :=
  if (unitAt s u).state = .outOfService then s else recomputeD (unitOut u 3 s)

/-- A compressor of die `d` works. -/
def useCompressor (d : Nat) (s : State) : State := engineUse (112 + 8 * d) 8 s
/-- A decompressor of die `d` works. -/
def useDecompressor (d : Nat) (s : State) : State := engineUse (144 + 16 * d) 16 s
/-- A crypto engine of die `d` works. -/
def useCrypto (d : Nat) (s : State) : State := engineUse (208 + 16 * d) 16 s

end Sys2Proof.Machine
end

