-- ==== Sys2Proof/Machine/Space.lean ====
section
/-! DEFINITION. The contents of the DIMMs, physical space and capacity (03 R75-R80, R86; 04 R111-R115). -/

namespace Sys2Proof.Machine

/-! ### The contents of the DIMMs -/

/-- What a byte of DRAM that nothing has written reads as (log 3). -/
def dramDefault : Byte := 0x00#8

/-- The address of a byte: die, frame, byte of the frame. -/
def dramAddress (d f o : Nat) : Nat := d * 2 ^ 44 + f * 4096 + o

/-- One byte of DRAM. -/
def dramByte (m : List Host.Cell) (a : Nat) : Byte := smGet dramDefault m a

/-- One byte written; the form stays canonical. -/
def dramPut (m : List Host.Cell) (a : Nat) (v : Byte) : List Host.Cell := smPut dramDefault m a v

/-- Bytes written from an address on. -/
def dramPutAll (m : List Host.Cell) : Nat → List Byte → List Host.Cell
  | _, [] => m
  | a, b :: bs => dramPutAll (dramPut m a b) (a + 1) bs

/-- The canonical form: addresses strictly rising, no byte listed that reads the same unlisted. -/
def Memory.wf (m : List Host.Cell) : Bool := smWf dramDefault m

/-- `n` bytes of DRAM from an address. -/
def dramBytes (s : State) (a n : Nat) : List Byte := (below n).map fun i => dramByte s.space.dram (a + i)

/-- The metadata of a line: bit 0 `POISON`, bit 1 `TIER_HINT`. -/
def markAt (s : State) (d f i : Nat) : Nat := smGet 0 s.space.marks (d * 2 ^ 36 + f * 64 + i)

/-- A line as the DIMM holds it. -/
def rawLine (s : State) (d f i : Nat) : RawLine :=
  ⟨BitVec.ofNat 512 (leNat (dramBytes s (dramAddress d f (64 * i)) 64)), bitOf (markAt s d f i) 0, bitOf (markAt s d f i) 1⟩

/-- A line stored on the DIMM. -/
def storeRaw (d f i : Nat) (l : RawLine) (s : State) : State :=
  modSpace (fun x => { x with
    dram := dramPutAll x.dram (dramAddress d f (64 * i)) (leBytes 64 l.bytes.toNat)
    marks := smPut 0 x.marks (d * 2 ^ 36 + f * 64 + i) (bNat l.poison + 2 * bNat l.hint) }) s

/-- The writes queued on a die for lines that meet a test are overtaken. -/
def dropRaw (d : Nat) (test : Nat → Nat → Bool) (s : State) : State :=
  modCh (fun m => m.map fun e =>
    if e.1 / 8 = d then (e.1, { e.2 with writes := e.2.writes.filter fun w => !test w.frame w.line }) else e) s

/-- Frames blanked: zero data, no metadata (11 R305). -/
def blankFrames (d f n : Nat) (s : State) : State :=
  dropRaw d (fun g _ => decide (f ≤ g ∧ g < f + n)) <| modSpace (fun x => { x with
    dram := x.dram.filter fun e => decide (e.1 < dramAddress d f 0) || decide (dramAddress d (f + n) 0 ≤ e.1)
    marks := x.marks.filter fun e => decide (e.1 < d * 2 ^ 36 + f * 64) || decide (d * 2 ^ 36 + (f + n) * 64 ≤ e.1) }) s

/-- Slots blanked. -/
def blankSlots (d slot n : Nat) (s : State) : State :=
  let a := d * 2 ^ 44 + slot * 256
  dropRaw d (fun g i => decide (slot * 4 ≤ g * 64 + i ∧ g * 64 + i < (slot + n) * 4)) <| modSpace (fun x => { x with
    dram := x.dram.filter fun e => decide (e.1 < a) || decide (a + 256 * n ≤ e.1)
    marks := x.marks.filter fun e => decide (e.1 < d * 2 ^ 36 + slot * 4) || decide (d * 2 ^ 36 + (slot + n) * 4 ≤ e.1) }) s

/-! ### Geometry of a die -/

/-- The geometry of a channel as declared. -/
def chanGeometry (s : State) (c : Nat) : Option Geometry :=
  geometry (chanP s c P.CH_MODULES) (chanP s c P.CH_MODULE_CODE) (chanP s c P.CH_RANKS)

/-- The bytes of a channel as declared. -/
def chanBytes (s : State) (c : Nat) : Nat :=
  match chanGeometry s c with
  | some g => g.bytes
  | none => 0

/-- Whether a channel's DRAM counts as installed: trained, its wing shuttered or not. -/
def chanInstalled (s : State) (c : Nat) : Bool :=
  unitServes s (64 + c) &&
    ((chanAt s c).state == .active || (chanAt s c).state == .selfRefresh || (chanAt s c).state == .off ||
      ((chanAt s c).state == .training && (wingAt s (c / 2)).state == .reopening))

/-- Whether a wing has left service on a fault (14 Table 14.3, 15 R389). -/
def wingFaulted (s : State) (w : Nat) : Bool :=
  (unitAt s (96 + w)).state == .outOfService && (unitAt s (96 + w)).cause != 4 && (unitAt s (96 + w)).cause != 5

/-- Whether every read of a channel's lines is uncorrectable. -/
def chanDead (s : State) (c : Nat) : Bool := (chanAt s c).state == .failed || wingFaulted s (c / 2)

/-! ### Retired frames (11 R314, R317) -/

/-- Whether an entry of a die's retired list, with its frame, covers a frame. -/
def entryCovers (s : State) (entry frame f : Nat) : Bool :=
  if bitOf entry 37 then f == frame
  else
    let c := entry % 256
    match chanGeometry s c with
    | none => false
    | some g =>
      let a := dramAddr g (f % 2 ^ 28 * 32)
      decide (f / 2 ^ 28 = c / 2 % 4) && a.bank == bitsOf entry 15 2 && a.rank == bitsOf entry 10 2 &&
        a.modl == bitsOf entry 9 1 && (bitOf entry 17 || a.row == bitsOf entry 18 18)

/-- Whether a frame of a die is retired. -/
def frameRetired (s : State) (d f : Nat) : Bool :=
  (smGet [] s.space.retired d).any fun e => entryCovers s e.1 e.2 f

/-- Whether a stretch holds a retired frame. -/
def spanRetired (s : State) (d f len : Nat) : Bool :=
  (smGet [] s.space.retired d) != [] && (below len).any fun i => frameRetired s d (f + i)

/-- Whether a data frame of a sealed group is retired, or lies with its metadata block in a retired one (07 R186). -/
def groupDataRetired (s : State) (d g i : Nat) : Bool :=
  frameRetired s d (g + i) || frameRetired s d (g + 70 + i * 576 / 4096) || frameRetired s d (g + 70 + (i * 576 + 575) / 4096)

/-- The frames of a wing. -/
def wingFrames (s : State) (w : Nat) : Nat :=
  if chanInstalled s (2 * w) && chanInstalled s (2 * w + 1) then 2 * chanBytes s (2 * w) / 4096 else 0

/-! ### Uses -/

/-- The uses of a wing, in ascending frame order within the wing: first frame, use. -/
def wingUses (s : State) (w : Nat) : List (Nat × Use) :=
  let lo := (w / 4) * 2 ^ 30 + (w % 4) * 2 ^ 28
  (s.space.uses.filter fun e => decide (lo ≤ e.1) && decide (e.1 < lo + 2 ^ 28)).map fun e => (e.1 - lo, e.2)

/-- The key of a use: die, frame. -/
def useKey (d f : Nat) : Nat := d * 2 ^ 30 + f

/-- A number rounded up to a multiple. -/
def roundUp (n a : Nat) : Nat := (n + a - 1) / a * a

/-- The first gap of `len` aligned frames from `c` on. -/
def gapFind (len align : Nat) : Nat → List (Nat × Use) → Nat
  | c, [] => c
  | c, e :: rest =>
    if e.1 + e.2.len ≤ c then gapFind len align c rest
    else if c + len ≤ e.1 then c
    else gapFind len align (roundUp (e.1 + e.2.len) align) rest

/-- The first blanked free stretch of a wing, as a frame number of the die. -/
def freeIn (s : State) (w len align : Nat) : Option Nat :=
  let c := gapFind len align 0 (wingUses s w)
  if c + len ≤ min (smGet 0 s.space.passed w) (wingFrames s w) then some ((w % 4) * 2 ^ 28 + c) else none

/-- The `OPEN` wings of a die in ascending order. -/
def openWings (s : State) (d : Nat) : List Nat :=
  ((below 4).map (· + 4 * d)).filter fun w => (wingAt s w).state == .openW && decide (0 < wingFrames s w)

/-- The first blanked free stretch of a die's `OPEN` wings. -/
def freeOn (s : State) (d len align : Nat) : Option Nat := (openWings s d).findSome? fun w => freeIn s w len align

/-- A use recorded. -/
def setUse (d f : Nat) (u : Use) (s : State) : State :=
  modSpace (fun x => { x with uses := smSet x.uses (useKey d f) u }) s

/-- The use that covers a frame: its first frame, and it. -/
def useAt (s : State) (d f : Nat) : Option (Nat × Use) :=
  (s.space.uses.find? fun e => decide (e.1 ≤ useKey d f) && decide (useKey d f < e.1 + e.2.len)).map fun e =>
    (e.1 % 2 ^ 30, e.2)

/-- A stretch freed: it waits to be blanked (R86), behind what was freed before it. -/
def queueBlank (d f : Nat) (b : BlankItem) (s : State) : State :=
  modSpace (fun x => { x with blankQ := smMod [] x.blankQ (4 * d + f / 2 ^ 28) (· ++ [b]) }) s

/-! ### Allocation (R113, R114, 07 R186) -/

/-- A frame for a page: from a sealed group with a free data frame, or a new group, where the lodging is sealed. -/
def allocFrame (d n p : Nat) (isSealed : Bool) (s : State) : Option (Nat × State) :=
  if isSealed then
    let got := (openWings s d).findSome? fun w => (wingUses s w).findSome? fun e => match e.2.kind with
      | .group fr => (firstBelow 70 fun i => (smFind fr i).isNone && !groupDataRetired s d ((w % 4) * 2 ^ 28 + e.1) i).map fun i => ((w % 4) * 2 ^ 28 + e.1, fr, i)
      | _ => none
    match got with
    | some (g, fr, i) => some (g + i, setUse d g ⟨80, .group (smSet fr i (some (n, p)))⟩ s)
    | none => match freeOn s d 80 80 with
      | some g => some (g, setUse d g ⟨80, .group [(0, some (n, p))]⟩ s)
      | none => none
  else match freeOn s d 1 1 with
    | some f => some (f, setUse d f ⟨1, .page n p⟩ s)
    | none => none

/-- The runs of a slab of class `k` (Table 4.3). -/
def slabRuns (k : Nat) : Nat := 256 / k

/-- How many runs of a slab hold a page. -/
def liveRuns (runs : SMap (Option (Nat × Nat))) : Nat := (runs.filter fun r => r.2.isSome).length

/-- The partial class-`k` slab of a wing with the most live runs that has a free one; of several with as many, the one
with the lowest frame (log 123). -/
def partialSlab (s : State) (w k : Nat) (avoid : Option Nat) : Option (Nat × SMap (Option (Nat × Nat))) :=
  (wingUses s w).foldl (fun best e => match e.2.kind with
    | .slab k' runs =>
      if k' = k ∧ avoid ≠ some ((w % 4) * 2 ^ 28 + e.1) ∧ runs.length < slabRuns k ∧ spanRetired s (w / 4) ((w % 4) * 2 ^ 28 + e.1) 16 = false then
        (match best with
         | none => some ((w % 4) * 2 ^ 28 + e.1, runs)
         | some b => if liveRuns b.2 < liveRuns runs then some ((w % 4) * 2 ^ 28 + e.1, runs) else best)
      else best
    | _ => best) none

/-- A run of class `k` for a page, as its first slot (R114). -/
def allocRun (d n p k : Nat) (avoid : Option Nat) (s : State) : Option (Nat × State) :=
  match (openWings s d).findSome? fun w => partialSlab s w k avoid with
  | some (f, runs) =>
    (match firstBelow (slabRuns k) fun j => (smFind runs j).isNone with
     | some j => some (f * 16 + j * k, setUse d f ⟨16, .slab k (smSet runs j (some (n, p)))⟩ s)
     | none => none)
  | none => match freeOn s d 16 16 with
    | some f => some (f * 16, setUse d f ⟨16, .slab k [(0, some (n, p))]⟩ s)
    | none => none

/-- A page's frame is freed and waits for blanking; with the last data frame of a sealed group its 80 frames do (07 R186). -/
def freeFrame (d f : Nat) (s : State) : State :=
  match useAt s d f with
  | some (g, ⟨_, .group fr⟩) =>
    let left := smSet fr (f - g) none
    if left.all (fun e => e.2.isNone) then queueBlank d g (.frames g 80) (setUse d g ⟨80, .blanking⟩ s)
    else queueBlank d g (.data g (f - g)) (setUse d g ⟨80, .group left⟩ s)
  | some (_, ⟨_, .page _ _⟩) => queueBlank d f (.frames f 1) (setUse d f ⟨1, .blanking⟩ s)
  | _ => s

/-- A page's slot run is freed and waits for blanking; with a slab's last live run its 16 frames do (R114). -/
def freeRun (d slot : Nat) (s : State) : State :=
  match useAt s d (slot / 16) with
  | some (f, ⟨_, .slab k runs⟩) =>
    let left := smSet runs ((slot - f * 16) / k) none
    if liveRuns left = 0 then queueBlank d f (.frames f 16) (setUse d f ⟨16, .blanking⟩ s)
    else queueBlank d f (.run f k ((slot - f * 16) / k)) (setUse d f ⟨16, .slab k left⟩ s)
  | _ => s

/-- The slots of an image of `len` bytes. -/
def slotsOf (len : Nat) : Nat := (len + 255) / 256

/-! ### Blanking (R86) -/

/-- One freed stretch has been blanked: it may be handed out again, and an empty sealed group goes back whole. A run whose
slab has gone back meanwhile is blanked with the slab's frames. -/
def blankItem (d : Nat) (b : BlankItem) (s : State) : State :=
  match b with
  | .frames f n =>
    let s1 := modSpace (fun x => { x with uses := smErase x.uses (useKey d f) }) (blankFrames d f n s)
    if spanRetired s d f n then
      forAll ((below n).filter fun i => frameRetired s d (f + i)) (fun i t => setUse d (f + i) ⟨1, .retired⟩ t) s1
    else s1
  | .run f k j =>
    (match useAt s d f with
     | some (_, ⟨_, .slab _ runs⟩) => setUse d f ⟨16, .slab k (smErase runs j)⟩ (blankSlots d (f * 16 + j * k) k s)
     | _ => s)
  | .data g i =>
    (match useAt s d g with
     | some (_, ⟨_, .group fr⟩) =>
       setUse d g ⟨80, .group (smErase fr i)⟩ (blankFrames d (g + i) 1 s)
     | _ => s)
  | .copy f => blankFrames d f 8 s

/-- Reserved regions that wait take the first blanked free frames, in order (04 R115). -/
def regionsTake (s : State) : State :=
  let q := s.space.wants.foldl (fun q w =>
    match freeOn q.1 w.die w.len w.align with
    | some f => (setUse w.die f ⟨w.len, .region w.what w.slot⟩ q.1, q.2)
    | none => (q.1, q.2 ++ [w])) (modSpace (fun x => { x with wants := [] }) s, ([] : List RegionWant))
  modSpace (fun x => { x with wants := q.2 }) q.1

/-- The stretches of `[a, b)` that no use covers. -/
def gapsIn (a b : Nat) : List (Nat × Use) → List (Nat × Nat)
  | [] => if a < b then [(a, b - a)] else []
  | e :: rest =>
    (if a < min b e.1 then [(a, min b e.1 - a)] else []) ++ gapsIn (max a (e.1 + e.2.len)) b rest

/-- Blanking goes on in a wing: the pass after training reaches `to` frames, or the oldest freed stretch is done. -/
def blankStep (w : Nat) (tgt : Option Nat) (s : State) : State :=
  match tgt with
  | some n =>
    let old := smGet 0 s.space.passed w
    let n := min n (wingFrames s w)
    if n ≤ old then s
    else
      regionsTake (modSpace (fun x => { x with passed := smSet x.passed w n })
        (forAll (gapsIn old n (wingUses s w)) (fun g => blankFrames (w / 4) ((w % 4) * 2 ^ 28 + g.1) g.2) s))
  | none =>
    match smGet [] s.space.blankQ w with
    | [] => s
    | b :: rest =>
      regionsTake (blankItem (w / 4) b (modSpace (fun x => { x with blankQ := smPut [] x.blankQ w rest }) s))

/-! ### Capacity (R75-R77) -/

/-- The installed capacity I_d in bytes. -/
def installed (s : State) (d : Nat) : Nat :=
  let all := ((below 8).map (· + 8 * d)).foldl (fun a c => if chanInstalled s c then a + chanBytes s c else a) 0
  let inJob (f : Nat) : Bool := match s.space.retireJob with
    | some (x, l, _) => x == d && l.any fun (q : Nat × Nat) => decide (q.1 ≤ f) && decide (f < q.1 + q.2)
    | none => false
  let gone := s.space.uses.foldl (fun a e =>
    let w := 4 * d + e.1 % 2 ^ 30 / 2 ^ 28
    let part := 2048 * (bNat (chanInstalled s (2 * w)) + bNat (chanInstalled s (2 * w + 1)))
    if e.1 / 2 ^ 30 ≠ d ∨ inJob (e.1 % 2 ^ 30) then a
    else match e.2.kind with
      | .retired => a + e.2.len * part
      | .group _ => a + ((below 80).filter fun i => frameRetired s d (e.1 % 2 ^ 30 + i)).length * part
      | _ => a) 0
  all - gone

/-- The reserved space R_d in bytes. -/
def reservedSpace (s : State) (d : Nat) : Nat :=
  s.lod.slots.foldl (fun a e => a + (if e.2.isSealed then 1536 else 512) * 1024)
    ((3 + 32 + 64 + (if d % 2 = 0 then 2 else 0)) * 2 ^ 20)

/-- C_d: usable; below 0 where the installed capacity falls short of what is reserved. -/
def usable (s : State) (d : Nat) : Int := (installed s d : Int) - (reservedSpace s d : Int)

/-- U_{L,d}. -/
def usedOn (s : State) (n d : Nat) : Nat := smGet 0 (lodgeAt s n).used d

/-- F_d: free. Space that is stranded is not free. -/
def freeSpace (s : State) (d : Nat) : Int :=
  usable s d - ((s.lod.lodges.foldl (fun a e => a + smGet 0 e.2.used d) 0 + smGet 0 s.lod.stranded d : Nat) : Int)

/-- f_L in bytes for one die. -/
def floorOn (s : State) (n : Nat) : Nat := lodgeP s n P.FLOOR * 2 ^ 26

/-- S_d: held back for lodgings below their floors. -/
def shortfall (s : State) (d : Nat) : Nat :=
  (liveLodges s).foldl (fun a n => a + (floorOn s n - usedOn s n d)) 0

/-- G_d, the shared free space, which a fall of I_d may make negative. -/
def sharedFree (s : State) (d : Nat) : Int := freeSpace s d - (shortfall s d : Int)

/-- The capacity stage (Table 3.7). -/
def stageOf (s : State) (d : Nat) : Nat :=
  let g := sharedFree s d * 100
  let c := usable s d
  if freeSpace s d < 4096 then 3 else if g < c then 2 else if g < 5 * c then 1 else 0

/-- Whether R78 admits an allocation of `b` bytes for a lodging on a die. -/
def allocAdmitted (s : State) (n d b : Nat) : Bool :=
  (decide (usedOn s n d + b ≤ floorOn s n) && decide ((b : Int) ≤ freeSpace s d)) ||
    decide (usable s d ≤ (sharedFree s d - (b : Int)) * 100)

/-- Whether floors and shared space hold on every die (R76). -/
def floorsHold (s : State) : Bool :=
  (below 4).all fun d =>
    decide ((((liveLodges s).foldl (fun a n => a + floorOn s n) 0 : Nat) : Int) ≤ usable s d) && decide (0 ≤ sharedFree s d)

/-- The bytes a frame of a lodging counts. -/
def frameBytes (isSealed : Bool) : Nat := if isSealed then 4672 else 4096

/-- A lodging takes or gives back bytes on a die. -/
def useBytes (n d : Nat) (plus minus : Nat) (s : State) : State :=
  modLodge n (fun l => { l with used := smPut 0 l.used d (smGet 0 l.used d + plus - minus) }) s

/-- The bytes lodgings hold in a wing. -/
def wingUsed (s : State) (w : Nat) : Nat :=
  (wingUses s w).foldl (fun a e => match e.2.kind with
    | .page _ _ => a + 4096
    | .slab k runs => a + liveRuns runs * k * 256
    | .group fr => a + (fr.filter fun r => r.2.isSome).length * 4672
    | _ => a) 0

/-- Whether a wing holds any part of the reserved regions. -/
def anchorWing (s : State) (w : Nat) : Bool :=
  (wingUses s w).any fun e => match e.2.kind with | .region _ _ => true | _ => false

/-- O_d: the free space of the `OPEN` wings, blanked or to be blanked. -/
def openFree (s : State) (d : Nat) : Nat :=
  (openWings s d).foldl (fun a w =>
    a + wingFrames s w * 4096 - (wingUses s w).foldl (fun b e => match e.2.kind with
      | .blanking => b
      | .slab k runs => b + liveRuns runs * k * 256
      | .group fr => b + (fr.filter fun r => r.2.isSome).length * 4096 + 10 * 4096
      | _ => b + e.2.len * 4096) 0) 0

/-- Release Capacity records for the accepted extents of a lodging that meet a test; how many ports' extents. -/
def releaseRecords (n : Nat) (p : Extent → Bool) (s : State) : State × Nat :=
  s.lod.extA.foldl (fun q e =>
    let xs := e.2.filter fun x => x.lodging == n && x.accepted && p x
    (forAll xs (fun x => putEvent e.1 4 (.capacity 1 x)) q.1, q.2 + xs.length)) (s, 0)

/-- Release requests for the `RELEASABLE` lodgings above their floor on a die (Table 3.7). -/
def askReleases (d : Nat) (s : State) : State :=
  forAll ((liveLodges s).filter fun n => lodgeAttr s n 4 && decide (floorOn s n < usedOn s n d))
    (fun n t => (releaseRecords n (fun _ => true) t).1) s

/-- The values group 0x0010 reports are brought up to date (R80), while the datapath is powered; a capacity below 0 reads
0 (log 124). -/
def capStatus (s : State) : State :=
  if s.ps.state = .night ∨ s.ps.state = .off then s else
  let one (d : Nat) (m : SMap Nat) : SMap Nat :=
    smPut 0 (smPut 0 (smPut 0 (smPut 0 m d (usable s d).toNat) (4 + d) (freeSpace s d).toNat) (8 + d) (smGet 0 s.lod.stage d))
      (12 + d) (shortfall s d)
  let m := (below 4).foldl (fun m d => if unitServes s (372 + d) then one d m else m) s.lod.status
  let live := liveLodges s
  modLod (fun l => { l with
    status := smPut 0 (smPut 0 (smPut 0 m 16 (live.foldl (fun a n => a + lodgeP s n P.FLOOR) 0))
      17 (live.foldl (fun a n => a + lodgeP s n P.LOGICAL_SIZE) 0))
      18 (l.stranded.foldl (fun a e => a + e.2) 0) }) s

/-- Whether a stage asks for releases on entry and while it lasts: `LOW` and `RESERVE` (Table 3.7). -/
def asksReleases (stage : Nat) : Bool := stage == 1 || stage == 2

/-- The stage of a die is evaluated anew (R77): a change raises an alert, at most one in 10 s, and brings the capacity
status up to date; entering `LOW` or `RESERVE` asks for releases. -/
def restage (d : Nat) (s : State) : State :=
  let old := smGet 0 s.lod.stage d
  let new := stageOf s d
  if new = old then s
  else
    let s1 := capStatus (modLod (fun l => { l with stage := smPut 0 l.stage d new }) s)
    let due := match smFind s.lod.stageAlert d with
      | some t => decide (t + 10 ^ 10 ≤ dieTime s (4 + d))
      | none => true
    let s2 := if due then raiseAlert 2 0 0 0 (d + 4 * new)
        (modLod (fun l => { l with stageAlert := smSet l.stageAlert d (dieTime s (4 + d)) }) s1) else s1
    if asksReleases new then askReleases d s2 else s2

/-- The installed capacity of a die has fallen (R76): its stage is set anew, and an alert raised where its shared free space is
negative. -/
def installedFell (d : Nat) (s : State) : State :=
  let s1 := restage d s
  if sharedFree s1 d < 0 then logPlain 14 1 s1 else s1

/-- `CAP_RELEASE_REPEAT` (R77). -/
def capReleaseRepeat (d : Nat) (s : State) : State :=
  if asksReleases (smGet 0 s.lod.stage d) then askReleases d s else s

/-! ### Commands -/

/-- CAP_STATUS_UPDATE (R80). -/
def execCapStatusUpdate (s : State) : Out := .next (capStatus s)
/-- CAP_RELEASE_REPEAT (R77). -/
def execCapReleaseRepeat (d : MemDie) (s : State) : Out := .next (capReleaseRepeat d.val s)

end Sys2Proof.Machine
end

