-- ==== Sys2Proof/Machine/Pages.lean ====
section
/-! DEFINITION. Page descriptors, counters of sealed pages, the Landing cache, and the write queues
(03 R69-R74; 04 R88-R98; 07 R184-R196; 11 R295, R308). -/

namespace Sys2Proof.Machine

/-! ### Descriptors (R69-R71) -/

/-- The granule slot of a page's granule. -/
def slotOf (s : State) (n p : Nat) : Option Nat := smFind (lodgeAt s n).slots (p / 65536)

/-- The descriptor of a page: what was last written, else what its granule was written with. -/
def descAt (s : State) (n p : Nat) : Option Desc :=
  match slotOf s n p with
  | none => none
  | some m => some ((smFind s.prot.desc (pageKey n p)).getD (smGet {} s.prot.base (4 * m + homeDie n p)))

/-- `HWM_d` takes a counter that has been written (07 R188). -/
def hwmNote (d v : Nat) (s : State) : State :=
  modProt (fun x => { x with hwm := smPut 0 x.hwm d (max v (smGet 0 x.hwm d)) }) s

/-! ### The numbers of the counter tree (07 R187, R190) -/

/-- The tree half and number within it of leaf `j`. -/
def leafPlace (j : Nat) : Nat × Nat := if j < 16807 then (0, j) else (1, j - 16807)
/-- The leaf that is a page's descriptor line. -/
def descLeaf (p : Nat) : Nat := bitsOf p 3 13
/-- The leaf that is a page's counter line. -/
def ctrLeaf (p : Nat) : Nat := 8192 + bitsOf p 2 14
/-- The identity of a node; a leaf stands as level 0. -/
def nodeId (d m h level k : Nat) : Nat := d * 2 ^ 40 + m * 2 ^ 22 + h * 2 ^ 21 + level * 2 ^ 18 + k
/-- The identity a leaf tag binds. -/
def leafId (d m h i : Nat) : Nat := d * 2 ^ 34 + m * 2 ^ 16 + h * 2 ^ 15 + i

/-- A node or leaf becomes dirty on chip. -/
def markDirty (id : Nat) (s : State) : State :=
  modProt (fun x => { x with dirty := x.dirty.filter (· ≠ id) ++ [id] }) s

/-- A descriptor is written; on a sealed lodging its line becomes a dirty leaf. A change of anything but `HEAT` and
`TOUCH_EPOCH` counts (04 R98). -/
def setDesc (n p : Nat) (x : Desc) (s : State) : State :=
  let d := homeDie n p
  let s1 := hwmNote d x.version (modProt (fun q => { q with desc := smSet q.desc (pageKey n p) x }) s)
  match slotOf s n p with
  | none => s1
  | some m =>
    let same := match descAt s n p with
      | some o => { o with heat := x.heat, touch := x.touch } == x
      | none => false
    if x.isSealed && !same then
      (let q := leafPlace (descLeaf p)
       markDirty (nodeId d m q.1 0 q.2) s1)
    else s1

/-- The descriptor recorded when a page was locked is changed as the page's own is (04 R105). -/
def lockedSays (n p : Nat) (f : Desc → Desc) (s : State) : State :=
  let d := homeDie n p
  let ofMove (m : Move) : Move := if m.req.n = n ∧ m.req.p = p ∧ m.pess = true then { m with pre := f m.pre } else m
  let ofVisit (k : Nat) (r : Rekey) : Rekey :=
    if k = n ∧ (smFind r.asking d) = some p then
      { r with locked := r.locked.map fun x => (x.1, if x.1 = d then f x.2 else x.2) }
    else r
  modTier (fun t => { t with moves := t.moves.map fun e => (e.1, ofMove e.2) })
    (modProt (fun q => { q with rekeys := q.rekeys.map fun e => (e.1, ofVisit e.1 e.2) }) s)

/-! ### The Landing cache (04 R89-R94) -/

/-- The first key of the set a line belongs to. -/
def lcSet (n p i : Nat) : Nat :=
  (49152 * homeDie n p + 3072 * (homeSlice n p % 16) + (pageKey n p * 64 + i) % 3072) * 16

/-- The way that holds a line. -/
def lcFind (s : State) (n p i : Nat) : Option (Nat × LcLine) :=
  (below 16).findSome? fun w => match smFind s.lc (lcSet n p i + w) with
    | some l => if l.lodging = n ∧ l.page = p ∧ l.line = i then some (lcSet n p i + w, l) else none
    | none => none

/-- A way written. -/
def lcPut (k : Nat) (l : LcLine) (s : State) : State := modLc (fun m => smSet m k l) s

/-- A hit: re-reference value 0. -/
def lcTouch (k : Nat) (l : LcLine) (s : State) : State := lcPut k { l with rrpv := 0 } s

/-- O_{g,d}: the lines of a share group in a die's cache. -/
def groupLines (s : State) (g d : Nat) : Nat :=
  (s.lc.filter fun e => decide (e.1 / (49152 * 16) = d) && e.2.group == g).length

/-- Whether a line is reserved to a group below its quota (10 R278). -/
def lcReserved (s : State) (d : Nat) (l : LcLine) : Bool :=
  let q := prow s l.group P.SG_LC_QUOTA * 4096
  q != 0 && decide (groupLines s l.group d ≤ q)

/-- Whether a slice serves its own addresses; its buddy serves them without Landing cache and directory (14 R364). -/
def sliceOwn (s : State) (slice : Nat) : Bool := unitServes s (280 + slice)

/-- The way a fill takes, after the ageing its search brings: an empty one, else the first candidate at re-reference
value 3 (R92); none where every line is `ATOMIC` or reserved. -/
def lcVictim (s : State) (set : Nat) : Option (Nat × Nat) :=
  let d := set / (49152 * 16)
  match firstBelow 15 fun w => (smFind s.lc (set + w)).isNone with
  | some w => some (set + w, 0)
  | none =>
    if (smFind s.lc (set + 15)).isNone then some (set + 15, 0)
    else
      let cands := (below 16).filterMap fun w => match smFind s.lc (set + w) with
        | some l => if l.state = .atomic ∨ lcReserved s d l then none else some (set + w, l.rrpv)
        | none => none
      match cands with
      | [] => none
      | _ =>
        let top := cands.foldl (fun a c => max a c.2) 0
        (cands.find? fun c => c.2 == top).map fun c => (c.1, 3 - top)

/-- Every candidate of a set ages. -/
def lcAge (set by_ : Nat) (s : State) : State :=
  if by_ = 0 then s
  else forAll (below 16) (fun w t => match smFind t.lc (set + w) with
    | some l => if l.state = .atomic ∨ lcReserved s (set / (49152 * 16)) l then t
        else lcPut (set + w) { l with rrpv := min 3 (l.rrpv + by_) } t
    | none => t) s

/-- The lines of a page that the cache holds. -/
def lcPage (s : State) (n p : Nat) : List (Nat × LcLine) := s.lc.filter fun e => e.2.lodging == n && e.2.page == p

/-- Whether a page has a line resident in the atomic bank. -/
def atomicHeld (s : State) (n p : Nat) : Bool := (lcPage s n p).any fun e => e.2.state == .atomic

/-- A page's lines are invalidated without write-back. -/
def lcDrop (n p : Nat) (s : State) : State :=
  modLc (fun m => m.filter fun e => !(e.2.lodging == n && e.2.page == p)) s

/-- Every line of a lodging is invalidated, those on their way out included (R94). -/
def lcDropLodging (n : Nat) (s : State) : State :=
  modTier (fun t => { t with evicted := t.evicted.filter fun l => l.lodging != n })
    (modLc (fun m => m.filter fun e => e.2.lodging != n) s)

/-! ### Watches (04 R104) -/

/-- What fires the watch of a move, or of a re-key engine's visit, has been ordered for a page. -/
def fireWatch (n p : Nat) (s : State) : State :=
  let d := homeDie n p
  let fires (e : Nat × Rekey) : Nat × Rekey :=
    if e.1 = n ∧ smFind e.2.asking d = some p ∧ e.2.fired.contains d = false then (e.1, { e.2 with fired := d :: e.2.fired })
    else e
  modProt (fun x => { x with rekeys := x.rekeys.map fires }) <| modTier (fun t => { t with moves := t.moves.map fun e =>
    if e.2.req.n = n ∧ e.2.req.p = p then (e.1, { e.2 with fired := true }) else e }) s

/-! ### Counters and tags of sealed pages (07 R185, R188, R196) -/

/-- The sector counters of a page. -/
def ctrOf (s : State) (n p : Nat) : List Nat := smGet (List.replicate 8 0) s.prot.ctr (pageKey n p)
/-- The line tags of a page. -/
def tagsOf (s : State) (n p : Nat) : List Nat := smGet (List.replicate 64 0) s.prot.tags (pageKey n p)

/-- A page's counter line becomes a dirty leaf. -/
def ctrDirty (n p : Nat) (s : State) : State :=
  match slotOf s n p with
  | none => s
  | some m =>
    let q := leafPlace (ctrLeaf p)
    markDirty (nodeId (homeDie n p) m q.1 0 q.2) s

/-- A sealed page enters `PLAIN`: every counter at `VERSION` + 1. -/
def countersStart (n p version : Nat) (s : State) : State :=
  ctrDirty n p <| hwmNote (homeDie n p) (version + 1) (modProt (fun x => { x with
    ctr := smSet x.ctr (pageKey n p) (List.replicate 8 (version + 1))
    tags := smSet x.tags (pageKey n p) (List.replicate 64 0) }) s)

/-- A sealed page leaves `PLAIN`: the largest counter it held. -/
def countersEnd (s : State) (n p : Nat) : Nat := (ctrOf s n p).foldl max 0

/-- The counters and tags of a page go with its frame. -/
def countersDrop (n p : Nat) (s : State) : State :=
  modProt (fun x => { x with ctr := smErase x.ctr (pageKey n p), tags := smErase x.tags (pageKey n p) }) s

/-- A list with one entry replaced. -/
def setNth {α : Type} (l : List α) (i : Nat) (v : α) : List α := l.take i ++ v :: l.drop (i + 1)

/-- The keys of a page: K1, K2, KT; none where its phase selects no installed secret. -/
structure PageKeys where
  k1 : List Byte
  k2 : List Byte
  kt : List Byte
deriving DecidableEq, Repr

/-- The keys a descriptor's phase selects (R203). -/
def pageKeys (s : State) (n p : Nat) (phase : Bool) : Option PageKeys :=
  (secretFor s (homeDie n p) n phase).map fun q => ⟨keyData q.1 n q.2, keyTweak q.1 n q.2, keyTag q.1 n q.2⟩

/-- A line encrypted or decrypted on its own: blocks 4i to 4i+3 of its sector (R182, R184). -/
def lineCrypt (enc : Bool) (k : PageKeys) (p i : Nat) (l : Line) : Line :=
  BitVec.ofNat 512 (leNat (xtsFrom enc k.k1 k.k2 (p * 8 + i / 8) (4 * (i % 8)) (leBytes 64 l.toNat)))

/-- The identity of a line tag (Table 7.4). -/
def lineTagId (p i : Nat) : Nat := (p * 8 + i / 8) * 8 + i % 8

/-- A line of a sealed page goes to DRAM (R196): its sector's counter rises, its tag is new, and the sector's other
tags take the pads of the new counter. -/
def sealLine (k : PageKeys) (n p i : Nat) (cipher : Line) (s : State) : State :=
  let c := nth 0 (ctrOf s n p) (i / 8)
  let tags := (tagsOf s n p).zip (below 64) |>.map fun q =>
    if q.2 = i then tagOf k.kt (leBytes 64 cipher.toNat) (c + 1) (lineTagId p i) 0
    else if q.2 / 8 = i / 8 then
      Nat.xor (Nat.xor q.1 (tagPad k.kt c (lineTagId p q.2) 0)) (tagPad k.kt (c + 1) (lineTagId p q.2) 0)
    else q.1
  ctrDirty n p (hwmNote (homeDie n p) (c + 1) (modProt (fun x => { x with
    ctr := smSet x.ctr (pageKey n p) (setNth (ctrOf s n p) (i / 8) (c + 1))
    tags := smSet x.tags (pageKey n p) tags }) s))

/-! ### A page is lost (R73) -/

/-- The global channel a line of a frame lies on. -/
def chanOf (d f i : Nat) : Nat := 8 * d + (placeLine f i).1

/-- The queued writes and merge entries of a page that its state no longer backs are dropped. -/
def dropQueued (n p : Nat) (s : State) : State :=
  modCh (fun m => m.map fun e => (e.1, { e.2 with
    writes := e.2.writes.filter fun w => match w.body with
      | .plain n' p' _ _ _ => !(n' == n && p' == p)
      | .raw _ _ _ => true
    merge := e.2.merge.filter fun x => !(x.lodging == n && x.page == p) })) s

/-- The space a page holds is freed, and counted off its lodging. -/
def freePage (n p : Nat) (x : Desc) (s : State) : State :=
  let d := homeDie n p
  let s1 := match x.state with
    | .plain => useBytes n d 0 (frameBytes x.isSealed) (freeFrame d x.loc s)
    | .packed => useBytes n d 0 (256 * slotsOf x.len) (freeRun d x.loc s)
    | .moving => if x.len = 0 then useBytes n d 0 (frameBytes x.isSealed) (freeFrame d x.loc s)
        else useBytes n d 0 (256 * slotsOf x.len) (freeRun d x.loc s)
    | .lost => if x.hasFrame then useBytes n d 0 (frameBytes x.isSealed) (freeFrame d x.loc s) else s
    | _ => s
  restage d (countersDrop n p (dropQueued n p (lcDrop n p s1)))

/-- A page becomes `LOST` (R73): its space is freed, `REFILL` is 0, `PAGES_LOST` rises, its hosts are told. `version` is
its `VERSION` from then on. -/
def pageLost (kind n p version : Nat) (s : State) : State :=
  match descAt s n p with
  | none => s
  | some x =>
    if x.state = .lost ∧ x.hasFrame = false ∧ x.tag = 0 then s
    else
      let s1 := modLodge n (fun l => { l with
        pagesLost := if x.state = .lost then l.pagesLost else l.pagesLost + 1 }) (fireWatch n p (freePage n p x s))
      lossNotice kind n p 0 (setDesc n p
        { x with state := .lost, tag := 0, loc := 0, len := 0, level := 0, dict := 0, crc := 0, poison := false
                 hasFrame := false, version := version } s1)

/-- The version a page carries when it leaves the state it is in (R188). -/
def versionLeaving (s : State) (n p : Nat) (x : Desc) : Nat :=
  if x.isSealed ∧ (x.state = .plain ∨ (x.state = .moving ∧ x.len = 0) ∨ (x.state = .lost ∧ x.hasFrame = true)) then countersEnd s n p
  else x.version

end Sys2Proof.Machine
end

