-- ==== Sys2Proof/Machine/Dictionaries.lean ====
section
/-! DEFINITION. Preset dictionaries: records, encrypted copies, stores, reference counts (05 R143-R147, R156). -/

namespace Sys2Proof.Machine

/-- Dictionary `x`. -/
def dictAt (s : State) (x : Nat) : DictRow := smGet {} s.comp.rows x
/-- Dictionary `x` changed. -/
def modDictAt (x : Nat) (f : DictRow → DictRow) (s : State) : State :=
  modComp (fun c => { c with rows := smMod {} c.rows x f }) s

/-- Whether a dictionary is usable for pages of a lodging: `INSTALLED` and owned by it (Table 5.11 `DICT_UNKNOWN`, log
32). -/
def dictUsable (s : State) (n x : Nat) : Bool :=
  decide (x < 1024) && (dictAt s x).owner == n && (dictAt s x).state == .installed

/-- The other dies in the order of R145: the partner, then ascending. -/
def dieOrder (d : Nat) : List Nat :=
  let q := (d + 2) % 4
  q :: (below 4).filter fun e => e ≠ d ∧ e ≠ q

/-- A dictionary's record on a die. -/
def dictRecOn (s : State) (d x : Nat) : DictRec := smGet {} (dictAt s x).recs d

/-- A dictionary's record, the same on every die that holds it. -/
def dictRec (s : State) (x : Nat) : DictRec :=
  (((below 4).findSome? fun d => smFind (dictAt s x).recs d).getD {})

/-- A die's record is reloaded from another die's copy: the partner's, else the first that has one (R145). -/
def recordReload (d x : Nat) (s : State) : State :=
  match (dieOrder d).findSome? fun e => smFind (dictAt s x).recs e with
  | some r => modDictAt x (fun y => { y with recs := smSet y.recs d r }) s
  | none => s

/-! ### Reserved regions -/

/-- The first frame of a reserved region of a die (R75). -/
def regionFrame (s : State) (d what slot : Nat) : Option Nat :=
  (s.space.uses.find? fun e => decide (e.1 / 2 ^ 30 = d) && e.2.kind == .region what slot).map (·.1 % 2 ^ 30)

/-- The first frame of a dictionary's copy on a die. -/
def dictFrame (s : State) (d x : Nat) : Option Nat := (regionFrame s d 1 0).map (· + 8 * x)

/-! ### Copies (R145, 07 Table 7.3) -/

/-- Content encrypted or decrypted under the owner's present epoch. -/
def dictCrypt (s : State) (d : Nat) (enc : Bool) (n x : Nat) (bytes : List Byte) : Option (List Byte) :=
  (secretFor s d n (decide (keyEpoch s n % 2 = 1))).map (fun q => PageKeys.mk (keyData q.1 n q.2) (keyTweak q.1 n q.2) (keyTag q.1 n q.2)) |>.map fun k =>
    (below 64).flatMap fun j => xtsFrom enc k.k1 k.k2 (2 ^ 120 + x * 64 + j) 0 (slice (512 * j) 512 bytes)

/-- A stored copy written on a die, as reserved-region lines; a former dictionary's copy there need no longer be blanked. -/
def dictStore (d x : Nat) (cipher : List Byte) (s : State) : State :=
  match dictFrame s d x with
  | none => s
  | some f => forAll (below 512) (fun i t =>
      storeRaw d (f + i / 64) (i % 64) ⟨BitVec.ofNat 512 (leNat (slice (64 * i) 64 cipher)), false, true⟩ t)
      (modSpace (fun y => { y with
        blankQ := smMod [] y.blankQ (4 * d + f / 2 ^ 28) (List.filter fun b => b != .copy f) }) s)

/-- A die's copy as the DIMMs hold it; none where a line cannot be read. -/
def dictCopy (s : State) (d x : Nat) : Option (List Byte) :=
  match dictFrame s d x with
  | none => none
  | some f =>
    if (below 512).any fun i => markAt s d (f + i / 64) (i % 64) % 2 == 1 ||
        chanDead s (chanOf d (f + i / 64) (i % 64)) then none
    else some (dramBytes s (dramAddress d f 0) 32768)

/-- The content a die's copy decrypts to, where it passes its CRC. -/
def dictContent (s : State) (d x : Nat) : Option (List Byte) :=
  match dictCopy s d x with
  | none => none
  | some c => match dictCrypt s d false (dictAt s x).owner x c with
    | none => none
    | some b => if (crc32c b).toNat = (dictRecOn s d x).crc then some b else none

/-- A dictionary becomes the most recently used of a die's 256-slot store; the least recently used gives way. -/
def storeTouch (d : Nat) (x : StoreSlot) (s : State) : State :=
  modComp (fun c =>
    let l := (smGet [] c.store d).filter fun y => y.dict ≠ x.dict
    { c with store := smPut [] c.store d (newest 256 (l ++ [x])) }) s

/-- A dictionary as a die's store holds it. -/
def storeSlot (s : State) (d x : Nat) : Option StoreSlot := (smGet [] s.comp.store d).find? fun y => y.dict == x

/-- A store loads a dictionary from its die's copy (R145): a copy in `bad` meets an uncorrectable error on this load. A
copy that fails is repaired from the first good one of the others; with none the dictionary is `DAMAGED`. -/
def storeLoad (d x : Nat) (bad : Nat) (s : State) : State :=
  let good (e : Nat) : Option (Nat × List Byte) :=
    if bad.testBit e then none else (dictContent s e x).map fun b => (e, b)
  if !((dictAt s x).state == .installed || (dictAt s x).state == .retiring) then s
  else match storeSlot s d x, good d with
  | some y, _ => storeTouch d y s
  | none, some b => storeTouch d ⟨x, b.2⟩ s
  | none, none => match (dieOrder d).findSome? good with
    | some b => match dictCopy s b.1 x with
      | some c => storeTouch d ⟨x, b.2⟩ (dictStore d x c s)
      | none => s
    | none => logPlain 14 2 (modDictAt x (fun r =>
        if r.state = .retiring then { r with former := .damaged } else { r with state := .damaged }) s)

/-- A dictionary as an engine of a die uses it: from the die's store only (R145). -/
def dictFor (s : State) (d n x : Nat) : Option DictBody :=
  if dictUsable s n x then (storeSlot s d x).map fun y => ⟨y.content, (dictRecOn s d x).lengths⟩ else none

/-! ### Reference counts (R146, 04 R109) -/

/-- The count of descriptors on a die that name a dictionary. -/
def dictRefs (s : State) (d x : Nat) : Nat := smGet 0 (dictAt s x).refs d

/-- The largest value a count takes. -/
def refsMost : Nat := 0xFFFFFFFE

/-- A count read as all ones is a fault: a Courier alert is raised (R146). -/
def refsRead (d x : Nat) (s : State) : State := onlyIf (decide (dictRefs s d x = 0xFFFFFFFF)) (logPlain 14 1) s

/-- A descriptor on a die names a dictionary from now on; a count read as all ones stays. -/
def dictRef (d x : Nat) (s : State) : State :=
  if dictRefs s d x = 0xFFFFFFFF then refsRead d x s
  else modDictAt x (fun r => { r with refs := smPut 0 r.refs d (min refsMost (smGet 0 r.refs d + 1)) }) s

/-- A descriptor on a die no longer names it; a count read as all ones stays and is reported. -/
def dictUnref (d x : Nat) (s : State) : State :=
  if dictRefs s d x = 0xFFFFFFFF then refsRead d x s
  else modDictAt x (fun r => { r with refs := smPut 0 r.refs d (smGet 0 r.refs d - 1) }) s

/-- Whether a descriptor names a dictionary in a packed image. -/
def Desc.namesDict (x : Desc) : Bool := x.state == .packed && decide (10 ≤ x.level)

/-- A page's descriptor leaves its dictionary. -/
def leaveDict (n p : Nat) (x : Desc) (s : State) : State :=
  if x.namesDict then dictUnref (homeDie n p) x.dict s else s

/-! ### Freeing a row (R149, R150) -/

/-- A dictionary is freed: its copies are queued for blanking, store slots and records cleared. -/
def dictFree (x : Nat) (s : State) : State :=
  let s1 := forAll (below 4) (fun d t => match dictFrame t d x with
    | some f => queueBlank d f (.copy f) t
    | none => t) s
  modComp (fun c => { c with
    rows := smErase c.rows x
    store := c.store.map fun e => (e.1, e.2.filter fun y => y.dict ≠ x) }) s1

/-- The dictionaries a lodging owns. -/
def dictsOf (s : State) (n : Nat) : List Nat := (s.comp.rows.filter fun e => e.2.owner == n).map (·.1)

/-! ### Decompressor errors (R156) -/

/-- The record of Table 5.12. -/
def errorRecord (code offset engine : Nat) (repeated : Bool) (n page agent : Nat) : Nat :=
  code + offset % 65536 * 2 ^ 8 + engine * 2 ^ 24 + bNat repeated * 2 ^ 30 + n * 2 ^ 32 + page * 2 ^ 44 +
    agent * 2 ^ 78 + bitsOf offset 16 24 * 2 ^ 82

/-- A reported error: the last record, its count, the error log. The engine is any of the die's (log 6). -/
def decodeError (d code offset deco n page agent : Nat) (s : State) : State :=
  let r := errorRecord code offset (deco - 144) true n page agent
  logEvent 2 0xFFFF 1 (some (n, page)) r
    (modComp (fun c => { c with
      counts := bump 32 c.counts (12 * d + (code - 0x20)) 1
      last := smSet c.last d r }) s)

/-! ### Commands -/

/-- DICT_STORE_LOAD (R145): `bad` are the dies whose copy meets an uncorrectable error. -/
def execDictStoreLoad (d : MemDie) (x : DictId) (bad : BitVec 4) (s : State) : Out :=
  .next (storeLoad d.val x.val bad.toNat s)

end Sys2Proof.Machine
end

