-- ==== Sys2Proof/Machine/Tree.lean ====
section
/-! DEFINITION. Leaves and nodes of the counter trees of sealed granules: their layouts, their checks as they are fetched, their
write-back, failed descriptor lines and lost subtrees (03 R74; 07 R185-R194, R198, R199). -/

namespace Sys2Proof.Machine

/-! ### Failed checks (R198, 03 R74) -/

/-- A failed check is counted (R198). -/
def failCount (idx n : Nat) (s : State) : State :=
  modProt (fun q => { q with
    fails := bump 64 q.fails idx 1
    sealFails := if lodgeAttr s n 0 then bump 64 q.sealFails n 1 else q.sealFails }) s

/-- The pages whose descriptors share a page's 64-byte descriptor line. -/
def linePages (n p : Nat) : List Nat :=
  ((below 8).map (· + p / 8 * 8)).filter fun q => homeDie n q == homeDie n p

/-- The bytes a page's descriptor says it holds. -/
def descBytes (x : Desc) : Nat :=
  match x.state with
  | .plain => frameBytes x.isSealed
  | .packed => 256 * slotsOf x.len
  | .moving => if x.len = 0 then frameBytes x.isSealed else 256 * slotsOf x.len
  | .lost => if x.hasFrame then frameBytes x.isSealed else 0
  | _ => 0

/-- The descriptors of a line are lost (R74): both its pages become `LOST`, what they held is stranded. -/
def descLost (n p : Nat) (s : State) : State :=
  let d := homeDie n p
  restage d (forAll (linePages n p) (fun q t => match descAt t n q with
    | none => t
    | some x =>
      let b := descBytes x
      let t1 := modLod (fun l => { l with stranded := bump 64 l.stranded d b }) (useBytes n d 0 b t)
      let t2 := modLodge n (fun l => { l with pagesLost := if x.state = .lost then l.pagesLost else l.pagesLost + 1 })
        (fireWatch n q (countersDrop n q (dropQueued n q (lcDrop n q t1))))
      lossNotice 3 n q 0 (setDesc n q
        { state := .lost, owner := n, phase := x.phase, isSealed := lodgeAttr t n 0, isolated := lodgeAttr t n 1
          pinned := lodgeAttr t n 3, version := smGet 0 t.prot.hwm d } t2)) s)

/-- A descriptor line fails its check (R74): of a sealed lodging it is a leaf, and counted as one (R198). -/
def descFail (n p : Nat) (s : State) : State := descLost n p (onlyIf (lodgeAttr s n 0) (failCount 2 n) s)

/-! ### Leaves as the DIMM holds them (03 Table 3.5, 07 R182, R185) -/

/-- The codes of Table 3.6. -/
def PageState.code : PageState → Nat
  | .unmapped => 0 | .zero => 1 | .plain => 2 | .packed => 3 | .moving => 4 | .lost => 5

/-- Whether a descriptor reads its bits 63:30 as `SLOT` (R71). -/
def Desc.hasSlot (x : Desc) : Bool := x.state == .packed || (x.state == .moving && x.len != 0)

/-- A descriptor as Table 3.5 lays it out. -/
def descWord (x : Desc) : Nat :=
  let high := if x.hasSlot then x.loc
    else bNat x.poison + 2 * bNat x.pinned + 4 * bNat x.isSealed + 8 * bNat x.isolated + 16 * x.loc
  x.state.code + x.owner * 2 ^ 3 + x.level * 2 ^ 15 + x.dict * 2 ^ 19 + bNat x.phase * 2 ^ 29 + high * 2 ^ 30 +
    x.version * 2 ^ 64 + x.tag * 2 ^ 128 + x.crc * 2 ^ 192 + x.len * 2 ^ 224 + x.heat * 2 ^ 237 + x.touch * 2 ^ 245

/-- The page of a granule whose descriptor stands at index `q` of a die's segment (R69). -/
def descPage (n g d q : Nat) : Nat :=
  let base := g * 65536 + 4 * q
  ((below 4).map (base + ·)).find? (fun p => homeDie n p == d) |>.getD base

/-- A metadata line encrypted or decrypted under `K_META` (Table 7.3). -/
def metaCrypt (enc : Bool) (s : State) (d tweak : Nat) (bytes : List Byte) : List Byte :=
  let k := leBytes 64 (smGet 0#512 s.prot.kMeta d).toNat
  xtsFrom enc (k.take 32) (k.drop 32) tweak 0 bytes

/-- A metadata line as it goes to DRAM. -/
def metaCipher (s : State) (d tweak : Nat) (bytes : List Byte) : List Byte := metaCrypt true s d tweak bytes

/-- The tweaks of Table 7.3: a descriptor line, a counter line, tag line `k`, a node, leaf-tag line `t`, line `i` of a region. -/
def descTweak (d n p : Nat) : Nat := 2 * 2 ^ 120 + d * 2 ^ 112 + n * 2 ^ 96 + p / 8
def ctrTweak (n p : Nat) : Nat := 3 * 2 ^ 120 + n * 2 ^ 96 + p
def tagTweak (n p k : Nat) : Nat := 4 * 2 ^ 120 + n * 2 ^ 96 + p * 8 + k
def nodeTweak (id : Nat) : Nat := 5 * 2 ^ 120 + id
def leafTagTweak (d m t : Nat) : Nat := 6 * 2 ^ 120 + d * 2 ^ 112 + m * 2 ^ 64 + t
def regionTweak (region i : Nat) : Nat := 7 * 2 ^ 120 + region * 2 ^ 112 + i

/-- A descriptor line: the descriptors of the two pages at indices `2 x` and `2 x + 1` of a die's segment. -/
def descLine (s : State) (f : Desc → Desc) (n g d x : Nat) : List Byte :=
  (below 2).flatMap fun e => leBytes 32 (descWord (f ((descAt s n (descPage n g d (2 * x + e))).getD {})))

/-- The ciphertext of leaf `j` of granule slot `m` on die `d`. Its tag is taken with `HEAT` and `TOUCH_EPOCH` at 0, since no
integrity check covers them (04 R98). -/
def leafCipher (s : State) (tagged : Bool) (d m j : Nat) : List Byte :=
  match smFind s.lod.slots m with
  | none => []
  | some r =>
    let n := r.lodging
    if j < 8192 then
      metaCipher s d (descTweak d n (descPage n r.granule d (2 * j)))
        (descLine s (fun x => if tagged then { x with heat := 0, touch := 0 } else x) n r.granule d j)
    else
      let p := descPage n r.granule d (j - 8192)
      metaCipher s d (ctrTweak n p) ((ctrOf s n p).flatMap (leBytes 8))

/-! ### Nodes (R190-R192) -/

/-- The nodes of a level of a tree; level 0 counts its leaves. -/
def levelCount (h level : Nat) : Nat :=
  nth 0 (if h = 0 then [16807, 2401, 343, 49, 7, 1] else [7769, 1110, 159, 23, 4, 1]) level

/-- base(h, level) of Table 7.6. -/
def nodeBase (h level : Nat) : Nat :=
  nth 0 (if h = 0 then [0, 0, 2401, 2744, 2793, 2800] else [0, 2801, 3911, 4070, 4093, 4097]) level

/-- The counter that node or leaf (h, level, k) has in its parent, or its root counter. -/
def parentCounter (s : State) (d m h level k : Nat) : Nat :=
  let start := smGet 0 s.prot.treeBase (4 * m + d)
  if level = 5 then smGet start s.prot.root (d * 2 ^ 19 + 2 * m + h)
  else if k < levelCount h level then smGet start s.prot.child (nodeId d m h (level + 1) (k / 7) * 8 + k % 7)
  else 0

/-- That counter written; `HWM_d` takes it. -/
def setParentCounter (d m h level k v : Nat) (s : State) : State :=
  hwmNote d v (modProt (fun x =>
    if level = 5 then { x with root := smSet x.root (d * 2 ^ 19 + 2 * m + h) v }
    else { x with child := smSet x.child (nodeId d m h (level + 1) (k / 7) * 8 + k % 7) v }) s)

/-- The seven counters of a node. -/
def nodeCounters (s : State) (d m h level k : Nat) : List Nat :=
  (below 7).map fun c => parentCounter s d m h (level - 1) (7 * k + c)

/-- The MAC of a node with the given counters, under its parent's present counter for it (Table 7.4). -/
def nodeMac (s : State) (d m h level k : Nat) (counters : List Nat) : Nat :=
  tagOf (leBytes 32 (smGet 0#256 s.prot.kTree d).toNat) (counters.flatMap (leBytes 8) ++ List.replicate 8 0#8)
    (parentCounter s d m h level k) (nodeId d m h level k) 3

/-- The tag of a leaf under its level-1 node's present counter for it (Table 7.4). -/
def leafTagOf (s : State) (d m h i : Nat) : Nat :=
  tagOf (leBytes 32 (smGet 0#256 s.prot.kTree d).toNat) (leafCipher s true d m (i + 16807 * h))
    (parentCounter s d m h 0 i) (leafId d m h i) 2

/-- The MAC that stands in a node: the one last written, else the one it was set up with. -/
def macAt (s : State) (d m h level k : Nat) : Nat :=
  (smFind s.prot.mac (nodeId d m h level k)).getD (nodeMac s d m h level k (nodeCounters s d m h level k))

/-- The tag that stands for a leaf: the one last written, else the one it was set up with. -/
def leafTagAt (s : State) (d m h i : Nat) : Nat := (smFind s.prot.leafTag (leafId d m h i)).getD (leafTagOf s d m h i)

/-- Whether the mirror copy of a die's interior nodes is in force. -/
def mirrorOn (s : State) (d : Nat) : Bool := !s.prot.mirrorOff.contains d

/-- The mirror copy of a node, its counters and its MAC: as last written, else as the node was set up (01 R23). -/
def mirrorCopy (s : State) (d m h level k : Nat) : List Nat × Nat :=
  (smFind s.prot.nodeM (nodeId d m h level k)).getD (nodeCounters s d m h level k, macAt s d m h level k)

/-- A node or leaf is written under a new parent counter (R194 steps 2 to 5): a node's home copy and, while it is in force, its
mirror copy. -/
def treeWrite (d m h level k : Nat) (s : State) : State :=
  let id := nodeId d m h level k
  let s1 := setParentCounter d m h level k (parentCounter s d m h level k + 1) s
  let s2 := modProt (fun x =>
    if level = 0 then { x with leafTag := smSet x.leafTag (leafId d m h k) (leafTagOf s1 d m h k) }
    else
      let c := nodeCounters s1 d m h level k
      let mac := nodeMac s1 d m h level k c
      { x with mac := smSet x.mac id mac, nodeM := if mirrorOn s1 d then smSet x.nodeM id (c, mac) else x.nodeM }) s1
  let s3 := modProt (fun x => { x with dirty := x.dirty.filter (· ≠ id) }) s2
  if level = 5 then s3 else markDirty (nodeId d m h (level + 1) (k / 7)) s3

/-- All ones: no counter ever holds it (R189). -/
def allOnes64 : Nat := 2 ^ 64 - 1

/-! ### Lost leaves and subtrees (Table 7.8, R199) -/

/-- The lodging of a granule slot. -/
def slotLodging (s : State) (m : Nat) : Nat := match smFind s.lod.slots m with | some r => r.lodging | none => 0

/-- A page whose counter line, or whose sealed structure, cannot be trusted becomes `LOST`. -/
def sealedPageLost (n p : Nat) (s : State) : State :=
  match descAt s n p with
  | none => s
  | some x =>
    if x.state = .plain ∨ (x.state = .moving ∧ x.len = 0) ∨ (x.state = .lost ∧ x.hasFrame = true) then
      pageLost 3 n p (smGet 0 s.prot.hwm (homeDie n p)) s
    else s

/-- A failed leaf: the page of a counter line, both pages of a descriptor line. -/
def leafLost (d m j : Nat) (s : State) : State :=
  match smFind s.lod.slots m with
  | none => s
  | some r =>
    if j < 8192 then descLost r.lodging (descPage r.lodging r.granule d (2 * j)) s
    else sealedPageLost r.lodging (descPage r.lodging r.granule d (j - 8192)) s

/-- Whether the node or leaf with an identity lies below node (h, level, k) of a tree. -/
def isBelow (d m h level k id : Nat) : Bool :=
  decide (id / 2 ^ 21 = nodeId d m h 0 0 / 2 ^ 21) && decide (id / 2 ^ 18 % 8 < level) &&
    decide (id % 2 ^ 18 / 7 ^ (level - id / 2 ^ 18 % 8) = k)

/-- The counters below the top of a subtree start afresh from `HWM_d`, with the MACs and tags that follow from them, and its top
is written under a new parent counter (R199). A root counter that has no next value starts afresh too (Table 7.8). -/
def subtreeFresh (d m h level k : Nat) (s0 : State) : State :=
  let fresh := smGet 0 s0.prot.hwm d + 1
  let s1 := onlyIf (level = 5 && decide (allOnes64 - 1 ≤ parentCounter s0 d m h 5 0)) (setParentCounter d m h 5 0 fresh) s0
  let s2 := forAll (below level) (fun l t =>
    -- the counters of the children at level `l`
    forAll (((below (7 ^ (level - l))).map (k * 7 ^ (level - l) + ·)).filter (· < levelCount h l))
      (fun i u => setParentCounter d m h l i fresh u) t) s1
  let s3 := modProt (fun x => { x with
    dirty := x.dirty.filter fun id => !isBelow d m h level k id
    mac := x.mac.filter fun e => !isBelow d m h level k e.1
    nodeM := x.nodeM.filter fun e => !isBelow d m h level k e.1
    leafTag := x.leafTag.filter fun e =>
      !(decide (e.1 / 2 ^ 15 = leafId d m h 0 / 2 ^ 15) && decide (e.1 % 2 ^ 15 / 7 ^ level = k)) }) s2
  treeWrite d m h level k s3

/-- The level of the subtree that a lost node takes with it: its own, or, while the counter that its parent holds for it has no
next value, that of the parent, whose structure fails then (R189). -/
def lostLevel (s : State) (d m h level k : Nat) : Nat :=
  (((below 6).filter (level ≤ ·)).find? fun l => decide (parentCounter s d m h l (k / 7 ^ (l - level)) < allOnes64 - 1)).getD 5

/-- A lost node or root counter is logged with an alert, and reported to the hosts of its lodging (R198), whether or not a page
lies below it. -/
def nodeNotice (d m h level k : Nat) (s : State) : State :=
  let id := nodeId d m h level k
  putEvents (hostPorts s (slotLodging s m)) 2 (.vendor 10 id) (logEvent 3 0xFFFF 2 none id s)

/-- A subtree is lost (R199): every page with a leaf below it is `LOST`, and the subtree starts afresh. -/
def subtreeLost (d m h level k : Nat) (s : State) : State :=
  let l := lostLevel s d m h level k
  let top := k / 7 ^ (l - level)
  let span := 7 ^ l
  let leaves := ((below span).map (top * span + ·)).filter (· < levelCount h 0)
  subtreeFresh d m h l top (forAll leaves (fun i t => leafLost d m (i + 16807 * h) t) (nodeNotice d m h level k s))

/-- A root counter is lost: the whole tree. -/
def rootLost (d m h : Nat) (s : State) : State := subtreeLost d m h 5 0 (failCount 5 (slotLodging s m) s)

/-! ### What is fetched is verified (R193) -/

/-- Whether a line of a granule's descriptor segment on a die can be read (R192). -/
def segReads (s : State) (d m off : Nat) : Bool :=
  match smFind s.lod.slots m with
  | none => false
  | some r =>
    let f := 128 * nth 0 r.segs d + off / 64
    unitServes s (372 + d) && !chanDead s (chanOf d f (off % 64)) && !bitOf (markAt s d f (off % 64)) 0

/-- Whether a node's copy with these counters and this MAC passes its check. -/
def copyGood (s : State) (d m h level k : Nat) (c : List Nat × Nat) : Bool :=
  !c.1.contains allOnes64 && c.2 == nodeMac s d m h level k c.1

/-- Whether the home copy of a node can be read and passes its check. -/
def homeGood (s : State) (d m h level k : Nat) : Bool :=
  segReads s d m (8192 + nodeBase h level + k) &&
    copyGood s d m h level k (nodeCounters s d m h level k, macAt s d m h level k)

/-- Whether the mirror copy of a node, on the partner die, can be read and passes its check (01 R24). -/
def mirrorGood (s : State) (d m h level k : Nat) : Bool :=
  mirrorOn s d && segReads s ((d + 2) % 4) m (16384 + nodeBase h level + k) && copyGood s d m h level k (mirrorCopy s d m h level k)

/-- The mirror copy of a node is written over its home copy. -/
def homeRestored (d m h level k : Nat) (s : State) : State :=
  let c := mirrorCopy s d m h level k
  let put (m0 : SMap Nat) : SMap Nat := c.1.zipIdx.foldl (fun a e =>
    if 7 * k + e.2 < levelCount h (level - 1) then smSet a (nodeId d m h level k * 8 + e.2) e.1 else a) m0
  modProt (fun x => { x with child := put x.child, mac := smSet x.mac (nodeId d m h level k) c.2 }) s

/-- The home copy of a node cannot be used (Table 7.8): its mirror is verified and written over it, or the subtree is lost. A
node held dirty on chip is written again later. -/
def nodeBad (d m h level k : Nat) (s : State) : State :=
  if s.prot.dirty.contains (nodeId d m h level k) then s
  else if mirrorGood s d m h level k then
    logQuiet 3 0xFFFF 0 none 0 (modProt (fun q => { q with fails := bump 64 q.fails 3 1 }) (homeRestored d m h level k s))
  else subtreeLost d m h level k (failCount 4 (slotLodging s m) s)

/-- A node is brought on chip: one that is not there already, and so is clean, is verified. -/
def nodeFetch (d m h level k : Nat) (s : State) : State :=
  if s.prot.dirty.contains (nodeId d m h level k) ∨ homeGood s d m h level k then s else nodeBad d m h level k s

/-- The ancestors of node or leaf (h, level, k) are brought on chip, from below the nearest one that is there (log 132). -/
def pathFetch (d m h level k : Nat) (s : State) : State :=
  let up (l : Nat) : Nat := k / 7 ^ (l - level)
  let levels := (below 6).filter (level < ·)
  let top := (levels.find? fun l => s.prot.dirty.contains (nodeId d m h l (up l))).getD 6
  let s0 := if parentCounter s d m h 5 0 = allOnes64 then rootLost d m h s else s
  forAll ((levels.filter (· < top)).reverse) (fun l t => nodeFetch d m h l (up l) t) s0

/-- Whether a leaf's line and tag can be read and agree; `reads` says that of its line. -/
def leafGood (s : State) (reads : Bool) (d m j : Nat) : Bool :=
  let q := leafPlace j
  reads && segReads s d m (12290 + j / 8) && leafTagAt s d m q.1 q.2 == leafTagOf s d m q.1 q.2

/-- A leaf whose line or tag fails its check; one held dirty on chip is written again later. -/
def leafBad (d m j : Nat) (s : State) : State :=
  let q := leafPlace j
  if s.prot.dirty.contains (nodeId d m q.1 0 q.2) then s
  else leafLost d m j (failCount 2 (slotLodging s m) s)

/-- A leaf is brought on chip: one that is not there already is verified, first its own line, then what lies above it on the way
from the root, then its tag. -/
def leafFetch (reads : State → Bool) (d m j : Nat) (s : State) : State :=
  let q := leafPlace j
  if s.prot.dirty.contains (nodeId d m q.1 0 q.2) then s
  else if reads s = false then leafBad d m j s
  else
    let t := pathFetch d m q.1 0 q.2 s
    if leafGood t (reads t) d m j then t else leafBad d m j t

/-- A page's descriptor line is brought on chip; of an unsealed lodging it has no tag. -/
def descFetch (n p : Nat) (s : State) : State :=
  match slotOf s n p with
  | some m => onlyIf (lodgeAttr s n 0)
      (leafFetch (fun t => segReads t (homeDie n p) m (descLeaf p)) (homeDie n p) m (descLeaf p)) s
  | none => s

/-- The frame and line that hold line `r` (0 the counter line, 1 + k tag line `k`) of a sealed frame's metadata block (R186). -/
def metaPlace (f r : Nat) : Nat × Nat :=
  let i := f % 2 ^ 28 % 80
  (f - i + 70 + (9 * i + r) / 64, (9 * i + r) % 64)

/-- Whether a line of a sealed frame's metadata block can be read. -/
def metaReads (s : State) (d f r : Nat) : Bool :=
  let q := metaPlace f r
  !chanDead s (chanOf d q.1 q.2) && !bitOf (markAt s d q.1 q.2) 0

/-- A sealed page's counter line is brought on chip (R195 step 2). -/
def ctrFetch (n p : Nat) (x : Desc) (s : State) : State :=
  match slotOf s n p with
  | some m => onlyIf x.isSealed (leafFetch (fun t => metaReads t (homeDie n p) x.loc 0) (homeDie n p) m (ctrLeaf p)) s
  | none => s

/-! ### Write-back (R194) -/

/-- A dirty node or leaf is written back, once its parent is on chip; an increment that would reach all ones is a failure of the
structure that holds the counter (R189). -/
def nodeWriteBack (d m h level k : Nat) (s : State) : State :=
  match smFind s.lod.slots m with
  | none => s
  | some r =>
    if s.prot.dirty.contains (nodeId d m h level k) = false ∨ r.isSealed = false ∨ unitServes s (372 + d) = false then s
    else
      let s1 := pathFetch d m h level k s
      if s1.prot.dirty.contains (nodeId d m h level k) = false then s1
      else if allOnes64 - 1 ≤ parentCounter s1 d m h level k then
        subtreeLost d m h (min 5 (level + 1)) (if level = 5 then 0 else k / 7) (failCount 6 r.lodging s1)
      else treeWrite d m h level k s1

/-! ### Commands -/

/-- NODE_WRITE_BACK (R194). -/
def execNodeWriteBack (d : MemDie) (m : Fin 262144) (h : Fin 2) (level : Fin 6) (k : Fin 16807) (s : State) : Out :=
  .next (nodeWriteBack d.val m.val h.val level.val k.val s)

end Sys2Proof.Machine
end

