-- ==== Sys2Proof/Machine/Writes.lean ====
section
/-! DEFINITION. The write queues of the channels, and what leaves them for the DIMMs (07 R184, R188, R196; 11 R295). -/

namespace Sys2Proof.Machine

/-! ### The write queues (11 R295) -/

/-- A channel leaves self-refresh: no REF owed, its tables not valid (11 R298, R300). A wing in
self-refresh is woken by its first request (16 R398). -/
def chanWake (c : Nat) (s : State) : State :=
  if (chanAt s c).state = .selfRefresh then
    modChan c (fun x => { x with state := .active, owed := [], tableValid := false, since := dieTime s (4 + c / 8) }) s
  else s

/-- The page that holds a line of a die, if one does. -/
def lineOwner (s : State) (d f i : Nat) : Option (Nat × Nat) :=
  match useAt s d f with
  | some (_, ⟨_, .page n p⟩) => some (n, p)
  | some (g, ⟨_, .group fr⟩) => if f - g < 70 then (smFind fr (f - g)).join else (smFind fr (((f - g - 70) * 64 + i) / 9)).join
  | some (g, ⟨_, .slab k runs⟩) => (smFind runs (((f - g) * 16 + i / 4) / k)).join
  | _ => none

/-- Whether a page's descriptor says that its data lines stand in a frame. -/
def holdsFrame (x : Desc) (f : Nat) : Bool :=
  x.loc == f && (x.state == .plain || (x.state == .moving && x.len == 0) || (x.state == .lost && x.hasFrame))

/-- A line of a sealed page is written (R196): its counter line is brought on chip, its sector's counter rises and its tag is
new. A counter that would reach all ones fails the counter line (R189). What is then stored is the caller's; none where the page
lost its frame by a failed check. -/
def sealWrite (k : PageKeys) (n p i : Nat) (x : Desc) (cipher : Line) (s : State) : State × Bool :=
  let s1 := ctrFetch n p x s
  match descAt s1 n p with
  | none => (s1, false)
  | some y =>
    if holdsFrame y x.loc = false then (s1, false)
    else if allOnes64 - 1 ≤ nth 0 (ctrOf s1 n p) (i / 8) then (sealedPageLost n p (failCount 6 n s1), false)
    else (sealLine k n p i cipher s1, true)

/-- A line that a sealed page holds is replaced as a stored line: with one that becomes poison its sector's counter rises (R188); a
corrected line changes no counter (11 R307). -/
def rawSealed (d f i : Nat) (b : Line) (po : Bool) (s : State) : State × Bool :=
  match lineOwner s d f i with
  | none => (s, true)
  | some (n, p) => match descAt s n p with
    | none => (s, true)
    | some x =>
      if x.isSealed = false ∨ holdsFrame x f = false ∨ po = false then (s, true)
      else match pageKeys s n p x.phase with
        | none => (s, true)
        | some k => sealWrite k n p i x b s

/-- The unit that reads or writes a page's line for an agent: the tier mover, the re-key engine, else the home slice; the night
watch has no unit number. -/
def requester (agent n p : Nat) : Option Nat :=
  match agent with
  | 2 => some (272 + homeDie n p)
  | 3 => some (276 + homeDie n p)
  | 4 => none
  | _ => some (280 + homeSlice n p)

/-- A channel's checker denies a hardware unit's access: the unit that misaddressed is counted against (13 R346, 14 R362). -/
def unitDenied (c : Nat) (u : Option Nat) (cl : AgentClass) (write : Bool) (f : Nat) (s : State) : State :=
  regionDenied c cl write (f % 2 ^ 28) (match u with | some k => unitSuspect k (4 + c / 8) s | none => s)

/-- The unit that sent a queued write. -/
def WEntry.unit (e : WEntry) : Option Nat :=
  match e.body with
  | .plain n p _ _ _ => requester 0 n p
  | .raw _ _ _ => none

/-- A queued write leaves for the DIMM: a plain line is encrypted, with counter and tag where the page is sealed
(R196); a stored line goes as it is. A line whose page has left its frame meanwhile is not written. -/
def writeOut (d : Nat) (e : WEntry) (s : State) : State :=
  let c := chanOf d e.frame e.line
  let s := chanWake c s
  let cl : AgentClass := if e.scrub then .scrub else .hostEngine
  if regionPermits s c cl true (e.frame % 2 ^ 28) = false then unitDenied c e.unit cl true e.frame s
  else match e.body with
  | .raw b po hi =>
    let q := rawSealed d e.frame e.line b po s
    if q.2 then storeRaw d e.frame e.line ⟨b, po, hi⟩ q.1 else q.1
  | .plain n p i b po =>
    match descAt s n p with
    | none => s
    | some x =>
      match pageKeys s n p x.phase with
      | none => s
      | some k =>
        let c := if po then 0#512 else lineCrypt true k p i b
        let q := if x.isSealed then sealWrite k n p i x c s else (s, true)
        if q.2 then onlyIf (!po) (useCrypto d) (storeRaw d e.frame i ⟨c, po, false⟩ q.1) else q.1

/-! ### Commands to the DRAM (11 R297, R299-R301) -/

/-- A command enters the retry buffer, a write with the line it stores. -/
def retryPut (c kind bank row : Nat) (w : Option WEntry) (s : State) : State :=
  modChan c (fun x => { x with retry := newest 64 (x.retry ++ [⟨dieTime s (4 + c / 8), kind, bank, row, w⟩]) }) s

/-- An ACT counts in its bank's table; at `RH_THRESHOLD` the row waits for mitigation (R299). -/
def countAct (c bank row : Nat) (s : State) : State :=
  let limit := pnum s P.RH_THRESHOLD
  let t := smGet {} (chanAt s c).acts bank
  let rows := match t.rows.find? fun r => r.1 == row with
    | some _ => t.rows.map fun r => if r.1 = row then (r.1, r.2 + 1) else r
    | none => if t.rows.length < 32 then t.rows ++ [(row, 1)]
        else (t.rows.map fun r => (r.1, r.2 - 1)).filter fun r => r.2 != 0
  let hit := rows.any fun r => r.1 == row && decide (limit ≤ r.2)
  modChan c (fun x => { x with
    acts := smPut {} x.acts bank { rows := if hit then rows.filter fun r => r.1 != row else rows, openRow := some row }
    mitigate := if hit then x.mitigate ++ [(bank, row)] else x.mitigate }) s

/-- While a bank's table is not valid, an ACT also triggers a mitigation with probability 1/256 (R300); a bank key from
1,024 up says so. -/
def randomMitigation (c bank row : Nat) (s : State) : State :=
  if (chanAt s c).tableValid && (smFind (chanAt s c).blind bank).isNone then s
  else
    let v := Config.lfsrStep (chanAt s c).lfsr
    modChan c (fun x => { x with
      lfsr := v
      mitigate := if v.toNat % 256 = 0 then x.mitigate ++ [(1024 + bank, row)] else x.mitigate }) s

/-- An ACT to a row that is not open. -/
def activate (c bank row : Nat) (s : State) : State :=
  if (smGet {} (chanAt s c).acts bank).openRow = some row then s
  else randomMitigation c bank row (countAct c bank row (retryPut c 1 bank row none s))

/-- The rank of a bank key: module and logical rank. -/
def rankOf (bank : Nat) : Nat := bitsOf bank 2 2 + 4 * bitsOf bank 1 1

/-- A REF to a rank: every bank of it is precharged. -/
def refresh (c rank n : Nat) (s : State) : State :=
  retryPut c 0 rank 0 none (modChan c (fun x => { x with
    owed := smPut 0 x.owed rank (smGet 0 x.owed rank - n)
    acts := x.acts.filterMap fun e => if rankOf e.1 = rank then
      (if e.2.rows = [] then none else some (e.1, { e.2 with openRow := none })) else some e }) s)

/-- The ranks of a channel. -/
def chanRanks (s : State) (c : Nat) : List Nat :=
  (below (chanP s c P.CH_MODULES)).flatMap fun m => (below (chanP s c P.CH_RANKS)).map (· + 4 * m)

/-- A row is mitigated, and waits for it no more: a module that supports DRFM samples it and gets DRFMsb, another RFMsb. -/
def mitigation (c bank row : Nat) (s : State) : State :=
  let b := bank % 1024
  let s1 := modChan c (fun x => { x with
    mitigate := x.mitigate.drop 1
    counts := bump 64 x.counts (if 1024 ≤ bank then 2 else 1) 1 }) s
  if (chanAt s c).drfm.getLsbD (bitsOf b 1 1) then retryPut c 6 b row none (retryPut c 5 b row none s1)
  else retryPut c 2 b row none s1

/-- A rank whose owed REFs have reached the postponement limit: its next REF goes ahead of every command (R297). -/
def lateRank (s : State) (c : Nat) : Option Nat :=
  (chanRanks s c).find? fun r => decide (0 < smGet 0 (chanAt s c).owed r) &&
    decide (chanP s c P.CH_REF_POSTPONE ≤ smGet 0 (chanAt s c).owed r)

/-- What goes ahead of every request (R296): REFs at their limit, then mitigations. -/
def chanUrgent (c : Nat) (s : State) : State :=
  if (chanAt s c).state ≠ .active ∨ (chanAt s c).alertN then s
  else
    let s1 := forAll ((chanRanks s c).filter fun r => decide (0 < smGet 0 (chanAt s c).owed r) &&
      decide (chanP s c P.CH_REF_POSTPONE ≤ smGet 0 (chanAt s c).owed r)) (fun r t => refresh c r 1 t) s
    forAll (chanAt s1 c).mitigate (fun q t => mitigation c q.1 q.2 t) s1

/-! ### The requests of a channel (11 R295, R296; 10 R274-R276) -/

/-- The arbitration point of a channel (10 Table 10.4). -/
def chanPoint (c : Nat) : Nat := 64 + c

/-- The bank and row of a line of a channel. -/
def lineBank (s : State) (c f i : Nat) : Nat × Nat :=
  match chanGeometry s c with
  | some g => let a := dramAddr g (placeLine f i).2; (bankKey a, a.row)
  | none => (0, 0)

/-- The label a queued write carries: its lodging's; a stored line's that of the page that holds it, else 0 (log 158). -/
def WEntry.label (s : State) (d : Nat) (e : WEntry) : Nat :=
  match e.body with
  | .plain n _ _ _ _ => lodgeP s n P.LABEL
  | .raw _ _ _ => match lineOwner s d e.frame e.line with
    | some (n, _) => lodgeP s n P.LABEL
    | none => 0

/-- Whether a share group has a request at a channel. -/
def chanHas (s : State) (c g : Nat) : Bool :=
  ((chanAt s c).reads.any fun r => r.label / 256 == g) || (chanAt s c).writes.any fun e => e.label s (c / 8) / 256 == g

/-- A request of a label arrives at a channel. -/
def chanArrive (c label : Nat) (s : State) : State :=
  if chanHas s c (label / 256) then s else fairArrive (chanPoint c) (label / 256) s

/-- A request of a label has left a channel's queues. -/
def chanServed (c label : Nat) (s : State) : State :=
  fairServe (chanPoint c) (label / 256) 64 (chanHas s c (label / 256)) s

/-- Of the requests that meet a test, else of all, the one that fair queueing serves next: within a share group one that has
waited 10 us, else the highest priority, else the earliest (10 R275, R276). -/
def fairFirst {α : Type} (s : State) (point die : Nat) (label time : α → Nat) (l : List α) : Option α :=
  match fairPick s point ((l.map fun x => label x / 256).eraseDups) with
  | none => none
  | some g =>
    let mine := l.filter fun x => label x / 256 == g
    let old := mine.filter fun x => decide (10000 ≤ dieTime s die - time x)
    let least (f : α → Nat) (q : List α) : Option α := q.foldl (fun best x => match best with
      | none => some x
      | some b => if f x < f b ∨ (f x = f b ∧ time x < time b) then some x else some b) none
    if old = [] then least (fun x => 15 - mirrorPrio s die (label x)) mine else least (fun _ => 0) old

/-- The requests whose row is open, if any, else all: row-buffer hits come first (R296). -/
def rowHits {α : Type} (s : State) (c : Nat) (place : α → Nat × Nat) (l : List α) : List α :=
  let hits := l.filter fun x =>
    let b := lineBank s c (place x).1 (place x).2
    (smGet {} (chanAt s c).acts b.1).openRow == some b.2
  if hits = [] then l else hits

/-- The read a channel's scheduler chooses. -/
def readPick (s : State) (c : Nat) (l : List ReadEntry) : Option ReadEntry :=
  fairFirst s (chanPoint c) (4 + c / 8) (·.label) (·.time) (rowHits s c (fun r => (r.frame, r.line)) l)

/-- The write a channel's scheduler chooses. -/
def writePick (s : State) (c : Nat) (l : List WEntry) : Option WEntry :=
  fairFirst s (chanPoint c) (4 + c / 8) (·.label s (c / 8)) (·.time) (rowHits s c (fun e => (e.frame, e.line)) l)

/-- A queued read's command is issued. -/
def issueRead (c : Nat) (r : ReadEntry) (s : State) : State :=
  let b := lineBank s c r.frame r.line
  let s1 := chanServed c r.label (modChan c (fun x => { x with reads := x.reads.erase r }) (chanUrgent c s))
  retryPut c 4 b.1 b.2 none (activate c b.1 b.2 s1)

/-- A queued write's command is issued, its row activated first where it is not open. -/
def issueWrite (c : Nat) (e : WEntry) (s : State) : State :=
  let d := c / 8
  let b := lineBank s c e.frame e.line
  let s1 := chanServed c (e.label s d) (modChan c (fun x => { x with writes := x.writes.erase e }) (chanUrgent c (chanWake c s)))
  let s2 := writeOut d e (activate c b.1 b.2 s1)
  let l := rawLine s2 d e.frame e.line
  retryPut c 3 b.1 b.2 (some ⟨e.frame, e.line, .raw l.bytes l.poison l.hint, 0, e.scrub⟩) s2

/-- How many writes a subchannel has queued. -/
def subQueued (s : State) (c sub : Nat) : Nat :=
  ((chanAt s c).writes.filter fun e => (placeLine e.frame e.line).2 % 2 == sub).length

/-- The writes queued for a line leave first (R295: a read is never answered from the queue). -/
def flushLine (d f i : Nat) (s : State) : State :=
  let c := chanOf d f i
  let s := chanWake c s
  let es := (chanAt s c).writes.filter fun e => e.frame == f && e.line == i
  if es = [] then s
  else forAll es (issueWrite c) (modChan c (fun x => { x with counts := bump 64 x.counts 4 1 }) s)

/-- A line's read joins the read queue of its subchannel; in a full one the scheduler's next is issued first. -/
def readPut (d f i label : Nat) (s : State) : State :=
  let c := chanOf d f i
  let mine := (chanAt s c).reads.filter fun r => (placeLine r.frame r.line).2 % 2 == (placeLine f i).2 % 2
  if (chanAt s c).state ≠ .active then s
  else
    let s1 := if mine.length < rejoinCap s (64 + c) 64 then s else match readPick s c mine with
      | some r => issueRead c r s
      | none => s
    modChan c (fun x => { x with reads := x.reads ++ [⟨f, i, label, dieTime s (4 + d)⟩] }) (chanArrive c label s1)

/-- A line is read from DRAM under a label: after the writes queued for it. -/
def dramRead (d f i label : Nat) (s : State) : State := readPut d f i label (flushLine d f i s)

/-- The next write of a channel leaves; none while `ALERT_N` holds its commands. -/
def writeNext (c : Nat) (s : State) : State :=
  if (chanAt s c).alertN then s
  else match writePick s c (chanAt s c).writes with
    | some e => issueWrite c e s
    | none => s

/-- A line write is queued: one already queued is replaced in place; a full subchannel lets its oldest go. -/
def queueWrite (d : Nat) (e : WEntry) (s : State) : State :=
  let c := chanOf d e.frame e.line
  if (chanAt s c).writes.any fun x => x.frame == e.frame && x.line == e.line then
    modChan c (fun x => { x with writes := x.writes.map fun y =>
      if y.frame = e.frame ∧ y.line = e.line then { e with time := y.time } else y }) s
  else
    let sub (x : WEntry) : Nat := (placeLine x.frame x.line).2 % 2
    let s1 := if subQueued s c (sub e) < rejoinCap s (64 + c) 64 ∨ (chanAt s c).alertN then s
      else match (chanAt s c).writes.find? fun x => sub x == sub e with
        | some x => issueWrite c x s
        | none => s
    modChan c (fun x => { x with writes := x.writes ++ [{ e with time := dieTime s (4 + d) }] })
      (chanArrive c (e.label s d) s1)

/-- Every request of a channel leaves its queues. -/
def drainChan (c : Nat) (s : State) : State :=
  let s1 := forAll (chanAt s c).reads (issueRead c) s
  forAll (chanAt s1 c).writes (issueWrite c) s1

/-- A rank that owes REFs and has no request queued. -/
def idleRank (s : State) (c : Nat) : Option Nat :=
  let busy := ((chanAt s c).writes.map fun e => rankOf (lineBank s c e.frame e.line).1) ++
    (chanAt s c).reads.map fun r => rankOf (lineBank s c r.frame r.line).1
  (chanRanks s c).find? fun r => decide (0 < smGet 0 (chanAt s c).owed r) && !busy.contains r

end Sys2Proof.Machine
end

