-- ==== Sys2Proof/Machine/Lines.lean ====
section
/-! DEFINITION. Lines of pages: memory error records, failed checks and their outcomes, reads from DRAM, the merge
buffer, Landing cache fills and write-backs (03 R72-R74; 04 R89-R93; 07 R195, R198; 11 R307-R309, R313). -/

namespace Sys2Proof.Machine

/-! ### Memory error records (11 R313) -/

/-- A record of Table 11.7 about a DRAM line. -/
def dramRecord (s : State) (kind d f i words bits agent : Nat) (page : Option (Nat × Nat)) : Nat :=
  let c := chanOf d f i
  let a := match chanGeometry s c with
    | some g => dramAddr g (placeLine f i).2
    | none => ⟨0, 0, 0, 0, 0, 0, 0⟩
  let own := match page with
    | some (n, p) => n * 2 ^ 160 + p * 2 ^ 172 + 2 ^ 206
    | none => 0
  kind + c * 2 ^ 8 + a.sub * 2 ^ 16 + a.modl * 2 ^ 17 + a.rank * 2 ^ 18 + a.group * 2 ^ 20 + a.bank * 2 ^ 23 +
    a.row * 2 ^ 32 + a.line * 2 ^ 50 + words * 2 ^ 64 + bits * 2 ^ 72 + agent * 2 ^ 80 +
    dieTime s (4 + d) / 1000 % 2 ^ 40 * 2 ^ 88 + f * 2 ^ 128 + own

/-- A record of a channel that names no line. -/
def chanRecord (s : State) (kind c : Nat) : Nat := kind + c * 2 ^ 8 + dieTime s (4 + c / 8) / 1000 % 2 ^ 40 * 2 ^ 88

/-- A memory error record enters the channel's log and the error log. -/
def memEvent (c severity : Nat) (page : Option (Nat × Nat)) (r : Nat) (s : State) : State :=
  logEvent 1 (64 + c) severity page r (modChan c (fun x => { x with log := (r :: x.log).take 16 }) s)

/-! ### Descriptor checks (R74) -/

/-- Whether a die has yet to finish the rewrite of a lodging's `ISOLATED` (R59). -/
def isoPending (s : State) (n d : Nat) : Bool := (lodgeAt s n).isoTo.isSome && decide (0 < smGet 0 (lodgeAt s n).isoLeft d)

/-- Whether the granule map answers for a page: the slot its directory entry names is valid and names its lodging and
granule (R70). -/
def mapGood (s : State) (n p : Nat) : Bool :=
  match (slotOf s n p).bind (smFind s.lod.slots) with
  | some r => r.lodging == n && r.granule == p / 65536
  | none => false

/-- Whether a descriptor passes its check. -/
def descGood (s : State) (n p : Nat) (x : Desc) : Bool :=
  x.owner == n && (x.isSealed == lodgeAttr s n 0) &&
    ((x.isolated == lodgeAttr s n 1) || isoPending s n (homeDie n p)) && mapGood s n p &&
    decide (x.version < 2 ^ 64 - 1) && decide (x.level < 16) &&
    (match x.state with
     | .packed => decide (9 ≤ x.len) && decide (x.len ≤ 4096) && decide (1 ≤ x.level)
     | .moving => decide (x.len = 0) || (decide (9 ≤ x.len) && decide (x.len ≤ 4096))
     | _ => decide (x.len = 0)) &&
    (secretFor s (homeDie n p) n x.phase).isSome

/-- The descriptor of a page, brought on chip (07 R193) and checked; a failed one is handled first. -/
def checkedDesc (n p : Nat) (s : State) : Option (Desc × State) :=
  let s0 := descFetch n p s
  match descAt s0 n p with
  | none => none
  | some x => if descGood s0 n p x then some (x, s0)
      else
        let s1 := descFail n p s0
        (descAt s1 n p).map fun y => (y, s1)

/-! ### A line is lost (R309, Table 7.8) -/

/-- A line of a frame is rewritten with zero data and `POISON`, unless it has a write queued. -/
def markBy (cl : AgentClass) (d f i : Nat) (hint : Bool) (s : State) : State :=
  if (chanAt s (chanOf d f i)).writes.any fun e => e.frame == f && e.line == i then s
  else queueWrite d ⟨f, i, .raw 0#512 true hint, 0, cl == .scrub⟩ s

/-- A line marked by a unit of class `HOST-ENGINE`. -/
def markLine (d f i : Nat) (hint : Bool) (s : State) : State := markBy .hostEngine d f i hint s

/-- A page's line reads as poison from now on: marked, `POISON` set, hosts told. -/
def poisonLine (n p i : Nat) (x : Desc) (s : State) : State :=
  let s1 := markLine (homeDie n p) x.loc i false s
  let s2 := match x.state with
    | .lost => s1
    | _ => setDesc n p { x with poison := true } s1
  notePage 2 n p s2

/-- An uncorrectable line read for an agent (R309): counted and recorded; the move or re-key visit that it stops has a log
entry of its own under its unit (log 159). -/
def uncorrectable (d f i words agent : Nat) (page : Option (Nat × Nat)) (s : State) : State :=
  let c := chanOf d f i
  let r := dramRecord s 2 d f i words 0 agent page
  let s1 := memEvent c 2 page r (modChan c (fun x => { x with ue := satAdd 64 x.ue 1 }) s)
  if agent = 2 ∨ agent = 3 then logEvent 1 (264 + 4 * agent + d) 1 page r s1 else s1

/-! ### A line as DRAM holds it (R195, R197) -/

/-- Whether a line of a sealed page fails its tag: its tag line cannot be read, or the tag differs, on one crypto engine and on
another (Table 7.8). That an engine errs on a good line is a free value (log 133). -/
def lineTagFails (n p i : Nat) (x : Desc) (k : PageKeys) (cipher : Line) (s : State) : Bool × State :=
  if x.isSealed = false then (false, s)
  else
    let ctr := nth 0 (ctrOf s n p) (i / 8)
    let good := metaReads s (homeDie n p) x.loc (1 + i / 8) &&
      nth 0 (tagsOf s n p) i == tagOf k.kt (leBytes 64 cipher.toNat) ctr (lineTagId p i) 0
    (!good || (Config.engineErrs s.fresh && Config.engineErrs (s.fresh + 1)), afterDraw (afterDraw s))

/-- The label that an agent's requests for a page of a lodging carry (04 R103, 06 R157): the tier mover's, the exporting
queue's, else the lodging's. -/
def agentLabel (s : State) (agent n : Nat) : Nat :=
  match agent with
  | 2 => pnum s P.TIER_LABEL
  | 5 => match s.job.jobs.find? fun j => j.stream.any fun t => t.op == 3 && t.lodging == n with
    | some j => prow s j.queue P.Q_LABEL
    | none => lodgeP s n P.LABEL
  | _ => lodgeP s n P.LABEL

/-- A line of a page's frame is read by an agent: its plaintext and poison, and the state after. A line that cannot be
read or fails its tag is lost with notice. -/
def fetchLine (agent n p i : Nat) (x : Desc) (s : State) : Line × Bool × State :=
  let d := homeDie n p
  let c := chanOf d x.loc i
  let s0 := useCrypto d (dramRead d x.loc i (agentLabel s agent n) (ctrFetch n p x s))
  if !((descAt s0 n p).any fun y => holdsFrame y x.loc) then (0#512, true, s0)
  else if regionPermits s0 c .hostEngine false (x.loc % 2 ^ 28) = false then 
    (0#512, true, unitDenied c (requester agent n p) .hostEngine false x.loc s0)
  else if chanDead s0 c then
    (0#512, true, poisonLine n p i x (uncorrectable d x.loc i 255 agent (some (n, p)) s0))
  else
    let r := rawLine s0 d x.loc i
    if r.poison then (0#512, true, s0)
    else match pageKeys s0 n p x.phase with
      | none => (0#512, true, s0)
      | some k =>
        let q := lineTagFails n p i x k r.bytes s0
        if q.1 then (0#512, true, poisonLine n p i x (logEvent 3 0xFFFF 2 (some (n, p)) 0 (failCount 0 n q.2)))
        else (lineCrypt false k p i r.bytes, false, q.2)

/-! ### The merge buffer (R308) -/

/-- A line with the bytes of a mask replaced. -/
def mergeBytes (old new : Line) (mask : BitVec 64) : Line :=
  let m := (below 64).foldl (fun a i => if mask.getLsbD i then a ||| ((0xFF#512) <<< (8 * i)) else a) 0#512
  (old &&& ~~~m) ||| (new &&& m)

/-- An entry is written back: with a full mask as it is, else merged with what the line holds. -/
def mergeOut (c : Nat) (e : MergeEntry) (s : State) : State :=
  let s0 := modChan c (fun x => { x with merge := x.merge.filter fun y =>
    !(y.lodging == e.lodging && y.page == e.page && y.line == e.line) }) s
  match descAt s0 e.lodging e.page with
  | none => s0
  | some x =>
    let d := homeDie e.lodging e.page
    if x.state ≠ .plain ∧ x.state ≠ .moving ∧ ¬(x.state = .lost ∧ x.hasFrame = true) then s0
    else if e.mask = BitVec.allOnes 64 then
      queueWrite d ⟨x.loc, e.line, .plain e.lodging e.page e.line e.bytes false, 0, false⟩ s0
    else
      let g := fetchLine 0 e.lodging e.page e.line x s0
      let s1 := modChan c (fun y => { y with counts := bump 64 y.counts 5 1 }) g.2.2
      if g.2.1 then
        queueWrite d ⟨x.loc, e.line, .raw 0#512 true false, 0, false⟩ s1
      else queueWrite d ⟨x.loc, e.line, .plain e.lodging e.page e.line (mergeBytes g.1 e.bytes e.mask) false, 0, false⟩ s1

/-- The merge entry of a line, if any. -/
def mergeFind (s : State) (n p i : Nat) (x : Desc) : Option MergeEntry :=
  (chanAt s (chanOf (homeDie n p) x.loc i)).merge.find? fun e => e.lodging == n && e.page == p && e.line == i

/-- The merge entry of a line is written back before the line is read (R295). -/
def mergeSettle (n p i : Nat) (x : Desc) (s : State) : State :=
  match mergeFind s n p i x with
  | none => s
  | some e => mergeOut (chanOf (homeDie n p) x.loc i) e s

/-- A partial write gathers in the merge buffer; with 32 entries the oldest is written back first. -/
def mergeWrite (n p i : Nat) (x : Desc) (bytes : Line) (mask : BitVec 64) (s : State) : State :=
  let c := chanOf (homeDie n p) x.loc i
  let put (m : List MergeEntry) (e : MergeEntry) : List MergeEntry :=
    m.map fun y => if y.lodging = n ∧ y.page = p ∧ y.line = i then e else y
  match mergeFind s n p i x with
  | some e =>
    let e1 := { e with bytes := mergeBytes e.bytes bytes mask, mask := e.mask ||| mask }
    let s1 := modChan c (fun y => { y with merge := put y.merge e1 }) s
    if e1.mask = BitVec.allOnes 64 then mergeOut c e1 s1 else s1
  | none =>
    let s1 := match (chanAt s c).merge with
      | e :: _ => if 32 ≤ (chanAt s c).merge.length then mergeOut c e s else s
      | [] => s
    modChan c (fun y => { y with merge := y.merge ++ [⟨n, p, i, bytes, mask, dieTime s (4 + c / 8)⟩] }) s1

/-! ### The Landing cache (04 R90-R93) -/

/-- The write-back of an evicted line is ordered (R93): it fires watches and goes where the descriptor says. -/
def writeBackLine (l : LcLine) (s : State) : State :=
  match descAt s l.lodging l.page with
  | none => s
  | some x =>
    if x.state = .plain ∨ (x.state = .moving ∧ x.len = 0) then
      queueWrite (homeDie l.lodging l.page) ⟨x.loc, l.line, .plain l.lodging l.page l.line l.data l.poison, 0, false⟩
        (fireWatch l.lodging l.page s)
    else s

/-- The oldest evicted line of a die is written back. -/
def writeBackNext (d : Nat) (s : State) : State :=
  match s.tier.evicted.find? fun l => homeDie l.lodging l.page == d with
  | none => s
  | some l => writeBackLine l (modTier (fun t => { t with evicted := t.evicted.erase l }) s)

/-- The evicted lines of a page are written back before the page is accessed. -/
def settlePage (n p : Nat) (s : State) : State :=
  forAll (s.tier.evicted.filter fun l => l.lodging == n && l.page == p) writeBackLine
    (modTier (fun t => { t with evicted := t.evicted.filter fun l => !(l.lodging == n && l.page == p) }) s)

/-- A way is emptied: a `DIRTY` line goes to be written back. -/
def lcEvict (k : Nat) (s : State) : State :=
  match smFind s.lc k with
  | none => s
  | some l =>
    let s1 := modLc (fun m => smErase m k) s
    if l.state = .dirty then modTier (fun t => { t with evicted := t.evicted ++ [l] }) s1 else s1

/-- The share group of a lodging's lines. -/
def lodgeGroup (s : State) (n : Nat) : Nat := lodgeP s n P.LABEL / 256

/-- A line enters the cache where a way is found (R92, R278); the answer says whether it did. -/
def lcFill (n p i : Nat) (st : LcState) (rrpv : Nat) (data : Line) (poison : Bool) (s : State) : State × Bool :=
  match lcFind s n p i with
  | some (k, l) => (lcPut k { l with state := st, data := data, rrpv := 0, poison := poison } s, true)
  | none => match (if sliceOwn s (homeSlice n p) then lcVictim s (lcSet n p i) else none) with
    | none => (s, false)
    | some (k, age) =>
      (lcPut k ⟨n, p, i, lodgeGroup s n, st, rrpv, data, poison⟩ (lcEvict k (lcAge (lcSet n p i) age s)), true)

/-- The newest value of a `PLAIN` page's line, without filling: from the cache, else from DRAM. -/
def lineValue (agent n p i : Nat) (x : Desc) (s : State) : Line × Bool × State :=
  match lcFind s n p i with
  | some (k, l) => (l.data, l.poison, lcTouch k l s)
  | none => fetchLine agent n p i x (mergeSettle n p i x s)

/-! ### Heat (04 R95, R96) -/

/-- `TIER_NOW_EPOCH` of a die. -/
def nowEpoch (s : State) (d : Nat) : Nat := smGet 0 s.tier.epoch d

/-- The age of a descriptor in epochs. -/
def descAge (s : State) (d : Nat) (x : Desc) : Nat := (nowEpoch s d + 2048 - x.touch) % 2048

/-- The effective heat. -/
def descHeat (s : State) (d : Nat) (x : Desc) : Nat :=
  x.heat / 2 ^ min 8 (descAge s d x / max 1 (pnum s P.TIER_PROMOTE_WINDOW))

/-- One of `TIER_COUNTS` grows. -/
def bumpTier (d i n : Nat) (s : State) : State :=
  modTier (fun t => { t with counts := smMod [] t.counts d fun m => bump 64 m i n }) s

/-- A page is queued for a move; not twice. Of promotions a die queues 4,096: one that finds the queue full is dropped and
counted (R100). -/
def queueMove (d : Nat) (r : MoveReq) (s : State) : State :=
  let q := smGet [] s.tier.queue d
  if (q.any fun y => y.n == r.n && y.p == r.p) || (s.tier.moves.any fun e => e.2.req.n == r.n && e.2.req.p == r.p) then s
  else if r.kind = .promote ∧ 4096 ≤ (q.filter fun y => y.kind == .promote).length then bumpTier d 4 1 s
  else modTier (fun t => { t with queue := smPut [] t.queue d (q ++ [r]) }) s

/-- A counted access (R96): `hot` says that it needed the tier. -/
def countAccess (agent n p : Nat) (hot isRead : Bool) (s : State) : State :=
  if 1 < agent then s
  else match descAt s n p with
    | none => s
    | some x =>
      if x.state ≠ .plain ∧ x.state ≠ .packed then s
      else
        let d := homeDie n p
        let h := min 255 (descHeat s d x + bNat hot)
        let s1 := setDesc n p { x with heat := h, touch := nowEpoch s d } s
        if isRead ∧ x.state = .packed ∧ pnum s P.TIER_PROMOTE_THRESHOLD < h ∧ bitOf (pnum s P.TIER_ENABLE) 1 ∧
            bitOf (lodgeP s n P.LODGE_TIER) 1 = false then queueMove d ⟨.promote, n, p, 0⟩ s1
        else s1

/-! ### Commands -/

/-- WRITE_BACK (R93). -/
def execWriteBack (d : MemDie) (s : State) : Out := .next (writeBackNext d.val s)

/-- LINE_WRITE_OUT (R196). -/
def execLineWriteOut (c : ChanId) (s : State) : Out := .next (writeNext c.val s)

/-- MERGE_HOLD (R308): the oldest entry of a channel has been held for `MERGE_HOLD`. -/
def execMergeHold (c : ChanId) (s : State) : Out :=
  .next (match (chanAt s c.val).merge with
    | [] => s
    | e :: _ => mergeOut c.val e s)

end Sys2Proof.Machine
end

