-- ==== Sys2Proof/Machine/Metadata.lean ====
section
/-! DEFINITION. The metadata that the DIMMs hold as ciphertext lines, and what comes of a metadata line that is read wrong (03
R68-R70, R74; 07 R182, R185, R186, R192, R193; 11 R309). -/

namespace Sys2Proof.Machine

/-! ### Layouts -/

/-- An extent record (03 Table 3.4). -/
def extentBytes (p : Nat) (e : Extent) : List Byte :=
  leBytes 16 (1 + bNat e.accepted * 2 + e.region * 2 ^ 2 + e.lodging * 2 ^ 8 + e.gen * 2 ^ 20 + e.dpa * 2 ^ 36 +
    e.len * 2 ^ 55 + e.logical * 2 ^ 74 + p * 2 ^ 92)

/-- A slot-table entry (03 Table 3.11). -/
def slotEntry (s : State) (d m : Nat) : Nat :=
  match smFind s.lod.slots m with
  | none => 0
  | some r => 1 + 2 * bNat r.isSealed + nth 0 r.segs d * 2 ^ 2 + r.lodging * 2 ^ 28 + r.granule * 2 ^ 40

/-- The lodging and granule whose directory entry stands at a position (R70). -/
def dirOwner (s : State) (pos : Nat) : Option (Nat × Nat) :=
  (s.lod.dirBase.find? fun e => decide (e.2 ≤ pos) && (smFind (lodgeAt s e.1).slots (pos - e.2)).isSome).map fun e =>
    (e.1, pos - e.2)

/-- A directory entry (R70). -/
def dirEntry (s : State) (pos : Nat) : Nat :=
  match dirOwner s pos with
  | some (n, g) => ((smFind (lodgeAt s n).slots g).getD 0) + 2 ^ 31
  | none => 0

/-- A line of the granule map: the slot table, then the directory. -/
def mapLine (s : State) (d off : Nat) : List Byte :=
  if off < 32768 then (below 8).flatMap fun j => leBytes 8 (slotEntry s d (8 * off + j))
  else (below 16).flatMap fun j => leBytes 4 (dirEntry s (16 * (off - 32768) + j))

/-- A line of the extent-record region: 512 records of 16 bytes a port, in port order (log 134). -/
def extentLine (s : State) (off : Nat) : List Byte :=
  (below 4).flatMap fun j => match (smGet [] s.lod.extKept (off / 128))[off % 128 * 4 + j]? with
    | some e => extentBytes (off / 128) e
    | none => leBytes 16 0

/-- The node at a line of a node block (07 Table 7.6). -/
def nodeOfLine (line : Nat) : Option (Nat × Nat × Nat) :=
  ((below 2).flatMap fun h => (below 5).map fun l => (h, l + 1)).findSome? fun q =>
    if nodeBase q.1 q.2 ≤ line ∧ line < nodeBase q.1 q.2 + levelCount q.1 q.2 then some (q.1, q.2, line - nodeBase q.1 q.2) else none

/-- A node's line (Table 7.5). -/
def nodeLine (c : List Nat × Nat) : List Byte := c.1.flatMap (leBytes 8) ++ leBytes 8 c.2

/-- A line of a granule's descriptor segment as the DIMM holds it (R192): descriptors, the die's own node block, the mirror of its
partner's nodes. -/
def segmentLine (s : State) (d m off : Nat) : List Byte :=
  let sealedNode (e : Nat) (copy : Nat → Nat → Nat → List Nat × Nat) (r : Nat) : Option (List Byte) :=
    (nodeOfLine r).map fun q => metaCipher s d (nodeTweak (nodeId e m q.1 q.2.1 q.2.2)) (nodeLine (copy q.1 q.2.1 q.2.2))
  let zero := List.replicate 64 0#8
  if off < 8192 then leafCipher s false d m off
  else if off < 16384 then
    let r := off - 8192
    (sealedNode d (fun h l k => (nodeCounters s d m h l k, macAt s d m h l k)) r).getD
      (if 4098 ≤ r ∧ r ≤ 7169 then metaCipher s d (leafTagTweak d m (r - 4098)) ((below 8).flatMap fun e =>
          let q := leafPlace ((r - 4098) * 8 + e)
          leBytes 8 (leafTagAt s d m q.1 q.2))
        else zero)
  else
    let e := (d + 2) % 4
    (sealedNode e (fun h l k => mirrorCopy s e m h l k) (off - 16384)).getD zero

/-- A line of a sealed group's metadata block (R185, R186): the counter line of a frame, or a tag line. -/
def groupLine (s : State) (d : Nat) (fr : SMap (Option (Nat × Nat))) (at_ : Nat) : List Byte :=
  match (smFind fr (at_ / 9)).join with
  | none => List.replicate 64 0#8
  | some (n, p) =>
    if at_ % 9 = 0 then metaCipher s d (ctrTweak n p) ((ctrOf s n p).flatMap (leBytes 8))
    else metaCipher s d (tagTweak n p (at_ % 9 - 1)) ((slice (8 * (at_ % 9 - 1)) 8 (tagsOf s n p)).flatMap (leBytes 8))

/-- A line of metadata as the DIMM holds it, where it is one that the model keeps as the values it spells. -/
def metaLine (s : State) (d f i : Nat) : Option (List Byte) :=
  match useAt s d f with
  | some (g, ⟨_, .region 0 _⟩) =>
    let off := (f - g) * 64 + i
    some (metaCipher s d (regionTweak 0 off) (mapLine s d off))
  | some (g, ⟨_, .region 2 _⟩) =>
    let off := (f - g) * 64 + i
    some (metaCipher s d (regionTweak 1 off) (extentLine s off))
  | some (g, ⟨_, .region 3 _⟩) => some (fit 0#8 64 (slice (64 * ((f - g) * 64 + i)) 64 (smGet [] s.prot.images (8 + d / 2))))
  | some (g, ⟨_, .region 4 m⟩) => some (segmentLine s d m ((f - g) * 64 + i))
  | some (g, ⟨_, .group fr⟩) => if f - g < 70 then none else some (groupLine s d fr ((f - g - 70) * 64 + i))
  | _ => none

/-- A line as the DIMM holds it, data and metadata alike. -/
def storedLine (s : State) (d f i : Nat) : RawLine :=
  match metaLine s d f i with
  | some b => ⟨BitVec.ofNat 512 (leNat b), bitOf (markAt s d f i) 0, true⟩
  | none => rawLine s d f i

/-! ### Metadata that fails -/

/-- The state of a code of Table 3.6; 6 and 7 are reserved. -/
def pageStateOf (c : Nat) : Option PageState :=
  nth none [some .unmapped, some .zero, some .plain, some .packed, some .moving, some .lost] c

/-- A descriptor read from its 256 bits (Table 3.5); none where it holds a reserved `STATE` code. `SEALED` and `ISOLATED` of a
`SLOT` reading are the lodging's (R71); whether a `LOST` page holds a refill frame is the model's own. -/
def readDesc (s : State) (n : Nat) (o : Desc) (v : Nat) : Option Desc :=
  (pageStateOf (bitsOf v 0 3)).map fun st =>
    let x : Desc := { o with
      state := st, owner := bitsOf v 3 12, level := bitsOf v 15 4, dict := bitsOf v 19 10, phase := bitOf v 29
      version := bitsOf v 64 64, tag := bitsOf v 128 64, crc := bitsOf v 192 32, len := bitsOf v 224 13
      heat := bitsOf v 237 8, touch := bitsOf v 245 11 }
    if x.hasSlot then { x with loc := bitsOf v 30 34, poison := false, pinned := false, isSealed := lodgeAttr s n 0
                               isolated := lodgeAttr s n 1 }
    else { x with loc := bitsOf v 34 30, poison := bitOf v 30, pinned := bitOf v 31, isSealed := bitOf v 32, isolated := bitOf v 33 }

/-- A descriptor line of an unsealed lodging arrives with other bits than were written and with good codes: both descriptors are
what it spells where they pass their check, else the line fails (R74). -/
def descLineRead (d m off : Nat) (bytes : List Byte) (s : State) : State :=
  match smFind s.lod.slots m with
  | none => s
  | some r =>
    let n := r.lodging
    let p (e : Nat) : Nat := descPage n r.granule d (2 * off + e)
    let plain := metaCrypt false s d (descTweak d n (p 0)) bytes
    let got (e : Nat) : Option Desc := readDesc s n ((descAt s n (p e)).getD {}) (leNat (slice (32 * e) 32 plain))
    match got 0, got 1 with
    | some x, some y => if descGood s n (p 0) x && descGood s n (p 1) y then setDesc n (p 1) y (setDesc n (p 0) x s)
        else descFail n (p 0) s
    | _, _ => descFail n (p 0) s

/-- Every descriptor of a granule on a die fails its check. -/
def granuleFails (n g d : Nat) (s : State) : State :=
  forAll (below 8192) (fun x => descLost n (descPage n g d (2 * x))) s

/-- A line of a sealed group's metadata blocks fails: a counter line, or those of the tags of eight lines that `bad` names. A
counter line held dirty on chip is written again later. -/
def groupMetaBad (fr : SMap (Option (Nat × Nat))) (at_ : Nat) (bad : Nat → Nat → Nat → Bool) (s : State) : State :=
  match (smFind fr (at_ / 9)).join with
  | none => s
  | some (n, p) =>
    if at_ % 9 = 0 then
      (match slotOf s n p with
       | some m => leafBad (homeDie n p) m (ctrLeaf p) s
       | none => s)
    else match descAt s n p with
      | some x => forAll ((below 8).filter (bad n p)) (fun j t => poisonLine n p (8 * (at_ % 9 - 1) + j) x
          (logEvent 3 0xFFFF 2 (some (n, p)) 0 (failCount 0 n t))) s
      | none => s

/-- A tag line of a sealed page as read with other bits than were written: whether its tag `j` differs from the one last written. -/
def tagAltered (s : State) (d k : Nat) (bytes : List Byte) (n p j : Nat) : Bool :=
  leNat (slice (8 * j) 8 (metaCrypt false s d (tagTweak n p k) bytes)) != nth 0 (tagsOf s n p) (8 * k + j)

/-- A leaf-tag line as read with other bits than were written: each of the eight tags is compared with the one recomputed (R193
step 4), and the leaves of those that differ fail. -/
def leafTagsRead (d m t : Nat) (bytes : List Byte) (s : State) : State :=
  let plain := metaCrypt false s d (leafTagTweak d m t) bytes
  forAll (below 8) (fun j u =>
    let q := leafPlace (8 * t + j)
    if leNat (slice (8 * j) 8 plain) = leafTagOf u d m q.1 q.2 then u else leafBad d m (8 * t + j) u) s

/-- An uncorrectable line of the granule map (R309): a slot-table line takes eight slots with it; a directory line is rebuilt from
the slot table, which leaves it holding what it held. -/
def mapLineBad (d off : Nat) (s : State) : State :=
  if 32768 ≤ off then s
  else forAll (below 8) (fun j t => match smFind t.lod.slots (8 * off + j) with
    | none => t
    | some r => granuleFails r.lodging r.granule d
        (modLod (fun l => { l with stranded := bump 64 l.stranded d ((if r.isSealed then 1536 else 512) * 1024) }) t)) s

/-- A line of the granule map arrives with other bits than were written and with good codes: the entries that no longer compare
fail every descriptor that they address (R70). -/
def mapLineRead (d off : Nat) (bytes : List Byte) (s : State) : State :=
  let plain := metaCrypt false s d (regionTweak 0 off) bytes
  if off < 32768 then forAll (below 8) (fun j t => match smFind t.lod.slots (8 * off + j) with
    | none => t
    | some r =>
      let e := leNat (slice (8 * j) 8 plain)
      if bitOf e 0 = false ∨ bitsOf e 28 12 ≠ r.lodging ∨ bitsOf e 40 18 ≠ r.granule then granuleFails r.lodging r.granule d t
      else modLod (fun l => { l with slots := smSet l.slots (8 * off + j) { r with segs := if d < r.segs.length then setNth r.segs d (bitsOf e 2 23) else r.segs } }) t) s
  else forAll (below 16) (fun j t => match dirOwner t (16 * (off - 32768) + j) with
    | none => t
    | some (n, g) =>
      let e := leNat (slice (4 * j) 4 plain)
      if bitOf e 31 && (smFind (lodgeAt t n).slots g) == some (bitsOf e 0 18) then t else granuleFails n g d t) s

/-- A line of a granule's descriptor segment fails (R192): a leaf, a node, the tags of eight leaves. A bad mirror copy is written
again from the home copy. -/
def segmentBad (d m off : Nat) (s : State) : State :=
  if off < 8192 then leafBad d m off s
  else if off < 16384 then
    (let r := off - 8192
     match nodeOfLine r with
     | some (h, level, k) => nodeBad d m h level k s
     | none => if 4098 ≤ r ∧ r ≤ 7169 then forAll (below 8) (fun j => leafBad d m ((r - 4098) * 8 + j)) s else s)
  else match nodeOfLine (off - 16384) with
    | some (h, level, k) => modProt (fun x => { x with nodeM := smErase x.nodeM (nodeId ((d + 2) % 4) m h level k) }) s
    | none => s

/-- A metadata line arrives with other bits than were written and with good codes: what verifies it fails. -/
def metaRead (d f i : Nat) (bytes : List Byte) (s : State) : State :=
  match useAt s d f with
  | some (g, ⟨_, .region 0 _⟩) => mapLineRead d ((f - g) * 64 + i) bytes s
  | some (g, ⟨_, .region 4 m⟩) =>
    let off := (f - g) * 64 + i
    if off < 8192 ∧ (smFind s.lod.slots m).any (fun r => !r.isSealed) then descLineRead d m off bytes s
    else if 12290 ≤ off ∧ off ≤ 15361 then leafTagsRead d m (off - 12290) bytes s
    else segmentBad d m off s
  | some (g, ⟨_, .group fr⟩) =>
    let at_ := (f - g - 70) * 64 + i
    groupMetaBad fr at_ (tagAltered s d (at_ % 9 - 1) bytes) s
  | _ => s

end Sys2Proof.Machine
end

