-- ==== Sys2Proof/Machine/HotSwap.lean ====
section
/-! DEFINITION. Safelight power entry: the main input's insertion sequence, breaker, trips and
measurement, and the branches' own breakers (15). The accumulators count 2^-48 of the trip
budget (log 11). -/

namespace Sys2Proof.Machine

/-! ### The breaker curve (R383) -/

/-- One trip budget in the unit of the accumulators. -/
abbrev budget : Nat := 2 ^ 48

/-- Current of point `k` of a curve, in mA. -/
def curveI (c k : Nat) : Nat := bitsOf c (64 * k) 32
/-- Time of point `k` of a curve, in microseconds. -/
def curveT (c k : Nat) : Nat := bitsOf c (64 * k + 32) 32
/-- The allowance of point `k`. -/
def curveK (c k : Nat) : Nat := (curveI c k ^ 2 - curveI c 0 ^ 2) * curveT c k

/-- The allowance K for a current above I_0, as numerator and denominator. -/
def curveKat (c i : Nat) : Nat × Nat :=
  if i ≤ curveI c 1 then (curveK c 1, 1)
  else match (below 6).find? (fun j => i ≤ curveI c (j + 2)) with
    | some j => (curveK c (j + 1) * (curveI c (j + 2) - i) + curveK c (j + 2) * (i - curveI c (j + 1)),
        curveI c (j + 2) - curveI c (j + 1))
    | none => (curveK c 7, 1)

/-- One sample of the accumulator: `us` microseconds at current `i`. -/
def accumStep (curve tauMs us i a : Nat) : Nat :=
  if curveI curve 0 < i then
    let k := curveKat curve i
    if k.1 = 0 then 2 * budget
    else min (2 * budget) (a + (i ^ 2 - curveI curve 0 ^ 2) * us * budget * k.2 / k.1)
  else a * (tauMs * 1000 - us) / (tauMs * 1000)

/-- Whether an accumulator is below `HS_RESTART_MARK` (R384). -/
def belowMark (s : State) (a : Nat) : Bool := decide (a * 100 < pnum s P.HS_RESTART_MARK * budget)

/-! ### The main input -/

/-- One of the eight `HS_COUNTS` grows, here and in the guest book's period. -/
def bumpHs (i : Nat) (s : State) : State :=
  gbAdd (5050 + i) 1 (modHs (fun h => { h with counts := bump 32 h.counts i 1 }) s)

/-- `HS_LAST_TRIP`: cause, branch + 1 or 0, peak current, timebase in ms. -/
def recordTrip (cause branch peak : Nat) (s : State) : State :=
  modGb (fun g => { g with tripSeen := true })
    (modHs (fun h => { h with
      lastTrip := cause + branch * 2 ^ 8 + (peak % 2 ^ 32) * 2 ^ 64 +
        (s.slTime / 1000000 % 2 ^ 32) * 2 ^ 96 }) s)

/-- Both main gates pulled down, and a state entered. -/
def openMain (st : HsState) (s : State) : State :=
  modHs (fun h => { h with state := st, gateA := false, gateB := false, underUs := 0, dropUs := 0,
                           diffUs := 0 }) s

/-- The main input opens, whatever for: the dies lose power where it was `ON` (R386). -/
def mainOpens (st : HsState) (s : State) : State :=
  if s.hs.state = .on then logPlain 13 4 (mainPowerLost (openMain st s))
  else openMain st s

/-- The HS_COUNTS row a trip cause counts in. -/
def tripCount (cause : Nat) : Nat := if cause = 1 then 1 else if cause = 2 then 2 else 3

/-- A trip of the main input, causes 1 to 4 (R381-R385): both gates open, the accumulator is at
least 1, cause 1 latches, and the others latch once `HS_RETRY_LIMIT` retries have been made. -/
def mainTrip (cause : Nat) (s : State) : State :=
  let st : HsState :=
    if cause = 1 ∨ pnum s P.HS_RETRY_LIMIT ≤ s.hs.retries then .latched else .tripped
  let wasOn := s.hs.state
  let s1 := bumpHs (tripCount cause) (recordTrip cause 0 (max s.hs.peak s.hs.current) s)
  let s2 := modHs (fun h => { h with
    tripCause := cause, accum := max h.accum budget, accum2 := max h.accum2 budget }) (mainOpens st s1)
  if wasOn = .on then s2 else logPlain 13 1 s2

/-- Whether a main gate is on; in `CHECK` it is stage B that carries what current there is (R382, Table 15.3). -/
def mainGateOn (s : State) : Bool := s.hs.gateA || s.hs.gateB || s.hs.state == .check

/-- The main input leaves its window in `ON` (R379): no trip, no change of an accumulator. -/
def windowOpen (cause : Nat) (s : State) : State :=
  modHs (fun h => { h with windowReturn := true })
    (mainOpens .window (bumpHs 4 (recordTrip cause 0 s.hs.peak s)))

/-- The state in which the sequence waits after the voltage window (steps 3 and 4). -/
def coolingOrDelay (s : State) : HsState := if belowMark s s.hs.accum then .delay else .cooling

/-- Whether the last sample of `MAIN_VIN` lies within `HS_UV` and `HS_OV`. -/
def vinInWindow (s : State) : Bool :=
  decide (pnum s P.HS_UV ≤ s.hs.vin) && decide (s.hs.vin ≤ pnum s P.HS_OV)

/-- Ten microseconds with the main input `ON` count towards `OP_TIME`, in units of 225 s (18 R434). -/
def opTick (s : State) : State :=
  if s.hs.state = .on then
    modGb (fun g =>
      if 225000000 ≤ g.opSub + 10 then { g with opSub := 0, opTime := satAdd 32 g.opTime 1 }
      else { g with opSub := g.opSub + 10 }) s
  else s

/-- A sample of the main input is stored: power, energy in microjoules, guest-book figures (R391). -/
def measureMain (vin vmid vout cur : Nat) (s : State) : State :=
  let e := s.hs.energySub + vin * cur
  gbRail 8 vin (gbRail 9 vout (gbMax 5000 cur (gbAdd 5001 (e / 100000)
    (modHs (fun h => { h with
      vin := vin, vmid := vmid, vout := vout, current := cur, power := vin * cur / 1000
      energy := min (2 ^ 64 - 1) (h.energy + e / 100000), energySub := e % 100000
      peak := if h.state = .on then max h.peak cur else h.peak }) s))))

/-- The main accumulator of each island takes the island's own sample (R376); it runs whether the gates are open or closed.
A standby island that is lost runs none. -/
def accumMain (other : Nat) (s : State) : State :=
  let next := accumStep (pnum s P.HS_CURVE) (pnum s P.HS_COOL_TAU) 10
  modHs (fun h => { h with
    accum := next h.current h.accum
    accum2 := if s.sl.standbyAlive then next other h.accum2 else h.accum2 }) s

/-- The cause, if any, with which an island's breaker opens a gate: the fast trip before the slow one (R392), on the currents
and the accumulators of both islands (R376). -/
def breakerCause (s : State) (fast cur accum other accum2 : Nat) : Option Nat :=
  if fast < cur ∨ (s.sl.standbyAlive ∧ fast < other) then some 1
  else if budget ≤ accum ∨ (s.sl.standbyAlive ∧ budget ≤ accum2) then some 2
  else none

/-- The current the branches report together. -/
def branchSum (s : State) : Nat := (s.hs.branches.map fun e => e.2.current).sum

/-- What 10 microseconds in `ON` bring: the window, and the two backup measures (R379, R383). -/
def sampleOn (s : State) : State :=
  let under := if s.hs.vin + 200 < pnum s P.HS_UV then s.hs.underUs + 10 else 0
  let drop := if s.hs.vout + 300 < s.hs.vin then s.hs.dropUs + 10 else 0
  let diff := if s.hs.current + 2000 < branchSum s then s.hs.diffUs + 10 else 0
  let s1 := modHs (fun h => { h with underUs := under, dropUs := drop, diffUs := diff }) s
  if pnum s P.HS_OV < s.hs.vin then windowOpen 6 s1
  else if 1000 ≤ under then windowOpen 5 s1
  else if 1000 ≤ drop ∨ 1000 ≤ diff then mainTrip 2 s1
  else s1

/-- What 10 microseconds in `RAMP` bring: the power limit's share and the time-out (R381), by the parameters with which the
ramp began (R392). -/
def sampleRamp (s : State) : State :=
  let gov := decide (s.hs.rampPlim * 1000000 ≤ (s.hs.vin - s.hs.vout) * s.hs.current)
  let s1 := modHs (fun h => { h with
    plimUs := if gov then h.plimUs + 10 else h.plimUs, rampUs := h.rampUs + 10 }) s
  if s.hs.rampPlimTime * 1000 ≤ s1.hs.plimUs then mainTrip 3 s1
  else if s.hs.rampTimeout * 1000 ≤ s1.hs.rampUs then mainTrip 4 s1
  else s1

/-- One 10 microsecond sample of the main input, with the current that the standby island measures (R376, R383):
measurement, accumulators, fast trip before slow trip (R392), then what the present state makes of it. -/
def mainSample (vin vmid vout cur other : Nat) (s : State) : State :=
  let s1 := accumMain other (opTick (measureMain vin vmid vout cur s))
  match (if mainGateOn s1 then breakerCause s1 (pnum s1 P.HS_FAST_TRIP) cur s1.hs.accum other s1.hs.accum2 else none) with
  | some c => mainTrip c s1
  | none => match s1.hs.state with
    | .window =>
      if vinInWindow s1 then modHs (fun h => { h with state := coolingOrDelay s1, windowReturn := false }) s1
      else s1
    | .cooling => modHs (fun h => { h with state := coolingOrDelay s1 }) s1
    | .delay => if vinInWindow s1 then s1 else modHs (fun h => { h with state := .window }) s1
    | .ramp => sampleRamp s1
    | .on => sampleOn s1
    | _ => s1

/-- The main fast trip (R382): it acts wherever a gate is on. -/
def fastTrip (cur : Nat) (s : State) : State :=
  let s1 := modHs (fun h => { h with current := cur, peak := max h.peak cur }) s
  if mainGateOn s ∧ pnum s P.HS_FAST_TRIP < cur then mainTrip 1 s1 else s1

/-- The seating inputs take new levels (R378). -/
def seatChange (a b : Bool) (s : State) : State :=
  let s1 := modHs (fun h => { h with seatA := a, seatB := b }) s
  if (a && b) = false then
    if s.hs.state = .unseated then s1
    else
      let s2 := bumpHs 5 (onlyIf (s.hs.state = .on) (recordTrip 7 0 s.hs.peak) s1)
      let s3 := onlyIf (s.ps.state = .entering ∨ s.ps.state = .night ∨ s.ps.state = .off)
        (modPs fun p => { p with lastWake := 7 + (s.slTime / 1000 % 2 ^ 64) * 2 ^ 64 }) s2
      modHs (fun h => { h with windowReturn := false }) (mainOpens .unseated s3)
  else if s.hs.state = .unseated then
    bumpHs 0 (modHs (fun h => { h with state := .seating, retries := 0 }) s1)
  else s1

/-- Step 1 ends: both inputs held high for the debounce, unless the flash is absent (R377, R454). -/
def seatDebounce (s : State) : State :=
  if s.hs.state = .seating ∧ s.hs.seatA ∧ s.hs.seatB ∧ s.sl.flashOk then
    modHs (fun h => { h with state := .window }) s
  else s

/-- Step 4 ends: stage B is tested next (R377). -/
def insertDelayEnd (s : State) : State :=
  if s.hs.state = .delay then modHs (fun h => { h with state := .check }) s else s

/-- Step 5 ends (R377, R380): a failed check latches with cause 8 and asserts HS_FLT_N; a passed one
releases it, turns stage B on and starts the ramp. -/
def mosfetCheck (midOff midOn vin rise : Nat) (s : State) : State :=
  if s.hs.state ≠ .check then s
  else if midOff < 1000 ∧ vin < midOn + 500 ∧ rise ≤ 500 then
    modHs (fun h => { h with
      state := .ramp, gateA := true, gateB := true, fltN := false, plimUs := 0, rampUs := 0
      rampPlim := pnum s P.HS_FET_PLIM, rampPlimTime := pnum s P.HS_PLIM_TIME, rampTimeout := pnum s P.HS_RAMP_TIMEOUT }) s
  else
    logPlain 13 1 (bumpHs 7 (recordTrip 8 0 s.hs.current
      (modHs (fun h => { h with state := .latched, gateA := false, gateB := false, tripCause := 8, fltN := true }) s)))

/-- `HS_RETRY_TIME` after a trip: a retry starts at step 2 where seating still holds (R385). -/
def retryTime (s : State) : State :=
  if s.hs.state = .tripped ∧ s.hs.seatA ∧ s.hs.seatB then
    bumpHs 6 (modHs (fun h => { h with state := .window, retries := h.retries + 1 }) s)
  else s

/-- One hour in `ON`: the retry count returns to 0 (R385). -/
def retryCountClear (s : State) : State :=
  if s.hs.state = .on ∧ s.hs.onSince + 3600 * 10 ^ 9 ≤ s.slTime then modHs (fun h => { h with retries := 0 }) s else s

/-- `HS_CMD` `CLEAR` (R385): allowed in `TRIPPED`, and in `LATCHED` but with cause 8. -/
def clearAllowed (s : State) : Bool :=
  s.hs.state == .tripped || (s.hs.state == .latched && s.hs.tripCause != 8)

/-- What `CLEAR` does where it is allowed. -/
def clearTrip (s : State) : State :=
  modHs (fun h => { h with state := .window, retries := 0 }) s

/-- The level `HS_ALERT` (R386). -/
def hsAlertLevel (s : State) : Bool :=
  s.hs.state == .tripped || s.hs.state == .latched ||
  s.hs.branches.any (fun e => e.2.state == .tripped || e.2.state == .fetFault) ||
  (s.hs.windowReturn && s.hs.state == .window)

/-! ### The branches (R387-R391) -/

/-- Branch `w`. -/
def branchAt (s : State) (w : Nat) : Branch := smGet {} s.hs.branches w
/-- Branch `w` changed. -/
def modBranch (w : Nat) (f : Branch → Branch) (s : State) : State :=
  modHs (fun h => { h with branches := smMod {} h.branches w f }) s

/-- Whether a branch carries its wing: power good with its gate on, or conducting with its gate off (R388). -/
def branchLive (s : State) (w : Nat) : Bool :=
  ((branchAt s w).state == .on && (branchAt s w).gate) || (branchAt s w).state == .fetFault

/-- A branch is asked to close: it waits for its turn to ramp, in order of request (R387). -/
def branchRequest (w : Nat) (s : State) : State :=
  if s.hs.state = .on ∧ s.hs.rampQueue.contains w = false ∧ branchLive s w = false ∧ (branchAt s w).ramping = false then
    modHs (fun h => { h with rampQueue := h.rampQueue ++ [w] })
      (modBranch w (fun b => { b with state := .ramp, ramping := false, cooling := b.state == .tripped }) s)
  else s

/-- Whether some branch is ramping. -/
def someRamping (s : State) : Bool := s.hs.branches.any fun e => e.2.ramping

/-- The first waiting branch (R387); one that was `TRIPPED` waits until its accumulator is below the restart mark (R389). -/
def nextRamp (s : State) : Option Nat :=
  s.hs.rampQueue.find? fun w => !(branchAt s w).cooling || belowMark s (branchAt s w).accum

/-- A waiting branch starts its ramp (R387). -/
def branchRampStart (w : Nat) (s : State) : State :=
  if s.hs.state = .on ∧ someRamping s = false ∧ nextRamp s = some w then
    modBranch w (fun b => { b with ramping := true, gate := true })
      (modHs (fun h => { h with rampQueue := h.rampQueue.filter (· ≠ w) }) s)
  else s

/-- A branch opens by command of the wing's shutter, or with the main input (R388): its gate is
pulled down; it reports off below 1.0 V. -/
def branchOpen (w : Nat) (s : State) : State :=
  modHs (fun h => { h with rampQueue := h.rampQueue.filter (· ≠ w) })
    (modBranch w (fun b => { b with gate := false, ramping := false,
                                    state := if b.state = .ramp then .off else b.state }) s)

/-- A branch trip itself (R389): its gate off, its accumulator at least 1, recorded and logged. -/
def branchTripCore (w cause cur : Nat) (s : State) : State :=
  logEvent 13 (96 + w) 3 none 0
    (bumpHs (tripCount cause) (recordTrip cause (w + 1) cur
      (modHs (fun h => { h with rampQueue := h.rampQueue.filter (· ≠ w) })
        (modBranch w (fun b => { b with state := .tripped, gate := false, ramping := false,
                                        accum := max b.accum budget, accum2 := max b.accum2 budget }) s))))

/-- A sample of a branch: voltage, current, power, energy, the accumulator of each island (R376, R387, R391). -/
def measureBranch (w vout cur other : Nat) (s : State) : State :=
  let b := branchAt s w
  let e := b.energySub + vout * cur
  let next := accumStep (pnum s P.BR_CURVE) (pnum s P.HS_COOL_TAU) 40
  gbMax (5010 + w) cur (gbAdd (5030 + w) (e / 25000)
    (modBranch w (fun b => { b with
      vout := vout, current := cur, power := vout * cur / 1000
      energy := min (2 ^ 64 - 1) (b.energy + e / 25000), energySub := e % 25000
      accum := next cur b.accum
      accum2 := if s.sl.standbyAlive then next other b.accum2 else b.accum2 }) s))

/-- The cause, if any, with which a sampled branch trips. -/
def branchTripCause (w cur other : Nat) (s : State) : Option Nat :=
  let b := branchAt s w
  if b.gate = false ∨ b.state = .fetFault then none
  else breakerCause s (pnum s P.BR_FAST_TRIP) cur b.accum other b.accum2

/-! ### Commands that touch the main input alone -/

/-- SEAT_CHANGE (R378). -/
def execSeatChange (a b : Bool) (s : State) : Out := .next (seatChange a b s)
/-- HS_SEAT_DEBOUNCE (R377). -/
def execHsSeatDebounce (s : State) : Out := .next (seatDebounce s)
/-- MAIN_SAMPLE (R383). -/
def execMainSample (vin vmid vout : BitVec 16) (cur : IslandCurrents) (s : State) : Out :=
  .next (mainSample vin.toNat vmid.toNat vout.toNat cur.active.toNat cur.other.toNat s)
/-- FAST_TRIP (R382). -/
def execFastTrip (cur : BitVec 32) (s : State) : Out := .next (fastTrip cur.toNat s)
/-- HS_INSERT_DELAY (R377). -/
def execHsInsertDelay (s : State) : Out := .next (insertDelayEnd s)
/-- MOSFET_CHECK (R380). -/
def execMosfetCheck (midOff midOn vin rise : BitVec 16) (s : State) : Out :=
  .next (mosfetCheck midOff.toNat midOn.toNat vin.toNat rise.toNat s)
/-- HS_RETRY_TIME (R385). -/
def execHsRetryTime (s : State) : Out := .next (retryTime s)
/-- RETRY_COUNT_CLEAR (R385). -/
def execRetryCountClear (s : State) : Out := .next (retryCountClear s)
/-- BRANCH_RAMP_START (R387). -/
def execBranchRampStart (w : WingId) (s : State) : Out := .next (branchRampStart w.val s)

end Sys2Proof.Machine
end

