-- ==== Sys2Proof/Machine/PagePath.lean ====
section
/-! DEFINITION. The packed read path and what reads and writes do in each descriptor state (03 R72, R73, R78; 04 R90,
R91, R110; 07 R188, R197). -/

namespace Sys2Proof.Machine

/-! ### The packed read path (R197) -/

/-- The frame and line of line `j` of a run. -/
def runLine (slot j : Nat) : Nat × Nat := ((slot * 4 + j) / 64, (slot * 4 + j) % 64)

/-- The lines of a run are read under a label. -/
def flushRun (d slot k label : Nat) (s : State) : State :=
  forAll (below (4 * k)) (fun j t => dramRead d (runLine slot j).1 (runLine slot j).2 label t) s

/-- The first line of a run that cannot be read. -/
def runBad (s : State) (d slot k : Nat) : Option Nat :=
  firstBelow (4 * k) fun j =>
    let q := runLine slot j
    markAt s d q.1 q.2 % 2 == 1 || chanDead s (chanOf d q.1 q.2)

/-- A run encrypted or decrypted in its 512-byte chunks (R183). -/
def runCrypt (enc : Bool) (k : PageKeys) (p : Nat) (bytes : List Byte) : List Byte :=
  (below ((bytes.length + 511) / 512)).flatMap fun c => xtsFrom enc k.k1 k.k2 (p * 8 + c) 0 (slice (512 * c) 512 bytes)

/-- The first line of a run that a region checker denies. -/
def runDenied (s : State) (d slot k : Nat) : Option Nat :=
  firstBelow (4 * k) fun j =>
    let q := runLine slot j
    !regionPermits s (chanOf d q.1 q.2) .hostEngine false (q.1 % 2 ^ 28)

/-- What decompressor `a`, and after an error `b`, make of an input of `len` bytes whose right decode is `truth` (05 R155):
the output or the error of the repeat, and the engine whose decode failed where the other's succeeded. One that errs on a
good input finds its output's check wrong (log 133). -/
def decodeTwice (truth : (Nat × Nat) ⊕ List Byte) (len : Nat) (a b : Nat × Bool) :
    ((Nat × Nat) ⊕ List Byte) × Option Nat :=
  match truth with
  | .inl e => (.inl e, none)
  | .inr out =>
    if a.2 = false then (.inr out, none)
    else if b.2 = false then (.inr out, some a.1)
    else (.inl (0x26, 8 * len), none)

/-- What one pass of the path (R197 steps 2 to 7) gives on a crypto engine and two decompressors: the plaintext, or what
failed: none for the run or its tag, else the decompressor's code and offset; and a decompressor that erred. The header is
checked before the tag of the last block. A crypto engine that errs garbles what it decrypts (log 133). -/
def packedPass (s : State) (n p : Nat) (x : Desc) (crypto a b : Nat × Bool) :
    (Option (Nat × Nat) ⊕ List Byte) × Option Nat :=
  let d := homeDie n p
  let k := slotsOf x.len
  match runBad s d x.loc k, pageKeys s n p x.phase with
  | none, some key =>
    let cipher := dramBytes s (d * 2 ^ 44 + x.loc * 256) (256 * k)
    let right := decodeInside x.level x.dict x.crc (dictFor s d n) ((runCrypt false key p cipher).take x.len)
    let truth := if crypto.2 then .inl (0x26, 8 * x.len) else right
    if x.isSealed = true ∧ (crypto.2 = true ∨ tagOf key.kt cipher x.version p 1 ≠ x.tag) ∧
        (crypto.2 = true ∨ right ≠ .inl (0x20, 0)) then (.inl none, none)
    else match decodeTwice truth x.len a b with
      | (.inl e, out) => (.inl (some e), out)
      | (.inr v, out) => (.inr v, out)
  | _, _ => (.inl none, none)

/-- What a failed pass reports: the error record of the repeat on decompressor `deco`, or the line of the run that cannot be read. -/
def passReport (e : Option (Nat × Nat)) (deco agent n p : Nat) (x : Desc) (s : State) : State :=
  let d := homeDie n p
  match e with
  | some (code, off) => decodeError d code off deco n p agent s
  | none => match runBad s d x.loc (slotsOf x.len) with
    | some j => uncorrectable d (runLine x.loc j).1 (runLine x.loc j).2 255 agent (some (n, p)) s
    | none => s

/-- The path is run once more, on another crypto engine and other decompressors. Where the rerun succeeds, one engine leaves
service: a decompressor that erred in it, else the crypto engine of the first run; where it fails, the page is `LOST`. -/
def packedRerun (agent n p crypto deco : Nat) (x : Desc) (s : State) : Option (List Byte) × State :=
  let d := homeDie n p
  let c := drawEngine (208 + 16 * d) 16 crypto s
  let a := drawEngine (144 + 16 * d) 16 deco c.2
  let b := drawEngine (144 + 16 * d) 16 a.1.1 a.2
  match packedPass b.2 n p x c.1 a.1 b.1 with
  | (.inr out, erred) => (some out, engineOut (erred.getD crypto) b.2)
  | (.inl e, _) => (none, pageLost 3 n p x.version (leaveDict n p x (failCount 1 n (passReport e b.1.1 agent n p x b.2))))

/-- The plaintext of a `PACKED` page for an agent (R197); a run that a checker denies reads as poison (13 R346). -/
def packedRead (agent n p : Nat) (x : Desc) (s : State) : Option (List Byte) × State :=
  let d := homeDie n p
  let s0 := useCrypto d (useDecompressor d (flushRun d x.loc (slotsOf x.len) (agentLabel s agent n) s))
  let s1 := onlyIf (decide (10 ≤ x.level)) (storeLoad d x.dict 0) s0
  match runDenied s1 d x.loc (slotsOf x.len) with
  | some j => (none, unitDenied (chanOf d (runLine x.loc j).1 (runLine x.loc j).2) (requester agent n p) .hostEngine false
      (runLine x.loc j).1 s1)
  | none =>
    let c := drawEngine (208 + 16 * d) 16 0 s1
    let a := drawEngine (144 + 16 * d) 16 0 c.2
    let b := drawEngine (144 + 16 * d) 16 a.1.1 a.2
    match packedPass b.2 n p x c.1 a.1 b.1 with
    | (.inr out, erred) => (some out, match erred with | some u => engineOut u b.2 | none => b.2)
    | (.inl e, _) => packedRerun agent n p c.1.1 a.1.1 x (passReport e b.1.1 agent n p x b.2)

/-- The lines of a page's bytes. -/
def pageLine (bytes : List Byte) (i : Nat) : Line := BitVec.ofNat 512 (leNat (slice (64 * i) 64 bytes))

/-- The bytes of a page of which every line is in the Landing cache. -/
def cachedPage (s : State) (n p : Nat) : Option (List Byte) :=
  if (lcPage s n p).length = 64 then
    some ((below 64).flatMap fun i => match lcFind s n p i with
      | some (_, l) => leBytes 64 l.data.toNat
      | none => List.replicate 64 0#8)
  else none

/-- One line of a decompressed page enters the cache `CLEAN` with a re-reference value, one that is there already too. -/
def fillLine (n p i rrpv : Nat) (bytes : List Byte) (s : State) : State :=
  match lcFind s n p i with
  | some (k, l) => lcPut k { l with state := .clean, data := pageLine bytes i, poison := false, rrpv := rrpv } s
  | none => (lcFill n p i .clean rrpv (pageLine bytes i) false s).1

/-- The 64 lines of a decompressed page fill the cache: the requested line with value 2, the other 63 with 3 (R90). -/
def fillPage (n p i : Nat) (bytes : List Byte) (s : State) : State :=
  forAll (below 64) (fun j t => fillLine n p j (if j = i then 2 else 3) bytes t) s

/-- Whether a read of an agent that misses fills the cache: not one of agents 1-5 and 7 (R90). -/
def agentFills (agent : Nat) : Bool := agent == 0 || agent == 6

/-- A page's 64 lines and which are poisoned, without filling, for a move or an offload job (R103, R174). -/
def readPage (agent n p : Nat) (x : Desc) (s : State) : Option (List Byte × List Nat) × State :=
  match x.state with
  | .zero => (some (List.replicate 4096 0#8, []), s)
  | .packed => match cachedPage s n p with
    | some b => (some (b, []), s)
    | none =>
      let g := packedRead agent n p x s
      (g.1.map fun b => (b, []), g.2)
  | .plain =>
    let g := (below 64).foldl (fun (a : List Byte × List Nat × State) i =>
      let v := lineValue agent n p i x a.2.2
      (a.1 ++ leBytes 64 v.1.toNat, if v.2.1 then a.2.1 ++ [i] else a.2.1, v.2.2)) ([], [], s)
    (some (g.1, g.2.1), g.2.2)
  | _ => (none, s)

/-! ### Reads (R72) -/

/-- A line is read by an agent: data, poison, whether it missed the Landing cache. An `UNMAPPED` page and a page without
a descriptor read as poison. -/
def readLine (agent n p i : Nat) (s : State) : Line × Bool × Bool × State :=
  match checkedDesc n p (settlePage n p s) with
  | none => (0#512, true, true, s)
  | some (x, s1) =>
    match x.state with
    | .zero => (0#512, false, false, s1)
    | .plain => match lcFind s1 n p i with
      | some (k, l) => (l.data, l.poison, false, lcTouch k l s1)
      | none =>
        let g := fetchLine agent n p i x (mergeSettle n p i x s1)
        if agentFills agent ∧ g.2.1 = false then (g.1, false, true, (lcFill n p i .clean 2 g.1 false g.2.2).1)
        else (g.1, g.2.1, true, g.2.2)
    | .packed => match lcFind s1 n p i with
      | some (k, l) => (l.data, l.poison, false, lcTouch k l s1)
      | none =>
        let g := packedRead agent n p x s1
        (match g.1 with
         | some b => (pageLine b i, false, true, if agentFills agent then fillPage n p i b g.2 else g.2)
         | none => (0#512, true, true, g.2))
    | .lost =>
      if x.hasFrame ∧ bitOf x.tag i then
        let g := fetchLine agent n p i x (mergeSettle n p i x s1)
        (g.1, g.2.1, true, g.2.2)
      else (0#512, true, false, s1)
    | _ => (0#512, true, false, s1)

/-! ### A page enters `PLAIN` (R95, R110, R188) -/

/-- Whether a write to a page needs new space (R78). -/
def needsSpace (x : Desc) : Bool :=
  x.state == .zero || x.state == .packed || (x.state == .lost && !x.hasFrame)

/-- Whether R78 admits a page's frame. -/
def frameAdmitted (s : State) (n p : Nat) : Bool :=
  allocAdmitted s n (homeDie n p) (frameBytes (lodgeAttr s n 0))

/-- Whether a sealed page's counter would reach all ones with its next increment (07 R189). -/
def counterSpent (x : Desc) (v : Nat) : Bool := x.isSealed && decide (allOnes64 - 1 ≤ v)

/-- A page takes a frame and its 64 lines go to it encrypted; none where no blanked frame is free (R116). A spent `VERSION` fails
its descriptor line. -/
def toPlain (n p : Nat) (x : Desc) (bytes : List Byte) (s : State) : Option State :=
  let d := homeDie n p
  if counterSpent x x.version then some (descFail n p s)
  else (allocFrame d n p x.isSealed s).map fun q =>
    let s1 := useBytes n d (frameBytes x.isSealed) 0 (fireWatch n p q.2)
    let s2 := onlyIf x.isSealed (countersStart n p x.version) s1
    let y : Desc := { x with state := .plain, level := 0, dict := 0, loc := q.1, tag := 0, crc := 0, len := 0
                             poison := false, heat := 0, touch := nowEpoch s d }
    let s3 := forAll (below 64) (fun i t => queueWrite d ⟨q.1, i, .plain n p i (pageLine bytes i) false, 0, false⟩ t)
      (setDesc n p y s2)
    let s4 := match x.state with
      | .packed => useBytes n d 0 (256 * slotsOf x.len) (freeRun d x.loc (leaveDict n p x s3))
      | _ => s3
    restage d s4

/-- A `ZERO` or `PACKED` page is brought in as `PLAIN`: the second answer is false where it must wait for space. A
`PACKED` page that cannot be read is `LOST` then. -/
def bringIn (n p : Nat) (x : Desc) (s : State) : State × Bool :=
  if frameAdmitted s n p = false then (s, false)
  else match x.state with
    | .zero => match toPlain n p x (List.replicate 4096 0#8) s with
      | some t => (t, true)
      | none => (s, false)
    | .packed =>
      if (allocFrame (homeDie n p) n p x.isSealed s).isNone then (s, false)
      else
        let g := readPage 0 n p x s
        (match g.1 with
         | some b => match toPlain n p x b.1 g.2 with
           | some t => (t, true)
           | none => (s, false)
         | none => (g.2, true))
    | _ => (s, true)

/-! ### Writes (R72, R73, R91) -/

/-- The poison of a page ends with its last poisoned line. -/
def clearPoison (n p i : Nat) (s : State) : State :=
  match descAt s n p with
  | none => s
  | some x =>
    let d := homeDie n p
    if x.poison ∧ (below 64).all (fun j => j == i ||
        (markAt s d x.loc j % 2 == 0 && !((chanAt s (chanOf d x.loc j)).writes.any fun e =>
          e.frame == x.loc && e.line == j && (match e.body with | .raw _ po _ => po | .plain _ _ _ _ po => po)))) then
      setDesc n p { x with poison := false } s
    else s

/-- A write to a line of a `PLAIN` page. -/
def writePlain (n p i : Nat) (x : Desc) (bytes : Line) (mask : BitVec 64) (s : State) : State :=
  let d := homeDie n p
  let c := chanOf d x.loc i
  let s0 := fireWatch n p s
  if mask = BitVec.allOnes 64 then
    let s1 := clearPoison n p i (modChan c (fun y => { y with merge := y.merge.filter fun e =>
      !(e.lodging == n && e.page == p && e.line == i) }) s0)
    let toQueue (t : State) : State := queueWrite d ⟨x.loc, i, .plain n p i bytes false, 0, false⟩ t
    if pnum s P.LC_WRITE_ALLOCATE = 1 then
      let f := lcFill n p i .dirty 2 bytes false s1
      if f.2 then f.1 else toQueue f.1
    else match lcFind s1 n p i with
      | some (k, l) => toQueue (lcPut k { l with data := bytes, state := .clean, rrpv := 0, poison := false } s1)
      | none => toQueue s1
  else match lcFind s0 n p i with
    | some (k, l) => lcPut k { l with data := mergeBytes l.data bytes mask, state := .dirty, rrpv := 0 } s0
    | none => mergeWrite n p i x bytes mask s0

/-- A whole-line write to a `LOST` page that has its refill frame (R73). -/
def refillLine (n p i : Nat) (x : Desc) (bytes : Line) (s : State) : State :=
  let d := homeDie n p
  let m := Nat.lor x.tag (2 ^ i)
  let s1 := queueWrite d ⟨x.loc, i, .plain n p i bytes false, 0, false⟩ (fireWatch n p s)
  if m = 2 ^ 64 - 1 then
    modLodge n (fun l => { l with pagesLost := l.pagesLost - 1 })
      (setDesc n p { x with state := .plain, tag := 0, hasFrame := false, heat := 0, touch := nowEpoch s d } s1)
  else setDesc n p { x with tag := m } s1

/-- A `LOST` page takes a frame, every line of it poisoned; none where no blanked frame is free. -/
def refillStart (n p : Nat) (x : Desc) (s : State) : Option (Desc × State) :=
  let d := homeDie n p
  (allocFrame d n p x.isSealed s).map fun q =>
    let y := { x with loc := q.1, hasFrame := true, tag := 0 }
    let s1 := onlyIf x.isSealed (countersStart n p x.version) (useBytes n d (frameBytes x.isSealed) 0 q.2)
    (y, restage d (forAll (below 64) (fun i t => markLine d q.1 i false t) (setDesc n p y s1)))

/-- A whole line is written to a `LOST` page that has no frame yet: the second answer is false where it must wait for space. A
spent `VERSION` fails its descriptor line (07 R189). -/
def refillFirst (n p i : Nat) (x : Desc) (bytes : Line) (s : State) : State × Bool :=
  if counterSpent x x.version then (descFail n p s, true)
  else match frameAdmitted s n p, refillStart n p x s with
    | true, some q => (refillLine n p i q.1 bytes q.2, true)
    | _, _ => (s, false)

/-- A write to a line in the state its page has: the second answer is false where it must wait for space. -/
def writeLine (n p i : Nat) (bytes : Line) (mask : BitVec 64) (s : State) : State × Bool :=
  match checkedDesc n p (settlePage n p s) with
  | none => (s, true)
  | some (x, s1) =>
    match x.state with
    | .plain => (writePlain n p i x bytes mask s1, true)
    | .zero | .packed =>
      let g := bringIn n p x s1
      if g.2 = false then (s, false)
      else match descAt g.1 n p with
        | none => (g.1, true)
        | some y => if y.state = .plain then (writePlain n p i y bytes mask g.1, true)
            else if y.state = .lost ∧ mask = BitVec.allOnes 64 then
              refillFirst n p i y bytes g.1
            else (g.1, true)
    | .lost =>
      if mask ≠ BitVec.allOnes 64 then
        (if x.hasFrame ∧ bitOf x.tag i then mergeWrite n p i x bytes mask s1 else s1, true)
      else if x.hasFrame then (refillLine n p i x bytes s1, true)
      else
        let q := refillFirst n p i x bytes s1
        if q.2 then q else (s, false)
    | _ => (s1, true)

/-- A line is marked lost in the state its page has (R233): the second answer is false where it must wait for space. -/
def loseLine (n p i : Nat) (s : State) : State × Bool :=
  match checkedDesc n p (settlePage n p s) with
  | none => (s, true)
  | some (x, s1) =>
    let drop (t : State) : State := modLc (fun m => m.filter fun e =>
      !(e.2.lodging == n && e.2.page == p && e.2.line == i)) t
    match x.state with
    | .plain => (poisonLine n p i x (drop (flushLine (homeDie n p) x.loc i (mergeSettle n p i x s1))), true)
    | .zero | .packed =>
      let g := bringIn n p x s1
      if g.2 = false then (s, false)
      else match descAt g.1 n p with
        | some y => if y.state = .plain then
              (poisonLine n p i y (drop (flushLine (homeDie n p) y.loc i g.1)), true)
            else (g.1, true)
        | none => (g.1, true)
    | .lost =>
      if x.hasFrame ∧ bitOf x.tag i then
        (poisonLine n p i x (setDesc n p { x with tag := x.tag - 2 ^ i } (flushLine (homeDie n p) x.loc i s1)), true)
      else (notePage 2 n p s1, true)
    | _ => (s1, true)

end Sys2Proof.Machine
end

