-- ==== Sys2Proof/Machine/Directory.lean ====
section
/-! DEFINITION. The directory, snoops, home queues and the atomic bank (08 R212-R216, R223-R224, R228-R231; 10 R277). -/

namespace Sys2Proof.Machine

/-! ### Lines and entries (R212, R213) -/

/-- K′: the key of a line. -/
def lineKey (n p i : Nat) : Nat := pageKey n p * 64 + i
/-- Lodging, page and line of a key. -/
def keyLine (k : Nat) : Nat × Nat × Nat := (k / 64 / 2 ^ 34, k / 64 % 2 ^ 34, k % 64)
/-- The set a line's entry lies in. -/
def dirSet (slice k : Nat) : Nat := 4096 * slice + k % 4096

/-- The entry of a line, with its place. -/
def dirFind (s : State) (n p i : Nat) : Option (Nat × DirEntry) :=
  let k := lineKey n p i
  s.coh.dir.find? fun e => e.1 / 16 == dirSet (homeSlice n p) k && e.2.tag == k / 4096

/-- The line an entry tracks. -/
def entryLine (place : Nat) (e : DirEntry) : Nat × Nat × Nat := keyLine (e.tag * 4096 + place / 16 % 4096)

/-- Whether a port can hold a copy: its link is up, or it is absent or being scanned (R234, R235). A host that relinks has
nothing of what it held. -/
def mayHold (s : State) (p : Nat) : Bool :=
  (portAt s p).link == .up || s.coh.absent.contains p || s.coh.dying.contains p

/-- The ports an entry's holders may be: of a coarse entry those bound to the lodging (R213). -/
def holderPorts (s : State) (n : Nat) (e : DirEntry) : List Nat :=
  (if e.coarse then (hostPorts s n).filter fun p => e.holders.contains (p / 2) else e.holders).filter (mayHold s)

/-- An entry written, or freed when no holder remains. -/
def dirPut (place : Nat) (e : DirEntry) (s : State) : State :=
  modCoh (fun c => { c with dir := if e.holders = [] then smErase c.dir place else smSet c.dir place e }) s

/-- An entry freed. -/
def dirFree (place : Nat) (s : State) : State := modCoh (fun c => { c with dir := smErase c.dir place }) s

/-- A port added to an `S` entry; a sixth makes it coarse. -/
def DirEntry.add (e : DirEntry) (p : Nat) : DirEntry :=
  if e.coarse then { e with holders := if e.holders.contains (p / 2) then e.holders else e.holders ++ [p / 2], age := 0 }
  else if e.holders.contains p then { e with age := 0 }
  else if e.holders.length < 5 then { e with holders := e.holders ++ [p], age := 0 }
  else { e with coarse := true, holders := ((e.holders ++ [p]).map (· / 2)).eraseDups, age := 0 }

/-- A port removed; a coarse bit stays while the other port of its pair is bound to the lodging. -/
def DirEntry.drop (s : State) (n p : Nat) (e : DirEntry) : DirEntry :=
  if e.coarse then
    (if (hostPorts s n).any fun q => q / 2 == p / 2 && q != p then e
     else { e with holders := e.holders.filter (· ≠ p / 2) })
  else { e with holders := e.holders.filter (· ≠ p) }

/-- The ways of a set that can take an entry. -/
def freeWay (s : State) (set : Nat) : Option Nat :=
  (firstBelow 16 fun w => (smFind s.coh.dir (set * 16 + w)).isNone && !s.coh.disabled.contains (set * 16 + w)).map
    (set * 16 + ·)

/-- A new entry: the other ways of its set age. -/
def dirAlloc (place : Nat) (e : DirEntry) (s : State) : State :=
  modCoh (fun c => { c with
    dir := smSet (c.dir.map fun x => if x.1 / 16 = place / 16 then (x.1, { x.2 with age := min 15 (x.2.age + 1) }) else x)
      place e }) s

/-- The entry of a line is touched: its age returns to 0 (R213). -/
def dirTouch (n p i : Nat) (s : State) : State :=
  match dirFind s n p i with
  | some (k, e) => dirPut k { e with age := 0 } s
  | none => s

/-- The victim of a full set: the highest age, `S` before `E`, the lowest way; none with an open transaction (R223). -/
def dirVictim (s : State) (set : Nat) : Option (Nat × DirEntry) :=
  let cands := s.coh.dir.filter fun e => e.1 / 16 == set &&
    !(s.coh.txs.any fun t => t.key == e.2.tag * 4096 + set % 4096 && t.slice == set / 4096)
  cands.foldl (fun best e => match best with
    | none => some e
    | some b => if b.2.age < e.2.age ∨ (b.2.age = e.2.age ∧ b.2.excl = true ∧ e.2.excl = false) then some e else best) none

/-- One of `COH_COUNTS` of a die grows. -/
def bumpCoh (d i n : Nat) (s : State) : State :=
  modCoh (fun c => { c with counts := bump 64 c.counts (8 * d + i) n }) s

/-! ### Snoops (R216, R257) -/

/-- The transactions open on a line. -/
def txOn (s : State) (slice k : Nat) : Option Tx := s.coh.txs.find? fun t => t.slice == slice && t.key == k

/-- A transaction opens, and its snoops go to the ports that are up, one to each link die. -/
def openTx (t : Tx) (s : State) : State :=
  let l := keyLine t.key
  let live := t.left.filter fun p => (portAt s p).link == .up && !s.coh.absent.contains p
  fanOut 7 16 live none (.snoop t.op l.1 l.2.1 l.2.2)
    (bumpCoh (t.slice / 16) 0 live.length (modCoh (fun c => { c with txs := c.txs ++ [t] }) s))

/-- Whether a slice has a free snoop tracker. -/
def trackerFree (s : State) (slice : Nat) : Bool :=
  decide ((s.coh.txs.filter fun t => t.slice == slice).length < 64)

/-- The snoops that the device wants of a slice open where a tracker is free and the line has no transaction, against the
entry as it then is: `BISnpInv` goes to every holder, `BISnpCur` to a holder in `E` (R216, R222); kind 3, for a line of a
`SUSPECT` set, is `BISnpInv` to every port of `HOST_PORTS` where no entry matches (R224). -/
def openDue (slice : Nat) (s : State) : State :=
  forAll (s.coh.due.filter fun w => w.slice == slice) (fun w t =>
    if (txOn t slice w.key).isSome ∨ trackerFree t slice = false then t
    else
      let l := keyLine w.key
      let t1 := modCoh (fun c => { c with due := c.due.erase w }) t
      match dirFind t1 l.1 l.2.1 l.2.2 with
      | none =>
        let ps := (hostPorts t1 l.1).filter (mayHold t1)
        if w.op = 3 ∧ ps ≠ [] then openTx ⟨slice, w.key, 0, ps, w.drop, .device⟩ t1 else t1
      | some (k, e) =>
        let ps := holderPorts t1 l.1 e
        if 2 ≤ w.op then (if e.excl ∧ ps ≠ [] then openTx ⟨slice, w.key, 2, ps, false, .device⟩ t1 else t1)
        else match holderPorts t1 l.1 e with
          | [] => dirFree k t1
          | ps => openTx ⟨slice, w.key, 0, ps, w.drop, .device⟩ t1) s

/-- The device wants snoops: each opens now or when its line and a tracker are free. -/
def recallAll (l : List Recall) (s : State) : State :=
  forAll ((l.map (·.slice)).eraseDups) openDue
    (modCoh (fun c => { c with
      due := c.due ++ l
      txs := c.txs.map fun x =>
        if l.any fun w => w.drop && w.slice == x.slice && w.key == x.key then { x with drop := true } else x }) s)

/-- Every entry that meets a test is removed with `BISnpInv` (R225); `drop` discards what is written back. -/
def removeEntries (test : Nat → DirEntry → Bool) (drop : Bool) (s : State) : State :=
  recallAll ((s.coh.dir.filter fun e => test e.1 e.2).map fun e =>
    let l := entryLine e.1 e.2
    ⟨e.1 / 16 / 4096, lineKey l.1 l.2.1 l.2.2, 0, drop⟩) s

/-- Whether a lodging has a snoop open, or wanted. -/
def lodgeSnooped (s : State) (n : Nat) : Bool :=
  (s.coh.txs.any fun t => (keyLine t.key).1 == n) || s.coh.due.any fun w => (keyLine w.key).1 == n

/-- Whether a lodging still has an entry or a snoop. -/
def lodgeQuiet (s : State) (n : Nat) : Bool :=
  !(s.coh.dir.any fun e => (entryLine e.1 e.2).1 == n) && !lodgeSnooped s n

/-- The lines of a page that a host holds in `E`. -/
def heldExclusive (s : State) (n p : Nat) : List Nat :=
  (below 64).filter fun i => match dirFind s n p i with | some (_, e) => e.excl | none => false

/-- The lines of a page that hosts are asked for before an agent of the device reads them: those held in `E` (R222), and those
without an entry whose set is `SUSPECT` (R224). -/
def linesAsked (s : State) (n p : Nat) : List Nat :=
  heldExclusive s n p ++ (if s.coh.suspect = [] then [] else (below 64).filter fun i =>
    s.coh.suspect.contains (dirSet (homeSlice n p) (lineKey n p i)) && (dirFind s n p i).isNone)

/-- What the device wants of the hosts before it reads a line. -/
def lineRecall (s : State) (n p i : Nat) : Recall :=
  ⟨homeSlice n p, lineKey n p i, if (dirFind s n p i).isSome then 2 else 3, false⟩

/-- Of those lines the ones whose holder has not been asked since it was granted `E`. -/
def linesUnasked (s : State) (n p : Nat) : List Nat :=
  (linesAsked s n p).filter fun i => !s.coh.asked.contains (lineKey n p i)

/-- The hosts are asked for the current data of the lines not yet asked for. -/
def snoopMore (n p : Nat) (s : State) : State :=
  let l := linesUnasked s n p
  recallAll (l.map (lineRecall s n p)) (modCoh (fun c => { c with asked := c.asked ++ l.map (lineKey n p) }) s)

/-- A move or re-key that reads a page asks the hosts for the current data first (R222, R224). -/
def snoopPage (n p : Nat) (s : State) : State :=
  snoopMore n p (modCoh (fun c => { c with asked := c.asked.filter fun k => k / 64 != pageKey n p }) s)

/-- A line has been granted in `E`: its holder has not been asked. -/
def askAgain (n p i : Nat) (s : State) : State :=
  modCoh (fun c => { c with asked := c.asked.filter (· ≠ lineKey n p i) }) s

/-- Whether a transaction is open on a line of a page, or wanted by the device. -/
def pageSnooped (s : State) (n p : Nat) : Bool :=
  (s.coh.txs.any fun t => (keyLine t.key).1 == n && (keyLine t.key).2.1 == p) ||
    s.coh.due.any fun w => (keyLine w.key).1 == n && (keyLine w.key).2.1 == p

/-! ### Home queues (10 R277) -/

/-- The queue of a slice. -/
def homeOf (s : State) (slice : Nat) : List HomeReq := smGet [] s.coh.home slice

/-- The share group of a request. -/
def MemReq.group (r : MemReq) : Nat := r.label / 256

/-- Pool entries of a share group on a memory die. -/
def poolUsed (s : State) (g d : Nat) : Nat :=
  s.coh.home.foldl (fun a e =>
    if e.1 / 16 = d then a + (e.2.filter fun h => h.place == 1 && h.req.group == g).length else a) 0

/-- The slots of a slice that a group holds: waiting here or for space. -/
def slotsHeld (s : State) (slice g : Nat) : Nat :=
  ((homeOf s slice).filter fun h => h.place == 0 && h.req.group == g).length +
    ((smGet [] s.coh.stalled slice).filter fun r => r.group == g).length

/-- Where a request of a group is placed by the rules of R277. -/
def homePlace (s : State) (slice g : Nat) : Nat :=
  let d := slice / 16
  let held := slotsHeld s slice g
  let used := ((homeOf s slice).filter fun h => h.place == 0).length + (smGet [] s.coh.stalled slice).length
  let reserved := (below 256).foldl (fun a i =>
    if i = g then a else a + (prow s i P.SG_Q_RESERVE - slotsHeld s slice i)) 0
  let pool := s.coh.home.foldl (fun a e => if e.1 / 16 = d then a ++ e.2.filter (·.place == 1) else a) []
  let cap := rejoinCap s (280 + slice) 512
  if held < prow s g P.SG_Q_RESERVE ∧ used < cap then 0
  else if held < prow s g P.SG_Q_LIMIT ∧ used + reserved < cap then 0
  else if (pool.filter fun h => h.req.group == g).length < prow s g P.SG_POOL_LIMIT ∧ pool.length < 4096 then 1
  else 2

/-- Whether a request that came over a Corridor link waits behind another that is held in the link's receive buffer (R277). -/
def linkHeld (s : State) (r : MemReq) : Bool :=
  decide (r.agent < 2) && s.coh.home.any fun e => e.1 / 16 == homeDie r.n r.p &&
    e.2.any fun h => h.place == 2 && h.req.port / 16 == r.port / 16

/-- A request joins its slice's queue; where no rule admits it, or one before it on its link is held, it is held in the
receive buffer, and counted. -/
def homeJoin (r : MemReq) (s : State) : State :=
  let slice := homeSlice r.n r.p
  let g := r.group
  let place := if linkHeld s r then 2 else homePlace s slice g
  let via := if place = 2 ∧ r.agent < 2 then routeVia s (r.port / 16) (4 + slice / 16) else 48
  let now := dieTime s (4 + slice / 16)
  let s1 := if (homeOf s slice).any fun h => h.req.group == g then s else fairArrive slice g s
  modCoh (fun c => { c with home := smMod [] c.home slice (· ++ [⟨{ r with arrived := some now }, place, now, via⟩]) })
    (onlyIf (place == 2) (fun t => bumpReg 5 1 (creditOut via 0 t)) s1)

/-- A request that has been ordered and cannot go on keeps its place in its slice's queue: behind those that so wait, before
what came after it. It is evaluated anew when it goes on. -/
def homeReturn (r : MemReq) (s : State) : State :=
  let slice := homeSlice r.n r.p
  let s1 := if (homeOf s slice).any fun h => h.req.group == r.group then s else fairArrive slice r.group s
  let at_ := r.arrived.getD (dieTime s (4 + slice / 16))
  let h : HomeReq := ⟨{ r with snooped := false, ordered := true, arrived := some at_ }, homePlace s slice r.group, at_, 48⟩
  modCoh (fun c => { c with
    home := smMod [] c.home slice fun l => l.takeWhile (·.req.ordered) ++ h :: l.dropWhile (·.req.ordered) }) s1

/-- A queued request takes the place that the rules now give it, if that is a better one. -/
def homeMove (slice : Nat) (h : HomeReq) (s : State) : State :=
  let q := homePlace s slice h.req.group
  let up (l : List HomeReq) : List HomeReq := l.map fun x => if x = h then { x with place := q, via := 48 } else x
  if q < h.place then creditBack h.via 0 (modCoh (fun c => { c with home := smMod [] c.home slice up }) s) else s

/-- A held request, with its slice, placed by its arrival among others so placed: before those that came no earlier. -/
def heldPut (x : Nat × HomeReq) : List (Nat × HomeReq) → List (Nat × HomeReq)
  | [] => [x]
  | y :: l => if x.2.arrived ≤ y.2.arrived then x :: y :: l else y :: heldPut x l

/-- The requests held in the receive buffers of a memory die, oldest first, with their slices. -/
def heldOf (s : State) (d : Nat) : List (Nat × HomeReq) :=
  ((s.coh.home.filter fun e => e.1 / 16 == d).flatMap fun e => (e.2.filter fun h => h.place == 2).map fun h => (e.1, h)).foldr
    heldPut []

/-- Pooled requests of a slice move up in arrival order where a rule now admits them, then the held ones of its die; on each
link one that stays held holds back those behind it (R277). -/
def homeSettle (slice : Nat) (s : State) : State :=
  let pooled := forAll ((homeOf s slice).filter fun h => h.place == 1) (homeMove slice) s
  forAll (heldOf s (slice / 16)) (fun e t =>
    if ((heldOf t (slice / 16)).find? fun x => x.2.req.port / 16 == e.2.req.port / 16) = some e then homeMove e.1 e.2 t
    else t) pooled

/-! ### The contention predictor and the atomic bank (R228-R231) -/

/-- The counter of a line key. -/
def predIndex (slice k : Nat) : Nat :=
  4096 * slice + Nat.xor (Nat.xor (Nat.xor (Nat.xor (bitsOf k 0 12) (bitsOf k 12 12)) (bitsOf k 24 12)) (bitsOf k 36 12))
    (bitsOf k 48 4)

/-- The counter of a line. -/
def predOf (s : State) (n p i : Nat) : Nat := smGet 0 s.coh.pred (predIndex (homeSlice n p) (lineKey n p i))

/-- A resident line, if this line is one: its way and contents. -/
def residentLine (s : State) (n p i : Nat) : Option (Nat × LcLine) :=
  match lcFind s n p i with
  | some (k, l) => if l.state = .atomic then some (k, l) else none
  | none => none

/-- A resident line is released: `DIRTY` if written while resident. -/
def releaseResident (k : Nat) (s : State) : State :=
  match smFind s.lc k with
  | some l =>
    if l.state = .atomic then
      lcPut k { l with state := if s.coh.written.contains k then .dirty else .clean }
        (modCoh (fun c => { c with written := c.written.filter (· ≠ k) }) s)
    else s
  | none => s

/-- Resident lines that meet a test are released. -/
def releaseResidents (test : LcLine → Bool) (s : State) : State :=
  forAll (s.lc.filter fun e => e.2.state == .atomic && test e.2) (fun e t => releaseResident e.1 t) s

/-- The counter of a line moves, between 0 and 3; below 2 the resident lines that share it are released (R231). -/
def predMove (n p i : Nat) (up : Bool) (s : State) : State :=
  let spot (n p i : Nat) : Nat := predIndex (homeSlice n p) (lineKey n p i)
  let f (v : Nat) : Nat := if up then min 3 (v + 1) else v - 1
  let s1 := modCoh (fun c => { c with pred := smMod 0 c.pred (spot n p i) f }) s
  onlyIf (decide (predOf s1 n p i < 2))
    (releaseResidents fun l => spot l.lodging l.page l.line == spot n p i) s1

/-- A resident line is used and keeps its value: an atomic operation that writes nothing. -/
def residentKeep (k : Nat) (l : LcLine) (s : State) : State := lcPut k l s

/-- A resident line takes a new value. -/
def residentPut (k : Nat) (l : LcLine) (data : Line) (s : State) : State :=
  lcPut k { l with data := data }
    (modCoh (fun c => { c with written := if c.written.contains k then c.written else c.written ++ [k] }) s)

/-- A line is claimed into way 15 of its set, with its current data; the line that way 15 held is evicted (R230). -/
def claimResident (n p i : Nat) (data : Line) (s : State) : State × Nat :=
  let k := lcSet n p i + 15
  let s1 := match lcFind s n p i with
    | some (w, l) => onlyIf (l.state == .dirty) (writeBackLine l) (modLc (fun m => smErase m w) s)
    | none => s
  (lcPut k ⟨n, p, i, lodgeGroup s n, .atomic, 0, data, false⟩ (lcEvict k s1), k)

/-- Whether way 15 of a line's set is free for it. -/
def bankFree (s : State) (n p i : Nat) : Bool :=
  sliceOwn s (homeSlice n p) &&
  match smFind s.lc (lcSet n p i + 15) with
  | some l => l.state != .atomic
  | none => true

end Sys2Proof.Machine
end

