-- ==== Sys2Proof/Machine/Requests.lean ====
section
/-! DEFINITION. Requests from ports: decode, refusal, ordering at the home arbiter, Table 8.2, atomics, and what resumes
a request that waits (01 R26-R28; 03 R60, R66, R67, R79; 07 R209; 08 R215-R230; 09 R246; 10 R275-R276). -/

namespace Sys2Proof.Machine

/-! ### Decode (03 R66, R67; 09 R246) -/

/-- Whether a decoder covers an address. -/
def Hdm.covers (h : Hdm) (a : Nat) : Bool := decide (h.base ≤ a) && decide (a < h.base + h.size)
/-- The way of an address. -/
def Hdm.way (h : Hdm) (a : Nat) : Nat := (a - h.base) / max 1 h.gran % max 1 h.ways
/-- The offset an address has among those of its way. -/
def Hdm.inWay (h : Hdm) (a : Nat) : Nat :=
  let g := max 1 h.gran
  (a - h.base) / (g * max 1 h.ways) * g + (a - h.base) % g

/-- Where a host address leads. -/
inductive HostHit where
  | miss
  | dsp (port : Nat)
  | line (n p i dpa gen : Nat)
deriving DecidableEq, Repr

/-- What vPPB `b` of VCS `v` is bound to: a port, 0x40 the IME, 0xFE, 0xFF. -/
def vppb (s : State) (v b : Nat) : Nat := smGet 0xFF s.sw.vcs (32 * v + b)

/-- Whether the IME is bound in a virtual switch. -/
def imeBound (s : State) (v : Nat) : Bool := (below 32).any fun b => vppb s v b == 0x40

/-- A DPA looked up in an extent table (R66). -/
def lookup (ext : List Extent) (dpa : Nat) : HostHit :=
  let g := bitsOf dpa 28 19
  match ext.find? fun e => e.accepted && decide (e.dpa ≤ g) && decide (g < e.dpa + e.len) with
  | some e => .line e.lodging ((e.logical + g - e.dpa) * 65536 + bitsOf dpa 12 16) (bitsOf dpa 6 6) dpa e.gen
  | none => .miss

/-- Both stages and the lookup, by one copy of decoders and extent table. -/
def decodeHost (s : State) (p : Nat) (h : SMap Hdm) (ext : List Extent) (hpa : Nat) : HostHit :=
  match (below 8).findSome? fun k => (smFind h k).bind fun d => if d.covers hpa then some d else none with
  | none => .miss
  | some d =>
    let t := vppb s p (nth 0xFF d.targets (d.way hpa))
    if t < 64 then .dsp t
    else if t ≠ 0x40 then .miss
    else match [8, 9].find? fun k => match smFind h k with | some d => d.covers hpa | none => false with
      | none => .miss
      | some k =>
        let d := smGet ⟨0, 0, 1, 256, [], 0⟩ h k
        let first := if k = 9 then (match smFind h 8 with | some e => e.skip + e.size / max 1 e.ways | none => 0) else 0
        lookup ext (first + d.skip + d.inWay hpa)

/-- The two decoders' common result, none where they differ (01 R27). -/
def hostHit (s : State) (p hpa : Nat) : Option HostHit :=
  let a := decodeHost s p (portAt s p).hdmA (smGet [] s.lod.extA p) hpa
  if a = decodeHost s p (portAt s p).hdmB (smGet [] s.lod.extB p) hpa then some a else none

/-- A DPA of a port decoded by both tables. -/
def dpaHit (s : State) (p dpa : Nat) : Option HostHit :=
  let a := lookup (smGet [] s.lod.extA p) dpa
  if a = lookup (smGet [] s.lod.extB p) dpa then some a else none

/-! ### Answers -/

/-- Whether a port can send. -/
def portUp (s : State) (p : Nat) : Bool := (portAt s p).link == .up

/-- A response to a port's request; one for a port that is down is discarded (09 R259). -/
def answerPort (p cls : Nat) (m : Msg) (lat : Option LatTag) (s : State) : State :=
  if portUp s p then respondPort p cls m lat s else bumpDrop p 2 1 s

/-- A line of a downstream device's request is done; the last of them completes it in address order (09 R247). -/
def gatherPut (r : MemReq) (l : Line) (poison : Bool) (s : State) : State :=
  match s.coh.gathers.find? fun g => g.port == r.port && g.tag == r.tag with
  | none => s
  | some g =>
    let g1 := { g with left := g.left - 1, got := smSet g.got r.part (l, poison) }
    let rest := s.coh.gathers.erase g
    if g1.left = 0 then
      let s1 := modCoh (fun c => { c with gathers := rest }) s
      if g.reads then answerPort r.port 2 (.lines r.tag (g1.got.map (·.2))) (some g.lat) s1 else s1
    else modCoh (fun c => { c with gathers := g1 :: rest }) s

/-- The latency tag of a request. -/
def MemReq.lat (r : MemReq) : LatTag := ⟨r.agent, r.label, r.since, r.home, true⟩
/-- That of a request that ends in poison, discard or refusal: it counts as completed, and is not sampled (10 R270). -/
def MemReq.latVoid (r : MemReq) : LatTag := { r.lat with good := false }

/-- A read's answer: data with the cache state granted. -/
def answerRead (r : MemReq) (grant : Nat) (data : Bool) (l : Line) (poison : Bool) (s : State) : State :=
  if r.agent = 1 then gatherPut r l poison s
  else if data then
    answerPort r.port 6 (.data r.tag l poison) (some r.lat) (answerPort r.port 5 (.cmp r.tag grant) none s)
  else answerPort r.port 5 (.cmp r.tag grant) (some r.lat) s

/-- A write's completion. -/
def answerWrite (r : MemReq) (s : State) : State :=
  if r.agent = 1 then gatherPut r 0#512 false s
  else
    let s1 := if portUp s r.port then s else bumpDrop r.port 0 1 s
    answerPort r.port 5 (.cmp r.tag 0) (some r.lat) s1

/-- The completion of a write that is discarded. -/
def answerVoid (r : MemReq) (s : State) : State :=
  bumpDrop r.port 1 1 (if r.agent = 1 then gatherPut r 0#512 false s else answerPort r.port 5 (.cmp r.tag 0) (some r.latVoid) s)

/-- A request is refused: a read answers poison, a write is discarded (Table 14.9). -/
def refuseReq (kind : Nat) (r : MemReq) (s : State) : State :=
  let s1 := if r.op = .lost then s else refusedNotice kind r.port r.dpa s
  match r.op with
  | .read _ data => if r.agent = 1 then gatherPut r 0#512 true s1
      else if data then
        answerPort r.port 6 (.data r.tag 0#512 true) (some r.latVoid) (answerPort r.port 5 (.cmp r.tag 0) none s1)
      else answerPort r.port 5 (.cmp r.tag 0) (some r.latVoid) s1
  | .write _ _ _ => answerVoid r s1
  | .evict => answerPort r.port 5 (.cmp r.tag 0) (some r.latVoid) s1
  | .atomic _ _ _ _ _ => answerPort r.port 2 (.atomic r.tag 0 true) (some r.latVoid) s1
  | .lost => s1

/-! ### The baggage tag (01 R26) -/

/-- Bits 63 to 0 of a request's tag (Table 1.4). -/
def MemReq.tagWord (r : MemReq) : Nat :=
  r.port % 64 + r.n * 2 ^ 6 + r.label * 2 ^ 18 + r.agent * 2 ^ 34 + r.home * 2 ^ 38 + r.since % 2 ^ 20 * 2 ^ 44

/-- `PATH_CHECK`: the CRC-32 over bits 63 to 0, the page number and the line offset, as 104 bits in that order (log 130). -/
def MemReq.pathCheck (r : MemReq) : Nat :=
  ((leBytes 13 (r.tagWord + r.p * 2 ^ 64 + r.i * 2 ^ 98)).foldl crc32Byte 0xFFFFFFFF#32 ^^^ 0xFFFFFFFF#32).toNat

/-- A request with its tag stamped: home, transaction index, path check. -/
def MemReq.stamped (r : MemReq) (xid : Nat) : MemReq :=
  let t := { r with home := homeSlice r.n r.p, xid := xid }
  { t with check := t.pathCheck }

/-- Whether a unit on the way finds a request's tag as it was stamped. -/
def MemReq.tagGood (r : MemReq) : Bool := r.check == r.pathCheck

/-- The 128 bits of the tag. -/
def MemReq.tag128 (r : MemReq) : Nat := r.tagWord + r.check * 2 ^ 64 + r.xid * 2 ^ 96

/-- A request that fails its path check or its owner check at the home slice is refused, and counted against the port
controller it came through (14 R362). -/
def refuseChecked (r : MemReq) (s : State) : State :=
  refuseReq 4 r (onlyIf (decide (r.agent < 2)) (unitSuspect r.port (r.port / 16)) s)

/-! ### What a request needs (R217, R222, R224) -/

/-- The snoops a request needs: the kind, and the ports. -/
def snoopFor (s : State) (r : MemReq) : Option (Nat × List Nat) :=
  let found := dirFind s r.n r.p r.i
  let all (l : List Nat) (op : Nat) : Option (Nat × List Nat) :=
    if l.filter (mayHold s) = [] then none else some (op, l.filter (mayHold s))
  let others (e : DirEntry) : List Nat := (holderPorts s r.n e).filter (· ≠ r.port)
  match found with
  | none =>
    if s.coh.suspect.contains (dirSet (homeSlice r.n r.p) (lineKey r.n r.p r.i)) then all (hostPorts s r.n) 0 else none
  | some (_, e) =>
    match r.op with
    | .read grant _ =>
      if r.agent ≠ 0 then (if e.excl then all (holderPorts s r.n e) 2 else none)
      else if grant = 2 then all (others e) 0
      else if e.excl then all (others e) (if grant = 1 then 1 else 2)
      else none
    | .write _ _ _ => if r.agent = 0 then (if e.excl && e.holders == [r.port] then none else all (others e) 0)
        else all (holderPorts s r.n e) 0
    | .atomic _ _ _ _ _ => all (holderPorts s r.n e) 0
    | .evict => none
    | .lost => none

/-- Whether a page is `UNMAPPED`, or has no descriptor. -/
def pageUnmapped (s : State) (n p : Nat) : Bool :=
  match descAt s n p with | some x => x.state == .unmapped | none => true

/-- Whether a request needs an entry that its line does not have. -/
def needsEntry (s : State) (r : MemReq) : Bool :=
  match r.op with
  | .read grant _ => r.agent == 0 && grant != 0 && sliceOwn s (homeSlice r.n r.p) && (dirFind s r.n r.p r.i).isNone &&
      (residentLine s r.n r.p r.i).isNone && !pageUnmapped s r.n r.p
  | _ => false

/-! ### Directory transitions of Table 8.2 -/

/-- After a read: the state granted, and the entry. -/
def dirRead (r : MemReq) (grant : Nat) (s : State) : Nat × State :=
  let set := dirSet (homeSlice r.n r.p) (lineKey r.n r.p r.i)
  let tag := lineKey r.n r.p r.i / 4096
  match dirFind s r.n r.p r.i with
  | some (k, e) =>
    if grant = 0 then (0, if e.excl && e.holders == [r.port] then dirFree k s else s)
    else if e.excl && e.holders == [r.port] then (2, s)
    else if grant = 2 then
      (2, askAgain r.n r.p r.i (dirPut k { e with excl := true, coarse := false, holders := [r.port], age := 0 } s))
    else (1, dirPut k { (e.add r.port) with excl := false } s)
  | none =>
    if grant = 0 ∨ sliceOwn s (homeSlice r.n r.p) = false then (0, s)
    else match freeWay s set with
      | some k => (grant, askAgain r.n r.p r.i (dirAlloc k ⟨grant == 2, false, [r.port], tag, 0⟩ s))
      | none => (0, s)

/-- After a write: the `E` holder's entry follows the state it asks for; a port that holds only `S`, writes the line whole and
asks for no more keeps it, the other holders gone; any other write frees the entry. -/
def dirWrite (r : MemReq) (grant : Nat) (mask : BitVec 64) (s : State) : State :=
  match dirFind s r.n r.p r.i with
  | some (k, e) =>
    if r.agent = 0 ∧ e.excl = true ∧ e.holders = [r.port] then
      (if grant = 0 then dirFree k s else if grant = 1 then dirPut k { e with excl := false } s else s)
    else if r.agent = 0 ∧ e.excl = false ∧ grant ≠ 2 ∧ mask = BitVec.allOnes 64 ∧ (holderPorts s r.n e).contains r.port then s
    else dirFree k s
  | none => s

/-! ### Atomic operations (R226-R230) -/

/-- Whether an operand size is supported (Table 8.5). -/
def atomicSize (op size : Nat) : Bool := size == 4 || size == 8 || (op == 2 && size == 16)

/-- The value an AtomicOp leaves. -/
def atomicResult (op size old operand compare : Nat) : Nat :=
  let m := 2 ^ (8 * size)
  match op with
  | 0 => (old + operand) % m
  | 1 => operand % m
  | _ => if old = compare % m then operand % m else old

/-- A line with `size` bytes at an offset replaced. -/
def lineWith (l : Line) (off size v : Nat) : Line :=
  mergeBytes l (BitVec.ofNat 512 (v * 2 ^ (8 * off))) (BitVec.ofNat 64 ((2 ^ size - 1) * 2 ^ off))

/-- An AtomicOp on a line (R227-R230): false where it must wait for space. -/
def performAtomic (r : MemReq) (op off size operand compare : Nat) (s : State) : State × Bool :=
  let old (l : Line) : Nat := bitsOf l.toNat (8 * off) (8 * size)
  let new (l : Line) : Line := lineWith l off size (atomicResult op size (old l) operand compare)
  let put (k : Nat) (l : LcLine) (t : State) : State :=
    if op = 2 ∧ old l.data ≠ compare % 2 ^ (8 * size) then residentKeep k l t else residentPut k l (new l.data) t
  let answer (v : Nat) (poison : Bool) (t : State) : State :=
    answerPort r.port 2 (.atomic r.tag v poison) (some r.lat) (onlyIf (!poison && !portUp t r.port) (bumpDrop r.port 0 1) t)
  let d := homeDie r.n r.p
  let s0 := onlyIf (!r.contended) (predMove r.n r.p r.i false) s
  let s0 := match dirFind s0 r.n r.p r.i with
    | some (k, _) => dirFree k s0
    | none => s0
  match checkedDesc r.n r.p (settlePage r.n r.p s0) with
  | none => (answer 0 true s0, true)
  | some (x, s1) =>
    match x.state with
    | .unmapped => (refuseReq 4 r s1, true)
    | .lost | .moving => (answer 0 true s1, true)
    | .zero | .packed | .plain =>
      let g := if needsSpace x then bringIn r.n r.p x s1 else (s1, true)
      if g.2 = false then (s0, false)
      else match descAt g.1 r.n r.p with
        | none => (answer 0 true g.1, true)
        | some y =>
          if y.state ≠ .plain then (answer 0 true g.1, true)
          else match residentLine g.1 r.n r.p r.i with
            | some (k, l) => (answer (old l.data) false (countAccess r.agent r.n r.p true false
                (put k l (bumpCoh d 6 1 (fireWatch r.n r.p g.1)))), true)
            | none =>
              let v := lineValue r.agent r.n r.p r.i y g.1
              let s2 := fireWatch r.n r.p v.2.2
              if v.2.1 then (answer 0 true (countAccess r.agent r.n r.p true false s2), true)
              else if pnum s P.ATOM_MODE = 0 ∧ 2 ≤ predOf s2 r.n r.p r.i ∧ bankFree s2 r.n r.p r.i then
                let c := claimResident r.n r.p r.i v.1 s2
                (match smFind c.1.lc c.2 with
                 | some l => (answer (old v.1) false (countAccess r.agent r.n r.p true false
                     (put c.2 l (bumpCoh d 6 1 c.1))), true)
                 | none => (c.1, true))
              else
                let s3 := match lcFind s2 r.n r.p r.i with
                  | some (k, l) => lcPut k { l with data := new v.1, state := .clean, rrpv := 0 } s2
                  | none => s2
                let s4 := clearPoison r.n r.p r.i (modChan (chanOf d y.loc r.i) (fun c => { c with
                  merge := c.merge.filter fun e => !(e.lodging == r.n && e.page == r.p && e.line == r.i) }) s3)
                (answer (old v.1) false (countAccess r.agent r.n r.p true false (bumpCoh d 5 1
                  (queueWrite d ⟨y.loc, r.i, .plain r.n r.p r.i (new v.1) false, 0, false⟩ s4))), true)

/-! ### A request is performed -/

/-- Whether the owner check of a page's descriptor does not match the lodging of a request's tag (01 R26). -/
def ownerWrong (s : State) (r : MemReq) : Bool :=
  match descAt s r.n r.p with | some x => x.owner != r.n | none => false

/-- A line has been marked lost: counted and reported (R233). -/
def lineLost (n p : Nat) (s : State) : State :=
  logEvent 8 0xFFFF 2 (some (n, p)) 0
    (bumpCoh (homeDie n p) 7 1 (modCoh (fun c => { c with linesLost := bump 64 c.linesLost n 1 }) s))

/-- A request whose snoops have been answered is performed: false where it must wait for space. One whose lodging is not the
descriptor's owner is not acted on. -/
def perform (r : MemReq) (s : State) : State × Bool :=
  let s := dirTouch r.n r.p r.i s
  if ownerWrong s r then (refuseChecked r (descFail r.n r.p s), true)
  else if pageUnmapped s r.n r.p ∧ r.op ≠ .evict ∧ r.op ≠ .lost then (refuseReq 4 r s, true)
  else match r.op with
    | .read grant data =>
      (match residentLine s r.n r.p r.i with
       | some (k, l) =>
         (answerRead r 0 data l.data l.poison (countAccess r.agent r.n r.p false true
           (lcTouch k { l with state := .atomic } (onlyIf (grant != 0) (predMove r.n r.p r.i true) s))), true)
       | none =>
         if data then
           let g := readLine r.agent r.n r.p r.i s
           let q := if r.agent = 0 then dirRead r grant g.2.2.2 else (0, g.2.2.2)
           (answerRead r q.1 true g.1 g.2.1 (countAccess r.agent r.n r.p g.2.2.1 true q.2), true)
         else
           let q := dirRead r grant s
           (answerRead r q.1 false 0#512 false (countAccess r.agent r.n r.p false true q.2), true))
    | .write grant bytes mask =>
      (match residentLine s r.n r.p r.i with
       | some (k, l) => (answerWrite r (countAccess r.agent r.n r.p true false
           (residentPut k l (mergeBytes l.data bytes mask) (fireWatch r.n r.p s))), true)
       | none =>
         let g := writeLine r.n r.p r.i bytes mask s
         if g.2 = false then (g.1, false)
         else (answerWrite r (countAccess r.agent r.n r.p true false (dirWrite r grant mask g.1)), true))
    | .evict =>
      (answerPort r.port 5 (.cmp r.tag 0) (some r.lat) (match dirFind s r.n r.p r.i with
        | some (k, e) => dirPut k (e.drop s r.n r.port) s
        | none => s), true)
    | .atomic op off size operand compare => performAtomic r op off size operand compare s
    | .lost =>
      let g := loseLine r.n r.p r.i s
      if g.2 then (lineLost r.n r.p g.1, true) else g

/-! ### Ordering (R215, R216) -/

/-- Whether a home slice orders requests: itself, while it does not drain (14 R363), or its buddy once its scan has ended (14
R364). -/
def sliceServing (s : State) (slice : Nat) : Bool :=
  unitAdmits s (280 + slice) || ((smFind s.unit.takeover slice).isSome && !s.unit.scanning.contains slice)

/-- Whether a page's wing has a failed channel, or has left service itself (11 R311, 15 R389). -/
def wingBroken (s : State) (n p : Nat) : Bool :=
  match descAt s n p with
  | some x =>
    let w := match x.state with
      | .plain => some (x.loc / 2 ^ 28)
      | .packed => some (x.loc / 2 ^ 32)
      | _ => none
    match w with
    | some w =>
      let c := 2 * (4 * homeDie n p + w)
      chanDead s c || chanDead s (c + 1)
    | none => false
  | none => false

/-- Whether a page is locked. -/
def pageLocked (s : State) (n p : Nat) : Bool := match descAt s n p with | some x => x.state == .moving | none => false

/-- Whether a page's home die has no engine in service of a class its state needs (14 Table 14.3). -/
def engineMissing (s : State) (n p : Nat) : Bool :=
  let d := homeDie n p
  match descAt s n p with
  | some x => (x.state == .plain || x.state == .packed) && unitServes s (372 + d) &&
      (!engineThere (208 + 16 * d) 16 s || (x.state == .packed && !engineThere (144 + 16 * d) 16 s))
  | none => false

/-- Whether a page has a write that waits for space: what comes later for it waits behind (R79). -/
def pageStalled (s : State) (n p : Nat) : Bool :=
  (smGet [] s.coh.stalled (homeSlice n p)).any fun q => q.n == n && q.p == p

/-! ### Pace (01 R16) -/

/-- A home arbiter of a die admits one transfer. -/
def tokenTake (d : Nat) (s : State) : State := tokensTake d 1 s

/-- Whether a line has a transaction open, or a request waiting for one. -/
def lineBusy (s : State) (r : MemReq) : Bool :=
  let slice := homeSlice r.n r.p
  let same (q : MemReq) : Bool := q.n == r.n && q.p == r.p && q.i == r.i
  (txOn s slice (lineKey r.n r.p r.i)).isSome || s.coh.lineQ.any same ||
    s.coh.txs.any fun t => match t.cause with | .victim q => same q | _ => false

/-- Whether a request whose line is free finds no snoop tracker, or no way of its set that it could take (R216, R223). -/
def trackerWaits (s : State) (r : MemReq) : Bool :=
  let slice := homeSlice r.n r.p
  let set := dirSet slice (lineKey r.n r.p r.i)
  !lineBusy s r &&
  match (if r.snooped then none else snoopFor s r) with
  | some _ => !trackerFree s slice
  | none => needsEntry s r && (freeWay s set).isNone && ((dirVictim s set).isNone || !trackerFree s slice)

/-- Whether a page lies on a channel whose commands wait for `ALERT_N` (11 R301). -/
def pageStopped (s : State) (n p : Nat) : Bool :=
  match descAt s n p with
  | some x =>
    let w := 4 * homeDie n p + (if x.state = .packed ∨ (x.state = .moving ∧ x.len ≠ 0) then x.loc / 2 ^ 32 else x.loc / 2 ^ 28)
    decide (descBytes x ≠ 0) && ((chanAt s (2 * w)).alertN || (chanAt s (2 * w + 1)).alertN)
  | none => false

/-- Whether a request cannot be ordered now: its slice does not serve, its page is locked or has a stalled write, an
engine class it needs has none in service, its port is being scanned, its channel's commands are stopped, its die has no token left, its slice no tracker, or
its write's wing has a failed channel. -/
def mustWait (s : State) (r : MemReq) : Bool :=
  !sliceServing s (homeSlice r.n r.p) || pageLocked s r.n r.p ||
    pageStalled s r.n r.p || (pageStopped s r.n r.p && (lcFind s r.n r.p r.i).isNone) ||
    s.coh.dying.contains r.port || engineMissing s r.n r.p ||
    (!r.ordered && !paceOpen s (homeDie r.n r.p)) || trackerWaits s r ||
    ((match r.op with | .write _ _ _ => true | .atomic _ _ _ _ _ => true | _ => false) && wingBroken s r.n r.p)

/-- A write that needs space joins its slice's space-wait queue, or keeps waiting in the home queue (R79). -/
def stall (r : MemReq) (s : State) : State :=
  let slice := homeSlice r.n r.p
  if 256 ≤ (smGet [] s.coh.stalled slice).length then homeReturn { r with contended := true } s
  else modCoh (fun c => { c with
    stalled := smMod [] c.stalled slice (· ++ [{ r with snooped := true, contended := true }]) }) s

/-- An atomic operation that meets contention for its line counts it, once (R228). -/
def noteContention (r : MemReq) (s : State) : MemReq × State :=
  match r.op with
  | .atomic _ _ _ _ _ => ({ r with contended := true }, onlyIf (!r.contended) (predMove r.n r.p r.i true) s)
  | _ => (r, s)

/-- Whether a request is refused because its lodging's domain is down (R233). -/
def domainRefuses (s : State) (r : MemReq) : Bool := decide (r.agent < 2) && s.coh.down.contains r.n

/-- An ordered request is evaluated against the directory: a snoop, a victim, or its performance. One whose page is locked
or has a write waiting for space waits, and so does one that finds no tracker or way. -/
def evaluate (r : MemReq) (s : State) : State :=
  let slice := homeSlice r.n r.p
  let key := lineKey r.n r.p r.i
  if r.tagGood = false then refuseChecked r s
  else if domainRefuses s r then refuseReq 8 r s
  else if pageLocked s r.n r.p ∨ pageStalled s r.n r.p then homeReturn r s
  else match (if r.snooped then none else snoopFor s r) with
  | some (op, ports) =>
    if trackerFree s slice then
      let q := noteContention r s
      openTx ⟨slice, key, op, ports, false, .request q.1⟩ q.2
    else homeReturn r s
  | none =>
    let run (t : State) : State :=
      let g := perform r t
      if g.2 then g.1 else stall r g.1
    if needsEntry s r ∧ (freeWay s (dirSet slice key)).isNone then
      (match dirVictim s (dirSet slice key) with
       | none => homeReturn r s
       | some (k, e) =>
         let l := entryLine k e
         (match holderPorts s l.1 e with
          | [] => run (dirFree k s)
          | ps => if trackerFree s slice then
              openTx ⟨slice, lineKey l.1 l.2.1 l.2.2, 0, ps, false, .victim r⟩ (bumpCoh (slice / 16) 1 1 s)
            else homeReturn r s))
    else run s

/-- A message of a port has been ordered at a slice: the pointer stands past that port (R215). -/
def pointerPast (slice p : Nat) (s : State) : State := modCoh (fun c => { c with rr := smPut 0 c.rr slice ((p + 1) % 64) }) s

/-- A request is ordered, once: one of a port moves its slice's pointer past that port, and it counts as a transfer of its
die. -/
def ordered (r : MemReq) (s : State) : State :=
  if r.ordered then s
  else tokenTake (homeDie r.n r.p) (onlyIf (decide (r.agent < 2)) (pointerPast (homeSlice r.n r.p) r.port) s)

/-- The place of a request among those of one handshake (R215): ports upward from the pointer, then the device's agents. -/
def handshakeRank (s : State) (r : MemReq) : Nat :=
  if r.agent < 2 then (r.port + 64 - smGet 0 s.coh.rr (homeSlice r.n r.p)) % 64 else 64 + r.agent

/-- A request reaches the arbiter: it waits behind its line, or is evaluated. -/
def arrive (r0 : MemReq) (s : State) : State :=
  let s1 := ordered r0 s
  let r := { r0 with ordered := true }
  let queued := (homeOf s (homeSlice r.n r.p)).any fun h => h.req.n == r.n && h.req.p == r.p && h.req.i == r.i
  if lineBusy s r then
    let q := noteContention r s1
    modCoh (fun c => { c with lineQ := c.lineQ ++ [q.1] }) q.2
  else
    let q := if queued then noteContention r s1 else (r, s1)
    evaluate q.1 q.2

/-- Whether a write comes from a port with a snoop open for its line (R218). -/
def answersSnoop (s : State) (r : MemReq) : Option Tx :=
  match r.op with
  | .write _ _ _ => (txOn s (homeSlice r.n r.p) (lineKey r.n r.p r.i)).bind fun t =>
      if t.left.contains r.port then some t else none
  | _ => none

/-- The bytes a new location takes. -/
def moveBytes (m : Move) : Nat :=
  match m.req.kind with
  | .demote | .repack => 256 * slotsOf m.image.length
  | .promote => frameBytes m.pre.isSealed
  | .relocate => descBytes m.pre

/-- Whether a move's new location is a slot run. -/
def moveToRun (m : Move) : Bool :=
  match m.req.kind with
  | .demote | .repack => true
  | .promote => false
  | .relocate => m.pre.state == .packed

/-- What a move took is given back: its location waits for blanking, its draw returns to the working reserve. -/
def moveFree (d : Nat) (m : Move) (s : State) : State :=
  let s1 := match m.loc with
    | some l => if moveToRun m then freeRun d l s else freeFrame d l s
    | none => s
  modSpace (fun x => { x with reserve := smPut 0 x.reserve d (smGet 0 x.reserve d - m.drew) }) s1

/-- The visit of a die's re-key engine ends, whatever it had come to. -/
def rekeyRelease (n d : Nat) (s : State) : State :=
  modProt (fun x => { x with rekeys := x.rekeys.map fun e => if e.1 = n then (n, { e.2 with
    asking := smErase e.2.asking d, fired := e.2.fired.filter (· ≠ d), locked := smErase e.2.locked d }) else e }) s

/-- A page's lock is given back (04 R105): the descriptor as it was before the move or the re-key visit that holds it; what
was allocated is freed, and the move is queued again. -/
def unlockPage (n p : Nat) (s : State) : State :=
  let d := homeDie n p
  if pageLocked s n p = false then s
  else match s.tier.moves.find? fun e => e.2.req.n == n && e.2.req.p == p && e.2.pess with
    | some m => setDesc n p m.2.pre (queueMove d m.2.req (moveFree d m.2
        (modTier (fun t => { t with moves := smErase t.moves m.1 }) s)))
    | none => match (smFind s.prot.rekeys n).bind fun r => smFind r.locked d with
      | some x => setDesc n p x (rekeyRelease n d s)
      | none => s

/-- A die's re-key engine gives back the lock it holds on a page of a lodging, and its visit ends. -/
def rekeyUnlock (n d : Nat) (s : State) : State :=
  match (smFind s.prot.rekeys n).bind fun r => smFind r.asking d with
  | some p => rekeyRelease n d (unlockPage n p s)
  | none => s

/-- A write-back that answers a snoop is ordered at once (R218). -/
def performBack (t : Tx) (r : MemReq) (s0 : State) : State :=
  let s := ordered r s0
  if r.tagGood = false then refuseChecked r s
  else if t.drop then answerVoid r s
  else
    match descAt s r.n r.p, r.op with
    | some x, .write grant bytes mask =>
      if x.state = .moving ∧ x.len = 0 then
        answerWrite r (dirWrite r grant mask (writePlain r.n r.p r.i x bytes mask s))
      else
        let g := perform r (if x.state = .moving then unlockPage r.n r.p s else s)
        if g.2 then g.1 else stall r g.1
    | _, _ => answerVoid r s

/-- The two descriptors of a line of a granule slot on a die under rebuild, its pages that are not `UNMAPPED`, become `LOST`
(14 R366). -/
def rebuildAt (d q : Nat) (s : State) : State :=
  match smFind s.lod.slots (q / 8192) with
  | none => s
  | some r =>
    let n := r.lodging
    forAll [descPage n r.granule d (2 * (q % 8192)), descPage n r.granule d (2 * (q % 8192) + 1)] (fun p t =>
      match descAt t n p with
      | none => t
      | some x =>
        if x.state = .unmapped then t
        else
          setDesc n p { state := .lost, owner := n, phase := x.phase, isSealed := lodgeAttr t n 0
                        isolated := lodgeAttr t n 1, pinned := lodgeAttr t n 3, version := smGet 0 t.prot.hwm d }
            (countersDrop n p (modLodge n (fun l => { l with
              pagesLost := if x.state = .lost then l.pagesLost else l.pagesLost + 1 }) t))) s

/-- A request that reaches a descriptor line of a die under rebuild that has not been rewritten has it rewritten first (14
R366). -/
def rebuildFirst (n p : Nat) (s : State) : State :=
  let d := homeDie n p
  match slotOf s n p with
  | none => s
  | some m =>
    let q := m * 8192 + p / 8 % 8192
    if (smGet [] s.unit.rebuild d).any fun x => x / 8192 == m && decide (x ≤ q) then rebuildAt d q s else s

/-! ### What resumes a request -/

/-- The requests that wait behind a line are evaluated in order, until one opens a transaction. -/
def resumeLine : Nat → Nat → Nat → State → State
  | 0, _, _, s => s
  | k + 1, slice, key, s =>
    if (txOn s slice key).isSome then s
    else match s.coh.lineQ.find? fun r => homeSlice r.n r.p == slice && lineKey r.n r.p r.i == key with
      | none => s
      | some r => resumeLine k slice key (evaluate r (modCoh (fun c => { c with lineQ := c.lineQ.erase r }) s))

/-- A domain that waits for `COH_RESET` is `UP` once no snoop of its lodging is open (R237). -/
def cohSettle (n : Nat) (s : State) : State :=
  if cmdPending s 0 (P.COH_RESET + 256 * n) ∧ lodgeSnooped s n = false then
    cmdEnd 0 (P.COH_RESET + 256 * n) 0x00 0 (modCoh (fun c => { c with down := c.down.filter (· ≠ n) }) s)
  else s

/-- Every domain that waits for `COH_RESET`. -/
def cohSettleAll (s : State) : State := forAll s.coh.down cohSettle s

/-- Writes that already wait, in a line queue or a home queue, and now answer a snoop are ordered at once (R218): a holder
answers only after its write has completed. -/
def backsTake (s : State) : State :=
  let queued := s.coh.home.flatMap fun e => e.2.map fun h => (e.1, h)
  let s1 := forAll (queued.filter fun e => (answersSnoop s e.2.req).isSome) (fun e t =>
    match answersSnoop t e.2.req with
    | some x => performBack x e.2.req (modCoh (fun c => { c with home := smMod [] c.home e.1 (List.erase · e.2) }) t)
    | none => t) s
  forAll (s1.coh.lineQ.filter fun r => (answersSnoop s1 r).isSome) (fun r t =>
    match answersSnoop t r with
    | some x => performBack x r (modCoh (fun c => { c with lineQ := c.lineQ.erase r }) t)
    | none => t) s1

/-- The snoops of an operation of the device go out, and writes that wait and answer one are ordered. -/
def snoopPageNow (n p : Nat) (s : State) : State := cohSettleAll (backsTake (snoopPage n p s))
/-- The same for lines granted in `E` since. -/
def snoopMoreNow (n p : Nat) (s : State) : State := cohSettleAll (backsTake (snoopMore n p s))

/-- Every transaction's last answer has been ordered (R216): its request goes on, then what waits behind the line, then the
snoops that the device wants. -/
def closeTx (t : Tx) (s : State) : State :=
  let s0 := modCoh (fun c => { c with txs := c.txs.erase t }) s
  let fuel := s.coh.lineQ.length + 1
  let s1 := match t.cause with
    | .request r => resumeLine fuel t.slice t.key (evaluate { r with snooped := true } s0)
    | .victim r => resumeLine fuel t.slice (lineKey r.n r.p r.i) (resumeLine fuel t.slice t.key (evaluate r s0))
    | .device => resumeLine fuel t.slice t.key s0
  backsTake (cohSettleAll (openDue t.slice s1))

/-- Whether a transaction leaves the other port of a pair as a holder: it is still to answer, or made the request. -/
def Tx.keepsPair (t : Tx) (p : Nat) : Bool :=
  ((t.left.filter (· ≠ p)).any fun q => q / 2 == p / 2) ||
    match t.cause with
    | .request r => r.agent == 0 && r.port / 2 == p / 2 && r.port != p
    | _ => false

/-- A port's answer to a snoop is taken: 0 `BIRspI`, 1 `BIRspS`, 2 `BIRspE` (R219). -/
def snoopAnswered (t : Tx) (p rsp : Nat) (s0 : State) : State :=
  let l := keyLine t.key
  let s := dirTouch l.1 l.2.1 l.2.2 s0
  let s1 := match dirFind s l.1 l.2.1 l.2.2 with
    | some (k, e) =>
      if rsp = 2 then s
      else if rsp = 1 then dirPut k { e with excl := false } s
      else if e.coarse then
        (if t.keepsPair p then s
         else dirPut k { e with holders := e.holders.filter (· ≠ p / 2) } s)
      else dirPut k { e with holders := e.holders.filter (· ≠ p) } s
    | none => s
  let t1 := { t with left := t.left.filter (· ≠ p) }
  if t1.left = [] then closeTx t s1
  else modCoh (fun c => { c with txs := c.txs.map fun x => if x = t then t1 else x }) s1

/-- A stalled write leaves its list and is tried again: the state, and whether it was answered. -/
def stalledTry (slice : Nat) (r : MemReq) (s : State) : State × Bool :=
  let out := modCoh (fun c => { c with stalled := smPut [] c.stalled slice ((smGet [] c.stalled slice).erase r) }) s
  if domainRefuses s r then (refuseReq 8 r out, true) else perform r out

/-- The first stalled write that can proceed now (R79): the first of its page, whose lock nobody holds. One whose domain has
gone down is refused. -/
def stalledResume (slice : Nat) (s : State) : State :=
  let q := smGet [] s.coh.stalled slice
  match q.findSome? fun r =>
      if pageLocked s r.n r.p ∨ (q.find? fun x => x.n == r.n && x.p == r.p) ≠ some r then none else
      let g := stalledTry slice r s
      if g.2 then some g.1 else none with
  | some t => homeSettle slice t
  | none => s

/-- Whether a queued request waits behind another of its page or its label: one that has been ordered, arrived earlier, or is of
the same port (R276). -/
def HomeReq.behind (l : List HomeReq) (h : HomeReq) : Bool :=
  (l.takeWhile (· ≠ h)).any fun x => ((x.req.n == h.req.n && x.req.p == h.req.p) || x.req.label == h.req.label) &&
    (x.req.ordered || decide (x.arrived < h.arrived) || x.req.port == h.req.port)

/-- The requests of a home queue that can be served now. -/
def homeReady (s : State) (slice : Nat) : List HomeReq :=
  (homeOf s slice).filter fun h => h.place == 0 && !mustWait s h.req && !h.behind (homeOf s slice)

/-- Of several requests, the first by a measure, then by arrival, then by the order of R215. -/
def HomeReq.first (s : State) (measure : HomeReq → Nat) (l : List HomeReq) : Option HomeReq :=
  l.foldl (fun best h => match best with
    | none => some h
    | some b =>
      let before (x y : HomeReq) : Bool :=
        decide (measure x < measure y) || (measure x == measure y &&
          (decide (x.arrived < y.arrived) || (x.arrived == y.arrived &&
            decide (handshakeRank s x.req < handshakeRank s y.req))))
      if before h b then some h else some b) none

/-- A home queue releases its next request: fair queueing among share groups, in a group R276. -/
def homeSelect (slice : Nat) (s : State) : State :=
  let ready := homeReady s slice
  match fairPick s slice ((ready.map (·.req.group)).eraseDups) with
  | none => s
  | some g =>
    let mine := ready.filter fun h => h.req.group == g
    let die := 4 + slice / 16
    let old := mine.filter fun h => decide (10000 ≤ dieTime s die - h.arrived)
    let best := if old = [] then HomeReq.first s (fun h => 15 - mirrorPrio s die h.req.label) mine
      else HomeReq.first s (fun _ => 0) old
    match best with
    | none => s
    | some h =>
      let s1 := modCoh (fun c => { c with home := smMod [] c.home slice (List.erase · h) }) s
      let more := (homeOf s1 slice).any fun x => x.req.group == g
      let s2 := fairServe slice g 64 more s1
      homeSettle slice (if unitServes s (372 + slice / 16) = false then refuseReq 11 h.req s2 else arrive h.req s2)

/-- A request that passed the port's checks is ordered at its home arbiter (R215): through its slice's queue, which releases it
at once where nothing holds it and nothing before it can go. -/
def order (r : MemReq) (s : State) : State :=
  let d := homeDie r.n r.p
  let slice := homeSlice r.n r.p
  match answersSnoop s r with
  | some t => performBack t r s
  | none =>
    if unitServes s (372 + d) = false then refuseReq 11 r (rebuildFirst r.n r.p s)
    else if domainRefuses s r then refuseReq 8 r s
    else
      let t := homeJoin r s
      backsTake (if homeReady s slice = [] then homeSelect slice t else t)

/-- A link die stamps a request's tag, with the next of its transaction indices, and sends it on. -/
def orderStamped (r : MemReq) (s : State) : State :=
  let l := r.port / 16
  order (r.stamped (smGet 0 s.coh.xids l)) (modCoh (fun c => { c with xids := smMod 0 c.xids l fun x => (x + 1) % 65536 }) s)

end Sys2Proof.Machine
end

