-- ==== Sys2Proof/Machine/HostMem.lean ====
section
/-! DEFINITION. The commands by which hosts and downstream devices reach memory, and routing between ports of one virtual
switch (08 R217-R228; 09 R244-R247, R251). -/

namespace Sys2Proof.Machine

/-! ### Routing (09 R251, R244) -/

/-- The class of Table 9.7 of a CXL.mem message kind: 0 Req, 1 RwD, 2 NDR, 3 DRS, 4 BISnp or BIRsp. -/
def memClass (kind : Nat) : Nat := 3 + kind

/-- A CXL.mem message passes between a USP and a DSP bound in its virtual switch; a read for a device whose link is down
returns poison, a write for it is not completed (09 R260). -/
def routeMem (src dst kind tag : Nat) (bytes : List Byte) (s : State) : State :=
  if vcsOf s src ≠ vcsOf s dst ∨ (vcsOf s src).isNone ∨ (portRole s src = portRole s dst) then s
  else if portUp s dst = false then
    (if kind = 0 ∧ portRole s src = 1 then
      answerPort src 6 (.data tag 0#512 true) none (answerPort src 5 (.cmp tag 0) none s) else s)
  else
    let open_ := (src, dst, kind, tag)
    let s1 := if kind < 2 then modSw (fun w => { w with routed := w.routed ++ [open_] }) s
      else modSw (fun w => { w with routed := w.routed.filter fun q =>
        !(q.1 == dst && q.2.1 == src && decide (q.2.2.1 < 2) && q.2.2.2 == tag) }) s
    let m : Msg := .routed (memClass kind) src tag bytes
    egressOffer ⟨memClass kind, m.size, [dst], some src, m, none, false, false⟩ s1

/-- A CXL.io transfer is routed within one virtual switch: kind 0 posted, 1 non-posted, 2 completion; `acs` is what the
source vPPB's ACS controls say of a peer-to-peer transfer: 0 passes, 1 redirected upstream, 2 blocked. -/
def routeIo (src dst kind tag : Nat) (bytes : List Byte) (acs : Nat) (s : State) : State :=
  match vcsOf s src with
  | none => s
  | some v =>
    let peer := portRole s src = 2 ∧ portRole s dst = 2
    let tgt := if peer ∧ acs = 1 then v else dst
    if vcsOf s dst ≠ some v ∨ (peer ∧ acs = 2) ∨ portUp s tgt = false then
      -- not passed: a non-posted request completes with Unsupported Request, a posted write is counted
      (if kind = 1 then (if portRole s tgt = 1 ∧ vcsOf s dst = some v then s else answerPort src 2 (.unsupported tag) none s)
       else if kind = 0 then bumpDrop tgt 5 1 s else s)
    else
      let s1 := if kind = 1 then modSw (fun w => { w with routed := w.routed ++ [(src, tgt, 10, tag)] }) s
        else if kind = 2 then modSw (fun w => { w with routed := w.routed.filter fun q =>
          !(q.1 == tgt && q.2.1 == src && q.2.2.1 == 10 && q.2.2.2 == tag) }) s
        else s
      let m : Msg := .routed kind src tag bytes
      egressOffer ⟨kind, m.size, [tgt], some src, m, none, false, false⟩ s1

/-! ### Requests of hosts -/

/-- A request that names no line, for a refusal at the port. -/
def bareReq (s : State) (agent p tag dpa : Nat) (op : ReqOp) : MemReq :=
  { agent := agent, port := p, tag := tag, n := 0, p := 0, i := 0, op := op, since := dieTime s (p / 16), label := 0, dpa := dpa }

/-- Whether the port may carry traffic to a lodging by 07 R209. -/
def ideAllows (s : State) (p n : Nat) : Bool :=
  !(lodgeAttr s n 0 && pnum s P.SEAL_REQUIRE_IDE == 1) || ideSecure s p

/-- A decoded request is refused at the port or ordered (01 R27; 03 R60, R67; 07 R209). One whose two decodes differ counts
against the port controller (14 R362). -/
def portRequest (agent p tag part : Nat) (op : ReqOp) (h : Option HostHit) (dpa : Nat) (s : State) : State :=
  let bare := { bareReq s agent p tag dpa op with part := part }
  match h with
  | some (.line n page i a gen) =>
    let r := { bare with n := n, p := page, i := i, dpa := a, label := lodgeP s n P.LABEL }
    if gen ≠ (lodgeAt s n).gen then refuseReq 4 bare s
    else if agent = 1 ∧ (lodgeAttr s n 1 ∨ (lodgeAt s n).isoTo = some false) then refuseReq 4 bare s
    else if ideAllows s p n = false then refuseReq 3 bare s
    else orderStamped r s
  | some _ => refuseReq 4 bare s
  | none => refuseReq 4 bare (unitSuspect p (p / 16) s)

/-- Whether the extent table a port's requests go through was left without memory traffic (03 R68): a downstream port's is
that of its virtual switch; a link die that drains admits none (14 R359). -/
def memoryClosed (s : State) (p : Nat) : Bool :=
  (unitAt s (368 + p / 16)).state == .draining || (portAt s p).noMem || match vcsOf s p with | some u => (portAt s u).noMem | none => false

/-- A CXL.mem request of a host at its HPA: kind and bytes say what a downstream Type 3 device would get. -/
def hostRequest (p hpa tag : Nat) (op : ReqOp) (kind : Nat) (bytes : List Byte) (s : State) : State :=
  let s := portActivity p s
  if portUp s p = false ∨ portRole s p ≠ 1 ∨ memoryClosed s p then s
  else match hostHit s p hpa with
    | some (.dsp q) => routeMem p q kind tag bytes s
    | h => portRequest 0 p tag 0 op h hpa s

/-! ### AtomicOps and BAR 2 (R226, R247) -/

/-- An AtomicOp on lodging memory, from a host or a downstream device. One of an unsupported size or alignment is malformed
(R226): nothing is done but the report (log 8). -/
def atomicRequest (p dpa tag op size operand compare : Nat) (s : State) : State :=
  let s := portActivity p s
  let role := portRole s p
  if portUp s p = false ∨ (role ≠ 1 ∧ role ≠ 2) ∨ memoryClosed s p then s
  else if atomicSize op size = false ∨ dpa % size ≠ 0 then logEvent 10 p 1 none 0 s
  else
    let a : ReqOp := .atomic op (dpa % 64) size operand compare
    if role = 1 then
      (if imeBound s p then portRequest 0 p tag 0 a (dpaHit s p dpa) dpa s else answerPort p 2 (.unsupported tag) none s)
    else match vcsOf s p with
      | some v => if pnum s (P.DSP_P2P + 256 * p) = 1 ∧ imeBound s v then portRequest 1 p tag 0 a (dpaHit s v dpa) dpa s
          else answerPort p 2 (.unsupported tag) none s
      | none => answerPort p 2 (.unsupported tag) none s

/-- The part of a write's bytes that falls into line `k` of the request: the line's bytes and mask. -/
def linePart (first : Nat) (bytes : List Byte) (k : Nat) : Line × BitVec 64 :=
  (below 64).foldl (fun (a : Line × BitVec 64) j =>
    let pos := 64 * k + j
    if first ≤ pos ∧ pos < first + bytes.length then
      (a.1 ||| ((nth 0#8 bytes (pos - first)).setWidth 512 <<< (8 * j)), a.2 ||| (1#64 <<< j))
    else a) (0#512, 0#64)

/-- The latency tag of a request of several lines: that of its first line. -/
def gatherTag (s : State) (d u dpa : Nat) : LatTag :=
  match dpaHit s u dpa with
  | some (.line n page _ _ _) => ⟨1, lodgeP s n P.LABEL, dieTime s (d / 16), homeSlice n page, true⟩
  | _ => ⟨1, 0, dieTime s (d / 16), 0, true⟩

/-- A request in IME BAR 2: a downstream device's; of a host's, AtomicOps, and any other completes with Unsupported Request, a
posted one being counted (08 R226). -/
def bar2Request (d dpa tag : Nat) (what : Bar2Op) (s : State) : State :=
  let s := portActivity d s
  if portUp s d = false ∨ (portRole s d ≠ 1 ∧ portRole s d ≠ 2) ∨ memoryClosed s d then s
  else if portRole s d = 1 then
    (match what with
     | .atomic op size x y => atomicRequest d dpa tag op.val size.toNat x.toNat y.toNat s
     | .read _ => answerPort d 2 (.unsupported tag) none s
     | .write _ => bumpDrop d 5 1 s)
  else match what with
    | .atomic op size x y => atomicRequest d dpa tag op.val size.toNat x.toNat y.toNat s
    | .read len =>
      let lines := (dpa % 64 + len.toNat + 63) / 64
      (match vcsOf s d with
       | some u =>
         if pnum s (P.DSP_P2P + 256 * d) ≠ 1 ∨ imeBound s u = false ∨ len = 0#13 then answerPort d 2 (.unsupported tag) none s
         else forAll (below lines) (fun k t =>
           let a := (dpa / 64 + k) * 64
           portRequest 1 d tag k (.read 0 true) (dpaHit t u a) a t)
           (modCoh (fun c => { c with gathers := c.gathers ++ [⟨d, tag, lines, true, [], gatherTag s d u dpa⟩] }) s)
       | none => answerPort d 2 (.unsupported tag) none s)
    | .write bytes =>
      let first := dpa % 64
      let lines := (first + bytes.length + 63) / 64
      (match vcsOf s d with
       | some u =>
         if pnum s (P.DSP_P2P + 256 * d) ≠ 1 ∨ imeBound s u = false then bumpDrop d 5 1 s
         else if bytes = [] then s
         else forAll (below lines) (fun k t =>
           let a := (dpa / 64 + k) * 64
           let q := linePart first bytes k
           portRequest 1 d tag k (.write 0 q.1 q.2) (dpaHit t u a) a t)
           (modCoh (fun c => { c with gathers := c.gathers ++ [⟨d, tag, lines, false, [], gatherTag s d u dpa⟩] }) s)
       | none => bumpDrop d 5 1 s)

/-! ### Answers to snoops (R219, R221) -/

/-- A message of a host that the protocol does not allow: discarded, counted, reported to the host. -/
def protocolError (p n page i : Nat) (s : State) : State :=
  bumpCoh (homeDie n page) 4 1 (putEvent p 1 (.vendor 7 (lineKey n page i)) s)

/-- A BIRsp (R219). -/
def birsp (p n page i rsp : Nat) (block : Bool) (s : State) : State :=
  if portUp s p = false then s
  else match txOn s (homeSlice n page) (lineKey n page i) with
    | none => protocolError p n page i s
    | some t =>
      if block ∨ t.left.contains p = false ∨ (t.op = 1 ∧ rsp = 2) then protocolError p n page i s
      else snoopAnswered t p (if t.op = 0 then 0 else rsp) (pointerPast (homeSlice n page) p s)

/-- A BIConflict (R221): acknowledged, behind what was ordered and answered before it; with a snoop to the port open it is a
conflict, and counted. -/
def biconflict (p n page i : Nat) (s : State) : State :=
  if portUp s p = false then s
  else
    let asked := match txOn s (homeSlice n page) (lineKey n page i) with
      | some t => t.left.contains p
      | none => false
    answerPort p 5 (.conflictAck n page i) none (onlyIf asked (bumpCoh (homeDie n page) 2 1) s)

/-- A resident line has gone `ATOM_COOL_TIME` without an atomic operation (R228, R231). -/
def coolTick (n page i : Nat) (s : State) : State :=
  match residentLine s n page i with
  | none => s
  | some (k, _) =>
    let s1 := predMove n page i false s
    if predOf s1 n page i < 2 then releaseResident k s1 else s1

/-- A host commits an HDM decoder (R246): both copies take it; ways and granularities beyond the common limits are not
offered, and such a commit is not taken. -/
def hdmCommit (p k base size skip ways gran : Nat) (targets : List Nat) (s : State) : State :=
  if portRole s p ≠ 1 ∨ portUp s p = false ∨ ways > (if k < 8 then 3 else 4) ∨ 6 < gran then s
  else
    let h : Hdm := ⟨base, size, 2 ^ ways, 2 ^ (8 + gran), targets, skip⟩
    modPortAt p (fun x => { x with hdmA := smSet x.hdmA k h, hdmB := smSet x.hdmB k h }) s

/-! ### Commands -/

/-- MEMRD (R217). -/
def execMemrd (p : PortId) (hpa : BitVec 52) (tag : BitVec 16) (grant : Fin 3) (s : State) : Out :=
  .next (hostRequest p.val hpa.toNat tag.toNat (.read grant.val true) 0 [] s)
/-- MEMINV (R217). -/
def execMeminv (p : PortId) (hpa : BitVec 52) (tag : BitVec 16) (grant : Fin 3) (s : State) : Out :=
  .next (hostRequest p.val hpa.toNat tag.toNat (.read grant.val false) 0 [] s)
/-- MEMWR (01 R28). -/
def execMemwr (p : PortId) (hpa : BitVec 52) (tag : BitVec 16) (grant : Fin 3) (data : Line) (s : State) : Out :=
  .next (hostRequest p.val hpa.toNat tag.toNat (.write grant.val data (BitVec.allOnes 64)) 1 (leBytes 64 data.toNat) s)
/-- MEMWRPTL (11 R308). -/
def execMemwrptl (p : PortId) (hpa : BitVec 52) (tag : BitVec 16) (grant : Fin 3) (data : Line) (mask : BitVec 64)
    (s : State) : Out :=
  .next (hostRequest p.val hpa.toNat tag.toNat (.write grant.val data mask) 1
    (leBytes 64 data.toNat ++ leBytes 8 mask.toNat) s)
/-- MEMCLNEVCT (R217). -/
def execMemclnevct (p : PortId) (hpa : BitVec 52) (tag : BitVec 16) (s : State) : Out :=
  .next (hostRequest p.val hpa.toNat tag.toNat .evict 0 [] s)
/-- BIRSP (R219). -/
def execBirsp (p : PortId) (n : LodgeId) (page : BitVec 34) (line : Fin 64) (rsp : Fin 3) (block : Bool) (s : State) : Out :=
  .next (birsp p.val n.val page.toNat line.val rsp.val block (portActivity p.val s))
/-- BICONFLICT (R221). -/
def execBiconflict (p : PortId) (n : LodgeId) (page : BitVec 34) (line : Fin 64) (s : State) : Out :=
  .next (biconflict p.val n.val page.toNat line.val (portActivity p.val s))
/-- FETCHADD (R226). -/
def execFetchAdd (p : PortId) (dpa : BitVec 47) (tag : BitVec 16) (size : BitVec 8) (operand : BitVec 128) (s : State) : Out :=
  .next (atomicRequest p.val dpa.toNat tag.toNat 0 size.toNat operand.toNat 0 s)
/-- SWAP (R226). -/
def execAtomSwap (p : PortId) (dpa : BitVec 47) (tag : BitVec 16) (size : BitVec 8) (operand : BitVec 128) (s : State) : Out :=
  .next (atomicRequest p.val dpa.toNat tag.toNat 1 size.toNat operand.toNat 0 s)
/-- CAS (R226). -/
def execAtomCas (p : PortId) (dpa : BitVec 47) (tag : BitVec 16) (size : BitVec 8) (operand compare : BitVec 128)
    (s : State) : Out :=
  .next (atomicRequest p.val dpa.toNat tag.toNat 2 size.toNat operand.toNat compare.toNat s)
/-- DSP_BAR2_REQUEST (R247). -/
def execDspBar2Request (p : PortId) (dpa : BitVec 47) (tag : BitVec 16) (what : Bar2Op) (s : State) : Out :=
  .next (bar2Request p.val dpa.toNat tag.toNat what s)
/-- STALLED_WRITE_RESUME (03 R79). -/
def execStalledWriteResume (h : SliceId) (s : State) : Out := .next (stalledResume h.val s)
/-- HOME_QUEUE_SELECT (10 R275). -/
def execHomeQueueSelect (h : SliceId) (s : State) : Out := .next (homeSelect h.val s)
/-- ATOM_COOL_TICK (R228). -/
def execAtomCoolTick (n : LodgeId) (page : BitVec 34) (line : Fin 64) (s : State) : Out :=
  .next (coolTick n.val page.toNat line.val s)
/-- HDM_DECODER_COMMIT (R246). -/
def execHdmDecoderCommit (p : PortId) (k : Fin 10) (base size skip : BitVec 52) (ways gran : Fin 16)
    (targets : List (Fin 32)) (s : State) : Out :=
  .next (hdmCommit p.val k.val base.toNat size.toNat skip.toNat ways.val gran.val (targets.map (·.val)) s)
/-- CXL_MEM_ROUTE (R244). -/
def execCxlMemRoute (src dst : PortId) (kind : Fin 5) (tag : BitVec 16) (bytes : List Byte) (s : State) : Out :=
  .next (routeMem src.val dst.val kind.val tag.toNat bytes (portActivity src.val s))
/-- CXL_IO_ROUTE (R251). -/
def execCxlIoRoute (src dst : PortId) (kind : Fin 3) (tag : BitVec 16) (bytes : List Byte) (acs : Fin 3) (s : State) : Out :=
  .next (routeIo src.val dst.val kind.val tag.toNat bytes acs.val (portActivity src.val s))

end Sys2Proof.Machine
end

