-- ==== Sys2Proof/Machine/Deflate.lean ====
section
/-! DEFINITION. The other formats of offload jobs, DEFLATE, zlib and gzip, with their error codes, and streams of Maeri
frames (05 R153, R154; 06 R166-R168, Table 6.8). -/

namespace Sys2Proof.Machine

/-! ### Check values -/

/-- One byte of Adler-32. -/
def adlerByte (c : BitVec 32) (b : Byte) : BitVec 32 :=
  let a := (c.toNat % 65536 + b.toNat) % 65521
  BitVec.ofNat 32 (a + (c.toNat / 65536 + a) % 65521 * 65536)

/-- The running check of a stream's format: CRC-32C for Maeri and DEFLATE, Adler-32 for zlib, CRC-32 for gzip (R166). -/
def checkStart (fmt : Nat) : BitVec 32 := if fmt = 2 then 1#32 else 0xFFFFFFFF#32

/-- Bytes taken into the running check. -/
def checkAdd (fmt : Nat) (c : BitVec 32) (bs : List Byte) : BitVec 32 :=
  bs.foldl (if fmt = 2 then adlerByte else if fmt = 3 then crc32Byte else crc32cByte) c

/-- The check value of the stream so far. -/
def checkValue (fmt : Nat) (c : BitVec 32) : Nat := if fmt = 2 then c.toNat else (~~~c).toNat

/-- The check value of bytes. -/
def checkOf (fmt : Nat) (bs : List Byte) : Nat := checkValue fmt (checkAdd fmt (checkStart fmt) bs)

/-! ### DEFLATE (RFC 1951) -/

/-- First length and extra bits of length code `c`, symbol `257 + c`. -/
def deflateLen (c : Nat) : Nat × Nat :=
  if c < 8 then (3 + c, 0)
  else if c = 28 then (258, 0)
  else
    let e := c / 4 - 1
    (3 + (4 + c % 4) * 2 ^ e, e)

/-- First distance and extra bits of a distance code. -/
def deflateDist (c : Nat) : Nat × Nat :=
  if c < 4 then (1 + c, 0)
  else
    let e := c / 2 - 1
    (1 + (2 + c % 2) * 2 ^ e, e)

/-- DEFLATE's alphabets: literal/length 286-287 and distance 30-31 are illegal. -/
def deflateAlphabet : Alphabet := ⟨286, 30, deflateLen, deflateDist⟩

/-- The order of the code-length-code lengths. -/
def deflateOrder : List Nat := [16, 17, 18, 0, 8, 7, 9, 6, 10, 5, 11, 4, 12, 3, 13, 2, 14, 1, 15]

/-- The codes of a block of type 1. -/
def fixedCodes : Codes :=
  ⟨canonical 15 (List.replicate 144 8 ++ List.replicate 112 9 ++ List.replicate 24 7 ++ List.replicate 8 8),
    canonical 15 (List.replicate 32 5)⟩

/-- The lengths of a block of type 2: literal/length, distance. -/
def dynamicLengths (r : Reader) : Dec (List Nat × List Nat) :=
  match readBits 5 r with
  | .err c o => .err c o
  | .ok hl r1 =>
  if 286 < 257 + hl then .err 0x29 r.pos
  else match readBits 5 r1 with
  | .err c o => .err c o
  | .ok hd r2 =>
  if 30 < 1 + hd then .err 0x29 r1.pos
  else match readBits 4 r2 with
  | .err c o => .err c o
  | .ok hc r3 =>
  match readTriples (hc + 4) r3 with
  | .err c o => .err c o
  | .ok cl r4 =>
  let clLens := (below 19).map fun s =>
    match (deflateOrder.zip cl).find? fun e => e.1 == s with
    | some e => e.2
    | none => 0
  if lengthsValid 7 false clLens = false then .err 0x29 r4.pos
  else match readLengths (canonical 7 clLens) 16 (257 + hl + (1 + hd)) (257 + hl + (1 + hd) + 1) [] r4 with
  | .err c o => .err c o
  | .ok ls r5 =>
  let lit := ls.take (257 + hl)
  let dst := ls.drop (257 + hl)
  if lengthsValid 15 false lit = false ∨ nth 0 lit 256 = 0 ∨ lengthsValid 15 true dst = false then .err 0x29 r5.pos
  else .ok (lit, dst) r5

/-- The codes of a block of type 2. -/
def dynamicCodes (r : Reader) : Dec Codes := codesOf 15 (dynamicLengths r)

/-- To the next byte boundary. -/
def skipPad (r : Reader) : Reader := let n := (8 - r.pos % 8) % 8; ⟨r.bits.drop n, r.pos + n⟩

/-- The blocks of a stream up to the one with `BFINAL`. -/
def deflateBlocks : Nat → Flow → Reader → Flow × Dec Unit
  | 0, f, r => (f, truncated r)
  | fuel + 1, f, r =>
    match readBits 1 r with
    | .err c o => (f, .err c o)
    | .ok final r1 =>
    match readBits 2 r1 with
    | .err c o => (f, .err c o)
    | .ok ty r2 =>
      let ended : Flow × Dec Unit :=
        if ty = 3 then (f, .err 0x27 r1.pos)
        else if ty = 0 then
          (let r3 := skipPad r2
           match readBits 16 r3 with
           | .err c o => (f, .err c o)
           | .ok len r4 => match readBits 16 r4 with
             | .err c o => (f, .err c o)
             | .ok nlen r5 => if len + nlen = 65535 then readStored len f r5 else (f, .err 0x28 r3.pos))
        else match (if ty = 1 then .ok fixedCodes r2 else dynamicCodes r2 : Dec Codes) with
          | .err c o => (f, .err c o)
          | .ok codes r3 => readBody deflateAlphabet codes 0 none (r3.bits.length + 1) f r3
      match ended with
      | (g, .err c o) => (g, .err c o)
      | (g, .ok _ r3) => if final = 1 then (g, .ok () r3) else deflateBlocks fuel g r3

/-- A raw stream that begins at byte `base`. -/
def flowDeflate (base : Nat) (bs : List Byte) : Flow × Dec Unit :=
  deflateBlocks (8 * bs.length + 1) {} ⟨frameBits bs, 8 * base⟩

/-! ### zlib (RFC 1950) and gzip (RFC 1952) -/

/-- A trailer of bytes at the next byte boundary: `TRAILER_MISMATCH` at its first bit. -/
def trailer (want : List Byte) (q : Flow × Dec Unit) : Flow × Dec Unit :=
  match q with
  | (f, .err c o) => (f, .err c o)
  | (f, .ok _ r) =>
    let r1 := skipPad r
    if r1.bits.length < 8 * want.length then (f, truncated r1)
    else if r1.bits.take (8 * want.length) ≠ frameBits want then (f, .err 0x2B r1.pos)
    else (f, .ok () ⟨r1.bits.drop (8 * want.length), r1.pos + 8 * want.length⟩)

/-- A zlib stream. -/
def flowZlib (bs : List Byte) : Flow × Dec Unit :=
  match bs with
  | cmf :: flg :: rest =>
    if cmf.toNat % 16 ≠ 8 ∨ 7 < cmf.toNat / 16 ∨ (cmf.toNat * 256 + flg.toNat) % 31 ≠ 0 ∨ bitOf flg.toNat 5 then
      ({}, .err 0x20 0)
    else
      let q := flowDeflate 2 rest
      trailer (leBytes 4 (checkOf 2 q.1.out)).reverse q
  | _ => ({}, .err 0x24 (8 * bs.length))

/-- Bytes up to and with the next zero byte. -/
def zeroEnded : List Byte → Option Nat
  | [] => none
  | b :: bs => if b = 0#8 then some 1 else (zeroEnded bs).map (· + 1)

/-- The length of a gzip header: none where the input ends in it. -/
def gzipHeader (bs : List Byte) : Option Nat :=
  let flg := (nth 0#8 bs 3).toNat
  let step1 : Option Nat :=
    if bitOf flg 2 then (if bs.length < 12 then none
      else let n := 12 + leNat (slice 10 2 bs); if bs.length < n then none else some n)
    else some 10
  let text (on : Bool) (q : Option Nat) : Option Nat := match q with
    | none => none
    | some n => if on then (zeroEnded (bs.drop n)).map (· + n) else some n
  match text (bitOf flg 4) (text (bitOf flg 3) step1) with
  | none => none
  | some n => if bitOf flg 1 then (if bs.length < n + 2 then none else some (n + 2)) else some n

/-- A gzip member. -/
def flowGzip (bs : List Byte) : Flow × Dec Unit :=
  if bs.length < 10 then ({}, .err 0x24 (8 * bs.length))
  else if bs.take 3 ≠ [0x1F#8, 0x8B#8, 0x08#8] ∨ 32 ≤ (nth 0#8 bs 3).toNat then ({}, .err 0x20 0)
  else match gzipHeader bs with
    | none => ({}, .err 0x24 (8 * bs.length))
    | some n =>
      if bitOf (nth 0#8 bs 3).toNat 1 ∧ leNat (slice (n - 2) 2 bs) ≠ checkOf 3 (bs.take (n - 2)) % 65536 then
        ({}, .err 0x20 0)
      else
        let q := flowDeflate n (bs.drop n)
        let out := q.1.out
        trailer (leBytes 4 (checkOf 3 out) ++ leBytes 4 out.length) q

/-! ### What the compressors put around a raw stream -/

/-- Stored blocks of at most 65,535 bytes, `BFINAL` on the last (level 0). -/
def storedBlocks : Nat → List Byte → List Byte
  | 0, _ => []
  | fuel + 1, bs =>
    let b := bs.take 65535
    let rest := bs.drop 65535
    [if rest.isEmpty then 1#8 else 0#8] ++ leBytes 2 b.length ++ leBytes 2 (65535 - b.length) ++ b ++
      (if rest.isEmpty then [] else storedBlocks fuel rest)

/-- `FLEVEL` of a level. -/
def zlibLevel (level : Nat) : Nat := if level ≤ 1 then 0 else if level ≤ 5 then 1 else if level = 6 then 2 else 3

/-- `CMF` and `FLG`. -/
def zlibHead (level : Nat) : List Byte :=
  let f := zlibLevel level * 64
  [0x78#8, BitVec.ofNat 8 (f + (31 - (0x78 * 256 + f) % 31) % 31)]

/-- The 10-byte gzip header. -/
def gzipHead (level : Nat) : List Byte :=
  [0x1F#8, 0x8B#8, 0x08#8, 0#8, 0#8, 0#8, 0#8, 0#8, if level = 1 then 4#8 else if 8 ≤ level then 2#8 else 0#8, 0xFF#8]

/-- A raw stream in its format. -/
def wrapStream (fmt level : Nat) (src raw : List Byte) : List Byte :=
  if fmt = 2 then zlibHead level ++ raw ++ (leBytes 4 (checkOf 2 src)).reverse
  else if fmt = 3 then gzipHead level ++ raw ++ leBytes 4 (checkOf 3 src) ++ leBytes 4 src.length
  else raw

end Sys2Proof.Machine
end

