-- ==== Sys2Proof/Machine/Packer.lean ====
section
/-! DEFINITION. The compressors: the search of each level, the choice of codes, and the images they make (05 R140-R142,
R147; 06 R167). What the manual calls Ouvyth's own (R140) is a free value of what it is chosen for, so that the same input,
level and dictionary always give the same image. -/

namespace Sys2Proof.Machine

/-! ### What is packed -/

/-- A symbol with what follows it: a literal byte, or a match. -/
inductive Token where
  | lit (b : Byte)
  | pair (len dist : Nat)
deriving DecidableEq, Repr

/-- The bytes a token stands for. -/
def Token.span : Token → Nat
  | .lit _ => 1
  | .pair len _ => len

/-- What a format's encoder must know: symbols of its two codes, number of length codes and what they stand for, the
distance codes, the longest match and the greatest distance. -/
structure PackFormat where
  lits : Nat
  dists : Nat
  lens : Nat
  len : Nat → Nat × Nat
  dist : Nat → Nat × Nat
  longest : Nat
  farthest : Nat

/-- Maeri (R131, R132). -/
def maeriPack : PackFormat := ⟨289, 32, 32, lenCode, distCode, 1027, 36864⟩

/-- DEFLATE: the alphabets of RFC 1951. -/
def deflatePack : PackFormat := ⟨286, 30, 29, deflateLen, deflateDist, 258, 32768⟩

/-- The greatest of the codes below `k` whose range begins at or below `v`. -/
def codeFor (f : Nat → Nat × Nat) : Nat → Nat → Nat
  | 0, _ => 0
  | k + 1, v => if (f k).1 ≤ v then k else codeFor f k v

/-! ### The search (R141, Table 5.5) -/

/-- A level's chain depth, lazy steps, stop length, and passes of the optimal parse. -/
structure Effort where
  depth : Nat
  lazy : Nat
  stop : Nat
  passes : Nat
deriving DecidableEq, Repr

/-- Table 5.5. -/
def effort (level : Nat) : Effort :=
  match level with
  | 0 => ⟨0, 0, 0, 0⟩
  | 1 => ⟨1, 0, 16, 0⟩
  | 2 => ⟨2, 0, 32, 0⟩
  | 3 => ⟨4, 1, 32, 0⟩
  | 4 => ⟨8, 1, 64, 0⟩
  | 5 => ⟨16, 2, 128, 0⟩
  | 6 => ⟨32, 2, 259, 0⟩
  | 7 => ⟨64, 4, 515, 0⟩
  | 8 => ⟨128, 0, 1027, 1⟩
  | _ => ⟨256, 0, 1027, 2⟩

/-- What one engine searches: the bytes of the history and of the unit after it, the hash of the four-byte string at each
position, and the position at which the unit ends. -/
structure Ground where
  bytes : List Byte
  hashes : List Nat
  stop : Nat

/-- The hash of the four-byte string at each position that has one. -/
def hashesOf : List Byte → List Nat
  | [] => []
  | a :: rest => if rest.length < 3 then [] else Config.hash4 (leNat (a :: rest.take 3)) :: hashesOf rest

/-- A history and a unit as an engine hashes them. -/
def ground (past unit : List Byte) : Ground := ⟨past ++ unit, hashesOf (past ++ unit), past.length + unit.length⟩

/-- How far two strings agree, at most `k` bytes. -/
def commonLen : Nat → List Byte → List Byte → Nat
  | k + 1, x :: xs, y :: ys => if x = y then commonLen k xs ys + 1 else 0
  | _, _, _ => 0

/-- The earlier positions of a chain, the latest first (log 138). -/
def chainOf (f : PackFormat) (g : Ground) (i : Nat) : List Nat :=
  match g.hashes[i]? with
  | none => []
  | some h => (below i).reverse.filter fun j => decide (i - j ≤ f.farthest) && g.hashes[j]? == some h

/-- Length and distance of each position examined, up to the first match of at least `stop` bytes. -/
def examine (g : Ground) (i most stop : Nat) : List Nat → List (Nat × Nat)
  | [] => []
  | j :: js =>
    let n := commonLen most (g.bytes.drop j) (g.bytes.drop i)
    if stop ≤ n then [(n, i - j)] else (n, i - j) :: examine g i most stop js

/-- The matches found at a position. -/
def matchesAt (f : PackFormat) (e : Effort) (g : Ground) (i : Nat) : List (Nat × Nat) :=
  (examine g i (min f.longest (g.stop - i)) e.stop ((chainOf f g i).take e.depth)).filter fun m => decide (4 ≤ m.1)

/-- The first of a list in an order. -/
def leastBy {α : Type} (before : α → α → Bool) : List α → Option α
  | [] => none
  | x :: xs => match leastBy before xs with
    | none => some x
    | some y => if before x y then some x else some y

/-- The longest match at a position; among equally long ones the choice is free (R140). -/
def longestAt (f : PackFormat) (e : Effort) (g : Ground) (i : Nat) : Option (Nat × Nat) :=
  leastBy (fun a b => decide (b.1 < a.1 ∨ (a.1 = b.1 ∧ Config.tieRank [a.2] ≤ Config.tieRank [b.2]))) (matchesAt f e g i)

/-- The first of the next `lazy` positions with a match strictly longer than `len`: how far on it is. -/
def longerAhead (f : PackFormat) (e : Effort) (g : Ground) (i len : Nat) : Option Nat :=
  ((below e.lazy).map (· + 1)).find? fun t => match longestAt f e g (i + t) with
    | some m => decide (len < m.1)
    | none => false

/-- The literals of `n` positions. -/
def literals (g : Ground) (i n : Nat) : List Token := (slice i n g.bytes).map .lit

/-- The greedy and the lazy parse from a position on: a match gives way to a strictly longer one within the lazy steps, which
then start again from it. -/
def lazyParse (f : PackFormat) (e : Effort) (g : Ground) : Nat → Nat → List Token
  | 0, _ => []
  | fuel + 1, i =>
    if g.stop ≤ i then []
    else match longestAt f e g i with
      | none => literals g i 1 ++ lazyParse f e g fuel (i + 1)
      | some m => match longerAhead f e g i m.1 with
        | some t => literals g i t ++ lazyParse f e g fuel (i + t)
        | none => .pair m.1 m.2 :: lazyParse f e g fuel (i + m.1)

/-! ### Symbols and their counts -/

/-- The literal/length symbol of a token. -/
def Token.litSym (f : PackFormat) : Token → Nat
  | .lit b => b.toNat
  | .pair len _ => 257 + codeFor f.len f.lens len

/-- The distance symbol of a token. -/
def Token.distSym (f : PackFormat) : Token → Option Nat
  | .lit _ => none
  | .pair _ dist => some (codeFor f.dist f.dists dist)

/-- The literal/length symbols of a parse, end-of-page or end-of-block with them. -/
def litSyms (f : PackFormat) (l : List Token) : List Nat := l.map (Token.litSym f) ++ [256]
/-- The distance symbols of a parse. -/
def distSyms (f : PackFormat) (l : List Token) : List Nat := l.filterMap (Token.distSym f)

/-- How often each of `n` symbols occurs. -/
def symCounts (n : Nat) (l : List Nat) : List Nat := (below n).map fun s => l.count s

/-! ### Code lengths by package-merge (R142) -/

/-- A package: its weight and its symbols. -/
structure Coin where
  weight : Nat
  syms : List Nat
deriving DecidableEq, Repr

/-- The order of packages; that of equal weights is free (R140). -/
def Coin.before (a b : Coin) : Bool :=
  decide (a.weight < b.weight ∨ (a.weight = b.weight ∧ Config.tieRank a.syms ≤ Config.tieRank b.syms))

/-- A package put in its place. -/
def putCoin (x : Coin) : List Coin → List Coin
  | [] => [x]
  | y :: ys => if x.before y then x :: y :: ys else y :: putCoin x ys

/-- Neighbours packed in pairs; one left over is dropped. -/
def packed : List Coin → List Coin
  | a :: b :: rest => ⟨a.weight + b.weight, a.syms ++ b.syms⟩ :: packed rest
  | _ => []

/-- The merged list after `k` rounds over the symbols. -/
def mergeRounds (items : List Coin) : Nat → List Coin
  | 0 => items
  | k + 1 => (items ++ packed (mergeRounds items k)).foldr putCoin []

/-- Code lengths of at most `most` bits for the symbols with a count. A code of one symbol has length 1 (R135). -/
def limitedLengths (most : Nat) (counts : List Nat) : List Nat :=
  let items := ((counts.zip (below counts.length)).filter fun e => e.1 != 0).foldr (fun e l => putCoin ⟨e.1, [e.2]⟩ l) []
  let chosen := if items.length = 1 then items else (mergeRounds items (most - 1)).take (2 * items.length - 2)
  let paid := chosen.flatMap (·.syms)
  (below counts.length).map fun s => paid.count s

/-- A page's own lengths: literal/length and distance. -/
def ownLengths (f : PackFormat) (l : List Token) : List Nat × List Nat :=
  (limitedLengths 12 (symCounts f.lits (litSyms f l)), limitedLengths 12 (symCounts f.dists (distSyms f l)))

/-! ### The optimal parse (R141, levels 8 and 9) -/

/-- What a symbol costs: its codeword length, or a free cost where the pass before did not use it (R140). -/
def symCost (lens : List Nat) (dist : Bool) (s : Nat) : Nat :=
  if nth 0 lens s = 0 then Config.unusedCost dist s else nth 0 lens s

/-- What a token costs: the lengths of its codewords (05 R141). -/
def tokenCost (f : PackFormat) (lens : List Nat × List Nat) (t : Token) : Nat :=
  match t with
  | .lit b => symCost lens.1 false b.toNat
  | .pair len dist =>
    symCost lens.1 false (257 + codeFor f.len f.lens len) + symCost lens.2 true (codeFor f.dist f.dists dist)

/-- The tokens that may stand at a position: its literal, and every length of every match found. -/
def choicesAt (f : PackFormat) (e : Effort) (g : Ground) (i : Nat) : List Token :=
  literals g i 1 ++ (matchesAt f e g i).flatMap fun m => (below (m.1 - 3)).map fun k => .pair (4 + k) m.2

/-- A token as numbers, for a free choice among ties. -/
def Token.key : Token → List Nat
  | .lit b => [b.toNat]
  | .pair len dist => [len, dist]

/-- The cheapest way from each of the last `k` positions to the end: its cost and first token, the earliest position first. -/
def cheapest (f : PackFormat) (e : Effort) (g : Ground) (lens : List Nat × List Nat) : Nat → List (Nat × Token)
  | 0 => []
  | k + 1 =>
    let later := cheapest f e g lens k
    let ways := (choicesAt f e g (g.stop - (k + 1))).map fun t =>
      (tokenCost f lens t + (nth (0, .lit 0#8) later (t.span - 1)).1, t)
    match leastBy (fun a b => decide (a.1 < b.1 ∨ (a.1 = b.1 ∧ Config.tieRank a.2.key ≤ Config.tieRank b.2.key))) ways with
    | some w => w :: later
    | none => later

/-- The tokens along the cheapest way. -/
def walk : Nat → List (Nat × Token) → List Token
  | fuel + 1, w :: rest => w.2 :: walk fuel ((w :: rest).drop w.2.span)
  | _, _ => []

/-- Passes of the optimal parse, each costed with the codes of the pass before. -/
def optimalParse (f : PackFormat) (e : Effort) (g : Ground) (n : Nat) : Nat → List Token → List Token
  | 0, before => before
  | k + 1, before => optimalParse f e g n k (walk n (cheapest f e g (ownLengths f before) n))

/-- The parse of a unit of `n` bytes at a level. -/
def parseUnit (f : PackFormat) (level : Nat) (past unit : List Byte) : List Token :=
  let g := ground past unit
  let n := unit.length
  let e := effort level
  if e.passes = 0 then lazyParse f e g n past.length
  else optimalParse f e g n e.passes (lazyParse f (effort 7) g n past.length)

/-! ### Bits -/

/-- The codewords of a list of lengths (R134). -/
def codewords (lens : List Nat) : List (List Bool) :=
  let first := firstCodes lens 15 1 0
  (below lens.length).map fun s =>
    let l := nth 0 lens s
    msbBits l (nth 0 first (l - 1) + (lens.take s).count l)

/-- A field of `n` bits, least significant first. -/
def fieldBits (n v : Nat) : List Bool := (below n).map fun i => v.testBit i

/-- A token's bits. -/
def tokenBits (f : PackFormat) (lit dist : List (List Bool)) : Token → List Bool
  | .lit b => nth [] lit b.toNat
  | .pair len d =>
    let lc := codeFor f.len f.lens len
    let dc := codeFor f.dist f.dists d
    nth [] lit (257 + lc) ++ fieldBits (f.len lc).2 (len - (f.len lc).1) ++
      nth [] dist dc ++ fieldBits (f.dist dc).2 (d - (f.dist dc).1)

/-- A body under two codes, with its end symbol. -/
def bodyBits (f : PackFormat) (lens : List Nat × List Nat) (l : List Token) : List Bool :=
  let lit := codewords lens.1
  let dist := codewords lens.2
  l.flatMap (tokenBits f lit dist) ++ nth [] lit 256

/-- Bits as bytes, the last filled with zero bits. -/
def bitBytes (bits : List Bool) : List Byte :=
  (below ((bits.length + 7) / 8)).map fun i =>
    BitVec.ofNat 8 ((below 8).foldl (fun a j => if nth false bits (8 * i + j) then a + 2 ^ j else a) 0)

/-- The lengths up to the highest symbol present, at least `least` of them (R142: `NL` and `ND`). -/
def sentLengths (least : Nat) (lens : List Nat) : List Nat :=
  let used := (below lens.length).filter fun s => nth 0 lens s != 0
  lens.take (max least (used.foldl (fun a s => max a (s + 1)) 0))

/-- The code-length code of a table section sent without runs: symbols 0-2 in three bits, 3-12 in four. -/
def plainClLens : List Nat := List.replicate 3 3 ++ List.replicate 10 4

/-- The part of a table section after its counts, sent without runs: the code-length-code lengths in an order, then every length
as its own symbol. -/
def plainLengths (order : List Nat) (lens : List Nat) : List Bool :=
  (order.flatMap fun s => fieldBits 3 (nth 0 plainClLens s)) ++ lens.flatMap fun l => nth [] (codewords plainClLens) l

/-- Maeri's table section (R133): the run-length coding and the code-length code are free (R140), as long as the section gives
back the lengths. -/
def maeriTables (lit dist : List Nat) : List Bool :=
  let own := Config.tableBits 0 lit dist
  let good := match readTableLengths ⟨own, 0⟩ with
    | .ok q r => q == (lit, dist) && r.bits.isEmpty
    | .err _ _ => false
  if good then own
  else fieldBits 5 (lit.length - 258) ++ fieldBits 5 (dist.length - 1) ++ fieldBits 4 12 ++ plainLengths clOrder (lit ++ dist)

/-- The table section of a DEFLATE block, on the same terms. -/
def deflateTables (lit dist : List Nat) : List Bool :=
  let own := Config.tableBits 1 lit dist
  let good := match dynamicLengths ⟨own, 0⟩ with
    | .ok q r => q == (lit, dist) && r.bits.isEmpty
    | .err _ _ => false
  if good then own
  else fieldBits 5 (lit.length - 257) ++ fieldBits 5 (dist.length - 1) ++ fieldBits 4 14 ++
    plainLengths (deflateOrder.take 18) (lit ++ dist)

/-! ### Maeri images (R127-R129, R142) -/

/-- The image of a page at a level of at least 1, with a dictionary where one is used: its number and body. With
`defaults` set the dictionary's default codes serve where the frame with them is no longer. -/
def maeriImage (level : Nat) (dict : Option (Nat × DictBody)) (defaults : Bool) (page : List Byte) : List Byte :=
  let past := match dict with
    | some d => d.2.content
    | none => []
  let tokens := parseUnit maeriPack level past page
  let own := ownLengths maeriPack tokens
  let sent := (sentLengths 258 own.1, sentLengths 1 own.2)
  let head (tables : Bool) : List Byte := match dict with
    | some d => headerBytes ⟨level, 2, d.1, page.length, tables⟩
    | none => headerBytes ⟨level, 1, 0, page.length, tables⟩
  let mine := head false ++ bitBytes (maeriTables sent.1 sent.2 ++ bodyBits maeriPack own tokens)
  match dict, defaults with
  | some d, true =>
    let theirs := head true ++ bitBytes (bodyBits maeriPack (d.2.lengths.take 289, d.2.lengths.drop 289) tokens)
    if theirs.length ≤ mine.length then theirs else mine
  | _, _ => mine

/-! ### DEFLATE streams (06 Table 6.8) -/

/-- One dynamic block per 65,536 source bytes; a match reaches back into the blocks before. -/
def dynamicBlocks (level : Nat) : Nat → List Byte → List Byte → List Bool
  | 0, _, _ => []
  | fuel + 1, past, src =>
    let unit := src.take 65536
    let rest := src.drop 65536
    let tokens := parseUnit deflatePack level past unit
    let own := ownLengths deflatePack tokens
    let sent := (sentLengths 257 own.1, sentLengths 1 own.2)
    [rest.isEmpty, false, true] ++ deflateTables sent.1 sent.2 ++ bodyBits deflatePack own tokens ++
      (if rest.isEmpty then [] else dynamicBlocks level fuel ((past ++ unit).drop (past.length + unit.length - 32768)) rest)

/-- The raw stream of a source at a level: at level 0 stored blocks. -/
def rawStream (level : Nat) (src : List Byte) : List Byte :=
  if level = 0 then storedBlocks (src.length / 65535 + 1) src
  else bitBytes (dynamicBlocks level (src.length / 65536 + 1) [] src)

end Sys2Proof.Machine
end

