-- ==== Sys2Proof/Machine/Mover.lean ====
section
/-! DEFINITION. The tier mover: sweep, move contexts, compaction and relocation (04 R95-R118). -/

namespace Sys2Proof.Machine

/-! ### The sweep (R95, R97, R99, R101, R102) -/

/-- The epoch counter of a die advances, and with it the age of its wings' last reopening; not in `NIGHT` or `OFF`. -/
def tierEpoch (d : Nat) (s : State) : State :=
  if s.ps.state = .night ∨ s.ps.state = .off then s
  else
    modWing (fun m => m.map fun e => if e.1 / 4 = d then (e.1, { e.2 with reopened := e.2.reopened.map fun k => min 2047 (k + 1) })
      else e) (modTier (fun t => { t with epoch := smPut 0 t.epoch d ((smGet 0 t.epoch d + 1) % 2048) }) s)

/-- Whether the mover demotes at its aggressive setting on a die. -/
def aggressive (s : State) (d : Nat) : Bool := decide (1 ≤ smGet 0 s.lod.stage d)

/-- The demotion age and heat of a lodging on a die (R99). -/
def demoteAt (s : State) (d n : Nat) : Nat × Nat :=
  if aggressive s d then (pnum s P.TIER_AGGR_AGE, pnum s P.TIER_AGGR_HEAT)
  else (if lodgeP s n P.LODGE_DEMOTE_AGE = 0 then pnum s P.TIER_DEMOTE_AGE else lodgeP s n P.LODGE_DEMOTE_AGE,
    pnum s P.TIER_DEMOTE_HEAT)

/-- Whether a page's lodging is `READY` or `ACTIVE`. -/
def lodgeLive (s : State) (n : Nat) : Bool := (lodgeAt s n).state == .ready || (lodgeAt s n).state == .active

/-- Whether a page is a demotion candidate (R99, 08 R232). -/
def demotable (s : State) (n p : Nat) (x : Desc) : Bool :=
  let d := homeDie n p
  let q := demoteAt s d n
  x.state == .plain && !x.pinned && !x.poison && lodgeLive s n && bitOf (pnum s P.TIER_ENABLE) 0 &&
    decide (q.1 ≤ min 1024 (descAge s d x)) && decide (descHeat s d x ≤ q.2) && (heldExclusive s n p == []) &&
    !atomicHeld s n p

/-- The dictionary a lodging names, 1,024 for none. -/
def namedDict (s : State) (n : Nat) : Nat := let x := lodgeP s n P.LODGE_DICT; if x < 1024 then x else 1024

/-- Whether a page is a candidate for deep repack (R101). -/
def repackable (s : State) (n p : Nat) (x : Desc) : Bool :=
  x.state == .packed && bitOf (pnum s P.TIER_ENABLE) 2 && !bitOf (lodgeP s n P.LODGE_TIER) 0 &&
    decide (pnum s P.TIER_REPACK_AGE ≤ min 1024 (descAge s (homeDie n p) x)) &&
    (decide (levelOf x.level < pnum s P.TIER_REPACK_LEVEL) || (if x.namesDict then x.dict else 1024) != namedDict s n)

/-- One descriptor is visited: an old age is clamped (R97), `PINNED` follows `ATTR.PIN` (R102; a `PACKED` descriptor has no
such bit), and the page is queued for the move it is a candidate for. -/
def sweepPage (n p : Nat) (s : State) : State :=
  let d := homeDie n p
  match checkedDesc n p s with
  | none => s
  | some (x, s1) =>
    if x.state = .moving then s1
    else
      let tiered := x.state == .plain || x.state == .packed
      let x1 := if tiered ∧ 1024 ≤ descAge s1 d x then { x with heat := 0, touch := (nowEpoch s1 d + 1024) % 2048 } else x
      let x2 := if x.state = .packed then x1 else { x1 with pinned := lodgeAttr s1 n 3 }
      let s2 := if x2 = x then s1 else setDesc n p x2 s1
      if demotable s2 n p x2 then queueMove d ⟨.demote, n, p, 0⟩ s2
      else if x2.state = .packed ∧ lodgeAttr s2 n 3 then queueMove d ⟨.promote, n, p, 0⟩ s2
      else if repackable s2 n p x2 then queueMove d ⟨.repack, n, p, 0⟩ s2
      else s2

/-- A descriptor line is visited: both its pages; the sweep's position is kept. -/
def sweepVisit (n p : Nat) (s : State) : State :=
  forAll (linePages n p) (sweepPage n)
    (modTier (fun t => { t with sweep := smPut 0 t.sweep (homeDie n p) (pageKey n p) }) s)

/-! ### Choosing relocations (R115-R118, R121) -/

/-- The pages of a use, runs and data frames in order. -/
def usePages (u : UseKind) : List (Nat × Nat) :=
  match u with
  | .page n p => [(n, p)]
  | .slab _ runs => runs.filterMap (·.2)
  | .group fr => fr.filterMap (·.2)
  | _ => []

/-- Whether a page waits for a move or is in one. -/
def moveBusy (s : State) (n p : Nat) : Bool :=
  (s.tier.moves.any fun e => e.2.req.n == n && e.2.req.p == p) ||
    (smGet [] s.tier.queue (homeDie n p)).any fun y => y.n == n && y.p == p

/-- The next page to leave a `DRAINING` wing: slot runs, then frames (Table 4.5). -/
def drainPick (s : State) (d : Nat) : Option (Nat × Nat) :=
  ((below 4).map (· + 4 * d)).findSome? fun w =>
    if (wingAt s w).state ≠ .draining then none
    else
      let us := wingUses s w
      let slabs := us.flatMap fun e => match e.2.kind with | .slab _ r => r.filterMap (·.2) | _ => []
      let frames := us.flatMap fun e => match e.2.kind with | .slab _ _ => [] | k => usePages k
      (slabs ++ frames).find? fun q => !moveBusy s q.1 q.2

/-- Whether a stretch meets the frames of the retirement under way. -/
def retiring (s : State) (d f len : Nat) : Bool :=
  match s.space.retireJob with
  | some (e, l, _) => e == d && l.any (fun (q : Nat × Nat) => decide (q.1 < f + len) && decide (f < q.1 + q.2))
  | none => false

/-- The next page to leave frames being retired: those in them, then every run of their slabs (11 Table 11.9). -/
def retirePick (s : State) (d : Nat) : Option (Nat × Nat) :=
  (s.space.uses.filter fun e => e.1 / 2 ^ 30 == d).findSome? fun (e : Nat × Use) =>
    if retiring s d (e.1 % 2 ^ 30) e.2.len then
      (match e.2.kind with
       | .group fr => (smFilter (fun i _ => groupDataRetired s d (e.1 % 2 ^ 30) i) fr).filterMap (fun (q : Nat × Option (Nat × Nat)) => q.2)
       | k => usePages k).find? fun q => !moveBusy s q.1 q.2
    else none

/-- The slabs of a die: wing, first frame, class, runs. -/
def dieSlabs (s : State) (d : Nat) : List (Nat × Nat × Nat × SMap (Option (Nat × Nat))) :=
  ((below 4).map (· + 4 * d)).flatMap fun w => (wingUses s w).filterMap fun e => match e.2.kind with
    | .slab k r => some (w, (w % 4) * 2 ^ 28 + e.1, k, r)
    | _ => none

/-- The emptiest compaction source in the highest wing (R117): the fewest live runs, whatever the class; of several with as
few, the lowest frame (log 123). -/
def compactSource (s : State) (d : Nat) : Option (SMap (Option (Nat × Nat))) :=
  let all := dieSlabs s d
  let srcs := all.filter fun q =>
    ((wingAt s q.1).state == .openW || (wingAt s q.1).state == .draining) &&
    decide (liveRuns q.2.2.2 * 100 ≤ pnum s P.TIER_COMPACT_FILL * slabRuns q.2.2.1) &&
    all.any fun t => t.2.1 != q.2.1 && t.2.2.1 == q.2.2.1 && decide (t.1 ≤ q.1) && (wingAt s t.1).state == .openW &&
      decide (t.2.2.2.length < slabRuns t.2.2.1) && !spanRetired s d t.2.1 16
  let best := srcs.foldl (fun b q => match b with
    | none => some q
    | some c => if c.1 < q.1 ∨ (c.1 = q.1 ∧ liveRuns q.2.2.2 < liveRuns c.2.2.2) then some q else b) none
  best.map (·.2.2.2)

/-- The next page to leave the compaction source. -/
def compactPick (s : State) (d : Nat) : Option (Nat × Nat) :=
  (compactSource s d).bind fun runs => (runs.filterMap (·.2)).find? fun m => !moveBusy s m.1 m.2

/-- Whether the mover compacts a die: allowed, and a source remains, be its last pages already in moves. -/
def compacts (s : State) (d : Nat) : Bool := bitOf (pnum s P.TIER_ENABLE) 3 && (compactSource s d).isSome

/-- Whether a write that R78 admits waits for a blanked frame of a die (R116). -/
def writeStarved (s : State) (d : Nat) : Bool :=
  (below 16).any fun i => (smGet [] s.coh.stalled (16 * d + i)).any fun r => frameAdmitted s r.n r.p

/-! ### The engines of a move (R103, R107) -/

/-- The engines of which a move needs one in a state: the first unit number and how many there are. -/
def stateEngines (d : Nat) (kind : MoveKind) (st : MoveState) : Option (Nat × Nat) :=
  match st, kind with
  | .snapshot, .demote | .encode, .promote | .place, .demote | .place, .repack => some (208 + 16 * d, 16)
  | .snapshot, .promote | .snapshot, .repack | .verify, .demote | .verify, .repack => some (144 + 16 * d, 16)
  | .encode, .demote | .encode, .repack => some (112 + 8 * d, 8)
  | _, _ => none

/-- Whether a move must wait for an engine: the die has none of the kind in service. -/
def engineWaits (m : Move) : Bool := m.engine.isNone && (stateEngines 0 m.req.kind m.state).isSome

/-- Whether the engine that works on a move has left service (R107). -/
def engineGone (m : Move) (s : State) : Bool :=
  match m.engine with
  | some u => !unitServes s u
  | none => false

/-- A context holds a move in a state, and one of the engines that the state needs works on it: which, is a free value
(log 126). -/
def moveEnters (k : Nat) (m : Move) (st : MoveState) (s : State) : State :=
  let entered (e : Option Nat) : Move := { m with state := st, engine := e, coder := if st = .encode then e.getD 0 else m.coder }
  let put (e : Option Nat) (t : State) : State := modTier (fun x => { x with moves := smSet x.moves k (entered e) }) t
  match stateEngines (k / 32) m.req.kind st with
  | some (b, c) => if engineThere b c s then afterDraw (put (some (engineDrawn b c s)) (engineUse b c s)) else put none s
  | none => put none s

/-! ### A move begins (R103, R104, R106) -/

/-- Watch entries in use at a slice. -/
def watches (s : State) (slice : Nat) : Nat :=
  (s.tier.moves.filter fun e => homeSlice e.2.req.n e.2.req.p == slice).length

/-- Whether a queued move still fits its page. -/
def moveFits (s : State) (r : MoveReq) : Bool :=
  match descAt s r.n r.p with
  | none => false
  | some x => match r.kind with
    | .demote => x.state == .plain && !x.pinned && !x.poison && !atomicHeld s r.n r.p
    | .promote | .repack => x.state == .packed
    | .relocate => x.state == .plain || x.state == .packed || (x.state == .lost && x.hasFrame)

/-- Whether the working reserve of a die has the space a move may take from it: no more than the page holds now (R75). -/
def reserveHolds (s : State) (d : Nat) (r : MoveReq) : Bool :=
  match r.kind, descAt s r.n r.p with
  | .promote, _ | _, none => true
  | _, some x => decide (smGet 0 s.space.reserve d + descBytes x ≤ 64 * 2 ^ 20)

/-- Whether a move may leave `IDLE` now: a watch is free, its page is not locked, the working reserve has space for it; and
promotions only while the die is `NORMAL`, those of a pinned lodging in `LOW` too. -/
def moveReady (s : State) (d : Nat) (r : MoveReq) : Bool :=
  decide (watches s (homeSlice r.n r.p) < 32) && !pageLocked s r.n r.p && reserveHolds s d r &&
  (match r.kind with
   | .promote => smGet 0 s.lod.stage d == 0 || (smGet 0 s.lod.stage d == 1 && lodgeAttr s r.n 3)
   | _ => true)

/-- The next move of a die: compaction while a write waits for a frame (R116), what must be relocated, then the queue in order, then compaction. -/
def nextMove (s : State) (d : Nat) : Option MoveReq :=
  let q := smGet [] s.tier.queue d
  let fresh (m : Option (Nat × Nat)) : Option MoveReq := (m.map fun x => ⟨.relocate, x.1, x.2, 0⟩).filter (moveReady s d)
  let compact := if bitOf (pnum s P.TIER_ENABLE) 3 then fresh (compactPick s d) else none
  match (if writeStarved s d then compact else none).or (q.find? fun r => r.kind == .relocate && moveReady s d r) with
  | some r => some r
  | none => match fresh (drainPick s d) with
    | some r => some r
    | none => match fresh (retirePick s d) with
      | some r => some r
      | none => match q.find? (moveReady s d) with
        | some r => some r
        | none => compact

/-- Whether a die's mover takes another move: it is in service, and one that rejoins uses its share of the 32 contexts. -/
def moverOpen (s : State) (d : Nat) : Bool :=
  unitAdmits s (272 + d) && decide ((s.tier.moves.filter fun e => e.1 / 32 == d).length < rejoinCap s (272 + d) 32)

/-- An idle context takes a page: the watch is armed, or, for a relocation that has aborted too often, the lock taken. -/
def moveStart (d c : Nat) (s : State) : State :=
  if (smFind s.tier.moves (32 * d + c)).isSome ∨ moverOpen s d = false ∨ entryRuns s then s
  else match nextMove s d with
    | none => s
    | some r =>
      let s0 := modTier (fun t => { t with queue := smMod [] t.queue d (List.erase · r) }) s
      if moveFits s0 r = false then s0
      else
        let s1 := settlePage r.n r.p s0
        match descAt s1 r.n r.p with
        | none => s1
        | some x =>
          let pess := r.kind == .relocate && decide (pnum s P.TIER_RETRY_LIMIT ≤ r.aborts)
          if pess ∧ (pageSnooped s1 r.n r.p ∨ s1.coh.lineQ.any fun q => q.n == r.n && q.p == r.p) then s
          else
            let m : Move := { req := r, state := .snapshot, pess := pess, pre := x }
            moveEnters (32 * d + c) m .snapshot
              (onlyIf pess (setDesc r.n r.p { x with state := .moving }) (snoopPageNow r.n r.p s1))

/-! ### Ends of a move -/

/-- The context goes idle. -/
def moveIdle (k : Nat) (s : State) : State := modTier (fun t => { t with moves := smErase t.moves k }) s

/-- A move aborts (R103, R106): the page stays as it was; it is queued again, or dropped after too many aborts. -/
def moveAbort (k : Nat) (again : Bool) (s : State) : State :=
  match smFind s.tier.moves k with
  | none => s
  | some m =>
    let d := k / 32
    let s1 := moveIdle k (moveFree d m s)
    let s2 := onlyIf m.pess (setDesc m.req.n m.req.p m.pre) s1
    let r := { m.req with aborts := m.req.aborts + 1 }
    let s3 := bumpTier d 7 1 s2
    if again = false then s3
    else if m.req.kind ≠ .relocate ∧ pnum s P.TIER_RETRY_LIMIT ≤ r.aborts then s3
    else queueMove d r s3

/-- An engine stalls or leaves service (R107): the moves it works on abort. -/
def engineStalls (u : Nat) (s : State) : State :=
  forAll (s.tier.moves.filter fun e => e.2.engine == some u) (fun e t => moveAbort e.1 true t) s

/-! ### Snapshot, encode, verify (R103, R107, R108) -/

/-- The stored bytes of a page's location, for a relocation; the lines that are poisoned, and those among them that a
failed channel cannot give. -/
def copySource (n p : Nat) (x : Desc) (s : State) : List Byte × List Nat × List Nat × State :=
  let d := homeDie n p
  if x.state = .packed then
    let s1 := flushRun d x.loc (slotsOf x.len) (pnum s P.TIER_LABEL) s
    (dramBytes s1 (d * 2 ^ 44 + x.loc * 256) (256 * slotsOf x.len), [], [], s1)
  else
    let s1 := forAll (below 64) (fun i t => dramRead d x.loc i (pnum s P.TIER_LABEL) (mergeSettle n p i x t)) s
    let bad := (below 64).filter fun i => markAt s1 d x.loc i % 2 == 1
    let broken := (below 64).filter fun i => !bad.contains i && chanDead s1 (chanOf d x.loc i)
    (dramBytes s1 (dramAddress d x.loc 0) 4096, bad ++ broken, broken, s1)

/-- The page is in the staging buffer (R103). -/
def moveSnapshot (k : Nat) (s : State) : State :=
  match smFind s.tier.moves k with
  | none => s
  | some m =>
    let n := m.req.n
    let p := m.req.p
    if m.state ≠ .snapshot ∨ pageSnooped s n p ∨ paceOpen s (k / 32) = false ∨ pageStopped s n p then s
    else if engineGone m s then moveAbort k true s
    else if engineWaits m then moveEnters k m m.state s
    else if m.fired ∧ m.pess = false then moveAbort k true s
    else if linesUnasked s n p ≠ [] then snoopMoreNow n p s
    else
      let lines := if m.pre.state = .packed then 4 * slotsOf m.pre.len else 64
      let next (m' : Move) (t : State) : State :=
        sampleHome (k / 32) 2 (pnum s P.TIER_LABEL) lines (moveEnters k { m' with fired := m.fired } .encode t)
      match m.req.kind with
      | .relocate =>
        if m.pre.state = .packed ∧ (runBad s (homeDie n p) m.pre.loc (slotsOf m.pre.len)).isSome then
          let j := (runBad s (homeDie n p) m.pre.loc (slotsOf m.pre.len)).getD 0
          pageLost 3 n p m.pre.version (leaveDict n p m.pre (failCount 1 n
            (uncorrectable (homeDie n p) (runLine m.pre.loc j).1 (runLine m.pre.loc j).2 255 2 (some (n, p))
              (moveAbort k false s))))
        else
          let c := copySource n p m.pre s
          if m.pess = false ∧ c.2.2.1 ≠ [] then
            forAll c.2.2.1 (fun i t => poisonLine n p i m.pre (uncorrectable (homeDie n p) m.pre.loc i 255 2 (some (n, p)) t))
              (moveAbort k true c.2.2.2)
          else
            let t := forAll c.2.2.1 (fun i t => notePage 2 n p (uncorrectable (homeDie n p) m.pre.loc i 255 2 (some (n, p)) t))
              c.2.2.2
            let pre := { m.pre with poison := if m.pre.state = .packed ∨ m.pre.state = .lost then m.pre.poison
                                              else m.pre.poison || c.2.1 != [] }
            next { m with staged := c.1, marks := c.2.1, pre := pre } t
      | _ =>
        let g := readPage 2 n p m.pre s
        (match g.1 with
         | none => moveAbort k false g.2
         | some (b, bad) => if bad = [] then next { m with staged := b } g.2 else moveAbort k false g.2)

/-- Descriptor heat after a move that found nothing to gain (R108). -/
def noGain (k : Nat) (m : Move) (s : State) : State :=
  match descAt s m.req.n m.req.p with
  | none => moveIdle k s
  | some x => moveIdle k (setDesc m.req.n m.req.p { x with touch := nowEpoch s (homeDie m.req.n m.req.p) } s)

/-- Compression or encryption ends (R103, R108): the image is the one the page's level and dictionary give (05 R140-R142);
where it is too long there is no gain. -/
def moveEncode (k : Nat) (s : State) : State :=
  match smFind s.tier.moves k with
  | none => s
  | some m =>
    let n := m.req.n
    let d := k / 32
    let verify (m' : Move) (t : State) : State := moveEnters k m' .verify t
    if m.state ≠ .encode then s
    else if engineGone m s then moveAbort k true s
    else if engineWaits m then moveEnters k m m.state s
    else match m.req.kind with
      | .relocate | .promote => verify m s
      | kind =>
        if kind = .demote ∧ m.staged.all (· == 0#8) then verify { m with image := [] } s
        else
          let level := pnum s (if kind = .demote then P.TIER_DEMOTE_LEVEL else P.TIER_REPACK_LEVEL)
          let x := namedDict s n
          let dict := if 4 ≤ level ∧ dictUsable s n x ∧ dictRefs s d x < refsMost then x else 1024
          let s1 := onlyIf (dict < 1024) (storeLoad d dict 0) s
          let body := dictFor s1 d n dict
          let image := maeriImage level (body.map fun b => (dict, b)) (pnum s1 P.COMP_DEFAULT_TABLES == 1) m.staged
          let limit := if kind = .demote then pnum s P.TIER_MAX_SLOTS else slotsOf m.pre.len
          if slotsOf image.length ≤ limit then
            verify { m with
              image := image, level := levelMode level (if body.isSome then 2 else 1)
              dict := if body.isSome then dict else 1024, crc := (crc32c m.staged).toNat } s1
          else noGain k m (if kind = .demote then gbDie (4 + d) 4100 1 (bumpTier d 2 1 s1) else s1)

/-- The verifying decode ends: a mismatch aborts, queues the page again (log 127), and names the compressor to be taken
out. -/
def moveVerify (k : Nat) (ok : Bool) (s : State) : State × Option Nat :=
  match smFind s.tier.moves k with
  | none => (s, none)
  | some m =>
    if m.state ≠ .verify then (s, none)
    else if engineGone m s then (moveAbort k true s, none)
    else if engineWaits m then (s, none)
    else if ok = false ∧ (m.req.kind = .demote ∨ m.req.kind = .repack) then (moveAbort k true s, some m.coder)
    else (moveEnters k m .place s, none)

/-! ### Place and commit (R103, R105, R109, 03 R75) -/

/-- Stored bytes written as lines from a line number of the die on; `marks` are poisoned lines. -/
def putLines (d line : Nat) (bytes : List Byte) (marks : List Nat) (hint : Bool) (s : State) : State :=
  forAll (below (bytes.length / 64)) (fun j t =>
    storeRaw d ((line + j) / 64) ((line + j) % 64)
      (if marks.contains j then ⟨0#512, true, hint⟩ else ⟨pageLine bytes j, false, hint⟩) t) s

/-- An image as it stands in its run. -/
def runCipher (k : PageKeys) (p : Nat) (image : List Byte) : List Byte :=
  runCrypt true k p (fit 0#8 (256 * slotsOf image.length) image)

/-- Whether a demotion found the page all zeros. -/
def moveIsZero (m : Move) : Bool := m.req.kind == .demote && m.image == []

/-- The slab that a relocated run must leave: its new run lies in another (R117). -/
def moveSource (m : Move) : Option Nat := if m.req.kind = .relocate then some (m.pre.loc / 16 / 16 * 16) else none

/-- A move that finds no space in the working reserve waits in `IDLE` again, without counting an abort (R75). -/
def moveBack (k : Nat) (s : State) : State :=
  match smFind s.tier.moves k with
  | none => s
  | some m => queueMove (k / 32) m.req (onlyIf m.pess (setDesc m.req.n m.req.p m.pre) (moveIdle k (moveFree (k / 32) m s)))

/-- A move's bytes are written to its new location, drawn from the working reserve or, for a promotion, from the free
space under R78. A move that finds no space waits; such a promotion is dropped. -/
def movePlace (k : Nat) (s : State) : State :=
  match smFind s.tier.moves k with
  | none => s
  | some m =>
    let n := m.req.n
    let p := m.req.p
    let d := k / 32
    if m.state ≠ .place ∨ paceOpen s d = false ∨ pageStopped s n p then s
    else if engineGone m s then moveAbort k true s
    else if engineWaits m then moveEnters k m m.state s
    else if moveIsZero m then moveEnters k m .commit s
    else
      let b := moveBytes m
      let promote := m.req.kind == .promote
      let room := if promote then allocAdmitted s n d b else decide (smGet 0 s.space.reserve d + b ≤ 64 * 2 ^ 20)
      let got := if moveToRun m then allocRun d n p (b / 256) (moveSource m) s else allocFrame d n p m.pre.isSealed s
      match room, got, pageKeys s n p m.pre.phase with
      | true, some (l, s1), some key =>
        let s2 := match m.req.kind with
          | .relocate => if moveToRun m then putLines d (l * 4) m.staged [] true s1
              else putLines d (l * 64) m.staged m.marks false s1
          | .promote => putLines d (l * 64) ((below 64).flatMap fun i =>
              leBytes 64 (lineCrypt true key p i (pageLine m.staged i)).toNat) [] false s1
          | _ => putLines d (l * 4) (runCipher key p m.image) [] true s1
        let drew := if promote then 0 else b
        sampleHome d 2 (pnum s P.TIER_LABEL) (if moveToRun m then b / 64 else 64)
          (moveEnters k { m with loc := some l, drew := drew } .commit
            (modSpace (fun x => { x with reserve := smPut 0 x.reserve d (smGet 0 x.reserve d + drew) }) s2))
      | _, _, _ => if promote then bumpTier d 4 1 (moveIdle k s) else moveBack k s

/-- The tags of a page that enters `PLAIN` with its lines written by the mover. -/
def tagsStart (n p version : Nat) (cipher : List Byte) (key : PageKeys) (s : State) : State :=
  modProt (fun x => { x with tags := smSet x.tags (pageKey n p) ((below 64).map fun i =>
    tagOf key.kt (slice (64 * i) 64 cipher) (version + 1) (lineTagId p i) 0) }) (countersStart n p version s)

/-- The page's cached lines are no newer than its image any more. -/
def lcClean (n p : Nat) (s : State) : State :=
  modLc (fun m => m.map fun e => if e.2.lodging = n ∧ e.2.page = p ∧ e.2.state = .dirty then
    (e.1, { e.2 with state := .clean }) else e) s

/-- The old location of a page is freed and counted off. -/
def freeOld (n p : Nat) (x : Desc) (s : State) : State :=
  let d := homeDie n p
  let s1 := useBytes n d 0 (descBytes x) s
  if x.state = .packed then freeRun d x.loc s1 else freeFrame d x.loc s1

/-- The final descriptor of a move, and what goes with it. -/
def moveApply (k : Nat) (m : Move) (x : Desc) (key : PageKeys) (s : State) : State :=
  let n := m.req.n
  let p := m.req.p
  let d := k / 32
  let now := nowEpoch s d
  let l := m.loc.getD 0
  let whole (t : State) : State := modSpace (fun y => { y with
    reserve := smPut 0 y.reserve d (smGet 0 y.reserve d - m.drew) }) t
  let counted (t : State) : State := restage d (whole (useBytes n d (moveBytes m) 0 t))
  match m.req.kind with
  | .demote =>
    let v := versionLeaving s n p x
    if m.image = [] then
      gbDie (4 + d) 4101 1 (bumpTier d 1 1 (restage d (countersDrop n p (lcDrop n p (dropQueued n p (freeOld n p x
        (setDesc n p { x with state := .zero, loc := 0, version := v, heat := 0, touch := now, tag := 0 } s)))))))
    else
      let v1 := v + bNat x.isSealed
      let tag := if x.isSealed then tagOf key.kt (runCipher key p m.image) v1 p 1 else 0
      let s1 := onlyIf (decide (m.dict < 1024)) (dictRef d m.dict) s
      let s2 := setDesc n p { x with
        state := .packed, loc := l, level := m.level, dict := if m.dict < 1024 then m.dict else 0, crc := m.crc
        len := m.image.length, tag := tag, version := v1, heat := 0, touch := now, pinned := false, poison := false } s1
      gbDie (4 + d) (4000 + slotsOf m.image.length - 1) 1 (bumpTier d 0 1 (counted (countersDrop n p (lcClean n p
        (dropQueued n p (freeOld n p x s2))))))
  | .repack =>
    let v1 := x.version + bNat x.isSealed
    let tag := if x.isSealed then tagOf key.kt (runCipher key p m.image) v1 p 1 else 0
    let s1 := onlyIf (decide (m.dict < 1024)) (dictRef d m.dict) s
    let s2 := setDesc n p { x with
      loc := l, level := m.level, dict := if m.dict < 1024 then m.dict else 0, crc := m.crc, len := m.image.length
      tag := tag, version := v1 } s1
    bumpTier d 5 1 (counted (leaveDict n p x (freeOld n p x s2)))
  | .promote =>
    let cipher := (below 64).flatMap fun i => leBytes 64 (lineCrypt true key p i (pageLine m.staged i)).toNat
    let s1 := onlyIf x.isSealed (tagsStart n p x.version cipher key) s
    let s2 := setDesc n p { x with
      state := .plain, loc := l, level := 0, dict := 0, crc := 0, len := 0, tag := 0
      heat := 0, touch := now } s1
    bumpTier d 3 1 (counted (leaveDict n p x (freeOld n p x s2)))
  | .relocate =>
    bumpTier d 6 1 (counted (freeOld n p x (setDesc n p { x with loc := l, poison := x.poison || m.pre.poison } s)))

/-- Whether a move's commit would name a dictionary that may no longer be named (05 R149), or whose count on the die stands at
its largest value (05 R146). -/
def namesRetiring (s : State) (m : Move) : Bool :=
  decide (m.dict < 1024) &&
    (!dictUsable s m.req.n m.dict || decide (refsMost ≤ dictRefs s (homeDie m.req.n m.req.p) m.dict))

/-- Whether a move's commit would bring a counter to all ones: its descriptor line fails then (07 R188, R189). -/
def moveSpends (s : State) (m : Move) (x : Desc) : Bool :=
  m.req.kind != .relocate && counterSpent x (versionLeaving s m.req.n m.req.p (if m.pess then m.pre else x))

/-- `COMMIT` (R105): a page that the re-key engine has locked is waited for; under the page lock, the watch is checked and the descriptor rewritten. -/
def moveCommit (k : Nat) (s : State) : State :=
  match smFind s.tier.moves k with
  | none => s
  | some m =>
    let n := m.req.n
    let p := m.req.p
    let d := k / 32
    if m.state ≠ .commit ∨ (m.pess = false ∧ pageLocked s n p) then s
    else if m.req.kind = .demote ∧ atomicHeld s n p then moveAbort k true s
    else if m.pess = false ∧ (m.fired ∨
        s.tier.evicted.any fun l => l.lodging == n && l.page == p) then moveAbort k true s
    else if namesRetiring s m then moveAbort k true s
    else if (descAt s n p).any (fun x => moveSpends s m x) then descFail n p (moveAbort k false s)
    else match descAt s n p, pageKeys s n p m.pre.phase with
      | some x, some key =>
        let x := if m.pess then m.pre else x
        let s1 := if m.pess ∧ moveToRun m = false then
            -- what was written back under the lock is carried over
            let c := copySource n p m.pre (settlePage n p s)
            putLines d (m.loc.getD 0 * 64) c.1 c.2.1 false c.2.2.2
          else s
        moveApply k m x key (moveIdle k s1)
      | _, _ => moveAbort k false s

/-! ### Commands -/

/-- TIER_EPOCH (R95). -/
def execTierEpoch (d : MemDie) (s : State) : Out := .next (tierEpoch d.val s)
/-- SWEEP_VISIT (R97). -/
def execSweepVisit (n : LodgeId) (page : BitVec 34) (s : State) : Out := .next (sweepVisit n.val page.toNat s)
/-- MOVE_START (R103). -/
def execMoveStart (d : MemDie) (c : Fin 32) (s : State) : Out := .next (moveStart d.val c.val s)
/-- MOVE_SNAPSHOT_DONE (R103). -/
def execMoveSnapshotDone (d : MemDie) (c : Fin 32) (s : State) : Out := .next (moveSnapshot (32 * d.val + c.val) s)
/-- MOVE_ENCODE_DONE (R103). -/
def execMoveEncodeDone (d : MemDie) (c : Fin 32) (s : State) : Out := .next (moveEncode (32 * d.val + c.val) s)
/-- MOVE_PLACE_DONE (R103). -/
def execMovePlaceDone (d : MemDie) (c : Fin 32) (s : State) : Out := .next (movePlace (32 * d.val + c.val) s)
/-- MOVE_COMMIT (R105). -/
def execMoveCommit (d : MemDie) (c : Fin 32) (s : State) : Out := .next (moveCommit (32 * d.val + c.val) s)

end Sys2Proof.Machine
end

