-- ==== Sys2Proof/Machine/Wings.lean ====
section
/-! DEFINITION. Emptying, shuttering and reopening wings (04 R119-R123). -/

namespace Sys2Proof.Machine

/-- The wings of a die. -/
def dieWings (d : Nat) : List Nat := (below 4).map (· + 4 * d)

/-- Whether a wing is on its way out or back. -/
def wingMoving (s : State) (w : Nat) : Bool :=
  match (wingAt s w).state with
  | .draining | .empty | .shuttering | .reopening => true
  | _ => false

/-- Two channels of a wing changed. -/
def modWingChans (w : Nat) (f : Chan → Chan) (s : State) : State := modChan (2 * w + 1) f (modChan (2 * w) f s)

/-- The status with which `EVACUATE` of a wing is refused (R120). -/
def evacuateRefused (s : State) (w : Nat) : Option Nat :=
  let d := w / 4
  let t := modWingAt w (fun x => { x with state := .draining }) s
  if anchorWing s w ∨ (wingAt s w).state ≠ .openW ∨ (dieWings d).any fun v => v != w && wingMoving s v then some 0x03
  else if ((100 * openFree t d : Nat) : Int) < (100 * wingUsed s w : Nat) + pnum s P.TIER_SHUTTER_MARGIN * usable s d then some 0x0B
  else if admitsLower s (modWingAt w (fun x => { x with state := .shut }) s) = false then some 0x0A
  else none

/-- A wing becomes `DRAINING` (Table 4.5, step 1): its blanking entries are dropped. -/
def evacuateStart (w : Nat) (byCmd : Bool) (unit : Option Nat) (s : State) : State :=
  modSpace (fun x => { x with blankQ := smErase x.blankQ w })
    (modWingAt w (fun x => { x with state := .draining, byCmd := byCmd, byUnit := unit }) s)

/-- What of a wing is free and not blanked, queued for blanking again in ascending frame order. -/
def requeueBlanks (w : Nat) (s : State) : State :=
  let base := (w % 4) * 2 ^ 28
  let items := (wingUses s w).flatMap fun (e : Nat × Use) => match e.2.kind with
    | .blanking => [BlankItem.frames (base + e.1) e.2.len]
    | .slab k runs => runs.filterMap fun (q : Nat × Option (Nat × Nat)) =>
        if q.2.isNone then some (BlankItem.run (base + e.1) k q.1) else none
    | .group fr => fr.filterMap fun (q : Nat × Option (Nat × Nat)) =>
        if q.2.isNone then some (BlankItem.data (base + e.1) q.1) else none
    | _ => []
  modSpace (fun x => { x with blankQ := smPut [] x.blankQ w items }) s

/-- An evacuation is cancelled: the wing is `OPEN` at once; what asked for it ends `REFUSED` with `DETAIL` 1. -/
def evacuateCancel (w : Nat) (s : State) : State :=
  let x := wingAt s w
  let s1 := requeueBlanks w (modWingAt w (fun y => { y with state := .openW, byCmd := false, byUnit := none }) s)
  let s2 := if x.byCmd then cmdEnd 0 P.WING_CMD 0x0B 1 s1 else s1
  match x.byUnit with
  | some u => cmdEnd u P.UNIT_CMD 0x0B 1 s2
  | none => s2

/-- Whether anything moves to or from a wing, or waits to be written there. -/
def wingInFlight (s : State) (w : Nat) : Bool :=
  s.tier.moves.any fun e =>
    decide (e.1 / 32 = w / 4) &&
      ((match e.2.loc with
        | some l => (if moveToRun e.2 then l / 2 ^ 32 else l / 2 ^ 28) == w % 4
        | none => false) ||
       (if e.2.pre.state = .packed then e.2.pre.loc / 2 ^ 32 else e.2.pre.loc / 2 ^ 28) == w % 4)

/-- Step 3 of Table 4.5: the wing is `EMPTY`. -/
def wingEmptied (w : Nat) (s : State) : State := modWingAt w (fun x => { x with state := .empty }) s

/-- Step 4 of Table 4.5: its write queues have drained; the wing is `SHUTTERING`, and its branch opens. -/
def wingShutters (w : Nat) (s : State) : State :=
  let s1 := drainChan (2 * w) (drainChan (2 * w + 1) s)
  let s2 := modWingChans w (fun c => { c with state := if c.state = .failed then .failed else .off, acts := [], owed := [] })
    (modWingAt w (fun x => { x with state := .shuttering }) s1)
  recomputeD (branchOpen w s2)

/-- A drained wing takes its next step: `EMPTY` first, then `SHUTTERING`. -/
def wingEmpty (w : Nat) (s : State) : State :=
  match (wingAt s w).state with
  | .draining => if wingUsed s w ≠ 0 ∨ wingInFlight s w then s else wingEmptied w s
  | .empty => wingShutters w s
  | _ => s

/-- The status with which `REOPEN` of a wing is refused (R120). -/
def reopenRefused (s : State) (w : Nat) : Option Nat :=
  match (wingAt s w).state with
  | .draining | .empty => none
  | .shuttering => some 0x02
  | .shut => if (dieWings (w / 4)).any fun v => v != w && (wingAt s v).state == .reopening then some 0x02 else none
  | .openW | .reopening => some 0x03

/-- A channel starts training: its LFSR is seeded, its tables are not valid (R300). -/
def trainChan (c : Nat) (test : Bool) (s : State) : State :=
  afterDraw (modChan c (fun x => { x with
    state := .training, test := test, acts := [], reads := [], tableValid := false, blind := [], mitigate := [], owed := [], retry := []
    alertN := false, replays := 0, bursting := false, lfsr := Config.lfsrSeed s.fresh }) s)

/-- The channel of a wing, if any, that failed: it returns only through a device reset (11 R311). -/
def wingFailed (s : State) (w : Nat) : Option Nat := [2 * w, 2 * w + 1].find? fun c => (chanAt s c).state == .failed

/-- A channel of a reopening wing fails its training, or has failed for good: the branch opens again, the wing is `SHUT`, its
other channel `OFF`. -/
def reopenFailed (w c : Nat) (s : State) : State :=
  let x := wingAt s w
  let s1 := branchOpen w (modWingChans w (fun y => { y with state := if y.state = .failed then .failed else .off })
    (modWingAt w (fun y => { y with state := .shut, reopenByCmd := false, reopenUnit := none }) s))
  let s2 := if x.reopenByCmd then cmdEnd 0 P.WING_CMD 0x0C c s1 else s1
  match x.reopenUnit with
  | some u => cmdEnd u P.UNIT_CMD 0x0C 0 s2
  | none => s2

/-- The channels of a wing train as channels rejoining service do (Table 4.6, step 2); a failed one does not. -/
def trainWing (w : Nat) (s : State) : State :=
  match wingFailed s w with
  | some c => if (wingAt s w).state = .reopening then reopenFailed w c s
      else forAll ([2 * w, 2 * w + 1].filter (· ≠ c)) (fun k t => if (chanAt t k).state = .failed then t else trainChan k false t) s
  | none => trainChan (2 * w + 1) false (trainChan (2 * w) false s)

/-- Step 1 of Table 4.6: the wing is `REOPENING` and its branch is asked to close; a branch that conducts
already is as good as closed. -/
def reopenStart (w : Nat) (byCmd : Bool) (unit : Option Nat) (s : State) : State :=
  let s1 := modWingAt w (fun x =>
    { x with state := .reopening, reopenByCmd := byCmd, reopenUnit := unit, reopenWanted := false }) s
  if branchLive s1 w then trainWing w s1 else branchRequest w s1

/-- Whether a wing's branch has tripped or stands in `FET_FAULT`: automatic reopening never chooses it (15 R389). -/
def branchBroken (s : State) (w : Nat) : Bool := (branchAt s w).state == .tripped || (branchAt s w).state == .fetFault

/-- The wing an automatic reopening takes: the lowest `SHUT` one, but for one that cannot open (log 157). -/
def reopenPick (s : State) (d : Nat) : Option Nat :=
  (dieWings d).find? fun w => (wingAt s w).state == .shut && !branchBroken s w && (wingFailed s w).isNone

/-- The branch reports off: the wing is `SHUT`, and what asked for it ends `OK`. A reopening asked for meanwhile starts. -/
def wingShut (w : Nat) (s : State) : State :=
  let x := wingAt s w
  if x.state ≠ .shuttering ∨ (branchAt s w).state ≠ .off then s
  else
    let s1 := modWingAt w (fun y => { y with state := .shut, byCmd := false, byUnit := none }) s
    let s2 := if x.byCmd then cmdEnd 0 P.WING_CMD 0x00 0 s1 else s1
    let s3 := modWingAt w (fun y => { y with reopenWanted := false }) s2
    if x.reopenWanted = false ∨ (dieWings (w / 4)).any (fun v => (wingAt s3 v).state == .reopening) then s3
    else match reopenPick s3 (w / 4) with
      | some v => reopenStart v false none s3
      | none => s3

/-- A `SHUT` wing of a die is reopened when open free space is short, or a write finds no frame (R121, R122). -/
def autoReopen (d : Nat) (s : State) : State :=
  let short := decide (((openFree s d * 100 : Nat) : Int) < pnum s P.TIER_REOPEN_MARK * usable s d)
  let starved := writeStarved s d && !compacts s d
  if short = false ∧ starved = false then s
  else match (dieWings d).find? fun w => short && (wingFailed s w).isNone &&
      ((wingAt s w).state == .draining || (wingAt s w).state == .empty) with
    | some w => evacuateCancel w s
    | none =>
      if (dieWings d).any fun w => (wingAt s w).state == .reopening then s
      else match (dieWings d).find? fun w => (wingAt s w).state == .shuttering with
        | some w => modWingAt w (fun x => { x with reopenWanted := true }) s
        | none => match reopenPick s d with
          | some w => reopenStart w false none s
          | none => s

/-- A reopened wing whose channels have trained is `OPEN`; all of it is queued for blanking (Table 4.6, step 3). -/
def reopenTrained (w : Nat) (s : State) : State :=
  let x := wingAt s w
  if x.state ≠ .reopening ∨ (chanAt s (2 * w)).state ≠ .active ∨ (chanAt s (2 * w + 1)).state ≠ .active then s
  else
    let lo := (w / 4) * 2 ^ 30 + (w % 4) * 2 ^ 28
    let s1 := modSpace (fun y => { y with
      passed := smErase y.passed w
      blankQ := smErase y.blankQ w
      uses := smFilter (fun k u => u.kind == .retired || decide (k < lo) || decide (lo + 2 ^ 28 ≤ k)) y.uses }) s
    let s2 := modWingAt w (fun y => { y with
      state := .openW, reopenByCmd := false, reopenUnit := none, reopened := some 0 }) s1
    let s3 := restage (w / 4) (recomputeD s2)
    if x.reopenByCmd then cmdEnd 0 P.WING_CMD 0x00 0 s3 else s3

/-- The `OPEN` wing that an automatic shuttering chooses: fewest used bytes, not lately reopened, every check passed; of
several with as few, the lowest (log 128). -/
def shutterPick (s : State) (d : Nat) : Option Nat :=
  let ok (w : Nat) : Bool := (evacuateRefused s w).isNone && decide (0 < wingFrames s w) &&
    (match (wingAt s w).reopened with
     | some e => decide (pnum s P.TIER_SHUTTER_HOLD ≤ e)
     | none => true)
  ((dieWings d).filter ok).foldl (fun b w => match b with
    | none => some w
    | some v => if wingUsed s w < wingUsed s v then some w else b) none

/-- A sweep pass ends (R123): the mover may start an evacuation, on behalf of the owner of group 0x2000. -/
def sweepPassEnd (d : Nat) (s : State) : State :=
  let s1 := modTier (fun t => { t with sweep := smErase t.sweep d }) s
  if bitOf (pnum s P.TIER_ENABLE) 4 = false ∨ smGet 0 s.lod.stage d ≠ 0 ∨ (dieWings d).any (wingMoving s) then s1
  else match shutterPick s1 d with
    | some w => if cmdPending s 0 P.WING_CMD then autoRefused P.WING_CMD 0x02 s1
        else evacuateStart w true none (autoCommand P.WING_CMD s1)
    | none => s1

/-! ### Commands -/

/-- SWEEP_PASS_END (R123). -/
def execSweepPassEnd (d : MemDie) (s : State) : Out := .next (sweepPassEnd d.val s)
/-- WING_EMPTY (R120). -/
def execWingEmpty (w : WingId) (s : State) : Out := .next (wingEmpty w.val s)
/-- AUTO_REOPEN (R122). -/
def execAutoReopen (d : MemDie) (s : State) : Out := .next (autoReopen d.val s)

end Sys2Proof.Machine
end

