-- ==== Sys2Proof/Machine/Channels.lean ====
section
/-! DEFINITION. The DDR channels: declarations and training, the scheduler, refresh, row disturbance, parity replay
(11 R288-R301). -/

namespace Sys2Proof.Machine

/-! ### Declarations (R21, R288-R290) -/

/-- Whether a channel is declared populated. -/
def chanPopulated (s : State) (c : Nat) : Bool := chanP s c P.CH_MODULES != 0

/-- Whether a populated channel's declaration is one of Table 11.1. -/
def chanSupported (s : State) (c : Nat) : Bool :=
  let mods := chanP s c P.CH_MODULES
  let ranks := chanP s c P.CH_RANKS
  match moduleOf (chanP s c P.CH_MODULE_CODE) with
  | none => false
  | some (_, _, stacked) =>
    let cap := chanBytes s c / max 1 mods
    decide (mods ≤ 2) && (ranks == 1 || ranks == 2 || ranks == 4) && !(stacked && ranks == 1) &&
      decide (16 * 2 ^ 30 ≤ cap) && decide (cap ≤ 256 * 2 ^ 30) && (mods == 1 || chanP s c P.CH_RATE == 1)

/-- Whether the two channels of a wing are declared alike. -/
def wingAlike (s : State) (w : Nat) : Bool :=
  let same (p : Nat) : Bool := chanP s (2 * w) p == chanP s (2 * w + 1) p
  same P.CH_MODULES && same P.CH_MODULE_CODE && same P.CH_RANKS && same P.CH_RATE

/-- The declared capacity of a die. -/
def dieDeclared (s : State) (d : Nat) : Nat := ((below 8).map fun i => chanBytes s (8 * d + i)).sum

/-- Whether `DRAM_APPLY` finds every declaration in order; otherwise `RANGE`. -/
def declarationsGood (s : State) : Bool :=
  ((below 32).all fun c => !chanPopulated s c || chanSupported s c) && ((below 16).all (wingAlike s)) &&
    ((below 4).all fun d => dieDeclared s d == dieDeclared s 0)

/-- Whether `DRAM_APPLY` may start: every channel is `UNPOPULATED` or `DECLARED`. -/
def dramApplyReady (s : State) : Bool :=
  (below 32).all fun c => (chanAt s c).state == .unpopulated || (chanAt s c).state == .declared

/-! ### Training (R294) -/

/-- `DRAM_APPLY` (R290): every populated channel trains at once, and the branches of their wings are asked to close
(15 R387). -/
def dramApply (test : Bool) (s : State) : State :=
  forAll ((below 32).filter (chanPopulated s)) (fun c t => trainChan c test (branchRequest (c / 2) t))
    (modSl (fun l => { l with bootStage := .training }) s)

/-- Whether a wing is an anchor wing, or will be the first to take reserved regions. -/
def wingAnchors (s : State) (w : Nat) : Bool :=
  anchorWing s w ||
    (!((dieWings (w / 4)).any (anchorWing s)) && (dieWings (w / 4)).find? (fun v => chanPopulated s (2 * v)) == some w)

/-- Retired frames are taken out of use, where they are free or wait for blanking; their blanking entries are dropped (R315). -/
def retireFree (d a len : Nat) (s0 : State) : State :=
  let within (f n : Nat) : Bool := decide (a < f + n) && decide (f < a + len)
  let s := modSpace (fun x => { x with blankQ := smMod [] x.blankQ (4 * d + a / 2 ^ 28) (List.filter fun b => match b with
    | .run f k j => !within (f + j * k / 16) ((k + 15) / 16)
    | .data g i => !within (g + i) 1
    | _ => true) }) s0
  let split (f n : Nat) (t : State) : State :=
    let t1 := modSpace (fun x => { x with
      uses := smErase x.uses (useKey d f)
      blankQ := smMod [] x.blankQ (4 * d + f / 2 ^ 28) (List.filter fun b => b != .frames f n) }) t
    forAll (below n) (fun i u =>
      if frameRetired u d (f + i) then setUse d (f + i) ⟨1, .retired⟩ u
      else queueBlank d (f + i) (.frames (f + i) 1) (setUse d (f + i) ⟨1, .blanking⟩ u)) t1
  let hit := s.space.uses.filter fun (e : Nat × Use) =>
    decide (e.1 < useKey d a + len) && decide (useKey d a < e.1 + e.2.len)
  if hit = [] then setUse d a ⟨len, .retired⟩ s
  else forAll (below len) (fun i t => match useAt t d (a + i) with
    | none => setUse d (a + i) ⟨1, .retired⟩ t
    | some (f, ⟨n, .blanking⟩) => split f n t
    | _ => t) s

/-- A frame enters a die's retired list (R315, R317). -/
def retireEntry (d entry frame : Nat) (s : State) : State :=
  modSpace (fun x => { x with retired := smMod [] x.retired d (· ++ [(entry, frame)]) }) s

/-- The frame entry of R317. -/
def frameEntry (d f : Nat) : Nat := 8 * d + 2 * (f / 2 ^ 28) + 2 ^ 37

/-- A line that failed the memory test: logged with kind 5, its frame retired with a record of kind 7 (Table 11.3 step 4, R315);
a full list takes no more. -/
def testFailure (c idx : Nat) (s : State) : State :=
  let q := lineAt (c % 8) idx
  let d := c / 8
  let s1 := memEvent c 1 none (dramRecord s 5 d q.1 q.2 0 0 6 none) s
  if frameRetired s1 d q.1 ∨ 4096 ≤ (smGet [] s1.space.retired d).length then s1
  else
    let s2 := retireFree d q.1 1 (retireEntry d (frameEntry d q.1) q.1 s1)
    memEvent c 0 none (chanRecord s2 7 c) s2

/-- What the ACTs of a memory test leave (R300): where the LFSR has come to, and how many mitigations it set off, are free. -/
def testActs (c : Nat) (s : State) : State :=
  afterDraw (afterDraw (modChan c (fun x => { x with
    lfsr := Config.lfsrSeed s.fresh, counts := bump 64 x.counts 2 (Config.freeBits (s.fresh + 1)) }) s))

/-- Step 5 of Table 11.3: the channel is `ACTIVE` and its tables count; `drfm` are its modules that support DRFM. -/
def chanActive (c : Nat) (drfm : BitVec 2) (bad : List Nat) (s : State) : State :=
  let test := (chanAt s c).test
  let s1 := modChan c (fun x => { x with state := .active, scrub := 0, since := dieTime s (4 + c / 8), drfm := drfm }) s
  if test then forAll bad (testFailure c) (testActs c s1) else s1

/-- The reserved regions of a memory die are set up in its wings in ascending order (04 R115): granule map, dictionary
copy, and on M0 and M2 extent records and the night region. -/
def regionsSetUp (d : Nat) (s : State) : State :=
  let want (what len : Nat) : List RegionWant :=
    if (regionFrame s d what 0).isSome ∨ s.space.wants.any (fun w => w.die == d && w.what == what) then []
    else [⟨d, what, 0, len, 1⟩]
  let all := want 0 768 ++ want 1 8192 ++ (if d % 2 = 0 then want 2 256 ++ want 3 256 else [])
  regionsTake (modSpace (fun x => { x with wants := x.wants ++ all }) s)

/-- Whether a memory die has no wing it can use, or a failed channel in an anchor wing (20 R459). -/
def dieUnusable (s : State) (d : Nat) : Bool :=
  ((dieWings d).all fun w => !chanPopulated s (2 * w) || (chanAt s (2 * w)).state == .failed || (chanAt s (2 * w + 1)).state == .failed) ||
    ((dieWings d).any fun w => wingAnchors s w && ((chanAt s (2 * w)).state == .failed || (chanAt s (2 * w + 1)).state == .failed))

/-- `DRAM_APPLY` ends when its slowest channel does (20 R459). -/
def dramApplyEnd (s : State) : State :=
  if cmdPending s 0 P.DRAM_APPLY = false ∨ (below 32).any (fun c => (chanAt s c).state == .training) then s
  else
    let s1 := modSl (fun l => { l with bootStage := .ready }) s
    let s2 := match (below 32).find? fun c => (chanAt s c).state == .failed with
      | some c => cmdEnd 0 P.DRAM_APPLY 0x0C c s1
      | none => cmdEnd 0 P.DRAM_APPLY 0x00 0 s1
    recomputeD (forAll (below 4) (fun d t => restage d (regionsSetUp d t)) s2)

/-! ### A channel fails (R311) -/

/-- A channel's merge buffer and queues drain. -/
def chanSettle (c : Nat) (s : State) : State := drainChan c (forAll (chanAt s c).merge (mergeOut c) s)

/-- The failed channel's queues drain (R296, R308); its wing drains, returns to `SHUT` where it was reopening, or, where it is an anchor wing, its die
leaves service: the second answer. -/
def channelFails (c : Nat) (s : State) : State × Bool :=
  let w := c / 2
  let s1 := modChan c (fun x => { x with state := .failed, alertN := false, retry := [] }) (chanSettle c s)
  if (wingAt s w).state = .reopening then (installedFell (w / 4) (reopenFailed w c s1), false)
  else if wingAnchors s w then (s1, true)
  else
    let s2 := if (wingAt s1 w).state = .openW ∨ (wingAt s1 w).state = .draining then
        modSpace (fun x => { x with blankQ := smErase x.blankQ w }) (modWingAt w (fun x => { x with state := .draining }) s1)
      else s1
    (installedFell (w / 4) s2, false)

/-! ### The scheduler (R296) -/

/-- The next command of a channel in the order of R296; what the modules' timing bars of its queued reads, by place, is the
operand's. Reads are answered as their requests are evaluated (log 7); here they open their row and leave the queue. An idle
rank's owed REFs are made up before requests of other ranks (log 48). -/
def dramIssue (c : Nat) (barred : BitVec 128) (s : State) : State :=
  let x := chanAt s c
  if x.state ≠ .active ∨ x.alertN then s
  else match lateRank s c with
    | some r => refresh c r 1 s
    | none => match x.mitigate with
      | q :: _ => mitigation c q.1 q.2 s
      | [] => match idleRank s c with
        | some r => refresh c r 1 s
        | none =>
          let reads := (x.reads.zipIdx.filter fun q => !barred.getLsbD q.2).map (·.1)
          let full (sub : Nat) : Nat := subQueued s c sub
          let burst := if x.bursting ∨ reads = [] then decide (16 ≤ full 0) || decide (16 ≤ full 1)
            else decide (48 < full 0) || decide (48 < full 1)
          let s1 := modChan c (fun y => { y with bursting := burst }) s
          if burst ∨ reads = [] then writeNext c s1
          else match readPick s1 c reads with
            | some r => issueRead c r s1
            | none => s1

/-! ### Refresh and temperature (R297, R298) -/

/-- A rank's tREFI elapses: a REF falls due; the controller may postpone it while the rank has reads queued, up to
`CH_REF_POSTPONE` owed. -/
def refDue (c rank : Nat) (postpone : Bool) (s : State) : State :=
  let x := chanAt s c
  if x.state ≠ .active ∨ (chanRanks s c).contains rank = false then s
  else
    let later := postpone && decide (smGet 0 x.owed rank < chanP s c P.CH_REF_POSTPONE) &&
      x.reads.any fun r => rankOf (lineBank s c r.frame r.line).1 == rank
    let s1 := modChan c (fun x => { x with
      owed := smPut 0 x.owed rank (smGet 0 x.owed rank + 1)
      counts := if later then bump 64 x.counts 3 1 else x.counts }) s
    if later ∨ x.alertN then s1 else refresh c rank 1 s1

/-- The modules' thermal sensors are read: above 85 degrees tREFI is halved. -/
def moduleTemp (c : Nat) (t : Int) (s : State) : State :=
  if (chanAt s c).state = .active ∨ (chanAt s c).state = .selfRefresh then
    modChan c (fun x => { x with temp := t, hot := decide (85 < t) }) s
  else s

/-- The activate-count tables are cleared once per 32 ms window (R299). -/
def tablesClear (s : State) : State :=
  modCh (fun m => m.map fun e => (e.1, { e.2 with
    acts := e.2.acts.filterMap fun a => if a.2.openRow.isNone then none else some (a.1, { a.2 with rows := [] }) })) s

/-- The tables of a channel, and each table that its own SRAM cleared, are valid again 32 ms after they began to count anew
(R300). -/
def tableValid (c : Nat) (s : State) : State :=
  let ended (t : Nat) : Bool := decide (t + 32000000 ≤ dieTime s (4 + c / 8))
  if (chanAt s c).state = .active then modChan c (fun x => { x with
    tableValid := x.tableValid || ended x.since, blind := x.blind.filter fun e => !ended e.2 }) s
  else s

/-! ### Parity replay (R301) -/

/-- `ALERT_N` for a CA-parity error: commands stop; of the retry buffer, what was issued within the module's alert
latency is to be issued again. -/
def caAlert (c latency : Nat) (s : State) : State :=
  if (chanAt s c).state = .active then
    modChan c (fun x => { x with alertN := true, retry := x.retry.filter fun r => decide (dieTime s (4 + c / 8) ≤ r.time + latency) }) s
  else s

/-- `ALERT_N` is released: banks are precharged and the commands issued again, their ACTs counting again. `again`: a
further alert comes before the replay completes. Writes store their line once more; a replayed read finds the line as it is, so
what its first data said is of no account (log 7). The second answer says that the channel fails. -/
def caReplay (c : Nat) (again : Bool) (s : State) : State × Bool :=
  let x := chanAt s c
  if x.alertN = false then (s, false)
  else
    let s1 := modChan c (fun y => { y with
      acts := y.acts.filterMap fun e => if e.2.rows = [] then none else some (e.1, { e.2 with openRow := none })
      tableValid := false, since := dieTime s (4 + c / 8), replays := x.replays + 1, alertN := again, counts := bump 64 y.counts 0 1 }) s
    let s2 := forAll x.retry (fun r t => match r.kind, r.data with
      | 1, _ => randomMitigation c r.bank r.row (countAct c r.bank r.row t)
      | _, some ⟨f, i, .raw b po hi, _, _⟩ => storeRaw (c / 8) f i ⟨b, po, hi⟩ t
      | _, _ => t) s1
    let s3 := gbDie (4 + c / 8) (2100 + c) 1 (memEvent c 1 none (chanRecord s 3 c) s2)
    if again ∧ pnum s P.CA_RETRY_LIMIT ≤ x.replays + 1 then (memEvent c 3 none (chanRecord s 4 c) s3, true)
    else if again then (s3, false)
    else (modChan c (fun y => { y with replays := 0 }) s3, false)

/-! ### Self-refresh (R298, 16 R398) -/

/-- A channel enters self-refresh: merge buffer and write queue drain, owed REFs are issued. -/
def chanSelfRefresh (c : Nat) (s : State) : State :=
  if (chanAt s c).state ≠ .active then s
  else
    let s1 := chanSettle c s
    let s2 := forAll (chanRanks s1 c) (fun r t => forAll (below (smGet 0 (chanAt t c).owed r)) (fun _ => refresh c r 1) t) s1
    modChan c (fun x => { x with state := .selfRefresh, owed := [], acts := [], mitigate := [], retry := [], bursting := false }) s2

/-- SELF_REFRESH_ENTRY (16 R398): in IDLE, a wing idle for `PS_SR_IDLE`. -/
def wingSelfRefresh (w : Nat) (s : State) : State :=
  if s.ps.state = .idle then chanSelfRefresh (2 * w + 1) (chanSelfRefresh (2 * w) s) else s

/-! ### Commands -/

/-- DRAM_COMMAND_ISSUE (R296). -/
def execDramCommandIssue (c : ChanId) (barred : BitVec 128) (s : State) : Out := .next (dramIssue c.val barred s)
/-- REF_DUE (R297). -/
def execRefDue (c : ChanId) (rank : Fin 8) (postpone : Bool) (s : State) : Out := .next (refDue c.val rank.val postpone s)
/-- MODULE_TEMP_READ (R297). -/
def execModuleTempRead (c : ChanId) (t : BitVec 32) (s : State) : Out := .next (moduleTemp c.val (s32 t) s)
/-- ACT_TABLE_CLEAR (R299). -/
def execActTableClear (s : State) : Out := .next (tablesClear s)
/-- TABLE_VALID (R300). -/
def execTableValid (c : ChanId) (s : State) : Out := .next (tableValid c.val s)
/-- CA_PARITY_ALERT (R301). -/
def execCaParityAlert (c : ChanId) (latency : BitVec 16) (s : State) : Out := .next (caAlert c.val latency.toNat s)
/-- SELF_REFRESH_ENTRY (16 R398). -/
def execSelfRefreshEntry (w : WingId) (s : State) : Out := .next (wingSelfRefresh w.val s)

end Sys2Proof.Machine
end

