-- ==== Sys2Proof/Machine/DeadAgents.lean ====
section
/-! DEFINITION. Ports that are absent or dead, and coherence domains that go down (08 R233-R237). -/

namespace Sys2Proof.Machine

/-- A notice to every bound view of a lodging: a vendor-defined record (14 Table 14.9). -/
def vendorNotice (log code n : Nat) (s : State) : State := putEvents (hostPorts s n) log (.vendor code n) s

/-- A line that a dead agent held in `E` is marked lost (R233); where that waits for space, requests for the page wait
behind it. -/
def markLost (l : Nat × Nat × Nat) (s : State) : State :=
  let s0 := unlockPage l.1 l.2.1 (fireWatch l.1 l.2.1 s)
  let g := loseLine l.1 l.2.1 l.2.2 s0
  if g.2 then lineLost l.1 l.2.1 g.1
  else
    stall (MemReq.stamped { agent := 6, port := 64, tag := 0, n := l.1, p := l.2.1, i := l.2.2, op := .lost
                            since := dieTime s (4 + homeDie l.1 l.2.1), label := lodgeP s l.1 P.LABEL, dpa := 0 } 0) s0

/-- The directory entries that name a port. -/
def entriesOf (s : State) (p : Nat) : List (Nat × DirEntry) :=
  s.coh.dir.filter fun e => (holderPorts s (entryLine e.1 e.2).1 e.2).contains p

/-- Whether a lodging's domain is `STRICT`. -/
def domainStrict (s : State) (n : Nat) : Bool := lodgeP s n P.DOMAIN == 0

/-- Every open snoop to a port is closed as though it had answered `BIRspI` (Table 8.6 step 3). -/
def closeSnoops (p : Nat) : Nat → State → State
  | 0, s => s
  | k + 1, s => match s.coh.txs.find? fun t => t.left.contains p with
    | none => s
    | some t => closeSnoops p k (snoopAnswered t p 0 s)

/-- A `STRICT` domain goes down (Table 8.6 step 4): its entries are recalled, what is written back is applied. -/
def domainDown (n : Nat) (s : State) : State :=
  if s.coh.down.contains n then s
  else removeEntries (fun k e => (entryLine k e).1 == n) false (modCoh (fun c => { c with down := c.down ++ [n] }) s)

/-- Table 8.6 for a port; `relink` is the difference of R236. -/
def deadAgent (p : Nat) (relink : Bool) (s : State) : State :=
  let ents := entriesOf s p
  let held := (ents.filter fun e => e.2.excl).map fun e => entryLine e.1 e.2
  let reclaimed := held.filter fun l => !domainStrict s l.1
  let strict := held.filter fun l => domainStrict s l.1
  let bound := (liveLodges s).filter fun n => (hostPorts s n).contains p
  let downs := if relink then (strict.map (·.1)).eraseDups else bound.filter (domainStrict s)
  let s1 := forAll ents (fun e t =>
    if e.2.excl then dirFree e.1 t else dirPut e.1 (e.2.drop t (entryLine e.1 e.2).1 p) t)
    (modCoh (fun c => { c with absent := c.absent.filter (· ≠ p), dying := c.dying.filter (· ≠ p) }) s)
  let s2 := forAll downs domainDown (forAll reclaimed markLost s1)
  let s3 := closeSnoops p (s2.coh.txs.length + 1) (forAll strict markLost s2)
  let touched := ((ents.map fun e => (entryLine e.1 e.2).1) ++ (if relink then [] else bound)).eraseDups
  let s4 := forAll downs (fun n t => vendorNotice 3 4 n (logEvent 8 0xFFFF 2 (some (n, 0)) 0 t)) s3
  let ups := touched.filter fun n => !downs.contains n
  logEvent 8 0xFFFF 1 none 0 (forAll ups (vendorNotice 0 5) s4)

/-- A port's host is gone for now (R234): its absence timeout runs. -/
def portAbsent (p : Nat) (s : State) : State :=
  modCoh (fun c => { c with absent := c.absent.filter (· ≠ p) ++ [p] }) s

/-- The absence timeout of a port expires (R235): the scan starts, and the port carries no memory traffic meanwhile. -/
def absenceEnd (p : Nat) (s : State) : State :=
  if s.coh.absent.contains p then
    modCoh (fun c => { c with absent := c.absent.filter (· ≠ p), dying := c.dying ++ [p] }) s
  else s

/-- The scan ends. -/
def scanDone (p : Nat) (s : State) : State := if s.coh.dying.contains p then deadAgent p false s else s

/-- `COH_RESET` (R237): it ends at once where no snoop of the lodging is open. -/
def cohReset (n : Nat) (s : State) : State := cohSettle n s

/-! ### Commands -/

/-- ABSENCE_TIMEOUT (R235). -/
def execAbsenceTimeout (p : PortId) (s : State) : Out := .next (absenceEnd p.val s)
/-- DEAD_AGENT_SCAN_DONE (R235). -/
def execDeadAgentScanDone (p : PortId) (s : State) : Out := .next (scanDone p.val s)

end Sys2Proof.Machine
end

