-- ==== Sys2Proof/Machine/Offload.lean ====
section
/-! DEFINITION. Offload queues, jobs, stream contexts and bulk export (06). -/

namespace Sys2Proof.Machine

/-! ### Queues (R157-R161) -/

/-- Queue `q`. -/
def queueAt (s : State) (q : Nat) : Queue := smGet {} s.job.queues q
/-- Queue `q` changed. -/
def modQueue (q : Nat) (f : Queue → Queue) (s : State) : State :=
  modJob (fun j => { j with queues := smMod {} j.queues q f }) s
/-- A committed member of a queue's row. -/
def queueP (s : State) (q param : Nat) : Nat := prow s q param
/-- One of `Q_COUNTS` grows. -/
def bumpQueue (q i : Nat) (s : State) : State := modQueue q (fun x => { x with counts := bump 64 x.counts i 1 }) s
/-- The contexts a queue owns (R158). -/
def queueOwns (s : State) (q c : Nat) : Bool :=
  decide (queueP s q P.Q_CTX_FIRST ≤ c ∧ c < queueP s q P.Q_CTX_FIRST + queueP s q P.Q_CTX_COUNT)
/-- A queue's live jobs. -/
def jobsOf (s : State) (q : Nat) : List Job := s.job.jobs.filter fun j => j.queue == q
/-- The job of a slot. -/
def jobAt (s : State) (q i : Nat) : Option Job := s.job.jobs.find? fun j => j.queue == q && j.index == i
/-- A job changed. -/
def putJob (j : Job) (s : State) : State :=
  modJob (fun x => { x with jobs := x.jobs.map fun k => if k.queue = j.queue ∧ k.index = j.index then j else k }) s
/-- A context becomes `FREE`. -/
def ctxFree (c : Nat) (s : State) : State := modJob (fun x => { x with ctxs := smErase x.ctxs c }) s

/-- Whether a port has an unended job (R176). -/
def portHasJob (s : State) (p : Nat) : Bool :=
  s.job.jobs.any fun j => queueP s j.queue P.Q_PORT == p

/-- A fault of the queue stops it (Table 6.7), with a Courier alert and an event record to the host of `Q_PORT`. -/
def queueStop (q detail : Nat) (s : State) : State :=
  let p := queueP s q P.Q_PORT
  putEvent p 2 (.vendor 8 (q + detail * 65536)) (logEvent 14 0xFFFF 1 none (q + detail * 65536)
    (modQueue q (fun x => { x with state := .stopped, detail := detail }) s))

/-- A port that goes down or an FLR of its view stops every queue bound to it: unended jobs stop, and the contexts they name
become `FREE` (R176). -/
def queuesDown (p : Nat) (s : State) : State :=
  forAll ((boundQueues s).filter fun q => queueP s q P.Q_PORT == p)
    (fun q t =>
      let gone := jobsOf t q
      let t1 := modJob (fun x => { x with jobs := x.jobs.filter fun j => j.queue != q }) t
      let t2 := forAll (gone.filterMap fun j => if j.desc.getLsbD 62 then some (bitsOf j.desc.toNat 48 14) else none) ctxFree t1
      cmdEnd q P.Q_CMD 0x0B 0 (modQueue q (fun x => { x with state := .stopped, detail := 3 }) t2)) s

/-- The status with which a `Q_CMD` is refused: 1 `ENABLE`, 2 `DISABLE`, 3 `RESET` (Table 6.2; 20 R460). -/
def queueCmdRefused (s : State) (q code : Nat) : Option Nat :=
  let st := (queueAt s q).state
  if code = 1 then
    (if st = .disabled ∧ queueP s q P.Q_PORT ≠ 0xFF ∧ s.sl.bootStage = .ready ∧
        (below 4).all (fun d => unitServes s (372 + d)) then none else some 0x03)
  else if code = 2 then (if st = .enabled then none else some 0x03)
  else if code = 3 then (if st = .stopped then none else some 0x03)
  else some 0x06

/-- `ENABLE`: indices 0, pass phase 1, a full bucket. -/
def queueEnable (q : Nat) (s : State) : State :=
  modQueue q (fun x => { x with
    state := .enabled, sqTail := 0, cqHead := 0, sqHead := 0, phase := true
    tokens := queueP s q P.Q_BURST * 10 ^ 6 }) s

/-- `DISABLE`: no further descriptor is fetched; without a fetched job the queue is `DISABLED` at once. -/
def queueDisable (q : Nat) (s : State) : State × Bool :=
  let idle := (jobsOf s q).isEmpty
  (modQueue q (fun x => { x with state := if idle then .disabled else .draining }) s, idle)

/-- `RESET`: every context of the queue is `FREE`, and the queue `DISABLED`. -/
def queueReset (q : Nat) (s : State) : State :=
  modQueue q (fun x => { x with state := .disabled })
    (modJob (fun x => { x with
      jobs := x.jobs.filter fun j => j.queue != q
      ctxs := smFilter (fun c _ => !queueOwns s q c) x.ctxs }) s)

/-! ### Register pages (R160, R161) -/

/-- `Q_STATE`'s code. -/
def QState.code : QState → Nat
  | .disabled => 0 | .enabled => 1 | .stopped => 2 | .draining => 3

/-- A 32-bit read of queue `q`'s page by a request that arrived on a port. -/
def queueRead (s : State) (p q off : Nat) : Nat :=
  let x := queueAt s q
  if queueP s q P.Q_PORT ≠ p then 0
  else if off = 0 then x.sqTail
  else if off = 4 then x.cqHead
  else if off = 8 then x.sqHead
  else if off = 12 then x.state.code + x.detail * 256
  else if off = 16 then x.tokens / 10 ^ 6
  else 0

/-- Jobs from `CQ_HEAD` to `SQ_TAIL`. -/
def outstanding (size tail head : Nat) : Nat := (tail + size - head % size) % size

/-- A write of `SQ_TAIL`: from another port it is counted, outside `ENABLED` discarded; a tail beyond the ring stops the
queue. -/
def writeTail (p q v : Nat) (s : State) : State :=
  let x := queueAt s q
  let size := queueP s q P.Q_SIZE
  let tail := v % 4096
  if portUp s p = false then s
  else if queueP s q P.Q_PORT ≠ p then bumpQueue q 2 s
  else if x.state ≠ .enabled then s
  else if size ≤ tail ∨ size ≤ outstanding size x.sqTail x.cqHead + (tail + size - x.sqTail) % size then queueStop q 1 s
  else modQueue q (fun y => { y with sqTail := tail }) s

/-- A write of `CQ_HEAD`. -/
def writeHead (p q v : Nat) (s : State) : State :=
  if portUp s p = false then s
  else if queueP s q P.Q_PORT ≠ p then bumpQueue q 2 s
  else if (queueAt s q).state ≠ .enabled then s
  else modQueue q (fun y => { y with cqHead := v % 4096 }) s

/-- A write of another word of a page: of `CQ_HEAD`'s by its register, else discarded; from another port it is counted. -/
def writePage (p q off v : Nat) (s : State) : State :=
  if off = 0 then writeTail p q v s
  else if off = 4 then writeHead p q v s
  else if portUp s p = false ∨ queueP s q P.Q_PORT = p then s
  else bumpQueue q 2 s

/-- A read of a word of a page is answered to the port it came through; from another port with zero. -/
def readPageWord (p q off : Nat) (s : State) : State :=
  answerPort p 2 (.word q off (queueRead s p q off)) none s

/-- The bucket gains a microsecond's tokens (R164). -/
def tokenRefill (q : Nat) (s : State) : State :=
  if (queueAt s q).state = .disabled then s
  else modQueue q (fun x => { x with
    tokens := min (queueP s q P.Q_BURST * 10 ^ 6) (x.tokens + queueP s q P.Q_RATE) }) s

/-! ### Descriptors and completion records (R162-R166) -/

/-- A field of a descriptor. -/
def jobF (d : BitVec 512) (lo w : Nat) : Nat := bitsOf d.toNat lo w
/-- Whether a descriptor names a context. -/
def jobHasCtx (d : BitVec 512) : Bool := d.getLsbD 62
/-- The context it names. -/
def jobCtx (d : BitVec 512) : Nat := jobF d 48 14

/-- The `DETAIL` of the `RANGE` with which a descriptor that is not well formed ends. -/
def jobMalformed (s : State) (q : Nat) (d : BitVec 512) : Option Nat :=
  let op := jobF d 0 8
  let reserved := decide (op = 0 ∨ 6 < op ∨ 3 < jobF d 8 4 ∨ 9 < jobF d 12 4) ||
    decide (op ≠ 1 ∧ op ≠ 3 ∧ jobF d 12 4 ≠ 0) || decide ((op = 3 ∨ op = 5) ∧ jobF d 8 4 ≠ 0) ||
    decide (jobF d 20 12 ≠ 0 ∨ jobF d 42 6 ≠ 0 ∨ jobF d 63 1 ≠ 0 ∨ jobF d 224 32 ≠ 0 ∨ jobF d 336 48 ≠ 0 ∨
      jobF d 448 64 ≠ 0) ||
    decide (op = 3 ∧ jobF d 162 30 ≠ 0) || decide (op = 5 ∧ (jobF d 128 64 ≠ 0 ∨ jobF d 192 32 ≠ 0))
  let len := jobF d 192 32
  let badLen := (decide (op = 1 ∨ op = 2) && d.getLsbD 18 && decide (len = 0 ∨ 4096 < len)) || decide (op = 3 ∧ len = 0) ||
    decide (op ≠ 6 ∧ (jobF d 320 16 = 0 ∨ 4096 < jobF d 320 16 ∨ jobF d 256 4 ≠ 0)) ||
    (jobHasCtx d && decide (jobF d 384 12 ≠ 0))
  if reserved then some 1
  else if badLen then some 3
  else if (jobHasCtx d && !queueOwns s q (jobCtx d)) || (decide (op = 5 ∨ op = 6) && !jobHasCtx d) then some 2
  else none

/-- A job's cost in tokens (R164). -/
def jobCost (d : BitVec 512) (listed : Nat) : Nat :=
  let op := jobF d 0 8
  if op = 1 ∨ op = 2 then 1 + (if d.getLsbD 18 then listed else jobF d 192 32) / 65536
  else if op = 3 then 1 + jobF d 192 32 / 16
  else 1

/-- A completion record (Table 6.6). -/
def completion (j : Job) (status detail : Nat) (check : Nat) : List Byte :=
  leBytes 32 (status + bNat j.phase * 2 ^ 8 + jobF j.desc 0 8 * 2 ^ 16 + detail * 2 ^ 24 + check * 2 ^ 32 +
    jobF j.desc 64 64 * 2 ^ 64 + min (2 ^ 40 - 1) j.inCount * 2 ^ 128 + min (2 ^ 40 - 1) j.outBytes * 2 ^ 168 +
    j.position % 2 ^ 40 * 2 ^ 208 + min 255 j.lost * 2 ^ 248)

/-- A posted write to the host of a queue. -/
def hostWrite (q addr : Nat) (bytes : List Byte) (s : State) : State :=
  answerPort (queueP s q P.Q_PORT) 0 (.dma addr bytes) none s

/-- A record written to its slot of the completion ring. -/
def writeRecord (j : Job) (status detail check : Nat) (s : State) : State :=
  hostWrite j.queue (queueP s j.queue P.Q_CQ_BASE + 32 * j.index) (completion j status detail check) s

/-- The `NOTIFY` message that follows a final record. -/
def jobNotify (j : Job) (s : State) : State :=
  if j.desc.getLsbD 17 then
    answerPort (queueP s j.queue P.Q_PORT) 0 (.interrupt (queueP s j.queue P.Q_VECTOR)) none s
  else s

/-- The `DETAIL` of the `RANGE` of a list whose entries are not well formed (R162): a length of 0. Reserved bits are ignored (00 R6). -/
def listFault (l : List (BitVec 128)) : Option Nat :=
  if l.any fun e => bitsOf e.toNat 64 32 == 0 then some 3
  else none

/-- Address and length of list entries. -/
def listEntries (l : List (BitVec 128)) : List (Nat × Nat) := l.map fun e => (bitsOf e.toNat 0 64, bitsOf e.toNat 64 32)

/-- The source bytes of a list. -/
def listBytes (l : List (BitVec 128)) : Nat := (listEntries l).foldl (fun a e => a + e.2) 0

/-- Whether a descriptor has its source in a list (R162). -/
def listsSource (d : BitVec 512) : Bool := decide (jobF d 0 8 = 1 ∨ jobF d 0 8 = 2) && d.getLsbD 18

/-- How a fetched descriptor ends at once: `RANGE` where it or its source list is not well formed, or the source is longer
than a stream may be (R163, R167), `FAULT` where the list could not be read. -/
def fetchFault (s : State) (q : Nat) (d : BitVec 512) (src : Option (List (BitVec 128))) : Option (Nat × Nat) :=
  match jobMalformed s q d with
  | some detail => some (0x06, detail)
  | none =>
    if listsSource d = false then none
    else match src with
      | none => some (0x0C, 1)
      | some l => match listFault l with
        | some detail => some (0x06, detail)
        | none => if 2 ^ 32 ≤ listBytes l then some (0x06, 3) else none

/-- Whether a source list as it was read is the one the descriptor announces. -/
def listWhole (d : BitVec 512) (src : Option (List (BitVec 128))) : Bool :=
  match src with
  | some l => !listsSource d || l.length == jobF d 192 32
  | none => true

/-- `SQ_HEAD` passes a descriptor. -/
def headPasses (q : Nat) (s : State) : State :=
  let size := queueP s q P.Q_SIZE
  modQueue q (fun x =>
    let h := (x.sqHead + 1) % size
    { x with sqHead := h, phase := if h = 0 then !x.phase else x.phase }) s

/-- The next descriptor is fetched with its source list (R163): `none` is a read that failed on the link. -/
def jobFetch (q : Nat) (desc : Option (BitVec 512)) (src : Option (List (BitVec 128))) (s : State) : State :=
  let x := queueAt s q
  if x.state ≠ .enabled ∨ x.sqHead = x.sqTail ∨ (jobAt s q x.sqHead).isSome ∨ s.ps.state = .entering ∨
      portUp s (queueP s q P.Q_PORT) = false then s
  else match desc with
    | none => queueStop q 2 s
    | some d =>
      let listed := match src with
        | some l => listBytes l
        | none => 0
      let j : Job := { queue := q, index := x.sqHead, phase := x.phase, desc := d, listed := listed }
      let cost := jobCost d listed
      if listWhole d src = false ∧ jobMalformed s q d = none then s
      else match fetchFault s q d src with
      | some e => headPasses q (jobNotify j (writeRecord j e.1 e.2 0 (bumpQueue q 2 s)))
      | none =>
        if x.tokens < cost * 10 ^ 6 then headPasses q (jobNotify j (writeRecord j 0x0B 1 0 (bumpQueue q 1 s)))
        else
          headPasses q (writeRecord j 0x01 0 0 (bumpQueue q 0
            (modQueue q (fun y => { y with tokens := y.tokens - cost * 10 ^ 6 })
              (modJob (fun y => { y with jobs := y.jobs ++ [j] }) s))))

/-! ### Starting a job (R163, R170, R171) -/

/-- Whether a job may start: every earlier job of its queue that names the same context, or with `FENCE` every earlier
job, has ended. -/
def mayStart (s : State) (j : Job) : Bool :=
  let earlier := (jobsOf s j.queue).takeWhile fun k => k.index != j.index
  j.stream.isNone && j.ended.isNone &&
    !(j.desc.getLsbD 16 && !earlier.isEmpty) &&
    !(jobHasCtx j.desc && earlier.any fun k => jobHasCtx k.desc && jobCtx k.desc == jobCtx j.desc)

/-- A job ends: its final record is due. -/
def jobEnds (j : Job) (status detail : Nat) (s : State) : State := putJob { j with ended := some (status, detail) } s

/-- The context check: `FREE` for a new stream. -/
def ctxRefused (s : State) (j : Job) : Bool := jobHasCtx j.desc && (smFind s.job.ctxs (jobCtx j.desc)).isSome

/-- The context a job names is `RUNNING`. -/
def ctxRun (j : Job) (s : State) : State :=
  if jobHasCtx j.desc then modJob (fun x => { x with ctxs := smSet x.ctxs (jobCtx j.desc) none }) s else s

/-- Bytes written into the entries left: the entries left after it, the writes, the bytes that did not fit. -/
def fillOuts : List (Nat × Nat) → List Byte → List (Nat × Nat) × List (Nat × List Byte) × List Byte
  | [], bs => ([], [], bs)
  | (a, n) :: rest, bs =>
    if bs.isEmpty then ((a, n) :: rest, [], [])
    else if bs.length < n then ((a + bs.length, n - bs.length) :: rest, [(a, bs)], [])
    else
      let g := fillOuts rest (bs.drop n)
      (g.1, (a, bs.take n) :: g.2.1, g.2.2)

/-- The pieces written, in order, while entries are left: entries left, writes, pieces done, pieces left. -/
def writePieces : List Piece → List (Nat × Nat) → List (Nat × Nat) × List (Nat × List Byte) × List Piece × List Piece
  | [], outs => (outs, [], [], [])
  | x :: xs, outs =>
    let g := fillOuts outs x.bytes
    if g.2.2.isEmpty then
      let r := writePieces xs g.1
      (r.1, g.2.1 ++ r.2.1, x :: r.2.2.1, r.2.2.2)
    else (g.1, g.2.1, [], { x with bytes := g.2.2 } :: xs)

/-- Where a stream stopped: for an export the page, else the first bit of the first symbol not yet output (Table 5.11).
In a compressed source that is a free value (05 R140). -/
def stoppedAt (t : Stream) (draw : Nat) : Nat :=
  if t.op = 1 then 8 * t.used + Config.freeBits draw % (8 * (t.source.length - t.used) + 1)
  else if t.op = 4 then 8 * (32976 - (t.pieces.foldl (fun a x => a + x.bytes.length) 0))
  else match t.pieces with
    | x :: _ => x.start
    | [] => t.next

/-- The source bytes consumed up to a bit offset: a byte of which a bit is consumed is consumed. -/
def consumed (t : Stream) (pos : Nat) : Nat := if t.op = 1 ∨ t.op = 2 then (pos + 7) / 8 else t.used

/-- The record of a decompressor error of an offload job: its code, offset and frame (05 R156). -/
def jobError (j : Job) (t : Stream) (e : Nat × Nat × Nat) (s : State) : State :=
  let d := j.queue % 4
  let n := if t.lodging < 4096 then t.lodging else 0
  let r := errorRecord e.1 e.2.1 (engineDrawn (144 + 16 * d) 16 s - 144) false n e.2.2 5
  logEvent 2 0xFFFF 1 none r (afterDraw (modComp (fun c => { c with
    counts := bump 32 c.counts (12 * d + (e.1 - 0x20)) 1
    last := smSet c.last d r }) s))

/-- An output list used up is an error that a decompressor reports (Table 5.11). -/
def exhaustedError (j : Job) (t : Stream) (pos : Nat) (s : State) : State :=
  if t.op = 2 then jobError j t (0x2A, pos, match t.pieces with | x :: _ => x.frame | [] => t.last.2.2) s else s

/-- A stream is written as far as the output list goes. With everything written the job ends as the stream does, or an
export waits for its next record; with output left over it ends `OUTPUT_EXHAUSTED`, its stream saved in its context. -/
def jobWrite (j : Job) (t : Stream) (s : State) : State :=
  let g := writePieces t.pieces j.outs
  let bytes := g.2.1.flatMap (·.2)
  let t1 := { t with pieces := g.2.2.2,
                     check := if t.op = 1 then t.check else checkAdd t.fmt t.check bytes,
                     total := t.total + bytes.length }
  let pages := if t.op = 3 then g.2.2.1.length else 0
  let j1 := { j with outs := g.1, outBytes := j.outBytes + bytes.length, inCount := j.inCount + pages
                     lost := j.lost + (g.2.2.1.filter (·.lost)).length, stream := some t1 }
  let s1 := forAll g.2.1 (fun w u => hostWrite j.queue w.1 w.2 u) s
  if g.2.2.2 ≠ [] ∨ (g.1 = [] ∧ t.op = 3 ∧ t.left ≠ 0) then
    let pos := stoppedAt t1 s1.fresh
    let used := consumed t1 pos
    let t2 := { t1 with used := used,
                        check := if t.op = 1 then checkAdd t.fmt t.check (slice t.used (used - t.used) t.source)
                                 else t1.check }
    let j2 := { j1 with position := pos, inCount := j1.inCount + (used - t.used), stream := some t2
                        saved := jobHasCtx j.desc }
    jobEnds j2 0x2A (if jobHasCtx j.desc then 1 else 0) (exhaustedError j2 t1 pos (onlyIf (t.op = 1) afterDraw s1))
  else if t.op = 3 ∧ t.left ≠ 0 then putJob j1 s1
  else
    let total := if t.op = 1 ∨ t.op = 2 then consumed t1 (if t.op = 1 then 8 * t.source.length else t.last.2.1) else t.used
    let t2 := { t1 with used := total,
                        check := if t.op = 1 then checkAdd t.fmt t.check (t.source.drop t.used) else t1.check }
    let j2 := { j1 with inCount := j1.inCount + (total - t.used), stream := some t2
                        position := if t.last.1 = 0 then 0 else t.last.2.1 }
    jobEnds j2 t.last.1 0 (onlyIf (t.last.1 ≠ 0) (jobError j2 t2 t.last) s1)

/-- The output list of a job as it was read; a list that failed on the link ends the job. -/
def withOuts (j : Job) (outs : Option (List (BitVec 128))) (s : State) (k : Job → State) : State :=
  match outs with
  | none => jobEnds j 0x0C 4 s
  | some l =>
    if l.length ≠ jobF j.desc 320 16 then s
    else match listFault l with
      | some detail => jobEnds j 0x06 detail s
      | none => k { j with outs := listEntries l }

/-- Whether the dictionary a job uses may not be used (R163): not `INSTALLED`, or not the lodging's. -/
def jobDictRefused (s : State) (j : Job) (x : Nat) : Bool :=
  (dictAt s x).state != .installed || (dictAt s x).owner != queueP s j.queue P.Q_LODGING

/-- How many engines of a class serve. -/
def enginesServing (base size : Nat) (s : State) : Nat := ((below size).filter fun i => unitAdmits s (base + i)).length

/-- A job ends `FAULT` of an engine (R169): with it the engine that leaves service, one of a die's compressors or
decompressors. -/
def engineFails (d : Nat) (f : EngineFault) (j : Job) (s : State) : State × Option Nat :=
  let u := match f with
    | .coder => engineDrawn (112 + 8 * d) 8 s
    | .decoder => engineDrawn (144 + 16 * d) 16 s
  (jobEnds j 0x0C 2 (afterDraw s), some u)

/-! ### COMPRESS (R167) -/

/-- One exported frame of source bytes: at levels 1 to 9 what the compressor makes of it where the `STORED` form is not
shorter (05 R138, R142). -/
def encodeFrame (level : Nat) (dict : Option (Nat × DictBody)) (defaults : Bool) (src : List Byte) : List Byte :=
  if level = 0 then storedFrame src
  else
    let image := maeriImage level dict defaults src
    if 8 + src.length < image.length then storedFrame src else image ++ leBytes 4 (crc32c src).toNat

/-- A source cut into frames of 4,096 bytes. -/
def encodeFrames (level : Nat) (dict : Option (Nat × DictBody)) (defaults : Bool) : Nat → List Byte → List Byte
  | 0, _ => []
  | k + 1, src =>
    if src.isEmpty then []
    else encodeFrame level dict defaults (src.take 4096) ++ encodeFrames level dict defaults k (src.drop 4096)

/-- What a compression puts out. -/
def compressed (fmt level : Nat) (dict : Option (Nat × DictBody)) (defaults : Bool) (src : List Byte) : List Byte :=
  if fmt = 0 then encodeFrames level dict defaults (src.length / 4096 + 1) src
  else wrapStream fmt level src (rawStream level src)

/-- Whether frames with a dictionary may use its default codes (05 R142). -/
def defaultTables (s : State) : Bool := pnum s P.COMP_DEFAULT_TABLES == 1

/-- The source bytes a descriptor announces. -/
def sourceLen (j : Job) : Nat := if j.desc.getLsbD 18 then j.listed else jobF j.desc 192 32

/-- A `COMPRESS` job starts; a decompressor of the die decodes what the compressor puts out. The second answer is an engine
that leaves service (R169). -/
def jobCompress (q i : Nat) (src : Option (List Byte)) (outs : Option (List (BitVec 128))) (bad : Option EngineFault)
    (s : State) : State × Option Nat :=
  match jobAt s q i with
  | none => (s, none)
  | some j =>
    let level := jobF j.desc 12 4
    let fmt := jobF j.desc 8 4
    let useDict := decide (fmt = 0) && j.desc.getLsbD 19 && decide (4 ≤ level)
    let x := if useDict then jobF j.desc 32 10 else 1024
    if jobF j.desc 0 8 ≠ 1 ∨ mayStart s j = false ∨ engineThere (112 + 8 * (q % 4)) 8 s = false ∨
        engineThere (144 + 16 * (q % 4)) 16 s = false then (s, none)
    else if ctxRefused s j then (jobEnds j 0x03 1 s, none)
    else if useDict ∧ jobDictRefused s j x then (jobEnds j 0x0B 2 s, none)
    else match src with
      | none => (jobEnds j 0x0C 1 s, none)
      | some b =>
        if b.length ≠ sourceLen j then (s, none)
        else if 2 ^ 32 ≤ b.length then (jobEnds j 0x06 3 s, none)
        else match bad with
        | some f => engineFails (q % 4) f j s
        | none =>
          (withOuts j outs s fun j1 =>
            let s1 := useDecompressor (q % 4) <| useCompressor (q % 4) (onlyIf useDict (storeLoad (q % 4) x 0) s)
            let body := if useDict then dictFor s1 (q % 4) (queueP s q P.Q_LODGING) x else none
            let out := compressed fmt level (body.map fun b => (x, b)) (defaultTables s1) b
            let t : Stream := { op := 1, fmt := fmt, level := level, lodging := queueP s q P.Q_LODGING, source := b
                                dict := x, pieces := if out.isEmpty then [] else [⟨0, out, false, 0⟩], check := checkStart fmt }
            jobWrite { j1 with stream := some t } t (ctxRun j s1), none)

/-! ### DECOMPRESS (R167, R168) -/

/-- The pieces of a flow of frame `k`: one for each symbol that produced output. -/
def flowPieces (k : Nat) (f : Flow) : List Piece :=
  (f.syms.reverse.foldl (fun (q : List Piece × List Byte) e =>
    (q.1 ++ [⟨e.1, q.2.take e.2, false, k⟩], q.2.drop e.2)) ([], f.out)).1

/-- The dictionary that the frame at the head of an input names is loaded into the die's store where the lodging may use it
(05 R145). -/
def frameLoads (d n : Nat) (bs : List Byte) (s : State) : State :=
  match parseHeader bs with
  | some h => onlyIf (decide (h.mode = 2 ∧ 8 ≤ bs.length) && dictUsable s n h.dict) (storeLoad d h.dict 0) s
  | none => s

/-- Concatenated Maeri frames of a lodging, decoded on die `d`, until the source ends: pieces, how it ends, the state after. -/
def maeriStream (d n : Nat) : Nat → Nat → Nat → List Byte → State → List Piece × (Nat × Nat × Nat) × State
  | 0, base, k, _, s => ([], (0, 8 * base, k), s)
  | fuel + 1, base, k, bs, s =>
    if bs.isEmpty then ([], (0, 8 * base, k), s)
    else
      let s1 := frameLoads d n bs s
      match flowExported (dictFor s1 d n) base bs with
      | (f, .inl (c, o)) => (flowPieces k f, (c, o, k), s1)
      | (f, .inr len) =>
        let r := maeriStream d n fuel (base + len) (k + 1) (bs.drop len) s1
        (flowPieces k f ++ r.1, r.2)

/-- A source decoded in its format. -/
def decoded (fmt d n : Nat) (bs : List Byte) (s : State) : List Piece × (Nat × Nat × Nat) × State :=
  if fmt = 0 then maeriStream d n (bs.length + 1) 0 0 bs s
  else match (if fmt = 1 then flowDeflate 0 bs else if fmt = 2 then flowZlib bs else flowGzip bs) with
    | (f, .err c o) => (flowPieces 0 f, (c, o, 0), s)
    | (f, .ok _ r) => (flowPieces 0 f, (0, r.pos, 0), s)

/-- A `DECOMPRESS` job starts; raw DEFLATE runs on two decompressors. The second answer is a decompressor that leaves service
(R169). -/
def jobDecompress (q i : Nat) (src : Option (List Byte)) (outs : Option (List (BitVec 128))) (bad : Bool) (s : State) :
    State × Option Nat :=
  match jobAt s q i with
  | none => (s, none)
  | some j =>
    let fmt := jobF j.desc 8 4
    let n := queueP s q P.Q_LODGING
    if jobF j.desc 0 8 ≠ 2 ∨ mayStart s j = false ∨
        enginesServing (144 + 16 * (q % 4)) 16 s < (if fmt = 1 then 2 else 1) then (s, none)
    else if ctxRefused s j then (jobEnds j 0x03 1 s, none)
    else match src with
      | none => (jobEnds j 0x0C 1 s, none)
      | some b =>
        if b.length ≠ sourceLen j then (s, none)
        else if 2 ^ 32 ≤ b.length then (jobEnds j 0x06 3 s, none)
        else if bad then engineFails (q % 4) .decoder j s
        else
          (withOuts j outs s fun j1 =>
            let g := decoded fmt (q % 4) n b s
            let t : Stream := { op := 2, fmt := fmt, lodging := n, pieces := g.1, last := g.2.1, check := checkStart fmt }
            jobWrite { j1 with stream := some t } t (useDecompressor (q % 4) (ctxRun j g.2.2)), none)

/-! ### EXPORT and EXPORT_DICT (R173-R175) -/

/-- Where the pages of an export end: those its stream has left, else those its descriptor names. -/
def exportEnd (j : Job) (t : Option Stream) : Nat :=
  match t with
  | some t => if t.op = 3 then t.next + t.left else 0
  | none => if jobF j.desc 0 8 = 3 then jobF j.desc 128 34 + jobF j.desc 192 32 else 0

/-- Why an export may not run: status and `DETAIL`. -/
def exportRefused (s : State) (j : Job) (t : Option Stream) : Option (Nat × Nat) :=
  let n := queueP s j.queue P.Q_LODGING
  let p := queueP s j.queue P.Q_PORT
  if 4096 ≤ n then some (0x03, 3)
  else if lodgeLive s n = false ∨ (hostPorts s n).contains p = false then some (0x0B, 4)
  else if lodgeAttr s n 0 ∧ ideSecure s p = false then some (0x0B, 3)
  else if lodgeP s n P.LOGICAL_SIZE * 65536 < exportEnd j t then some (0x06, 3)
  else none

/-- An export record's header (Table 6.9). -/
def exportHeader (kind len page n : Nat) : List Byte :=
  leBytes 16 (0xE7A1 + kind * 2 ^ 16 + len * 2 ^ 32 + page * 2 ^ 64 + n * 2 ^ 98)

/-- An export record. -/
def exportRecord (kind page n : Nat) (body : List Byte) : Piece :=
  ⟨page, exportHeader kind body.length page n ++ body, kind == 2 || kind == 4, 0⟩

/-- An `EXPORT` job starts. -/
def jobExport (q i : Nat) (outs : Option (List (BitVec 128))) (s : State) : State :=
  match jobAt s q i with
  | none => s
  | some j =>
    if jobF j.desc 0 8 ≠ 3 ∨ mayStart s j = false then s
    else if ctxRefused s j then jobEnds j 0x03 1 s
    else match exportRefused s j j.stream with
      | some e => jobEnds j e.1 e.2 s
      | none => withOuts j outs s fun j1 =>
        let t : Stream := { op := 3, level := jobF j.desc 12 4, lodging := queueP s q P.Q_LODGING
                            next := jobF j.desc 128 34, left := jobF j.desc 192 32 }
        putJob { j1 with stream := some t } (ctxRun j s)

/-- A dictionary's record (05 Table 5.6). -/
def dictRecord (s : State) (x : Nat) : List Byte :=
  let r := dictRec s x
  if (dictAt s x).state = .free ∨ r.lengths = [] then List.replicate 192 0#8
  else leBytes 192 (x + 1 * 2 ^ 16 + r.crc * 2 ^ 32 + (dictAt s x).owner * 2 ^ 64 +
    (r.lengths.zip (below 321)).foldl (fun a e => a + e.1 * 2 ^ (80 + 4 * e.2)) 0)

/-- An `EXPORT_DICT` job starts. -/
def jobExportDict (q i : Nat) (outs : Option (List (BitVec 128))) (s : State) : State :=
  match jobAt s q i with
  | none => s
  | some j =>
    let x := jobF j.desc 32 10
    if jobF j.desc 0 8 ≠ 4 ∨ mayStart s j = false then s
    else if ctxRefused s j then jobEnds j 0x03 1 s
    else if 4096 ≤ queueP s q P.Q_LODGING then jobEnds j 0x03 3 s
    else if jobDictRefused s j x then jobEnds j 0x0B 2 s
    else match exportRefused s j j.stream with
      | some e => jobEnds j e.1 e.2 s
      | none =>
        let s1 := storeLoad (q % 4) x 0 s
        match dictFor s1 (q % 4) (queueP s q P.Q_LODGING) x with
        | none => jobEnds j 0x0B 2 s1
        | some body => withOuts j outs s1 fun j1 =>
          let t : Stream := { op := 4, lodging := queueP s q P.Q_LODGING, dict := x
                              pieces := [exportRecord 5 x (queueP s q P.Q_LODGING) (dictRecord s1 x ++ body.content)] }
          jobWrite { j1 with stream := some t } t (ctxRun j s1)

/-- The record of a page as it stands, built on its home die (R174): none where the page is being moved. -/
def pageRecord (n p level : Nat) (s : State) : Option Piece × State :=
  let d := homeDie n p
  match checkedDesc n p (settlePage n p s) with
  | none => (some (exportRecord 2 p n []), s)
  | some (x, s1) =>
    match x.state with
    | .moving => (none, s)
    | .unmapped => (some (exportRecord 3 p n []), s1)
    | .zero => (some (exportRecord 1 p n []), s1)
    | .lost => (some (exportRecord 2 p n []), s1)
    | .packed =>
      let g := packedRead 5 n p x s1
      (match g.1, pageKeys g.2 n p x.phase with
       | some _, some key =>
         let image := (runCrypt false key p (dramBytes g.2 (d * 2 ^ 44 + x.loc * 256) (256 * slotsOf x.len))).take x.len
         (some (exportRecord 0 p n (image ++ leBytes 4 x.crc)), g.2)
       | _, _ => (some (exportRecord 2 p n []), g.2))
    | .plain =>
      let g := readPage 5 n p x s1
      (match g.1 with
       | none => (some (exportRecord 2 p n []), g.2)
       | some (b, bad) =>
         let dict := namedDict g.2 n
         let use := decide (4 ≤ level) && dictUsable g.2 n dict && (dictAt g.2 dict).state == .installed
         let s2 := useDecompressor d (useCompressor d (onlyIf use (storeLoad d dict 0) g.2))
         let clean := (below 64).flatMap fun i => if bad.contains i then List.replicate 64 0#8 else slice (64 * i) 64 b
         let body := if use then dictFor s2 d n dict else none
         let frame := encodeFrame level (body.map fun b => (dict, b)) (defaultTables s2) clean
         let mask := bad.foldl (fun a i => a + 2 ^ i) 0
         (some (if bad = [] then exportRecord 0 p n frame else exportRecord 4 p n (leBytes 8 mask ++ frame)), s2))

/-- Whether the export of a page runs its lines through a compressor (R174). -/
def reencodes (s : State) (n p : Nat) : Bool :=
  match descAt s n p with
  | some x => x.state == .plain
  | none => false

/-- The lines that the export of a page reads. -/
def linesRead (s : State) (n p : Nat) : Nat :=
  match descAt s n p with
  | some x => if x.state = .packed then 4 * slotsOf x.len else if x.state = .plain then 64 else 0
  | none => 0

/-- Whether the export of a page that is encoded anew waits for a compressor or a decompressor of its home die (R169). -/
def exportWaits (s : State) (n p : Nat) : Bool :=
  reencodes s n p && !(engineThere (112 + 8 * homeDie n p) 8 s && engineThere (144 + 16 * homeDie n p) 16 s)

/-- The export of one page is ordered at its home arbiter while the conditions of R173 hold: lines a host holds in `E` are asked
for first (08 R222), and the record waits to cross to the queue die. The second answer is an engine of the page's home die that
leaves service. -/
def exportPage (q i p : Nat) (bad : Option EngineFault) (s : State) : State × Option Nat :=
  match jobAt s q i with
  | none => (s, none)
  | some j => match j.stream with
    | none => (s, none)
    | some t =>
      if t.op ≠ 3 ∨ j.ended.isSome ∨ p < t.next ∨ t.next + t.left ≤ p ∨ (smFind t.built p).isSome ∨
          (smFind t.arrived p).isSome ∨ pageSnooped s t.lodging p ∨ sliceServing s (homeSlice t.lodging p) = false then (s, none)
      else if engineMissing s t.lodging p ∨ exportWaits s t.lodging p ∨ paceOpen s (homeDie t.lodging p) = false ∨
          pageStopped s t.lodging p then (s, none)
      else match exportRefused s j j.stream with
      | some e => (jobEnds { j with position := t.next } e.1 e.2 s, none)
      | none =>
      if linesAsked s t.lodging p ≠ [] ∧ t.asked.contains p = false then
        (snoopPageNow t.lodging p (putJob { j with stream := some { t with asked := t.asked ++ [p] } } s), none)
      else match (if reencodes s t.lodging p then bad else none) with
      | some f => engineFails (homeDie t.lodging p) f { j with position := t.next } s
      | none =>
        let g := pageRecord t.lodging p t.level s
        match g.1 with
        | none => (s, none)
        | some r => (putJob { j with stream := some { t with
            built := smSet t.built p r, asked := t.asked.filter (· ≠ p) } }
          (sampleHome (homeDie t.lodging p) 5 (queueP s q P.Q_LABEL) (linesRead s t.lodging p) g.2), none)

/-- The records that can be placed from the next page on. -/
def placeRecords : Nat → Stream → Stream
  | 0, t => t
  | k + 1, t =>
    match smFind t.arrived t.next with
    | none => t
    | some r => placeRecords k { t with
        pieces := t.pieces ++ [r], arrived := smErase t.arrived t.next, next := t.next + 1, left := t.left - 1 }

/-- A finished record reaches the queue die, and every record that is next in page order is placed while the conditions of
R173 hold. -/
def exportArrive (q i p : Nat) (s : State) : State :=
  match jobAt s q i with
  | none => s
  | some j => match j.stream with
    | none => s
    | some t => match smFind t.built p with
      | none => s
      | some r =>
        if j.ended.isSome then s
        else match exportRefused s j j.stream with
        | some e => jobEnds { j with position := t.next } e.1 e.2 s
        | none =>
          let t1 := { t with built := smErase t.built p, arrived := smSet t.arrived p r }
          let t2 := placeRecords (t1.arrived.length) t1
          if t2.pieces = [] then putJob { j with stream := some t2 } s
          else jobWrite { j with stream := some t2 } t2 s

/-! ### RESUME and RELEASE_CTX (R171, R172) -/

/-- Why the stream of a `SAVED` context may not go on (R163): its dictionary, or the conditions of R173. -/
def resumeRefused (s : State) (j : Job) (t : Stream) : Option (Nat × Nat) :=
  if t.dict < 1024 ∧ jobDictRefused s j t.dict then some (0x0B, 2)
  else if 3 ≤ t.op then exportRefused s j (some t) else none

/-- A `RESUME` job starts and takes its context to `RUNNING`: the save area is read back and compared; `none` is a read that
failed on the link. However the job ends but `OUTPUT_EXHAUSTED`, the context becomes `FREE` with it (R171). -/
def jobResume (q i : Nat) (area : Option (List Byte)) (outs : Option (List (BitVec 128))) (s : State) : State :=
  match jobAt s q i with
  | none => s
  | some j =>
    if jobF j.desc 0 8 ≠ 5 ∨ mayStart s j = false then s
    else match smFind s.job.ctxs (jobCtx j.desc) with
      | some (some c) =>
        let r := { j with stream := some c.stream }
        let s1 := ctxRun j s
        (match resumeRefused s j c.stream with
         | some e => jobEnds r e.1 e.2 s1
         | none => match area with
           | none => jobEnds r 0x0C 1 s1
           | some a =>
             if crc32c a ≠ c.crc ∨ a.length ≠ 131072 then
               jobEnds { r with stream := some { c.stream with pieces := [] } } 0x0C 3 s1
             else withOuts r outs s1 fun j1 =>
               if c.stream.pieces = [] then putJob j1 s1 else jobWrite j1 c.stream s1)
      | _ => jobEnds j 0x03 2 s

/-- A `RELEASE_CTX` job: a `SAVED` or `FREE` context is `FREE`. -/
def jobRelease (q i : Nat) (s : State) : State :=
  match jobAt s q i with
  | none => s
  | some j =>
    if jobF j.desc 0 8 ≠ 6 ∨ mayStart s j = false then s
    else match smFind s.job.ctxs (jobCtx j.desc) with
      | some none => jobEnds j 0x03 1 s
      | _ => jobEnds j 0x00 0 (ctxFree (jobCtx j.desc) s)

/-! ### The end of a job (R166) -/

/-- The save area's 128 KiB: Ouvyth-defined, opaque (R172), so free. -/
def saveArea (draw : Nat) : List Byte := fit 0#8 131072 (Config.standardPayload 0x5A draw)

/-- The final record is written after everything the job wrote, then the `NOTIFY` message. The context is `FREE`, or
`SAVED` with the stream; a draining queue without jobs is `DISABLED`. -/
def jobComplete (q i : Nat) (s : State) : State :=
  match jobAt s q i with
  | none => s
  | some j => match j.ended with
    | none => s
    | some (status, detail) =>
      let check := match j.stream with
        | some t => checkValue t.fmt t.check
        | none => 0
      let ran := jobHasCtx j.desc && j.stream.isSome
      let area := saveArea s.fresh
      let s1 := match j.saved, j.stream with
        | true, some t => afterDraw (modJob (fun x => { x with
            ctxs := smSet x.ctxs (jobCtx j.desc) (some ⟨t, jobF j.desc 384 64, crc32c area⟩) })
            (hostWrite q (jobF j.desc 384 64) area s))
        | _, _ => if ran then ctxFree (jobCtx j.desc) s else s
      let s2 := modJob (fun x => { x with jobs := x.jobs.filter fun k => !(k.queue == q && k.index == i) })
        (jobNotify j (writeRecord j status detail check s1))
      let s3 := bumpQueue q (if status = 0 then 3 else if status = 0x2A then 5 else 4) s2
      if (queueAt s3 q).state = .draining ∧ jobsOf s3 q = [] then
        cmdEnd q P.Q_CMD 0x00 0 (modQueue q (fun x => { x with state := .disabled }) s3)
      else s3

/-! ### Other events (R176) -/

/-- A lodging's destruction reaches step 1: its running exports end, saved contexts of its exports are `FREE`. -/
def exportsEnd (n : Nat) (s : State) : State :=
  let gone (t : Stream) : Bool := t.lodging == n && decide (t.op = 3 ∨ t.op = 4)
  modJob (fun x => { x with
    jobs := x.jobs.map fun j => match j.stream, j.ended with
      | some t, none => if gone t then { j with position := t.next, ended := some (0x0B, 5) } else j
      | some t, some (0x2A, _) => if gone t then { j with ended := some (0x0B, 5), saved := false } else j
      | _, _ => j
    ctxs := smFilter (fun _ c => match c with | some v => !gone v.stream | none => true) x.ctxs }) s

/-- At exit from `NIGHT` every queue is `DISABLED` and every context `FREE`; `Q_COUNTS` and the indices are VOLATILE. -/
def offloadAtExit (s : State) : State :=
  forAll (s.job.queues.map (·.1)) (fun q => cmdEnd q P.Q_CMD 0x0B 0) (modJob (fun _ => {}) s)

/-! ### Commands -/

/-- CQ_HEAD (R160). -/
def execCqHead (p : PortId) (q : QueueId) (v : BitVec 32) (s : State) : Out := .next (writeHead p.val q.val v.toNat s)
/-- JOB_FETCH (R163). -/
def execJobFetch (q : QueueId) (desc : Option (BitVec 512)) (src : Option (List (BitVec 128))) (s : State) : Out :=
  .next (jobFetch q.val desc src s)
/-- TOKEN_REFILL (R164). -/
def execTokenRefill (q : QueueId) (s : State) : Out := .next (tokenRefill q.val s)
/-- EXPORT (R173). -/
def execExportJob (q : QueueId) (i : Fin 4096) (outs : Option (List (BitVec 128))) (s : State) : Out :=
  .next (jobExport q.val i.val outs s)
/-- EXPORT_DICT (R175). -/
def execExportDict (q : QueueId) (i : Fin 4096) (outs : Option (List (BitVec 128))) (s : State) : Out :=
  .next (jobExportDict q.val i.val outs s)
/-- RESUME (R171). -/
def execResume (q : QueueId) (i : Fin 4096) (area : Option (List Byte)) (outs : Option (List (BitVec 128))) (s : State) :
    Out := .next (jobResume q.val i.val area outs s)
/-- RELEASE_CTX (R171). -/
def execReleaseCtx (q : QueueId) (i : Fin 4096) (s : State) : Out := .next (jobRelease q.val i.val s)
/-- EXPORT_RECORD_ARRIVE (R174). -/
def execExportRecordArrive (q : QueueId) (i : Fin 4096) (page : BitVec 34) (s : State) : Out :=
  .next (exportArrive q.val i.val page.toNat s)
/-- JOB_COMPLETE (R166). -/
def execJobComplete (q : QueueId) (i : Fin 4096) (s : State) : Out := .next (jobComplete q.val i.val s)

end Sys2Proof.Machine
end

