-- ==== Sys2Proof/Machine/Ports.lean ====
section
/-! DEFINITION. Ports, their resets and virtual switch bindings (09 R240-R251, R258-R264). -/

namespace Sys2Proof.Machine

/-! ### Lanes, roles (R240-R243) -/

/-- The lanes of a controller under its group's bifurcation code (Table 9.1). -/
def portLanes (s : State) (p : Nat) : Nat :=
  nth 0 (nth [] [[16, 0, 0, 0], [8, 0, 8, 0], [8, 0, 4, 4], [4, 4, 4, 4]] (pnum s (P.SW_BIFURCATION + p / 4))) (p % 4)

/-- Whether any vPPB of a virtual switch is bound. -/
def vcsBound (s : State) (v : Nat) : Bool := s.sw.vcs.any fun e => e.1 / 32 == v

/-- Whether a USP must keep its role: a lodging, a queue or `FM_PORT` names it (R243). -/
def portNamed (s : State) (p : Nat) : Bool :=
  (liveLodges s).any (fun n => (hostPorts s n).contains p) || (boundQueues s).any (fun q => queueP s q P.Q_PORT == p) ||
    pnum s P.FM_PORT == p

/-- The status with which a `PORT_ROLE` change is refused. -/
def roleRefused (s : State) (p new : Nat) : Option Nat :=
  let old := portRole s p
  let link := (portAt s p).link
  if new = old then none
  else if link ≠ .off ∧ link ≠ .disabled then some 0x03
  else if old = 1 ∧ (portNamed s p || vcsBound s p) then some 0x03
  else if old = 2 ∧ (s.sw.vcs.any fun e => e.2 == p) then some 0x03
  else if new = 2 ∧ 32 ≤ ((below 64).filter fun q => q != p && portRole s q == 2).length then some 0x0B
  else none

/-- A role has been committed: a USP's vPPB 0 is bound to the IME, and a port with a role trains (R248). -/
def roleApplied (p old : Nat) (s : State) : State :=
  let new := portRole s p
  if new = old then s
  else
    let s1 := modPortAt p (fun x => { x with
      link := if new = 0 then .off else if x.link = .disabled then .disabled else .training, width := 0, rate := 0 }) s
    if new = 1 then modSw (fun w => { w with vcs := smSet w.vcs (32 * p) 0x40 }) s1 else s1

/-! ### Bindings (R248-R250) -/

/-- `SW_VCS_MAP`'s record of a vPPB: 0xFE while an unbind is armed. -/
def vcsShown (s : State) (v b : Nat) : Nat := if (smFind s.sw.armed (32 * v + b)).isSome then 0xFE else vppb s v b

/-- `PORT_BINDING`: VCS and vPPB, or unbound. -/
def portBinding (s : State) (p : Nat) : Nat :=
  match s.sw.vcs.find? fun e => e.2 == p with
  | some e => e.1 / 32 + e.1 % 32 * 64
  | none => 0x8000

/-- A vPPB tells the host of its virtual switch something. -/
def vppbTell (v b what : Nat) (s : State) : State := answerPort v 0 (.slot b what) none s

/-- The status with which a bind command is refused (R249, R250): code, VCS, vPPB, target. -/
def bindRefused (s : State) (code v b t : Nat) : Option Nat :=
  let at_ := vppb s v b
  if code = 0 ∨ 4 < code ∨ 63 < v ∨ 31 < b ∨ (code = 1 ∧ 63 < t ∧ t ≠ 0x40) then some 0x06
  else if code = 1 then
    (if portRole s v ≠ 1 ∨ at_ ≠ 0xFF then some 0x03
     else if t < 64 ∧ (portRole s t ≠ 2 ∨ s.sw.vcs.any fun e => e.2 == t) then some 0x03
     else if t = 0x40 ∧ (below 32).any (fun c => vppb s v c == 0x40) then some 0x03
     else none)
  else if at_ = 0xFF then some 0x03
  else if at_ = 0x40 ∧ portNamed s v then some 0x03
  else if code ≠ 4 ∧ (smFind s.sw.armed (32 * v + b)).isSome then some 0x03
  else none

/-- `BIND`: the vPPB reports a presence change; a DSP whose link is down is an empty slot until the link comes up. -/
def bindStart (v b t : Nat) (s : State) : State :=
  onlyIf (t == 0x40 || (portAt s t).link == .up) (vppbTell v b 1) (modSw (fun w => { w with vcs := smSet w.vcs (32 * v + b) t }) s)

/-- An unbind takes effect. -/
def unbindNow (v b : Nat) (s : State) : State :=
  let t := vppb s v b
  vppbTell v b 0 (modSw (fun w => { w with
    vcs := smErase w.vcs (32 * v + b)
    armed := smErase w.armed (32 * v + b)
    routed := w.routed.filter fun q => !(q.1 == t || q.2.1 == t) }) s)

/-! ### Ports going down (R258-R260) -/

/-- The traffic through a DSP ends (R260): reads return poison, non-posted CXL.io requests complete with Unsupported
Request, writes are not completed, and the fault is reported. -/
def dspTrafficEnds (p : Nat) (s : State) : State :=
  let open_ := s.sw.routed.filter fun q => q.2.1 == p
  let s1 := modSw (fun w => { w with routed := w.routed.filter fun q => !(q.2.1 == p || q.1 == p) }) (flushEgress p s)
  let s2 := forAll open_ (fun q t =>
    if q.2.2.1 = 0 then answerPort q.1 6 (.data q.2.2.2 0#512 true) none (answerPort q.1 5 (.cmp q.2.2.2 0) none t)
    else if q.2.2.1 = 10 then answerPort q.1 2 (.unsupported q.2.2.2) none t
    else t) s1
  let s3 := match s.sw.vcs.find? fun e => e.2 == p with
    | some e => onlyIf (pnum s (P.DSP_DPC + 256 * p) == 1) (modPortAt p fun x => { x with dpc := true })
        (putEvent (e.1 / 32) 2 (.vendor 9 p) (vppbTell (e.1 / 32) (e.1 % 32) 3 s2))
    | none => s2
  logEvent 10 p 2 none 0 s3

/-- What a port's link leaves behind when it goes down. -/
def linkGone (p : Nat) (s : State) : State :=
  gbDie (p / 16) (3200 + p) 1 (ideClear p (modPortAt p (fun x => { x with
    link := .down, width := 0, rate := 0, inL1 := false, linkCounts := bump 64 x.linkCounts 1 1 }) s))

/-- Unbinds that wait for a DSP's link to go down take effect. -/
def armedTake (p : Nat) (s : State) : State :=
  forAll ((s.sw.armed.filter fun e => e.2.1 == 2 && e.2.2 == p).map (·.1)) (fun k t => unbindNow (k / 32) (k % 32) t) s

/-- A port goes down (R258): a USP's traffic ends as Table 9.8 gives, a DSP's as R260 gives. -/
def portGoesDown (p : Nat) (s : State) : State :=
  if (portAt s p).link = .training then modPortAt p (fun x => { x with link := .down }) s
  else if (portAt s p).link ≠ .up then s
  else
    let s1 := linkGone p s
    let s2 := if portRole s p = 1 then
        queuesDown p (portAbsent p (flushEgress p
          (modSw (fun w => { w with routed := w.routed.filter fun q => !(q.1 == p || q.2.1 == p) }) s1)))
      else armedTake p (dspTrafficEnds p s1)
    recomputeD s2

/-- A port comes up at a width and rate (R242): a host that relinks is a new agent (08 R236). A link that comes up out of
containment has been released by its host (log 154). -/
def linkUp (p width rate : Nat) (s : State) : State :=
  let x := portAt s p
  let fits := (width = 1 ∨ width = 2 ∨ width = 4 ∨ width = 8 ∨ width = 16) ∧ width ≤ portLanes s p ∧ 1 ≤ rate ∧
    rate ≤ pnum s (P.PORT_MAX_RATE + 256 * p) ∧ rate ≤ pnum s (P.PS_SERDES_CAP + p / 16)
  if ¬ fits ∨ portRole s p = 0 ∨ lcState s = 4 ∨ x.perstOut ∨ unitServes s p = false then s
  else if x.link = .up then recomputeD (modPortAt p (fun y => { y with width := width, rate := rate }) s)
  else if x.link ≠ .training ∧ x.link ≠ .down then s
  else
    let s0 := if x.link = .down then portVotesRun s else s
    let s1 := modPortAt p (fun y => { y with
      link := .up, width := width, rate := rate, inL1 := false, dpc := false, linkCounts := bump 64 y.linkCounts 0 1 }) s0
    let s2 := if s1.coh.absent.contains p ∨ s1.coh.dying.contains p then deadAgent p (!s1.coh.dying.contains p) s1 else s1
    let s3 := match s2.sw.vcs.find? fun e => e.2 == p with
      | some e => if portRole s2 p = 2 then vppbTell (e.1 / 32) (e.1 % 32) 1 s2 else s2
      | none => s2
    recomputeD s3

/-! ### Port resets (R262, R263) -/

/-- The IME view of a virtual switch is reset (FLR): view registers to their defaults, queues stopped; event logs and
accepted extents are kept. -/
def viewReset (v : Nat) (s : State) : State :=
  queuesDown v (modPortAt v (fun x => { x with
    hdmA := smFilter (fun k _ => decide (k < 8)) x.hdmA
    hdmB := smFilter (fun k _ => decide (k < 8)) x.hdmB }) s)

/-- A reset of a USP by its host (Table 9.9): link down, the registers of the virtual switch to their defaults, Hot Reset
to every bound DSP, each IME view reset; bindings are kept. -/
def hostReset (p : Nat) (s : State) : State :=
  if portRole s p ≠ 1 then s
  else
    let s1 := viewReset p (modPortAt p (fun x => { x with hdmA := [], hdmB := [] }) (portGoesDown p s))
    forAll ((s1.sw.vcs.filter fun e => decide (e.1 / 32 = p ∧ e.2 < 64)).map (·.2)) portGoesDown s1

/-- A Secondary Bus Reset on a vPPB. -/
def busReset (v b : Nat) (s : State) : State :=
  let t := vppb s v b
  if t < 64 then portGoesDown t s else if t = 0x40 then viewReset v s else s

/-! ### PORT_CMD (R264) -/

/-- The status with which a `PORT_CMD` is refused. -/
def portCmdRefused (s : State) (p code : Nat) : Option Nat :=
  let link := (portAt s p).link
  if code = 0 ∨ 6 < code then some 0x06
  else if portRole s p = 0 ∨ (4 ≤ code ∧ portRole s p ≠ 2) then some 0x03
  else if code = 2 ∧ link ≠ .disabled then some 0x03
  else if code = 3 ∧ link ≠ .up then some 0x03
  else none

/-- A port is disabled: its link goes down and is held. -/
def portDisable (p : Nat) (s : State) : State := modPortAt p (fun x => { x with link := .disabled }) (portGoesDown p s)

/-- A port that may train does (14 Table 14.5); the start of training is a wake source (16 Table 16.5). -/
def portTrain (p : Nat) (s : State) : State :=
  if portRole s p = 0 ∨ (portAt s p).link = .up ∨ lcState s = 4 then s
  else
    let s1 := modPortAt p (fun x => { x with link := .training, width := 0, rate := 0 }) s
    if (portAt s p).link = .training then s1 else portVotesRun s1

/-- In `RETIRED` every port is held in `DISABLED` (13 Table 13.7). -/
def portsHeld (s : State) : State := onlyIf (lcState s == 4) (forAll (below 64) portDisable) s

/-- The ports start: the LFSR of each is seeded (10 R271), and those of a list train, but in `RETIRED`. -/
def portsStart (l : List Nat) (s : State) : State :=
  portsHeld <| forAll l portTrain
    (forAll (below 64) (fun p t => afterDraw (modPortAt p (fun x => { x with lfsr := Config.lfsrSeed t.fresh }) t)) s)

/-- A port that went down starts to train again once its traffic has ended (R258); one held in reset, or in containment, does
not. -/
def portsRetrain (s : State) : State :=
  onlyIf (s.ps.state == .run || s.ps.state == .drowse || s.ps.state == .idle)
    (forAll ((below 64).filter fun p => (portAt s p).link == .down && portRole s p != 0 && unitServes s p &&
        unitServes s (368 + p / 16) && !(portAt s p).perstOut && !(portAt s p).dpc) portTrain) s

/-- An UP link retrains: nothing is flushed (R261). -/
def portRetrain (p : Nat) (s : State) : State :=
  gbDie (p / 16) (3000 + p) 1 (modPortAt p (fun x => { x with linkCounts := bump 64 x.linkCounts 2 1 }) s)

/-- What an accepted `PORT_CMD` does. -/
def portCmd (p code : Nat) (s : State) : State :=
  if code = 1 then portDisable p s
  else if code = 2 then portTrain p s
  else if code = 3 then portRetrain p s
  else if code = 4 then portGoesDown p s
  else if code = 5 then emit (.pin "PORT_PERST_N" p false) (modPortAt p (fun x => { x with perstOut := true }) (portGoesDown p s))
  else emit (.pin "PORT_PERST_N" p true) (modPortAt p (fun x => { x with perstOut := false }) s)

/-! ### Unbinding (R250) -/

/-- An accepted unbind: armed for the link down or the slot power, or at once. -/
def unbindStart (code v b : Nat) (s : State) : State :=
  let t := vppb s v b
  if code = 4 then unbindNow v b (if t < 64 then dspTrafficEnds t s else s)
  else
    let s1 := modSw (fun w => { w with armed := smSet w.armed (32 * v + b) (code, t) }) s
    if code = 3 then vppbTell v b 2 s1
    else if t < 64 ∧ (portAt s1 t).link ≠ .up then unbindNow v b s1 else s1

/-- The host turns a slot's power off: a managed unbind takes effect. -/
def slotPower (v b : Nat) (s : State) : State :=
  match smFind s.sw.armed (32 * v + b) with
  | some (3, _) => unbindNow v b s
  | _ => s

/-! ### A snoop that a live port does not answer (08 R220); an IDE check that fails (07 R209) -/

/-- `COH_BI_TIMEOUT` passes for a snoop to a live port: its link is taken down. -/
def biTimeout (p : Nat) (s : State) : State :=
  match s.coh.txs.find? fun t => t.left.contains p with
  | some t => if portUp s p then portGoesDown p (logEvent 8 p 1 none 0 (bumpCoh (t.slice / 16) 3 1 s)) else s
  | none => s

/-- A flit fails its IDE check: the stream is Insecure and the link goes down. -/
def ideFail (p i : Nat) (s : State) : State :=
  if portUp s p = false then s
  else portGoesDown p (modPortAt p (fun x => { x with linkCounts := bump 64 x.linkCounts 5 1 }) (ideInsecure p i s))

/-! ### Commands -/

/-- LINK_UP (R242). -/
def execLinkUp (p : PortId) (width : Fin 17) (rate : Fin 7) (s : State) : Out := .next (linkUp p.val width.val rate.val s)
/-- LINK_DOWN (R258). -/
def execLinkDown (p : PortId) (s : State) : Out := .next (portGoesDown p.val s)
/-- HOST_HOT_RESET (R262). -/
def execHostHotReset (p : PortId) (s : State) : Out := .next (hostReset p.val s)
/-- SECONDARY_BUS_RESET (R262). -/
def execSecondaryBusReset (v : PortId) (b : Fin 32) (s : State) : Out := .next (busReset v.val b.val s)
/-- FLR (R262). -/
def execFlr (p : PortId) (s : State) : Out :=
  .next (if portRole s p.val = 1 then viewReset p.val s else s)
/-- PORT_PERST_N (R440): at a USP. -/
def execPortPerstN (p : PortId) (s : State) : Out := .next (hostReset p.val s)
/-- SLOT_POWER_OFF (R250). -/
def execSlotPowerOff (v : PortId) (b : Fin 32) (s : State) : Out := .next (slotPower v.val b.val s)
/-- BI_TIMEOUT (R220). -/
def execBiTimeout (p : PortId) (s : State) : Out := .next (biTimeout p.val s)
/-- IDE_CHECK_FAIL (R209). -/
def execIdeCheckFail (p : PortId) (i : Fin 9) (s : State) : Out := .next (ideFail p.val i.val s)

end Sys2Proof.Machine
end

