-- ==== Sys2Proof/Machine/Rails.lean ====
section
/-! DEFINITION. Regulators, rails and the thermal response (19 R443-R452). -/

namespace Sys2Proof.Machine

/-- The die of a rail (Table 19.3). -/
def railDie (r : Nat) : Nat := if r < 4 then r + 4 else if r < 8 then r else r % 4

/-- The rails enabled at a step of Table 19.4 (1-5). -/
def railGroup (step : Nat) : List Nat :=
  match step with
  | 1 => [0, 1, 2, 3]
  | 2 => [4, 5, 6, 7]
  | 3 => [8, 9, 10, 11]
  | 4 => [12, 13, 14, 15]
  | 5 => [16, 17, 18, 19]
  | _ => []

/-- A bit of a rail word set or cleared. -/
def setRail (v : BitVec 20) (r : Nat) (b : Bool) : BitVec 20 :=
  if b then v ||| (1#20 <<< r) else v &&& ~~~(1#20 <<< r)

/-- The core regulator of a die is set to its `PS_VCORE` step (R445). -/
def voutSet (d : Nat) (s : State) : State := emit (.vout (if 4 ≤ d then d else d + 8) (pnum s (P.PS_VCORE + d))) s

/-- The rails of a step are enabled, but for those of a die whose rail failed; the cores come up at their steps (R446). -/
def enableGroup (step : Nat) (s : State) : State :=
  forAll (if step = 2 ∨ step = 3 then ((railGroup step).map railDie).filter fun d => !s.sl.railDenied.contains d else [])
    voutSet <| modSl (fun l => { l with
    railEn := (railGroup step).foldl
      (fun v r => if l.railDenied.contains (railDie r) then v else setRail v r true) l.railEn
    railStep := step }) s

/-- Whether every rail enabled at the present step reports power good. -/
def groupGood (s : State) : Bool :=
  (railGroup s.sl.railStep).all fun r => !s.sl.railEn.getLsbD r || s.sl.railPg.getLsbD r

/-- The order goes on past every step that is complete; step 6 is the end of Table 19.4. -/
def advanceRails : Nat → State → State
  | 0, s => s
  | n + 1, s =>
    if 1 ≤ s.sl.railStep ∧ s.sl.railStep ≤ 5 ∧ groupGood s then
      advanceRails n (enableGroup (s.sl.railStep + 1) s)
    else s

/-- The order of Table 19.4 begins; `VDDQ` may already be up after `NIGHT`. -/
def startRails (w : RailsFor) (s : State) : State :=
  advanceRails 6 (enableGroup 1 (modSl (fun l => { l with railsFor := w, railDenied := [] }) s))

/-- A regulator reports power good (R446). -/
def railGood (r : Nat) (s : State) : State :=
  if s.sl.railEn.getLsbD r then
    advanceRails 6 (modSl (fun l => { l with railPg := setRail l.railPg r true }) s)
  else s

/-- All rails of a die fall. -/
def railsOfDieFall (d : Nat) (s : State) : State :=
  modSl (fun l => { l with
    railEn := ((below 20).filter fun r => railDie r == d).foldl (fun v r => setRail v r false) l.railEn
    railPg := ((below 20).filter fun r => railDie r == d).foldl (fun v r => setRail v r false) l.railPg }) s

/-- Every die rail falls, `VDDQ` too unless it is kept for the retention pads (R446). -/
def allRailsFall (keepVddq : Bool) (s : State) : State :=
  modSl (fun l => { l with
    railEn := if keepVddq then l.railEn &&& 0xF#20 else 0#20
    railPg := if keepVddq then l.railPg &&& 0xF#20 else 0#20
    railStep := 0
    railsFor := .none }) s

/-! ### Thermal (R450) -/

/-- The highest of the last reported die temperatures. -/
def hottest (s : State) : Int := (s.sl.tj.map (·.2)).foldl max 0

/-- `THERM_N` after new readings: asserted at `TJ_WARN`, released 5 degrees below on every die. -/
def thermWarn (s : State) : State :=
  let w : Int := pnum s P.TJ_WARN
  if s.sl.thermN = false ∧ w ≤ hottest s then
    modSl (fun l => { l with thermN := true, thermWarnings := satAdd 32 l.thermWarnings 1 }) s
  else if s.sl.thermN ∧ s.sl.thermShutdown = false ∧ hottest s ≤ w - 5 then
    modSl (fun l => { l with thermN := false }) s
  else s

/-- A die's four sensors are read: its temperature is the highest (R450). -/
def sensorRead (d : Nat) (t : Int) (s : State) : State :=
  if diePowered s d then
    thermWarn (modSl (fun l => { l with
      tj := smPut 0 l.tj d t
      hotMs := smPut 0 l.hotMs d (if 115 ≤ t then smGet 0 l.hotMs d + 1 else 0) }) s)
  else s

/-- A die at or above 115 degrees for 10 ms (R450): every die rail falls, every branch opens. -/
def thermalShutdown (d : Nat) (s : State) : State :=
  if 10 ≤ smGet 0 s.sl.hotMs d ∧ s.sl.thermShutdown = false then
    let s1 := modSl (fun l => { l with
      thermShutdown := true
      thermN := true
      thermShutdowns := satAdd 32 l.thermShutdowns 1
      thermLast := d + ((smGet 0 l.tj d).toNat % 256) * 2 ^ 8 + (s.slTime / 1000 % 2 ^ 64) * 2 ^ 64
      hotMs := []
      resetArmed := 6 }) s
    logPlain 13 4 (diesLost (openAllBranches (allRailsFall false s1)))
  else s

/-- 60 s have passed and the package is below 95 degrees (R450): the dies are powered again, and a reset
of cause 6 follows. -/
def thermalRecovery (s : State) : State :=
  if s.sl.thermShutdown then
    let s1 := modSl (fun l => { l with thermShutdown := false }) s
    if s.hs.state = .on then startRails .boot s1 else s1
  else s

/-! ### Commands -/

/-- JUNCTION_SENSOR_READ (R450). -/
def execJunctionSensorRead (d : DieId) (t0 t1 t2 t3 : BitVec 32) (s : State) : Out :=
  .next (sensorRead d.val (max (max (s32 t0) (s32 t1)) (max (s32 t2) (s32 t3))) s)
/-- THERMAL_SHUTDOWN (R450). -/
def execThermalShutdown (d : DieId) (s : State) : Out := .next (thermalShutdown d.val s)

end Sys2Proof.Machine
end

