-- ==== Sys2Proof/Machine/Extents.lean ====
section
/-! DEFINITION. Extents: offers, acceptance, release and the drain of what passed the lookup (03 R62-R67). -/

namespace Sys2Proof.Machine

/-- `COMMIT` of a lodging's group. -/
def lodgeCommit (n : Nat) : Nat := 0x100002 + 256 * n

/-! ### Tables (R66) -/

/-- A record put in its place by DPA. -/
def extInsert (e : Extent) : List Extent → List Extent
  | [] => [e]
  | x :: xs => if e.dpa < x.dpa then e :: x :: xs else x :: extInsert e xs

/-- Both decoder copies of a port's table, and the extent-record region, changed in one step. -/
def modExt (p : Nat) (f : List Extent → List Extent) (s : State) : State :=
  modLod (fun l => { l with
    extA := smMod [] l.extA p f, extB := smMod [] l.extB p f, extKept := smMod [] l.extKept p f }) s

/-- Every record of every port. -/
def allExtents (s : State) : List (Nat × Extent) := s.lod.extA.flatMap fun e => e.2.map fun x => (e.1, x)

/-- The records of a lodging. -/
def lodgeExtents (s : State) (n : Nat) : List (Nat × Extent) := (allExtents s).filter fun e => e.2.lodging == n

/-- Whether a record covers a granule. -/
def Extent.covers (e : Extent) (g : Nat) : Bool := decide (e.logical ≤ g) && decide (g < e.logical + e.len)

/-! ### Offers (R62, R64) -/

/-- The free ranges of a region from granule `c` on: first granule and length. -/
def freeRanges (top : Nat) : Nat → List Extent → List (Nat × Nat)
  | c, [] => if c < top then [(c, top - c)] else []
  | c, e :: rest =>
    if e.dpa + e.len ≤ c ∨ top ≤ e.dpa then freeRanges top c rest
    else if c < e.dpa then (c, e.dpa - c) :: freeRanges top (e.dpa + e.len) rest
    else freeRanges top (e.dpa + e.len) rest

/-- An offer split over free ranges in ascending order: DPA granule, logical granule, length; none where they do not
suffice. -/
def offerFill : List (Nat × Nat) → Nat → Nat → Option (List (Nat × Nat × Nat))
  | _, _, 0 => some []
  | [], _, _ => none
  | (a, n) :: rest, logical, len =>
    let k := min n len
    (offerFill rest (logical + k) (len - k)).map fun l => (a, logical, k) :: l

/-- Where an offer of a run of granules goes: the lowest free range large enough, else several. -/
def offerPlaces (ext : List Extent) (region logical len : Nat) : Option (List (Nat × Nat × Nat)) :=
  let free := freeRanges ((region + 1) * 262144) (region * 262144) ext
  match free.find? fun r => decide (len ≤ r.2) with
  | some r => some [(r.1, logical, len)]
  | none => offerFill free logical len

/-- A run of granules is offered to a port: records offered but not accepted, and an Add Capacity event record. -/
def offer (p n : Nat) (run : Nat × Nat) (s : State) : Option State :=
  let region := bNat (lodgeAttr s n 2)
  match offerPlaces (extentsOf s p) region run.1 run.2 with
  | none => none
  | some l =>
    if 512 < (extentsOf s p).length + l.length then none
    else some (forAll l (fun q t =>
      let e : Extent := ⟨false, region, n, (lodgeAt s n).gen, q.1, q.2.2, q.2.1⟩
      putEvent p 4 (.capacity 0 e) (modExt p (extInsert e) t)) s)

/-- Runs offered to ports in turn; none where one of them cannot be. -/
def offerAll (n : Nat) : List (Nat × Nat × Nat) → State → Option State
  | [], s => some s
  | (p, run) :: rest, s => match offer p n run s with
    | none => none
    | some t => offerAll n rest t

/-- Offers made; a port whose table has since filled is passed over. -/
def offerEach (n : Nat) (l : List (Nat × Nat × Nat)) (s : State) : State :=
  forAll l (fun q t => (offer q.1 n q.2 t).getD t) s

/-- Whether a granule's pages are `UNMAPPED`. -/
def granuleUnmapped (s : State) (n g : Nat) : Bool :=
  match smFind (lodgeAt s n).slots g with
  | some m => (smGet {} s.prot.base (4 * m)).state == .unmapped
  | none => false

/-- A list of rising numbers as runs. -/
def runsOf : List Nat → List (Nat × Nat)
  | [] => []
  | g :: rest => match runsOf rest with
    | (a, n) :: more => if a = g + 1 then (g, n + 1) :: more else (g, 1) :: (a, n) :: more
    | [] => [(g, 1)]

/-- `LOGICAL_SIZE` of a lodging. -/
def lodgeSize (s : State) (n : Nat) : Nat := lodgeP s n P.LOGICAL_SIZE

/-- The granule slots of a lodging. -/
def lodgeSlots (s : State) (n : Nat) : List (Nat × SlotRec) := s.lod.slots.filter fun e => e.2.lodging == n

/-- Whether a granule slot has its segments and descriptors. -/
def SlotRec.placed (r : SlotRec) : Bool := r.segs != []

/-- The slots of a lodging whose granules are being prepared. -/
def unplaced (s : State) (n : Nat) : List (Nat × SlotRec) := (lodgeSlots s n).filter fun e => !e.2.placed

/-- What a lodging's pending commit will offer once its granules are prepared: port, first granule, length. -/
def preparedOffers (s : State) (n : Nat) : List (Nat × Nat × Nat) :=
  let runs := runsOf ((below (lodgeSize s n)).filter fun g => (unplaced s n).any fun e => e.2.granule == g)
  (hostPorts s n).flatMap fun p => runs.map fun r => (p, r)

/-- The state with what the pending commits of lodgings that meet a test will offer: their records are spoken for. -/
def withPrepared (test : Nat → Bool) (s : State) : State :=
  forAll ((liveLodges s).filter test) (fun n t => offerEach n (preparedOffers s n) t) s

/-- The granules below `top` a port holds no record over that meet a test, as runs. -/
def offerable (s : State) (p n top : Nat) (test : Nat → Bool) : List (Nat × Nat) :=
  runsOf ((below top).filter fun g => test g && !((extentsOf s p).any fun e => e.lodging == n && e.covers g))

/-! ### Requests that passed the lookup (R65) -/

/-- Whether a request of a port lies in a record's pages. -/
def throughExtent (s : State) (p : Nat) (e : Extent) (r : MemReq) : Bool :=
  r.n == e.lodging && e.covers (r.p / 65536) && (r.port == p || vcsOf s r.port == some p)

/-- The requests of open transactions. -/
def TxCause.reqs : TxCause → List MemReq
  | .request r => [r]
  | .victim r => [r]
  | .device => []

/-- Writes of a port that are stalled for space on an extent's pages are completed without being written. -/
def stalledDropped (p : Nat) (e : Extent) (s : State) : State :=
  let gone := s.coh.stalled.flatMap fun q => (q.2.filter (throughExtent s p e)).map fun r => (q.1, r)
  forAll gone (fun q t => homeSettle q.1 (answerVoid q.2
    (modCoh (fun c => { c with stalled := smMod [] c.stalled q.1 fun l => l.erase q.2 }) t))) s

/-- Whether an ordered or waiting request through an extent has not completed. -/
def extentBusy (s : State) (p : Nat) (e : Extent) : Bool :=
  (s.coh.txs.flatMap fun t => t.cause.reqs).any (throughExtent s p e) || s.coh.lineQ.any (throughExtent s p e) ||
    s.coh.home.any (fun q => q.2.any fun h => throughExtent s p e h.req) ||
    s.coh.stalled.any (fun q => q.2.any (throughExtent s p e))

/-- An accepted record leaves both lookup tables (R65 step 1), and its requests drain; without an accepted record the
lodging is `READY` (R81). -/
def extentOut (p : Nat) (e : Extent) (s : State) : State :=
  let s1 := modLod (fun l => { l with drains := l.drains ++ [(p, e)] }) (modExt p (fun l => l.erase e) s)
  stalledDropped p e (onlyIf (!(lodgeExtents s1 e.lodging).any fun x => x.2.accepted)
    (modLodge e.lodging fun l => { l with state := if l.state = .active then .ready else l.state }) s1)

/-! ### Pages leave or return (R65 step 3, R84) -/

/-- A page is freed and takes a state without data. -/
def pageEmptied (n p : Nat) (tgt : PageState) (s : State) : State :=
  match descAt (unlockPage n p (settlePage n p s)) n p with
  | none => s
  | some x =>
    let s0 := unlockPage n p (settlePage n p s)
    let v := versionLeaving s0 n p x
    setDesc n p { x with state := tgt, loc := 0, level := 0, dict := 0, tag := 0, crc := 0, len := 0, poison := false
                         hasFrame := false, version := v }
      (fireWatch n p (freePage n p x (leaveDict n p x s0)))

/-- The pages of a granule that are listed. -/
def granulePages (s : State) (n g : Nat) : List Nat :=
  (s.prot.desc.filter fun e => decide ((n * 2 ^ 34 + g * 65536) ≤ e.1 ∧ e.1 < n * 2 ^ 34 + (g + 1) * 65536)).map
    fun e => e.1 % 2 ^ 34

/-- Every page of a granule becomes `UNMAPPED` and its space is freed. -/
def granuleUnmap (n g : Nat) (s : State) : State :=
  match smFind (lodgeAt s n).slots g with
  | none => s
  | some m =>
    let s1 := forAll (granulePages s n g) (fun p => pageEmptied n p .unmapped) s
    modProt (fun x => { x with base := (below 4).foldl (fun b d =>
      smMod {} b (4 * m + d) fun y => { y with state := .unmapped }) x.base }) s1

/-- The phase of a descriptor written anew: the next epoch's below a running re-key's boundary (07 R203). -/
def freshPhase (s : State) (n p : Nat) : Bool :=
  let e := keyEpoch s n
  match smFind s.prot.rekeys n with
  | some r => if r.asked = false ∧ p < smGet 0 r.bounds (homeDie n p) then decide ((e + 1) % 2 = 1) else decide (e % 2 = 1)
  | none => decide (e % 2 = 1)

/-- The descriptors of a granule are written `ZERO` (R82, R83, R84): pages that are listed keep their `VERSION`, and pages
a re-key's boundary tells from the granule's last page are listed. -/
def granuleZero (n g m : Nat) (s : State) : State :=
  let last := freshPhase s n (g * 65536 + 65535)
  let blank (d : Nat) : Desc := { state := .zero, owner := n, phase := last, pinned := lodgeAttr s n 3
                                  isSealed := lodgeAttr s n 0, isolated := lodgeAttr s n 1, touch := nowEpoch s d }
  let s1 := modProt (fun x => { x with base := (below 4).foldl (fun b d => smPut {} b (4 * m + d) (blank d)) x.base }) s
  let other := if (smFind s.prot.rekeys n).isSome then
      (below 65536).filter fun q => freshPhase s n (g * 65536 + q) != last else []
  forAll other (fun q => setDesc n (g * 65536 + q) { blank (homeDie n (g * 65536 + q)) with phase := !last })
    (forAll (granulePages s n g) (fun p t => match descAt t n p with
      | some x => setDesc n p { blank (homeDie n p) with phase := freshPhase s n p, version := x.version } t
      | none => t) s1)

/-- The drain of an extent ends (R65 steps 2 and 3): pages no accepted record covers become `UNMAPPED`, once every
directory entry for their lines has been removed (08 R225). -/
def drainDone (p : Nat) (s : State) : State :=
  match s.lod.drains.find? fun q => q.1 == p && !extentBusy (stalledDropped p q.2 s) p q.2 with
  | none => s
  | some q =>
    let e := q.2
    let s1 := modLod (fun l => { l with drains := l.drains.erase q }) (stalledDropped p e s)
    let left := (List.range' e.logical e.len).filter fun g =>
      !((lodgeExtents s1 e.lodging).any fun x => x.2.accepted && x.2.covers g) &&
      !(s1.lod.drains.any fun x => x.2.lodging == e.lodging && x.2.covers g)
    let mine (p : Nat) : Bool := left.contains (p / 65536)
    let held (n p : Nat) : Bool := n == e.lodging && mine p
    if s.coh.dir.any (fun x => held (entryLine x.1 x.2).1 (entryLine x.1 x.2).2.1) ∨
        s.coh.txs.any (fun t => held (keyLine t.key).1 (keyLine t.key).2.1) then
      removeEntries (fun k x => held (entryLine k x).1 (entryLine k x).2.1) true s
    else forAll left (granuleUnmap e.lodging) s1

/-! ### What a host answers and releases -/

/-- The view of a host's mailbox answers: port up, an upstream port whose switch holds the IME. -/
def mailboxOpen (s : State) (p : Nat) : Bool :=
  portUp s p && portRole s p == 1 && imeBound s p

/-- A mailbox response. -/
def mailboxReply (p code : Nat) (payload : List Byte) (s : State) : State := emit (.mailbox p code payload) s

/-- An offered record that an entry of a response names. -/
def offeredAt (s : State) (p dpa len : Nat) : Option Extent :=
  (extentsOf s p).find? fun e => !e.accepted && e.dpa == dpa && e.len == len

/-- A host answers an offer (R64): every extent it names is accepted; naming none declines the oldest it was offered. An
extent that was withdrawn or never offered makes the response Invalid Input. -/
def capacityResponse (p : Nat) (l : List (Nat × Nat)) (s : State) : State :=
  if mailboxOpen s p = false then s
  else if l.any fun q => (offeredAt s p q.1 q.2).isNone then mailboxReply p 2 [] s
  else if l = [] then
    match (extentsOf s p).find? fun e => !e.accepted with
    | some e => mailboxReply p 0 [] (modExt p (fun x => x.erase e) s)
    | none => mailboxReply p 2 [] s
  else
    mailboxReply p 0 [] (forAll l (fun q t => match offeredAt t p q.1 q.2 with
      | some e =>
        modLodge e.lodging (fun x => { x with state := if x.state = .ready then .active else x.state })
          (modExt p (fun x => x.map fun y => if y = e then { e with accepted := true } else y) t)
      | none => t) s)

/-- The accepted record that holds a range, and what stays of it before and after the range. -/
def releaseParts (s : State) (p dpa len : Nat) : Option (Extent × Extent × List Extent) :=
  match (extentsOf s p).find? fun e => e.accepted && decide (e.dpa ≤ dpa ∧ dpa + len ≤ e.dpa + e.len ∧ 0 < len) with
  | none => none
  | some e =>
    let a := dpa - e.dpa
    let before := if a = 0 then [] else [{ e with len := a }]
    let after := if a + len = e.len then []
      else [{ e with dpa := dpa + len, len := e.len - a - len, logical := e.logical + a + len }]
    some (e, { e with dpa := dpa, len := len, logical := e.logical + a }, before ++ after)

/-- A range leaves service (R65). -/
def releaseNow (p dpa len : Nat) (s : State) : State :=
  match releaseParts s p dpa len with
  | none => s
  | some (e, gone, rest) =>
    extentOut p gone (modExt p (fun l => rest.foldr extInsert (extInsert gone (l.erase e))) s)

/-- A host releases capacity: processed at once, or after the commit that is `PENDING` for its lodging (R87). A part of an
extent whose rest would need more records than the port has stays in service (log 125). -/
def capacityRelease (p : Nat) (l : List (Nat × Nat)) (s : State) : State :=
  if mailboxOpen s p = false then s
  else if l = [] ∨ l.any (fun q => (releaseParts s p q.1 q.2).isNone) then mailboxReply p 2 [] s
  else
    mailboxReply p 0 [] (forAll l (fun q t => match releaseParts t p q.1 q.2 with
      | none => t
      | some (e, _, rest) =>
        if 513 < (extentsOf (withPrepared (fun _ => true) t) p).length + rest.length then t
        else if cmdPending t 0 (lodgeCommit e.lodging) then
          modLod (fun x => { x with releases := x.releases ++ [⟨p, q.1, q.2⟩] }) t
        else releaseNow p q.1 q.2 t) s)

/-- Releases that waited for a commit are processed. -/
def releasesDue (n : Nat) (s : State) : State :=
  let mine := s.lod.releases.filter fun r => match releaseParts s r.port r.dpa r.len with
    | some (e, _, _) => e.lodging == n
    | none => true
  forAll mine (fun r t => releaseNow r.port r.dpa r.len
    (modLod (fun x => { x with releases := x.releases.erase r }) t)) s

/-! ### Commands -/

/-- EXTENT_DRAIN_DONE (R65). -/
def execExtentDrainDone (p : PortId) (s : State) : Out := .next (drainDone p.val s)
/-- RELEASE_DYNAMIC_CAPACITY (R65). -/
def execReleaseDynamicCapacity (p : PortId) (extents : List (BitVec 19 × BitVec 19)) (s : State) : Out :=
  .next (capacityRelease p.val (extents.map fun e => (e.1.toNat, e.2.toNat)) s)

end Sys2Proof.Machine
end

