-- ==== Sys2Proof/Machine/Training.lean ====
section
/-! DEFINITION. Training and retirement of preset dictionaries (05 R147-R150). -/

namespace Sys2Proof.Machine

/-! ### Sample (R147 phase 1) -/

/-- The pages training samples: multiples of N that are `PLAIN` or `PACKED`, up to the limit. A page in either state has
a descriptor that differs from what its granule was written with, so it is listed. -/
def trainPages (s : State) (n : Nat) : List Nat :=
  ((s.prot.desc.filter fun e => decide (e.1 / 2 ^ 34 = n ∧ e.1 % 2 ^ 34 % pnum s P.COMP_TRAIN_SAMPLE = 0) &&
      (e.2.state == .plain || e.2.state == .packed)).map fun e => e.1 % 2 ^ 34).take (pnum s P.COMP_TRAIN_PAGES)

/-- The bytes of the sampled pages that can be read, as a non-allocating agent. -/
def trainRead (n : Nat) : List Nat → State → List (List Byte) × State
  | [], s => ([], s)
  | p :: ps, s =>
    match checkedDesc n p (settlePage n p s) with
    | none => trainRead n ps s
    | some (x, s1) =>
      let g := readPage 2 n p x s1
      let r := trainRead n ps g.2
      (match g.1 with | some b => b.1 :: r.1 | none => r.1, r.2)

/-! ### Count and select (phases 2 and 3) -/

/-- The hashes of a page's 4,089 windows. -/
def windowHashes (page : List Byte) : List Nat :=
  (below 4089).map fun i => (crc32c (slice i 8 page)).toNat % 65536

/-- The table T after a page's windows; a counter stops at 65,535. -/
def countWindows (t : SMap Nat) (hs : List Nat) : SMap Nat :=
  hs.foldl (fun t h => smPut 0 t h (satAdd 16 (smGet 0 t h) 1)) t

/-- A candidate segment. -/
structure Segment where
  page : Nat
  off : Nat
  len : Nat
  score : Nat
deriving DecidableEq, Repr

/-- The windows from the head of a list that meet the minimum, at most `k`. -/
def goodWindows (t : SMap Nat) (least : Nat) : Nat → List Nat → List Nat
  | 0, _ => []
  | _, [] => []
  | k + 1, h :: hs => if least ≤ smGet 0 t h then h :: goodWindows t least k hs else []

/-- The segments of a page from offset `i` on, with the hashes marked taken; a segment of `m` windows is `m + 7`
bytes long. -/
def pageSegments (t : SMap Nat) (least page : Nat) (hs : List Nat) : Nat → Nat → List Segment × List Nat →
    List Segment × List Nat
  | 0, _, q => q
  | fuel + 1, i, q =>
    if 4089 ≤ i then q
    else
      let ws := goodWindows t least 249 (hs.drop i)
      if ws = [] then pageSegments t least page hs fuel (i + 1) q
      else
        let next := i + ws.length + 7
        if q.2.contains (ws.headD 0) then pageSegments t least page hs fuel next q
        else pageSegments t least page hs fuel next
          (q.1 ++ [⟨page, i, ws.length + 7, ws.foldl (fun a h => a + smGet 0 t h) 0⟩], ws ++ q.2)

/-- Whether a segment comes before another: higher score, then lower page, then lower offset. -/
def Segment.before (a b : Segment) : Bool :=
  decide (b.score < a.score ∨ (a.score = b.score ∧ (a.page < b.page ∨ (a.page = b.page ∧ a.off ≤ b.off))))

/-- A segment put in its place. -/
def putSegment (x : Segment) : List Segment → List Segment
  | [] => [x]
  | y :: ys => if x.before y then x :: y :: ys else y :: putSegment x ys

/-- The candidates in order: the 8,192 of highest score. -/
def candidates (least : Nat) (pages : List (List Byte)) : List Segment :=
  let hs := pages.map windowHashes
  let t := hs.foldl countWindows []
  let all := ((hs.zip (below hs.length)).foldl (fun q e => pageSegments t least e.2 e.1 4089 0 q)
    (([], []) : List Segment × List Nat)).1
  (all.foldr putSegment []).take 8192

/-! ### Assemble (phase 4) -/

/-- Segments placed from the end backward until one does not fit. -/
def placeSegments (pages : List (List Byte)) : List Segment → List Byte → List Byte
  | [], acc => acc
  | x :: xs, acc =>
    if 32768 < acc.length + x.len then acc
    else placeSegments pages xs (slice x.off x.len (nth [] pages x.page) ++ acc)

/-- The content of a dictionary: unfilled leading bytes are zero. -/
def dictAssemble (least : Nat) (pages : List (List Byte)) : List Byte :=
  let c := placeSegments pages (candidates least pages) []
  List.replicate (32768 - c.length) 0#8 ++ c

/-- The default lengths of a dictionary: each sampled page is compressed at a level against the content, and the lengths come
by package-merge from every symbol's count over all pages, and one. -/
def trainLengths (level : Nat) (content : List Byte) (pages : List (List Byte)) : List Nat :=
  let parses := pages.map (parseUnit maeriPack level content)
  let lengths (n : Nat) (l : List Nat) : List Nat := limitedLengths 12 ((symCounts n l).map (· + 1))
  lengths 289 (parses.flatMap (litSyms maeriPack)) ++ lengths 32 (parses.flatMap (distSyms maeriPack))

/-! ### TRAIN -/

/-- The status with which `TRAIN` is refused, in the order of R49. -/
def trainRefused (s : State) (x n : Nat) : Option Nat :=
  if s.comp.rows.any (fun e => e.2.state == .training && e.2.owner % 4 == n % 4) then some 0x02
  else if (dictAt s x).state ≠ .free ∨ lodgeLive s n = false then some 0x03
  else none

/-- Training starts: the row is owned and `TRAINING`, and hosts that hold sampled lines in `E` are asked for them
(08 R222). -/
def trainStart (x n : Nat) (s : State) : State :=
  forAll (trainPages s n) (snoopPageNow n) (modDictAt x (fun r => { r with state := .training, owner := n }) s)

/-- A training ends without a dictionary: the row is `FREE`, and `TRAIN` ends. -/
def trainStop (x status detail : Nat) (s : State) : State :=
  if (dictAt s x).state ≠ .training then s
  else cmdEnd x P.DICT_CMD status detail (modDictAt x (fun _ => {}) s)

/-- Training ends (R147): with no page sampled it is refused; a compressor fault ends it, names the compressor that
leaves service, and leaves the row `FREE` (the model's choice, log 140); else the content and record are installed on every die. -/
def trainEnd (x : Nat) (bad : Bool) (s : State) : State × Option Nat :=
  let n := (dictAt s x).owner
  if (dictAt s x).state ≠ .training ∨ (trainPages s n).any (pageSnooped s n) then (s, none)
  else if (trainPages s n).any fun p => linesUnasked s n p != [] then
    (forAll ((trainPages s n).filter fun p => linesUnasked s n p != []) (snoopMoreNow n) s, none)
  else if bad then (afterDraw (trainStop x 0x0C 0 s), some (engineDrawn (112 + 8 * (n % 4)) 8 s))
  else
    let g := trainRead n (trainPages s n) (useCompressor (n % 4) s)
    if g.1 = [] then (trainStop x 0x0B 3 g.2, none)
    else
      let content := dictAssemble (pnum s P.COMP_TRAIN_MIN) g.1
      let s1 := g.2
      let entry : DictRec := ⟨(crc32c content).toNat, trainLengths (pnum s P.COMP_TRAIN_LEVEL) content g.1⟩
      let dies := (below 4).filter fun d => unitServes s1 (372 + d)
      let s2 := modDictAt x (fun r => { r with
        state := .installed, former := .free, recs := dies.map fun d => (d, entry)
        sampled := g.1.length, refs := [], left := [] }) s1
      let s3 := forAll dies (fun d t => match dictCrypt t d true n x content with
        | some c => dictStore d x c t
        | none => t) s2
      (cmdEnd x P.DICT_CMD 0x00 g.1.length s3, none)

/-- The status with which `CANCEL` is refused. -/
def cancelRefused (s : State) (x : Nat) : Option Nat := if (dictAt s x).state = .training then none else some 0x03

/-! ### RETIRE (R149) -/

/-- The status with which `RETIRE` is refused. -/
def dictRetireRefused (s : State) (x : Nat) : Option Nat :=
  let r := dictAt s x
  if r.state ≠ .installed ∧ r.state ≠ .damaged then some 0x03
  else if lodgeP s r.owner P.LODGE_DICT = x then some 0x03
  else none

/-- Step 1: the row is `RETIRING`, and every die has its moves to wait for. -/
def dictRetireStart (x : Nat) (s : State) : State :=
  modDictAt x (fun r => { r with former := r.state, state := .retiring, left := [0, 1, 2, 3], found := 0 }) s

/-- Whether a die has a move whose image names a dictionary. -/
def movesName (s : State) (d x : Nat) : Bool :=
  s.tier.moves.any fun e => decide (e.1 / 32 = d) && e.2.dict == x && e.2.state != .snapshot

/-- A retirement that does not free its row returns it to its former state. -/
def dictRetireBack (x detail : Nat) (s : State) : State :=
  cmdEnd x P.DICT_CMD 0x0B detail (modDictAt x (fun r => { r with state := r.former, former := .free, left := [], found := 0 }) s)

/-- Steps 2 and 3: a die has no such move left and reads its count; after the last die the sum of the counts read decides. -/
def dictRetireCheck (x d : Nat) (s : State) : State :=
  let r := dictAt s x
  if r.state ≠ .retiring ∨ r.left.contains d = false ∨ movesName s d x then s
  else
    let sum := r.found + dictRefs s d x
    let left := r.left.filter (· ≠ d)
    let s1 := modDictAt x (fun r => { r with left := left, found := sum }) (refsRead d x s)
    if left ≠ [] then s1
    else if sum = 0 then cmdEnd x P.DICT_CMD 0x00 0 (dictFree x s1)
    else dictRetireBack x (min 0xFFFFFFFF sum) s1

/-- Across `NIGHT` a retirement is given up, and a training was abandoned at entry (R148, R150). -/
def dictsAtExit (s : State) : State :=
  forAll ((s.comp.rows.filter fun e => e.2.state == .retiring).map (·.1)) (fun x => dictRetireBack x 0xFFFFFFFF)
    (forAll ((s.comp.rows.filter fun e => e.2.state == .training).map (·.1)) (fun x => trainStop x 0x0B 2) s)

/-! ### Commands -/

/-- DICT_RETIRE_CHECK (R149). -/
def execDictRetireCheck (x : DictId) (d : MemDie) (s : State) : Out := .next (dictRetireCheck x.val d.val s)

end Sys2Proof.Machine
end

