-- ==== Sys2Proof/Machine/Lodging.lean ====
section
/-! DEFINITION. The life of a lodging: creation, change, release requests, destruction (03 R57-R62, R70, R81-R85). -/

namespace Sys2Proof.Machine

/-- The granules that have their descriptors. -/
def placedSize (s : State) (n : Nat) : Nat := ((lodgeSlots s n).filter fun e => e.2.placed).length

/-- Every die's stage is evaluated anew. -/
def restageAll (s : State) : State := forAll (below 4) restage s

/-! ### The granule map (R70) -/

/-- The lowest free granule slots go to granules, in turn, on all four dies. -/
def slotsTake (n : Nat) (gs : List Nat) (s : State) : State :=
  forAll gs (fun g t => match firstBelow 262144 fun m => (smFind t.lod.slots m).isNone with
    | some m => modLod (fun l => { l with slots := smSet l.slots m ⟨n, g, lodgeAttr t n 0, []⟩ }) t
    | none => t) s

/-- The slots a lodging's committed size asks for: those beyond it go, those that lack come. -/
def slotsFit (n : Nat) (s : State) : State :=
  let size := lodgeSize s n
  let s1 := modLod (fun l => { l with slots := smFilter (fun _ r => r.lodging != n || decide (r.granule < size)) l.slots }) s
  slotsTake n ((below size).filter fun g => !((lodgeSlots s1 n).any fun e => e.2.granule == g)) s1

/-- The arrays of the granule directory: first entry and length, rising. -/
def dirArrays (s : State) : List (Nat × Nat) :=
  (s.lod.dirBase.filterMap fun e => if lodgeSize s e.1 = 0 then none else some (e.2, lodgeSize s e.1)).foldr
    (fun a l => (l.takeWhile (fun x => decide (x.1 < a.1))) ++ a :: l.dropWhile (fun x => decide (x.1 < a.1))) []

/-- The lowest free run of `len` entries from `c` on. -/
def dirRun (len : Nat) : Nat → List (Nat × Nat) → Option Nat
  | c, [] => if c + len ≤ 262144 then some c else none
  | c, a :: rest => if c + len ≤ a.1 then some c else dirRun len (max c (a.1 + a.2)) rest

/-- A lodging's array has its place: where it stands, if nothing follows too soon; else in the lowest free run; else
behind the others, packed toward the start. `held` is the length it had. -/
def dirPlace (n held : Nat) (s : State) : State :=
  let size := lodgeSize s n
  let others := dirArrays (modLod (fun l => { l with dirBase := smErase l.dirBase n }) s)
  let put (a : Nat) (t : State) : State := modLod (fun l => { l with dirBase := smSet l.dirBase n a }) t
  let free (a : Nat) : Bool := decide (a + size ≤ 262144) &&
    others.all fun x => decide (x.1 + x.2 ≤ a ∨ a + size ≤ x.1)
  match smFind s.lod.dirBase n with
  | some a =>
    if free a then s
    else (match dirRun size 0 (others.takeWhile (fun x => decide (x.1 < a)) ++ (a, held) ::
        others.dropWhile (fun x => decide (x.1 < a))) with
      | some b => put b s
      | none => pack size put s)
  | none => match dirRun size 0 others with
    | some b => put b s
    | none => pack size put s
where
  /-- The other arrays packed in order, and this one behind them. -/
  pack (_size : Nat) (put : Nat → State → State) (s : State) : State :=
    let order := dirArrays (modLod (fun l => { l with dirBase := smErase l.dirBase n }) s)
    let q := order.foldl (fun (q : State × Nat) a =>
      (modLod (fun l => { l with dirBase := l.dirBase.map fun e => if e.1 ≠ n ∧ e.2 = a.1 then (e.1, q.2) else e }) q.1,
        q.2 + a.2)) (s, 0)
    put q.2 q.1

/-- The segments of the slots being prepared are asked for on every die (R82 step 2). -/
def segmentsAsk (n : Nat) (s : State) : State :=
  let len := if lodgeAttr s n 0 then 384 else 128
  let asked (m : Nat) : Bool := s.space.wants.any (fun w => w.what == 4 && w.slot == m) ||
    (below 4).any fun d => (regionFrame s d 4 m).isSome
  let all := ((unplaced s n).filter fun e => !asked e.1).flatMap fun e => (below 4).map fun d => (⟨d, 4, e.1, len, 128⟩ : RegionWant)
  regionsTake (modSpace (fun x => { x with wants := x.wants ++ all }) s)

/-- A slot's segments are freed on every die, or no longer asked for. -/
def segmentsFree (m : Nat) (s : State) : State :=
  forAll (below 4) (fun d t => match regionFrame t d 4 m with
    | some f => match smFind t.space.uses (useKey d f) with
      | some u => queueBlank d f (.frames f u.len) (setUse d f ⟨u.len, .blanking⟩ t)
      | none => t
    | none => t) (modSpace (fun x => { x with wants := x.wants.filter fun w => !(w.what == 4 && w.slot == m) }) s)

/-- A granule slot is freed with all that its number stands for. -/
def slotDrop (m : Nat) (s : State) : State :=
  match smFind s.lod.slots m with
  | none => s
  | some r =>
    let node (id : Nat) : Bool := id / 2 ^ 22 % 2 ^ 18 != m
    let page (k : Nat) : Bool := k / 65536 != r.lodging * 2 ^ 18 + r.granule
    modProt (fun x => { x with
      base := smFilter (fun k _ => k / 4 != m) x.base
      treeBase := smFilter (fun k _ => k / 4 != m) x.treeBase
      root := smFilter (fun k _ => k / 2 % 2 ^ 18 != m) x.root
      child := smFilter (fun k _ => node (k / 8)) x.child
      mac := smFilter (fun k _ => node k) x.mac
      nodeM := smFilter (fun k _ => node k) x.nodeM
      leafTag := smFilter (fun k _ => k / 2 ^ 16 % 2 ^ 18 != m) x.leafTag
      dirty := x.dirty.filter node
      desc := smFilter (fun k _ => page k) x.desc
      ctr := smFilter (fun k _ => page k) x.ctr
      tags := smFilter (fun k _ => page k) x.tags })
      (modLodge r.lodging (fun l => { l with slots := smErase l.slots r.granule })
        (segmentsFree m (modLod (fun l => { l with slots := smErase l.slots m }) s)))

/-! ### Checks of a commit (R58, R59, R61, R82, R83) -/

/-- The ports of a lodging by one state that another does not name. -/
def portsOnly (a b : State) (n : Nat) : List Nat := (hostPorts a n).filter fun p => !(hostPorts b n).contains p

/-- What a commit offers: port, first granule, length; `s` before it, `t` with its values. -/
def commitOffers (s t : State) (n : Nat) : List (Nat × Nat × Nat) :=
  let live := lodgeLive s n
  let grown := if live then lodgeSize s n else 0
  let added := if live then (portsOnly t s n).flatMap fun p =>
      (offerable s p n (min grown (lodgeSize t n)) fun g => !granuleUnmapped s n g).map fun r => (p, r) else []
  let more := if grown < lodgeSize t n then (hostPorts t n).map fun p => (p, grown, lodgeSize t n - grown) else []
  added ++ more

/-- The state a commit is checked against: the committed values, slots and, of a new lodging, its state. -/
def commitCandidate (n : Nat) (t : State) : State :=
  slotsFit n (modLodge n (fun l => { l with state := if l.state = .free then .preparing else l.state }) t)

/-- Rules that R58 and R82 put in the range check. -/
def commitOutOfRange (t : State) (n : Nat) : Bool :=
  lodgeSize t n == 0 || decide (lodgeSize t n < lodgeP t n P.FLOOR) || decide (32 ≤ lodgeP t n P.ATTR) ||
    (lodgeAttr t n 0 && !lodgeAttr t n 1) || (decide (1 < (hostPorts t n).length) && !lodgeAttr t n 2)

/-- Rules that end `WRONG_STATE`. -/
def commitWrongState (s t : State) (n : Nat) : Bool :=
  let l := lodgeAt s n
  l.state == .releasing || l.state == .wiping || (hostPorts t n).any (fun p => portRole t p != 1) ||
    (if l.state = .free then s.sl.bootStage != .ready || (below 4).any fun d => !unitServes s (372 + d)
     else
       lodgeAttr s n 0 != lodgeAttr t n 0 ||
       (lodgeExtents s n).any (fun e => decide (lodgeSize t n < e.2.logical + e.2.len)) ||
       s.lod.drains.any (fun e => e.2.lodging == n && decide (lodgeSize t n < e.2.logical + e.2.len)) ||
       (lodgeP s n P.DOMAIN != lodgeP t n P.DOMAIN &&
         decide (1 < (((lodgeExtents s n).filter fun e => e.2.accepted).map (·.1)).eraseDups.length)))

/-- Limits of R61. -/
def commitOverLimit (t : State) : Bool :=
  decide (262144 < (liveLodges t).foldl (fun a n => a + lodgeSize t n) 0) ||
    (below 64).any fun p => decide (256 < ((liveLodges t).filter fun n => (hostPorts t n).contains p).length)

/-- The status with which a commit of a lodging's group is refused; `t` holds the values it would commit. -/
def lodgeCommitRefused (s t : State) (n : Nat) : Option Nat :=
  let c := commitCandidate n t
  if commitOutOfRange t n then some 0x06
  else if (lodgeAt s n).state = .preparing ∨ (lodgeLive s n ∧ (lodgeAt s n).isoTo.isSome) ∨ cmdPending s 0 (lodgeCommit n) then some 0x02
  else if (lodgeAt s n).state = .free ∧ (keeperStatus s).isSome then keeperStatus s
  else if commitWrongState s t n then some 0x03
  else if commitOverLimit c then some 0x0B
  else if (offerAll n (commitOffers s t n) (withPrepared (· != n) c)).isNone then some 0x0B
  else if floorsHold c = false then some 0x0A
  else if admits s c = false then some 0x0A
  else none

/-! ### Creation and change (R59, R82, R83) -/

/-- A pending commit whose granules are prepared and whose descriptors are rewritten ends `OK`; releases that waited for
it are processed (R87). -/
def lodgeSettle (n : Nat) (s : State) : State :=
  if cmdPending s 0 (lodgeCommit n) = false ∨ unplaced s n ≠ [] ∨ (lodgeAt s n).isoTo.isSome then s
  else releasesDue n (cmdEnd 0 (lodgeCommit n) 0 0 s)

/-- A lodging begins (R82 step 1). -/
def lodgeBegin (n : Nat) (s : State) : State :=
  let s1 := modLodge n (fun l => { state := .preparing, gen := (l.gen + 1) % 65536 }) s
  let s2 := modProt (fun x => { x with
    epoch := smErase x.epoch n, rekeys := smErase x.rekeys n, sealFails := smErase x.sealFails n }) s1
  let s3 := modCoh (fun c => { c with linesLost := smErase c.linesLost n, down := c.down.filter (· ≠ n) }) s2
  restageAll (recomputeD (segmentsAsk n (dirPlace n 0 (slotsFit n (putParam 0 (P.LODGE_DICT + 256 * n) 0xFFFF s3)))))

/-- A port leaves a lodging: its host is asked for what it accepted, and what it was only offered is withdrawn. -/
def portLeaves (n p : Nat) (s : State) : State :=
  let mine := (extentsOf s p).filter fun e => e.lodging == n
  forAll mine (fun e t => if e.accepted then putEvent p 4 (.capacity 1 e) t else modExt p (fun l => l.erase e) t) s

/-- A change takes effect: `s` with the old values, `t` with the new ones committed. The flag says that `COMMIT` stays
`PENDING`. -/
def lodgeChanged (n : Nat) (s t : State) : State × Bool :=
  let gone := (lodgeSlots t n).filter fun e => decide (lodgeSize t n ≤ e.2.granule)
  let t1 := forAll gone (fun e u => slotDrop e.1
    (forAll (granulePages u n e.2.granule) (fun p => pageEmptied n p .unmapped) u)) t
  let t2 := segmentsAsk n (dirPlace n (lodgeSize s n) (slotsFit n t1))
  let t3 := if lodgeAttr s n 1 = lodgeAttr t n 1 then t2
    else modLodge n (fun l => { l with
      isoTo := some (lodgeAttr t n 1)
      isoLeft := (below 4).map fun d => (d, 8192 * placedSize t2 n) }) t2
  let t4 := forAll (portsOnly s t n) (portLeaves n) t3
  let old := min (lodgeSize s n) (lodgeSize t n)
  let t5 := offerEach n ((portsOnly t s n).flatMap fun p =>
    (offerable t4 p n old fun g => !granuleUnmapped t4 n g).map fun r => (p, r)) t4
  (restageAll (recomputeD t5), (lodgeAt t5 n).isoTo.isSome || unplaced t5 n != [])

/-- A commit that passed its checks: a creation or a change. -/
def lodgeCommitted (n : Nat) (s t : State) : State × Bool :=
  if (lodgeAt s n).state = .free then (lodgeBegin n t, true) else lodgeChanged n s t

/-- The descriptors of a slot are written: its segments are recorded and its tree starts (R82, 07 R188, R191). -/
def slotWritten (n : Nat) (e : Nat × SlotRec) (s : State) : State :=
  let m := e.1
  let segs := (below 4).map fun d => (regionFrame s d 4 m).getD 0 / 128
  let s1 := modLodge n (fun l => { l with slots := smSet l.slots e.2.granule m })
    (modLod (fun l => { l with slots := smSet l.slots m { e.2 with segs := segs } }) s)
  let s2 := if e.2.isSealed then forAll (below 4) (fun d t =>
      let c := smGet 0 t.prot.hwm d + 1
      hwmNote d c (modProt (fun x => { x with treeBase := smSet x.treeBase (4 * m + d) c }) t)) s1 else s1
  granuleZero n e.2.granule m s2

/-- What was being prepared is given back. -/
def prepareUndone (n : Nat) (s : State) : State := forAll (unplaced s n) (fun e => slotDrop e.1) s

/-- `LODGE_PREPARE_DONE` (R82 steps 2 and 3, R83): every descriptor is written and the keys are installed, or a unit
fault ends it. -/
def prepareDone (n : Nat) (ok : Bool) (s : State) : State :=
  let l := lodgeAt s n
  let new := unplaced s n
  if new = [] ∨ (l.state ≠ .preparing ∧ lodgeLive s n = false) then s
  else if ok then
    if keysInstalled s n = false ∨ new.any (fun e => (below 4).any fun d => (regionFrame s d 4 e.1).isNone) then s
    else
      let s1 := forAll new (slotWritten n) s
      let s2 := modLodge n (fun x => { x with state := if x.state = .preparing then .ready else x.state }) s1
      lodgeSettle n (recomputeD (offerEach n (preparedOffers s n) s2))
  else
    let s1 := prepareUndone n s
    let s2 := if l.state = .preparing then
        keyWipe n (modLod (fun x => { x with dirBase := smErase x.dirBase n })
          (modLodge n (fun x => { state := .free, gen := x.gen }) s1))
      else putParam 0 (P.LOGICAL_SIZE + 256 * n) (placedSize s1 n) s1
    restageAll (recomputeD (releasesDue n (cmdEnd 0 (lodgeCommit n) 0x0C 0 s2)))

/-- One descriptor line of an `ISOLATED` rewrite on a die (R59), in ascending address. -/
def isolatedLine (n d : Nat) (s : State) : State :=
  let l := lodgeAt s n
  let left := smGet 0 l.isoLeft d
  match l.isoTo with
  | none => s
  | some tgt =>
    let due := (lodgeSlots s n).filter fun e => e.2.placed && (smGet {} s.prot.base (4 * e.1 + d)).isolated != tgt
    let first := due.foldl (fun (a : Option (Nat × SlotRec)) e => match a with
      | none => some e
      | some b => if nth 0 e.2.segs d < nth 0 b.2.segs d then some e else some b) none
    if lodgeLive s n = false ∨ left = 0 ∨ unitServes s (372 + d) = false then s
    else match first with
      | none => s
      | some e =>
        let x := 8192 * due.length - left
        let s1 := forAll [descPage n e.2.granule d (2 * x), descPage n e.2.granule d (2 * x + 1)] (fun p t =>
          match descAt t n p with
          | some y => lockedSays n p (fun z => { z with isolated := tgt }) (setDesc n p { y with isolated := tgt } t)
          | none => t) s
        let s2 := if x = 8191 then modProt (fun q => { q with
            base := smMod {} q.base (4 * e.1 + d) fun y => { y with isolated := tgt } }) s1 else s1
        let s3 := modLodge n (fun y => { y with isoLeft := smPut 0 y.isoLeft d (left - 1) }) s2
        if (lodgeAt s3 n).isoLeft = [] then lodgeSettle n (modLodge n (fun y => { y with isoTo := none }) s3) else s3

/-! ### Destruction (R85) -/

/-- Offers not answered are withdrawn. -/
def offersWithdrawn (n : Nat) (s : State) : State :=
  forAll ((lodgeExtents s n).filter fun e => !e.2.accepted) (fun e => modExt e.1 fun l => l.erase e.2) s

/-- Whether a lodging has offers no host has answered. -/
def offersOpen (s : State) (n : Nat) : Bool := (lodgeExtents s n).any fun e => !e.2.accepted

/-- Step 2 of Table 3.10. -/
def destroyRelease (n : Nat) (s : State) : State :=
  let s1 := modLodge n (fun l => { l with step := 2 }) s
  if (lodgeAt s n).forced then
    forAll ((lodgeExtents s1 n).filter fun e => e.2.accepted)
      (fun e t => extentOut e.1 e.2 (putEvent e.1 4 (.capacity 2 e.2) t)) s1
  else (releaseRecords n (fun _ => true) s1).1

/-- The wait of step 1 ends: by its answers, after 10 s, or by force. -/
def destroyOffersEnd (n : Nat) (s : State) : State :=
  if (lodgeAt s n).state = .releasing ∧ (lodgeAt s n).step = 1 then destroyRelease n (offersWithdrawn n s) else s

/-- Step 1 of Table 3.10. -/
def destroyStart (n : Nat) (forced : Bool) (s : State) : State :=
  let s1 := modLodge n (fun l => { l with state := .releasing, forced := forced, step := 1 }) s
  let s2 := exportsEnd n (forAll (dictsOf s1 n) (fun x => trainStop x 0x0B 1) s1)
  let s3 := prepareUndone n (modProt (fun x => { x with rekeys := smErase x.rekeys n })
    (forAll (below 4) (fun d t => rekeyUnlock n d t) s2))
  let s4 := cmdEnd 0 (P.REKEY_REQUEST + 256 * n) 0x0B 1 (cmdEnd 0 (lodgeCommit n) 0x0B 1 s3)
  let s5 := recomputeD (restageAll (releasesDue n s4))
  if forced ∨ offersOpen s5 n = false then destroyOffersEnd n s5 else s5

/-- `DESTROY_FORCED` in place of a `DESTROY` that waits. -/
def destroyForce (n : Nat) (s : State) : State :=
  destroyRelease n (offersWithdrawn n (modLodge n (fun l => { l with forced := true }) s))

/-- Step 4: no record remains; step 5 begins: the lodging's cached lines go (04 R94), and Keeper is to wipe the keys. -/
def recordsGone (n : Nat) (s : State) : State :=
  let l := lodgeAt s n
  if l.state ≠ .releasing ∨ l.step < 2 ∨ lodgeExtents s n ≠ [] ∨ s.lod.drains.any (fun e => e.2.lodging == n) then s
  else
    removeEntries (fun place e => (entryLine place e).1 == n) true
      (lcDropLodging n (modLodge n (fun x => { x with state := .wiping }) s))

/-- Whether any die still holds a secret of a lodging. -/
def secretsHeld (s : State) (n : Nat) : Bool :=
  s.prot.secrets.any (fun e => e.1 % 4096 == n) || s.prot.tslots.any (fun e => e.2.lodging == n)

/-- Moves of a lodging are dropped and their locks released. -/
def movesDropped (n : Nat) (s : State) : State :=
  let s1 := forAll (s.tier.moves.filter fun e => e.2.req.n == n) (fun e t => moveIdle e.1 (moveFree (e.1 / 32) e.2 t)) s
  modTier (fun t => { t with
    queue := t.queue.filterMap fun e => match e.2.filter fun r => r.n != n with | [] => none | l => some (e.1, l)
    evicted := t.evicted.filter fun l => l.lodging != n }) s1

/-- Steps 6 and 7: locks, frames, runs, dictionaries, segments and granule-map entries go, and the ID is `FREE`. -/
def wipeDone (n : Nat) (s : State) : State :=
  if (lodgeAt s n).state ≠ .wiping ∨ secretsHeld s n ∨ lodgeQuiet s n = false then s
  else
    let s1 := movesDropped n s
    let pages := (s1.prot.desc.filter fun e => decide (e.1 / 2 ^ 34 = n)).map fun e => e.1 % 2 ^ 34
    let s2 := forAll pages (fun p t => match descAt t n p with
      | some x => freePage n p x t
      | none => t) s1
    let s3 := forAll (lodgeSlots s2 n) (fun e => slotDrop e.1) s2
    let s4 := forAll (dictsOf s3 n) (fun x t => dictFree x (cmdEnd x P.DICT_CMD 0 0 t)) s3
    let s5 := forAll [P.LOGICAL_SIZE, P.FLOOR, P.ATTR, P.LABEL, P.HOST_PORTS, P.DOMAIN, P.LODGE_DICT]
      (fun m t => putParam 0 (m + 256 * n) (match paramSpec (m + 256 * n) with | some r => r.dflt | none => 0) t) s4
    let s6 := modLodge n (fun l => { state := .free, gen := l.gen, pagesLost := l.pagesLost })
      (modLod (fun l => { l with dirBase := smErase l.dirBase n }) s5)
    restageAll (recomputeD (cmdEnd 0 (P.LODGE_CMD + 256 * n) 0 0 s6))

/-! ### `LODGE_CMD` (R84) -/

/-- What `REOFFER` offers. -/
def reoffers (s : State) (n : Nat) : List (Nat × Nat × Nat) :=
  (hostPorts s n).flatMap fun p =>
    (offerable s p n (lodgeSize s n) (granuleUnmapped s n)).map fun r => (p, r)

/-- The status with which a lodging command is refused. -/
def lodgeCmdRefused (s : State) (n code : Nat) : Option Nat :=
  let l := lodgeAt s n
  if (code = 3 ∨ code = 4) ∧ lodgeLive s n ∧ l.isoTo.isSome then some 0x02
  else if l.state = .free ∨ l.state = .preparing then some 0x03
  else if (code = 3 ∨ code = 4) ∧ lodgeLive s n = false then some 0x03
  else if code = 4 ∧ (offerAll n (reoffers s n) (withPrepared (fun _ => true) s)).isNone then some 0x0B
  else none

/-- Whether `DESTROY_FORCED` may replace the `DESTROY` that is pending. -/
def destroyReplaces (s : State) (n : Nat) : Bool :=
  (lodgeAt s n).state == .releasing && !(lodgeAt s n).forced

/-- A lodging command takes effect: its status and `DETAIL` where it ends at once. -/
def lodgeCmd (n code k : Nat) (s : State) : State × Option (Nat × Nat) :=
  match code with
  | 1 => (destroyStart n false s, none)
  | 2 => (if destroyReplaces s n then destroyForce n s else destroyStart n true s, none)
  | 3 =>
    let q := releaseRecords n (fun e => decide (k < e.logical + e.len)) s
    (q.1, some (0, q.2))
  | _ =>
    let l := reoffers s n
    let gs := (below (lodgeSize s n)).filter (granuleUnmapped s n)
    let s1 := forAll gs (fun g t => match smFind (lodgeAt t n).slots g with
      | some m => granuleZero n g m t
      | none => t) s
    (offerEach n l s1, some (0, 0))

/-- An answer to the offers of a lodging under destruction may end the wait of step 1. -/
def capacityAnswered (p : Nat) (l : List (Nat × Nat)) (s : State) : State :=
  let s1 := capacityResponse p l s
  forAll ((liveLodges s1).filter fun n => (lodgeAt s1 n).state == .releasing && !offersOpen s1 n) destroyOffersEnd s1

/-! ### Commands -/

/-- LODGE_PREPARE_DONE (R82). -/
def execLodgePrepareDone (n : LodgeId) (ok : Bool) (s : State) : Out := .next (prepareDone n.val ok s)
/-- ISOLATED_REWRITE_LINE (R59): it pauses while the dies' DRAM is not served. -/
def execIsolatedRewriteLine (n : LodgeId) (d : MemDie) (s : State) : Out :=
  .next (if s.ps.state = .night ∨ s.ps.state = .off then s else isolatedLine n.val d.val s)
/-- DESTROY_OFFER_TIMEOUT (R85). -/
def execDestroyOfferTimeout (n : LodgeId) (s : State) : Out := .next (destroyOffersEnd n.val s)
/-- DESTROY_RECORDS_GONE (R85). -/
def execDestroyRecordsGone (n : LodgeId) (s : State) : Out := .next (recordsGone n.val s)
/-- DESTROY_WIPE_DONE (R85). -/
def execDestroyWipeDone (n : LodgeId) (s : State) : Out := .next (wipeDone n.val s)
/-- ADD_DYNAMIC_CAPACITY_RESPONSE (R64, R85). -/
def execAddDynamicCapacityResponse (p : PortId) (extents : List (BitVec 19 × BitVec 19)) (s : State) : Out :=
  .next (capacityAnswered p.val (extents.map fun e => (e.1.toNat, e.2.toNat)) s)

end Sys2Proof.Machine
end

