-- ==== Sys2Proof/Machine/Rekey.lean ====
section
/-! DEFINITION. Key commands and the re-key engines (07 R181, R202-R206). -/

namespace Sys2Proof.Machine

/-! ### `KEY_CMD` (R181, R202) -/

/-- The status with which a key command is refused: Keeper issues each where its lodging needs it. -/
def keyCmdRefused (s : State) (code n : Nat) : Option Nat :=
  match code with
  | 1 => if (lodgeAt s n).state = .preparing ∧ secretsHeld s n = false then none else some 0x03
  | 2 => if (lodgeAt s n).state = .wiping then none else some 0x03
  | _ => match smFind s.prot.rekeys n with
    | some r => if r.asked ∧ (freeTSlot s).isSome ∧ lodgeLive s n then none else some 0x03
    | none => some 0x03

/-- A key command takes effect: the status it ends with where it ends at once. -/
def keyCmd (code n : Nat) (s : State) : State × Option (Nat × Nat) :=
  match code with
  | 1 => (keyInstall n s, none)
  | 2 => (keyWipe n s, some (0, 0))
  | _ => match freeTSlot s with
    | some t => (keyRekey n t s, none)
    | none => (s, some (0x03, 0))

/-- Step 5 of 13 Table 13.1: Keeper issues, one after another, every key command that a `PREPARING` lodging still needs. -/
def keysReissued (s : State) : State :=
  if s.world.keyReissue = false ∨ cmdPending s 0 P.KEY_CMD ∨ (keeperStatus s).isSome then s
  else match (liveLodges s).find? fun n => (lodgeAt s n).state == .preparing && (keyCmdRefused s 1 n).isNone &&
      !(s.prot.jobs.any fun j => j.lodging == n) with
    | some n => (keyCmd 1 n (autoCommand P.KEY_CMD s)).1
    | none => modWorld (fun w => { w with keyReissue := false }) s

/-- A key-transport message arrives; the last acknowledgement ends `KEY_CMD`. -/
def keyArrives (d : Nat) (err : BitVec 384) (s : State) : State :=
  let q := keyTransport d err s
  match q.2 with
  | some _ => keysReissued (cmdEnd 0 P.KEY_CMD 0 0 q.1)
  | none => q.1

/-! ### `REKEY_REQUEST` (R202) -/

/-- The status with which a re-key request is refused. -/
def rekeyRefused (s : State) (n : Nat) : Option Nat :=
  if 4 ≤ (s.prot.rekeys.filter fun e => !e.2.asked).length then some 0x02
  else if (keeperStatus s).isSome then keeperStatus s
  else if lodgeLive s n = false ∨ (smFind s.prot.rekeys n).isSome then some 0x03
  else none

/-- A re-key is requested of Keeper. -/
def rekeyAsk (n : Nat) (s : State) : State := modProt (fun x => { x with rekeys := smSet x.rekeys n {} }) s

/-! ### The engines (R204) -/

/-- The page of a die at or above a page. -/
def homedFrom (n d p : Nat) : Nat := ((below 8).map (p + ·)).find? (fun q => homeDie n q == d) |>.getD p

/-- The page is passed: its phase is the next epoch's, and the boundary lies behind it. -/
def rekeyPassed (n d p : Nat) (x : Desc) (s : State) : State :=
  modProt (fun q => { q with rekeys := q.rekeys.map fun e => if e.1 = n then
      (n, { e.2 with bounds := smSet e.2.bounds d (p + 1), aborts := smErase e.2.aborts d }) else e })
    (rekeyRelease n d (fireWatch n p (setDesc n p { x with phase := !x.phase } s)))

/-- The lines of a frame re-encrypted under the next epoch into a new one: those a mask names (all of a `PLAIN` page);
the others are carried poisoned. -/
def rekeyLines (n p l : Nat) (x : Desc) (key : PageKeys) (mask : Nat) (s : State) : State :=
  let d := homeDie n p
  forAll (below 64) (fun i t =>
    let g := if bitOf mask i ∧ markAt t d x.loc i % 2 = 0 then fetchLine 3 n p i x t else (0#512, true, t)
    if g.2.1 then storeRaw d l i ⟨0#512, true, false⟩ g.2.2
    else
      let c := lineCrypt true key p i g.1
      storeRaw d l i ⟨c, false, false⟩
        (onlyIf x.isSealed (modProt fun q => { q with tags := smSet q.tags (pageKey n p) (setNth (tagsOf g.2.2 n p) i
          (tagOf key.kt (leBytes 64 c.toNat) (nth 0 (ctrOf g.2.2 n p) (i / 8)) (lineTagId p i) 0)) }) g.2.2)) s

/-- A visit is given up: the page is as it was before it, and is visited again. -/
def rekeyStop (n p : Nat) (s : State) : State :=
  let d := homeDie n p
  let locked := (smFind s.prot.rekeys n).bind fun r => smFind r.locked d
  rekeyRelease n d (match locked, descAt s n p with
    | some x, some y => if y.state = .moving then setDesc n p { x with poison := x.poison || y.poison } s else s
    | _, _ => s)

/-- A page with a frame moves to a new one under the next epoch's key; it waits where no frame is admitted. A line that
cannot be read stops the visit and is carried poisoned by the next (11 R309); a page lost on the way is passed. -/
def rekeyFrame (n p : Nat) (x : Desc) (s : State) : State :=
  let d := homeDie n p
  let b := frameBytes x.isSealed
  let s0 := forAll (below 64) (fun i t => flushLine d x.loc i (mergeSettle n p i x t)) (settlePage n p s)
  let broken := (below 64).filter fun i => (x.state != .lost || bitOf x.tag i) && markAt s0 d x.loc i % 2 == 0 &&
    chanDead s0 (chanOf d x.loc i)
  if broken ≠ [] then
    rekeyStop n p (forAll broken (fun i t => poisonLine n p i x (uncorrectable d x.loc i 255 3 (some (n, p)) t)) s0)
  else match descAt s0 n p, pageKeys s0 n p (!x.phase), allocFrame d n p x.isSealed s0 with
  | some y, some key, some (l, s1) =>
    if decide ((usable s0 d : Int) ≤ (sharedFree s0 d - (b : Int)) * 100) = false then s
    else
      let s2 := rekeyLines n p l y key (if y.state = .lost then y.tag else 2 ^ 64 - 1) s1
      let z := (descAt s2 n p).getD y
      sampleHome d 3 (lodgeP s n P.LABEL) 128 <| restage d <|
        if z.state = .lost ∧ y.state ≠ .lost ∨ z.hasFrame ≠ y.hasFrame then rekeyPassed n d p z (freeFrame d l s2)
        else freeOld n p y (useBytes n d b 0 (rekeyPassed n d p { z with loc := l } s2))
  | _, _, _ => s

/-- A packed page's run is re-encrypted into a new run; one whose run cannot be trusted is lost and passed. -/
def rekeyRun (n p : Nat) (x : Desc) (s : State) : State :=
  let d := homeDie n p
  let k := slotsOf x.len
  let s0 := flushRun d x.loc k (lodgeP s n P.LABEL) (settlePage n p s)
  let lost (t : State) : State :=
    let u := pageLost 3 n p x.version (leaveDict n p x (failCount 1 n t))
    rekeyPassed n d p ((descAt u n p).getD x) u
  match runBad s0 d x.loc k, pageKeys s0 n p x.phase, pageKeys s0 n p (!x.phase) with
  | some j, _, _ => lost (uncorrectable d (runLine x.loc j).1 (runLine x.loc j).2 255 3 (some (n, p)) s0)
  | none, some old, some new =>
    let cipher := dramBytes s0 (d * 2 ^ 44 + x.loc * 256) (256 * k)
    if x.isSealed = true ∧ tagOf old.kt cipher x.version p 1 ≠ x.tag then lost s0
    else if decide ((usable s0 d : Int) ≤ (sharedFree s0 d - (256 * k : Nat)) * 100) = false then s
    else match allocRun d n p k none s0 with
      | none => s
      | some (l, s1) =>
        let c := runCrypt true new p (runCrypt false old p cipher)
        let tag := if x.isSealed then tagOf new.kt c x.version p 1 else x.tag
        sampleHome d 3 (lodgeP s n P.LABEL) (8 * k) (restage d (freeOld n p x (useBytes n d (256 * k) 0
          (rekeyPassed n d p { x with loc := l, tag := tag } (putLines d (l * 4) c [] true s1)))))
  | _, _, _ => s

/-- The page is re-encrypted in the state its descriptor gives. -/
def rekeyPage (n p : Nat) (x : Desc) (s : State) : State :=
  match x.state with
  | .plain => rekeyFrame n p x s
  | .packed => rekeyRun n p x s
  | .lost => if x.hasFrame then rekeyFrame n p x s else rekeyPassed n (homeDie n p) p x s
  | _ => rekeyPassed n (homeDie n p) p x s

/-- A visit whose snoops have been answered: one whose watch has fired aborts and starts again (04 R106); one under the
page lock gives the lock back and goes on at once. -/
def rekeyAnswered (n d p : Nat) (r : Rekey) (s : State) : State :=
  match smFind r.locked d with
  | some x => rekeyPage n p x (unlockPage n p s)
  | none =>
    if r.fired.contains d then
      modProt (fun q => { q with rekeys := q.rekeys.map fun e =>
        if e.1 = n then (n, { e.2 with aborts := smMod 0 e.2.aborts d (· + 1) }) else e }) (rekeyRelease n d s)
    else match checkedDesc n p s with
      | some (x, s1) => if x.state = .moving then s1 else rekeyPage n p x s1
      | none => s

/-- A visit begins with the snoops of what hosts hold in `E` (R222); after `TIER_RETRY_LIMIT` aborts of the page it locks
the page first (04 R106). -/
def rekeyAsks (n d p : Nat) (r : Rekey) (x : Desc) (s : State) : State :=
  let pess := decide (pnum s P.TIER_RETRY_LIMIT ≤ smGet 0 r.aborts d)
  let s1 := modProt (fun q => { q with rekeys := smSet q.rekeys n { r with
    asking := smSet r.asking d p, locked := if pess then smSet r.locked d x else r.locked } }) s
  onlyIf pess (setDesc n p { x with state := .moving }) (snoopPageNow n p s1)

/-- Whether a die's re-key engine may visit a page: it is in service, one that drains only goes on with the visit it has
begun, and one that rejoins has its share of the 32 contexts (14 Table 14.5). -/
def rekeyOpen (s : State) (d n : Nat) : Bool :=
  let begun (m : Nat) : Bool := (smFind s.prot.rekeys m).any fun r => (smFind r.asking d).isSome
  unitServes s (276 + d) && (begun n || (unitAdmits s (276 + d) &&
    decide ((s.prot.rekeys.filter fun e => begun e.1).length < rejoinCap s (276 + d) 32)))

/-- Die `d`'s engine takes its next page (R204). -/
def rekeyVisit (d n : Nat) (s : State) : State :=
  match smFind s.prot.rekeys n with
  | none => s
  | some r =>
    let p := homedFrom n d (smGet 0 r.bounds d)
    if r.asked ∨ lodgeLive s n = false ∨ rekeyOpen s d n = false ∨ (smFind s.prot.tslots (4 * d + r.slot)).isNone ∨
        s.prot.jobs.any (fun j => j.op == 3 && j.lodging == n) ∨ lodgeSize s n * 65536 ≤ p then s
    else match checkedDesc n p s with
      | none => s
      | some (x, s1) =>
        if pageSnooped s1 n p ∨ paceOpen s1 d = false ∨ pageStopped s1 n p then s1
        else if smFind r.asking d = some p then rekeyAnswered n d p r s1
        else if x.state = .moving then s1
        else if linesAsked s1 n p ≠ [] then rekeyAsks n d p r x s1
        else rekeyPage n p x s1

/-! ### The end (R205) -/

/-- Whether every die's boundary has passed the end of the logical range. -/
def rekeyOver (s : State) (n : Nat) (r : Rekey) : Bool :=
  !r.asked && (below 4).all fun d => decide (lodgeSize s n * 65536 ≤ homedFrom n d (smGet 0 r.bounds d))

/-- The re-key finishes: each dictionary, from a copy that is good, in the copies of the dies that serve; the slot, the epoch. -/
def rekeyFinish (n : Nat) (s : State) : State :=
  match smFind s.prot.rekeys n with
  | none => s
  | some r =>
    if rekeyOver s n r = false ∨ lodgeLive s n = false then s
    else
      let copies := (dictsOf s n).filterMap fun x => ((below 4).findSome? fun d => dictContent s d x).map fun b => (x, b)
      let s1 := modProt (fun q => { q with
        secrets := (below 4).foldl (fun m d => match smFind q.tslots (4 * d + r.slot) with
          | some t => if t.lodging = n then smSet m (4096 * d + n) t.secret else m
          | none => m) q.secrets
        tslots := smFilter (fun _ t => t.lodging != n) q.tslots
        epoch := smPut 0 q.epoch n (keyEpoch s n + 1)
        rekeys := smErase q.rekeys n }) s
      let s2 := forAll copies (fun c t => forAll ((below 4).filter fun d => unitServes t (372 + d)) (fun d u =>
        match dictCrypt u d true n c.1 c.2 with
        | some e => dictStore d c.1 e u
        | none => u) t) s1
      cmdEnd 0 (P.REKEY_REQUEST + 256 * n) 0 0 s2

/-! ### Commands -/

/-- KEY_TRANSPORT (R180). -/
def execKeyTransport (d : MemDie) (err : BitVec 384) (s : State) : Out := .next (keyArrives d.val err s)
/-- REKEY_VISIT (R204): the engines stop with the movers while the DRAM is not served. -/
def execRekeyVisit (d : MemDie) (n : LodgeId) (s : State) : Out :=
  .next (if s.ps.state = .night ∨ s.ps.state = .off then s else rekeyVisit d.val n.val s)
/-- REKEY_FINISH (R205). -/
def execRekeyFinish (n : LodgeId) (s : State) : Out := .next (rekeyFinish n.val s)

end Sys2Proof.Machine
end

