-- ==== Sys2Proof/Machine/PowerStates.lean ====
section
/-! DEFINITION. Votes, the target state, wakes, and the limits of rails, pace and rates (16). -/

namespace Sys2Proof.Machine

/-! ### Votes (R395, R396) -/

/-- The vote of a port (Table 16.2). -/
def portVote (s : State) (p : Nat) : Nat :=
  let x := portAt s p
  if x.link = .training ∨ (x.link = .up ∧ x.inL1 = false) ∨ portHasJob s p then 3
  else if x.link = .up then 2 else 0

/-- The vote of a tier mover. -/
def moverVote (s : State) (d : Nat) : Nat :=
  if s.tier.moves.any (fun e => e.1 / 32 == d && e.2.state == .commit) ∨ 
      (dieWings d).any (fun w => (wingAt s w).state == .shuttering || (wingAt s w).state == .reopening) then 3 else 0

/-- Whether an extent of a lodging is accepted on a port whose link is up. -/
def lodgeOnUpPort (s : State) (n : Nat) : Bool :=
  (lodgeExtents s n).any fun e => e.2.accepted && portUp s e.1

/-- The vote of a lodging. -/
def lodgeVote (s : State) (n : Nat) : Nat :=
  if (lodgeAt s n).state = .free then 0 else if lodgeOnUpPort s n then 2 else 1

/-- Keeper's vote: RUN is forced while a KEY_CMD or a world call is in progress. -/
def keeperVote (s : State) : Nat :=
  if cmdPending s 0 P.KEY_CMD ∨ s.world.calls ≠ [] then 3 else s.ps.keeper

/-- Record `i` of `PS_VOTES` (Table 16.2). -/
def voteRecord (s : State) (i : Nat) : Nat :=
  if i = 0 then pnum s P.PS_SHELF_VOTE
  else if i = 1 then s.ps.steward
  else if i = 2 then keeperVote s
  else if i < 67 then portVote s (i - 3)
  else if i < 71 then moverVote s (i - 67)
  else if i < 75 then (if s.prot.rekeys.any fun e => (smFind e.2.locked (i - 71)).isSome then 3 else 0)
  else if i = 75 then (if s.ps.wakeHold then 3 else 0)
  else lodgeVote s (i - 76)

/-- The target: the highest vote held (R396). Lodgings not listed are `FREE` and hold none. -/
def voteTarget (s : State) : Nat :=
  max ((below 76).foldl (fun a i => max a (voteRecord s i)) 0)
    (s.lod.lodges.foldl (fun a e => max a (lodgeVote s e.1)) 0)

/-! ### The target (R396) -/

/-- The target is recomputed (R396): a raised target acts at once, a target of IDLE or RUN is entered;
one of NIGHT or OFF is left to the entry, and one above NIGHT aborts an entry or wakes. -/
def psRecompute (source : Nat) (s : State) : State :=
  let t := voteTarget s
  let s1 := modPs (fun p => { p with target := t }) s
  match s.ps.state with
  | .run | .drowse | .idle =>
    if t = 3 then (if s.ps.state = .idle then psEnter (runState s1) s1 else s1)
    else if t = 2 ∧ s.ps.state ≠ .idle then psEnter .idle s1
    else s1
  | .entering | .night | .off => if 2 ≤ t then wake source s1 else s1
  | .exiting => s1

/-- The votes that the hardware sets (R395) act at once: while the island has power the target follows them at every tick. -/
def votesSettle (s : State) : State := onlyIf s.sl.vstby (psRecompute 8) s

/-- A vote changes (R395). -/
def voteChange (c : VoteChange) (s : State) : State :=
  match c with
  | .steward v => psRecompute 8 (modPs (fun p => { p with steward := v.val }) s)
  | .keeper v => psRecompute 8 (modPs (fun p => { p with keeper := v.val }) s)
  | .portL1 p b => psRecompute 1 (onlyIf ((portAt s p.val).link = .up && (!b || prow s 0 (P.PORT_L1_ENABLE + 256 * p.val) == 1))
      (modPortAt p.val fun x => { x with inL1 := b }) s)
  | .hardware => psRecompute 8 s

/-! ### Rails, pace, rates (R399, R400) -/

/-- Table 16.3: the pace limit of a step in Mtok/s. -/
def paceLimit (step : Nat) : Nat := nth 0 [4500, 6500, 8500, 10000, 11000, 12000] step
/-- Table 16.3: the code of the highest DDR5 rate of a step. -/
def ddrLimit (step : Nat) : Nat := nth 0 [1, 2, 3, 3, 3, 3] step
/-- Table 16.3: the code of the highest SerDes rate of a step. -/
def serdesLimit (step : Nat) : Nat := nth 0 [4, 5, 6, 6, 6, 6] step

/-- The step a die's rail has last settled at: the former one while it moves. -/
def settledStep (s : State) (i : Nat) : Nat :=
  match smFind s.ps.moving i with
  | some (some old) => old
  | _ => pnum s (P.PS_VCORE + i)

/-- Whether a die's rail is moving. -/
def railMoving (s : State) (i : Nat) : Bool := (smGet none s.ps.moving i).isSome

/-- The code of the highest rate a link die's ports with a role run at (R400). -/
def serdesInUse (s : State) (x : Nat) : Nat :=
  (below 16).foldl (fun a i =>
    let p := 16 * x + i
    if portRole s p = 0 then a else max a (min (pnum s (P.PS_SERDES_CAP + x)) (pnum s (P.PORT_MAX_RATE + 256 * p)))) 0

/-- Whether a `PS_VCORE` write must be refused with WRONG_STATE (R399). -/
def vcoreRefused (s : State) (i v : Nat) : Bool :=
  railMoving s i ||
  (if 4 ≤ i then decide (paceLimit v < pnum s (P.PS_PACE + (i - 4))) || decide (ddrLimit v < ddrRateInUse s (i - 4))
   else decide (serdesLimit v < serdesInUse s i))

/-- A new step is commanded over PMBus (19 R445): the rail moves until it settles. -/
def vcoreApply (i old : Nat) (s : State) : State :=
  voutSet i <| bumpPs 4 (modPs (fun p => { p with moving := smPut none p.moving i (some old) }) s)

/-- Whether a `PS_PACE` write must be refused with WRONG_STATE (R399). -/
def paceRefused (s : State) (m v : Nat) : Bool :=
  decide (pnum s (P.PS_PACE + m) < v) && (railMoving s (m + 4) || decide (paceLimit (settledStep s (m + 4)) < v))

/-- Whether a `PS_DDR_RATE` write must be refused with WRONG_STATE (R400). -/
def ddrRefused (s : State) (m v : Nat) : Bool :=
  decide (ddrLimit (settledStep s (m + 4)) < v) ||
    (railMoving s (m + 4) && decide (pnum s (P.PS_DDR_RATE + m) < v))

/-- Whether a `PS_SERDES_CAP` write must be refused with WRONG_STATE (R400). -/
def serdesRefused (s : State) (x v : Nat) : Bool :=
  decide (serdesLimit (settledStep s x) < v) ||
    (railMoving s x && decide (pnum s (P.PS_SERDES_CAP + x) < v))

/-- The regulator reports power good and 50 microseconds have passed: the step has settled (R399). -/
def railSettled (i : Nat) (s : State) : State :=
  modPs (fun p => { p with moving := smPut none p.moving i none }) s

/-- No power good by 200 microseconds (19 R445): the die stays at the former step, its rail still reads
moving, and an alert is raised. -/
def railNotSettled (i : Nat) (s : State) : State :=
  match smGet none s.ps.moving i with
  | none => s
  | some old =>
    logPlain 13 1 (putParam 0 (P.PS_VCORE + i) old s)

/-- FLASH values are checked against Table 16.3 when they are loaded at device reset: a step too low for
a loaded pace, rate or cap is raised to the lowest that allows it, with an alert (R408, log 80). -/
def vcoreFix (s : State) : State :=
  forAll (below 8) (fun i s =>
    let ok (v : Nat) : Bool :=
      if 4 ≤ i then decide (pnum s (P.PS_PACE + (i - 4)) ≤ paceLimit v) && decide (pnum s (P.PS_DDR_RATE + (i - 4)) ≤ ddrLimit v)
      else decide (pnum s (P.PS_SERDES_CAP + i) ≤ serdesLimit v)
    let cur := pnum s (P.PS_VCORE + i)
    if ok cur then s
    else match firstBelow 6 (fun v => decide (cur ≤ v) && ok v) with
      | some v => logPlain 14 1 (putParam 0 (P.PS_VCORE + i) v s)
      | none => s) s

/-! ### Engines and self-refresh (R398) -/

/-- An engine idle for `PS_ENG_IDLE` is gated in RUN or IDLE; with every engine gated, DROWSE shows in
place of RUN (R394, R398). -/
def engineGate (u : Nat) (s : State) : State :=
  if 112 ≤ u ∧ u < 272 ∧ (s.ps.state = .run ∨ s.ps.state = .idle ∨ s.ps.state = .drowse) ∧
      s.ps.gated.contains u = false ∧ s.tier.moves.all (fun e => e.2.engine != some u) = true then
    let s1 := modPs (fun p => { p with gated := p.gated ++ [u] }) s
    if s.ps.state = .run ∧ runState s1 = .drowse then psEnter .drowse s1 else s1
  else s

/-! ### The wake timer (R404) -/

/-- Step 1 of an entry arms the timer, unless `PS_WAKE_TIMER` is 0. -/
def armTimer (s : State) : State :=
  modPs (fun p => { p with
    timerEnd := if pnum s P.PS_WAKE_TIMER = 0 then none else some (s.slTime + pnum s P.PS_WAKE_TIMER * 10 ^ 9) }) s

/-- The timer expires: it wakes, aborts or is latched; without an armed timer nothing happens. -/
def timerExpires (s : State) : State :=
  if s.ps.timerEnd.isSome then wake 3 (modPs (fun p => { p with timerEnd := none }) s) else s

/-- The wake hold lapses: the other votes decide. -/
def holdLapses (s : State) : State :=
  if s.ps.wakeHold then psRecompute 8 (modPs (fun p => { p with wakeHold := false }) s) else s

/-! ### Commands -/

/-- VOTE_CHANGE (R396). -/
def execVoteChange (c : VoteChange) (s : State) : Out := .next (voteChange c s)
/-- RAIL_SETTLED (R399). -/
def execRailSettled (d : DieId) (s : State) : Out := .next (railSettled d.val s)
/-- RAIL_SETTLE_TIMEOUT (R445). -/
def execRailSettleTimeout (d : DieId) (s : State) : Out := .next (railNotSettled d.val s)
/-- ENGINE_GATE (R398). -/
def execEngineGate (u : UnitId) (s : State) : Out := .next (engineGate u.val s)
/-- WAKE_TIMER (R404). -/
def execWakeTimer (s : State) : Out := .next (timerExpires s)
/-- WAKE_HOLD_EXPIRE (R404). -/
def execWakeHoldExpire (s : State) : Out := .next (holdLapses s)
/-- HS_ALERT (R405): the level wakes from NIGHT or OFF and aborts an entry before step 6. -/
def execHsAlert (s : State) : Out := .next (if hsAlertLevel s then wake 6 s else s)
/-- PRESENCE_N (R351, R404): held low for 20 ms the window opens, and the edge is a wake source. -/
def execPresenceN (low : Bool) (s : State) : Out :=
  .next (if s.sl.vstby = false then s else if low then wake 5 (presenceLow s) else presenceHigh s)

end Sys2Proof.Machine
end

