-- ==== Sys2Proof/Machine/UnitService.lean ====
section
/-! DEFINITION. Unit service: how a unit leaves service, who does its work meanwhile, and how it returns
(14 R358-R374). -/

namespace Sys2Proof.Machine

/-! ### Unit numbers (Table 14.1) -/

/-- The class of a unit number. -/
def unitClass (u : Nat) : Nat :=
  if u < 64 then 0 else if u < 96 then 1 else if u < 112 then 2 else if u < 144 then 3
  else if u < 208 then 4 else if u < 272 then 5 else if u < 276 then 6 else if u < 280 then 7
  else if u < 344 then 8 else if u < 368 then 9 else 10

/-- The first unit number of a class. -/
def classBase (c : Nat) : Nat := nth 0 [0, 64, 96, 112, 144, 208, 272, 276, 280, 344, 368] c

/-- The index of a unit within its class. -/
def unitIndex (u : Nat) : Nat := u - classBase (unitClass u)

/-- Whether a unit lies on a die. A Corridor link lies on both of its dies; a wing with its channels. -/
def unitOnDie (u d : Nat) : Bool :=
  let i := unitIndex u
  match unitClass u with
  | 0 => i / 16 == d
  | 1 => i / 8 + 4 == d
  | 2 => i / 4 + 4 == d
  | 3 => i / 8 + 4 == d
  | 4 => i / 16 + 4 == d
  | 5 => i / 16 + 4 == d
  | 6 => i + 4 == d
  | 7 => i + 4 == d
  | 8 => i / 16 + 4 == d
  | 9 => linkEndA i == d || linkEndB i == d
  | _ => false

/-- The die a unit's own die check and `TESTING` limit refer to. -/
def unitDie (u : Nat) : Nat :=
  if unitClass u = 10 then unitIndex u else ((below 8).find? (unitOnDie u)).getD 0

/-! ### Leaving service (R360-R366) -/

/-- A fault of a unit that is being tested or rejoining counts as a failed rejoin, and its command ends
(R369). -/
def rejoinFails (u : Nat) (s : State) : State :=
  let st := (unitAt s u).state
  if st = .testing ∨ st = .rejoining then
    cmdEnd u P.UNIT_CMD 0x0C 0 (modUnitRec u (fun r => { r with fails := min 255 (r.fails + 1) }) s)
  else s

/-! ### What leaves with a unit (Table 14.3) -/

/-- An AtomicOp that a slice had in hand when it left on a fault is not sent again (R365): it completes with poison, its
line is marked and its hosts are told. -/
def atomicUnknown (r : MemReq) (s : State) : State :=
  let g := loseLine r.n r.p r.i s
  notePage 2 r.n r.p (answerPort r.port 2 (.atomic r.tag 0 true) none (if g.2 then g.1 else s))

/-- Whether a request is an AtomicOp. -/
def MemReq.isAtomic (r : MemReq) : Bool := match r.op with | .atomic _ _ _ _ _ => true | _ => false

/-- The AtomicOps waiting at a slice, or for an answer to a snoop, leave it and complete with poison. -/
def atomicsGone (i : Nat) (s : State) : State :=
  let here (r : MemReq) : Bool := homeSlice r.n r.p == i && r.isAtomic
  let gone := (homeOf s i).map (·.req) ++ s.coh.lineQ ++ smGet [] s.coh.stalled i ++ (s.coh.txs.flatMap (·.cause.reqs)) |>.filter here
  forAll gone atomicUnknown (modCoh (fun c => { c with
    txs := c.txs.map fun t => if t.cause.reqs.any here then { t with cause := .device } else t
    home := smMod [] c.home i fun l => l.filter fun h => !here h.req
    lineQ := c.lineQ.filter fun r => !here r
    stalled := smMod [] c.stalled i fun l => l.filter fun r => !here r }) s)

/-- A home slice stops serving (R364): its buddy starts to scan its sets, and slices it served look for another. -/
def sliceLost (i : Nat) (s : State) : State :=
  let served := (s.unit.takeover.filter fun e => e.2 == i).map (·.1)
  modUnit (fun x => { x with
    takeover := smFilter (fun k t => t != i && k != i) x.takeover
    scanning := x.scanning.filter (fun k => k != i && !served.contains k) ++ i :: served }) s

/-- The slice that serves a slice's addresses: its buddy, else the lowest in service on its die. -/
def takeoverBy (s : State) (i : Nat) : Option Nat :=
  let buddy := if i % 2 = 0 then i + 1 else i - 1
  if sliceOwn s buddy then some buddy else ((below 16).map (i / 16 * 16 + ·)).find? (sliceOwn s)

/-- The tier mover of a die leaves service: its contexts are abandoned and its locks restored (04 R105). -/
def moverAbandon (d : Nat) (s : State) : State :=
  forAll (s.tier.moves.filter fun e => e.1 / 32 == d) (fun e => moveAbort e.1 true) s

/-- The re-key engine of a die gives back the locks it holds (04 R105). -/
def rekeysUnlock (d : Nat) (s : State) : State :=
  forAll s.prot.rekeys (fun e t => rekeyUnlock e.1 d t) s

/-- A wing leaves service on a fault (15 R389): what was under way on it ends `FAULT`, and its pages are searched out. -/
def wingFaults (w : Nat) (s : State) : State :=
  let x := wingAt s w
  let s0 := modWingChans w (fun c => { c with state := if c.state = .failed ∨ (c.state = .training ∧ x.state ≠ .reopening) then c.state else .off
                                              writes := [], reads := [], merge := [], acts := [], owed := [], mitigate := []
                                              retry := [], alertN := false }) s
  let s1 := modWingAt w (fun y => { y with
    state := if y.state = .reopening ∨ y.state = .shut then .shut else .shuttering
    byCmd := false, byUnit := none, reopenByCmd := false, reopenUnit := none }) s0
  let s2 := if x.byCmd ∨ x.reopenByCmd then cmdEnd 0 P.WING_CMD 0x0C 0 s1 else s1
  let ends (u : Option Nat) (t : State) : State := match u with
    | some u => cmdEnd u P.UNIT_CMD 0x0C 0 t
    | none => t
  recomputeD (ends x.byUnit (ends x.reopenUnit s2))

/-- The requests at the slices of a memory die that is lost resolve as R366 gives. -/
def dieRequestsEnd (d : Nat) (s : State) : State :=
  let here (r : MemReq) : Bool := homeDie r.n r.p == d
  let mine := s.coh.txs.filter fun t => t.slice / 16 == d
  let gone := ((below 16).flatMap fun i => (homeOf s (16 * d + i)).map (·.req) ++ smGet [] s.coh.stalled (16 * d + i)) ++
    (mine.flatMap fun t => t.cause.reqs) ++ s.coh.lineQ.filter here
  cohSettleAll <| forAll gone (refuseReq 11) (modCoh (fun c => { c with
    home := smFilter (fun k _ => k / 16 != d) c.home
    stalled := smFilter (fun k _ => k / 16 != d) c.stalled
    txs := c.txs.filter fun t => t.slice / 16 != d
    due := c.due.filter fun w => w.slice / 16 != d
    lineQ := c.lineQ.filter fun r => !here r }) s)

/-- What a memory die holds on chip is lost with it (R366). -/
def dieStateLost (d : Nat) (s : State) : State :=
  let s1 := modCoh (fun c => { c with
    dir := smFilter (fun k _ => k / 16 / 4096 / 16 != d) c.dir
    pred := smFilter (fun k _ => k / 4096 / 16 != d) c.pred }) (dieRequestsEnd d s)
  let s2 := modTier (fun t => { t with
    moves := smFilter (fun k _ => k / 32 != d) t.moves
    queue := smErase t.queue d
    evicted := t.evicted.filter fun l => homeDie l.lodging l.page != d }) s1
  let s2 := modComp (fun c => { c with
    rows := c.rows.map fun e => (e.1, { e.2 with recs := smErase e.2.recs d })
    store := smErase c.store d }) s2
  let s3 := modProt (fun x => { x with
    secrets := smFilter (fun k _ => k / 4096 != d) x.secrets
    tslots := smFilter (fun k _ => k / 4 != d) x.tslots
    kMeta := smErase x.kMeta d
    kTree := smErase x.kTree d
    kXport := smErase x.kXport d
    dirty := x.dirty.filter fun id => id / 2 ^ 40 != d
    root := smFilter (fun k _ => k / 2 ^ 19 != d) x.root }) s2
  modLc (smFilter fun k _ => k / 16 / 49152 != d)
    (modCh (fun m => m.map fun e => if e.1 / 8 = d then
      (e.1, { e.2 with writes := [], reads := [], merge := [], acts := [], mitigate := [], retry := [], owed := [] }) else e) s3)

/-- The partner of a memory die. -/
def partner (d : Nat) : Nat := (d + 2) % 4

/-- Mirroring of a pair is suspended or restored: a record, and the views of sealed lodgings are told (01 R25). -/
def mirrorNotice (log : Nat) (s : State) : State := putEvents (sealedViews s) log (.vendor 3 0) (logPlain 12 1 s)

/-- The pair of a die that is lost keeps one copy only. -/
def mirrorSuspend (d : Nat) (s : State) : State :=
  if s.prot.mirrorOff.contains d ∧ s.prot.mirrorOff.contains (partner d) then s
  else mirrorNotice 1 (modProt (fun x => { x with
    mirrorOff := x.mirrorOff.filter (fun e => e != d && e != partner d) ++ [d, partner d] }) s)

/-- What the gathered tables of the share groups go on reporting for a die that is lost (02 R464). -/
def figuresKept (d : Nat) (s : State) : State :=
  let groups := ((s.lc.filter fun e => e.1 / 16 / 49152 == d).map (·.2.group) ++
    ((s.coh.home.filter fun e => e.1 / 16 == d).flatMap fun e => e.2.map (·.req.group))).eraseDups
  let put (m : SMap Nat) (g : Nat) : SMap Nat :=
    smPut 0 (smPut 0 m (8 * g + 2 * d) (groupLines s g d)) (8 * g + 2 * d + 1) (poolUsed s g d)
  modReg (fun r => { r with lastUsed := groups.foldl put (smFilter (fun k _ => k % 8 / 2 != d) r.lastUsed) }) s

/-- A memory die is lost (R366): every view and every lodging is told. -/
def memoryDieLost (d : Nat) (s : State) : State :=
  let s1 := mirrorSuspend d (dieStateLost d (figuresKept d s))
  forAll (liveLodges s1) (fun n => logEvent 11 (372 + d) 2 (some (n, 0)) 0) (putEvents (allViews s1) 3 (.vendor 6 d) s1)

/-- A unit of a die that leaves goes with it. -/
def unitWithDie (u : Nat) (s : State) : State :=
  let s1 := unitOut u 4 s
  if unitClass u = 0 then portGoesDown (unitIndex u) s1 else if unitClass u = 9 then linkDown (unitIndex u) s1 else s1

/-- The units of a die that are not out of service. -/
def dieUnits (s : State) (d : Nat) : List Nat :=
  (below 368).filter fun u => unitOnDie u d && (unitAt s u).state != .outOfService

/-- A die leaves service (R360): with it, every unit on it, with cause 4. -/
def dieOut (d cause : Nat) (s : State) : State :=
  if (unitAt s (368 + d)).state = .outOfService then s
  else
    let s1 := unitOut (368 + d) cause (rejoinFails (368 + d) s)
    let s2 := forAll (dieUnits s1 d) unitWithDie s1
    if d = 1 then keeperHalt s2 else if 4 ≤ d then memoryDieLost (d - 4) s2 else s2

/-- What else happens when a unit below a die leaves service on a fault (Table 14.3). A failed channel, or a faulted wing,
that anchors its die takes the die with it (11 R311). -/
def unitWork (u : Nat) (s : State) : State :=
  let i := unitIndex u
  match unitClass u with
  | 0 => portGoesDown i s
  | 1 =>
    let q := channelFails i s
    if q.2 then dieOut (4 + i / 8) 3 q.1 else q.1
  | 2 => if wingAnchors s i then dieOut (4 + i / 4) 3 s else wingFaults i s
  | 3 | 4 | 5 => engineStalls u s
  | 6 => moverAbandon i s
  | 7 => rekeysUnlock i s
  | 8 => sliceLost i (atomicsGone i s)
  | 9 => linkDown i s
  | _ => s

/-- A fault takes a unit out at once, from any state (R360). -/
def unitFault (u cause : Nat) (s : State) : State :=
  if unitClass u = 10 then dieOut (unitIndex u) cause s
  else if (unitAt s u).state = .outOfService then s
  else unitWork u (unitOut u cause (rejoinFails u s))

/-- A unit that an operation names leaves service by its owning rule. -/
def unitNamed (q : State × Option Nat) : State :=
  match q.2 with
  | some u => recomputeD (unitFault u 3 q.1)
  | none => q.1

/-- Whether the wrong values counted against a unit within one second have reached `UNIT_FAULT_LIMIT` (R362). -/
def unitOverLimit (s : State) (r : UnitRec) : Bool :=
  r.state != .outOfService && decide (0 < r.recent.length) && decide (pnum s P.UNIT_FAULT_LIMIT ≤ r.recent.length)

/-- The units over the limit leave service with cause 2. -/
def unitsSettle (s : State) : State :=
  forAll ((s.unit.units.filter fun e => unitOverLimit s e.2).map (·.1))
    (fun u t => recomputeD (unitFault u 2 (modUnitRec u (fun r => { r with recent := [] }) t))) s

/-! ### TAKE_OUT (R363) -/

/-- The status with which `TAKE_OUT` of a unit is refused. -/
def takeOutRefused (s : State) (u : Nat) : Option Nat :=
  if (unitAt s u).state ≠ .inService then some 0x03
  else if u = 369 ∨ 372 ≤ u then some 0x0B
  else if unitClass u = 1 ∨ unitClass u = 2 then
    (let w := if unitClass u = 1 then unitIndex u / 2 else unitIndex u
     if (wingAt s w).state = .shut then none else evacuateRefused s w)
  else none

/-- A port controller taken out: its port goes down as by LINK_DISABLE. -/
def takeOutPort (p : Nat) (s : State) : State :=
  unitOut p 5 (portDisable p s)

/-- A wing, or a channel with its wing, taken out while `SHUT`: the three leave with cause 5, but for what is out already. -/
def takeOutShut (w : Nat) (s : State) : State :=
  let out (u : Nat) (t : State) : State := if (unitAt t u).state = .outOfService then t else unitOut u 5 t
  installedFell (w / 4) (out (96 + w) (out (64 + 2 * w + 1) (out (64 + 2 * w) s)))

/-- What an accepted `TAKE_OUT` does at once; the flag says that the command has ended. -/
def takeOut (u : Nat) (s : State) : State × Bool :=
  let wing (w : Nat) : State × Bool :=
    if (wingAt s w).state = .shut then (takeOutShut w s, true) else (evacuateStart w false (some u) s, false)
  match unitClass u with
  | 0 => (takeOutPort u s, true)
  | 1 => wing (unitIndex u / 2)
  | 2 => wing (unitIndex u)
  | _ => (logEvent 7 u 1 none (unitBody 1 5)
          (modUnitRec u (fun r => { r with state := .draining, cause := 5 }) s), false)

/-- Whether the last operation that a unit had admitted has ended (R360): the moves an engine or a mover works on, the visit
of a re-key engine, the transfers that a link holds, the requests of a link die's ports. An ordered request of a slice runs at once (log 7). -/
def drained (s : State) (u : Nat) : Bool :=
  let i := unitIndex u
  match unitClass u with
  | 3 | 4 | 5 => s.tier.moves.all fun e => e.2.engine != some u
  | 6 => s.tier.moves.all fun e => e.1 / 32 != i
  | 7 => s.prot.rekeys.all fun e => (smFind e.2.asking i).isNone
  | 9 => (linkAt s i).quiet
  | 10 =>
    let gone (r : MemReq) : Bool := r.port / 16 != i
    (s.coh.home.all fun e => e.2.all fun h => gone h.req) && (s.coh.stalled.all fun e => e.2.all gone) &&
      s.coh.lineQ.all gone && (s.coh.txs.all fun t => t.cause.reqs.all gone) && smGet [] s.sw.stored i == [] &&
      s.sw.waiting.all fun x => x.targets.all fun p => p / 16 != i
  | _ => true

/-- A unit has drained: it is out of service, and `TAKE_OUT` ends `OK`; a home slice hands over to its buddy (R363, R364). -/
def drainComplete (u : Nat) (s : State) : State :=
  if (unitAt s u).state ≠ .draining ∨ drained s u = false then s
  else
    let s1 := cmdEnd u P.UNIT_CMD 0x00 0 (unitOut u 5 s)
    let i := unitIndex u
    match unitClass u with
    | 10 => forAll (dieUnits s1 i) unitWithDie s1
    | 8 => sliceLost i s1
    | 9 => linkDown i s1
    | _ => s1

/-! ### Rejoin (R368, R369) -/

/-- The status with which `REJOIN` is refused, in the order of R49. -/
def rejoinRefused (s : State) (u : Nat) : Option Nat :=
  if (below 376).any (fun v => v != u && unitDie v == unitDie u && (unitAt s v).state == .testing) then some 0x02
  else if (unitAt s u).state ≠ .outOfService then some 0x03
  else if (below 8).any (fun d => unitOnDie u d && (unitAt s (368 + d)).state == .outOfService) then some 0x03
  else if unitClass u = 1 ∧ (chanAt s (unitIndex u)).state = .failed then some 0x03
  else if pnum s P.UNIT_REJOIN_LIMIT ≤ (unitAt s u).fails then some 0x0B
  else if rejoinWing u |>.isSome then (match rejoinWing u with | some w => reopenRefused s w | none => none)
  else none
where
  /-- The wing a rejoin reopens: a wing's own, or that of a channel that left with its wing. -/
  rejoinWing (u : Nat) : Option Nat :=
    if unitClass u = 2 then some (unitIndex u)
    else if unitClass u = 1 ∧ (unitAt s u).cause = 5 then some (unitIndex u / 2)
    else none

/-- An accepted `REJOIN`: the unit is tested, or its wing reopens (Table 14.4 step 1). -/
def rejoinStart (u : Nat) (s : State) : State :=
  if unitClass u = 2 then reopenStart (unitIndex u) false (some u) s
  else if unitClass u = 1 ∧ (unitAt s u).cause = 5 then reopenStart (unitIndex u / 2) false (some u) s
  else
    let s1 := if unitClass u = 1 then trainChan (unitIndex u) true s else s
    logEvent 7 u 1 none (unitBody 3 0) (modUnitRec u (fun r => { r with state := .testing, step := 1 }) s1)

/-- The sets of a home slice are emptied: cache lines invalid, entries freed, predictor 0 (Table 14.5). -/
def sliceClear (i : Nat) (s : State) : State :=
  modLc (smFilter fun k _ => k / 16 / 3072 != i) (modCoh (fun c => { c with
    dir := smFilter (fun k _ => k / 16 / 4096 != i) c.dir
    pred := smFilter (fun k _ => k / 4096 != i) c.pred }) s)

/-- The segments of a die in ascending address: the granule slots. -/
def segmentOrder (s : State) (d : Nat) : List Nat :=
  ((s.lod.slots.filter fun e => e.2.placed).foldr (fun e l =>
    l.takeWhile (fun x => decide (x.1 < nth 0 e.2.segs d)) ++ (nth 0 e.2.segs d, e.1) ::
      l.dropWhile (fun x => decide (x.1 < nth 0 e.2.segs d))) ([] : List (Nat × Nat))).map (·.2)

/-- A dictionary copy of a die that fails is written again from a sibling (05 R145). -/
def dictCopyMend (d x : Nat) (s : State) : State :=
  match dictContent s d x with
  | some _ => s
  | none => match (dieOrder d).findSome? fun e => if e = d then none else dictContent s e x with
    | none => s
    | some b => match dictCrypt s d true (dictAt s x).owner x b with
      | some c => dictStore d x c s
      | none => s

/-- A memory die is rebuilt (R366): keys from another die, `HWM_d` from its retained copy, fresh trees, everything outside
the reserved regions to be blanked, every directory set `SUSPECT`, every descriptor line to be rewritten. -/
def dieRebuildStart (d : Nat) (s : State) : State :=
  let from_ := (below 4).find? fun e => e != d && unitServes s (372 + e)
  let carry (m : SMap (BitVec 256)) (e : Nat) : SMap (BitVec 256) :=
    (m.filter fun x => x.1 / 4096 == e).foldl (fun a x => smSet a (4096 * d + x.1 % 4096) x.2) m
  let carryT (m : SMap TSlot) (e : Nat) : SMap TSlot :=
    (m.filter fun x => x.1 / 4 == e).foldl (fun a x => smSet a (4 * d + x.1 % 4) x.2) m
  let sent (e : Nat) : Nat := 3 + (s.prot.secrets.filter fun x => x.1 / 4096 == e).length +
    (s.prot.tslots.filter fun x => x.1 / 4 == e).length
  let h := smGet 0 s.sl.hwmCopy d + 2 ^ 32
  let own (id : Nat) : Bool := id / 2 ^ 40 != d
  let sealedSlots := (s.lod.slots.filter fun e => e.2.isSealed && e.2.placed).map (·.1)
  let s1 := modProt (fun x => { x with
    secrets := match from_ with | some e => carry x.secrets e | none => x.secrets
    tslots := match from_ with | some e => carryT x.tslots e | none => x.tslots
    kMeta := match from_ with | some e => smSet x.kMeta d (smGet 0 x.kMeta e) | none => x.kMeta
    kTree := match from_ with | some e => smSet x.kTree d (smGet 0 x.kTree e) | none => x.kTree
    kXport := smSet x.kXport d s.sl.kXport
    messages := match from_ with | some e => bump 64 x.messages e (sent e) | none => x.messages
    root := smFilter (fun k _ => k / 2 ^ 19 != d) x.root
    child := smFilter (fun k _ => own (k / 8)) x.child
    mac := smFilter (fun k _ => own k) x.mac
    nodeM := smFilter (fun k _ => own k) x.nodeM
    leafTag := smFilter (fun k _ => k / 2 ^ 34 != d) x.leafTag
    treeBase := sealedSlots.foldl (fun m k => smSet m (4 * k + d) (h + 1)) x.treeBase
    hwm := smPut 0 x.hwm d (if sealedSlots = [] then h else h + 1) }) s
  let s2 := modSpace (fun x => { x with
    uses := smFilter (fun k u => k / 2 ^ 30 != d ||
      (match u.kind with | .region _ _ => true | .retired => true | _ => false)) x.uses
    passed := smFilter (fun w _ => w / 4 != d) x.passed
    blankQ := smFilter (fun w _ => w / 4 != d) x.blankQ
    reserve := smErase x.reserve d }) s1
  let s3 := modLod (fun l => { l with
    lodges := l.lodges.map fun e => (e.1, { e.2 with used := smErase e.2.used d })
    stranded := smErase l.stranded d }) s2
  let s4 := modCoh (fun c => { c with
    suspect := c.suspect.filter (fun k => k / 65536 != d) ++ (below 65536).map (65536 * d + ·) }) s3
  let s5 := modComp (fun c => { c with
    rows := c.rows.map fun e => (e.1, { e.2 with refs := smErase e.2.refs d })
    store := smErase c.store d }) s4
  let s6 := forAll (s5.comp.rows.map (·.1)) (fun x t => dictCopyMend d x (recordReload d x t)) s5
  let s7 := modUnit (fun x => { x with rebuild := smPut [] x.rebuild d ((segmentOrder s6 d).map (· * 8192)) }) s6
  forAll ((below 8).map (8 * d + ·)) (fun c t =>
    if chanPopulated t c ∧ (unitAt t (64 + c)).cause = 4 ∧ (chanAt t c).state ≠ .failed ∧ (chanAt t c).state ≠ .off then
      trainChan c false t else t) (forAll ((below 16).map (16 * d + ·)) sliceClear s7)

/-- The next descriptor line of a die under rebuild is rewritten (R366). -/
def rebuildLine (d : Nat) (s : State) : State :=
  match smGet [] s.unit.rebuild d with
  | [] => s
  | q :: rest =>
    let next := if q % 8192 = 8191 then rest else (q + 1) :: rest
    rebuildAt d q (modUnit (fun x => { x with rebuild := smPut [] x.rebuild d next }) s)

/-- The VOLATILE values that a die holds are back at their defaults when it returns (02 R53, Table 2.11): a memory die's with
the state of its queues, and what its staging buffers held. -/
def dieDefaults (x : Nat) (s : State) : State :=
  let held (k : Nat) : Bool :=
    let n := k % 2 ^ 24
    let g := n / 256
    persOf n == .volatile &&
      (if x < 4 then decide (0x4000 + 16 * x ≤ g) && decide (g < 0x4010 + 16 * x)
       else (decide (0x1000 ≤ g) && decide (g < 0x2000) && g % 4 == x - 4) ||
         (decide (0x6000 + 8 * (x - 4) ≤ g) && decide (g < 0x6008 + 8 * (x - 4))) ||
         ((g == 0x2300 || g == 0x5000) && k / 2 ^ 24 % 4 == x - 4))
  let s1 := modDict (fun d => { d with params := smFilter (fun k _ => !held k) d.params }) s
  if x < 4 then
    modLink (fun m => m.map fun e => if linkEndA e.1 = x then (e.1, { e.2 with counts := [], lastReset := 0 }) else e)
      (modPort (fun m => m.map fun e => if e.1 / 16 = x then (e.1, { e.2 with linkCounts := [], dropCounts := [] }) else e)
        (onlyIf (decide (x = 1)) (modWorld fun w => { w with violations := [], restarts := 0, regions := lockedRegions }) s1))
  else
    let d := x - 4
    let s2 := modCh (fun m => m.map fun e => if e.1 / 8 = d then
      (e.1, { e.2 with temp := 0, ce := 0, ue := 0, log := [], counts := [], ceRows := [], ceTimes := [], ceAlert := [] }) else e) s1
    let s3 := modTier (fun t => { t with counts := smErase t.counts d }) s2
    let s4 := modComp (fun c => { c with counts := smFilter (fun k _ => k / 12 != d) c.counts, last := smErase c.last d }) s3
    let s5 := modCoh (fun c => { c with counts := smFilter (fun k _ => k / 8 != d) c.counts }) s4
    let s6 := forAll (s5.job.queues.map (·.1) |>.filter (· % 4 == d)) (fun q => cmdEnd q P.Q_CMD 0x0C 0)
      (modJob (fun j => { j with
        queues := smFilter (fun k _ => k % 4 != d) j.queues
        jobs := j.jobs.filter fun y => y.queue % 4 != d
        ctxs := smFilter (fun c _ => c / 4096 != d) j.ctxs }) s5)
    let s7 := forAll ((s6.reg.labels.map (·.1)).filter (· % 4 == d)) labelLost s6
    modUnit (fun u => { u with sramCounts := smFilter (fun k _ => k / 4 != d) u.sramCounts })
      (modLink (fun m => m.map fun e => if linkEndA e.1 = x then (e.1, { e.2 with counts := [], lastReset := 0 }) else e) s7)

/-- What step 3 of Table 14.4 clears or rebuilds, by class (Table 14.5). The flag says that a link reset failed. -/
def rejoinRebuild (u : Nat) (s : State) : State × Bool :=
  let i := unitIndex u
  match unitClass u with
  | 0 => (flushEgress i s, false)
  | 6 => (moverAbandon i s, false)
  | 8 => (sliceClear i s, false)
  | 9 => linkReset i false 5 s
  | 10 => if i < 4 then (modSw (fun w => { w with stored := smErase w.stored i }) (dieDefaults i s), false) else (dieRebuildStart (i - 4) (dieDefaults i s), false)
  | _ => (s, false)

/-- The units a returning die brings back with it: those whose last exit had cause 4 (R360). -/
def dieUnitsReturn (d : Nat) (st : UnitState) (s : State) : State :=
  forAll ((below 368).filter fun u => unitOnDie u d && (unitAt s u).cause == 4 &&
      (unitAt s u).state == (if st = .rejoining then UnitState.outOfService else .rejoining) &&
      !(unitClass u == 1 && (chanAt s (unitIndex u)).state == .failed))
    (fun u t =>
      let t1 := logEvent 7 u 1 none (unitBody (if st = .inService then 0 else 4) 0)
        (modUnitRec u (fun r => { r with state := st, step := 0 }) t)
      if st = .inService then noticeFmPort u 0 t1
      else if unitClass u = 0 then portTrain (unitIndex u) (flushEgress (unitIndex u) t1)
      else if unitClass u = 9 then (linkReset (unitIndex u) false 5 t1).1 else t1) s

/-- Step 4: the unit rejoins under its cap; a home slice takes its addresses back, and a die its units. -/
def rejoinEnter (u : Nat) (s : State) : State :=
  let s1 := modUnitRec u (fun r => { r with state := .rejoining, step := 4 }) s
  let s2 := match unitClass u with
    | 8 => modUnit (fun x => { x with
        takeover := smErase x.takeover (unitIndex u), scanning := x.scanning.filter (· ≠ unitIndex u) }) s1
    | 10 => dieUnitsReturn (unitIndex u) .rejoining s1
    | 0 => portTrain (unitIndex u) s1
    | _ => s1
  recomputeD (logEvent 7 u 1 none (unitBody 4 0) s2)

/-- A unit under test goes back out of service, and `REJOIN` ends `FAULT`. -/
def rejoinBack (u : Nat) (s : State) : State :=
  cmdEnd u P.UNIT_CMD 0x0C 0 (logEvent 7 u 3 none (unitBody 2 (unitAt s u).cause)
    (modUnitRec u (fun r => { r with state := .outOfService, step := 0, fails := min 255 (r.fails + 1) }) s))

/-- The self-test ends (Table 14.4): a failed one returns the unit. A channel's test is its training. A memory die stays in
step 3 until every descriptor line is rewritten, its channels have trained and its mirror copies are made. -/
def rejoinTestDone (u : Nat) (ok : Bool) (s : State) : State :=
  let r := unitAt s u
  if r.state ≠ .testing then s
  else if r.step = 3 then
    (if (smGet [] s.unit.rebuild (u - 372)) = [] ∧ ((below 8).all fun i => (chanAt s (8 * (u - 372) + i)).state != .training) ∧
        (unitServes s (372 + partner (u - 372)) = false ∨
          (s.prot.mirrorOff.contains (u - 372) || s.prot.mirrorOff.contains (partner (u - 372))) = false) then rejoinEnter u s
     else s)
  else if unitClass u = 1 ∧ (chanAt s (unitIndex u)).state = .training then s
  else if ok = false then rejoinBack u s
  else
    let q := rejoinRebuild u s
    if q.2 then rejoinBack u q.1
    else if 372 ≤ u then modUnitRec u (fun r => { r with step := 3 }) q.1
    else rejoinEnter u q.1

/-- The copy of a die's own interior nodes to its partner is complete (01 R25): its bit is set again. -/
def mirrorRestore (d : Nat) (s : State) : State :=
  let up (e : Nat) : Bool := unitServes s (372 + e) || ((unitAt s (372 + e)).step == 3 && (smGet [] s.unit.rebuild e) == [])
  if s.prot.mirrorOff.contains d = false ∨ up d = false ∨ up (partner d) = false then s
  else
    mirrorNotice 0 (modProt (fun x => { x with
      mirrorOff := x.mirrorOff.filter (· ≠ d)
      nodeM := smFilter (fun k _ => k / 2 ^ 40 != d) x.nodeM }) s)

/-- The buddy's scan ends (R364): entries are recalled, dirty and released lines written back, locks restored; from now on
it serves the addresses. -/
def takeoverScanned (i : Nat) (s : State) : State :=
  if s.unit.scanning.contains i = false then s
  else match takeoverBy s i with
    | none => s
    | some t =>
      let mine (l : LcLine) : Bool := homeSlice l.lodging l.page == i
      let s1 := forAll (s.tier.moves.filter fun e => e.2.pess && homeSlice e.2.req.n e.2.req.p == i) (fun e => moveAbort e.1 true) s
      let s1 := forAll (s1.prot.rekeys.filter fun e => (smFind e.2.locked (i / 16)).isSome &&
        (smFind e.2.asking (i / 16)).any (homeSlice e.1 · == i)) (fun e => rekeyUnlock e.1 (i / 16)) s1
      let s2 := removeEntries (fun k _ => k / 16 / 4096 == i) false (releaseResidents mine s1)
      let s3 := forAll ((s2.lc.map (·.2)).filter fun l => mine l && l.state == .dirty) writeBackLine s2
      modLc (smFilter fun k _ => k / 16 / 3072 != i) (modUnit (fun x => { x with
        takeover := smSet x.takeover i t, scanning := x.scanning.filter (· ≠ i) }) s3)

/-- `UNIT_PROBATION` without a fault (Table 14.4 step 5): in service, and `REJOIN` ends OK. -/
def unitProbation (u : Nat) (s : State) : State :=
  if (unitAt s u).state ≠ .rejoining ∨ (unitAt s u).step ≠ 4 then s
  else
    let s1 := cmdEnd u P.UNIT_CMD 0x00 0 (noticeFmPort u 0 (logEvent 7 u 1 none (unitBody 0 0)
      (modUnitRec u (fun r => { r with state := .inService, step := 0, recent := [] }) s)))
    recomputeD (if unitClass u = 10 then dieUnitsReturn (unitIndex u) .inService s1 else s1)

/-- Safelight refreshes its copies of the high-water marks (R366). -/
def hwmRefresh (s : State) : State :=
  retain (fun l => { l with hwmCopy := (below 4).foldl (fun m d =>
    if unitServes s (372 + d) then smPut 0 m d (smGet 0 s.prot.hwm d) else m) l.hwmCopy }) s

/-- Across `NIGHT` and `OFF` (R374): a unit in TESTING or REJOINING at entry is out of service at exit, and its
`REJOIN` reads REFUSED with DETAIL 2; the attempt does not count as failed. -/
def unitsAtExit (s : State) : State :=
  forAll ((s.unit.units.filter fun e => e.2.state == .testing || e.2.state == .rejoining).map (·.1))
    (fun u t => cmdEnd u P.UNIT_CMD 0x0B 2 (modUnitRec u (fun r => { r with state := .outOfService, step := 0 }) t)) s

/-! ### Commands -/

/-- DRAIN_COMPLETE (R360). -/
def execDrainComplete (u : UnitId) (s : State) : Out := .next (recomputeD (drainComplete u.val s))
/-- TAKEOVER_SCAN_DONE (R364). -/
def execTakeoverScanDone (i : SliceId) (s : State) : Out := .next (takeoverScanned i.val s)
/-- REBUILD_LINE (R366). -/
def execRebuildLine (d : MemDie) (s : State) : Out := .next (rebuildLine d.val s)
/-- MIRROR_RESTORE (R25). -/
def execMirrorRestore (d : MemDie) (s : State) : Out := .next (mirrorRestore d.val s)
/-- HWM_REFRESH (R366): the dies are running. -/
def execHwmRefresh (s : State) : Out := .next (if s.ps.state = .night ∨ s.ps.state = .off then s else hwmRefresh s)
/-- REJOIN_TEST_DONE (R368). -/
def execRejoinTestDone (u : UnitId) (ok : Bool) (s : State) : Out := .next (rejoinTestDone u.val ok s)
/-- UNIT_PROBATION (R368). -/
def execUnitProbation (u : UnitId) (s : State) : Out := .next (unitProbation u.val s)

end Sys2Proof.Machine
end

