-- ==== Sys2Proof/Machine/EngineRows.lean ====
section
/-! DEFINITION. Events of engines, channels, wings and links whose outcome may take a unit out of service (04 R107, 06 R169,
11 R294, R301, R311, 12 R321-R333). -/

namespace Sys2Proof.Machine

/-! ### Channels (11 R294, R301, R311) -/

/-- A channel fails (R311): its unit leaves service, or, where it already has, only its wing follows. -/
def channelBroken (c : Nat) (s : State) : State :=
  if (unitAt s (64 + c)).state = .outOfService then
    let q := channelFails c s
    recomputeD (if q.2 then dieOut (4 + c / 8) 3 q.1 else q.1)
  else recomputeD (unitFault (64 + c) 3 s)

/-- Once `DRAM_APPLY` has ended, a memory die it left without a usable wing or anchor leaves service (20 R459). -/
def applyEnds (s : State) : State :=
  let s1 := dramApplyEnd s
  if cmdPending s 0 P.DRAM_APPLY ∧ cmdPending s1 0 P.DRAM_APPLY = false then
    recomputeD (forAll ((below 4).filter (dieUnusable s1)) (fun d => dieOut (4 + d) 3) s1)
  else s1

/-- Training of a channel ends (R294): the SPD agrees with the declaration, saying which modules support DRFM, and every step passed, or the channel fails,
logged with kind 6 or 5. Its branch must carry power. `bad` are the lines that failed the memory test. -/
def channelTrained (c : Nat) (spd : Option (BitVec 2)) (ok : Bool) (bad : List Nat) (s : State) : State :=
  if (chanAt s c).state ≠ .training ∨ branchLive s (c / 2) = false then s
  else match spd, ok with
    | some drfm, true => applyEnds (recomputeD (chanActive c drfm bad s))
    | _, _ => applyEnds (channelBroken c (memEvent c 3 none (chanRecord s (if spd.isSome then 5 else 6) c) s))

/-- A channel whose wing has lost its power: what it held queued is gone, and a training fails. -/
def chanUnpowered (reopening : Bool) (c : Nat) (s : State) : State :=
  let x := chanAt s c
  if x.state = .training ∧ reopening = false then applyEnds (channelBroken c s)
  else if x.state = .training ∨ x.state = .active ∨ x.state = .selfRefresh then
    modChan c (fun y => { y with
      state := .off, writes := [], reads := [], merge := [], acts := [], owed := [], mitigate := [], retry := [], alertN := false }) s
  else s

/-- `ALERT_N` was released (R301). -/
def replayed (c : Nat) (again : Bool) (s : State) : State :=
  let q := caReplay c again s
  if q.2 then channelBroken c q.1 else q.1

/-! ### Wings (04 Tables 4.5 and 4.6) -/

/-- The branch reports off: the wing is `SHUT`; where a `TAKE_OUT` asked for it, the wing and both its channels are out of
service (14 R363). -/
def wingShutDone (w : Nat) (s : State) : State :=
  let by_ := (wingAt s w).byUnit
  let s1 := wingShut w s
  if (wingAt s w).state ≠ .shuttering ∨ (branchAt s w).state ≠ .off then s1
  else match by_ with
    | some u => cmdEnd u P.UNIT_CMD 0x00 0 (recomputeD (takeOutShut w s1))
    | none => s1

/-- A unit that returns with its wing. -/
def unitReturns (u : Nat) (s : State) : State :=
  if (unitAt s u).state = .outOfService ∧ (unitAt s u).cause ≠ 4 then
    noticeFmPort u 0 (logEvent 7 u 1 none (unitBody 0 0) (modUnitRec u (fun r => { r with state := .inService, step := 0, recent := [] }) s))
  else s

/-- The channels of a reopening wing have trained: the wing is `OPEN`, and it and its channels are in service (14 R368). -/
def wingReopened (w : Nat) (s : State) : State :=
  let by_ := (wingAt s w).reopenUnit
  if (wingAt s w).state ≠ .reopening ∨ (chanAt s (2 * w)).state ≠ .active ∨ (chanAt s (2 * w + 1)).state ≠ .active then s
  else
    let s1 := reopenTrained w (unitReturns (64 + 2 * w + 1) (unitReturns (64 + 2 * w) (unitReturns (96 + w) s)))
    match by_ with
    | some u => cmdEnd u P.UNIT_CMD 0x00 0 s1
    | none => s1

/-! ### Corridor links (12 R321-R333) -/

/-- A link fails (R333): it leaves service, and its reset command ends. -/
def linkBroken (k : Nat) (s : State) : State :=
  cmdEnd 0 (P.CL_CMD + 256 * k) 0x0C 0
    (if (unitAt s (344 + k)).state = .outOfService then linkDown k s else recomputeD (unitFault (344 + k) 3 s))

/-- An event after which the flag says that the link fails. -/
def linkJudged (k : Nat) (q : State × Bool) : State := if q.2 then linkBroken k q.1 else q.1

/-- A transfer; at the replay limit its sender resets the link (R326). -/
def transferred (k : Nat) (toB : Bool) (what : LinkSend) (err : BitVec 896) (invalid : Bool) (s : State) : State :=
  let q := transfer k toB what err invalid s
  if q.2 then linkJudged k (linkReset k toB 2 q.1) else q.1

/-- The share of its credits a link advertises (14 Table 14.5). -/
def linkShare (s : State) (k : Nat) : Nat :=
  if (unitAt s (344 + k)).state = .rejoining ∨ (unitAt s (344 + k)).state = .testing then pnum s P.UNIT_REJOIN_CAP else 100

/-- `READY` at both ends: the link is `ACTIVE`, and `RESET` ends `OK`. -/
def linkReadied (k : Nat) (s : State) : State :=
  let s1 := linkResumes k s
  if (linkAt s1 k).state = .active then cmdEnd 0 (P.CL_CMD + 256 * k) 0x00 0 s1 else s1

/-- A link's reset has not completed in 1 ms. -/
def linkTimedOut (k : Nat) (s : State) : State := if (linkAt s k).state = .reset then linkBroken k s else s

/-- `UNIT_WDOG` (14 R361): a stall on a link resets it (12 R331); any other unit leaves service, a wing with its power. -/
def watchdog (u : Nat) (s : State) : State :=
  if unitClass u = 9 then
    (if (linkAt s (u - 344)).state = .active then linkJudged (u - 344) (linkReset (u - 344) false 3 s) else s)
  else
    let s1 := recomputeD (unitFault u 1 s)
    let w := unitIndex u
    if unitClass u = 2 ∧ (unitAt s u).state ≠ .outOfService then chanUnpowered false (2 * w + 1) (chanUnpowered false (2 * w) s1) else s1

/-! ### Commands -/

/-- MOVE_VERIFY_DONE (R107). -/
def execMoveVerifyDone (d : MemDie) (c : Fin 32) (ok : Bool) (s : State) : Out :=
  .next (unitNamed (moveVerify (32 * d.val + c.val) ok s))
/-- TRAIN_COMPLETE (R147, R148). -/
def execTrainComplete (x : DictId) (bad : Bool) (s : State) : Out := .next (unitNamed (trainEnd x.val bad s))
/-- COMPRESS (R166, R169). -/
def execCompress (q : QueueId) (i : Fin 4096) (src : Option (List Byte)) (outs : Option (List (BitVec 128)))
    (bad : Option EngineFault) (s : State) : Out := .next (unitNamed (jobCompress q.val i.val src outs bad s))
/-- DECOMPRESS (R167, R169). -/
def execDecompress (q : QueueId) (i : Fin 4096) (src : Option (List Byte)) (outs : Option (List (BitVec 128))) (bad : Bool)
    (s : State) : Out := .next (unitNamed (jobDecompress q.val i.val src outs bad s))
/-- EXPORT_PAGE (R173). -/
def execExportPage (q : QueueId) (i : Fin 4096) (page : BitVec 34) (bad : Option EngineFault) (s : State) : Out :=
  .next (unitNamed (exportPage q.val i.val page.toNat bad s))
/-- SQ_TAIL (R160, R161): the doorbell of an enabled queue is a wake source (16 Table 16.5). -/
def execSqTail (p : PortId) (q : QueueId) (a : QueueAccess) (s : State) : Out :=
  .next (match a with
    | .write v => onlyIf (portUp s p.val && queueP s q.val P.Q_PORT == p.val) (wake 2)
        (writeTail p.val q.val v.toNat (portActivity p.val s))
    | .other word v => writePage p.val q.val (4 * word.val) v.toNat (portActivity p.val s)
    | .read word => readPageWord p.val q.val (4 * word.val) (portActivity p.val s))
/-- CHANNEL_TRAINED (R294). -/
def execChannelTrained (c : ChanId) (spd : Option (BitVec 2)) (ok : Bool) (bad : List (BitVec 33)) (s : State) : Out :=
  .next (channelTrained c.val spd ok (bad.map (·.toNat)) s)
/-- CA_REPLAY (R301). -/
def execCaReplay (c : ChanId) (again : Bool) (s : State) : Out := .next (replayed c.val again s)
/-- WING_SHUT (Table 4.5). -/
def execWingShut (w : WingId) (s : State) : Out := .next (wingShutDone w.val s)
/-- WING_REOPEN_TRAINED (Table 4.6). -/
def execWingReopenTrained (w : WingId) (s : State) : Out := .next (wingReopened w.val s)
/-- CORRIDOR_TRANSFER (R321). -/
def execCorridorTransfer (k : LinkId) (toB : Bool) (what : LinkSend) (err : BitVec 896) (invalid : Bool) (s : State) : Out :=
  .next (transferred k.val toB what err invalid s)
/-- RESET_REQ (R331, R332). -/
def execResetReq (k : LinkId) (byB : Bool) (cause : Byte) (s : State) : Out :=
  .next (linkJudged k.val (linkResetReq k.val byB cause.toNat s))
/-- LINK_GROUP_TEST_DONE (R330, R331). -/
def execLinkGroupTestDone (k : LinkId) (badAB badBA : BitVec 78) (s : State) : Out :=
  .next (linkJudged k.val (linkTested k.val badAB badBA s))
/-- MAP (R331). -/
def execLinkMap (k : LinkId) (unchanged : Bool) (s : State) : Out := .next (linkJudged k.val (linkMapped k.val unchanged s))
/-- CREDITS (R331). -/
def execLinkCredits (k : LinkId) (s : State) : Out := .next (linkCreditsSent k.val (linkShare s k.val) s)
/-- READY (R331). -/
def execLinkReady (k : LinkId) (s : State) : Out := .next (linkReadied k.val s)
/-- CORRIDOR_RESET_TIMEOUT (R333). -/
def execCorridorResetTimeout (k : LinkId) (s : State) : Out := .next (linkTimedOut k.val s)
/-- UNIT_WDOG (R361). -/
def execUnitWdog (u : UnitId) (s : State) : Out := .next (watchdog u.val s)

end Sys2Proof.Machine
end

