-- ==== Sys2Proof/Machine/Boot.lean ====
section
/-! DEFINITION. Device reset, the start-up order, standby power, the regulators' events, the life cycle, Keeper's return
and the takeover by the standby island (13 R340-R356, 14 R367, 19 R443-R450, 20 R454-R463). -/

namespace Sys2Proof.Machine

/-! ### What a device reset wipes (13 Table 13.9) -/

/-- The FLASH values as the configuration area holds them; without a flash, the defaults (20 R454). -/
def flashParams (s : State) : SMap Nat :=
  if s.sl.flashOk then smFilter (fun k _ => k % 2 ^ 24 != P.OWNER) s.sl.journal else []

/-- Group ownership as the configuration area holds it (02 R48). -/
def flashOwners (s : State) : SMap Nat :=
  if s.sl.flashOk then (s.sl.journal.filter fun e => e.1 % 2 ^ 24 == P.OWNER).map fun e => (e.1 / 2 ^ 24, e.2) else []

/-- The Courier replies that wait for a flash program, which a device reset abandons. -/
def flashReplies (s : State) : List Nat :=
  s.dict.flashQ.filterMap fun e => match e.reply with
    | some (.courier t, _) => some t
    | _ => none

/-- The wipe of a device reset (R355): SRAM and keys are gone, every lodging is `FREE`, every binding cleared, VOLATILE
and NIGHT values at their defaults, FLASH values loaded. Fuses, flash, guest book and the Safelight registers outside
SRAM are kept. -/
def deviceWipe (cause : Nat) (s : State) : State :=
  let t := dieSramGone (psEnter .run s)
  let u : State := { t with
    time := 0
    dict := { params := flashParams t, owners := flashOwners t }
    sl := { t.sl with
      resetCause := cause, resetArmed := 0, bootStage := .standby, hwmCopy := [], nightDigest := 0, rootDigest := 0
      wrapped := [], kNight := 0, kXport := 0, mirror := {} }
    ps := { counts := t.ps.counts, lastWake := t.ps.lastWake }
    unit := {}
    lod := {}
    space := { dram := t.space.dram, marks := t.space.marks, retired := t.space.retired }
    hs := { t.hs with branches := t.hs.branches.map fun e =>
      (e.1, if e.2.state = .fetFault then { e.2 with state := .on } else e.2) }
    gb := { t.gb with figs := [], rails := [], tripSeen := false }
    cr := { t.cr with replies := t.cr.replies.filter fun r => !(flashReplies t).contains r.ticket } }
  modCr (fun c => { c with bitNs := pnum u P.CR_BIT_NS }) u

/-! ### Steps 6 and 7 of Table 20.1 -/

/-- The key unit of M0 draws `K_XPORT`: every memory die and the active Safelight island hold it, and the message counts
start anew (07 Table 7.1; how it reaches them, log 135). -/
def xportDrawn (s : State) : State :=
  let e := Config.trng s.fresh
  afterDraw (modSl (fun l => { l with kXport := e })
    (modProt (fun x => { x with kXport := (below 4).map fun d => (d, e), messages := [] }) s))

/-- M0 sends its drawn key to each other die in a key-transport message (07 R177). -/
def keyCarried (s : State) : State := forAll [1, 2, 3] (fun _ t => messageSent 0 t) s

/-- `K_XPORT`, `K_META` (two messages a die) and `K_TREE` are drawn by the key unit of M0 and carried to every memory die. -/
def keysDrawn (s : State) : State :=
  let t := xportDrawn s
  let a := Config.trng t.fresh
  let b := Config.trng (t.fresh + 1)
  let c := Config.trng (t.fresh + 2)
  keyCarried (keyCarried (keyCarried (modProt (fun x => { x with
    kMeta := (below 4).map fun d => (d, b ++ a)
    kTree := (below 4).map fun d => (d, c) }) (afterDraw (afterDraw (afterDraw t))))))

/-- The digest that enters measurement register 0 (Table 13.2; its coding is log 16). -/
def romDigest : List Byte :=
  sha384 (digestBytes 48 Config.romVersion ++ sha384 (beBytes 16 Config.uniqueId.toNat))

/-- Whether both dies of a link and the link itself serve. -/
def linkUsable (s : State) (k : Nat) : Bool :=
  unitServes s (344 + k) && unitServes s (368 + linkEndA k) && unitServes s (368 + linkEndB k)

/-- The PLLs lock and the timebases align to within 4 ns (01 R15): how far each stands ahead is free. -/
def timebasesAlign (s : State) : State :=
  afterDraw (modUnit (fun u => { u with
    skew := (below 8).foldl (fun m d => smPut 0 m d (Config.freeBits (s.fresh + d) % 5)) [] }) s)

/-- Every Corridor link that can serve resets. -/
def linksReset (cause : Nat) (s : State) : State :=
  forAll ((below 24).filter (linkUsable s)) (fun k t => (linkReset k false cause t).1) s

/-- The dies whose rails failed stay out of service (19 R446). -/
def deniedOut (s : State) : State := forAll s.sl.railDenied.eraseDups (fun d => dieOut d 3) s

/-- Steps 6 and 7 of Table 20.1 after the wipe: fuses, keys, region registers, measurement, links, FLASH values. -/
def bootDies (s : State) : State :=
  let s1 := keysDrawn (modWorld (fun w => { w with regions := lockedRegions })
    (modSl (fun l => { l with bootStage := .booting, railsFor := .none }) s))
  let s2 := measExtend 5 (sha384 lockedRegisterBytes) (measSecurity (measExtend 0 (sha384 romDigest) s1))
  let s3 := if fusesLegal s2 then s2 else logPlain 14 1 s2
  portsHeld <| vcoreFix (linksReset 0 (recomputeD (deniedOut (timebasesAlign s3))))

/-- The order of Table 19.4 has reached its step 6: a boot goes on with the device reset that is due. The order after
`NIGHT` and `OFF` goes on by itself. -/
def railsDone (s : State) : State :=
  if s.sl.railStep = 6 ∧ s.sl.railsFor = .boot then
    bootDies (if s.sl.resetArmed = 0 then s else deviceWipe s.sl.resetArmed s)
  else s

/-- A device reset (R355): the wipe, and the start-up order from its step 6; where the dies have no power it begins with
their rails, or waits for the main input. -/
def deviceReset (cause : Nat) (s : State) : State :=
  let t := deviceWipe cause s
  if t.sl.railStep = 6 then bootDies t
  else if t.hs.state = .on ∧ t.sl.thermShutdown = false then
    let u := modSl (fun l => { l with bootStage := .powering }) t
    if 1 ≤ u.sl.railStep then modSl (fun l => { l with railsFor := .boot }) u else railsDone (startRails .boot u)
  else if t.hs.state = .parked then modHs (fun h => { h with state := .window }) t
  else t

/-! ### Regulators (19 R446, R447, R450) -/

/-- The severity of a die's rail failure (14 Table 14.12). -/
def railSeverity (d : Nat) : Nat := if 4 ≤ d then 4 else 3

/-- A rail has not reported power good within 1 ms: it stays disabled with every later rail of its die. With its core down no
other rail of the die stays up (R446). -/
def railTimeout (r : Nat) (s : State) : State :=
  if s.sl.railEn.getLsbD r = false ∨ s.sl.railPg.getLsbD r then s
  else
    let d := railDie r
    railsDone (advanceRails 6 (logEvent 13 (368 + d) (railSeverity d) none 0 (modSl (fun l => { l with
      railEn := setRail l.railEn r false, railDenied := l.railDenied ++ [d] })
      (onlyIf (decide (4 ≤ r) && decide (r < 12)) (railsOfDieFall d) s))))

/-- A power good falls while its rail is enabled (R447): the die leaves service, its other rails fall. -/
def railLost (r : Nat) (s : State) : State :=
  if s.sl.railEn.getLsbD r = false ∨ s.sl.railPg.getLsbD r = false then s
  else
    let d := railDie r
    let s1 := logEvent 13 (368 + d) (railSeverity d) none 0
      (modSl (fun l => { l with railDenied := l.railDenied ++ [d] }) (railsOfDieFall d s))
    if s1.sl.railStep = 6 ∨ s1.sl.railStep = 0 then recomputeD (dieOut d 3 s1) else railsDone (advanceRails 6 s1)

/-! ### Standby power (19 R442, R447, 20 R455) -/

/-- Loss of `VSTBY` removes everything but fuses and flash: the configuration journal, the retired list and the records
of the guest book. -/
def standbyLost (s : State) : State :=
  { State.reset with
    pending := s.pending
    fresh := s.fresh
    out := s.out
    sl := { vstby := false, fuseP := s.sl.fuseP, fuseY := s.sl.fuseY, fuseT := s.sl.fuseT, fuseC := s.sl.fuseC
            fuseVersion := s.sl.fuseVersion
            fuseKey := s.sl.fuseKey
            fuseSeed := s.sl.fuseSeed
            operatorId := s.sl.operatorId, journal := s.sl.journal, flashOk := s.sl.flashOk }
    gb := { status := s.gb.status, rnum := s.gb.rnum, cutNum := s.gb.cutNum, perm := s.gb.perm, circ := s.gb.circ
            sectors := s.gb.sectors, circPos := s.gb.circPos, permPos := s.gb.permPos, permCount := s.gb.permCount }
    space := { retired := s.space.retired } }

/-- Steps 1 and 2 of Table 20.1: straps, reset cause, FLASH values, the kind-7 record. `torn` are the sectors of the guest book
whose headers do not hold. -/
def standbyRise (strap slSel : Nat) (flashOk : Bool) (torn : List Nat) (s : State) : State :=
  if s.sl.vstby then s
  else
    let s1 := modSl (fun l => { l with
      vstby := true, standbyAlive := true, straps := strap + 4 * slSel, onL2 := slSel == 1, resetCause := 1
      resetArmed := 1, bootStage := .standby, flashOk := flashOk }) s
    let s2 := modDict (fun d => { d with params := flashParams s1, owners := flashOwners s1 }) s1
    let s3 := modCr (fun c => { c with bitNs := pnum s2 P.CR_BIT_NS }) (gbStandbyRise (forAll torn gbHeaderLost s2))
    let s4 := if strap = 3 then logPlain 14 1 s3 else s3
    if flashOk then modGb (fun g => { g with status := Nat.land g.status 7 }) s4
    else logPlain 14 1 (modGb (fun g => { g with status := Nat.lor (Nat.land g.status 7) 8 }) s4)

/-! ### Firmware (13 R342, 16 R406, 20 Table 20.1 step 8) -/

/-- Channels declared in the FLASH are `DECLARED`, and ports with a role train (20 R458); vPPB 0 of a USP is bound to the IME (09 R248). -/
def hardwareKnown (s : State) : State :=
  portsStart ((below 64).filter fun p => unitServes s p && unitServes s (368 + p / 16)) <|
    forAll ((below 64).filter fun p => portRole s p == 1) (fun p => modSw fun w => { w with vcs := smSet w.vcs (32 * p) 0x40 })
    (forAll ((below 32).filter (chanPopulated s)) (fun c => modChan c fun x => { x with state := .declared }) s)

/-- Step 8: both worlds are measured and start; one whose image fails verification stays halted. In `RETIRED` the order
has ended. -/
def firmwareStart (k st : Option (BitVec 384)) (s : State) : State :=
  if s.sl.bootStage ≠ .booting ∨ lcState s = 4 then s
  else
    let s1 := match k with
      | some d => if unitServes s 369 then measExtend 1 (digestBytes 48 d)
          (modWorld (fun w => { w with keeperUp := true, keeperDigest := d }) s) else s
      | none => keeperHalt s
    let s2 := match st with
      | some d => measExtend 2 (digestBytes 48 d) (modWorld (fun w => { w with stewardUp := 0xFF#8, stewardDigest := d }) s1)
      | none => logPlain 14 1 s1
    hardwareKnown (modSl (fun l => { l with bootStage := .firmware }) s2)

/-- After `NIGHT` or `OFF` (R406): a world runs again where its image is the one that was measured, and stays halted
otherwise. No register is extended. -/
def firmwareResume (k st : Option (BitVec 384)) (s : State) : State :=
  let s1 := if s.world.keeper ≠ .running ∨ s.world.keeperUp ∨ unitServes s 369 = false then s
    else if k = some s.world.keeperDigest then modWorld (fun w => { w with keeperUp := true }) s
    else keeperHalt s
  if s1.world.stewardUp ≠ 0#8 ∨ s1.world.stewardRestarting ≠ 0#8 then s1
  else if st = some s1.world.stewardDigest then modWorld (fun w => { w with stewardUp := 0xFF#8 }) s1
  else s1

/-- The boot ROM has checked the firmware of both worlds. -/
def firmwareChecked (k st : Option (BitVec 384)) (s : State) : State :=
  if s.sl.railStep ≠ 6 then s
  else match s.sl.bootStage with
    | .booting => firmwareStart k st s
    | .firmware | .training | .ready => if s.ps.state = .exiting ∧ s.ps.exitStep < 3 then s else firmwareResume k st s
    | _ => s

/-- Keeper resumes (13 R340). -/
def keeperResumes (img : Option (BitVec 384)) (s : State) : State :=
  let t := keeperResumeCore img s
  if s.world.keeper = .restarting ∧ t.world.keeper = .running then keysReissued t else t

/-! ### The life cycle (13 R352-R354) -/

/-- The state a life-cycle command leaves, by its code (Table 13.8). -/
def lcFrom (code : Nat) : Nat := nth 9 [9, 0, 1, 2, 3, 3] code

/-- Why a life-cycle command is refused, if it is, in the order of R49: RANGE, WRONG_STATE, REFUSED. -/
def lcRefused (s : State) (code operand : Nat) : Option Nat :=
  if code = 0 ∨ 5 < code ∨ (code = 1 ∧ operand = 0) then some 0x06
  else if lcState s ≠ lcFrom code then some 0x03
  else if code = 4 ∧ s.sl.fuseC = 127 then some 0x0B
  else none

/-- The fuses a command blows. -/
def fusesBlown (code operand : Nat) (s : State) : State :=
  modSl (fun l => match code with
    | 1 => { l with fuseP := true, operatorId := operand }
    | 2 => { l with fuseY := true }
    | 5 => { l with fuseT := true }
    | _ => { l with fuseC := min 127 (l.fuseC + 1) }) s

/-- An accepted life-cycle command (R354): ports down, fuses, reset, and the status of `LC_CMD` after it. `seq` and
`source` are those of the access. A read-back that fails ends it with `FAULT`, and the state stays. -/
def lifeCycle (code operand : Nat) (readBack : Bool) (source seq : Nat) (s : State) : State :=
  let s1 := forAll (below 64) portDisable s
  let done (status detail : Nat) (t : State) : State :=
    modDict (fun d => { d with cmds := smSet d.cmds (pkey 0 P.LC_CMD) ⟨status, source, detail, seq⟩ }) t
  if readBack = false then done 0x0C 0 s1
  else
    let s2 := fusesBlown code operand s1
    let s3 := if code = 5 then
        modSpace (fun x => { x with retired := [] }) (modSl (fun l => { l with journal := [] }) s2)
      else s2
    let s4 := deviceReset 4 s3
    done 0x00 (lcState s4) s4

/-! ### The standby island takes over (14 R367) -/

/-- The latches of a cut whose records were being written: the standby island writes them again (18 R436). -/
def cutAgain : List GbCut → List GbCut
  | [] => []
  | c :: rest => { c with standby := true, kinds := if c.cause = 4 then c.kinds else [1, 2, 3, 4, 5, 6] } :: rest

/-- The island that takes over goes on with its own accumulators (15 R392). -/
def breakersSwap (h : HotSwap) : HotSwap :=
  { h with accum := h.accum2, accum2 := h.accum
           branches := h.branches.map fun e => (e.1, { e.2 with accum := e.2.accum2, accum2 := e.2.accum }) }

/-- The values that retention SRAM holds, taken from the standby island's copy. -/
def valuesFromMirror (d : Dict) : SMap Nat :=
  d.mirror.foldl (fun m e => smSet m e.1 e.2) (smFilter (fun k _ => !inRetention (k % 2 ^ 24)) d.params)

/-- The heartbeat has been missing for 1 ms. -/
def heartbeatLost (s : State) : State :=
  if s.sl.standbyAlive = false ∨ s.sl.vstby = false then s
  else modGb (fun g => { g with latches := cutAgain g.latches }) <| modHs breakersSwap <|
    modUnit (fun u => { u with log := u.logMirror }) <|
    (modDict (fun d => { d with seq := d.seqMirror + 65536, params := valuesFromMirror d, sessions := [] })
      (modSl (fun l => { l with onL2 := !l.onL2, standbyAlive := false, hwmCopy := l.mirror.hwmCopy
                                nightDigest := l.mirror.nightDigest, rootDigest := l.mirror.rootDigest, wrapped := l.mirror.wrapped }) s))

/-! ### The SRAM patrol (11 R306, 13 R345, 08 R224, 10 R284) -/

/-- Whether a granule slot is a sealed one. -/
def sealedSlot (s : State) (m : Nat) : Bool := match smFind s.lod.slots m with | some r => r.isSealed | none => false

/-- A Landing cache line is lost: one newer than DRAM reads as poison from then on (log 129). -/
def cacheLineLost (k : Nat) (s : State) : State :=
  match smFind s.lc k with
  | none => s
  | some l =>
    let s1 := modLc (fun m => smErase m k) s
    match l.state, descAt s l.lodging l.page with
    | .clean, _ | _, none => s1
    | _, some x => if x.state = .plain ∨ (x.state = .moving ∧ x.len = 0) then poisonLine l.lodging l.page l.line x s1 else s1

/-- An entry of a merge buffer is lost, and its line reads as poison (log 129). -/
def mergeLost (c i : Nat) (s : State) : State :=
  match (chanAt s c).merge[i]? with
  | none => s
  | some e =>
    let s1 := modChan c (fun x => { x with merge := x.merge.eraseIdx i }) s
    match descAt s e.lodging e.page with
    | some x => poisonLine e.lodging e.page e.line x s1
    | none => s1

/-- A node or leaf held on chip is lost: one that is newer than DRAM as Table 7.8 of 07 gives; any other is fetched again. -/
def nodeLost (d m h level k : Nat) (s : State) : State :=
  if sealedSlot s m = false ∨ s.prot.dirty.contains (nodeId d m h level k) = false then s
  else
    let n := match smFind s.lod.slots m with | some r => r.lodging | none => 0
    let s1 := modProt (fun x => { x with dirty := x.dirty.filter (· ≠ nodeId d m h level k) }) s
    if level = 0 then leafLost d m (k + 16807 * h) (failCount 2 n s1)
    else subtreeLost d m h level k (failCount 4 n s1)

/-- A key slot is lost: another die that serves gives the secret again, else it is gone with its lodging's pages there (log
129). -/
def keySlotLost (d n : Nat) (s : State) : State :=
  let other := ((below 4).filter fun e => e ≠ d ∧ unitServes s (372 + e)).findSome? fun e => smFind s.prot.secrets (4096 * e + n)
  if (smFind s.prot.secrets (4096 * d + n)).isNone then s
  else modProt (fun x => { x with secrets := match other with
    | some v => smSet x.secrets (4096 * d + n) v
    | none => smErase x.secrets (4096 * d + n) }) s

/-- A word of the active island's retention SRAM is lost: the standby island's copy gives it back while that island is alive
(01 R11); otherwise it is gone (log 129). -/
def retentionLost (what : Retained) (s : State) : State :=
  let alive := s.sl.standbyAlive
  match what with
  | .value k => if inRetention (k % 2 ^ 24) then modDict (fun d => { d with
      params := match alive, smFind d.mirror k with
        | true, some v => smSet d.params k v
        | _, _ => smErase d.params k }) s else s
  | .logRecord q => modUnit (fun u => { u with log := if alive then u.logMirror else u.log.filter (·.seq ≠ q) }) s
  | .sealing => modSl (fun l => let c := if alive then l.mirror else {}
      { l with hwmCopy := c.hwmCopy, nightDigest := c.nightDigest, rootDigest := c.rootDigest, wrapped := c.wrapped }) s

/-- Directory ways whose word cannot be trusted: the entries are gone, the ways disabled, their sets `SUSPECT` (08 R224). -/
def directoryLost (ways : List Nat) (s : State) : State :=
  logPlain 14 1 (modCoh (fun c => { c with
    dir := smFilter (fun k _ => !ways.contains k) c.dir
    disabled := c.disabled ++ ways.filter fun w => !c.disabled.contains w
    suspect := c.suspect ++ ((ways.map (· / 16)).eraseDups.filter fun x => !c.suspect.contains x) }) s)

/-- What the staging buffers hold of a started job is lost: it ends with an engine fault (log 129). -/
def jobSpoiled (q i : Nat) (s : State) : State :=
  match jobAt s q i with
  | some j => if j.stream.isSome ∧ j.ended.isNone then jobEnds j 0x0C 2 s else s
  | none => s

/-- What an uncorrectable SRAM word does to what it holds (R306; what the spec does not say of it is log 129). -/
def sramLost (held : SramHolds) (s : State) : State :=
  match held with
  | .directory ways => directoryLost (ways.map (·.val)) s
  | .label n => logPlain 14 1 (labelLost n.val s)
  | .mirror d w => logPlain 14 1 (modReg (fun r => { r with
      mirror := (below 16).foldl (fun m i => smSet m (d.val * 65536 + 16 * w.val + i) 0) r.mirror }) s)
  | .point i => logPlain 14 1 (modReg (fun r => { r with fair := smMod {} r.fair i.val fun x =>
      { x with s := x.s.map fun e => (e.1, x.v), f := x.f.map fun e => (e.1, x.v) } }) s)
  | .actTable c b => modChan c.val (fun x => { x with
      blind := smSet x.blind b.val (dieTime s (4 + c.val / 8))
      acts := smMod {} x.acts b.val fun t => { t with rows := [] } }) s
  | .cacheLine k => cacheLineLost k.val s
  | .merge c i => mergeLost c.val i.val s
  | .root d m h => if sealedSlot s m.val then rootLost d.val m.val h.val s else s
  | .node d m h level k => nodeLost d.val m.val h.val level.val k.val s
  | .descriptors n p newer => if newer then descFail n.val p.toNat s else s
  | .keySlot d n => keySlotLost d.val n.val s
  | .extents p second i => modLod (fun l => if second then { l with extB := smMod [] l.extB p.val (List.eraseIdx · i.val) }
      else { l with extA := smMod [] l.extA p.val (List.eraseIdx · i.val) }) s
  | .tag h i => modCoh (fun c => { c with home := smMod [] c.home h.val fun q => q.mapIdx fun j r =>
      if j = i.val then { r with req := { r.req with check := Nat.xor r.req.check 1 } } else r }) s
  | .dictionary d x => modComp (fun c => { c with store := smMod [] c.store d.val (List.filter fun y => y.dict ≠ x.val) }) s
  | .dictRecord d x => recordReload d.val x.val s
  | .staging d c => moveAbort (32 * d.val + c.val) true s
  | .retention what => retentionLost what s
  | .l2 i w => if (smFind s.world.l2 (1024 * w.val + i.val)).isSome then l2Invalidate (1024 * w.val + i.val) s else s
  | .directoryCode w => directoryLost [w.val] s
  | .switchBuffer l i => modSw (fun w => { w with stored := smMod [] w.stored l.val fun q => q.mapIdx fun j x =>
      if j = i.val then { x with spoiled := true } else x }) s
  | .ideKey p j => if (ideAt s p.val j.val).state = .none then s else ideFail p.val j.val (ideInsecure p.val j.val s)
  | .jobStaging q j => jobSpoiled q.val j.val s
  | .decoder p second k => modPortAt p.val (fun x => if second then { x with hdmB := smErase x.hdmB k.val }
      else { x with hdmA := smErase x.hdmA k.val }) s
  | .region c i second => modWorld (fun w => { w with regions := smMod {} w.regions (64 * c.val + i.val) fun r =>
      if second then { r with copy := r.copy ^^^ 1#128 } else { r with main := r.main ^^^ 1#128 } }) s
  | .other => s

/-- The die whose SRAM holds something, where it follows from what it is. -/
def heldDie (s : State) : SramHolds → Option Nat
  | .directory ways => ways.head?.map fun w => 4 + w.val / 2 ^ 20
  | .label _ | .point _ | .other => none
  | .mirror d _ => some d.val
  | .actTable c _ | .merge c _ => some (4 + c.val / 8)
  | .cacheLine k => some (4 + k.val / 786432)
  | .root d _ _ | .node d _ _ _ _ | .keySlot d _ | .dictionary d _ | .dictRecord d _ | .staging d _ => some (4 + d.val)
  | .descriptors n p _ => some (4 + homeDie n.val p.toNat)
  | .extents p _ _ => some (p.val / 16)
  | .tag h _ => some (4 + h.val / 16)
  | .retention _ => some (if s.sl.onL2 then 2 else 0)
  | .l2 _ _ => some 1
  | .directoryCode w => some (4 + w.val / 2 ^ 20)
  | .switchBuffer l _ => some l.val
  | .ideKey p _ | .decoder p _ _ => some (p.val / 16)
  | .jobStaging q _ => some (4 + q.val % 4)
  | .region c _ _ => some (if c.val < 32 then 4 + c.val / 8 else bankDie (c.val - 32))

/-- Whether what a word holds fails the check of its owner although the word reads as good (00 R8). -/
def failsOwner : SramHolds → Bool
  | .directoryCode _ => true
  | _ => false

/-- The patrol reads the next word of a bank as class `SCRUB`, with the error bits it came back with: it is decoded as R306
says, and one corrected is written back. What the word holds is lost with it where it lies on the bank's die. -/
def sramPatrol (b : Nat) (word : BitVec 64) (err : BitVec 79) (held : SramHolds) (s : State) : State :=
  let line := smGet 0 s.unit.sramPos b
  let read := decodeSram word err
  let good := read.isSome
  let clean := (read.map (·.1)) == some 0
  let s0 := modUnit (fun u => { u with sramPos := smPut 0 u.sramPos b (line + 1) }) s
  if diePowered s (bankDie b) = false ∨ unitServes s (368 + bankDie b) = false then s
  else if regionPermits s (32 + b) .scrub (good && !clean) (line / 8) = false then
    regionDenied (32 + b) .scrub (good && !clean) (line / 8) s0
  else if clean then (if failsOwner held && !((heldDie s held).any (· != bankDie b)) then sramLost held s0 else s0)
  else
    let kind := if good then 8 else 9
    let s1 := onlyIf (decide (4 ≤ bankDie b)) (modUnit fun u => { u with
      sramCounts := bump 64 u.sramCounts (4 * (bankDie b - 4) + (kind - 6)) 1 }) s0
    let s2 := logEvent 1 0xFFFF (if good then 0 else 1) none
      (sramRecord s kind b (line % 8) ((read.map (·.1)).getD 0) 4) s1
    if (good ∧ failsOwner held = false) ∨ (heldDie s held).any (· != bankDie b) then s2 else sramLost held s2

/-! ### Flash and guest book (02 R35, 18 R432, R436) -/

/-- A die's figures reach the island's accumulators; an unpowered die, or one out of service, adds nothing. -/
def gbFigures (d : Nat) (s : State) : State :=
  if diePowered s d = false ∨ unitServes s (368 + d) = false then s
  else modGb (fun g => { g with
    dieFigs := smErase g.dieFigs d
    figs := (smGet [] g.dieFigs d).foldl (fun m e => smPut 0 m e.1 (smGet 0 m e.1 + e.2)) g.figs }) s

/-! ### Commands -/

/-- REGULATOR_POWER_GOOD (R446). -/
def execRegulatorPowerGood (r : RailId) (s : State) : Out := .next (railsDone (railGood r.val s))
/-- REGULATOR_TIMEOUT (R446). -/
def execRegulatorTimeout (r : RailId) (s : State) : Out := .next (railTimeout r.val s)
/-- POWER_GOOD_LOSS (R447). -/
def execPowerGoodLoss (r : RailId) (s : State) : Out := .next (railLost r.val s)
/-- THERMAL_RECOVERY (R450). -/
def execThermalRecovery (s : State) : Out :=
  .next (if s.sl.thermShutdown then railsDone (thermalRecovery (modSl (fun l => { l with
    bootStage := if s.hs.state = .on then .powering else l.bootStage }) s)) else s)
/-- STANDBY_RISE (R455). -/
def execStandbyRise (strap : BitVec 2) (slSel : Bool) (flash : FlashAtRise) (s : State) : Out :=
  .next (standbyRise strap.toNat (bNat slSel) flash.ok (flash.torn.map (·.val)) s)
/-- STANDBY_LOSS (R447). -/
def execStandbyLoss (s : State) : Out := .next (standbyLost s)
/-- BOOT_FIRMWARE_START (R455, R406). -/
def execBootFirmwareStart (keeper steward : FwSlots) (s : State) : Out :=
  .next (firmwareChecked (verified s keeper) (verified s steward) s)
/-- KEEPER_RESUME (R340). -/
def execKeeperResume (img : FwSlots) (s : State) : Out := .next (keeperResumes (verified s img) s)
/-- DEV_RESET_N (R441). -/
def execDevResetN (s : State) : Out := .next (if s.sl.vstby then deviceReset 2 s else s)
/-- HEARTBEAT_TIMEOUT (R367). -/
def execHeartbeatTimeout (s : State) : Out := .next (heartbeatLost s)
/-- SRAM_PATROL (R345). -/
def execSramPatrol (bank : Fin 128) (read : SramRead) (held : SramHolds) (s : State) : Out :=
  .next (sramPatrol bank.val read.word read.err held s)
/-- GB_FIGURES (R436). -/
def execGbFigures (d : DieId) (s : State) : Out := .next (gbFigures d.val s)

end Sys2Proof.Machine
end

