-- ==== Sys2Proof/Machine/PowerEntry.lean ====
section
/-! DEFINITION. Main power good, and the events of the wing branches with what they mean for the wing behind (15 R377,
R386-R391). -/

namespace Sys2Proof.Machine

/-- `MAIN_VOUT` is at power good with stage A fully on (Table 15.2, step 7): the dies are powered, by the exit order that
waits for it, or by the start-up order with the device reset that is due (R386). After a thermal shutdown they wait for
the recovery. -/
def mainPowerGood (s : State) : State :=
  if s.hs.state ≠ .ramp then s
  else
    let s1 := modHs (fun h => { h with state := .on, onSince := s.slTime, peak := 0, windowReturn := false }) s
    if s1.sl.thermShutdown then s1
    else if s1.ps.state = .exiting then startRails .exit (modPs (fun p => { p with exitStep := 2 }) s1)
    else if 2 ≤ s1.sl.resetArmed then deviceReset s1.sl.resetArmed s1
    else railsDone (startRails .boot (modSl (fun l => { l with bootStage := .powering }) s1))

/-- Whether the dies run, so that what happens to a wing can be handled at once. -/
def diesRun (s : State) : Bool :=
  s.sl.railStep == 6 && s.ps.state != .night && s.ps.state != .off && !(s.ps.state == .exiting && decide (s.ps.exitStep < 6)) &&
    !(s.ps.state == .entering && decide (6 ≤ s.ps.entryStep))

/-- The wing of a tripped branch leaves service with cause 3 (R389). -/
def wingUnpowered (w : Nat) (s : State) : State :=
  let re := (wingAt s w).state == .reopening
  let s1 := if (unitAt s (96 + w)).state = .outOfService then (if re then wingFaults w s else s)
    else recomputeD (unitFault (96 + w) 3 s)
  chanUnpowered re (2 * w + 1) (chanUnpowered re (2 * w) s1)

/-- A branch trips (R389). In `NIGHT` its wing is handled once the device has woken (R390). -/
def branchTripped (w cause cur : Nat) (s : State) : State :=
  onlyIf (diesRun s) (wingUnpowered w) (branchTripCore w cause cur s)

/-- A sample of a branch (R391), which may trip it (R383, R389). -/
def branchSampled (w vout cur other : Nat) (s : State) : State :=
  let s1 := measureBranch w vout cur other s
  match branchTripCause w cur other s1 with
  | some c => branchTripped w c cur s1
  | none => s1

/-- A branch trips between samples: its current crosses `BR_FAST_TRIP`, or its accumulator stands at its budget. -/
def branchTripEvent (w : Nat) (fast : Bool) (cur : Nat) (s : State) : State :=
  let s1 := modBranch w (fun b => { b with current := cur }) s
  let b := branchAt s w
  if b.gate = false ∨ b.state = .fetFault then s1
  else if fast then (if pnum s P.BR_FAST_TRIP < cur then branchTripped w 1 cur s1 else s1)
  else if budget ≤ b.accum ∨ (s.sl.standbyAlive ∧ budget ≤ b.accum2) then branchTripped w 2 cur s1 else s1

/-- A ramping branch reports power good (R387): a reopening wing trains its channels. -/
def branchGood (w : Nat) (s : State) : State :=
  if (branchAt s w).ramping = false then s
  else
    let s1 := modBranch w (fun b => { b with state := .on, ramping := false }) s
    if (wingAt s1 w).state = .reopening ∧ [2 * w, 2 * w + 1].all (fun c => (chanAt s1 c).state != .training) then trainWing w s1
    else s1

/-- A branch conducts with its gate off 10 ms after it was pulled down (R388): its gate is driven on again; the evacuation
ends `FAULT`, and the wing goes on with step 2 of Table 4.6. A wing on its way out on a fault is settled first. -/
def fetFault (w : Nat) (s : State) : State :=
  let b := branchAt s w
  if b.gate ∨ (b.state ≠ .on ∧ b.state ≠ .tripped) then s
  else
    let x := wingAt s w
    let s1 := logEvent 13 (96 + w) 3 none 0 (bumpHs 7 (modBranch w (fun y => { y with state := .fetFault, gate := true }) s))
    if x.state ≠ .shuttering ∨ wingFaulted s w then s1
    else
      let s2 := if x.byCmd then cmdEnd 0 P.WING_CMD 0x0C 0 s1 else s1
      let s3 := match x.byUnit with
        | some u => cmdEnd u P.UNIT_CMD 0x0C 0 s2
        | none => s2
      reopenStart w false none (modWingAt w (fun y => { y with byCmd := false, byUnit := none }) s3)

/-- A branch reports off below 1.0 V (R388). -/
def branchOff (w : Nat) (s : State) : State :=
  if (branchAt s w).gate = false ∧ (branchAt s w).state = .on then modBranch w (fun b => { b with state := .off }) s else s

/-! ### Commands -/

/-- MAIN_POWER_GOOD (R377). -/
def execMainPowerGood (s : State) : Out := .next (mainPowerGood s)
/-- BRANCH_POWER_GOOD (R387). -/
def execBranchPowerGood (w : WingId) (s : State) : Out := .next (branchGood w.val s)
/-- BRANCH_RAMP_TIMEOUT (R387): cause 4. -/
def execBranchRampTimeout (w : WingId) (s : State) : Out :=
  .next (if (branchAt s w.val).ramping then branchTripped w.val 4 (branchAt s w.val).current s else s)
/-- BRANCH_SAMPLE (R387). -/
def execBranchSample (w : WingId) (vout : BitVec 16) (cur : IslandCurrents) (s : State) : Out :=
  .next (branchSampled w.val vout.toNat cur.active.toNat cur.other.toNat s)
/-- BRANCH_TRIP (R389). -/
def execBranchTrip (w : WingId) (fast : Bool) (cur : BitVec 32) (s : State) : Out :=
  .next (branchTripEvent w.val fast cur.toNat s)
/-- BRANCH_OFF (R388). -/
def execBranchOff (w : WingId) (s : State) : Out := .next (branchOff w.val s)
/-- FET_FAULT (R388). -/
def execFetFault (w : WingId) (s : State) : Out := .next (fetFault w.val s)

end Sys2Proof.Machine
end

