-- ==== Sys2Proof/Machine/Night.lean ====
section
/-! DEFINITION. Entry to `NIGHT` and `OFF`, and the exit from them (16 R402-R407, 07 R200-R201, 02 R56). -/

namespace Sys2Proof.Machine

/-! ### What is sealed (07 Table 7.7, 02 R56) -/

/-- Bytes as ciphertext lines of a reserved region (07 Table 7.3, domain 7), from line `i`. -/
def regionCipher (s : State) (d region : Nat) : Nat → List (List Byte) → List Byte
  | _, [] => []
  | i, l :: rest =>
    metaCipher s d (regionTweak region i) (fit 0#8 64 l) ++ regionCipher s d region (i + 1) rest

/-- Root counter `r` of a die: of a sealed granule slot that has not been written since set-up, where its tree started; of any
other slot 0 (07 R190). -/
def rootCounter (s : State) (d r : Nat) : Nat :=
  if (smFind s.lod.slots (r / 2)).any (·.isSealed) then parentCounter s d (r / 2) (r % 2) 5 0 else 0

/-- The root image of a die: its root counters, then `HWM_d` (07 Table 7.7, step 2). -/
def rootImage (s : State) (d : Nat) : List Byte :=
  regionCipher s d 2 0 (((below 65536).map fun i => (below 8).flatMap fun j =>
    leBytes 8 (rootCounter s d (8 * i + j))) ++ [leBytes 8 (smGet 0 s.prot.hwm d)])

/-- Whether a parameter's NIGHT value lies in the night region. -/
def inNightRegion (k : Nat) : Bool :=
  let g := k % 2 ^ 24 / 256
  (decide (0x1000 ≤ g) && decide (g < 0x2000)) || g == 0x2200

/-- `LODGE_STATE` (Table 3.9). -/
def LodgeState.code : LodgeState → Nat
  | .free => 0 | .preparing => 1 | .ready => 2 | .active => 3 | .releasing => 4 | .wiping => 5
/-- `DICT_STATE` (Table 5.7). -/
def DictState.code : DictState → Nat
  | .free => 0 | .training => 1 | .installed => 2 | .retiring => 3 | .damaged => 4

/-- What the night region holds, as M0 writes it; how it is laid out is the model's own (log 29). -/
def nightBytes (s : State) : List Byte :=
  ((smFilter (fun k _ => inNightRegion k) s.dict.params).flatMap fun e => leBytes 8 e.1 ++ leBytes 64 e.2) ++
    (s.lod.dirBase.flatMap fun e => leBytes 2 e.1 ++ leBytes 8 e.2) ++
    (s.lod.lodges.flatMap fun e => leBytes 2 e.1 ++ leBytes 1 e.2.state.code ++ leBytes 2 e.2.gen ++ leBytes 8 e.2.pagesLost ++
      leBytes 4 (smGet 0 s.prot.epoch e.1) ++ leBytes 8 (smGet 0 s.prot.sealFails e.1)) ++
    (s.prot.rekeys.flatMap fun e => leBytes 2 e.1 ++ e.2.bounds.flatMap fun b => leBytes 1 b.1 ++ leBytes 8 b.2) ++
    s.comp.rows.flatMap fun e => leBytes 2 e.1 ++ leBytes 1 e.2.state.code ++ leBytes 4 e.2.sampled ++ leBytes 2 e.2.owner ++ leBytes 4 (dictRec s e.1).crc ++
      (dictRec s e.1).lengths.flatMap (leBytes 1) ++ e.2.refs.flatMap fun r => leBytes 1 r.1 ++ leBytes 8 r.2

/-- The ciphertext of the night region. -/
def nightRegion (s : State) : List Byte :=
  let b := nightBytes s
  regionCipher s 0 3 0 (chunks 64 (b.length / 64 + 1) b)

/-- The memory dies in service. -/
def servingDies (s : State) : List Nat := (below 4).filter fun d => unitServes s (372 + d)

/-- Step 2 of Table 7.7: every die writes its image to its own reserve and to its partner's (keys `d` and `4 + d` of
`images`), and M0 the night region and its mirror (keys 8 and 9). Without a lodging there is nothing to seal (R407). -/
def imagesWritten (s : State) : State :=
  let own := (servingDies s).map fun d => (d, rootImage s d)
  let copies := ((servingDies s).filter fun d => unitServes s (372 + partner d)).map fun d => (4 + d, rootImage s d)
  let r := nightRegion s
  modProt (fun x => { x with images := if s.ps.entryToOff then [] else own ++ copies ++ [(8, r), (9, r)] }) s

/-- D, over the images given (07 Table 7.7, steps 2 and 3). -/
def rootDigestOf (images : List (List Byte)) : BitVec 256 := BitVec.ofNat 256 (beNat (sha256 (images.flatMap sha256)))

/-- One wrapped secret: lodging, epoch, what it is, and 40 bytes (07 Table 7.7, step 4). What it is: 0 and 1 the halves of
`K_META`, 2 `K_TREE`, 3 `SECRET_n`, 4 and up a transition slot (log 29). -/
def wrapOne (kek : List Byte) (n epoch what : Nat) (secret : BitVec 256) : List Byte :=
  leBytes 2 n ++ leBytes 4 epoch ++ leBytes 1 what ++ aesWrap kek (beBytes 32 secret.toNat)

/-- The wrapped set, from the slots of the lowest die in service. -/
def wrappedSet (kek : List Byte) (s : State) : List Byte :=
  let d := (servingDies s).headD 0
  let m := smGet 0#512 s.prot.kMeta d
  wrapOne kek 0 0 0 (m.setWidth 256) ++ wrapOne kek 0 0 1 ((m >>> 256).setWidth 256) ++
    wrapOne kek 0 0 2 (smGet 0#256 s.prot.kTree d) ++
    ((liveLodges s).flatMap fun n => match smFind s.prot.secrets (4096 * d + n) with
      | some k => wrapOne kek n (keyEpoch s n) 3 k
      | none => []) ++
    (below 4).flatMap fun t => match smFind s.prot.tslots (4 * d + t) with
      | some x => wrapOne kek x.lodging x.epoch (4 + t) x.secret
      | none => []

/-- Steps 3 and 4 of Table 7.7: `K_NIGHT` is drawn, D and the night-region digest are stored, the keys are wrapped. -/
def rootsSealed (s : State) : State :=
  if s.ps.entryToOff then s
  else
    let k := Config.trng s.fresh
    afterDraw (retain (fun l => { l with
      kNight := k
      rootDigest := rootDigestOf ((below 4).map fun d => smGet [] s.prot.images d)
      nightDigest := BitVec.ofNat 256 (beNat (sha256 (smGet [] s.prot.images 8)))
      wrapped := wrappedSet (beBytes 32 k.toNat) s }) s)

/-- `K_NIGHT`, D and the wrapped set are zeroed. -/
def sealZeroed (s : State) : State :=
  retain (fun l => { l with kNight := 0, rootDigest := 0, nightDigest := 0, wrapped := [] }) s

/-! ### The steps of the entry (Table 16.4) -/

/-- The counter-tree nodes still to be written back on one level, whichever die, tree and node they are. -/
def dirtyLevel (s : State) (level : Nat) : List Nat := s.prot.dirty.filter fun id => id / 2 ^ 18 % 8 == level

/-- Every dirty line of the integrity and metadata cache is written back, children before parents (R194). -/
def treeFlushed (s : State) : State :=
  forAll (below 6) (fun level t => forAll (dirtyLevel t level) (fun id u =>
    nodeWriteBack (id / 2 ^ 40) (id / 2 ^ 22 % 2 ^ 18) (id / 2 ^ 21 % 2) level (id % 2 ^ 18) u) t) s

/-- Every merge buffer and write queue drains. -/
def channelsDrained (s : State) : State :=
  forAll (below 32) (fun c t => drainChan c (forAll (chanAt t c).merge (mergeOut c) t)) s

/-- The rest of step 3, once the directory is clear: resident lines are released, and every `DIRTY` line is written
back (R231, R94). -/
def cacheFlushed (s : State) : State :=
  let s1 := releaseResidents (fun _ => true) s
  let s2 := forAll s1.tier.evicted writeBackLine (modTier (fun t => { t with evicted := [] }) s1)
  forAll (s2.lc.filter fun e => e.2.state == .dirty)
    (fun e t => lcPut e.1 { e.2 with state := .clean } (writeBackLine e.2 t)) s2

/-- Ports named in the directory whose link is not up (08 R225). -/
def deadHolders (s : State) : List Nat :=
  (below 64).filter fun p => !portUp s p && s.coh.dir.any fun e => (holderPorts s (entryLine e.1 e.2).1 e.2).contains p

/-- At `NIGHT` entry every entry that is not yet being recalled is (08 R225). -/
def nightRecall (s : State) : State :=
  let asked (k : Nat) (e : DirEntry) : Bool :=
    let l := entryLine k e
    let key := lineKey l.1 l.2.1 l.2.2
    (s.coh.txs.any fun t => t.key == key) || s.coh.due.any fun w => w.key == key
  removeEntries (fun k e => !asked k e) false s

/-- What begins with a step of the entry. -/
def entryBegin (k : Nat) (s : State) : State :=
  match k with
  | 2 => forAll ((s.comp.rows.filter fun e => e.2.state == .training).map (·.1)) (fun x => trainStop x 0x0B 2)
      (forAll (below 4) (fun d t => rekeysUnlock d (moverAbandon d t)) s)
  | 3 => nightRecall
      (modCoh (fun c => { c with absent := [], dying := [] }) (forAll (deadHolders s) (fun p => deadAgent p true) s))
  | 4 => imagesWritten (treeFlushed (channelsDrained s))
  | 5 => forAll (below 24) linkStops
      (forAll ((below 32).filter fun c => (wingAt s (c / 2)).state != .shut) chanSelfRefresh (rootsSealed s))
  | _ => s

/-- Whether a step of the entry is complete. -/
def entryReady (s : State) : Bool :=
  match s.ps.entryStep with
  | 3 => s.coh.dir == [] && s.coh.txs == []
  | 5 => s.link.all fun e => e.2.state != .active && e.2.state != .reset
  | _ => true

/-- An entry is abandoned at abort point `k` (R403): the root images are discarded, what was sealed is zeroed, and the
channels and links return. -/
def entryAbandon (k source : Nat) (s : State) : State :=
  let s1 := if 4 ≤ k then modProt (fun x => { x with images := [] }) s else s
  let s2 := if k = 5 then linksReset 6 (forAll (below 32) chanWake (sealZeroed s1)) else s1
  let s3 := bumpPs 1 (recordWake source k (modPs (fun p => { p with
    entryStep := 0, entryToOff := false, abort := none, timerEnd := none, target := voteTarget s }) s2))
  psEnter (if voteTarget s = 3 then runState s3 else .idle) s3

/-! ### What `NIGHT` and `OFF` keep (13 Table 13.9, 16 Table 16.1) -/

/-- VOLATILE values of the dies return to their defaults; the island's own are kept. -/
def dieVolatileGone (s : State) : State :=
  modDict (fun d => { d with
    params := smFilter (fun k _ => decide (k % 2 ^ 24 / 256 < 0x500) || persOf (k % 2 ^ 24) != .volatile) d.params }) s

/-- The worlds while the dies are unpowered: only the outcome of their measurement stays. -/
def worldsAsleep (w : Worlds) : Worlds :=
  { keeper := if w.keeper = .halted then .halted else .running
    restartCause := w.restartCause, keeperDigest := w.keeperDigest, stewardDigest := w.stewardDigest, meas := w.meas
    regions := lockedRegions }

/-- The dies lose their power, and with it everything their SRAM holds that is not NIGHT-class. -/
def diesAsleep (s : State) : State :=
  let t := dieVolatileGone (regulationReset s)
  { t with
    world := worldsAsleep t.world
    link := t.link.map fun e => (e.1, e.2.asleep)
    port := []
    sw := { vcs := t.sw.vcs, armed := t.sw.armed }
    ch := t.ch.map fun e => (e.1, { state := e.2.state, test := e.2.test })
    prot := { t.prot with
      secrets := [], tslots := [], kMeta := [], kTree := [], kXport := [], messages := [], jobs := [], ide := [], fails := []
      dirty := [], root := [] }
    lc := []
    tier := { epoch := t.tier.epoch }
    coh := { down := t.coh.down, linesLost := t.coh.linesLost, suspect := t.coh.suspect, disabled := t.coh.disabled }
    comp := { rows := t.comp.rows }
    job := {}
    unit := { t.unit with scanning := [], rebuild := [], sramPos := [], sramCounts := [] }
    ps := { t.ps with gated := [], moving := [] }
    gb := { t.gb with dieFigs := [] } }

/-- `OFF` (R407): the branches open, the main input parks, and DRAM loses what it held. -/
def parkMain (s : State) : State :=
  let s1 := openAllBranches (allRailsFall false s)
  modSpace (fun x => { x with
    dram := [], marks := [], passed := [], blankQ := [], reserve := [], search := []
    uses := x.uses.filter fun e => match e.2.kind with | .region _ _ => true | .retired => true | _ => false })
    (modHs (fun h => { h with state := .parked, gateA := false, gateB := false }) s1)

/-- `PS_STATE` becomes `OFF`. -/
def offReached (s : State) : State :=
  psEnter .off (bumpPs 3 (modProt (fun x => { hwm := x.hwm, mirrorOff := x.mirrorOff }) (parkMain s)))

/-- `PRESENCE_N` and `HS_ALERT` are sampled as levels when step 6 ends, and wake once `NIGHT` is reached (R405). -/
def levelsLatched (s : State) : State :=
  let level : Option Nat := if s.sl.presenceLow then some 5 else if hsAlertLevel s then some 6 else none
  modPs (fun p => { p with latchedWake := p.latchedWake.or level }) s

/-- Step 7 of the entry: the rails fall. A vote above `NIGHT` that still stands wakes once `NIGHT` is reached. -/
def entryEnds (s : State) : State :=
  let s0 := diesAsleep s
  let vote : Option Nat := if 2 ≤ voteTarget s0 then some 8 else none
  let s1 := modPs (fun p => { p with entryStep := 0, latchedWake := p.latchedWake.or vote }) s0
  if s.ps.entryToOff then offReached s1
  else psEnter .night (bumpPs 0 (allRailsFall true s1))

/-- Whether the device is in a state in which an entry can start. -/
def mayEnter (s : State) : Bool :=
  (s.ps.state == .run || s.ps.state == .idle || s.ps.state == .drowse) && s.hs.state == .on && s.sl.railStep == 6

/-- Step 1 of Table 16.4. -/
def entryStart (off : Bool) (s : State) : State :=
  psEnter .entering (armTimer (modPs (fun p => { p with
    entryStep := 1, entryToOff := off, abort := none, latchedWake := none, target := voteTarget s }) s))

/-- The target falls to `NIGHT`. -/
def nightEntry (s : State) : State := if voteTarget s = 1 ∧ mayEnter s = true then entryStart false s else s

/-- The target falls to `OFF`, which it does only without a lodging (R396, R407). From `NIGHT` nothing is left to run. -/
def offEntry (s : State) : State :=
  if voteTarget s ≠ 0 then s
  else if mayEnter s then entryStart true s
  else if s.ps.state = .night ∧ s.ps.latchedWake = none then offReached (modPs (fun p => { p with target := 0 }) s)
  else s

/-- The present step of the entry completes (Table 16.4): at abort points 1 to 5 a wake, or a target above `NIGHT`,
abandons the entry (R397, R403), else the next step begins. -/
def entryStepEnds (s : State) : State :=
  if s.ps.state ≠ .entering ∨ entryReady s = false then s
  else
    let k := s.ps.entryStep
    let s1 := if k = 3 then cacheFlushed s else if k = 6 then levelsLatched s else s
    let wakes : Option Nat := s.ps.abort.or (if 2 ≤ voteTarget s then some 8 else none)
    if 7 ≤ k then entryEnds s1
    else match wakes with
      | some src => if k ≤ 5 then entryAbandon k src s1 else modPs (fun p => { p with entryStep := k + 1 }) s1
      | none => entryBegin (k + 1) (modPs (fun p => { p with entryStep := k + 1 }) s1)

/-- The entry goes on; a link that held transfers when step 5 began stops once they are acknowledged (12 R334). -/
def entryAdvance (s : State) : State :=
  entryStepEnds (onlyIf (s.ps.state == .entering && s.ps.entryStep == 5) (forAll (below 24) linkStops)
    (onlyIf (s.ps.state == .entering && s.ps.entryStep == 3) nightRecall s))

/-! ### The exit (Table 16.6) -/

/-- A wake starts the exit; from `OFF` the main input leaves `PARKED` first (R407). -/
def exitStart (s : State) : State :=
  match s.ps.latchedWake with
  | none => s
  | some src =>
    let s1 := bumpPs 2 (recordWake src 0 (modPs (fun p => { p with wakeHold := true, timerEnd := none, latchedWake := none }) s))
    match s.ps.state with
    | .night => psEnter .exiting (modPs (fun p => { p with exitStep := 1, exitFromOff := false }) s1)
    | .off =>
      if s.hs.state = .parked then
        psEnter .exiting (modHs (fun h => { h with state := .window })
          (modPs (fun p => { p with exitStep := 1, exitFromOff := true }) s1))
      else s
    | _ => s

/-- One wrapped secret returns to its register or slot on every memory die in service. -/
def unwrapOne (kek rec : List Byte) (s : State) : State :=
  let n := leNat (rec.take 2)
  let e := leNat (slice 2 4 rec)
  let what := leNat (slice 6 1 rec)
  match aesUnwrap kek (rec.drop 7) with
  | none => s
  | some b =>
    let v : BitVec 256 := BitVec.ofNat 256 (beNat b)
    modProt (fun x => (servingDies s).foldl (fun x d =>
      if what = 0 then { x with kMeta := smMod 0#512 x.kMeta d fun k => k ||| v.setWidth 512 }
      else if what = 1 then { x with kMeta := smMod 0#512 x.kMeta d fun k => k ||| (v.setWidth 512 <<< 256) }
      else if what = 2 then { x with kTree := smSet x.kTree d v }
      else if what = 3 then { x with secrets := smSet x.secrets (4096 * d + n) v }
      else { x with tslots := smSet x.tslots (4 * d + (what - 4)) ⟨v, n, e⟩ }) x) s

/-- Step 5: the wrapped set is unwrapped and `K_XPORT` is drawn (07 R201); from `OFF` all three keys are drawn. -/
def keysReturn (s : State) : State :=
  if s.ps.exitFromOff then keysDrawn s
  else
    let kek := beBytes 32 s.sl.kNight.toNat
    let s1 := forAll (chunks 47 (s.sl.wrapped.length / 47) s.sl.wrapped) (unwrapOne kek) s
    xportDrawn s1

/-- Whether what a die wrote to its reserved frames can be read: a wing that holds them still has its branch. -/
def reserveReadable (s : State) (d : Nat) : Bool :=
  unitServes s (372 + d) && (dieWings d).all fun w => !anchorWing s w || branchLive s w

/-- Whether a line of an image is read back, by a draw, without an uncorrectable word. -/
def readsLine (r image line : Nat) : Bool := !Config.nightLineBad r image line

/-- Whether an image is read back without an uncorrectable word. -/
def readsWhole (r : Nat) (s : State) (image : Nat) : Bool :=
  (below ((smGet [] s.prot.images image).length / 64)).all (readsLine r image)

/-- Die `d`'s image as it is read: its own, else its partner's copy where its own has an uncorrectable word (07 R201). -/
def imageRead (r : Nat) (s : State) (d : Nat) : List Byte :=
  if reserveReadable s d && readsWhole r s d then smGet [] s.prot.images d
  else if reserveReadable s (partner d) && readsWhole r s (4 + d) then smGet [] s.prot.images (4 + d)
  else []

/-- A die's root counters and `HWM_d` as its image holds them. -/
def rootsLoaded (s : State) (d : Nat) (image : List Byte) : State :=
  let lines := (chunks 64 (image.length / 64) image).zipIdx.map fun q => metaCrypt false s d (regionTweak 2 q.2) q.1
  let counters := (lines.take 65536).flatMap fun l => (below 8).map fun j => leNat (slice (8 * j) 8 l)
  let listed := (counters.zipIdx.filter fun q => q.1 != 0).map fun q => (d * 2 ^ 19 + q.2, q.1)
  modProt (fun x => { x with
    root := x.root.filter (fun e => decide (e.1 < d * 2 ^ 19)) ++ listed ++
      x.root.filter (fun e => decide ((d + 1) * 2 ^ 19 ≤ e.1))
    hwm := smPut 0 x.hwm d (leNat ((lines.getD 65536 []).take 8)) }) s

/-- The root images do not match (07 Table 7.8): every page of every sealed lodging is `LOST`, and its trees start
afresh. -/
def rootsDistrusted (s : State) : State :=
  let sealedSlots := s.lod.slots.filter fun e => e.2.isSealed
  let s0 := modProt (fun x => { x with hwm := x.hwm.map fun e => (e.1, max e.2 (smGet 0 s.sl.hwmCopy e.1)) }) s
  let s1 := forAll ((sealedSlots.map fun e => e.2.lodging).eraseDups) (fun n t => failCount 7 n t) s0
  let s2 := forAll sealedSlots (fun e t => forAll (below 65536) (fun i u =>
    let p := e.2.granule * 65536 + i
    pageLost 3 e.2.lodging p (smGet 0 u.prot.hwm (homeDie e.2.lodging p)) (match descAt u e.2.lodging p with
      | some x => leaveDict e.2.lodging p x u
      | none => u)) t) s1
  forAll sealedSlots (fun e t => forAll (servingDies t) (fun d u =>
    subtreeFresh d e.1 1 5 0 (subtreeFresh d e.1 0 5 0 u)) t) s2

/-- Step 6 for the roots (07 R201). -/
def rootsChecked (r : Nat) (s : State) : State :=
  if s.ps.exitFromOff then s
  else
    let images := (below 4).map (imageRead r s)
    let s1 := forAll (servingDies s) (fun d t => rootsLoaded t d (nth [] images d)) s
    let s2 := if rootDigestOf images = s.sl.rootDigest then s1 else rootsDistrusted s1
    retain (fun l => { l with kNight := 0, rootDigest := 0, wrapped := [] }) s2

/-- The night region read from one copy, each line with an uncorrectable word taken from the other (02 R56). -/
def nightRead (r : Nat) (s : State) (first : Nat) : List Byte :=
  let copy (k : Nat) : List Byte := if reserveReadable s (2 * (k - 8)) then smGet [] s.prot.images k else []
  let other := 17 - first
  let lines := max (copy first).length (copy other).length / 64
  (below lines).flatMap fun i =>
    let own := slice (64 * i) 64 (copy first)
    if readsLine r first i && own != [] then own
    else if readsLine r other i then slice (64 * i) 64 (copy other) else []

/-- Whether the night region is what was written, in M0's copy or in its mirror (02 R56). -/
def nightGood (r : Nat) (s : State) : Bool :=
  s.ps.exitFromOff || [8, 9].any fun k => BitVec.ofNat 256 (beNat (sha256 (nightRead r s k))) == s.sl.nightDigest

/-- DRAM at step 6: the channels leave self-refresh with tables not valid, or, from `OFF`, train again. A wing whose branch
tripped meanwhile is handled now (15 R390). -/
def channelsReturn (s : State) : State :=
  let back (w : Nat) (t : State) : State :=
    if (branchAt t w).state = .tripped then wingUnpowered w t
    else if t.ps.exitFromOff then branchRequest w (trainWing w t)
    else forAll [2 * w, 2 * w + 1] (fun c u =>
      if (chanAt u c).state = .training then trainChan c (chanAt u c).test u
      else afterDraw (modChan c (fun x => { x with lfsr := Config.lfsrSeed u.fresh }) (chanWake c u))) t
  forAll ((below 16).filter fun w => chanPopulated s (2 * w) && (wingAt s w).state != .shut && unitServes s (372 + w / 4)) back s

/-- Step 7: both decoder tables of every port are loaded from the extent region and compared (03 R68). A port whose loads
differ, or whose records cannot be read, is left without memory traffic. -/
def extentsLoaded (r : Nat) (s : State) : State :=
  let good := s.ps.exitFromOff || reserveReadable s 0 || reserveReadable s 2
  let s1 := if good then modLod (fun l => { l with extA := l.extKept, extB := l.extKept }) s else s
  forAll ((s.lod.extKept.filter fun e => e.2 != [] && (!good || Config.extentsDiffer r e.1)).map (·.1)) (fun p t =>
    logPlain 14 1 (modPortAt p (fun x => { x with noMem := true }) t)) s1

/-- What ends with each step of the exit order, and so begins with the next. What DRAM gives back is free, by the draw `r`. -/
def exitWork (r k : Nat) (s : State) : State :=
  match k with
  | 1 => startRails .exit s
  | 2 => timebasesAlign (deniedOut (modSl (fun l => { l with railsFor := .none }) s))
  | 3 => linksReset 6 s
  | 4 => keysReturn s
  | 5 =>
    let t := channelsReturn (rootsChecked r (afterDraw s))
    modProt (fun x => { x with images := [] }) (retain (fun l => { l with nightDigest := 0 }) t)
  | 6 => unitsAtExit (dictsAtExit (offloadAtExit (extentsLoaded r (afterDraw s))))
  | _ =>
    let t := portsStart ((below 64).filter fun p => unitServes s p && unitServes s (368 + p / 16)) (regulationReset s)
    let u := recomputeD (modPs (fun p => { p with exitStep := 0, exitFromOff := false, target := voteTarget t }) t)
    psEnter (if voteTarget u = 3 then runState u else .idle) u

/-- Whether a step of the exit is complete. -/
def exitReady (s : State) : Bool :=
  match s.ps.exitStep with
  | 1 => !s.ps.exitFromOff
  | 2 => s.sl.railStep == 6
  | 4 => s.link.all fun e => e.2.state != .reset
  | _ => true

/-- The present step of the exit completes. A night region that cannot be trusted ends it with a device reset (02 R56). -/
def exitAdvance (s : State) : State :=
  if s.ps.state ≠ .exiting ∨ s.ps.exitStep = 0 ∨ exitReady s = false then s
  else if s.ps.exitStep = 5 ∧ nightGood s.fresh s = false then logPlain 14 1 (deviceReset 7 (afterDraw s))
  else exitWork s.fresh s.ps.exitStep (modPs (fun p => { p with exitStep := p.exitStep + 1 }) s)

/-! ### Commands -/

/-- NIGHT_ENTRY (R402). -/
def execNightEntry (s : State) : Out := .next (nightEntry s)
/-- NIGHT_ENTRY_ADVANCE (R402, R403). -/
def execNightEntryAdvance (s : State) : Out := .next (entryAdvance s)
/-- NIGHT_EXIT (R406). -/
def execNightExit (s : State) : Out := .next (exitStart s)
/-- NIGHT_EXIT_ADVANCE (R406). -/
def execNightExitAdvance (s : State) : Out := .next (exitAdvance s)
/-- OFF_ENTRY (R407). -/
def execOffEntry (s : State) : Out := .next (offEntry s)

end Sys2Proof.Machine
end

