-- ==== Sys2Proof/Machine/ParamValues.lean ====
section
/-! DEFINITION. What a read returns for every RO member: the parameter tables of the chapters (02 R37, R54, Tables 3.1,
3.8, 4.7, 4.8, 5.9-5.10, 6.1, 7.10, 7.11, 8.7, 9.10, 9.11, 10.2, 10.5, 10.6, 11.10, 11.11, 12.5, 13.11, 14.10, 14.11,
15.6, 16.7, 17.6, 18.4, 19 R452, 20 R456). -/

namespace Sys2Proof.Machine

/-! ### Codes of the states -/

/-- `HS_STATE` (Table 15.3). -/
def HsState.code : HsState → Nat
  | .unseated => 0 | .seating => 1 | .window => 2 | .cooling => 3 | .delay => 4 | .check => 5 | .ramp => 6 | .on => 7
  | .tripped => 8 | .latched => 9 | .parked => 10
/-- `BR_STATE` (Table 15.5). -/
def BrState.code : BrState → Nat
  | .off => 0 | .ramp => 1 | .on => 2 | .tripped => 3 | .fetFault => 4
/-- `BOOT_STAGE` (Table 20.2). -/
def BootStage.code : BootStage → Nat
  | .standby => 0 | .powering => 1 | .booting => 2 | .firmware => 3 | .training => 4 | .ready => 5
/-- `WING_STATE` (Table 4.4). -/
def WingState.code : WingState → Nat
  | .openW => 0 | .draining => 1 | .empty => 2 | .shuttering => 3 | .shut => 4 | .reopening => 5
/-- `LINK_STATE` (Table 9.10). -/
def LinkState.code : LinkState → Nat
  | .off => 0 | .disabled => 1 | .training => 2 | .up => 3 | .down => 4
/-- `CH_STATE` (Table 11.10). -/
def ChState.code : ChState → Nat
  | .unpopulated => 0 | .declared => 1 | .training => 2 | .active => 3 | .selfRefresh => 4 | .off => 5 | .failed => 6
/-- `UNIT_STATE` (Table 14.2). -/
def UnitState.code : UnitState → Nat
  | .inService => 0 | .draining => 1 | .outOfService => 2 | .testing => 3 | .rejoining => 4

/-! ### Tables -/

/-- `n` counts of `w` bytes each, from key `base`. -/
def countBytes (w n base : Nat) (m : SMap Nat) : List Byte := (below n).flatMap fun i => leBytes w (smGet 0 m (base + i))

/-- One value for each memory die. -/
def perDie (w : Nat) (f : Nat → Nat) : List Byte := (below 4).flatMap fun d => leBytes w (f d)

/-- An error log record (14 Table 14.8). -/
def logBytes (r : LogRec) : List Byte :=
  leBytes 64 (r.seq % 2 ^ 64 + r.time % 2 ^ 40 * 2 ^ 64 + r.kind * 2 ^ 104 + r.unit * 2 ^ 112 + r.severity * 2 ^ 128 +
    (match r.page with
     | some (n, p) => n * 2 ^ 136 + 2 ^ 148 + p * 2 ^ 149
     | none => 0) + r.body % 2 ^ 256 * 2 ^ 256)

/-- `RETIRED` (11 Table 11.11): entries of 8 bytes; a frame entry is followed by the word that holds its frame. -/
def retiredBytes (s : State) : List Byte :=
  (s.space.retired.flatMap (·.2)).flatMap fun e =>
    leBytes 8 e.1 ++ (if bitOf e.1 37 then leBytes 8 e.2 else [])

/-- Record `i` of `GB_RECENT` (18 R437). -/
def gbRecent (s : State) (i : Nat) : List Byte :=
  match s.gb.circ.find? fun e => bitsOf e.2 32 32 == gbOldest s + i with
  | some e => leBytes 256 e.2
  | none => List.replicate 256 0#8

/-- Bytes of a lodging's pages that meet a test. -/
def lodgeBytes (s : State) (n : Nat) (test : Desc → Bool) (size : Desc → Nat) : Nat :=
  s.prot.desc.foldl (fun a e => if e.1 / 2 ^ 34 = n ∧ test e.2 then a + size e.2 else a) 0

/-- Whether a page lies in a slot run. -/
def Desc.inRun (x : Desc) : Bool := x.state == .packed || (x.state == .moving && x.len != 0)

/-! ### The groups the island holds -/

/-- Groups 0x0000-0x0003 and 0x0010. -/
def roIdentity (s : State) (grp row m : Nat) : List Byte :=
  match grp, m with
  | 0x0000, 0x10 => leBytes 1 (lcState s)
  | 0x0000, 0x12 => leBytes 1 ((128 - s.sl.fuseC) / 2)
  | 0x0000, 0x13 => leBytes 32 s.sl.operatorId
  | 0x0000, 0x14 => leBytes 1 s.sl.resetCause
  | 0x0000, 0x16 => leBytes 1 s.sl.bootStage.code
  | 0x0001, 0x10 => (below 8).flatMap fun d => leBytes 4 (s32Nat (smGet 0 s.sl.tj d))
  | 0x0001, 0x12 => leBytes 4 s.sl.thermWarnings ++ leBytes 4 s.sl.thermShutdowns
  | 0x0001, 0x13 => leBytes 4 s.sl.straps
  | 0x0001, 0x14 => leBytes 16 s.sl.thermLast
  | 0x0002, 0x01 => leBytes 8 s.dict.seq
  | 0x0002, 0x02 => leBytes 1 s.dict.sessions.length
  | 0x0002, 0x03 => leBytes 4 s.dict.rejectCount
  | 0x0002, 0x04 => leBytes 16 s.dict.lastReject
  | 0x0003, 0x11 => leBytes 1 (match groupSpec row with | some g => bNat g.ownerFixed | none => 1)
  | 0x0010, _ =>
    if m < 0x18 then leBytes 8 (smGet 0 s.lod.status (m - 0x10))
    else if m < 0x1C then leBytes 1 (smGet 0 s.lod.status (m - 0x10))
    else if m < 0x20 then leBytes 8 (smGet 0 s.lod.status (m - 0x10))
    else leBytes (if m = 0x22 then 8 else 4) (smGet 0 s.lod.status (m - 0x10))
  | _, _ => []

/-- Groups 0x0100 and 0x0180. -/
def roCourier (s : State) (grp m : Nat) : List Byte :=
  match grp, m with
  | 0x0100, 0x01 => leBytes 4 (match s.cr.address with | some a => a + 2 ^ 31 | none => 0)
  | 0x0100, 0x02 => leBytes 4 (crStatus s)
  | 0x0100, 0x13 => leBytes 4 s.cr.anum
  | 0x0100, 0x14 => s.cr.alerts.reverse.flatMap alertBytes
  | 0x0100, 0x15 => countBytes 4 8 0 s.cr.counts
  | 0x0180, 0x10 => leBytes 4 (presenceState s)
  | 0x0180, 0x11 => leBytes 1 (presenceLeft s)
  | _, _ => []

/-- An accumulator in 2^-16 of the budget. -/
def accumShown (a : Nat) : Nat := a / 2 ^ 32

/-- Group 0x0200. -/
def roPowerEntry (s : State) (m : Nat) : List Byte :=
  match m with
  | 0x01 => leBytes 1 s.hs.state.code
  | 0x30 => leBytes 2 s.hs.vin
  | 0x31 => leBytes 2 s.hs.vout
  | 0x32 => leBytes 4 s.hs.current
  | 0x33 => leBytes 4 s.hs.power
  | 0x34 => leBytes 8 s.hs.energy
  | 0x35 => leBytes 4 (accumShown s.hs.accum)
  | 0x36 => leBytes 16 s.hs.lastTrip
  | 0x37 => countBytes 4 8 0 s.hs.counts
  | _ =>
    let b := branchAt s (m % 16)
    match m / 16 with
    | 4 => leBytes 1 b.state.code
    | 5 => leBytes 4 b.current
    | 6 => leBytes 2 b.vout
    | 7 => leBytes 4 b.power
    | 8 => leBytes 8 b.energy
    | _ => leBytes 4 (accumShown b.accum)

/-- Group 0x0300. -/
def roPowerStates (s : State) (m : Nat) : List Byte :=
  match m with
  | 0x01 => leBytes 1 s.ps.state.code
  | 0x02 => leBytes 1 s.ps.target
  | 0x11 => (below 4172).flatMap fun i => leBytes 1 (voteRecord s i)
  | 0x16 => leBytes 16 s.ps.lastWake
  | 0x17 => countBytes 4 6 0 s.ps.counts
  | _ => leBytes 1 (bNat (railMoving s (m - 0x34)))

/-- Group 0x0400. -/
def roGuestBook (s : State) (m : Nat) : List Byte :=
  match m with
  | 0x01 => leBytes 4 s.gb.status
  | 0x10 => (below 4096).flatMap fun i => leBytes 256 (smGet 0 s.gb.perm i)
  | 0x11 => (below 16485).flatMap (gbRecent s)
  | 0x12 => leBytes 4 (gbOldest s)
  | 0x13 => leBytes 4 s.gb.rnum
  | 0x14 => leBytes 4 s.gb.opTime
  | 0x15 => leBytes 4 s.gb.cycles
  | _ => (below 1388).flatMap fun i => leBytes 4 ((gbSector s i).erases % 2 ^ 17 + bNat (gbSector s i).retired * 2 ^ 31)

/-! ### The groups the dies hold -/

/-- Group 0x1000 + n. -/
def roLodging (s : State) (n m : Nat) : List Byte :=
  match m with
  | 0x01 => leBytes 1 (lodgeAt s n).state.code
  | 0x20 => leBytes 2 (lodgeAt s n).gen
  | 0x21 => leBytes 8 ((below 4).foldl (fun a d => a + usedOn s n d) 0)
  | 0x22 => leBytes 8 ((below 4).foldl (fun a d => a + (floorOn s n - usedOn s n d)) 0)
  | 0x23 => leBytes 8 (lodgeAt s n).pagesLost
  | 0x24 => (lodgeExtents s n).flatMap fun e => extentBytes e.1 e.2
  | 0x32 => leBytes 8 (lodgeBytes s n (fun x => !x.inRun) descBytes)
  | 0x33 => leBytes 8 (lodgeBytes s n Desc.inRun descBytes)
  | 0x34 => leBytes 8 (lodgeBytes s n (fun x => x.state == .packed) fun _ => 4096)
  | 0x50 => leBytes 4 (keyEpoch s n)
  | 0x51 => leBytes 1 (match smFind s.prot.rekeys n with | some r => bNat (!r.asked) | none => 0)
  | 0x52 => perDie 8 fun d => match smFind s.prot.rekeys n with | some r => smGet 0 r.bounds d | none => 0
  | 0x54 => leBytes 8 (smGet 0 s.prot.sealFails n)
  | 0x60 => leBytes 1 (bNat (s.coh.down.contains n))
  | _ => leBytes 8 (smGet 0 s.coh.linesLost n)

/-- The memory die that answers for a group every memory die holds: the lowest that serves and has power (02 R464). -/
def answeringDie (s : State) : Nat := (firstBelow 4 fun d => unitServes s (372 + d) && diePowered s (4 + d)).getD 0

/-- Groups 0x2000 to 0x2300. -/
def roTiering (s : State) (grp row m : Nat) : List Byte :=
  match grp, m with
  | 0x2000, 0x14 => leBytes 2 (nowEpoch s (answeringDie s))
  | 0x2000, 0x1F => leBytes 4 ((below 16).foldl (fun a w => a + bNat (anchorWing s w) * 2 ^ w) 0)
  | 0x2000, _ =>
    if m < 0x30 then leBytes 1 (wingAt s (m - 0x20)).state.code
    else if m < 0x40 then leBytes 8 (wingUsed s (m - 0x30))
    else countBytes 8 8 0 (smGet [] s.tier.counts (m - 0x40))
  | 0x2100, _ =>
    if m < 0x14 then countBytes 4 12 (12 * (m - 0x10)) s.comp.counts else leBytes 16 (smGet 0 s.comp.last (m - 0x14))
  | 0x2200, 0x10 => leBytes 1 (dictAt s row).state.code
  | 0x2200, 0x11 => leBytes 2 (dictAt s row).owner
  | 0x2200, 0x12 => perDie 4 fun d => dictRefs s d row
  | 0x2200, 0x13 => dictRecord s row
  | 0x2200, _ => leBytes 4 (dictAt s row).sampled
  | _, 0x1B => leBytes 1 (queueAt s row).state.code
  | _, _ => countBytes 8 6 0 (queueAt s row).counts

/-- Groups 0x3000 and 0x3100. -/
def roProtection (s : State) (grp m : Nat) : List Byte :=
  match grp, m with
  | 0x3000, 0x11 => leBytes 4 ((below 4).foldl (fun a d => a + bNat (mirrorOn s d) * 2 ^ d) 0)
  | 0x3000, 0x12 => countBytes 8 8 0 s.prot.fails
  | 0x3000, _ => perDie 8 fun d => smGet 0 s.prot.hwm d
  | _, _ =>
    if m < 0x14 then leBytes 4 (s.coh.dir.filter fun e => e.1 / 2 ^ 20 == m - 0x10).length
    else if m < 0x18 then countBytes 8 8 (8 * (m - 0x14)) s.coh.counts
    else leBytes 4 (s.coh.suspect.filter fun k => k / 65536 == m - 0x18).length

/-- Group 0x4000 + p. -/
def roPort (s : State) (p m : Nat) : List Byte :=
  match m with
  | 0x01 => leBytes 1 (portAt s p).link.code
  | 0x20 => leBytes 1 (portAt s p).width
  | 0x21 => leBytes 1 (portAt s p).rate
  | 0x22 => leBytes 2 (portBinding s p)
  | 0x23 => countBytes 8 6 0 (portAt s p).linkCounts
  | _ => countBytes 8 6 0 (portAt s p).dropCounts

/-- Group 0x4100. -/
def roSwitch (s : State) (m : Nat) : List Byte :=
  match m with
  | 0x34 => leBytes 1 ((below 64).filter fun p => portRole s p == 1).length ++
      leBytes 1 ((below 64).filter fun p => portRole s p == 2).length
  | 0x40 => (below 2048).flatMap fun i => leBytes 1 (vcsShown s (i / 32) (i % 32))
  | 0x41 => countBytes 8 4 0 s.sw.fanout
  | _ => leBytes 4 (freeShared s (m - 0x30))

/-- Groups 0x5000 to 0x5101. -/
def roRegulation (s : State) (grp row m : Nat) : List Byte :=
  let l := labelAt s row
  match grp, m with
  | 0x5000, 0x20 => leBytes 1 (labelPrio s row)
  | 0x5000, 0x21 => leBytes 4 (l.ewma / 256)
  | 0x5000, 0x22 => leBytes 4 l.p99
  | 0x5000, 0x23 => leBytes 2 l.win
  | 0x5000, 0x24 => leBytes 4 l.misses
  | 0x5000, 0x25 => leBytes 2 (min 65535 (labelRefs s row))
  | 0x5000, _ => leBytes 4 (effective s row)
  | 0x5100, 0x01 => leBytes 8 (sigma s)
  | 0x5100, 0x02 => leBytes 4 s.reg.bw
  | 0x5100, 0x04 => leBytes 4 s.reg.scale
  | 0x5100, _ => countBytes 8 6 0 s.reg.counts
  | _, 0x20 => leBytes 4 (groupWeight s row)
  | _, 0x21 => perDie 4 fun d => if unitServes s (372 + d) then groupLines s row d else smGet 0 s.reg.lastUsed (8 * row + 2 * d)
  | _, 0x22 => leBytes 4 (smGet 0 s.reg.sgMisses row)
  | _, _ => perDie 2 fun d => if unitServes s (372 + d) then poolUsed s row d else smGet 0 s.reg.lastUsed (8 * row + 2 * d + 1)

/-- Groups 0x6000 + c and 0x6100. -/
def roDram (s : State) (grp m : Nat) : List Byte :=
  if grp = 0x6100 then
    (if m = 0x08 then retiredBytes s
     else (below 4).flatMap fun d =>
       leBytes 8 ((below 8).foldl (fun a i => a + (chanAt s (8 * d + i)).ce) 0) ++
       leBytes 8 ((below 8).foldl (fun a i => a + (chanAt s (8 * d + i)).ue) 0) ++
       countBytes 8 2 (4 * d + 2) s.unit.sramCounts)
  else
    let x := chanAt s (grp - 0x6000)
    match m with
    | 0x01 => leBytes 1 x.state.code
    | 0x20 => leBytes 4 (s32Nat x.temp)
    | 0x21 => leBytes 8 x.ce
    | 0x22 => leBytes 8 x.ue
    | 0x23 => x.log.flatMap (leBytes 32)
    | 0x24 => countBytes 8 8 0 x.counts
    | _ => countBytes 4 16 0 x.ceRows

/-- Group 0x7000 + k. -/
def roLink (s : State) (k m : Nat) : List Byte :=
  let l := linkAt s k
  match m with
  | 0x01 => leBytes 1 l.state.code
  | 0x20 => leBytes 1 (clWidth l)
  | 0x21 => (clBadGroups l).flatMap (leBytes 8)
  | 0x22 => leBytes 4 l.lastReset
  | _ => countBytes 8 8 0 l.counts

/-- Groups 0x7800 and 0x7801. -/
def roWorlds (s : State) (grp row m : Nat) : List Byte :=
  if grp = 0x7801 then leBytes 16 (regionRead s row)
  else match m with
    | 0x01 => leBytes 4 (worldStatus s)
    | 0x02 => leBytes 4 s.world.restarts
    | 0x20 => (below 8).flatMap fun i => digestBytes 48 (measReg s i)
    | 0x21 => (below 128).flatMap fun b => leBytes 2 (bankRecord b)
    | _ => countBytes 4 160 0 s.world.violations

/-- Groups 0x7C00 and 0x7C01. -/
def roUnits (s : State) (grp row m : Nat) : List Byte :=
  let u := unitAt s row
  match grp, m with
  | 0x7C00, 0x06 => leBytes 8 s.unit.logSeq
  | 0x7C00, _ => s.unit.log.flatMap logBytes
  | _, 0x10 => leBytes 1 u.state.code
  | _, 0x11 => leBytes 1 u.cause
  | _, 0x12 => leBytes 4 u.faults
  | _, _ => leBytes 1 u.fails

/-- The value of an RO member of a group; `row` is the selected row of a window. -/
def roBytes (s : State) (grp row m : Nat) : List Byte :=
  if grp < 0x0100 then roIdentity s grp row m
  else if grp < 0x0200 then roCourier s grp m
  else if grp = 0x0200 then roPowerEntry s m
  else if grp = 0x0300 then roPowerStates s m
  else if grp = 0x0400 then roGuestBook s m
  else if grp < 0x2000 then roLodging s (grp - 0x1000) m
  else if grp < 0x3000 then roTiering s grp row m
  else if grp < 0x4000 then roProtection s grp m
  else if grp < 0x4100 then roPort s (grp - 0x4000) m
  else if grp = 0x4100 then roSwitch s m
  else if grp < 0x6000 then roRegulation s grp row m
  else if grp < 0x7000 then roDram s grp m
  else if grp < 0x7800 then roLink s (grp - 0x7000) m
  else if grp < 0x7C00 then roWorlds s grp row m
  else roUnits s grp row m

/-- `ROW_USED` where the spec says what it reads (02 R48, 10 R268); of the other windows it does not (log 6). -/
def rowUsed (s : State) (grp row : Nat) : Bool :=
  if grp = 0x0003 then (groupSpec row).isSome
  else if grp = 0x5000 then labelRefs s row != 0
  else bitOf (Config.freeBits s.fresh) 0

end Sys2Proof.Machine
end

