-- ==== Sys2Proof/Machine/Retire.lean ====
section
/-! DEFINITION. What a line read brings about: corrections, uncorrectable lines by what they held, the night watch, owner
searches, retirement (11 R303-R317). -/

namespace Sys2Proof.Machine

/-! ### Who holds a line -/

/-- A frame joins the pending frames of its die's owner search (R310). -/
def searchPut (d f : Nat) (s : State) : State :=
  modSpace (fun x => { x with search := smMod [] x.search d fun l => if l.contains f then l else l ++ [f] }) s

/-- A line of a frame that nothing holds is marked; the search sees to the frame. -/
def freeLineBad (agent d f i : Nat) (hint : Bool) (s : State) : State := searchPut d f (markBy (agentClass agent) d f i hint s)

/-- A pending frame that no descriptor names was free: what of it is not waiting for its blanking is blanked before any reuse. -/
def freeFrameAgain (d f : Nat) (s : State) : State :=
  match useAt s d f with
  | none => queueBlank d f (.frames f 1) (setUse d f ⟨1, .blanking⟩ s)
  | some (g, ⟨_, .slab k runs⟩) =>
    forAll ((below (slabRuns k)).filter fun j => (smFind runs j).isNone && decide ((f - g) * 16 < j * k + k) &&
        decide (j * k < (f - g) * 16 + 16)) (fun j t => match useAt t d f with
      | some (_, ⟨_, .slab _ now⟩) => queueBlank d g (.run g k j) (setUse d g ⟨16, .slab k (smSet now j none)⟩ t)
      | _ => t) s
  | some (g, ⟨_, .group fr⟩) =>
    if f - g < 70 ∧ (smFind fr (f - g)).isNone then
      queueBlank d g (.data g (f - g)) (setUse d g ⟨80, .group (smSet fr (f - g) none)⟩ s)
    else s
  | _ => s

/-! ### Corrected lines (R307) -/

/-- A day in ns. -/
def dayNs : Nat := 86400 * 10 ^ 9

/-- A row that gathers `CE_ROW_ALERT` corrected lines within 24 hours raises one alert a day. -/
def rowAlert (c row : Nat) (s : State) : State :=
  let x := chanAt s c
  let times := (smGet [] x.ceTimes row ++ [dieTime s (4 + c / 8)]).filter fun t => decide (dieTime s (4 + c / 8) < t + dayNs)
  let s1 := modChan c (fun y => { y with ceTimes := smSet y.ceTimes row times }) s
  let quiet := match smFind x.ceAlert row with
    | some t => decide (t + dayNs ≤ dieTime s (4 + c / 8))
    | none => true
  if decide (pnum s P.CE_ROW_ALERT ≤ times.length) && quiet then
    alertForKind 14 s1.unit.logSeq (logQuiet 14 (64 + c) 0 none 0 (modChan c (fun y => { y with ceAlert := smSet y.ceAlert row (dieTime s (4 + c / 8)) }) s1))
  else s1

/-- A line read good after correction: recorded, counted, and its corrected words written back unless a write is queued. -/
def corrected (d f i : Nat) (l : RawLine) (words bits agent : Nat) (s : State) : State :=
  let c := chanOf d f i
  let (group, key) := match chanGeometry s c with
    | some g => let a := dramAddr g (placeLine f i).2; (a.row / 2 ^ (g.row - 4), bankKey a + 1024 * a.row)
    | none => (0, 0)
  let s1 := memEvent c 0 (lineOwner s d f i) (dramRecord s 1 d f i words bits agent (lineOwner s d f i))
    (modChan c (fun x => { x with ce := satAdd 64 x.ce 1, ceRows := bump 32 x.ceRows group 1 }) s)
  let s2 := rowAlert c key (gbDie (4 + d) (1000 + 16 * c + group) 1 s1)
  if (chanAt s2 c).writes.any fun e => e.frame == f && e.line == i then s2
  else
    queueWrite d ⟨f, i, .raw l.bytes l.poison l.hint, 0, agent == 4⟩ (modChan c (fun x => { x with counts := bump 64 x.counts 6 1 }) s2)

/-! ### Uncorrectable lines by what they held (R309, Table 11.6) -/

/-- A data line of a frame. -/
def dataBad (agent n p d f i : Nat) (s : State) : State :=
  match descAt s n p with
  | none => markLine d f i false s
  | some x =>
    if x.loc ≠ f ∨ agent = 5 then markLine d f i false s
    else if agent = 4 then searchPut d f (markBy .scrub d f i false s)
    else if agent = 3 then rekeyStop n p (poisonLine n p i x s)
    else if agent = 2 then
      (match s.tier.moves.find? fun e => e.2.req.n == n && e.2.req.p == p with
       | some m => moveAbort m.1 (m.2.req.kind == .relocate) (poisonLine n p i x s)
       | none => poisonLine n p i x s)
    else poisonLine n p i x s

/-- A line of a slot run: the packed read path decides (07 R197). -/
def runLineBad (agent n p d f i : Nat) (s : State) : State :=
  let s1 := markBy (agentClass agent) d f i true s
  if agent = 4 then searchPut d f s1
  else match descAt s1 n p with
    | some x => if x.state = .packed then (packedRead agent n p x s1).2 else s1
    | none => s1

/-- An uncorrectable line has the outcome of Table 11.6. -/
def badLine (d f i words agent : Nat) (s : State) : State :=
  let s1 := uncorrectable d f i words agent (lineOwner s d f i) s
  match useAt s1 d f with
  | some (_, ⟨_, .page n p⟩) => dataBad agent n p d f i s1
  | some (g, ⟨_, .group fr⟩) =>
    if f - g < 70 then
      (match (smFind fr (f - g)).join with
       | some (n, p) => dataBad agent n p d f i s1
       | none => freeLineBad agent d f i false s1)
    else groupMetaBad fr ((f - g - 70) * 64 + i) (fun _ _ _ => true) s1
  | some (_, ⟨_, .slab _ _⟩) =>
    (match lineOwner s1 d f i with
     | some (n, p) => runLineBad agent n p d f i s1
     | none => freeLineBad agent d f i true s1)
  | some (g, ⟨_, .region 0 _⟩) => mapLineBad d ((f - g) * 64 + i) s1
  | some (_, ⟨_, .region 1 _⟩) => markLine d f i true s1
  | some (g, ⟨_, .region 4 m⟩) => segmentBad d m ((f - g) * 64 + i) s1
  | some (_, ⟨_, .region _ _⟩) => s1
  | _ => freeLineBad agent d f i false s1

/-- A line's read data returns with the error bits it came back with (R303, R304); `agent` asked for it. A line that the code
passed wrong is left to what verifies it. -/
def readReturn (d f i agent : Nat) (err : BitVec 640) (s : State) : State :=
  let c := chanOf d f i
  if 2 * chanBytes s c / 4096 ≤ f % 2 ^ 28 then s
  else if regionPermits s c (agentClass agent) false (f % 2 ^ 28) = false then
    unitDenied c ((lineOwner s d f i).bind fun q => requester agent q.1 q.2) (agentClass agent) false f s
  else
    let s0 := dramRead d f i ((lineOwner s d f i).elim 0 fun q => agentLabel s agent q.1) (match lineOwner s d f i with
      | some (n, p) => (match descAt s n p with
        | some x => if x.state = .plain ∧ x.loc = f then mergeSettle n p i x s else s
        | none => s)
      | none => s)
    if chanDead s0 c then badLine d f i 255 agent s0
    else match decodeLine (storedLine s0 d f i) (placeLine f i).2 err with
      | .good l words bits =>
        let s1 := if words = 0 then s0 else corrected d f i l words bits agent s0
        if l.bytes ≠ (storedLine s0 d f i).bytes ∧ (metaLine s0 d f i).isSome then metaRead d f i (leBytes 64 l.bytes.toNat) s1
        else s1
      | .bad words => badLine d f i words agent s0

/-! ### The night watch (R312) -/

/-- The page line in a place of a frame that a host holds in `E`, or may hold though no entry says so (08 R224). -/
def scrubHeld (s : State) (d f i : Nat) : Option (Nat × Nat × Nat) :=
  match lineOwner s d f i with
  | some (n, p) => match descAt s n p with
    | some x => if x.state = .plain ∧ x.loc = f ∧ (linesAsked s n p).contains i then some (n, p, i) else none
    | none => none
  | none => none

/-- Whether a snoop of a line is open, or wanted by the device. -/
def lineSnooped (s : State) (l : Nat × Nat × Nat) : Bool :=
  (txOn s (homeSlice l.1 l.2.1) (lineKey l.1 l.2.1 l.2.2)).isSome || s.coh.due.any fun w => w.key == lineKey l.1 l.2.1 l.2.2

/-- A scrub read is admitted by its home arbiter, and sampled under its page's label where it ends well (10 R270, log 142). -/
def scrubSampled (c f i : Nat) (err : BitVec 640) (s : State) : State :=
  match lineOwner s (c / 8) f i, decodeLine (storedLine s (c / 8) f i) (placeLine f i).2 err with
  | some o, .good _ _ _ => sampleHome (c / 8) 4 (lodgeP s o.1 P.LABEL) 1 s
  | _, _ => tokensTake (c / 8) 1 s

/-- The next line of a channel is read as `AGENT` 4; a host that holds it in `E` is first asked for the current data (08
R222). -/
def scrubRead (c : Nat) (err : BitVec 640) (s : State) : State :=
  let w := c / 2
  let x := chanAt s c
  let lines := chanBytes s c / 64
  if x.state ≠ .active ∨ ((wingAt s w).state ≠ .openW ∧ (wingAt s w).state ≠ .draining) ∨ lines = 0 ∨
      ((wingAt s w).reopened.isSome ∧ smGet 0 s.space.passed w < wingFrames s w) ∨ x.alertN ∨ paceOpen s (c / 8) = false then s
  else
    let q := lineAt (c % 8) x.scrub
    let read := modChan c (fun y => { y with
        scrub := (x.scrub + 1) % lines, scrubAsked := false, counts := bump 64 y.counts 7 1 })
      (readReturn (c / 8) q.1 q.2 4 err (scrubSampled c q.1 q.2 err s))
    match scrubHeld s (c / 8) q.1 q.2 with
    | some l => if lineSnooped s l then s
        else if x.scrubAsked then read
        else recallAll [lineRecall s l.1 l.2.1 l.2.2]
          (modChan c (fun y => { y with scrubAsked := true }) s)
    | none => read

/-! ### Owner search (R310, 15 R389) -/

/-- The lines of a frame that are marked. -/
def markedLines (s : State) (d f : Nat) : List Nat := (below 64).filter fun i => markAt s d f i % 2 == 1

/-- A page found to hold a pending frame; one that is locked with its recorded descriptor. -/
def ownerFound (d f : Nat) (q : Nat × Nat) (s : State) : State :=
  match descAt s q.1 q.2 with
  | none => s
  | some x => match x.state with
    | .plain => if markedLines s d f = [] then s else notePage 2 q.1 q.2 (setDesc q.1 q.2 { x with poison := true } s)
    | .packed => (packedRead 4 q.1 q.2 x s).2
    | .moving =>
      if markedLines s d f = [] then s
      else if x.len = 0 then
        notePage 2 q.1 q.2 (lockedSays q.1 q.2 (fun y => { y with poison := true }) (setDesc q.1 q.2 { x with poison := true } s))
      else
        let s1 := unlockPage q.1 q.2 s
        (match descAt s1 q.1 q.2 with
         | some y => if y.state = .packed then (packedRead 4 q.1 q.2 y s1).2 else s1
         | none => s1)
    | _ => s

/-- A page of a wing that has left service becomes `LOST` (15 R389). -/
def wingPageLost (q : Nat × Nat) (s : State) : State :=
  match descAt s q.1 q.2 with
  | none => s
  | some x => pageLost 11 q.1 q.2 (versionLeaving s q.1 q.2 x)
      (onlyIf (x.namesDict) (leaveDict q.1 q.2 x) (unlockPage q.1 q.2 s))

/-- One pass over a die's descriptors: up to 256 pending frames are settled, and every page of a wing that has left service;
such a wing is then `SHUT`. -/
def ownerSearch (d : Nat) (s : State) : State :=
  let s0 := modSpace (fun x => { x with search := smMod [] x.search d (List.drop 256) }) s
  let s1 := forAll ((smGet [] s.space.search d).take 256) (fun f t =>
    let t1 := forAll (markedLines t d f) (fun i u => flushLine d f i u) t
    let owners := ((below 64).filterMap fun i => lineOwner t1 d f i).eraseDups
    if owners = [] then freeFrameAgain d f t1 else forAll owners (ownerFound d f) t1) s0
  forAll (dieWings d) (fun w t =>
    if wingFaulted t w ∧ (wingAt t w).state = .shuttering then
      modWingAt w (fun x => { x with state := .shut }) (forAll ((wingUses t w).flatMap fun e => usePages e.2.kind) wingPageLost t)
    else t) s1

/-! ### Retirement (R314, R315) -/

/-- The fields of Table 11.12. -/
structure RetireArg where
  die : Nat
  frame : Nat
  chan : Nat
  addr : DramAddr

/-- A `RETIRE_CMD` operand read. -/
def retireArg (v : Nat) : RetireArg :=
  ⟨bitsOf v 0 2, bitsOf v 2 30, bitsOf v 32 5,
    ⟨bitsOf v 37 1, bitsOf v 41 3, 0, bitsOf v 44 2, bitsOf v 39 2, bitsOf v 38 1, bitsOf v 46 18⟩⟩

/-- Whether an operand has its unused fields 0 and names what is declared; otherwise `RANGE`. -/
def retireInRange (s : State) (code v : Nat) : Bool :=
  let a := retireArg v
  match code with
  | 1 => decide (v < 2 ^ 32) && decide (a.frame % 2 ^ 28 < 2 * chanBytes s (8 * a.die + 2 * (a.frame / 2 ^ 28)) / 4096)
  | 2 | 3 => (v % 2 ^ 32 == 0) &&
      (match chanGeometry s a.chan with
       | none => false
       | some g => decide (a.addr.modl < chanP s a.chan P.CH_MODULES) && decide (a.addr.rank < chanP s a.chan P.CH_RANKS) &&
           (if code = 2 then decide (a.addr.row < 2 ^ g.row) else a.addr.group == 0 && a.addr.row == 0))
  | 4 => (v % 2 ^ 32 == 0) && decide (v / 2 ^ 32 < 16)
  | _ => false

/-- The die a retirement is on. -/
def retireDie (code v : Nat) : Nat :=
  match code with
  | 1 => (retireArg v).die
  | 4 => (retireArg v).chan / 4
  | _ => (retireArg v).chan / 8

/-- The status with which a retirement is refused after its operand has passed. -/
def retireRefused (s : State) (code v : Nat) : Option Nat :=
  let a := retireArg v
  let active (c : Nat) : Bool := (chanAt s c).state == .active
  let w := 4 * a.die + a.frame / 2 ^ 28
  let ok := match code with
    | 1 => active (2 * w) && active (2 * w + 1)
    | 4 => (List.all [2 * a.chan, 2 * a.chan + 1] fun c => (chanAt s c).state == .unpopulated || (chanAt s c).state == .declared)
    | _ => active a.chan
  if ok = false then some 0x03
  else if code ≠ 4 ∧ 4096 ≤ (smGet [] s.space.retired (retireDie code v)).length then some 0x0B
  else none

/-- The entry of R317 for a retirement, with its frame. -/
def retireEntryOf (code v : Nat) : Nat × Nat :=
  let a := retireArg v
  if code = 1 then (frameEntry a.die a.frame, a.frame)
  else
    let b := a.chan + a.addr.sub * 2 ^ 8 + a.addr.modl * 2 ^ 9 + a.addr.rank * 2 ^ 10 + a.addr.group * 2 ^ 12 + a.addr.bank * 2 ^ 15
    (if code = 3 then b + 2 ^ 17 else b + a.addr.row * 2 ^ 18 + 2 ^ 36, 0)

/-- The frames a retirement takes, as stretches (Table 11.8). -/
def retireFrames (s : State) (code v : Nat) : List (Nat × Nat) :=
  let a := retireArg v
  if code = 1 then [(a.frame, 1)]
  else match chanGeometry s a.chan with
    | none => []
    | some g =>
      let at_ (row : Nat) : Nat × Nat :=
        (a.chan / 2 % 4 * 2 ^ 28 + dramIndex g { a.addr with sub := 0, group := 0, row := row } / 32, 2 ^ (g.col - 1))
      if code = 2 then [at_ a.addr.row] else (below (2 ^ g.row)).map at_

/-- Step 1 of Table 11.9; `RETIRE_CLEAR` is done at once: the second answer is how many frames it ends with, if so. -/
def retireStart (code v : Nat) (s : State) : State × Option Nat :=
  let d := retireDie code v
  if code = 4 then
    (modSpace (fun x => { x with retired := smMod [] x.retired d (List.filter fun e => e.1 % 256 / 2 != (retireArg v).chan) }) s, some 0)
  else
    let e := retireEntryOf code v
    let l := retireFrames s code v
    (forAll l (fun q => retireFree d q.1 q.2) (modSpace (fun x => { x with retireJob := some (d, l, e.1) }) (retireEntry d e.1 e.2 s)), none)

/-- Frames' contents copied to another place of the die, once what is queued for them has been written. -/
def copyFrames (d a b n : Nat) (s0 : State) : State :=
  let s := forAll (((below 8).flatMap fun i => (chanAt s0 (8 * d + i)).writes).filter fun e =>
    decide (a ≤ e.frame) && decide (e.frame < a + n)) (fun e => flushLine d e.frame e.line) s0
  let src := dramAddress d a 0
  let dst := dramAddress d b 0
  modSpace (fun x => { x with
    dram := (x.dram.filter fun e => decide (src ≤ e.1) && decide (e.1 < src + n * 4096)).foldl
      (fun m e => dramPut m (e.1 - src + dst) e.2) x.dram
    marks := (x.marks.filter fun e => decide (d * 2 ^ 36 + a * 64 ≤ e.1) && decide (e.1 < d * 2 ^ 36 + (a + n) * 64)).foldl
      (fun m e => smSet m (e.1 - a * 64 + b * 64) e.2) x.marks }) s

/-- A reserved region that lies in frames being retired moves to free frames of its die (Table 11.9 step 3). -/
def regionMove (d : Nat) (e : Nat × Use) (s : State) : State :=
  let f := e.1 % 2 ^ 30
  match e.2.kind with
  | .region what slot =>
    (match freeOn s d e.2.len (if what = 4 then 128 else 1) with
     | none => s
     | some g =>
       let s1 := setUse d g e.2 (modSpace (fun x => { x with uses := smErase x.uses e.1 }) (copyFrames d f g e.2.len s))
       let s2 := if what = 4 then
           modLod (fun l => { l with slots := match smFind l.slots slot with
             | some r => smSet l.slots slot { r with segs := setNth r.segs d (g / 128) }
             | none => l.slots }) s1
         else s1
       forAll (below e.2.len) (fun i t =>
         if frameRetired t d (f + i) then setUse d (f + i) ⟨1, .retired⟩ t
         else queueBlank d (f + i) (.frames (f + i) 1) (setUse d (f + i) ⟨1, .blanking⟩ t)) s2)
  | _ => s

/-- Whether something remains in a stretch of frames. -/
def stretchHeld (s : State) (d : Nat) (q : Nat × Nat) : Bool :=
  s.space.uses.any fun (e : Nat × Use) =>
    decide (e.1 < useKey d q.1 + q.2) && decide (useKey d q.1 < e.1 + e.2.len) &&
    (match e.2.kind with
     | .retired => false
     | .group fr => fr.any fun r => r.2.isSome && groupDataRetired s d (e.1 % 2 ^ 30) r.1
     | _ => true)

/-- When nothing remains in the frames, the retirement ends (Table 11.9 steps 4 and 5). -/
def retireComplete (s : State) : State :=
  match s.space.retireJob with
  | none => s
  | some (d, l, e) =>
    let s1 := forAll (s.space.uses.filter fun (u : Nat × Use) => u.1 / 2 ^ 30 == d && retiring s d (u.1 % 2 ^ 30) u.2.len)
      (regionMove d) s
    if l.any (stretchHeld s1 d) then s1
    else
      let s3 := installedFell d (modSpace (fun x => { x with retireJob := none }) s1)
      cmdEnd 0 P.RETIRE_CMD 0x00 ((l.map (·.2)).sum) (memEvent (e % 256) 0 none (chanRecord s3 7 (e % 256)) s3)

/-! ### Commands -/

/-- DRAM_READ_RETURN (R304). -/
def execDramReadReturn (d : MemDie) (f : BitVec 30) (i : Fin 64) (agent : Fin 6) (err : BitVec 640) (s : State) : Out :=
  .next (readReturn d.val f.toNat i.val agent.val err s)
/-- SCRUB_READ (R312). -/
def execScrubRead (c : ChanId) (err : BitVec 640) (s : State) : Out := .next (scrubRead c.val err s)
/-- OWNER_SEARCH (R310). -/
def execOwnerSearch (d : MemDie) (s : State) : Out := .next (ownerSearch d.val s)
/-- RETIRE_COMPLETE (R315). -/
def execRetireComplete (s : State) : Out := .next (retireComplete s)
/-- BLANK_DONE (03 R86). -/
def execBlankDone (w : WingId) (tgt : Option (BitVec 29)) (s : State) : Out := .next (blankStep w.val (tgt.map (·.toNat)) s)

end Sys2Proof.Machine
end

