-- ==== Sys2Proof/Machine/ParamRules.lean ====
section
/-! DEFINITION. The rules that belong to single members of the dictionary: which die holds a group, what each command takes,
what a write or a commit is refused for, and what it brings about (02 R42, R44, R49, R52, R464, and the rule of each
owning chapter). -/

namespace Sys2Proof.Machine

/-! ### Holding dies (02 R52, R53, R464) -/

/-- Whether the dies' groups can be reached at all: step 7 of the start-up order is complete, the Corridor links reset with it
(20 Table 20.3), and no power state takes the dies' power (R52). -/
def diesReached (s : State) : Bool :=
  ((s.sl.bootStage == .booting && s.link.all fun e => e.2.state != .reset) || s.sl.bootStage == .firmware || s.sl.bootStage == .training || s.sl.bootStage == .ready) &&
    (match s.ps.state with
     | .run | .drowse | .idle => true
     | .entering => decide (s.ps.entryStep < 6)
     | .night | .exiting | .off => false)

/-- A die answers for the parameters it holds. -/
def dieAnswers (s : State) (d : Nat) : Bool := unitServes s (368 + d) && diePowered s d

/-- The dies any of which answers for a member (Table 2.11); die IDs 0-3 are L0-L3, 4-7 are M0-M3. -/
def holders (g m row : Nat) : List Nat :=
  let link := below 4
  let mem := (below 4).map (· + 4)
  if g < 0x2000 then [4 + g % 4]
  else if g = 0x2000 then
    (if 0x20 ≤ m ∧ m < 0x40 then [4 + m % 16 / 4] else if 0x40 ≤ m then [4 + m % 4] else mem)
  else if g = 0x2100 then (if 0x10 ≤ m then [4 + m % 4] else mem)
  else if g = 0x2200 then mem
  else if g = 0x2300 then [4 + row % 4]
  else if g = 0x3000 then [1]
  else if g = 0x3100 then (if 0x10 ≤ m then [4 + m % 4] else mem)
  else if g < 0x4100 then [g % 256 / 16]
  else if g = 0x4100 then
    (if 0x10 ≤ m ∧ m < 0x20 then [m % 16 / 4] else if 0x30 ≤ m ∧ m < 0x34 then [m % 4] else link)
  else if g = 0x5000 then [4 + row % 4]
  else if g < 0x6000 then mem
  else if g < 0x6100 then [4 + g % 256 / 8]
  else if g = 0x6100 then mem
  else if g < 0x7800 then [linkEndA (g - 0x7000), linkEndB (g - 0x7000)]
  else if g < 0x7C00 then [1]
  else link

/-- Whether the unit that holds a member can act: Safelight for its own groups, else one of the holding dies. Labels and share
groups answer from `FIRMWARE` onward (20 R460). -/
def holderCanAct (s : State) (g m row : Nat) : Bool :=
  decide (g < 0x0500) || (diesReached s && !(s.sl.bootStage == .booting && (g == 0x5000 || g == 0x5101)) && (holders g m row).any (dieAnswers s))

/-! ### Arguments of commands and ranges (R44, R49 check 6) -/

/-- A U8 code between two bounds, and nothing else. -/
def codeOnly (lo hi : Nat) (arg : List Byte) : Bool := arg.length == 1 && decide (lo ≤ leNat arg) && decide (leNat arg ≤ hi)

/-- A U8 code between two bounds with an operand of `n` bytes. -/
def codeWith (lo hi n : Nat) (arg : List Byte) : Bool :=
  arg.length == n + 1 && decide (lo ≤ leNat (arg.take 1)) && decide (leNat (arg.take 1) ≤ hi)

/-- The code of a command. -/
def codeOf (arg : List Byte) : Nat := leNat (arg.take 1)
/-- The operand of a command. -/
def operandOf (arg : List Byte) : Nat := leNat (arg.drop 1)

/-- A group number with the index of an indexed group left out. -/
def groupKind (g : Nat) : Nat :=
  match groupSpec g with
  | some r => r.first
  | none => g

/-- Check 6 of a command: its code and the length and range of its argument. -/
def cmdRange (s : State) (n : Nat) (arg : List Byte) : Bool :=
  let g := groupKind (n / 256)
  let m := n % 256
  if m = 0x02 ∧ g ≠ 0x0400 then codeOnly 0 1 arg
  else match g, m with
    | 0x0000, 0x11 => codeOnly 2 5 arg || (codeWith 1 1 32 arg && operandOf arg != 0)
    | 0x0000, _ => arg.isEmpty
    | 0x0180, _ => arg.isEmpty
    | 0x0200, _ => codeOnly 1 1 arg
    | 0x0400, _ => codeOnly 1 1 arg
    | 0x1000, 0x03 => codeWith 1 4 4 arg
    | 0x1000, _ => arg.isEmpty
    | 0x2000, _ => codeWith 1 2 1 arg && decide (operandOf arg < 16)
    | 0x2200, _ => codeWith 1 3 2 arg && decide (codeOf arg ≠ 1 ∨ operandOf arg < 4096)
    | 0x2300, _ => codeOnly 1 3 arg
    | 0x3000, _ => codeWith 1 3 2 arg && decide (operandOf arg < 4096)
    | 0x4000, _ => codeOnly 1 6 arg
    | 0x4100, _ =>
      codeWith 1 4 3 arg && decide (bitsOf (operandOf arg) 0 8 < 64) && decide (bitsOf (operandOf arg) 8 8 < 32) &&
        decide (bitsOf (operandOf arg) 16 8 < 64 ∨ bitsOf (operandOf arg) 16 8 = 0x40)
    | 0x6100, 0x01 => codeOnly 0 1 arg && declarationsGood s
    | 0x6100, _ => codeWith 1 4 8 arg && retireInRange s (codeOf arg) (operandOf arg)
    | 0x7000, _ => codeOnly 1 1 arg
    | _, _ => codeOnly 1 2 arg

/-- Ranges that join a member with others (04 R97, R125). -/
def writeRange (s : State) (n v : Nat) : Bool :=
  let t := putParam 0 n v s
  if n / 256 = 0x2000 then
    decide (pnum t P.TIER_DEMOTE_AGE < pnum t P.TIER_REPACK_AGE) &&
      decide (pnum t P.TIER_REOPEN_MARK < pnum t P.TIER_SHUTTER_MARGIN) &&
      decide (256 ≤ pnum t P.TIER_SWEEP_PERIOD * pnum t P.TIER_EPOCH)
  else true

/-! ### Writes that are not staged -/

/-- The lodging of a lodging group. -/
def lodgeOfGroup (n : Nat) : Option Nat :=
  if 0x1000 ≤ n / 256 ∧ n / 256 < 0x2000 then some (n / 256 - 0x1000) else none

/-- A lodging group whose `ISOLATED` rewrite runs answers every write with `BUSY` but for the two commands that destroy
it (03 R59). -/
def groupBusy (s : State) (n : Nat) (arg : List Byte) : Bool :=
  match lodgeOfGroup n with
  | none => false
  | some x =>
    (lodgeAt s x).isoTo.isSome && lodgeLive s x &&
      !(n % 256 == 0x03 && (codeOf arg == 1 || codeOf arg == 2))

/-- No write to the group of a lodging under destruction is accepted (03 R85); its commands have their own rules. -/
def groupClosed (s : State) (n : Nat) : Bool :=
  match lodgeOfGroup n with
  | none => false
  | some x => (lodgeAt s x).state == .releasing || (lodgeAt s x).state == .wiping

/-- The link die's ports run no faster than a cap (16 R400). -/
def serdesCapped (x v : Nat) (s : State) : State :=
  forAll ((below 16).map (· + 16 * x)) (fun p t =>
    let limit := min v (pnum t (P.PORT_MAX_RATE + 256 * p))
    if (portAt t p).link = .up then modPortAt p (fun y => { y with rate := min y.rate limit }) t else t) s

/-- Checks 8 and 9 of a write that is not staged: the status it is refused with. -/
def writeRefused (s : State) (row n v : Nat) : Option Nat :=
  let t := putParam row n v s
  let within (base count : Nat) : Bool := decide (base ≤ n) && decide (n < base + count)
  let admitted (t : State) : Option Nat := if admitsLower s t then none else some 0x0A
  if groupClosed s n then some 0x03
  else if n = P.FM_PORT then (if v ≠ 0xFF ∧ portRole s v ≠ 1 then some 0x03 else none)
  else match lodgeOfGroup n with
    | some x =>
      if n % 256 = 0x40 ∧ v ≠ 0xFFFF then
        (if (dictAt s v).state ≠ .installed then some 0x03 else if (dictAt s v).owner ≠ x then some 0x0B else none)
      else none
    | none =>
      if within P.SW_BIFURCATION 16 then
        (if (below 4).any fun i => portRole s (4 * (n - P.SW_BIFURCATION) + i) != 0 then some 0x03 else none)
      else if n = P.ALLOW_OVERCOMMIT then (if v = 0 ∧ s.reg.scale < 65536 then some 0x03 else none)
      else if n = P.TIER_LABEL then (if admits s t then none else some 0x0A)
      else if n = P.DBG_KEEPER_NONINV ∨ n = P.DBG_KEEPER_INV then (if v = 1 ∧ lcState s ≠ 3 then some 0x03 else none)
      else if within P.PS_VCORE 8 then (if vcoreRefused s (n - P.PS_VCORE) v then some 0x03 else none)
      else if within P.PS_PACE 4 then (if paceRefused s (n - P.PS_PACE) v then some 0x03 else admitted t)
      else if within P.PS_DDR_RATE 4 then (if ddrRefused s (n - P.PS_DDR_RATE) v then some 0x03 else admitted t)
      else if within P.PS_SERDES_CAP 4 then
        (if serdesRefused s (n - P.PS_SERDES_CAP) v then some 0x03
         else admitted (serdesCapped (n - P.PS_SERDES_CAP) v t))
      else none

/-- What precedes a write: a change of `FM_PORT` discards the `FM_API` session (R55). -/
def beforeWrite (n v : Nat) (s : State) : State :=
  if n = P.FM_PORT ∧ pnum s n ≠ v then
    modDict (fun d => { d with sessions := d.sessions.filter fun x => x.origin ≠ .fmApi }) s
  else s

/-- The DDR5 channels of a memory die take a new rate in self-refresh (16 R400): they drain and enter it, and are brought out
again with no REF owed and their tables not valid (11 R298, R300). -/
def ddrRateChanged (m : Nat) (s : State) : State :=
  recomputeD (bumpPs 5 (forAll (((below 8).map (· + 8 * m)).filter fun c => (chanAt s c).state == .active)
    (fun c t => chanWake c (chanSelfRefresh c t)) s))

/-- The ports of a link die whose rate a new cap changes retrain through Recovery (16 R400). -/
def serdesCapChanged (x old v : Nat) (s : State) : State :=
  let moved := ((below 16).map (· + 16 * x)).filter fun p =>
    (portAt s p).link == .up &&
      min old (pnum s (P.PORT_MAX_RATE + 256 * p)) != min v (pnum s (P.PORT_MAX_RATE + 256 * p))
  recomputeD (bumpPs 5 (serdesCapped x v (forAll moved portRetrain s)))

/-- A debug enable is written (13 R348): the invasive one turns on its partner; measurement register 3 is extended. -/
def debugEnabled (n old v : Nat) (s : State) : State :=
  let partner := n - 1
  let inv := n = P.DBG_STEWARD_INV ∨ n = P.DBG_KEEPER_INV
  let s1 := if inv ∧ v = 1 then putParam 0 partner 1 s else s
  if old = v ∧ pnum s1 partner = pnum s partner then s1 else measSecurity s1

/-- What a write that is not staged brings about; the member already holds the new value. -/
def afterWrite (row n old v : Nat) (s : State) : State :=
  let within (base count : Nat) : Bool := decide (base ≤ n) && decide (n < base + count)
  if row ≠ 0 then s
  else if n = P.PS_SHELF_VOTE then psRecompute (if old < v then 4 else 8) s
  else if within P.PS_VCORE 8 then
    (if old ≠ v ∧ diePowered s (n - P.PS_VCORE) then vcoreApply (n - P.PS_VCORE) old s else s)
  else if within P.PS_PACE 4 then recomputeD s
  else if within P.PS_DDR_RATE 4 then (if old = v then s else ddrRateChanged (n - P.PS_DDR_RATE) s)
  else if within P.PS_SERDES_CAP 4 then (if old = v then s else serdesCapChanged (n - P.PS_SERDES_CAP) old v s)
  else if n = P.TIER_LABEL ∨ n = P.ALLOW_OVERCOMMIT then recomputeD s
  else if within P.DBG_STEWARD_NONINV 4 then debugEnabled n old v s
  else if n = P.SEAL_PORT_LOCK ∨ n = P.SEAL_REQUIRE_IDE then (if old = v then s else measSecurity s)
  else s

/-! ### Commits (R42) -/

/-- A curve that R393 allows under a fast-trip threshold. -/
def curveGood (v fast : Nat) : Bool :=
  (below 7).all (fun k => decide (curveI v k < curveI v (k + 1))) &&
    (below 6).all (fun k => decide (curveT v (k + 2) < curveT v (k + 1))) && curveT v 0 == 0 && decide (curveI v 7 < fast)

/-- Power entry (15 R392, R393). -/
def powerCommitRefused (s t : State) : Option Nat :=
  let uv := pnum t P.HS_UV
  let ov := pnum t P.HS_OV
  if curveGood (pnum t P.HS_CURVE) (pnum t P.HS_FAST_TRIP) = false ∨
      curveGood (pnum t P.BR_CURVE) (pnum t P.BR_FAST_TRIP) = false ∨ ov < uv + 500 then some 0x06
  else if s.hs.state = .on ∧ (s.hs.vin < uv ∨ ov < s.hs.vin) then some 0x03
  else none

/-- Whether a commit adds a port to a sealed lodging that `SEAL_PORT_LOCK` protects (13 R350). -/
def portLocked (s t : State) (o : Origin) (n : Nat) : Bool :=
  pnum s P.SEAL_PORT_LOCK == 1 && lodgeAttr t n 0 && srcClass s o != .courierPresent &&
    (hostPorts t n).any fun p => (lodgeAt s n).state == .free || !(hostPorts s n).contains p

/-- The life-cycle states in which a lodging may be committed (13 Table 13.7). -/
def lifeCycleRefuses (s t : State) (n : Nat) : Bool :=
  lcState s == 0 || lcState s == 4 || ((lcState s == 1 || lcState s == 3) && lodgeAttr t n 0)

/-- A lodging's commit with the checks of other chapters at their places in R49. -/
def lodgingCommitRefused (s t : State) (o : Origin) (n : Nat) : Option Nat :=
  if portLocked s t o n then some 0x05
  else match lodgeCommitRefused s t n with
    | some st => if st ≠ 0x06 ∧ st ≠ 0x02 ∧ lifeCycleRefuses s t n then some 0x03 else some st
    | none => if lifeCycleRefuses s t n then some 0x03 else none

/-- An offload queue's commit (06 R157, R158). -/
def queueCommitRefused (s t : State) (q : Nat) : Option Nat :=
  let first := queueP t q P.Q_CTX_FIRST
  let count := queueP t q P.Q_CTX_COUNT
  let mine := (below count).map (· + first)
  let others := (below 1024).filter fun r => r != q && queueP s r P.Q_CTX_COUNT != 0
  let port := queueP t q P.Q_PORT
  let n := queueP t q P.Q_LODGING
  if mine.any (fun c => c / 4096 != q % 4 || others.any fun r =>
      decide (queueP s r P.Q_CTX_FIRST ≤ c) && decide (c < queueP s r P.Q_CTX_FIRST + queueP s r P.Q_CTX_COUNT)) then
    some 0x06
  else if (queueAt s q).state ≠ .disabled then some 0x03
  else if port ≠ 0xFF ∧ portRole s port ≠ 1 then some 0x03
  else if n ≠ 0xFFFF ∧ (hostPorts s n).contains port = false then some 0x03
  else if admits s t = false then some 0x0A
  else none

/-- A port's commit (09 R243, 10 R287). -/
def portCommitRefused (s t : State) (p : Nat) (staged : SMap (List Byte)) : Option Nat :=
  if portLanes s p = 0 ∧ staged.any (·.1 == 0x10) then some 0x03
  else if portRole t p = 0 ∧ staged.any (fun e => decide (0x30 ≤ e.1) && decide (e.1 < 0x38) && leNat e.2 != 0) then some 0x03
  else roleRefused s p (portRole t p)

/-- Checks 6 to 9 of a commit against the combined result: `t` is `s` with the staged values (R42). -/
def commitRefused (s t : State) (o : Origin) (grp row : Nat) (staged : SMap (List Byte)) : Option Nat :=
  match groupKind grp with
  | 0x0200 => powerCommitRefused s t
  | 0x1000 => lodgingCommitRefused s t o (grp - 0x1000)
  | 0x2300 => queueCommitRefused s t row
  | 0x4000 => portCommitRefused s t (grp - 0x4000) staged
  | 0x5000 => if labelRefs s row ≠ 0 ∧ admits s t = false then some 0x0A else none
  | 0x5101 => groupRefused t row
  | 0x6000 =>
    let st := (chanAt s (grp - 0x6000)).state
    if st ≠ .unpopulated ∧ st ≠ .declared ∧ staged.any (fun e => e.1 != 0x14) then some 0x03 else none
  | 0x7801 => regionCommitFault s row (prow t row P.REGION_REG)
  | _ => none

/-- What a commit settles before its values take effect: a label's priority stands until its next sample (10 R268), a shaped
queue's credit has grown at the rate it had (10 R279). -/
def beforeCommit (grp row : Nat) (s : State) : State :=
  match groupKind grp with
  | 0x4000 => forAll (below 8) (fun c t => creditTouch (grp - 0x4000) c (queueBusy t (grp - 0x4000) c) t) s
  | 0x5000 => prioHold row s
  | _ => s

/-- Whether a refused commit of a lodging failed on its floors rather than on admission (03 R82). -/
def floorsRefuse (s : State) (n : Nat) : Bool := floorsHold (commitCandidate n s) == false

/-- What a commit brings about; `s` is the state before it, `t` holds the new values. The flag says that the `COMMIT`
stays `PENDING`. -/
def afterCommit (grp row : Nat) (s t : State) : State × Bool :=
  match groupKind grp with
  | 0x1000 => lodgeCommitted (grp - 0x1000) s t
  | 0x2300 => (recomputeD t, false)
  | 0x4000 => (recomputeD (roleApplied (grp - 0x4000) (portRole s (grp - 0x4000)) t), false)
  | 0x5000 => (recomputeD t, false)
  | 0x5101 => (recomputeD t, false)
  | 0x6000 =>
    let c := grp - 0x6000
    let now : ChState := if chanP t c P.CH_MODULES = 0 then .unpopulated else .declared
    (modChan c (fun x => { x with state := if x.state = .unpopulated ∨ x.state = .declared then now else x.state }) t, false)
  | 0x7801 =>
    let v := prow t row P.REGION_REG
    (regionCommit row v (modDict (fun d => { d with params := smErase d.params (pkey row P.REGION_REG) }) t), false)
  | _ => (t, false)

/-- A `COMMIT` with nothing staged that ends `OK`: the windows that have no staged members (05 R148, 14 R374). -/
def commitsNothing (grp : Nat) : Bool := grp == 0x2200 || grp == 0x7C01

/-! ### Commands (R44) -/

/-- A write its chapter accepts while the member's command is `PENDING` (R44): `DESTROY_FORCED` over `DESTROY`, `REOPEN`
of the wing being evacuated, `CANCEL` of the row's training. -/
def acceptsPending (s : State) (n row : Nat) (arg : List Byte) : Bool :=
  match groupKind (n / 256) with
  | 0x1000 => n % 256 == 0x03 && codeOf arg == 2 && destroyReplaces s (n / 256 - 0x1000)
  | 0x2000 => codeOf arg == 2 && (wingAt s (operandOf arg)).byCmd
  | 0x2200 => codeOf arg == 3 && (dictAt s row).state == .training
  | _ => false

/-- Checks 7 to 9 of a command. -/
def cmdRefused (s : State) (n row : Nat) (arg : List Byte) : Option Nat :=
  let g := n / 256
  let code := codeOf arg
  let x := operandOf arg
  match groupKind g, n % 256 with
  | 0x0000, 0x11 => lcRefused s code (if code = 1 then x else 0)
  | 0x0200, _ => if clearAllowed s then none else some 0x03
  | 0x0400, _ => if 2 ≤ s.gb.latches.length then some 0x02 else none
  | 0x1000, 0x03 => lodgeCmdRefused s (g - 0x1000) code
  | 0x1000, 0x53 => rekeyRefused s (g - 0x1000)
  | 0x1000, _ => if s.coh.down.contains (g - 0x1000) ∧ groupClosed s n = false then none else some 0x03
  | 0x2000, _ => if code = 1 then evacuateRefused s x else reopenRefused s x
  | 0x2200, _ =>
    if code = 1 then trainRefused s row x else if code = 2 then dictRetireRefused s row else cancelRefused s row
  | 0x2300, _ => queueCmdRefused s row code
  | 0x3000, _ => keyCmdRefused s code x
  | 0x4000, _ => portCmdRefused s (g - 0x4000) code
  | 0x4100, _ => bindRefused s code (bitsOf x 0 8) (bitsOf x 8 8) (bitsOf x 16 8)
  | 0x6100, 0x01 => if dramApplyReady s then none else some 0x03
  | 0x6100, _ => retireRefused s code x
  | 0x7000, _ =>
    if (linkAt s (g - 0x7000)).state = .failed ∨ (linkAt s (g - 0x7000)).state = .off then some 0x03 else none
  | 0x7C01, _ => if code = 1 then takeOutRefused s row else rejoinRefused s row
  | _, _ => none

/-- A command that has been accepted: its effect, and where it ends at once its status and `DETAIL`. `readBack` says
whether fuses that it blows read back right (13 R354). -/
def cmdRun (n row : Nat) (arg : List Byte) (source seq : Nat) (readBack : Bool) (s : State) : State × Option (Nat × Nat) :=
  let g := n / 256
  let code := codeOf arg
  let x := operandOf arg
  let done (t : State) : State × Option (Nat × Nat) := (t, some (0, 0))
  let ends (q : State × Bool) : State × Option (Nat × Nat) := (q.1, if q.2 then some (0, 0) else none)
  match groupKind g, n % 256 with
  | 0x0000, 0x11 => (lifeCycle code (if code = 1 then x else 0) readBack source seq s, none)
  | 0x0000, _ => (deviceReset 3 s, none)
  | 0x0180, _ => done (windowClose s)
  | 0x0200, _ => done (clearTrip s)
  | 0x0400, _ => done (gbCut 3 s.gb.major s)
  | 0x1000, 0x03 => lodgeCmd (g - 0x1000) code x s
  | 0x1000, 0x53 => (rekeyAsk (g - 0x1000) s, none)
  | 0x1000, _ => (cohReset (g - 0x1000) s, none)
  | 0x2000, _ =>
    if code = 1 then (evacuateStart x true none s, none)
    else match (wingAt s x).state with
      | .draining | .empty => (match wingFailed s x with
        | some c => (s, some (0x0C, c))
        | none => done (evacuateCancel x s))
      | _ => (reopenStart x true none s, none)
  | 0x2200, _ =>
    if code = 1 then (trainStart row x s, none)
    else if code = 2 then (dictRetireStart row s, none)
    else done (trainStop row 0x0B 4 s)
  | 0x2300, _ =>
    if code = 1 then done (queueEnable row s)
    else if code = 2 then ends (queueDisable row s)
    else done (queueReset row s)
  | 0x3000, _ => keyCmd code x s
  | 0x4000, _ => done (portCmd (g - 0x4000) code s)
  | 0x4100, _ =>
    let v := bitsOf x 0 8
    let b := bitsOf x 8 8
    if code = 1 then done (bindStart v b (bitsOf x 16 8) s) else done (unbindStart code v b s)
  | 0x6100, 0x01 =>
    if (below 32).any (chanPopulated s) then (dramApply (code == 1) s, none)
    else done (recomputeD (forAll (below 4) (fun d => dieOut (4 + d) 3) (modSl (fun l => { l with bootStage := .ready }) s)))
  | 0x6100, _ =>
    let q := retireStart code x s
    (q.1, q.2.map fun d => (0, d))
  | 0x7000, _ =>
    let k := g - 0x7000
    (linkJudged k (linkReset k (!unitServes s (368 + linkEndA k)) 4 s), none)
  | 0x7C01, _ => if code = 1 then ends (takeOut row s) else (rejoinStart row s, none)
  | _, _ => done s

end Sys2Proof.Machine
end

