-- ==== Sys2Proof/Machine/Access.lean ====
section
/-! DEFINITION. The dictionary sequencer: one access, its checks in the order of R49, staging and
commits, and the response (02). -/

namespace Sys2Proof.Machine

/-! ### Sessions (R43) -/

/-- The session of an origin. -/
def sessionOf (s : State) (o : Origin) : Option Session := s.dict.sessions.find? fun x => x.origin == o

/-- Whether an origin is a Courier source address. -/
def fromCourier : Origin → Bool
  | .courier _ => true
  | _ => false

/-- The Courier session used least recently. -/
def oldestCourier (l : List Session) : Option Session :=
  (l.filter fun x => fromCourier x.origin).foldl
    (fun a x => match a with
      | none => some x
      | some y => if x.used < y.used then some x else some y) none

/-- Room for a session: with 16 Courier sessions, the least recently used is discarded. -/
def makeRoom (o : Origin) (l : List Session) : List Session :=
  if fromCourier o ∧ 16 ≤ (l.filter fun x => fromCourier x.origin).length then
    match oldestCourier l with
    | some y => l.filter fun x => x.origin ≠ y.origin
    | none => l
  else l

/-- The session of an origin changed, opened first where there is none; it is the one used last. -/
def modSession (o : Origin) (f : Session → Session) (s : State) : State :=
  modDict (fun d =>
    let old := d.sessions.find? fun x => x.origin == o
    let rest := match old with
      | some _ => d.sessions.filter fun x => x.origin ≠ o
      | none => makeRoom o d.sessions
    let x := f { old.getD { origin := o, used := 0 } with used := d.uses }
    { d with sessions := rest ++ [x], uses := d.uses + 1 }) s

/-- The row an origin has selected in a window. -/
def cursorOf (s : State) (o : Origin) (g : Nat) : Option Nat :=
  (sessionOf s o).bind fun x => smFind x.cursors g

/-- The values an origin holds staged for a group. -/
def stagedOf (s : State) (o : Origin) (g : Nat) : Option (SMap (List Byte)) :=
  (sessionOf s o).bind fun x => if x.group = some g then some x.staged else none

/-! ### The request and its answer -/

/-- One dictionary access: who, on which path, the header fields, and the value of a write. `readBack` is an input of the
block: whether fuses that a life-cycle command blows read back right. -/
structure Req where
  origin : Origin
  tgt : ReplyTo
  param : Nat
  op : Nat
  ty : Nat
  length : Nat
  offset : Nat
  value : List Byte
  limit : Nat
  readBack : Bool := true

/-- What an access leaves: the state, its response, and whether the response waits for a flash program. -/
structure Ans where
  after : State
  resp : Resp
  owed : Bool := false

/-- A response returns on its path, a mailbox response only while its port is up (09 Table 9.8); a new `CR_BIT_NS` is taken after the reply to the write that
set it (17 R428). A mailbox command returns Success and the status in the payload, refused or not: the model's choice
(log 120). -/
def respond (tgt : ReplyTo) (param : Nat) (r : Resp) (s : State) : State :=
  match tgt with
  | .courier t => modCr (fun c => { c with
      replies := c.replies.map fun x =>
        if x.ticket = t then { x with resp := some r, newBit := param == P.CR_BIT_NS && r.status == 0 && r.value.isEmpty } else x }) s
  | .mailbox p => onlyIf (portUp s p) (emit (.mailbox p 0 (respHeader r ++ r.value))) s
  | .core o => emit (.dictReply o param r) s
  | .discarded => s

/-- A refusal (R50): the number has been given; the count and the last refusal record it. -/
def refuse (r : Req) (st seq : Nat) (s : State) : Ans where
  after := modDict (fun d => { d with
    rejectCount := satAdd 32 d.rejectCount 1
    lastReject := r.param + (srcClass s r.origin).code * 2 ^ 24 + st * 2 ^ 32 + seq * 2 ^ 64 }) s
  resp := ⟨st, r.ty, seq, []⟩

/-- An accepted access answers. -/
def accept (r : Req) (st seq : Nat) (v : List Byte) (s : State) : Ans where
  after := modSession r.origin id s
  resp := ⟨st, r.ty, seq, v⟩

/-! ### Checks 2 to 7 -/

/-- Check 2 (R33, R37): the header is well formed, and type and length match. -/
def headerFault (r : Req) (p : PSpec) : Option Nat :=
  let given := if r.op = 1 then r.value.length else r.length
  if 2 ≤ r.op then some 0x06
  else if r.ty ≠ p.ty.code then some 0x07
  else if p.ty = .blob ∨ p.ty = .table then
    (if r.limit < r.length ∨ p.size < r.offset + r.length ∨ given ≠ r.length then some 0x06 else none)
  else if r.offset ≠ 0 then some 0x06
  else if given ≠ r.length then some 0x07
  else if p.ty = .cmd then
    (if r.op = 1 then (if 64 < r.length then some 0x07 else none)
     else if r.length = 16 then none else some 0x07)
  else if r.length = p.size then none else some 0x07

/-- Check 5 (R34, R46): the owner, or presence for an RWP member and a presence-gated command. Group
0x0003 takes writes from every source class (R48). -/
def ownerFault (s : State) (r : Req) (p : PSpec) : Option Nat :=
  let cls := srcClass s r.origin
  if p.acc = .rwp ∨ r.param = P.LC_CMD then (if cls = .courierPresent then none else some 0x05)
  else if p.acc = .rwk ∨ r.param / 256 = 0x0003 then none
  else if cls.owner = ownerOf s (r.param / 256) then none else some 0x04

/-- Checks 2 to 5, the parameter known. -/
def rightsFault (s : State) (r : Req) (p : PSpec) : Option Nat :=
  match headerFault r p with
  | some e => some e
  | none =>
    if r.op = 0 then none
    else if p.acc = .ro then some 0x09
    else if p.acc = .rwk ∧ srcClass s r.origin ≠ .keeper then some 0x0D
    else ownerFault s r p

/-- The row an access goes to: the selected row of a window, 0 elsewhere. -/
def rowFor (s : State) (o : Origin) (param : Nat) (g : GSpec) : Option Nat :=
  if g.rows = 0 then some 0 else cursorOf s o (param / 256)

/-- A BLOB must be staged whole: its value has the length of its highest offset plus length (R42). What the `COMMIT` of a
shorter one answers is the model's choice: `RANGE` (log 121). -/
def blobsWhole (g : GSpec) (staged : SMap (List Byte)) : Bool :=
  staged.all fun e => match memberSpec g e.1 with
    | some p => p.ty != .blob || e.2.length == p.size
    | none => false

/-- The state with a group's staged values in place of the committed ones (R42). -/
def combined (grp row : Nat) (staged : SMap (List Byte)) (s : State) : State :=
  forAll staged (fun e t => putParam row (grp * 256 + e.1) (leNat e.2) t) s

/-- A `COMMIT` of a group's owner is refused (R48): a fixed owner (check 3), or a source that may not give it (check 5). -/
def ownerCommitFault (s : State) (o : Origin) (row : Nat) : Option Nat :=
  let fixed := match groupSpec row with
    | some g => g.ownerFixed
    | none => true
  let cls := srcClass s o
  if fixed then some 0x09
  else if cls.owner ≠ ownerOf s row ∧ cls ≠ .courierPresent then some 0x04
  else none

/-- Checks 3, 5 and 6 of a `COMMIT` that applies staged values. -/
def commitEarly (s : State) (r : Req) (g : GSpec) (row : Nat) : Option Nat :=
  let grp := r.param / 256
  match stagedOf s r.origin grp with
  | none => none
  | some staged =>
    if staged = [] then none
    else if grp = 0x0003 then ownerCommitFault s r.origin row
    else if blobsWhole g staged = false then some 0x06
    else match commitRefused s (combined grp row staged s) r.origin grp row staged with
      | some st => if st = 0x05 ∨ st = 0x06 then some st else none
      | none => none

/-- Whether a member is the `COMMIT` of its group. -/
def isCommit (g : GSpec) (p : PSpec) (param : Nat) : Bool := p.ty == .cmd && g.staged && param % 256 == 2

/-- Whether the member a request names is `SELECT` of a table window. -/
def isSelect (g : GSpec) (r : Req) : Bool := r.op == 1 && decide (0 < g.rows) && r.param % 256 == 1

/-- Check 6 (R33, R43, R44): a value is within its range or code table; a command's code and argument are those of the owning
chapter; what a commit would apply is within range. A BLOB is checked at its commit. -/
def valueFault (s : State) (r : Req) (g : GSpec) (p : PSpec) : Option Nat :=
  if r.op = 0 then none
  else if isSelect g r then (if g.rows ≤ leNat r.value then some 0x06 else none)
  else if p.ty = .cmd then
    (if cmdRange s r.param r.value = false then some 0x06
     else if isCommit g p r.param ∧ r.value = [0#8] then (rowFor s r.origin r.param g).bind (commitEarly s r g)
     else none)
  else if p.ty = .blob then none
  else if p.range.holds (leNat r.value) ∧ (p.staged ∨ writeRange s r.param (leNat r.value)) then none else some 0x06

/-- Check 7 (R52): in `RETIRED` the sequencer answers for every group outside 0x0000-0x04FF; else the
holding die must be able to act, and the group itself not held by an `ISOLATED` rewrite. The members of a window that
the sequencer keeps in the session, its `COMMIT` record and a discard of staged values need no die (R464). With no row selected
the die of row 0 is asked: the model's choice (log 156). -/
def holderFault (s : State) (r : Req) (g : GSpec) : Option Nat :=
  let grp := r.param / 256
  let m := r.param % 256
  if grp < 0x0500 then none
  else if lcState s = 4 then some 0x03
  else if 0 < g.rows ∧ (m = 1 ∨ m = 3 ∨ m = 4 ∨ (m = 2 ∧ (r.op = 0 ∨ r.value = [1#8]))) then none
  else if holderCanAct s grp m ((rowFor s r.origin r.param g).getD 0) = false then some 0x02
  else if r.op = 1 ∧ groupBusy s r.param r.value then some 0x02
  else none

/-! ### Reads -/

/-- The window members every table window has (R43). `SELECT` with no row selected reads 0: the model's choice (log 119). -/
def windowRead (s : State) (o : Origin) (g : GSpec) (grp m : Nat) : Option (List Byte) :=
  if m = 1 then some (leBytes 4 ((cursorOf s o grp).getD 0))
  else if m = 3 then some (leBytes 4 g.rows)
  else if m = 4 then (cursorOf s o grp).map fun row => leBytes 1 (bNat (rowUsed s grp row))
  else none

/-- `GROUP_INFO` (Table 2.1). -/
def groupInfo (s : State) (g : GSpec) (grp : Nat) : Nat :=
  (g.members.foldl (fun a r => max a (r.first + r.count - 1)) 0) + ownerOf s grp * 2 ^ 8 +
    bNat g.ownerFixed * 2 ^ 11 + bNat (decide (0 < g.rows)) * 2 ^ 12 + bNat g.staged * 2 ^ 13 + 2 ^ 32

/-- The whole value a read returns for a member; `row` is the selected row of a window. -/
def valueOf (s : State) (g : GSpec) (p : PSpec) (grp m row : Nat) : List Byte :=
  let n := grp * 256 + m
  if m = 0 then leBytes 8 (groupInfo s g grp)
  else if p.ty = .cmd then
    (let c := cmdAt s row n
     leBytes 4 (c.status + c.source * 256) ++ leBytes 4 c.detail ++ leBytes 8 c.seq)
  else if p.acc = .wo then List.replicate p.size 0#8
  else if n = P.OWNER then leBytes 1 (ownerOf s row)
  else if p.acc = .ro ∨ n = P.REGION_REG then roBytes s grp row m
  else leBytes p.size (prow s row n)

/-- A read that passed checks 1 to 7. A `ROW_USED` that the spec leaves open draws a free value. -/
def doRead (r : Req) (g : GSpec) (p : PSpec) (seq : Nat) (s : State) : Ans :=
  let grp := r.param / 256
  let m := r.param % 256
  let v := if 0 < g.rows ∧ (m = 1 ∨ m = 3 ∨ m = 4) then windowRead s r.origin g grp m
    else if 0 < g.rows ∧ 0x05 ≤ m then (cursorOf s r.origin grp).map (valueOf s g p grp m)
    else some (valueOf s g p grp m ((cursorOf s r.origin grp).getD 0))
  match v with
  | none => refuse r 0x03 seq s
  | some bs =>
    let bs := if p.ty = .blob ∨ p.ty = .table then slice r.offset r.length (fit 0#8 (r.offset + r.length) bs) else bs
    accept r 0 seq bs (if 0 < g.rows ∧ m = 4 then afterDraw s else s)

/-! ### Writes -/

/-- A value is committed: held, and on its way to the flash where it is FLASH; the flag says whether an entry is owed. -/
def commitValue (p : PSpec) (row n v : Nat) (s : State) : State × Bool :=
  let s1 := putParam row n v s
  if p.pers = .flash then
    (modDict (fun d => { d with flashQ := d.flashQ ++ [⟨pkey row n, v, none⟩] }) s1, true)
  else (s1, false)

/-- The answer `OK` to a write; where it owes flash entries it waits for the last of them (R35). -/
def acceptWrite (r : Req) (seq : Nat) (owed : Bool) (s : State) : Ans := { accept r 0 seq [] s with owed := owed }

/-- A write of a member that is not staged and not a command: refused by its owner's rules, or applied
with what it brings about. -/
def writeDirect (r : Req) (p : PSpec) (row seq : Nat) (s : State) : Ans :=
  let v := leNat r.value
  match writeRefused s row r.param v with
  | some st => refuse r st seq (admissionFailed st s)
  | none =>
    let old := prow s row r.param
    let q := commitValue p row r.param v (beforeWrite r.param v s)
    acceptWrite r seq q.2 (afterWrite row r.param old v q.1)

/-- Whether a session holds staged values of another group. -/
def otherStaged (s : State) (o : Origin) (grp : Nat) : Bool :=
  match sessionOf s o with
  | some x => !x.staged.isEmpty && x.group != some grp
  | none => false

/-- A staged write is held in the session (R42): one group at a time. -/
def writeStaged (r : Req) (p : PSpec) (grp seq : Nat) (s : State) : Ans :=
  if otherStaged s r.origin grp ∨ groupClosed s r.param then refuse r 0x03 seq s
  else
    let m := r.param % 256
    let old := (stagedOf s r.origin grp).getD []
    let bytes := if p.ty = .blob then
        (let b := smGet [] old m
         fit 0#8 (max b.length (r.offset + r.length)) (fit 0#8 r.offset b ++ r.value ++ b.drop (r.offset + r.length)))
      else r.value
    accept r 0 seq [] (modSession r.origin (fun x => { x with group := some grp, staged := smSet old m bytes }) s)

/-- All staged values of a group are committed. -/
def commitAll (g : GSpec) (grp row : Nat) : SMap (List Byte) → State → State × Bool
  | [], s => (s, false)
  | e :: rest, s =>
    match memberSpec g e.1 with
    | none => commitAll g grp row rest s
    | some p =>
      let q := commitValue p row (grp * 256 + e.1) (leNat e.2) s
      let q2 := commitAll g grp row rest q.1
      (q2.1, q.2 || q2.2)

/-- The session lets go of what it held staged. -/
def dropStaged (o : Origin) (s : State) : State :=
  modSession o (fun x => { x with group := none, staged := [] }) s

/-- The record of a command or commit that has been accepted (R44). -/
def cmdStart (r : Req) (row st detail seq : Nat) (s : State) : State :=
  modDict (fun d => { d with
    cmds := smPut {} d.cmds (cmdKey row r.param) ⟨st, (srcClass s r.origin).code, detail, seq⟩ }) s

/-- COMMIT of group 0x0003 (R48). -/
def commitOwner (r : Req) (row seq : Nat) (staged : SMap (List Byte)) (s : State) : Ans :=
  match ownerCommitFault s r.origin row with
  | some st => refuse r st seq s
  | none =>
    let v := leNat (smGet [] staged 0x10)
    acceptWrite r seq true (cmdStart r row 1 0 seq (dropStaged r.origin (modDict (fun d => { d with
      owners := smSet d.owners row v
      flashQ := d.flashQ ++ [⟨pkey row P.OWNER, v, none⟩] }) s)))

/-- COMMIT with argument 0 (R42): all checks against the combined result, then all values in one step. While its flash
entries are programmed the `COMMIT` reads `PENDING`. -/
def commitGroup (r : Req) (g : GSpec) (row seq : Nat) (s : State) : Ans :=
  let grp := r.param / 256
  let staged := (stagedOf s r.origin grp).getD []
  if cmdPending s row r.param then refuse r 0x02 seq s
  else if staged = [] then
    (if commitsNothing grp then accept r 0 seq [] (cmdStart r row 0 0 seq s) else refuse r 0x03 seq s)
  else if grp = 0x0003 then commitOwner r row seq staged s
  else
    match commitRefused s (combined grp row staged s) r.origin grp row staged with
    | some st => refuse r st seq
        (onlyIf (!(groupKind grp == 0x1000 && floorsRefuse (combined grp row staged s) (grp - 0x1000))) (admissionFailed st) s)
    | none =>
      let q := commitAll g grp row staged (beforeCommit grp row s)
      let e := afterCommit grp row s (cmdStart r row 1 0 seq (dropStaged r.origin q.1))
      if e.2 then accept r 1 seq [] e.1
      else if q.2 then acceptWrite r seq true e.1
      else accept r 0 seq [] (cmdEnd row r.param 0 0 e.1)

/-- COMMIT with argument 1 (R42): the staged values are discarded. A lodging that is being destroyed takes none (03 R85). -/
def commitDiscarded (r : Req) (row seq : Nat) (s : State) : Ans :=
  if cmdPending s row r.param then refuse r 0x02 seq s
  else if groupClosed s r.param then refuse r 0x03 seq s
  else match stagedOf s r.origin (r.param / 256) with
    | none => if commitsNothing (r.param / 256) then accept r 0 seq [] (cmdStart r row 0 0 seq s) else refuse r 0x03 seq s
    | some _ => accept r 0 seq [] (cmdStart r row 0 0 seq (dropStaged r.origin s))

/-- A command member: BUSY while its command is pending (R44), its own refusals, then its effect. The record answers for
it afterwards; the response is `OK` where the command has ended `OK`, else `PENDING`. -/
def writeCmd (r : Req) (row seq : Nat) (s : State) : Ans :=
  if cmdPending s row r.param ∧ acceptsPending s r.param row r.value = false then refuse r 0x02 seq s
  else match cmdRefused s r.param row r.value with
    | some st => refuse r st seq (admissionFailed st s)
    | none =>
      let s1 := cmdStart r row 1 0 seq (modSession r.origin id s)
      let e := cmdRun r.param row r.value (srcClass s r.origin).code seq r.readBack s1
      let t := match e.2 with
        | some (st, detail) => modDict (fun d => { d with
            cmds := smPut {} d.cmds (cmdKey row r.param) ⟨st, (srcClass s r.origin).code, detail, seq⟩ }) e.1
        | none => e.1
      { after := t, resp := ⟨if (cmdAt t row r.param).status = 0 then 0 else 1, r.ty, seq, []⟩ }

/-- SELECT (R43): WRONG_STATE while staged row values are held. -/
def writeSelect (r : Req) (seq : Nat) (s : State) : Ans :=
  let grp := r.param / 256
  let row := leNat r.value
  if ((stagedOf s r.origin grp).getD []) ≠ [] then refuse r 0x03 seq s
  else accept r 0 seq [] (modSession r.origin (fun x => { x with cursors := smSet x.cursors grp row }) s)

/-- A write that passed checks 1 to 7. -/
def doWrite (r : Req) (g : GSpec) (p : PSpec) (row seq : Nat) (s : State) : Ans :=
  if isCommit g p r.param then
    (if r.value = [0#8] then commitGroup r g row seq s else commitDiscarded r row seq s)
  else if p.ty = .cmd then writeCmd r row seq s
  else if p.staged then writeStaged r p (r.param / 256) seq s
  else writeDirect r p row seq s

/-- A read of an energy count that stands at all ones finds it, with an alert (15 R391). -/
def energyFound (param : Nat) (s : State) : State :=
  onlyIf ((decide (param = P.HS_ENERGY) && s.hs.energy == 2 ^ 64 - 1) ||
    (below 16).any fun w => decide (param = P.BR_ENERGY + w) && (branchAt s w).energy == 2 ^ 64 - 1) (logPlain 13 1) s

/-- A read of `DICT_REFS` finds the selected row's counts that stand at all ones (05 R146). -/
def readFound (o : Origin) (param : Nat) (s0 : State) : State :=
  let s := energyFound param s0
  match cursorOf s o (param / 256) with
  | some x => onlyIf (decide (param = P.DICT_REFS)) (forAll (below 4) (fun d t => refsRead d x t)) s
  | none => s

/-- Checks 7 to 9 and the action. A Courier access that needs a die wakes the device, or abandons its entry
(16 Table 16.5, 17 R423). -/
def performAccess (r : Req) (g : GSpec) (p : PSpec) (seq : Nat) (s0 : State) : Ans :=
  let s := onlyIf (fromCourier r.origin && decide (0x0500 ≤ r.param / 256) && lcState s0 != 4) (wake 4) s0
  match holderFault s0 r g with
  | some st => refuse r st seq s
  | none =>
    if isSelect g r then writeSelect r seq s
    else if r.op = 0 then doRead r g p seq (readFound r.origin r.param s)
    else match rowFor s r.origin r.param g with
      | none => if isCommit g p r.param ∧ cmdPending s 0 r.param then refuse r 0x02 seq s else refuse r 0x03 seq s
      | some row => doWrite r g p row seq s

/-- One dictionary access (R45, R49): numbered, checked in order, performed. What the fault of the sequencer at an all-ones
number does is the model's choice: that access and every later one is refused with `FAULT` (log 118). -/
def accessAns (r : Req) (s0 : State) : Ans :=
  let s := modDict (fun d => { d with seq := d.seq + 1, seqMirror := d.seq + 1 }) s0
  let seq := s.dict.seq
  if 2 ^ 64 - 1 ≤ seq then refuse r 0x0C seq s
  else
  match groupSpec (r.param / 256), paramSpec r.param with
  | some g, some p =>
    match rightsFault s r p with
    | some st => refuse r st seq s
    | none =>
      match valueFault s r g p with
      | some st => refuse r st seq s
      | none => performAccess r g p seq s
  | _, _ => refuse r 0x08 seq s

/-- The response of an access goes out, or waits with the last flash entry it owes (R35). -/
def deliver (r : Req) (a : Ans) : State :=
  if a.owed then
    modDict (fun d => { d with
      flashQ := match d.flashQ.reverse with
        | [] => []
        | e :: rest => rest.reverse ++ [{ e with reply := some (r.tgt, r.param, a.resp) }] }) a.after
  else respond r.tgt r.param a.resp a.after

/-- One dictionary access with its response. The sequencer runs on standby power (R52): without it nothing is numbered and
nothing answers. From a Keeper that does not run nothing reaches it (13 R340). -/
def access (r : Req) (s : State) : State :=
  if s.sl.vstby && !keeperSilent s r.origin then deliver r (accessAns r s) else s

/-- The oldest flash entry has been programmed (R35, 18 R429): it stands in the journal, and the response that waited for
it goes out; a `COMMIT` that waited for it ends `OK`. -/
def flashDone (s : State) : State :=
  match s.dict.flashQ with
  | [] => s
  | e :: rest =>
    let s1 := modSl (fun l => { l with journal := smSet l.journal e.key e.value })
      (modDict (fun d => { d with flashQ := rest }) s)
    match e.reply with
    | none => s1
    | some (tgt, param, resp) => respond tgt param resp (cmdEnd (e.key / 2 ^ 24) param 0 0 s1)

/-! ### Accesses the rows of the table name -/

/-- A write by an origin whose response goes back to it. -/
def reqWrite (o : Origin) (param ty offset : Nat) (value : List Byte) : Req :=
  { origin := o, tgt := .core o, param := param, op := 1, ty := ty, length := value.length
    offset := offset, value := value, limit := 4096 }

/-- A write of a scalar member. -/
def writeOf (o : Origin) (param ty : Nat) (value : List Byte) (s : State) : State := access (reqWrite o param ty 0 value) s

/-- A command member written with its code and argument. -/
def cmdOf (o : Origin) (param : Nat) (arg : List Byte) (s : State) : State := writeOf o param 12 arg s

/-- A command member of a window's row: the row is selected first. -/
def rowCmdOf (o : Origin) (param row : Nat) (arg : List Byte) (s : State) : State :=
  cmdOf o param arg (writeOf o (param / 256 * 256 + 1) 3 (leBytes 4 row) s)

/-- The request header of R37 in the 12 bytes that begin a payload. -/
def reqOf (o : Origin) (tgt : ReplyTo) (limit : Nat) (h : List Byte) : Req :=
  let n := leNat (h.take 12)
  { origin := o, tgt := tgt, param := bitsOf n 0 24, op := bitsOf n 24 4, ty := bitsOf n 32 8
    length := bitsOf n 48 16, offset := bitsOf n 64 32, value := h.drop 12, limit := limit }

end Sys2Proof.Machine
end

