-- ==== Sys2Proof/Machine/Flags.lean ====
section
/-! DEFINITION. Status words. -/

namespace Sys2Proof.Machine

/-- Bits set in a status word. -/
def setBits (v m : Nat) : Nat := Nat.lor v m

/-- Bits cleared in a status word. -/
def clearBits (v m : Nat) : Nat := Nat.xor v (Nat.land v m)

end Sys2Proof.Machine
end

