-- ==== Sys2Proof/Machine/FmApi.lean ====
section
/-! DEFINITION. The mailbox of an IME view and the FM API: what each supported command answers and which dictionary accesses
it makes (02 R40, R41; 03 R62, R63, R66; 09 R245, R252, Tables 9.4 and 9.6). The CXL return codes are PRESUMED
from the CXL standard (log 8); the order of the fields in a payload is the model's (log 9). -/

namespace Sys2Proof.Machine

/-! ### The mailbox of a view (09 Table 9.4) -/

/-- A command that reached the mailbox of a view is answered. -/
def viewAnswers (p : PortId) (f : State → Nat × List Byte) (s : State) : State :=
  if mailboxOpen s p.val then (let q := f s; mailboxReply p.val q.1 q.2 s) else s

/-- The identity of a view: class code, vendor, device; no static capacity. -/
def viewIdentity : List Byte :=
  leBytes 3 0x050210 ++ leBytes 2 Config.vendorId.toNat ++ leBytes 2 0x8640 ++ leBytes 8 0

/-- A Dynamic Capacity region (03 R62): base, length, block size, whether it is shareable. -/
def regionGeometry (r : Nat) : List Byte :=
  leBytes 8 (r * 2 ^ 46) ++ leBytes 8 (2 ^ 46) ++ leBytes 8 (2 ^ 28) ++ leBytes 1 r

/-- Both regions. -/
def regionsGeometry : List Byte := regionGeometry 0 ++ regionGeometry 1

/-- The tag of an extent (03 R63). -/
def extentTag (n gen : Nat) : List Byte := leBytes 2 n ++ leBytes 2 gen ++ List.replicate 12 0#8

/-- The extents a host has accepted: DPA, length, tag. -/
def extentList (s : State) (p : Nat) : List Byte :=
  let l := (extentsOf s p).filter (·.accepted)
  leBytes 4 l.length ++ l.flatMap fun e => leBytes 8 (e.dpa * 2 ^ 28) ++ leBytes 8 (e.len * 2 ^ 28) ++ extentTag e.lodging e.gen

/-- What an event record says. -/
def eventBytes : EventBody → List Byte
  | .media dpa => leBytes 1 0 ++ leBytes 8 dpa
  | .page n p => leBytes 1 1 ++ leBytes 2 n ++ leBytes 8 p
  | .vendor c b => leBytes 1 2 ++ leBytes 2 c ++ leBytes 32 b
  | .module u st => leBytes 1 3 ++ leBytes 2 u ++ leBytes 1 st
  | .capacity w e =>
    leBytes 1 4 ++ leBytes 1 w ++ leBytes 8 (e.dpa * 2 ^ 28) ++ leBytes 8 (e.len * 2 ^ 28) ++ extentTag e.lodging e.gen

/-- The records of an event log, oldest first, after their count and the overflow count. -/
def eventLog (s : State) (p log : Nat) : List Byte :=
  let l := smGet [] (portAt s p).events log
  leBytes 2 l.length ++ leBytes 2 (smGet 0 (portAt s p).overflow log) ++ l.flatMap eventBytes

/-- The oldest records of an event log are cleared, all of them for a count of 0. -/
def eventsClear (p log n : Nat) (s : State) : State :=
  let l := smGet [] (portAt s p).events log
  if mailboxOpen s p = false then s
  else if 4 < log ∨ l.length < n then mailboxReply p 2 [] s
  else
    let rest := if n = 0 then [] else l.drop n
    mailboxReply p 0 [] (modPortAt p (fun x => { x with
      events := smPut [] x.events log rest
      overflow := if rest = [] then smErase x.overflow log else x.overflow }) s)

/-! ### The FM API (09 Table 9.6) -/

/-- The CXL return code for a dictionary status (R41). -/
def fmCode (st : Nat) : Nat :=
  if st = 0 then 0 else if st = 1 then 1 else if st = 2 then 6 else if st = 8 then 3 else if st = 0x0C then 4 else 2

/-- One dictionary read by the FM API. -/
def fmReadReq (n offset length : Nat) : Req :=
  { origin := .fmApi, tgt := .core .fmApi, param := n, op := 0
    ty := match paramSpec n with | some p => p.ty.code | none => 0
    length := length, offset := offset, value := [], limit := 4096 }

/-- The bytes one read of a member asks for. -/
def memberSize (n : Nat) : Nat := match paramSpec n with | some p => p.size | none => 0

/-- A series of reads: parameter, offset, length. It ends at the first that is refused. -/
def fmReads : List (Nat × Nat × Nat) → State → State × Nat × List Byte
  | [], s => (s, 0, [])
  | q :: rest, s =>
    let a := accessAns (fmReadReq q.1 q.2.1 q.2.2) s
    if a.resp.status ≠ 0 then (a.after, a.resp.status, [])
    else
      let t := fmReads rest a.after
      (t.1, t.2.1, if t.2.1 = 0 then a.resp.value ++ t.2.2 else [])

/-- Members read whole. -/
def wholeOf (l : List Nat) : List (Nat × Nat × Nat) := l.map fun n => (n, 0, memberSize n)

/-- An FM API command: heard on a port that is up, accepted only on `FM_PORT` (R40, R252). -/
def fmCommand (p : PortId) (f : State → State × Nat × List Byte) (s : State) : State :=
  if portUp s p.val = false ∨ portRole s p.val ≠ 1 then s
  else if pnum s P.FM_PORT ≠ p.val then mailboxReply p.val 3 [] s
  else
    let q := f s
    mailboxReply p.val q.2.1 q.2.2 q.1

/-- A command that only reads: its payload begins with `pre`. -/
def fmQuery (pre : List Byte) (l : List (Nat × Nat × Nat)) (s : State) : State × Nat × List Byte :=
  let q := fmReads l s
  (q.1, fmCode q.2.1, if q.2.1 = 0 then pre ++ q.2.2 else [])

/-- A write by the FM API: its status, and where it started a background command, which one. -/
def fmWrite (n ty : Nat) (value : List Byte) (s : State) : State × Nat :=
  let a := accessAns (reqWrite .fmApi n ty 0 value) s
  let st := a.resp.status
  (onlyIf (st == 1) (modDict fun d => { d with lastBg := some (0, n) }) a.after, st)

/-- A command that is one write of a CMD member. -/
def fmCmd (n : Nat) (arg : List Byte) (s : State) : State × Nat × List Byte :=
  let q := fmWrite n 12 arg s
  (q.1, fmCode q.2, [])

/-- Bind vPPB (Table 9.6): Background Command Started while `SW_BIND_CMD` reads `PENDING`, Success where it has ended. -/
def fmBind (v b t : Byte) (s : State) : State × Nat × List Byte :=
  let q := fmWrite P.SW_BIND_CMD 12 [1#8, v, b, t] s
  if q.2 = 0 ∨ q.2 = 1 then (modDict (fun d => { d with lastBg := some (0, P.SW_BIND_CMD) }) q.1, fmCode q.2, [])
  else (q.1, fmCode q.2, [])

/-- Background Operation Status (Table 9.6): the record of the CMD member that the last background command started. -/
def fmBackground (s : State) : State × Nat × List Byte :=
  match s.dict.lastBg with
  | none => (s, 0, List.replicate 16 0#8)
  | some (_, n) => fmQuery [] [(n, 0, 16)] s

/-- The lodging a tag names (03 R63): it exists, and in its present generation. -/
def tagLodging (s : State) (tag : BitVec 128) : Option Nat :=
  let n := bitsOf tag.toNat 0 16
  if tag.toNat < 2 ^ 32 ∧ n < 4096 ∧ (lodgeAt s n).state ≠ .free ∧ (lodgeAt s n).gen = bitsOf tag.toNat 16 16 then some n
  else none

/-- `HOST_PORTS` of a lodging is staged and committed (R41): the second write is made only if the first is accepted. -/
def fmHostPorts (n ports : Nat) (s : State) : State × Nat × List Byte :=
  let q := fmWrite (P.HOST_PORTS + 256 * n) 4 (leBytes 8 ports) s
  if q.2 = 0 then fmCmd (lodgeCommit n) [0#8] q.1 else (q.1, fmCode q.2, [])

/-- Initiate Dynamic Capacity Add (Table 9.6). -/
def fmAdd (host region : Nat) (tag : BitVec 128) (s : State) : State × Nat × List Byte :=
  match tagLodging s tag with
  | some n =>
    if region = bNat (lodgeAttr s n 2) then fmHostPorts n (Nat.lor (lodgeP s n P.HOST_PORTS) (2 ^ host)) s else (s, 2, [])
  | none => (s, 2, [])

/-- Initiate Dynamic Capacity Release (Table 9.6). -/
def fmRelease (host : Nat) (tag : BitVec 128) (forced : Bool) (s : State) : State × Nat × List Byte :=
  match tagLodging s tag with
  | some n =>
    let ports := lodgeP s n P.HOST_PORTS
    if forced then (s, 2, []) else fmHostPorts n (ports - Nat.land ports (2 ^ host)) s
  | none => (s, 2, [])

/-- Set DC Region Configuration (Table 9.6): the values of R62 give Success, any other Invalid Input. -/
def fmSetRegion (region length block : Nat) (s : State) : State × Nat × List Byte :=
  (s, if region < 2 ∧ length = 2 ^ 46 ∧ block = 2 ^ 28 then 0 else 2, [])

/-- The reads of `EXTENTS` for each lodging whose `HOST_PORTS` names a port, in pieces of 4,096 bytes up to its last record. -/
def extentReads (s : State) (host : Nat) : List (Nat × Nat × Nat) :=
  ((liveLodges s).filter fun n => (hostPorts s n).contains host).flatMap fun n =>
    (below (max 1 ((16 * (lodgeExtents s n).length + 4095) / 4096))).map fun k => (P.EXTENTS + 256 * n, 4096 * k, 4096)

/-! ### Commands -/

/-- IDENTIFY_MEMORY_DEVICE (R245). -/
def execIdentifyMemoryDevice (p : PortId) (s : State) : Out := .next (viewAnswers p (fun _ => (0, viewIdentity)) s)
/-- GET_SUPPORTED_LOGS (R245): the list is the CXL standard's, a free value. -/
def execGetSupportedLogs (p : PortId) (s : State) : Out :=
  .next (afterDraw (viewAnswers p (fun t => (0, Config.standardPayload 0x0400 t.fresh)) s))
/-- GET_LOG (R245): the log's contents are the CXL standard's, a free value. -/
def execGetLog (p : PortId) (log : BitVec 128) (offset length : BitVec 32) (s : State) : Out :=
  .next (afterDraw (viewAnswers p (fun t =>
    (0, (slice offset.toNat length.toNat (Config.standardPayload (log.toNat * 2 ^ 16 + 0x0401) t.fresh)))) s))
/-- GET_EVENT_RECORDS (R245). -/
def execGetEventRecords (p : PortId) (log : Byte) (s : State) : Out :=
  .next (viewAnswers p (fun t => if 4 < log.toNat then (2, []) else (0, eventLog t p.val log.toNat)) s)
/-- CLEAR_EVENT_RECORDS (R245). -/
def execClearEventRecords (p : PortId) (log count : Byte) (s : State) : Out :=
  .next (eventsClear p.val log.toNat count.toNat s)
/-- GET_DYNAMIC_CAPACITY_CONFIGURATION (R62). -/
def execGetDynamicCapacityConfiguration (p : PortId) (s : State) : Out :=
  .next (viewAnswers p (fun _ => (0, leBytes 1 2 ++ regionsGeometry)) s)
/-- GET_DYNAMIC_CAPACITY_EXTENT_LIST (R66). -/
def execGetDynamicCapacityExtentList (p : PortId) (s : State) : Out :=
  .next (viewAnswers p (fun t => (0, extentList t p.val)) s)

/-- IDENTIFY (Table 9.6): reads of group 0x0000 identity members. -/
def execFmIdentify (p : PortId) (s : State) : Out :=
  .next (fmCommand p (fmQuery (identityBytes s) (wholeOf [P.LC_STATE, P.OPERATOR_ID])) s)
/-- BACKGROUND_OPERATION_STATUS (Table 9.6). -/
def execBackgroundOperationStatus (p : PortId) (s : State) : Out := .next (fmCommand p fmBackground s)
/-- GET_RESPONSE_MESSAGE_LIMIT (Table 9.6): none; returns 12, that is 4 KiB. -/
def execGetResponseMessageLimit (p : PortId) (s : State) : Out := .next (fmCommand p (fun t => (t, 0, [12#8])) s)
/-- IDENTIFY_SWITCH_DEVICE (Table 9.6). -/
def execIdentifySwitchDevice (p : PortId) (s : State) : Out :=
  .next (fmCommand p (fmQuery [] (wholeOf ([P.SW_ROLE_COUNT, P.SW_VCS_MAP] ++ (below 64).map (P.PORT_ROLE + 256 * ·)))) s)
/-- GET_PHYSICAL_PORT_STATE (Table 9.6). -/
def execGetPhysicalPortState (p : PortId) (ports : List PortId) (s : State) : Out :=
  .next (fmCommand p (fmQuery [] (wholeOf (ports.flatMap fun t =>
    [P.LINK_STATE, P.PORT_ROLE, P.PORT_WIDTH, P.PORT_RATE].map (· + 256 * t.val)))) s)
/-- ASSERT_PERST (Table 9.6): `PORT_CMD` 5. -/
def execAssertPerst (p t : PortId) (s : State) : Out := .next (fmCommand p (fmCmd (P.PORT_CMD + 256 * t.val) [5#8]) s)
/-- DEASSERT_PERST (Table 9.6): `PORT_CMD` 6. -/
def execDeassertPerst (p t : PortId) (s : State) : Out := .next (fmCommand p (fmCmd (P.PORT_CMD + 256 * t.val) [6#8]) s)
/-- RESET_PPB (Table 9.6): `PORT_CMD` 4. -/
def execResetPpb (p t : PortId) (s : State) : Out := .next (fmCommand p (fmCmd (P.PORT_CMD + 256 * t.val) [4#8]) s)
/-- GET_VIRTUAL_CXL_SWITCH_INFO (Table 9.6). -/
def execGetVirtualCxlSwitchInfo (p : PortId) (s : State) : Out := .next (fmCommand p (fmQuery [] (wholeOf [P.SW_VCS_MAP])) s)
/-- BIND_VPPB (Table 9.6). -/
def execBindVppb (p : PortId) (v b target : Byte) (s : State) : Out := .next (fmCommand p (fmBind v b target) s)
/-- UNBIND_VPPB_WAIT (Table 9.6): option 0. -/
def execUnbindVppbWait (p : PortId) (v b : Byte) (s : State) : Out :=
  .next (fmCommand p (fmCmd P.SW_BIND_CMD [2#8, v, b, 0#8]) s)
/-- UNBIND_VPPB_MANAGED (Table 9.6): option 1. -/
def execUnbindVppbManaged (p : PortId) (v b : Byte) (s : State) : Out :=
  .next (fmCommand p (fmCmd P.SW_BIND_CMD [3#8, v, b, 0#8]) s)
/-- UNBIND_VPPB_SURPRISE (Table 9.6): option 2. -/
def execUnbindVppbSurprise (p : PortId) (v b : Byte) (s : State) : Out :=
  .next (fmCommand p (fmCmd P.SW_BIND_CMD [4#8, v, b, 0#8]) s)
/-- GET_DCD_INFO (Table 9.6). -/
def execGetDcdInfo (p : PortId) (s : State) : Out :=
  .next (fmCommand p (fmQuery regionsGeometry (wholeOf ((below 16).map (P.CAP_USABLE + ·) ++
    [P.FLOOR_TOTAL, P.LOGICAL_TOTAL, P.STRANDED]))) s)
/-- GET_HOST_DC_REGION_CONFIGURATION (Table 9.6). -/
def execGetHostDcRegionConfiguration (p host : PortId) (s : State) : Out :=
  .next (fmCommand p (fun t => (t, if portRole t host.val = 1 then 0 else 2,
    if portRole t host.val = 1 then regionsGeometry else [])) s)
/-- SET_DC_REGION_CONFIGURATION (Table 9.6). -/
def execSetDcRegionConfiguration (p : PortId) (region : Byte) (length block : BitVec 64) (s : State) : Out :=
  .next (fmCommand p (fmSetRegion region.toNat length.toNat block.toNat) s)
/-- GET_DC_REGION_EXTENT_LISTS (Table 9.6). -/
def execGetDcRegionExtentLists (p host : PortId) (s : State) : Out :=
  .next (fmCommand p (fun t => fmQuery [] (extentReads t host.val) t) s)
/-- INITIATE_DYNAMIC_CAPACITY_ADD (Table 9.6). -/
def execInitiateDynamicCapacityAdd (p host : PortId) (region : Byte) (tag : BitVec 128) (s : State) : Out :=
  .next (fmCommand p (fmAdd host.val region.toNat tag) s)
/-- INITIATE_DYNAMIC_CAPACITY_RELEASE (Table 9.6). -/
def execInitiateDynamicCapacityRelease (p host : PortId) (tag : BitVec 128) (forced : Bool) (s : State) : Out :=
  .next (fmCommand p (fmRelease host.val tag forced) s)

end Sys2Proof.Machine
end

