-- ==== Sys2Proof/Machine/Management.lean ====
section
/-! DEFINITION. The commands that are dictionary accesses: Courier requests, the 0xC000 mailbox family, and the writes of the
members that have a behaviour of their own (02 R40, R42, R43; 17 R418; and the rule each row cites). -/

namespace Sys2Proof.Machine

/-! ### The paths -/

/-- A READ or WRITE frame on the bus (17 R415, R417, R418): addressed to the device and good, it is one dictionary access
with a REPLY owed; a 17th while 16 wait is discarded and counted. -/
def takeRequest (func : Nat) (dest src : BitVec 18) (param : BitVec 24) (data : List Byte) (crc : BitVec 16)
    (endOk : Bool) (s : State) : State :=
  if frameHere dest s = false then s
  else
    let lenOk := if func = 1 then data.length == 8 else decide (8 ≤ data.length) && decide (data.length ≤ 248)
    match crFrameFault dest.toNat src.toNat func param.toNat data crc endOk lenOk with
    | some bad => frameDiscard bad s
    | none =>
      if 16 ≤ s.cr.replies.length then frameDiscard false s
      else
        let t := s.cr.tickets
        let s1 := modCr (fun c => { c with
          tickets := t + 1, replies := c.replies ++ [⟨t, src.toNat, param.toNat, none, false⟩] }) (frameTaken s)
        let n := leNat (data.take 8)
        access { origin := .courier src, tgt := .courier t, param := param.toNat, op := func - 1
                 ty := bitsOf n 0 8, length := bitsOf n 16 16, offset := bitsOf n 32 32
                 value := data.drop 8, limit := 240 } s1

/-- A mailbox command of the 0xC000 family (R40): accepted only on `FM_PORT`. The opcode says whether it reads or writes; a
header that says otherwise is unusable. -/
def mailboxAccess (p : PortId) (op : Nat) (payload : List Byte) (s : State) : State :=
  if mailboxOpen s p.val = false then s
  else if pnum s P.FM_PORT ≠ p.val then mailboxReply p.val 3 [] s
  else if payload.length < 12 then mailboxReply p.val 2 [] s
  else
    let r := reqOf .fmApi (.mailbox p.val) 4096 payload
    access { r with op := if r.op = op then op else 2 } s

/-- DICT_SEQ_READ (R40, R45): the number most recently given, outside the sequencer. -/
def mailboxSeq (p : PortId) (s : State) : State :=
  if mailboxOpen s p.val = false then s
  else if pnum s P.FM_PORT ≠ p.val then mailboxReply p.val 3 [] s
  else mailboxReply p.val 0 (leBytes 8 s.dict.seq) s

/-- A life-cycle command; `readBack` is whether the fuses read back right. -/
def lcCmdOf (o : Origin) (arg : List Byte) (readBack : Bool) (s : State) : State :=
  access { reqWrite o P.LC_CMD 12 0 arg with readBack := readBack } s

/-- A lodging command. -/
def lodgeCmdOf (o : Origin) (n : LodgeId) (code operand : Nat) (s : State) : State :=
  cmdOf o (P.LODGE_CMD + 256 * n.val) (leBytes 1 code ++ leBytes 4 operand) s

/-- A key command. -/
def keyCmdOf (o : Origin) (n : LodgeId) (code : Nat) (s : State) : State :=
  cmdOf o P.KEY_CMD (leBytes 1 code ++ leBytes 2 n.val) s

/-- A retirement command. -/
def retireCmdOf (o : Origin) (code : Nat) (arg : BitVec 64) (s : State) : State :=
  cmdOf o P.RETIRE_CMD (leBytes 1 code ++ leBytes 8 arg.toNat) s

/-! ### Commands -/

/-- READ (17 R418). -/
def execCourierRead (dest src : BitVec 18) (param : BitVec 24) (data : List Byte) (crc : BitVec 16) (endOk : Bool)
    (s : State) : Out := .next (takeRequest 1 dest src param data crc endOk s)
/-- WRITE (17 R418). -/
def execCourierWrite (dest src : BitVec 18) (param : BitVec 24) (data : List Byte) (crc : BitVec 16) (endOk : Bool)
    (s : State) : Out := .next (takeRequest 2 dest src param data crc endOk s)
/-- DICT_READ (R40). -/
def execDictRead (port : PortId) (payload : List Byte) (s : State) : Out := .next (mailboxAccess port 0 payload s)
/-- DICT_WRITE (R40). -/
def execDictWrite (port : PortId) (payload : List Byte) (s : State) : Out := .next (mailboxAccess port 1 payload s)
/-- DICT_SEQ_READ (R40). -/
def execDictSeqRead (port : PortId) (s : State) : Out := .next (mailboxSeq port s)
/-- FLASH_WRITE_DONE (R35, R429). -/
def execFlashWriteDone (s : State) : Out := .next (flashDone s)

/-- PARAM_WRITE (R49). -/
def execParamWrite (o : Origin) (param : BitVec 24) (ty : Byte) (offset : BitVec 32) (value : List Byte) (s : State) : Out :=
  .next (access (reqWrite o param.toNat ty.toNat offset.toNat value) s)
/-- SELECT (R43). -/
def execSelectRow (o : Origin) (group : BitVec 16) (row : BitVec 32) (s : State) : Out :=
  .next (writeOf o (group.toNat * 256 + 1) 3 (leBytes 4 row.toNat) s)
/-- COMMIT (R42). -/
def execCommit (o : Origin) (group : BitVec 16) (s : State) : Out := .next (cmdOf o (group.toNat * 256 + 2) [0#8] s)
/-- COMMIT_DISCARD (R42). -/
def execCommitDiscard (o : Origin) (group : BitVec 16) (s : State) : Out := .next (cmdOf o (group.toNat * 256 + 2) [1#8] s)
/-- OWNER_COMMIT (R48). -/
def execOwnerCommit (o : Origin) (s : State) : Out := .next (cmdOf o 0x000302 [0#8] s)
/-- FM_PORT_WRITE (R55). -/
def execFmPortWrite (o : Origin) (port : Byte) (s : State) : Out := .next (writeOf o P.FM_PORT 1 [port] s)

/-- LODGE_CREATE (R82). -/
def execLodgeCreate (o : Origin) (n : LodgeId) (s : State) : Out := .next (cmdOf o (lodgeCommit n.val) [0#8] s)
/-- LODGE_CHANGE (R83). -/
def execLodgeChange (o : Origin) (n : LodgeId) (s : State) : Out := .next (cmdOf o (lodgeCommit n.val) [0#8] s)
/-- DESTROY (R84, R85). -/
def execDestroy (o : Origin) (n : LodgeId) (s : State) : Out := .next (lodgeCmdOf o n 1 0 s)
/-- DESTROY_FORCED (R84, R85). -/
def execDestroyForced (o : Origin) (n : LodgeId) (s : State) : Out := .next (lodgeCmdOf o n 2 0 s)
/-- REQUEST_RELEASE (R84). -/
def execRequestRelease (o : Origin) (n : LodgeId) (k : BitVec 32) (s : State) : Out := .next (lodgeCmdOf o n 3 k.toNat s)
/-- REOFFER (R84). -/
def execReoffer (o : Origin) (n : LodgeId) (s : State) : Out := .next (lodgeCmdOf o n 4 0 s)

/-- EVACUATE (R120). -/
def execEvacuate (o : Origin) (w : WingId) (s : State) : Out := .next (cmdOf o P.WING_CMD (1#8 :: leBytes 1 w.val) s)
/-- REOPEN (R120). -/
def execReopen (o : Origin) (w : WingId) (s : State) : Out := .next (cmdOf o P.WING_CMD (2#8 :: leBytes 1 w.val) s)
/-- TRAIN (R147, R148). -/
def execTrain (o : Origin) (x : DictId) (n : BitVec 16) (s : State) : Out :=
  .next (rowCmdOf o P.DICT_CMD x.val (1#8 :: leBytes 2 n.toNat) s)
/-- DICT_RETIRE (R148, R149). -/
def execDictRetire (o : Origin) (x : DictId) (s : State) : Out := .next (rowCmdOf o P.DICT_CMD x.val [2#8, 0#8, 0#8] s)
/-- CANCEL (R148). -/
def execCancel (o : Origin) (x : DictId) (s : State) : Out := .next (rowCmdOf o P.DICT_CMD x.val [3#8, 0#8, 0#8] s)
/-- ENABLE (R159). -/
def execEnable (o : Origin) (q : QueueId) (s : State) : Out := .next (rowCmdOf o P.Q_CMD q.val [1#8] s)
/-- DISABLE (R159). -/
def execDisable (o : Origin) (q : QueueId) (s : State) : Out := .next (rowCmdOf o P.Q_CMD q.val [2#8] s)
/-- Q_RESET (R159). -/
def execQReset (o : Origin) (q : QueueId) (s : State) : Out := .next (rowCmdOf o P.Q_CMD q.val [3#8] s)

/-- INSTALL (R181). -/
def execInstall (o : Origin) (n : LodgeId) (s : State) : Out := .next (keyCmdOf o n 1 s)
/-- WIPE (R181). -/
def execWipe (o : Origin) (n : LodgeId) (s : State) : Out := .next (keyCmdOf o n 2 s)
/-- REKEY (R202). -/
def execRekey (o : Origin) (n : LodgeId) (s : State) : Out := .next (keyCmdOf o n 3 s)
/-- REKEY_REQUEST (R202). -/
def execRekeyRequest (o : Origin) (n : LodgeId) (s : State) : Out := .next (cmdOf o (P.REKEY_REQUEST + 256 * n.val) [] s)
/-- COH_RESET (R237). -/
def execCohReset (o : Origin) (n : LodgeId) (s : State) : Out := .next (cmdOf o (P.COH_RESET + 256 * n.val) [] s)

/-- LINK_DISABLE (R264). -/
def execLinkDisable (o : Origin) (p : PortId) (s : State) : Out := .next (cmdOf o (P.PORT_CMD + 256 * p.val) [1#8] s)
/-- LINK_ENABLE (R264). -/
def execLinkEnable (o : Origin) (p : PortId) (s : State) : Out := .next (cmdOf o (P.PORT_CMD + 256 * p.val) [2#8] s)
/-- RETRAIN (R264). -/
def execRetrain (o : Origin) (p : PortId) (s : State) : Out := .next (cmdOf o (P.PORT_CMD + 256 * p.val) [3#8] s)
/-- HOT_RESET (R262, R264). -/
def execHotReset (o : Origin) (p : PortId) (s : State) : Out := .next (cmdOf o (P.PORT_CMD + 256 * p.val) [4#8] s)
/-- PERST_ASSERT (R262, R264). -/
def execPerstAssert (o : Origin) (p : PortId) (s : State) : Out := .next (cmdOf o (P.PORT_CMD + 256 * p.val) [5#8] s)
/-- PERST_DEASSERT (R264). -/
def execPerstDeassert (o : Origin) (p : PortId) (s : State) : Out := .next (cmdOf o (P.PORT_CMD + 256 * p.val) [6#8] s)
/-- BIND (R249). -/
def execBind (o : Origin) (v b target : Byte) (s : State) : Out := .next (cmdOf o P.SW_BIND_CMD [1#8, v, b, target] s)
/-- UNBIND_WAIT (R250). -/
def execUnbindWait (o : Origin) (v b : Byte) (s : State) : Out := .next (cmdOf o P.SW_BIND_CMD [2#8, v, b, 0#8] s)
/-- UNBIND_MANAGED (R250). -/
def execUnbindManaged (o : Origin) (v b : Byte) (s : State) : Out := .next (cmdOf o P.SW_BIND_CMD [3#8, v, b, 0#8] s)
/-- UNBIND_SURPRISE (R250). -/
def execUnbindSurprise (o : Origin) (v b : Byte) (s : State) : Out := .next (cmdOf o P.SW_BIND_CMD [4#8, v, b, 0#8] s)

/-- DRAM_APPLY (R290). -/
def execDramApply (o : Origin) (s : State) : Out := .next (cmdOf o P.DRAM_APPLY [0#8] s)
/-- DRAM_APPLY_TEST (R294). -/
def execDramApplyTest (o : Origin) (s : State) : Out := .next (cmdOf o P.DRAM_APPLY [1#8] s)
/-- RETIRE_FRAME (R314). -/
def execRetireFrame (o : Origin) (arg : BitVec 64) (s : State) : Out := .next (retireCmdOf o 1 arg s)
/-- RETIRE_ROW (R314). -/
def execRetireRow (o : Origin) (arg : BitVec 64) (s : State) : Out := .next (retireCmdOf o 2 arg s)
/-- RETIRE_BANK (R314). -/
def execRetireBank (o : Origin) (arg : BitVec 64) (s : State) : Out := .next (retireCmdOf o 3 arg s)
/-- RETIRE_CLEAR (R314). -/
def execRetireClear (o : Origin) (arg : BitVec 64) (s : State) : Out := .next (retireCmdOf o 4 arg s)
/-- CL_RESET (R335). -/
def execClReset (o : Origin) (k : LinkId) (s : State) : Out := .next (cmdOf o (P.CL_CMD + 256 * k.val) [1#8] s)

/-- REGION_COMMIT (R347). -/
def execRegionCommit (o : Origin) (s : State) : Out := .next (cmdOf o 0x780102 [0#8] s)
/-- PRESENCE_END (R351). -/
def execPresenceEnd (o : Origin) (s : State) : Out := .next (cmdOf o P.PRESENCE_END [] s)
/-- PROVISION (R353). -/
def execProvision (o : Origin) (operand : List Byte) (readBack : Bool) (s : State) : Out :=
  .next (lcCmdOf o (1#8 :: operand) readBack s)
/-- DEPLOY (R353). -/
def execDeploy (o : Origin) (readBack : Bool) (s : State) : Out := .next (lcCmdOf o [2#8] readBack s)
/-- ENTER_SERVICE (R353). -/
def execEnterService (o : Origin) (readBack : Bool) (s : State) : Out := .next (lcCmdOf o [3#8] readBack s)
/-- LEAVE_SERVICE (R353). -/
def execLeaveService (o : Origin) (readBack : Bool) (s : State) : Out := .next (lcCmdOf o [4#8] readBack s)
/-- LC_RETIRE (R353, R354). -/
def execLcRetire (o : Origin) (readBack : Bool) (s : State) : Out := .next (lcCmdOf o [5#8] readBack s)
/-- DEV_RESET (R355). -/
def execDevReset (o : Origin) (s : State) : Out := .next (cmdOf o P.DEV_RESET [] s)
/-- TAKE_OUT (R363). -/
def execTakeOut (o : Origin) (u : UnitId) (s : State) : Out := .next (rowCmdOf o P.UNIT_CMD u.val [1#8] s)
/-- REJOIN (R368). -/
def execRejoin (o : Origin) (u : UnitId) (s : State) : Out := .next (rowCmdOf o P.UNIT_CMD u.val [2#8] s)
/-- CLEAR (R385). -/
def execHsClear (o : Origin) (s : State) : Out := .next (cmdOf o P.HS_CMD [1#8] s)

/-- PS_SHELF_VOTE (R395). -/
def execPsShelfVote (o : Origin) (v : Byte) (s : State) : Out := .next (writeOf o P.PS_SHELF_VOTE 1 [v] s)
/-- PS_VCORE (R399). -/
def execPsVcore (o : Origin) (i : DieId) (v : Byte) (s : State) : Out := .next (writeOf o (P.PS_VCORE + i.val) 1 [v] s)
/-- PS_PACE (R399). -/
def execPsPace (o : Origin) (m : MemDie) (v : BitVec 32) (s : State) : Out :=
  .next (writeOf o (P.PS_PACE + m.val) 3 (leBytes 4 v.toNat) s)
/-- PS_DDR_RATE (R400). -/
def execPsDdrRate (o : Origin) (m : MemDie) (v : Byte) (s : State) : Out := .next (writeOf o (P.PS_DDR_RATE + m.val) 7 [v] s)
/-- PS_SERDES_CAP (R400). -/
def execPsSerdesCap (o : Origin) (x : LinkDie) (v : Byte) (s : State) : Out :=
  .next (writeOf o (P.PS_SERDES_CAP + x.val) 7 [v] s)
/-- CR_BIT_NS (R428). -/
def execCrBitNs (o : Origin) (ns : BitVec 32) (s : State) : Out := .next (writeOf o P.CR_BIT_NS 3 (leBytes 4 ns.toNat) s)
/-- CUT (R432). -/
def execCut (o : Origin) (s : State) : Out := .next (cmdOf o P.GB_CMD [1#8] s)

end Sys2Proof.Machine
end

