-- ==== Sys2Proof/Machine/Operands.lean ====
section
/-! DEFINITION. Operand fields. -/

namespace Sys2Proof.Machine

/-- A little-endian field of a payload: `n` bytes from byte `o`; missing bytes read 0. -/
def field (o n : Nat) (l : List Byte) : Nat := leNat (fit 0#8 n (l.drop o))

end Sys2Proof.Machine
end

