-- ==== Sys2Proof/Machine/Dispatch.lean ====
section
/-! DEFINITION. The meaning of every command: one arm per constructor, each one call. -/

namespace Sys2Proof.Machine

def exec (i : Instr) (s : State) : Host.Outcome State Fault Refusal :=
  match i with
  | .dictRead port payload => Sys2Proof.Machine.execDictRead port payload s
  | .dictWrite port payload => Sys2Proof.Machine.execDictWrite port payload s
  | .dictSeqRead port => Sys2Proof.Machine.execDictSeqRead port s
  | .paramWrite o param ty offset value => Sys2Proof.Machine.execParamWrite o param ty offset value s
  | .selectRow o group row => Sys2Proof.Machine.execSelectRow o group row s
  | .commit o group => Sys2Proof.Machine.execCommit o group s
  | .commitDiscard o group => Sys2Proof.Machine.execCommitDiscard o group s
  | .ownerCommit o => Sys2Proof.Machine.execOwnerCommit o s
  | .fmPortWrite o port => Sys2Proof.Machine.execFmPortWrite o port s
  | .lodgeCreate o n => Sys2Proof.Machine.execLodgeCreate o n s
  | .lodgePrepareDone n ok => Sys2Proof.Machine.execLodgePrepareDone n ok s
  | .lodgeChange o n => Sys2Proof.Machine.execLodgeChange o n s
  | .isolatedRewriteLine n d => Sys2Proof.Machine.execIsolatedRewriteLine n d s
  | .destroy o n => Sys2Proof.Machine.execDestroy o n s
  | .destroyForced o n => Sys2Proof.Machine.execDestroyForced o n s
  | .requestRelease o n k => Sys2Proof.Machine.execRequestRelease o n k s
  | .reoffer o n => Sys2Proof.Machine.execReoffer o n s
  | .destroyOfferTimeout n => Sys2Proof.Machine.execDestroyOfferTimeout n s
  | .destroyRecordsGone n => Sys2Proof.Machine.execDestroyRecordsGone n s
  | .destroyWipeDone n => Sys2Proof.Machine.execDestroyWipeDone n s
  | .addDynamicCapacityResponse p extents => Sys2Proof.Machine.execAddDynamicCapacityResponse p extents s
  | .releaseDynamicCapacity p extents => Sys2Proof.Machine.execReleaseDynamicCapacity p extents s
  | .extentDrainDone p => Sys2Proof.Machine.execExtentDrainDone p s
  | .identifyMemoryDevice p => Sys2Proof.Machine.execIdentifyMemoryDevice p s
  | .getSupportedLogs p => Sys2Proof.Machine.execGetSupportedLogs p s
  | .getLog p log offset length => Sys2Proof.Machine.execGetLog p log offset length s
  | .getEventRecords p log => Sys2Proof.Machine.execGetEventRecords p log s
  | .clearEventRecords p log count => Sys2Proof.Machine.execClearEventRecords p log count s
  | .getDynamicCapacityConfiguration p => Sys2Proof.Machine.execGetDynamicCapacityConfiguration p s
  | .getDynamicCapacityExtentList p => Sys2Proof.Machine.execGetDynamicCapacityExtentList p s
  | .fmIdentify p => Sys2Proof.Machine.execFmIdentify p s
  | .backgroundOperationStatus p => Sys2Proof.Machine.execBackgroundOperationStatus p s
  | .getResponseMessageLimit p => Sys2Proof.Machine.execGetResponseMessageLimit p s
  | .identifySwitchDevice p => Sys2Proof.Machine.execIdentifySwitchDevice p s
  | .getPhysicalPortState p ports => Sys2Proof.Machine.execGetPhysicalPortState p ports s
  | .assertPerst p t => Sys2Proof.Machine.execAssertPerst p t s
  | .deassertPerst p t => Sys2Proof.Machine.execDeassertPerst p t s
  | .resetPpb p t => Sys2Proof.Machine.execResetPpb p t s
  | .getVirtualCxlSwitchInfo p => Sys2Proof.Machine.execGetVirtualCxlSwitchInfo p s
  | .bindVppb p v b target => Sys2Proof.Machine.execBindVppb p v b target s
  | .unbindVppbWait p v b => Sys2Proof.Machine.execUnbindVppbWait p v b s
  | .unbindVppbManaged p v b => Sys2Proof.Machine.execUnbindVppbManaged p v b s
  | .unbindVppbSurprise p v b => Sys2Proof.Machine.execUnbindVppbSurprise p v b s
  | .getDcdInfo p => Sys2Proof.Machine.execGetDcdInfo p s
  | .getHostDcRegionConfiguration p host => Sys2Proof.Machine.execGetHostDcRegionConfiguration p host s
  | .setDcRegionConfiguration p region length block => Sys2Proof.Machine.execSetDcRegionConfiguration p region length block s
  | .getDcRegionExtentLists p host => Sys2Proof.Machine.execGetDcRegionExtentLists p host s
  | .initiateDynamicCapacityAdd p host region tag => Sys2Proof.Machine.execInitiateDynamicCapacityAdd p host region tag s
  | .initiateDynamicCapacityRelease p host tag forced => Sys2Proof.Machine.execInitiateDynamicCapacityRelease p host tag forced s
  | .memrd p hpa tag grant => Sys2Proof.Machine.execMemrd p hpa tag grant s
  | .meminv p hpa tag grant => Sys2Proof.Machine.execMeminv p hpa tag grant s
  | .memwr p hpa tag grant data => Sys2Proof.Machine.execMemwr p hpa tag grant data s
  | .memwrptl p hpa tag grant data mask => Sys2Proof.Machine.execMemwrptl p hpa tag grant data mask s
  | .memclnevct p hpa tag => Sys2Proof.Machine.execMemclnevct p hpa tag s
  | .birsp p n page line rsp block => Sys2Proof.Machine.execBirsp p n page line rsp block s
  | .biconflict p n page line => Sys2Proof.Machine.execBiconflict p n page line s
  | .fetchAdd p dpa tag size operand => Sys2Proof.Machine.execFetchAdd p dpa tag size operand s
  | .atomSwap p dpa tag size operand => Sys2Proof.Machine.execAtomSwap p dpa tag size operand s
  | .atomCas p dpa tag size operand compare => Sys2Proof.Machine.execAtomCas p dpa tag size operand compare s
  | .dspBar2Request p dpa tag what => Sys2Proof.Machine.execDspBar2Request p dpa tag what s
  | .cxlIoRoute src dst kind tag bytes acs => Sys2Proof.Machine.execCxlIoRoute src dst kind tag bytes acs s
  | .multicastWrite v src targets group bytes => Sys2Proof.Machine.execMulticastWrite v src targets group bytes s
  | .hdmDecoderCommit p k base size skip ways gran targets => Sys2Proof.Machine.execHdmDecoderCommit p k base size skip ways gran targets s
  | .stalledWriteResume h => Sys2Proof.Machine.execStalledWriteResume h s
  | .blankDone w tgt => Sys2Proof.Machine.execBlankDone w tgt s
  | .capReleaseRepeat d => Sys2Proof.Machine.execCapReleaseRepeat d s
  | .writeBack d => Sys2Proof.Machine.execWriteBack d s
  | .lineWriteOut c => Sys2Proof.Machine.execLineWriteOut c s
  | .nodeWriteBack d m h level k => Sys2Proof.Machine.execNodeWriteBack d m h level k s
  | .tierEpoch d => Sys2Proof.Machine.execTierEpoch d s
  | .sweepVisit n page => Sys2Proof.Machine.execSweepVisit n page s
  | .sweepPassEnd d => Sys2Proof.Machine.execSweepPassEnd d s
  | .moveStart d c => Sys2Proof.Machine.execMoveStart d c s
  | .moveSnapshotDone d c => Sys2Proof.Machine.execMoveSnapshotDone d c s
  | .moveEncodeDone d c => Sys2Proof.Machine.execMoveEncodeDone d c s
  | .moveVerifyDone d c ok => Sys2Proof.Machine.execMoveVerifyDone d c ok s
  | .movePlaceDone d c => Sys2Proof.Machine.execMovePlaceDone d c s
  | .moveCommit d c => Sys2Proof.Machine.execMoveCommit d c s
  | .evacuate o w => Sys2Proof.Machine.execEvacuate o w s
  | .reopen o w => Sys2Proof.Machine.execReopen o w s
  | .wingEmpty w => Sys2Proof.Machine.execWingEmpty w s
  | .wingShut w => Sys2Proof.Machine.execWingShut w s
  | .autoReopen d => Sys2Proof.Machine.execAutoReopen d s
  | .wingReopenTrained w => Sys2Proof.Machine.execWingReopenTrained w s
  | .dictStoreLoad d x bad => Sys2Proof.Machine.execDictStoreLoad d x bad s
  | .train o x n => Sys2Proof.Machine.execTrain o x n s
  | .trainComplete x bad => Sys2Proof.Machine.execTrainComplete x bad s
  | .dictRetire o x => Sys2Proof.Machine.execDictRetire o x s
  | .dictRetireCheck x d => Sys2Proof.Machine.execDictRetireCheck x d s
  | .cancel o x => Sys2Proof.Machine.execCancel o x s
  | .enable o q => Sys2Proof.Machine.execEnable o q s
  | .disable o q => Sys2Proof.Machine.execDisable o q s
  | .qReset o q => Sys2Proof.Machine.execQReset o q s
  | .sqTail p q a => Sys2Proof.Machine.execSqTail p q a s
  | .cqHead p q v => Sys2Proof.Machine.execCqHead p q v s
  | .jobFetch q desc src => Sys2Proof.Machine.execJobFetch q desc src s
  | .tokenRefill q => Sys2Proof.Machine.execTokenRefill q s
  | .compress q j src outs bad => Sys2Proof.Machine.execCompress q j src outs bad s
  | .decompress q j src outs bad => Sys2Proof.Machine.execDecompress q j src outs bad s
  | .exportJob q j outs => Sys2Proof.Machine.execExportJob q j outs s
  | .exportDict q j outs => Sys2Proof.Machine.execExportDict q j outs s
  | .resume q j area outs => Sys2Proof.Machine.execResume q j area outs s
  | .releaseCtx q j => Sys2Proof.Machine.execReleaseCtx q j s
  | .exportPage q j page bad => Sys2Proof.Machine.execExportPage q j page bad s
  | .exportRecordArrive q j page => Sys2Proof.Machine.execExportRecordArrive q j page s
  | .jobComplete q j => Sys2Proof.Machine.execJobComplete q j s
  | .install o n => Sys2Proof.Machine.execInstall o n s
  | .wipe o n => Sys2Proof.Machine.execWipe o n s
  | .rekey o n => Sys2Proof.Machine.execRekey o n s
  | .keyTransport d err => Sys2Proof.Machine.execKeyTransport d err s
  | .rekeyRequest o n => Sys2Proof.Machine.execRekeyRequest o n s
  | .rekeyVisit d n => Sys2Proof.Machine.execRekeyVisit d n s
  | .rekeyFinish n => Sys2Proof.Machine.execRekeyFinish n s
  | .spdmRequest p req opens => Sys2Proof.Machine.execSpdmRequest p req opens s
  | .ideKm p j op set slot key => Sys2Proof.Machine.execIdeKm p j op set slot key s
  | .ideCheckFail p j => Sys2Proof.Machine.execIdeCheckFail p j s
  | .biTimeout p => Sys2Proof.Machine.execBiTimeout p s
  | .absenceTimeout p => Sys2Proof.Machine.execAbsenceTimeout p s
  | .deadAgentScanDone p => Sys2Proof.Machine.execDeadAgentScanDone p s
  | .cohReset o n => Sys2Proof.Machine.execCohReset o n s
  | .atomCoolTick n page line => Sys2Proof.Machine.execAtomCoolTick n page line s
  | .linkUp p width rate => Sys2Proof.Machine.execLinkUp p width rate s
  | .linkDown p => Sys2Proof.Machine.execLinkDown p s
  | .hostHotReset p => Sys2Proof.Machine.execHostHotReset p s
  | .secondaryBusReset v b => Sys2Proof.Machine.execSecondaryBusReset v b s
  | .flr p => Sys2Proof.Machine.execFlr p s
  | .portPerstN p => Sys2Proof.Machine.execPortPerstN p s
  | .slotPowerOff v b => Sys2Proof.Machine.execSlotPowerOff v b s
  | .linkDisable o p => Sys2Proof.Machine.execLinkDisable o p s
  | .linkEnable o p => Sys2Proof.Machine.execLinkEnable o p s
  | .retrain o p => Sys2Proof.Machine.execRetrain o p s
  | .hotReset o p => Sys2Proof.Machine.execHotReset o p s
  | .perstAssert o p => Sys2Proof.Machine.execPerstAssert o p s
  | .perstDeassert o p => Sys2Proof.Machine.execPerstDeassert o p s
  | .bind o v b target => Sys2Proof.Machine.execBind o v b target s
  | .unbindWait o v b => Sys2Proof.Machine.execUnbindWait o v b s
  | .unbindManaged o v b => Sys2Proof.Machine.execUnbindManaged o v b s
  | .unbindSurprise o v b => Sys2Proof.Machine.execUnbindSurprise o v b s
  | .egressAdmit p cls => Sys2Proof.Machine.execEgressAdmit p cls s
  | .egressSend p cls => Sys2Proof.Machine.execEgressSend p cls s
  | .sampleFlush l m => Sys2Proof.Machine.execSampleFlush l m s
  | .sampleApply m => Sys2Proof.Machine.execSampleApply m s
  | .prioMirrorUpdate d => Sys2Proof.Machine.execPrioMirrorUpdate d s
  | .missWindow m => Sys2Proof.Machine.execMissWindow m s
  | .homeQueueSelect h => Sys2Proof.Machine.execHomeQueueSelect h s
  | .dramApply o => Sys2Proof.Machine.execDramApply o s
  | .dramApplyTest o => Sys2Proof.Machine.execDramApplyTest o s
  | .channelTrained c spd ok bad => Sys2Proof.Machine.execChannelTrained c spd ok bad s
  | .dramCommandIssue c rd => Sys2Proof.Machine.execDramCommandIssue c rd s
  | .refDue c rank reads => Sys2Proof.Machine.execRefDue c rank reads s
  | .moduleTempRead c t => Sys2Proof.Machine.execModuleTempRead c t s
  | .tableValid c => Sys2Proof.Machine.execTableValid c s
  | .caParityAlert c latency => Sys2Proof.Machine.execCaParityAlert c latency s
  | .caReplay c again => Sys2Proof.Machine.execCaReplay c again s
  | .dramReadReturn d f j agent err => Sys2Proof.Machine.execDramReadReturn d f j agent err s
  | .mergeHold c => Sys2Proof.Machine.execMergeHold c s
  | .scrubRead c err => Sys2Proof.Machine.execScrubRead c err s
  | .ownerSearch d => Sys2Proof.Machine.execOwnerSearch d s
  | .retireFrame o arg => Sys2Proof.Machine.execRetireFrame o arg s
  | .retireRow o arg => Sys2Proof.Machine.execRetireRow o arg s
  | .retireBank o arg => Sys2Proof.Machine.execRetireBank o arg s
  | .retireClear o arg => Sys2Proof.Machine.execRetireClear o arg s
  | .corridorTransfer k toB what err invalid => Sys2Proof.Machine.execCorridorTransfer k toB what err invalid s
  | .clReset o k => Sys2Proof.Machine.execClReset o k s
  | .resetReq k byB cause => Sys2Proof.Machine.execResetReq k byB cause s
  | .linkGroupTestDone k badAB badBA => Sys2Proof.Machine.execLinkGroupTestDone k badAB badBA s
  | .linkMap k unchanged => Sys2Proof.Machine.execLinkMap k unchanged s
  | .linkCredits k => Sys2Proof.Machine.execLinkCredits k s
  | .linkReady k => Sys2Proof.Machine.execLinkReady k s
  | .corridorResetTimeout k => Sys2Proof.Machine.execCorridorResetTimeout k s
  | .worldCall core req => Sys2Proof.Machine.execWorldCall core req s
  | .worldCallReply answer => Sys2Proof.Machine.execWorldCallReply answer s
  | .stewardWdog core => Sys2Proof.Machine.execStewardWdog core s
  | .keeperResume img => Sys2Proof.Machine.execKeeperResume img s
  | .regionCommit o => Sys2Proof.Machine.execRegionCommit o s
  | .debugAccess t => Sys2Proof.Machine.execDebugAccess t s
  | .presenceN low => Sys2Proof.Machine.execPresenceN low s
  | .presenceEnd o => Sys2Proof.Machine.execPresenceEnd o s
  | .sealLoopSample matched => Sys2Proof.Machine.execSealLoopSample matched s
  | .provision o operand readBack => Sys2Proof.Machine.execProvision o operand readBack s
  | .deploy o readBack => Sys2Proof.Machine.execDeploy o readBack s
  | .enterService o readBack => Sys2Proof.Machine.execEnterService o readBack s
  | .leaveService o readBack => Sys2Proof.Machine.execLeaveService o readBack s
  | .lcRetire o readBack => Sys2Proof.Machine.execLcRetire o readBack s
  | .devReset o => Sys2Proof.Machine.execDevReset o s
  | .unitWdog u => Sys2Proof.Machine.execUnitWdog u s
  | .takeOut o u => Sys2Proof.Machine.execTakeOut o u s
  | .drainComplete u => Sys2Proof.Machine.execDrainComplete u s
  | .takeoverScanDone sl => Sys2Proof.Machine.execTakeoverScanDone sl s
  | .rebuildLine d => Sys2Proof.Machine.execRebuildLine d s
  | .mirrorRestore d => Sys2Proof.Machine.execMirrorRestore d s
  | .rejoin o u => Sys2Proof.Machine.execRejoin o u s
  | .rejoinTestDone u ok => Sys2Proof.Machine.execRejoinTestDone u ok s
  | .unitProbation u => Sys2Proof.Machine.execUnitProbation u s
  | .alertHold kind => Sys2Proof.Machine.execAlertHold kind s
  | .seatChange a b => Sys2Proof.Machine.execSeatChange a b s
  | .mainSample vin vmid vout cur => Sys2Proof.Machine.execMainSample vin vmid vout cur s
  | .fastTrip cur => Sys2Proof.Machine.execFastTrip cur s
  | .mosfetCheck midOff midOn vin rise => Sys2Proof.Machine.execMosfetCheck midOff midOn vin rise s
  | .hsClear o => Sys2Proof.Machine.execHsClear o s
  | .branchRampStart w => Sys2Proof.Machine.execBranchRampStart w s
  | .branchPowerGood w => Sys2Proof.Machine.execBranchPowerGood w s
  | .branchRampTimeout w => Sys2Proof.Machine.execBranchRampTimeout w s
  | .branchSample w vout cur => Sys2Proof.Machine.execBranchSample w vout cur s
  | .branchTrip w fast cur => Sys2Proof.Machine.execBranchTrip w fast cur s
  | .branchOff w => Sys2Proof.Machine.execBranchOff w s
  | .fetFault w => Sys2Proof.Machine.execFetFault w s
  | .voteChange c => Sys2Proof.Machine.execVoteChange c s
  | .psShelfVote o v => Sys2Proof.Machine.execPsShelfVote o v s
  | .engineGate u => Sys2Proof.Machine.execEngineGate u s
  | .selfRefreshEntry w => Sys2Proof.Machine.execSelfRefreshEntry w s
  | .psVcore o j v => Sys2Proof.Machine.execPsVcore o j v s
  | .psPace o m v => Sys2Proof.Machine.execPsPace o m v s
  | .psDdrRate o m v => Sys2Proof.Machine.execPsDdrRate o m v s
  | .psSerdesCap o x v => Sys2Proof.Machine.execPsSerdesCap o x v s
  | .railSettled d => Sys2Proof.Machine.execRailSettled d s
  | .railSettleTimeout d => Sys2Proof.Machine.execRailSettleTimeout d s
  | .courierRead dest src param data crc endOk => Sys2Proof.Machine.execCourierRead dest src param data crc endOk s
  | .courierWrite dest src param data crc endOk => Sys2Proof.Machine.execCourierWrite dest src param data crc endOk s
  | .reply arb => Sys2Proof.Machine.execReply arb s
  | .alert arb => Sys2Proof.Machine.execAlert arb s
  | .assign dest src crc endOk => Sys2Proof.Machine.execAssign dest src crc endOk s
  | .enumIn high => Sys2Proof.Machine.execEnumIn high s
  | .release dest src crc endOk => Sys2Proof.Machine.execRelease dest src crc endOk s
  | .crStallTimeout railHeld => Sys2Proof.Machine.execCrStallTimeout railHeld s
  | .crBitNs o ns => Sys2Proof.Machine.execCrBitNs o ns s
  | .cut o => Sys2Proof.Machine.execCut o s
  | .gbRecordWrite verified => Sys2Proof.Machine.execGbRecordWrite verified s
  | .gbFigures d => Sys2Proof.Machine.execGbFigures d s
  | .junctionSensorRead d t0 t1 t2 t3 => Sys2Proof.Machine.execJunctionSensorRead d t0 t1 t2 t3 s
  | .thermalShutdown d => Sys2Proof.Machine.execThermalShutdown d s
  | .regulatorPowerGood r => Sys2Proof.Machine.execRegulatorPowerGood r s
  | .regulatorTimeout r => Sys2Proof.Machine.execRegulatorTimeout r s
  | .powerGoodLoss r => Sys2Proof.Machine.execPowerGoodLoss r s
  | .standbyRise strap slSel flash => Sys2Proof.Machine.execStandbyRise strap slSel flash s
  | .bootFirmwareStart keeper steward => Sys2Proof.Machine.execBootFirmwareStart keeper steward s
  | .stewardCoreRestartDone core img => Sys2Proof.Machine.execStewardCoreRestartDone core img s
  | .cxlMemRoute src dst kind tag bytes => Sys2Proof.Machine.execCxlMemRoute src dst kind tag bytes s
  | .sramPatrol bank read held => Sys2Proof.Machine.execSramPatrol bank read held s
  | .capStatusUpdate => Sys2Proof.Machine.execCapStatusUpdate s
  | .scaleNoticeHold => Sys2Proof.Machine.execScaleNoticeHold s
  | .actTableClear => Sys2Proof.Machine.execActTableClear s
  | .retireComplete => Sys2Proof.Machine.execRetireComplete s
  | .keeperWdog => Sys2Proof.Machine.execKeeperWdog s
  | .lockstepMismatch => Sys2Proof.Machine.execLockstepMismatch s
  | .presenceWindowEnd => Sys2Proof.Machine.execPresenceWindowEnd s
  | .devResetN => Sys2Proof.Machine.execDevResetN s
  | .heartbeatTimeout => Sys2Proof.Machine.execHeartbeatTimeout s
  | .hwmRefresh => Sys2Proof.Machine.execHwmRefresh s
  | .hsSeatDebounce => Sys2Proof.Machine.execHsSeatDebounce s
  | .hsInsertDelay => Sys2Proof.Machine.execHsInsertDelay s
  | .mainPowerGood => Sys2Proof.Machine.execMainPowerGood s
  | .hsRetryTime => Sys2Proof.Machine.execHsRetryTime s
  | .retryCountClear => Sys2Proof.Machine.execRetryCountClear s
  | .nightEntry => Sys2Proof.Machine.execNightEntry s
  | .nightEntryAdvance => Sys2Proof.Machine.execNightEntryAdvance s
  | .nightExit => Sys2Proof.Machine.execNightExit s
  | .nightExitAdvance => Sys2Proof.Machine.execNightExitAdvance s
  | .offEntry => Sys2Proof.Machine.execOffEntry s
  | .wakeTimer => Sys2Proof.Machine.execWakeTimer s
  | .wakeHoldExpire => Sys2Proof.Machine.execWakeHoldExpire s
  | .hsAlert => Sys2Proof.Machine.execHsAlert s
  | .enumOutRaise => Sys2Proof.Machine.execEnumOutRaise s
  | .railHoldRelease => Sys2Proof.Machine.execRailHoldRelease s
  | .gbHourCut => Sys2Proof.Machine.execGbHourCut s
  | .tempSample => Sys2Proof.Machine.execTempSample s
  | .flashWriteDone => Sys2Proof.Machine.execFlashWriteDone s
  | .thermalRecovery => Sys2Proof.Machine.execThermalRecovery s
  | .standbyLoss => Sys2Proof.Machine.execStandbyLoss s
  | .uncorrectableInstructionFetch => Sys2Proof.Machine.execUncorrectableInstructionFetch s
  | .courierBusIdle => Sys2Proof.Machine.execCourierBusIdle s
  | .enumInHeldHigh => Sys2Proof.Machine.execEnumInHeldHigh s

end Sys2Proof.Machine
end

