-- ==== Sys2Proof/Machine/Step.lean ====
section
/-! DEFINITION. One step: the command at the front of the queue, or one tick of the clocks. -/

namespace Sys2Proof.Machine

/-- Whether the PLLs of the dies run, and with them their timebases (01 R15): from step 7 of Table 20.1, and not while the
dies have no power (16 Table 16.6). -/
def timebasesRun (s : State) : Bool :=
  (s.sl.bootStage != .standby && s.sl.bootStage != .powering) &&
    (match s.ps.state with
     | .night | .off => false
     | .exiting => decide (3 ≤ s.ps.exitStep)
     | _ => true)

/-- The timebases that run advance by one nanosecond. -/
def clocksTick (s : State) : State :=
  { s with time := if timebasesRun s then s.time + 1 else s.time, slTime := if s.sl.vstby then s.slTime + 1 else s.slTime }

/-- An empty queue: the units with too many counts leave service (14 R362), ports that went down train again (09 R258), the
target follows the votes (16 R396), then the timebases that run advance by one nanosecond and nothing else happens (log 1,
log 136). -/
def idle (s : State) : State :=
  clocksTick (votesSettle (portsRetrain (unitsSettle s)))

/-- One step: the command at the front of the queue runs with the queue's rest; an empty queue idles. -/
def step (s : State) : Host.Outcome State Fault Refusal :=
  match s.pending with
  | [] => .next (idle s)
  | c :: rest => exec c { s with pending := rest }

/-- The state with a word's command at the front of its queue; unchanged where the word spells none. -/
def State.withFetchWord (s : State) (nbits w : Nat) : State :=
  match decodeTableWord nbits w with
  | some c => { s with pending := c :: s.pending }
  | none => s

end Sys2Proof.Machine
end

