-- ==== Sys2Proof/Safety.lean ====
section
/-! DEFINITION. What the statements say things in: a safe run, the invariant, and an access that no check of
R49 refuses. -/

namespace Sys2Proof.Machine

/-- A step that answers a next state: nothing stops the block. -/
def Goes (s : State) : Prop := ∃ t, step s = .next t

/-- DRAM and management memory in their canonical form, and the limits of R418 (16 waiting replies), 17 R425 (64 alerts kept) and 18 R436 (two cuts
waiting to be written). -/
def Inv (s : State) : Prop :=
  Memory.wf s.space.dram = true ∧ smWf 0#512 s.world.mem = true ∧ s.cr.replies.length ≤ 16 ∧ s.cr.alerts.length ≤ 64 ∧ s.gb.latches.length ≤ 2

/-- The state in which an access is judged: its sequence number is given (R45). -/
def numbered (s : State) : State := modDict (fun d => { d with seq := d.seq + 1, seqMirror := d.seq + 1 }) s

/-- The same, and a Courier access that needs a die has woken the device (17 R423). -/
def judged (r : Req) (s : State) : State :=
  onlyIf (fromCourier r.origin && decide (0x0500 ≤ r.param / 256) && lcState (numbered s) != 4) (wake 4) (numbered s)

/-- No check from 1 to 7 of R49 refuses the access. -/
def admits17 (r : Req) (s : State) : Bool :=
  match groupSpec (r.param / 256), paramSpec r.param with
  | some g, some p =>
    s.sl.vstby && !keeperSilent s r.origin && decide (s.dict.seq + 1 < 2 ^ 64 - 1) && (rightsFault (numbered s) r p).isNone &&
      (valueFault (numbered s) r g p).isNone && (holderFault (numbered s) r g).isNone
  | _, _ => false

/-- The row an access goes to, as check 8 finds it. -/
def rowOf (r : Req) (s : State) : Option Nat :=
  match groupSpec (r.param / 256) with
  | some g => rowFor (judged r s) r.origin r.param g
  | none => none

/-- No check of R49 refuses the command: it is not pending, or its chapter takes this one over it, and its own
chapter does not refuse it. -/
def commandRuns (r : Req) (row : Nat) (s : State) : Bool :=
  admits17 r s && rowOf r s == some row &&
    (!cmdPending (judged r s) row r.param || acceptsPending (judged r s) r.param row r.value) &&
    (cmdRefused (judged r s) r.param row r.value).isNone

/-- The state in which an accepted command acts: its record reads `PENDING` with the access's number (R44). -/
def begun (r : Req) (row : Nat) (s : State) : State :=
  cmdStart r row 1 0 (s.dict.seq + 1) (modSession r.origin id (judged r s))

/-- What an accepted command leaves: where it has ended its record says so (R44). -/
def acted (r : Req) (row : Nat) (s : State) (e : State × Option (Nat × Nat)) : State :=
  match e.2 with
  | some (st, detail) => modDict (fun d => { d with
      cmds := smPut {} d.cmds (cmdKey row r.param) ⟨st, (srcClass (judged r s) r.origin).code, detail, s.dict.seq + 1⟩ }) e.1
  | none => e.1

/-- The response goes out with it: `OK` where the record reads `OK`, else `PENDING` (R44). -/
def answered (r : Req) (row : Nat) (s : State) (e : State × Option (Nat × Nat)) : State :=
  let t := acted r row s e
  respond r.tgt r.param ⟨if (cmdAt t row r.param).status = 0 then 0 else 1, r.ty, s.dict.seq + 1, []⟩ t

/-- The next state of an accepted command whose effect on the state it acts in is `e`. -/
def ran (r : Req) (row : Nat) (s : State) (e : State → State × Option (Nat × Nat)) : State := answered r row s (e (begun r row s))

/-- The write of a command member: its code and argument (R44). -/
def cmdReq (o : Origin) (param : Nat) (arg : List Byte) : Req := reqWrite o param 12 0 arg

/-- The command ends at once with `OK`. -/
def endsOk (f : State → State) (t : State) : State × Option (Nat × Nat) := (f t, some (0, 0))

/-- The command stays `PENDING`, or its effect ends its record itself. -/
def goesOn (f : State → State) (t : State) : State × Option (Nat × Nat) := (f t, none)

/-- A window's row selected by an origin, before a command of that row (R43). -/
def rowChosen (o : Origin) (param row : Nat) (s : State) : State :=
  writeOf o (param / 256 * 256 + 1) 3 (leBytes 4 row) s

/-- No check of R49 refuses the write of a member that is neither staged nor a command. -/
def writeRuns (r : Req) (row : Nat) (s : State) : Bool :=
  admits17 r s && rowOf r s == some row && (writeRefused (judged r s) row r.param (leNat r.value)).isNone

/-- What such a write leaves: the value stands, then what it brings about (`e`); the value of a FLASH member joins the queue
to the flash, and the answer `OK` waits for it (R35), else it goes out at once. -/
def written (r : Req) (row : Nat) (flash : Bool) (s : State) (e : State → State) : State :=
  let v := leNat r.value
  let t := putParam row r.param v (beforeWrite r.param v (judged r s))
  let u := if flash then modDict (fun d => { d with flashQ := d.flashQ ++ [⟨pkey row r.param, v, none⟩] }) t else t
  deliver r { after := modSession r.origin id (e u), resp := ⟨0, r.ty, s.dict.seq + 1, []⟩, owed := flash }

/-- What an origin holds staged for the group of an access. -/
def heldFor (r : Req) (s : State) : SMap (List Byte) := (stagedOf (judged r s) r.origin (r.param / 256)).getD []

/-- No check of R49 refuses the `COMMIT` of staged values: there are some, and all checks pass against the combined
result (R42). -/
def commitRuns (r : Req) (row : Nat) (s : State) : Bool :=
  let grp := r.param / 256
  admits17 r s && rowOf r s == some row && !cmdPending (judged r s) row r.param && heldFor r s != [] &&
    (commitRefused (judged r s) (combined grp row (heldFor r s) (judged r s)) r.origin grp row (heldFor r s)).isNone

/-- The state in which a `COMMIT` acts: all staged values stand, the session holds none, the record reads `PENDING`; the
flag says whether entries of the flash are owed. -/
def committing (r : Req) (g : GSpec) (row : Nat) (s : State) : State × Bool :=
  let q := commitAll g (r.param / 256) row (heldFor r s) (beforeCommit (r.param / 256) row (judged r s))
  (cmdStart r row 1 0 (s.dict.seq + 1) (dropStaged r.origin q.1), q.2)

/-- The answer to a `COMMIT`: `PENDING` while its consequences run, `OK` otherwise, held back until the flash has the
last entry it owes. -/
def commitAnswered (r : Req) (row : Nat) (goes owed : Bool) (s t : State) : State :=
  let seq := s.dict.seq + 1
  if goes then respond r.tgt r.param ⟨1, r.ty, seq, []⟩ (modSession r.origin id t)
  else if owed then deliver r { after := modSession r.origin id t, resp := ⟨0, r.ty, seq, []⟩, owed := true }
  else respond r.tgt r.param ⟨0, r.ty, seq, []⟩ (modSession r.origin id (cmdEnd row r.param 0 0 t))

/-- What R134, R135 and R142 ask of a code for symbols that occur as often as counted: complete, of at most 12 bits, with a
codeword for every symbol that occurs. -/
def codeServes (mayBeEmpty : Bool) (counts lens : List Nat) : Bool :=
  lengthsValid 12 mayBeEmpty lens && lens.all (fun l => decide (l ≤ 12)) && (counts.zip lens).all fun e => e.1 == 0 || e.2 != 0

/-- The codes with which a page is packed at a level serve it, and so does the dictionary where one is used: from level 4
on, of a number below 1,024, with default codes for every symbol (R130, R142, R147). -/
def packs (level : Nat) (dict : Option (Nat × DictBody)) (page : List Byte) : Bool :=
  let tokens := parseUnit maeriPack level ((dict.map fun d => d.2.content).getD []) page
  let own := ownLengths maeriPack tokens
  decide (level ≤ 9) && codeServes false (symCounts 289 (litSyms maeriPack tokens)) own.1 &&
    codeServes true (symCounts 32 (distSyms maeriPack tokens)) own.2 &&
    match dict with
    | none => true
    | some d => decide (4 ≤ level ∧ d.1 < 1024 ∧ d.2.lengths.length = 321) &&
        codeServes false (List.replicate 289 1) (d.2.lengths.take 289) && codeServes false (List.replicate 32 1) (d.2.lengths.drop 289)

/-- A port on which the FM API is heard (R40, R252). -/
def fmOpen (p : PortId) (s : State) : Bool := portUp s p.val && portRole s p.val == 1 && pnum s P.FM_PORT == p.val

/-- What a life-cycle command leaves once its fuses are blown and read back (13 R354): ports disabled, device reset of
cause 4, and a record that reads `OK` with the state reached in `DETAIL`. -/
def lifeCycleEnds (blow : State → State) (source seq : Nat) (t : State) : State :=
  let u := deviceReset 4 (blow (forAll (below 64) portDisable t))
  modDict (fun d => { d with cmds := smSet d.cmds (pkey 0 P.LC_CMD) ⟨0, source, lcState u, seq⟩ }) u

/-- Memory traffic of a host is served on a port (09 R242, 03 R68). -/
def hostOpen (p : PortId) (s : State) : Bool := portUp s p.val && portRole s p.val == 1 && !memoryClosed s p.val

/-- The request of a port for a line of a lodging, its label that of the lodging (10 R269), its tag stamped by the link die
(01 R26). -/
def lineReq (agent port tag n page i dpa : Nat) (op : ReqOp) (s : State) : MemReq :=
  ({ agent := agent, port := port, tag := tag, n := n, p := page, i := i, op := op, since := dieTime s (port / 16)
     label := lodgeP s n P.LABEL, dpa := dpa } : MemReq).stamped (smGet 0 s.coh.xids (port / 16))

/-- The state in which the request goes on: its link die's next transaction index is taken (01 R26). -/
def xidTaken (port : Nat) (s : State) : State :=
  modCoh (fun c => { c with xids := smMod 0 c.xids (port / 16) fun x => (x + 1) % 65536 }) s

/-- A decoded request passes the port's checks (03 R60, 07 R209). -/
def portPasses (agent p n gen : Nat) (s : State) : Bool :=
  gen == (lodgeAt s n).gen && !(agent == 1 && (lodgeAttr s n 1 || (lodgeAt s n).isoTo == some false)) && ideAllows s p n

/-- The state in which a request that waits for nothing is evaluated: its fair-queueing point has served it, the home
arbiter's turn has moved on, and a token of its die's pace is taken (10 R275, 08 R215, 01 R16). -/
def arrived (r : MemReq) (s : State) : State := ordered r (fairPass (homeSlice r.n r.p) r.label 64 s)

/-- The request as the home arbiter evaluates it: ordered, its arrival noted. -/
def MemReq.taken (r : MemReq) (s : State) : MemReq :=
  { r with ordered := true, arrived := some (dieTime s (4 + homeSlice r.n r.p / 16)) }

/-- The state a request that waits for nothing leaves: it is performed; then requests that wait in overflow take the places
that are free, and writes that answer an open snoop go (08 R218, 10 R277). -/
def served (r : MemReq) (s : State) : State :=
  backsTake (homeSettle (homeSlice r.n r.p) (perform (r.taken s) (arrived r s)).1)

/-- Nothing keeps a request waiting: no other waits and its slice has a place, its die and domain serve, nothing of its page
or line is under way, it needs no snoop, no victim and no space (08 R215-R218, 03 R79, 10 R277). -/
def atOnce (r : MemReq) (s : State) : Bool :=
  let t := arrived r s
  (answersSnoop s r).isNone && unitServes s (372 + homeDie r.n r.p) && unitServes s (372 + homeSlice r.n r.p / 16) &&
    !domainRefuses s r && !mustWait s r && !linkHeld s r && s.coh.home.isEmpty && homePlace s (homeSlice r.n r.p) r.group == 0 &&
    !lineBusy (fairPass (homeSlice r.n r.p) r.label 64 s) r && r.tagGood && !r.ordered && !r.snooped &&
    (snoopFor t r).isNone &&
    !(needsEntry t r && (freeWay t (dirSet (homeSlice r.n r.p) (lineKey r.n r.p r.i))).isNone) && (perform (r.taken s) t).2

end Sys2Proof.Machine
end

