-- ==== Sys2Proof/Certificates/Slice0/Obligations.lean ====
section
/-! DEFINITION. What is stated for the provers: the completion of every command with its effect, by family; the
dictionary's rules; what reset leaves and every step keeps; frames; and what is stored reads back. -/

open Sys2Proof Sys2Proof.Machine

/-- Where no check of R49 refuses it, DEV_RESET resets the device with cause 3, PRESENCE_END closes the window,
HS_CMD CLEAR returns the trip to WINDOW with no retries counted, and GB_CMD cuts the period with cause 3; each
record then reads as R44 says (02 R44, 02 R49, 13 R357, 15 R380, 18 R437). -/
def Obligations.DeviceCommandsRun : Prop :=
  (∀ (o : Origin) (s : State),
    commandRuns (cmdReq o (P.DEV_RESET) []) 0 s = true →
    exec (.devReset o) s = .next (ran (cmdReq o (P.DEV_RESET) []) 0 s (goesOn (deviceReset 3)))) ∧
  (∀ (o : Origin) (s : State),
    commandRuns (cmdReq o (P.PRESENCE_END) []) 0 s = true →
    exec (.presenceEnd o) s = .next (ran (cmdReq o (P.PRESENCE_END) []) 0 s (endsOk (modSl fun l => { l with windowEnd := none })))) ∧
  (∀ (o : Origin) (s : State),
    commandRuns (cmdReq o (P.HS_CMD) [1#8]) 0 s = true →
    exec (.hsClear o) s = .next (ran (cmdReq o (P.HS_CMD) [1#8]) 0 s (endsOk (modHs fun h => { h with state := .window, retries := 0 })))) ∧
  (∀ (o : Origin) (s : State),
    commandRuns (cmdReq o (P.GB_CMD) [1#8]) 0 s = true →
    exec (.cut o) s = .next (ran (cmdReq o (P.GB_CMD) [1#8]) 0 s (endsOk fun t => gbCutNow 3 t.gb.major t)))

/-- Where no check of R49 refuses it, PROVISION blows FUSE_P and the operator ID, DEPLOY FUSE_Y, ENTER_SERVICE and
LEAVE_SERVICE one bit of FUSE_C, RETIRE FUSE_T (erasing the journal and the retired list); ports are disabled
before, the device is reset with cause 4 after, and the record reads OK with the state reached (02 R44, 02
R49, 13 R351, 13 R352, 13 R354). -/
def Obligations.LifeCycleCommandsRun : Prop :=
  (∀ (o : Origin) (x : List Byte) (s : State),
    commandRuns (cmdReq o P.LC_CMD (1#8 :: x)) 0 s = true →
    exec (.provision o x true) s = .next (ran (cmdReq o P.LC_CMD (1#8 :: x)) 0 s (goesOn (lifeCycleEnds (modSl fun l => { l with fuseP := true, operatorId := leNat x }) (srcClass (judged (cmdReq o P.LC_CMD (1#8 :: x)) s) o).code (s.dict.seq + 1))))) ∧
  (∀ (o : Origin) (s : State),
    commandRuns (cmdReq o P.LC_CMD ([2#8])) 0 s = true →
    exec (.deploy o true) s = .next (ran (cmdReq o P.LC_CMD ([2#8])) 0 s (goesOn (lifeCycleEnds (modSl fun l => { l with fuseY := true }) (srcClass (judged (cmdReq o P.LC_CMD ([2#8])) s) o).code (s.dict.seq + 1))))) ∧
  (∀ (o : Origin) (s : State),
    commandRuns (cmdReq o P.LC_CMD ([3#8])) 0 s = true →
    exec (.enterService o true) s = .next (ran (cmdReq o P.LC_CMD ([3#8])) 0 s (goesOn (lifeCycleEnds (modSl fun l => { l with fuseC := min 127 (l.fuseC + 1) }) (srcClass (judged (cmdReq o P.LC_CMD ([3#8])) s) o).code (s.dict.seq + 1))))) ∧
  (∀ (o : Origin) (s : State),
    commandRuns (cmdReq o P.LC_CMD ([4#8])) 0 s = true →
    exec (.leaveService o true) s = .next (ran (cmdReq o P.LC_CMD ([4#8])) 0 s (goesOn (lifeCycleEnds (modSl fun l => { l with fuseC := min 127 (l.fuseC + 1) }) (srcClass (judged (cmdReq o P.LC_CMD ([4#8])) s) o).code (s.dict.seq + 1))))) ∧
  (∀ (o : Origin) (s : State),
    commandRuns (cmdReq o P.LC_CMD ([5#8])) 0 s = true →
    exec (.lcRetire o true) s = .next (ran (cmdReq o P.LC_CMD ([5#8])) 0 s (goesOn (lifeCycleEnds (fun t => modSpace (fun x => { x with retired := [] }) (modSl (fun l => { l with journal := [] }) (modSl (fun l => { l with fuseT := true }) t))) (srcClass (judged (cmdReq o P.LC_CMD ([5#8])) s) o).code (s.dict.seq + 1)))))

/-- Where no check of R49 refuses it: DESTROY starts a destruction, DESTROY_FORCED a forced one or turns a running
one into it, REQUEST_RELEASE asks for the extents from an offset on and ends OK with their count, REOFFER
zeroes and offers the unmapped granules, REKEY_REQUEST and COH_RESET stay PENDING (02 R44, 02 R49, 03 R57, 03
R84, 03 R85). -/
def Obligations.LodgingCommandsRun : Prop :=
  (∀ (o : Origin) (n : LodgeId) (s : State),
    commandRuns (cmdReq o (P.LODGE_CMD + 256 * n.val) (1#8 :: leBytes 4 0)) 0 s = true →
    exec (.destroy o n) s = .next (ran (cmdReq o (P.LODGE_CMD + 256 * n.val) (1#8 :: leBytes 4 0)) 0 s (goesOn (destroyStart n.val false)))) ∧
  (∀ (o : Origin) (n : LodgeId) (s : State),
    commandRuns (cmdReq o (P.LODGE_CMD + 256 * n.val) (2#8 :: leBytes 4 0)) 0 s = true →
    exec (.destroyForced o n) s = .next (ran (cmdReq o (P.LODGE_CMD + 256 * n.val) (2#8 :: leBytes 4 0)) 0 s (goesOn fun t => if destroyReplaces t n.val then destroyForce n.val t else destroyStart n.val true t))) ∧
  (∀ (o : Origin) (n : LodgeId) (k : BitVec 32) (s : State),
    commandRuns (cmdReq o (P.LODGE_CMD + 256 * n.val) (3#8 :: leBytes 4 k.toNat)) 0 s = true →
    exec (.requestRelease o n k) s = .next (ran (cmdReq o (P.LODGE_CMD + 256 * n.val) (3#8 :: leBytes 4 k.toNat)) 0 s (fun t => let q := releaseRecords n.val (fun e => decide (k.toNat < e.logical + e.len)) t; (q.1, some (0, q.2))))) ∧
  (∀ (o : Origin) (n : LodgeId) (s : State),
    commandRuns (cmdReq o (P.LODGE_CMD + 256 * n.val) (4#8 :: leBytes 4 0)) 0 s = true →
    exec (.reoffer o n) s = .next (ran (cmdReq o (P.LODGE_CMD + 256 * n.val) (4#8 :: leBytes 4 0)) 0 s (lodgeCmd n.val 4 0))) ∧
  (∀ (o : Origin) (n : LodgeId) (s : State),
    commandRuns (cmdReq o (P.REKEY_REQUEST + 256 * n.val) []) 0 s = true →
    exec (.rekeyRequest o n) s = .next (ran (cmdReq o (P.REKEY_REQUEST + 256 * n.val) []) 0 s (goesOn (modProt fun x => { x with rekeys := smSet x.rekeys n.val {} })))) ∧
  (∀ (o : Origin) (n : LodgeId) (s : State),
    commandRuns (cmdReq o (P.COH_RESET + 256 * n.val) []) 0 s = true →
    exec (.cohReset o n) s = .next (ran (cmdReq o (P.COH_RESET + 256 * n.val) []) 0 s (goesOn (cohSettle n.val))))

/-- Where no check of R49 refuses it, EVACUATE starts the draining of the wing; REOPEN stops an evacuation that
runs, or ends FAULT with the channel of the wing that has FAILED, and starts a reopening of any other wing it
is accepted for (02 R44, 02 R49, 04 R120, 04 R121). -/
def Obligations.WingCommandsRun : Prop :=
  (∀ (o : Origin) (w : WingId) (s : State),
    commandRuns (cmdReq o (P.WING_CMD) (1#8 :: leBytes 1 w.val)) 0 s = true →
    exec (.evacuate o w) s = .next (ran (cmdReq o (P.WING_CMD) (1#8 :: leBytes 1 w.val)) 0 s (goesOn fun t => modSpace (fun x => { x with blankQ := smErase x.blankQ w.val }) (modWingAt w.val (fun x => { x with state := .draining, byCmd := true, byUnit := none }) t)))) ∧
  (∀ (o : Origin) (w : WingId) (s : State),
    commandRuns (cmdReq o P.WING_CMD (2#8 :: leBytes 1 w.val)) 0 s = true →
    (wingAt s w.val).state = .draining ∨ (wingAt s w.val).state = .empty →
    wingFailed s w.val = none →
    exec (.reopen o w) s = .next (ran (cmdReq o P.WING_CMD (2#8 :: leBytes 1 w.val)) 0 s (endsOk (evacuateCancel w.val)))) ∧
  (∀ (o : Origin) (w : WingId) (c : Nat) (s : State),
    commandRuns (cmdReq o P.WING_CMD (2#8 :: leBytes 1 w.val)) 0 s = true →
    (wingAt s w.val).state = .draining ∨ (wingAt s w.val).state = .empty →
    wingFailed s w.val = some c →
    exec (.reopen o w) s = .next (ran (cmdReq o P.WING_CMD (2#8 :: leBytes 1 w.val)) 0 s (fun t => (t, some (0x0C, c))))) ∧
  (∀ (o : Origin) (w : WingId) (s : State),
    commandRuns (cmdReq o P.WING_CMD (2#8 :: leBytes 1 w.val)) 0 s = true →
    (wingAt s w.val).state ≠ .draining →
    (wingAt s w.val).state ≠ .empty →
    exec (.reopen o w) s = .next (ran (cmdReq o P.WING_CMD (2#8 :: leBytes 1 w.val)) 0 s (goesOn (reopenStart w.val true none))))

/-- A row of the window is selected, then, where no check of R49 refuses the command: TRAIN, RETIRE and CANCEL of
a preset dictionary, ENABLE, DISABLE and RESET of a queue have their effect (02 R43, 02 R44, 02 R49, 05 R148,
06 R158, 06 R159). -/
def Obligations.DictionaryAndQueueCommandsRun : Prop :=
  (∀ (o : Origin) (x : DictId) (n : BitVec 16) (s : State),
    commandRuns (cmdReq o P.DICT_CMD (1#8 :: leBytes 2 n.toNat)) x.val (rowChosen o P.DICT_CMD x.val s) = true →
    exec (.train o x n) s = .next (ran (cmdReq o P.DICT_CMD (1#8 :: leBytes 2 n.toNat)) x.val (rowChosen o P.DICT_CMD x.val s) (goesOn (trainStart x.val n.toNat)))) ∧
  (∀ (o : Origin) (x : DictId) (s : State),
    commandRuns (cmdReq o P.DICT_CMD [2#8, 0#8, 0#8]) x.val (rowChosen o P.DICT_CMD x.val s) = true →
    exec (.dictRetire o x) s = .next (ran (cmdReq o P.DICT_CMD [2#8, 0#8, 0#8]) x.val (rowChosen o P.DICT_CMD x.val s) (goesOn (modDictAt x.val fun r => { r with former := r.state, state := .retiring, left := [0, 1, 2, 3], found := 0 })))) ∧
  (∀ (o : Origin) (x : DictId) (s : State),
    commandRuns (cmdReq o P.DICT_CMD [3#8, 0#8, 0#8]) x.val (rowChosen o P.DICT_CMD x.val s) = true →
    exec (.cancel o x) s = .next (ran (cmdReq o P.DICT_CMD [3#8, 0#8, 0#8]) x.val (rowChosen o P.DICT_CMD x.val s) (endsOk (trainStop x.val 0x0B 4)))) ∧
  (∀ (o : Origin) (q : QueueId) (s : State),
    commandRuns (cmdReq o P.Q_CMD [1#8]) q.val (rowChosen o P.Q_CMD q.val s) = true →
    exec (.enable o q) s = .next (ran (cmdReq o P.Q_CMD [1#8]) q.val (rowChosen o P.Q_CMD q.val s) (endsOk fun t => modQueue q.val (fun x => { x with state := .enabled, sqTail := 0, cqHead := 0, sqHead := 0, phase := true, tokens := queueP t q.val P.Q_BURST * 10 ^ 6 }) t))) ∧
  (∀ (o : Origin) (q : QueueId) (s : State),
    commandRuns (cmdReq o P.Q_CMD [2#8]) q.val (rowChosen o P.Q_CMD q.val s) = true →
    exec (.disable o q) s = .next (ran (cmdReq o P.Q_CMD [2#8]) q.val (rowChosen o P.Q_CMD q.val s) (fun t => (modQueue q.val (fun x => { x with state := if (jobsOf t q.val).isEmpty then .disabled else .draining }) t, if (jobsOf t q.val).isEmpty then some (0, 0) else none)))) ∧
  (∀ (o : Origin) (q : QueueId) (s : State),
    commandRuns (cmdReq o P.Q_CMD [3#8]) q.val (rowChosen o P.Q_CMD q.val s) = true →
    exec (.qReset o q) s = .next (ran (cmdReq o P.Q_CMD [3#8]) q.val (rowChosen o P.Q_CMD q.val s) (endsOk (queueReset q.val))))

/-- Where no check of R49 refuses it, INSTALL and REKEY draw a secret and send it to the memory dies, their
records PENDING, and WIPE destroys the keys of the lodging and ends OK (02 R44, 02 R49, 07 R179, 07 R182). -/
def Obligations.KeyCommandsRun : Prop :=
  (∀ (o : Origin) (n : LodgeId) (s : State),
    commandRuns (cmdReq o (P.KEY_CMD) (1#8 :: leBytes 2 n.val)) 0 s = true →
    exec (.install o n) s = .next (ran (cmdReq o (P.KEY_CMD) (1#8 :: leBytes 2 n.val)) 0 s (goesOn (keyInstall n.val)))) ∧
  (∀ (o : Origin) (n : LodgeId) (s : State),
    commandRuns (cmdReq o (P.KEY_CMD) (2#8 :: leBytes 2 n.val)) 0 s = true →
    exec (.wipe o n) s = .next (ran (cmdReq o (P.KEY_CMD) (2#8 :: leBytes 2 n.val)) 0 s (endsOk (keyWipe n.val)))) ∧
  (∀ (o : Origin) (n : LodgeId) (s : State),
    commandRuns (cmdReq o (P.KEY_CMD) (3#8 :: leBytes 2 n.val)) 0 s = true →
    exec (.rekey o n) s = .next (ran (cmdReq o (P.KEY_CMD) (3#8 :: leBytes 2 n.val)) 0 s (keyCmd 3 n.val)))

/-- Where no check of R49 refuses it: LINK_DISABLE, LINK_ENABLE, RETRAIN, HOT_RESET, PERST_ASSERT and
PERST_DEASSERT have their effect on the link and on the PORT_PERST_N pin, and end OK (02 R44, 02 R49, 09 R243,
09 R245). -/
def Obligations.PortCommandsRun : Prop :=
  (∀ (o : Origin) (p : PortId) (s : State),
    commandRuns (cmdReq o (P.PORT_CMD + 256 * p.val) [1#8]) 0 s = true →
    exec (.linkDisable o p) s = .next (ran (cmdReq o (P.PORT_CMD + 256 * p.val) [1#8]) 0 s (endsOk (portDisable p.val)))) ∧
  (∀ (o : Origin) (p : PortId) (s : State),
    commandRuns (cmdReq o (P.PORT_CMD + 256 * p.val) [2#8]) 0 s = true →
    exec (.linkEnable o p) s = .next (ran (cmdReq o (P.PORT_CMD + 256 * p.val) [2#8]) 0 s (endsOk (portTrain p.val)))) ∧
  (∀ (o : Origin) (p : PortId) (s : State),
    commandRuns (cmdReq o (P.PORT_CMD + 256 * p.val) [3#8]) 0 s = true →
    exec (.retrain o p) s = .next (ran (cmdReq o (P.PORT_CMD + 256 * p.val) [3#8]) 0 s (endsOk (portRetrain p.val)))) ∧
  (∀ (o : Origin) (p : PortId) (s : State),
    commandRuns (cmdReq o (P.PORT_CMD + 256 * p.val) [4#8]) 0 s = true →
    exec (.hotReset o p) s = .next (ran (cmdReq o (P.PORT_CMD + 256 * p.val) [4#8]) 0 s (endsOk (portGoesDown p.val)))) ∧
  (∀ (o : Origin) (p : PortId) (s : State),
    commandRuns (cmdReq o (P.PORT_CMD + 256 * p.val) [5#8]) 0 s = true →
    exec (.perstAssert o p) s = .next (ran (cmdReq o (P.PORT_CMD + 256 * p.val) [5#8]) 0 s (endsOk (fun t => emit (.pin "PORT_PERST_N" p.val false) (modPortAt p.val (fun x => { x with perstOut := true }) (portGoesDown p.val t)))))) ∧
  (∀ (o : Origin) (p : PortId) (s : State),
    commandRuns (cmdReq o (P.PORT_CMD + 256 * p.val) [6#8]) 0 s = true →
    exec (.perstDeassert o p) s = .next (ran (cmdReq o (P.PORT_CMD + 256 * p.val) [6#8]) 0 s (endsOk (fun t => emit (.pin "PORT_PERST_N" p.val true) (modPortAt p.val (fun x => { x with perstOut := false }) t)))))

/-- Where no check of R49 refuses it: BIND puts the target into the slot of the virtual switch and tells the
upstream port; UNBIND arms the slot or unbinds it at once, by its code; all end OK (02 R44, 02 R49, 09 R246,
09 R247). -/
def Obligations.BindCommandsRun : Prop :=
  (∀ (o : Origin) (v b tgt : Byte) (s : State),
    commandRuns (cmdReq o (P.SW_BIND_CMD) [1#8, v, b, tgt]) 0 s = true →
    exec (.bind o v b tgt) s = .next (ran (cmdReq o (P.SW_BIND_CMD) [1#8, v, b, tgt]) 0 s (endsOk fun (t : State) => onlyIf (tgt.toNat == 0x40 || (portAt t tgt.toNat).link == LinkState.up) (vppbTell v.toNat b.toNat 1) (modSw (fun w => { w with vcs := smSet w.vcs (32 * v.toNat + b.toNat) tgt.toNat }) t)))) ∧
  (∀ (o : Origin) (v b : Byte) (s : State),
    commandRuns (cmdReq o (P.SW_BIND_CMD) [2#8, v, b, 0#8]) 0 s = true →
    exec (.unbindWait o v b) s = .next (ran (cmdReq o (P.SW_BIND_CMD) [2#8, v, b, 0#8]) 0 s (endsOk (unbindStart 2 v.toNat b.toNat)))) ∧
  (∀ (o : Origin) (v b : Byte) (s : State),
    commandRuns (cmdReq o (P.SW_BIND_CMD) [3#8, v, b, 0#8]) 0 s = true →
    exec (.unbindManaged o v b) s = .next (ran (cmdReq o (P.SW_BIND_CMD) [3#8, v, b, 0#8]) 0 s (endsOk (unbindStart 3 v.toNat b.toNat)))) ∧
  (∀ (o : Origin) (v b : Byte) (s : State),
    commandRuns (cmdReq o (P.SW_BIND_CMD) [4#8, v, b, 0#8]) 0 s = true →
    exec (.unbindSurprise o v b) s = .next (ran (cmdReq o (P.SW_BIND_CMD) [4#8, v, b, 0#8]) 0 s (endsOk (unbindStart 4 v.toNat b.toNat))))

/-- Where no check of R49 refuses it: DRAM_APPLY starts the training of every populated channel, with or without
the test, and with no channel populated takes the memory dies out and ends OK; RETIRE of a frame, a row or a
bank starts and its record stays PENDING, CLEAR ends OK; CL_CMD RESET starts a reset of the link with cause 4
(02 R44, 02 R49, 11 R302, 11 R316, 12 R319, 13 R336). -/
def Obligations.DramCommandsRun : Prop :=
  (∀ (o : Origin) (s : State),
    commandRuns (cmdReq o (P.DRAM_APPLY) [0#8]) 0 s = true →
    exec (.dramApply o) s = .next (ran (cmdReq o (P.DRAM_APPLY) [0#8]) 0 s (fun t => if (below 32).any (chanPopulated t) then (dramApply false t, none) else (recomputeD (forAll (below 4) (fun d => dieOut (4 + d) 3) (modSl (fun l => { l with bootStage := .ready }) t)), some (0, 0))))) ∧
  (∀ (o : Origin) (s : State),
    commandRuns (cmdReq o (P.DRAM_APPLY) [1#8]) 0 s = true →
    exec (.dramApplyTest o) s = .next (ran (cmdReq o (P.DRAM_APPLY) [1#8]) 0 s (fun t => if (below 32).any (chanPopulated t) then (dramApply true t, none) else (recomputeD (forAll (below 4) (fun d => dieOut (4 + d) 3) (modSl (fun l => { l with bootStage := .ready }) t)), some (0, 0))))) ∧
  (∀ (o : Origin) (arg : BitVec 64) (s : State),
    commandRuns (cmdReq o (P.RETIRE_CMD) (1#8 :: leBytes 8 arg.toNat)) 0 s = true →
    exec (.retireFrame o arg) s = .next (ran (cmdReq o (P.RETIRE_CMD) (1#8 :: leBytes 8 arg.toNat)) 0 s (fun t => ((retireStart 1 arg.toNat t).1, (retireStart 1 arg.toNat t).2.map fun d => (0, d))))) ∧
  (∀ (o : Origin) (arg : BitVec 64) (s : State),
    commandRuns (cmdReq o (P.RETIRE_CMD) (2#8 :: leBytes 8 arg.toNat)) 0 s = true →
    exec (.retireRow o arg) s = .next (ran (cmdReq o (P.RETIRE_CMD) (2#8 :: leBytes 8 arg.toNat)) 0 s (fun t => ((retireStart 2 arg.toNat t).1, (retireStart 2 arg.toNat t).2.map fun d => (0, d))))) ∧
  (∀ (o : Origin) (arg : BitVec 64) (s : State),
    commandRuns (cmdReq o (P.RETIRE_CMD) (3#8 :: leBytes 8 arg.toNat)) 0 s = true →
    exec (.retireBank o arg) s = .next (ran (cmdReq o (P.RETIRE_CMD) (3#8 :: leBytes 8 arg.toNat)) 0 s (fun t => ((retireStart 3 arg.toNat t).1, (retireStart 3 arg.toNat t).2.map fun d => (0, d))))) ∧
  (∀ (o : Origin) (arg : BitVec 64) (s : State),
    commandRuns (cmdReq o (P.RETIRE_CMD) (4#8 :: leBytes 8 arg.toNat)) 0 s = true →
    exec (.retireClear o arg) s = .next (ran (cmdReq o (P.RETIRE_CMD) (4#8 :: leBytes 8 arg.toNat)) 0 s (fun t => ((retireStart 4 arg.toNat t).1, (retireStart 4 arg.toNat t).2.map fun d => (0, d))))) ∧
  (∀ (o : Origin) (k : LinkId) (s : State),
    commandRuns (cmdReq o (P.CL_CMD + 256 * k.val) [1#8]) 0 s = true →
    exec (.clReset o k) s = .next (ran (cmdReq o (P.CL_CMD + 256 * k.val) [1#8]) 0 s (goesOn fun t => linkJudged k.val (linkReset k.val (!unitServes t (368 + linkEndA k.val)) 4 t))))

/-- The unit's row is selected, then, where no check of R49 refuses the command, TAKE_OUT takes the unit out of
service (at once, or once it has drained) and REJOIN starts its test (02 R43, 02 R44, 02 R49, 14 R371, 14
R374). -/
def Obligations.UnitCommandsRun : Prop :=
  (∀ (o : Origin) (u : UnitId) (s : State),
    commandRuns (cmdReq o P.UNIT_CMD [1#8]) u.val (rowChosen o P.UNIT_CMD u.val s) = true →
    exec (.takeOut o u) s = .next (ran (cmdReq o P.UNIT_CMD [1#8]) u.val (rowChosen o P.UNIT_CMD u.val s) (fun t => ((takeOut u.val t).1, if (takeOut u.val t).2 then some (0, 0) else none)))) ∧
  (∀ (o : Origin) (u : UnitId) (s : State),
    commandRuns (cmdReq o P.UNIT_CMD [2#8]) u.val (rowChosen o P.UNIT_CMD u.val s) = true →
    exec (.rejoin o u) s = .next (ran (cmdReq o P.UNIT_CMD [2#8]) u.val (rowChosen o P.UNIT_CMD u.val s) (goesOn (rejoinStart u.val))))

/-- Where no check of R49 refuses the write: the value stands; a shelf vote moves the target; a core voltage
starts its rail; pace, DDR rate and SerDes cap re-scale; FM_PORT changed discards the FM session; a FLASH
value is answered when the flash holds it (02 R35, 02 R49, 02 R55, 16 R400, 16 R408, 17 R428). -/
def Obligations.PowerSettingsWritten : Prop :=
  (∀ (o : Origin) (v : Byte) (s : State),
    writeRuns (reqWrite o (P.PS_SHELF_VOTE) 1 0 [v]) 0 s = true →
    exec (.psShelfVote o v) s = .next (written (reqWrite o (P.PS_SHELF_VOTE) 1 0 [v]) 0 false s (psRecompute (if prow (judged (reqWrite o P.PS_SHELF_VOTE 1 0 [v]) s) 0 P.PS_SHELF_VOTE < leNat [v] then 4 else 8)))) ∧
  (∀ (o : Origin) (j : DieId) (v : Byte) (s : State),
    writeRuns (reqWrite o (P.PS_VCORE + j.val) 1 0 [v]) 0 s = true →
    exec (.psVcore o j v) s = .next (written (reqWrite o (P.PS_VCORE + j.val) 1 0 [v]) 0 true s (fun t => if prow (judged (reqWrite o (P.PS_VCORE + j.val) 1 0 [v]) s) 0 (P.PS_VCORE + j.val) ≠ leNat [v] ∧ diePowered t j.val then vcoreApply j.val (prow (judged (reqWrite o (P.PS_VCORE + j.val) 1 0 [v]) s) 0 (P.PS_VCORE + j.val)) t else t))) ∧
  (∀ (o : Origin) (m : MemDie) (v : BitVec 32) (s : State),
    writeRuns (reqWrite o (P.PS_PACE + m.val) 3 0 (leBytes 4 v.toNat)) 0 s = true →
    exec (.psPace o m v) s = .next (written (reqWrite o (P.PS_PACE + m.val) 3 0 (leBytes 4 v.toNat)) 0 true s (recomputeD))) ∧
  (∀ (o : Origin) (m : MemDie) (v : Byte) (s : State),
    writeRuns (reqWrite o (P.PS_DDR_RATE + m.val) 7 0 [v]) 0 s = true →
    exec (.psDdrRate o m v) s = .next (written (reqWrite o (P.PS_DDR_RATE + m.val) 7 0 [v]) 0 true s (fun t => if prow (judged (reqWrite o (P.PS_DDR_RATE + m.val) 7 0 [v]) s) 0 (P.PS_DDR_RATE + m.val) = leNat [v] then t else ddrRateChanged m.val t))) ∧
  (∀ (o : Origin) (x : LinkDie) (v : Byte) (s : State),
    writeRuns (reqWrite o (P.PS_SERDES_CAP + x.val) 7 0 [v]) 0 s = true →
    exec (.psSerdesCap o x v) s = .next (written (reqWrite o (P.PS_SERDES_CAP + x.val) 7 0 [v]) 0 true s (fun t => if prow (judged (reqWrite o (P.PS_SERDES_CAP + x.val) 7 0 [v]) s) 0 (P.PS_SERDES_CAP + x.val) = leNat [v] then t else serdesCapChanged x.val (prow (judged (reqWrite o (P.PS_SERDES_CAP + x.val) 7 0 [v]) s) 0 (P.PS_SERDES_CAP + x.val)) (leNat [v]) t))) ∧
  (∀ (o : Origin) (ns : BitVec 32) (s : State),
    writeRuns (reqWrite o (P.CR_BIT_NS) 3 0 (leBytes 4 ns.toNat)) 0 s = true →
    exec (.crBitNs o ns) s = .next (written (reqWrite o (P.CR_BIT_NS) 3 0 (leBytes 4 ns.toNat)) 0 true s (id))) ∧
  (∀ (o : Origin) (v : Byte) (s : State),
    writeRuns (reqWrite o (P.FM_PORT) 1 0 [v]) 0 s = true →
    exec (.fmPortWrite o v) s = .next (written (reqWrite o (P.FM_PORT) 1 0 [v]) 0 true s (id)))

/-- Where no check of R49 refuses it against the combined result, COMMIT with argument 0 makes all staged values
stand in one step, with what the group's chapter makes of it; with argument 1 they are dropped. The commit of
a FREE lodging begins its creation, of any other a change; OWNER_COMMIT gives a group its owner; a region
checker takes its entry (02 R42, 02 R44, 02 R48, 02 R49, 03 R60, 13 R344). -/
def Obligations.CommitsApply : Prop :=
  (∀ (o : Origin) (grp : BitVec 16) (row : Nat) (g : GSpec) (p : PSpec) (s : State),
    groupSpec grp.toNat = some g →
    paramSpec (grp.toNat * 256 + 2) = some p →
    isCommit g p (grp.toNat * 256 + 2) = true →
    grp ≠ 3#16 →
    commitRuns (cmdReq o (grp.toNat * 256 + 2) [0#8]) row s = true →
    exec (.commit o grp) s = .next (let k := committing (cmdReq o (grp.toNat * 256 + 2) [0#8]) g row s; let e := afterCommit grp.toNat row (judged (cmdReq o (grp.toNat * 256 + 2) [0#8]) s) k.1; commitAnswered (cmdReq o (grp.toNat * 256 + 2) [0#8]) row e.2 k.2 s e.1)) ∧
  (∀ (o : Origin) (grp : BitVec 16) (row : Nat) (g : GSpec) (p : PSpec) (s : State),
    groupSpec grp.toNat = some g →
    paramSpec (grp.toNat * 256 + 2) = some p →
    isCommit g p (grp.toNat * 256 + 2) = true →
    admits17 (cmdReq o (grp.toNat * 256 + 2) [1#8]) s = true →
    rowOf (cmdReq o (grp.toNat * 256 + 2) [1#8]) s = some row →
    cmdPending (judged (cmdReq o (grp.toNat * 256 + 2) [1#8]) s) row (grp.toNat * 256 + 2) = false →
    groupClosed (judged (cmdReq o (grp.toNat * 256 + 2) [1#8]) s) (grp.toNat * 256 + 2) = false →
    (stagedOf (judged (cmdReq o (grp.toNat * 256 + 2) [1#8]) s) o grp.toNat).isSome = true →
    exec (.commitDiscard o grp) s = .next (respond (.core o) (grp.toNat * 256 + 2) ⟨0, 12, s.dict.seq + 1, []⟩ (modSession o id (cmdStart (cmdReq o (grp.toNat * 256 + 2) [1#8]) row 0 0 (s.dict.seq + 1) (dropStaged o (judged (cmdReq o (grp.toNat * 256 + 2) [1#8]) s)))))) ∧
  (∀ (o : Origin) (n : LodgeId) (g : GSpec) (s : State),
    groupSpec (0x1000 + n.val) = some g →
    commitRuns (cmdReq o (lodgeCommit n.val) [0#8]) 0 s = true →
    (lodgeAt s n.val).state = .free →
    exec (.lodgeCreate o n) s = .next (let k := committing (cmdReq o (lodgeCommit n.val) [0#8]) g 0 s; commitAnswered (cmdReq o (lodgeCommit n.val) [0#8]) 0 true k.2 s (lodgeBegin n.val k.1))) ∧
  (∀ (o : Origin) (n : LodgeId) (g : GSpec) (s : State),
    groupSpec (0x1000 + n.val) = some g →
    commitRuns (cmdReq o (lodgeCommit n.val) [0#8]) 0 s = true →
    (lodgeAt s n.val).state ≠ .free →
    exec (.lodgeChange o n) s = .next (let k := committing (cmdReq o (lodgeCommit n.val) [0#8]) g 0 s; let e := lodgeChanged n.val (judged (cmdReq o (lodgeCommit n.val) [0#8]) s) k.1; commitAnswered (cmdReq o (lodgeCommit n.val) [0#8]) 0 e.2 k.2 s e.1)) ∧
  (∀ (o : Origin) (row : Nat) (g : GSpec) (s : State),
    groupSpec row = some g →
    g.ownerFixed = false →
    admits17 (cmdReq o 0x000302 [0#8]) s = true →
    rowOf (cmdReq o 0x000302 [0#8]) s = some row →
    cmdPending (judged (cmdReq o 0x000302 [0#8]) s) row 0x000302 = false →
    heldFor (cmdReq o 0x000302 [0#8]) s ≠ [] →
    (srcClass (judged (cmdReq o 0x000302 [0#8]) s) o).owner = ownerOf s row ∨ srcClass (judged (cmdReq o 0x000302 [0#8]) s) o = .courierPresent →
    exec (.ownerCommit o) s = .next (let v := leNat (smGet [] (heldFor (cmdReq o 0x000302 [0#8]) s) 0x10); deliver (cmdReq o 0x000302 [0#8]) { after := modSession o id (cmdStart (cmdReq o 0x000302 [0#8]) row 1 0 (s.dict.seq + 1) (dropStaged o (modDict (fun d => { d with owners := smSet d.owners row v, flashQ := d.flashQ ++ [(⟨pkey row P.OWNER, v, none⟩ : FlashEntry)] }) (judged (cmdReq o 0x000302 [0#8]) s)))), resp := ⟨0, 12, s.dict.seq + 1, []⟩, owed := true })) ∧
  (∀ (o : Origin) (row : Nat) (g : GSpec) (s : State),
    groupSpec 0x7801 = some g →
    commitRuns (cmdReq o 0x780102 [0#8]) row s = true →
    exec (.regionCommit o) s = .next (let k := committing (cmdReq o 0x780102 [0#8]) g row s; commitAnswered (cmdReq o 0x780102 [0#8]) row false k.2 s (regionCommit row (prow k.1 row P.REGION_REG) (modDict (fun d => { d with params := smErase d.params (pkey row P.REGION_REG) }) k.1))))

/-- Where no check of R49 refuses it: an unstaged member takes the value and what follows from it; a staged one is
held in the session; SELECT moves the cursor. When the flash has programmed the oldest entry it stands in the
journal, and the answer that waited for it goes out (02 R35, 02 R42, 02 R43, 02 R49, 18 R429). -/
def Obligations.MembersWritten : Prop :=
  (∀ (o : Origin) (param : BitVec 24) (ty : Byte) (off : BitVec 32) (value : List Byte) (row : Nat) (g : GSpec) (p : PSpec) (s : State),
    groupSpec (param.toNat / 256) = some g →
    paramSpec param.toNat = some p →
    p.ty ≠ .cmd →
    p.staged = false →
    isSelect g (reqWrite o param.toNat ty.toNat off.toNat value) = false →
    writeRuns (reqWrite o param.toNat ty.toNat off.toNat value) row s = true →
    exec (.paramWrite o param ty off value) s = .next (written (reqWrite o param.toNat ty.toNat off.toNat value) row (p.pers == PPers.flash) s (afterWrite row param.toNat (prow (judged (reqWrite o param.toNat ty.toNat off.toNat value) s) row param.toNat) (leNat value)))) ∧
  (∀ (o : Origin) (param : BitVec 24) (ty : Byte) (off : BitVec 32) (value : List Byte) (row : Nat) (g : GSpec) (p : PSpec) (s : State),
    groupSpec (param.toNat / 256) = some g →
    paramSpec param.toNat = some p →
    p.ty ≠ .cmd →
    p.ty ≠ .blob →
    p.staged = true →
    isSelect g (reqWrite o param.toNat ty.toNat off.toNat value) = false →
    admits17 (reqWrite o param.toNat ty.toNat off.toNat value) s = true →
    rowOf (reqWrite o param.toNat ty.toNat off.toNat value) s = some row →
    otherStaged (judged (reqWrite o param.toNat ty.toNat off.toNat value) s) o (param.toNat / 256) = false →
    groupClosed (judged (reqWrite o param.toNat ty.toNat off.toNat value) s) param.toNat = false →
    exec (.paramWrite o param ty off value) s = .next (respond (.core o) param.toNat ⟨0, ty.toNat, s.dict.seq + 1, []⟩ (modSession o id (modSession o (fun x => { x with group := some (param.toNat / 256), staged := smSet (heldFor (reqWrite o param.toNat ty.toNat off.toNat value) s) (param.toNat % 256) value }) (judged (reqWrite o param.toNat ty.toNat off.toNat value) s))))) ∧
  (∀ (o : Origin) (grp : BitVec 16) (row : BitVec 32) (g : GSpec) (s : State),
    groupSpec grp.toNat = some g →
    0 < g.rows →
    admits17 (reqWrite o (grp.toNat * 256 + 1) 3 0 (leBytes 4 row.toNat)) s = true →
    heldFor (reqWrite o (grp.toNat * 256 + 1) 3 0 (leBytes 4 row.toNat)) s = [] →
    exec (.selectRow o grp row) s = .next (respond (.core o) (grp.toNat * 256 + 1) ⟨0, 3, s.dict.seq + 1, []⟩ (modSession o id (modSession o (fun x => { x with cursors := smSet x.cursors grp.toNat row.toNat }) (judged (reqWrite o (grp.toNat * 256 + 1) 3 0 (leBytes 4 row.toNat)) s))))) ∧
  (∀ (e : FlashEntry) (rest : List FlashEntry) (s : State),
    s.dict.flashQ = e :: rest →
    e.reply = none →
    exec (.flashWriteDone) s = .next (modSl (fun l => { l with journal := smSet l.journal e.key e.value }) (modDict (fun d => { d with flashQ := rest }) s))) ∧
  (∀ (e : FlashEntry) (rest : List FlashEntry) (tgt : ReplyTo) (n : Nat) (x : Resp) (s : State),
    s.dict.flashQ = e :: rest →
    e.reply = some (tgt, n, x) →
    exec (.flashWriteDone) s = .next (respond tgt n x (cmdEnd (e.key / 2 ^ 24) n 0 0 (modSl (fun l => { l with journal := smSet l.journal e.key e.value }) (modDict (fun d => { d with flashQ := rest }) s)))))

/-- A mailbox command on FM_PORT and a good Courier frame addressed to the device each make one access; where
checks 1 to 7 of R49 pass it is performed, and its answer returns on its path. DICT_SEQ_READ returns the
number most recently given, giving none (02 R37, 02 R38, 02 R40, 02 R45, 02 R49, 17 R415, 17 R418). -/
def Obligations.AccessPaths : Prop :=
  (∀ (p : PortId) (payload : List Byte) (g : GSpec) (m : PSpec) (s : State),
    mailboxOpen s p.val = true →
    pnum s P.FM_PORT = p.val →
    12 ≤ payload.length →
    (reqOf .fmApi (.mailbox p.val) 4096 payload).op = 0 →
    groupSpec ((reqOf .fmApi (.mailbox p.val) 4096 payload).param / 256) = some g →
    paramSpec (reqOf .fmApi (.mailbox p.val) 4096 payload).param = some m →
    admits17 (reqOf .fmApi (.mailbox p.val) 4096 payload) s = true →
    exec (.dictRead p payload) s = .next (deliver (reqOf .fmApi (.mailbox p.val) 4096 payload) (doRead (reqOf .fmApi (.mailbox p.val) 4096 payload) g m (s.dict.seq + 1) (judged (reqOf .fmApi (.mailbox p.val) 4096 payload) s)))) ∧
  (∀ (p : PortId) (payload : List Byte) (g : GSpec) (m : PSpec) (row : Nat) (s : State),
    mailboxOpen s p.val = true →
    pnum s P.FM_PORT = p.val →
    12 ≤ payload.length →
    (reqOf .fmApi (.mailbox p.val) 4096 payload).op = 1 →
    groupSpec ((reqOf .fmApi (.mailbox p.val) 4096 payload).param / 256) = some g →
    paramSpec (reqOf .fmApi (.mailbox p.val) 4096 payload).param = some m →
    admits17 (reqOf .fmApi (.mailbox p.val) 4096 payload) s = true →
    isSelect g (reqOf .fmApi (.mailbox p.val) 4096 payload) = false →
    rowOf (reqOf .fmApi (.mailbox p.val) 4096 payload) s = some row →
    exec (.dictWrite p payload) s = .next (deliver (reqOf .fmApi (.mailbox p.val) 4096 payload) (doWrite (reqOf .fmApi (.mailbox p.val) 4096 payload) g m row (s.dict.seq + 1) (judged (reqOf .fmApi (.mailbox p.val) 4096 payload) s)))) ∧
  (∀ (p : PortId) (s : State),
    mailboxOpen s p.val = true →
    pnum s P.FM_PORT = p.val →
    exec (.dictSeqRead p) s = .next (emit (.mailbox p.val 0 (leBytes 8 s.dict.seq)) s)) ∧
  (∀ (dest src : BitVec 18) (param : BitVec 24) (data : List Byte) (crc : BitVec 16) (endOk : Bool) (g : GSpec) (m : PSpec) (s : State),
    frameHere dest s = true →
    crFrameFault dest.toNat src.toNat 1 param.toNat data crc endOk (data.length == 8) = none →
    s.cr.replies.length < 16 →
    groupSpec (param.toNat / 256) = some g →
    paramSpec param.toNat = some m →
    (admits17 ({ origin := .courier src, tgt := .courier s.cr.tickets, param := param.toNat, op := 0, ty := bitsOf (leNat (data.take 8)) 0 8, length := bitsOf (leNat (data.take 8)) 16 16, offset := bitsOf (leNat (data.take 8)) 32 32, value := data.drop 8, limit := 240 } : Req) (modCr (fun c => { c with tickets := s.cr.tickets + 1, replies := c.replies ++ [(⟨s.cr.tickets, src.toNat, param.toNat, none, false⟩ : CrReply)] }) (frameTaken s)) = true) →
    exec (.courierRead dest src param data crc endOk) s = .next (deliver ({ origin := .courier src, tgt := .courier s.cr.tickets, param := param.toNat, op := 0, ty := bitsOf (leNat (data.take 8)) 0 8, length := bitsOf (leNat (data.take 8)) 16 16, offset := bitsOf (leNat (data.take 8)) 32 32, value := data.drop 8, limit := 240 } : Req) (doRead ({ origin := .courier src, tgt := .courier s.cr.tickets, param := param.toNat, op := 0, ty := bitsOf (leNat (data.take 8)) 0 8, length := bitsOf (leNat (data.take 8)) 16 16, offset := bitsOf (leNat (data.take 8)) 32 32, value := data.drop 8, limit := 240 } : Req) g m (s.dict.seq + 1) (judged ({ origin := .courier src, tgt := .courier s.cr.tickets, param := param.toNat, op := 0, ty := bitsOf (leNat (data.take 8)) 0 8, length := bitsOf (leNat (data.take 8)) 16 16, offset := bitsOf (leNat (data.take 8)) 32 32, value := data.drop 8, limit := 240 } : Req) (modCr (fun c => { c with tickets := s.cr.tickets + 1, replies := c.replies ++ [(⟨s.cr.tickets, src.toNat, param.toNat, none, false⟩ : CrReply)] }) (frameTaken s)))))) ∧
  (∀ (dest src : BitVec 18) (param : BitVec 24) (data : List Byte) (crc : BitVec 16) (endOk : Bool) (g : GSpec) (m : PSpec) (row : Nat) (s : State),
    frameHere dest s = true →
    crFrameFault dest.toNat src.toNat 2 param.toNat data crc endOk (decide (8 ≤ data.length) && decide (data.length ≤ 248)) = none →
    s.cr.replies.length < 16 →
    groupSpec (param.toNat / 256) = some g →
    paramSpec param.toNat = some m →
    (admits17 ({ origin := .courier src, tgt := .courier s.cr.tickets, param := param.toNat, op := 1, ty := bitsOf (leNat (data.take 8)) 0 8, length := bitsOf (leNat (data.take 8)) 16 16, offset := bitsOf (leNat (data.take 8)) 32 32, value := data.drop 8, limit := 240 } : Req) (modCr (fun c => { c with tickets := s.cr.tickets + 1, replies := c.replies ++ [(⟨s.cr.tickets, src.toNat, param.toNat, none, false⟩ : CrReply)] }) (frameTaken s)) = true) →
    isSelect g ({ origin := .courier src, tgt := .courier s.cr.tickets, param := param.toNat, op := 1, ty := bitsOf (leNat (data.take 8)) 0 8, length := bitsOf (leNat (data.take 8)) 16 16, offset := bitsOf (leNat (data.take 8)) 32 32, value := data.drop 8, limit := 240 } : Req) = false →
    (rowOf ({ origin := .courier src, tgt := .courier s.cr.tickets, param := param.toNat, op := 1, ty := bitsOf (leNat (data.take 8)) 0 8, length := bitsOf (leNat (data.take 8)) 16 16, offset := bitsOf (leNat (data.take 8)) 32 32, value := data.drop 8, limit := 240 } : Req) (modCr (fun c => { c with tickets := s.cr.tickets + 1, replies := c.replies ++ [(⟨s.cr.tickets, src.toNat, param.toNat, none, false⟩ : CrReply)] }) (frameTaken s)) = some row) →
    exec (.courierWrite dest src param data crc endOk) s = .next (deliver ({ origin := .courier src, tgt := .courier s.cr.tickets, param := param.toNat, op := 1, ty := bitsOf (leNat (data.take 8)) 0 8, length := bitsOf (leNat (data.take 8)) 16 16, offset := bitsOf (leNat (data.take 8)) 32 32, value := data.drop 8, limit := 240 } : Req) (doWrite ({ origin := .courier src, tgt := .courier s.cr.tickets, param := param.toNat, op := 1, ty := bitsOf (leNat (data.take 8)) 0 8, length := bitsOf (leNat (data.take 8)) 16 16, offset := bitsOf (leNat (data.take 8)) 32 32, value := data.drop 8, limit := 240 } : Req) g m row (s.dict.seq + 1) (judged ({ origin := .courier src, tgt := .courier s.cr.tickets, param := param.toNat, op := 1, ty := bitsOf (leNat (data.take 8)) 0 8, length := bitsOf (leNat (data.take 8)) 16 16, offset := bitsOf (leNat (data.take 8)) 32 32, value := data.drop 8, limit := 240 } : Req) (modCr (fun c => { c with tickets := s.cr.tickets + 1, replies := c.replies ++ [(⟨s.cr.tickets, src.toNat, param.toNat, none, false⟩ : CrReply)] }) (frameTaken s))))))

/-- Heard on FM_PORT, each query reads the parameters Table 9.6 names and answers Success with their bytes; Get
Response Message Limit answers 12; the DC region configuration is the fixed one, and setting it to its fixed
values succeeds (02 R40, 02 R41, 09 R252). -/
def Obligations.FmQueriesAnswer : Prop :=
  (∀ (p : PortId) (s : State),
    fmOpen p s = true →
    (fmReads (wholeOf [P.LC_STATE, P.OPERATOR_ID]) s).2.1 = 0 →
    exec (.fmIdentify p) s = .next (emit (.mailbox p.val 0 (identityBytes s ++ (fmReads (wholeOf [P.LC_STATE, P.OPERATOR_ID]) s).2.2)) (fmReads (wholeOf [P.LC_STATE, P.OPERATOR_ID]) s).1)) ∧
  (∀ (p : PortId) (s : State),
    fmOpen p s = true →
    s.dict.lastBg = none →
    exec (.backgroundOperationStatus p) s = .next (emit (.mailbox p.val 0 (List.replicate 16 0#8)) s)) ∧
  (∀ (p : PortId) (j m : Nat) (s : State),
    fmOpen p s = true →
    s.dict.lastBg = some (j, m) →
    (fmReads [(m, 0, 16)] s).2.1 = 0 →
    exec (.backgroundOperationStatus p) s = .next (emit (.mailbox p.val 0 (fmReads [(m, 0, 16)] s).2.2) (fmReads [(m, 0, 16)] s).1)) ∧
  (∀ (p : PortId) (s : State),
    fmOpen p s = true →
    exec (.getResponseMessageLimit p) s = .next (emit (.mailbox p.val 0 [12#8]) s)) ∧
  (∀ (p : PortId) (s : State),
    fmOpen p s = true →
    (fmReads (wholeOf ([P.SW_ROLE_COUNT, P.SW_VCS_MAP] ++ (below 64).map (P.PORT_ROLE + 256 * ·))) s).2.1 = 0 →
    exec (.identifySwitchDevice p) s = .next (emit (.mailbox p.val 0 ((fmReads (wholeOf ([P.SW_ROLE_COUNT, P.SW_VCS_MAP] ++ (below 64).map (P.PORT_ROLE + 256 * ·))) s).2.2)) (fmReads (wholeOf ([P.SW_ROLE_COUNT, P.SW_VCS_MAP] ++ (below 64).map (P.PORT_ROLE + 256 * ·))) s).1)) ∧
  (∀ (p : PortId) (ports : List PortId) (s : State),
    fmOpen p s = true →
    ((fmReads (wholeOf (ports.flatMap fun (t : PortId) => [P.LINK_STATE, P.PORT_ROLE, P.PORT_WIDTH, P.PORT_RATE].map (· + 256 * t.val))) s).2.1 = 0) →
    exec (.getPhysicalPortState p ports) s = .next (emit (.mailbox p.val 0 ((fmReads (wholeOf (ports.flatMap fun (t : PortId) => [P.LINK_STATE, P.PORT_ROLE, P.PORT_WIDTH, P.PORT_RATE].map (· + 256 * t.val))) s).2.2)) (fmReads (wholeOf (ports.flatMap fun (t : PortId) => [P.LINK_STATE, P.PORT_ROLE, P.PORT_WIDTH, P.PORT_RATE].map (· + 256 * t.val))) s).1)) ∧
  (∀ (p : PortId) (s : State),
    fmOpen p s = true →
    (fmReads (wholeOf [P.SW_VCS_MAP]) s).2.1 = 0 →
    exec (.getVirtualCxlSwitchInfo p) s = .next (emit (.mailbox p.val 0 ((fmReads (wholeOf [P.SW_VCS_MAP]) s).2.2)) (fmReads (wholeOf [P.SW_VCS_MAP]) s).1)) ∧
  (∀ (p : PortId) (s : State),
    fmOpen p s = true →
    (fmReads (wholeOf ((below 16).map (P.CAP_USABLE + ·) ++ [P.FLOOR_TOTAL, P.LOGICAL_TOTAL, P.STRANDED])) s).2.1 = 0 →
    exec (.getDcdInfo p) s = .next (emit (.mailbox p.val 0 (regionsGeometry ++ (fmReads (wholeOf ((below 16).map (P.CAP_USABLE + ·) ++ [P.FLOOR_TOTAL, P.LOGICAL_TOTAL, P.STRANDED])) s).2.2)) (fmReads (wholeOf ((below 16).map (P.CAP_USABLE + ·) ++ [P.FLOOR_TOTAL, P.LOGICAL_TOTAL, P.STRANDED])) s).1)) ∧
  (∀ (p host : PortId) (s : State),
    fmOpen p s = true →
    portRole s host.val = 1 →
    exec (.getHostDcRegionConfiguration p host) s = .next (emit (.mailbox p.val 0 regionsGeometry) s)) ∧
  (∀ (p : PortId) (region : Byte) (length block : BitVec 64) (s : State),
    fmOpen p s = true →
    region.toNat < 2 →
    length.toNat = 2 ^ 46 →
    block.toNat = 2 ^ 28 →
    exec (.setDcRegionConfiguration p region length block) s = .next (emit (.mailbox p.val 0 []) s)) ∧
  (∀ (p : PortId) (host : PortId) (s : State),
    fmOpen p s = true →
    (fmReads (extentReads s host.val) s).2.1 = 0 →
    exec (.getDcRegionExtentLists p host) s = .next (emit (.mailbox p.val 0 ((fmReads (extentReads s host.val) s).2.2)) (fmReads (extentReads s host.val) s).1))

/-- Heard on FM_PORT, each command writes the CMD member Table 9.6 names as the FM API: where no check of R49
refuses the write, its effect is that command's, and the mailbox answers Success, or Background Command
Started where it goes on; Add and Release rewrite HOST_PORTS of the lodging the tag names and commit it (02
R41, 02 R44, 02 R49, 09 R252). -/
def Obligations.FmCommandsAct : Prop :=
  (∀ (p t : PortId) (s : State),
    fmOpen p s = true →
    commandRuns (cmdReq .fmApi (P.PORT_CMD + 256 * t.val) [5#8]) 0 s = true →
    exec (.assertPerst p t) s = .next (emit (.mailbox p.val 0 []) (acted (cmdReq .fmApi (P.PORT_CMD + 256 * t.val) [5#8]) 0 s (endsOk (fun u => emit (.pin "PORT_PERST_N" t.val false) (modPortAt t.val (fun x => { x with perstOut := true }) (portGoesDown t.val u))) (begun (cmdReq .fmApi (P.PORT_CMD + 256 * t.val) [5#8]) 0 s))))) ∧
  (∀ (p t : PortId) (s : State),
    fmOpen p s = true →
    commandRuns (cmdReq .fmApi (P.PORT_CMD + 256 * t.val) [6#8]) 0 s = true →
    exec (.deassertPerst p t) s = .next (emit (.mailbox p.val 0 []) (acted (cmdReq .fmApi (P.PORT_CMD + 256 * t.val) [6#8]) 0 s (endsOk (fun u => emit (.pin "PORT_PERST_N" t.val true) (modPortAt t.val (fun x => { x with perstOut := false }) u)) (begun (cmdReq .fmApi (P.PORT_CMD + 256 * t.val) [6#8]) 0 s))))) ∧
  (∀ (p t : PortId) (s : State),
    fmOpen p s = true →
    commandRuns (cmdReq .fmApi (P.PORT_CMD + 256 * t.val) [4#8]) 0 s = true →
    exec (.resetPpb p t) s = .next (emit (.mailbox p.val 0 []) (acted (cmdReq .fmApi (P.PORT_CMD + 256 * t.val) [4#8]) 0 s (endsOk (portGoesDown t.val) (begun (cmdReq .fmApi (P.PORT_CMD + 256 * t.val) [4#8]) 0 s))))) ∧
  (∀ (p : PortId) (v b tgt : Byte) (s : State),
    fmOpen p s = true →
    commandRuns (cmdReq .fmApi P.SW_BIND_CMD [1#8, v, b, tgt]) 0 s = true →
    exec (.bindVppb p v b tgt) s = .next (emit (.mailbox p.val 0 []) (modDict (fun d => { d with lastBg := some (0, P.SW_BIND_CMD) }) (acted (cmdReq .fmApi P.SW_BIND_CMD [1#8, v, b, tgt]) 0 s (endsOk (bindStart v.toNat b.toNat tgt.toNat) (begun (cmdReq .fmApi P.SW_BIND_CMD [1#8, v, b, tgt]) 0 s)))))) ∧
  (∀ (p : PortId) (v b : Byte) (s : State),
    fmOpen p s = true →
    commandRuns (cmdReq .fmApi (P.SW_BIND_CMD) [2#8, v, b, 0#8]) 0 s = true →
    exec (.unbindVppbWait p v b) s = .next (emit (.mailbox p.val 0 []) (acted (cmdReq .fmApi (P.SW_BIND_CMD) [2#8, v, b, 0#8]) 0 s (endsOk (unbindStart 2 v.toNat b.toNat) (begun (cmdReq .fmApi (P.SW_BIND_CMD) [2#8, v, b, 0#8]) 0 s))))) ∧
  (∀ (p : PortId) (v b : Byte) (s : State),
    fmOpen p s = true →
    commandRuns (cmdReq .fmApi (P.SW_BIND_CMD) [3#8, v, b, 0#8]) 0 s = true →
    exec (.unbindVppbManaged p v b) s = .next (emit (.mailbox p.val 0 []) (acted (cmdReq .fmApi (P.SW_BIND_CMD) [3#8, v, b, 0#8]) 0 s (endsOk (unbindStart 3 v.toNat b.toNat) (begun (cmdReq .fmApi (P.SW_BIND_CMD) [3#8, v, b, 0#8]) 0 s))))) ∧
  (∀ (p : PortId) (v b : Byte) (s : State),
    fmOpen p s = true →
    commandRuns (cmdReq .fmApi (P.SW_BIND_CMD) [4#8, v, b, 0#8]) 0 s = true →
    exec (.unbindVppbSurprise p v b) s = .next (emit (.mailbox p.val 0 []) (acted (cmdReq .fmApi (P.SW_BIND_CMD) [4#8, v, b, 0#8]) 0 s (endsOk (unbindStart 4 v.toNat b.toNat) (begun (cmdReq .fmApi (P.SW_BIND_CMD) [4#8, v, b, 0#8]) 0 s))))) ∧
  (∀ (p host : PortId) (region : Byte) (tag : BitVec 128) (n : Nat) (s : State),
    fmOpen p s = true →
    tagLodging s tag = some n →
    region.toNat = bNat (lodgeAttr s n 2) →
    (accessAns (reqWrite .fmApi (P.HOST_PORTS + 256 * n) 4 0 (leBytes 8 (Nat.lor (lodgeP s n P.HOST_PORTS) (2 ^ host.val)))) s).resp.status = 0 →
    (accessAns (cmdReq .fmApi (lodgeCommit n) [0#8]) (accessAns (reqWrite .fmApi (P.HOST_PORTS + 256 * n) 4 0 (leBytes 8 (Nat.lor (lodgeP s n P.HOST_PORTS) (2 ^ host.val)))) s).after).resp.status ≤ 1 →
    exec (.initiateDynamicCapacityAdd p host region tag) s = .next (emit (.mailbox p.val (accessAns (cmdReq .fmApi (lodgeCommit n) [0#8]) (accessAns (reqWrite .fmApi (P.HOST_PORTS + 256 * n) 4 0 (leBytes 8 (Nat.lor (lodgeP s n P.HOST_PORTS) (2 ^ host.val)))) s).after).resp.status []) (onlyIf ((accessAns (cmdReq .fmApi (lodgeCommit n) [0#8]) (accessAns (reqWrite .fmApi (P.HOST_PORTS + 256 * n) 4 0 (leBytes 8 (Nat.lor (lodgeP s n P.HOST_PORTS) (2 ^ host.val)))) s).after).resp.status == 1) (modDict fun d => { d with lastBg := some (0, lodgeCommit n) }) (accessAns (cmdReq .fmApi (lodgeCommit n) [0#8]) (accessAns (reqWrite .fmApi (P.HOST_PORTS + 256 * n) 4 0 (leBytes 8 (Nat.lor (lodgeP s n P.HOST_PORTS) (2 ^ host.val)))) s).after).after))) ∧
  (∀ (p host : PortId) (tag : BitVec 128) (n : Nat) (s : State),
    fmOpen p s = true →
    tagLodging s tag = some n →
    (accessAns (reqWrite .fmApi (P.HOST_PORTS + 256 * n) 4 0 (leBytes 8 (lodgeP s n P.HOST_PORTS - Nat.land (lodgeP s n P.HOST_PORTS) (2 ^ host.val)))) s).resp.status = 0 →
    (accessAns (cmdReq .fmApi (lodgeCommit n) [0#8]) (accessAns (reqWrite .fmApi (P.HOST_PORTS + 256 * n) 4 0 (leBytes 8 (lodgeP s n P.HOST_PORTS - Nat.land (lodgeP s n P.HOST_PORTS) (2 ^ host.val)))) s).after).resp.status ≤ 1 →
    exec (.initiateDynamicCapacityRelease p host tag false) s = .next (emit (.mailbox p.val (accessAns (cmdReq .fmApi (lodgeCommit n) [0#8]) (accessAns (reqWrite .fmApi (P.HOST_PORTS + 256 * n) 4 0 (leBytes 8 (lodgeP s n P.HOST_PORTS - Nat.land (lodgeP s n P.HOST_PORTS) (2 ^ host.val)))) s).after).resp.status []) (onlyIf ((accessAns (cmdReq .fmApi (lodgeCommit n) [0#8]) (accessAns (reqWrite .fmApi (P.HOST_PORTS + 256 * n) 4 0 (leBytes 8 (lodgeP s n P.HOST_PORTS - Nat.land (lodgeP s n P.HOST_PORTS) (2 ^ host.val)))) s).after).resp.status == 1) (modDict fun d => { d with lastBg := some (0, lodgeCommit n) }) (accessAns (cmdReq .fmApi (lodgeCommit n) [0#8]) (accessAns (reqWrite .fmApi (P.HOST_PORTS + 256 * n) 4 0 (leBytes 8 (lodgeP s n P.HOST_PORTS - Nat.land (lodgeP s n P.HOST_PORTS) (2 ^ host.val)))) s).after).after)))

/-- On a port that is up and has an IME vPPB: Identify, the logs, the event records, the configuration and the
extent list of dynamic capacity are answered with what the view holds (the payloads the CXL standard alone
gives are free values, log 6) (03 R62, 03 R66, 09 R245). -/
def Obligations.ImeMailboxAnswers : Prop :=
  (∀ (p : PortId) (s : State),
    mailboxOpen s p.val = true →
    exec (.identifyMemoryDevice p) s = .next (emit (.mailbox p.val 0 viewIdentity) s)) ∧
  (∀ (p : PortId) (s : State),
    mailboxOpen s p.val = true →
    exec (.getSupportedLogs p) s = .next ({ emit (.mailbox p.val 0 (Config.standardPayload 0x0400 s.fresh)) s with fresh := s.fresh + 1 })) ∧
  (∀ (p : PortId) (log : BitVec 128) (offset length : BitVec 32) (s : State),
    mailboxOpen s p.val = true →
    exec (.getLog p log offset length) s = .next ({ emit (.mailbox p.val 0 (slice offset.toNat length.toNat (Config.standardPayload (log.toNat * 2 ^ 16 + 0x0401) s.fresh))) s with fresh := s.fresh + 1 })) ∧
  (∀ (p : PortId) (log : Byte) (s : State),
    mailboxOpen s p.val = true →
    log.toNat ≤ 4 →
    exec (.getEventRecords p log) s = .next (emit (.mailbox p.val 0 (eventLog s p.val log.toNat)) s)) ∧
  (∀ (p : PortId) (log count : Byte) (s : State),
    mailboxOpen s p.val = true →
    log.toNat ≤ 4 →
    exec (.clearEventRecords p log count) s = .next (eventsClear p.val log.toNat count.toNat s)) ∧
  (∀ (p : PortId) (s : State),
    mailboxOpen s p.val = true →
    exec (.getDynamicCapacityConfiguration p) s = .next (emit (.mailbox p.val 0 (leBytes 1 2 ++ regionsGeometry)) s)) ∧
  (∀ (p : PortId) (s : State),
    mailboxOpen s p.val = true →
    exec (.getDynamicCapacityExtentList p) s = .next (emit (.mailbox p.val 0 (extentList s p.val)) s))

/-- An ASSIGN heard while the node holds no address and ENUM_IN has been high gives it the address and sends the
ACK; RELEASE clears it; a completed access is answered and the oldest alert record sent when the arbitration
is won; ENUM_IN, ENUM_OUT, stalls, rail holds and a free bus act as R412 to R427 say (17 R412, 17 R415, 17
R419, 17 R421, 17 R422, 17 R424, 17 R427). -/
def Obligations.CourierEventsAct : Prop :=
  (∀ (dest src : BitVec 18) (crc : BitVec 16) (s : State),
    s.sl.vstby = true →
    s.cr.busIdle = true →
    s.cr.address = none →
    s.cr.enumInHeld = true →
    crc = crFrameCrc dest.toNat src.toNat 5 0 [] →
    exec (.assign dest src crc true) s = .next (emit (.courier 6 src.toNat dest.toNat 0 (identityBytes s)) (bumpCr 1 (modCr (fun c => { c with address := some dest.toNat, ackSent := true, duplicate := false }) (frameTaken s))))) ∧
  (∀ (dest src : BitVec 18) (crc : BitVec 16) (s : State),
    frameHere dest s = true →
    crc = crFrameCrc dest.toNat src.toNat 7 0 [] →
    exec (.release dest src crc true) s = .next (modCr (fun c => { c with address := none, duplicate := false, enumOut := false, ackSent := false }) (frameTaken s))) ∧
  (∀ (r : CrReply) (rsp : Resp) (s : State),
    maySend s = true →
    replyReady s = some r →
    r.resp = some rsp →
    exec (.reply .won) s = .next (replySent r rsp s)) ∧
  (∀ (r : CrReply) (rsp : Resp) (s : State),
    maySend s = true →
    replyReady s = some r →
    r.resp = some rsp →
    exec (.reply .lost) s = .next (bumpCr 4 s)) ∧
  (∀ (r : CrReply) (rsp : Resp) (s : State),
    maySend s = true →
    replyReady s = some r →
    r.resp = some rsp →
    exec (.reply .duplicate) s = .next (raiseAlert 5 0 0 0 2 (bumpCr 4 (modCr (fun c => { c with duplicate := true }) s)))) ∧
  (∀ (a : Alert) (rest : List Alert) (s : State),
    maySend s = true →
    pnum s P.CR_ALERT_DEST ≠ 0xFFFFFFFF →
    s.cr.waiting = a :: rest →
    exec (.alert .won) s = .next (emit (.courier 4 (pnum s P.CR_ALERT_DEST) (s.cr.address.getD 0) 0 (alertBytes a)) (bumpCr 1 (modCr (fun c => { c with waiting := rest }) s)))) ∧
  (∀ (high : Bool) (s : State),
    exec (.enumIn high) s = .next (modCr (fun c => { c with enumIn := high, enumInHeld := c.enumInHeld && high, enumOut := c.enumOut && high }) s)) ∧
  (∀ (s : State),
    s.cr.enumIn = true →
    exec (.enumInHeldHigh) s = .next (modCr (fun c => { c with enumInHeld := true, enumOut := c.enumOut || c.address.isSome }) s)) ∧
  (∀ (s : State),
    s.cr.enumInHeld = true →
    s.cr.ackSent = true →
    s.cr.address.isSome = true →
    exec (.enumOutRaise) s = .next (modCr (fun c => { c with enumOut := true }) s)) ∧
  (∀ (s : State),
    s.sl.vstby = true →
    pnum s P.CR_STALL_TIMEOUT ≠ 0 →
    exec (.crStallTimeout true) s = .next (raiseAlert 5 0 0 0 1 (gbAdd 3500 1 (modCr (fun c => { c with railHeld := true }) s)))) ∧
  (∀ (s : State),
    s.sl.vstby = true →
    pnum s P.CR_STALL_TIMEOUT ≠ 0 →
    exec (.crStallTimeout false) s = .next (raiseAlert 5 0 0 0 3 (gbAdd 3501 1 (bumpCr 3 s)))) ∧
  (∀ (s : State),
    s.sl.vstby = true →
    exec (.railHoldRelease) s = .next (bumpCr 6 s)) ∧
  (∀ (s : State),
    s.sl.vstby = true →
    exec (.courierBusIdle) s = .next (modCr (fun c => { c with busIdle := true, railHeld := false }) s))

/-- A cut latches the figures, or is folded while two earlier cuts wait; a record goes to the next good slot of
the circulating area and to the permanent one; a die's figures reach the accumulators; the button held low
opens 60 s of presence and is a wake source; the seal loop needs 16 matches in a row (13 R351, 16 R404, 18
R431, 18 R432, 18 R435, 18 R436). -/
def Obligations.GuestBookAndPresenceEventsAct : Prop :=
  (∀ (s : State),
    s.sl.vstby = true →
    s.gb.latches.length < 2 →
    exec (.gbHourCut) s = .next (gbCutNow 1 s.gb.major s)) ∧
  (∀ (s : State),
    s.sl.vstby = true →
    2 ≤ s.gb.latches.length →
    exec (.gbHourCut) s = .next (gbFold s.gb.major s)) ∧
  (∀ (c : GbCut) (rest : List GbCut) (kind : Nat) (ks : List Nat) (sec : Nat) (okPerm : Bool) (s : State),
    let pos := if sec = s.gb.circPos / 15 then s.gb.circPos else 15 * sec
    let s1 := if pos % 15 = 0 ∧ gbHolds s sec = true then modSector (288 + sec) (fun x => { x with erases := min 100000 (x.erases + 1) }) (modGb (fun g => { g with circ := g.circ.filter fun e => e.1 / 15 != sec }) s) else s
    s.sl.vstby = true →
    s.sl.flashOk = true →
    s.gb.latches = c :: rest →
    c.kinds = kind :: ks →
    gbNextSector s (s.gb.circPos / 15) = some sec →
    (gbSector s1 (288 + sec)).erases < 100000 →
    exec (.gbRecordWrite ⟨true, okPerm⟩) s = .next (gbPop (gbPermanent okPerm (gbRecord c kind s) (modGb (fun g => { g with circ := smPut 0 g.circ pos (gbRecord c kind s), circPos := (pos + 1) % 16500 }) s1)))) ∧
  (∀ (d : DieId) (s : State),
    diePowered s d.val = true →
    unitServes s (368 + d.val) = true →
    exec (.gbFigures d) s = .next (modGb (fun g => { g with dieFigs := smErase g.dieFigs d.val, figs := (smGet [] g.dieFigs d.val).foldl (fun (m : SMap Nat) (e : Nat × Nat) => smPut 0 m e.1 (smGet 0 m e.1 + e.2)) g.figs }) s)) ∧
  (∀ (s : State),
    s.sl.vstby = true →
    exec (.tempSample) s = .next (gbRail 10 3300 (forAll (below 8) tempSampleDie s))) ∧
  (∀ (s : State),
    s.sl.vstby = true →
    exec (.presenceN true) s = .next (wake 5 (modSl (fun l => { l with presenceLow := true, windowEnd := some (s.slTime + 60 * 10 ^ 9) }) s))) ∧
  (∀ (s : State),
    s.sl.vstby = true →
    exec (.presenceN false) s = .next (modSl (fun l => { l with presenceLow := false }) s)) ∧
  (∀ (s : State),
    exec (.presenceWindowEnd) s = .next (modSl (fun l => { l with windowEnd := none }) s)) ∧
  (∀ (m : Bool) (s : State),
    s.sl.vstby = true →
    exec (.sealLoopSample m) s = .next (modSl (fun l => { l with sealMatches := if m then min 16 (l.sealMatches + 1) else 0 }) s))

/-- A power good lets the order of Table 19.4 go on; a late one, or one that falls, takes the die out of service;
10 ms at 115 degrees opens everything, and recovery starts the rails; VSTBY rising loads the straps and arms a
reset of cause 1, and falling leaves fuses and flash; firmware is measured and starts; the standby island
takes over with DICT_SEQ advanced by 65,536 (11 R306, 14 R367, 19 R441, 19 R446, 19 R447, 19 R450, 20 R455). -/
def Obligations.RailsAndStartUpAct : Prop :=
  (∀ (r : RailId) (s : State),
    s.sl.railEn.getLsbD r.val = true →
    exec (.regulatorPowerGood r) s = .next (railsDone (advanceRails 6 (modSl (fun l => { l with railPg := setRail l.railPg r.val true }) s)))) ∧
  (∀ (r : RailId) (s : State),
    s.sl.railEn.getLsbD r.val = true →
    s.sl.railPg.getLsbD r.val = false →
    exec (.regulatorTimeout r) s = .next (railsDone (advanceRails 6 (logEvent 13 (368 + railDie r.val) (railSeverity (railDie r.val)) none 0 (modSl (fun l => { l with railEn := setRail l.railEn r.val false, railDenied := l.railDenied ++ [railDie r.val] }) (if 4 ≤ r.val ∧ r.val < 12 then railsOfDieFall (railDie r.val) s else s)))))) ∧
  (∀ (r : RailId) (s : State),
    s.sl.railEn.getLsbD r.val = true →
    s.sl.railPg.getLsbD r.val = true →
    s.sl.railStep = 6 ∨ s.sl.railStep = 0 →
    exec (.powerGoodLoss r) s = .next (recomputeD (dieOut (railDie r.val) 3 (logEvent 13 (368 + railDie r.val) (railSeverity (railDie r.val)) none 0 (modSl (fun l => { l with railDenied := l.railDenied ++ [railDie r.val] }) (railsOfDieFall (railDie r.val) s)))))) ∧
  (∀ (d : DieId) (s : State),
    10 ≤ smGet 0 s.sl.hotMs d.val →
    s.sl.thermShutdown = false →
    exec (.thermalShutdown d) s = .next (logPlain 13 4 (diesLost (openAllBranches (allRailsFall false (modSl (fun l => { l with thermShutdown := true, thermN := true, thermShutdowns := satAdd 32 l.thermShutdowns 1, thermLast := d.val + ((smGet 0 l.tj d.val).toNat % 256) * 2 ^ 8 + (s.slTime / 1000 % 2 ^ 64) * 2 ^ 64, hotMs := [], resetArmed := 6 }) s)))))) ∧
  (∀ (s : State),
    s.sl.thermShutdown = true →
    s.hs.state = .on →
    exec (.thermalRecovery) s = .next (railsDone (startRails .boot (modSl (fun l => { l with bootStage := .powering, thermShutdown := false }) s)))) ∧
  (∀ (d : DieId) (t0 t1 t2 t3 : BitVec 32) (s : State),
    diePowered s d.val = true →
    exec (.junctionSensorRead d t0 t1 t2 t3) s = .next (thermWarn (modSl (fun l => { l with tj := smPut 0 l.tj d.val (max (max (s32 t0) (s32 t1)) (max (s32 t2) (s32 t3))), hotMs := smPut 0 l.hotMs d.val (if 115 ≤ max (max (s32 t0) (s32 t1)) (max (s32 t2) (s32 t3)) then smGet 0 l.hotMs d.val + 1 else 0) }) s))) ∧
  (∀ (strap : BitVec 2) (slSel : Bool) (flash : FlashAtRise) (s : State),
    s.sl.vstby = false →
    ∃ t, exec (.standbyRise strap slSel flash) s = .next t ∧ t.sl.vstby = true ∧ t.sl.standbyAlive = true ∧ t.sl.straps = strap.toNat + 4 * bNat slSel ∧ t.sl.onL2 = slSel ∧ t.sl.resetCause = 1 ∧ t.sl.resetArmed = 1 ∧ t.sl.bootStage = BootStage.standby ∧ t.sl.flashOk = flash.ok) ∧
  (∀ (s : State),
    ∃ t, exec (.standbyLoss) s = .next t ∧ t.sl.vstby = false ∧ t.sl.journal = s.sl.journal ∧ t.sl.fuseP = s.sl.fuseP ∧ t.sl.fuseY = s.sl.fuseY ∧ t.sl.fuseT = s.sl.fuseT ∧ t.sl.fuseC = s.sl.fuseC ∧ t.sl.fuseVersion = s.sl.fuseVersion ∧ t.sl.operatorId = s.sl.operatorId ∧ t.gb.circ = s.gb.circ ∧ t.gb.perm = s.gb.perm ∧ t.space.retired = s.space.retired ∧ t.dict = ({} : Dict) ∧ t.prot = ({} : Protect) ∧ t.lod = ({} : Lodgings) ∧ t.space.dram = [] ∧ t.pending = s.pending) ∧
  (∀ (keeper steward : FwSlots) (k st : BitVec 384) (s : State),
    verified s keeper = some k →
    verified s steward = some st →
    s.sl.railStep = 6 →
    s.sl.bootStage = .booting →
    lcState s ≠ 4 →
    unitServes s 369 = true →
    exec (.bootFirmwareStart keeper steward) s = .next (hardwareKnown (modSl (fun l => { l with bootStage := .firmware }) (measExtend 2 (digestBytes 48 st) (modWorld (fun w => { w with stewardUp := 0xFF#8, stewardDigest := st }) (measExtend 1 (digestBytes 48 k) (modWorld (fun w => { w with keeperUp := true, keeperDigest := k }) s))))))) ∧
  (∀ (s : State),
    s.sl.vstby = true →
    exec (.devResetN) s = .next (deviceReset 2 s)) ∧
  (∀ (s : State),
    s.sl.vstby = true →
    s.sl.standbyAlive = true →
    exec (.heartbeatTimeout) s = .next (modGb (fun g => { g with latches := cutAgain g.latches }) (modHs breakersSwap (modUnit (fun u => { u with log := u.logMirror }) (modDict (fun d => { d with seq := d.seqMirror + 65536, params := valuesFromMirror d, sessions := [] }) (modSl (fun l => { l with onL2 := !l.onL2, standbyAlive := false, hwmCopy := l.mirror.hwmCopy, nightDigest := l.mirror.nightDigest, rootDigest := l.mirror.rootDigest, wrapped := l.mirror.wrapped }) s)))))) ∧
  (∀ (b : Fin 128) (word : BitVec 64) (err : BitVec 79) (v : Nat) (held : SramHolds) (s : State),
    decodeSram word err = some (0, v) →
    diePowered s (bankDie b.val) = true →
    unitServes s (368 + bankDie b.val) = true →
    regionPermits s (32 + b.val) .scrub false (smGet 0 s.unit.sramPos b.val / 8) = true →
    failsOwner held = false →
    exec (.sramPatrol b ⟨word, err⟩ held) s = .next (modUnit (fun u => { u with sramPos := smPut 0 u.sramPos b.val (smGet 0 s.unit.sramPos b.val + 1) }) s)) ∧
  (∀ (b : Fin 128) (word : BitVec 64) (err : BitVec 79) (n v : Nat) (held : SramHolds) (s : State),
    decodeSram word err = some (n, v) →
    0 < n →
    diePowered s (bankDie b.val) = true →
    unitServes s (368 + bankDie b.val) = true →
    regionPermits s (32 + b.val) .scrub true (smGet 0 s.unit.sramPos b.val / 8) = true →
    bankDie b.val < 4 →
    failsOwner held = false →
    exec (.sramPatrol b ⟨word, err⟩ held) s = .next (logEvent 1 0xFFFF 0 none (sramRecord s 8 b.val (smGet 0 s.unit.sramPos b.val % 8) n 4) (modUnit (fun u => { u with sramPos := smPut 0 u.sramPos b.val (smGet 0 s.unit.sramPos b.val + 1) }) s))) ∧
  (∀ (b : Fin 128) (word : BitVec 64) (err : BitVec 79) (held : SramHolds) (s : State),
    decodeSram word err = none →
    diePowered s (bankDie b.val) = true →
    unitServes s (368 + bankDie b.val) = true →
    regionPermits s (32 + b.val) .scrub false (smGet 0 s.unit.sramPos b.val / 8) = true →
    bankDie b.val < 4 →
    ((heldDie s held).all (fun d => d == bankDie b.val) = true) →
    exec (.sramPatrol b ⟨word, err⟩ held) s = .next (sramLost held (logEvent 1 0xFFFF 1 none (sramRecord s 9 b.val (smGet 0 s.unit.sramPos b.val % 8) 0 4) (modUnit (fun u => { u with sramPos := smPut 0 u.sramPos b.val (smGet 0 s.unit.sramPos b.val + 1) }) s))))

/-- Seating starts the sequence and unseating ends whatever runs; the debounce, the delay, the MOSFET check and
power good each take it one state on (a failed check latches with cause 8); a sample is stored and runs the
accumulator, and trips above HS_FAST_TRIP or at the budget; a retry starts at the voltage window and is
counted; an hour ON clears the count (15 R377, 15 R378, 15 R379, 15 R380, 15 R382, 15 R383, 15 R384, 15 R385,
15 R386, 15 R391). -/
def Obligations.MainInputAct : Prop :=
  (∀ (s : State),
    s.hs.state = .unseated →
    exec (.seatChange true true) s = .next (bumpHs 0 (modHs (fun h => { h with state := .seating, retries := 0 }) (modHs (fun h => { h with seatA := true, seatB := true }) s)))) ∧
  (∀ (a b : Bool) (s : State),
    (a && b) = false →
    s.hs.state ≠ .unseated →
    s.hs.state ≠ .on →
    s.ps.state ≠ .entering →
    s.ps.state ≠ .night →
    s.ps.state ≠ .off →
    exec (.seatChange a b) s = .next (modHs (fun h => { h with windowReturn := false }) (openMain .unseated (bumpHs 5 (modHs (fun h => { h with seatA := a, seatB := b }) s))))) ∧
  (∀ (s : State),
    s.hs.state = .seating →
    s.hs.seatA = true →
    s.hs.seatB = true →
    s.sl.flashOk = true →
    exec (.hsSeatDebounce) s = .next (modHs (fun h => { h with state := .window }) s)) ∧
  (∀ (vin vmid vout : BitVec 16) (cur : IslandCurrents) (s : State),
    mainGateOn (accumMain cur.other.toNat (opTick (measureMain vin.toNat vmid.toNat vout.toNat cur.active.toNat s))) = false →
    (accumMain cur.other.toNat (opTick (measureMain vin.toNat vmid.toNat vout.toNat cur.active.toNat s))).hs.state = .tripped ∨ (accumMain cur.other.toNat (opTick (measureMain vin.toNat vmid.toNat vout.toNat cur.active.toNat s))).hs.state = .latched ∨ (accumMain cur.other.toNat (opTick (measureMain vin.toNat vmid.toNat vout.toNat cur.active.toNat s))).hs.state = .unseated →
    exec (.mainSample vin vmid vout cur) s = .next (accumMain cur.other.toNat (opTick (measureMain vin.toNat vmid.toNat vout.toNat cur.active.toNat s)))) ∧
  (∀ (vin vmid vout : BitVec 16) (cur : IslandCurrents) (s : State),
    mainGateOn (accumMain cur.other.toNat (opTick (measureMain vin.toNat vmid.toNat vout.toNat cur.active.toNat s))) = true →
    pnum (accumMain cur.other.toNat (opTick (measureMain vin.toNat vmid.toNat vout.toNat cur.active.toNat s))) P.HS_FAST_TRIP < cur.active.toNat →
    exec (.mainSample vin vmid vout cur) s = .next (mainTrip 1 (accumMain cur.other.toNat (opTick (measureMain vin.toNat vmid.toNat vout.toNat cur.active.toNat s))))) ∧
  (∀ (vin vmid vout : BitVec 16) (cur : IslandCurrents) (s : State),
    mainGateOn (accumMain cur.other.toNat (opTick (measureMain vin.toNat vmid.toNat vout.toNat cur.active.toNat s))) = false →
    (accumMain cur.other.toNat (opTick (measureMain vin.toNat vmid.toNat vout.toNat cur.active.toNat s))).hs.state = .window →
    vinInWindow (accumMain cur.other.toNat (opTick (measureMain vin.toNat vmid.toNat vout.toNat cur.active.toNat s))) = true →
    exec (.mainSample vin vmid vout cur) s = .next (modHs (fun h => { h with state := coolingOrDelay (accumMain cur.other.toNat (opTick (measureMain vin.toNat vmid.toNat vout.toNat cur.active.toNat s))), windowReturn := false }) (accumMain cur.other.toNat (opTick (measureMain vin.toNat vmid.toNat vout.toNat cur.active.toNat s))))) ∧
  (∀ (cur : BitVec 32) (s : State),
    mainGateOn s = true →
    pnum s P.HS_FAST_TRIP < cur.toNat →
    exec (.fastTrip cur) s = .next (mainTrip 1 (modHs (fun h => { h with current := cur.toNat, peak := max h.peak cur.toNat }) s))) ∧
  (∀ (s : State),
    s.hs.state = .delay →
    exec (.hsInsertDelay) s = .next (modHs (fun h => { h with state := .check }) s)) ∧
  (∀ (midOff midOn vin rise : BitVec 16) (s : State),
    s.hs.state = .check →
    midOff.toNat < 1000 ∧ vin.toNat < midOn.toNat + 500 ∧ rise.toNat ≤ 500 →
    exec (.mosfetCheck midOff midOn vin rise) s = .next (modHs (fun h => { h with state := .ramp, gateA := true, gateB := true, fltN := false, plimUs := 0, rampUs := 0, rampPlim := pnum s P.HS_FET_PLIM, rampPlimTime := pnum s P.HS_PLIM_TIME, rampTimeout := pnum s P.HS_RAMP_TIMEOUT }) s)) ∧
  (∀ (midOff midOn vin rise : BitVec 16) (s : State),
    s.hs.state = .check →
    ¬(midOff.toNat < 1000 ∧ vin.toNat < midOn.toNat + 500 ∧ rise.toNat ≤ 500) →
    exec (.mosfetCheck midOff midOn vin rise) s = .next (logPlain 13 1 (bumpHs 7 (recordTrip 8 0 s.hs.current (modHs (fun h => { h with state := .latched, gateA := false, gateB := false, tripCause := 8, fltN := true }) s))))) ∧
  (∀ (s : State),
    s.hs.state = .ramp →
    s.sl.thermShutdown = false →
    s.ps.state ≠ .exiting →
    s.sl.resetArmed < 2 →
    exec (.mainPowerGood) s = .next (railsDone (startRails .boot (modSl (fun l => { l with bootStage := .powering }) (modHs (fun h => { h with state := .on, onSince := s.slTime, peak := 0, windowReturn := false }) s))))) ∧
  (∀ (s : State),
    s.hs.state = .ramp →
    s.sl.thermShutdown = false →
    s.ps.state ≠ .exiting →
    2 ≤ s.sl.resetArmed →
    exec (.mainPowerGood) s = .next (deviceReset s.sl.resetArmed (modHs (fun h => { h with state := .on, onSince := s.slTime, peak := 0, windowReturn := false }) s))) ∧
  (∀ (s : State),
    s.hs.state = .tripped →
    s.hs.seatA = true →
    s.hs.seatB = true →
    exec (.hsRetryTime) s = .next (bumpHs 6 (modHs (fun h => { h with state := .window, retries := h.retries + 1 }) s))) ∧
  (∀ (s : State),
    s.hs.state = .on →
    s.hs.onSince + 3600 * 10 ^ 9 ≤ s.slTime →
    exec (.retryCountClear) s = .next (modHs (fun h => { h with retries := 0 }) s))

/-- One branch ramps at a time, in the order of request; power good ends its ramp; a sample is stored and its
cause, if it has one, trips the branch; a branch whose gate is off goes off below 1.0 V, and one that conducts
with its gate off is a FET_FAULT (15 R383, 15 R387, 15 R388, 15 R389, 15 R391). -/
def Obligations.BranchesAct : Prop :=
  (∀ (w : WingId) (s : State),
    s.hs.state = .on →
    someRamping s = false →
    nextRamp s = some w.val →
    exec (.branchRampStart w) s = .next (modBranch w.val (fun b => { b with ramping := true, gate := true }) (modHs (fun h => { h with rampQueue := h.rampQueue.filter (· ≠ w.val) }) s))) ∧
  (∀ (w : WingId) (s : State),
    (branchAt s w.val).ramping = true →
    (wingAt s w.val).state ≠ .reopening →
    exec (.branchPowerGood w) s = .next (modBranch w.val (fun b => { b with state := .on, ramping := false }) s)) ∧
  (∀ (w : WingId) (s : State),
    (branchAt s w.val).ramping = true →
    exec (.branchRampTimeout w) s = .next (branchTripped w.val 4 (branchAt s w.val).current s)) ∧
  (∀ (w : WingId) (vout : BitVec 16) (cur : IslandCurrents) (s : State),
    branchTripCause w.val cur.active.toNat cur.other.toNat (measureBranch w.val vout.toNat cur.active.toNat cur.other.toNat s) = none →
    exec (.branchSample w vout cur) s = .next (measureBranch w.val vout.toNat cur.active.toNat cur.other.toNat s)) ∧
  (∀ (w : WingId) (vout : BitVec 16) (cur : IslandCurrents) (c : Nat) (s : State),
    branchTripCause w.val cur.active.toNat cur.other.toNat (measureBranch w.val vout.toNat cur.active.toNat cur.other.toNat s) = some c →
    exec (.branchSample w vout cur) s = .next (branchTripped w.val c cur.active.toNat (measureBranch w.val vout.toNat cur.active.toNat cur.other.toNat s))) ∧
  (∀ (w : WingId) (cur : BitVec 32) (s : State),
    (branchAt s w.val).gate = true →
    (branchAt s w.val).state ≠ .fetFault →
    pnum s P.BR_FAST_TRIP < cur.toNat →
    exec (.branchTrip w true cur) s = .next (branchTripped w.val 1 cur.toNat (modBranch w.val (fun b => { b with current := cur.toNat }) s))) ∧
  (∀ (w : WingId) (s : State),
    (branchAt s w.val).gate = false →
    (branchAt s w.val).state = .on →
    exec (.branchOff w) s = .next (modBranch w.val (fun b => { b with state := .off }) s)) ∧
  (∀ (w : WingId) (s : State),
    (branchAt s w.val).gate = false →
    (branchAt s w.val).state = .on →
    (wingAt s w.val).state ≠ .shuttering →
    exec (.fetFault w) s = .next (logEvent 13 (96 + w.val) 3 none 0 (bumpHs 7 (modBranch w.val (fun y => { y with state := .fetFault, gate := true }) s))))

/-- A vote moves the target; a target that falls to NIGHT or OFF starts an entry that goes from step to step, is
abandoned by a wake, and ends in the state it entered; a latched wake starts the exit, which ends in RUN or
IDLE; a rail settles or stays at its former step; an idle engine is gated (16 R395, 16 R396, 16 R398, 16 R399,
16 R402, 16 R403, 16 R404, 16 R405, 16 R406, 16 R407, 19 R445). -/
def Obligations.PowerStatesAct : Prop :=
  (∀ (v : Fin 4) (s : State),
    exec (.voteChange (.steward v)) s = .next (psRecompute 8 (modPs (fun p => { p with steward := v.val }) s))) ∧
  (∀ (v : Fin 4) (s : State),
    exec (.voteChange (.keeper v)) s = .next (psRecompute 8 (modPs (fun p => { p with keeper := v.val }) s))) ∧
  (∀ (s : State),
    voteTarget s = 1 →
    mayEnter s = true →
    exec (.nightEntry) s = .next (psEnter .entering (armTimer (modPs (fun p => { p with entryStep := 1, entryToOff := false, abort := none, latchedWake := none, target := 1 }) s)))) ∧
  (∀ (s : State),
    voteTarget s = 0 →
    mayEnter s = true →
    exec (.offEntry) s = .next (psEnter .entering (armTimer (modPs (fun p => { p with entryStep := 1, entryToOff := true, abort := none, latchedWake := none, target := 0 }) s)))) ∧
  (∀ (s : State),
    s.ps.state = .entering →
    s.ps.entryStep = 1 →
    s.ps.abort = none →
    voteTarget s < 2 →
    exec (.nightEntryAdvance) s = .next (entryBegin 2 (modPs (fun p => { p with entryStep := 2 }) s))) ∧
  (∀ (src : Nat) (s : State),
    s.ps.state = .entering →
    s.ps.entryStep = 2 →
    s.ps.abort = some src →
    exec (.nightEntryAdvance) s = .next (entryAbandon 2 src s)) ∧
  (∀ (s : State),
    s.ps.state = .entering →
    s.ps.entryStep = 7 →
    exec (.nightEntryAdvance) s = .next (entryEnds s)) ∧
  (∀ (src : Nat) (s : State),
    s.ps.state = .night →
    s.ps.latchedWake = some src →
    exec (.nightExit) s = .next (psEnter .exiting (modPs (fun p => { p with exitStep := 1, exitFromOff := false }) (bumpPs 2 (recordWake src 0 (modPs (fun p => { p with wakeHold := true, timerEnd := none, latchedWake := none }) s)))))) ∧
  (∀ (s : State),
    s.ps.state = .exiting →
    s.ps.exitStep = 1 →
    s.ps.exitFromOff = false →
    exec (.nightExitAdvance) s = .next (startRails .exit (modPs (fun p => { p with exitStep := 2 }) s))) ∧
  (∀ (s : State),
    s.ps.state = .exiting →
    s.ps.exitStep = 3 →
    exec (.nightExitAdvance) s = .next (linksReset 6 (modPs (fun p => { p with exitStep := 4 }) s))) ∧
  (∀ (s : State),
    s.ps.timerEnd.isSome = true →
    exec (.wakeTimer) s = .next (wake 3 (modPs (fun p => { p with timerEnd := none }) s))) ∧
  (∀ (s : State),
    s.ps.wakeHold = true →
    exec (.wakeHoldExpire) s = .next (psRecompute 8 (modPs (fun p => { p with wakeHold := false }) s))) ∧
  (∀ (s : State),
    hsAlertLevel s = true →
    exec (.hsAlert) s = .next (wake 6 s)) ∧
  (∀ (u : UnitId) (s : State),
    112 ≤ u.val →
    u.val < 272 →
    s.ps.state = .idle →
    s.ps.gated.contains u.val = false →
    (s.tier.moves.all (fun e => e.2.engine != some u.val) = true) →
    exec (.engineGate u) s = .next (modPs (fun p => { p with gated := p.gated ++ [u.val] }) s)) ∧
  (∀ (w : WingId) (s : State),
    exec (.selfRefreshEntry w) s = .next (wingSelfRefresh w.val s)) ∧
  (∀ (d : DieId) (s : State),
    exec (.railSettled d) s = .next (modPs (fun p => { p with moving := smPut none p.moving d.val none }) s)) ∧
  (∀ (d : DieId) (old : Nat) (s : State),
    smGet none s.ps.moving d.val = some old →
    exec (.railSettleTimeout d) s = .next (logPlain 13 1 (putParam 0 (P.PS_VCORE + d.val) old s)))

/-- A call of a running core is queued for Keeper, which answers the oldest; a core whose watchdog expires
restarts alone and is measured again; a trigger restarts Keeper, or halts it once the restarts of an hour
reach the limit; Keeper resumes with its image measured; a debug access is admitted by the enables and the
life cycle, and an invasive one halts Keeper (13 R337, 13 R339, 13 R340, 13 R341, 13 R348). -/
def Obligations.WorldsAct : Prop :=
  (∀ (core : Fin 8) (req : List Byte) (s : State),
    s.world.stewardUp.getLsbD core.val = true →
    (s.world.calls.any (fun c => c.core == core.val && !c.abandoned) = false) →
    keeperStatus s = none →
    exec (.worldCall core req) s = .next (bufferStore .steward core.val (fit 0#8 256 req) (modWorld (fun w => { w with calls := callPut { core := core.val, req := fit 0#8 256 req, since := dieTime s 1 } w.calls }) s))) ∧
  (∀ (core : Fin 8) (req : List Byte) (st : Nat) (s : State),
    s.world.stewardUp.getLsbD core.val = true →
    (s.world.calls.any (fun c => c.core == core.val && !c.abandoned) = false) →
    keeperStatus s = some st →
    exec (.worldCall core req) s = .next (emit (.worldReply core.val 2 []) s)) ∧
  (∀ (answer : List Byte) (c : WorldCall) (rest : List WorldCall) (s : State),
    keeperStatus s = none →
    s.world.calls = c :: rest →
    c.abandoned = false →
    exec (.worldCallReply answer) s = .next (let q := bufferLoad .steward c.core c.core (bufferStore .keeper c.core (fit 0#8 256 answer) (bufferLoad .keeper 8 c.core (modWorld (fun w => { w with calls := rest }) s)).2); match q.1 with | some b => emit (.worldReply c.core 0 b) q.2 | none => q.2)) ∧
  (∀ (core : Fin 8) (s : State),
    s.world.stewardUp.getLsbD core.val = true →
    exec (.stewardWdog core) s = .next (coreZero core.val (dropSession (.steward core) (modWorld (fun w => { w with stewardUp := setBit8 w.stewardUp core.val false, stewardRestarting := setBit8 w.stewardRestarting core.val true, calls := dropCalls core.val w.calls }) s)))) ∧
  (∀ (core : Fin 8) (img : FwSlots) (d : BitVec 384) (s : State),
    verified s img = some d →
    s.world.stewardRestarting.getLsbD core.val = true →
    exec (.stewardCoreRestartDone core img) s = .next (modWorld (fun w => { w with stewardUp := setBit8 w.stewardUp core.val true }) (measExtend 2 (digestBytes 48 d) (modWorld (fun w => { w with stewardRestarting := setBit8 w.stewardRestarting core.val false }) s)))) ∧
  (∀ (s : State),
    s.world.keeper = .running →
    s.world.keeperUp = true →
    restartsInHour s < pnum s P.KEEPER_RESTART_LIMIT →
    s.world.debugHalt = false →
    exec (.keeperWdog) s = .next (keeperZero (callsBusy (dropSession .keeper (keeperUnheard (modWorld (fun w => { w with keeper := .restarting, keeperUp := false, debugHalt := false, restartCause := 1, restartTimes := dieTime s 1 :: w.restartTimes.filter fun t => decide (dieTime s 1 < t + 3600 * 10 ^ 9), spdm := [] }) (s))))))) ∧
  (∀ (s : State),
    s.world.keeper = .running →
    s.world.keeperUp = true →
    restartsInHour s < pnum s P.KEEPER_RESTART_LIMIT →
    exec (.lockstepMismatch) s = .next (keeperZero (callsBusy (dropSession .keeper (keeperUnheard (modWorld (fun w => { w with keeper := .restarting, keeperUp := false, debugHalt := false, restartCause := 2, restartTimes := dieTime s 1 :: w.restartTimes.filter fun t => decide (dieTime s 1 < t + 3600 * 10 ^ 9), spdm := [] }) (s))))))) ∧
  (∀ (s : State),
    s.world.keeper = .running →
    s.world.keeperUp = true →
    restartsInHour s < pnum s P.KEEPER_RESTART_LIMIT →
    exec (.uncorrectableInstructionFetch) s = .next (keeperZero (callsBusy (dropSession .keeper (keeperUnheard (modWorld (fun w => { w with keeper := .restarting, keeperUp := false, debugHalt := false, restartCause := 3, restartTimes := dieTime s 1 :: w.restartTimes.filter fun t => decide (dieTime s 1 < t + 3600 * 10 ^ 9), spdm := [] }) (logEvent 1 0xFFFF 1 none (sramRecord s 9 (110 + Config.freeBits s.fresh % 2) (Config.freeBits (s.fresh + 1) % 8) 0 7) (afterDraw (afterDraw s))))))))) ∧
  (∀ (s : State),
    s.world.keeper = .running →
    s.world.keeperUp = true →
    pnum s P.KEEPER_RESTART_LIMIT ≤ restartsInHour s →
    exec (.lockstepMismatch) s = .next (keeperHalt s)) ∧
  (∀ (img : FwSlots) (d : BitVec 384) (s : State),
    verified s img = some d →
    s.world.keeper = .restarting →
    exec (.keeperResume img) s = .next (keysReissued (modWorld (fun w => { w with keeper := .running, keeperUp := true, keyReissue := true, restarts := satAdd 32 w.restarts 1 }) (measExtend 4 (sha384 (restartRecord s)) (measExtend 1 (digestBytes 48 d) (measZero 1 s)))))) ∧
  (∀ (img : FwSlots) (s : State),
    verified s img = none →
    s.world.keeper = .restarting →
    exec (.keeperResume img) s = .next (keeperHalt s)) ∧
  (∀ (t : DebugTarget) (s : State),
    debugAdmits s t = false →
    exec (.debugAccess t) s = .next (emit (.debug false) s)) ∧
  (∀ (s : State),
    debugAdmits s .keeperInvasive = true →
    exec (.debugAccess .keeperInvasive) s = .next (emit (.debug true) (modWorld (fun w => { w with debugHalt := true }) s))) ∧
  (∀ (s : State),
    debugAdmits s .keeperRun = true →
    exec (.debugAccess .keeperRun) s = .next (emit (.debug true) (modWorld (fun w => { w with debugHalt := false }) s))) ∧
  (∀ (t : DebugTarget) (s : State),
    debugAdmits s t = true →
    t ∈ [DebugTarget.idcode, .stewardTrace, .stewardInvasive, .keeperTrace] →
    exec (.debugAccess t) s = .next (emit (.debug true) s)) ∧
  (∀ (a : Fin 98304) (s : State),
    debugAdmits s (.stewardMemory a none) = true →
    diePowered s (bankDie (memBank a.val).1) = true →
    regionPermits s (32 + (memBank a.val).1) .debug false (memBank a.val).2 = true →
    exec (.debugAccess (.stewardMemory a none)) s = .next (emit (.debugLine (l2Access false a.val none s).1) (emit (.debug true) (l2Access false a.val none s).2))) ∧
  (∀ (a : Fin 16384) (v : Line) (s : State),
    debugAdmits s (.keeperMemory a (some v)) = true →
    diePowered s (bankDie (memBank (keeperLines + a.val)).1) = true →
    regionPermits s (32 + (memBank (keeperLines + a.val)).1) .debug true (memBank (keeperLines + a.val)).2 = true →
    exec (.debugAccess (.keeperMemory a (some v))) s = .next (emit (.debug true) (l2Access true (keeperLines + a.val) (some v) s).2))

/-- A key message that authenticates installs the secret on its die, and the last one ends KEY_CMD; a re-key
engine passes the next page of its die, giving it the next epoch; past the last page the next secret becomes
the present one; SPDM requests go to Keeper, and a stream's keys are programmed, started, stopped, and zeroed
when a check fails (07 R180, 07 R181, 07 R202, 07 R204, 07 R205, 07 R207, 07 R208). -/
def Obligations.KeysAndStreamsAct : Prop :=
  (∀ (d : MemDie) (err : BitVec 384) (j : KeyJob) (v : BitVec 256) (s : State),
    (s.prot.jobs.find? (fun x => x.left.contains d.val) = some j) →
    keyReceived (j.lodging % 4) d.val j.secret err s = some v →
    j.left.filter (· ≠ d.val) = [] →
    j.op = 1 →
    s.world.keyReissue = false →
    exec (.keyTransport d err) s = .next (cmdEnd 0 P.KEY_CMD 0 0 (modProt (fun p => { p with messages := bump 64 p.messages (j.lodging % 4) 1, secrets := smSet p.secrets (4096 * d.val + j.lodging) v, jobs := p.jobs.erase j }) s))) ∧
  (∀ (d : MemDie) (err : BitVec 384) (j : KeyJob) (s : State),
    (s.prot.jobs.find? (fun x => x.left.contains d.val) = some j) →
    keyReceived (j.lodging % 4) d.val j.secret err s = none →
    exec (.keyTransport d err) s = .next (modProt (fun p => { p with messages := bump 64 p.messages (j.lodging % 4) 1 }) s)) ∧
  (∀ (d : MemDie) (n : LodgeId) (r : Rekey) (p : Nat) (x : Desc) (s1 : State) (s : State),
    s.ps.state ≠ .night →
    s.ps.state ≠ .off →
    smFind s.prot.rekeys n.val = some r →
    p = homedFrom n.val d.val (smGet 0 r.bounds d.val) →
    r.asked = false →
    lodgeLive s n.val = true →
    rekeyOpen s d.val n.val = true →
    (smFind s.prot.tslots (4 * d.val + r.slot)).isSome = true →
    (s.prot.jobs.any (fun j => j.op == 3 && j.lodging == n.val) = false) →
    p < lodgeSize s n.val * 65536 →
    checkedDesc n.val p s = some (x, s1) →
    x.state ≠ .moving →
    smFind r.asking d.val ≠ some p →
    pageSnooped s1 n.val p = false →
    linesAsked s1 n.val p = [] →
    paceOpen s1 d.val = true →
    pageStopped s1 n.val p = false →
    x.state = .zero →
    exec (.rekeyVisit d n) s = .next (rekeyPassed n.val (homeDie n.val p) p x s1)) ∧
  (∀ (d : MemDie) (n : LodgeId) (r : Rekey) (p : Nat) (x : Desc) (s1 : State) (s : State),
    s.ps.state ≠ .night →
    s.ps.state ≠ .off →
    smFind s.prot.rekeys n.val = some r →
    p = homedFrom n.val d.val (smGet 0 r.bounds d.val) →
    r.asked = false →
    lodgeLive s n.val = true →
    rekeyOpen s d.val n.val = true →
    (smFind s.prot.tslots (4 * d.val + r.slot)).isSome = true →
    (s.prot.jobs.any (fun j => j.op == 3 && j.lodging == n.val) = false) →
    p < lodgeSize s n.val * 65536 →
    checkedDesc n.val p s = some (x, s1) →
    x.state ≠ .moving →
    smFind r.asking d.val ≠ some p →
    pageSnooped s1 n.val p = false →
    linesAsked s1 n.val p = [] →
    paceOpen s1 d.val = true →
    pageStopped s1 n.val p = false →
    x.state = .plain →
    exec (.rekeyVisit d n) s = .next (rekeyFrame n.val p x s1)) ∧
  (∀ (p : PortId) (req : List Byte) (s : State),
    portRole s p.val = 1 →
    keeperStatus s = none →
    s.world.spdm.contains p.val = false →
    exec (.spdmRequest p req true) s = .next (emit (.mailbox p.val 0 (spdmAnswer req s)) (afterDraw (modWorld (fun w => { w with spdm := w.spdm ++ [p.val] }) s)))) ∧
  (∀ (p : PortId) (req : List Byte) (s : State),
    portRole s p.val = 2 →
    keeperStatus s = none →
    s.world.spdm.contains p.val = false →
    exec (.spdmRequest p req true) s = .next (modWorld (fun w => { w with spdm := w.spdm ++ [p.val] }) s)) ∧
  (∀ (p : PortId) (req : List Byte) (opens : Bool) (st : Nat) (s : State),
    portRole s p.val = 1 →
    keeperStatus s = some st →
    exec (.spdmRequest p req opens) s = .next (emit (.mailbox p.val 2 []) s)) ∧
  (∀ (p : PortId) (i : Fin 9) (set : Fin 2) (slot : Fin 6) (key : BitVec 256) (s : State),
    keeperStatus s = none →
    s.world.spdm.contains p.val = true →
    ideHas s p.val i.val = true →
    slot.val < ideSlots i.val →
    (ideAt s p.val i.val).state ≠ IdeState.secure →
    exec (.ideKm p i 0 set slot key) s = .next (modProt (fun x => { x with ide := smMod ({} : IdeStream) x.ide (16 * p.val + i.val) fun (e : IdeStream) => { e with keys := smSet e.keys (16 * set.val + slot.val) key, state := if e.state = IdeState.secure then IdeState.secure else IdeState.keyed } }) s)) ∧
  (∀ (p : PortId) (i : Fin 9) (set : Fin 2) (slot : Fin 6) (key : BitVec 256) (s : State),
    keeperStatus s = none →
    s.world.spdm.contains p.val = true →
    ideHas s p.val i.val = true →
    ((ideAt s p.val i.val).keys.any (fun k => k.1 / 16 == set.val) = true) →
    exec (.ideKm p i 1 set slot key) s = .next (modProt (fun x => { x with ide := smMod ({} : IdeStream) x.ide (16 * p.val + i.val) fun (e : IdeStream) => if e.keys.any (fun k => k.1 / 16 == set.val) then { e with state := IdeState.secure, keySet := set.val } else e }) s)) ∧
  (∀ (p : PortId) (i : Fin 9) (set : Fin 2) (slot : Fin 6) (key : BitVec 256) (s : State),
    keeperStatus s = none →
    s.world.spdm.contains p.val = true →
    ideHas s p.val i.val = true →
    exec (.ideKm p i 2 set slot key) s = .next (modProt (fun x => { x with ide := smMod ({} : IdeStream) x.ide (16 * p.val + i.val) fun (_ : IdeStream) => ({} : IdeStream) }) s)) ∧
  (∀ (n : LodgeId) (r : Rekey) (s : State),
    smFind s.prot.rekeys n.val = some r →
    rekeyOver s n.val r = true →
    lodgeLive s n.val = true →
    dictsOf s n.val = [] →
    exec (.rekeyFinish n) s = .next (cmdEnd 0 (P.REKEY_REQUEST + 256 * n.val) 0 0 (modProt (fun q => { q with secrets := (below 4).foldl (fun m d => match smFind q.tslots (4 * d + r.slot) with | some t => if t.lodging = n.val then smSet m (4096 * d + n.val) t.secret else m | none => m) q.secrets, tslots := smFilter (fun _ t => t.lodging != n.val) q.tslots, epoch := smPut 0 q.epoch n.val (keyEpoch s n.val + 1), rekeys := smErase q.rekeys n.val }) s)))

/-- A link comes up at a width and rate its port allows, or retrains; going down ends its traffic by its role; a
host's resets reset its virtual switch and the IME views; slot power takes a managed unbind; a snoop
unanswered in time, or a flit that fails its check, takes the link down; an absent port is scanned and then
dead (07 R209, 08 R220, 08 R234, 08 R235, 09 R242, 09 R250, 09 R258, 09 R260, 09 R261, 09 R262, 19 R440). -/
def Obligations.PortEventsAct : Prop :=
  (∀ (p : PortId) (width : Fin 17) (rate : Fin 7) (s : State),
    lcState s ≠ 4 →
    width.val ∈ [1, 2, 4, 8, 16] →
    width.val ≤ portLanes s p.val →
    1 ≤ rate.val →
    rate.val ≤ pnum s (P.PORT_MAX_RATE + 256 * p.val) →
    rate.val ≤ pnum s (P.PS_SERDES_CAP + p.val / 16) →
    portRole s p.val ≠ 0 →
    (portAt s p.val).perstOut = false →
    unitServes s p.val = true →
    (portAt s p.val).link = .up →
    exec (.linkUp p width rate) s = .next (recomputeD (modPortAt p.val (fun y => { y with width := width.val, rate := rate.val }) s))) ∧
  (∀ (p : PortId) (width : Fin 17) (rate : Fin 7) (s : State),
    lcState s ≠ 4 →
    width.val ∈ [1, 2, 4, 8, 16] →
    width.val ≤ portLanes s p.val →
    1 ≤ rate.val →
    rate.val ≤ pnum s (P.PORT_MAX_RATE + 256 * p.val) →
    rate.val ≤ pnum s (P.PS_SERDES_CAP + p.val / 16) →
    portRole s p.val ≠ 0 →
    (portAt s p.val).perstOut = false →
    unitServes s p.val = true →
    (portAt s p.val).link = .training →
    s.coh.absent.contains p.val = false →
    s.coh.dying.contains p.val = false →
    portRole s p.val = 1 →
    exec (.linkUp p width rate) s = .next (recomputeD (modPortAt p.val (fun y => { y with link := .up, width := width.val, rate := rate.val, inL1 := false, dpc := false, linkCounts := bump 64 y.linkCounts 0 1 }) s))) ∧
  (∀ (p : PortId) (width : Fin 17) (rate : Fin 7) (s : State),
    lcState s ≠ 4 →
    width.val ∈ [1, 2, 4, 8, 16] →
    width.val ≤ portLanes s p.val →
    1 ≤ rate.val →
    rate.val ≤ pnum s (P.PORT_MAX_RATE + 256 * p.val) →
    rate.val ≤ pnum s (P.PS_SERDES_CAP + p.val / 16) →
    portRole s p.val ≠ 0 →
    (portAt s p.val).perstOut = false →
    unitServes s p.val = true →
    (portAt s p.val).link = .down →
    s.coh.absent.contains p.val = false →
    s.coh.dying.contains p.val = false →
    portRole s p.val = 1 →
    exec (.linkUp p width rate) s = .next (recomputeD (modPortAt p.val (fun y => { y with link := .up, width := width.val, rate := rate.val, inL1 := false, dpc := false, linkCounts := bump 64 y.linkCounts 0 1 }) (portVotesRun s)))) ∧
  (∀ (p : PortId) (width : Fin 17) (rate : Fin 7) (b : Nat × Nat) (s : State),
    lcState s ≠ 4 →
    width.val ∈ [1, 2, 4, 8, 16] →
    width.val ≤ portLanes s p.val →
    1 ≤ rate.val →
    rate.val ≤ pnum s (P.PORT_MAX_RATE + 256 * p.val) →
    rate.val ≤ pnum s (P.PS_SERDES_CAP + p.val / 16) →
    portRole s p.val ≠ 0 →
    (portAt s p.val).perstOut = false →
    unitServes s p.val = true →
    (portAt s p.val).link = .training →
    s.coh.absent.contains p.val = false →
    s.coh.dying.contains p.val = false →
    portRole s p.val = 2 →
    (s.sw.vcs.find? (fun e => e.2 == p.val) = some b) →
    exec (.linkUp p width rate) s = .next (recomputeD (vppbTell (b.1 / 32) (b.1 % 32) 1 (modPortAt p.val (fun y => { y with link := .up, width := width.val, rate := rate.val, inL1 := false, dpc := false, linkCounts := bump 64 y.linkCounts 0 1 }) s)))) ∧
  (∀ (p : PortId) (s : State),
    (portAt s p.val).link = .up →
    portRole s p.val = 1 →
    exec (.linkDown p) s = .next (recomputeD (queuesDown p.val (portAbsent p.val (flushEgress p.val (modSw (fun w => { w with routed := w.routed.filter fun (q : Nat × Nat × Nat × Nat) => !(q.1 == p.val || q.2.1 == p.val) }) (linkGone p.val s))))))) ∧
  (∀ (p : PortId) (s : State),
    (portAt s p.val).link = .up →
    portRole s p.val = 2 →
    exec (.linkDown p) s = .next (recomputeD (armedTake p.val (dspTrafficEnds p.val (linkGone p.val s))))) ∧
  (∀ (p : PortId) (s : State),
    (portAt s p.val).link = .training →
    exec (.linkDown p) s = .next (modPortAt p.val (fun x => { x with link := .down }) s)) ∧
  (∀ (p : PortId) (s : State),
    portRole s p.val = 1 →
    exec (.hostHotReset p) s = .next ((let s1 := viewReset p.val (modPortAt p.val (fun x => { x with hdmA := [], hdmB := [] }) (portGoesDown p.val s)); forAll ((s1.sw.vcs.filter fun (e : Nat × Nat) => decide (e.1 / 32 = p.val ∧ e.2 < 64)).map Prod.snd) portGoesDown s1))) ∧
  (∀ (p : PortId) (s : State),
    portRole s p.val = 1 →
    exec (.portPerstN p) s = .next ((let s1 := viewReset p.val (modPortAt p.val (fun x => { x with hdmA := [], hdmB := [] }) (portGoesDown p.val s)); forAll ((s1.sw.vcs.filter fun (e : Nat × Nat) => decide (e.1 / 32 = p.val ∧ e.2 < 64)).map Prod.snd) portGoesDown s1))) ∧
  (∀ (p : PortId) (b : Fin 32) (s : State),
    vppb s p.val b.val < 64 →
    exec (.secondaryBusReset p b) s = .next (portGoesDown (vppb s p.val b.val) s)) ∧
  (∀ (p : PortId) (b : Fin 32) (s : State),
    vppb s p.val b.val = 0x40 →
    exec (.secondaryBusReset p b) s = .next (viewReset p.val s)) ∧
  (∀ (p : PortId) (s : State),
    portRole s p.val = 1 →
    exec (.flr p) s = .next (viewReset p.val s)) ∧
  (∀ (p : PortId) (b : Fin 32) (t : Nat) (s : State),
    smFind s.sw.armed (32 * p.val + b.val) = some (3, t) →
    exec (.slotPowerOff p b) s = .next (unbindNow p.val b.val s)) ∧
  (∀ (p : PortId) (x : Tx) (s : State),
    (s.coh.txs.find? (fun t => t.left.contains p.val) = some x) →
    portUp s p.val = true →
    exec (.biTimeout p) s = .next (portGoesDown p.val (logEvent 8 p.val 1 none 0 (bumpCoh (x.slice / 16) 3 1 s)))) ∧
  (∀ (p : PortId) (i : Fin 9) (s : State),
    portUp s p.val = true →
    exec (.ideCheckFail p i) s = .next (portGoesDown p.val (modPortAt p.val (fun x => { x with linkCounts := bump 64 x.linkCounts 5 1 }) (ideInsecure p.val i.val s)))) ∧
  (∀ (p : PortId) (s : State),
    s.coh.absent.contains p.val = true →
    exec (.absenceTimeout p) s = .next (modCoh (fun c => { c with absent := c.absent.filter (· ≠ p.val), dying := c.dying ++ [p.val] }) s)) ∧
  (∀ (p : PortId) (s : State),
    s.coh.dying.contains p.val = true →
    exec (.deadAgentScanDone p) s = .next (deadAgent p.val false s))

/-- A request of a host whose two decoders find the same line of a lodging, that passes the port's checks and
waits for nothing, is performed; one that decodes to no line is refused as Table 14.9 says; one that decodes
to a bound downstream port is routed to it (01 R26, 01 R27, 01 R28, 03 R60, 03 R66, 03 R67, 08 R215, 08 R217,
09 R246). -/
def Obligations.HostRequestsAreServed : Prop :=
  (∀ (p : PortId) (hpa : BitVec 52) (tag : BitVec 16) (grant : Fin 3) (n page i dpa gen : Nat) (s : State),
    let u := portActivity p.val s
    let r := lineReq 0 p.val tag.toNat n page i dpa (.read grant.val true) u
    let v := xidTaken p.val u
    hostOpen p u = true →
    hostHit u p.val hpa.toNat = some (.line n page i dpa gen) →
    portPasses 0 p.val n gen u = true →
    atOnce r v = true →
    exec (.memrd p hpa tag grant) s = .next (served r v)) ∧
  (∀ (p : PortId) (hpa : BitVec 52) (tag : BitVec 16) (grant : Fin 3) (n page i dpa gen : Nat) (s : State),
    let u := portActivity p.val s
    let r := lineReq 0 p.val tag.toNat n page i dpa (.read grant.val false) u
    let v := xidTaken p.val u
    hostOpen p u = true →
    hostHit u p.val hpa.toNat = some (.line n page i dpa gen) →
    portPasses 0 p.val n gen u = true →
    atOnce r v = true →
    exec (.meminv p hpa tag grant) s = .next (served r v)) ∧
  (∀ (p : PortId) (hpa : BitVec 52) (tag : BitVec 16) (grant : Fin 3) (data : Line) (n page i dpa gen : Nat) (s : State),
    let u := portActivity p.val s
    let r := lineReq 0 p.val tag.toNat n page i dpa (.write grant.val data (BitVec.allOnes 64)) u
    let v := xidTaken p.val u
    hostOpen p u = true →
    hostHit u p.val hpa.toNat = some (.line n page i dpa gen) →
    portPasses 0 p.val n gen u = true →
    atOnce r v = true →
    exec (.memwr p hpa tag grant data) s = .next (served r v)) ∧
  (∀ (p : PortId) (hpa : BitVec 52) (tag : BitVec 16) (grant : Fin 3) (data : Line) (mask : BitVec 64) (n page i dpa gen : Nat) (s : State),
    let u := portActivity p.val s
    let r := lineReq 0 p.val tag.toNat n page i dpa (.write grant.val data mask) u
    let v := xidTaken p.val u
    hostOpen p u = true →
    hostHit u p.val hpa.toNat = some (.line n page i dpa gen) →
    portPasses 0 p.val n gen u = true →
    atOnce r v = true →
    exec (.memwrptl p hpa tag grant data mask) s = .next (served r v)) ∧
  (∀ (p : PortId) (hpa : BitVec 52) (tag : BitVec 16) (n page i dpa gen : Nat) (s : State),
    let u := portActivity p.val s
    let r := lineReq 0 p.val tag.toNat n page i dpa (.evict) u
    let v := xidTaken p.val u
    hostOpen p u = true →
    hostHit u p.val hpa.toNat = some (.line n page i dpa gen) →
    portPasses 0 p.val n gen u = true →
    atOnce r v = true →
    exec (.memclnevct p hpa tag) s = .next (served r v)) ∧
  (∀ (p : PortId) (hpa : BitVec 52) (tag : BitVec 16) (grant : Fin 3) (s : State),
    let u := portActivity p.val s
    hostOpen p u = true →
    hostHit u p.val hpa.toNat = some .miss →
    exec (.memrd p hpa tag grant) s = .next (refuseReq 4 (bareReq u 0 p.val tag.toNat hpa.toNat (.read grant.val true)) u)) ∧
  (∀ (p : PortId) (hpa : BitVec 52) (tag : BitVec 16) (grant : Fin 3) (s : State),
    let u := portActivity p.val s
    hostOpen p u = true →
    hostHit u p.val hpa.toNat = none →
    exec (.memrd p hpa tag grant) s = .next (refuseReq 4 (bareReq u 0 p.val tag.toNat hpa.toNat (.read grant.val true)) (unitSuspect p.val (p.val / 16) u))) ∧
  (∀ (p : PortId) (hpa : BitVec 52) (tag : BitVec 16) (grant : Fin 3) (data : Line) (q : Nat) (s : State),
    let u := portActivity p.val s
    hostOpen p u = true →
    hostHit u p.val hpa.toNat = some (.dsp q) →
    exec (.memwr p hpa tag grant data) s = .next (routeMem p.val q 1 tag.toNat (leBytes 64 data.toNat) u))

/-- An AtomicOp of a supported size, aligned, on a line that waits for nothing, is performed; one of another size
is malformed and logged; a downstream device's request takes one part per line; a BIRsp to the line's open
snoop closes it, a BIConflict is acknowledged; a resident line cools; a stalled write and a waiting request
resume (03 R79, 08 R215, 08 R219, 08 R221, 08 R226, 08 R227, 08 R228, 09 R247, 10 R275). -/
def Obligations.AtomicsAndSnoopAnswersAct : Prop :=
  (∀ (p : PortId) (dpa : BitVec 47) (tag : BitVec 16) (size : BitVec 8) (operand : BitVec 128) (n page i a gen : Nat) (s : State),
    let u := portActivity p.val s
    let r := lineReq 0 p.val tag.toNat n page i a (.atomic 0 (dpa.toNat % 64) size.toNat operand.toNat 0) u
    let v := xidTaken p.val u
    portUp u p.val = true →
    portRole u p.val = 1 →
    memoryClosed u p.val = false →
    imeBound u p.val = true →
    atomicSize 0 size.toNat = true →
    dpa.toNat % size.toNat = 0 →
    dpaHit u p.val dpa.toNat = some (.line n page i a gen) →
    a = dpa.toNat →
    portPasses 0 p.val n gen u = true →
    atOnce r v = true →
    exec (.fetchAdd p dpa tag size operand) s = .next (served r v)) ∧
  (∀ (p : PortId) (dpa : BitVec 47) (tag : BitVec 16) (size : BitVec 8) (operand : BitVec 128) (n page i a gen : Nat) (s : State),
    let u := portActivity p.val s
    let r := lineReq 0 p.val tag.toNat n page i a (.atomic 1 (dpa.toNat % 64) size.toNat operand.toNat 0) u
    let v := xidTaken p.val u
    portUp u p.val = true →
    portRole u p.val = 1 →
    memoryClosed u p.val = false →
    imeBound u p.val = true →
    atomicSize 1 size.toNat = true →
    dpa.toNat % size.toNat = 0 →
    dpaHit u p.val dpa.toNat = some (.line n page i a gen) →
    a = dpa.toNat →
    portPasses 0 p.val n gen u = true →
    atOnce r v = true →
    exec (.atomSwap p dpa tag size operand) s = .next (served r v)) ∧
  (∀ (p : PortId) (dpa : BitVec 47) (tag : BitVec 16) (size : BitVec 8) (operand compare : BitVec 128) (n page i a gen : Nat) (s : State),
    let u := portActivity p.val s
    let r := lineReq 0 p.val tag.toNat n page i a (.atomic 2 (dpa.toNat % 64) size.toNat operand.toNat compare.toNat) u
    let v := xidTaken p.val u
    portUp u p.val = true →
    portRole u p.val = 1 →
    memoryClosed u p.val = false →
    imeBound u p.val = true →
    atomicSize 2 size.toNat = true →
    dpa.toNat % size.toNat = 0 →
    dpaHit u p.val dpa.toNat = some (.line n page i a gen) →
    a = dpa.toNat →
    portPasses 0 p.val n gen u = true →
    atOnce r v = true →
    exec (.atomCas p dpa tag size operand compare) s = .next (served r v)) ∧
  (∀ (p : PortId) (dpa : BitVec 47) (tag : BitVec 16) (size : BitVec 8) (operand : BitVec 128) (s : State),
    let u := portActivity p.val s
    portUp u p.val = true →
    portRole u p.val = 1 ∨ portRole u p.val = 2 →
    memoryClosed u p.val = false →
    atomicSize 0 size.toNat = false →
    exec (.fetchAdd p dpa tag size operand) s = .next (logEvent 10 p.val 1 none 0 u)) ∧
  (∀ (d : PortId) (dpa : BitVec 47) (tag : BitVec 16) (len : BitVec 13) (v : Nat) (s : State),
    let u := portActivity d.val s
    let lines := (dpa.toNat % 64 + len.toNat + 63) / 64
    portUp u d.val = true →
    portRole u d.val = 2 →
    vcsOf u d.val = some v →
    memoryClosed u d.val = false →
    imeBound u v = true →
    pnum u (P.DSP_P2P + 256 * d.val) = 1 →
    len ≠ 0#13 →
    exec (.dspBar2Request d dpa tag (.read len)) s = .next (forAll (below lines) (fun k t => portRequest 1 d.val tag.toNat k (.read 0 true) (dpaHit t v ((dpa.toNat / 64 + k) * 64)) ((dpa.toNat / 64 + k) * 64) t) (modCoh (fun c => { c with gathers := c.gathers ++ [(⟨d.val, tag.toNat, lines, true, [], gatherTag u d.val v dpa.toNat⟩ : Gather)] }) u))) ∧
  (∀ (d : PortId) (dpa : BitVec 47) (tag : BitVec 16) (bytes : List Byte) (v : Nat) (s : State),
    let u := portActivity d.val s
    let lines := (dpa.toNat % 64 + bytes.length + 63) / 64
    portUp u d.val = true →
    portRole u d.val = 2 →
    vcsOf u d.val = some v →
    memoryClosed u d.val = false →
    imeBound u v = true →
    pnum u (P.DSP_P2P + 256 * d.val) = 1 →
    bytes ≠ [] →
    exec (.dspBar2Request d dpa tag (.write bytes)) s = .next (forAll (below lines) (fun k t => portRequest 1 d.val tag.toNat k (.write 0 (linePart (dpa.toNat % 64) bytes k).1 (linePart (dpa.toNat % 64) bytes k).2) (dpaHit t v ((dpa.toNat / 64 + k) * 64)) ((dpa.toNat / 64 + k) * 64) t) (modCoh (fun c => { c with gathers := c.gathers ++ [(⟨d.val, tag.toNat, lines, false, [], gatherTag u d.val v dpa.toNat⟩ : Gather)] }) u))) ∧
  (∀ (p : PortId) (n : LodgeId) (page : BitVec 34) (line : Fin 64) (rsp : Fin 3) (x : Tx) (s : State),
    let u := portActivity p.val s
    portUp u p.val = true →
    txOn u (homeSlice n.val page.toNat) (lineKey n.val page.toNat line.val) = some x →
    x.left.contains p.val = true →
    ¬(x.op = 1 ∧ rsp.val = 2) →
    exec (.birsp p n page line rsp false) s = .next (snoopAnswered x p.val (if x.op = 0 then 0 else rsp.val) (pointerPast (homeSlice n.val page.toNat) p.val u))) ∧
  (∀ (p : PortId) (n : LodgeId) (page : BitVec 34) (line : Fin 64) (rsp : Fin 3) (block : Bool) (s : State),
    let u := portActivity p.val s
    portUp u p.val = true →
    txOn u (homeSlice n.val page.toNat) (lineKey n.val page.toNat line.val) = none →
    exec (.birsp p n page line rsp block) s = .next (bumpCoh (homeDie n.val page.toNat) 4 1 (putEvent p.val 1 (.vendor 7 (lineKey n.val page.toNat line.val)) u))) ∧
  (∀ (p : PortId) (n : LodgeId) (page : BitVec 34) (line : Fin 64) (x : Tx) (s : State),
    let u := portActivity p.val s
    portUp u p.val = true →
    txOn u (homeSlice n.val page.toNat) (lineKey n.val page.toNat line.val) = some x →
    x.left.contains p.val = true →
    exec (.biconflict p n page line) s = .next (answerPort p.val 5 (.conflictAck n.val page.toNat line.val) none (bumpCoh (homeDie n.val page.toNat) 2 1 u))) ∧
  (∀ (p : PortId) (n : LodgeId) (page : BitVec 34) (line : Fin 64) (s : State),
    let u := portActivity p.val s
    portUp u p.val = true →
    txOn u (homeSlice n.val page.toNat) (lineKey n.val page.toNat line.val) = none →
    exec (.biconflict p n page line) s = .next (answerPort p.val 5 (.conflictAck n.val page.toNat line.val) none u)) ∧
  (∀ (n : LodgeId) (page : BitVec 34) (line : Fin 64) (k : Nat) (l : LcLine) (s : State),
    let s1 := predMove n.val page.toNat line.val false s
    residentLine s n.val page.toNat line.val = some (k, l) →
    exec (.atomCoolTick n page line) s = .next (if predOf s1 n.val page.toNat line.val < 2 then releaseResident k s1 else s1)) ∧
  (∀ (h : SliceId) (r : MemReq) (rest : List MemReq) (s : State),
    smGet [] s.coh.stalled h.val = r :: rest →
    pageLocked s r.n r.p = false →
    (stalledTry h.val r s).2 = true →
    exec (.stalledWriteResume h) s = .next (homeSettle h.val (stalledTry h.val r s).1)) ∧
  (∀ (h : SliceId) (q : HomeReq) (s : State),
    let s1 := modCoh (fun c => { c with home := smMod [] c.home h.val (List.erase · q) }) s
    homeReady s h.val = [q] →
    unitServes s (372 + h.val / 16) = true →
    exec (.homeQueueSelect h) s = .next (homeSettle h.val (arrive q.req (fairServe h.val q.req.group 64 ((homeOf s1 h.val).any fun x => x.req.group == q.req.group) s1))))

/-- The first held transfer of a queue that no other of its ingress port stands before is stored where cells
allow; a queue sends its first transfer where its link is up and free and its credit is not negative, and the
link is busy for its length; a multicast write is stored for the ports of its group in its virtual switch;
CXL.mem and CXL.io messages pass between the ports of one virtual switch; a decoder within the common limits
is taken by both copies (09 R244, 09 R246, 09 R251, 09 R254, 09 R255, 09 R256, 10 R279, 10 R280). -/
def Obligations.TransfersAct : Prop :=
  (∀ (p : PortId) (cls : Fin 8) (x : Xmit) (res : Bool) (s : State),
    nextAdmitted s p.val cls.val = some (x, res) →
    exec (.egressAdmit p cls) s = .next (storeXmit { x with reserved := res } (modSw (fun w => { w with waiting := w.waiting.erase x }) s))) ∧
  (∀ (p : PortId) (cls : Fin 8) (x : Xmit) (s : State),
    ((storedOf s (p.val / 16)).find? (fun y => y.inQueue p.val cls.val) = some x) →
    (portAt s p.val).link = .up →
    rawRate s p.val ≠ 0 →
    (portAt s p.val).busyTo ≤ dieTime s (p.val / 16) →
    shapeRate s p.val cls.val = 0 →
    x.lat = none →
    x.spoiled = false →
    x.msg.fanCount = none →
    exec (.egressSend p cls) s = .next (emit (.port p.val cls.val x.msg) (modSw (fun w => { w with stored := smMod [] w.stored (p.val / 16) (unstore p.val cls.val) }) (modPortAt p.val (fun y => { y with busyTo := dieTime s (p.val / 16) + (shapedLength (pnum s P.SHAPE_OVERHEAD) x.bytes * 10000 + rawRate s p.val - 1) / rawRate s p.val }) s)))) ∧
  (∀ (p : PortId) (cls : Fin 8) (x : Xmit) (s : State),
    let n := shapedLength (pnum s P.SHAPE_OVERHEAD) x.bytes * 10000
    let stop := dieTime s (p.val / 16) + (n + rawRate s p.val - 1) / rawRate s p.val
    ((storedOf s (p.val / 16)).find? (fun y => y.inQueue p.val cls.val) = some x) →
    (portAt s p.val).link = .up →
    rawRate s p.val ≠ 0 →
    (portAt s p.val).busyTo ≤ dieTime s (p.val / 16) →
    shapeRate s p.val cls.val ≠ 0 →
    0 ≤ creditNow s p.val cls.val true →
    x.lat = none →
    x.spoiled = false →
    x.msg.fanCount = none →
    exec (.egressSend p cls) s = .next (emit (.port p.val cls.val x.msg) (modSw (fun w => { w with stored := smMod [] w.stored (p.val / 16) (unstore p.val cls.val) }) (modPortAt p.val (fun y => { y with busyTo := stop, credit := smPut 0 y.credit cls.val (creditNow s p.val cls.val true + ((n * shapeRate s p.val cls.val / rawRate s p.val : Nat) : Int) - (n : Int)), creditAt := smPut 0 y.creditAt cls.val stop }) s)))) ∧
  (∀ (v src : PortId) (targets : BitVec 64) (group : Fin 64) (bytes : List Byte) (s : State),
    vcsOf s src.val = some v.val →
    exec (.multicastWrite v src targets group bytes) s = .next (fanOut 0 (Msg.multicast group.val bytes).size ((bitsSet 64 targets.toNat).filter fun p => p != src.val && vcsOf s p == some v.val) (some src.val) (.multicast group.val bytes) s)) ∧
  (∀ (src dst : PortId) (kind : Fin 5) (tag : BitVec 16) (bytes : List Byte) (v : Nat) (s : State),
    let u := portActivity src.val s
    vcsOf u src.val = some v →
    vcsOf u dst.val = some v →
    portRole u src.val ≠ portRole u dst.val →
    portUp u dst.val = true →
    kind.val < 2 →
    exec (.cxlMemRoute src dst kind tag bytes) s = .next (egressOffer ⟨memClass kind.val, (Msg.routed (memClass kind.val) src.val tag.toNat bytes).size, [dst.val], some src.val, .routed (memClass kind.val) src.val tag.toNat bytes, none, false, false⟩ (modSw (fun w => { w with routed := w.routed ++ [(src.val, dst.val, kind.val, tag.toNat)] }) u))) ∧
  (∀ (src dst : PortId) (kind : Fin 5) (tag : BitVec 16) (bytes : List Byte) (v : Nat) (s : State),
    let u := portActivity src.val s
    vcsOf u src.val = some v →
    vcsOf u dst.val = some v →
    portRole u src.val ≠ portRole u dst.val →
    portUp u dst.val = true →
    2 ≤ kind.val →
    exec (.cxlMemRoute src dst kind tag bytes) s = .next (egressOffer ⟨memClass kind.val, (Msg.routed (memClass kind.val) src.val tag.toNat bytes).size, [dst.val], some src.val, .routed (memClass kind.val) src.val tag.toNat bytes, none, false, false⟩ (modSw (fun w => { w with routed := w.routed.filter fun (q : Nat × Nat × Nat × Nat) => !(q.1 == dst.val && q.2.1 == src.val && decide (q.2.2.1 < 2) && q.2.2.2 == tag.toNat) }) u))) ∧
  (∀ (src dst : PortId) (tag : BitVec 16) (bytes : List Byte) (acs : Fin 3) (v : Nat) (s : State),
    let u := portActivity src.val s
    vcsOf u src.val = some v →
    vcsOf u dst.val = some v →
    portRole u src.val = 1 ∨ portRole u dst.val = 1 →
    portUp u dst.val = true →
    exec (.cxlIoRoute src dst 0 tag bytes acs) s = .next (egressOffer ⟨0, (Msg.routed 0 src.val tag.toNat bytes).size, [dst.val], some src.val, .routed 0 src.val tag.toNat bytes, none, false, false⟩ u)) ∧
  (∀ (src dst : PortId) (tag : BitVec 16) (bytes : List Byte) (acs : Fin 3) (v : Nat) (s : State),
    let u := portActivity src.val s
    vcsOf u src.val = some v →
    vcsOf u dst.val = some v →
    portRole u src.val = 1 ∨ portRole u dst.val = 1 →
    portUp u dst.val = true →
    exec (.cxlIoRoute src dst 1 tag bytes acs) s = .next (egressOffer ⟨1, (Msg.routed 1 src.val tag.toNat bytes).size, [dst.val], some src.val, .routed 1 src.val tag.toNat bytes, none, false, false⟩ (modSw (fun w => { w with routed := w.routed ++ [(src.val, dst.val, 10, tag.toNat)] }) u))) ∧
  (∀ (p : PortId) (k : Fin 10) (base size skip : BitVec 52) (ways gran : Fin 16) (targets : List (Fin 32)) (s : State),
    portRole s p.val = 1 →
    portUp s p.val = true →
    (ways.val ≤ (if k.val < 8 then 3 else 4)) →
    gran.val ≤ 6 →
    exec (.hdmDecoderCommit p k base size skip ways gran targets) s = .next (modPortAt p.val (fun x => { x with hdmA := smSet x.hdmA k.val ⟨base.toNat, size.toNat, 2 ^ ways.val, 2 ^ (8 + gran.val), targets.map Fin.val, skip.toNat⟩, hdmB := smSet x.hdmB k.val ⟨base.toNat, size.toNat, 2 ^ ways.val, 2 ^ (8 + gran.val), targets.map Fin.val, skip.toNat⟩ }) s))

/-- A packed transfer leaves its link die, or its samples are dropped and counted without a credit; the oldest
transfer to a memory die is applied in order; a changed priority reaches the mirrors; a window evaluates the
labels of its die; after 10 s a scale that is due is notified; after ALERT_HOLD the held alerts of a kind are
told in one (10 R271, 10 R272, 10 R273, 10 R282, 14 R373). -/
def Obligations.RegulationAct : Prop :=
  (∀ (l : LinkDie) (m : MemDie) (v : Nat) (s : State),
    smGet [] s.reg.samples (4 * l.val + m.val) ≠ [] →
    routeVia s l.val (4 + m.val) = v →
    v < 48 →
    available (ClDir.of (linkAt s (v / 2)) (v % 2 == 1)) 10 ≠ 0 →
    exec (.sampleFlush l m) s = .next (creditOut v 10 (modReg (fun r => { r with flights := smMod [] r.flights m.val (· ++ [(v, smGet [] s.reg.samples (4 * l.val + m.val))]) }) (modReg (fun r => { r with samples := smErase r.samples (4 * l.val + m.val) }) s)))) ∧
  (∀ (l : LinkDie) (m : MemDie) (v : Nat) (s : State),
    smGet [] s.reg.samples (4 * l.val + m.val) ≠ [] →
    routeVia s l.val (4 + m.val) = v →
    48 ≤ v ∨ available (ClDir.of (linkAt s (v / 2)) (v % 2 == 1)) 10 = 0 →
    exec (.sampleFlush l m) s = .next (bumpReg 1 (smGet [] s.reg.samples (4 * l.val + m.val)).length (modReg (fun r => { r with samples := smErase r.samples (4 * l.val + m.val) }) s))) ∧
  (∀ (m : MemDie) (q : Nat × List Sample) (rest : List (Nat × List Sample)) (s : State),
    smGet [] s.reg.flights m.val = q :: rest →
    exec (.sampleApply m) s = .next (forAll q.2 sampleApply (creditBack q.1 10 (modReg (fun r => { r with flights := smPut [] r.flights m.val rest }) s)))) ∧
  (∀ (d : DieId) (x : Nat × Nat × Nat) (s : State),
    (s.reg.mirrorMsgs.find? (fun y => y.1 == d.val) = some x) →
    exec (.prioMirrorUpdate d) s = .next (modReg (fun r => { r with mirror := smSet r.mirror (d.val * 65536 + x.2.1) x.2.2, mirrorMsgs := r.mirrorMsgs.erase x }) s)) ∧
  (∀ (m : MemDie) (s : State),
    let q := ((s.reg.labels.map Prod.fst).filter fun n => n % 4 == m.val).foldl (fun q n => missLabel n q) (s, 0)
    exec (.missWindow m) s = .next (if q.2 = 0 then q.1 else raiseAlert 3 0 0 0 (q.2 % 65536 + m.val * 65536) q.1)) ∧
  (∀ (s : State),
    s.reg.holding = true →
    scaleDue s.reg.scale s.reg.notified = true →
    exec (.scaleNoticeHold) s = .next (scaleNotice (modReg (fun r => { r with holding := false }) s))) ∧
  (∀ (kind : Fin 16) (s : State),
    (smGet ({} : AlertHold) s.unit.holds kind.val).held = true →
    (smGet ({} : AlertHold) s.unit.holds kind.val).since ≠ 0 →
    exec (.alertHold kind) s = .next (raiseAlert 1 kind.val (smGet ({} : AlertHold) s.unit.holds kind.val).since (smGet ({} : AlertHold) s.unit.holds kind.val).seq 0 (modUnit (fun u => { u with holds := smPut ({} : AlertHold) u.holds kind.val { held := true, since := 0, seq := (smGet ({} : AlertHold) s.unit.holds kind.val).seq } }) s))) ∧
  (∀ (kind : Fin 16) (s : State),
    (smGet ({} : AlertHold) s.unit.holds kind.val).held = true →
    (smGet ({} : AlertHold) s.unit.holds kind.val).since = 0 →
    exec (.alertHold kind) s = .next (modUnit (fun u => { u with holds := smErase u.holds kind.val }) s))

/-- A channel that trains becomes ACTIVE; owed refreshes come before mitigations and these before reads and
writes; a REF owed, a temperature, the tables, a CA-parity alert and its replay are as R297 to R301 say; a
line read good is as it was, one corrected is recorded and written back, one uncorrectable has the outcome of
Table 11.6; the merge buffer, the write queue and evicted lines empty oldest first; the night watch reads the
next line (04 R93, 07 R194, 11 R294, 11 R296, 11 R297, 11 R299, 11 R301, 11 R304, 11 R307, 11 R308, 11 R309,
11 R312). -/
def Obligations.ChannelsAct : Prop :=
  (∀ (c : ChanId) (drfm : BitVec 2) (bad : List (BitVec 33)) (s : State),
    (chanAt s c.val).state = .training →
    branchLive s (c.val / 2) = true →
    exec (.channelTrained c (some drfm) true bad) s = .next (applyEnds (recomputeD (chanActive c.val drfm (bad.map BitVec.toNat) s)))) ∧
  (∀ (c : ChanId) (spd : Option (BitVec 2)) (ok : Bool) (bad : List (BitVec 33)) (s : State),
    (chanAt s c.val).state = .training →
    branchLive s (c.val / 2) = true →
    spd = none ∨ ok = false →
    exec (.channelTrained c spd ok bad) s = .next (applyEnds (channelBroken c.val (memEvent c.val 3 none (chanRecord s (if spd.isSome then 5 else 6) c.val) s)))) ∧
  (∀ (c : ChanId) (barred : BitVec 128) (r : Nat) (s : State),
    (chanAt s c.val).state = .active →
    (chanAt s c.val).alertN = false →
    lateRank s c.val = some r →
    exec (.dramCommandIssue c barred) s = .next (refresh c.val r 1 s)) ∧
  (∀ (c : ChanId) (barred : BitVec 128) (q : Nat × Nat) (rest : List (Nat × Nat)) (s : State),
    (chanAt s c.val).state = .active →
    (chanAt s c.val).alertN = false →
    lateRank s c.val = none →
    (chanAt s c.val).mitigate = q :: rest →
    exec (.dramCommandIssue c barred) s = .next (mitigation c.val q.1 q.2 s)) ∧
  (∀ (c : ChanId) (barred : BitVec 128) (r : Nat) (s : State),
    (chanAt s c.val).state = .active →
    (chanAt s c.val).alertN = false →
    lateRank s c.val = none →
    (chanAt s c.val).mitigate = [] →
    idleRank s c.val = some r →
    exec (.dramCommandIssue c barred) s = .next (refresh c.val r 1 s)) ∧
  (∀ (c : ChanId) (barred : BitVec 128) (r : ReadEntry) (s : State),
    (chanAt s c.val).state = .active →
    (chanAt s c.val).alertN = false →
    lateRank s c.val = none →
    (chanAt s c.val).mitigate = [] →
    idleRank s c.val = none →
    (chanAt s c.val).bursting = false →
    subQueued s c.val 0 ≤ 48 →
    subQueued s c.val 1 ≤ 48 →
    ((((chanAt s c.val).reads.zipIdx.filter fun (q : ReadEntry × Nat) => !barred.getLsbD q.2).map fun (q : ReadEntry × Nat) => q.1) ≠ []) →
    (readPick (modChan c.val (fun y => { y with bursting := false }) s) c.val (((chanAt s c.val).reads.zipIdx.filter fun (q : ReadEntry × Nat) => !barred.getLsbD q.2).map fun (q : ReadEntry × Nat) => q.1) = some r) →
    exec (.dramCommandIssue c barred) s = .next (issueRead c.val r (modChan c.val (fun y => { y with bursting := false }) s))) ∧
  (∀ (c : ChanId) (barred : BitVec 128) (s : State),
    let burst := decide (16 ≤ subQueued s c.val 0) || decide (16 ≤ subQueued s c.val 1)
    (chanAt s c.val).state = .active →
    (chanAt s c.val).alertN = false →
    lateRank s c.val = none →
    (chanAt s c.val).mitigate = [] →
    idleRank s c.val = none →
    ((chanAt s c.val).bursting = true ∨ (((chanAt s c.val).reads.zipIdx.filter fun (q : ReadEntry × Nat) => !barred.getLsbD q.2).map fun (q : ReadEntry × Nat) => q.1) = []) →
    exec (.dramCommandIssue c barred) s = .next (let s1 := modChan c.val (fun y => { y with bursting := burst }) s; if burst ∨ (((chanAt s c.val).reads.zipIdx.filter fun (q : ReadEntry × Nat) => !barred.getLsbD q.2).map fun (q : ReadEntry × Nat) => q.1) = [] then writeNext c.val s1 else (match readPick s1 c.val (((chanAt s c.val).reads.zipIdx.filter fun (q : ReadEntry × Nat) => !barred.getLsbD q.2).map fun (q : ReadEntry × Nat) => q.1) with | some r => issueRead c.val r s1 | none => s1))) ∧
  (∀ (c : ChanId) (rank : Fin 8) (postpone : Bool) (s : State),
    (chanAt s c.val).state = .active →
    (chanRanks s c.val).contains rank.val = true →
    ((postpone && decide (smGet 0 (chanAt s c.val).owed rank.val < chanP s c.val P.CH_REF_POSTPONE) && (chanAt s c.val).reads.any fun r => rankOf (lineBank s c.val r.frame r.line).1 == rank.val) = true) →
    exec (.refDue c rank postpone) s = .next (modChan c.val (fun x => { x with owed := smPut 0 x.owed rank.val (smGet 0 x.owed rank.val + 1), counts := bump 64 x.counts 3 1 }) s)) ∧
  (∀ (c : ChanId) (rank : Fin 8) (postpone : Bool) (s : State),
    (chanAt s c.val).state = .active →
    (chanAt s c.val).alertN = false →
    (chanRanks s c.val).contains rank.val = true →
    ((postpone && decide (smGet 0 (chanAt s c.val).owed rank.val < chanP s c.val P.CH_REF_POSTPONE) && (chanAt s c.val).reads.any fun r => rankOf (lineBank s c.val r.frame r.line).1 == rank.val) = false) →
    exec (.refDue c rank postpone) s = .next (refresh c.val rank.val 1 (modChan c.val (fun x => { x with owed := smPut 0 x.owed rank.val (smGet 0 x.owed rank.val + 1) }) s))) ∧
  (∀ (c : ChanId) (t : BitVec 32) (s : State),
    (chanAt s c.val).state = .active ∨ (chanAt s c.val).state = .selfRefresh →
    exec (.moduleTempRead c t) s = .next (modChan c.val (fun x => { x with temp := s32 t, hot := decide (85 < s32 t) }) s)) ∧
  (∀ (s : State),
    exec (.actTableClear) s = .next (modCh (fun m => m.map fun (e : Nat × Chan) => (e.1, { e.2 with acts := e.2.acts.filterMap fun (a : Nat × ActTable) => if a.2.openRow.isNone then none else some (a.1, { a.2 with rows := [] }) })) s)) ∧
  (∀ (c : ChanId) (s : State),
    let now := dieTime s (4 + c.val / 8)
    (chanAt s c.val).state = .active →
    exec (.tableValid c) s = .next (modChan c.val (fun x => { x with tableValid := x.tableValid || decide (x.since + 32000000 ≤ now), blind := x.blind.filter fun e => !decide (e.2 + 32000000 ≤ now) }) s)) ∧
  (∀ (c : ChanId) (latency : BitVec 16) (s : State),
    (chanAt s c.val).state = .active →
    exec (.caParityAlert c latency) s = .next (modChan c.val (fun x => { x with alertN := true, retry := x.retry.filter fun r => decide (dieTime s (4 + c.val / 8) ≤ r.time + latency.toNat) }) s)) ∧
  (∀ (c : ChanId) (s : State),
    let s1 := modChan c.val (fun y => { y with acts := y.acts.filterMap (fun (e : Nat × ActTable) => if e.2.rows = [] then none else some (e.1, { e.2 with openRow := none })), tableValid := false, since := dieTime s (4 + c.val / 8), replays := (chanAt s c.val).replays + 1, alertN := false, counts := bump 64 y.counts 0 1 }) s
    let s2 := forAll (chanAt s c.val).retry (fun r t => match r.kind, r.data with | 1, _ => randomMitigation c.val r.bank r.row (countAct c.val r.bank r.row t) | _, some ⟨f, i, .raw b po hi, _, _⟩ => storeRaw (c.val / 8) f i ⟨b, po, hi⟩ t | _, _ => t) s1
    (chanAt s c.val).alertN = true →
    exec (.caReplay c false) s = .next (modChan c.val (fun y => { y with replays := 0 }) (gbDie (4 + c.val / 8) (2100 + c.val) 1 (memEvent c.val 1 none (chanRecord s 3 c.val) s2)))) ∧
  (∀ (d : MemDie) (f : BitVec 30) (i : Fin 64) (agent : Fin 6) (err : BitVec 640) (l : RawLine) (bits : Nat) (s : State),
    let s0 := dramRead d.val f.toNat i.val ((lineOwner s d.val f.toNat i.val).elim 0 fun q => agentLabel s agent.val q.1) (match lineOwner s d.val f.toNat i.val with | some (n, p) => (match descAt s n p with | some x => if x.state = .plain ∧ x.loc = f.toNat then mergeSettle n p i.val x s else s | none => s) | none => s)
    f.toNat % 2 ^ 28 < 2 * chanBytes s (chanOf d.val f.toNat i.val) / 4096 →
    regionPermits s (chanOf d.val f.toNat i.val) (agentClass agent.val) false (f.toNat % 2 ^ 28) = true →
    chanDead s0 (chanOf d.val f.toNat i.val) = false →
    decodeLine (storedLine s0 d.val f.toNat i.val) (placeLine f.toNat i.val).2 err = .good l 0 bits →
    l.bytes = (storedLine s0 d.val f.toNat i.val).bytes ∨ metaLine s0 d.val f.toNat i.val = none →
    exec (.dramReadReturn d f i agent err) s = .next (s0)) ∧
  (∀ (d : MemDie) (f : BitVec 30) (i : Fin 64) (agent : Fin 6) (err : BitVec 640) (l : RawLine) (words bits : Nat) (s : State),
    let s0 := dramRead d.val f.toNat i.val ((lineOwner s d.val f.toNat i.val).elim 0 fun q => agentLabel s agent.val q.1) (match lineOwner s d.val f.toNat i.val with | some (n, p) => (match descAt s n p with | some x => if x.state = .plain ∧ x.loc = f.toNat then mergeSettle n p i.val x s else s | none => s) | none => s)
    f.toNat % 2 ^ 28 < 2 * chanBytes s (chanOf d.val f.toNat i.val) / 4096 →
    regionPermits s (chanOf d.val f.toNat i.val) (agentClass agent.val) false (f.toNat % 2 ^ 28) = true →
    chanDead s0 (chanOf d.val f.toNat i.val) = false →
    decodeLine (storedLine s0 d.val f.toNat i.val) (placeLine f.toNat i.val).2 err = .good l words bits →
    words ≠ 0 →
    l.bytes = (storedLine s0 d.val f.toNat i.val).bytes ∨ metaLine s0 d.val f.toNat i.val = none →
    exec (.dramReadReturn d f i agent err) s = .next (corrected d.val f.toNat i.val l words bits agent.val s0)) ∧
  (∀ (d : MemDie) (f : BitVec 30) (i : Fin 64) (agent : Fin 6) (err : BitVec 640) (words : Nat) (s : State),
    let s0 := dramRead d.val f.toNat i.val ((lineOwner s d.val f.toNat i.val).elim 0 fun q => agentLabel s agent.val q.1) (match lineOwner s d.val f.toNat i.val with | some (n, p) => (match descAt s n p with | some x => if x.state = .plain ∧ x.loc = f.toNat then mergeSettle n p i.val x s else s | none => s) | none => s)
    f.toNat % 2 ^ 28 < 2 * chanBytes s (chanOf d.val f.toNat i.val) / 4096 →
    regionPermits s (chanOf d.val f.toNat i.val) (agentClass agent.val) false (f.toNat % 2 ^ 28) = true →
    chanDead s0 (chanOf d.val f.toNat i.val) = false →
    decodeLine (storedLine s0 d.val f.toNat i.val) (placeLine f.toNat i.val).2 err = .bad words →
    exec (.dramReadReturn d f i agent err) s = .next (badLine d.val f.toNat i.val words agent.val s0)) ∧
  (∀ (c : ChanId) (e : MergeEntry) (rest : List MergeEntry) (s : State),
    (chanAt s c.val).merge = e :: rest →
    exec (.mergeHold c) s = .next (mergeOut c.val e s)) ∧
  (∀ (c : ChanId) (s : State),
    let q := lineAt (c.val % 8) (chanAt s c.val).scrub
    (chanAt s c.val).state = .active →
    (wingAt s (c.val / 2)).state = .openW ∨ (wingAt s (c.val / 2)).state = .draining →
    chanBytes s c.val / 64 ≠ 0 →
    (chanAt s c.val).alertN = false →
    paceOpen s (c.val / 8) = true →
    (wingAt s (c.val / 2)).reopened = none →
    scrubHeld s (c.val / 8) q.1 q.2 = none →
    exec (.scrubRead c 0#640) s = .next (modChan c.val (fun y => { y with scrub := ((chanAt s c.val).scrub + 1) % (chanBytes s c.val / 64), scrubAsked := false, counts := bump 64 y.counts 7 1 }) (readReturn (c.val / 8) q.1 q.2 4 0#640 (scrubSampled c.val q.1 q.2 0#640 s)))) ∧
  (∀ (c : ChanId) (e : WEntry) (s : State),
    (chanAt s c.val).alertN = false →
    writePick s c.val (chanAt s c.val).writes = some e →
    exec (.lineWriteOut c) s = .next (issueWrite c.val e s)) ∧
  (∀ (d : MemDie) (l : LcLine) (s : State),
    (s.tier.evicted.find? (fun x => homeDie x.lodging x.page == d.val) = some l) →
    exec (.writeBack d) s = .next (writeBackLine l (modTier (fun t => { t with evicted := t.evicted.erase l }) s))) ∧
  (∀ (d : MemDie) (m : Fin 262144) (h : Fin 2) (level : Fin 6) (k : Fin 16807) (r : SlotRec) (s : State),
    let s1 := pathFetch d.val m.val h.val level.val k.val s
    smFind s.lod.slots m.val = some r →
    s.prot.dirty.contains (nodeId d.val m.val h.val level.val k.val) = true →
    r.isSealed = true →
    unitServes s (372 + d.val) = true →
    s1.prot.dirty.contains (nodeId d.val m.val h.val level.val k.val) = true →
    parentCounter s1 d.val m.val h.val level.val k.val < 2 ^ 64 - 2 →
    exec (.nodeWriteBack d m h level k) s = .next (treeWrite d.val m.val h.val level.val k.val s1))

/-- A retirement ends OK with its frames when nothing remains in them; blanking advances and gives what it frees
to the regions that wait; the search settles the pending frames of a die; the status figures are those of
every die in service, and a die under pressure asks again for releases (03 R76, 03 R77, 03 R86, 11 R310, 11
R315). -/
def Obligations.SpaceEventsAct : Prop :=
  (∀ (d : Nat) (l : List (Nat × Nat)) (x : Nat) (s : State),
    let s1 := forAll (s.space.uses.filter fun (u : Nat × Use) => u.1 / 2 ^ 30 == d && retiring s d (u.1 % 2 ^ 30) u.2.len) (regionMove d) s
    let s2 := installedFell d (modSpace (fun x => { x with retireJob := none }) s1)
    s.space.retireJob = some (d, l, x) →
    l.any (stretchHeld s1 d) = false →
    exec (.retireComplete) s = .next (cmdEnd 0 P.RETIRE_CMD 0x00 ((l.map Prod.snd).sum) (memEvent (x % 256) 0 none (chanRecord s2 7 (x % 256)) s2))) ∧
  (∀ (w : WingId) (b : BlankItem) (rest : List BlankItem) (s : State),
    smGet [] s.space.blankQ w.val = b :: rest →
    exec (.blankDone w none) s = .next (regionsTake (blankItem (w.val / 4) b (modSpace (fun x => { x with blankQ := smPut [] x.blankQ w.val rest }) s)))) ∧
  (∀ (w : WingId) (k : BitVec 29) (s : State),
    let n := min k.toNat (wingFrames s w.val)
    smGet 0 s.space.passed w.val < min k.toNat (wingFrames s w.val) →
    exec (.blankDone w (some k)) s = .next (regionsTake (modSpace (fun x => { x with passed := smSet x.passed w.val n }) (forAll (gapsIn (smGet 0 s.space.passed w.val) n (wingUses s w.val)) (fun g => blankFrames (w.val / 4) ((w.val % 4) * 2 ^ 28 + g.1) g.2) s)))) ∧
  (∀ (d : MemDie) (s : State),
    let s0 := modSpace (fun x => { x with search := smMod [] x.search d.val (List.drop 256) }) s
    let found := fun (f : Nat) (t : State) => let t1 := forAll (markedLines t d.val f) (fun i u => flushLine d.val f i u) t; let owners := ((below 64).filterMap fun i => lineOwner t1 d.val f i).eraseDups; if owners = [] then freeFrameAgain d.val f t1 else forAll owners (ownerFound d.val f) t1
    exec (.ownerSearch d) s = .next (forAll (dieWings d.val) (fun w t => if wingFaulted t w ∧ (wingAt t w).state = WingState.shuttering then modWingAt w (fun (x : Wing) => { x with state := WingState.shut }) (forAll ((wingUses t w).flatMap fun (e : Nat × Use) => usePages e.2.kind) wingPageLost t) else t) (forAll ((smGet [] s.space.search d.val).take 256) found s0))) ∧
  (∀ (d : MemDie) (f n p : Nat) (x : Desc) (s : State),
    let s0 := modSpace (fun x => { x with search := smMod [] x.search d.val (List.drop 256) }) s
    let t1 := forAll (markedLines s0 d.val f) (fun i u => flushLine d.val f i u) s0
    let r := notePage 2 n p (setDesc n p { x with poison := true } t1)
    smGet [] s.space.search d.val = [f] →
    markedLines t1 d.val f ≠ [] →
    (((below 64).filterMap fun i => lineOwner t1 d.val f i).eraseDups = [(n, p)]) →
    descAt t1 n p = some x →
    x.state = .plain →
    (∀ w ∈ dieWings d.val, wingFaulted r w = false) →
    exec (.ownerSearch d) s = .next (r)) ∧
  (∀ (s : State),
    s.ps.state ≠ .night →
    s.ps.state ≠ .off →
    ∃ t, exec (.capStatusUpdate) s = .next t ∧ smGet 0 t.lod.status 16 = (liveLodges s).foldl (fun a n => a + lodgeP s n P.FLOOR) 0 ∧ smGet 0 t.lod.status 17 = (liveLodges s).foldl (fun a n => a + lodgeP s n P.LOGICAL_SIZE) 0 ∧ smGet 0 t.lod.status 18 = s.lod.stranded.foldl (fun a (e : Nat × Nat) => a + e.2) 0 ∧ ∀ d : MemDie, unitServes s (372 + d.val) = true → smGet 0 t.lod.status d.val = (usable s d.val).toNat ∧ smGet 0 t.lod.status (4 + d.val) = (freeSpace s d.val).toNat ∧ smGet 0 t.lod.status (8 + d.val) = smGet 0 s.lod.stage d.val ∧ smGet 0 t.lod.status (12 + d.val) = shortfall s d.val) ∧
  (∀ (d : MemDie) (s : State),
    asksReleases (smGet 0 s.lod.stage d.val) = true →
    exec (.capReleaseRepeat d) s = .next (askReleases d.val s))

/-- The epoch of a die advances modulo 2,048; a visit of the sweep looks at the pages of a descriptor line; a free
context takes the next request that fits, reads the page, encodes it, verifies, places and commits it; a fired
watch or a failed verification aborts it and leaves the page as it was (04 R95, 04 R97, 04 R103, 04 R104, 04
R105, 04 R107, 04 R108). -/
def Obligations.MoverAct : Prop :=
  (∀ (d : MemDie) (s : State),
    s.ps.state ≠ .night →
    s.ps.state ≠ .off →
    exec (.tierEpoch d) s = .next (modWing (fun x => x.map fun (e : Nat × Wing) => if e.1 / 4 = d.val then (e.1, { e.2 with reopened := e.2.reopened.map fun k => min 2047 (k + 1) }) else e) (modTier (fun t => { t with epoch := smPut 0 t.epoch d.val ((smGet 0 t.epoch d.val + 1) % 2048) }) s))) ∧
  (∀ (n : LodgeId) (page : BitVec 34) (s : State),
    exec (.sweepVisit n page) s = .next (forAll (linePages n.val page.toNat) (sweepPage n.val) (modTier (fun t => { t with sweep := smPut 0 t.sweep (homeDie n.val page.toNat) (pageKey n.val page.toNat) }) s))) ∧
  (∀ (d : MemDie) (c : Fin 32) (r : MoveReq) (x : Desc) (s : State),
    let s0 := modTier (fun t => { t with queue := smMod [] t.queue d.val (List.erase · r) }) s
    (smFind s.tier.moves (32 * d.val + c.val)).isSome = false →
    moverOpen s d.val = true →
    entryRuns s = false →
    nextMove s d.val = some r →
    moveFits s0 r = true →
    r.kind ≠ .relocate →
    descAt (settlePage r.n r.p s0) r.n r.p = some x →
    exec (.moveStart d c) s = .next (moveEnters (32 * d.val + c.val) { req := r, state := .snapshot, pess := false, pre := x } .snapshot (snoopPageNow r.n r.p (settlePage r.n r.p s0)))) ∧
  (∀ (d : MemDie) (c : Fin 32) (m : Move) (b : List Byte) (t1 : State) (s : State),
    smFind s.tier.moves (32 * d.val + c.val) = some m →
    m.state = .snapshot →
    pageSnooped s m.req.n m.req.p = false →
    paceOpen s ((32 * d.val + c.val) / 32) = true →
    pageStopped s m.req.n m.req.p = false →
    engineGone m s = false →
    engineWaits m = false →
    m.fired = false →
    linesUnasked s m.req.n m.req.p = [] →
    m.pre.state ≠ .packed →
    m.req.kind = .demote →
    readPage 2 m.req.n m.req.p m.pre s = (some (b, []), t1) →
    exec (.moveSnapshotDone d c) s = .next (sampleHome ((32 * d.val + c.val) / 32) 2 (pnum s P.TIER_LABEL) 64 (moveEnters (32 * d.val + c.val) { m with staged := b } .encode t1))) ∧
  (∀ (d : MemDie) (c : Fin 32) (m : Move) (s : State),
    smFind s.tier.moves (32 * d.val + c.val) = some m →
    m.state = .snapshot →
    pageSnooped s m.req.n m.req.p = false →
    paceOpen s ((32 * d.val + c.val) / 32) = true →
    pageStopped s m.req.n m.req.p = false →
    engineGone m s = false →
    engineWaits m = false →
    m.fired = true →
    m.pess = false →
    exec (.moveSnapshotDone d c) s = .next (moveAbort (32 * d.val + c.val) true s)) ∧
  (∀ (d : MemDie) (c : Fin 32) (m : Move) (s : State),
    smFind s.tier.moves (32 * d.val + c.val) = some m →
    m.state = .encode →
    m.req.kind = .relocate ∨ m.req.kind = .promote →
    engineGone m s = false →
    engineWaits m = false →
    exec (.moveEncodeDone d c) s = .next (moveEnters (32 * d.val + c.val) m .verify s)) ∧
  (∀ (d : MemDie) (c : Fin 32) (m : Move) (s : State),
    smFind s.tier.moves (32 * d.val + c.val) = some m →
    m.state = .encode →
    m.req.kind = .demote →
    engineGone m s = false →
    engineWaits m = false →
    (m.staged.all (fun (b : Byte) => b == 0#8) = true) →
    exec (.moveEncodeDone d c) s = .next (moveEnters (32 * d.val + c.val) { m with image := [] } .verify s)) ∧
  (∀ (d : MemDie) (c : Fin 32) (m : Move) (s : State),
    smFind s.tier.moves (32 * d.val + c.val) = some m →
    m.state = .verify →
    engineGone m s = false →
    engineWaits m = false →
    exec (.moveVerifyDone d c true) s = .next (moveEnters (32 * d.val + c.val) m .place s)) ∧
  (∀ (d : MemDie) (c : Fin 32) (m : Move) (s : State),
    smFind s.tier.moves (32 * d.val + c.val) = some m →
    m.state = .verify →
    engineGone m s = false →
    engineWaits m = false →
    m.req.kind = .demote ∨ m.req.kind = .repack →
    exec (.moveVerifyDone d c false) s = .next (recomputeD (unitFault m.coder 3 (moveAbort (32 * d.val + c.val) true s)))) ∧
  (∀ (d : MemDie) (c : Fin 32) (m : Move) (s : State),
    smFind s.tier.moves (32 * d.val + c.val) = some m →
    m.state = .place →
    paceOpen s ((32 * d.val + c.val) / 32) = true →
    pageStopped s m.req.n m.req.p = false →
    engineGone m s = false →
    engineWaits m = false →
    moveIsZero m = true →
    exec (.movePlaceDone d c) s = .next (moveEnters (32 * d.val + c.val) m .commit s)) ∧
  (∀ (d : MemDie) (c : Fin 32) (m : Move) (l : Nat) (s1 : State) (key : PageKeys) (s : State),
    smFind s.tier.moves (32 * d.val + c.val) = some m →
    m.state = .place →
    paceOpen s ((32 * d.val + c.val) / 32) = true →
    pageStopped s m.req.n m.req.p = false →
    engineGone m s = false →
    engineWaits m = false →
    m.req.kind = .demote →
    m.image ≠ [] →
    smGet 0 s.space.reserve ((32 * d.val + c.val) / 32) + moveBytes m ≤ 64 * 2 ^ 20 →
    allocRun ((32 * d.val + c.val) / 32) m.req.n m.req.p (moveBytes m / 256) (moveSource m) s = some (l, s1) →
    pageKeys s m.req.n m.req.p m.pre.phase = some key →
    exec (.movePlaceDone d c) s = .next (sampleHome ((32 * d.val + c.val) / 32) 2 (pnum s P.TIER_LABEL) (moveBytes m / 64) (moveEnters (32 * d.val + c.val) { m with loc := some l, drew := moveBytes m } .commit (modSpace (fun x => { x with reserve := smPut 0 x.reserve ((32 * d.val + c.val) / 32) (smGet 0 x.reserve ((32 * d.val + c.val) / 32) + moveBytes m) }) (putLines ((32 * d.val + c.val) / 32) (l * 4) (runCipher key m.req.p m.image) [] true s1))))) ∧
  (∀ (d : MemDie) (c : Fin 32) (m : Move) (x : Desc) (key : PageKeys) (s : State),
    smFind s.tier.moves (32 * d.val + c.val) = some m →
    m.state = .commit →
    m.pess = false →
    ¬(m.req.kind = .demote ∧ atomicHeld s m.req.n m.req.p = true) →
    m.fired = false →
    pageLocked s m.req.n m.req.p = false →
    (s.tier.evicted.any (fun l => l.lodging == m.req.n && l.page == m.req.p) = false) →
    namesRetiring s m = false →
    moveSpends s m x = false →
    descAt s m.req.n m.req.p = some x →
    pageKeys s m.req.n m.req.p m.pre.phase = some key →
    exec (.moveCommit d c) s = .next (moveApply (32 * d.val + c.val) m x key (moveIdle (32 * d.val + c.val) s))) ∧
  (∀ (d : MemDie) (c : Fin 32) (m : Move) (s : State),
    smFind s.tier.moves (32 * d.val + c.val) = some m →
    m.state = .commit →
    m.pess = false →
    pageLocked s m.req.n m.req.p = false →
    m.fired = true →
    exec (.moveCommit d c) s = .next (moveAbort (32 * d.val + c.val) true s))

/-- A draining wing that holds nothing is EMPTY, an empty one starts shuttering and its branch opens; once the
branch is off it is SHUT; a reopening wing whose channels have trained is OPEN with its frames blank; the end
of a sweep pass picks the wing to evacuate; a store loads or repairs a dictionary; training installs one, and
a retirement is decided by the references once no move names it (04 R120, 04 R121, 04 R122, 04 R123, 05 R145,
05 R147, 05 R149). -/
def Obligations.WingsAndDictionariesAct : Prop :=
  (∀ (w : WingId) (s : State),
    (wingAt s w.val).state = .draining →
    wingUsed s w.val = 0 →
    wingInFlight s w.val = false →
    exec (.wingEmpty w) s = .next (modWingAt w.val (fun x => { x with state := .empty }) s)) ∧
  (∀ (w : WingId) (s : State),
    (wingAt s w.val).state = .empty →
    exec (.wingEmpty w) s = .next (recomputeD (branchOpen w.val (modWingChans w.val (fun (c : Chan) => { c with state := if c.state = ChState.failed then ChState.failed else ChState.off, acts := [], owed := [] }) (modWingAt w.val (fun x => { x with state := .shuttering }) (drainChan (2 * w.val) (drainChan (2 * w.val + 1) s))))))) ∧
  (∀ (w : WingId) (s : State),
    (wingAt s w.val).state = .shuttering →
    (branchAt s w.val).state = .off →
    (wingAt s w.val).byCmd = true →
    (wingAt s w.val).byUnit = none →
    (wingAt s w.val).reopenWanted = false →
    exec (.wingShut w) s = .next (modWingAt w.val (fun y => { y with reopenWanted := false }) (cmdEnd 0 P.WING_CMD 0x00 0 (modWingAt w.val (fun y => { y with state := .shut, byCmd := false, byUnit := none }) s)))) ∧
  (∀ (w : WingId) (s : State),
    (wingAt s w.val).state = .reopening →
    (chanAt s (2 * w.val)).state = .active →
    (chanAt s (2 * w.val + 1)).state = .active →
    (wingAt s w.val).reopenUnit = none →
    exec (.wingReopenTrained w) s = .next (reopenTrained w.val (unitReturns (64 + 2 * w.val + 1) (unitReturns (64 + 2 * w.val) (unitReturns (96 + w.val) s))))) ∧
  (∀ (d : MemDie) (w : Nat) (s : State),
    ((openFree s d.val * 100 : Nat) : Int) < pnum s P.TIER_REOPEN_MARK * usable s d.val →
    ((dieWings d.val).any (fun w => (wingAt s w).state == .draining || (wingAt s w).state == .empty) = false) →
    ((dieWings d.val).any (fun w => (wingAt s w).state == .reopening) = false) →
    ((dieWings d.val).any (fun w => (wingAt s w).state == .shuttering) = false) →
    reopenPick s d.val = some w →
    exec (.autoReopen d) s = .next (reopenStart w false none s)) ∧
  (∀ (d : MemDie) (s : State),
    bitOf (pnum s P.TIER_ENABLE) 4 = false →
    exec (.sweepPassEnd d) s = .next (modTier (fun t => { t with sweep := smErase t.sweep d.val }) s)) ∧
  (∀ (d : MemDie) (w : Nat) (s : State),
    let s1 := modTier (fun t => { t with sweep := smErase t.sweep d.val }) s
    bitOf (pnum s P.TIER_ENABLE) 4 = true →
    smGet 0 s.lod.stage d.val = 0 →
    (dieWings d.val).any (wingMoving s) = false →
    cmdPending s 0 P.WING_CMD = false →
    shutterPick s1 d.val = some w →
    exec (.sweepPassEnd d) s = .next (evacuateStart w true none (autoCommand P.WING_CMD s1))) ∧
  (∀ (d : MemDie) (w : Nat) (s : State),
    let s1 := modTier (fun t => { t with sweep := smErase t.sweep d.val }) s
    bitOf (pnum s P.TIER_ENABLE) 4 = true →
    smGet 0 s.lod.stage d.val = 0 →
    (dieWings d.val).any (wingMoving s) = false →
    cmdPending s 0 P.WING_CMD = true →
    shutterPick s1 d.val = some w →
    exec (.sweepPassEnd d) s = .next (autoRefused P.WING_CMD 0x02 s1)) ∧
  (∀ (d : MemDie) (x : DictId) (bad : BitVec 4) (y : StoreSlot) (s : State),
    (dictAt s x.val).state = .installed ∨ (dictAt s x.val).state = .retiring →
    storeSlot s d.val x.val = some y →
    exec (.dictStoreLoad d x bad) s = .next (storeTouch d.val y s)) ∧
  (∀ (d : MemDie) (x : DictId) (bad : BitVec 4) (b : List Byte) (s : State),
    (dictAt s x.val).state = .installed ∨ (dictAt s x.val).state = .retiring →
    storeSlot s d.val x.val = none →
    bad.toNat.testBit d.val = false →
    dictContent s d.val x.val = some b →
    exec (.dictStoreLoad d x bad) s = .next (storeTouch d.val ⟨x.val, b⟩ s)) ∧
  (∀ (d : MemDie) (x : DictId) (bad : BitVec 4) (e : Nat) (b c : List Byte) (s : State),
    (dictAt s x.val).state = .installed ∨ (dictAt s x.val).state = .retiring →
    storeSlot s d.val x.val = none →
    bad.toNat.testBit d.val = true ∨ dictContent s d.val x.val = none →
    ((dieOrder d.val).findSome? (fun e => if bad.toNat.testBit e then none else (dictContent s e x.val).map fun b => (e, b)) = some (e, b)) →
    dictCopy s e x.val = some c →
    exec (.dictStoreLoad d x bad) s = .next (storeTouch d.val ⟨x.val, b⟩ (dictStore d.val x.val c s))) ∧
  (∀ (d : MemDie) (x : DictId) (bad : BitVec 4) (s : State),
    (dictAt s x.val).state = .installed ∨ (dictAt s x.val).state = .retiring →
    storeSlot s d.val x.val = none →
    (∀ e : MemDie, bad.toNat.testBit e.val = true ∨ dictContent s e.val x.val = none) →
    exec (.dictStoreLoad d x bad) s = .next (logPlain 14 2 (modDictAt x.val (fun (r : DictRow) => if r.state = DictState.retiring then { r with former := .damaged } else { r with state := .damaged }) s))) ∧
  (∀ (x : DictId) (s : State),
    (dictAt s x.val).state = .training →
    (trainPages s (dictAt s x.val).owner).any (pageSnooped s (dictAt s x.val).owner) = false →
    ((trainPages s (dictAt s x.val).owner).any (fun p => linesUnasked s (dictAt s x.val).owner p != []) = false) →
    (trainRead (dictAt s x.val).owner (trainPages s (dictAt s x.val).owner) (useCompressor ((dictAt s x.val).owner % 4) s)).1 = [] →
    exec (.trainComplete x false) s = .next (trainStop x.val 0x0B 3 (trainRead (dictAt s x.val).owner (trainPages s (dictAt s x.val).owner) (useCompressor ((dictAt s x.val).owner % 4) s)).2)) ∧
  (∀ (x : DictId) (g : List (List Byte) × State) (s : State),
    let n := (dictAt s x.val).owner
    let content := dictAssemble (pnum s P.COMP_TRAIN_MIN) g.1
    let entry : DictRec := ⟨(crc32c content).toNat, trainLengths (pnum s P.COMP_TRAIN_LEVEL) content g.1⟩
    let dies := (below 4).filter fun d => unitServes g.2 (372 + d)
    let s2 := modDictAt x.val (fun r => { r with state := .installed, former := .free, recs := dies.map (fun d => (d, entry)), sampled := g.1.length, refs := [], left := [] }) g.2
    (dictAt s x.val).state = .training →
    (trainPages s (dictAt s x.val).owner).any (pageSnooped s (dictAt s x.val).owner) = false →
    ((trainPages s (dictAt s x.val).owner).any (fun p => linesUnasked s (dictAt s x.val).owner p != []) = false) →
    g = trainRead (dictAt s x.val).owner (trainPages s (dictAt s x.val).owner) (useCompressor ((dictAt s x.val).owner % 4) s) →
    g.1 ≠ [] →
    exec (.trainComplete x false) s = .next (cmdEnd x.val P.DICT_CMD 0x00 g.1.length (forAll dies (fun d t => match dictCrypt t d true n x.val content with | some c => dictStore d x.val c t | none => t) s2))) ∧
  (∀ (x : DictId) (d : MemDie) (s : State),
    let s1 := modDictAt x.val (fun r => { r with left := [], found := (dictAt s x.val).found + dictRefs s d.val x.val }) (refsRead d.val x.val s)
    (dictAt s x.val).state = .retiring →
    (dictAt s x.val).left = [d.val] →
    movesName s d.val x.val = false →
    (dictAt s x.val).found + dictRefs s d.val x.val = 0 →
    exec (.dictRetireCheck x d) s = .next (cmdEnd x.val P.DICT_CMD 0x00 0 (dictFree x.val s1))) ∧
  (∀ (x : DictId) (d : MemDie) (s : State),
    let s1 := modDictAt x.val (fun r => { r with left := [], found := (dictAt s x.val).found + dictRefs s d.val x.val }) (refsRead d.val x.val s)
    (dictAt s x.val).state = .retiring →
    (dictAt s x.val).left = [d.val] →
    movesName s d.val x.val = false →
    (dictAt s x.val).found + dictRefs s d.val x.val ≠ 0 →
    exec (.dictRetireCheck x d) s = .next (dictRetireBack x.val (min 0xFFFFFFFF ((dictAt s x.val).found + dictRefs s d.val x.val)) s1))

/-- A tail within the ring stands, one beyond it stops the queue; a descriptor fetched in order starts a job if it
is well formed and the tokens suffice, and is refused otherwise; COMPRESS and DECOMPRESS give their stream to
the outputs, EXPORT and EXPORT_DICT theirs, RESUME goes on with a saved stream, RELEASE_CTX frees the context;
an ended job writes its record, notifies, and counts (06 R160, 06 R161, 06 R163, 06 R164, 06 R166, 06 R169, 06
R170, 06 R171, 06 R172, 06 R173, 06 R174). -/
def Obligations.OffloadAct : Prop :=
  (∀ (p : PortId) (q : QueueId) (v : BitVec 32) (s : State),
    let u := portActivity p.val s
    portUp u p.val = true →
    queueP u q.val P.Q_PORT = p.val →
    (queueAt u q.val).state = .enabled →
    v.toNat % 4096 < queueP u q.val P.Q_SIZE →
    outstanding (queueP u q.val P.Q_SIZE) (queueAt u q.val).sqTail (queueAt u q.val).cqHead + (v.toNat % 4096 + queueP u q.val P.Q_SIZE - (queueAt u q.val).sqTail) % queueP u q.val P.Q_SIZE < queueP u q.val P.Q_SIZE →
    portUp s p.val = true →
    queueP s q.val P.Q_PORT = p.val →
    exec (.sqTail p q (.write v)) s = .next (wake 2 (modQueue q.val (fun y => { y with sqTail := v.toNat % 4096 }) u))) ∧
  (∀ (p : PortId) (q : QueueId) (w : Fin 1024) (s : State),
    exec (.sqTail p q (.read w)) s = .next (answerPort p.val 2 (.word q.val (4 * w.val) (queueRead (portActivity p.val s) p.val q.val (4 * w.val))) none (portActivity p.val s))) ∧
  (∀ (p : PortId) (q : QueueId) (v : BitVec 32) (s : State),
    portUp s p.val = true →
    queueP s q.val P.Q_PORT = p.val →
    (queueAt s q.val).state = .enabled →
    exec (.cqHead p q v) s = .next (modQueue q.val (fun y => { y with cqHead := v.toNat % 4096 }) s)) ∧
  (∀ (q : QueueId) (s : State),
    (queueAt s q.val).state ≠ .disabled →
    exec (.tokenRefill q) s = .next (modQueue q.val (fun x => { x with tokens := min (queueP s q.val P.Q_BURST * 10 ^ 6) (x.tokens + queueP s q.val P.Q_RATE) }) s)) ∧
  (∀ (q : QueueId) (d : BitVec 512) (src : Option (List (BitVec 128))) (s : State),
    let listed := match src with | some l => listBytes l | none => 0
    let j : Job := { queue := q.val, index := (queueAt s q.val).sqHead, phase := (queueAt s q.val).phase, desc := d, listed := listed }
    (queueAt s q.val).state = .enabled →
    (queueAt s q.val).sqHead ≠ (queueAt s q.val).sqTail →
    (jobAt s q.val (queueAt s q.val).sqHead).isSome = false →
    s.ps.state ≠ .entering →
    portUp s (queueP s q.val P.Q_PORT) = true →
    listWhole d src = true →
    fetchFault s q.val d src = none →
    jobCost d listed * 10 ^ 6 ≤ (queueAt s q.val).tokens →
    exec (.jobFetch q (some d) src) s = .next (headPasses q.val (writeRecord j 0x01 0 0 (bumpQueue q.val 0 (modQueue q.val (fun y => { y with tokens := y.tokens - jobCost d listed * 10 ^ 6 }) (modJob (fun y => { y with jobs := y.jobs ++ [j] }) s)))))) ∧
  (∀ (q : QueueId) (d : BitVec 512) (src : Option (List (BitVec 128))) (e : Nat × Nat) (s : State),
    let listed := match src with | some l => listBytes l | none => 0
    let j : Job := { queue := q.val, index := (queueAt s q.val).sqHead, phase := (queueAt s q.val).phase, desc := d, listed := listed }
    (queueAt s q.val).state = .enabled →
    (queueAt s q.val).sqHead ≠ (queueAt s q.val).sqTail →
    (jobAt s q.val (queueAt s q.val).sqHead).isSome = false →
    s.ps.state ≠ .entering →
    portUp s (queueP s q.val P.Q_PORT) = true →
    listWhole d src = true ∨ jobMalformed s q.val d ≠ none →
    fetchFault s q.val d src = some e →
    exec (.jobFetch q (some d) src) s = .next (headPasses q.val (jobNotify j (writeRecord j e.1 e.2 0 (bumpQueue q.val 2 s))))) ∧
  (∀ (q : QueueId) (i : Fin 4096) (j : Job) (b : List Byte) (l : List (BitVec 128)) (s : State),
    let fmt := jobF j.desc 8 4
    let s1 := useDecompressor (q.val % 4) (useCompressor (q.val % 4) s)
    let out := compressed fmt (jobF j.desc 12 4) none (defaultTables s1) b
    let t : Stream := { op := 1, fmt := fmt, level := jobF j.desc 12 4, lodging := queueP s q.val P.Q_LODGING, source := b, pieces := if out.isEmpty then [] else [⟨0, out, false, 0⟩], check := checkStart fmt }
    jobAt s q.val i.val = some j →
    mayStart s j = true →
    jobF j.desc 0 8 = 1 →
    engineThere (112 + 8 * (q.val % 4)) 8 s = true →
    engineThere (144 + 16 * (q.val % 4)) 16 s = true →
    ctxRefused s j = false →
    (decide (jobF j.desc 8 4 = 0) && j.desc.getLsbD 19 && decide (4 ≤ jobF j.desc 12 4)) = false →
    b.length = sourceLen j →
    b.length < 2 ^ 32 →
    l.length = jobF j.desc 320 16 →
    listFault l = none →
    exec (.compress q i (some b) (some l) none) s = .next (jobWrite { j with outs := listEntries l, stream := some t } t (ctxRun j s1))) ∧
  (∀ (q : QueueId) (i : Fin 4096) (j : Job) (b : List Byte) (l : List (BitVec 128)) (s : State),
    let n := queueP s q.val P.Q_LODGING
    let g := decoded (jobF j.desc 8 4) (q.val % 4) n b s
    let t : Stream := { op := 2, fmt := jobF j.desc 8 4, lodging := n, pieces := g.1, last := g.2.1, check := checkStart (jobF j.desc 8 4) }
    jobAt s q.val i.val = some j →
    mayStart s j = true →
    jobF j.desc 0 8 = 2 →
    ((if jobF j.desc 8 4 = 1 then 2 else 1) ≤ enginesServing (144 + 16 * (q.val % 4)) 16 s) →
    ctxRefused s j = false →
    b.length = sourceLen j →
    b.length < 2 ^ 32 →
    l.length = jobF j.desc 320 16 →
    listFault l = none →
    exec (.decompress q i (some b) (some l) false) s = .next (jobWrite { j with outs := listEntries l, stream := some t } t (useDecompressor (q.val % 4) (ctxRun j g.2.2)))) ∧
  (∀ (q : QueueId) (i : Fin 4096) (j : Job) (l : List (BitVec 128)) (s : State),
    jobAt s q.val i.val = some j →
    mayStart s j = true →
    jobF j.desc 0 8 = 3 →
    ctxRefused s j = false →
    exportRefused s j j.stream = none →
    l.length = jobF j.desc 320 16 →
    listFault l = none →
    exec (.exportJob q i (some l)) s = .next (putJob { j with outs := listEntries l, stream := some { op := 3, level := jobF j.desc 12 4, lodging := queueP s q.val P.Q_LODGING, next := jobF j.desc 128 34, left := jobF j.desc 192 32 } } (ctxRun j s))) ∧
  (∀ (q : QueueId) (i : Fin 4096) (j : Job) (body : DictBody) (l : List (BitVec 128)) (s : State),
    let x := jobF j.desc 32 10
    let s1 := storeLoad (q.val % 4) x 0 s
    let t : Stream := { op := 4, lodging := queueP s q.val P.Q_LODGING, dict := x, pieces := [exportRecord 5 x (queueP s q.val P.Q_LODGING) (dictRecord s1 x ++ body.content)] }
    jobAt s q.val i.val = some j →
    mayStart s j = true →
    jobF j.desc 0 8 = 4 →
    ctxRefused s j = false →
    queueP s q.val P.Q_LODGING < 4096 →
    jobDictRefused s j (jobF j.desc 32 10) = false →
    exportRefused s j j.stream = none →
    dictFor s1 (q.val % 4) (queueP s q.val P.Q_LODGING) (jobF j.desc 32 10) = some body →
    l.length = jobF j.desc 320 16 →
    listFault l = none →
    exec (.exportDict q i (some l)) s = .next (jobWrite { j with outs := listEntries l, stream := some t } t (ctxRun j s1))) ∧
  (∀ (q : QueueId) (i : Fin 4096) (j : Job) (c : SavedCtx) (a : List Byte) (l : List (BitVec 128)) (s : State),
    jobAt s q.val i.val = some j →
    mayStart s j = true →
    jobF j.desc 0 8 = 5 →
    smFind s.job.ctxs (jobCtx j.desc) = some (some c) →
    resumeRefused s j c.stream = none →
    crc32c a = c.crc →
    a.length = 131072 →
    c.stream.pieces = [] →
    l.length = jobF j.desc 320 16 →
    listFault l = none →
    exec (.resume q i (some a) (some l)) s = .next (putJob { j with outs := listEntries l, stream := some c.stream } (ctxRun j s))) ∧
  (∀ (q : QueueId) (i : Fin 4096) (j : Job) (c : SavedCtx) (a : List Byte) (outs : Option (List (BitVec 128))) (s : State),
    jobAt s q.val i.val = some j →
    mayStart s j = true →
    jobF j.desc 0 8 = 5 →
    smFind s.job.ctxs (jobCtx j.desc) = some (some c) →
    resumeRefused s j c.stream = none →
    a.length ≠ 131072 →
    exec (.resume q i (some a) outs) s = .next (jobEnds { j with stream := some { c.stream with pieces := [] } } 0x0C 3 (ctxRun j s))) ∧
  (∀ (q : QueueId) (i : Fin 4096) (j : Job) (s : State),
    jobAt s q.val i.val = some j →
    mayStart s j = true →
    jobF j.desc 0 8 = 6 →
    smFind s.job.ctxs (jobCtx j.desc) ≠ some none →
    exec (.releaseCtx q i) s = .next (jobEnds j 0x00 0 (ctxFree (jobCtx j.desc) s))) ∧
  (∀ (q : QueueId) (i : Fin 4096) (j : Job) (s : State),
    jobAt s q.val i.val = some j →
    mayStart s j = true →
    jobF j.desc 0 8 = 6 →
    smFind s.job.ctxs (jobCtx j.desc) = some none →
    exec (.releaseCtx q i) s = .next (jobEnds j 0x03 1 s)) ∧
  (∀ (q : QueueId) (i : Fin 4096) (page : BitVec 34) (j : Job) (t : Stream) (r : Piece) (s : State),
    jobAt s q.val i.val = some j →
    j.stream = some t →
    t.op = 3 →
    j.ended = none →
    t.next ≤ page.toNat →
    page.toNat < t.next + t.left →
    (smFind t.built page.toNat).isSome = false →
    (smFind t.arrived page.toNat).isSome = false →
    pageSnooped s t.lodging page.toNat = false →
    sliceServing s (homeSlice t.lodging page.toNat) = true →
    engineMissing s t.lodging page.toNat = false →
    exportWaits s t.lodging page.toNat = false →
    paceOpen s (homeDie t.lodging page.toNat) = true →
    pageStopped s t.lodging page.toNat = false →
    exportRefused s j j.stream = none →
    linesAsked s t.lodging page.toNat = [] →
    (pageRecord t.lodging page.toNat t.level s).1 = some r →
    exec (.exportPage q i page none) s = .next (putJob { j with stream := some { t with built := smSet t.built page.toNat r, asked := t.asked.filter (· ≠ page.toNat) } } (sampleHome (homeDie t.lodging page.toNat) 5 (queueP s q.val P.Q_LABEL) (linesRead s t.lodging page.toNat) (pageRecord t.lodging page.toNat t.level s).2))) ∧
  (∀ (q : QueueId) (i : Fin 4096) (page : BitVec 34) (j : Job) (t : Stream) (r : Piece) (s : State),
    let t1 := { t with built := smErase t.built page.toNat, arrived := smSet t.arrived page.toNat r }
    jobAt s q.val i.val = some j →
    j.stream = some t →
    smFind t.built page.toNat = some r →
    j.ended = none →
    exportRefused s j j.stream = none →
    (placeRecords t1.arrived.length t1).pieces = [] →
    exec (.exportRecordArrive q i page) s = .next (putJob { j with stream := some (placeRecords t1.arrived.length t1) } s)) ∧
  (∀ (q : QueueId) (i : Fin 4096) (page : BitVec 34) (j : Job) (t : Stream) (r : Piece) (s : State),
    let t1 := { t with built := smErase t.built page.toNat, arrived := smSet t.arrived page.toNat r }
    jobAt s q.val i.val = some j →
    j.stream = some t →
    smFind t.built page.toNat = some r →
    j.ended = none →
    exportRefused s j j.stream = none →
    (placeRecords t1.arrived.length t1).pieces ≠ [] →
    exec (.exportRecordArrive q i page) s = .next (jobWrite { j with stream := some (placeRecords t1.arrived.length t1) } (placeRecords t1.arrived.length t1) s)) ∧
  (∀ (q : QueueId) (i : Fin 4096) (j : Job) (status detail : Nat) (s : State),
    let s3 := bumpQueue q.val (if status = 0 then 3 else if status = 0x2A then 5 else 4) (modJob (fun x => { x with jobs := x.jobs.filter fun k => !(k.queue == q.val && k.index == i.val) }) (jobNotify j (writeRecord j status detail 0 s)))
    jobAt s q.val i.val = some j →
    j.ended = some (status, detail) →
    j.saved = false →
    j.stream = none →
    (queueAt s3 q.val).state ≠ .draining →
    exec (.jobComplete q i) s = .next (s3))

/-- The end of a preparation places the granules and offers them, or undoes the commit; an ISOLATED rewrite marks
one descriptor line; answered offers let a destruction go on; a host's response accepts or declines an offer
and its release gives an extent back; a wiped lodging is FREE (02 R55, 03 R57, 03 R58, 03 R59, 03 R63, 03 R64,
03 R65, 03 R87). -/
def Obligations.LodgingEventsAct : Prop :=
  (∀ (n : LodgeId) (s : State),
    let placed := modLodge n.val (fun x => { x with state := if x.state = LodgeState.preparing then LodgeState.ready else x.state }) (forAll (unplaced s n.val) (slotWritten n.val) s)
    unplaced s n.val ≠ [] →
    (lodgeAt s n.val).state = .preparing →
    keysInstalled s n.val = true →
    ((unplaced s n.val).any (fun e => (below 4).any fun d => (regionFrame s d 4 e.1).isNone) = false) →
    exec (.lodgePrepareDone n true) s = .next (lodgeSettle n.val (recomputeD (offerEach n.val (preparedOffers s n.val) placed)))) ∧
  (∀ (n : LodgeId) (s : State),
    unplaced s n.val ≠ [] →
    (lodgeAt s n.val).state = .preparing →
    exec (.lodgePrepareDone n false) s = .next (restageAll (recomputeD (releasesDue n.val (cmdEnd 0 (lodgeCommit n.val) 0x0C 0 (keyWipe n.val (modLod (fun x => { x with dirBase := smErase x.dirBase n.val }) (modLodge n.val (fun x => { state := .free, gen := x.gen }) (prepareUndone n.val s))))))))) ∧
  (∀ (n : LodgeId) (d : MemDie) (m : Nat) (r : SlotRec) (s : State),
    let line := forAll [descPage n.val r.granule d.val 0, descPage n.val r.granule d.val 1] (fun p t => match descAt t n.val p with | some y => lockedSays n.val p (fun z => { z with isolated := true }) (setDesc n.val p { y with isolated := true } t) | none => t) s
    let s1 := modLodge n.val (fun y => { y with isoLeft := smPut 0 y.isoLeft d.val 8191 }) line
    (lodgeAt s n.val).isoTo = some true →
    ((lodgeSlots s n.val).filter (fun (e : Nat × SlotRec) => e.2.placed && (smGet {} s.prot.base (4 * e.1 + d.val)).isolated != true) = [(m, r)]) →
    s.ps.state ≠ .night →
    s.ps.state ≠ .off →
    smGet 0 (lodgeAt s n.val).isoLeft d.val = 8192 →
    lodgeLive s n.val = true →
    unitServes s (372 + d.val) = true →
    (lodgeAt s1 n.val).isoLeft ≠ [] →
    exec (.isolatedRewriteLine n d) s = .next (s1)) ∧
  (∀ (n : LodgeId) (s : State),
    (lodgeAt s n.val).state = .releasing →
    (lodgeAt s n.val).step = 1 →
    exec (.destroyOfferTimeout n) s = .next (destroyRelease n.val (offersWithdrawn n.val s))) ∧
  (∀ (n : LodgeId) (s : State),
    (lodgeAt s n.val).state = .releasing →
    2 ≤ (lodgeAt s n.val).step →
    lodgeExtents s n.val = [] →
    (s.lod.drains.any (fun e => e.2.lodging == n.val) = false) →
    exec (.destroyRecordsGone n) s = .next (removeEntries (fun place e => (entryLine place e).1 == n.val) true (lcDropLodging n.val (modLodge n.val (fun x => { x with state := .wiping }) s)))) ∧
  (∀ (n : LodgeId) (s : State),
    let s1 := movesDropped n.val s
    let s2 := forAll ((s1.prot.desc.filter fun e => decide (e.1 / 2 ^ 34 = n.val)).map fun e => e.1 % 2 ^ 34) (fun p t => match descAt t n.val p with | some x => freePage n.val p x t | none => t) s1
    let s3 := forAll (lodgeSlots s2 n.val) (fun e => slotDrop e.1) s2
    let s4 := forAll (dictsOf s3 n.val) (fun x t => dictFree x (cmdEnd x P.DICT_CMD 0 0 t)) s3
    let s5 := forAll [P.LOGICAL_SIZE, P.FLOOR, P.ATTR, P.LABEL, P.HOST_PORTS, P.DOMAIN, P.LODGE_DICT] (fun m t => putParam 0 (m + 256 * n.val) (match paramSpec (m + 256 * n.val) with | some r => r.dflt | none => 0) t) s4
    (lodgeAt s n.val).state = .wiping →
    secretsHeld s n.val = false →
    lodgeQuiet s n.val = true →
    exec (.destroyWipeDone n) s = .next (restageAll (recomputeD (cmdEnd 0 (P.LODGE_CMD + 256 * n.val) 0 0 (modLodge n.val (fun l => { state := .free, gen := l.gen, pagesLost := l.pagesLost }) (modLod (fun l => { l with dirBase := smErase l.dirBase n.val }) s5)))))) ∧
  (∀ (p : PortId) (a : BitVec 19) (b : BitVec 19) (e : Extent) (s : State),
    let s1 := mailboxReply p.val 0 [] (modLodge e.lodging (fun x => { x with state := if x.state = LodgeState.ready then LodgeState.active else x.state }) (modExt p.val (fun x => x.map fun y => if y = e then { e with accepted := true } else y) s))
    mailboxOpen s p.val = true →
    offeredAt s p.val a.toNat b.toNat = some e →
    ((liveLodges s1).filter (fun n => (lodgeAt s1 n).state == .releasing && !offersOpen s1 n) = []) →
    exec (.addDynamicCapacityResponse p [(a, b)]) s = .next (s1)) ∧
  (∀ (p : PortId) (a : BitVec 19) (b : BitVec 19) (e gone : Extent) (rest : List Extent) (s : State),
    mailboxOpen s p.val = true →
    releaseParts s p.val a.toNat b.toNat = some (e, gone, rest) →
    ((extentsOf (withPrepared (fun _ => true) s) p.val).length + rest.length ≤ 513) →
    cmdPending s 0 (lodgeCommit e.lodging) = false →
    exec (.releaseDynamicCapacity p [(a, b)]) s = .next (mailboxReply p.val 0 [] (extentOut p.val gone (modExt p.val (fun l => rest.foldr extInsert (extInsert gone (l.erase e))) s)))) ∧
  (∀ (p : PortId) (e : Extent) (s : State),
    s.lod.drains = [(p.val, e)] →
    (stalledDropped p.val e s).lod.drains = [(p.val, e)] →
    extentBusy (stalledDropped p.val e s) p.val e = false →
    s.coh.dir = [] →
    s.coh.txs = [] →
    e.len = 1 →
    ((lodgeExtents (modLod (fun l => { l with drains := [] }) (stalledDropped p.val e s)) e.lodging).any (fun x => x.2.accepted && x.2.covers e.logical) = false) →
    exec (.extentDrainDone p) s = .next (granuleUnmap e.lodging e.logical (modLod (fun l => { l with drains := [] }) (stalledDropped p.val e s))))

/-- A transfer of a link in use that arrives as it was sent is accepted, its acknowledgement and credits applied;
one with an invalid codeword is discarded and answered by NAK; RESET_REQ begins a reset, the test of the lane
groups maps them, credits restart, READY puts the link in use again, and a link whose reset lasts too long is
out of service (12 R325, 12 R328, 12 R330, 12 R331, 12 R332, 12 R333). -/
def Obligations.LinkResetStepsAct : Prop :=
  (∀ (k : LinkId) (toB : Bool) (what : LinkSend) (err : BitVec 896) (s s1 : State),
    (linkAt s k.val).state = .active →
    linkSend k.val toB what s = (s1, none) →
    exec (.corridorTransfer k toB what err false) s = .next (s1)) ∧
  (∀ (k : LinkId) (toB : Bool) (what : LinkSend) (err : BitVec 896) (w : OnWire) (s s1 : State),
    let back := ClDir.of (linkAt s1 k.val) (!toB)
    let pair := creditTurn back
    (linkAt s k.val).state = .active →
    linkSend k.val toB what s = (s1, some w) →
    exec (.corridorTransfer k toB what err true) s = .next (rxDiscard k.val toB (bumpLink k.val 2 (modLinkAt k.val (fun l => l.modDir (!toB) fun d => { d with crSent := smPut 0 d.crSent pair (smGet 0 back.freed pair), crTurn := (pair + 1) % 12, ackSent := ackField d, nakSent := d.nak }) s1)))) ∧
  (∀ (k : LinkId) (toB : Bool) (what : LinkSend) (w : OnWire) (s s1 : State),
    let back := ClDir.of (linkAt s1 k.val) (!toB)
    let pair := creditTurn back
    let cnt := smGet 0 back.freed pair
    let rcw := (BitVec.ofNat 80 (controlWord w.valid w.x.cls w.x.data w.x.count w.x.seq (ackField back) back.nak pair cnt)).toNat
    let s2 := modLinkAt k.val (fun l => l.modDir (!toB) fun d => { d with crSent := smPut 0 d.crSent pair cnt, crTurn := (pair + 1) % 12, ackSent := ackField d, nakSent := d.nak }) s1
    (linkAt s k.val).state = .active →
    linkSend k.val toB what s = (s1, some w) →
    bitOf rcw 0 = true → bitsOf rcw 12 16 = (ClDir.of (linkAt s2 k.val) toB).expSeq →
    exec (.corridorTransfer k toB what 0#896 false) s = .next (let s3 := if bitOf rcw 0 then rxDeliver k.val toB { w.x with seq := (ClDir.of (linkAt s2 k.val) toB).expSeq, cls := bitsOf rcw 1 3, data := bitOf rcw 4, count := bitsOf rcw 5 7 } s2 else s2; let s4 := if bitOf rcw 44 then s3 else applyAck k.val (!toB) (bitsOf rcw 28 16) s3; let s5 := if bitOf rcw 49 then modLinkAt k.val (fun l => l.modDir (!toB) (creditReturned (2 * bitsOf rcw 45 3 + bitsOf rcw 48 1) (bitsOf rcw 50 16))) s4 else s4; let q := if bitOf rcw 44 then applyNak k.val (!toB) (bitsOf rcw 28 16) s5 else (s5, false); if q.2 then linkJudged k.val (linkReset k.val toB 2 q.1) else q.1)) ∧
  (∀ (k : LinkId) (byB : Bool) (cause : Byte) (s : State),
    (linkAt s k.val).state = .active →
    exec (.resetReq k byB cause) s = .next ((if 3 ≤ (linkAt s k.val).fails then linkBroken k.val else fun s => s) (modLinkAt k.val (fun l => { l with state := .reset, step := 1, byB := byB, fails := (linkAt s k.val).fails, ab := rxForget l.ab, ba := rxForget l.ba, lastReset := (if byB then linkEndB k.val else linkEndA k.val) + cause.toNat * 2 ^ 8 + 1 * 2 ^ 16, counts := bump 64 l.counts 4 1 }) s))) ∧
  (∀ (k : LinkId) (badAB badBA : BitVec 78) (s : State),
    (linkAt s k.val).state = .reset →
    (linkAt s k.val).step = 1 →
    (widthOf badAB).isSome = true →
    (widthOf badBA).isSome = true →
    exec (.linkGroupTestDone k badAB badBA) s = .next (modLinkAt k.val (fun l => { l with step := 3, ab := { l.ab with bad := badAB }, ba := { l.ba with bad := badBA } }) s)) ∧
  (∀ (k : LinkId) (s : State),
    let set (d : ClDir) : ClDir := match widthOf d.bad with | some (w, sp) => { d with width := w, sel := widthFirst d.bad, spares := sp } | none => d
    (linkAt s k.val).state = .reset →
    (linkAt s k.val).step = 3 →
    exec (.linkMap k true) s = .next (modLinkAt k.val (fun l => { l with step := 4, ab := set l.ab, ba := set l.ba }) s)) ∧
  (∀ (k : LinkId) (s : State),
    (linkAt s k.val).state = .reset →
    (linkAt s k.val).step = 3 →
    exec (.linkMap k false) s = .next (linkBroken k.val s)) ∧
  (∀ (k : LinkId) (s : State),
    let kept (toB : Bool) (d : ClDir) : ClDir := { d with taken := [0, 10].foldl (fun m p => smPut 0 m p (smGet 0 m p + creditsOut s (2 * k.val + bNat toB) p)) d.taken }
    let done : List Xfer := (linkAt s k.val).ab.held.take (restartAck (linkAt s k.val).ab) ++ (linkAt s k.val).ba.held.take (restartAck (linkAt s k.val).ba)
    (linkAt s k.val).state = .reset →
    (linkAt s k.val).step = 4 →
    exec (.linkCredits k) s = .next (modLinkAt k.val (fun l => { l with step := 5, ab := kept true (creditsRestart (linkShare s k.val) l.ab), ba := kept false (creditsRestart (linkShare s k.val) l.ba) }) (forAll (done.filterMap fun (x : Xfer) => x.came) (fun (c : Nat × Bool × Nat) => modLinkAt c.1 fun l => l.modDir c.2.1 (rxDone c.2.2)) s))) ∧
  (∀ (k : LinkId) (s : State),
    let go (d : ClDir) : ClDir := { d with resend := resendFrom d, stuck := 0, nakAt := none, nak := false }
    (linkAt s k.val).state = .reset →
    (linkAt s k.val).step = 5 →
    exec (.linkReady k) s = .next (cmdEnd 0 (P.CL_CMD + 256 * k.val) 0x00 0 (modLinkAt k.val (fun l => { l with state := .active, step := 0, fails := 0, ab := go l.ab, ba := go l.ba }) s))) ∧
  (∀ (k : LinkId) (s : State),
    (linkAt s k.val).state = .reset →
    exec (.corridorResetTimeout k) s = .next (linkBroken k.val s))

/-- A watchdog faults its unit; a drained unit is OUT_OF_SERVICE; a takeover scan ends at a slice that serves; a
rebuilt descriptor line reads LOST; a mirror is restored; the high-water marks are copied; a rejoin test
passes or fails; a unit whose probation ends is IN_SERVICE (01 R25, 14 R359, 14 R361, 14 R363, 14 R364, 14
R366, 14 R368). -/
def Obligations.UnitEventsAct : Prop :=
  (∀ (u : UnitId) (s : State),
    unitClass u.val ≠ 9 →
    ¬(unitClass u.val = 2 ∧ (unitAt s u.val).state ≠ .outOfService) →
    exec (.unitWdog u) s = .next (recomputeD (unitFault u.val 1 s))) ∧
  (∀ (u : UnitId) (s : State),
    unitClass u.val = 2 →
    (unitAt s u.val).state ≠ .outOfService →
    exec (.unitWdog u) s = .next (chanUnpowered false (2 * unitIndex u.val + 1) (chanUnpowered false (2 * unitIndex u.val) (recomputeD (unitFault u.val 1 s))))) ∧
  (∀ (u : UnitId) (s : State),
    unitClass u.val = 9 →
    (linkAt s (u.val - 344)).state = .active →
    exec (.unitWdog u) s = .next (linkJudged (u.val - 344) (linkReset (u.val - 344) false 3 s))) ∧
  (∀ (u : UnitId) (s : State),
    (unitAt s u.val).state = .draining →
    drained s u.val = true →
    unitClass u.val ∉ [8, 9, 10] →
    exec (.drainComplete u) s = .next (recomputeD (cmdEnd u.val P.UNIT_CMD 0x00 0 (unitOut u.val 5 s)))) ∧
  (∀ (i : SliceId) (t0 : Nat) (s : State),
    s.unit.scanning.contains i.val = true →
    takeoverBy s i.val = some t0 →
    ∃ t, exec (.takeoverScanDone i) s = .next t ∧ smFind t.unit.takeover i.val = some t0 ∧ t.unit.scanning.contains i.val = false ∧ t.lc.any (fun e => e.1 / 16 / 3072 == i.val) = false) ∧
  (∀ (d : MemDie) (q : Nat) (rest : List Nat) (s : State),
    smGet [] s.unit.rebuild d.val = q :: rest →
    smFind s.lod.slots (q / 8192) = none →
    exec (.rebuildLine d) s = .next (modUnit (fun x => { x with rebuild := smPut [] x.rebuild d.val (if q % 8192 = 8191 then rest else (q + 1) :: rest) }) s)) ∧
  (∀ (d : MemDie) (q : Nat) (rest : List Nat) (r : SlotRec) (x : Desc) (s : State),
    smGet [] s.unit.rebuild d.val = q :: rest →
    smFind s.lod.slots (q / 8192) = some r →
    descAt s r.lodging (descPage r.lodging r.granule d.val (2 * (q % 8192))) = some x →
    x.state ≠ .unmapped →
    descPage r.lodging r.granule d.val (2 * (q % 8192)) ≠ descPage r.lodging r.granule d.val (2 * (q % 8192) + 1) →
    ∃ t, exec (.rebuildLine d) s = .next t ∧ (descAt t r.lodging (descPage r.lodging r.granule d.val (2 * (q % 8192)))).map Desc.state = some PageState.lost) ∧
  (∀ (d : MemDie) (s : State),
    s.prot.mirrorOff.contains d.val = true →
    unitServes s (372 + d.val) = true →
    unitServes s (372 + partner d.val) = true →
    exec (.mirrorRestore d) s = .next (mirrorNotice 0 (modProt (fun x => { x with mirrorOff := x.mirrorOff.filter (· ≠ d.val), nodeM := smFilter (fun k _ => k / 2 ^ 40 != d.val) x.nodeM }) s))) ∧
  (∀ (s : State),
    s.ps.state ≠ .night →
    s.ps.state ≠ .off →
    exec (.hwmRefresh) s = .next (retain (fun l => { l with hwmCopy := (below 4).foldl (fun m d => if unitServes s (372 + d) then smPut 0 m d (smGet 0 s.prot.hwm d) else m) l.hwmCopy }) s)) ∧
  (∀ (u : UnitId) (s : State),
    (unitAt s u.val).state = .testing →
    (unitAt s u.val).step ≠ 3 →
    unitClass u.val = 7 →
    exec (.rejoinTestDone u true) s = .next (rejoinEnter u.val s)) ∧
  (∀ (u : UnitId) (s : State),
    (unitAt s u.val).state = .testing →
    (unitAt s u.val).step ≠ 3 →
    unitClass u.val ≠ 1 →
    exec (.rejoinTestDone u false) s = .next (rejoinBack u.val s)) ∧
  (∀ (u : UnitId) (s : State),
    let s1 := cmdEnd u.val P.UNIT_CMD 0x00 0 (noticeFmPort u.val 0 (logEvent 7 u.val 1 none (unitBody 0 0) (modUnitRec u.val (fun r => { r with state := .inService, step := 0, recent := [] }) s)))
    (unitAt s u.val).state = .rejoining →
    (unitAt s u.val).step = 4 →
    exec (.unitProbation u) s = .next (recomputeD (if unitClass u.val = 10 then dieUnitsReturn (unitIndex u.val) .inService s1 else s1)))

/-- For every command c, queue rest q and state s, a step of s with c at the front of its queue is exec of c on s
with the rest of the queue (02 R45, 02 R47). -/
def Obligations.StepRunsTheFrontCommand : Prop :=
  ∀ (c : Instr) (q : List Instr) (s : State), step { s with pending := c :: q } = exec c { s with pending := q }

/-- With no command waiting the units with too many counts leave service, ports that went down train again, the
target follows the votes, and the timebases that run advance by one nanosecond; where no unit is over its
limit, no port is down and the votes stand, nothing else changes; this is the model's design choice (logs 1
and 145), over the timebases of R15 (01 R15). -/
def Obligations.EmptyQueueTicks : Prop :=
  (∀ s : State, s.pending = [] → step s = .next (clocksTick (votesSettle (portsRetrain (unitsSettle s))))) ∧
  (∀ s : State, s.pending = [] → (∀ e ∈ s.unit.units, unitOverLimit s e.2 = false) → (∀ p, p < 64 → (portAt s p).link ≠ .down) →
    votesSettle s = s → step s = .next { s with
      time := if timebasesRun s then s.time + 1 else s.time, slTime := if s.sl.vstby then s.slTime + 1 else s.slTime })

/-- No command faults and none is refused: exec answers a next state for every command in every state, and so does
step (02 R45, 02 R50). -/
def Obligations.NothingStopsTheBlock : Prop :=
  (∀ (c : Instr) (s : State), ∃ t, exec c s = .next t) ∧ ∀ s : State, Goes s

/-- Reset memory is canonical and the limits of R418, R425 and R436 hold (17 R418, 17 R425, 18 R436). -/
def Obligations.ResetHoldsInvariant : Prop :=
  Machine.Inv State.reset

/-- From every state in which the DRAM contents are in canonical form, at most 16 replies wait, at most 64 alerts
are kept and at most two cuts wait to be written, a step answers such a state (17 R418, 17 R425, 18 R436). -/
def Obligations.StepKeepsInvariant : Prop :=
  ∀ s t : State, Machine.Inv s → step s = .next t → Machine.Inv t

/-- From every state that meets the invariant, every command leaves the queue as it was and the invariant standing
(02 R45, 02 R47). -/
def Obligations.CommandsLeaveTheQueue : Prop :=
  ∀ (c : Instr) (s t : State), Machine.Inv s → exec c s = .next t → t.pending = s.pending ∧ Machine.Inv t

/-- No access has been numbered, no command or alert waits, every lodging is FREE with no lodging secret, every
extent table and every queue of the switch is empty, every group has the owner of its row of Table 2.4, every
parameter its default, and no port link is up; the fuses read BLANK by log 10 (02 R35, 02 R36, 02 R45, 03 R57,
13 R356). -/
def Obligations.ResetState : Prop :=
  State.reset.pending = [] ∧ State.reset.dict.seq = 0 ∧ State.reset.cr.waiting = [] ∧ State.reset.prot.secrets = [] ∧
  (∀ n : LodgeId, (lodgeAt State.reset n.val).state = .free) ∧ (∀ p : PortId, extentsOf State.reset p.val = []) ∧
  State.reset.sw.stored = [] ∧ State.reset.sw.waiting = [] ∧
  (∀ (g : Nat) (r : GSpec), groupSpec g = some r → ownerOf State.reset g = r.owner) ∧
  (∀ (row n : Nat) (p : PSpec), paramSpec n = some p → prow State.reset row n = p.dflt) ∧
  (∀ p : PortId, (portAt State.reset p.val).link ≠ .up) ∧ lcState State.reset = 0

/-- An access that is answered with any status but OK and PENDING leaves everything as it was, but for its number,
REJECT_COUNT and LAST_REJECT; beside them it may bring about two things: the wake of a sleeping device by a
Courier access to a die (R423), which touches the power states alone, and, where the status is ADMISSION, the
count of admission refusals (R285) (02 R45, 02 R49, 02 R50, 10 R285, 17 R423). -/
def Obligations.RefusedAccessHasNoSideEffects : Prop :=
  ∀ (r : Req) (s : State), let a := accessAns r s
  a.resp.status ≠ 0 → a.resp.status ≠ 1 →
  a.owed = false ∧ a.resp.value = [] ∧
  ∃ u v : State, (u = s ∨ (fromCourier r.origin = true ∧ 0x0500 ≤ r.param / 256 ∧ u = { s with ps := (wake 4 s).ps })) ∧
    (v = u ∨ (a.resp.status = 0x0A ∧ v = bumpReg 4 1 u)) ∧
    a.after = { v with dict := { s.dict with
      seq := s.dict.seq + 1
      seqMirror := s.dict.seq + 1
      rejectCount := satAdd 32 s.dict.rejectCount 1
      lastReject := r.param + (srcClass s r.origin).code * 2 ^ 24 + a.resp.status * 2 ^ 32 + (s.dict.seq + 1) * 2 ^ 64 } }

/-- A read, whatever its source and whatever it reads, leaves every parameter, every record and every other part
of the device as it was; the sequencer counts it, a row whose ROW_USED the spec leaves open draws a free
value, a Courier read of a die's group may wake the device, and a read that finds a saturated count raises its
alert and nothing else (02 R34, 02 R45, 02 R50). -/
def Obligations.ReadsChangeNothing : Prop :=
  ∀ (r : Req) (s : State), r.op = 0 → let t := (accessAns r s).after
  t = { s with ps := t.ps, fresh := t.fresh, unit := t.unit, cr := t.cr, dict := { s.dict with
    seq := s.dict.seq + 1, seqMirror := s.dict.seq + 1, rejectCount := t.dict.rejectCount, lastReject := t.dict.lastReject, sessions := t.dict.sessions, uses := t.dict.uses } } ∧
  (fromCourier r.origin = false → t.ps = s.ps) ∧
  (readFound r.origin r.param (judged r s) = judged r s → t.unit = s.unit ∧ t.cr = s.cr)

/-- An access of an undefined parameter, then one with a malformed header or a wrong type, a write of an RO
member, an RWK write by another world, a write by another than the owner or without presence, a value out of
range, and a holder that cannot act: each is answered with its status when all checks before it pass (02 R32,
02 R33, 02 R34, 02 R46, 02 R49). -/
def Obligations.FirstFailingCheckAnswers : Prop :=
  (∀ (r : Req) (s : State), s.dict.seq + 1 < 2 ^ 64 - 1 → groupSpec (r.param / 256) = none ∨ paramSpec r.param = none →
    accessAns r s = refuse r 0x08 (s.dict.seq + 1) (numbered s)) ∧
  (∀ (r : Req) (g : GSpec) (p : PSpec) (s : State), s.dict.seq + 1 < 2 ^ 64 - 1 → groupSpec (r.param / 256) = some g → paramSpec r.param = some p →
    (∀ st, headerFault r p = some st → accessAns r s = refuse r st (s.dict.seq + 1) (numbered s)) ∧
    (headerFault r p = none → r.op = 1 → p.acc = .ro → accessAns r s = refuse r 0x09 (s.dict.seq + 1) (numbered s)) ∧
    (headerFault r p = none → r.op = 1 → p.acc = .rwk → srcClass s r.origin ≠ .keeper →
      accessAns r s = refuse r 0x0D (s.dict.seq + 1) (numbered s)) ∧
    (∀ st, headerFault r p = none → r.op = 1 → p.acc ≠ .ro → p.acc ≠ .rwk → ownerFault (numbered s) r p = some st →
      accessAns r s = refuse r st (s.dict.seq + 1) (numbered s)) ∧
    (∀ st, rightsFault (numbered s) r p = none → valueFault (numbered s) r g p = some st →
      accessAns r s = refuse r st (s.dict.seq + 1) (numbered s)) ∧
    (∀ st, rightsFault (numbered s) r p = none → valueFault (numbered s) r g p = none → holderFault (numbered s) r g = some st →
      accessAns r s = refuse r st (s.dict.seq + 1) (judged r s)))

/-- LODGE_STATE reads 0 FREE, 1 PREPARING, 2 READY, 3 ACTIVE, 4 RELEASING or 5 WIPING, and UNIT_STATE reads 0
IN_SERVICE, 1 DRAINING, 2 OUT_OF_SERVICE, 3 TESTING or 4 REJOINING: no reserved code (03 R81). -/
def Obligations.StateCodesRead : Prop :=
  (∀ (n : LodgeId) (s : State), ∃ g p, groupSpec (0x1000 + n.val) = some g ∧ paramSpec (P.LODGE_STATE + 256 * n.val) = some p ∧
    valueOf s g p (0x1000 + n.val) 1 0 = (match (lodgeAt s n.val).state with
      | .free => [0#8] | .preparing => [1#8] | .ready => [2#8] | .active => [3#8] | .releasing => [4#8] | .wiping => [5#8])) ∧
  (∀ (u : UnitId) (s : State), ∃ g p, groupSpec 0x7C01 = some g ∧ paramSpec P.UNIT_STATE = some p ∧
    valueOf s g p 0x7C01 0x10 u.val = (match (unitAt s u.val).state with
      | .inService => [0#8] | .draining => [1#8] | .outOfService => [2#8] | .testing => [3#8] | .rejoining => [4#8]))

/-- A write of FM_PORT that no check refuses and that changes the port leaves no FM_API session, or, where the FM
API itself wrote it, a new one that holds nothing: a change staged through the old port never commits through
the new one (02 R55). -/
def Obligations.FmPortChangeDropsSession : Prop :=
  ∀ (r : Req) (s : State), r.op = 1 → r.param = P.FM_PORT → writeRuns r 0 s = true → leNat r.value ≠ pnum s P.FM_PORT →
  (accessAns r s).resp.status = 0 ∧ pnum (accessAns r s).after P.FM_PORT = leNat r.value ∧
  ∀ x, sessionOf (accessAns r s).after .fmApi = some x → x.staged = [] ∧ x.group = none ∧ x.cursors = []

/-- A write to SW_BIFURCATION of a group that passes the checks before it answers WRONG_STATE and has no effect of
its own (the access is numbered, and one from Courier wakes the device) where one of the four controllers has
a role other than NONE, and takes effect where all four are NONE (09 R241). -/
def Obligations.BifurcationNeedsUnusedPorts : Prop :=
  ∀ (G : Fin 16) (r : Req) (s : State), r.op = 1 → r.param = P.SW_BIFURCATION + G.val → admits17 r s = true →
  ((∃ i : Fin 4, portRole s (4 * G.val + i.val) ≠ 0) →
    accessAns r s = refuse r 0x03 (s.dict.seq + 1) (judged r s)) ∧
  ((∀ i : Fin 4, portRole s (4 * G.val + i.val) = 0) →
    (accessAns r s).resp.status = 0 ∧ pnum (accessAns r s).after (P.SW_BIFURCATION + G.val) = leNat r.value)

/-- A frame to the device whose CRC differs, whose END is misplaced or whose LENGTH is reserved, and a 17th
request while 16 wait for their replies, is counted in CR_COUNTS, and in the guest book's figure 3501, and
nothing else happens: no access is numbered and no reply is owed (17 R414, 17 R415, 17 R417, 17 R418, 18
R432). -/
def Obligations.BadFramesAreDiscarded : Prop :=
  ∀ (dest src : BitVec 18) (param : BitVec 24) (data : List Byte) (crc : BitVec 16) (endOk : Bool) (s : State), frameHere dest s = true →
  (∀ bad, crFrameFault dest.toNat src.toNat 1 param.toNat data crc endOk (data.length == 8) = some bad →
    exec (.courierRead dest src param data crc endOk) s = .next { s with
      cr := { s.cr with counts := bump 32 s.cr.counts (if bad then 2 else 3) 1 }
      gb := { s.gb with figs := smPut 0 s.gb.figs 3501 (smGet 0 s.gb.figs 3501 + 1) } }) ∧
  (∀ bad, crFrameFault dest.toNat src.toNat 2 param.toNat data crc endOk (decide (8 ≤ data.length) && decide (data.length ≤ 248)) = some bad →
    exec (.courierWrite dest src param data crc endOk) s = .next { s with
      cr := { s.cr with counts := bump 32 s.cr.counts (if bad then 2 else 3) 1 }
      gb := { s.gb with figs := smPut 0 s.gb.figs 3501 (smGet 0 s.gb.figs 3501 + 1) } }) ∧
  (crFrameFault dest.toNat src.toNat 1 param.toNat data crc endOk (data.length == 8) = none → 16 ≤ s.cr.replies.length →
    exec (.courierRead dest src param data crc endOk) s = .next { s with
      cr := { s.cr with counts := bump 32 s.cr.counts 3 1 }
      gb := { s.gb with figs := smPut 0 s.gb.figs 3501 (smGet 0 s.gb.figs 3501 + 1) } })

/-- Events of the Courier, the guest book, power entry, presence, the rails and the power states leave the dies'
memory, lodgings, keys, ports and every part not named beside them as it was (01 R11, 15 R377, 16 R396, 17
R412, 17 R416, 17 R421, 18 R431). -/
def Obligations.IslandCommandsTouchOnlyTheirPart : Prop :=
  (∀ (s s' : State), exec (.courierBusIdle) s = .next s' → s' = { s with cr := s'.cr }) ∧
  (∀ (high : Bool) (s s' : State), exec (.enumIn high) s = .next s' → s' = { s with cr := s'.cr }) ∧
  (∀ (s s' : State), exec (.enumInHeldHigh) s = .next s' → s' = { s with cr := s'.cr }) ∧
  (∀ (s s' : State), exec (.enumOutRaise) s = .next s' → s' = { s with cr := s'.cr }) ∧
  (∀ (s s' : State), exec (.railHoldRelease) s = .next s' → s' = { s with cr := s'.cr }) ∧
  (∀ (arb : Arb) (s s' : State), exec (.reply arb) s = .next s' → s' = { s with out := s'.out, cr := s'.cr }) ∧
  (∀ (arb : Arb) (s s' : State), exec (.alert arb) s = .next s' → s' = { s with out := s'.out, cr := s'.cr }) ∧
  (∀ (kind : Fin 16) (s s' : State), exec (.alertHold kind) s = .next s' → s' = { s with cr := s'.cr, unit := s'.unit }) ∧
  (∀ (dest src : BitVec 18) (crc : BitVec 16) (endOk : Bool) (s s' : State), exec (.assign dest src crc endOk) s = .next s' → s' = { s with out := s'.out, cr := s'.cr, gb := s'.gb }) ∧
  (∀ (dest src : BitVec 18) (crc : BitVec 16) (endOk : Bool) (s s' : State), exec (.release dest src crc endOk) s = .next s' → s' = { s with cr := s'.cr, gb := s'.gb }) ∧
  (∀ (railHeld : Bool) (s s' : State), exec (.crStallTimeout railHeld) s = .next s' → s' = { s with cr := s'.cr, gb := s'.gb }) ∧
  (∀ (d : DieId) (s s' : State), exec (.gbFigures d) s = .next s' → s' = { s with gb := s'.gb }) ∧
  (∀ (s s' : State), exec (.gbHourCut) s = .next s' → s' = { s with gb := s'.gb }) ∧
  (∀ (verified : GbVerified) (s s' : State), exec (.gbRecordWrite verified) s = .next s' → s' = { s with cr := s'.cr, gb := s'.gb, unit := s'.unit }) ∧
  (∀ (s s' : State), exec (.hsInsertDelay) s = .next s' → s' = { s with hs := s'.hs }) ∧
  (∀ (s s' : State), exec (.hsSeatDebounce) s = .next s' → s' = { s with hs := s'.hs }) ∧
  (∀ (s s' : State), exec (.hsRetryTime) s = .next s' → s' = { s with hs := s'.hs, gb := s'.gb }) ∧
  (∀ (s s' : State), exec (.retryCountClear) s = .next s' → s' = { s with hs := s'.hs }) ∧
  (∀ (midOff midOn vin rise : BitVec 16) (s s' : State), exec (.mosfetCheck midOff midOn vin rise) s = .next s' → s' = { s with hs := s'.hs, cr := s'.cr, gb := s'.gb, unit := s'.unit }) ∧
  (∀ (w : WingId) (s s' : State), exec (.branchRampStart w) s = .next s' → s' = { s with hs := s'.hs }) ∧
  (∀ (w : WingId) (s s' : State), exec (.branchOff w) s = .next s' → s' = { s with hs := s'.hs }) ∧
  (∀ (w : WingId) (s s' : State), exec (.branchPowerGood w) s = .next s' → s' = { s with fresh := s'.fresh, dict := s'.dict, hs := s'.hs, ch := s'.ch, wing := s'.wing }) ∧
  (∀ (low : Bool) (s s' : State), exec (.presenceN low) s = .next s' → s' = { s with sl := s'.sl, ps := s'.ps }) ∧
  (∀ (s s' : State), exec (.presenceWindowEnd) s = .next s' → s' = { s with sl := s'.sl }) ∧
  (∀ (matched : Bool) (s s' : State), exec (.sealLoopSample matched) s = .next s' → s' = { s with sl := s'.sl }) ∧
  (∀ (d : DieId) (t0 t1 t2 t3 : BitVec 32) (s s' : State), exec (.junctionSensorRead d t0 t1 t2 t3) s = .next s' → s' = { s with sl := s'.sl }) ∧
  (∀ (d : DieId) (s s' : State), exec (.railSettled d) s = .next s' → s' = { s with ps := s'.ps }) ∧
  (∀ (s s' : State), exec (.wakeTimer) s = .next s' → s' = { s with ps := s'.ps }) ∧
  (∀ (s s' : State), exec (.wakeHoldExpire) s = .next s' → s' = { s with ps := s'.ps, gb := s'.gb }) ∧
  (∀ (s s' : State), exec (.nightEntry) s = .next s' → s' = { s with ps := s'.ps, gb := s'.gb }) ∧
  (∀ (s s' : State), exec (.nightExit) s = .next s' → s' = { s with hs := s'.hs, ps := s'.ps, gb := s'.gb }) ∧
  (∀ (c : VoteChange) (s s' : State), exec (.voteChange c) s = .next s' → s' = { s with ps := s'.ps, gb := s'.gb, port := s'.port }) ∧
  (∀ (u : UnitId) (s s' : State), exec (.engineGate u) s = .next s' → s' = { s with ps := s'.ps, gb := s'.gb }) ∧
  (∀ (s s' : State), exec (.heartbeatTimeout) s = .next s' → s' = { s with dict := s'.dict, sl := s'.sl, hs := s'.hs, gb := s'.gb, unit := s'.unit }) ∧
  (∀ (s s' : State), exec (.flashWriteDone) s = .next s' → s' = { s with out := s'.out, dict := s'.dict, sl := s'.sl, cr := s'.cr })

/-- Mailbox commands, the routes of the switch, the steps of offload queues and of the worlds leave memory, keys,
channels and every part not named beside them as it was (02 R40, 03 R65, 03 R87, 06 R160, 09 R251, 09 R256, 13
R336). -/
def Obligations.HostSideCommandsTouchOnlyTheirPart : Prop :=
  (∀ (port : PortId) (s s' : State), exec (.dictSeqRead port) s = .next s' → s' = { s with out := s'.out }) ∧
  (∀ (p : PortId) (s s' : State), exec (.identifyMemoryDevice p) s = .next s' → s' = { s with out := s'.out }) ∧
  (∀ (p : PortId) (s s' : State), exec (.getResponseMessageLimit p) s = .next s' → s' = { s with out := s'.out }) ∧
  (∀ (p : PortId) (s s' : State), exec (.getSupportedLogs p) s = .next s' → s' = { s with fresh := s'.fresh, out := s'.out }) ∧
  (∀ (p : PortId) (log : BitVec 128) (offset length : BitVec 32) (s s' : State), exec (.getLog p log offset length) s = .next s' → s' = { s with fresh := s'.fresh, out := s'.out }) ∧
  (∀ (p : PortId) (log : Byte) (s s' : State), exec (.getEventRecords p log) s = .next s' → s' = { s with out := s'.out }) ∧
  (∀ (p : PortId) (log count : Byte) (s s' : State), exec (.clearEventRecords p log count) s = .next s' → s' = { s with out := s'.out, port := s'.port }) ∧
  (∀ (p : PortId) (s s' : State), exec (.getDynamicCapacityConfiguration p) s = .next s' → s' = { s with out := s'.out }) ∧
  (∀ (p : PortId) (s s' : State), exec (.getDynamicCapacityExtentList p) s = .next s' → s' = { s with out := s'.out }) ∧
  (∀ (p host : PortId) (s s' : State), exec (.getHostDcRegionConfiguration p host) s = .next s' → s' = { s with out := s'.out }) ∧
  (∀ (p : PortId) (region : Byte) (length block : BitVec 64) (s s' : State), exec (.setDcRegionConfiguration p region length block) s = .next s' → s' = { s with out := s'.out }) ∧
  (∀ (p : PortId) (extents : List (BitVec 19 × BitVec 19)) (s s' : State), exec (.releaseDynamicCapacity p extents) s = .next s' → s' = { s with out := s'.out, link := s'.link, lod := s'.lod, port := s'.port, sw := s'.sw, coh := s'.coh }) ∧
  (∀ (d : MemDie) (s s' : State), exec (.capReleaseRepeat d) s = .next s' → s' = { s with port := s'.port }) ∧
  (∀ (s s' : State), exec (.capStatusUpdate) s = .next s' → s' = { s with lod := s'.lod }) ∧
  (∀ (n : LodgeId) (s s' : State), exec (.destroyRecordsGone n) s = .next s' → s' = { s with lod := s'.lod, port := s'.port, sw := s'.sw, lc := s'.lc, tier := s'.tier, coh := s'.coh }) ∧
  (∀ (p : PortId) (k : Fin 10) (base size skip : BitVec 52) (ways gran : Fin 16) (targets : List (Fin 32)) (s s' : State), exec (.hdmDecoderCommit p k base size skip ways gran targets) s = .next s' → s' = { s with port := s'.port }) ∧
  (∀ (v : PortId) (src : PortId) (targets : BitVec 64) (group : Fin 64) (bytes : List Byte) (s s' : State), exec (.multicastWrite v src targets group bytes) s = .next s' → s' = { s with port := s'.port, sw := s'.sw }) ∧
  (∀ (v : PortId) (b : Fin 32) (s s' : State), exec (.slotPowerOff v b) s = .next s' → s' = { s with port := s'.port, sw := s'.sw }) ∧
  (∀ (src dst : PortId) (kind : Fin 3) (tag : BitVec 16) (bytes : List Byte) (acs : Fin 3) (s s' : State), exec (.cxlIoRoute src dst kind tag bytes acs) s = .next s' → s' = { s with ps := s'.ps, gb := s'.gb, port := s'.port, sw := s'.sw }) ∧
  (∀ (src dst : PortId) (kind : Fin 5) (tag : BitVec 16) (bytes : List Byte) (s s' : State), exec (.cxlMemRoute src dst kind tag bytes) s = .next s' → s' = { s with ps := s'.ps, gb := s'.gb, port := s'.port, sw := s'.sw }) ∧
  (∀ (p : PortId) (cls : Fin 8) (s s' : State), exec (.egressAdmit p cls) s = .next s' → s' = { s with port := s'.port, sw := s'.sw }) ∧
  (∀ (p : PortId) (cls : Fin 8) (s s' : State), exec (.egressSend p cls) s = .next s' → s' = { s with out := s'.out, cr := s'.cr, unit := s'.unit, link := s'.link, port := s'.port, sw := s'.sw, reg := s'.reg }) ∧
  (∀ (p : PortId) (n : LodgeId) (page : BitVec 34) (line : Fin 64) (s s' : State), exec (.biconflict p n page line) s = .next s' → s' = { s with ps := s'.ps, gb := s'.gb, port := s'.port, sw := s'.sw, coh := s'.coh }) ∧
  (∀ (p : PortId) (s s' : State), exec (.absenceTimeout p) s = .next s' → s' = { s with coh := s'.coh }) ∧
  (∀ (p : PortId) (s s' : State), exec (.flr p) s = .next s' → s' = { s with dict := s'.dict, port := s'.port, job := s'.job }) ∧
  (∀ (p : PortId) (q : QueueId) (v : BitVec 32) (s s' : State), exec (.cqHead p q v) s = .next s' → s' = { s with job := s'.job }) ∧
  (∀ (q : QueueId) (s s' : State), exec (.tokenRefill q) s = .next s' → s' = { s with job := s'.job }) ∧
  (∀ (q : QueueId) (j : Fin 4096) (outs : Option (List (BitVec 128))) (s s' : State), exec (.exportJob q j outs) s = .next s' → s' = { s with job := s'.job }) ∧
  (∀ (q : QueueId) (j : Fin 4096) (s s' : State), exec (.releaseCtx q j) s = .next s' → s' = { s with job := s'.job }) ∧
  (∀ (q : QueueId) (j : Fin 4096) (s s' : State), exec (.jobComplete q j) s = .next s' → s' = { s with fresh := s'.fresh, dict := s'.dict, port := s'.port, sw := s'.sw, job := s'.job }) ∧
  (∀ (t : DebugTarget) (s s' : State), exec (.debugAccess t) s = .next s' → s' = { s with fresh := s'.fresh, out := s'.out, cr := s'.cr, world := s'.world, unit := s'.unit }) ∧
  (∀ (p : PortId) (req : List Byte) (opens : Bool) (s s' : State), exec (.spdmRequest p req opens) s = .next s' → s' = { s with fresh := s'.fresh, out := s'.out, world := s'.world }) ∧
  (∀ (core : Fin 8) (req : List Byte) (s s' : State), exec (.worldCall core req) s = .next s' → s' = { s with out := s'.out, cr := s'.cr, world := s'.world, unit := s'.unit }) ∧
  (∀ (answer : List Byte) (s s' : State), exec (.worldCallReply answer) s = .next s' → s' = { s with out := s'.out, cr := s'.cr, world := s'.world, unit := s'.unit }) ∧
  (∀ (core : Fin 8) (s s' : State), exec (.stewardWdog core) s = .next s' → s' = { s with dict := s'.dict, world := s'.world }) ∧
  (∀ (core : Fin 8) (img : FwSlots) (s s' : State), exec (.stewardCoreRestartDone core img) s = .next s' → s' = { s with world := s'.world })

/-- Refresh, activate counts, epochs, samples, key transport, rebuilding and retirement leave every part not named
beside them as it was (04 R95, 04 R123, 07 R202, 10 R276, 11 R294, 14 R366). -/
def Obligations.MemorySideCommandsTouchOnlyTheirPart : Prop :=
  (∀ (s s' : State), exec (.actTableClear) s = .next s' → s' = { s with ch := s'.ch }) ∧
  (∀ (c : ChanId) (s s' : State), exec (.tableValid c) s = .next s' → s' = { s with ch := s'.ch }) ∧
  (∀ (c : ChanId) (latency : BitVec 16) (s s' : State), exec (.caParityAlert c latency) s = .next s' → s' = { s with ch := s'.ch }) ∧
  (∀ (c : ChanId) (t : BitVec 32) (s s' : State), exec (.moduleTempRead c t) s = .next s' → s' = { s with ch := s'.ch }) ∧
  (∀ (c : ChanId) (rank : Fin 8) (postpone : Bool) (s s' : State), exec (.refDue c rank postpone) s = .next s' → s' = { s with ch := s'.ch }) ∧
  (∀ (w : WingId) (tgt : Option (BitVec 29)) (s s' : State), exec (.blankDone w tgt) s = .next s' → s' = { s with ch := s'.ch, space := s'.space }) ∧
  (∀ (d : MemDie) (s s' : State), exec (.tierEpoch d) s = .next s' → s' = { s with wing := s'.wing, tier := s'.tier }) ∧
  (∀ (d : MemDie) (c : Fin 32) (s s' : State), exec (.movePlaceDone d c) s = .next s' → s' = { s with fresh := s'.fresh, ps := s'.ps, gb := s'.gb, reg := s'.reg, prot := s'.prot, space := s'.space, tier := s'.tier, coh := s'.coh }) ∧
  (∀ (n : LodgeId) (page : BitVec 34) (line : Fin 64) (s s' : State), exec (.atomCoolTick n page line) s = .next s' → s' = { s with lc := s'.lc, coh := s'.coh }) ∧
  (∀ (l : LinkDie) (m : MemDie) (s s' : State), exec (.sampleFlush l m) s = .next s' → s' = { s with link := s'.link, reg := s'.reg }) ∧
  (∀ (m : MemDie) (s s' : State), exec (.sampleApply m) s = .next s' → s' = { s with link := s'.link, reg := s'.reg }) ∧
  (∀ (d : DieId) (s s' : State), exec (.prioMirrorUpdate d) s = .next s' → s' = { s with reg := s'.reg }) ∧
  (∀ (m : MemDie) (s s' : State), exec (.missWindow m) s = .next s' → s' = { s with cr := s'.cr, gb := s'.gb, port := s'.port, reg := s'.reg }) ∧
  (∀ (p : PortId) (j : Fin 9) (op : Fin 3) (set : Fin 2) (slot : Fin 6) (key : BitVec 256) (s s' : State), exec (.ideKm p j op set slot key) s = .next s' → s' = { s with prot := s'.prot }) ∧
  (∀ (d : MemDie) (err : BitVec 384) (s s' : State), exec (.keyTransport d err) s = .next s' → s' = { s with fresh := s'.fresh, dict := s'.dict, world := s'.world, prot := s'.prot }) ∧
  (∀ (n : LodgeId) (s s' : State), exec (.rekeyFinish n) s = .next s' → s' = { s with dict := s'.dict, prot := s'.prot, space := s'.space }) ∧
  (∀ (d : MemDie) (s s' : State), exec (.rebuildLine d) s = .next s' → s' = { s with unit := s'.unit, lod := s'.lod, prot := s'.prot }) ∧
  (∀ (s s' : State), exec (.hwmRefresh) s = .next s' → s' = { s with sl := s'.sl }) ∧
  (∀ (x : DictId) (d : MemDie) (s s' : State), exec (.dictRetireCheck x d) s = .next s' → s' = { s with dict := s'.dict, cr := s'.cr, unit := s'.unit, space := s'.space, comp := s'.comp }) ∧
  (∀ (d : MemDie) (x : DictId) (bad : BitVec 4) (s s' : State), exec (.dictStoreLoad d x bad) s = .next s' → s' = { s with cr := s'.cr, unit := s'.unit, space := s'.space, comp := s'.comp }) ∧
  (∀ (d : MemDie) (s s' : State), exec (.sweepPassEnd d) s = .next s' → s' = { s with dict := s'.dict, wing := s'.wing, space := s'.space, tier := s'.tier })

/-- A reset of Table 9.9, or a link that goes down, leaves lodgings, extents, descriptors, DRAM contents, lodging
keys and every dictionary parameter as they were, and the bindings too unless a managed unbind was armed (09
R262, 09 R263). -/
def Obligations.PortResetsWipeNothing : Prop :=
  ∀ (p : PortId) (b : Fin 32) (c : Instr) (s t : State),
  c ∈ [Instr.portPerstN p, .hostHotReset p, .linkDown p, .secondaryBusReset p b, .flr p] → exec c s = .next t →
  t.lod = s.lod ∧ t.space = s.space ∧ t.prot = { s.prot with ide := t.prot.ide } ∧ t.dict.params = s.dict.params ∧
  t.dict.owners = s.dict.owners ∧ t.ch = s.ch ∧ t.lc = s.lc ∧ t.comp = s.comp ∧ (s.sw.armed = [] → t.sw.vcs = s.sw.vcs)

/-- A stored line reads back with its bytes, its POISON and its TIER_HINT, and every other line of every die reads
as before (11 R292, 11 R302, 11 R305). -/
def Obligations.DramReadsBackWhatWasStored : Prop :=
  ∀ (d f i : Nat) (l : RawLine) (s : State), f < 2 ^ 30 → i < 64 →
  rawLine (storeRaw d f i l s) d f i = l ∧
  ∀ d' f' i', f' < 2 ^ 30 → i' < 64 → (d', f', i') ≠ (d, f, i) → rawLine (storeRaw d f i l s) d' f' i' = rawLine s d' f' i'

/-- A code word without error reads as it was written; any one wrong bit of its 80 is corrected; any two wrong
bits of its 79 BCH positions are corrected; a BCH bit and the parity bit wrong together are uncorrectable (11
R302, 11 R303). -/
def Obligations.EccCorrectsTwoBits : Prop :=
  ∀ (d : BitVec 64) (m : Bool), let w := encodeWord d.toNat m
  decodeWord w = some (0, w) ∧ (∀ i, i < 80 → decodeWord (Nat.xor w (2 ^ i)) = some (1, w)) ∧
  (∀ i j, i < 80 → j < 80 → i ≠ j → i ≠ 78 → j ≠ 78 → decodeWord (Nat.xor (Nat.xor w (2 ^ i)) (2 ^ j)) = some (2, w)) ∧
  (∀ i, i < 80 → i ≠ 78 → decodeWord (Nat.xor (Nat.xor w (2 ^ i)) (2 ^ 78)) = none)

/-- The line of a frame is found again from its channel and line index, and a channel line index from its
subchannel, bank group, column line, bank, rank, module and row, and back (11 R292, 11 R293). -/
def Obligations.DramAddressesAreOneToOne : Prop :=
  (∀ f i : Nat, f < 2 ^ 30 → i < 64 → lineAt (placeLine f i).1 (placeLine f i).2 = (f, i)) ∧
  (∀ (g : Geometry) (idx : Nat), dramIndex g (dramAddr g idx) = idx) ∧
  (∀ (g : Geometry) (a : DramAddr), a.sub < 2 → a.group < 8 → a.line < 2 ^ g.col → a.bank < 4 → a.rank < 2 ^ g.rank → a.modl < 2 ^ g.modl →
    dramAddr g (dramIndex g a) = a)

/-- The image made of a source of 1 to 4,096 bytes, stored at level 0 or packed with codes that serve it, with or
without a dictionary, its default codes or its own, decodes back to that source with nothing left over, and
carries the CRC-32C of the source in its last four bytes (05 R127, 05 R130, 05 R136, 05 R142). -/
def Obligations.PackedImagesDecode : Prop :=
  ∀ (level : Nat) (dict : Option (Nat × DictBody)) (defaults : Bool) (src : List Byte), 1 ≤ src.length → src.length ≤ 4096 →
  level = 0 ∨ packs level dict src = true →
  let image := encodeFrame level dict defaults src
  let n := image.length - 4
  4 ≤ image.length ∧ image.drop n = leBytes 4 (crc32c src).toNat ∧
  ∃ r, decodeFrame (fun h => h.orig == src.length) (fun x => dict.bind fun d => if x = d.1 then some d.2 else none) (image.take n) =
    .good src r ∧ r.bits = []
end

