-- ==== Sys2Proof/Laws/Accesses.lean ====
section
/-! SUPPORT. What a dictionary access does, said once: an access that no check refuses, and an accepted command. -/

namespace Sys2Proof.Machine

/-- What `admits17` says, part by part. -/
theorem admits17_parts {r : Req} {s : State} (h : admits17 r s = true) :
    ∃ g p, s.sl.vstby = true ∧ keeperSilent s r.origin = false ∧
      groupSpec (r.param / 256) = some g ∧ paramSpec r.param = some p ∧ s.dict.seq + 1 < 2 ^ 64 - 1 ∧
      rightsFault (numbered s) r p = none ∧ valueFault (numbered s) r g p = none ∧ holderFault (numbered s) r g = none := by
  unfold admits17 at h
  split at h
  · rename_i g p hg hp
    simp only [Bool.and_eq_true, decide_eq_true_eq, Option.isNone_iff_eq_none, Bool.not_eq_true'] at h
    exact ⟨g, p, h.1.1.1.1.1, h.1.1.1.1.2, hg, hp, h.1.1.1.2, h.1.1.2, h.1.2, h.2⟩
  · exact absurd h (by simp)

/-- An access that checks 1 to 7 do not refuse is performed. -/
theorem accessAns_performed {r : Req} {s : State} {g : GSpec} {p : PSpec} (hg : groupSpec (r.param / 256) = some g)
    (hp : paramSpec r.param = some p) (hs : s.dict.seq + 1 < 2 ^ 64 - 1) (hr : rightsFault (numbered s) r p = none)
    (hv : valueFault (numbered s) r g p = none) :
    accessAns r s = performAccess r g p (s.dict.seq + 1) (numbered s) := by
  have hseq : ¬ 2 ^ 64 - 1 ≤ (numbered s).dict.seq := Nat.not_le.2 hs
  unfold accessAns
  show (if 2 ^ 64 - 1 ≤ (numbered s).dict.seq then _ else _) = _
  rw [if_neg hseq, hg, hp]
  show (match rightsFault (numbered s) r p with | some _ => _ | none => _) = _
  rw [hr]
  show (match valueFault (numbered s) r g p with | some _ => _ | none => _) = _
  rw [hv]
  rfl

/-- A command that no check refuses: its effect and its answer. -/
theorem access_command {r : Req} {row : Nat} {s : State} {g : GSpec} {p : PSpec} (h : commandRuns r row s = true)
    (hg : groupSpec (r.param / 256) = some g) (hp : paramSpec r.param = some p) (hty : p.ty = .cmd)
    (hc : isCommit g p r.param = false) (hsel : isSelect g r = false) (hop : r.op = 1) :
    access r s = answered r row s (cmdRun r.param row r.value (srcClass (judged r s) r.origin).code (s.dict.seq + 1)
      r.readBack (begun r row s)) := by
  unfold commandRuns at h
  simp only [Bool.and_eq_true, beq_iff_eq, Bool.or_eq_true, Bool.not_eq_true', Option.isNone_iff_eq_none] at h
  obtain ⟨⟨⟨ha, hrow⟩, hpend⟩, hown⟩ := h
  obtain ⟨g', p', hv0, hk0, hg', hp', hs, hr, hv, hh⟩ := admits17_parts ha
  obtain rfl : g' = g := by rw [hg] at hg'; exact (Option.some.inj hg').symm
  obtain rfl : p' = p := by rw [hp] at hp'; exact (Option.some.inj hp').symm
  have hrow' : rowFor (judged r s) r.origin r.param g' = some row := by
    simpa only [rowOf, hg] using hrow
  unfold access
  rw [hv0, hk0]
  rw [Bool.not_false, Bool.true_and, if_pos rfl, accessAns_performed hg hp hs hr hv]
  unfold performAccess
  show deliver r (match holderFault (numbered s) r g' with | some _ => _ | none => _) = _
  rw [hh]
  simp only [hsel, hop, Bool.false_eq_true, if_false, Nat.one_ne_zero]
  show deliver r (match rowFor (judged r s) r.origin r.param g' with | none => _ | some _ => _) = _
  rw [hrow']
  unfold doWrite
  simp only [hc, hty, Bool.false_eq_true, if_false, if_true]
  unfold writeCmd
  rw [if_neg, show cmdRefused (onlyIf (fromCourier r.origin && decide (1280 ≤ r.param / 256) && lcState (numbered s) != 4)
    (wake 4) (numbered s)) r.param row r.value = none from hown]
  · rfl
  · rintro ⟨h1, h2⟩
    rcases hpend with h | h
    · exact absurd (h.symm.trans h1) (by simp)
    · exact absurd (h.symm.trans h2) (by simp)

end Sys2Proof.Machine
end

