-- ==== Sys2Proof/Laws/Groups.lean ====
section
/-! SUPPORT. The groups of Table 2.4 that are indexed, found by their number. -/

namespace Sys2Proof.Machine

/-- A row of the table that does not hold a group is passed over. -/
theorem find_group_past {a : GSpec} {l : List GSpec} {g : Nat} (h : g < a.first ∨ a.first + a.count ≤ g) :
    (a :: l).find? (fun r => decide (r.first ≤ g) && decide (g < r.first + r.count)) =
      l.find? (fun r => decide (r.first ≤ g) && decide (g < r.first + r.count)) := by
  rw [List.find?_cons_of_neg]
  simp only [Bool.and_eq_true, decide_eq_true_eq]
  omega

/-- The first row of the table that holds a group is its row. -/
theorem find_group_here {a : GSpec} {l : List GSpec} {g : Nat} (h : a.first ≤ g) (h' : g < a.first + a.count) :
    (a :: l).find? (fun r => decide (r.first ≤ g) && decide (g < r.first + r.count)) = some a := by
  rw [List.find?_cons_of_pos]
  simp only [Bool.and_eq_true, decide_eq_true_eq]
  exact ⟨h, h'⟩

theorem groupSpec_lodge {n : Nat} (h : n < 4096) :
    groupSpec (0x1000 + n) = some ⟨0x1000, 4096, 0, false, 0, true, members1nnn⟩ := by
  unfold groupSpec groupTable
  repeat (first
    | exact find_group_here (by dsimp only; omega) (by dsimp only; omega)
    | rw [find_group_past (by dsimp only; omega)])

theorem groupSpec_port {n : Nat} (h : n < 64) :
    groupSpec (0x4000 + n) = some ⟨0x4000, 64, 0, false, 0, true, members40pp⟩ := by
  unfold groupSpec groupTable
  repeat (first
    | exact find_group_here (by dsimp only; omega) (by dsimp only; omega)
    | rw [find_group_past (by dsimp only; omega)])

theorem groupSpec_channel {n : Nat} (h : n < 32) :
    groupSpec (0x6000 + n) = some ⟨0x6000, 32, 0, false, 0, true, members60cc⟩ := by
  unfold groupSpec groupTable
  repeat (first
    | exact find_group_here (by dsimp only; omega) (by dsimp only; omega)
    | rw [find_group_past (by dsimp only; omega)])

theorem groupSpec_link {n : Nat} (h : n < 24) :
    groupSpec (0x7000 + n) = some ⟨0x7000, 24, 0, false, 0, false, members70kk⟩ := by
  unfold groupSpec groupTable
  repeat (first
    | exact find_group_here (by dsimp only; omega) (by dsimp only; omega)
    | rw [find_group_past (by dsimp only; omega)])

/-- The group and the member of a number built from a member of row 0 and an index. -/
theorem param_group (base i : Nat) : (base + 256 * i) / 256 = base / 256 + i := by omega

theorem param_member (base i : Nat) : (base + 256 * i) % 256 = base % 256 := by omega

end Sys2Proof.Machine
end

