-- ==== Sys2Proof/Laws/Memory.lean ====
section
/-! SUPPORT. The laws of sparse maps and of the DRAM contents: what a read after a write gives, what
a write leaves alone, and that every memory operation keeps the canonical form. -/

namespace Sys2Proof.Machine

/-! ### Sparse maps: reads -/

theorem smGet_erase_same {α : Type} (d : α) (m : SMap α) (k : Nat) : smGet d (smErase m k) k = d := by
  induction m with
  | nil => rfl
  | cons e m ih =>
    by_cases h : e.1 = k
    · simp [smErase, h, ih]
    · simp [smErase, smGet, h, ih]

theorem smGet_erase_other {α : Type} (d : α) (m : SMap α) {k j : Nat} (hj : j ≠ k) :
    smGet d (smErase m k) j = smGet d m j := by
  induction m with
  | nil => rfl
  | cons e m ih =>
    by_cases h : e.1 = k
    · have hej : e.1 ≠ j := fun c => hj (c.symm.trans h)
      simp only [smErase, h, if_true, ih, smGet]
      simp [Ne.symm hj]
    · by_cases hj' : e.1 = j <;> simp [smErase, smGet, h, hj', ih]
      all_goals simp_all [smGet]

theorem smGet_insert_same {α : Type} (d : α) (m : SMap α) (k : Nat) (v : α)
    (hm : ∀ e ∈ m, e.1 ≠ k) : smGet d (smInsert m k v) k = v := by
  induction m with
  | nil => simp [smInsert, smGet]
  | cons e m ih =>
    have h1 : e.1 ≠ k := hm e (by simp)
    have h2 := ih fun x hx => hm x (by simp [hx])
    by_cases h : k < e.1 <;> simp [smInsert, smGet, h, h1, h2]

theorem smGet_insert_other {α : Type} (d : α) (m : SMap α) {k j : Nat} (v : α) (hj : j ≠ k) :
    smGet d (smInsert m k v) j = smGet d m j := by
  induction m with
  | nil => simp [smInsert, smGet, Ne.symm hj]
  | cons e m ih =>
    by_cases h : k < e.1
    · simp [smInsert, smGet, h, Ne.symm hj]
    · simp [smInsert, smGet, h, ih]

theorem mem_smErase {α : Type} {m : SMap α} {k : Nat} {e : Nat × α} :
    e ∈ smErase m k ↔ e ∈ m ∧ e.1 ≠ k := by
  induction m with
  | nil => simp [smErase]
  | cons x m ih =>
    by_cases h : x.1 = k
    · simp only [smErase, h, if_true, ih, List.mem_cons]
      constructor
      · exact fun ⟨a, b⟩ => ⟨.inr a, b⟩
      · rintro ⟨rfl | a, b⟩
        · exact absurd h b
        · exact ⟨a, b⟩
    · simp only [smErase, h, if_false, List.mem_cons, ih]
      constructor
      · rintro (rfl | ⟨a, b⟩)
        · exact ⟨.inl rfl, h⟩
        · exact ⟨.inr a, b⟩
      · rintro ⟨rfl | a, b⟩
        · exact .inl rfl
        · exact .inr ⟨a, b⟩

/-- A read after a write to the same key gives the value written. -/
theorem smGet_put_same {α : Type} [DecidableEq α] (d : α) (m : SMap α) (k : Nat) (v : α) :
    smGet d (smPut d m k v) k = v := by
  unfold smPut
  split
  · rename_i h; rw [smGet_erase_same, h]
  · exact smGet_insert_same _ _ _ _ fun e he => (mem_smErase.1 he).2

/-- A write leaves every other key alone. -/
theorem smGet_put_other {α : Type} [DecidableEq α] (d : α) (m : SMap α) {k j : Nat} (v : α) (hj : j ≠ k) :
    smGet d (smPut d m k v) j = smGet d m j := by
  unfold smPut
  split
  · exact smGet_erase_other d m hj
  · rw [smSet, smGet_insert_other d _ v hj, smGet_erase_other d m hj]

/-! ### Sparse maps: the canonical form -/

/-- The canonical form, said of the list: rising keys and no entry equal to the default. -/
theorem smWf_iff {α : Type} [DecidableEq α] (d : α) (m : SMap α) :
    smWf d m = true ↔ m.Pairwise (fun a b => a.1 < b.1) ∧ ∀ e ∈ m, e.2 ≠ d := by
  induction m with
  | nil => simp [smWf]
  | cons e m ih =>
    cases m with
    | nil => simp [smWf]
    | cons f m =>
      simp only [smWf, Bool.and_eq_true, decide_eq_true_eq, ih]
      constructor
      · rintro ⟨⟨he, hlt⟩, hp, hd⟩
        refine ⟨List.pairwise_cons.2 ⟨?_, hp⟩, ?_⟩
        · intro x hx
          rcases List.mem_cons.1 hx with rfl | hx
          · exact hlt
          · exact Nat.lt_trans hlt ((List.pairwise_cons.1 hp).1 x hx)
        · intro x hx
          rcases List.mem_cons.1 hx with rfl | hx
          · exact he
          · exact hd x hx
      · rintro ⟨hp, hd⟩
        have hp' := List.pairwise_cons.1 hp
        exact ⟨⟨hd e (by simp), hp'.1 f (by simp)⟩, hp'.2, fun x hx => hd x (by simp [hx])⟩

theorem mem_smInsert {α : Type} {m : SMap α} {k : Nat} {v : α} {e : Nat × α} :
    e ∈ smInsert m k v ↔ e = (k, v) ∨ e ∈ m := by
  induction m with
  | nil => simp [smInsert]
  | cons x m ih =>
    by_cases h : k < x.1
    · simp [smInsert, h]
    · simp only [smInsert, h, if_false, List.mem_cons, ih]
      exact ⟨fun c => c.elim (fun a => .inr (.inl a)) (Or.imp id Or.inr), fun c => c.elim (fun a => .inr (.inl a)) (Or.imp id Or.inr)⟩

theorem smErase_wf {α : Type} [DecidableEq α] {d : α} {m : SMap α} (k : Nat) (h : smWf d m = true) :
    smWf d (smErase m k) = true := by
  rw [smWf_iff] at *
  refine ⟨?_, fun e he => h.2 e (mem_smErase.1 he).1⟩
  obtain ⟨hp, -⟩ := h
  induction m with
  | nil => exact hp
  | cons x m ih =>
    have hp' := List.pairwise_cons.1 hp
    by_cases hx : x.1 = k
    · simpa only [smErase, hx, if_true] using ih hp'.2
    · simp only [smErase, hx, if_false]
      exact List.pairwise_cons.2 ⟨fun e he => hp'.1 e (mem_smErase.1 he).1, ih hp'.2⟩

theorem smInsert_wf {α : Type} [DecidableEq α] {d : α} {m : SMap α} {k : Nat} {v : α} (h : smWf d m = true)
    (hv : v ≠ d) (hk : ∀ e ∈ m, e.1 ≠ k) : smWf d (smInsert m k v) = true := by
  rw [smWf_iff] at *
  refine ⟨?_, fun e he => ?_⟩
  · obtain ⟨hp, -⟩ := h
    induction m with
    | nil => simp [smInsert]
    | cons x m ih =>
      have hp' := List.pairwise_cons.1 hp
      by_cases hx : k < x.1
      · simp only [smInsert, hx, if_true]
        refine List.pairwise_cons.2 ⟨fun e he => ?_, hp⟩
        rcases List.mem_cons.1 he with rfl | he
        · exact hx
        · exact Nat.lt_trans hx (hp'.1 e he)
      · simp only [smInsert, hx, if_false]
        refine List.pairwise_cons.2 ⟨fun e he => ?_, ih (fun e he => hk e (by simp [he])) hp'.2⟩
        rcases mem_smInsert.1 he with rfl | he
        · have := hk x (by simp)
          show x.1 < k
          omega
        · exact hp'.1 e he
  · rcases mem_smInsert.1 he with rfl | he
    · exact hv
    · exact h.2 e he

theorem smPut_wf {α : Type} [DecidableEq α] {d : α} {m : SMap α} (k : Nat) (v : α) (h : smWf d m = true) :
    smWf d (smPut d m k v) = true := by
  unfold smPut
  split
  · exact smErase_wf k h
  · rename_i hv
    exact smInsert_wf (smErase_wf k h) hv fun e he => (mem_smErase.1 he).2

theorem smMod_wf {α : Type} [DecidableEq α] {d : α} {m : SMap α} (k : Nat) (f : α → α) (h : smWf d m = true) :
    smWf d (smMod d m k f) = true := smPut_wf _ _ h

theorem filter_wf {α : Type} [DecidableEq α] {d : α} {m : SMap α} (p : Nat × α → Bool) (h : smWf d m = true) :
    smWf d (m.filter p) = true := by
  rw [smWf_iff] at *
  exact ⟨h.1.filter p, fun e he => h.2 e ((List.mem_filter.1 he).1)⟩

/-- Two maps in canonical form that read the same at every key are one list. -/
theorem smWf_ext {α : Type} [DecidableEq α] {d : α} {m n : SMap α} (hm : smWf d m = true) (hn : smWf d n = true)
    (h : ∀ k, smGet d m k = smGet d n k) : m = n := by
  rw [smWf_iff] at hm hn
  induction m generalizing n with
  | nil =>
    cases n with
    | nil => rfl
    | cons f n => exact absurd (by simpa [smGet] using (h f.1).symm) (hn.2 f (by simp))
  | cons e m ih =>
    cases n with
    | nil => exact absurd (by simpa [smGet] using h e.1) (hm.2 e (by simp))
    | cons f n =>
      have hm' := List.pairwise_cons.1 hm.1
      have hn' := List.pairwise_cons.1 hn.1
      have away : ∀ (l : SMap α) (k : Nat), (∀ x ∈ l, k < x.1) → smGet d l k = d := by
        intro l k hl
        induction l with
        | nil => rfl
        | cons x l il =>
          have := hl x (by simp)
          have hne : x.1 ≠ k := by omega
          simp only [smGet, hne, if_false]
          exact il fun y hy => hl y (by simp [hy])
      have hkey : e.1 = f.1 := by
        rcases Nat.lt_trichotomy e.1 f.1 with hlt | heq | hlt
        · have h1 := h e.1
          rw [away (f :: n) e.1 (by
            intro x hx
            rcases List.mem_cons.1 hx with rfl | hx
            · exact hlt
            · exact Nat.lt_trans hlt (hn'.1 x hx))] at h1
          exact absurd (by simpa [smGet] using h1) (hm.2 e (by simp))
        · exact heq
        · have h1 := h f.1
          rw [away (e :: m) f.1 (by
            intro x hx
            rcases List.mem_cons.1 hx with rfl | hx
            · exact hlt
            · exact Nat.lt_trans hlt (hm'.1 x hx))] at h1
          exact absurd (by simpa [smGet] using h1.symm) (hn.2 f (by simp))
      have hval : e.2 = f.2 := by simpa [smGet, hkey] using h f.1
      have hrest : m = n := by
        refine ih ⟨hm'.2, fun x hx => hm.2 x (by simp [hx])⟩ ⟨hn'.2, fun x hx => hn.2 x (by simp [hx])⟩ ?_
        intro k
        by_cases hk : f.1 = k
        · subst hk
          rw [away m f.1 (fun x hx => hkey ▸ hm'.1 x hx), away n f.1 hn'.1]
        · simpa [smGet, hk, hkey ▸ hk] using h k
      rw [hrest, Prod.ext hkey hval]

/-! ### DRAM -/

/-- A byte written reads back. -/
theorem dramByte_put_same (m : List Host.Cell) (a : Nat) (v : Byte) : dramByte (dramPut m a v) a = v :=
  smGet_put_same _ _ _ _

/-- A byte written leaves every other byte. -/
theorem dramByte_put_other (m : List Host.Cell) {a b : Nat} (v : Byte) (h : b ≠ a) :
    dramByte (dramPut m a v) b = dramByte m b := smGet_put_other _ _ _ h

theorem dramByte_putAll_outside (m : List Host.Cell) (a : Nat) (bs : List Byte) {b : Nat}
    (h : b < a ∨ a + bs.length ≤ b) : dramByte (dramPutAll m a bs) b = dramByte m b := by
  induction bs generalizing m a with
  | nil => rfl
  | cons v bs ih =>
    simp only [List.length_cons] at h
    rw [dramPutAll, ih _ _ (by omega), dramByte_put_other _ _ (by omega)]

theorem dramByte_putAll_inside (m : List Host.Cell) (a : Nat) (bs : List Byte) (i : Nat) (h : i < bs.length) :
    dramByte (dramPutAll m a bs) (a + i) = bs[i] := by
  induction bs generalizing m a i with
  | nil => simp at h
  | cons v bs ih =>
    cases i with
    | zero =>
      rw [dramPutAll, dramByte_putAll_outside _ _ _ (by omega)]
      simpa using dramByte_put_same m a v
    | succ i =>
      simp only [List.length_cons] at h
      rw [dramPutAll, show a + (i + 1) = a + 1 + i by omega, ih _ _ i (by omega)]
      rfl

theorem dramPut_wf {m : List Host.Cell} (a : Nat) (v : Byte) (h : Memory.wf m = true) :
    Memory.wf (dramPut m a v) = true := smPut_wf a v h

theorem dramPutAll_wf {m : List Host.Cell} (a : Nat) (bs : List Byte) (h : Memory.wf m = true) :
    Memory.wf (dramPutAll m a bs) = true := by
  induction bs generalizing m a with
  | nil => exact h
  | cons v bs ih => exact ih _ (dramPut_wf a v h)

theorem dramFilter_wf {m : List Host.Cell} (p : Host.Cell → Bool) (h : Memory.wf m = true) :
    Memory.wf (m.filter p) = true := filter_wf p h

theorem dramFoldPut_wf {m : List Host.Cell} (l : List Host.Cell) (f : Host.Cell → Nat) (g : Host.Cell → Byte)
    (h : Memory.wf m = true) : Memory.wf (l.foldl (fun m e => dramPut m (f e) (g e)) m) = true := by
  induction l generalizing m with
  | nil => exact h
  | cons e l ih => exact ih (dramPut_wf _ _ h)

/-- Two DRAM contents in canonical form that read the same at every address are equal data. -/
theorem dram_ext {m n : List Host.Cell} (hm : Memory.wf m = true) (hn : Memory.wf n = true)
    (h : ∀ a, dramByte m a = dramByte n a) : m = n := smWf_ext hm hn h

end Sys2Proof.Machine
end

