-- ==== Sys2Proof/Laws/Keeps.lean ====
section
/-! SUPPORT. What every operation of the block keeps: the queue of waiting commands, the canonical form of
DRAM and of management memory, and the limits of the Courier lists and of the guest book's latches. -/

namespace Sys2Proof.Machine

/-- The queue is `q`; DRAM and management memory are in canonical form; 16 replies, 64 alerts and 2 latched cuts at most. -/
structure Keeps (q : List Instr) (s : State) : Prop where
  queue : s.pending = q
  dram : Memory.wf s.space.dram = true
  replies : s.cr.replies.length ≤ 16
  alerts : s.cr.alerts.length ≤ 64
  latches : s.gb.latches.length ≤ 2
  mgmt : smWf 0#512 s.world.mem = true

section
variable {q : List Instr} {s : State}

theorem keeps_modTime {f : Nat → Nat} (h : Keeps q s) : Keeps q (modTime f s) := ⟨h.1, h.2, h.3, h.4, h.5, h.6⟩
theorem keeps_modSlTime {f : Nat → Nat} (h : Keeps q s) : Keeps q (modSlTime f s) := ⟨h.1, h.2, h.3, h.4, h.5, h.6⟩
theorem keeps_modDict {f : Dict → Dict} (h : Keeps q s) : Keeps q (modDict f s) := ⟨h.1, h.2, h.3, h.4, h.5, h.6⟩
theorem keeps_modSl {f : Safelight → Safelight} (h : Keeps q s) : Keeps q (modSl f s) := ⟨h.1, h.2, h.3, h.4, h.5, h.6⟩
theorem keeps_modHs {f : HotSwap → HotSwap} (h : Keeps q s) : Keeps q (modHs f s) := ⟨h.1, h.2, h.3, h.4, h.5, h.6⟩
theorem keeps_modPs {f : PowerStates → PowerStates} (h : Keeps q s) : Keeps q (modPs f s) := ⟨h.1, h.2, h.3, h.4, h.5, h.6⟩
theorem keeps_modWorld {f : Worlds → Worlds} (hf : ∀ x, smWf 0#512 x.mem = true → smWf 0#512 (f x).mem = true)
    (h : Keeps q s) : Keeps q (modWorld f s) := ⟨h.1, h.2, h.3, h.4, h.5, hf _ h.6⟩
theorem keeps_modUnit {f : UnitService → UnitService} (h : Keeps q s) : Keeps q (modUnit f s) := ⟨h.1, h.2, h.3, h.4, h.5, h.6⟩
theorem keeps_modLink {f : SMap CorrLink → SMap CorrLink} (h : Keeps q s) : Keeps q (modLink f s) := ⟨h.1, h.2, h.3, h.4, h.5, h.6⟩
theorem keeps_modLod {f : Lodgings → Lodgings} (h : Keeps q s) : Keeps q (modLod f s) := ⟨h.1, h.2, h.3, h.4, h.5, h.6⟩
theorem keeps_modPort {f : SMap Port → SMap Port} (h : Keeps q s) : Keeps q (modPort f s) := ⟨h.1, h.2, h.3, h.4, h.5, h.6⟩
theorem keeps_modSw {f : Switch → Switch} (h : Keeps q s) : Keeps q (modSw f s) := ⟨h.1, h.2, h.3, h.4, h.5, h.6⟩
theorem keeps_modReg {f : Regulation → Regulation} (h : Keeps q s) : Keeps q (modReg f s) := ⟨h.1, h.2, h.3, h.4, h.5, h.6⟩
theorem keeps_modCh {f : SMap Chan → SMap Chan} (h : Keeps q s) : Keeps q (modCh f s) := ⟨h.1, h.2, h.3, h.4, h.5, h.6⟩
theorem keeps_modWing {f : SMap Wing → SMap Wing} (h : Keeps q s) : Keeps q (modWing f s) := ⟨h.1, h.2, h.3, h.4, h.5, h.6⟩
theorem keeps_modProt {f : Protect → Protect} (h : Keeps q s) : Keeps q (modProt f s) := ⟨h.1, h.2, h.3, h.4, h.5, h.6⟩
theorem keeps_modLc {f : SMap LcLine → SMap LcLine} (h : Keeps q s) : Keeps q (modLc f s) := ⟨h.1, h.2, h.3, h.4, h.5, h.6⟩
theorem keeps_modTier {f : Tier → Tier} (h : Keeps q s) : Keeps q (modTier f s) := ⟨h.1, h.2, h.3, h.4, h.5, h.6⟩
theorem keeps_modCoh {f : Coherence → Coherence} (h : Keeps q s) : Keeps q (modCoh f s) := ⟨h.1, h.2, h.3, h.4, h.5, h.6⟩
theorem keeps_modComp {f : Comp → Comp} (h : Keeps q s) : Keeps q (modComp f s) := ⟨h.1, h.2, h.3, h.4, h.5, h.6⟩
theorem keeps_modJob {f : Offload → Offload} (h : Keeps q s) : Keeps q (modJob f s) := ⟨h.1, h.2, h.3, h.4, h.5, h.6⟩
theorem keeps_modSpace {f : Space → Space} (hf : ∀ x, Memory.wf x.dram = true → Memory.wf (f x).dram = true)
    (h : Keeps q s) : Keeps q (modSpace f s) := ⟨h.1, hf _ h.2, h.3, h.4, h.5, h.6⟩
theorem keeps_modCr {f : Courier → Courier} (hf : ∀ x, x.replies.length ≤ 16 → (f x).replies.length ≤ 16)
    (hg : ∀ x, x.alerts.length ≤ 64 → (f x).alerts.length ≤ 64) (h : Keeps q s) : Keeps q (modCr f s) :=
  ⟨h.1, h.2, hf _ h.3, hg _ h.4, h.5, h.6⟩
theorem keeps_modGb {f : GuestBook → GuestBook} (hf : ∀ x, x.latches.length ≤ 2 → (f x).latches.length ≤ 2)
    (h : Keeps q s) : Keeps q (modGb f s) := ⟨h.1, h.2, h.3, h.4, hf _ h.5, h.6⟩
theorem keeps_emit {o : Output} (h : Keeps q s) : Keeps q (emit o s) := ⟨h.1, h.2, h.3, h.4, h.5, h.6⟩
theorem keeps_retain {f : Safelight → Safelight} (h : Keeps q s) : Keeps q (retain f s) := keeps_modSl h
theorem keeps_afterDraw (h : Keeps q s) : Keeps q (afterDraw s) := ⟨h.1, h.2, h.3, h.4, h.5, h.6⟩

theorem keeps_forAll {α : Type} {l : List α} {f : α → State → State}
    (hf : ∀ a t, Keeps q t → Keeps q (f a t)) (h : Keeps q s) : Keeps q (forAll l f s) := by
  unfold forAll
  induction l generalizing s with
  | nil => exact h
  | cons a l ih => exact ih (hf a s h)

theorem keeps_onlyIf {b : Bool} {f : State → State} (hf : ∀ t, Keeps q t → Keeps q (f t)) (h : Keeps q s) :
    Keeps q (onlyIf b f s) := by
  unfold onlyIf
  split
  · exact hf s h
  · exact h

theorem keeps_foldl {α : Type} {l : List α} {f : State → α → State}
    (hf : ∀ t a, Keeps q t → Keeps q (f t a)) (h : Keeps q s) : Keeps q (l.foldl f s) := by
  induction l generalizing s with
  | nil => exact h
  | cons a l ih => exact ih (hf s a h)

theorem keeps_foldl_fst {α β : Type} {l : List α} {f : State × β → α → State × β} {i : State × β}
    (hf : ∀ t a, Keeps q t.1 → Keeps q (f t a).1) (h : Keeps q i.1) : Keeps q (l.foldl f i).1 := by
  induction l generalizing i with
  | nil => exact h
  | cons a l ih => exact ih (hf i a h)

theorem keeps_foldl_snd {α β : Type} {l : List α} {f : β × State → α → β × State} {i : β × State}
    (hf : ∀ t a, Keeps q t.2 → Keeps q (f t a).2) (h : Keeps q i.2) : Keeps q (l.foldl f i).2 := by
  induction l generalizing i with
  | nil => exact h
  | cons a l ih => exact ih (hf i a h)

theorem keeps_foldl_snd_snd {α β γ : Type} {l : List α} {f : β × γ × State → α → β × γ × State} {i : β × γ × State}
    (hf : ∀ t a, Keeps q t.2.2 → Keeps q (f t a).2.2) (h : Keeps q i.2.2) : Keeps q (l.foldl f i).2.2 := by
  induction l generalizing i with
  | nil => exact h
  | cons a l ih => exact ih (hf i a h)

theorem keeps_ite_opt {α : Type} {c : Prop} [Decidable c] {a b : Option (α × State)} {x : α} {t : State}
    (e : (if c then a else b) = some (x, t)) (ha : a = some (x, t) → Keeps q t) (hb : b = some (x, t) → Keeps q t) :
    Keeps q t := by
  split at e
  · exact ha e
  · exact hb e

theorem keeps_getD {o : Option State} {t : State} (ho : ∀ u, o = some u → Keeps q u) (h : Keeps q t) :
    Keeps q (o.getD t) := by
  cases o with
  | none => exact h
  | some u => exact ho u rfl

theorem keeps_findSome {α : Type} {l : List α} {f : α → Option State} {t : State} (e : l.findSome? f = some t)
    (hf : ∀ a t, f a = some t → Keeps q t) : Keeps q t := by
  obtain ⟨a, -, ha⟩ := List.exists_of_findSome?_eq_some e
  exact hf a t ha
end

end Sys2Proof.Machine
end

