-- ==== Sys2Proof/Laws/KeepsLog.lean ====
section
/-! SUPPORT. What the operations of Machine/Log.lean keep: one lemma per operation that answers a state. -/

namespace Sys2Proof.Machine

theorem keeps_raiseAlert {q : List Instr} {source kind count seq detail : Nat} {s : State} (h : Keeps q s) :
    Keeps q (raiseAlert source kind count seq detail s) := by
  unfold raiseAlert
  exact keeps_modCr (fun _ hx => hx) (fun x _ => by simp only [newest, List.length_drop]; omega) h

theorem keeps_alertForKind {Q_ : List Instr} {kind seq : Nat} {s : State} (h0 : Keeps Q_ s) : Keeps Q_ (alertForKind kind seq s) := by
  unfold alertForKind
  try dsimp only
  with_reducible repeat' (first
    | assumption | apply keeps_modUnit | apply keeps_raiseAlert | split
    | (intro _) | dsimp only)

theorem keeps_logQuiet {Q_ : List Instr} {kind unit severity : Nat} {page : Option (Nat × Nat)} {body : Nat} {s : State} (h0 : Keeps Q_ s) : Keeps Q_ (logQuiet kind unit severity page body s) := by
  unfold logQuiet
  try dsimp only
  with_reducible repeat' (first
    | assumption | apply keeps_modUnit | split | (intro _) | dsimp only)

theorem keeps_logEvent {Q_ : List Instr} {kind unit severity : Nat} {page : Option (Nat × Nat)} {body : Nat} {s : State} (h0 : Keeps Q_ s) : Keeps Q_ (logEvent kind unit severity page body s) := by
  unfold logEvent
  try dsimp only
  with_reducible repeat' (first
    | assumption | apply keeps_logQuiet | apply keeps_alertForKind | split
    | (intro _) | dsimp only)

theorem keeps_logPlain {Q_ : List Instr} {kind severity : Nat} {s : State} (h0 : Keeps Q_ s) : Keeps Q_ (logPlain kind severity s) := by
  unfold logPlain
  try dsimp only
  with_reducible repeat' (first
    | assumption | apply keeps_logEvent | split | (intro _) | dsimp only)

theorem keeps_alertHoldEnd {Q_ : List Instr} {kind : Nat} {s : State} (h0 : Keeps Q_ s) : Keeps Q_ (alertHoldEnd kind s) := by
  unfold alertHoldEnd
  try dsimp only
  with_reducible repeat' (first
    | assumption | apply keeps_modUnit | apply keeps_raiseAlert | split
    | (intro _) | dsimp only)

theorem keeps_gbAdd {Q_ : List Instr} {k n : Nat} {s : State} (h0 : Keeps Q_ s) : Keeps Q_ (gbAdd k n s) := by
  unfold gbAdd
  try dsimp only
  with_reducible repeat' (first
    | assumption | refine keeps_modGb (fun _ hx => hx) ?_ | split
    | (intro _) | dsimp only)

theorem keeps_gbMax {Q_ : List Instr} {k v : Nat} {s : State} (h0 : Keeps Q_ s) : Keeps Q_ (gbMax k v s) := by
  unfold gbMax
  try dsimp only
  with_reducible repeat' (first
    | assumption | refine keeps_modGb (fun _ hx => hx) ?_ | split
    | (intro _) | dsimp only)

theorem keeps_gbDie {Q_ : List Instr} {d k n : Nat} {s : State} (h0 : Keeps Q_ s) : Keeps Q_ (gbDie d k n s) := by
  unfold gbDie
  try dsimp only
  with_reducible repeat' (first
    | assumption | refine keeps_modGb (fun _ hx => hx) ?_ | split
    | (intro _) | dsimp only)

theorem keeps_gbRail {Q_ : List Instr} {r mv : Nat} {s : State} (h0 : Keeps Q_ s) : Keeps Q_ (gbRail r mv s) := by
  unfold gbRail
  try dsimp only
  with_reducible repeat' (first
    | assumption | refine keeps_modGb (fun _ hx => hx) ?_ | split
    | (intro _) | dsimp only)

theorem keeps_execAlertHold {Q_ : List Instr} {kind : Fin 16} {s : State} (h0 : Keeps Q_ s) : ∃ u_, execAlertHold kind s = .next u_ ∧ Keeps Q_ u_ := by
  refine ⟨_, rfl, ?_⟩
  with_reducible repeat' (first
    | assumption | apply keeps_alertHoldEnd | split | (intro _) | dsimp only)

end Sys2Proof.Machine
end

