-- ==== Sys2Proof/Laws/KeepsGuestBook.lean ====
section
/-! SUPPORT. What the operations of Machine/GuestBook.lean keep: one lemma per operation that answers a state. -/

namespace Sys2Proof.Machine

theorem keeps_gbCutNow {q : List Instr} {cause toSt : Nat} {s : State} (hl : s.gb.latches.length < 2)
    (h : Keeps q s) : Keeps q (gbCutNow cause toSt s) :=
  ⟨h.1, h.2, h.3, h.4, by simp only [gbCutNow, modGb, List.length_append, List.length_singleton]; omega, h.6⟩

theorem keeps_gbFold {Q_ : List Instr} {toSt : Nat} {s : State} (h0 : Keeps Q_ s) : Keeps Q_ (gbFold toSt s) := by
  unfold gbFold
  try dsimp only
  with_reducible repeat' (first
    | assumption | refine keeps_modGb (fun _ hx => hx) ?_ | split
    | (intro _) | dsimp only)

theorem keeps_gbCut {q : List Instr} {cause toSt : Nat} {s : State} (h : Keeps q s) :
    Keeps q (gbCut cause toSt s) := by
  unfold gbCut
  split
  · exact keeps_gbFold h
  · exact keeps_gbCutNow (by omega) h

theorem keeps_psEnter {Q_ : List Instr} {st : PsState} {s : State} (h0 : Keeps Q_ s) : Keeps Q_ (psEnter st s) := by
  unfold psEnter
  try dsimp only
  with_reducible repeat' (first
    | assumption | apply keeps_modPs | apply keeps_gbFold
    | apply keeps_gbCut | split | (intro _) | dsimp only)

theorem keeps_modSector {Q_ : List Instr} {i : Nat} {f : GbSector → GbSector} {s : State} (h0 : Keeps Q_ s) : Keeps Q_ (modSector i f s) := by
  unfold modSector
  try dsimp only
  with_reducible repeat' (first
    | assumption | refine keeps_modGb (fun _ hx => hx) ?_ | split
    | (intro _) | dsimp only)

theorem keeps_gbRetire {Q_ : List Instr} {i : Nat} {s : State} (h0 : Keeps Q_ s) : Keeps Q_ (gbRetire i s) := by
  unfold gbRetire
  try dsimp only
  with_reducible repeat' (first
    | assumption | refine keeps_modGb (fun _ hx => hx) ?_
    | apply keeps_modSector | apply keeps_logPlain | split | (intro _)
    | dsimp only)

theorem keeps_gbWriteFailed {Q_ : List Instr} {sector : Nat} {s : State} (h0 : Keeps Q_ s) : Keeps Q_ (gbWriteFailed sector s) := by
  unfold gbWriteFailed
  try dsimp only
  with_reducible repeat' (first
    | assumption | refine keeps_modGb (fun _ hx => hx) ?_
    | apply keeps_gbRetire | split | (intro _) | dsimp only)

theorem keeps_gbPermPut {Q_ : List Instr} {rec : Nat} {s : State} (h0 : Keeps Q_ s) : Keeps Q_ (gbPermPut rec s) := by
  unfold gbPermPut
  try dsimp only
  with_reducible repeat' (first
    | assumption | refine keeps_modGb (fun _ hx => hx) ?_ | split
    | (intro _) | dsimp only)

theorem keeps_gbPermanent {Q_ : List Instr} {ok : Bool} {rec : Nat} {s : State} (h0 : Keeps Q_ s) : Keeps Q_ (gbPermanent ok rec s) := by
  unfold gbPermanent
  try dsimp only
  with_reducible repeat' (first
    | assumption | apply keeps_gbPermPut | apply keeps_gbWriteFailed | split
    | (intro _) | dsimp only)

theorem keeps_gbHeaderLost {Q_ : List Instr} {i : Nat} {s : State} (h0 : Keeps Q_ s) : Keeps Q_ (gbHeaderLost i s) := by
  unfold gbHeaderLost
  try dsimp only
  with_reducible repeat' (first
    | assumption | apply keeps_modSector | apply keeps_gbRetire
    | apply keeps_foldl | apply keeps_foldl_fst | apply keeps_foldl_snd
    | apply keeps_foldl_snd_snd | split | (intro _) | dsimp only)

theorem keeps_gbPop {q : List Instr} {s : State} (h : Keeps q s) : Keeps q (gbPop s) := by
  refine keeps_modGb (fun x hx => ?_) h
  dsimp only
  split
  · simp
  · rename_i c cs e
    rw [e, List.length_cons] at hx
    split
    · omega
    · simp only [List.length_cons]; omega

theorem keeps_gbRecordWrite {Q_ : List Instr} {ok okPerm : Bool} {s : State} (h0 : Keeps Q_ s) : Keeps Q_ (gbRecordWrite ok okPerm s) := by
  unfold gbRecordWrite
  try dsimp only
  with_reducible repeat' (first
    | refine keeps_modGb (fun _ hx => Nat.le_trans (by simp only [List.length_drop]; omega) hx) ?_
    | assumption | refine keeps_modGb (fun _ hx => hx) ?_
    | apply keeps_gbPop | apply keeps_gbPermanent | apply keeps_modSector
    | apply keeps_gbWriteFailed | apply keeps_gbRetire | split | (intro _)
    | dsimp only)

theorem keeps_gbStandbyRise {Q_ : List Instr} {s : State} (h0 : Keeps Q_ s) : Keeps Q_ (gbStandbyRise s) := by
  unfold gbStandbyRise
  try dsimp only
  with_reducible repeat' (first
    | refine keeps_modGb (fun _ _ => by simp only [List.length_singleton]; omega) ?_
    | assumption | refine keeps_modGb (fun _ hx => hx) ?_ | split
    | (intro _) | dsimp only)

theorem keeps_tempSampleDie {Q_ : List Instr} {d : Nat} {s : State} (h0 : Keeps Q_ s) : Keeps Q_ (tempSampleDie d s) := by
  unfold tempSampleDie
  try dsimp only
  with_reducible repeat' (first
    | assumption | apply keeps_gbRail | apply keeps_gbAdd | split
    | (intro _) | dsimp only)

theorem keeps_execGbHourCut {Q_ : List Instr} {s : State} (h0 : Keeps Q_ s) : ∃ u_, execGbHourCut s = .next u_ ∧ Keeps Q_ u_ := by
  refine ⟨_, rfl, ?_⟩
  with_reducible repeat' (first
    | assumption | apply keeps_onlyIf | apply keeps_gbCut | split
    | (intro _) | dsimp only)

theorem keeps_execGbRecordWrite {Q_ : List Instr} {verified : GbVerified} {s : State} (h0 : Keeps Q_ s) : ∃ u_, execGbRecordWrite verified s = .next u_ ∧ Keeps Q_ u_ := by
  refine ⟨_, rfl, ?_⟩
  with_reducible repeat' (first
    | assumption | apply keeps_gbRecordWrite | split | (intro _)
    | dsimp only)

theorem keeps_execTempSample {Q_ : List Instr} {s : State} (h0 : Keeps Q_ s) : ∃ u_, execTempSample s = .next u_ ∧ Keeps Q_ u_ := by
  refine ⟨_, rfl, ?_⟩
  with_reducible repeat' (first
    | assumption | apply keeps_onlyIf | apply keeps_gbRail
    | apply keeps_forAll | apply keeps_tempSampleDie | split | (intro _)
    | dsimp only)

end Sys2Proof.Machine
end

