-- ==== Sys2Proof/Laws/KeepsCourier.lean ====
section
/-! SUPPORT. What the operations of Machine/Courier.lean keep: one lemma per operation that answers a state. -/

namespace Sys2Proof.Machine

theorem keeps_bumpCr {Q_ : List Instr} {i : Nat} {s : State} (h0 : Keeps Q_ s) : Keeps Q_ (bumpCr i s) := by
  unfold bumpCr
  try dsimp only
  with_reducible repeat' (first
    | assumption | refine keeps_modCr (fun _ hx => hx) (fun _ hx => hx) ?_
    | split | (intro _) | dsimp only)

theorem keeps_frameDiscard {Q_ : List Instr} {badCrc : Bool} {s : State} (h0 : Keeps Q_ s) : Keeps Q_ (frameDiscard badCrc s) := by
  unfold frameDiscard
  try dsimp only
  with_reducible repeat' (first
    | assumption | apply keeps_gbAdd | apply keeps_bumpCr | split
    | (intro _) | dsimp only)

theorem keeps_frameTaken {Q_ : List Instr} {s : State} (h0 : Keeps Q_ s) : Keeps Q_ (frameTaken s) := by
  unfold frameTaken
  try dsimp only
  with_reducible repeat' (first
    | assumption | refine keeps_modCr (fun _ hx => hx) (fun _ hx => hx) ?_
    | apply keeps_bumpCr | split | (intro _) | dsimp only)

theorem keeps_arbLost {Q_ : List Instr} {arb : Arb} {s : State} (h0 : Keeps Q_ s) : Keeps Q_ (arbLost arb s) := by
  unfold arbLost
  try dsimp only
  with_reducible repeat' (first
    | assumption | refine keeps_modCr (fun _ hx => hx) (fun _ hx => hx) ?_
    | apply keeps_bumpCr | apply keeps_raiseAlert | split | (intro _)
    | dsimp only)

theorem keeps_replySent {Q_ : List Instr} {r : CrReply} {rsp : Resp} {s : State} (h0 : Keeps Q_ s) : Keeps Q_ (replySent r rsp s) := by
  unfold replySent
  try dsimp only
  with_reducible repeat' (first
    | refine keeps_modCr (fun _ hx => Nat.le_trans (List.length_filter_le _ _) hx) (fun _ hx => hx) ?_
    | assumption | refine keeps_modCr (fun _ hx => hx) (fun _ hx => hx) ?_
    | apply keeps_emit | apply keeps_bumpCr | split | (intro _) | dsimp only)

theorem keeps_sendReply {Q_ : List Instr} {arb : Arb} {s : State} (h0 : Keeps Q_ s) : Keeps Q_ (sendReply arb s) := by
  unfold sendReply
  try dsimp only
  with_reducible repeat' (first
    | assumption | apply keeps_replySent | apply keeps_arbLost | split
    | (intro _) | dsimp only)

theorem keeps_sendAlert {Q_ : List Instr} {arb : Arb} {s : State} (h0 : Keeps Q_ s) : Keeps Q_ (sendAlert arb s) := by
  unfold sendAlert
  try dsimp only
  with_reducible repeat' (first
    | assumption | refine keeps_modCr (fun _ hx => hx) (fun _ hx => hx) ?_
    | apply keeps_emit | apply keeps_bumpCr | apply keeps_arbLost | split
    | (intro _) | dsimp only)

theorem keeps_takeAssign {Q_ : List Instr} {dest src : BitVec 18} {crc : BitVec 16} {endOk : Bool} {s : State} (h0 : Keeps Q_ s) : Keeps Q_ (takeAssign dest src crc endOk s) := by
  unfold takeAssign
  try dsimp only
  with_reducible repeat' (first
    | assumption | refine keeps_modCr (fun _ hx => hx) (fun _ hx => hx) ?_
    | apply keeps_frameDiscard | apply keeps_emit | apply keeps_bumpCr
    | apply keeps_frameTaken | split | (intro _) | dsimp only)

theorem keeps_takeRelease {Q_ : List Instr} {dest src : BitVec 18} {crc : BitVec 16} {endOk : Bool} {s : State} (h0 : Keeps Q_ s) : Keeps Q_ (takeRelease dest src crc endOk s) := by
  unfold takeRelease
  try dsimp only
  with_reducible repeat' (first
    | assumption | refine keeps_modCr (fun _ hx => hx) (fun _ hx => hx) ?_
    | apply keeps_frameDiscard | apply keeps_frameTaken | split | (intro _)
    | dsimp only)

theorem keeps_enumInChange {Q_ : List Instr} {high : Bool} {s : State} (h0 : Keeps Q_ s) : Keeps Q_ (enumInChange high s) := by
  unfold enumInChange
  try dsimp only
  with_reducible repeat' (first
    | assumption | refine keeps_modCr (fun _ hx => hx) (fun _ hx => hx) ?_
    | split | (intro _) | dsimp only)

theorem keeps_enumInHeldHigh {Q_ : List Instr} {s : State} (h0 : Keeps Q_ s) : Keeps Q_ (enumInHeldHigh s) := by
  unfold enumInHeldHigh
  try dsimp only
  with_reducible repeat' (first
    | assumption | refine keeps_modCr (fun _ hx => hx) (fun _ hx => hx) ?_
    | split | (intro _) | dsimp only)

theorem keeps_enumOutRaise {Q_ : List Instr} {s : State} (h0 : Keeps Q_ s) : Keeps Q_ (enumOutRaise s) := by
  unfold enumOutRaise
  try dsimp only
  with_reducible repeat' (first
    | assumption | refine keeps_modCr (fun _ hx => hx) (fun _ hx => hx) ?_
    | split | (intro _) | dsimp only)

theorem keeps_stallTimeout {Q_ : List Instr} {railHeld : Bool} {s : State} (h0 : Keeps Q_ s) : Keeps Q_ (stallTimeout railHeld s) := by
  unfold stallTimeout
  try dsimp only
  with_reducible repeat' (first
    | assumption | refine keeps_modCr (fun _ hx => hx) (fun _ hx => hx) ?_
    | apply keeps_raiseAlert | apply keeps_gbAdd | apply keeps_frameDiscard
    | split | (intro _) | dsimp only)

theorem keeps_execReply {Q_ : List Instr} {arb : Arb} {s : State} (h0 : Keeps Q_ s) : ∃ u_, execReply arb s = .next u_ ∧ Keeps Q_ u_ := by
  refine ⟨_, rfl, ?_⟩
  with_reducible repeat' (first
    | assumption | apply keeps_sendReply | split | (intro _) | dsimp only)

theorem keeps_execAlert {Q_ : List Instr} {arb : Arb} {s : State} (h0 : Keeps Q_ s) : ∃ u_, execAlert arb s = .next u_ ∧ Keeps Q_ u_ := by
  refine ⟨_, rfl, ?_⟩
  with_reducible repeat' (first
    | assumption | apply keeps_sendAlert | split | (intro _) | dsimp only)

theorem keeps_execAssign {Q_ : List Instr} {dest src : BitVec 18} {crc : BitVec 16} {endOk : Bool} {s : State} (h0 : Keeps Q_ s) : ∃ u_, execAssign dest src crc endOk s = .next u_ ∧ Keeps Q_ u_ := by
  refine ⟨_, rfl, ?_⟩
  with_reducible repeat' (first
    | assumption | apply keeps_takeAssign | split | (intro _) | dsimp only)

theorem keeps_execEnumOutRaise {Q_ : List Instr} {s : State} (h0 : Keeps Q_ s) : ∃ u_, execEnumOutRaise s = .next u_ ∧ Keeps Q_ u_ := by
  refine ⟨_, rfl, ?_⟩
  with_reducible repeat' (first
    | assumption | apply keeps_enumOutRaise | split | (intro _) | dsimp only)

theorem keeps_execEnumIn {Q_ : List Instr} {high : Bool} {s : State} (h0 : Keeps Q_ s) : ∃ u_, execEnumIn high s = .next u_ ∧ Keeps Q_ u_ := by
  refine ⟨_, rfl, ?_⟩
  with_reducible repeat' (first
    | assumption | apply keeps_enumInChange | split | (intro _) | dsimp only)

theorem keeps_execEnumInHeldHigh {Q_ : List Instr} {s : State} (h0 : Keeps Q_ s) : ∃ u_, execEnumInHeldHigh s = .next u_ ∧ Keeps Q_ u_ := by
  refine ⟨_, rfl, ?_⟩
  with_reducible repeat' (first
    | assumption | apply keeps_enumInHeldHigh | split | (intro _)
    | dsimp only)

theorem keeps_execRelease {Q_ : List Instr} {dest src : BitVec 18} {crc : BitVec 16} {endOk : Bool} {s : State} (h0 : Keeps Q_ s) : ∃ u_, execRelease dest src crc endOk s = .next u_ ∧ Keeps Q_ u_ := by
  refine ⟨_, rfl, ?_⟩
  with_reducible repeat' (first
    | assumption | apply keeps_takeRelease | split | (intro _) | dsimp only)

theorem keeps_execCrStallTimeout {Q_ : List Instr} {railHeld : Bool} {s : State} (h0 : Keeps Q_ s) : ∃ u_, execCrStallTimeout railHeld s = .next u_ ∧ Keeps Q_ u_ := by
  refine ⟨_, rfl, ?_⟩
  with_reducible repeat' (first
    | assumption | apply keeps_stallTimeout | split | (intro _) | dsimp only)

theorem keeps_execRailHoldRelease {Q_ : List Instr} {s : State} (h0 : Keeps Q_ s) : ∃ u_, execRailHoldRelease s = .next u_ ∧ Keeps Q_ u_ := by
  refine ⟨_, rfl, ?_⟩
  with_reducible repeat' (first
    | assumption | apply keeps_onlyIf | apply keeps_bumpCr | split
    | (intro _) | dsimp only)

theorem keeps_execCourierBusIdle {Q_ : List Instr} {s : State} (h0 : Keeps Q_ s) : ∃ u_, execCourierBusIdle s = .next u_ ∧ Keeps Q_ u_ := by
  refine ⟨_, rfl, ?_⟩
  with_reducible repeat' (first
    | assumption | refine keeps_modCr (fun _ hx => hx) (fun _ hx => hx) ?_
    | apply keeps_onlyIf | split | (intro _) | dsimp only)

end Sys2Proof.Machine
end

