-- ==== Sys2Proof/Laws/KeepsLoss.lean ====
section
/-! SUPPORT. What the operations of Machine/Loss.lean keep: one lemma per operation that answers a state. -/

namespace Sys2Proof.Machine

theorem keeps_dieSramGone {q : List Instr} {s : State} (h : Keeps q s) : Keeps q (dieSramGone s) :=
  ⟨h.1, h.2, h.3, h.4, h.5, rfl⟩

theorem keeps_diesLost {Q_ : List Instr} {s : State} (h0 : Keeps Q_ s) : Keeps Q_ (diesLost s) := by
  unfold diesLost
  try dsimp only
  with_reducible repeat' (first
    | refine keeps_modSpace (fun _ _ => rfl) ?_ | assumption
    | refine keeps_modSpace (fun _ hx => hx) ?_ | apply keeps_dieSramGone
    | split | (intro _) | dsimp only)

theorem keeps_openAllBranches {Q_ : List Instr} {s : State} (h0 : Keeps Q_ s) : Keeps Q_ (openAllBranches s) := by
  unfold openAllBranches
  try dsimp only
  with_reducible repeat' (first
    | assumption | apply keeps_modHs | split | (intro _) | dsimp only)

theorem keeps_diePowerLost {Q_ : List Instr} {cause : Nat} {s : State} (h0 : Keeps Q_ s) : Keeps Q_ (diePowerLost cause s) := by
  unfold diePowerLost
  try dsimp only
  with_reducible repeat' (first
    | assumption | apply keeps_modSl | apply keeps_modPs
    | apply keeps_diesLost | apply keeps_openAllBranches
    | apply keeps_psEnter | split | (intro _) | dsimp only)

theorem keeps_mainPowerLost {Q_ : List Instr} {s : State} (h0 : Keeps Q_ s) : Keeps Q_ (mainPowerLost s) := by
  unfold mainPowerLost
  try dsimp only
  with_reducible repeat' (first
    | assumption | apply keeps_diePowerLost | split | (intro _) | dsimp only)

end Sys2Proof.Machine
end

