-- ==== Sys2Proof/Laws/KeepsPresence.lean ====
section
/-! SUPPORT. What the operations of Machine/Presence.lean keep: one lemma per operation that answers a state. -/

namespace Sys2Proof.Machine

theorem keeps_presenceLow {Q_ : List Instr} {s : State} (h0 : Keeps Q_ s) : Keeps Q_ (presenceLow s) := by
  unfold presenceLow
  try dsimp only
  with_reducible repeat' (first
    | assumption | apply keeps_modSl | split | (intro _) | dsimp only)

theorem keeps_presenceHigh {Q_ : List Instr} {s : State} (h0 : Keeps Q_ s) : Keeps Q_ (presenceHigh s) := by
  unfold presenceHigh
  try dsimp only
  with_reducible repeat' (first
    | assumption | apply keeps_modSl | apply keeps_presenceLow | split
    | (intro _) | dsimp only)

theorem keeps_windowClose {Q_ : List Instr} {s : State} (h0 : Keeps Q_ s) : Keeps Q_ (windowClose s) := by
  unfold windowClose
  try dsimp only
  with_reducible repeat' (first
    | assumption | apply keeps_modSl | split | (intro _) | dsimp only)

theorem keeps_sealSample {Q_ : List Instr} {matched : Bool} {s : State} (h0 : Keeps Q_ s) : Keeps Q_ (sealSample matched s) := by
  unfold sealSample
  try dsimp only
  with_reducible repeat' (first
    | assumption | apply keeps_modSl | split | (intro _) | dsimp only)

theorem keeps_execPresenceWindowEnd {Q_ : List Instr} {s : State} (h0 : Keeps Q_ s) : ∃ u_, execPresenceWindowEnd s = .next u_ ∧ Keeps Q_ u_ := by
  refine ⟨_, rfl, ?_⟩
  with_reducible repeat' (first
    | assumption | apply keeps_windowClose | split | (intro _) | dsimp only)

theorem keeps_execSealLoopSample {Q_ : List Instr} {matched : Bool} {s : State} (h0 : Keeps Q_ s) : ∃ u_, execSealLoopSample matched s = .next u_ ∧ Keeps Q_ u_ := by
  refine ⟨_, rfl, ?_⟩
  with_reducible repeat' (first
    | assumption | apply keeps_sealSample | split | (intro _) | dsimp only)

end Sys2Proof.Machine
end

