-- ==== Sys2Proof/Laws/KeepsCmd.lean ====
section
/-! SUPPORT. What the operations of Machine/Cmd.lean keep: one lemma per operation that answers a state. -/

namespace Sys2Proof.Machine

theorem keeps_cmdEnd {Q_ : List Instr} {row param status detail : Nat} {s : State} (h0 : Keeps Q_ s) : Keeps Q_ (cmdEnd row param status detail s) := by
  unfold cmdEnd
  try dsimp only
  with_reducible repeat' (first
    | assumption | apply keeps_modDict | split | (intro _) | dsimp only)

theorem keeps_putParam {Q_ : List Instr} {row n v : Nat} {s : State} (h0 : Keeps Q_ s) : Keeps Q_ (putParam row n v s) := by
  unfold putParam
  try dsimp only
  with_reducible repeat' (first
    | assumption | apply keeps_modDict | split | (intro _) | dsimp only)

theorem keeps_autoRefused {Q_ : List Instr} {param st : Nat} {s : State} (h0 : Keeps Q_ s) : Keeps Q_ (autoRefused param st s) := by
  unfold autoRefused
  try dsimp only
  with_reducible repeat' (first
    | assumption | apply keeps_modDict | split | (intro _) | dsimp only)

theorem keeps_autoCommand {Q_ : List Instr} {param : Nat} {s : State} (h0 : Keeps Q_ s) : Keeps Q_ (autoCommand param s) := by
  unfold autoCommand
  try dsimp only
  with_reducible repeat' (first
    | assumption | apply keeps_modDict | split | (intro _) | dsimp only)

end Sys2Proof.Machine
end

