-- ==== Sys2Proof/Laws/KeepsLinks.lean ====
section
/-! SUPPORT. What the operations of Machine/Links.lean keep: one lemma per operation that answers a state. -/

namespace Sys2Proof.Machine

theorem keeps_modLinkAt {Q_ : List Instr} {k : Nat} {f : CorrLink → CorrLink} {s : State} (h0 : Keeps Q_ s) : Keeps Q_ (modLinkAt k f s) := by
  unfold modLinkAt
  try dsimp only
  with_reducible repeat' (first
    | assumption | apply keeps_modLink | split | (intro _) | dsimp only)

theorem keeps_creditOut {Q_ : List Instr} {via pair : Nat} {s : State} (h0 : Keeps Q_ s) : Keeps Q_ (creditOut via pair s) := by
  unfold creditOut
  try dsimp only
  with_reducible repeat' (first
    | assumption | apply keeps_modLinkAt | split | (intro _) | dsimp only)

theorem keeps_creditBack {Q_ : List Instr} {via pair : Nat} {s : State} (h0 : Keeps Q_ s) : Keeps Q_ (creditBack via pair s) := by
  unfold creditBack
  try dsimp only
  with_reducible repeat' (first
    | assumption | apply keeps_modLinkAt | split | (intro _) | dsimp only)

theorem keeps_bumpLink {Q_ : List Instr} {k i : Nat} {s : State} (h0 : Keeps Q_ s) : Keeps Q_ (bumpLink k i s) := by
  unfold bumpLink
  try dsimp only
  with_reducible repeat' (first
    | assumption | apply keeps_modLinkAt | split | (intro _) | dsimp only)

theorem keeps_holdNew {Q_ : List Instr} {k : Nat} {toB : Bool} {x : Xfer} {s : State} (h0 : Keeps Q_ s) : Keeps Q_ (holdNew k toB x s) := by
  unfold holdNew
  try dsimp only
  with_reducible repeat' (first
    | assumption | apply keeps_modLinkAt | split | (intro _) | dsimp only)

theorem keeps_linkSend {Q_ : List Instr} {k : Nat} {toB : Bool} {what : LinkSend} {s : State} (h0 : Keeps Q_ s) : Keeps Q_ (linkSend k toB what s).1 := by
  unfold linkSend
  try dsimp only
  with_reducible repeat' (first
    | assumption | apply keeps_modLinkAt | apply keeps_holdNew
    | apply keeps_onlyIf | apply keeps_bumpLink | split | (intro _)
    | dsimp only)
theorem keeps_linkSend_eq {Q_ : List Instr} {k : Nat} {toB : Bool} {what : LinkSend} {s : State} {t_ x_} (e_ : linkSend k toB what s = (t_, x_)) (h0 : Keeps Q_ s) : Keeps Q_ t_ := by
  have h_ := keeps_linkSend (Q_ := Q_) (k := k) (toB := toB) (what := what) (s := s) h0
  rw [e_] at h_; exact h_

theorem keeps_applyAck {Q_ : List Instr} {k : Nat} {toB : Bool} {ack : Nat} {s : State} (h0 : Keeps Q_ s) : Keeps Q_ (applyAck k toB ack s) := by
  unfold applyAck
  try dsimp only
  with_reducible repeat' (first
    | assumption | apply keeps_forAll | apply keeps_modLinkAt | split
    | (intro _) | dsimp only)

theorem keeps_applyNak {Q_ : List Instr} {k : Nat} {toB : Bool} {ack : Nat} {s : State} (h0 : Keeps Q_ s) : Keeps Q_ (applyNak k toB ack s).1 := by
  unfold applyNak
  try dsimp only
  with_reducible repeat' (first
    | assumption | apply keeps_bumpLink | apply keeps_modLinkAt | split
    | (intro _) | dsimp only)
theorem keeps_applyNak_eq {Q_ : List Instr} {k : Nat} {toB : Bool} {ack : Nat} {s : State} {t_ x_} (e_ : applyNak k toB ack s = (t_, x_)) (h0 : Keeps Q_ s) : Keeps Q_ t_ := by
  have h_ := keeps_applyNak (Q_ := Q_) (k := k) (toB := toB) (ack := ack) (s := s) h0
  rw [e_] at h_; exact h_

theorem keeps_rxDiscard {Q_ : List Instr} {k : Nat} {toB : Bool} {s : State} (h0 : Keeps Q_ s) : Keeps Q_ (rxDiscard k toB s) := by
  unfold rxDiscard
  try dsimp only
  with_reducible repeat' (first
    | assumption | apply keeps_modLinkAt | split | (intro _) | dsimp only)

theorem keeps_rxDeliver {Q_ : List Instr} {k : Nat} {toB : Bool} {x : Xfer} {s : State} (h0 : Keeps Q_ s) : Keeps Q_ (rxDeliver k toB x s) := by
  unfold rxDeliver
  try dsimp only
  with_reducible repeat' (first
    | assumption | apply keeps_modLinkAt | split | (intro _) | dsimp only)

theorem keeps_goodArrival {Q_ : List Instr} {k : Nat} {toB : Bool} {x : Xfer} {rcw : Nat} {s : State} (h0 : Keeps Q_ s) : Keeps Q_ (goodArrival k toB x rcw s).1 := by
  unfold goodArrival
  try dsimp only
  with_reducible repeat' (first
    | assumption | apply keeps_rxDiscard | apply keeps_rxDeliver
    | apply keeps_applyAck | apply keeps_modLinkAt | apply keeps_applyNak
    | refine keeps_applyNak_eq (by assumption) ?_ | split | (intro _)
    | dsimp only)
theorem keeps_goodArrival_eq {Q_ : List Instr} {k : Nat} {toB : Bool} {x : Xfer} {rcw : Nat} {s : State} {t_ x_} (e_ : goodArrival k toB x rcw s = (t_, x_)) (h0 : Keeps Q_ s) : Keeps Q_ t_ := by
  have h_ := keeps_goodArrival (Q_ := Q_) (k := k) (toB := toB) (x := x) (rcw := rcw) (s := s) h0
  rw [e_] at h_; exact h_

theorem keeps_transfer {Q_ : List Instr} {k : Nat} {toB : Bool} {what : LinkSend} {err : BitVec 896} {invalid : Bool} {s : State} (h0 : Keeps Q_ s) : Keeps Q_ (transfer k toB what err invalid s).1 := by
  unfold transfer
  try dsimp only
  with_reducible repeat' (first
    | assumption | apply keeps_linkSend
    | refine keeps_linkSend_eq (by assumption) ?_ | apply keeps_modLinkAt
    | apply keeps_rxDiscard | apply keeps_bumpLink | apply keeps_goodArrival
    | refine keeps_goodArrival_eq (by assumption) ?_ | split | (intro _)
    | dsimp only)
theorem keeps_transfer_eq {Q_ : List Instr} {k : Nat} {toB : Bool} {what : LinkSend} {err : BitVec 896} {invalid : Bool} {s : State} {t_ x_} (e_ : transfer k toB what err invalid s = (t_, x_)) (h0 : Keeps Q_ s) : Keeps Q_ t_ := by
  have h_ := keeps_transfer (Q_ := Q_) (k := k) (toB := toB) (what := what) (err := err) (invalid := invalid) (s := s) h0
  rw [e_] at h_; exact h_

theorem keeps_linkReset {Q_ : List Instr} {k : Nat} {byB : Bool} {cause : Nat} {s : State} (h0 : Keeps Q_ s) : Keeps Q_ (linkReset k byB cause s).1 := by
  unfold linkReset
  try dsimp only
  with_reducible repeat' (first
    | assumption | apply keeps_modLinkAt | split | (intro _) | dsimp only)
theorem keeps_linkReset_eq {Q_ : List Instr} {k : Nat} {byB : Bool} {cause : Nat} {s : State} {t_ x_} (e_ : linkReset k byB cause s = (t_, x_)) (h0 : Keeps Q_ s) : Keeps Q_ t_ := by
  have h_ := keeps_linkReset (Q_ := Q_) (k := k) (byB := byB) (cause := cause) (s := s) h0
  rw [e_] at h_; exact h_

theorem keeps_linkResetReq {Q_ : List Instr} {k : Nat} {byB : Bool} {cause : Nat} {s : State} (h0 : Keeps Q_ s) : Keeps Q_ (linkResetReq k byB cause s).1 := by
  unfold linkResetReq
  try dsimp only
  with_reducible repeat' (first
    | assumption | apply keeps_modLinkAt | apply keeps_linkReset
    | refine keeps_linkReset_eq (by assumption) ?_ | split | (intro _)
    | dsimp only)
theorem keeps_linkResetReq_eq {Q_ : List Instr} {k : Nat} {byB : Bool} {cause : Nat} {s : State} {t_ x_} (e_ : linkResetReq k byB cause s = (t_, x_)) (h0 : Keeps Q_ s) : Keeps Q_ t_ := by
  have h_ := keeps_linkResetReq (Q_ := Q_) (k := k) (byB := byB) (cause := cause) (s := s) h0
  rw [e_] at h_; exact h_

theorem keeps_linkTested {Q_ : List Instr} {k : Nat} {badAB badBA : BitVec 78} {s : State} (h0 : Keeps Q_ s) : Keeps Q_ (linkTested k badAB badBA s).1 := by
  unfold linkTested
  try dsimp only
  with_reducible repeat' (first
    | assumption | apply keeps_modLinkAt | split | (intro _) | dsimp only)
theorem keeps_linkTested_eq {Q_ : List Instr} {k : Nat} {badAB badBA : BitVec 78} {s : State} {t_ x_} (e_ : linkTested k badAB badBA s = (t_, x_)) (h0 : Keeps Q_ s) : Keeps Q_ t_ := by
  have h_ := keeps_linkTested (Q_ := Q_) (k := k) (badAB := badAB) (badBA := badBA) (s := s) h0
  rw [e_] at h_; exact h_

theorem keeps_linkMapped {Q_ : List Instr} {k : Nat} {unchanged : Bool} {s : State} (h0 : Keeps Q_ s) : Keeps Q_ (linkMapped k unchanged s).1 := by
  unfold linkMapped
  try dsimp only
  with_reducible repeat' (first
    | assumption | apply keeps_modLinkAt | split | (intro _) | dsimp only)
theorem keeps_linkMapped_eq {Q_ : List Instr} {k : Nat} {unchanged : Bool} {s : State} {t_ x_} (e_ : linkMapped k unchanged s = (t_, x_)) (h0 : Keeps Q_ s) : Keeps Q_ t_ := by
  have h_ := keeps_linkMapped (Q_ := Q_) (k := k) (unchanged := unchanged) (s := s) h0
  rw [e_] at h_; exact h_

theorem keeps_linkCreditsSent {Q_ : List Instr} {k pct : Nat} {s : State} (h0 : Keeps Q_ s) : Keeps Q_ (linkCreditsSent k pct s) := by
  unfold linkCreditsSent
  try dsimp only
  with_reducible repeat' (first
    | assumption | apply keeps_modLinkAt | apply keeps_forAll
    | apply keeps_foldl | apply keeps_foldl_fst | apply keeps_foldl_snd
    | apply keeps_foldl_snd_snd | split | (intro _) | dsimp only)

theorem keeps_linkResumes {Q_ : List Instr} {k : Nat} {s : State} (h0 : Keeps Q_ s) : Keeps Q_ (linkResumes k s) := by
  unfold linkResumes
  try dsimp only
  with_reducible repeat' (first
    | assumption | apply keeps_modLinkAt | split | (intro _) | dsimp only)

theorem keeps_rerouted {Q_ : List Instr} {k : Nat} {toB : Bool} {e : Detour} {s : State} (h0 : Keeps Q_ s) : Keeps Q_ (rerouted k toB e s) := by
  unfold rerouted
  try dsimp only
  with_reducible repeat' (first
    | assumption | apply keeps_modLinkAt | split | (intro _) | dsimp only)

theorem keeps_linkDown {Q_ : List Instr} {k : Nat} {s : State} (h0 : Keeps Q_ s) : Keeps Q_ (linkDown k s) := by
  unfold linkDown
  try dsimp only
  with_reducible repeat' (first
    | assumption | apply keeps_modLinkAt | apply keeps_cmdEnd
    | apply keeps_forAll | apply keeps_rerouted | split | (intro _)
    | dsimp only)

theorem keeps_linkStops {Q_ : List Instr} {k : Nat} {s : State} (h0 : Keeps Q_ s) : Keeps Q_ (linkStops k s) := by
  unfold linkStops
  try dsimp only
  with_reducible repeat' (first
    | assumption | apply keeps_modLinkAt | split | (intro _) | dsimp only)

end Sys2Proof.Machine
end

