-- ==== Sys2Proof/Laws/KeepsNotice.lean ====
section
/-! SUPPORT. What the operations of Machine/Notice.lean keep: one lemma per operation that answers a state. -/

namespace Sys2Proof.Machine

theorem keeps_modPortAt {Q_ : List Instr} {p : Nat} {f : Port → Port} {s : State} (h0 : Keeps Q_ s) : Keeps Q_ (modPortAt p f s) := by
  unfold modPortAt
  try dsimp only
  with_reducible repeat' (first
    | assumption | apply keeps_modPort | split | (intro _) | dsimp only)

theorem keeps_modLodge {Q_ : List Instr} {n : Nat} {f : Lodge → Lodge} {s : State} (h0 : Keeps Q_ s) : Keeps Q_ (modLodge n f s) := by
  unfold modLodge
  try dsimp only
  with_reducible repeat' (first
    | assumption | apply keeps_modLod | split | (intro _) | dsimp only)

theorem keeps_putEvent {Q_ : List Instr} {p log : Nat} {b : EventBody} {s : State} (h0 : Keeps Q_ s) : Keeps Q_ (putEvent p log b s) := by
  unfold putEvent
  try dsimp only
  with_reducible repeat' (first
    | assumption | apply keeps_modPortAt | split | (intro _) | dsimp only)

theorem keeps_putEvents {Q_ : List Instr} {ps : List Nat} {log : Nat} {b : EventBody} {s : State} (h0 : Keeps Q_ s) : Keeps Q_ (putEvents ps log b s) := by
  unfold putEvents
  try dsimp only
  with_reducible repeat' (first
    | assumption | apply keeps_forAll | apply keeps_putEvent | split
    | (intro _) | dsimp only)

theorem keeps_notePage {Q_ : List Instr} {log n page : Nat} {s : State} (h0 : Keeps Q_ s) : Keeps Q_ (notePage log n page s) := by
  unfold notePage
  try dsimp only
  with_reducible repeat' (first
    | assumption | apply keeps_forAll | apply keeps_putEvent | split
    | (intro _) | dsimp only)

theorem keeps_noticeFmPort {Q_ : List Instr} {u st : Nat} {s : State} (h0 : Keeps Q_ s) : Keeps Q_ (noticeFmPort u st s) := by
  unfold noticeFmPort
  try dsimp only
  with_reducible repeat' (first
    | assumption | apply keeps_putEvent | split | (intro _) | dsimp only)

theorem keeps_lossNotice {Q_ : List Instr} {kind n page body : Nat} {s : State} (h0 : Keeps Q_ s) : Keeps Q_ (lossNotice kind n page body s) := by
  unfold lossNotice
  try dsimp only
  with_reducible repeat' (first
    | assumption | apply keeps_notePage | apply keeps_logEvent | split
    | (intro _) | dsimp only)

theorem keeps_refusedNotice {Q_ : List Instr} {kind p dpa : Nat} {s : State} (h0 : Keeps Q_ s) : Keeps Q_ (refusedNotice kind p dpa s) := by
  unfold refusedNotice
  try dsimp only
  with_reducible repeat' (first
    | assumption | apply keeps_putEvent | apply keeps_logEvent | split
    | (intro _) | dsimp only)

end Sys2Proof.Machine
end

