-- ==== Sys2Proof/Laws/KeepsRegulate.lean ====
section
/-! SUPPORT. What the operations of Machine/Regulate.lean keep: one lemma per operation that answers a state. -/

namespace Sys2Proof.Machine

theorem keeps_modUnitRec {Q_ : List Instr} {u : Nat} {f : UnitRec → UnitRec} {s : State} (h0 : Keeps Q_ s) : Keeps Q_ (modUnitRec u f s) := by
  unfold modUnitRec
  try dsimp only
  with_reducible repeat' (first
    | assumption | apply keeps_modUnit | split | (intro _) | dsimp only)

theorem keeps_unitSuspect {Q_ : List Instr} {u d : Nat} {s : State} (h0 : Keeps Q_ s) : Keeps Q_ (unitSuspect u d s) := by
  unfold unitSuspect
  try dsimp only
  with_reducible repeat' (first
    | assumption | apply keeps_modUnitRec | split | (intro _) | dsimp only)

theorem keeps_modWingAt {Q_ : List Instr} {w : Nat} {f : Wing → Wing} {s : State} (h0 : Keeps Q_ s) : Keeps Q_ (modWingAt w f s) := by
  unfold modWingAt
  try dsimp only
  with_reducible repeat' (first
    | assumption | apply keeps_modWing | split | (intro _) | dsimp only)

theorem keeps_modChan {Q_ : List Instr} {c : Nat} {f : Chan → Chan} {s : State} (h0 : Keeps Q_ s) : Keeps Q_ (modChan c f s) := by
  unfold modChan
  try dsimp only
  with_reducible repeat' (first
    | assumption | apply keeps_modCh | split | (intro _) | dsimp only)

theorem keeps_scaleNotice {Q_ : List Instr} {s : State} (h0 : Keeps Q_ s) : Keeps Q_ (scaleNotice s) := by
  unfold scaleNotice
  try dsimp only
  with_reducible repeat' (first
    | assumption | apply keeps_putEvents | apply keeps_raiseAlert
    | apply keeps_modReg | split | (intro _) | dsimp only)

theorem keeps_recomputeD {Q_ : List Instr} {s : State} (h0 : Keeps Q_ s) : Keeps Q_ (recomputeD s) := by
  unfold recomputeD
  try dsimp only
  with_reducible repeat' (first
    | assumption | apply keeps_modReg | apply keeps_scaleNotice | split
    | (intro _) | dsimp only)

theorem keeps_scaleHoldEnd {Q_ : List Instr} {s : State} (h0 : Keeps Q_ s) : Keeps Q_ (scaleHoldEnd s) := by
  unfold scaleHoldEnd
  try dsimp only
  with_reducible repeat' (first
    | assumption | apply keeps_modReg | apply keeps_scaleNotice | split
    | (intro _) | dsimp only)

theorem keeps_bumpReg {Q_ : List Instr} {i n : Nat} {s : State} (h0 : Keeps Q_ s) : Keeps Q_ (bumpReg i n s) := by
  unfold bumpReg
  try dsimp only
  with_reducible repeat' (first
    | assumption | apply keeps_modReg | split | (intro _) | dsimp only)

theorem keeps_admissionFailed {Q_ : List Instr} {status : Nat} {s : State} (h0 : Keeps Q_ s) : Keeps Q_ (admissionFailed status s) := by
  unfold admissionFailed
  try dsimp only
  with_reducible repeat' (first
    | assumption | apply keeps_onlyIf | apply keeps_bumpReg | split
    | (intro _) | dsimp only)

theorem keeps_prioTell {Q_ : List Instr} {n old : Nat} {s : State} (h0 : Keeps Q_ s) : Keeps Q_ (prioTell n old s) := by
  unfold prioTell
  try dsimp only
  with_reducible repeat' (first
    | assumption | apply keeps_modReg | split | (intro _) | dsimp only)

theorem keeps_labelLost {Q_ : List Instr} {n : Nat} {s : State} (h0 : Keeps Q_ s) : Keeps Q_ (labelLost n s) := by
  unfold labelLost
  try dsimp only
  with_reducible repeat' (first
    | assumption | apply keeps_prioTell | apply keeps_modReg | split
    | (intro _) | dsimp only)

theorem keeps_sampleApply {Q_ : List Instr} {x : Sample} {s : State} (h0 : Keeps Q_ s) : Keeps Q_ (sampleApply x s) := by
  unfold sampleApply
  try dsimp only
  with_reducible repeat' (first
    | assumption | apply keeps_prioTell | apply keeps_modReg | split
    | (intro _) | dsimp only)

theorem keeps_prioHold {Q_ : List Instr} {n : Nat} {s : State} (h0 : Keeps Q_ s) : Keeps Q_ (prioHold n s) := by
  unfold prioHold
  try dsimp only
  with_reducible repeat' (first
    | assumption | apply keeps_modReg | apply keeps_foldl
    | apply keeps_foldl_fst | apply keeps_foldl_snd
    | apply keeps_foldl_snd_snd | split | (intro _) | dsimp only)

theorem keeps_mirrorUpdate {Q_ : List Instr} {die : Nat} {s : State} (h0 : Keeps Q_ s) : Keeps Q_ (mirrorUpdate die s) := by
  unfold mirrorUpdate
  try dsimp only
  with_reducible repeat' (first
    | assumption | apply keeps_modReg | split | (intro _) | dsimp only)

theorem keeps_sampleFlush {Q_ : List Instr} {l m : Nat} {s : State} (h0 : Keeps Q_ s) : Keeps Q_ (sampleFlush l m s) := by
  unfold sampleFlush
  try dsimp only
  with_reducible repeat' (first
    | assumption | apply keeps_modReg | apply keeps_bumpReg
    | apply keeps_creditOut | split | (intro _) | dsimp only)

theorem keeps_sampleAdd {Q_ : List Instr} {l m : Nat} {x : Sample} {s : State} (h0 : Keeps Q_ s) : Keeps Q_ (sampleAdd l m x s) := by
  unfold sampleAdd
  try dsimp only
  with_reducible repeat' (first
    | assumption | apply keeps_onlyIf | apply keeps_sampleFlush
    | apply keeps_modReg | split | (intro _) | dsimp only)

theorem keeps_sampleTake {Q_ : List Instr} {p : Nat} {t : LatTag} {good : Bool} {s : State} (h0 : Keeps Q_ s) : Keeps Q_ (sampleTake p t good s) := by
  unfold sampleTake
  try dsimp only
  with_reducible repeat' (first
    | assumption | apply keeps_modPortAt | apply keeps_sampleAdd | split
    | (intro _) | dsimp only)

theorem keeps_tokensTake {Q_ : List Instr} {d k : Nat} {s : State} (h0 : Keeps Q_ s) : Keeps Q_ (tokensTake d k s) := by
  unfold tokensTake
  try dsimp only
  with_reducible repeat' (first
    | assumption | apply keeps_modCoh | split | (intro _) | dsimp only)

theorem keeps_sampleHome {Q_ : List Instr} {d agent label n : Nat} {s0 : State} (h0 : Keeps Q_ s0) : Keeps Q_ (sampleHome d agent label n s0) := by
  unfold sampleHome
  try dsimp only
  with_reducible repeat' (first
    | assumption | apply keeps_tokensTake | apply keeps_afterDraw
    | apply keeps_modReg | split | (intro _) | dsimp only)

theorem keeps_flightApply {Q_ : List Instr} {m : Nat} {s : State} (h0 : Keeps Q_ s) : Keeps Q_ (flightApply m s) := by
  unfold flightApply
  try dsimp only
  with_reducible repeat' (first
    | assumption | apply keeps_forAll | apply keeps_sampleApply
    | apply keeps_creditBack | apply keeps_modReg | split | (intro _)
    | dsimp only)

theorem keeps_missLabel {Q_ : List Instr} {n : Nat} {q : State × Nat} (h0 : Keeps Q_ q.1) : Keeps Q_ (missLabel n q).1 := by
  unfold missLabel
  try dsimp only
  with_reducible repeat' (first
    | assumption | apply keeps_gbAdd | apply keeps_modReg
    | apply keeps_putEvents | split | (intro _) | dsimp only)
theorem keeps_missLabel_eq {Q_ : List Instr} {n : Nat} {q : State × Nat} {t_ x_} (e_ : missLabel n q = (t_, x_)) (h0 : Keeps Q_ q.1) : Keeps Q_ t_ := by
  have h_ := keeps_missLabel (Q_ := Q_) (n := n) (q := q) h0
  rw [e_] at h_; exact h_

theorem keeps_missWindow {Q_ : List Instr} {m : Nat} {s : State} (h0 : Keeps Q_ s) : Keeps Q_ (missWindow m s) := by
  unfold missWindow
  try dsimp only
  with_reducible repeat' (first
    | assumption | apply keeps_missLabel
    | refine keeps_missLabel_eq (by assumption) ?_ | apply keeps_raiseAlert
    | apply keeps_foldl | apply keeps_foldl_fst | apply keeps_foldl_snd
    | apply keeps_foldl_snd_snd | split | (intro _) | dsimp only)

theorem keeps_fairArrive {Q_ : List Instr} {point g : Nat} {s : State} (h0 : Keeps Q_ s) : Keeps Q_ (fairArrive point g s) := by
  unfold fairArrive
  try dsimp only
  with_reducible repeat' (first
    | assumption | apply keeps_modReg | split | (intro _) | dsimp only)

theorem keeps_fairServe {Q_ : List Instr} {point g len : Nat} {more : Bool} {s : State} (h0 : Keeps Q_ s) : Keeps Q_ (fairServe point g len more s) := by
  unfold fairServe
  try dsimp only
  with_reducible repeat' (first
    | assumption | apply keeps_modReg | split | (intro _) | dsimp only)

theorem keeps_fairPass {Q_ : List Instr} {point label len : Nat} {s : State} (h0 : Keeps Q_ s) : Keeps Q_ (fairPass point label len s) := by
  unfold fairPass
  try dsimp only
  with_reducible repeat' (first
    | assumption | apply keeps_fairServe | apply keeps_fairArrive | split
    | (intro _) | dsimp only)

theorem keeps_regulationReset {Q_ : List Instr} {s : State} (h0 : Keeps Q_ s) : Keeps Q_ (regulationReset s) := by
  unfold regulationReset
  try dsimp only
  with_reducible repeat' (first
    | assumption | apply keeps_modReg | split | (intro _) | dsimp only)

theorem keeps_execSampleFlush {Q_ : List Instr} {l : LinkDie} {m : MemDie} {s : State} (h0 : Keeps Q_ s) : ∃ u_, execSampleFlush l m s = .next u_ ∧ Keeps Q_ u_ := by
  refine ⟨_, rfl, ?_⟩
  with_reducible repeat' (first
    | assumption | apply keeps_sampleFlush | split | (intro _) | dsimp only)

theorem keeps_execSampleApply {Q_ : List Instr} {m : MemDie} {s : State} (h0 : Keeps Q_ s) : ∃ u_, execSampleApply m s = .next u_ ∧ Keeps Q_ u_ := by
  refine ⟨_, rfl, ?_⟩
  with_reducible repeat' (first
    | assumption | apply keeps_flightApply | split | (intro _) | dsimp only)

theorem keeps_execPrioMirrorUpdate {Q_ : List Instr} {d : DieId} {s : State} (h0 : Keeps Q_ s) : ∃ u_, execPrioMirrorUpdate d s = .next u_ ∧ Keeps Q_ u_ := by
  refine ⟨_, rfl, ?_⟩
  with_reducible repeat' (first
    | assumption | apply keeps_mirrorUpdate | split | (intro _) | dsimp only)

theorem keeps_execMissWindow {Q_ : List Instr} {m : MemDie} {s : State} (h0 : Keeps Q_ s) : ∃ u_, execMissWindow m s = .next u_ ∧ Keeps Q_ u_ := by
  refine ⟨_, rfl, ?_⟩
  with_reducible repeat' (first
    | assumption | apply keeps_missWindow | split | (intro _) | dsimp only)

theorem keeps_execScaleNoticeHold {Q_ : List Instr} {s : State} (h0 : Keeps Q_ s) : ∃ u_, execScaleNoticeHold s = .next u_ ∧ Keeps Q_ u_ := by
  refine ⟨_, rfl, ?_⟩
  with_reducible repeat' (first
    | assumption | apply keeps_scaleHoldEnd | split | (intro _) | dsimp only)

end Sys2Proof.Machine
end

