-- ==== Sys2Proof/Laws/KeepsEgress.lean ====
section
/-! SUPPORT. What the operations of Machine/Egress.lean keep: one lemma per operation that answers a state. -/

namespace Sys2Proof.Machine

theorem keeps_creditTouch {Q_ : List Instr} {p c : Nat} {busy : Bool} {s : State} (h0 : Keeps Q_ s) : Keeps Q_ (creditTouch p c busy s) := by
  unfold creditTouch
  try dsimp only
  with_reducible repeat' (first
    | assumption | apply keeps_modPortAt | split | (intro _) | dsimp only)

theorem keeps_bumpFan {Q_ : List Instr} {i n : Nat} {s : State} (h0 : Keeps Q_ s) : Keeps Q_ (bumpFan i n s) := by
  unfold bumpFan
  try dsimp only
  with_reducible repeat' (first
    | assumption | apply keeps_modSw | split | (intro _) | dsimp only)

theorem keeps_storeXmit {Q_ : List Instr} {x : Xmit} {s : State} (h0 : Keeps Q_ s) : Keeps Q_ (storeXmit x s) := by
  unfold storeXmit
  try dsimp only
  with_reducible repeat' (first
    | assumption | apply keeps_bumpFan | apply keeps_forAll
    | apply keeps_creditTouch | apply keeps_modSw | split | (intro _)
    | dsimp only)

theorem keeps_egressOffer {Q_ : List Instr} {x : Xmit} {s : State} (h0 : Keeps Q_ s) : Keeps Q_ (egressOffer x s) := by
  unfold egressOffer
  try dsimp only
  with_reducible repeat' (first
    | assumption | apply keeps_modSw | apply keeps_storeXmit | split
    | (intro _) | dsimp only)

theorem keeps_fanOut {Q_ : List Instr} {cls bytes : Nat} {targets : List Nat} {ingress : Option Nat} {m : Msg} {s : State} (h0 : Keeps Q_ s) : Keeps Q_ (fanOut cls bytes targets ingress m s) := by
  unfold fanOut
  try dsimp only
  with_reducible repeat' (first
    | assumption | apply keeps_forAll | apply keeps_egressOffer | split
    | (intro _) | dsimp only)

theorem keeps_egressAdmit {Q_ : List Instr} {p c : Nat} {s : State} (h0 : Keeps Q_ s) : Keeps Q_ (egressAdmit p c s) := by
  unfold egressAdmit
  try dsimp only
  with_reducible repeat' (first
    | assumption | apply keeps_storeXmit | apply keeps_modSw | split
    | (intro _) | dsimp only)

theorem keeps_spoiledSent {Q_ : List Instr} {p c : Nat} {x : Xmit} {s : State} (h0 : Keeps Q_ s) : Keeps Q_ (spoiledSent p c x s) := by
  unfold spoiledSent
  try dsimp only
  with_reducible repeat' (first
    | assumption | apply keeps_logEvent | apply keeps_unitSuspect
    | apply keeps_emit | split | (intro _) | dsimp only)

theorem keeps_egressSend {Q_ : List Instr} {p c : Nat} {s : State} (h0 : Keeps Q_ s) : Keeps Q_ (egressSend p c s) := by
  unfold egressSend
  try dsimp only
  with_reducible repeat' (first
    | assumption | apply keeps_modPortAt | apply keeps_modSw
    | apply keeps_bumpFan | apply keeps_sampleTake | apply keeps_spoiledSent
    | apply keeps_emit | split | (intro _) | dsimp only)

theorem keeps_bumpDrop {Q_ : List Instr} {p i n : Nat} {s : State} (h0 : Keeps Q_ s) : Keeps Q_ (bumpDrop p i n s) := by
  unfold bumpDrop
  try dsimp only
  with_reducible repeat' (first
    | assumption | apply keeps_modPortAt | split | (intro _) | dsimp only)

theorem keeps_flushEgress {Q_ : List Instr} {p : Nat} {s : State} (h0 : Keeps Q_ s) : Keeps Q_ (flushEgress p s) := by
  unfold flushEgress
  try dsimp only
  with_reducible repeat' (first
    | assumption | apply keeps_forAll | apply keeps_bumpDrop
    | apply keeps_modPortAt | apply keeps_modSw | split | (intro _)
    | dsimp only)

theorem keeps_respondPort {Q_ : List Instr} {p cls : Nat} {m : Msg} {lat : Option LatTag} {s : State} (h0 : Keeps Q_ s) : Keeps Q_ (respondPort p cls m lat s) := by
  unfold respondPort
  try dsimp only
  with_reducible repeat' (first
    | assumption | apply keeps_egressOffer | split | (intro _) | dsimp only)

theorem keeps_execEgressAdmit {Q_ : List Instr} {p : PortId} {cls : Fin 8} {s : State} (h0 : Keeps Q_ s) : ∃ u_, execEgressAdmit p cls s = .next u_ ∧ Keeps Q_ u_ := by
  refine ⟨_, rfl, ?_⟩
  with_reducible repeat' (first
    | assumption | apply keeps_egressAdmit | split | (intro _) | dsimp only)

theorem keeps_execEgressSend {Q_ : List Instr} {p : PortId} {cls : Fin 8} {s : State} (h0 : Keeps Q_ s) : ∃ u_, execEgressSend p cls s = .next u_ ∧ Keeps Q_ u_ := by
  refine ⟨_, rfl, ?_⟩
  with_reducible repeat' (first
    | assumption | apply keeps_egressSend | split | (intro _) | dsimp only)

theorem keeps_execMulticastWrite {Q_ : List Instr} {v src : PortId} {targets : BitVec 64} {group : Fin 64} {bytes : List Byte} {s : State} (h0 : Keeps Q_ s) : ∃ u_, execMulticastWrite v src targets group bytes s = .next u_ ∧ Keeps Q_ u_ := by
  refine ⟨_, rfl, ?_⟩
  with_reducible repeat' (first
    | assumption | apply keeps_fanOut | split | (intro _) | dsimp only)

end Sys2Proof.Machine
end

