-- ==== Sys2Proof/Laws/KeepsWorlds.lean ====
section
/-! SUPPORT. What the operations of Machine/Worlds.lean keep: one lemma per operation that answers a state. -/

namespace Sys2Proof.Machine

theorem keeps_measExtend {Q_ : List Instr} {n : Nat} {d : List Byte} {s : State} (h0 : Keeps Q_ s) : Keeps Q_ (measExtend n d s) := by
  unfold measExtend
  try dsimp only
  with_reducible repeat' (first
    | assumption | refine keeps_modWorld (fun _ hx => hx) ?_ | split
    | (intro _) | dsimp only)

theorem keeps_measZero {Q_ : List Instr} {n : Nat} {s : State} (h0 : Keeps Q_ s) : Keeps Q_ (measZero n s) := by
  unfold measZero
  try dsimp only
  with_reducible repeat' (first
    | assumption | refine keeps_modWorld (fun _ hx => hx) ?_ | split
    | (intro _) | dsimp only)

theorem keeps_measSecurity {Q_ : List Instr} {s : State} (h0 : Keeps Q_ s) : Keeps Q_ (measSecurity s) := by
  unfold measSecurity
  try dsimp only
  with_reducible repeat' (first
    | assumption | apply keeps_measExtend | split | (intro _) | dsimp only)

theorem keeps_callsBusy {Q_ : List Instr} {s : State} (h0 : Keeps Q_ s) : Keeps Q_ (callsBusy s) := by
  unfold callsBusy
  try dsimp only
  with_reducible repeat' (first
    | assumption | refine keeps_modWorld (fun _ hx => hx) ?_
    | apply keeps_forAll | apply keeps_onlyIf | apply keeps_emit
    | apply keeps_worldReply | split | (intro _) | dsimp only)

theorem keeps_dropSession {Q_ : List Instr} {o : Origin} {s : State} (h0 : Keeps Q_ s) : Keeps Q_ (dropSession o s) := by
  unfold dropSession
  try dsimp only
  with_reducible repeat' (first
    | assumption | apply keeps_modDict | split | (intro _) | dsimp only)

theorem keeps_keeperUnheard {Q_ : List Instr} {s : State} (h0 : Keeps Q_ s) : Keeps Q_ (keeperUnheard s) := by
  unfold keeperUnheard
  try dsimp only
  with_reducible repeat' (first
    | assumption | apply keeps_modDict | split | (intro _) | dsimp only)

theorem keeps_l2Evict {Q_ : List Instr} {k : Nat} {s : State} (h0 : Keeps Q_ s) : Keeps Q_ (l2Evict k s) := by
  unfold l2Evict
  try dsimp only
  with_reducible repeat' (first
    | refine keeps_modWorld (fun _ hx => by split <;> first | exact smPut_wf _ _ hx | exact hx) ?_
    | assumption | refine keeps_modWorld (fun _ hx => hx) ?_ | split
    | (intro _) | dsimp only)

theorem keeps_l2Fill {Q_ : List Instr} {keeper : Bool} {a : Nat} {s : State} (h0 : Keeps Q_ s) : Keeps Q_ (l2Fill keeper a s).2.2 := by
  unfold l2Fill
  try dsimp only
  with_reducible repeat' (first
    | assumption | refine keeps_modWorld (fun _ hx => hx) ?_
    | apply keeps_l2Evict | apply keeps_afterDraw | split | (intro _)
    | dsimp only)
theorem keeps_l2Fill_eq {Q_ : List Instr} {keeper : Bool} {a : Nat} {s : State} {t_ x_ y_} (e_ : l2Fill keeper a s = (x_, y_, t_)) (h0 : Keeps Q_ s) : Keeps Q_ t_ := by
  have h_ := keeps_l2Fill (Q_ := Q_) (keeper := keeper) (a := a) (s := s) h0
  rw [e_] at h_; exact h_

theorem keeps_l2Access {Q_ : List Instr} {keeper : Bool} {a : Nat} {write : Option Line} {s : State} (h0 : Keeps Q_ s) : Keeps Q_ (l2Access keeper a write s).2 := by
  unfold l2Access
  try dsimp only
  with_reducible repeat' (first
    | assumption | refine keeps_modWorld (fun _ hx => hx) ?_
    | apply keeps_l2Fill | refine keeps_l2Fill_eq (by assumption) ?_ | split
    | (intro _) | dsimp only)
theorem keeps_l2Access_eq {Q_ : List Instr} {keeper : Bool} {a : Nat} {write : Option Line} {s : State} {t_ x_} (e_ : l2Access keeper a write s = (x_, t_)) (h0 : Keeps Q_ s) : Keeps Q_ t_ := by
  have h_ := keeps_l2Access (Q_ := Q_) (keeper := keeper) (a := a) (write := write) (s := s) h0
  rw [e_] at h_; exact h_

theorem keeps_l2Invalidate {Q_ : List Instr} {k : Nat} {s : State} (h0 : Keeps Q_ s) : Keeps Q_ (l2Invalidate k s) := by
  unfold l2Invalidate
  try dsimp only
  with_reducible repeat' (first
    | assumption | refine keeps_modWorld (fun _ hx => hx) ?_
    | apply keeps_logPlain | split | (intro _) | dsimp only)

theorem keeps_memZero {Q_ : List Instr} {lo n : Nat} {s : State} (h0 : Keeps Q_ s) : Keeps Q_ (memZero lo n s) := by
  unfold memZero
  try dsimp only
  with_reducible repeat' (first
    | refine keeps_modWorld (fun _ hx => filter_wf _ hx) ?_ | assumption
    | refine keeps_modWorld (fun _ hx => hx) ?_ | split | (intro _)
    | dsimp only)

theorem keeps_keeperZero {Q_ : List Instr} {s : State} (h0 : Keeps Q_ s) : Keeps Q_ (keeperZero s) := by
  unfold keeperZero
  try dsimp only
  with_reducible repeat' (first
    | assumption | refine keeps_modWorld (fun _ hx => hx) ?_
    | apply keeps_memZero | split | (intro _) | dsimp only)

theorem keeps_coreZero {Q_ : List Instr} {core : Nat} {s : State} (h0 : Keeps Q_ s) : Keeps Q_ (coreZero core s) := by
  unfold coreZero
  try dsimp only
  with_reducible repeat' (first
    | assumption | apply keeps_memZero | split | (intro _) | dsimp only)

theorem keeps_keeperHalt {Q_ : List Instr} {s : State} (h0 : Keeps Q_ s) : Keeps Q_ (keeperHalt s) := by
  unfold keeperHalt
  try dsimp only
  with_reducible repeat' (first
    | assumption | refine keeps_modWorld (fun _ hx => hx) ?_
    | apply keeps_logPlain | apply keeps_callsBusy | apply keeps_dropSession
    | apply keeps_keeperUnheard | split | (intro _) | dsimp only)

theorem keeps_keeperTrigger {Q_ : List Instr} {cause : Nat} {s : State} (h0 : Keeps Q_ s) : Keeps Q_ (keeperTrigger cause s) := by
  unfold keeperTrigger
  try dsimp only
  with_reducible repeat' (first
    | assumption | refine keeps_modWorld (fun _ hx => hx) ?_
    | apply keeps_keeperHalt | apply keeps_keeperZero
    | apply keeps_callsBusy | apply keeps_dropSession
    | apply keeps_keeperUnheard | split | (intro _) | dsimp only)

theorem keeps_keeperResumeCore {Q_ : List Instr} {img : Option (BitVec 384)} {s : State} (h0 : Keeps Q_ s) : Keeps Q_ (keeperResumeCore img s) := by
  unfold keeperResumeCore
  try dsimp only
  with_reducible repeat' (first
    | assumption | refine keeps_modWorld (fun _ hx => hx) ?_
    | apply keeps_keeperHalt | apply keeps_measExtend | apply keeps_measZero
    | split | (intro _) | dsimp only)

theorem keeps_stewardRestart {Q_ : List Instr} {core : Nat} {s : State} (h0 : Keeps Q_ s) : Keeps Q_ (stewardRestart core s) := by
  unfold stewardRestart
  try dsimp only
  with_reducible repeat' (first
    | assumption | refine keeps_modWorld (fun _ hx => hx) ?_
    | apply keeps_coreZero | apply keeps_dropSession | split | (intro _)
    | dsimp only)

theorem keeps_stewardRestartDone {Q_ : List Instr} {core : Nat} {img : Option (BitVec 384)} {s : State} (h0 : Keeps Q_ s) : Keeps Q_ (stewardRestartDone core img s) := by
  unfold stewardRestartDone
  try dsimp only
  with_reducible repeat' (first
    | assumption | refine keeps_modWorld (fun _ hx => hx) ?_
    | apply keeps_measExtend | split | (intro _) | dsimp only)

theorem keeps_keeperFetchBad {Q_ : List Instr} {s : State} (h0 : Keeps Q_ s) : Keeps Q_ (keeperFetchBad s) := by
  unfold keeperFetchBad
  try dsimp only
  with_reducible repeat' (first
    | assumption | apply keeps_keeperTrigger | apply keeps_logEvent
    | apply keeps_afterDraw | split | (intro _) | dsimp only)

theorem keeps_regionCommit {Q_ : List Instr} {row v : Nat} {s : State} (h0 : Keeps Q_ s) : Keeps Q_ (regionCommit row v s) := by
  unfold regionCommit
  try dsimp only
  with_reducible repeat' (first
    | assumption | refine keeps_modWorld (fun _ hx => hx) ?_ | split
    | (intro _) | dsimp only)

theorem keeps_regionDenied {Q_ : List Instr} {checker : Nat} {c : AgentClass} {write : Bool} {u : Nat} {s : State} (h0 : Keeps Q_ s) : Keeps Q_ (regionDenied checker c write u s) := by
  unfold regionDenied
  try dsimp only
  with_reducible repeat' (first
    | assumption | refine keeps_modWorld (fun _ hx => hx) ?_
    | apply keeps_logEvent | split | (intro _) | dsimp only)

theorem keeps_l2Flush {Q_ : List Instr} {a : Nat} {s : State} (h0 : Keeps Q_ s) : Keeps Q_ (l2Flush a s) := by
  unfold l2Flush
  try dsimp only
  with_reducible repeat' (first
    | assumption | apply keeps_forAll | apply keeps_l2Evict | split
    | (intro _) | dsimp only)

theorem keeps_coreStore {Q_ : List Instr} {c : AgentClass} {a : Nat} {v : Line} {s : State} (h0 : Keeps Q_ s) : Keeps Q_ (coreStore c a v s) := by
  unfold coreStore
  try dsimp only
  with_reducible repeat' (first
    | refine keeps_modWorld (fun _ hx => smPut_wf _ _ hx) ?_ | assumption
    | refine keeps_modWorld (fun _ hx => hx) ?_ | apply keeps_l2Flush
    | apply keeps_regionDenied | split | (intro _) | dsimp only)

theorem keeps_coreLoad {Q_ : List Instr} {c : AgentClass} {core a : Nat} {s : State} (h0 : Keeps Q_ s) : Keeps Q_ (coreLoad c core a s).2 := by
  unfold coreLoad
  try dsimp only
  with_reducible repeat' (first
    | assumption | apply keeps_l2Flush | apply keeps_emit
    | apply keeps_regionDenied | split | (intro _) | dsimp only)
theorem keeps_coreLoad_eq {Q_ : List Instr} {c : AgentClass} {core a : Nat} {s : State} {t_ x_} (e_ : coreLoad c core a s = (x_, t_)) (h0 : Keeps Q_ s) : Keeps Q_ t_ := by
  have h_ := keeps_coreLoad (Q_ := Q_) (c := c) (core := core) (a := a) (s := s) h0
  rw [e_] at h_; exact h_

theorem keeps_bufferStore {Q_ : List Instr} {c : AgentClass} {core : Nat} {b : List Byte} {s : State} (h0 : Keeps Q_ s) : Keeps Q_ (bufferStore c core b s) := by
  unfold bufferStore
  try dsimp only
  with_reducible repeat' (first
    | assumption | apply keeps_forAll | apply keeps_coreStore | split
    | (intro _) | dsimp only)

theorem keeps_bufferLoad {Q_ : List Instr} {c : AgentClass} {reader core : Nat} {s : State} (h0 : Keeps Q_ s) : Keeps Q_ (bufferLoad c reader core s).2 := by
  unfold bufferLoad
  try dsimp only
  with_reducible repeat' (first
    | assumption | apply keeps_coreLoad
    | refine keeps_coreLoad_eq (by assumption) ?_ | apply keeps_foldl
    | apply keeps_foldl_fst | apply keeps_foldl_snd
    | apply keeps_foldl_snd_snd | split | (intro _) | dsimp only)
theorem keeps_bufferLoad_eq {Q_ : List Instr} {c : AgentClass} {reader core : Nat} {s : State} {t_ x_} (e_ : bufferLoad c reader core s = (x_, t_)) (h0 : Keeps Q_ s) : Keeps Q_ t_ := by
  have h_ := keeps_bufferLoad (Q_ := Q_) (c := c) (reader := reader) (core := core) (s := s) h0
  rw [e_] at h_; exact h_

theorem keeps_worldCall {Q_ : List Instr} {core : Nat} {req : List Byte} {s : State} (h0 : Keeps Q_ s) : Keeps Q_ (worldCall core req s) := by
  unfold worldCall
  try dsimp only
  with_reducible repeat' (first
    | assumption | refine keeps_modWorld (fun _ hx => hx) ?_
    | apply keeps_emit | apply keeps_worldReply | apply keeps_bufferStore
    | split | (intro _) | dsimp only)

theorem keeps_worldReply {Q_ : List Instr} {answer : List Byte} {s : State} (h0 : Keeps Q_ s) : Keeps Q_ (worldReply answer s) := by
  unfold worldReply
  try dsimp only
  with_reducible repeat' (first
    | assumption | refine keeps_modWorld (fun _ hx => hx) ?_
    | apply keeps_bufferLoad | refine keeps_bufferLoad_eq (by assumption) ?_
    | apply keeps_bufferStore | apply keeps_emit | split | (intro _)
    | dsimp only)

theorem keeps_debugLine {q : List Instr} {bank unit : Nat} {write : Bool} {act : State → Line × State} {s : State}
    (hf : ∀ t, Keeps q t → Keeps q (act t).2) (h : Keeps q s) : Keeps q (debugLine bank unit write act s) := by
  unfold debugLine
  dsimp only
  split
  · exact keeps_emit h
  · split
    · exact keeps_emit (keeps_regionDenied h)
    · split
      · exact keeps_emit (hf s h)
      · exact keeps_emit (keeps_emit (hf s h))

theorem keeps_l2Raw {Q_ : List Instr} {k : Nat} {write : Option Line} {s : State} (h0 : Keeps Q_ s) : Keeps Q_ (l2Raw k write s).2 := by
  unfold l2Raw
  try dsimp only
  with_reducible repeat' (first
    | assumption | refine keeps_modWorld (fun _ hx => hx) ?_ | split
    | (intro _) | dsimp only)
theorem keeps_l2Raw_eq {Q_ : List Instr} {k : Nat} {write : Option Line} {s : State} {t_ x_} (e_ : l2Raw k write s = (x_, t_)) (h0 : Keeps Q_ s) : Keeps Q_ t_ := by
  have h_ := keeps_l2Raw (Q_ := Q_) (k := k) (write := write) (s := s) h0
  rw [e_] at h_; exact h_

theorem keeps_debugDo {Q_ : List Instr} {t : DebugTarget} {s : State} (h0 : Keeps Q_ s) : Keeps Q_ (debugDo t s) := by
  unfold debugDo
  try dsimp only
  with_reducible repeat' (first
    | assumption | refine keeps_modWorld (fun _ hx => hx) ?_
    | apply keeps_emit | apply keeps_debugLine | apply keeps_l2Access
    | refine keeps_l2Access_eq (by assumption) ?_ | apply keeps_l2Raw
    | refine keeps_l2Raw_eq (by assumption) ?_ | split | (intro _)
    | dsimp only)

theorem keeps_debugAccess {Q_ : List Instr} {t : DebugTarget} {s : State} (h0 : Keeps Q_ s) : Keeps Q_ (debugAccess t s) := by
  unfold debugAccess
  try dsimp only
  with_reducible repeat' (first
    | assumption | apply keeps_debugDo | apply keeps_emit | split
    | (intro _) | dsimp only)

theorem keeps_execWorldCall {Q_ : List Instr} {core : Fin 8} {req : List Byte} {s : State} (h0 : Keeps Q_ s) : ∃ u_, execWorldCall core req s = .next u_ ∧ Keeps Q_ u_ := by
  refine ⟨_, rfl, ?_⟩
  with_reducible repeat' (first
    | assumption | apply keeps_worldCall | split | (intro _) | dsimp only)

theorem keeps_execWorldCallReply {Q_ : List Instr} {answer : List Byte} {s : State} (h0 : Keeps Q_ s) : ∃ u_, execWorldCallReply answer s = .next u_ ∧ Keeps Q_ u_ := by
  refine ⟨_, rfl, ?_⟩
  with_reducible repeat' (first
    | assumption | apply keeps_worldReply | split | (intro _) | dsimp only)

theorem keeps_execStewardWdog {Q_ : List Instr} {core : Fin 8} {s : State} (h0 : Keeps Q_ s) : ∃ u_, execStewardWdog core s = .next u_ ∧ Keeps Q_ u_ := by
  refine ⟨_, rfl, ?_⟩
  with_reducible repeat' (first
    | assumption | apply keeps_stewardRestart | split | (intro _)
    | dsimp only)

theorem keeps_execStewardCoreRestartDone {Q_ : List Instr} {core : Fin 8} {img : FwSlots} {s : State} (h0 : Keeps Q_ s) : ∃ u_, execStewardCoreRestartDone core img s = .next u_ ∧ Keeps Q_ u_ := by
  refine ⟨_, rfl, ?_⟩
  with_reducible repeat' (first
    | assumption | apply keeps_stewardRestartDone | split | (intro _)
    | dsimp only)

theorem keeps_execKeeperWdog {Q_ : List Instr} {s : State} (h0 : Keeps Q_ s) : ∃ u_, execKeeperWdog s = .next u_ ∧ Keeps Q_ u_ := by
  refine ⟨_, rfl, ?_⟩
  with_reducible repeat' (first
    | assumption | apply keeps_keeperTrigger | split | (intro _)
    | dsimp only)

theorem keeps_execLockstepMismatch {Q_ : List Instr} {s : State} (h0 : Keeps Q_ s) : ∃ u_, execLockstepMismatch s = .next u_ ∧ Keeps Q_ u_ := by
  refine ⟨_, rfl, ?_⟩
  with_reducible repeat' (first
    | assumption | apply keeps_keeperTrigger | split | (intro _)
    | dsimp only)

theorem keeps_execUncorrectableInstructionFetch {Q_ : List Instr} {s : State} (h0 : Keeps Q_ s) : ∃ u_, execUncorrectableInstructionFetch s = .next u_ ∧ Keeps Q_ u_ := by
  refine ⟨_, rfl, ?_⟩
  with_reducible repeat' (first
    | assumption | apply keeps_keeperFetchBad | split | (intro _)
    | dsimp only)

theorem keeps_execDebugAccess {Q_ : List Instr} {t : DebugTarget} {s : State} (h0 : Keeps Q_ s) : ∃ u_, execDebugAccess t s = .next u_ ∧ Keeps Q_ u_ := by
  refine ⟨_, rfl, ?_⟩
  with_reducible repeat' (first
    | assumption | apply keeps_debugAccess | split | (intro _) | dsimp only)

end Sys2Proof.Machine
end

