-- ==== Sys2Proof/Laws/KeepsKeys.lean ====
section
/-! SUPPORT. What the operations of Machine/Keys.lean keep: one lemma per operation that answers a state. -/

namespace Sys2Proof.Machine

theorem keeps_drawSecret {q : List Instr} {k n e : Nat} {s : State} (h : Keeps q s) : Keeps q (drawSecret k n e s).2 := by
  induction k generalizing s with
  | zero => exact h
  | succ k ih =>
    unfold drawSecret
    dsimp only
    split
    · exact ih (keeps_afterDraw h)
    · exact keeps_afterDraw h

theorem keeps_keyInstall {Q_ : List Instr} {n : Nat} {s : State} (h0 : Keeps Q_ s) : Keeps Q_ (keyInstall n s) := by
  unfold keyInstall
  try dsimp only
  with_reducible repeat' (first
    | assumption | apply keeps_drawSecret
    | refine keeps_drawSecret_eq (by assumption) ?_ | apply keeps_modProt
    | split | (intro _) | dsimp only)

theorem keeps_keyWipe {Q_ : List Instr} {n : Nat} {s : State} (h0 : Keeps Q_ s) : Keeps Q_ (keyWipe n s) := by
  unfold keyWipe
  try dsimp only
  with_reducible repeat' (first
    | assumption | apply keeps_modProt | split | (intro _) | dsimp only)

theorem keeps_keyRekey {Q_ : List Instr} {n t : Nat} {s : State} (h0 : Keeps Q_ s) : Keeps Q_ (keyRekey n t s) := by
  unfold keyRekey
  try dsimp only
  with_reducible repeat' (first
    | assumption | apply keeps_drawSecret
    | refine keeps_drawSecret_eq (by assumption) ?_ | apply keeps_modProt
    | split | (intro _) | dsimp only)

theorem keeps_messageSent {Q_ : List Instr} {d : Nat} {s : State} (h0 : Keeps Q_ s) : Keeps Q_ (messageSent d s) := by
  unfold messageSent
  try dsimp only
  with_reducible repeat' (first
    | assumption | apply keeps_modProt | split | (intro _) | dsimp only)

theorem keeps_keyPlaced {Q_ : List Instr} {d : Nat} {j : KeyJob} {v : BitVec 256} {s : State} (h0 : Keeps Q_ s) : Keeps Q_ (keyPlaced d j v s).1 := by
  unfold keyPlaced
  try dsimp only
  with_reducible repeat' (first
    | assumption | apply keeps_modProt | split | (intro _) | dsimp only)
theorem keeps_keyPlaced_eq {Q_ : List Instr} {d : Nat} {j : KeyJob} {v : BitVec 256} {s : State} {t_ x_} (e_ : keyPlaced d j v s = (t_, x_)) (h0 : Keeps Q_ s) : Keeps Q_ t_ := by
  have h_ := keeps_keyPlaced (Q_ := Q_) (d := d) (j := j) (v := v) (s := s) h0
  rw [e_] at h_; exact h_

theorem keeps_keyTransport {Q_ : List Instr} {d : Nat} {err : BitVec 384} {s : State} (h0 : Keeps Q_ s) : Keeps Q_ (keyTransport d err s).1 := by
  unfold keyTransport
  try dsimp only
  with_reducible repeat' (first
    | assumption | apply keeps_messageSent | apply keeps_keyPlaced
    | refine keeps_keyPlaced_eq (by assumption) ?_ | split | (intro _)
    | dsimp only)
theorem keeps_keyTransport_eq {Q_ : List Instr} {d : Nat} {err : BitVec 384} {s : State} {t_ x_} (e_ : keyTransport d err s = (t_, x_)) (h0 : Keeps Q_ s) : Keeps Q_ t_ := by
  have h_ := keeps_keyTransport (Q_ := Q_) (d := d) (err := err) (s := s) h0
  rw [e_] at h_; exact h_

theorem keeps_ideKeyMessage {Q_ : List Instr} {p i op set slot : Nat} {key : BitVec 256} {s : State} (h0 : Keeps Q_ s) : Keeps Q_ (ideKeyMessage p i op set slot key s) := by
  unfold ideKeyMessage
  try dsimp only
  with_reducible repeat' (first
    | assumption | apply keeps_modProt | split | (intro _) | dsimp only)

theorem keeps_ideInsecure {Q_ : List Instr} {p i : Nat} {s : State} (h0 : Keeps Q_ s) : Keeps Q_ (ideInsecure p i s) := by
  unfold ideInsecure
  try dsimp only
  with_reducible repeat' (first
    | assumption | apply keeps_modProt | split | (intro _) | dsimp only)

theorem keeps_ideClear {Q_ : List Instr} {p : Nat} {s : State} (h0 : Keeps Q_ s) : Keeps Q_ (ideClear p s) := by
  unfold ideClear
  try dsimp only
  with_reducible repeat' (first
    | assumption | apply keeps_modProt | split | (intro _) | dsimp only)

theorem keeps_spdmOpen {Q_ : List Instr} {p : Nat} {s : State} (h0 : Keeps Q_ s) : Keeps Q_ (spdmOpen p s) := by
  unfold spdmOpen
  try dsimp only
  with_reducible repeat' (first
    | assumption | refine keeps_modWorld (fun _ hx => hx) ?_ | split
    | (intro _) | dsimp only)

theorem keeps_spdmRequest {Q_ : List Instr} {p : Nat} {req : List Byte} {opens : Bool} {s : State} (h0 : Keeps Q_ s) : Keeps Q_ (spdmRequest p req opens s) := by
  unfold spdmRequest
  try dsimp only
  with_reducible repeat' (first
    | assumption | apply keeps_emit | apply keeps_afterDraw
    | apply keeps_onlyIf | apply keeps_spdmOpen | split | (intro _)
    | dsimp only)

theorem keeps_execSpdmRequest {Q_ : List Instr} {p : PortId} {req : List Byte} {opens : Bool} {s : State} (h0 : Keeps Q_ s) : ∃ u_, execSpdmRequest p req opens s = .next u_ ∧ Keeps Q_ u_ := by
  refine ⟨_, rfl, ?_⟩
  with_reducible repeat' (first
    | assumption | apply keeps_spdmRequest | split | (intro _) | dsimp only)

theorem keeps_execIdeKm {Q_ : List Instr} {p : PortId} {i : Fin 9} {op : Fin 3} {set : Fin 2} {slot : Fin 6} {key : BitVec 256} {s : State} (h0 : Keeps Q_ s) : ∃ u_, execIdeKm p i op set slot key s = .next u_ ∧ Keeps Q_ u_ := by
  refine ⟨_, rfl, ?_⟩
  with_reducible repeat' (first
    | assumption | apply keeps_ideKeyMessage | split | (intro _)
    | dsimp only)

end Sys2Proof.Machine
end

