-- ==== Sys2Proof/Laws/KeepsWakes.lean ====
section
/-! SUPPORT. What the operations of Machine/Wakes.lean keep: one lemma per operation that answers a state. -/

namespace Sys2Proof.Machine

theorem keeps_recordWake {Q_ : List Instr} {source point : Nat} {s : State} (h0 : Keeps Q_ s) : Keeps Q_ (recordWake source point s) := by
  unfold recordWake
  try dsimp only
  with_reducible repeat' (first
    | assumption | apply keeps_modPs | split | (intro _) | dsimp only)

theorem keeps_bumpPs {Q_ : List Instr} {i : Nat} {s : State} (h0 : Keeps Q_ s) : Keeps Q_ (bumpPs i s) := by
  unfold bumpPs
  try dsimp only
  with_reducible repeat' (first
    | assumption | apply keeps_modPs | split | (intro _) | dsimp only)

theorem keeps_wake {Q_ : List Instr} {source : Nat} {s : State} (h0 : Keeps Q_ s) : Keeps Q_ (wake source s) := by
  unfold wake
  try dsimp only
  with_reducible repeat' (first
    | assumption | apply keeps_modPs | split | (intro _) | dsimp only)

theorem keeps_portVotesRun {Q_ : List Instr} {s : State} (h0 : Keeps Q_ s) : Keeps Q_ (portVotesRun s) := by
  unfold portVotesRun
  try dsimp only
  with_reducible repeat' (first
    | assumption | apply keeps_wake | apply keeps_psEnter
    | apply keeps_modPs | split | (intro _) | dsimp only)

theorem keeps_portActivity {Q_ : List Instr} {p : Nat} {s : State} (h0 : Keeps Q_ s) : Keeps Q_ (portActivity p s) := by
  unfold portActivity
  try dsimp only
  with_reducible repeat' (first
    | assumption | apply keeps_portVotesRun | apply keeps_modPortAt | split
    | (intro _) | dsimp only)

theorem keeps_engineWake {Q_ : List Instr} {u : Nat} {s : State} (h0 : Keeps Q_ s) : Keeps Q_ (engineWake u s) := by
  unfold engineWake
  try dsimp only
  with_reducible repeat' (first
    | assumption | apply keeps_modPs | apply keeps_psEnter | split
    | (intro _) | dsimp only)

theorem keeps_engineUse {Q_ : List Instr} {base size : Nat} {s : State} (h0 : Keeps Q_ s) : Keeps Q_ (engineUse base size s) := by
  unfold engineUse
  try dsimp only
  with_reducible repeat' (first
    | assumption | apply keeps_engineWake | split | (intro _) | dsimp only)

theorem keeps_drawEngine {Q_ : List Instr} {base size avoid : Nat} {s : State} (h0 : Keeps Q_ s) : Keeps Q_ (drawEngine base size avoid s).2 := by
  unfold drawEngine
  try dsimp only
  with_reducible repeat' (first
    | assumption | apply keeps_afterDraw | split | (intro _) | dsimp only)
theorem keeps_drawEngine_eq {Q_ : List Instr} {base size avoid : Nat} {s : State} {t_ x_} (e_ : drawEngine base size avoid s = (x_, t_)) (h0 : Keeps Q_ s) : Keeps Q_ t_ := by
  have h_ := keeps_drawEngine (Q_ := Q_) (base := base) (size := size) (avoid := avoid) (s := s) h0
  rw [e_] at h_; exact h_

theorem keeps_unitOut {Q_ : List Instr} {u cause : Nat} {s : State} (h0 : Keeps Q_ s) : Keeps Q_ (unitOut u cause s) := by
  unfold unitOut
  try dsimp only
  with_reducible repeat' (first
    | assumption | apply keeps_noticeFmPort | apply keeps_logEvent
    | apply keeps_modUnitRec | split | (intro _) | dsimp only)

theorem keeps_engineOut {Q_ : List Instr} {u : Nat} {s : State} (h0 : Keeps Q_ s) : Keeps Q_ (engineOut u s) := by
  unfold engineOut
  try dsimp only
  with_reducible repeat' (first
    | assumption | apply keeps_recomputeD | apply keeps_unitOut | split
    | (intro _) | dsimp only)

theorem keeps_useCompressor {Q_ : List Instr} {d : Nat} {s : State} (h0 : Keeps Q_ s) : Keeps Q_ (useCompressor d s) := by
  unfold useCompressor
  try dsimp only
  with_reducible repeat' (first
    | assumption | apply keeps_engineUse | split | (intro _) | dsimp only)

theorem keeps_useDecompressor {Q_ : List Instr} {d : Nat} {s : State} (h0 : Keeps Q_ s) : Keeps Q_ (useDecompressor d s) := by
  unfold useDecompressor
  try dsimp only
  with_reducible repeat' (first
    | assumption | apply keeps_engineUse | split | (intro _) | dsimp only)

theorem keeps_useCrypto {Q_ : List Instr} {d : Nat} {s : State} (h0 : Keeps Q_ s) : Keeps Q_ (useCrypto d s) := by
  unfold useCrypto
  try dsimp only
  with_reducible repeat' (first
    | assumption | apply keeps_engineUse | split | (intro _) | dsimp only)

end Sys2Proof.Machine
end

