-- ==== Sys2Proof/Laws/KeepsSpace.lean ====
section
/-! SUPPORT. What the operations of Machine/Space.lean keep: one lemma per operation that answers a state. -/

namespace Sys2Proof.Machine

theorem keeps_storeRaw {Q_ : List Instr} {d f i : Nat} {l : RawLine} {s : State} (h0 : Keeps Q_ s) : Keeps Q_ (storeRaw d f i l s) := by
  unfold storeRaw
  try dsimp only
  with_reducible repeat' (first
    | refine keeps_modSpace (fun _ hx => dramPutAll_wf _ _ hx) ?_
    | assumption | refine keeps_modSpace (fun _ hx => hx) ?_ | split
    | (intro _) | dsimp only)

theorem keeps_dropRaw {Q_ : List Instr} {d : Nat} {test : Nat → Nat → Bool} {s : State} (h0 : Keeps Q_ s) : Keeps Q_ (dropRaw d test s) := by
  unfold dropRaw
  try dsimp only
  with_reducible repeat' (first
    | assumption | apply keeps_modCh | split | (intro _) | dsimp only)

theorem keeps_blankFrames {Q_ : List Instr} {d f n : Nat} {s : State} (h0 : Keeps Q_ s) : Keeps Q_ (blankFrames d f n s) := by
  unfold blankFrames
  try dsimp only
  with_reducible repeat' (first
    | refine keeps_modSpace (fun _ hx => dramFilter_wf _ hx) ?_ | assumption
    | refine keeps_modSpace (fun _ hx => hx) ?_ | apply keeps_dropRaw
    | split | (intro _) | dsimp only)

theorem keeps_blankSlots {Q_ : List Instr} {d slot n : Nat} {s : State} (h0 : Keeps Q_ s) : Keeps Q_ (blankSlots d slot n s) := by
  unfold blankSlots
  try dsimp only
  with_reducible repeat' (first
    | refine keeps_modSpace (fun _ hx => dramFilter_wf _ hx) ?_ | assumption
    | refine keeps_modSpace (fun _ hx => hx) ?_ | apply keeps_dropRaw
    | split | (intro _) | dsimp only)

theorem keeps_setUse {Q_ : List Instr} {d f : Nat} {u : Use} {s : State} (h0 : Keeps Q_ s) : Keeps Q_ (setUse d f u s) := by
  unfold setUse
  try dsimp only
  with_reducible repeat' (first
    | assumption | refine keeps_modSpace (fun _ hx => hx) ?_ | split
    | (intro _) | dsimp only)

theorem keeps_queueBlank {Q_ : List Instr} {d f : Nat} {b : BlankItem} {s : State} (h0 : Keeps Q_ s) : Keeps Q_ (queueBlank d f b s) := by
  unfold queueBlank
  try dsimp only
  with_reducible repeat' (first
    | assumption | refine keeps_modSpace (fun _ hx => hx) ?_ | split
    | (intro _) | dsimp only)

theorem keeps_allocFrame {Q_ : List Instr} {d n p : Nat} {isSealed : Bool} {s : State} {x_ t_} (e_ : allocFrame d n p isSealed s = some (x_, t_)) (h0 : Keeps Q_ s) : Keeps Q_ t_ := by
  unfold allocFrame at e_
  try dsimp only at e_
  repeat' (first
    | simp only [Option.some.injEq, Prod.mk.injEq, reduceCtorEq] at e_
    | split at e_)
  all_goals obtain ⟨-, rfl⟩ := e_
  all_goals with_reducible repeat' (first
    | assumption | apply keeps_setUse | split | (intro _) | dsimp only)

theorem keeps_allocRun {Q_ : List Instr} {d n p k : Nat} {avoid : Option Nat} {s : State} {x_ t_} (e_ : allocRun d n p k avoid s = some (x_, t_)) (h0 : Keeps Q_ s) : Keeps Q_ t_ := by
  unfold allocRun at e_
  try dsimp only at e_
  repeat' (first
    | simp only [Option.some.injEq, Prod.mk.injEq, reduceCtorEq] at e_
    | split at e_)
  all_goals obtain ⟨-, rfl⟩ := e_
  all_goals with_reducible repeat' (first
    | assumption | apply keeps_setUse | split | (intro _) | dsimp only)

theorem keeps_freeFrame {Q_ : List Instr} {d f : Nat} {s : State} (h0 : Keeps Q_ s) : Keeps Q_ (freeFrame d f s) := by
  unfold freeFrame
  try dsimp only
  with_reducible repeat' (first
    | assumption | apply keeps_queueBlank | apply keeps_setUse | split
    | (intro _) | dsimp only)

theorem keeps_freeRun {Q_ : List Instr} {d slot : Nat} {s : State} (h0 : Keeps Q_ s) : Keeps Q_ (freeRun d slot s) := by
  unfold freeRun
  try dsimp only
  with_reducible repeat' (first
    | assumption | apply keeps_queueBlank | apply keeps_setUse | split
    | (intro _) | dsimp only)

theorem keeps_blankItem {Q_ : List Instr} {d : Nat} {b : BlankItem} {s : State} (h0 : Keeps Q_ s) : Keeps Q_ (blankItem d b s) := by
  unfold blankItem
  try dsimp only
  with_reducible repeat' (first
    | assumption | refine keeps_modSpace (fun _ hx => hx) ?_
    | apply keeps_blankFrames | apply keeps_forAll | apply keeps_setUse
    | apply keeps_blankSlots | split | (intro _) | dsimp only)

theorem keeps_regionsTake {Q_ : List Instr} {s : State} (h0 : Keeps Q_ s) : Keeps Q_ (regionsTake s) := by
  unfold regionsTake
  try dsimp only
  with_reducible repeat' (first
    | assumption | refine keeps_modSpace (fun _ hx => hx) ?_
    | apply keeps_setUse | apply keeps_foldl | apply keeps_foldl_fst
    | apply keeps_foldl_snd | apply keeps_foldl_snd_snd | split | (intro _)
    | dsimp only)

theorem keeps_blankStep {Q_ : List Instr} {w : Nat} {tgt : Option Nat} {s : State} (h0 : Keeps Q_ s) : Keeps Q_ (blankStep w tgt s) := by
  unfold blankStep
  try dsimp only
  with_reducible repeat' (first
    | assumption | refine keeps_modSpace (fun _ hx => hx) ?_
    | apply keeps_regionsTake | apply keeps_forAll | apply keeps_blankFrames
    | apply keeps_blankItem | split | (intro _) | dsimp only)

theorem keeps_useBytes {Q_ : List Instr} {n d : Nat} {plus minus : Nat} {s : State} (h0 : Keeps Q_ s) : Keeps Q_ (useBytes n d plus minus s) := by
  unfold useBytes
  try dsimp only
  with_reducible repeat' (first
    | assumption | apply keeps_modLodge | split | (intro _) | dsimp only)

theorem keeps_releaseRecords {Q_ : List Instr} {n : Nat} {p : Extent → Bool} {s : State} (h0 : Keeps Q_ s) : Keeps Q_ (releaseRecords n p s).1 := by
  unfold releaseRecords
  try dsimp only
  with_reducible repeat' (first
    | assumption | apply keeps_forAll | apply keeps_putEvent
    | apply keeps_foldl | apply keeps_foldl_fst | apply keeps_foldl_snd
    | apply keeps_foldl_snd_snd | split | (intro _) | dsimp only)
theorem keeps_releaseRecords_eq {Q_ : List Instr} {n : Nat} {p : Extent → Bool} {s : State} {t_ x_} (e_ : releaseRecords n p s = (t_, x_)) (h0 : Keeps Q_ s) : Keeps Q_ t_ := by
  have h_ := keeps_releaseRecords (Q_ := Q_) (n := n) (p := p) (s := s) h0
  rw [e_] at h_; exact h_

theorem keeps_askReleases {Q_ : List Instr} {d : Nat} {s : State} (h0 : Keeps Q_ s) : Keeps Q_ (askReleases d s) := by
  unfold askReleases
  try dsimp only
  with_reducible repeat' (first
    | assumption | apply keeps_forAll | apply keeps_releaseRecords
    | refine keeps_releaseRecords_eq (by assumption) ?_ | split | (intro _)
    | dsimp only)

theorem keeps_capStatus {Q_ : List Instr} {s : State} (h0 : Keeps Q_ s) : Keeps Q_ (capStatus s) := by
  unfold capStatus
  try dsimp only
  with_reducible repeat' (first
    | assumption | apply keeps_modLod | apply keeps_foldl
    | apply keeps_foldl_fst | apply keeps_foldl_snd
    | apply keeps_foldl_snd_snd | split | (intro _) | dsimp only)

theorem keeps_restage {Q_ : List Instr} {d : Nat} {s : State} (h0 : Keeps Q_ s) : Keeps Q_ (restage d s) := by
  unfold restage
  try dsimp only
  with_reducible repeat' (first
    | assumption | apply keeps_capStatus | apply keeps_modLod
    | apply keeps_raiseAlert | apply keeps_askReleases | split | (intro _)
    | dsimp only)

theorem keeps_installedFell {Q_ : List Instr} {d : Nat} {s : State} (h0 : Keeps Q_ s) : Keeps Q_ (installedFell d s) := by
  unfold installedFell
  try dsimp only
  with_reducible repeat' (first
    | assumption | apply keeps_restage | apply keeps_logPlain | split
    | (intro _) | dsimp only)

theorem keeps_capReleaseRepeat {Q_ : List Instr} {d : Nat} {s : State} (h0 : Keeps Q_ s) : Keeps Q_ (capReleaseRepeat d s) := by
  unfold capReleaseRepeat
  try dsimp only
  with_reducible repeat' (first
    | assumption | apply keeps_askReleases | split | (intro _) | dsimp only)

theorem keeps_execCapStatusUpdate {Q_ : List Instr} {s : State} (h0 : Keeps Q_ s) : ∃ u_, execCapStatusUpdate s = .next u_ ∧ Keeps Q_ u_ := by
  refine ⟨_, rfl, ?_⟩
  with_reducible repeat' (first
    | assumption | apply keeps_capStatus | split | (intro _) | dsimp only)

theorem keeps_execCapReleaseRepeat {Q_ : List Instr} {d : MemDie} {s : State} (h0 : Keeps Q_ s) : ∃ u_, execCapReleaseRepeat d s = .next u_ ∧ Keeps Q_ u_ := by
  refine ⟨_, rfl, ?_⟩
  with_reducible repeat' (first
    | assumption | apply keeps_capReleaseRepeat | split | (intro _)
    | dsimp only)

end Sys2Proof.Machine
end

