-- ==== Sys2Proof/Laws/KeepsPages.lean ====
section
/-! SUPPORT. What the operations of Machine/Pages.lean keep: one lemma per operation that answers a state. -/

namespace Sys2Proof.Machine

theorem keeps_hwmNote {Q_ : List Instr} {d v : Nat} {s : State} (h0 : Keeps Q_ s) : Keeps Q_ (hwmNote d v s) := by
  unfold hwmNote
  try dsimp only
  with_reducible repeat' (first
    | assumption | apply keeps_modProt | split | (intro _) | dsimp only)

theorem keeps_markDirty {Q_ : List Instr} {id : Nat} {s : State} (h0 : Keeps Q_ s) : Keeps Q_ (markDirty id s) := by
  unfold markDirty
  try dsimp only
  with_reducible repeat' (first
    | assumption | apply keeps_modProt | split | (intro _) | dsimp only)

theorem keeps_setDesc {Q_ : List Instr} {n p : Nat} {x : Desc} {s : State} (h0 : Keeps Q_ s) : Keeps Q_ (setDesc n p x s) := by
  unfold setDesc
  try dsimp only
  with_reducible repeat' (first
    | assumption | apply keeps_hwmNote | apply keeps_modProt
    | apply keeps_markDirty | split | (intro _) | dsimp only)

theorem keeps_lockedSays {Q_ : List Instr} {n p : Nat} {f : Desc → Desc} {s : State} (h0 : Keeps Q_ s) : Keeps Q_ (lockedSays n p f s) := by
  unfold lockedSays
  try dsimp only
  with_reducible repeat' (first
    | assumption | apply keeps_modTier | apply keeps_modProt | split
    | (intro _) | dsimp only)

theorem keeps_lcPut {Q_ : List Instr} {k : Nat} {l : LcLine} {s : State} (h0 : Keeps Q_ s) : Keeps Q_ (lcPut k l s) := by
  unfold lcPut
  try dsimp only
  with_reducible repeat' (first
    | assumption | apply keeps_modLc | split | (intro _) | dsimp only)

theorem keeps_lcTouch {Q_ : List Instr} {k : Nat} {l : LcLine} {s : State} (h0 : Keeps Q_ s) : Keeps Q_ (lcTouch k l s) := by
  unfold lcTouch
  try dsimp only
  with_reducible repeat' (first
    | assumption | apply keeps_lcPut | split | (intro _) | dsimp only)

theorem keeps_lcAge {Q_ : List Instr} {set by_ : Nat} {s : State} (h0 : Keeps Q_ s) : Keeps Q_ (lcAge set by_ s) := by
  unfold lcAge
  try dsimp only
  with_reducible repeat' (first
    | assumption | apply keeps_forAll | apply keeps_lcPut | split
    | (intro _) | dsimp only)

theorem keeps_lcDrop {Q_ : List Instr} {n p : Nat} {s : State} (h0 : Keeps Q_ s) : Keeps Q_ (lcDrop n p s) := by
  unfold lcDrop
  try dsimp only
  with_reducible repeat' (first
    | assumption | apply keeps_modLc | split | (intro _) | dsimp only)

theorem keeps_lcDropLodging {Q_ : List Instr} {n : Nat} {s : State} (h0 : Keeps Q_ s) : Keeps Q_ (lcDropLodging n s) := by
  unfold lcDropLodging
  try dsimp only
  with_reducible repeat' (first
    | assumption | apply keeps_modTier | apply keeps_modLc | split
    | (intro _) | dsimp only)

theorem keeps_fireWatch {Q_ : List Instr} {n p : Nat} {s : State} (h0 : Keeps Q_ s) : Keeps Q_ (fireWatch n p s) := by
  unfold fireWatch
  try dsimp only
  with_reducible repeat' (first
    | assumption | apply keeps_modProt | apply keeps_modTier | split
    | (intro _) | dsimp only)

theorem keeps_ctrDirty {Q_ : List Instr} {n p : Nat} {s : State} (h0 : Keeps Q_ s) : Keeps Q_ (ctrDirty n p s) := by
  unfold ctrDirty
  try dsimp only
  with_reducible repeat' (first
    | assumption | apply keeps_markDirty | split | (intro _) | dsimp only)

theorem keeps_countersStart {Q_ : List Instr} {n p version : Nat} {s : State} (h0 : Keeps Q_ s) : Keeps Q_ (countersStart n p version s) := by
  unfold countersStart
  try dsimp only
  with_reducible repeat' (first
    | assumption | apply keeps_ctrDirty | apply keeps_hwmNote
    | apply keeps_modProt | split | (intro _) | dsimp only)

theorem keeps_countersDrop {Q_ : List Instr} {n p : Nat} {s : State} (h0 : Keeps Q_ s) : Keeps Q_ (countersDrop n p s) := by
  unfold countersDrop
  try dsimp only
  with_reducible repeat' (first
    | assumption | apply keeps_modProt | split | (intro _) | dsimp only)

theorem keeps_sealLine {Q_ : List Instr} {k : PageKeys} {n p i : Nat} {cipher : Line} {s : State} (h0 : Keeps Q_ s) : Keeps Q_ (sealLine k n p i cipher s) := by
  unfold sealLine
  try dsimp only
  with_reducible repeat' (first
    | assumption | apply keeps_ctrDirty | apply keeps_hwmNote
    | apply keeps_modProt | split | (intro _) | dsimp only)

theorem keeps_dropQueued {Q_ : List Instr} {n p : Nat} {s : State} (h0 : Keeps Q_ s) : Keeps Q_ (dropQueued n p s) := by
  unfold dropQueued
  try dsimp only
  with_reducible repeat' (first
    | assumption | apply keeps_modCh | split | (intro _) | dsimp only)

theorem keeps_freePage {Q_ : List Instr} {n p : Nat} {x : Desc} {s : State} (h0 : Keeps Q_ s) : Keeps Q_ (freePage n p x s) := by
  unfold freePage
  try dsimp only
  with_reducible repeat' (first
    | assumption | apply keeps_useBytes | apply keeps_freeFrame
    | apply keeps_freeRun | apply keeps_restage | apply keeps_countersDrop
    | apply keeps_dropQueued | apply keeps_lcDrop | split | (intro _)
    | dsimp only)

theorem keeps_pageLost {Q_ : List Instr} {kind n p version : Nat} {s : State} (h0 : Keeps Q_ s) : Keeps Q_ (pageLost kind n p version s) := by
  unfold pageLost
  try dsimp only
  with_reducible repeat' (first
    | assumption | apply keeps_modLodge | apply keeps_fireWatch
    | apply keeps_freePage | apply keeps_lossNotice | apply keeps_setDesc
    | split | (intro _) | dsimp only)

end Sys2Proof.Machine
end

