-- ==== Sys2Proof/Laws/KeepsDictionaries.lean ====
section
/-! SUPPORT. What the operations of Machine/Dictionaries.lean keep: one lemma per operation that answers a state. -/

namespace Sys2Proof.Machine

theorem keeps_modDictAt {Q_ : List Instr} {x : Nat} {f : DictRow → DictRow} {s : State} (h0 : Keeps Q_ s) : Keeps Q_ (modDictAt x f s) := by
  unfold modDictAt
  try dsimp only
  with_reducible repeat' (first
    | assumption | apply keeps_modComp | split | (intro _) | dsimp only)

theorem keeps_recordReload {Q_ : List Instr} {d x : Nat} {s : State} (h0 : Keeps Q_ s) : Keeps Q_ (recordReload d x s) := by
  unfold recordReload
  try dsimp only
  with_reducible repeat' (first
    | assumption | apply keeps_modDictAt | split | (intro _) | dsimp only)

theorem keeps_dictStore {Q_ : List Instr} {d x : Nat} {cipher : List Byte} {s : State} (h0 : Keeps Q_ s) : Keeps Q_ (dictStore d x cipher s) := by
  unfold dictStore
  try dsimp only
  with_reducible repeat' (first
    | assumption | refine keeps_modSpace (fun _ hx => hx) ?_
    | apply keeps_forAll | apply keeps_storeRaw | split | (intro _)
    | dsimp only)

theorem keeps_storeTouch {Q_ : List Instr} {d : Nat} {x : StoreSlot} {s : State} (h0 : Keeps Q_ s) : Keeps Q_ (storeTouch d x s) := by
  unfold storeTouch
  try dsimp only
  with_reducible repeat' (first
    | assumption | apply keeps_modComp | split | (intro _) | dsimp only)

theorem keeps_storeLoad {Q_ : List Instr} {d x : Nat} {bad : Nat} {s : State} (h0 : Keeps Q_ s) : Keeps Q_ (storeLoad d x bad s) := by
  unfold storeLoad
  try dsimp only
  with_reducible repeat' (first
    | assumption | apply keeps_storeTouch | apply keeps_dictStore
    | apply keeps_logPlain | apply keeps_modDictAt | split | (intro _)
    | dsimp only)

theorem keeps_refsRead {Q_ : List Instr} {d x : Nat} {s : State} (h0 : Keeps Q_ s) : Keeps Q_ (refsRead d x s) := by
  unfold refsRead
  try dsimp only
  with_reducible repeat' (first
    | assumption | apply keeps_onlyIf | apply keeps_logPlain | split
    | (intro _) | dsimp only)

theorem keeps_dictRef {Q_ : List Instr} {d x : Nat} {s : State} (h0 : Keeps Q_ s) : Keeps Q_ (dictRef d x s) := by
  unfold dictRef
  try dsimp only
  with_reducible repeat' (first
    | assumption | apply keeps_refsRead | apply keeps_modDictAt | split
    | (intro _) | dsimp only)

theorem keeps_dictUnref {Q_ : List Instr} {d x : Nat} {s : State} (h0 : Keeps Q_ s) : Keeps Q_ (dictUnref d x s) := by
  unfold dictUnref
  try dsimp only
  with_reducible repeat' (first
    | assumption | apply keeps_refsRead | apply keeps_modDictAt | split
    | (intro _) | dsimp only)

theorem keeps_leaveDict {Q_ : List Instr} {n p : Nat} {x : Desc} {s : State} (h0 : Keeps Q_ s) : Keeps Q_ (leaveDict n p x s) := by
  unfold leaveDict
  try dsimp only
  with_reducible repeat' (first
    | assumption | apply keeps_dictUnref | split | (intro _) | dsimp only)

theorem keeps_dictFree {Q_ : List Instr} {x : Nat} {s : State} (h0 : Keeps Q_ s) : Keeps Q_ (dictFree x s) := by
  unfold dictFree
  try dsimp only
  with_reducible repeat' (first
    | assumption | apply keeps_forAll | apply keeps_queueBlank
    | apply keeps_modComp | split | (intro _) | dsimp only)

theorem keeps_decodeError {Q_ : List Instr} {d code offset deco n page agent : Nat} {s : State} (h0 : Keeps Q_ s) : Keeps Q_ (decodeError d code offset deco n page agent s) := by
  unfold decodeError
  try dsimp only
  with_reducible repeat' (first
    | assumption | apply keeps_logEvent | apply keeps_modComp | split
    | (intro _) | dsimp only)

theorem keeps_execDictStoreLoad {Q_ : List Instr} {d : MemDie} {x : DictId} {bad : BitVec 4} {s : State} (h0 : Keeps Q_ s) : ∃ u_, execDictStoreLoad d x bad s = .next u_ ∧ Keeps Q_ u_ := by
  refine ⟨_, rfl, ?_⟩
  with_reducible repeat' (first
    | assumption | apply keeps_storeLoad | split | (intro _) | dsimp only)

end Sys2Proof.Machine
end

