-- ==== Sys2Proof/Laws/KeepsTree.lean ====
section
/-! SUPPORT. What the operations of Machine/Tree.lean keep: one lemma per operation that answers a state. -/

namespace Sys2Proof.Machine

theorem keeps_failCount {Q_ : List Instr} {idx n : Nat} {s : State} (h0 : Keeps Q_ s) : Keeps Q_ (failCount idx n s) := by
  unfold failCount
  try dsimp only
  with_reducible repeat' (first
    | assumption | apply keeps_modProt | split | (intro _) | dsimp only)

theorem keeps_descLost {Q_ : List Instr} {n p : Nat} {s : State} (h0 : Keeps Q_ s) : Keeps Q_ (descLost n p s) := by
  unfold descLost
  try dsimp only
  with_reducible repeat' (first
    | assumption | apply keeps_restage | apply keeps_forAll
    | apply keeps_modLod | apply keeps_useBytes | apply keeps_modLodge
    | apply keeps_fireWatch | apply keeps_countersDrop
    | apply keeps_dropQueued | apply keeps_lcDrop | apply keeps_lossNotice
    | apply keeps_setDesc | split | (intro _) | dsimp only)

theorem keeps_descFail {Q_ : List Instr} {n p : Nat} {s : State} (h0 : Keeps Q_ s) : Keeps Q_ (descFail n p s) := by
  unfold descFail
  try dsimp only
  with_reducible repeat' (first
    | assumption | apply keeps_descLost | apply keeps_onlyIf
    | apply keeps_failCount | split | (intro _) | dsimp only)

theorem keeps_setParentCounter {Q_ : List Instr} {d m h level k v : Nat} {s : State} (h0 : Keeps Q_ s) : Keeps Q_ (setParentCounter d m h level k v s) := by
  unfold setParentCounter
  try dsimp only
  with_reducible repeat' (first
    | assumption | apply keeps_hwmNote | apply keeps_modProt | split
    | (intro _) | dsimp only)

theorem keeps_treeWrite {Q_ : List Instr} {d m h level k : Nat} {s : State} (h0 : Keeps Q_ s) : Keeps Q_ (treeWrite d m h level k s) := by
  unfold treeWrite
  try dsimp only
  with_reducible repeat' (first
    | assumption | apply keeps_setParentCounter | apply keeps_modProt
    | apply keeps_markDirty | split | (intro _) | dsimp only)

theorem keeps_sealedPageLost {Q_ : List Instr} {n p : Nat} {s : State} (h0 : Keeps Q_ s) : Keeps Q_ (sealedPageLost n p s) := by
  unfold sealedPageLost
  try dsimp only
  with_reducible repeat' (first
    | assumption | apply keeps_pageLost | split | (intro _) | dsimp only)

theorem keeps_leafLost {Q_ : List Instr} {d m j : Nat} {s : State} (h0 : Keeps Q_ s) : Keeps Q_ (leafLost d m j s) := by
  unfold leafLost
  try dsimp only
  with_reducible repeat' (first
    | assumption | apply keeps_descLost | apply keeps_sealedPageLost | split
    | (intro _) | dsimp only)

theorem keeps_subtreeFresh {Q_ : List Instr} {d m h level k : Nat} {s0 : State} (h0 : Keeps Q_ s0) : Keeps Q_ (subtreeFresh d m h level k s0) := by
  unfold subtreeFresh
  try dsimp only
  with_reducible repeat' (first
    | assumption | apply keeps_onlyIf | apply keeps_setParentCounter
    | apply keeps_forAll | apply keeps_modProt | apply keeps_treeWrite
    | split | (intro _) | dsimp only)

theorem keeps_nodeNotice {Q_ : List Instr} {d m h level k : Nat} {s : State} (h0 : Keeps Q_ s) : Keeps Q_ (nodeNotice d m h level k s) := by
  unfold nodeNotice
  try dsimp only
  with_reducible repeat' (first
    | assumption | apply keeps_putEvents | apply keeps_logEvent | split
    | (intro _) | dsimp only)

theorem keeps_subtreeLost {Q_ : List Instr} {d m h level k : Nat} {s : State} (h0 : Keeps Q_ s) : Keeps Q_ (subtreeLost d m h level k s) := by
  unfold subtreeLost
  try dsimp only
  with_reducible repeat' (first
    | assumption | apply keeps_subtreeFresh | apply keeps_forAll
    | apply keeps_leafLost | apply keeps_nodeNotice | split | (intro _)
    | dsimp only)

theorem keeps_rootLost {Q_ : List Instr} {d m h : Nat} {s : State} (h0 : Keeps Q_ s) : Keeps Q_ (rootLost d m h s) := by
  unfold rootLost
  try dsimp only
  with_reducible repeat' (first
    | assumption | apply keeps_subtreeLost | apply keeps_failCount | split
    | (intro _) | dsimp only)

theorem keeps_homeRestored {Q_ : List Instr} {d m h level k : Nat} {s : State} (h0 : Keeps Q_ s) : Keeps Q_ (homeRestored d m h level k s) := by
  unfold homeRestored
  try dsimp only
  with_reducible repeat' (first
    | assumption | apply keeps_modProt | apply keeps_foldl
    | apply keeps_foldl_fst | apply keeps_foldl_snd
    | apply keeps_foldl_snd_snd | split | (intro _) | dsimp only)

theorem keeps_nodeBad {Q_ : List Instr} {d m h level k : Nat} {s : State} (h0 : Keeps Q_ s) : Keeps Q_ (nodeBad d m h level k s) := by
  unfold nodeBad
  try dsimp only
  with_reducible repeat' (first
    | assumption | apply keeps_logQuiet | apply keeps_modProt
    | apply keeps_homeRestored | apply keeps_subtreeLost
    | apply keeps_failCount | split | (intro _) | dsimp only)

theorem keeps_nodeFetch {Q_ : List Instr} {d m h level k : Nat} {s : State} (h0 : Keeps Q_ s) : Keeps Q_ (nodeFetch d m h level k s) := by
  unfold nodeFetch
  try dsimp only
  with_reducible repeat' (first
    | assumption | apply keeps_nodeBad | split | (intro _) | dsimp only)

theorem keeps_pathFetch {Q_ : List Instr} {d m h level k : Nat} {s : State} (h0 : Keeps Q_ s) : Keeps Q_ (pathFetch d m h level k s) := by
  unfold pathFetch
  try dsimp only
  with_reducible repeat' (first
    | assumption | apply keeps_rootLost | apply keeps_forAll
    | apply keeps_nodeFetch | split | (intro _) | dsimp only)

theorem keeps_leafBad {Q_ : List Instr} {d m j : Nat} {s : State} (h0 : Keeps Q_ s) : Keeps Q_ (leafBad d m j s) := by
  unfold leafBad
  try dsimp only
  with_reducible repeat' (first
    | assumption | apply keeps_leafLost | apply keeps_failCount | split
    | (intro _) | dsimp only)

theorem keeps_leafFetch {Q_ : List Instr} {reads : State → Bool} {d m j : Nat} {s : State} (h0 : Keeps Q_ s) : Keeps Q_ (leafFetch reads d m j s) := by
  unfold leafFetch
  try dsimp only
  with_reducible repeat' (first
    | assumption | apply keeps_leafBad | apply keeps_pathFetch | split
    | (intro _) | dsimp only)

theorem keeps_descFetch {Q_ : List Instr} {n p : Nat} {s : State} (h0 : Keeps Q_ s) : Keeps Q_ (descFetch n p s) := by
  unfold descFetch
  try dsimp only
  with_reducible repeat' (first
    | assumption | apply keeps_onlyIf | apply keeps_leafFetch | split
    | (intro _) | dsimp only)

theorem keeps_ctrFetch {Q_ : List Instr} {n p : Nat} {x : Desc} {s : State} (h0 : Keeps Q_ s) : Keeps Q_ (ctrFetch n p x s) := by
  unfold ctrFetch
  try dsimp only
  with_reducible repeat' (first
    | assumption | apply keeps_onlyIf | apply keeps_leafFetch | split
    | (intro _) | dsimp only)

theorem keeps_nodeWriteBack {Q_ : List Instr} {d m h level k : Nat} {s : State} (h0 : Keeps Q_ s) : Keeps Q_ (nodeWriteBack d m h level k s) := by
  unfold nodeWriteBack
  try dsimp only
  with_reducible repeat' (first
    | assumption | apply keeps_pathFetch | apply keeps_subtreeLost
    | apply keeps_failCount | apply keeps_treeWrite | split | (intro _)
    | dsimp only)

theorem keeps_execNodeWriteBack {Q_ : List Instr} {d : MemDie} {m : Fin 262144} {h : Fin 2} {level : Fin 6} {k : Fin 16807} {s : State} (h0 : Keeps Q_ s) : ∃ u_, execNodeWriteBack d m h level k s = .next u_ ∧ Keeps Q_ u_ := by
  refine ⟨_, rfl, ?_⟩
  with_reducible repeat' (first
    | assumption | apply keeps_nodeWriteBack | split | (intro _)
    | dsimp only)

end Sys2Proof.Machine
end

