-- ==== Sys2Proof/Laws/KeepsWrites.lean ====
section
/-! SUPPORT. What the operations of Machine/Writes.lean keep: one lemma per operation that answers a state. -/

namespace Sys2Proof.Machine

theorem keeps_chanWake {Q_ : List Instr} {c : Nat} {s : State} (h0 : Keeps Q_ s) : Keeps Q_ (chanWake c s) := by
  unfold chanWake
  try dsimp only
  with_reducible repeat' (first
    | assumption | apply keeps_modChan | apply keeps_tableValid | split
    | (intro _) | dsimp only)

theorem keeps_sealWrite {Q_ : List Instr} {k : PageKeys} {n p i : Nat} {x : Desc} {cipher : Line} {s : State} (h0 : Keeps Q_ s) : Keeps Q_ (sealWrite k n p i x cipher s).1 := by
  unfold sealWrite
  try dsimp only
  with_reducible repeat' (first
    | assumption | apply keeps_ctrFetch | apply keeps_sealedPageLost
    | apply keeps_failCount | apply keeps_sealLine | split | (intro _)
    | dsimp only)
theorem keeps_sealWrite_eq {Q_ : List Instr} {k : PageKeys} {n p i : Nat} {x : Desc} {cipher : Line} {s : State} {t_ x_} (e_ : sealWrite k n p i x cipher s = (t_, x_)) (h0 : Keeps Q_ s) : Keeps Q_ t_ := by
  have h_ := keeps_sealWrite (Q_ := Q_) (k := k) (n := n) (p := p) (i := i) (x := x) (cipher := cipher) (s := s) h0
  rw [e_] at h_; exact h_

theorem keeps_rawSealed {Q_ : List Instr} {d f i : Nat} {b : Line} {po : Bool} {s : State} (h0 : Keeps Q_ s) : Keeps Q_ (rawSealed d f i b po s).1 := by
  unfold rawSealed
  try dsimp only
  with_reducible repeat' (first
    | assumption | apply keeps_sealWrite
    | refine keeps_sealWrite_eq (by assumption) ?_ | split | (intro _)
    | dsimp only)
theorem keeps_rawSealed_eq {Q_ : List Instr} {d f i : Nat} {b : Line} {po : Bool} {s : State} {t_ x_} (e_ : rawSealed d f i b po s = (t_, x_)) (h0 : Keeps Q_ s) : Keeps Q_ t_ := by
  have h_ := keeps_rawSealed (Q_ := Q_) (d := d) (f := f) (i := i) (b := b) (po := po) (s := s) h0
  rw [e_] at h_; exact h_

theorem keeps_unitDenied {Q_ : List Instr} {c : Nat} {u : Option Nat} {cl : AgentClass} {write : Bool} {f : Nat} {s : State} (h0 : Keeps Q_ s) : Keeps Q_ (unitDenied c u cl write f s) := by
  unfold unitDenied
  try dsimp only
  with_reducible repeat' (first
    | assumption | apply keeps_regionDenied | apply keeps_unitSuspect
    | split | (intro _) | dsimp only)

theorem keeps_writeOut {Q_ : List Instr} {d : Nat} {e : WEntry} {s : State} (h0 : Keeps Q_ s) : Keeps Q_ (writeOut d e s) := by
  unfold writeOut
  try dsimp only
  with_reducible repeat' (first
    | assumption | apply keeps_chanWake | apply keeps_unitDenied
    | apply keeps_rawSealed | refine keeps_rawSealed_eq (by assumption) ?_
    | apply keeps_storeRaw | apply keeps_sealWrite
    | refine keeps_sealWrite_eq (by assumption) ?_ | apply keeps_onlyIf
    | apply keeps_useCrypto | split | (intro _) | dsimp only)

theorem keeps_retryPut {Q_ : List Instr} {c kind bank row : Nat} {w : Option WEntry} {s : State} (h0 : Keeps Q_ s) : Keeps Q_ (retryPut c kind bank row w s) := by
  unfold retryPut
  try dsimp only
  with_reducible repeat' (first
    | assumption | apply keeps_modChan | split | (intro _) | dsimp only)

theorem keeps_countAct {Q_ : List Instr} {c bank row : Nat} {s : State} (h0 : Keeps Q_ s) : Keeps Q_ (countAct c bank row s) := by
  unfold countAct
  try dsimp only
  with_reducible repeat' (first
    | assumption | apply keeps_modChan | split | (intro _) | dsimp only)

theorem keeps_randomMitigation {Q_ : List Instr} {c bank row : Nat} {s : State} (h0 : Keeps Q_ s) : Keeps Q_ (randomMitigation c bank row s) := by
  unfold randomMitigation
  try dsimp only
  with_reducible repeat' (first
    | assumption | apply keeps_tableValid | apply keeps_modChan | split
    | (intro _) | dsimp only)

theorem keeps_activate {Q_ : List Instr} {c bank row : Nat} {s : State} (h0 : Keeps Q_ s) : Keeps Q_ (activate c bank row s) := by
  unfold activate
  try dsimp only
  with_reducible repeat' (first
    | assumption | apply keeps_randomMitigation | apply keeps_countAct
    | apply keeps_retryPut | split | (intro _) | dsimp only)

theorem keeps_refresh {Q_ : List Instr} {c rank n : Nat} {s : State} (h0 : Keeps Q_ s) : Keeps Q_ (refresh c rank n s) := by
  unfold refresh
  try dsimp only
  with_reducible repeat' (first
    | assumption | apply keeps_retryPut | apply keeps_modChan | split
    | (intro _) | dsimp only)

theorem keeps_mitigation {Q_ : List Instr} {c bank row : Nat} {s : State} (h0 : Keeps Q_ s) : Keeps Q_ (mitigation c bank row s) := by
  unfold mitigation
  try dsimp only
  with_reducible repeat' (first
    | assumption | apply keeps_modChan | apply keeps_retryPut | split
    | (intro _) | dsimp only)

theorem keeps_chanUrgent {Q_ : List Instr} {c : Nat} {s : State} (h0 : Keeps Q_ s) : Keeps Q_ (chanUrgent c s) := by
  unfold chanUrgent
  try dsimp only
  with_reducible repeat' (first
    | assumption | apply keeps_forAll | apply keeps_refresh
    | apply keeps_mitigation | split | (intro _) | dsimp only)

theorem keeps_chanArrive {Q_ : List Instr} {c label : Nat} {s : State} (h0 : Keeps Q_ s) : Keeps Q_ (chanArrive c label s) := by
  unfold chanArrive
  try dsimp only
  with_reducible repeat' (first
    | assumption | apply keeps_fairArrive | split | (intro _) | dsimp only)

theorem keeps_chanServed {Q_ : List Instr} {c label : Nat} {s : State} (h0 : Keeps Q_ s) : Keeps Q_ (chanServed c label s) := by
  unfold chanServed
  try dsimp only
  with_reducible repeat' (first
    | assumption | apply keeps_fairServe | split | (intro _) | dsimp only)

theorem keeps_issueRead {Q_ : List Instr} {c : Nat} {r : ReadEntry} {s : State} (h0 : Keeps Q_ s) : Keeps Q_ (issueRead c r s) := by
  unfold issueRead
  try dsimp only
  with_reducible repeat' (first
    | assumption | apply keeps_chanServed | apply keeps_modChan
    | apply keeps_chanUrgent | apply keeps_retryPut | apply keeps_activate
    | split | (intro _) | dsimp only)

theorem keeps_issueWrite {Q_ : List Instr} {c : Nat} {e : WEntry} {s : State} (h0 : Keeps Q_ s) : Keeps Q_ (issueWrite c e s) := by
  unfold issueWrite
  try dsimp only
  with_reducible repeat' (first
    | assumption | apply keeps_chanServed | apply keeps_modChan
    | apply keeps_chanUrgent | apply keeps_chanWake | apply keeps_writeOut
    | apply keeps_activate | apply keeps_retryPut | split | (intro _)
    | dsimp only)

theorem keeps_flushLine {Q_ : List Instr} {d f i : Nat} {s : State} (h0 : Keeps Q_ s) : Keeps Q_ (flushLine d f i s) := by
  unfold flushLine
  try dsimp only
  with_reducible repeat' (first
    | assumption | apply keeps_chanWake | apply keeps_forAll
    | apply keeps_issueWrite | apply keeps_modChan | split | (intro _)
    | dsimp only)

theorem keeps_readPut {Q_ : List Instr} {d f i label : Nat} {s : State} (h0 : Keeps Q_ s) : Keeps Q_ (readPut d f i label s) := by
  unfold readPut
  try dsimp only
  with_reducible repeat' (first
    | assumption | apply keeps_issueRead | apply keeps_modChan
    | apply keeps_chanArrive | split | (intro _) | dsimp only)

theorem keeps_dramRead {Q_ : List Instr} {d f i label : Nat} {s : State} (h0 : Keeps Q_ s) : Keeps Q_ (dramRead d f i label s) := by
  unfold dramRead
  try dsimp only
  with_reducible repeat' (first
    | assumption | apply keeps_readPut | apply keeps_flushLine | split
    | (intro _) | dsimp only)

theorem keeps_writeNext {Q_ : List Instr} {c : Nat} {s : State} (h0 : Keeps Q_ s) : Keeps Q_ (writeNext c s) := by
  unfold writeNext
  try dsimp only
  with_reducible repeat' (first
    | assumption | apply keeps_issueWrite | split | (intro _) | dsimp only)

theorem keeps_queueWrite {Q_ : List Instr} {d : Nat} {e : WEntry} {s : State} (h0 : Keeps Q_ s) : Keeps Q_ (queueWrite d e s) := by
  unfold queueWrite
  try dsimp only
  with_reducible repeat' (first
    | assumption | apply keeps_modChan | apply keeps_issueWrite
    | apply keeps_chanArrive | split | (intro _) | dsimp only)

theorem keeps_drainChan {Q_ : List Instr} {c : Nat} {s : State} (h0 : Keeps Q_ s) : Keeps Q_ (drainChan c s) := by
  unfold drainChan
  try dsimp only
  with_reducible repeat' (first
    | assumption | apply keeps_forAll | apply keeps_issueRead
    | apply keeps_issueWrite | split | (intro _) | dsimp only)

end Sys2Proof.Machine
end

