-- ==== Sys2Proof/Laws/KeepsLines.lean ====
section
/-! SUPPORT. What the operations of Machine/Lines.lean keep: one lemma per operation that answers a state. -/

namespace Sys2Proof.Machine

theorem keeps_memEvent {Q_ : List Instr} {c severity : Nat} {page : Option (Nat × Nat)} {r : Nat} {s : State} (h0 : Keeps Q_ s) : Keeps Q_ (memEvent c severity page r s) := by
  unfold memEvent
  try dsimp only
  with_reducible repeat' (first
    | assumption | apply keeps_logEvent | apply keeps_modChan | split
    | (intro _) | dsimp only)

theorem keeps_checkedDesc {q : List Instr} {n p : Nat} {s : State} {x_ t_} (e : checkedDesc n p s = some (x_, t_))
    (h : Keeps q s) : Keeps q t_ := by
  have hf : Keeps q (descFetch n p s) := keeps_descFetch h
  unfold checkedDesc at e
  dsimp only at e
  split at e
  · simp only [reduceCtorEq] at e
  · split at e
    · simp only [Option.some.injEq, Prod.mk.injEq] at e
      obtain ⟨-, rfl⟩ := e
      exact hf
    · simp only [Option.map_eq_some_iff, Prod.mk.injEq] at e
      obtain ⟨-, -, -, rfl⟩ := e
      exact keeps_descFail hf

theorem keeps_markBy {Q_ : List Instr} {cl : AgentClass} {d f i : Nat} {hint : Bool} {s : State} (h0 : Keeps Q_ s) : Keeps Q_ (markBy cl d f i hint s) := by
  unfold markBy
  try dsimp only
  with_reducible repeat' (first
    | assumption | apply keeps_queueWrite | split | (intro _) | dsimp only)

theorem keeps_markLine {Q_ : List Instr} {d f i : Nat} {hint : Bool} {s : State} (h0 : Keeps Q_ s) : Keeps Q_ (markLine d f i hint s) := by
  unfold markLine
  try dsimp only
  with_reducible repeat' (first
    | assumption | apply keeps_markBy | split | (intro _) | dsimp only)

theorem keeps_poisonLine {Q_ : List Instr} {n p i : Nat} {x : Desc} {s : State} (h0 : Keeps Q_ s) : Keeps Q_ (poisonLine n p i x s) := by
  unfold poisonLine
  try dsimp only
  with_reducible repeat' (first
    | assumption | apply keeps_markLine | apply keeps_setDesc
    | apply keeps_notePage | split | (intro _) | dsimp only)

theorem keeps_uncorrectable {Q_ : List Instr} {d f i words agent : Nat} {page : Option (Nat × Nat)} {s : State} (h0 : Keeps Q_ s) : Keeps Q_ (uncorrectable d f i words agent page s) := by
  unfold uncorrectable
  try dsimp only
  with_reducible repeat' (first
    | assumption | apply keeps_memEvent | apply keeps_modChan
    | apply keeps_logEvent | split | (intro _) | dsimp only)

theorem keeps_lineTagFails {Q_ : List Instr} {n p i : Nat} {x : Desc} {k : PageKeys} {cipher : Line} {s : State} (h0 : Keeps Q_ s) : Keeps Q_ (lineTagFails n p i x k cipher s).2 := by
  unfold lineTagFails
  try dsimp only
  with_reducible repeat' (first
    | assumption | apply keeps_afterDraw | split | (intro _) | dsimp only)
theorem keeps_lineTagFails_eq {Q_ : List Instr} {n p i : Nat} {x : Desc} {k : PageKeys} {cipher : Line} {s : State} {t_ x_} (e_ : lineTagFails n p i x k cipher s = (x_, t_)) (h0 : Keeps Q_ s) : Keeps Q_ t_ := by
  have h_ := keeps_lineTagFails (Q_ := Q_) (n := n) (p := p) (i := i) (x := x) (k := k) (cipher := cipher) (s := s) h0
  rw [e_] at h_; exact h_

theorem keeps_fetchLine {Q_ : List Instr} {agent n p i : Nat} {x : Desc} {s : State} (h0 : Keeps Q_ s) : Keeps Q_ (fetchLine agent n p i x s).2.2 := by
  unfold fetchLine
  try dsimp only
  with_reducible repeat' (first
    | assumption | apply keeps_useCrypto | apply keeps_dramRead
    | apply keeps_ctrFetch | apply keeps_unitDenied | apply keeps_poisonLine
    | apply keeps_uncorrectable | apply keeps_lineTagFails
    | refine keeps_lineTagFails_eq (by assumption) ?_ | apply keeps_logEvent
    | apply keeps_failCount | split | (intro _) | dsimp only)
theorem keeps_fetchLine_eq {Q_ : List Instr} {agent n p i : Nat} {x : Desc} {s : State} {t_ x_ y_} (e_ : fetchLine agent n p i x s = (x_, y_, t_)) (h0 : Keeps Q_ s) : Keeps Q_ t_ := by
  have h_ := keeps_fetchLine (Q_ := Q_) (agent := agent) (n := n) (p := p) (i := i) (x := x) (s := s) h0
  rw [e_] at h_; exact h_

theorem keeps_mergeOut {Q_ : List Instr} {c : Nat} {e : MergeEntry} {s : State} (h0 : Keeps Q_ s) : Keeps Q_ (mergeOut c e s) := by
  unfold mergeOut
  try dsimp only
  with_reducible repeat' (first
    | assumption | apply keeps_modChan | apply keeps_queueWrite
    | apply keeps_fetchLine | refine keeps_fetchLine_eq (by assumption) ?_
    | split | (intro _) | dsimp only)

theorem keeps_mergeSettle {Q_ : List Instr} {n p i : Nat} {x : Desc} {s : State} (h0 : Keeps Q_ s) : Keeps Q_ (mergeSettle n p i x s) := by
  unfold mergeSettle
  try dsimp only
  with_reducible repeat' (first
    | assumption | apply keeps_mergeOut | split | (intro _) | dsimp only)

theorem keeps_mergeWrite {Q_ : List Instr} {n p i : Nat} {x : Desc} {bytes : Line} {mask : BitVec 64} {s : State} (h0 : Keeps Q_ s) : Keeps Q_ (mergeWrite n p i x bytes mask s) := by
  unfold mergeWrite
  try dsimp only
  with_reducible repeat' (first
    | assumption | apply keeps_modChan | apply keeps_mergeOut | split
    | (intro _) | dsimp only)

theorem keeps_writeBackLine {Q_ : List Instr} {l : LcLine} {s : State} (h0 : Keeps Q_ s) : Keeps Q_ (writeBackLine l s) := by
  unfold writeBackLine
  try dsimp only
  with_reducible repeat' (first
    | assumption | apply keeps_queueWrite | apply keeps_fireWatch | split
    | (intro _) | dsimp only)

theorem keeps_writeBackNext {Q_ : List Instr} {d : Nat} {s : State} (h0 : Keeps Q_ s) : Keeps Q_ (writeBackNext d s) := by
  unfold writeBackNext
  try dsimp only
  with_reducible repeat' (first
    | assumption | apply keeps_writeBackLine | apply keeps_modTier | split
    | (intro _) | dsimp only)

theorem keeps_settlePage {Q_ : List Instr} {n p : Nat} {s : State} (h0 : Keeps Q_ s) : Keeps Q_ (settlePage n p s) := by
  unfold settlePage
  try dsimp only
  with_reducible repeat' (first
    | assumption | apply keeps_forAll | apply keeps_writeBackLine
    | apply keeps_modTier | split | (intro _) | dsimp only)

theorem keeps_lcEvict {Q_ : List Instr} {k : Nat} {s : State} (h0 : Keeps Q_ s) : Keeps Q_ (lcEvict k s) := by
  unfold lcEvict
  try dsimp only
  with_reducible repeat' (first
    | assumption | apply keeps_modLc | apply keeps_modTier | split
    | (intro _) | dsimp only)

theorem keeps_lcFill {Q_ : List Instr} {n p i : Nat} {st : LcState} {rrpv : Nat} {data : Line} {poison : Bool} {s : State} (h0 : Keeps Q_ s) : Keeps Q_ (lcFill n p i st rrpv data poison s).1 := by
  unfold lcFill
  try dsimp only
  with_reducible repeat' (first
    | assumption | apply keeps_lcPut | apply keeps_lcEvict
    | apply keeps_lcAge | split | (intro _) | dsimp only)
theorem keeps_lcFill_eq {Q_ : List Instr} {n p i : Nat} {st : LcState} {rrpv : Nat} {data : Line} {poison : Bool} {s : State} {t_ x_} (e_ : lcFill n p i st rrpv data poison s = (t_, x_)) (h0 : Keeps Q_ s) : Keeps Q_ t_ := by
  have h_ := keeps_lcFill (Q_ := Q_) (n := n) (p := p) (i := i) (st := st) (rrpv := rrpv) (data := data) (poison := poison) (s := s) h0
  rw [e_] at h_; exact h_

theorem keeps_lineValue {Q_ : List Instr} {agent n p i : Nat} {x : Desc} {s : State} (h0 : Keeps Q_ s) : Keeps Q_ (lineValue agent n p i x s).2.2 := by
  unfold lineValue
  try dsimp only
  with_reducible repeat' (first
    | assumption | apply keeps_lcTouch | apply keeps_fetchLine
    | refine keeps_fetchLine_eq (by assumption) ?_ | apply keeps_mergeSettle
    | split | (intro _) | dsimp only)
theorem keeps_lineValue_eq {Q_ : List Instr} {agent n p i : Nat} {x : Desc} {s : State} {t_ x_ y_} (e_ : lineValue agent n p i x s = (x_, y_, t_)) (h0 : Keeps Q_ s) : Keeps Q_ t_ := by
  have h_ := keeps_lineValue (Q_ := Q_) (agent := agent) (n := n) (p := p) (i := i) (x := x) (s := s) h0
  rw [e_] at h_; exact h_

theorem keeps_bumpTier {Q_ : List Instr} {d i n : Nat} {s : State} (h0 : Keeps Q_ s) : Keeps Q_ (bumpTier d i n s) := by
  unfold bumpTier
  try dsimp only
  with_reducible repeat' (first
    | assumption | apply keeps_modTier | split | (intro _) | dsimp only)

theorem keeps_queueMove {Q_ : List Instr} {d : Nat} {r : MoveReq} {s : State} (h0 : Keeps Q_ s) : Keeps Q_ (queueMove d r s) := by
  unfold queueMove
  try dsimp only
  with_reducible repeat' (first
    | assumption | apply keeps_bumpTier | apply keeps_modTier | split
    | (intro _) | dsimp only)

theorem keeps_countAccess {Q_ : List Instr} {agent n p : Nat} {hot isRead : Bool} {s : State} (h0 : Keeps Q_ s) : Keeps Q_ (countAccess agent n p hot isRead s) := by
  unfold countAccess
  try dsimp only
  with_reducible repeat' (first
    | assumption | apply keeps_setDesc | apply keeps_queueMove | split
    | (intro _) | dsimp only)

theorem keeps_execWriteBack {Q_ : List Instr} {d : MemDie} {s : State} (h0 : Keeps Q_ s) : ∃ u_, execWriteBack d s = .next u_ ∧ Keeps Q_ u_ := by
  refine ⟨_, rfl, ?_⟩
  with_reducible repeat' (first
    | assumption | apply keeps_writeBackNext | split | (intro _)
    | dsimp only)

theorem keeps_execLineWriteOut {Q_ : List Instr} {c : ChanId} {s : State} (h0 : Keeps Q_ s) : ∃ u_, execLineWriteOut c s = .next u_ ∧ Keeps Q_ u_ := by
  refine ⟨_, rfl, ?_⟩
  with_reducible repeat' (first
    | assumption | apply keeps_writeNext | split | (intro _) | dsimp only)

theorem keeps_execMergeHold {Q_ : List Instr} {c : ChanId} {s : State} (h0 : Keeps Q_ s) : ∃ u_, execMergeHold c s = .next u_ ∧ Keeps Q_ u_ := by
  refine ⟨_, rfl, ?_⟩
  with_reducible repeat' (first
    | assumption | apply keeps_mergeOut | split | (intro _) | dsimp only)

end Sys2Proof.Machine
end

