-- ==== Sys2Proof/Laws/KeepsMetadata.lean ====
section
/-! SUPPORT. What the operations of Machine/Metadata.lean keep: one lemma per operation that answers a state. -/

namespace Sys2Proof.Machine

theorem keeps_descLineRead {Q_ : List Instr} {d m off : Nat} {bytes : List Byte} {s : State} (h0 : Keeps Q_ s) : Keeps Q_ (descLineRead d m off bytes s) := by
  unfold descLineRead
  try dsimp only
  with_reducible repeat' (first
    | assumption | apply keeps_setDesc | apply keeps_descFail | split
    | (intro _) | dsimp only)

theorem keeps_granuleFails {Q_ : List Instr} {n g d : Nat} {s : State} (h0 : Keeps Q_ s) : Keeps Q_ (granuleFails n g d s) := by
  unfold granuleFails
  try dsimp only
  with_reducible repeat' (first
    | assumption | apply keeps_forAll | apply keeps_descLost | split
    | (intro _) | dsimp only)

theorem keeps_groupMetaBad {Q_ : List Instr} {fr : SMap (Option (Nat × Nat))} {at_ : Nat} {bad : Nat → Nat → Nat → Bool} {s : State} (h0 : Keeps Q_ s) : Keeps Q_ (groupMetaBad fr at_ bad s) := by
  unfold groupMetaBad
  try dsimp only
  with_reducible repeat' (first
    | assumption | apply keeps_leafBad | apply keeps_forAll
    | apply keeps_poisonLine | apply keeps_logEvent | apply keeps_failCount
    | split | (intro _) | dsimp only)

theorem keeps_leafTagsRead {Q_ : List Instr} {d m t : Nat} {bytes : List Byte} {s : State} (h0 : Keeps Q_ s) : Keeps Q_ (leafTagsRead d m t bytes s) := by
  unfold leafTagsRead
  try dsimp only
  with_reducible repeat' (first
    | assumption | apply keeps_forAll | apply keeps_leafBad | split
    | (intro _) | dsimp only)

theorem keeps_mapLineBad {Q_ : List Instr} {d off : Nat} {s : State} (h0 : Keeps Q_ s) : Keeps Q_ (mapLineBad d off s) := by
  unfold mapLineBad
  try dsimp only
  with_reducible repeat' (first
    | assumption | apply keeps_forAll | apply keeps_granuleFails
    | apply keeps_modLod | split | (intro _) | dsimp only)

theorem keeps_mapLineRead {Q_ : List Instr} {d off : Nat} {bytes : List Byte} {s : State} (h0 : Keeps Q_ s) : Keeps Q_ (mapLineRead d off bytes s) := by
  unfold mapLineRead
  try dsimp only
  with_reducible repeat' (first
    | assumption | apply keeps_forAll | apply keeps_granuleFails
    | apply keeps_modLod | split | (intro _) | dsimp only)

theorem keeps_segmentBad {Q_ : List Instr} {d m off : Nat} {s : State} (h0 : Keeps Q_ s) : Keeps Q_ (segmentBad d m off s) := by
  unfold segmentBad
  try dsimp only
  with_reducible repeat' (first
    | assumption | apply keeps_leafBad | apply keeps_nodeBad
    | apply keeps_forAll | apply keeps_modProt | split | (intro _)
    | dsimp only)

theorem keeps_metaRead {Q_ : List Instr} {d f i : Nat} {bytes : List Byte} {s : State} (h0 : Keeps Q_ s) : Keeps Q_ (metaRead d f i bytes s) := by
  unfold metaRead
  try dsimp only
  with_reducible repeat' (first
    | assumption | apply keeps_mapLineRead | apply keeps_descLineRead
    | apply keeps_leafTagsRead | apply keeps_segmentBad
    | apply keeps_groupMetaBad | split | (intro _) | dsimp only)

end Sys2Proof.Machine
end

