-- ==== Sys2Proof/Laws/KeepsHotSwap.lean ====
section
/-! SUPPORT. What the operations of Machine/HotSwap.lean keep: one lemma per operation that answers a state. -/

namespace Sys2Proof.Machine

theorem keeps_bumpHs {Q_ : List Instr} {i : Nat} {s : State} (h0 : Keeps Q_ s) : Keeps Q_ (bumpHs i s) := by
  unfold bumpHs
  try dsimp only
  with_reducible repeat' (first
    | assumption | apply keeps_gbAdd | apply keeps_modHs | split | (intro _)
    | dsimp only)

theorem keeps_recordTrip {Q_ : List Instr} {cause branch peak : Nat} {s : State} (h0 : Keeps Q_ s) : Keeps Q_ (recordTrip cause branch peak s) := by
  unfold recordTrip
  try dsimp only
  with_reducible repeat' (first
    | assumption | refine keeps_modGb (fun _ hx => hx) ?_
    | apply keeps_modHs | split | (intro _) | dsimp only)

theorem keeps_openMain {Q_ : List Instr} {st : HsState} {s : State} (h0 : Keeps Q_ s) : Keeps Q_ (openMain st s) := by
  unfold openMain
  try dsimp only
  with_reducible repeat' (first
    | assumption | apply keeps_modHs | split | (intro _) | dsimp only)

theorem keeps_mainOpens {Q_ : List Instr} {st : HsState} {s : State} (h0 : Keeps Q_ s) : Keeps Q_ (mainOpens st s) := by
  unfold mainOpens
  try dsimp only
  with_reducible repeat' (first
    | assumption | apply keeps_logPlain | apply keeps_mainPowerLost
    | apply keeps_openMain | split | (intro _) | dsimp only)

theorem keeps_mainTrip {Q_ : List Instr} {cause : Nat} {s : State} (h0 : Keeps Q_ s) : Keeps Q_ (mainTrip cause s) := by
  unfold mainTrip
  try dsimp only
  with_reducible repeat' (first
    | assumption | apply keeps_bumpHs | apply keeps_recordTrip
    | apply keeps_modHs | apply keeps_mainOpens | apply keeps_logPlain
    | split | (intro _) | dsimp only)

theorem keeps_windowOpen {Q_ : List Instr} {cause : Nat} {s : State} (h0 : Keeps Q_ s) : Keeps Q_ (windowOpen cause s) := by
  unfold windowOpen
  try dsimp only
  with_reducible repeat' (first
    | assumption | apply keeps_modHs | apply keeps_mainOpens
    | apply keeps_bumpHs | apply keeps_recordTrip | split | (intro _)
    | dsimp only)

theorem keeps_opTick {Q_ : List Instr} {s : State} (h0 : Keeps Q_ s) : Keeps Q_ (opTick s) := by
  unfold opTick
  try dsimp only
  with_reducible repeat' (first
    | assumption | refine keeps_modGb (fun _ hx => hx) ?_
    | refine keeps_modGb (fun _ hx => by split <;> exact hx) ?_ | split
    | (intro _) | dsimp only)

theorem keeps_measureMain {Q_ : List Instr} {vin vmid vout cur : Nat} {s : State} (h0 : Keeps Q_ s) : Keeps Q_ (measureMain vin vmid vout cur s) := by
  unfold measureMain
  try dsimp only
  with_reducible repeat' (first
    | assumption | apply keeps_gbRail | apply keeps_gbMax
    | apply keeps_gbAdd | apply keeps_modHs | split | (intro _) | dsimp only)

theorem keeps_accumMain {Q_ : List Instr} {other : Nat} {s : State} (h0 : Keeps Q_ s) : Keeps Q_ (accumMain other s) := by
  unfold accumMain
  try dsimp only
  with_reducible repeat' (first
    | assumption | apply keeps_modHs | split | (intro _) | dsimp only)

theorem keeps_sampleOn {Q_ : List Instr} {s : State} (h0 : Keeps Q_ s) : Keeps Q_ (sampleOn s) := by
  unfold sampleOn
  try dsimp only
  with_reducible repeat' (first
    | assumption | apply keeps_modHs | apply keeps_windowOpen
    | apply keeps_mainTrip | split | (intro _) | dsimp only)

theorem keeps_sampleRamp {Q_ : List Instr} {s : State} (h0 : Keeps Q_ s) : Keeps Q_ (sampleRamp s) := by
  unfold sampleRamp
  try dsimp only
  with_reducible repeat' (first
    | assumption | apply keeps_modHs | apply keeps_mainTrip | split
    | (intro _) | dsimp only)

theorem keeps_mainSample {Q_ : List Instr} {vin vmid vout cur other : Nat} {s : State} (h0 : Keeps Q_ s) : Keeps Q_ (mainSample vin vmid vout cur other s) := by
  unfold mainSample
  try dsimp only
  with_reducible repeat' (first
    | assumption | apply keeps_accumMain | apply keeps_opTick
    | apply keeps_measureMain | apply keeps_mainTrip | apply keeps_modHs
    | apply keeps_sampleRamp | apply keeps_sampleOn | split | (intro _)
    | dsimp only)

theorem keeps_fastTrip {Q_ : List Instr} {cur : Nat} {s : State} (h0 : Keeps Q_ s) : Keeps Q_ (fastTrip cur s) := by
  unfold fastTrip
  try dsimp only
  with_reducible repeat' (first
    | assumption | apply keeps_modHs | apply keeps_mainTrip | split
    | (intro _) | dsimp only)

theorem keeps_seatChange {Q_ : List Instr} {a b : Bool} {s : State} (h0 : Keeps Q_ s) : Keeps Q_ (seatChange a b s) := by
  unfold seatChange
  try dsimp only
  with_reducible repeat' (first
    | assumption | apply keeps_modHs | apply keeps_bumpHs
    | apply keeps_onlyIf | apply keeps_recordTrip | apply keeps_modPs
    | apply keeps_mainOpens | split | (intro _) | dsimp only)

theorem keeps_seatDebounce {Q_ : List Instr} {s : State} (h0 : Keeps Q_ s) : Keeps Q_ (seatDebounce s) := by
  unfold seatDebounce
  try dsimp only
  with_reducible repeat' (first
    | assumption | apply keeps_modHs | split | (intro _) | dsimp only)

theorem keeps_insertDelayEnd {Q_ : List Instr} {s : State} (h0 : Keeps Q_ s) : Keeps Q_ (insertDelayEnd s) := by
  unfold insertDelayEnd
  try dsimp only
  with_reducible repeat' (first
    | assumption | apply keeps_modHs | split | (intro _) | dsimp only)

theorem keeps_mosfetCheck {Q_ : List Instr} {midOff midOn vin rise : Nat} {s : State} (h0 : Keeps Q_ s) : Keeps Q_ (mosfetCheck midOff midOn vin rise s) := by
  unfold mosfetCheck
  try dsimp only
  with_reducible repeat' (first
    | assumption | apply keeps_modHs | apply keeps_logPlain
    | apply keeps_bumpHs | apply keeps_recordTrip | split | (intro _)
    | dsimp only)

theorem keeps_retryTime {Q_ : List Instr} {s : State} (h0 : Keeps Q_ s) : Keeps Q_ (retryTime s) := by
  unfold retryTime
  try dsimp only
  with_reducible repeat' (first
    | assumption | apply keeps_bumpHs | apply keeps_modHs | split
    | (intro _) | dsimp only)

theorem keeps_retryCountClear {Q_ : List Instr} {s : State} (h0 : Keeps Q_ s) : Keeps Q_ (retryCountClear s) := by
  unfold retryCountClear
  try dsimp only
  with_reducible repeat' (first
    | assumption | apply keeps_modHs | split | (intro _) | dsimp only)

theorem keeps_clearTrip {Q_ : List Instr} {s : State} (h0 : Keeps Q_ s) : Keeps Q_ (clearTrip s) := by
  unfold clearTrip
  try dsimp only
  with_reducible repeat' (first
    | assumption | apply keeps_modHs | split | (intro _) | dsimp only)

theorem keeps_modBranch {Q_ : List Instr} {w : Nat} {f : Branch → Branch} {s : State} (h0 : Keeps Q_ s) : Keeps Q_ (modBranch w f s) := by
  unfold modBranch
  try dsimp only
  with_reducible repeat' (first
    | assumption | apply keeps_modHs | split | (intro _) | dsimp only)

theorem keeps_branchRequest {Q_ : List Instr} {w : Nat} {s : State} (h0 : Keeps Q_ s) : Keeps Q_ (branchRequest w s) := by
  unfold branchRequest
  try dsimp only
  with_reducible repeat' (first
    | assumption | apply keeps_modHs | apply keeps_modBranch | split
    | (intro _) | dsimp only)

theorem keeps_branchRampStart {Q_ : List Instr} {w : Nat} {s : State} (h0 : Keeps Q_ s) : Keeps Q_ (branchRampStart w s) := by
  unfold branchRampStart
  try dsimp only
  with_reducible repeat' (first
    | assumption | apply keeps_modBranch | apply keeps_modHs | split
    | (intro _) | dsimp only)

theorem keeps_branchOpen {Q_ : List Instr} {w : Nat} {s : State} (h0 : Keeps Q_ s) : Keeps Q_ (branchOpen w s) := by
  unfold branchOpen
  try dsimp only
  with_reducible repeat' (first
    | assumption | apply keeps_modHs | apply keeps_modBranch | split
    | (intro _) | dsimp only)

theorem keeps_branchTripCore {Q_ : List Instr} {w cause cur : Nat} {s : State} (h0 : Keeps Q_ s) : Keeps Q_ (branchTripCore w cause cur s) := by
  unfold branchTripCore
  try dsimp only
  with_reducible repeat' (first
    | assumption | apply keeps_logEvent | apply keeps_bumpHs
    | apply keeps_recordTrip | apply keeps_modHs | apply keeps_modBranch
    | split | (intro _) | dsimp only)

theorem keeps_measureBranch {Q_ : List Instr} {w vout cur other : Nat} {s : State} (h0 : Keeps Q_ s) : Keeps Q_ (measureBranch w vout cur other s) := by
  unfold measureBranch
  try dsimp only
  with_reducible repeat' (first
    | assumption | apply keeps_gbMax | apply keeps_gbAdd
    | apply keeps_modBranch | split | (intro _) | dsimp only)

theorem keeps_execSeatChange {Q_ : List Instr} {a b : Bool} {s : State} (h0 : Keeps Q_ s) : ∃ u_, execSeatChange a b s = .next u_ ∧ Keeps Q_ u_ := by
  refine ⟨_, rfl, ?_⟩
  with_reducible repeat' (first
    | assumption | apply keeps_seatChange | split | (intro _) | dsimp only)

theorem keeps_execHsSeatDebounce {Q_ : List Instr} {s : State} (h0 : Keeps Q_ s) : ∃ u_, execHsSeatDebounce s = .next u_ ∧ Keeps Q_ u_ := by
  refine ⟨_, rfl, ?_⟩
  with_reducible repeat' (first
    | assumption | apply keeps_seatDebounce | split | (intro _) | dsimp only)

theorem keeps_execMainSample {Q_ : List Instr} {vin vmid vout : BitVec 16} {cur : IslandCurrents} {s : State} (h0 : Keeps Q_ s) : ∃ u_, execMainSample vin vmid vout cur s = .next u_ ∧ Keeps Q_ u_ := by
  refine ⟨_, rfl, ?_⟩
  with_reducible repeat' (first
    | assumption | apply keeps_mainSample | split | (intro _) | dsimp only)

theorem keeps_execFastTrip {Q_ : List Instr} {cur : BitVec 32} {s : State} (h0 : Keeps Q_ s) : ∃ u_, execFastTrip cur s = .next u_ ∧ Keeps Q_ u_ := by
  refine ⟨_, rfl, ?_⟩
  with_reducible repeat' (first
    | assumption | apply keeps_fastTrip | split | (intro _) | dsimp only)

theorem keeps_execHsInsertDelay {Q_ : List Instr} {s : State} (h0 : Keeps Q_ s) : ∃ u_, execHsInsertDelay s = .next u_ ∧ Keeps Q_ u_ := by
  refine ⟨_, rfl, ?_⟩
  with_reducible repeat' (first
    | assumption | apply keeps_insertDelayEnd | split | (intro _)
    | dsimp only)

theorem keeps_execMosfetCheck {Q_ : List Instr} {midOff midOn vin rise : BitVec 16} {s : State} (h0 : Keeps Q_ s) : ∃ u_, execMosfetCheck midOff midOn vin rise s = .next u_ ∧ Keeps Q_ u_ := by
  refine ⟨_, rfl, ?_⟩
  with_reducible repeat' (first
    | assumption | apply keeps_mosfetCheck | split | (intro _) | dsimp only)

theorem keeps_execHsRetryTime {Q_ : List Instr} {s : State} (h0 : Keeps Q_ s) : ∃ u_, execHsRetryTime s = .next u_ ∧ Keeps Q_ u_ := by
  refine ⟨_, rfl, ?_⟩
  with_reducible repeat' (first
    | assumption | apply keeps_retryTime | split | (intro _) | dsimp only)

theorem keeps_execRetryCountClear {Q_ : List Instr} {s : State} (h0 : Keeps Q_ s) : ∃ u_, execRetryCountClear s = .next u_ ∧ Keeps Q_ u_ := by
  refine ⟨_, rfl, ?_⟩
  with_reducible repeat' (first
    | assumption | apply keeps_retryCountClear | split | (intro _)
    | dsimp only)

theorem keeps_execBranchRampStart {Q_ : List Instr} {w : WingId} {s : State} (h0 : Keeps Q_ s) : ∃ u_, execBranchRampStart w s = .next u_ ∧ Keeps Q_ u_ := by
  refine ⟨_, rfl, ?_⟩
  with_reducible repeat' (first
    | assumption | apply keeps_branchRampStart | split | (intro _)
    | dsimp only)

end Sys2Proof.Machine
end

