-- ==== Sys2Proof/Laws/KeepsPagePath.lean ====
section
/-! SUPPORT. What the operations of Machine/PagePath.lean keep: one lemma per operation that answers a state. -/

namespace Sys2Proof.Machine

theorem keeps_flushRun {Q_ : List Instr} {d slot k label : Nat} {s : State} (h0 : Keeps Q_ s) : Keeps Q_ (flushRun d slot k label s) := by
  unfold flushRun
  try dsimp only
  with_reducible repeat' (first
    | assumption | apply keeps_forAll | apply keeps_dramRead | split
    | (intro _) | dsimp only)

theorem keeps_passReport {Q_ : List Instr} {e : Option (Nat × Nat)} {deco agent n p : Nat} {x : Desc} {s : State} (h0 : Keeps Q_ s) : Keeps Q_ (passReport e deco agent n p x s) := by
  unfold passReport
  try dsimp only
  with_reducible repeat' (first
    | assumption | apply keeps_decodeError | apply keeps_uncorrectable
    | split | (intro _) | dsimp only)

theorem keeps_packedRerun {Q_ : List Instr} {agent n p crypto deco : Nat} {x : Desc} {s : State} (h0 : Keeps Q_ s) : Keeps Q_ (packedRerun agent n p crypto deco x s).2 := by
  unfold packedRerun
  try dsimp only
  with_reducible repeat' (first
    | assumption | apply keeps_drawEngine
    | refine keeps_drawEngine_eq (by assumption) ?_ | apply keeps_engineOut
    | apply keeps_pageLost | apply keeps_leaveDict | apply keeps_failCount
    | apply keeps_passReport | split | (intro _) | dsimp only)
theorem keeps_packedRerun_eq {Q_ : List Instr} {agent n p crypto deco : Nat} {x : Desc} {s : State} {t_ x_} (e_ : packedRerun agent n p crypto deco x s = (x_, t_)) (h0 : Keeps Q_ s) : Keeps Q_ t_ := by
  have h_ := keeps_packedRerun (Q_ := Q_) (agent := agent) (n := n) (p := p) (crypto := crypto) (deco := deco) (x := x) (s := s) h0
  rw [e_] at h_; exact h_

theorem keeps_packedRead {Q_ : List Instr} {agent n p : Nat} {x : Desc} {s : State} (h0 : Keeps Q_ s) : Keeps Q_ (packedRead agent n p x s).2 := by
  unfold packedRead
  try dsimp only
  with_reducible repeat' (first
    | assumption | apply keeps_useCrypto | apply keeps_useDecompressor
    | apply keeps_flushRun | apply keeps_onlyIf | apply keeps_storeLoad
    | apply keeps_unitDenied | apply keeps_drawEngine
    | refine keeps_drawEngine_eq (by assumption) ?_ | apply keeps_engineOut
    | apply keeps_packedRerun
    | refine keeps_packedRerun_eq (by assumption) ?_
    | apply keeps_passReport | split | (intro _) | dsimp only)
theorem keeps_packedRead_eq {Q_ : List Instr} {agent n p : Nat} {x : Desc} {s : State} {t_ x_} (e_ : packedRead agent n p x s = (x_, t_)) (h0 : Keeps Q_ s) : Keeps Q_ t_ := by
  have h_ := keeps_packedRead (Q_ := Q_) (agent := agent) (n := n) (p := p) (x := x) (s := s) h0
  rw [e_] at h_; exact h_

theorem keeps_fillLine {Q_ : List Instr} {n p i rrpv : Nat} {bytes : List Byte} {s : State} (h0 : Keeps Q_ s) : Keeps Q_ (fillLine n p i rrpv bytes s) := by
  unfold fillLine
  try dsimp only
  with_reducible repeat' (first
    | assumption | apply keeps_lcPut | apply keeps_lcFill
    | refine keeps_lcFill_eq (by assumption) ?_ | split | (intro _)
    | dsimp only)

theorem keeps_fillPage {Q_ : List Instr} {n p i : Nat} {bytes : List Byte} {s : State} (h0 : Keeps Q_ s) : Keeps Q_ (fillPage n p i bytes s) := by
  unfold fillPage
  try dsimp only
  with_reducible repeat' (first
    | assumption | apply keeps_forAll | apply keeps_fillLine | split
    | (intro _) | dsimp only)

theorem keeps_readPage {Q_ : List Instr} {agent n p : Nat} {x : Desc} {s : State} (h0 : Keeps Q_ s) : Keeps Q_ (readPage agent n p x s).2 := by
  unfold readPage
  try dsimp only
  with_reducible repeat' (first
    | assumption | apply keeps_packedRead
    | refine keeps_packedRead_eq (by assumption) ?_ | apply keeps_lineValue
    | refine keeps_lineValue_eq (by assumption) ?_ | apply keeps_foldl
    | apply keeps_foldl_fst | apply keeps_foldl_snd
    | apply keeps_foldl_snd_snd | split | (intro _) | dsimp only)
theorem keeps_readPage_eq {Q_ : List Instr} {agent n p : Nat} {x : Desc} {s : State} {t_ x_} (e_ : readPage agent n p x s = (x_, t_)) (h0 : Keeps Q_ s) : Keeps Q_ t_ := by
  have h_ := keeps_readPage (Q_ := Q_) (agent := agent) (n := n) (p := p) (x := x) (s := s) h0
  rw [e_] at h_; exact h_

theorem keeps_readLine {Q_ : List Instr} {agent n p i : Nat} {s : State} (h0 : Keeps Q_ s) : Keeps Q_ (readLine agent n p i s).2.2.2 := by
  unfold readLine
  try dsimp only
  with_reducible repeat' (first
    | assumption | refine keeps_checkedDesc (by assumption) ?_
    | apply keeps_settlePage | apply keeps_lcTouch | apply keeps_fetchLine
    | refine keeps_fetchLine_eq (by assumption) ?_ | apply keeps_mergeSettle
    | apply keeps_lcFill | refine keeps_lcFill_eq (by assumption) ?_
    | apply keeps_packedRead | refine keeps_packedRead_eq (by assumption) ?_
    | apply keeps_fillPage | split | (intro _) | dsimp only)

theorem keeps_toPlain {Q_ : List Instr} {n p : Nat} {x : Desc} {bytes : List Byte} {s : State} {t_} (e_ : toPlain n p x bytes s = some t_) (h0 : Keeps Q_ s) : Keeps Q_ t_ := by
  unfold toPlain at e_
  try dsimp only at e_
  repeat' (first
    | simp only [Option.map_eq_some_iff] at e_
    | split at e_)
  all_goals obtain ⟨⟨_, _⟩, hq_, rfl⟩ := e_
  all_goals with_reducible repeat' (first
    | assumption | apply keeps_descFail
    | refine keeps_allocFrame (by assumption) ?_ | apply keeps_useBytes
    | apply keeps_fireWatch | apply keeps_onlyIf | apply keeps_countersStart
    | apply keeps_forAll | apply keeps_queueWrite | apply keeps_setDesc
    | apply keeps_freeRun | apply keeps_leaveDict | apply keeps_restage
    | split | (intro _) | dsimp only)

theorem keeps_bringIn {Q_ : List Instr} {n p : Nat} {x : Desc} {s : State} (h0 : Keeps Q_ s) : Keeps Q_ (bringIn n p x s).1 := by
  unfold bringIn
  try dsimp only
  with_reducible repeat' (first
    | assumption | refine keeps_toPlain (by assumption) ?_
    | refine keeps_allocFrame (by assumption) ?_ | apply keeps_readPage
    | refine keeps_readPage_eq (by assumption) ?_ | split | (intro _)
    | dsimp only)
theorem keeps_bringIn_eq {Q_ : List Instr} {n p : Nat} {x : Desc} {s : State} {t_ x_} (e_ : bringIn n p x s = (t_, x_)) (h0 : Keeps Q_ s) : Keeps Q_ t_ := by
  have h_ := keeps_bringIn (Q_ := Q_) (n := n) (p := p) (x := x) (s := s) h0
  rw [e_] at h_; exact h_

theorem keeps_clearPoison {Q_ : List Instr} {n p i : Nat} {s : State} (h0 : Keeps Q_ s) : Keeps Q_ (clearPoison n p i s) := by
  unfold clearPoison
  try dsimp only
  with_reducible repeat' (first
    | assumption | apply keeps_setDesc | split | (intro _) | dsimp only)

theorem keeps_writePlain {Q_ : List Instr} {n p i : Nat} {x : Desc} {bytes : Line} {mask : BitVec 64} {s : State} (h0 : Keeps Q_ s) : Keeps Q_ (writePlain n p i x bytes mask s) := by
  unfold writePlain
  try dsimp only
  with_reducible repeat' (first
    | assumption | apply keeps_fireWatch | apply keeps_clearPoison
    | apply keeps_modChan | apply keeps_queueWrite | apply keeps_lcFill
    | refine keeps_lcFill_eq (by assumption) ?_ | apply keeps_lcPut
    | apply keeps_mergeWrite | split | (intro _) | dsimp only)

theorem keeps_refillLine {Q_ : List Instr} {n p i : Nat} {x : Desc} {bytes : Line} {s : State} (h0 : Keeps Q_ s) : Keeps Q_ (refillLine n p i x bytes s) := by
  unfold refillLine
  try dsimp only
  with_reducible repeat' (first
    | assumption | apply keeps_queueWrite | apply keeps_fireWatch
    | apply keeps_modLodge | apply keeps_setDesc | split | (intro _)
    | dsimp only)

theorem keeps_refillStart {Q_ : List Instr} {n p : Nat} {x : Desc} {s : State} {x_ t_} (e_ : refillStart n p x s = some (x_, t_)) (h0 : Keeps Q_ s) : Keeps Q_ t_ := by
  unfold refillStart at e_
  try dsimp only at e_
  repeat' (first
    | simp only [Option.map_eq_some_iff, Prod.mk.injEq] at e_
    | split at e_)
  all_goals obtain ⟨⟨_, _⟩, hq_, -, rfl⟩ := e_
  all_goals with_reducible repeat' (first
    | assumption | refine keeps_allocFrame (by assumption) ?_
    | apply keeps_onlyIf | apply keeps_countersStart | apply keeps_useBytes
    | apply keeps_restage | apply keeps_forAll | apply keeps_markLine
    | apply keeps_setDesc | split | (intro _) | dsimp only)

theorem keeps_refillFirst {Q_ : List Instr} {n p i : Nat} {x : Desc} {bytes : Line} {s : State} (h0 : Keeps Q_ s) : Keeps Q_ (refillFirst n p i x bytes s).1 := by
  unfold refillFirst
  try dsimp only
  with_reducible repeat' (first
    | assumption | apply keeps_descFail
    | refine keeps_refillStart (by assumption) ?_ | apply keeps_refillLine
    | split | (intro _) | dsimp only)
theorem keeps_refillFirst_eq {Q_ : List Instr} {n p i : Nat} {x : Desc} {bytes : Line} {s : State} {t_ x_} (e_ : refillFirst n p i x bytes s = (t_, x_)) (h0 : Keeps Q_ s) : Keeps Q_ t_ := by
  have h_ := keeps_refillFirst (Q_ := Q_) (n := n) (p := p) (i := i) (x := x) (bytes := bytes) (s := s) h0
  rw [e_] at h_; exact h_

theorem keeps_writeLine {Q_ : List Instr} {n p i : Nat} {bytes : Line} {mask : BitVec 64} {s : State} (h0 : Keeps Q_ s) : Keeps Q_ (writeLine n p i bytes mask s).1 := by
  unfold writeLine
  try dsimp only
  with_reducible repeat' (first
    | assumption | refine keeps_checkedDesc (by assumption) ?_
    | apply keeps_settlePage | apply keeps_writePlain | apply keeps_bringIn
    | refine keeps_bringIn_eq (by assumption) ?_ | apply keeps_refillFirst
    | refine keeps_refillFirst_eq (by assumption) ?_
    | apply keeps_mergeWrite | apply keeps_refillLine | split | (intro _)
    | dsimp only)
theorem keeps_writeLine_eq {Q_ : List Instr} {n p i : Nat} {bytes : Line} {mask : BitVec 64} {s : State} {t_ x_} (e_ : writeLine n p i bytes mask s = (t_, x_)) (h0 : Keeps Q_ s) : Keeps Q_ t_ := by
  have h_ := keeps_writeLine (Q_ := Q_) (n := n) (p := p) (i := i) (bytes := bytes) (mask := mask) (s := s) h0
  rw [e_] at h_; exact h_

theorem keeps_loseLine {Q_ : List Instr} {n p i : Nat} {s : State} (h0 : Keeps Q_ s) : Keeps Q_ (loseLine n p i s).1 := by
  unfold loseLine
  try dsimp only
  with_reducible repeat' (first
    | assumption | refine keeps_checkedDesc (by assumption) ?_
    | apply keeps_settlePage | apply keeps_modLc | apply keeps_poisonLine
    | apply keeps_flushLine | apply keeps_mergeSettle | apply keeps_bringIn
    | refine keeps_bringIn_eq (by assumption) ?_ | apply keeps_setDesc
    | apply keeps_notePage | split | (intro _) | dsimp only)
theorem keeps_loseLine_eq {Q_ : List Instr} {n p i : Nat} {s : State} {t_ x_} (e_ : loseLine n p i s = (t_, x_)) (h0 : Keeps Q_ s) : Keeps Q_ t_ := by
  have h_ := keeps_loseLine (Q_ := Q_) (n := n) (p := p) (i := i) (s := s) h0
  rw [e_] at h_; exact h_

end Sys2Proof.Machine
end

