-- ==== Sys2Proof/Laws/KeepsDirectory.lean ====
section
/-! SUPPORT. What the operations of Machine/Directory.lean keep: one lemma per operation that answers a state. -/

namespace Sys2Proof.Machine

theorem keeps_dirPut {Q_ : List Instr} {place : Nat} {e : DirEntry} {s : State} (h0 : Keeps Q_ s) : Keeps Q_ (dirPut place e s) := by
  unfold dirPut
  try dsimp only
  with_reducible repeat' (first
    | assumption | apply keeps_modCoh | split | (intro _) | dsimp only)

theorem keeps_dirFree {Q_ : List Instr} {place : Nat} {s : State} (h0 : Keeps Q_ s) : Keeps Q_ (dirFree place s) := by
  unfold dirFree
  try dsimp only
  with_reducible repeat' (first
    | assumption | apply keeps_modCoh | split | (intro _) | dsimp only)

theorem keeps_dirAlloc {Q_ : List Instr} {place : Nat} {e : DirEntry} {s : State} (h0 : Keeps Q_ s) : Keeps Q_ (dirAlloc place e s) := by
  unfold dirAlloc
  try dsimp only
  with_reducible repeat' (first
    | assumption | apply keeps_modCoh | split | (intro _) | dsimp only)

theorem keeps_dirTouch {Q_ : List Instr} {n p i : Nat} {s : State} (h0 : Keeps Q_ s) : Keeps Q_ (dirTouch n p i s) := by
  unfold dirTouch
  try dsimp only
  with_reducible repeat' (first
    | assumption | apply keeps_dirPut | split | (intro _) | dsimp only)

theorem keeps_bumpCoh {Q_ : List Instr} {d i n : Nat} {s : State} (h0 : Keeps Q_ s) : Keeps Q_ (bumpCoh d i n s) := by
  unfold bumpCoh
  try dsimp only
  with_reducible repeat' (first
    | assumption | apply keeps_modCoh | split | (intro _) | dsimp only)

theorem keeps_openTx {Q_ : List Instr} {t : Tx} {s : State} (h0 : Keeps Q_ s) : Keeps Q_ (openTx t s) := by
  unfold openTx
  try dsimp only
  with_reducible repeat' (first
    | assumption | apply keeps_fanOut | apply keeps_bumpCoh
    | apply keeps_modCoh | split | (intro _) | dsimp only)

theorem keeps_openDue {Q_ : List Instr} {slice : Nat} {s : State} (h0 : Keeps Q_ s) : Keeps Q_ (openDue slice s) := by
  unfold openDue
  try dsimp only
  with_reducible repeat' (first
    | assumption | apply keeps_forAll | apply keeps_modCoh
    | apply keeps_openTx | apply keeps_dirFree | split | (intro _)
    | dsimp only)

theorem keeps_recallAll {Q_ : List Instr} {l : List Recall} {s : State} (h0 : Keeps Q_ s) : Keeps Q_ (recallAll l s) := by
  unfold recallAll
  try dsimp only
  with_reducible repeat' (first
    | assumption | apply keeps_forAll | apply keeps_openDue
    | apply keeps_modCoh | split | (intro _) | dsimp only)

theorem keeps_removeEntries {Q_ : List Instr} {test : Nat → DirEntry → Bool} {drop : Bool} {s : State} (h0 : Keeps Q_ s) : Keeps Q_ (removeEntries test drop s) := by
  unfold removeEntries
  try dsimp only
  with_reducible repeat' (first
    | assumption | apply keeps_recallAll | split | (intro _) | dsimp only)

theorem keeps_snoopMore {Q_ : List Instr} {n p : Nat} {s : State} (h0 : Keeps Q_ s) : Keeps Q_ (snoopMore n p s) := by
  unfold snoopMore
  try dsimp only
  with_reducible repeat' (first
    | assumption | apply keeps_recallAll | apply keeps_modCoh | split
    | (intro _) | dsimp only)

theorem keeps_snoopPage {Q_ : List Instr} {n p : Nat} {s : State} (h0 : Keeps Q_ s) : Keeps Q_ (snoopPage n p s) := by
  unfold snoopPage
  try dsimp only
  with_reducible repeat' (first
    | assumption | apply keeps_snoopMore | apply keeps_modCoh | split
    | (intro _) | dsimp only)

theorem keeps_askAgain {Q_ : List Instr} {n p i : Nat} {s : State} (h0 : Keeps Q_ s) : Keeps Q_ (askAgain n p i s) := by
  unfold askAgain
  try dsimp only
  with_reducible repeat' (first
    | assumption | apply keeps_modCoh | split | (intro _) | dsimp only)

theorem keeps_homeJoin {Q_ : List Instr} {r : MemReq} {s : State} (h0 : Keeps Q_ s) : Keeps Q_ (homeJoin r s) := by
  unfold homeJoin
  try dsimp only
  with_reducible repeat' (first
    | assumption | apply keeps_fairArrive | apply keeps_modCoh
    | apply keeps_onlyIf | apply keeps_bumpReg | apply keeps_creditOut
    | split | (intro _) | dsimp only)

theorem keeps_homeReturn {Q_ : List Instr} {r : MemReq} {s : State} (h0 : Keeps Q_ s) : Keeps Q_ (homeReturn r s) := by
  unfold homeReturn
  try dsimp only
  with_reducible repeat' (first
    | assumption | apply keeps_fairArrive | apply keeps_ordered
    | apply keeps_modCoh | split | (intro _) | dsimp only)

theorem keeps_homeMove {Q_ : List Instr} {slice : Nat} {h : HomeReq} {s : State} (h0 : Keeps Q_ s) : Keeps Q_ (homeMove slice h s) := by
  unfold homeMove
  try dsimp only
  with_reducible repeat' (first
    | assumption | apply keeps_creditBack | apply keeps_modCoh | split
    | (intro _) | dsimp only)

theorem keeps_homeSettle {Q_ : List Instr} {slice : Nat} {s : State} (h0 : Keeps Q_ s) : Keeps Q_ (homeSettle slice s) := by
  unfold homeSettle
  try dsimp only
  with_reducible repeat' (first
    | assumption | apply keeps_forAll | apply keeps_homeMove | split
    | (intro _) | dsimp only)

theorem keeps_releaseResident {Q_ : List Instr} {k : Nat} {s : State} (h0 : Keeps Q_ s) : Keeps Q_ (releaseResident k s) := by
  unfold releaseResident
  try dsimp only
  with_reducible repeat' (first
    | assumption | apply keeps_lcPut | apply keeps_modCoh | split
    | (intro _) | dsimp only)

theorem keeps_releaseResidents {Q_ : List Instr} {test : LcLine → Bool} {s : State} (h0 : Keeps Q_ s) : Keeps Q_ (releaseResidents test s) := by
  unfold releaseResidents
  try dsimp only
  with_reducible repeat' (first
    | assumption | apply keeps_forAll | apply keeps_releaseResident | split
    | (intro _) | dsimp only)

theorem keeps_predMove {Q_ : List Instr} {n p i : Nat} {up : Bool} {s : State} (h0 : Keeps Q_ s) : Keeps Q_ (predMove n p i up s) := by
  unfold predMove
  try dsimp only
  with_reducible repeat' (first
    | assumption | apply keeps_modCoh | apply keeps_onlyIf
    | apply keeps_releaseResidents | split | (intro _) | dsimp only)

theorem keeps_residentKeep {Q_ : List Instr} {k : Nat} {l : LcLine} {s : State} (h0 : Keeps Q_ s) : Keeps Q_ (residentKeep k l s) := by
  unfold residentKeep
  try dsimp only
  with_reducible repeat' (first
    | assumption | apply keeps_lcPut | split | (intro _) | dsimp only)

theorem keeps_residentPut {Q_ : List Instr} {k : Nat} {l : LcLine} {data : Line} {s : State} (h0 : Keeps Q_ s) : Keeps Q_ (residentPut k l data s) := by
  unfold residentPut
  try dsimp only
  with_reducible repeat' (first
    | assumption | apply keeps_lcPut | apply keeps_modCoh | split
    | (intro _) | dsimp only)

theorem keeps_claimResident {Q_ : List Instr} {n p i : Nat} {data : Line} {s : State} (h0 : Keeps Q_ s) : Keeps Q_ (claimResident n p i data s).1 := by
  unfold claimResident
  try dsimp only
  with_reducible repeat' (first
    | assumption | apply keeps_onlyIf | apply keeps_writeBackLine
    | apply keeps_modLc | apply keeps_lcPut | apply keeps_lcEvict | split
    | (intro _) | dsimp only)
theorem keeps_claimResident_eq {Q_ : List Instr} {n p i : Nat} {data : Line} {s : State} {t_ x_} (e_ : claimResident n p i data s = (t_, x_)) (h0 : Keeps Q_ s) : Keeps Q_ t_ := by
  have h_ := keeps_claimResident (Q_ := Q_) (n := n) (p := p) (i := i) (data := data) (s := s) h0
  rw [e_] at h_; exact h_

end Sys2Proof.Machine
end

