-- ==== Sys2Proof/Laws/KeepsRequests.lean ====
section
/-! SUPPORT. What the operations of Machine/Requests.lean keep: one lemma per operation that answers a state. -/

namespace Sys2Proof.Machine

theorem keeps_answerPort {Q_ : List Instr} {p cls : Nat} {m : Msg} {lat : Option LatTag} {s : State} (h0 : Keeps Q_ s) : Keeps Q_ (answerPort p cls m lat s) := by
  unfold answerPort
  try dsimp only
  with_reducible repeat' (first
    | assumption | apply keeps_respondPort | apply keeps_bumpDrop | split
    | (intro _) | dsimp only)

theorem keeps_gatherPut {Q_ : List Instr} {r : MemReq} {l : Line} {poison : Bool} {s : State} (h0 : Keeps Q_ s) : Keeps Q_ (gatherPut r l poison s) := by
  unfold gatherPut
  try dsimp only
  with_reducible repeat' (first
    | assumption | apply keeps_modCoh | apply keeps_answerPort | split
    | (intro _) | dsimp only)

theorem keeps_answerRead {Q_ : List Instr} {r : MemReq} {grant : Nat} {data : Bool} {l : Line} {poison : Bool} {s : State} (h0 : Keeps Q_ s) : Keeps Q_ (answerRead r grant data l poison s) := by
  unfold answerRead
  try dsimp only
  with_reducible repeat' (first
    | assumption | apply keeps_gatherPut | apply keeps_answerPort | split
    | (intro _) | dsimp only)

theorem keeps_answerWrite {Q_ : List Instr} {r : MemReq} {s : State} (h0 : Keeps Q_ s) : Keeps Q_ (answerWrite r s) := by
  unfold answerWrite
  try dsimp only
  with_reducible repeat' (first
    | assumption | apply keeps_gatherPut | apply keeps_bumpDrop
    | apply keeps_answerPort | split | (intro _) | dsimp only)

theorem keeps_answerVoid {Q_ : List Instr} {r : MemReq} {s : State} (h0 : Keeps Q_ s) : Keeps Q_ (answerVoid r s) := by
  unfold answerVoid
  try dsimp only
  with_reducible repeat' (first
    | assumption | apply keeps_bumpDrop | apply keeps_gatherPut
    | apply keeps_answerPort | split | (intro _) | dsimp only)

theorem keeps_refuseReq {Q_ : List Instr} {kind : Nat} {r : MemReq} {s : State} (h0 : Keeps Q_ s) : Keeps Q_ (refuseReq kind r s) := by
  unfold refuseReq
  try dsimp only
  with_reducible repeat' (first
    | assumption | apply keeps_refusedNotice | apply keeps_gatherPut
    | apply keeps_answerPort | apply keeps_answerVoid | split | (intro _)
    | dsimp only)

theorem keeps_refuseChecked {Q_ : List Instr} {r : MemReq} {s : State} (h0 : Keeps Q_ s) : Keeps Q_ (refuseChecked r s) := by
  unfold refuseChecked
  try dsimp only
  with_reducible repeat' (first
    | assumption | apply keeps_refuseReq | apply keeps_onlyIf
    | apply keeps_unitSuspect | split | (intro _) | dsimp only)

theorem keeps_dirRead {Q_ : List Instr} {r : MemReq} {grant : Nat} {s : State} (h0 : Keeps Q_ s) : Keeps Q_ (dirRead r grant s).2 := by
  unfold dirRead
  try dsimp only
  with_reducible repeat' (first
    | assumption | apply keeps_dirFree | apply keeps_askAgain
    | apply keeps_dirPut | apply keeps_dirAlloc | split | (intro _)
    | dsimp only)
theorem keeps_dirRead_eq {Q_ : List Instr} {r : MemReq} {grant : Nat} {s : State} {t_ x_} (e_ : dirRead r grant s = (x_, t_)) (h0 : Keeps Q_ s) : Keeps Q_ t_ := by
  have h_ := keeps_dirRead (Q_ := Q_) (r := r) (grant := grant) (s := s) h0
  rw [e_] at h_; exact h_

theorem keeps_dirWrite {Q_ : List Instr} {r : MemReq} {grant : Nat} {mask : BitVec 64} {s : State} (h0 : Keeps Q_ s) : Keeps Q_ (dirWrite r grant mask s) := by
  unfold dirWrite
  try dsimp only
  with_reducible repeat' (first
    | assumption | apply keeps_dirFree | apply keeps_dirPut | split
    | (intro _) | dsimp only)

theorem keeps_performAtomic {Q_ : List Instr} {r : MemReq} {op off size operand compare : Nat} {s : State} (h0 : Keeps Q_ s) : Keeps Q_ (performAtomic r op off size operand compare s).1 := by
  unfold performAtomic
  try dsimp only
  with_reducible repeat' (first
    | assumption | apply keeps_residentKeep | apply keeps_residentPut
    | apply keeps_answerPort | apply keeps_onlyIf | apply keeps_bumpDrop
    | apply keeps_predMove | apply keeps_dirFree
    | refine keeps_checkedDesc (by assumption) ?_ | apply keeps_settlePage
    | apply keeps_refuseReq | apply keeps_bringIn
    | refine keeps_bringIn_eq (by assumption) ?_ | apply keeps_countAccess
    | apply keeps_bumpCoh | apply keeps_fireWatch | apply keeps_lineValue
    | refine keeps_lineValue_eq (by assumption) ?_
    | apply keeps_claimResident
    | refine keeps_claimResident_eq (by assumption) ?_ | apply keeps_lcPut
    | apply keeps_clearPoison | apply keeps_modChan | apply keeps_queueWrite
    | split | (intro _) | dsimp only)
theorem keeps_performAtomic_eq {Q_ : List Instr} {r : MemReq} {op off size operand compare : Nat} {s : State} {t_ x_} (e_ : performAtomic r op off size operand compare s = (t_, x_)) (h0 : Keeps Q_ s) : Keeps Q_ t_ := by
  have h_ := keeps_performAtomic (Q_ := Q_) (r := r) (op := op) (off := off) (size := size) (operand := operand) (compare := compare) (s := s) h0
  rw [e_] at h_; exact h_

theorem keeps_lineLost {Q_ : List Instr} {n p : Nat} {s : State} (h0 : Keeps Q_ s) : Keeps Q_ (lineLost n p s) := by
  unfold lineLost
  try dsimp only
  with_reducible repeat' (first
    | assumption | apply keeps_logEvent | apply keeps_bumpCoh
    | apply keeps_modCoh | split | (intro _) | dsimp only)

theorem keeps_perform {Q_ : List Instr} {r : MemReq} {s : State} (h0 : Keeps Q_ s) : Keeps Q_ (perform r s).1 := by
  unfold perform
  try dsimp only
  with_reducible repeat' (first
    | assumption | apply keeps_dirTouch | apply keeps_refuseChecked
    | apply keeps_descFail | apply keeps_refuseReq | apply keeps_answerRead
    | apply keeps_countAccess | apply keeps_lcTouch | apply keeps_onlyIf
    | apply keeps_predMove | apply keeps_readLine
    | refine keeps_readLine_eq (by assumption) ?_ | apply keeps_dirRead
    | refine keeps_dirRead_eq (by assumption) ?_ | apply keeps_answerWrite
    | apply keeps_residentPut | apply keeps_fireWatch
    | apply keeps_writeLine | refine keeps_writeLine_eq (by assumption) ?_
    | apply keeps_dirWrite | apply keeps_answerPort | apply keeps_dirPut
    | apply keeps_performAtomic
    | refine keeps_performAtomic_eq (by assumption) ?_
    | apply keeps_loseLine | refine keeps_loseLine_eq (by assumption) ?_
    | apply keeps_lineLost | split | (intro _) | dsimp only)
theorem keeps_perform_eq {Q_ : List Instr} {r : MemReq} {s : State} {t_ x_} (e_ : perform r s = (t_, x_)) (h0 : Keeps Q_ s) : Keeps Q_ t_ := by
  have h_ := keeps_perform (Q_ := Q_) (r := r) (s := s) h0
  rw [e_] at h_; exact h_

theorem keeps_tokenTake {Q_ : List Instr} {d : Nat} {s : State} (h0 : Keeps Q_ s) : Keeps Q_ (tokenTake d s) := by
  unfold tokenTake
  try dsimp only
  with_reducible repeat' (first
    | assumption | apply keeps_tokensTake | split | (intro _) | dsimp only)

theorem keeps_stall {Q_ : List Instr} {r : MemReq} {s : State} (h0 : Keeps Q_ s) : Keeps Q_ (stall r s) := by
  unfold stall
  try dsimp only
  with_reducible repeat' (first
    | assumption | apply keeps_homeReturn | apply keeps_modCoh | split
    | (intro _) | dsimp only)

theorem keeps_noteContention {Q_ : List Instr} {r : MemReq} {s : State} (h0 : Keeps Q_ s) : Keeps Q_ (noteContention r s).2 := by
  unfold noteContention
  try dsimp only
  with_reducible repeat' (first
    | assumption | apply keeps_onlyIf | apply keeps_predMove | split
    | (intro _) | dsimp only)
theorem keeps_noteContention_eq {Q_ : List Instr} {r : MemReq} {s : State} {t_ x_} (e_ : noteContention r s = (x_, t_)) (h0 : Keeps Q_ s) : Keeps Q_ t_ := by
  have h_ := keeps_noteContention (Q_ := Q_) (r := r) (s := s) h0
  rw [e_] at h_; exact h_

theorem keeps_evaluate {Q_ : List Instr} {r : MemReq} {s : State} (h0 : Keeps Q_ s) : Keeps Q_ (evaluate r s) := by
  unfold evaluate
  try dsimp only
  with_reducible repeat' (first
    | assumption | apply keeps_refuseChecked | apply keeps_refuseReq
    | apply keeps_homeReturn | apply keeps_noteContention
    | refine keeps_noteContention_eq (by assumption) ?_ | apply keeps_openTx
    | apply keeps_perform | refine keeps_perform_eq (by assumption) ?_
    | apply keeps_stall | apply keeps_dirFree | apply keeps_bumpCoh | split
    | (intro _) | dsimp only)

theorem keeps_pointerPast {Q_ : List Instr} {slice p : Nat} {s : State} (h0 : Keeps Q_ s) : Keeps Q_ (pointerPast slice p s) := by
  unfold pointerPast
  try dsimp only
  with_reducible repeat' (first
    | assumption | apply keeps_modCoh | split | (intro _) | dsimp only)

theorem keeps_ordered {Q_ : List Instr} {r : MemReq} {s : State} (h0 : Keeps Q_ s) : Keeps Q_ (ordered r s) := by
  unfold ordered
  try dsimp only
  with_reducible repeat' (first
    | assumption | apply keeps_tokenTake | apply keeps_onlyIf
    | apply keeps_pointerPast | split | (intro _) | dsimp only)

theorem keeps_arrive {Q_ : List Instr} {r0 : MemReq} {s : State} (h0 : Keeps Q_ s) : Keeps Q_ (arrive r0 s) := by
  unfold arrive
  try dsimp only
  with_reducible repeat' (first
    | assumption | apply keeps_ordered | apply keeps_noteContention
    | refine keeps_noteContention_eq (by assumption) ?_ | apply keeps_modCoh
    | apply keeps_evaluate | split | (intro _) | dsimp only)

theorem keeps_moveFree {Q_ : List Instr} {d : Nat} {m : Move} {s : State} (h0 : Keeps Q_ s) : Keeps Q_ (moveFree d m s) := by
  unfold moveFree
  try dsimp only
  with_reducible repeat' (first
    | assumption | refine keeps_modSpace (fun _ hx => hx) ?_
    | apply keeps_freeRun | apply keeps_freeFrame | split | (intro _)
    | dsimp only)

theorem keeps_rekeyRelease {Q_ : List Instr} {n d : Nat} {s : State} (h0 : Keeps Q_ s) : Keeps Q_ (rekeyRelease n d s) := by
  unfold rekeyRelease
  try dsimp only
  with_reducible repeat' (first
    | assumption | apply keeps_modProt | split | (intro _) | dsimp only)

theorem keeps_unlockPage {Q_ : List Instr} {n p : Nat} {s : State} (h0 : Keeps Q_ s) : Keeps Q_ (unlockPage n p s) := by
  unfold unlockPage
  try dsimp only
  with_reducible repeat' (first
    | assumption | apply keeps_setDesc | apply keeps_queueMove
    | apply keeps_moveFree | apply keeps_modTier | apply keeps_rekeyRelease
    | split | (intro _) | dsimp only)

theorem keeps_rekeyUnlock {Q_ : List Instr} {n d : Nat} {s : State} (h0 : Keeps Q_ s) : Keeps Q_ (rekeyUnlock n d s) := by
  unfold rekeyUnlock
  try dsimp only
  with_reducible repeat' (first
    | assumption | apply keeps_rekeyRelease | apply keeps_unlockPage | split
    | (intro _) | dsimp only)

theorem keeps_performBack {Q_ : List Instr} {t : Tx} {r : MemReq} {s0 : State} (h0 : Keeps Q_ s0) : Keeps Q_ (performBack t r s0) := by
  unfold performBack
  try dsimp only
  with_reducible repeat' (first
    | assumption | apply keeps_ordered | apply keeps_refuseChecked
    | apply keeps_answerVoid | apply keeps_answerWrite
    | apply keeps_dirWrite | apply keeps_writePlain | apply keeps_perform
    | refine keeps_perform_eq (by assumption) ?_ | apply keeps_unlockPage
    | apply keeps_stall | split | (intro _) | dsimp only)

theorem keeps_rebuildAt {Q_ : List Instr} {d q : Nat} {s : State} (h0 : Keeps Q_ s) : Keeps Q_ (rebuildAt d q s) := by
  unfold rebuildAt
  try dsimp only
  with_reducible repeat' (first
    | assumption | apply keeps_forAll | apply keeps_setDesc
    | apply keeps_countersDrop | apply keeps_modLodge | split | (intro _)
    | dsimp only)

theorem keeps_rebuildFirst {Q_ : List Instr} {n p : Nat} {s : State} (h0 : Keeps Q_ s) : Keeps Q_ (rebuildFirst n p s) := by
  unfold rebuildFirst
  try dsimp only
  with_reducible repeat' (first
    | assumption | apply keeps_rebuildAt | split | (intro _) | dsimp only)

theorem keeps_resumeLine {q : List Instr} {k slice key : Nat} {s : State} (h : Keeps q s) :
    Keeps q (resumeLine k slice key s) := by
  induction k generalizing s with
  | zero => exact h
  | succ k ih =>
    unfold resumeLine
    split
    · exact h
    · split
      · exact h
      · exact ih (keeps_evaluate (keeps_modCoh h))

theorem keeps_cohSettle {Q_ : List Instr} {n : Nat} {s : State} (h0 : Keeps Q_ s) : Keeps Q_ (cohSettle n s) := by
  unfold cohSettle
  try dsimp only
  with_reducible repeat' (first
    | assumption | apply keeps_cmdEnd | apply keeps_modCoh | split
    | (intro _) | dsimp only)

theorem keeps_cohSettleAll {Q_ : List Instr} {s : State} (h0 : Keeps Q_ s) : Keeps Q_ (cohSettleAll s) := by
  unfold cohSettleAll
  try dsimp only
  with_reducible repeat' (first
    | assumption | apply keeps_forAll | apply keeps_cohSettle | split
    | (intro _) | dsimp only)

theorem keeps_backsTake {Q_ : List Instr} {s : State} (h0 : Keeps Q_ s) : Keeps Q_ (backsTake s) := by
  unfold backsTake
  try dsimp only
  with_reducible repeat' (first
    | assumption | apply keeps_forAll | apply keeps_performBack
    | apply keeps_modCoh | split | (intro _) | dsimp only)

theorem keeps_snoopPageNow {Q_ : List Instr} {n p : Nat} {s : State} (h0 : Keeps Q_ s) : Keeps Q_ (snoopPageNow n p s) := by
  unfold snoopPageNow
  try dsimp only
  with_reducible repeat' (first
    | assumption | apply keeps_cohSettleAll | apply keeps_backsTake
    | apply keeps_snoopPage | split | (intro _) | dsimp only)

theorem keeps_snoopMoreNow {Q_ : List Instr} {n p : Nat} {s : State} (h0 : Keeps Q_ s) : Keeps Q_ (snoopMoreNow n p s) := by
  unfold snoopMoreNow
  try dsimp only
  with_reducible repeat' (first
    | assumption | apply keeps_cohSettleAll | apply keeps_backsTake
    | apply keeps_snoopMore | split | (intro _) | dsimp only)

theorem keeps_closeTx {Q_ : List Instr} {t : Tx} {s : State} (h0 : Keeps Q_ s) : Keeps Q_ (closeTx t s) := by
  unfold closeTx
  try dsimp only
  with_reducible repeat' (first
    | assumption | apply keeps_modCoh | apply keeps_resumeLine
    | apply keeps_evaluate | apply keeps_backsTake
    | apply keeps_cohSettleAll | apply keeps_openDue | split | (intro _)
    | dsimp only)

theorem keeps_snoopAnswered {Q_ : List Instr} {t : Tx} {p rsp : Nat} {s0 : State} (h0 : Keeps Q_ s0) : Keeps Q_ (snoopAnswered t p rsp s0) := by
  unfold snoopAnswered
  try dsimp only
  with_reducible repeat' (first
    | assumption | apply keeps_dirTouch | apply keeps_dirPut
    | apply keeps_closeTx | apply keeps_modCoh | split | (intro _)
    | dsimp only)

theorem keeps_stalledTry {Q_ : List Instr} {slice : Nat} {r : MemReq} {s : State} (h0 : Keeps Q_ s) : Keeps Q_ (stalledTry slice r s).1 := by
  unfold stalledTry
  try dsimp only
  with_reducible repeat' (first
    | assumption | apply keeps_modCoh | apply keeps_refuseReq
    | apply keeps_perform | refine keeps_perform_eq (by assumption) ?_
    | split | (intro _) | dsimp only)
theorem keeps_stalledTry_eq {Q_ : List Instr} {slice : Nat} {r : MemReq} {s : State} {t_ x_} (e_ : stalledTry slice r s = (t_, x_)) (h0 : Keeps Q_ s) : Keeps Q_ t_ := by
  have h_ := keeps_stalledTry (Q_ := Q_) (slice := slice) (r := r) (s := s) h0
  rw [e_] at h_; exact h_

theorem keeps_stalledResume {q : List Instr} {slice : Nat} {s : State} (h : Keeps q s) :
    Keeps q (stalledResume slice s) := by
  unfold stalledResume
  dsimp only
  split
  · rename_i e
    refine keeps_homeSettle (keeps_findSome e fun a u hu => ?_)
    split at hu
    · simp only [reduceCtorEq] at hu
    · split at hu
      · simp only [Option.some.injEq] at hu
        subst hu
        exact keeps_stalledTry h
      · simp only [reduceCtorEq] at hu
  · exact h

theorem keeps_homeSelect {Q_ : List Instr} {slice : Nat} {s : State} (h0 : Keeps Q_ s) : Keeps Q_ (homeSelect slice s) := by
  unfold homeSelect
  try dsimp only
  with_reducible repeat' (first
    | assumption | apply keeps_modCoh | apply keeps_fairServe
    | apply keeps_homeSettle | apply keeps_refuseReq | apply keeps_arrive
    | split | (intro _) | dsimp only)

theorem keeps_order {Q_ : List Instr} {r : MemReq} {s : State} (h0 : Keeps Q_ s) : Keeps Q_ (order r s) := by
  unfold order
  try dsimp only
  with_reducible repeat' (first
    | assumption | apply keeps_performBack | apply keeps_refuseReq
    | apply keeps_rebuildFirst | apply keeps_homeJoin
    | apply keeps_backsTake | apply keeps_homeSelect | split | (intro _)
    | dsimp only)

theorem keeps_orderStamped {Q_ : List Instr} {r : MemReq} {s : State} (h0 : Keeps Q_ s) : Keeps Q_ (orderStamped r s) := by
  unfold orderStamped
  try dsimp only
  with_reducible repeat' (first
    | assumption | apply keeps_order | apply keeps_modCoh | split
    | (intro _) | dsimp only)

end Sys2Proof.Machine
end

