-- ==== Sys2Proof/Laws/KeepsHostMem.lean ====
section
/-! SUPPORT. What the operations of Machine/HostMem.lean keep: one lemma per operation that answers a state. -/

namespace Sys2Proof.Machine

theorem keeps_routeMem {Q_ : List Instr} {src dst kind tag : Nat} {bytes : List Byte} {s : State} (h0 : Keeps Q_ s) : Keeps Q_ (routeMem src dst kind tag bytes s) := by
  unfold routeMem
  try dsimp only
  with_reducible repeat' (first
    | assumption | apply keeps_answerPort | apply keeps_modSw
    | apply keeps_egressOffer | split | (intro _) | dsimp only)

theorem keeps_routeIo {Q_ : List Instr} {src dst kind tag : Nat} {bytes : List Byte} {acs : Nat} {s : State} (h0 : Keeps Q_ s) : Keeps Q_ (routeIo src dst kind tag bytes acs s) := by
  unfold routeIo
  try dsimp only
  with_reducible repeat' (first
    | assumption | apply keeps_answerPort | apply keeps_bumpDrop
    | apply keeps_modSw | apply keeps_egressOffer | split | (intro _)
    | dsimp only)

theorem keeps_portRequest {Q_ : List Instr} {agent p tag part : Nat} {op : ReqOp} {h : Option HostHit} {dpa : Nat} {s : State} (h0 : Keeps Q_ s) : Keeps Q_ (portRequest agent p tag part op h dpa s) := by
  unfold portRequest
  try dsimp only
  with_reducible repeat' (first
    | assumption | apply keeps_refuseReq | apply keeps_orderStamped
    | apply keeps_unitSuspect | split | (intro _) | dsimp only)

theorem keeps_hostRequest {Q_ : List Instr} {p hpa tag : Nat} {op : ReqOp} {kind : Nat} {bytes : List Byte} {s : State} (h0 : Keeps Q_ s) : Keeps Q_ (hostRequest p hpa tag op kind bytes s) := by
  unfold hostRequest
  try dsimp only
  with_reducible repeat' (first
    | assumption | apply keeps_portActivity | apply keeps_routeMem
    | apply keeps_portRequest | split | (intro _) | dsimp only)

theorem keeps_atomicRequest {Q_ : List Instr} {p dpa tag op size operand compare : Nat} {s : State} (h0 : Keeps Q_ s) : Keeps Q_ (atomicRequest p dpa tag op size operand compare s) := by
  unfold atomicRequest
  try dsimp only
  with_reducible repeat' (first
    | assumption | apply keeps_portActivity | apply keeps_logEvent
    | apply keeps_portRequest | apply keeps_answerPort | split | (intro _)
    | dsimp only)

theorem keeps_bar2Request {Q_ : List Instr} {d dpa tag : Nat} {what : Bar2Op} {s : State} (h0 : Keeps Q_ s) : Keeps Q_ (bar2Request d dpa tag what s) := by
  unfold bar2Request
  try dsimp only
  with_reducible repeat' (first
    | assumption | apply keeps_portActivity | apply keeps_atomicRequest
    | apply keeps_answerPort | apply keeps_bumpDrop | apply keeps_forAll
    | apply keeps_portRequest | apply keeps_modCoh | split | (intro _)
    | dsimp only)

theorem keeps_protocolError {Q_ : List Instr} {p n page i : Nat} {s : State} (h0 : Keeps Q_ s) : Keeps Q_ (protocolError p n page i s) := by
  unfold protocolError
  try dsimp only
  with_reducible repeat' (first
    | assumption | apply keeps_bumpCoh | apply keeps_putEvent | split
    | (intro _) | dsimp only)

theorem keeps_birsp {Q_ : List Instr} {p n page i rsp : Nat} {block : Bool} {s : State} (h0 : Keeps Q_ s) : Keeps Q_ (birsp p n page i rsp block s) := by
  unfold birsp
  try dsimp only
  with_reducible repeat' (first
    | assumption | apply keeps_protocolError | apply keeps_snoopAnswered
    | apply keeps_pointerPast | split | (intro _) | dsimp only)

theorem keeps_biconflict {Q_ : List Instr} {p n page i : Nat} {s : State} (h0 : Keeps Q_ s) : Keeps Q_ (biconflict p n page i s) := by
  unfold biconflict
  try dsimp only
  with_reducible repeat' (first
    | assumption | apply keeps_answerPort | apply keeps_onlyIf
    | apply keeps_bumpCoh | split | (intro _) | dsimp only)

theorem keeps_coolTick {Q_ : List Instr} {n page i : Nat} {s : State} (h0 : Keeps Q_ s) : Keeps Q_ (coolTick n page i s) := by
  unfold coolTick
  try dsimp only
  with_reducible repeat' (first
    | assumption | apply keeps_predMove | apply keeps_releaseResident
    | split | (intro _) | dsimp only)

theorem keeps_hdmCommit {Q_ : List Instr} {p k base size skip ways gran : Nat} {targets : List Nat} {s : State} (h0 : Keeps Q_ s) : Keeps Q_ (hdmCommit p k base size skip ways gran targets s) := by
  unfold hdmCommit
  try dsimp only
  with_reducible repeat' (first
    | assumption | apply keeps_modPortAt | split | (intro _) | dsimp only)

theorem keeps_execMemrd {Q_ : List Instr} {p : PortId} {hpa : BitVec 52} {tag : BitVec 16} {grant : Fin 3} {s : State} (h0 : Keeps Q_ s) : ∃ u_, execMemrd p hpa tag grant s = .next u_ ∧ Keeps Q_ u_ := by
  refine ⟨_, rfl, ?_⟩
  with_reducible repeat' (first
    | assumption | apply keeps_hostRequest | split | (intro _) | dsimp only)

theorem keeps_execMeminv {Q_ : List Instr} {p : PortId} {hpa : BitVec 52} {tag : BitVec 16} {grant : Fin 3} {s : State} (h0 : Keeps Q_ s) : ∃ u_, execMeminv p hpa tag grant s = .next u_ ∧ Keeps Q_ u_ := by
  refine ⟨_, rfl, ?_⟩
  with_reducible repeat' (first
    | assumption | apply keeps_hostRequest | split | (intro _) | dsimp only)

theorem keeps_execMemwr {Q_ : List Instr} {p : PortId} {hpa : BitVec 52} {tag : BitVec 16} {grant : Fin 3} {data : Line} {s : State} (h0 : Keeps Q_ s) : ∃ u_, execMemwr p hpa tag grant data s = .next u_ ∧ Keeps Q_ u_ := by
  refine ⟨_, rfl, ?_⟩
  with_reducible repeat' (first
    | assumption | apply keeps_hostRequest | split | (intro _) | dsimp only)

theorem keeps_execMemwrptl {Q_ : List Instr} {p : PortId} {hpa : BitVec 52} {tag : BitVec 16} {grant : Fin 3} {data : Line} {mask : BitVec 64} {s : State} (h0 : Keeps Q_ s) : ∃ u_, execMemwrptl p hpa tag grant data mask s = .next u_ ∧ Keeps Q_ u_ := by
  refine ⟨_, rfl, ?_⟩
  with_reducible repeat' (first
    | assumption | apply keeps_hostRequest | split | (intro _) | dsimp only)

theorem keeps_execMemclnevct {Q_ : List Instr} {p : PortId} {hpa : BitVec 52} {tag : BitVec 16} {s : State} (h0 : Keeps Q_ s) : ∃ u_, execMemclnevct p hpa tag s = .next u_ ∧ Keeps Q_ u_ := by
  refine ⟨_, rfl, ?_⟩
  with_reducible repeat' (first
    | assumption | apply keeps_hostRequest | split | (intro _) | dsimp only)

theorem keeps_execBirsp {Q_ : List Instr} {p : PortId} {n : LodgeId} {page : BitVec 34} {line : Fin 64} {rsp : Fin 3} {block : Bool} {s : State} (h0 : Keeps Q_ s) : ∃ u_, execBirsp p n page line rsp block s = .next u_ ∧ Keeps Q_ u_ := by
  refine ⟨_, rfl, ?_⟩
  with_reducible repeat' (first
    | assumption | apply keeps_birsp | apply keeps_portActivity | split
    | (intro _) | dsimp only)

theorem keeps_execBiconflict {Q_ : List Instr} {p : PortId} {n : LodgeId} {page : BitVec 34} {line : Fin 64} {s : State} (h0 : Keeps Q_ s) : ∃ u_, execBiconflict p n page line s = .next u_ ∧ Keeps Q_ u_ := by
  refine ⟨_, rfl, ?_⟩
  with_reducible repeat' (first
    | assumption | apply keeps_biconflict | apply keeps_portActivity | split
    | (intro _) | dsimp only)

theorem keeps_execFetchAdd {Q_ : List Instr} {p : PortId} {dpa : BitVec 47} {tag : BitVec 16} {size : BitVec 8} {operand : BitVec 128} {s : State} (h0 : Keeps Q_ s) : ∃ u_, execFetchAdd p dpa tag size operand s = .next u_ ∧ Keeps Q_ u_ := by
  refine ⟨_, rfl, ?_⟩
  with_reducible repeat' (first
    | assumption | apply keeps_atomicRequest | split | (intro _)
    | dsimp only)

theorem keeps_execAtomSwap {Q_ : List Instr} {p : PortId} {dpa : BitVec 47} {tag : BitVec 16} {size : BitVec 8} {operand : BitVec 128} {s : State} (h0 : Keeps Q_ s) : ∃ u_, execAtomSwap p dpa tag size operand s = .next u_ ∧ Keeps Q_ u_ := by
  refine ⟨_, rfl, ?_⟩
  with_reducible repeat' (first
    | assumption | apply keeps_atomicRequest | split | (intro _)
    | dsimp only)

theorem keeps_execAtomCas {Q_ : List Instr} {p : PortId} {dpa : BitVec 47} {tag : BitVec 16} {size : BitVec 8} {operand compare : BitVec 128} {s : State} (h0 : Keeps Q_ s) : ∃ u_, execAtomCas p dpa tag size operand compare s = .next u_ ∧ Keeps Q_ u_ := by
  refine ⟨_, rfl, ?_⟩
  with_reducible repeat' (first
    | assumption | apply keeps_atomicRequest | split | (intro _)
    | dsimp only)

theorem keeps_execDspBar2Request {Q_ : List Instr} {p : PortId} {dpa : BitVec 47} {tag : BitVec 16} {what : Bar2Op} {s : State} (h0 : Keeps Q_ s) : ∃ u_, execDspBar2Request p dpa tag what s = .next u_ ∧ Keeps Q_ u_ := by
  refine ⟨_, rfl, ?_⟩
  with_reducible repeat' (first
    | assumption | apply keeps_bar2Request | split | (intro _) | dsimp only)

theorem keeps_execStalledWriteResume {Q_ : List Instr} {h : SliceId} {s : State} (h0 : Keeps Q_ s) : ∃ u_, execStalledWriteResume h s = .next u_ ∧ Keeps Q_ u_ := by
  refine ⟨_, rfl, ?_⟩
  with_reducible repeat' (first
    | assumption | apply keeps_stalledResume | split | (intro _)
    | dsimp only)

theorem keeps_execHomeQueueSelect {Q_ : List Instr} {h : SliceId} {s : State} (h0 : Keeps Q_ s) : ∃ u_, execHomeQueueSelect h s = .next u_ ∧ Keeps Q_ u_ := by
  refine ⟨_, rfl, ?_⟩
  with_reducible repeat' (first
    | assumption | apply keeps_homeSelect | split | (intro _) | dsimp only)

theorem keeps_execAtomCoolTick {Q_ : List Instr} {n : LodgeId} {page : BitVec 34} {line : Fin 64} {s : State} (h0 : Keeps Q_ s) : ∃ u_, execAtomCoolTick n page line s = .next u_ ∧ Keeps Q_ u_ := by
  refine ⟨_, rfl, ?_⟩
  with_reducible repeat' (first
    | assumption | apply keeps_coolTick | split | (intro _) | dsimp only)

theorem keeps_execHdmDecoderCommit {Q_ : List Instr} {p : PortId} {k : Fin 10} {base size skip : BitVec 52} {ways gran : Fin 16} {targets : List (Fin 32)} {s : State} (h0 : Keeps Q_ s) : ∃ u_, execHdmDecoderCommit p k base size skip ways gran targets s = .next u_ ∧ Keeps Q_ u_ := by
  refine ⟨_, rfl, ?_⟩
  with_reducible repeat' (first
    | assumption | apply keeps_hdmCommit | split | (intro _) | dsimp only)

theorem keeps_execCxlMemRoute {Q_ : List Instr} {src dst : PortId} {kind : Fin 5} {tag : BitVec 16} {bytes : List Byte} {s : State} (h0 : Keeps Q_ s) : ∃ u_, execCxlMemRoute src dst kind tag bytes s = .next u_ ∧ Keeps Q_ u_ := by
  refine ⟨_, rfl, ?_⟩
  with_reducible repeat' (first
    | assumption | apply keeps_routeMem | apply keeps_portActivity | split
    | (intro _) | dsimp only)

theorem keeps_execCxlIoRoute {Q_ : List Instr} {src dst : PortId} {kind : Fin 3} {tag : BitVec 16} {bytes : List Byte} {acs : Fin 3} {s : State} (h0 : Keeps Q_ s) : ∃ u_, execCxlIoRoute src dst kind tag bytes acs s = .next u_ ∧ Keeps Q_ u_ := by
  refine ⟨_, rfl, ?_⟩
  with_reducible repeat' (first
    | assumption | apply keeps_routeIo | apply keeps_portActivity | split
    | (intro _) | dsimp only)

end Sys2Proof.Machine
end

