-- ==== Sys2Proof/Laws/KeepsMover.lean ====
section
/-! SUPPORT. What the operations of Machine/Mover.lean keep: one lemma per operation that answers a state. -/

namespace Sys2Proof.Machine

theorem keeps_tierEpoch {Q_ : List Instr} {d : Nat} {s : State} (h0 : Keeps Q_ s) : Keeps Q_ (tierEpoch d s) := by
  unfold tierEpoch
  try dsimp only
  with_reducible repeat' (first
    | assumption | apply keeps_modWing | apply keeps_modTier | split
    | (intro _) | dsimp only)

theorem keeps_sweepPage {Q_ : List Instr} {n p : Nat} {s : State} (h0 : Keeps Q_ s) : Keeps Q_ (sweepPage n p s) := by
  unfold sweepPage
  try dsimp only
  with_reducible repeat' (first
    | assumption | refine keeps_checkedDesc (by assumption) ?_
    | apply keeps_setDesc | apply keeps_queueMove | split | (intro _)
    | dsimp only)

theorem keeps_sweepVisit {Q_ : List Instr} {n p : Nat} {s : State} (h0 : Keeps Q_ s) : Keeps Q_ (sweepVisit n p s) := by
  unfold sweepVisit
  try dsimp only
  with_reducible repeat' (first
    | assumption | apply keeps_forAll | apply keeps_sweepPage
    | apply keeps_modTier | split | (intro _) | dsimp only)

theorem keeps_moveEnters {Q_ : List Instr} {k : Nat} {m : Move} {st : MoveState} {s : State} (h0 : Keeps Q_ s) : Keeps Q_ (moveEnters k m st s) := by
  unfold moveEnters
  try dsimp only
  with_reducible repeat' (first
    | assumption | apply keeps_modTier | apply keeps_afterDraw
    | apply keeps_engineUse | split | (intro _) | dsimp only)

theorem keeps_moveStart {Q_ : List Instr} {d c : Nat} {s : State} (h0 : Keeps Q_ s) : Keeps Q_ (moveStart d c s) := by
  unfold moveStart
  try dsimp only
  with_reducible repeat' (first
    | assumption | apply keeps_modTier | apply keeps_settlePage
    | apply keeps_moveEnters | apply keeps_onlyIf | apply keeps_setDesc
    | apply keeps_snoopPageNow | split | (intro _) | dsimp only)

theorem keeps_moveIdle {Q_ : List Instr} {k : Nat} {s : State} (h0 : Keeps Q_ s) : Keeps Q_ (moveIdle k s) := by
  unfold moveIdle
  try dsimp only
  with_reducible repeat' (first
    | assumption | apply keeps_modTier | split | (intro _) | dsimp only)

theorem keeps_moveAbort {Q_ : List Instr} {k : Nat} {again : Bool} {s : State} (h0 : Keeps Q_ s) : Keeps Q_ (moveAbort k again s) := by
  unfold moveAbort
  try dsimp only
  with_reducible repeat' (first
    | assumption | apply keeps_moveIdle | apply keeps_moveFree
    | apply keeps_onlyIf | apply keeps_setDesc | apply keeps_bumpTier
    | apply keeps_queueMove | split | (intro _) | dsimp only)

theorem keeps_engineStalls {Q_ : List Instr} {u : Nat} {s : State} (h0 : Keeps Q_ s) : Keeps Q_ (engineStalls u s) := by
  unfold engineStalls
  try dsimp only
  with_reducible repeat' (first
    | assumption | apply keeps_forAll | apply keeps_moveAbort | split
    | (intro _) | dsimp only)

theorem keeps_copySource {Q_ : List Instr} {n p : Nat} {x : Desc} {s : State} (h0 : Keeps Q_ s) : Keeps Q_ (copySource n p x s).2.2.2 := by
  unfold copySource
  try dsimp only
  with_reducible repeat' (first
    | assumption | apply keeps_flushRun | apply keeps_forAll
    | apply keeps_dramRead | apply keeps_mergeSettle | split | (intro _)
    | dsimp only)

theorem keeps_moveSnapshot {Q_ : List Instr} {k : Nat} {s : State} (h0 : Keeps Q_ s) : Keeps Q_ (moveSnapshot k s) := by
  unfold moveSnapshot
  try dsimp only
  with_reducible repeat' (first
    | assumption | apply keeps_moveAbort | apply keeps_moveEnters
    | apply keeps_snoopMoreNow | apply keeps_sampleHome
    | apply keeps_pageLost | apply keeps_leaveDict | apply keeps_failCount
    | apply keeps_uncorrectable | apply keeps_copySource
    | refine keeps_copySource_eq (by assumption) ?_ | apply keeps_forAll
    | apply keeps_poisonLine | apply keeps_notePage | apply keeps_readPage
    | refine keeps_readPage_eq (by assumption) ?_ | split | (intro _)
    | dsimp only)

theorem keeps_noGain {Q_ : List Instr} {k : Nat} {m : Move} {s : State} (h0 : Keeps Q_ s) : Keeps Q_ (noGain k m s) := by
  unfold noGain
  try dsimp only
  with_reducible repeat' (first
    | assumption | apply keeps_moveIdle | apply keeps_setDesc | split
    | (intro _) | dsimp only)

theorem keeps_moveEncode {Q_ : List Instr} {k : Nat} {s : State} (h0 : Keeps Q_ s) : Keeps Q_ (moveEncode k s) := by
  unfold moveEncode
  try dsimp only
  with_reducible repeat' (first
    | assumption | apply keeps_moveEnters | apply keeps_moveAbort
    | apply keeps_onlyIf | apply keeps_storeLoad | apply keeps_noGain
    | apply keeps_gbDie | apply keeps_bumpTier | split | (intro _)
    | dsimp only)

theorem keeps_moveVerify {Q_ : List Instr} {k : Nat} {ok : Bool} {s : State} (h0 : Keeps Q_ s) : Keeps Q_ (moveVerify k ok s).1 := by
  unfold moveVerify
  try dsimp only
  with_reducible repeat' (first
    | assumption | apply keeps_moveAbort | apply keeps_moveEnters | split
    | (intro _) | dsimp only)
theorem keeps_moveVerify_eq {Q_ : List Instr} {k : Nat} {ok : Bool} {s : State} {t_ x_} (e_ : moveVerify k ok s = (t_, x_)) (h0 : Keeps Q_ s) : Keeps Q_ t_ := by
  have h_ := keeps_moveVerify (Q_ := Q_) (k := k) (ok := ok) (s := s) h0
  rw [e_] at h_; exact h_

theorem keeps_putLines {Q_ : List Instr} {d line : Nat} {bytes : List Byte} {marks : List Nat} {hint : Bool} {s : State} (h0 : Keeps Q_ s) : Keeps Q_ (putLines d line bytes marks hint s) := by
  unfold putLines
  try dsimp only
  with_reducible repeat' (first
    | assumption | apply keeps_forAll | apply keeps_storeRaw | split
    | (intro _) | dsimp only)

theorem keeps_moveBack {Q_ : List Instr} {k : Nat} {s : State} (h0 : Keeps Q_ s) : Keeps Q_ (moveBack k s) := by
  unfold moveBack
  try dsimp only
  with_reducible repeat' (first
    | assumption | apply keeps_queueMove | apply keeps_onlyIf
    | apply keeps_setDesc | apply keeps_moveIdle | apply keeps_moveFree
    | split | (intro _) | dsimp only)

theorem keeps_movePlace {Q_ : List Instr} {k : Nat} {s : State} (h0 : Keeps Q_ s) : Keeps Q_ (movePlace k s) := by
  unfold movePlace
  try dsimp only
  with_reducible repeat' (first
    | refine keeps_ite_opt (by assumption) (fun e => keeps_allocRun e ?_) (fun e => keeps_allocFrame e ?_)
    | assumption | refine keeps_modSpace (fun _ hx => hx) ?_
    | apply keeps_moveAbort | apply keeps_moveEnters
    | refine keeps_allocRun (by assumption) ?_
    | refine keeps_allocFrame (by assumption) ?_ | apply keeps_putLines
    | apply keeps_sampleHome | apply keeps_bumpTier | apply keeps_moveIdle
    | apply keeps_moveBack | split | (intro _) | dsimp only)

theorem keeps_tagsStart {Q_ : List Instr} {n p version : Nat} {cipher : List Byte} {key : PageKeys} {s : State} (h0 : Keeps Q_ s) : Keeps Q_ (tagsStart n p version cipher key s) := by
  unfold tagsStart
  try dsimp only
  with_reducible repeat' (first
    | assumption | apply keeps_modProt | apply keeps_countersStart | split
    | (intro _) | dsimp only)

theorem keeps_lcClean {Q_ : List Instr} {n p : Nat} {s : State} (h0 : Keeps Q_ s) : Keeps Q_ (lcClean n p s) := by
  unfold lcClean
  try dsimp only
  with_reducible repeat' (first
    | assumption | apply keeps_modLc | split | (intro _) | dsimp only)

theorem keeps_freeOld {Q_ : List Instr} {n p : Nat} {x : Desc} {s : State} (h0 : Keeps Q_ s) : Keeps Q_ (freeOld n p x s) := by
  unfold freeOld
  try dsimp only
  with_reducible repeat' (first
    | assumption | apply keeps_useBytes | apply keeps_freeRun
    | apply keeps_freeFrame | split | (intro _) | dsimp only)

theorem keeps_moveApply {Q_ : List Instr} {k : Nat} {m : Move} {x : Desc} {key : PageKeys} {s : State} (h0 : Keeps Q_ s) : Keeps Q_ (moveApply k m x key s) := by
  unfold moveApply
  try dsimp only
  with_reducible repeat' (first
    | assumption | refine keeps_modSpace (fun _ hx => hx) ?_
    | apply keeps_restage | apply keeps_useBytes | apply keeps_gbDie
    | apply keeps_bumpTier | apply keeps_countersDrop | apply keeps_lcDrop
    | apply keeps_dropQueued | apply keeps_freeOld | apply keeps_setDesc
    | apply keeps_onlyIf | apply keeps_dictRef | apply keeps_lcClean
    | apply keeps_leaveDict | apply keeps_tagsStart | split | (intro _)
    | dsimp only)

theorem keeps_moveCommit {Q_ : List Instr} {k : Nat} {s : State} (h0 : Keeps Q_ s) : Keeps Q_ (moveCommit k s) := by
  unfold moveCommit
  try dsimp only
  with_reducible repeat' (first
    | assumption | apply keeps_moveAbort | apply keeps_descFail
    | apply keeps_copySource | refine keeps_copySource_eq (by assumption) ?_
    | apply keeps_settlePage | apply keeps_putLines | apply keeps_moveApply
    | apply keeps_moveIdle | split | (intro _) | dsimp only)

theorem keeps_execTierEpoch {Q_ : List Instr} {d : MemDie} {s : State} (h0 : Keeps Q_ s) : ∃ u_, execTierEpoch d s = .next u_ ∧ Keeps Q_ u_ := by
  refine ⟨_, rfl, ?_⟩
  with_reducible repeat' (first
    | assumption | apply keeps_tierEpoch | split | (intro _) | dsimp only)

theorem keeps_execSweepVisit {Q_ : List Instr} {n : LodgeId} {page : BitVec 34} {s : State} (h0 : Keeps Q_ s) : ∃ u_, execSweepVisit n page s = .next u_ ∧ Keeps Q_ u_ := by
  refine ⟨_, rfl, ?_⟩
  with_reducible repeat' (first
    | assumption | apply keeps_sweepVisit | split | (intro _) | dsimp only)

theorem keeps_execMoveStart {Q_ : List Instr} {d : MemDie} {c : Fin 32} {s : State} (h0 : Keeps Q_ s) : ∃ u_, execMoveStart d c s = .next u_ ∧ Keeps Q_ u_ := by
  refine ⟨_, rfl, ?_⟩
  with_reducible repeat' (first
    | assumption | apply keeps_moveStart | split | (intro _) | dsimp only)

theorem keeps_execMoveSnapshotDone {Q_ : List Instr} {d : MemDie} {c : Fin 32} {s : State} (h0 : Keeps Q_ s) : ∃ u_, execMoveSnapshotDone d c s = .next u_ ∧ Keeps Q_ u_ := by
  refine ⟨_, rfl, ?_⟩
  with_reducible repeat' (first
    | assumption | apply keeps_moveSnapshot | split | (intro _) | dsimp only)

theorem keeps_execMoveEncodeDone {Q_ : List Instr} {d : MemDie} {c : Fin 32} {s : State} (h0 : Keeps Q_ s) : ∃ u_, execMoveEncodeDone d c s = .next u_ ∧ Keeps Q_ u_ := by
  refine ⟨_, rfl, ?_⟩
  with_reducible repeat' (first
    | assumption | apply keeps_moveEncode | split | (intro _) | dsimp only)

theorem keeps_execMovePlaceDone {Q_ : List Instr} {d : MemDie} {c : Fin 32} {s : State} (h0 : Keeps Q_ s) : ∃ u_, execMovePlaceDone d c s = .next u_ ∧ Keeps Q_ u_ := by
  refine ⟨_, rfl, ?_⟩
  with_reducible repeat' (first
    | assumption | apply keeps_movePlace | split | (intro _) | dsimp only)

theorem keeps_execMoveCommit {Q_ : List Instr} {d : MemDie} {c : Fin 32} {s : State} (h0 : Keeps Q_ s) : ∃ u_, execMoveCommit d c s = .next u_ ∧ Keeps Q_ u_ := by
  refine ⟨_, rfl, ?_⟩
  with_reducible repeat' (first
    | assumption | apply keeps_moveCommit | split | (intro _) | dsimp only)

end Sys2Proof.Machine
end

