-- ==== Sys2Proof/Laws/KeepsWings.lean ====
section
/-! SUPPORT. What the operations of Machine/Wings.lean keep: one lemma per operation that answers a state. -/

namespace Sys2Proof.Machine

theorem keeps_modWingChans {Q_ : List Instr} {w : Nat} {f : Chan → Chan} {s : State} (h0 : Keeps Q_ s) : Keeps Q_ (modWingChans w f s) := by
  unfold modWingChans
  try dsimp only
  with_reducible repeat' (first
    | assumption | apply keeps_modChan | split | (intro _) | dsimp only)

theorem keeps_evacuateStart {Q_ : List Instr} {w : Nat} {byCmd : Bool} {unit : Option Nat} {s : State} (h0 : Keeps Q_ s) : Keeps Q_ (evacuateStart w byCmd unit s) := by
  unfold evacuateStart
  try dsimp only
  with_reducible repeat' (first
    | assumption | refine keeps_modSpace (fun _ hx => hx) ?_
    | apply keeps_modWingAt | split | (intro _) | dsimp only)

theorem keeps_requeueBlanks {Q_ : List Instr} {w : Nat} {s : State} (h0 : Keeps Q_ s) : Keeps Q_ (requeueBlanks w s) := by
  unfold requeueBlanks
  try dsimp only
  with_reducible repeat' (first
    | assumption | refine keeps_modSpace (fun _ hx => hx) ?_ | split
    | (intro _) | dsimp only)

theorem keeps_evacuateCancel {Q_ : List Instr} {w : Nat} {s : State} (h0 : Keeps Q_ s) : Keeps Q_ (evacuateCancel w s) := by
  unfold evacuateCancel
  try dsimp only
  with_reducible repeat' (first
    | assumption | apply keeps_requeueBlanks | apply keeps_modWingAt
    | apply keeps_cmdEnd | split | (intro _) | dsimp only)

theorem keeps_wingEmptied {Q_ : List Instr} {w : Nat} {s : State} (h0 : Keeps Q_ s) : Keeps Q_ (wingEmptied w s) := by
  unfold wingEmptied
  try dsimp only
  with_reducible repeat' (first
    | assumption | apply keeps_modWingAt | split | (intro _) | dsimp only)

theorem keeps_wingShutters {Q_ : List Instr} {w : Nat} {s : State} (h0 : Keeps Q_ s) : Keeps Q_ (wingShutters w s) := by
  unfold wingShutters
  try dsimp only
  with_reducible repeat' (first
    | assumption | apply keeps_drainChan | apply keeps_modWingChans
    | apply keeps_modWingAt | apply keeps_recomputeD
    | apply keeps_branchOpen | split | (intro _) | dsimp only)

theorem keeps_wingEmpty {Q_ : List Instr} {w : Nat} {s : State} (h0 : Keeps Q_ s) : Keeps Q_ (wingEmpty w s) := by
  unfold wingEmpty
  try dsimp only
  with_reducible repeat' (first
    | assumption | apply keeps_wingEmptied | apply keeps_wingShutters
    | split | (intro _) | dsimp only)

theorem keeps_trainChan {Q_ : List Instr} {c : Nat} {test : Bool} {s : State} (h0 : Keeps Q_ s) : Keeps Q_ (trainChan c test s) := by
  unfold trainChan
  try dsimp only
  with_reducible repeat' (first
    | assumption | apply keeps_afterDraw | apply keeps_modChan
    | apply keeps_tableValid | split | (intro _) | dsimp only)

theorem keeps_reopenFailed {Q_ : List Instr} {w c : Nat} {s : State} (h0 : Keeps Q_ s) : Keeps Q_ (reopenFailed w c s) := by
  unfold reopenFailed
  try dsimp only
  with_reducible repeat' (first
    | assumption | apply keeps_branchOpen | apply keeps_modWingChans
    | apply keeps_modWingAt | apply keeps_cmdEnd | split | (intro _)
    | dsimp only)

theorem keeps_trainWing {Q_ : List Instr} {w : Nat} {s : State} (h0 : Keeps Q_ s) : Keeps Q_ (trainWing w s) := by
  unfold trainWing
  try dsimp only
  with_reducible repeat' (first
    | assumption | apply keeps_reopenFailed | apply keeps_forAll
    | apply keeps_trainChan | split | (intro _) | dsimp only)

theorem keeps_reopenStart {Q_ : List Instr} {w : Nat} {byCmd : Bool} {unit : Option Nat} {s : State} (h0 : Keeps Q_ s) : Keeps Q_ (reopenStart w byCmd unit s) := by
  unfold reopenStart
  try dsimp only
  with_reducible repeat' (first
    | assumption | apply keeps_modWingAt | apply keeps_trainWing
    | apply keeps_branchRequest | split | (intro _) | dsimp only)

theorem keeps_wingShut {Q_ : List Instr} {w : Nat} {s : State} (h0 : Keeps Q_ s) : Keeps Q_ (wingShut w s) := by
  unfold wingShut
  try dsimp only
  with_reducible repeat' (first
    | assumption | apply keeps_modWingAt | apply keeps_cmdEnd
    | apply keeps_reopenStart | split | (intro _) | dsimp only)

theorem keeps_autoReopen {Q_ : List Instr} {d : Nat} {s : State} (h0 : Keeps Q_ s) : Keeps Q_ (autoReopen d s) := by
  unfold autoReopen
  try dsimp only
  with_reducible repeat' (first
    | assumption | apply keeps_evacuateCancel | apply keeps_modWingAt
    | apply keeps_reopenStart | split | (intro _) | dsimp only)

theorem keeps_reopenTrained {Q_ : List Instr} {w : Nat} {s : State} (h0 : Keeps Q_ s) : Keeps Q_ (reopenTrained w s) := by
  unfold reopenTrained
  try dsimp only
  with_reducible repeat' (first
    | assumption | refine keeps_modSpace (fun _ hx => hx) ?_
    | apply keeps_modWingAt | apply keeps_restage | apply keeps_recomputeD
    | apply keeps_cmdEnd | split | (intro _) | dsimp only)

theorem keeps_sweepPassEnd {Q_ : List Instr} {d : Nat} {s : State} (h0 : Keeps Q_ s) : Keeps Q_ (sweepPassEnd d s) := by
  unfold sweepPassEnd
  try dsimp only
  with_reducible repeat' (first
    | assumption | apply keeps_modTier | apply keeps_autoRefused
    | apply keeps_evacuateStart | apply keeps_autoCommand | split
    | (intro _) | dsimp only)

theorem keeps_execSweepPassEnd {Q_ : List Instr} {d : MemDie} {s : State} (h0 : Keeps Q_ s) : ∃ u_, execSweepPassEnd d s = .next u_ ∧ Keeps Q_ u_ := by
  refine ⟨_, rfl, ?_⟩
  with_reducible repeat' (first
    | assumption | apply keeps_sweepPassEnd | split | (intro _) | dsimp only)

theorem keeps_execWingEmpty {Q_ : List Instr} {w : WingId} {s : State} (h0 : Keeps Q_ s) : ∃ u_, execWingEmpty w s = .next u_ ∧ Keeps Q_ u_ := by
  refine ⟨_, rfl, ?_⟩
  with_reducible repeat' (first
    | assumption | apply keeps_wingEmpty | split | (intro _) | dsimp only)

theorem keeps_execAutoReopen {Q_ : List Instr} {d : MemDie} {s : State} (h0 : Keeps Q_ s) : ∃ u_, execAutoReopen d s = .next u_ ∧ Keeps Q_ u_ := by
  refine ⟨_, rfl, ?_⟩
  with_reducible repeat' (first
    | assumption | apply keeps_autoReopen | split | (intro _) | dsimp only)

end Sys2Proof.Machine
end

