-- ==== Sys2Proof/Laws/KeepsChannels.lean ====
section
/-! SUPPORT. What the operations of Machine/Channels.lean keep: one lemma per operation that answers a state. -/

namespace Sys2Proof.Machine

theorem keeps_dramApply {Q_ : List Instr} {test : Bool} {s : State} (h0 : Keeps Q_ s) : Keeps Q_ (dramApply test s) := by
  unfold dramApply
  try dsimp only
  with_reducible repeat' (first
    | assumption | apply keeps_forAll | apply keeps_trainChan
    | apply keeps_branchRequest | apply keeps_modSl | split | (intro _)
    | dsimp only)

theorem keeps_retireFree {Q_ : List Instr} {d a len : Nat} {s0 : State} (h0 : Keeps Q_ s0) : Keeps Q_ (retireFree d a len s0) := by
  unfold retireFree
  try dsimp only
  with_reducible repeat' (first
    | assumption | refine keeps_modSpace (fun _ hx => hx) ?_
    | apply keeps_forAll | apply keeps_setUse | apply keeps_queueBlank
    | split | (intro _) | dsimp only)

theorem keeps_retireEntry {Q_ : List Instr} {d entry frame : Nat} {s : State} (h0 : Keeps Q_ s) : Keeps Q_ (retireEntry d entry frame s) := by
  unfold retireEntry
  try dsimp only
  with_reducible repeat' (first
    | assumption | refine keeps_modSpace (fun _ hx => hx) ?_ | split
    | (intro _) | dsimp only)

theorem keeps_testFailure {Q_ : List Instr} {c idx : Nat} {s : State} (h0 : Keeps Q_ s) : Keeps Q_ (testFailure c idx s) := by
  unfold testFailure
  try dsimp only
  with_reducible repeat' (first
    | assumption | apply keeps_memEvent | apply keeps_retireFree
    | apply keeps_retireEntry | split | (intro _) | dsimp only)

theorem keeps_testActs {Q_ : List Instr} {c : Nat} {s : State} (h0 : Keeps Q_ s) : Keeps Q_ (testActs c s) := by
  unfold testActs
  try dsimp only
  with_reducible repeat' (first
    | assumption | apply keeps_afterDraw | apply keeps_modChan | split
    | (intro _) | dsimp only)

theorem keeps_chanActive {Q_ : List Instr} {c : Nat} {drfm : BitVec 2} {bad : List Nat} {s : State} (h0 : Keeps Q_ s) : Keeps Q_ (chanActive c drfm bad s) := by
  unfold chanActive
  try dsimp only
  with_reducible repeat' (first
    | assumption | apply keeps_modChan | apply keeps_forAll
    | apply keeps_testFailure | apply keeps_testActs | split | (intro _)
    | dsimp only)

theorem keeps_regionsSetUp {Q_ : List Instr} {d : Nat} {s : State} (h0 : Keeps Q_ s) : Keeps Q_ (regionsSetUp d s) := by
  unfold regionsSetUp
  try dsimp only
  with_reducible repeat' (first
    | assumption | refine keeps_modSpace (fun _ hx => hx) ?_
    | apply keeps_regionsTake | split | (intro _) | dsimp only)

theorem keeps_dramApplyEnd {Q_ : List Instr} {s : State} (h0 : Keeps Q_ s) : Keeps Q_ (dramApplyEnd s) := by
  unfold dramApplyEnd
  try dsimp only
  with_reducible repeat' (first
    | assumption | apply keeps_modSl | apply keeps_cmdEnd
    | apply keeps_recomputeD | apply keeps_forAll | apply keeps_restage
    | apply keeps_regionsSetUp | split | (intro _) | dsimp only)

theorem keeps_chanSettle {Q_ : List Instr} {c : Nat} {s : State} (h0 : Keeps Q_ s) : Keeps Q_ (chanSettle c s) := by
  unfold chanSettle
  try dsimp only
  with_reducible repeat' (first
    | assumption | apply keeps_drainChan | apply keeps_forAll
    | apply keeps_mergeOut | split | (intro _) | dsimp only)

theorem keeps_channelFails {Q_ : List Instr} {c : Nat} {s : State} (h0 : Keeps Q_ s) : Keeps Q_ (channelFails c s).1 := by
  unfold channelFails
  try dsimp only
  with_reducible repeat' (first
    | assumption | refine keeps_modSpace (fun _ hx => hx) ?_
    | apply keeps_modChan | apply keeps_chanSettle
    | apply keeps_installedFell | apply keeps_reopenFailed
    | apply keeps_modWingAt | split | (intro _) | dsimp only)
theorem keeps_channelFails_eq {Q_ : List Instr} {c : Nat} {s : State} {t_ x_} (e_ : channelFails c s = (t_, x_)) (h0 : Keeps Q_ s) : Keeps Q_ t_ := by
  have h_ := keeps_channelFails (Q_ := Q_) (c := c) (s := s) h0
  rw [e_] at h_; exact h_

theorem keeps_dramIssue {Q_ : List Instr} {c : Nat} {barred : BitVec 128} {s : State} (h0 : Keeps Q_ s) : Keeps Q_ (dramIssue c barred s) := by
  unfold dramIssue
  try dsimp only
  with_reducible repeat' (first
    | assumption | apply keeps_refresh | apply keeps_mitigation
    | apply keeps_modChan | apply keeps_writeNext | apply keeps_issueRead
    | split | (intro _) | dsimp only)

theorem keeps_refDue {Q_ : List Instr} {c rank : Nat} {postpone : Bool} {s : State} (h0 : Keeps Q_ s) : Keeps Q_ (refDue c rank postpone s) := by
  unfold refDue
  try dsimp only
  with_reducible repeat' (first
    | assumption | apply keeps_modChan | apply keeps_refresh | split
    | (intro _) | dsimp only)

theorem keeps_moduleTemp {Q_ : List Instr} {c : Nat} {t : Int} {s : State} (h0 : Keeps Q_ s) : Keeps Q_ (moduleTemp c t s) := by
  unfold moduleTemp
  try dsimp only
  with_reducible repeat' (first
    | assumption | apply keeps_modChan | split | (intro _) | dsimp only)

theorem keeps_tablesClear {Q_ : List Instr} {s : State} (h0 : Keeps Q_ s) : Keeps Q_ (tablesClear s) := by
  unfold tablesClear
  try dsimp only
  with_reducible repeat' (first
    | assumption | apply keeps_modCh | split | (intro _) | dsimp only)

theorem keeps_tableValid {Q_ : List Instr} {c : Nat} {s : State} (h0 : Keeps Q_ s) : Keeps Q_ (tableValid c s) := by
  unfold tableValid
  try dsimp only
  with_reducible repeat' (first
    | assumption | apply keeps_modChan | split | (intro _) | dsimp only)

theorem keeps_caAlert {Q_ : List Instr} {c latency : Nat} {s : State} (h0 : Keeps Q_ s) : Keeps Q_ (caAlert c latency s) := by
  unfold caAlert
  try dsimp only
  with_reducible repeat' (first
    | assumption | apply keeps_modChan | split | (intro _) | dsimp only)

theorem keeps_caReplay {Q_ : List Instr} {c : Nat} {again : Bool} {s : State} (h0 : Keeps Q_ s) : Keeps Q_ (caReplay c again s).1 := by
  unfold caReplay
  try dsimp only
  with_reducible repeat' (first
    | assumption | apply keeps_modChan | apply keeps_tableValid
    | apply keeps_forAll | apply keeps_randomMitigation
    | apply keeps_countAct | apply keeps_storeRaw | apply keeps_gbDie
    | apply keeps_memEvent | split | (intro _) | dsimp only)
theorem keeps_caReplay_eq {Q_ : List Instr} {c : Nat} {again : Bool} {s : State} {t_ x_} (e_ : caReplay c again s = (t_, x_)) (h0 : Keeps Q_ s) : Keeps Q_ t_ := by
  have h_ := keeps_caReplay (Q_ := Q_) (c := c) (again := again) (s := s) h0
  rw [e_] at h_; exact h_

theorem keeps_chanSelfRefresh {Q_ : List Instr} {c : Nat} {s : State} (h0 : Keeps Q_ s) : Keeps Q_ (chanSelfRefresh c s) := by
  unfold chanSelfRefresh
  try dsimp only
  with_reducible repeat' (first
    | assumption | apply keeps_chanSettle | apply keeps_forAll
    | apply keeps_refresh | apply keeps_modChan | split | (intro _)
    | dsimp only)

theorem keeps_wingSelfRefresh {Q_ : List Instr} {w : Nat} {s : State} (h0 : Keeps Q_ s) : Keeps Q_ (wingSelfRefresh w s) := by
  unfold wingSelfRefresh
  try dsimp only
  with_reducible repeat' (first
    | assumption | apply keeps_chanSelfRefresh | split | (intro _)
    | dsimp only)

theorem keeps_execDramCommandIssue {Q_ : List Instr} {c : ChanId} {barred : BitVec 128} {s : State} (h0 : Keeps Q_ s) : ∃ u_, execDramCommandIssue c barred s = .next u_ ∧ Keeps Q_ u_ := by
  refine ⟨_, rfl, ?_⟩
  with_reducible repeat' (first
    | assumption | apply keeps_dramIssue | split | (intro _) | dsimp only)

theorem keeps_execRefDue {Q_ : List Instr} {c : ChanId} {rank : Fin 8} {postpone : Bool} {s : State} (h0 : Keeps Q_ s) : ∃ u_, execRefDue c rank postpone s = .next u_ ∧ Keeps Q_ u_ := by
  refine ⟨_, rfl, ?_⟩
  with_reducible repeat' (first
    | assumption | apply keeps_refDue | split | (intro _) | dsimp only)

theorem keeps_execModuleTempRead {Q_ : List Instr} {c : ChanId} {t : BitVec 32} {s : State} (h0 : Keeps Q_ s) : ∃ u_, execModuleTempRead c t s = .next u_ ∧ Keeps Q_ u_ := by
  refine ⟨_, rfl, ?_⟩
  with_reducible repeat' (first
    | assumption | apply keeps_moduleTemp | split | (intro _) | dsimp only)

theorem keeps_execActTableClear {Q_ : List Instr} {s : State} (h0 : Keeps Q_ s) : ∃ u_, execActTableClear s = .next u_ ∧ Keeps Q_ u_ := by
  refine ⟨_, rfl, ?_⟩
  with_reducible repeat' (first
    | assumption | apply keeps_tablesClear | split | (intro _) | dsimp only)

theorem keeps_execTableValid {Q_ : List Instr} {c : ChanId} {s : State} (h0 : Keeps Q_ s) : ∃ u_, execTableValid c s = .next u_ ∧ Keeps Q_ u_ := by
  refine ⟨_, rfl, ?_⟩
  with_reducible repeat' (first
    | assumption | apply keeps_tableValid | split | (intro _) | dsimp only)

theorem keeps_execCaParityAlert {Q_ : List Instr} {c : ChanId} {latency : BitVec 16} {s : State} (h0 : Keeps Q_ s) : ∃ u_, execCaParityAlert c latency s = .next u_ ∧ Keeps Q_ u_ := by
  refine ⟨_, rfl, ?_⟩
  with_reducible repeat' (first
    | assumption | apply keeps_caAlert | split | (intro _) | dsimp only)

theorem keeps_execSelfRefreshEntry {Q_ : List Instr} {w : WingId} {s : State} (h0 : Keeps Q_ s) : ∃ u_, execSelfRefreshEntry w s = .next u_ ∧ Keeps Q_ u_ := by
  refine ⟨_, rfl, ?_⟩
  with_reducible repeat' (first
    | assumption | apply keeps_wingSelfRefresh | split | (intro _)
    | dsimp only)

end Sys2Proof.Machine
end

