-- ==== Sys2Proof/Laws/KeepsDeadAgents.lean ====
section
/-! SUPPORT. What the operations of Machine/DeadAgents.lean keep: one lemma per operation that answers a state. -/

namespace Sys2Proof.Machine

theorem keeps_vendorNotice {Q_ : List Instr} {log code n : Nat} {s : State} (h0 : Keeps Q_ s) : Keeps Q_ (vendorNotice log code n s) := by
  unfold vendorNotice
  try dsimp only
  with_reducible repeat' (first
    | assumption | apply keeps_putEvents | split | (intro _) | dsimp only)

theorem keeps_markLost {Q_ : List Instr} {l : Nat × Nat × Nat} {s : State} (h0 : Keeps Q_ s) : Keeps Q_ (markLost l s) := by
  unfold markLost
  try dsimp only
  with_reducible repeat' (first
    | assumption | apply keeps_unlockPage | apply keeps_fireWatch
    | apply keeps_loseLine | refine keeps_loseLine_eq (by assumption) ?_
    | apply keeps_lineLost | apply keeps_stall | split | (intro _)
    | dsimp only)

theorem keeps_closeSnoops {q : List Instr} {p k : Nat} {s : State} (h : Keeps q s) :
    Keeps q (closeSnoops p k s) := by
  induction k generalizing s with
  | zero => exact h
  | succ k ih =>
    unfold closeSnoops
    split
    · exact h
    · exact ih (keeps_snoopAnswered h)

theorem keeps_domainDown {Q_ : List Instr} {n : Nat} {s : State} (h0 : Keeps Q_ s) : Keeps Q_ (domainDown n s) := by
  unfold domainDown
  try dsimp only
  with_reducible repeat' (first
    | assumption | apply keeps_removeEntries | apply keeps_modCoh | split
    | (intro _) | dsimp only)

theorem keeps_deadAgent {Q_ : List Instr} {p : Nat} {relink : Bool} {s : State} (h0 : Keeps Q_ s) : Keeps Q_ (deadAgent p relink s) := by
  unfold deadAgent
  try dsimp only
  with_reducible repeat' (first
    | assumption | apply keeps_forAll | apply keeps_dirFree
    | apply keeps_dirPut | apply keeps_modCoh | apply keeps_domainDown
    | apply keeps_markLost | apply keeps_closeSnoops
    | apply keeps_vendorNotice | apply keeps_logEvent | split | (intro _)
    | dsimp only)

theorem keeps_portAbsent {Q_ : List Instr} {p : Nat} {s : State} (h0 : Keeps Q_ s) : Keeps Q_ (portAbsent p s) := by
  unfold portAbsent
  try dsimp only
  with_reducible repeat' (first
    | assumption | apply keeps_modCoh | split | (intro _) | dsimp only)

theorem keeps_absenceEnd {Q_ : List Instr} {p : Nat} {s : State} (h0 : Keeps Q_ s) : Keeps Q_ (absenceEnd p s) := by
  unfold absenceEnd
  try dsimp only
  with_reducible repeat' (first
    | assumption | apply keeps_modCoh | split | (intro _) | dsimp only)

theorem keeps_scanDone {Q_ : List Instr} {p : Nat} {s : State} (h0 : Keeps Q_ s) : Keeps Q_ (scanDone p s) := by
  unfold scanDone
  try dsimp only
  with_reducible repeat' (first
    | assumption | apply keeps_deadAgent | split | (intro _) | dsimp only)

theorem keeps_cohReset {Q_ : List Instr} {n : Nat} {s : State} (h0 : Keeps Q_ s) : Keeps Q_ (cohReset n s) := by
  unfold cohReset
  try dsimp only
  with_reducible repeat' (first
    | assumption | apply keeps_cohSettle | split | (intro _) | dsimp only)

theorem keeps_execAbsenceTimeout {Q_ : List Instr} {p : PortId} {s : State} (h0 : Keeps Q_ s) : ∃ u_, execAbsenceTimeout p s = .next u_ ∧ Keeps Q_ u_ := by
  refine ⟨_, rfl, ?_⟩
  with_reducible repeat' (first
    | assumption | apply keeps_absenceEnd | split | (intro _) | dsimp only)

theorem keeps_execDeadAgentScanDone {Q_ : List Instr} {p : PortId} {s : State} (h0 : Keeps Q_ s) : ∃ u_, execDeadAgentScanDone p s = .next u_ ∧ Keeps Q_ u_ := by
  refine ⟨_, rfl, ?_⟩
  with_reducible repeat' (first
    | assumption | apply keeps_scanDone | split | (intro _) | dsimp only)

end Sys2Proof.Machine
end

