-- ==== Sys2Proof/Laws/KeepsOffload.lean ====
section
/-! SUPPORT. What the operations of Machine/Offload.lean keep: one lemma per operation that answers a state. -/

namespace Sys2Proof.Machine

theorem keeps_modQueue {Q_ : List Instr} {q : Nat} {f : Queue → Queue} {s : State} (h0 : Keeps Q_ s) : Keeps Q_ (modQueue q f s) := by
  unfold modQueue
  try dsimp only
  with_reducible repeat' (first
    | assumption | apply keeps_modJob | split | (intro _) | dsimp only)

theorem keeps_bumpQueue {Q_ : List Instr} {q i : Nat} {s : State} (h0 : Keeps Q_ s) : Keeps Q_ (bumpQueue q i s) := by
  unfold bumpQueue
  try dsimp only
  with_reducible repeat' (first
    | assumption | apply keeps_modQueue | split | (intro _) | dsimp only)

theorem keeps_putJob {Q_ : List Instr} {j : Job} {s : State} (h0 : Keeps Q_ s) : Keeps Q_ (putJob j s) := by
  unfold putJob
  try dsimp only
  with_reducible repeat' (first
    | assumption | apply keeps_modJob | split | (intro _) | dsimp only)

theorem keeps_ctxFree {Q_ : List Instr} {c : Nat} {s : State} (h0 : Keeps Q_ s) : Keeps Q_ (ctxFree c s) := by
  unfold ctxFree
  try dsimp only
  with_reducible repeat' (first
    | assumption | apply keeps_modJob | split | (intro _) | dsimp only)

theorem keeps_queueStop {Q_ : List Instr} {q detail : Nat} {s : State} (h0 : Keeps Q_ s) : Keeps Q_ (queueStop q detail s) := by
  unfold queueStop
  try dsimp only
  with_reducible repeat' (first
    | assumption | apply keeps_putEvent | apply keeps_logEvent
    | apply keeps_modQueue | split | (intro _) | dsimp only)

theorem keeps_queuesDown {Q_ : List Instr} {p : Nat} {s : State} (h0 : Keeps Q_ s) : Keeps Q_ (queuesDown p s) := by
  unfold queuesDown
  try dsimp only
  with_reducible repeat' (first
    | assumption | apply keeps_forAll | apply keeps_modJob
    | apply keeps_ctxFree | apply keeps_cmdEnd | apply keeps_modQueue
    | split | (intro _) | dsimp only)

theorem keeps_queueEnable {Q_ : List Instr} {q : Nat} {s : State} (h0 : Keeps Q_ s) : Keeps Q_ (queueEnable q s) := by
  unfold queueEnable
  try dsimp only
  with_reducible repeat' (first
    | assumption | apply keeps_modQueue | split | (intro _) | dsimp only)

theorem keeps_queueDisable {Q_ : List Instr} {q : Nat} {s : State} (h0 : Keeps Q_ s) : Keeps Q_ (queueDisable q s).1 := by
  unfold queueDisable
  try dsimp only
  with_reducible repeat' (first
    | assumption | apply keeps_modQueue | split | (intro _) | dsimp only)
theorem keeps_queueDisable_eq {Q_ : List Instr} {q : Nat} {s : State} {t_ x_} (e_ : queueDisable q s = (t_, x_)) (h0 : Keeps Q_ s) : Keeps Q_ t_ := by
  have h_ := keeps_queueDisable (Q_ := Q_) (q := q) (s := s) h0
  rw [e_] at h_; exact h_

theorem keeps_queueReset {Q_ : List Instr} {q : Nat} {s : State} (h0 : Keeps Q_ s) : Keeps Q_ (queueReset q s) := by
  unfold queueReset
  try dsimp only
  with_reducible repeat' (first
    | assumption | apply keeps_modQueue | apply keeps_modJob | split
    | (intro _) | dsimp only)

theorem keeps_writeTail {Q_ : List Instr} {p q v : Nat} {s : State} (h0 : Keeps Q_ s) : Keeps Q_ (writeTail p q v s) := by
  unfold writeTail
  try dsimp only
  with_reducible repeat' (first
    | assumption | apply keeps_bumpQueue | apply keeps_queueStop
    | apply keeps_modQueue | split | (intro _) | dsimp only)

theorem keeps_writeHead {Q_ : List Instr} {p q v : Nat} {s : State} (h0 : Keeps Q_ s) : Keeps Q_ (writeHead p q v s) := by
  unfold writeHead
  try dsimp only
  with_reducible repeat' (first
    | assumption | apply keeps_bumpQueue | apply keeps_modQueue | split
    | (intro _) | dsimp only)

theorem keeps_writePage {Q_ : List Instr} {p q off v : Nat} {s : State} (h0 : Keeps Q_ s) : Keeps Q_ (writePage p q off v s) := by
  unfold writePage
  try dsimp only
  with_reducible repeat' (first
    | assumption | apply keeps_writeTail | apply keeps_writeHead
    | apply keeps_bumpQueue | split | (intro _) | dsimp only)

theorem keeps_readPageWord {Q_ : List Instr} {p q off : Nat} {s : State} (h0 : Keeps Q_ s) : Keeps Q_ (readPageWord p q off s) := by
  unfold readPageWord
  try dsimp only
  with_reducible repeat' (first
    | assumption | apply keeps_answerPort | split | (intro _) | dsimp only)

theorem keeps_tokenRefill {Q_ : List Instr} {q : Nat} {s : State} (h0 : Keeps Q_ s) : Keeps Q_ (tokenRefill q s) := by
  unfold tokenRefill
  try dsimp only
  with_reducible repeat' (first
    | assumption | apply keeps_modQueue | split | (intro _) | dsimp only)

theorem keeps_hostWrite {Q_ : List Instr} {q addr : Nat} {bytes : List Byte} {s : State} (h0 : Keeps Q_ s) : Keeps Q_ (hostWrite q addr bytes s) := by
  unfold hostWrite
  try dsimp only
  with_reducible repeat' (first
    | assumption | apply keeps_answerPort | split | (intro _) | dsimp only)

theorem keeps_writeRecord {Q_ : List Instr} {j : Job} {status detail check : Nat} {s : State} (h0 : Keeps Q_ s) : Keeps Q_ (writeRecord j status detail check s) := by
  unfold writeRecord
  try dsimp only
  with_reducible repeat' (first
    | assumption | apply keeps_hostWrite | split | (intro _) | dsimp only)

theorem keeps_jobNotify {Q_ : List Instr} {j : Job} {s : State} (h0 : Keeps Q_ s) : Keeps Q_ (jobNotify j s) := by
  unfold jobNotify
  try dsimp only
  with_reducible repeat' (first
    | assumption | apply keeps_answerPort | split | (intro _) | dsimp only)

theorem keeps_headPasses {Q_ : List Instr} {q : Nat} {s : State} (h0 : Keeps Q_ s) : Keeps Q_ (headPasses q s) := by
  unfold headPasses
  try dsimp only
  with_reducible repeat' (first
    | assumption | apply keeps_modQueue | split | (intro _) | dsimp only)

theorem keeps_jobFetch {Q_ : List Instr} {q : Nat} {desc : Option (BitVec 512)} {src : Option (List (BitVec 128))} {s : State} (h0 : Keeps Q_ s) : Keeps Q_ (jobFetch q desc src s) := by
  unfold jobFetch
  try dsimp only
  with_reducible repeat' (first
    | assumption | apply keeps_queueStop | apply keeps_headPasses
    | apply keeps_jobNotify | apply keeps_writeRecord
    | apply keeps_bumpQueue | apply keeps_modQueue | apply keeps_modJob
    | split | (intro _) | dsimp only)

theorem keeps_jobEnds {Q_ : List Instr} {j : Job} {status detail : Nat} {s : State} (h0 : Keeps Q_ s) : Keeps Q_ (jobEnds j status detail s) := by
  unfold jobEnds
  try dsimp only
  with_reducible repeat' (first
    | assumption | apply keeps_putJob | split | (intro _) | dsimp only)

theorem keeps_ctxRun {Q_ : List Instr} {j : Job} {s : State} (h0 : Keeps Q_ s) : Keeps Q_ (ctxRun j s) := by
  unfold ctxRun
  try dsimp only
  with_reducible repeat' (first
    | assumption | apply keeps_modJob | split | (intro _) | dsimp only)

theorem keeps_jobError {Q_ : List Instr} {j : Job} {t : Stream} {e : Nat × Nat × Nat} {s : State} (h0 : Keeps Q_ s) : Keeps Q_ (jobError j t e s) := by
  unfold jobError
  try dsimp only
  with_reducible repeat' (first
    | assumption | apply keeps_logEvent | apply keeps_afterDraw
    | apply keeps_modComp | split | (intro _) | dsimp only)

theorem keeps_exhaustedError {Q_ : List Instr} {j : Job} {t : Stream} {pos : Nat} {s : State} (h0 : Keeps Q_ s) : Keeps Q_ (exhaustedError j t pos s) := by
  unfold exhaustedError
  try dsimp only
  with_reducible repeat' (first
    | assumption | apply keeps_jobError | split | (intro _) | dsimp only)

theorem keeps_jobWrite {Q_ : List Instr} {j : Job} {t : Stream} {s : State} (h0 : Keeps Q_ s) : Keeps Q_ (jobWrite j t s) := by
  unfold jobWrite
  try dsimp only
  with_reducible repeat' (first
    | assumption | apply keeps_forAll | apply keeps_hostWrite
    | apply keeps_jobEnds | apply keeps_exhaustedError | apply keeps_onlyIf
    | apply keeps_afterDraw | apply keeps_putJob | apply keeps_jobError
    | split | (intro _) | dsimp only)

theorem keeps_withOuts {q : List Instr} {j : Job} {outs : Option (List (BitVec 128))} {s : State} {k : Job → State}
    (hk : ∀ j, Keeps q (k j)) (h : Keeps q s) : Keeps q (withOuts j outs s k) := by
  unfold withOuts
  split
  · exact keeps_jobEnds h
  · split
    · exact h
    · split
      · exact keeps_jobEnds h
      · exact hk _

theorem keeps_engineFails {Q_ : List Instr} {d : Nat} {f : EngineFault} {j : Job} {s : State} (h0 : Keeps Q_ s) : Keeps Q_ (engineFails d f j s).1 := by
  unfold engineFails
  try dsimp only
  with_reducible repeat' (first
    | assumption | apply keeps_jobEnds | apply keeps_afterDraw | split
    | (intro _) | dsimp only)
theorem keeps_engineFails_eq {Q_ : List Instr} {d : Nat} {f : EngineFault} {j : Job} {s : State} {t_ x_} (e_ : engineFails d f j s = (t_, x_)) (h0 : Keeps Q_ s) : Keeps Q_ t_ := by
  have h_ := keeps_engineFails (Q_ := Q_) (d := d) (f := f) (j := j) (s := s) h0
  rw [e_] at h_; exact h_

theorem keeps_jobCompress {Q_ : List Instr} {q i : Nat} {src : Option (List Byte)} {outs : Option (List (BitVec 128))} {bad : Option EngineFault} {s : State} (h0 : Keeps Q_ s) : Keeps Q_ (jobCompress q i src outs bad s).1 := by
  unfold jobCompress
  try dsimp only
  with_reducible repeat' (first
    | assumption | apply keeps_jobEnds | apply keeps_engineFails
    | refine keeps_engineFails_eq (by assumption) ?_ | apply keeps_withOuts
    | apply keeps_useDecompressor | apply keeps_useCompressor
    | apply keeps_onlyIf | apply keeps_storeLoad | apply keeps_jobWrite
    | apply keeps_ctxRun | split | (intro _) | dsimp only)
theorem keeps_jobCompress_eq {Q_ : List Instr} {q i : Nat} {src : Option (List Byte)} {outs : Option (List (BitVec 128))} {bad : Option EngineFault} {s : State} {t_ x_} (e_ : jobCompress q i src outs bad s = (t_, x_)) (h0 : Keeps Q_ s) : Keeps Q_ t_ := by
  have h_ := keeps_jobCompress (Q_ := Q_) (q := q) (i := i) (src := src) (outs := outs) (bad := bad) (s := s) h0
  rw [e_] at h_; exact h_

theorem keeps_frameLoads {Q_ : List Instr} {d n : Nat} {bs : List Byte} {s : State} (h0 : Keeps Q_ s) : Keeps Q_ (frameLoads d n bs s) := by
  unfold frameLoads
  try dsimp only
  with_reducible repeat' (first
    | assumption | apply keeps_onlyIf | apply keeps_storeLoad | split
    | (intro _) | dsimp only)

theorem keeps_maeriStream {q : List Instr} {d n k base i : Nat} {bs : List Byte} {s : State} (h : Keeps q s) :
    Keeps q (maeriStream d n k base i bs s).2.2 := by
  induction k generalizing s base i bs with
  | zero => exact h
  | succ k ih =>
    unfold maeriStream
    split
    · exact h
    · dsimp only
      split
      · exact keeps_frameLoads h
      · exact ih (keeps_frameLoads h)

theorem keeps_decoded {Q_ : List Instr} {fmt d n : Nat} {bs : List Byte} {s : State} (h0 : Keeps Q_ s) : Keeps Q_ (decoded fmt d n bs s).2.2 := by
  unfold decoded
  try dsimp only
  with_reducible repeat' (first
    | assumption | apply keeps_maeriStream
    | refine keeps_maeriStream_eq (by assumption) ?_ | split | (intro _)
    | dsimp only)
theorem keeps_decoded_eq {Q_ : List Instr} {fmt d n : Nat} {bs : List Byte} {s : State} {t_ x_ y_} (e_ : decoded fmt d n bs s = (x_, y_, t_)) (h0 : Keeps Q_ s) : Keeps Q_ t_ := by
  have h_ := keeps_decoded (Q_ := Q_) (fmt := fmt) (d := d) (n := n) (bs := bs) (s := s) h0
  rw [e_] at h_; exact h_

theorem keeps_jobDecompress {Q_ : List Instr} {q i : Nat} {src : Option (List Byte)} {outs : Option (List (BitVec 128))} {bad : Bool} {s : State} (h0 : Keeps Q_ s) : Keeps Q_ (jobDecompress q i src outs bad s).1 := by
  unfold jobDecompress
  try dsimp only
  with_reducible repeat' (first
    | assumption | apply keeps_jobEnds | apply keeps_engineFails
    | refine keeps_engineFails_eq (by assumption) ?_ | apply keeps_withOuts
    | apply keeps_decoded | refine keeps_decoded_eq (by assumption) ?_
    | apply keeps_jobWrite | apply keeps_useDecompressor
    | apply keeps_ctxRun | split | (intro _) | dsimp only)
theorem keeps_jobDecompress_eq {Q_ : List Instr} {q i : Nat} {src : Option (List Byte)} {outs : Option (List (BitVec 128))} {bad : Bool} {s : State} {t_ x_} (e_ : jobDecompress q i src outs bad s = (t_, x_)) (h0 : Keeps Q_ s) : Keeps Q_ t_ := by
  have h_ := keeps_jobDecompress (Q_ := Q_) (q := q) (i := i) (src := src) (outs := outs) (bad := bad) (s := s) h0
  rw [e_] at h_; exact h_

theorem keeps_jobExport {Q_ : List Instr} {q i : Nat} {outs : Option (List (BitVec 128))} {s : State} (h0 : Keeps Q_ s) : Keeps Q_ (jobExport q i outs s) := by
  unfold jobExport
  try dsimp only
  with_reducible repeat' (first
    | assumption | apply keeps_jobEnds | apply keeps_withOuts
    | apply keeps_putJob | apply keeps_ctxRun | split | (intro _)
    | dsimp only)

theorem keeps_jobExportDict {Q_ : List Instr} {q i : Nat} {outs : Option (List (BitVec 128))} {s : State} (h0 : Keeps Q_ s) : Keeps Q_ (jobExportDict q i outs s) := by
  unfold jobExportDict
  try dsimp only
  with_reducible repeat' (first
    | assumption | apply keeps_jobEnds | apply keeps_storeLoad
    | apply keeps_withOuts | apply keeps_jobWrite | apply keeps_ctxRun
    | split | (intro _) | dsimp only)

theorem keeps_pageRecord {Q_ : List Instr} {n p level : Nat} {s : State} (h0 : Keeps Q_ s) : Keeps Q_ (pageRecord n p level s).2 := by
  unfold pageRecord
  try dsimp only
  with_reducible repeat' (first
    | assumption | refine keeps_checkedDesc (by assumption) ?_
    | apply keeps_settlePage | apply keeps_packedRead
    | refine keeps_packedRead_eq (by assumption) ?_ | apply keeps_readPage
    | refine keeps_readPage_eq (by assumption) ?_
    | apply keeps_useDecompressor | apply keeps_useCompressor
    | apply keeps_onlyIf | apply keeps_storeLoad | apply keeps_foldl
    | apply keeps_foldl_fst | apply keeps_foldl_snd
    | apply keeps_foldl_snd_snd | split | (intro _) | dsimp only)
theorem keeps_pageRecord_eq {Q_ : List Instr} {n p level : Nat} {s : State} {t_ x_} (e_ : pageRecord n p level s = (x_, t_)) (h0 : Keeps Q_ s) : Keeps Q_ t_ := by
  have h_ := keeps_pageRecord (Q_ := Q_) (n := n) (p := p) (level := level) (s := s) h0
  rw [e_] at h_; exact h_

theorem keeps_exportPage {Q_ : List Instr} {q i p : Nat} {bad : Option EngineFault} {s : State} (h0 : Keeps Q_ s) : Keeps Q_ (exportPage q i p bad s).1 := by
  unfold exportPage
  try dsimp only
  with_reducible repeat' (first
    | assumption | apply keeps_jobEnds | apply keeps_snoopPageNow
    | apply keeps_putJob | apply keeps_engineFails
    | refine keeps_engineFails_eq (by assumption) ?_
    | apply keeps_pageRecord | refine keeps_pageRecord_eq (by assumption) ?_
    | apply keeps_sampleHome | split | (intro _) | dsimp only)
theorem keeps_exportPage_eq {Q_ : List Instr} {q i p : Nat} {bad : Option EngineFault} {s : State} {t_ x_} (e_ : exportPage q i p bad s = (t_, x_)) (h0 : Keeps Q_ s) : Keeps Q_ t_ := by
  have h_ := keeps_exportPage (Q_ := Q_) (q := q) (i := i) (p := p) (bad := bad) (s := s) h0
  rw [e_] at h_; exact h_

theorem keeps_exportArrive {Q_ : List Instr} {q i p : Nat} {s : State} (h0 : Keeps Q_ s) : Keeps Q_ (exportArrive q i p s) := by
  unfold exportArrive
  try dsimp only
  with_reducible repeat' (first
    | assumption | apply keeps_jobEnds | apply keeps_putJob
    | apply keeps_jobWrite | split | (intro _) | dsimp only)

theorem keeps_jobResume {Q_ : List Instr} {q i : Nat} {area : Option (List Byte)} {outs : Option (List (BitVec 128))} {s : State} (h0 : Keeps Q_ s) : Keeps Q_ (jobResume q i area outs s) := by
  unfold jobResume
  try dsimp only
  with_reducible repeat' (first
    | assumption | apply keeps_ctxRun | apply keeps_jobEnds
    | apply keeps_withOuts | apply keeps_putJob | apply keeps_jobWrite
    | split | (intro _) | dsimp only)

theorem keeps_jobRelease {Q_ : List Instr} {q i : Nat} {s : State} (h0 : Keeps Q_ s) : Keeps Q_ (jobRelease q i s) := by
  unfold jobRelease
  try dsimp only
  with_reducible repeat' (first
    | assumption | apply keeps_jobEnds | apply keeps_ctxFree | split
    | (intro _) | dsimp only)

theorem keeps_jobComplete {Q_ : List Instr} {q i : Nat} {s : State} (h0 : Keeps Q_ s) : Keeps Q_ (jobComplete q i s) := by
  unfold jobComplete
  try dsimp only
  with_reducible repeat' (first
    | assumption | apply keeps_afterDraw | apply keeps_modJob
    | apply keeps_hostWrite | apply keeps_ctxFree | apply keeps_jobNotify
    | apply keeps_writeRecord | apply keeps_bumpQueue | apply keeps_cmdEnd
    | apply keeps_modQueue | split | (intro _) | dsimp only)

theorem keeps_exportsEnd {Q_ : List Instr} {n : Nat} {s : State} (h0 : Keeps Q_ s) : Keeps Q_ (exportsEnd n s) := by
  unfold exportsEnd
  try dsimp only
  with_reducible repeat' (first
    | assumption | apply keeps_modJob | split | (intro _) | dsimp only)

theorem keeps_offloadAtExit {Q_ : List Instr} {s : State} (h0 : Keeps Q_ s) : Keeps Q_ (offloadAtExit s) := by
  unfold offloadAtExit
  try dsimp only
  with_reducible repeat' (first
    | assumption | apply keeps_forAll | apply keeps_cmdEnd
    | apply keeps_modJob | split | (intro _) | dsimp only)

theorem keeps_execCqHead {Q_ : List Instr} {p : PortId} {q : QueueId} {v : BitVec 32} {s : State} (h0 : Keeps Q_ s) : ∃ u_, execCqHead p q v s = .next u_ ∧ Keeps Q_ u_ := by
  refine ⟨_, rfl, ?_⟩
  with_reducible repeat' (first
    | assumption | apply keeps_writeHead | split | (intro _) | dsimp only)

theorem keeps_execJobFetch {Q_ : List Instr} {q : QueueId} {desc : Option (BitVec 512)} {src : Option (List (BitVec 128))} {s : State} (h0 : Keeps Q_ s) : ∃ u_, execJobFetch q desc src s = .next u_ ∧ Keeps Q_ u_ := by
  refine ⟨_, rfl, ?_⟩
  with_reducible repeat' (first
    | assumption | apply keeps_jobFetch | split | (intro _) | dsimp only)

theorem keeps_execTokenRefill {Q_ : List Instr} {q : QueueId} {s : State} (h0 : Keeps Q_ s) : ∃ u_, execTokenRefill q s = .next u_ ∧ Keeps Q_ u_ := by
  refine ⟨_, rfl, ?_⟩
  with_reducible repeat' (first
    | assumption | apply keeps_tokenRefill | split | (intro _) | dsimp only)

theorem keeps_execExportJob {Q_ : List Instr} {q : QueueId} {i : Fin 4096} {outs : Option (List (BitVec 128))} {s : State} (h0 : Keeps Q_ s) : ∃ u_, execExportJob q i outs s = .next u_ ∧ Keeps Q_ u_ := by
  refine ⟨_, rfl, ?_⟩
  with_reducible repeat' (first
    | assumption | apply keeps_jobExport | split | (intro _) | dsimp only)

theorem keeps_execExportDict {Q_ : List Instr} {q : QueueId} {i : Fin 4096} {outs : Option (List (BitVec 128))} {s : State} (h0 : Keeps Q_ s) : ∃ u_, execExportDict q i outs s = .next u_ ∧ Keeps Q_ u_ := by
  refine ⟨_, rfl, ?_⟩
  with_reducible repeat' (first
    | assumption | apply keeps_jobExportDict | split | (intro _)
    | dsimp only)

theorem keeps_execResume {Q_ : List Instr} {q : QueueId} {i : Fin 4096} {area : Option (List Byte)} {outs : Option (List (BitVec 128))} {s : State} (h0 : Keeps Q_ s) : ∃ u_, execResume q i area outs s = .next u_ ∧ Keeps Q_ u_ := by
  refine ⟨_, rfl, ?_⟩
  with_reducible repeat' (first
    | assumption | apply keeps_jobResume | split | (intro _) | dsimp only)

theorem keeps_execReleaseCtx {Q_ : List Instr} {q : QueueId} {i : Fin 4096} {s : State} (h0 : Keeps Q_ s) : ∃ u_, execReleaseCtx q i s = .next u_ ∧ Keeps Q_ u_ := by
  refine ⟨_, rfl, ?_⟩
  with_reducible repeat' (first
    | assumption | apply keeps_jobRelease | split | (intro _) | dsimp only)

theorem keeps_execExportRecordArrive {Q_ : List Instr} {q : QueueId} {i : Fin 4096} {page : BitVec 34} {s : State} (h0 : Keeps Q_ s) : ∃ u_, execExportRecordArrive q i page s = .next u_ ∧ Keeps Q_ u_ := by
  refine ⟨_, rfl, ?_⟩
  with_reducible repeat' (first
    | assumption | apply keeps_exportArrive | split | (intro _) | dsimp only)

theorem keeps_execJobComplete {Q_ : List Instr} {q : QueueId} {i : Fin 4096} {s : State} (h0 : Keeps Q_ s) : ∃ u_, execJobComplete q i s = .next u_ ∧ Keeps Q_ u_ := by
  refine ⟨_, rfl, ?_⟩
  with_reducible repeat' (first
    | assumption | apply keeps_jobComplete | split | (intro _) | dsimp only)

end Sys2Proof.Machine
end

