-- ==== Sys2Proof/Laws/KeepsPorts.lean ====
section
/-! SUPPORT. What the operations of Machine/Ports.lean keep: one lemma per operation that answers a state. -/

namespace Sys2Proof.Machine

theorem keeps_roleApplied {Q_ : List Instr} {p old : Nat} {s : State} (h0 : Keeps Q_ s) : Keeps Q_ (roleApplied p old s) := by
  unfold roleApplied
  try dsimp only
  with_reducible repeat' (first
    | assumption | apply keeps_modPortAt | apply keeps_modSw | split
    | (intro _) | dsimp only)

theorem keeps_vppbTell {Q_ : List Instr} {v b what : Nat} {s : State} (h0 : Keeps Q_ s) : Keeps Q_ (vppbTell v b what s) := by
  unfold vppbTell
  try dsimp only
  with_reducible repeat' (first
    | assumption | apply keeps_answerPort | split | (intro _) | dsimp only)

theorem keeps_bindStart {Q_ : List Instr} {v b t : Nat} {s : State} (h0 : Keeps Q_ s) : Keeps Q_ (bindStart v b t s) := by
  unfold bindStart
  try dsimp only
  with_reducible repeat' (first
    | assumption | apply keeps_onlyIf | apply keeps_vppbTell
    | apply keeps_modSw | split | (intro _) | dsimp only)

theorem keeps_unbindNow {Q_ : List Instr} {v b : Nat} {s : State} (h0 : Keeps Q_ s) : Keeps Q_ (unbindNow v b s) := by
  unfold unbindNow
  try dsimp only
  with_reducible repeat' (first
    | assumption | apply keeps_vppbTell | apply keeps_modSw | split
    | (intro _) | dsimp only)

theorem keeps_dspTrafficEnds {Q_ : List Instr} {p : Nat} {s : State} (h0 : Keeps Q_ s) : Keeps Q_ (dspTrafficEnds p s) := by
  unfold dspTrafficEnds
  try dsimp only
  with_reducible repeat' (first
    | assumption | apply keeps_modSw | apply keeps_flushEgress
    | apply keeps_forAll | apply keeps_answerPort | apply keeps_onlyIf
    | apply keeps_modPortAt | apply keeps_putEvent | apply keeps_vppbTell
    | apply keeps_logEvent | split | (intro _) | dsimp only)

theorem keeps_linkGone {Q_ : List Instr} {p : Nat} {s : State} (h0 : Keeps Q_ s) : Keeps Q_ (linkGone p s) := by
  unfold linkGone
  try dsimp only
  with_reducible repeat' (first
    | assumption | apply keeps_gbDie | apply keeps_ideClear
    | apply keeps_modPortAt | split | (intro _) | dsimp only)

theorem keeps_armedTake {Q_ : List Instr} {p : Nat} {s : State} (h0 : Keeps Q_ s) : Keeps Q_ (armedTake p s) := by
  unfold armedTake
  try dsimp only
  with_reducible repeat' (first
    | assumption | apply keeps_forAll | apply keeps_unbindNow | split
    | (intro _) | dsimp only)

theorem keeps_portGoesDown {Q_ : List Instr} {p : Nat} {s : State} (h0 : Keeps Q_ s) : Keeps Q_ (portGoesDown p s) := by
  unfold portGoesDown
  try dsimp only
  with_reducible repeat' (first
    | assumption | apply keeps_modPortAt | apply keeps_linkGone
    | apply keeps_queuesDown | apply keeps_portAbsent
    | apply keeps_flushEgress | apply keeps_modSw | apply keeps_armedTake
    | apply keeps_dspTrafficEnds | apply keeps_recomputeD | split
    | (intro _) | dsimp only)

theorem keeps_linkUp {Q_ : List Instr} {p width rate : Nat} {s : State} (h0 : Keeps Q_ s) : Keeps Q_ (linkUp p width rate s) := by
  unfold linkUp
  try dsimp only
  with_reducible repeat' (first
    | assumption | apply keeps_recomputeD | apply keeps_modPortAt
    | apply keeps_portVotesRun | apply keeps_deadAgent
    | apply keeps_vppbTell | split | (intro _) | dsimp only)

theorem keeps_viewReset {Q_ : List Instr} {v : Nat} {s : State} (h0 : Keeps Q_ s) : Keeps Q_ (viewReset v s) := by
  unfold viewReset
  try dsimp only
  with_reducible repeat' (first
    | assumption | apply keeps_queuesDown | apply keeps_modPortAt | split
    | (intro _) | dsimp only)

theorem keeps_hostReset {Q_ : List Instr} {p : Nat} {s : State} (h0 : Keeps Q_ s) : Keeps Q_ (hostReset p s) := by
  unfold hostReset
  try dsimp only
  with_reducible repeat' (first
    | assumption | apply keeps_viewReset | apply keeps_modPortAt
    | apply keeps_portGoesDown | apply keeps_forAll | split | (intro _)
    | dsimp only)

theorem keeps_busReset {Q_ : List Instr} {v b : Nat} {s : State} (h0 : Keeps Q_ s) : Keeps Q_ (busReset v b s) := by
  unfold busReset
  try dsimp only
  with_reducible repeat' (first
    | assumption | apply keeps_portGoesDown | apply keeps_viewReset | split
    | (intro _) | dsimp only)

theorem keeps_portDisable {Q_ : List Instr} {p : Nat} {s : State} (h0 : Keeps Q_ s) : Keeps Q_ (portDisable p s) := by
  unfold portDisable
  try dsimp only
  with_reducible repeat' (first
    | assumption | apply keeps_modPortAt | apply keeps_portGoesDown | split
    | (intro _) | dsimp only)

theorem keeps_portTrain {Q_ : List Instr} {p : Nat} {s : State} (h0 : Keeps Q_ s) : Keeps Q_ (portTrain p s) := by
  unfold portTrain
  try dsimp only
  with_reducible repeat' (first
    | assumption | apply keeps_modPortAt | apply keeps_portVotesRun | split
    | (intro _) | dsimp only)

theorem keeps_portsHeld {Q_ : List Instr} {s : State} (h0 : Keeps Q_ s) : Keeps Q_ (portsHeld s) := by
  unfold portsHeld
  try dsimp only
  with_reducible repeat' (first
    | assumption | apply keeps_onlyIf | apply keeps_forAll
    | apply keeps_portDisable | split | (intro _) | dsimp only)

theorem keeps_portsStart {Q_ : List Instr} {l : List Nat} {s : State} (h0 : Keeps Q_ s) : Keeps Q_ (portsStart l s) := by
  unfold portsStart
  try dsimp only
  with_reducible repeat' (first
    | assumption | apply keeps_portsHeld | apply keeps_forAll
    | apply keeps_portTrain | apply keeps_afterDraw | apply keeps_modPortAt
    | split | (intro _) | dsimp only)

theorem keeps_portsRetrain {Q_ : List Instr} {s : State} (h0 : Keeps Q_ s) : Keeps Q_ (portsRetrain s) := by
  unfold portsRetrain
  try dsimp only
  with_reducible repeat' (first
    | assumption | apply keeps_onlyIf | apply keeps_forAll
    | apply keeps_portTrain | split | (intro _) | dsimp only)

theorem keeps_portRetrain {Q_ : List Instr} {p : Nat} {s : State} (h0 : Keeps Q_ s) : Keeps Q_ (portRetrain p s) := by
  unfold portRetrain
  try dsimp only
  with_reducible repeat' (first
    | assumption | apply keeps_gbDie | apply keeps_modPortAt | split
    | (intro _) | dsimp only)

theorem keeps_portCmd {Q_ : List Instr} {p code : Nat} {s : State} (h0 : Keeps Q_ s) : Keeps Q_ (portCmd p code s) := by
  unfold portCmd
  try dsimp only
  with_reducible repeat' (first
    | assumption | apply keeps_portDisable | apply keeps_portTrain
    | apply keeps_portRetrain | apply keeps_portGoesDown | apply keeps_emit
    | apply keeps_modPortAt | split | (intro _) | dsimp only)

theorem keeps_unbindStart {Q_ : List Instr} {code v b : Nat} {s : State} (h0 : Keeps Q_ s) : Keeps Q_ (unbindStart code v b s) := by
  unfold unbindStart
  try dsimp only
  with_reducible repeat' (first
    | assumption | apply keeps_unbindNow | apply keeps_dspTrafficEnds
    | apply keeps_modSw | apply keeps_vppbTell | split | (intro _)
    | dsimp only)

theorem keeps_slotPower {Q_ : List Instr} {v b : Nat} {s : State} (h0 : Keeps Q_ s) : Keeps Q_ (slotPower v b s) := by
  unfold slotPower
  try dsimp only
  with_reducible repeat' (first
    | assumption | apply keeps_unbindNow | split | (intro _) | dsimp only)

theorem keeps_biTimeout {Q_ : List Instr} {p : Nat} {s : State} (h0 : Keeps Q_ s) : Keeps Q_ (biTimeout p s) := by
  unfold biTimeout
  try dsimp only
  with_reducible repeat' (first
    | assumption | apply keeps_portGoesDown | apply keeps_logEvent
    | apply keeps_bumpCoh | split | (intro _) | dsimp only)

theorem keeps_ideFail {Q_ : List Instr} {p i : Nat} {s : State} (h0 : Keeps Q_ s) : Keeps Q_ (ideFail p i s) := by
  unfold ideFail
  try dsimp only
  with_reducible repeat' (first
    | assumption | apply keeps_portGoesDown | apply keeps_modPortAt
    | apply keeps_ideInsecure | split | (intro _) | dsimp only)

theorem keeps_execLinkUp {Q_ : List Instr} {p : PortId} {width : Fin 17} {rate : Fin 7} {s : State} (h0 : Keeps Q_ s) : ∃ u_, execLinkUp p width rate s = .next u_ ∧ Keeps Q_ u_ := by
  refine ⟨_, rfl, ?_⟩
  with_reducible repeat' (first
    | assumption | apply keeps_linkUp | split | (intro _) | dsimp only)

theorem keeps_execLinkDown {Q_ : List Instr} {p : PortId} {s : State} (h0 : Keeps Q_ s) : ∃ u_, execLinkDown p s = .next u_ ∧ Keeps Q_ u_ := by
  refine ⟨_, rfl, ?_⟩
  with_reducible repeat' (first
    | assumption | apply keeps_portGoesDown | split | (intro _) | dsimp only)

theorem keeps_execHostHotReset {Q_ : List Instr} {p : PortId} {s : State} (h0 : Keeps Q_ s) : ∃ u_, execHostHotReset p s = .next u_ ∧ Keeps Q_ u_ := by
  refine ⟨_, rfl, ?_⟩
  with_reducible repeat' (first
    | assumption | apply keeps_hostReset | split | (intro _) | dsimp only)

theorem keeps_execSecondaryBusReset {Q_ : List Instr} {v : PortId} {b : Fin 32} {s : State} (h0 : Keeps Q_ s) : ∃ u_, execSecondaryBusReset v b s = .next u_ ∧ Keeps Q_ u_ := by
  refine ⟨_, rfl, ?_⟩
  with_reducible repeat' (first
    | assumption | apply keeps_busReset | split | (intro _) | dsimp only)

theorem keeps_execFlr {Q_ : List Instr} {p : PortId} {s : State} (h0 : Keeps Q_ s) : ∃ u_, execFlr p s = .next u_ ∧ Keeps Q_ u_ := by
  refine ⟨_, rfl, ?_⟩
  with_reducible repeat' (first
    | assumption | apply keeps_viewReset | split | (intro _) | dsimp only)

theorem keeps_execPortPerstN {Q_ : List Instr} {p : PortId} {s : State} (h0 : Keeps Q_ s) : ∃ u_, execPortPerstN p s = .next u_ ∧ Keeps Q_ u_ := by
  refine ⟨_, rfl, ?_⟩
  with_reducible repeat' (first
    | assumption | apply keeps_hostReset | split | (intro _) | dsimp only)

theorem keeps_execSlotPowerOff {Q_ : List Instr} {v : PortId} {b : Fin 32} {s : State} (h0 : Keeps Q_ s) : ∃ u_, execSlotPowerOff v b s = .next u_ ∧ Keeps Q_ u_ := by
  refine ⟨_, rfl, ?_⟩
  with_reducible repeat' (first
    | assumption | apply keeps_slotPower | split | (intro _) | dsimp only)

theorem keeps_execBiTimeout {Q_ : List Instr} {p : PortId} {s : State} (h0 : Keeps Q_ s) : ∃ u_, execBiTimeout p s = .next u_ ∧ Keeps Q_ u_ := by
  refine ⟨_, rfl, ?_⟩
  with_reducible repeat' (first
    | assumption | apply keeps_biTimeout | split | (intro _) | dsimp only)

theorem keeps_execIdeCheckFail {Q_ : List Instr} {p : PortId} {i : Fin 9} {s : State} (h0 : Keeps Q_ s) : ∃ u_, execIdeCheckFail p i s = .next u_ ∧ Keeps Q_ u_ := by
  refine ⟨_, rfl, ?_⟩
  with_reducible repeat' (first
    | assumption | apply keeps_ideFail | split | (intro _) | dsimp only)

end Sys2Proof.Machine
end

