-- ==== Sys2Proof/Laws/KeepsRails.lean ====
section
/-! SUPPORT. What the operations of Machine/Rails.lean keep: one lemma per operation that answers a state. -/

namespace Sys2Proof.Machine

theorem keeps_voutSet {Q_ : List Instr} {d : Nat} {s : State} (h0 : Keeps Q_ s) : Keeps Q_ (voutSet d s) := by
  unfold voutSet
  try dsimp only
  with_reducible repeat' (first
    | assumption | apply keeps_emit | split | (intro _) | dsimp only)

theorem keeps_enableGroup {Q_ : List Instr} {step : Nat} {s : State} (h0 : Keeps Q_ s) : Keeps Q_ (enableGroup step s) := by
  unfold enableGroup
  try dsimp only
  with_reducible repeat' (first
    | assumption | apply keeps_forAll | apply keeps_voutSet
    | apply keeps_modSl | apply keeps_foldl | apply keeps_foldl_fst
    | apply keeps_foldl_snd | apply keeps_foldl_snd_snd | split | (intro _)
    | dsimp only)

theorem keeps_advanceRails {q : List Instr} {k : Nat} {s : State} (h : Keeps q s) :
    Keeps q (advanceRails k s) := by
  induction k generalizing s with
  | zero => exact h
  | succ k ih =>
    unfold advanceRails
    split
    · exact ih (keeps_enableGroup h)
    · exact h

theorem keeps_startRails {Q_ : List Instr} {w : RailsFor} {s : State} (h0 : Keeps Q_ s) : Keeps Q_ (startRails w s) := by
  unfold startRails
  try dsimp only
  with_reducible repeat' (first
    | assumption | apply keeps_advanceRails | apply keeps_enableGroup
    | apply keeps_modSl | split | (intro _) | dsimp only)

theorem keeps_railGood {Q_ : List Instr} {r : Nat} {s : State} (h0 : Keeps Q_ s) : Keeps Q_ (railGood r s) := by
  unfold railGood
  try dsimp only
  with_reducible repeat' (first
    | assumption | apply keeps_advanceRails | apply keeps_modSl | split
    | (intro _) | dsimp only)

theorem keeps_railsOfDieFall {Q_ : List Instr} {d : Nat} {s : State} (h0 : Keeps Q_ s) : Keeps Q_ (railsOfDieFall d s) := by
  unfold railsOfDieFall
  try dsimp only
  with_reducible repeat' (first
    | assumption | apply keeps_modSl | apply keeps_foldl
    | apply keeps_foldl_fst | apply keeps_foldl_snd
    | apply keeps_foldl_snd_snd | split | (intro _) | dsimp only)

theorem keeps_allRailsFall {Q_ : List Instr} {keepVddq : Bool} {s : State} (h0 : Keeps Q_ s) : Keeps Q_ (allRailsFall keepVddq s) := by
  unfold allRailsFall
  try dsimp only
  with_reducible repeat' (first
    | assumption | apply keeps_modSl | split | (intro _) | dsimp only)

theorem keeps_thermWarn {Q_ : List Instr} {s : State} (h0 : Keeps Q_ s) : Keeps Q_ (thermWarn s) := by
  unfold thermWarn
  try dsimp only
  with_reducible repeat' (first
    | assumption | apply keeps_modSl | split | (intro _) | dsimp only)

theorem keeps_sensorRead {Q_ : List Instr} {d : Nat} {t : Int} {s : State} (h0 : Keeps Q_ s) : Keeps Q_ (sensorRead d t s) := by
  unfold sensorRead
  try dsimp only
  with_reducible repeat' (first
    | assumption | apply keeps_thermWarn | apply keeps_modSl | split
    | (intro _) | dsimp only)

theorem keeps_thermalShutdown {Q_ : List Instr} {d : Nat} {s : State} (h0 : Keeps Q_ s) : Keeps Q_ (thermalShutdown d s) := by
  unfold thermalShutdown
  try dsimp only
  with_reducible repeat' (first
    | assumption | apply keeps_modSl | apply keeps_logPlain
    | apply keeps_diesLost | apply keeps_openAllBranches
    | apply keeps_allRailsFall | split | (intro _) | dsimp only)

theorem keeps_thermalRecovery {Q_ : List Instr} {s : State} (h0 : Keeps Q_ s) : Keeps Q_ (thermalRecovery s) := by
  unfold thermalRecovery
  try dsimp only
  with_reducible repeat' (first
    | assumption | apply keeps_modSl | apply keeps_startRails | split
    | (intro _) | dsimp only)

theorem keeps_execJunctionSensorRead {Q_ : List Instr} {d : DieId} {t0 t1 t2 t3 : BitVec 32} {s : State} (h0 : Keeps Q_ s) : ∃ u_, execJunctionSensorRead d t0 t1 t2 t3 s = .next u_ ∧ Keeps Q_ u_ := by
  refine ⟨_, rfl, ?_⟩
  with_reducible repeat' (first
    | assumption | apply keeps_sensorRead | split | (intro _) | dsimp only)

theorem keeps_execThermalShutdown {Q_ : List Instr} {d : DieId} {s : State} (h0 : Keeps Q_ s) : ∃ u_, execThermalShutdown d s = .next u_ ∧ Keeps Q_ u_ := by
  refine ⟨_, rfl, ?_⟩
  with_reducible repeat' (first
    | assumption | apply keeps_thermalShutdown | split | (intro _)
    | dsimp only)

end Sys2Proof.Machine
end

