-- ==== Sys2Proof/Laws/KeepsExtents.lean ====
section
/-! SUPPORT. What the operations of Machine/Extents.lean keep: one lemma per operation that answers a state. -/

namespace Sys2Proof.Machine

theorem keeps_modExt {Q_ : List Instr} {p : Nat} {f : List Extent → List Extent} {s : State} (h0 : Keeps Q_ s) : Keeps Q_ (modExt p f s) := by
  unfold modExt
  try dsimp only
  with_reducible repeat' (first
    | assumption | apply keeps_modLod | split | (intro _) | dsimp only)

theorem keeps_offer {Q_ : List Instr} {p n : Nat} {run : Nat × Nat} {s : State} {t_} (e_ : offer p n run s = some t_) (h0 : Keeps Q_ s) : Keeps Q_ t_ := by
  unfold offer at e_
  try dsimp only at e_
  repeat' (first
    | simp only [Option.some.injEq, reduceCtorEq] at e_
    | split at e_)
  all_goals obtain rfl := e_
  all_goals with_reducible repeat' (first
    | assumption | apply keeps_forAll | apply keeps_putEvent
    | apply keeps_modExt | split | (intro _) | dsimp only)

theorem keeps_offerAll {q : List Instr} {n : Nat} {l : List (Nat × Nat × Nat)} {s t : State}
    (e : offerAll n l s = some t) (h : Keeps q s) : Keeps q t := by
  induction l generalizing s with
  | nil =>
    simp only [offerAll, Option.some.injEq] at e
    exact e ▸ h
  | cons a l ih =>
    unfold offerAll at e
    split at e
    · simp only [reduceCtorEq] at e
    · rename_i u hu
      exact ih e (keeps_offer hu h)

theorem keeps_offerEach {Q_ : List Instr} {n : Nat} {l : List (Nat × Nat × Nat)} {s : State} (h0 : Keeps Q_ s) : Keeps Q_ (offerEach n l s) := by
  unfold offerEach
  try dsimp only
  with_reducible repeat' (first
    | assumption | apply keeps_forAll
    | refine keeps_offer (by assumption) ?_ | refine keeps_getD ?_ ?_
    | split | (intro _) | dsimp only)

theorem keeps_withPrepared {Q_ : List Instr} {test : Nat → Bool} {s : State} (h0 : Keeps Q_ s) : Keeps Q_ (withPrepared test s) := by
  unfold withPrepared
  try dsimp only
  with_reducible repeat' (first
    | assumption | apply keeps_forAll | apply keeps_offerEach | split
    | (intro _) | dsimp only)

theorem keeps_stalledDropped {Q_ : List Instr} {p : Nat} {e : Extent} {s : State} (h0 : Keeps Q_ s) : Keeps Q_ (stalledDropped p e s) := by
  unfold stalledDropped
  try dsimp only
  with_reducible repeat' (first
    | assumption | apply keeps_forAll | apply keeps_homeSettle
    | apply keeps_answerVoid | apply keeps_modCoh | split | (intro _)
    | dsimp only)

theorem keeps_extentOut {Q_ : List Instr} {p : Nat} {e : Extent} {s : State} (h0 : Keeps Q_ s) : Keeps Q_ (extentOut p e s) := by
  unfold extentOut
  try dsimp only
  with_reducible repeat' (first
    | assumption | apply keeps_modLod | apply keeps_modExt
    | apply keeps_stalledDropped | apply keeps_onlyIf | apply keeps_modLodge
    | split | (intro _) | dsimp only)

theorem keeps_pageEmptied {Q_ : List Instr} {n p : Nat} {tgt : PageState} {s : State} (h0 : Keeps Q_ s) : Keeps Q_ (pageEmptied n p tgt s) := by
  unfold pageEmptied
  try dsimp only
  with_reducible repeat' (first
    | assumption | apply keeps_unlockPage | apply keeps_settlePage
    | apply keeps_setDesc | apply keeps_fireWatch | apply keeps_freePage
    | apply keeps_leaveDict | split | (intro _) | dsimp only)

theorem keeps_granuleUnmap {Q_ : List Instr} {n g : Nat} {s : State} (h0 : Keeps Q_ s) : Keeps Q_ (granuleUnmap n g s) := by
  unfold granuleUnmap
  try dsimp only
  with_reducible repeat' (first
    | assumption | apply keeps_forAll | apply keeps_pageEmptied
    | apply keeps_modProt | apply keeps_foldl | apply keeps_foldl_fst
    | apply keeps_foldl_snd | apply keeps_foldl_snd_snd | split | (intro _)
    | dsimp only)

theorem keeps_granuleZero {Q_ : List Instr} {n g m : Nat} {s : State} (h0 : Keeps Q_ s) : Keeps Q_ (granuleZero n g m s) := by
  unfold granuleZero
  try dsimp only
  with_reducible repeat' (first
    | assumption | apply keeps_modProt | apply keeps_forAll
    | apply keeps_setDesc | apply keeps_foldl | apply keeps_foldl_fst
    | apply keeps_foldl_snd | apply keeps_foldl_snd_snd | split | (intro _)
    | dsimp only)

theorem keeps_drainDone {Q_ : List Instr} {p : Nat} {s : State} (h0 : Keeps Q_ s) : Keeps Q_ (drainDone p s) := by
  unfold drainDone
  try dsimp only
  with_reducible repeat' (first
    | assumption | apply keeps_stalledDropped | apply keeps_modLod
    | apply keeps_removeEntries | apply keeps_forAll
    | apply keeps_granuleUnmap | split | (intro _) | dsimp only)

theorem keeps_mailboxReply {Q_ : List Instr} {p code : Nat} {payload : List Byte} {s : State} (h0 : Keeps Q_ s) : Keeps Q_ (mailboxReply p code payload s) := by
  unfold mailboxReply
  try dsimp only
  with_reducible repeat' (first
    | assumption | apply keeps_emit | split | (intro _) | dsimp only)

theorem keeps_capacityResponse {Q_ : List Instr} {p : Nat} {l : List (Nat × Nat)} {s : State} (h0 : Keeps Q_ s) : Keeps Q_ (capacityResponse p l s) := by
  unfold capacityResponse
  try dsimp only
  with_reducible repeat' (first
    | assumption | apply keeps_mailboxReply | apply keeps_modExt
    | apply keeps_forAll | apply keeps_modLodge | split | (intro _)
    | dsimp only)

theorem keeps_releaseNow {Q_ : List Instr} {p dpa len : Nat} {s : State} (h0 : Keeps Q_ s) : Keeps Q_ (releaseNow p dpa len s) := by
  unfold releaseNow
  try dsimp only
  with_reducible repeat' (first
    | assumption | apply keeps_extentOut | apply keeps_modExt | split
    | (intro _) | dsimp only)

theorem keeps_capacityRelease {Q_ : List Instr} {p : Nat} {l : List (Nat × Nat)} {s : State} (h0 : Keeps Q_ s) : Keeps Q_ (capacityRelease p l s) := by
  unfold capacityRelease
  try dsimp only
  with_reducible repeat' (first
    | assumption | apply keeps_mailboxReply | apply keeps_forAll
    | apply keeps_withPrepared | apply keeps_modLod | apply keeps_releaseNow
    | split | (intro _) | dsimp only)

theorem keeps_releasesDue {Q_ : List Instr} {n : Nat} {s : State} (h0 : Keeps Q_ s) : Keeps Q_ (releasesDue n s) := by
  unfold releasesDue
  try dsimp only
  with_reducible repeat' (first
    | assumption | apply keeps_forAll | apply keeps_releaseNow
    | apply keeps_modLod | split | (intro _) | dsimp only)

theorem keeps_execExtentDrainDone {Q_ : List Instr} {p : PortId} {s : State} (h0 : Keeps Q_ s) : ∃ u_, execExtentDrainDone p s = .next u_ ∧ Keeps Q_ u_ := by
  refine ⟨_, rfl, ?_⟩
  with_reducible repeat' (first
    | assumption | apply keeps_drainDone | split | (intro _) | dsimp only)

theorem keeps_execReleaseDynamicCapacity {Q_ : List Instr} {p : PortId} {extents : List (BitVec 19 × BitVec 19)} {s : State} (h0 : Keeps Q_ s) : ∃ u_, execReleaseDynamicCapacity p extents s = .next u_ ∧ Keeps Q_ u_ := by
  refine ⟨_, rfl, ?_⟩
  with_reducible repeat' (first
    | assumption | apply keeps_capacityRelease | split | (intro _)
    | dsimp only)

end Sys2Proof.Machine
end

