-- ==== Sys2Proof/Laws/KeepsTraining.lean ====
section
/-! SUPPORT. What the operations of Machine/Training.lean keep: one lemma per operation that answers a state. -/

namespace Sys2Proof.Machine

theorem keeps_trainRead {q : List Instr} {n : Nat} {l : List Nat} {s : State} (h : Keeps q s) :
    Keeps q (trainRead n l s).2 := by
  induction l generalizing s with
  | nil => exact h
  | cons p l ih =>
    unfold trainRead
    split
    · exact ih h
    · rename_i hu
      exact ih (keeps_readPage (keeps_checkedDesc hu (keeps_settlePage h)))

theorem keeps_trainStart {Q_ : List Instr} {x n : Nat} {s : State} (h0 : Keeps Q_ s) : Keeps Q_ (trainStart x n s) := by
  unfold trainStart
  try dsimp only
  with_reducible repeat' (first
    | assumption | apply keeps_forAll | apply keeps_snoopPageNow
    | apply keeps_modDictAt | split | (intro _) | dsimp only)

theorem keeps_trainStop {Q_ : List Instr} {x status detail : Nat} {s : State} (h0 : Keeps Q_ s) : Keeps Q_ (trainStop x status detail s) := by
  unfold trainStop
  try dsimp only
  with_reducible repeat' (first
    | assumption | apply keeps_cmdEnd | apply keeps_modDictAt | split
    | (intro _) | dsimp only)

theorem keeps_trainEnd {Q_ : List Instr} {x : Nat} {bad : Bool} {s : State} (h0 : Keeps Q_ s) : Keeps Q_ (trainEnd x bad s).1 := by
  unfold trainEnd
  try dsimp only
  with_reducible repeat' (first
    | assumption | apply keeps_forAll | apply keeps_snoopMoreNow
    | apply keeps_afterDraw | apply keeps_trainStop | apply keeps_trainRead
    | refine keeps_trainRead_eq (by assumption) ?_
    | apply keeps_useCompressor | apply keeps_modDictAt
    | apply keeps_dictStore | apply keeps_cmdEnd | split | (intro _)
    | dsimp only)
theorem keeps_trainEnd_eq {Q_ : List Instr} {x : Nat} {bad : Bool} {s : State} {t_ x_} (e_ : trainEnd x bad s = (t_, x_)) (h0 : Keeps Q_ s) : Keeps Q_ t_ := by
  have h_ := keeps_trainEnd (Q_ := Q_) (x := x) (bad := bad) (s := s) h0
  rw [e_] at h_; exact h_

theorem keeps_dictRetireStart {Q_ : List Instr} {x : Nat} {s : State} (h0 : Keeps Q_ s) : Keeps Q_ (dictRetireStart x s) := by
  unfold dictRetireStart
  try dsimp only
  with_reducible repeat' (first
    | assumption | apply keeps_modDictAt | split | (intro _) | dsimp only)

theorem keeps_dictRetireBack {Q_ : List Instr} {x detail : Nat} {s : State} (h0 : Keeps Q_ s) : Keeps Q_ (dictRetireBack x detail s) := by
  unfold dictRetireBack
  try dsimp only
  with_reducible repeat' (first
    | assumption | apply keeps_cmdEnd | apply keeps_modDictAt | split
    | (intro _) | dsimp only)

theorem keeps_dictRetireCheck {Q_ : List Instr} {x d : Nat} {s : State} (h0 : Keeps Q_ s) : Keeps Q_ (dictRetireCheck x d s) := by
  unfold dictRetireCheck
  try dsimp only
  with_reducible repeat' (first
    | assumption | apply keeps_modDictAt | apply keeps_refsRead
    | apply keeps_cmdEnd | apply keeps_dictFree | apply keeps_dictRetireBack
    | split | (intro _) | dsimp only)

theorem keeps_dictsAtExit {Q_ : List Instr} {s : State} (h0 : Keeps Q_ s) : Keeps Q_ (dictsAtExit s) := by
  unfold dictsAtExit
  try dsimp only
  with_reducible repeat' (first
    | assumption | apply keeps_forAll | apply keeps_dictRetireBack
    | apply keeps_trainStop | split | (intro _) | dsimp only)

theorem keeps_execDictRetireCheck {Q_ : List Instr} {x : DictId} {d : MemDie} {s : State} (h0 : Keeps Q_ s) : ∃ u_, execDictRetireCheck x d s = .next u_ ∧ Keeps Q_ u_ := by
  refine ⟨_, rfl, ?_⟩
  with_reducible repeat' (first
    | assumption | apply keeps_dictRetireCheck | split | (intro _)
    | dsimp only)

end Sys2Proof.Machine
end

