-- ==== Sys2Proof/Laws/KeepsLodging.lean ====
section
/-! SUPPORT. What the operations of Machine/Lodging.lean keep: one lemma per operation that answers a state. -/

namespace Sys2Proof.Machine

theorem keeps_dirPlace_pack {q : List Instr} {n k : Nat} {f : Nat → State → State} {s : State}
    (hf : ∀ a t, Keeps q t → Keeps q (f a t)) (h : Keeps q s) : Keeps q (dirPlace.pack n k f s) := by
  unfold dirPlace.pack
  exact hf _ _ (keeps_foldl_fst (fun t _ ht => by dsimp only; exact keeps_modLod ht) h)

theorem keeps_restageAll {Q_ : List Instr} {s : State} (h0 : Keeps Q_ s) : Keeps Q_ (restageAll s) := by
  unfold restageAll
  try dsimp only
  with_reducible repeat' (first
    | assumption | apply keeps_forAll | apply keeps_restage | split
    | (intro _) | dsimp only)

theorem keeps_slotsTake {Q_ : List Instr} {n : Nat} {gs : List Nat} {s : State} (h0 : Keeps Q_ s) : Keeps Q_ (slotsTake n gs s) := by
  unfold slotsTake
  try dsimp only
  with_reducible repeat' (first
    | assumption | apply keeps_forAll | apply keeps_modLod | split
    | (intro _) | dsimp only)

theorem keeps_slotsFit {Q_ : List Instr} {n : Nat} {s : State} (h0 : Keeps Q_ s) : Keeps Q_ (slotsFit n s) := by
  unfold slotsFit
  try dsimp only
  with_reducible repeat' (first
    | assumption | apply keeps_modLod | apply keeps_slotsTake | split
    | (intro _) | dsimp only)

theorem keeps_dirPlace {Q_ : List Instr} {n held : Nat} {s : State} (h0 : Keeps Q_ s) : Keeps Q_ (dirPlace n held s) := by
  unfold dirPlace
  try dsimp only
  with_reducible repeat' (first
    | apply keeps_dirPlace_pack | assumption | apply keeps_modLod | split
    | (intro _) | dsimp only)

theorem keeps_segmentsAsk {Q_ : List Instr} {n : Nat} {s : State} (h0 : Keeps Q_ s) : Keeps Q_ (segmentsAsk n s) := by
  unfold segmentsAsk
  try dsimp only
  with_reducible repeat' (first
    | assumption | refine keeps_modSpace (fun _ hx => hx) ?_
    | apply keeps_regionsTake | split | (intro _) | dsimp only)

theorem keeps_segmentsFree {Q_ : List Instr} {m : Nat} {s : State} (h0 : Keeps Q_ s) : Keeps Q_ (segmentsFree m s) := by
  unfold segmentsFree
  try dsimp only
  with_reducible repeat' (first
    | assumption | refine keeps_modSpace (fun _ hx => hx) ?_
    | apply keeps_forAll | apply keeps_queueBlank | apply keeps_setUse
    | split | (intro _) | dsimp only)

theorem keeps_slotDrop {Q_ : List Instr} {m : Nat} {s : State} (h0 : Keeps Q_ s) : Keeps Q_ (slotDrop m s) := by
  unfold slotDrop
  try dsimp only
  with_reducible repeat' (first
    | assumption | apply keeps_modProt | apply keeps_modLodge
    | apply keeps_segmentsFree | apply keeps_modLod | split | (intro _)
    | dsimp only)

theorem keeps_commitCandidate {Q_ : List Instr} {n : Nat} {t : State} (h0 : Keeps Q_ t) : Keeps Q_ (commitCandidate n t) := by
  unfold commitCandidate
  try dsimp only
  with_reducible repeat' (first
    | assumption | apply keeps_slotsFit | apply keeps_modLodge | split
    | (intro _) | dsimp only)

theorem keeps_lodgeSettle {Q_ : List Instr} {n : Nat} {s : State} (h0 : Keeps Q_ s) : Keeps Q_ (lodgeSettle n s) := by
  unfold lodgeSettle
  try dsimp only
  with_reducible repeat' (first
    | assumption | apply keeps_releasesDue | apply keeps_cmdEnd | split
    | (intro _) | dsimp only)

theorem keeps_lodgeBegin {Q_ : List Instr} {n : Nat} {s : State} (h0 : Keeps Q_ s) : Keeps Q_ (lodgeBegin n s) := by
  unfold lodgeBegin
  try dsimp only
  with_reducible repeat' (first
    | assumption | apply keeps_modLodge | apply keeps_modProt
    | apply keeps_modCoh | apply keeps_restageAll | apply keeps_recomputeD
    | apply keeps_segmentsAsk | apply keeps_dirPlace | apply keeps_slotsFit
    | apply keeps_putParam | split | (intro _) | dsimp only)

theorem keeps_portLeaves {Q_ : List Instr} {n p : Nat} {s : State} (h0 : Keeps Q_ s) : Keeps Q_ (portLeaves n p s) := by
  unfold portLeaves
  try dsimp only
  with_reducible repeat' (first
    | assumption | apply keeps_forAll | apply keeps_putEvent
    | apply keeps_modExt | split | (intro _) | dsimp only)

theorem keeps_lodgeChanged {Q_ : List Instr} {n : Nat} {s t : State} (h0 : Keeps Q_ s) (h1 : Keeps Q_ t) : Keeps Q_ (lodgeChanged n s t).1 := by
  unfold lodgeChanged
  try dsimp only
  with_reducible repeat' (first
    | assumption | apply keeps_forAll | apply keeps_slotDrop
    | apply keeps_pageEmptied | apply keeps_segmentsAsk
    | apply keeps_dirPlace | apply keeps_slotsFit | apply keeps_modLodge
    | apply keeps_portLeaves | apply keeps_offerEach
    | apply keeps_restageAll | apply keeps_recomputeD | split | (intro _)
    | dsimp only)
theorem keeps_lodgeChanged_eq {Q_ : List Instr} {n : Nat} {s t : State} {t_ x_} (e_ : lodgeChanged n s t = (t_, x_)) (h0 : Keeps Q_ s) (h1 : Keeps Q_ t) : Keeps Q_ t_ := by
  have h_ := keeps_lodgeChanged (Q_ := Q_) (n := n) (s := s) (t := t) h0 h1
  rw [e_] at h_; exact h_

theorem keeps_lodgeCommitted {Q_ : List Instr} {n : Nat} {s t : State} (h0 : Keeps Q_ s) (h1 : Keeps Q_ t) : Keeps Q_ (lodgeCommitted n s t).1 := by
  unfold lodgeCommitted
  try dsimp only
  with_reducible repeat' (first
    | assumption | apply keeps_lodgeBegin | apply keeps_lodgeChanged
    | refine keeps_lodgeChanged_eq (by assumption) ?_ | split | (intro _)
    | dsimp only)
theorem keeps_lodgeCommitted_eq {Q_ : List Instr} {n : Nat} {s t : State} {t_ x_} (e_ : lodgeCommitted n s t = (t_, x_)) (h0 : Keeps Q_ s) (h1 : Keeps Q_ t) : Keeps Q_ t_ := by
  have h_ := keeps_lodgeCommitted (Q_ := Q_) (n := n) (s := s) (t := t) h0 h1
  rw [e_] at h_; exact h_

theorem keeps_slotWritten {Q_ : List Instr} {n : Nat} {e : Nat × SlotRec} {s : State} (h0 : Keeps Q_ s) : Keeps Q_ (slotWritten n e s) := by
  unfold slotWritten
  try dsimp only
  with_reducible repeat' (first
    | assumption | apply keeps_modLodge | apply keeps_modLod
    | apply keeps_forAll | apply keeps_hwmNote | apply keeps_modProt
    | apply keeps_granuleZero | split | (intro _) | dsimp only)

theorem keeps_prepareUndone {Q_ : List Instr} {n : Nat} {s : State} (h0 : Keeps Q_ s) : Keeps Q_ (prepareUndone n s) := by
  unfold prepareUndone
  try dsimp only
  with_reducible repeat' (first
    | assumption | apply keeps_forAll | apply keeps_slotDrop | split
    | (intro _) | dsimp only)

theorem keeps_prepareDone {Q_ : List Instr} {n : Nat} {ok : Bool} {s : State} (h0 : Keeps Q_ s) : Keeps Q_ (prepareDone n ok s) := by
  unfold prepareDone
  try dsimp only
  with_reducible repeat' (first
    | assumption | apply keeps_forAll | apply keeps_slotWritten
    | apply keeps_modLodge | apply keeps_lodgeSettle
    | apply keeps_recomputeD | apply keeps_offerEach
    | apply keeps_prepareUndone | apply keeps_keyWipe | apply keeps_modLod
    | apply keeps_putParam | apply keeps_restageAll
    | apply keeps_releasesDue | apply keeps_cmdEnd | split | (intro _)
    | dsimp only)

theorem keeps_isolatedLine {Q_ : List Instr} {n d : Nat} {s : State} (h0 : Keeps Q_ s) : Keeps Q_ (isolatedLine n d s) := by
  unfold isolatedLine
  try dsimp only
  with_reducible repeat' (first
    | assumption | apply keeps_forAll | apply keeps_lockedSays
    | apply keeps_setDesc | apply keeps_modProt | apply keeps_modLodge
    | apply keeps_lodgeSettle | apply keeps_foldl | apply keeps_foldl_fst
    | apply keeps_foldl_snd | apply keeps_foldl_snd_snd | split | (intro _)
    | dsimp only)

theorem keeps_offersWithdrawn {Q_ : List Instr} {n : Nat} {s : State} (h0 : Keeps Q_ s) : Keeps Q_ (offersWithdrawn n s) := by
  unfold offersWithdrawn
  try dsimp only
  with_reducible repeat' (first
    | assumption | apply keeps_forAll | apply keeps_modExt | split
    | (intro _) | dsimp only)

theorem keeps_destroyRelease {Q_ : List Instr} {n : Nat} {s : State} (h0 : Keeps Q_ s) : Keeps Q_ (destroyRelease n s) := by
  unfold destroyRelease
  try dsimp only
  with_reducible repeat' (first
    | assumption | apply keeps_modLodge | apply keeps_forAll
    | apply keeps_extentOut | apply keeps_putEvent
    | apply keeps_releaseRecords
    | refine keeps_releaseRecords_eq (by assumption) ?_ | split | (intro _)
    | dsimp only)

theorem keeps_destroyOffersEnd {Q_ : List Instr} {n : Nat} {s : State} (h0 : Keeps Q_ s) : Keeps Q_ (destroyOffersEnd n s) := by
  unfold destroyOffersEnd
  try dsimp only
  with_reducible repeat' (first
    | assumption | apply keeps_destroyRelease | apply keeps_offersWithdrawn
    | split | (intro _) | dsimp only)

theorem keeps_destroyStart {Q_ : List Instr} {n : Nat} {forced : Bool} {s : State} (h0 : Keeps Q_ s) : Keeps Q_ (destroyStart n forced s) := by
  unfold destroyStart
  try dsimp only
  with_reducible repeat' (first
    | assumption | apply keeps_modLodge | apply keeps_exportsEnd
    | apply keeps_forAll | apply keeps_trainStop | apply keeps_prepareUndone
    | apply keeps_modProt | apply keeps_rekeyUnlock | apply keeps_cmdEnd
    | apply keeps_recomputeD | apply keeps_restageAll
    | apply keeps_releasesDue | apply keeps_destroyOffersEnd | split
    | (intro _) | dsimp only)

theorem keeps_destroyForce {Q_ : List Instr} {n : Nat} {s : State} (h0 : Keeps Q_ s) : Keeps Q_ (destroyForce n s) := by
  unfold destroyForce
  try dsimp only
  with_reducible repeat' (first
    | assumption | apply keeps_destroyRelease | apply keeps_offersWithdrawn
    | apply keeps_modLodge | split | (intro _) | dsimp only)

theorem keeps_recordsGone {Q_ : List Instr} {n : Nat} {s : State} (h0 : Keeps Q_ s) : Keeps Q_ (recordsGone n s) := by
  unfold recordsGone
  try dsimp only
  with_reducible repeat' (first
    | assumption | apply keeps_removeEntries | apply keeps_lcDropLodging
    | apply keeps_modLodge | split | (intro _) | dsimp only)

theorem keeps_movesDropped {Q_ : List Instr} {n : Nat} {s : State} (h0 : Keeps Q_ s) : Keeps Q_ (movesDropped n s) := by
  unfold movesDropped
  try dsimp only
  with_reducible repeat' (first
    | assumption | apply keeps_forAll | apply keeps_moveIdle
    | apply keeps_moveFree | apply keeps_modTier | split | (intro _)
    | dsimp only)

theorem keeps_wipeDone {Q_ : List Instr} {n : Nat} {s : State} (h0 : Keeps Q_ s) : Keeps Q_ (wipeDone n s) := by
  unfold wipeDone
  try dsimp only
  with_reducible repeat' (first
    | assumption | apply keeps_movesDropped | apply keeps_forAll
    | apply keeps_freePage | apply keeps_slotDrop | apply keeps_dictFree
    | apply keeps_cmdEnd | apply keeps_putParam | apply keeps_modLodge
    | apply keeps_modLod | apply keeps_restageAll | apply keeps_recomputeD
    | split | (intro _) | dsimp only)

theorem keeps_lodgeCmd {Q_ : List Instr} {n code k : Nat} {s : State} (h0 : Keeps Q_ s) : Keeps Q_ (lodgeCmd n code k s).1 := by
  unfold lodgeCmd
  try dsimp only
  with_reducible repeat' (first
    | assumption | apply keeps_destroyStart | apply keeps_destroyForce
    | apply keeps_releaseRecords
    | refine keeps_releaseRecords_eq (by assumption) ?_ | apply keeps_forAll
    | apply keeps_granuleZero | apply keeps_offerEach | split | (intro _)
    | dsimp only)
theorem keeps_lodgeCmd_eq {Q_ : List Instr} {n code k : Nat} {s : State} {t_ x_} (e_ : lodgeCmd n code k s = (t_, x_)) (h0 : Keeps Q_ s) : Keeps Q_ t_ := by
  have h_ := keeps_lodgeCmd (Q_ := Q_) (n := n) (code := code) (k := k) (s := s) h0
  rw [e_] at h_; exact h_

theorem keeps_capacityAnswered {Q_ : List Instr} {p : Nat} {l : List (Nat × Nat)} {s : State} (h0 : Keeps Q_ s) : Keeps Q_ (capacityAnswered p l s) := by
  unfold capacityAnswered
  try dsimp only
  with_reducible repeat' (first
    | assumption | apply keeps_capacityResponse | apply keeps_forAll
    | apply keeps_destroyOffersEnd | split | (intro _) | dsimp only)

theorem keeps_execLodgePrepareDone {Q_ : List Instr} {n : LodgeId} {ok : Bool} {s : State} (h0 : Keeps Q_ s) : ∃ u_, execLodgePrepareDone n ok s = .next u_ ∧ Keeps Q_ u_ := by
  refine ⟨_, rfl, ?_⟩
  with_reducible repeat' (first
    | assumption | apply keeps_prepareDone | split | (intro _) | dsimp only)

theorem keeps_execIsolatedRewriteLine {Q_ : List Instr} {n : LodgeId} {d : MemDie} {s : State} (h0 : Keeps Q_ s) : ∃ u_, execIsolatedRewriteLine n d s = .next u_ ∧ Keeps Q_ u_ := by
  refine ⟨_, rfl, ?_⟩
  with_reducible repeat' (first
    | assumption | apply keeps_isolatedLine | split | (intro _) | dsimp only)

theorem keeps_execDestroyOfferTimeout {Q_ : List Instr} {n : LodgeId} {s : State} (h0 : Keeps Q_ s) : ∃ u_, execDestroyOfferTimeout n s = .next u_ ∧ Keeps Q_ u_ := by
  refine ⟨_, rfl, ?_⟩
  with_reducible repeat' (first
    | assumption | apply keeps_destroyOffersEnd | split | (intro _)
    | dsimp only)

theorem keeps_execDestroyRecordsGone {Q_ : List Instr} {n : LodgeId} {s : State} (h0 : Keeps Q_ s) : ∃ u_, execDestroyRecordsGone n s = .next u_ ∧ Keeps Q_ u_ := by
  refine ⟨_, rfl, ?_⟩
  with_reducible repeat' (first
    | assumption | apply keeps_recordsGone | split | (intro _) | dsimp only)

theorem keeps_execDestroyWipeDone {Q_ : List Instr} {n : LodgeId} {s : State} (h0 : Keeps Q_ s) : ∃ u_, execDestroyWipeDone n s = .next u_ ∧ Keeps Q_ u_ := by
  refine ⟨_, rfl, ?_⟩
  with_reducible repeat' (first
    | assumption | apply keeps_wipeDone | split | (intro _) | dsimp only)

theorem keeps_execAddDynamicCapacityResponse {Q_ : List Instr} {p : PortId} {extents : List (BitVec 19 × BitVec 19)} {s : State} (h0 : Keeps Q_ s) : ∃ u_, execAddDynamicCapacityResponse p extents s = .next u_ ∧ Keeps Q_ u_ := by
  refine ⟨_, rfl, ?_⟩
  with_reducible repeat' (first
    | assumption | apply keeps_capacityAnswered | split | (intro _)
    | dsimp only)

end Sys2Proof.Machine
end

