-- ==== Sys2Proof/Laws/KeepsRekey.lean ====
section
/-! SUPPORT. What the operations of Machine/Rekey.lean keep: one lemma per operation that answers a state. -/

namespace Sys2Proof.Machine

theorem keeps_keyCmd {Q_ : List Instr} {code n : Nat} {s : State} (h0 : Keeps Q_ s) : Keeps Q_ (keyCmd code n s).1 := by
  unfold keyCmd
  try dsimp only
  with_reducible repeat' (first
    | assumption | apply keeps_keyInstall | apply keeps_keyWipe
    | apply keeps_keyRekey | split | (intro _) | dsimp only)
theorem keeps_keyCmd_eq {Q_ : List Instr} {code n : Nat} {s : State} {t_ x_} (e_ : keyCmd code n s = (t_, x_)) (h0 : Keeps Q_ s) : Keeps Q_ t_ := by
  have h_ := keeps_keyCmd (Q_ := Q_) (code := code) (n := n) (s := s) h0
  rw [e_] at h_; exact h_

theorem keeps_keysReissued {Q_ : List Instr} {s : State} (h0 : Keeps Q_ s) : Keeps Q_ (keysReissued s) := by
  unfold keysReissued
  try dsimp only
  with_reducible repeat' (first
    | assumption | refine keeps_modWorld (fun _ hx => hx) ?_
    | apply keeps_keyCmd | refine keeps_keyCmd_eq (by assumption) ?_
    | apply keeps_autoCommand | split | (intro _) | dsimp only)

theorem keeps_keyArrives {Q_ : List Instr} {d : Nat} {err : BitVec 384} {s : State} (h0 : Keeps Q_ s) : Keeps Q_ (keyArrives d err s) := by
  unfold keyArrives
  try dsimp only
  with_reducible repeat' (first
    | assumption | apply keeps_keyTransport
    | refine keeps_keyTransport_eq (by assumption) ?_
    | apply keeps_keysReissued | apply keeps_cmdEnd | split | (intro _)
    | dsimp only)

theorem keeps_rekeyAsk {Q_ : List Instr} {n : Nat} {s : State} (h0 : Keeps Q_ s) : Keeps Q_ (rekeyAsk n s) := by
  unfold rekeyAsk
  try dsimp only
  with_reducible repeat' (first
    | assumption | apply keeps_modProt | split | (intro _) | dsimp only)

theorem keeps_rekeyPassed {Q_ : List Instr} {n d p : Nat} {x : Desc} {s : State} (h0 : Keeps Q_ s) : Keeps Q_ (rekeyPassed n d p x s) := by
  unfold rekeyPassed
  try dsimp only
  with_reducible repeat' (first
    | assumption | apply keeps_modProt | apply keeps_rekeyRelease
    | apply keeps_fireWatch | apply keeps_setDesc | split | (intro _)
    | dsimp only)

theorem keeps_rekeyLines {Q_ : List Instr} {n p l : Nat} {x : Desc} {key : PageKeys} {mask : Nat} {s : State} (h0 : Keeps Q_ s) : Keeps Q_ (rekeyLines n p l x key mask s) := by
  unfold rekeyLines
  try dsimp only
  with_reducible repeat' (first
    | assumption | apply keeps_forAll | apply keeps_fetchLine
    | refine keeps_fetchLine_eq (by assumption) ?_ | apply keeps_storeRaw
    | apply keeps_onlyIf | apply keeps_modProt | split | (intro _)
    | dsimp only)

theorem keeps_rekeyStop {Q_ : List Instr} {n p : Nat} {s : State} (h0 : Keeps Q_ s) : Keeps Q_ (rekeyStop n p s) := by
  unfold rekeyStop
  try dsimp only
  with_reducible repeat' (first
    | assumption | apply keeps_rekeyRelease | apply keeps_setDesc | split
    | (intro _) | dsimp only)

theorem keeps_rekeyFrame {Q_ : List Instr} {n p : Nat} {x : Desc} {s : State} (h0 : Keeps Q_ s) : Keeps Q_ (rekeyFrame n p x s) := by
  unfold rekeyFrame
  try dsimp only
  with_reducible repeat' (first
    | assumption | apply keeps_forAll | apply keeps_flushLine
    | apply keeps_mergeSettle | apply keeps_settlePage
    | apply keeps_rekeyStop | apply keeps_poisonLine
    | apply keeps_uncorrectable | refine keeps_allocFrame (by assumption) ?_
    | apply keeps_rekeyLines | apply keeps_sampleHome | apply keeps_restage
    | apply keeps_rekeyPassed | apply keeps_freeFrame | apply keeps_freeOld
    | apply keeps_useBytes | split | (intro _) | dsimp only)

theorem keeps_rekeyRun {Q_ : List Instr} {n p : Nat} {x : Desc} {s : State} (h0 : Keeps Q_ s) : Keeps Q_ (rekeyRun n p x s) := by
  unfold rekeyRun
  try dsimp only
  with_reducible repeat' (first
    | assumption | apply keeps_flushRun | apply keeps_settlePage
    | apply keeps_pageLost | apply keeps_leaveDict | apply keeps_failCount
    | apply keeps_rekeyPassed | apply keeps_uncorrectable
    | refine keeps_allocRun (by assumption) ?_ | apply keeps_sampleHome
    | apply keeps_restage | apply keeps_freeOld | apply keeps_useBytes
    | apply keeps_putLines | split | (intro _) | dsimp only)

theorem keeps_rekeyPage {Q_ : List Instr} {n p : Nat} {x : Desc} {s : State} (h0 : Keeps Q_ s) : Keeps Q_ (rekeyPage n p x s) := by
  unfold rekeyPage
  try dsimp only
  with_reducible repeat' (first
    | assumption | apply keeps_rekeyFrame | apply keeps_rekeyRun
    | apply keeps_rekeyPassed | split | (intro _) | dsimp only)

theorem keeps_rekeyAnswered {Q_ : List Instr} {n d p : Nat} {r : Rekey} {s : State} (h0 : Keeps Q_ s) : Keeps Q_ (rekeyAnswered n d p r s) := by
  unfold rekeyAnswered
  try dsimp only
  with_reducible repeat' (first
    | assumption | apply keeps_rekeyPage | apply keeps_unlockPage
    | apply keeps_modProt | apply keeps_rekeyRelease
    | refine keeps_checkedDesc (by assumption) ?_ | split | (intro _)
    | dsimp only)

theorem keeps_rekeyAsks {Q_ : List Instr} {n d p : Nat} {r : Rekey} {x : Desc} {s : State} (h0 : Keeps Q_ s) : Keeps Q_ (rekeyAsks n d p r x s) := by
  unfold rekeyAsks
  try dsimp only
  with_reducible repeat' (first
    | assumption | apply keeps_modProt | apply keeps_onlyIf
    | apply keeps_setDesc | apply keeps_snoopPageNow | split | (intro _)
    | dsimp only)

theorem keeps_rekeyVisit {Q_ : List Instr} {d n : Nat} {s : State} (h0 : Keeps Q_ s) : Keeps Q_ (rekeyVisit d n s) := by
  unfold rekeyVisit
  try dsimp only
  with_reducible repeat' (first
    | assumption | refine keeps_checkedDesc (by assumption) ?_
    | apply keeps_rekeyAnswered | apply keeps_rekeyAsks
    | apply keeps_rekeyPage | split | (intro _) | dsimp only)

theorem keeps_rekeyFinish {Q_ : List Instr} {n : Nat} {s : State} (h0 : Keeps Q_ s) : Keeps Q_ (rekeyFinish n s) := by
  unfold rekeyFinish
  try dsimp only
  with_reducible repeat' (first
    | assumption | apply keeps_modProt | apply keeps_forAll
    | apply keeps_dictStore | apply keeps_cmdEnd | apply keeps_foldl
    | apply keeps_foldl_fst | apply keeps_foldl_snd
    | apply keeps_foldl_snd_snd | split | (intro _) | dsimp only)

theorem keeps_execKeyTransport {Q_ : List Instr} {d : MemDie} {err : BitVec 384} {s : State} (h0 : Keeps Q_ s) : ∃ u_, execKeyTransport d err s = .next u_ ∧ Keeps Q_ u_ := by
  refine ⟨_, rfl, ?_⟩
  with_reducible repeat' (first
    | assumption | apply keeps_keyArrives | split | (intro _) | dsimp only)

theorem keeps_execRekeyVisit {Q_ : List Instr} {d : MemDie} {n : LodgeId} {s : State} (h0 : Keeps Q_ s) : ∃ u_, execRekeyVisit d n s = .next u_ ∧ Keeps Q_ u_ := by
  refine ⟨_, rfl, ?_⟩
  with_reducible repeat' (first
    | assumption | apply keeps_rekeyVisit | split | (intro _) | dsimp only)

theorem keeps_execRekeyFinish {Q_ : List Instr} {n : LodgeId} {s : State} (h0 : Keeps Q_ s) : ∃ u_, execRekeyFinish n s = .next u_ ∧ Keeps Q_ u_ := by
  refine ⟨_, rfl, ?_⟩
  with_reducible repeat' (first
    | assumption | apply keeps_rekeyFinish | split | (intro _) | dsimp only)

end Sys2Proof.Machine
end

