-- ==== Sys2Proof/Laws/KeepsPowerStates.lean ====
section
/-! SUPPORT. What the operations of Machine/PowerStates.lean keep: one lemma per operation that answers a state. -/

namespace Sys2Proof.Machine

theorem keeps_psRecompute {Q_ : List Instr} {source : Nat} {s : State} (h0 : Keeps Q_ s) : Keeps Q_ (psRecompute source s) := by
  unfold psRecompute
  try dsimp only
  with_reducible repeat' (first
    | assumption | apply keeps_modPs | apply keeps_psEnter
    | apply keeps_wake | split | (intro _) | dsimp only)

theorem keeps_votesSettle {Q_ : List Instr} {s : State} (h0 : Keeps Q_ s) : Keeps Q_ (votesSettle s) := by
  unfold votesSettle
  try dsimp only
  with_reducible repeat' (first
    | assumption | apply keeps_onlyIf | apply keeps_psRecompute | split
    | (intro _) | dsimp only)

theorem keeps_voteChange {Q_ : List Instr} {c : VoteChange} {s : State} (h0 : Keeps Q_ s) : Keeps Q_ (voteChange c s) := by
  unfold voteChange
  try dsimp only
  with_reducible repeat' (first
    | assumption | apply keeps_psRecompute | apply keeps_modPs
    | apply keeps_onlyIf | apply keeps_modPortAt | split | (intro _)
    | dsimp only)

theorem keeps_vcoreApply {Q_ : List Instr} {i old : Nat} {s : State} (h0 : Keeps Q_ s) : Keeps Q_ (vcoreApply i old s) := by
  unfold vcoreApply
  try dsimp only
  with_reducible repeat' (first
    | assumption | apply keeps_voutSet | apply keeps_bumpPs
    | apply keeps_modPs | split | (intro _) | dsimp only)

theorem keeps_railSettled {Q_ : List Instr} {i : Nat} {s : State} (h0 : Keeps Q_ s) : Keeps Q_ (railSettled i s) := by
  unfold railSettled
  try dsimp only
  with_reducible repeat' (first
    | assumption | apply keeps_modPs | split | (intro _) | dsimp only)

theorem keeps_railNotSettled {Q_ : List Instr} {i : Nat} {s : State} (h0 : Keeps Q_ s) : Keeps Q_ (railNotSettled i s) := by
  unfold railNotSettled
  try dsimp only
  with_reducible repeat' (first
    | assumption | apply keeps_logPlain | apply keeps_putParam | split
    | (intro _) | dsimp only)

theorem keeps_vcoreFix {Q_ : List Instr} {s : State} (h0 : Keeps Q_ s) : Keeps Q_ (vcoreFix s) := by
  unfold vcoreFix
  try dsimp only
  with_reducible repeat' (first
    | assumption | apply keeps_forAll | apply keeps_logPlain
    | apply keeps_putParam | split | (intro _) | dsimp only)

theorem keeps_engineGate {Q_ : List Instr} {u : Nat} {s : State} (h0 : Keeps Q_ s) : Keeps Q_ (engineGate u s) := by
  unfold engineGate
  try dsimp only
  with_reducible repeat' (first
    | assumption | apply keeps_modPs | apply keeps_psEnter | split
    | (intro _) | dsimp only)

theorem keeps_armTimer {Q_ : List Instr} {s : State} (h0 : Keeps Q_ s) : Keeps Q_ (armTimer s) := by
  unfold armTimer
  try dsimp only
  with_reducible repeat' (first
    | assumption | apply keeps_modPs | split | (intro _) | dsimp only)

theorem keeps_timerExpires {Q_ : List Instr} {s : State} (h0 : Keeps Q_ s) : Keeps Q_ (timerExpires s) := by
  unfold timerExpires
  try dsimp only
  with_reducible repeat' (first
    | assumption | apply keeps_wake | apply keeps_modPs | split | (intro _)
    | dsimp only)

theorem keeps_holdLapses {Q_ : List Instr} {s : State} (h0 : Keeps Q_ s) : Keeps Q_ (holdLapses s) := by
  unfold holdLapses
  try dsimp only
  with_reducible repeat' (first
    | assumption | apply keeps_psRecompute | apply keeps_modPs | split
    | (intro _) | dsimp only)

theorem keeps_execVoteChange {Q_ : List Instr} {c : VoteChange} {s : State} (h0 : Keeps Q_ s) : ∃ u_, execVoteChange c s = .next u_ ∧ Keeps Q_ u_ := by
  refine ⟨_, rfl, ?_⟩
  with_reducible repeat' (first
    | assumption | apply keeps_voteChange | split | (intro _) | dsimp only)

theorem keeps_execRailSettled {Q_ : List Instr} {d : DieId} {s : State} (h0 : Keeps Q_ s) : ∃ u_, execRailSettled d s = .next u_ ∧ Keeps Q_ u_ := by
  refine ⟨_, rfl, ?_⟩
  with_reducible repeat' (first
    | assumption | apply keeps_railSettled | split | (intro _) | dsimp only)

theorem keeps_execRailSettleTimeout {Q_ : List Instr} {d : DieId} {s : State} (h0 : Keeps Q_ s) : ∃ u_, execRailSettleTimeout d s = .next u_ ∧ Keeps Q_ u_ := by
  refine ⟨_, rfl, ?_⟩
  with_reducible repeat' (first
    | assumption | apply keeps_railNotSettled | split | (intro _)
    | dsimp only)

theorem keeps_execEngineGate {Q_ : List Instr} {u : UnitId} {s : State} (h0 : Keeps Q_ s) : ∃ u_, execEngineGate u s = .next u_ ∧ Keeps Q_ u_ := by
  refine ⟨_, rfl, ?_⟩
  with_reducible repeat' (first
    | assumption | apply keeps_engineGate | split | (intro _) | dsimp only)

theorem keeps_execWakeTimer {Q_ : List Instr} {s : State} (h0 : Keeps Q_ s) : ∃ u_, execWakeTimer s = .next u_ ∧ Keeps Q_ u_ := by
  refine ⟨_, rfl, ?_⟩
  with_reducible repeat' (first
    | assumption | apply keeps_timerExpires | split | (intro _) | dsimp only)

theorem keeps_execWakeHoldExpire {Q_ : List Instr} {s : State} (h0 : Keeps Q_ s) : ∃ u_, execWakeHoldExpire s = .next u_ ∧ Keeps Q_ u_ := by
  refine ⟨_, rfl, ?_⟩
  with_reducible repeat' (first
    | assumption | apply keeps_holdLapses | split | (intro _) | dsimp only)

theorem keeps_execHsAlert {Q_ : List Instr} {s : State} (h0 : Keeps Q_ s) : ∃ u_, execHsAlert s = .next u_ ∧ Keeps Q_ u_ := by
  refine ⟨_, rfl, ?_⟩
  with_reducible repeat' (first
    | assumption | apply keeps_wake | split | (intro _) | dsimp only)

theorem keeps_execPresenceN {Q_ : List Instr} {low : Bool} {s : State} (h0 : Keeps Q_ s) : ∃ u_, execPresenceN low s = .next u_ ∧ Keeps Q_ u_ := by
  refine ⟨_, rfl, ?_⟩
  with_reducible repeat' (first
    | assumption | apply keeps_wake | apply keeps_presenceLow
    | apply keeps_presenceHigh | split | (intro _) | dsimp only)

end Sys2Proof.Machine
end

