-- ==== Sys2Proof/Laws/KeepsUnitService.lean ====
section
/-! SUPPORT. What the operations of Machine/UnitService.lean keep: one lemma per operation that answers a state. -/

namespace Sys2Proof.Machine

theorem keeps_rejoinFails {Q_ : List Instr} {u : Nat} {s : State} (h0 : Keeps Q_ s) : Keeps Q_ (rejoinFails u s) := by
  unfold rejoinFails
  try dsimp only
  with_reducible repeat' (first
    | assumption | apply keeps_cmdEnd | apply keeps_modUnitRec | split
    | (intro _) | dsimp only)

theorem keeps_atomicUnknown {Q_ : List Instr} {r : MemReq} {s : State} (h0 : Keeps Q_ s) : Keeps Q_ (atomicUnknown r s) := by
  unfold atomicUnknown
  try dsimp only
  with_reducible repeat' (first
    | assumption | apply keeps_loseLine
    | refine keeps_loseLine_eq (by assumption) ?_ | apply keeps_notePage
    | apply keeps_answerPort | split | (intro _) | dsimp only)

theorem keeps_atomicsGone {Q_ : List Instr} {i : Nat} {s : State} (h0 : Keeps Q_ s) : Keeps Q_ (atomicsGone i s) := by
  unfold atomicsGone
  try dsimp only
  with_reducible repeat' (first
    | assumption | apply keeps_forAll | apply keeps_atomicUnknown
    | apply keeps_modCoh | split | (intro _) | dsimp only)

theorem keeps_sliceLost {Q_ : List Instr} {i : Nat} {s : State} (h0 : Keeps Q_ s) : Keeps Q_ (sliceLost i s) := by
  unfold sliceLost
  try dsimp only
  with_reducible repeat' (first
    | assumption | apply keeps_modUnit | split | (intro _) | dsimp only)

theorem keeps_moverAbandon {Q_ : List Instr} {d : Nat} {s : State} (h0 : Keeps Q_ s) : Keeps Q_ (moverAbandon d s) := by
  unfold moverAbandon
  try dsimp only
  with_reducible repeat' (first
    | assumption | apply keeps_forAll | apply keeps_moveAbort | split
    | (intro _) | dsimp only)

theorem keeps_rekeysUnlock {Q_ : List Instr} {d : Nat} {s : State} (h0 : Keeps Q_ s) : Keeps Q_ (rekeysUnlock d s) := by
  unfold rekeysUnlock
  try dsimp only
  with_reducible repeat' (first
    | assumption | apply keeps_forAll | apply keeps_rekeyUnlock | split
    | (intro _) | dsimp only)

theorem keeps_wingFaults {Q_ : List Instr} {w : Nat} {s : State} (h0 : Keeps Q_ s) : Keeps Q_ (wingFaults w s) := by
  unfold wingFaults
  try dsimp only
  with_reducible repeat' (first
    | assumption | apply keeps_modWingChans | apply keeps_modWingAt
    | apply keeps_cmdEnd | apply keeps_recomputeD | split | (intro _)
    | dsimp only)

theorem keeps_dieRequestsEnd {Q_ : List Instr} {d : Nat} {s : State} (h0 : Keeps Q_ s) : Keeps Q_ (dieRequestsEnd d s) := by
  unfold dieRequestsEnd
  try dsimp only
  with_reducible repeat' (first
    | assumption | apply keeps_cohSettleAll | apply keeps_forAll
    | apply keeps_refuseReq | apply keeps_modCoh | split | (intro _)
    | dsimp only)

theorem keeps_dieStateLost {Q_ : List Instr} {d : Nat} {s : State} (h0 : Keeps Q_ s) : Keeps Q_ (dieStateLost d s) := by
  unfold dieStateLost
  try dsimp only
  with_reducible repeat' (first
    | assumption | apply keeps_modCoh | apply keeps_dieRequestsEnd
    | apply keeps_modTier | apply keeps_modComp | apply keeps_modProt
    | apply keeps_modLc | apply keeps_modCh | split | (intro _) | dsimp only)

theorem keeps_mirrorNotice {Q_ : List Instr} {log : Nat} {s : State} (h0 : Keeps Q_ s) : Keeps Q_ (mirrorNotice log s) := by
  unfold mirrorNotice
  try dsimp only
  with_reducible repeat' (first
    | assumption | apply keeps_putEvents | apply keeps_logPlain | split
    | (intro _) | dsimp only)

theorem keeps_mirrorSuspend {Q_ : List Instr} {d : Nat} {s : State} (h0 : Keeps Q_ s) : Keeps Q_ (mirrorSuspend d s) := by
  unfold mirrorSuspend
  try dsimp only
  with_reducible repeat' (first
    | assumption | apply keeps_mirrorNotice | apply keeps_modProt | split
    | (intro _) | dsimp only)

theorem keeps_figuresKept {Q_ : List Instr} {d : Nat} {s : State} (h0 : Keeps Q_ s) : Keeps Q_ (figuresKept d s) := by
  unfold figuresKept
  try dsimp only
  with_reducible repeat' (first
    | assumption | apply keeps_modReg | apply keeps_foldl
    | apply keeps_foldl_fst | apply keeps_foldl_snd
    | apply keeps_foldl_snd_snd | split | (intro _) | dsimp only)

theorem keeps_memoryDieLost {Q_ : List Instr} {d : Nat} {s : State} (h0 : Keeps Q_ s) : Keeps Q_ (memoryDieLost d s) := by
  unfold memoryDieLost
  try dsimp only
  with_reducible repeat' (first
    | assumption | apply keeps_mirrorSuspend | apply keeps_dieStateLost
    | apply keeps_figuresKept | apply keeps_forAll | apply keeps_logEvent
    | apply keeps_putEvents | split | (intro _) | dsimp only)

theorem keeps_unitWithDie {Q_ : List Instr} {u : Nat} {s : State} (h0 : Keeps Q_ s) : Keeps Q_ (unitWithDie u s) := by
  unfold unitWithDie
  try dsimp only
  with_reducible repeat' (first
    | assumption | apply keeps_unitOut | apply keeps_portGoesDown
    | apply keeps_linkDown | split | (intro _) | dsimp only)

theorem keeps_dieOut {Q_ : List Instr} {d cause : Nat} {s : State} (h0 : Keeps Q_ s) : Keeps Q_ (dieOut d cause s) := by
  unfold dieOut
  try dsimp only
  with_reducible repeat' (first
    | assumption | apply keeps_unitOut | apply keeps_rejoinFails
    | apply keeps_forAll | apply keeps_unitWithDie | apply keeps_keeperHalt
    | apply keeps_memoryDieLost | split | (intro _) | dsimp only)

theorem keeps_unitWork {Q_ : List Instr} {u : Nat} {s : State} (h0 : Keeps Q_ s) : Keeps Q_ (unitWork u s) := by
  unfold unitWork
  try dsimp only
  with_reducible repeat' (first
    | assumption | apply keeps_portGoesDown | apply keeps_channelFails
    | refine keeps_channelFails_eq (by assumption) ?_ | apply keeps_dieOut
    | apply keeps_wingFaults | apply keeps_engineStalls
    | apply keeps_moverAbandon | apply keeps_rekeysUnlock
    | apply keeps_sliceLost | apply keeps_atomicsGone | apply keeps_linkDown
    | split | (intro _) | dsimp only)

theorem keeps_unitFault {Q_ : List Instr} {u cause : Nat} {s : State} (h0 : Keeps Q_ s) : Keeps Q_ (unitFault u cause s) := by
  unfold unitFault
  try dsimp only
  with_reducible repeat' (first
    | assumption | apply keeps_dieOut | apply keeps_unitWork
    | apply keeps_unitOut | apply keeps_rejoinFails | split | (intro _)
    | dsimp only)

theorem keeps_unitNamed {Q_ : List Instr} {q : State × Option Nat} (h0 : Keeps Q_ q.1) : Keeps Q_ (unitNamed q) := by
  unfold unitNamed
  try dsimp only
  with_reducible repeat' (first
    | assumption | apply keeps_recomputeD | apply keeps_unitFault | split
    | (intro _) | dsimp only)

theorem keeps_unitsSettle {Q_ : List Instr} {s : State} (h0 : Keeps Q_ s) : Keeps Q_ (unitsSettle s) := by
  unfold unitsSettle
  try dsimp only
  with_reducible repeat' (first
    | assumption | apply keeps_forAll | apply keeps_recomputeD
    | apply keeps_unitFault | apply keeps_modUnitRec | split | (intro _)
    | dsimp only)

theorem keeps_takeOutPort {Q_ : List Instr} {p : Nat} {s : State} (h0 : Keeps Q_ s) : Keeps Q_ (takeOutPort p s) := by
  unfold takeOutPort
  try dsimp only
  with_reducible repeat' (first
    | assumption | apply keeps_unitOut | apply keeps_portDisable | split
    | (intro _) | dsimp only)

theorem keeps_takeOutShut {Q_ : List Instr} {w : Nat} {s : State} (h0 : Keeps Q_ s) : Keeps Q_ (takeOutShut w s) := by
  unfold takeOutShut
  try dsimp only
  with_reducible repeat' (first
    | assumption | apply keeps_unitOut | apply keeps_installedFell | split
    | (intro _) | dsimp only)

theorem keeps_takeOut {Q_ : List Instr} {u : Nat} {s : State} (h0 : Keeps Q_ s) : Keeps Q_ (takeOut u s).1 := by
  unfold takeOut
  try dsimp only
  with_reducible repeat' (first
    | assumption | apply keeps_takeOutShut | apply keeps_evacuateStart
    | apply keeps_takeOutPort | apply keeps_logEvent
    | apply keeps_modUnitRec | split | (intro _) | dsimp only)
theorem keeps_takeOut_eq {Q_ : List Instr} {u : Nat} {s : State} {t_ x_} (e_ : takeOut u s = (t_, x_)) (h0 : Keeps Q_ s) : Keeps Q_ t_ := by
  have h_ := keeps_takeOut (Q_ := Q_) (u := u) (s := s) h0
  rw [e_] at h_; exact h_

theorem keeps_drainComplete {Q_ : List Instr} {u : Nat} {s : State} (h0 : Keeps Q_ s) : Keeps Q_ (drainComplete u s) := by
  unfold drainComplete
  try dsimp only
  with_reducible repeat' (first
    | assumption | apply keeps_cmdEnd | apply keeps_unitOut
    | apply keeps_forAll | apply keeps_unitWithDie | apply keeps_sliceLost
    | apply keeps_linkDown | split | (intro _) | dsimp only)

theorem keeps_rejoinStart {Q_ : List Instr} {u : Nat} {s : State} (h0 : Keeps Q_ s) : Keeps Q_ (rejoinStart u s) := by
  unfold rejoinStart
  try dsimp only
  with_reducible repeat' (first
    | assumption | apply keeps_reopenStart | apply keeps_trainChan
    | apply keeps_logEvent | apply keeps_modUnitRec | split | (intro _)
    | dsimp only)

theorem keeps_sliceClear {Q_ : List Instr} {i : Nat} {s : State} (h0 : Keeps Q_ s) : Keeps Q_ (sliceClear i s) := by
  unfold sliceClear
  try dsimp only
  with_reducible repeat' (first
    | assumption | apply keeps_modLc | apply keeps_modCoh | split
    | (intro _) | dsimp only)

theorem keeps_dictCopyMend {Q_ : List Instr} {d x : Nat} {s : State} (h0 : Keeps Q_ s) : Keeps Q_ (dictCopyMend d x s) := by
  unfold dictCopyMend
  try dsimp only
  with_reducible repeat' (first
    | assumption | apply keeps_dictStore | split | (intro _) | dsimp only)

theorem keeps_dieRebuildStart {Q_ : List Instr} {d : Nat} {s : State} (h0 : Keeps Q_ s) : Keeps Q_ (dieRebuildStart d s) := by
  unfold dieRebuildStart
  try dsimp only
  with_reducible repeat' (first
    | assumption | refine keeps_modSpace (fun _ hx => hx) ?_
    | apply keeps_modProt | apply keeps_modLod | apply keeps_modCoh
    | apply keeps_modComp | apply keeps_forAll | apply keeps_dictCopyMend
    | apply keeps_recordReload | apply keeps_modUnit | apply keeps_trainChan
    | apply keeps_sliceClear | apply keeps_foldl | apply keeps_foldl_fst
    | apply keeps_foldl_snd | apply keeps_foldl_snd_snd | split | (intro _)
    | dsimp only)

theorem keeps_rebuildLine {Q_ : List Instr} {d : Nat} {s : State} (h0 : Keeps Q_ s) : Keeps Q_ (rebuildLine d s) := by
  unfold rebuildLine
  try dsimp only
  with_reducible repeat' (first
    | assumption | apply keeps_rebuildAt | apply keeps_modUnit | split
    | (intro _) | dsimp only)

theorem keeps_dieDefaults {Q_ : List Instr} {x : Nat} {s : State} (h0 : Keeps Q_ s) : Keeps Q_ (dieDefaults x s) := by
  unfold dieDefaults
  try dsimp only
  with_reducible repeat' (first
    | assumption | refine keeps_modWorld (fun _ hx => hx) ?_
    | apply keeps_modDict | apply keeps_modLink | apply keeps_modPort
    | apply keeps_onlyIf | apply keeps_modCh | apply keeps_modTier
    | apply keeps_modComp | apply keeps_modCoh | apply keeps_forAll
    | apply keeps_cmdEnd | apply keeps_modJob | apply keeps_labelLost
    | apply keeps_modUnit | split | (intro _) | dsimp only)

theorem keeps_rejoinRebuild {Q_ : List Instr} {u : Nat} {s : State} (h0 : Keeps Q_ s) : Keeps Q_ (rejoinRebuild u s).1 := by
  unfold rejoinRebuild
  try dsimp only
  with_reducible repeat' (first
    | assumption | apply keeps_flushEgress | apply keeps_moverAbandon
    | apply keeps_sliceClear | apply keeps_linkReset
    | refine keeps_linkReset_eq (by assumption) ?_ | apply keeps_modSw
    | apply keeps_dieDefaults | apply keeps_dieRebuildStart | split
    | (intro _) | dsimp only)
theorem keeps_rejoinRebuild_eq {Q_ : List Instr} {u : Nat} {s : State} {t_ x_} (e_ : rejoinRebuild u s = (t_, x_)) (h0 : Keeps Q_ s) : Keeps Q_ t_ := by
  have h_ := keeps_rejoinRebuild (Q_ := Q_) (u := u) (s := s) h0
  rw [e_] at h_; exact h_

theorem keeps_dieUnitsReturn {Q_ : List Instr} {d : Nat} {st : UnitState} {s : State} (h0 : Keeps Q_ s) : Keeps Q_ (dieUnitsReturn d st s) := by
  unfold dieUnitsReturn
  try dsimp only
  with_reducible repeat' (first
    | assumption | apply keeps_forAll | apply keeps_logEvent
    | apply keeps_modUnitRec | apply keeps_noticeFmPort
    | apply keeps_portTrain | apply keeps_flushEgress
    | apply keeps_linkReset | refine keeps_linkReset_eq (by assumption) ?_
    | split | (intro _) | dsimp only)

theorem keeps_rejoinEnter {Q_ : List Instr} {u : Nat} {s : State} (h0 : Keeps Q_ s) : Keeps Q_ (rejoinEnter u s) := by
  unfold rejoinEnter
  try dsimp only
  with_reducible repeat' (first
    | assumption | apply keeps_modUnitRec | apply keeps_modUnit
    | apply keeps_dieUnitsReturn | apply keeps_portTrain
    | apply keeps_recomputeD | apply keeps_logEvent | split | (intro _)
    | dsimp only)

theorem keeps_rejoinBack {Q_ : List Instr} {u : Nat} {s : State} (h0 : Keeps Q_ s) : Keeps Q_ (rejoinBack u s) := by
  unfold rejoinBack
  try dsimp only
  with_reducible repeat' (first
    | assumption | apply keeps_cmdEnd | apply keeps_logEvent
    | apply keeps_modUnitRec | split | (intro _) | dsimp only)

theorem keeps_rejoinTestDone {Q_ : List Instr} {u : Nat} {ok : Bool} {s : State} (h0 : Keeps Q_ s) : Keeps Q_ (rejoinTestDone u ok s) := by
  unfold rejoinTestDone
  try dsimp only
  with_reducible repeat' (first
    | assumption | apply keeps_rejoinEnter | apply keeps_rejoinBack
    | apply keeps_rejoinRebuild
    | refine keeps_rejoinRebuild_eq (by assumption) ?_
    | apply keeps_modUnitRec | split | (intro _) | dsimp only)

theorem keeps_mirrorRestore {Q_ : List Instr} {d : Nat} {s : State} (h0 : Keeps Q_ s) : Keeps Q_ (mirrorRestore d s) := by
  unfold mirrorRestore
  try dsimp only
  with_reducible repeat' (first
    | assumption | apply keeps_mirrorNotice | apply keeps_modProt | split
    | (intro _) | dsimp only)

theorem keeps_takeoverScanned {Q_ : List Instr} {i : Nat} {s : State} (h0 : Keeps Q_ s) : Keeps Q_ (takeoverScanned i s) := by
  unfold takeoverScanned
  try dsimp only
  with_reducible repeat' (first
    | assumption | apply keeps_forAll | apply keeps_moveAbort
    | apply keeps_rekeyUnlock | apply keeps_removeEntries
    | apply keeps_releaseResidents | apply keeps_writeBackLine
    | apply keeps_modLc | apply keeps_modUnit | split | (intro _)
    | dsimp only)

theorem keeps_unitProbation {Q_ : List Instr} {u : Nat} {s : State} (h0 : Keeps Q_ s) : Keeps Q_ (unitProbation u s) := by
  unfold unitProbation
  try dsimp only
  with_reducible repeat' (first
    | assumption | apply keeps_cmdEnd | apply keeps_noticeFmPort
    | apply keeps_logEvent | apply keeps_modUnitRec | apply keeps_recomputeD
    | apply keeps_dieUnitsReturn | split | (intro _) | dsimp only)

theorem keeps_hwmRefresh {Q_ : List Instr} {s : State} (h0 : Keeps Q_ s) : Keeps Q_ (hwmRefresh s) := by
  unfold hwmRefresh
  try dsimp only
  with_reducible repeat' (first
    | assumption | apply keeps_retain | apply keeps_foldl
    | apply keeps_foldl_fst | apply keeps_foldl_snd
    | apply keeps_foldl_snd_snd | split | (intro _) | dsimp only)

theorem keeps_unitsAtExit {Q_ : List Instr} {s : State} (h0 : Keeps Q_ s) : Keeps Q_ (unitsAtExit s) := by
  unfold unitsAtExit
  try dsimp only
  with_reducible repeat' (first
    | assumption | apply keeps_forAll | apply keeps_cmdEnd
    | apply keeps_modUnitRec | split | (intro _) | dsimp only)

theorem keeps_execDrainComplete {Q_ : List Instr} {u : UnitId} {s : State} (h0 : Keeps Q_ s) : ∃ u_, execDrainComplete u s = .next u_ ∧ Keeps Q_ u_ := by
  refine ⟨_, rfl, ?_⟩
  with_reducible repeat' (first
    | assumption | apply keeps_recomputeD | apply keeps_drainComplete
    | split | (intro _) | dsimp only)

theorem keeps_execTakeoverScanDone {Q_ : List Instr} {i : SliceId} {s : State} (h0 : Keeps Q_ s) : ∃ u_, execTakeoverScanDone i s = .next u_ ∧ Keeps Q_ u_ := by
  refine ⟨_, rfl, ?_⟩
  with_reducible repeat' (first
    | assumption | apply keeps_takeoverScanned | split | (intro _)
    | dsimp only)

theorem keeps_execRebuildLine {Q_ : List Instr} {d : MemDie} {s : State} (h0 : Keeps Q_ s) : ∃ u_, execRebuildLine d s = .next u_ ∧ Keeps Q_ u_ := by
  refine ⟨_, rfl, ?_⟩
  with_reducible repeat' (first
    | assumption | apply keeps_rebuildLine | split | (intro _) | dsimp only)

theorem keeps_execMirrorRestore {Q_ : List Instr} {d : MemDie} {s : State} (h0 : Keeps Q_ s) : ∃ u_, execMirrorRestore d s = .next u_ ∧ Keeps Q_ u_ := by
  refine ⟨_, rfl, ?_⟩
  with_reducible repeat' (first
    | assumption | apply keeps_mirrorRestore | split | (intro _)
    | dsimp only)

theorem keeps_execHwmRefresh {Q_ : List Instr} {s : State} (h0 : Keeps Q_ s) : ∃ u_, execHwmRefresh s = .next u_ ∧ Keeps Q_ u_ := by
  refine ⟨_, rfl, ?_⟩
  with_reducible repeat' (first
    | assumption | apply keeps_hwmRefresh | split | (intro _) | dsimp only)

theorem keeps_execRejoinTestDone {Q_ : List Instr} {u : UnitId} {ok : Bool} {s : State} (h0 : Keeps Q_ s) : ∃ u_, execRejoinTestDone u ok s = .next u_ ∧ Keeps Q_ u_ := by
  refine ⟨_, rfl, ?_⟩
  with_reducible repeat' (first
    | assumption | apply keeps_rejoinTestDone | split | (intro _)
    | dsimp only)

theorem keeps_execUnitProbation {Q_ : List Instr} {u : UnitId} {s : State} (h0 : Keeps Q_ s) : ∃ u_, execUnitProbation u s = .next u_ ∧ Keeps Q_ u_ := by
  refine ⟨_, rfl, ?_⟩
  with_reducible repeat' (first
    | assumption | apply keeps_unitProbation | split | (intro _)
    | dsimp only)

end Sys2Proof.Machine
end

