-- ==== Sys2Proof/Laws/KeepsEngineRows.lean ====
section
/-! SUPPORT. What the operations of Machine/EngineRows.lean keep: one lemma per operation that answers a state. -/

namespace Sys2Proof.Machine

theorem keeps_channelBroken {Q_ : List Instr} {c : Nat} {s : State} (h0 : Keeps Q_ s) : Keeps Q_ (channelBroken c s) := by
  unfold channelBroken
  try dsimp only
  with_reducible repeat' (first
    | assumption | apply keeps_channelFails
    | refine keeps_channelFails_eq (by assumption) ?_
    | apply keeps_recomputeD | apply keeps_dieOut | apply keeps_unitFault
    | split | (intro _) | dsimp only)

theorem keeps_applyEnds {Q_ : List Instr} {s : State} (h0 : Keeps Q_ s) : Keeps Q_ (applyEnds s) := by
  unfold applyEnds
  try dsimp only
  with_reducible repeat' (first
    | assumption | apply keeps_dramApplyEnd | apply keeps_recomputeD
    | apply keeps_forAll | apply keeps_dieOut | split | (intro _)
    | dsimp only)

theorem keeps_channelTrained {Q_ : List Instr} {c : Nat} {spd : Option (BitVec 2)} {ok : Bool} {bad : List Nat} {s : State} (h0 : Keeps Q_ s) : Keeps Q_ (channelTrained c spd ok bad s) := by
  unfold channelTrained
  try dsimp only
  with_reducible repeat' (first
    | assumption | apply keeps_applyEnds | apply keeps_recomputeD
    | apply keeps_chanActive | apply keeps_channelBroken
    | apply keeps_memEvent | split | (intro _) | dsimp only)

theorem keeps_chanUnpowered {Q_ : List Instr} {reopening : Bool} {c : Nat} {s : State} (h0 : Keeps Q_ s) : Keeps Q_ (chanUnpowered reopening c s) := by
  unfold chanUnpowered
  try dsimp only
  with_reducible repeat' (first
    | assumption | apply keeps_applyEnds | apply keeps_channelBroken
    | apply keeps_modChan | split | (intro _) | dsimp only)

theorem keeps_replayed {Q_ : List Instr} {c : Nat} {again : Bool} {s : State} (h0 : Keeps Q_ s) : Keeps Q_ (replayed c again s) := by
  unfold replayed
  try dsimp only
  with_reducible repeat' (first
    | assumption | apply keeps_caReplay
    | refine keeps_caReplay_eq (by assumption) ?_
    | apply keeps_channelBroken | split | (intro _) | dsimp only)

theorem keeps_wingShutDone {Q_ : List Instr} {w : Nat} {s : State} (h0 : Keeps Q_ s) : Keeps Q_ (wingShutDone w s) := by
  unfold wingShutDone
  try dsimp only
  with_reducible repeat' (first
    | assumption | apply keeps_wingShut | apply keeps_cmdEnd
    | apply keeps_recomputeD | apply keeps_takeOutShut | split | (intro _)
    | dsimp only)

theorem keeps_unitReturns {Q_ : List Instr} {u : Nat} {s : State} (h0 : Keeps Q_ s) : Keeps Q_ (unitReturns u s) := by
  unfold unitReturns
  try dsimp only
  with_reducible repeat' (first
    | assumption | apply keeps_noticeFmPort | apply keeps_logEvent
    | apply keeps_modUnitRec | split | (intro _) | dsimp only)

theorem keeps_wingReopened {Q_ : List Instr} {w : Nat} {s : State} (h0 : Keeps Q_ s) : Keeps Q_ (wingReopened w s) := by
  unfold wingReopened
  try dsimp only
  with_reducible repeat' (first
    | assumption | apply keeps_reopenTrained | apply keeps_unitReturns
    | apply keeps_cmdEnd | split | (intro _) | dsimp only)

theorem keeps_linkBroken {Q_ : List Instr} {k : Nat} {s : State} (h0 : Keeps Q_ s) : Keeps Q_ (linkBroken k s) := by
  unfold linkBroken
  try dsimp only
  with_reducible repeat' (first
    | assumption | apply keeps_cmdEnd | apply keeps_linkDown
    | apply keeps_recomputeD | apply keeps_unitFault | split | (intro _)
    | dsimp only)

theorem keeps_linkJudged {Q_ : List Instr} {k : Nat} {q : State × Bool} (h0 : Keeps Q_ q.1) : Keeps Q_ (linkJudged k q) := by
  unfold linkJudged
  try dsimp only
  with_reducible repeat' (first
    | assumption | apply keeps_linkBroken | split | (intro _) | dsimp only)

theorem keeps_transferred {Q_ : List Instr} {k : Nat} {toB : Bool} {what : LinkSend} {err : BitVec 896} {invalid : Bool} {s : State} (h0 : Keeps Q_ s) : Keeps Q_ (transferred k toB what err invalid s) := by
  unfold transferred
  try dsimp only
  with_reducible repeat' (first
    | assumption | apply keeps_transfer
    | refine keeps_transfer_eq (by assumption) ?_ | apply keeps_linkJudged
    | apply keeps_linkReset | refine keeps_linkReset_eq (by assumption) ?_
    | split | (intro _) | dsimp only)

theorem keeps_linkReadied {Q_ : List Instr} {k : Nat} {s : State} (h0 : Keeps Q_ s) : Keeps Q_ (linkReadied k s) := by
  unfold linkReadied
  try dsimp only
  with_reducible repeat' (first
    | assumption | apply keeps_linkResumes | apply keeps_cmdEnd | split
    | (intro _) | dsimp only)

theorem keeps_linkTimedOut {Q_ : List Instr} {k : Nat} {s : State} (h0 : Keeps Q_ s) : Keeps Q_ (linkTimedOut k s) := by
  unfold linkTimedOut
  try dsimp only
  with_reducible repeat' (first
    | assumption | apply keeps_linkBroken | split | (intro _) | dsimp only)

theorem keeps_watchdog {Q_ : List Instr} {u : Nat} {s : State} (h0 : Keeps Q_ s) : Keeps Q_ (watchdog u s) := by
  unfold watchdog
  try dsimp only
  with_reducible repeat' (first
    | assumption | apply keeps_linkJudged | apply keeps_linkReset
    | refine keeps_linkReset_eq (by assumption) ?_ | apply keeps_recomputeD
    | apply keeps_unitFault | apply keeps_chanUnpowered | split | (intro _)
    | dsimp only)

theorem keeps_execMoveVerifyDone {Q_ : List Instr} {d : MemDie} {c : Fin 32} {ok : Bool} {s : State} (h0 : Keeps Q_ s) : ∃ u_, execMoveVerifyDone d c ok s = .next u_ ∧ Keeps Q_ u_ := by
  refine ⟨_, rfl, ?_⟩
  with_reducible repeat' (first
    | assumption | apply keeps_unitNamed | apply keeps_moveVerify
    | refine keeps_moveVerify_eq (by assumption) ?_ | split | (intro _)
    | dsimp only)

theorem keeps_execTrainComplete {Q_ : List Instr} {x : DictId} {bad : Bool} {s : State} (h0 : Keeps Q_ s) : ∃ u_, execTrainComplete x bad s = .next u_ ∧ Keeps Q_ u_ := by
  refine ⟨_, rfl, ?_⟩
  with_reducible repeat' (first
    | assumption | apply keeps_unitNamed | apply keeps_trainEnd
    | refine keeps_trainEnd_eq (by assumption) ?_ | split | (intro _)
    | dsimp only)

theorem keeps_execCompress {Q_ : List Instr} {q : QueueId} {i : Fin 4096} {src : Option (List Byte)} {outs : Option (List (BitVec 128))} {bad : Option EngineFault} {s : State} (h0 : Keeps Q_ s) : ∃ u_, execCompress q i src outs bad s = .next u_ ∧ Keeps Q_ u_ := by
  refine ⟨_, rfl, ?_⟩
  with_reducible repeat' (first
    | assumption | apply keeps_unitNamed | apply keeps_jobCompress
    | refine keeps_jobCompress_eq (by assumption) ?_ | split | (intro _)
    | dsimp only)

theorem keeps_execDecompress {Q_ : List Instr} {q : QueueId} {i : Fin 4096} {src : Option (List Byte)} {outs : Option (List (BitVec 128))} {bad : Bool} {s : State} (h0 : Keeps Q_ s) : ∃ u_, execDecompress q i src outs bad s = .next u_ ∧ Keeps Q_ u_ := by
  refine ⟨_, rfl, ?_⟩
  with_reducible repeat' (first
    | assumption | apply keeps_unitNamed | apply keeps_jobDecompress
    | refine keeps_jobDecompress_eq (by assumption) ?_ | split | (intro _)
    | dsimp only)

theorem keeps_execExportPage {Q_ : List Instr} {q : QueueId} {i : Fin 4096} {page : BitVec 34} {bad : Option EngineFault} {s : State} (h0 : Keeps Q_ s) : ∃ u_, execExportPage q i page bad s = .next u_ ∧ Keeps Q_ u_ := by
  refine ⟨_, rfl, ?_⟩
  with_reducible repeat' (first
    | assumption | apply keeps_unitNamed | apply keeps_exportPage
    | refine keeps_exportPage_eq (by assumption) ?_ | split | (intro _)
    | dsimp only)

theorem keeps_execSqTail {Q_ : List Instr} {p : PortId} {q : QueueId} {a : QueueAccess} {s : State} (h0 : Keeps Q_ s) : ∃ u_, execSqTail p q a s = .next u_ ∧ Keeps Q_ u_ := by
  refine ⟨_, rfl, ?_⟩
  with_reducible repeat' (first
    | assumption | apply keeps_onlyIf | apply keeps_wake
    | apply keeps_writeTail | apply keeps_portActivity
    | apply keeps_writePage | apply keeps_readPageWord | split | (intro _)
    | dsimp only)

theorem keeps_execChannelTrained {Q_ : List Instr} {c : ChanId} {spd : Option (BitVec 2)} {ok : Bool} {bad : List (BitVec 33)} {s : State} (h0 : Keeps Q_ s) : ∃ u_, execChannelTrained c spd ok bad s = .next u_ ∧ Keeps Q_ u_ := by
  refine ⟨_, rfl, ?_⟩
  with_reducible repeat' (first
    | assumption | apply keeps_channelTrained | split | (intro _)
    | dsimp only)

theorem keeps_execCaReplay {Q_ : List Instr} {c : ChanId} {again : Bool} {s : State} (h0 : Keeps Q_ s) : ∃ u_, execCaReplay c again s = .next u_ ∧ Keeps Q_ u_ := by
  refine ⟨_, rfl, ?_⟩
  with_reducible repeat' (first
    | assumption | apply keeps_replayed | split | (intro _) | dsimp only)

theorem keeps_execWingShut {Q_ : List Instr} {w : WingId} {s : State} (h0 : Keeps Q_ s) : ∃ u_, execWingShut w s = .next u_ ∧ Keeps Q_ u_ := by
  refine ⟨_, rfl, ?_⟩
  with_reducible repeat' (first
    | assumption | apply keeps_wingShutDone | split | (intro _) | dsimp only)

theorem keeps_execWingReopenTrained {Q_ : List Instr} {w : WingId} {s : State} (h0 : Keeps Q_ s) : ∃ u_, execWingReopenTrained w s = .next u_ ∧ Keeps Q_ u_ := by
  refine ⟨_, rfl, ?_⟩
  with_reducible repeat' (first
    | assumption | apply keeps_wingReopened | split | (intro _) | dsimp only)

theorem keeps_execCorridorTransfer {Q_ : List Instr} {k : LinkId} {toB : Bool} {what : LinkSend} {err : BitVec 896} {invalid : Bool} {s : State} (h0 : Keeps Q_ s) : ∃ u_, execCorridorTransfer k toB what err invalid s = .next u_ ∧ Keeps Q_ u_ := by
  refine ⟨_, rfl, ?_⟩
  with_reducible repeat' (first
    | assumption | apply keeps_transferred | split | (intro _) | dsimp only)

theorem keeps_execResetReq {Q_ : List Instr} {k : LinkId} {byB : Bool} {cause : Byte} {s : State} (h0 : Keeps Q_ s) : ∃ u_, execResetReq k byB cause s = .next u_ ∧ Keeps Q_ u_ := by
  refine ⟨_, rfl, ?_⟩
  with_reducible repeat' (first
    | assumption | apply keeps_linkJudged | apply keeps_linkResetReq
    | refine keeps_linkResetReq_eq (by assumption) ?_ | split | (intro _)
    | dsimp only)

theorem keeps_execLinkGroupTestDone {Q_ : List Instr} {k : LinkId} {badAB badBA : BitVec 78} {s : State} (h0 : Keeps Q_ s) : ∃ u_, execLinkGroupTestDone k badAB badBA s = .next u_ ∧ Keeps Q_ u_ := by
  refine ⟨_, rfl, ?_⟩
  with_reducible repeat' (first
    | assumption | apply keeps_linkJudged | apply keeps_linkTested
    | refine keeps_linkTested_eq (by assumption) ?_ | split | (intro _)
    | dsimp only)

theorem keeps_execLinkMap {Q_ : List Instr} {k : LinkId} {unchanged : Bool} {s : State} (h0 : Keeps Q_ s) : ∃ u_, execLinkMap k unchanged s = .next u_ ∧ Keeps Q_ u_ := by
  refine ⟨_, rfl, ?_⟩
  with_reducible repeat' (first
    | assumption | apply keeps_linkJudged | apply keeps_linkMapped
    | refine keeps_linkMapped_eq (by assumption) ?_ | split | (intro _)
    | dsimp only)

theorem keeps_execLinkCredits {Q_ : List Instr} {k : LinkId} {s : State} (h0 : Keeps Q_ s) : ∃ u_, execLinkCredits k s = .next u_ ∧ Keeps Q_ u_ := by
  refine ⟨_, rfl, ?_⟩
  with_reducible repeat' (first
    | assumption | apply keeps_linkCreditsSent | split | (intro _)
    | dsimp only)

theorem keeps_execLinkReady {Q_ : List Instr} {k : LinkId} {s : State} (h0 : Keeps Q_ s) : ∃ u_, execLinkReady k s = .next u_ ∧ Keeps Q_ u_ := by
  refine ⟨_, rfl, ?_⟩
  with_reducible repeat' (first
    | assumption | apply keeps_linkReadied | split | (intro _) | dsimp only)

theorem keeps_execCorridorResetTimeout {Q_ : List Instr} {k : LinkId} {s : State} (h0 : Keeps Q_ s) : ∃ u_, execCorridorResetTimeout k s = .next u_ ∧ Keeps Q_ u_ := by
  refine ⟨_, rfl, ?_⟩
  with_reducible repeat' (first
    | assumption | apply keeps_linkTimedOut | split | (intro _) | dsimp only)

theorem keeps_execUnitWdog {Q_ : List Instr} {u : UnitId} {s : State} (h0 : Keeps Q_ s) : ∃ u_, execUnitWdog u s = .next u_ ∧ Keeps Q_ u_ := by
  refine ⟨_, rfl, ?_⟩
  with_reducible repeat' (first
    | assumption | apply keeps_watchdog | split | (intro _) | dsimp only)

end Sys2Proof.Machine
end

