-- ==== Sys2Proof/Laws/KeepsBoot.lean ====
section
/-! SUPPORT. What the operations of Machine/Boot.lean keep: one lemma per operation that answers a state. -/

namespace Sys2Proof.Machine

theorem cutAgain_length (l : List GbCut) : (cutAgain l).length = l.length := by
  cases l <;> rfl

theorem keeps_deviceWipe {q : List Instr} {cause : Nat} {s : State} (h : Keeps q s) : Keeps q (deviceWipe cause s) := by
  have ht : Keeps q (dieSramGone (psEnter .run s)) := keeps_dieSramGone (keeps_psEnter h)
  unfold deviceWipe
  exact keeps_modCr (fun _ hx => hx) (fun _ hx => hx)
    ⟨ht.1, ht.2, Nat.le_trans (List.length_filter_le _ _) ht.3, ht.4, ht.5, ht.6⟩

theorem keeps_xportDrawn {Q_ : List Instr} {s : State} (h0 : Keeps Q_ s) : Keeps Q_ (xportDrawn s) := by
  unfold xportDrawn
  try dsimp only
  with_reducible repeat' (first
    | assumption | apply keeps_afterDraw | apply keeps_modSl
    | apply keeps_modProt | split | (intro _) | dsimp only)

theorem keeps_keyCarried {Q_ : List Instr} {s : State} (h0 : Keeps Q_ s) : Keeps Q_ (keyCarried s) := by
  unfold keyCarried
  try dsimp only
  with_reducible repeat' (first
    | assumption | apply keeps_forAll | apply keeps_messageSent | split
    | (intro _) | dsimp only)

theorem keeps_keysDrawn {Q_ : List Instr} {s : State} (h0 : Keeps Q_ s) : Keeps Q_ (keysDrawn s) := by
  unfold keysDrawn
  try dsimp only
  with_reducible repeat' (first
    | assumption | apply keeps_xportDrawn | apply keeps_keyCarried
    | apply keeps_modProt | apply keeps_afterDraw | split | (intro _)
    | dsimp only)

theorem keeps_timebasesAlign {Q_ : List Instr} {s : State} (h0 : Keeps Q_ s) : Keeps Q_ (timebasesAlign s) := by
  unfold timebasesAlign
  try dsimp only
  with_reducible repeat' (first
    | assumption | apply keeps_afterDraw | apply keeps_modUnit
    | apply keeps_foldl | apply keeps_foldl_fst | apply keeps_foldl_snd
    | apply keeps_foldl_snd_snd | split | (intro _) | dsimp only)

theorem keeps_linksReset {Q_ : List Instr} {cause : Nat} {s : State} (h0 : Keeps Q_ s) : Keeps Q_ (linksReset cause s) := by
  unfold linksReset
  try dsimp only
  with_reducible repeat' (first
    | assumption | apply keeps_forAll | apply keeps_linkReset
    | refine keeps_linkReset_eq (by assumption) ?_ | split | (intro _)
    | dsimp only)

theorem keeps_deniedOut {Q_ : List Instr} {s : State} (h0 : Keeps Q_ s) : Keeps Q_ (deniedOut s) := by
  unfold deniedOut
  try dsimp only
  with_reducible repeat' (first
    | assumption | apply keeps_forAll | apply keeps_dieOut | split
    | (intro _) | dsimp only)

theorem keeps_bootDies {Q_ : List Instr} {s : State} (h0 : Keeps Q_ s) : Keeps Q_ (bootDies s) := by
  unfold bootDies
  try dsimp only
  with_reducible repeat' (first
    | assumption | refine keeps_modWorld (fun _ hx => hx) ?_
    | apply keeps_keysDrawn | apply keeps_modSl | apply keeps_measExtend
    | apply keeps_measSecurity | apply keeps_logPlain
    | apply keeps_portsHeld | apply keeps_vcoreFix | apply keeps_linksReset
    | apply keeps_recomputeD | apply keeps_deniedOut
    | apply keeps_timebasesAlign | split | (intro _) | dsimp only)

theorem keeps_railsDone {Q_ : List Instr} {s : State} (h0 : Keeps Q_ s) : Keeps Q_ (railsDone s) := by
  unfold railsDone
  try dsimp only
  with_reducible repeat' (first
    | assumption | apply keeps_bootDies | apply keeps_deviceWipe | split
    | (intro _) | dsimp only)

theorem keeps_deviceReset {Q_ : List Instr} {cause : Nat} {s : State} (h0 : Keeps Q_ s) : Keeps Q_ (deviceReset cause s) := by
  unfold deviceReset
  try dsimp only
  with_reducible repeat' (first
    | assumption | apply keeps_deviceWipe | apply keeps_bootDies
    | apply keeps_modSl | apply keeps_railsDone | apply keeps_startRails
    | apply keeps_modHs | split | (intro _) | dsimp only)

theorem keeps_railTimeout {Q_ : List Instr} {r : Nat} {s : State} (h0 : Keeps Q_ s) : Keeps Q_ (railTimeout r s) := by
  unfold railTimeout
  try dsimp only
  with_reducible repeat' (first
    | assumption | apply keeps_railsDone | apply keeps_advanceRails
    | apply keeps_logEvent | apply keeps_modSl | apply keeps_onlyIf
    | apply keeps_railsOfDieFall | split | (intro _) | dsimp only)

theorem keeps_railLost {Q_ : List Instr} {r : Nat} {s : State} (h0 : Keeps Q_ s) : Keeps Q_ (railLost r s) := by
  unfold railLost
  try dsimp only
  with_reducible repeat' (first
    | assumption | apply keeps_logEvent | apply keeps_modSl
    | apply keeps_railsOfDieFall | apply keeps_recomputeD
    | apply keeps_dieOut | apply keeps_railsDone | apply keeps_advanceRails
    | split | (intro _) | dsimp only)

theorem keeps_standbyLost {q : List Instr} {s : State} (h : Keeps q s) : Keeps q (standbyLost s) :=
  ⟨h.1, rfl, Nat.zero_le _, Nat.zero_le _, Nat.zero_le _, rfl⟩

theorem keeps_standbyRise {Q_ : List Instr} {strap slSel : Nat} {flashOk : Bool} {torn : List Nat} {s : State} (h0 : Keeps Q_ s) : Keeps Q_ (standbyRise strap slSel flashOk torn s) := by
  unfold standbyRise
  try dsimp only
  with_reducible repeat' (first
    | assumption | refine keeps_modCr (fun _ hx => hx) (fun _ hx => hx) ?_
    | refine keeps_modGb (fun _ hx => hx) ?_ | apply keeps_modSl
    | apply keeps_modDict | apply keeps_gbStandbyRise | apply keeps_forAll
    | apply keeps_gbHeaderLost | apply keeps_logPlain | split | (intro _)
    | dsimp only)

theorem keeps_hardwareKnown {Q_ : List Instr} {s : State} (h0 : Keeps Q_ s) : Keeps Q_ (hardwareKnown s) := by
  unfold hardwareKnown
  try dsimp only
  with_reducible repeat' (first
    | assumption | apply keeps_portsStart | apply keeps_forAll
    | apply keeps_modSw | apply keeps_modChan | split | (intro _)
    | dsimp only)

theorem keeps_firmwareStart {Q_ : List Instr} {k st : Option (BitVec 384)} {s : State} (h0 : Keeps Q_ s) : Keeps Q_ (firmwareStart k st s) := by
  unfold firmwareStart
  try dsimp only
  with_reducible repeat' (first
    | assumption | refine keeps_modWorld (fun _ hx => hx) ?_
    | apply keeps_measExtend | apply keeps_keeperHalt | apply keeps_logPlain
    | apply keeps_hardwareKnown | apply keeps_modSl | split | (intro _)
    | dsimp only)

theorem keeps_firmwareResume {Q_ : List Instr} {k st : Option (BitVec 384)} {s : State} (h0 : Keeps Q_ s) : Keeps Q_ (firmwareResume k st s) := by
  unfold firmwareResume
  try dsimp only
  with_reducible repeat' (first
    | assumption | refine keeps_modWorld (fun _ hx => hx) ?_
    | apply keeps_keeperHalt | split | (intro _) | dsimp only)

theorem keeps_firmwareChecked {Q_ : List Instr} {k st : Option (BitVec 384)} {s : State} (h0 : Keeps Q_ s) : Keeps Q_ (firmwareChecked k st s) := by
  unfold firmwareChecked
  try dsimp only
  with_reducible repeat' (first
    | assumption | apply keeps_firmwareStart | apply keeps_firmwareResume
    | split | (intro _) | dsimp only)

theorem keeps_keeperResumes {Q_ : List Instr} {img : Option (BitVec 384)} {s : State} (h0 : Keeps Q_ s) : Keeps Q_ (keeperResumes img s) := by
  unfold keeperResumes
  try dsimp only
  with_reducible repeat' (first
    | assumption | apply keeps_keeperResumeCore | apply keeps_keysReissued
    | split | (intro _) | dsimp only)

theorem keeps_fusesBlown {Q_ : List Instr} {code operand : Nat} {s : State} (h0 : Keeps Q_ s) : Keeps Q_ (fusesBlown code operand s) := by
  unfold fusesBlown
  try dsimp only
  with_reducible repeat' (first
    | assumption | apply keeps_modSl | split | (intro _) | dsimp only)

theorem keeps_lifeCycle {Q_ : List Instr} {code operand : Nat} {readBack : Bool} {source seq : Nat} {s : State} (h0 : Keeps Q_ s) : Keeps Q_ (lifeCycle code operand readBack source seq s) := by
  unfold lifeCycle
  try dsimp only
  with_reducible repeat' (first
    | assumption | refine keeps_modSpace (fun _ hx => hx) ?_
    | apply keeps_forAll | apply keeps_portDisable | apply keeps_modDict
    | apply keeps_fusesBlown | apply keeps_modSl | apply keeps_deviceReset
    | split | (intro _) | dsimp only)

theorem keeps_heartbeatLost {Q_ : List Instr} {s : State} (h0 : Keeps Q_ s) : Keeps Q_ (heartbeatLost s) := by
  unfold heartbeatLost
  try dsimp only
  with_reducible repeat' (first
    | refine keeps_modGb (fun _ hx => Nat.le_trans (Nat.le_of_eq (cutAgain_length _)) hx) ?_
    | assumption | refine keeps_modGb (fun _ hx => hx) ?_
    | apply keeps_modHs | apply keeps_modUnit | apply keeps_modDict
    | apply keeps_modSl | split | (intro _) | dsimp only)

theorem keeps_cacheLineLost {Q_ : List Instr} {k : Nat} {s : State} (h0 : Keeps Q_ s) : Keeps Q_ (cacheLineLost k s) := by
  unfold cacheLineLost
  try dsimp only
  with_reducible repeat' (first
    | assumption | apply keeps_modLc | apply keeps_poisonLine | split
    | (intro _) | dsimp only)

theorem keeps_mergeLost {Q_ : List Instr} {c i : Nat} {s : State} (h0 : Keeps Q_ s) : Keeps Q_ (mergeLost c i s) := by
  unfold mergeLost
  try dsimp only
  with_reducible repeat' (first
    | assumption | apply keeps_modChan | apply keeps_poisonLine | split
    | (intro _) | dsimp only)

theorem keeps_nodeLost {Q_ : List Instr} {d m h level k : Nat} {s : State} (h0 : Keeps Q_ s) : Keeps Q_ (nodeLost d m h level k s) := by
  unfold nodeLost
  try dsimp only
  with_reducible repeat' (first
    | assumption | apply keeps_modProt | apply keeps_leafLost
    | apply keeps_failCount | apply keeps_subtreeLost | split | (intro _)
    | dsimp only)

theorem keeps_keySlotLost {Q_ : List Instr} {d n : Nat} {s : State} (h0 : Keeps Q_ s) : Keeps Q_ (keySlotLost d n s) := by
  unfold keySlotLost
  try dsimp only
  with_reducible repeat' (first
    | assumption | apply keeps_modProt | split | (intro _) | dsimp only)

theorem keeps_retentionLost {Q_ : List Instr} {what : Retained} {s : State} (h0 : Keeps Q_ s) : Keeps Q_ (retentionLost what s) := by
  unfold retentionLost
  try dsimp only
  with_reducible repeat' (first
    | assumption | apply keeps_modDict | apply keeps_modUnit
    | apply keeps_modSl | split | (intro _) | dsimp only)

theorem keeps_directoryLost {Q_ : List Instr} {ways : List Nat} {s : State} (h0 : Keeps Q_ s) : Keeps Q_ (directoryLost ways s) := by
  unfold directoryLost
  try dsimp only
  with_reducible repeat' (first
    | assumption | apply keeps_logPlain | apply keeps_modCoh | split
    | (intro _) | dsimp only)

theorem keeps_jobSpoiled {Q_ : List Instr} {q i : Nat} {s : State} (h0 : Keeps Q_ s) : Keeps Q_ (jobSpoiled q i s) := by
  unfold jobSpoiled
  try dsimp only
  with_reducible repeat' (first
    | assumption | apply keeps_jobEnds | split | (intro _) | dsimp only)

theorem keeps_sramLost {Q_ : List Instr} {held : SramHolds} {s : State} (h0 : Keeps Q_ s) : Keeps Q_ (sramLost held s) := by
  unfold sramLost
  try dsimp only
  with_reducible repeat' (first
    | assumption | refine keeps_modWorld (fun _ hx => hx) ?_
    | apply keeps_directoryLost | apply keeps_logPlain
    | apply keeps_labelLost | apply keeps_modReg | apply keeps_modChan
    | apply keeps_cacheLineLost | apply keeps_mergeLost
    | apply keeps_rootLost | apply keeps_nodeLost | apply keeps_descFail
    | apply keeps_keySlotLost | apply keeps_modLod | apply keeps_modCoh
    | apply keeps_modComp | apply keeps_recordReload | apply keeps_moveAbort
    | apply keeps_retentionLost | apply keeps_l2Invalidate
    | apply keeps_modSw | apply keeps_ideFail | apply keeps_ideInsecure
    | apply keeps_jobSpoiled | apply keeps_modPortAt | apply keeps_foldl
    | apply keeps_foldl_fst | apply keeps_foldl_snd
    | apply keeps_foldl_snd_snd | split | (intro _) | dsimp only)

theorem keeps_sramPatrol {Q_ : List Instr} {b : Nat} {word : BitVec 64} {err : BitVec 79} {held : SramHolds} {s : State} (h0 : Keeps Q_ s) : Keeps Q_ (sramPatrol b word err held s) := by
  unfold sramPatrol
  try dsimp only
  with_reducible repeat' (first
    | assumption | apply keeps_modUnit | apply keeps_regionDenied
    | apply keeps_sramLost | apply keeps_onlyIf | apply keeps_logEvent
    | split | (intro _) | dsimp only)

theorem keeps_gbFigures {Q_ : List Instr} {d : Nat} {s : State} (h0 : Keeps Q_ s) : Keeps Q_ (gbFigures d s) := by
  unfold gbFigures
  try dsimp only
  with_reducible repeat' (first
    | assumption | refine keeps_modGb (fun _ hx => hx) ?_
    | apply keeps_foldl | apply keeps_foldl_fst | apply keeps_foldl_snd
    | apply keeps_foldl_snd_snd | split | (intro _) | dsimp only)

theorem keeps_execRegulatorPowerGood {Q_ : List Instr} {r : RailId} {s : State} (h0 : Keeps Q_ s) : ∃ u_, execRegulatorPowerGood r s = .next u_ ∧ Keeps Q_ u_ := by
  refine ⟨_, rfl, ?_⟩
  with_reducible repeat' (first
    | assumption | apply keeps_railsDone | apply keeps_railGood | split
    | (intro _) | dsimp only)

theorem keeps_execRegulatorTimeout {Q_ : List Instr} {r : RailId} {s : State} (h0 : Keeps Q_ s) : ∃ u_, execRegulatorTimeout r s = .next u_ ∧ Keeps Q_ u_ := by
  refine ⟨_, rfl, ?_⟩
  with_reducible repeat' (first
    | assumption | apply keeps_railTimeout | split | (intro _) | dsimp only)

theorem keeps_execPowerGoodLoss {Q_ : List Instr} {r : RailId} {s : State} (h0 : Keeps Q_ s) : ∃ u_, execPowerGoodLoss r s = .next u_ ∧ Keeps Q_ u_ := by
  refine ⟨_, rfl, ?_⟩
  with_reducible repeat' (first
    | assumption | apply keeps_railLost | split | (intro _) | dsimp only)

theorem keeps_execThermalRecovery {Q_ : List Instr} {s : State} (h0 : Keeps Q_ s) : ∃ u_, execThermalRecovery s = .next u_ ∧ Keeps Q_ u_ := by
  refine ⟨_, rfl, ?_⟩
  with_reducible repeat' (first
    | assumption | apply keeps_railsDone | apply keeps_thermalRecovery
    | apply keeps_modSl | split | (intro _) | dsimp only)

theorem keeps_execStandbyRise {Q_ : List Instr} {strap : BitVec 2} {slSel : Bool} {flash : FlashAtRise} {s : State} (h0 : Keeps Q_ s) : ∃ u_, execStandbyRise strap slSel flash s = .next u_ ∧ Keeps Q_ u_ := by
  refine ⟨_, rfl, ?_⟩
  with_reducible repeat' (first
    | assumption | apply keeps_standbyRise | split | (intro _) | dsimp only)

theorem keeps_execStandbyLoss {Q_ : List Instr} {s : State} (h0 : Keeps Q_ s) : ∃ u_, execStandbyLoss s = .next u_ ∧ Keeps Q_ u_ := by
  refine ⟨_, rfl, ?_⟩
  with_reducible repeat' (first
    | assumption | apply keeps_standbyLost | split | (intro _) | dsimp only)

theorem keeps_execBootFirmwareStart {Q_ : List Instr} {keeper steward : FwSlots} {s : State} (h0 : Keeps Q_ s) : ∃ u_, execBootFirmwareStart keeper steward s = .next u_ ∧ Keeps Q_ u_ := by
  refine ⟨_, rfl, ?_⟩
  with_reducible repeat' (first
    | assumption | apply keeps_firmwareChecked | split | (intro _)
    | dsimp only)

theorem keeps_execKeeperResume {Q_ : List Instr} {img : FwSlots} {s : State} (h0 : Keeps Q_ s) : ∃ u_, execKeeperResume img s = .next u_ ∧ Keeps Q_ u_ := by
  refine ⟨_, rfl, ?_⟩
  with_reducible repeat' (first
    | assumption | apply keeps_keeperResumes | split | (intro _)
    | dsimp only)

theorem keeps_execDevResetN {Q_ : List Instr} {s : State} (h0 : Keeps Q_ s) : ∃ u_, execDevResetN s = .next u_ ∧ Keeps Q_ u_ := by
  refine ⟨_, rfl, ?_⟩
  with_reducible repeat' (first
    | assumption | apply keeps_deviceReset | split | (intro _) | dsimp only)

theorem keeps_execHeartbeatTimeout {Q_ : List Instr} {s : State} (h0 : Keeps Q_ s) : ∃ u_, execHeartbeatTimeout s = .next u_ ∧ Keeps Q_ u_ := by
  refine ⟨_, rfl, ?_⟩
  with_reducible repeat' (first
    | assumption | apply keeps_heartbeatLost | split | (intro _)
    | dsimp only)

theorem keeps_execSramPatrol {Q_ : List Instr} {bank : Fin 128} {read : SramRead} {held : SramHolds} {s : State} (h0 : Keeps Q_ s) : ∃ u_, execSramPatrol bank read held s = .next u_ ∧ Keeps Q_ u_ := by
  refine ⟨_, rfl, ?_⟩
  with_reducible repeat' (first
    | assumption | apply keeps_sramPatrol | split | (intro _) | dsimp only)

theorem keeps_execGbFigures {Q_ : List Instr} {d : DieId} {s : State} (h0 : Keeps Q_ s) : ∃ u_, execGbFigures d s = .next u_ ∧ Keeps Q_ u_ := by
  refine ⟨_, rfl, ?_⟩
  with_reducible repeat' (first
    | assumption | apply keeps_gbFigures | split | (intro _) | dsimp only)

end Sys2Proof.Machine
end

