-- ==== Sys2Proof/Laws/KeepsPowerEntry.lean ====
section
/-! SUPPORT. What the operations of Machine/PowerEntry.lean keep: one lemma per operation that answers a state. -/

namespace Sys2Proof.Machine

theorem keeps_mainPowerGood {Q_ : List Instr} {s : State} (h0 : Keeps Q_ s) : Keeps Q_ (mainPowerGood s) := by
  unfold mainPowerGood
  try dsimp only
  with_reducible repeat' (first
    | assumption | apply keeps_modHs | apply keeps_startRails
    | apply keeps_modPs | apply keeps_deviceReset | apply keeps_railsDone
    | apply keeps_modSl | split | (intro _) | dsimp only)

theorem keeps_wingUnpowered {Q_ : List Instr} {w : Nat} {s : State} (h0 : Keeps Q_ s) : Keeps Q_ (wingUnpowered w s) := by
  unfold wingUnpowered
  try dsimp only
  with_reducible repeat' (first
    | assumption | apply keeps_wingFaults | apply keeps_recomputeD
    | apply keeps_unitFault | apply keeps_chanUnpowered | split | (intro _)
    | dsimp only)

theorem keeps_branchTripped {Q_ : List Instr} {w cause cur : Nat} {s : State} (h0 : Keeps Q_ s) : Keeps Q_ (branchTripped w cause cur s) := by
  unfold branchTripped
  try dsimp only
  with_reducible repeat' (first
    | assumption | apply keeps_onlyIf | apply keeps_wingUnpowered
    | apply keeps_branchTripCore | split | (intro _) | dsimp only)

theorem keeps_branchSampled {Q_ : List Instr} {w vout cur other : Nat} {s : State} (h0 : Keeps Q_ s) : Keeps Q_ (branchSampled w vout cur other s) := by
  unfold branchSampled
  try dsimp only
  with_reducible repeat' (first
    | assumption | apply keeps_measureBranch | apply keeps_branchTripped
    | split | (intro _) | dsimp only)

theorem keeps_branchTripEvent {Q_ : List Instr} {w : Nat} {fast : Bool} {cur : Nat} {s : State} (h0 : Keeps Q_ s) : Keeps Q_ (branchTripEvent w fast cur s) := by
  unfold branchTripEvent
  try dsimp only
  with_reducible repeat' (first
    | assumption | apply keeps_modBranch | apply keeps_fetFault
    | apply keeps_branchTripped | split | (intro _) | dsimp only)

theorem keeps_branchGood {Q_ : List Instr} {w : Nat} {s : State} (h0 : Keeps Q_ s) : Keeps Q_ (branchGood w s) := by
  unfold branchGood
  try dsimp only
  with_reducible repeat' (first
    | assumption | apply keeps_modBranch | apply keeps_trainWing | split
    | (intro _) | dsimp only)

theorem keeps_fetFault {Q_ : List Instr} {w : Nat} {s : State} (h0 : Keeps Q_ s) : Keeps Q_ (fetFault w s) := by
  unfold fetFault
  try dsimp only
  with_reducible repeat' (first
    | assumption | apply keeps_logEvent | apply keeps_bumpHs
    | apply keeps_modBranch | apply keeps_cmdEnd | apply keeps_reopenStart
    | apply keeps_modWingAt | split | (intro _) | dsimp only)

theorem keeps_branchOff {Q_ : List Instr} {w : Nat} {s : State} (h0 : Keeps Q_ s) : Keeps Q_ (branchOff w s) := by
  unfold branchOff
  try dsimp only
  with_reducible repeat' (first
    | assumption | apply keeps_modBranch | split | (intro _) | dsimp only)

theorem keeps_execMainPowerGood {Q_ : List Instr} {s : State} (h0 : Keeps Q_ s) : ∃ u_, execMainPowerGood s = .next u_ ∧ Keeps Q_ u_ := by
  refine ⟨_, rfl, ?_⟩
  with_reducible repeat' (first
    | assumption | apply keeps_mainPowerGood | split | (intro _)
    | dsimp only)

theorem keeps_execBranchPowerGood {Q_ : List Instr} {w : WingId} {s : State} (h0 : Keeps Q_ s) : ∃ u_, execBranchPowerGood w s = .next u_ ∧ Keeps Q_ u_ := by
  refine ⟨_, rfl, ?_⟩
  with_reducible repeat' (first
    | assumption | apply keeps_branchGood | split | (intro _) | dsimp only)

theorem keeps_execBranchRampTimeout {Q_ : List Instr} {w : WingId} {s : State} (h0 : Keeps Q_ s) : ∃ u_, execBranchRampTimeout w s = .next u_ ∧ Keeps Q_ u_ := by
  refine ⟨_, rfl, ?_⟩
  with_reducible repeat' (first
    | assumption | apply keeps_branchTripped | split | (intro _)
    | dsimp only)

theorem keeps_execBranchSample {Q_ : List Instr} {w : WingId} {vout : BitVec 16} {cur : IslandCurrents} {s : State} (h0 : Keeps Q_ s) : ∃ u_, execBranchSample w vout cur s = .next u_ ∧ Keeps Q_ u_ := by
  refine ⟨_, rfl, ?_⟩
  with_reducible repeat' (first
    | assumption | apply keeps_branchSampled | split | (intro _)
    | dsimp only)

theorem keeps_execBranchTrip {Q_ : List Instr} {w : WingId} {fast : Bool} {cur : BitVec 32} {s : State} (h0 : Keeps Q_ s) : ∃ u_, execBranchTrip w fast cur s = .next u_ ∧ Keeps Q_ u_ := by
  refine ⟨_, rfl, ?_⟩
  with_reducible repeat' (first
    | assumption | apply keeps_branchTripEvent | split | (intro _)
    | dsimp only)

theorem keeps_execBranchOff {Q_ : List Instr} {w : WingId} {s : State} (h0 : Keeps Q_ s) : ∃ u_, execBranchOff w s = .next u_ ∧ Keeps Q_ u_ := by
  refine ⟨_, rfl, ?_⟩
  with_reducible repeat' (first
    | assumption | apply keeps_branchOff | split | (intro _) | dsimp only)

theorem keeps_execFetFault {Q_ : List Instr} {w : WingId} {s : State} (h0 : Keeps Q_ s) : ∃ u_, execFetFault w s = .next u_ ∧ Keeps Q_ u_ := by
  refine ⟨_, rfl, ?_⟩
  with_reducible repeat' (first
    | assumption | apply keeps_fetFault | split | (intro _) | dsimp only)

end Sys2Proof.Machine
end

