-- ==== Sys2Proof/Laws/KeepsNight.lean ====
section
/-! SUPPORT. What the operations of Machine/Night.lean keep: one lemma per operation that answers a state. -/

namespace Sys2Proof.Machine

theorem keeps_imagesWritten {Q_ : List Instr} {s : State} (h0 : Keeps Q_ s) : Keeps Q_ (imagesWritten s) := by
  unfold imagesWritten
  try dsimp only
  with_reducible repeat' (first
    | assumption | apply keeps_modProt | split | (intro _) | dsimp only)

theorem keeps_rootsSealed {Q_ : List Instr} {s : State} (h0 : Keeps Q_ s) : Keeps Q_ (rootsSealed s) := by
  unfold rootsSealed
  try dsimp only
  with_reducible repeat' (first
    | assumption | apply keeps_afterDraw | apply keeps_retain | split
    | (intro _) | dsimp only)

theorem keeps_sealZeroed {Q_ : List Instr} {s : State} (h0 : Keeps Q_ s) : Keeps Q_ (sealZeroed s) := by
  unfold sealZeroed
  try dsimp only
  with_reducible repeat' (first
    | assumption | apply keeps_retain | split | (intro _) | dsimp only)

theorem keeps_treeFlushed {Q_ : List Instr} {s : State} (h0 : Keeps Q_ s) : Keeps Q_ (treeFlushed s) := by
  unfold treeFlushed
  try dsimp only
  with_reducible repeat' (first
    | assumption | apply keeps_forAll | apply keeps_nodeWriteBack | split
    | (intro _) | dsimp only)

theorem keeps_channelsDrained {Q_ : List Instr} {s : State} (h0 : Keeps Q_ s) : Keeps Q_ (channelsDrained s) := by
  unfold channelsDrained
  try dsimp only
  with_reducible repeat' (first
    | assumption | apply keeps_forAll | apply keeps_drainChan
    | apply keeps_mergeOut | split | (intro _) | dsimp only)

theorem keeps_cacheFlushed {Q_ : List Instr} {s : State} (h0 : Keeps Q_ s) : Keeps Q_ (cacheFlushed s) := by
  unfold cacheFlushed
  try dsimp only
  with_reducible repeat' (first
    | assumption | apply keeps_releaseResidents | apply keeps_forAll
    | apply keeps_writeBackLine | apply keeps_modTier | apply keeps_lcPut
    | split | (intro _) | dsimp only)

theorem keeps_nightRecall {Q_ : List Instr} {s : State} (h0 : Keeps Q_ s) : Keeps Q_ (nightRecall s) := by
  unfold nightRecall
  try dsimp only
  with_reducible repeat' (first
    | assumption | apply keeps_removeEntries | split | (intro _)
    | dsimp only)

theorem keeps_entryBegin {Q_ : List Instr} {k : Nat} {s : State} (h0 : Keeps Q_ s) : Keeps Q_ (entryBegin k s) := by
  unfold entryBegin
  try dsimp only
  with_reducible repeat' (first
    | assumption | apply keeps_forAll | apply keeps_trainStop
    | apply keeps_rekeysUnlock | apply keeps_moverAbandon
    | apply keeps_nightRecall | apply keeps_modCoh | apply keeps_deadAgent
    | apply keeps_imagesWritten | apply keeps_treeFlushed
    | apply keeps_channelsDrained | apply keeps_linkStops
    | apply keeps_chanSelfRefresh | apply keeps_rootsSealed | split
    | (intro _) | dsimp only)

theorem keeps_entryAbandon {Q_ : List Instr} {k source : Nat} {s : State} (h0 : Keeps Q_ s) : Keeps Q_ (entryAbandon k source s) := by
  unfold entryAbandon
  try dsimp only
  with_reducible repeat' (first
    | assumption | apply keeps_modProt | apply keeps_linksReset
    | apply keeps_forAll | apply keeps_chanWake | apply keeps_sealZeroed
    | apply keeps_bumpPs | apply keeps_recordWake | apply keeps_modPs
    | apply keeps_psEnter | split | (intro _) | dsimp only)

theorem keeps_dieVolatileGone {Q_ : List Instr} {s : State} (h0 : Keeps Q_ s) : Keeps Q_ (dieVolatileGone s) := by
  unfold dieVolatileGone
  try dsimp only
  with_reducible repeat' (first
    | assumption | apply keeps_modDict | split | (intro _) | dsimp only)

theorem keeps_diesAsleep {q : List Instr} {s : State} (h : Keeps q s) : Keeps q (diesAsleep s) := by
  have ht : Keeps q (dieVolatileGone (regulationReset s)) := keeps_dieVolatileGone (keeps_regulationReset h)
  exact ⟨ht.1, ht.2, ht.3, ht.4, ht.5, rfl⟩

theorem keeps_parkMain {Q_ : List Instr} {s : State} (h0 : Keeps Q_ s) : Keeps Q_ (parkMain s) := by
  unfold parkMain
  try dsimp only
  with_reducible repeat' (first
    | refine keeps_modSpace (fun _ _ => rfl) ?_ | assumption
    | refine keeps_modSpace (fun _ hx => hx) ?_
    | apply keeps_openAllBranches | apply keeps_allRailsFall
    | apply keeps_modHs | split | (intro _) | dsimp only)

theorem keeps_offReached {Q_ : List Instr} {s : State} (h0 : Keeps Q_ s) : Keeps Q_ (offReached s) := by
  unfold offReached
  try dsimp only
  with_reducible repeat' (first
    | assumption | apply keeps_psEnter | apply keeps_bumpPs
    | apply keeps_modProt | apply keeps_parkMain | split | (intro _)
    | dsimp only)

theorem keeps_levelsLatched {Q_ : List Instr} {s : State} (h0 : Keeps Q_ s) : Keeps Q_ (levelsLatched s) := by
  unfold levelsLatched
  try dsimp only
  with_reducible repeat' (first
    | assumption | apply keeps_modPs | split | (intro _) | dsimp only)

theorem keeps_entryEnds {Q_ : List Instr} {s : State} (h0 : Keeps Q_ s) : Keeps Q_ (entryEnds s) := by
  unfold entryEnds
  try dsimp only
  with_reducible repeat' (first
    | assumption | apply keeps_diesAsleep | apply keeps_modPs
    | apply keeps_offReached | apply keeps_psEnter | apply keeps_bumpPs
    | apply keeps_allRailsFall | split | (intro _) | dsimp only)

theorem keeps_entryStart {Q_ : List Instr} {off : Bool} {s : State} (h0 : Keeps Q_ s) : Keeps Q_ (entryStart off s) := by
  unfold entryStart
  try dsimp only
  with_reducible repeat' (first
    | assumption | apply keeps_psEnter | apply keeps_armTimer
    | apply keeps_modPs | split | (intro _) | dsimp only)

theorem keeps_nightEntry {Q_ : List Instr} {s : State} (h0 : Keeps Q_ s) : Keeps Q_ (nightEntry s) := by
  unfold nightEntry
  try dsimp only
  with_reducible repeat' (first
    | assumption | apply keeps_entryStart | split | (intro _) | dsimp only)

theorem keeps_offEntry {Q_ : List Instr} {s : State} (h0 : Keeps Q_ s) : Keeps Q_ (offEntry s) := by
  unfold offEntry
  try dsimp only
  with_reducible repeat' (first
    | assumption | apply keeps_entryStart | apply keeps_offReached
    | apply keeps_modPs | split | (intro _) | dsimp only)

theorem keeps_entryStepEnds {Q_ : List Instr} {s : State} (h0 : Keeps Q_ s) : Keeps Q_ (entryStepEnds s) := by
  unfold entryStepEnds
  try dsimp only
  with_reducible repeat' (first
    | assumption | apply keeps_cacheFlushed | apply keeps_levelsLatched
    | apply keeps_entryEnds | apply keeps_entryAbandon | apply keeps_modPs
    | apply keeps_entryBegin | split | (intro _) | dsimp only)

theorem keeps_entryAdvance {Q_ : List Instr} {s : State} (h0 : Keeps Q_ s) : Keeps Q_ (entryAdvance s) := by
  unfold entryAdvance
  try dsimp only
  with_reducible repeat' (first
    | assumption | apply keeps_entryStepEnds | apply keeps_onlyIf
    | apply keeps_forAll | apply keeps_linkStops | apply keeps_nightRecall
    | split | (intro _) | dsimp only)

theorem keeps_exitStart {Q_ : List Instr} {s : State} (h0 : Keeps Q_ s) : Keeps Q_ (exitStart s) := by
  unfold exitStart
  try dsimp only
  with_reducible repeat' (first
    | assumption | apply keeps_bumpPs | apply keeps_recordWake
    | apply keeps_modPs | apply keeps_psEnter | apply keeps_modHs | split
    | (intro _) | dsimp only)

theorem keeps_unwrapOne {Q_ : List Instr} {kek rec : List Byte} {s : State} (h0 : Keeps Q_ s) : Keeps Q_ (unwrapOne kek rec s) := by
  unfold unwrapOne
  try dsimp only
  with_reducible repeat' (first
    | assumption | apply keeps_modProt | apply keeps_foldl
    | apply keeps_foldl_fst | apply keeps_foldl_snd
    | apply keeps_foldl_snd_snd | split | (intro _) | dsimp only)

theorem keeps_keysReturn {Q_ : List Instr} {s : State} (h0 : Keeps Q_ s) : Keeps Q_ (keysReturn s) := by
  unfold keysReturn
  try dsimp only
  with_reducible repeat' (first
    | assumption | apply keeps_keysDrawn | apply keeps_forAll
    | apply keeps_unwrapOne | apply keeps_xportDrawn | split | (intro _)
    | dsimp only)

theorem keeps_rootsLoaded {Q_ : List Instr} {s : State} {d : Nat} {image : List Byte} (h0 : Keeps Q_ s) : Keeps Q_ (rootsLoaded s d image) := by
  unfold rootsLoaded
  try dsimp only
  with_reducible repeat' (first
    | assumption | apply keeps_modProt | split | (intro _) | dsimp only)

theorem keeps_rootsDistrusted {Q_ : List Instr} {s : State} (h0 : Keeps Q_ s) : Keeps Q_ (rootsDistrusted s) := by
  unfold rootsDistrusted
  try dsimp only
  with_reducible repeat' (first
    | assumption | apply keeps_modProt | apply keeps_forAll
    | apply keeps_failCount | apply keeps_pageLost | apply keeps_leaveDict
    | apply keeps_subtreeFresh | split | (intro _) | dsimp only)

theorem keeps_rootsChecked {Q_ : List Instr} {r : Nat} {s : State} (h0 : Keeps Q_ s) : Keeps Q_ (rootsChecked r s) := by
  unfold rootsChecked
  try dsimp only
  with_reducible repeat' (first
    | assumption | apply keeps_forAll | apply keeps_rootsLoaded
    | apply keeps_rootsDistrusted | apply keeps_retain | split | (intro _)
    | dsimp only)

theorem keeps_channelsReturn {Q_ : List Instr} {s : State} (h0 : Keeps Q_ s) : Keeps Q_ (channelsReturn s) := by
  unfold channelsReturn
  try dsimp only
  with_reducible repeat' (first
    | assumption | apply keeps_wingUnpowered | apply keeps_branchRequest
    | apply keeps_trainWing | apply keeps_forAll | apply keeps_trainChan
    | apply keeps_afterDraw | apply keeps_modChan | apply keeps_chanWake
    | split | (intro _) | dsimp only)

theorem keeps_extentsLoaded {Q_ : List Instr} {r : Nat} {s : State} (h0 : Keeps Q_ s) : Keeps Q_ (extentsLoaded r s) := by
  unfold extentsLoaded
  try dsimp only
  with_reducible repeat' (first
    | assumption | apply keeps_modLod | apply keeps_forAll
    | apply keeps_logPlain | apply keeps_modPortAt | split | (intro _)
    | dsimp only)

theorem keeps_exitWork {Q_ : List Instr} {r k : Nat} {s : State} (h0 : Keeps Q_ s) : Keeps Q_ (exitWork r k s) := by
  unfold exitWork
  try dsimp only
  with_reducible repeat' (first
    | assumption | apply keeps_startRails | apply keeps_timebasesAlign
    | apply keeps_deniedOut | apply keeps_modSl | apply keeps_linksReset
    | apply keeps_keysReturn | apply keeps_channelsReturn
    | apply keeps_rootsChecked | apply keeps_afterDraw | apply keeps_modProt
    | apply keeps_retain | apply keeps_unitsAtExit | apply keeps_dictsAtExit
    | apply keeps_offloadAtExit | apply keeps_extentsLoaded
    | apply keeps_portsStart | apply keeps_regulationReset
    | apply keeps_recomputeD | apply keeps_modPs | apply keeps_psEnter
    | split | (intro _) | dsimp only)

theorem keeps_exitAdvance {Q_ : List Instr} {s : State} (h0 : Keeps Q_ s) : Keeps Q_ (exitAdvance s) := by
  unfold exitAdvance
  try dsimp only
  with_reducible repeat' (first
    | assumption | apply keeps_logPlain | apply keeps_deviceReset
    | apply keeps_afterDraw | apply keeps_exitWork | apply keeps_modPs
    | split | (intro _) | dsimp only)

theorem keeps_execNightEntry {Q_ : List Instr} {s : State} (h0 : Keeps Q_ s) : ∃ u_, execNightEntry s = .next u_ ∧ Keeps Q_ u_ := by
  refine ⟨_, rfl, ?_⟩
  with_reducible repeat' (first
    | assumption | apply keeps_nightEntry | split | (intro _) | dsimp only)

theorem keeps_execNightEntryAdvance {Q_ : List Instr} {s : State} (h0 : Keeps Q_ s) : ∃ u_, execNightEntryAdvance s = .next u_ ∧ Keeps Q_ u_ := by
  refine ⟨_, rfl, ?_⟩
  with_reducible repeat' (first
    | assumption | apply keeps_entryAdvance | split | (intro _) | dsimp only)

theorem keeps_execNightExit {Q_ : List Instr} {s : State} (h0 : Keeps Q_ s) : ∃ u_, execNightExit s = .next u_ ∧ Keeps Q_ u_ := by
  refine ⟨_, rfl, ?_⟩
  with_reducible repeat' (first
    | assumption | apply keeps_exitStart | split | (intro _) | dsimp only)

theorem keeps_execNightExitAdvance {Q_ : List Instr} {s : State} (h0 : Keeps Q_ s) : ∃ u_, execNightExitAdvance s = .next u_ ∧ Keeps Q_ u_ := by
  refine ⟨_, rfl, ?_⟩
  with_reducible repeat' (first
    | assumption | apply keeps_exitAdvance | split | (intro _) | dsimp only)

theorem keeps_execOffEntry {Q_ : List Instr} {s : State} (h0 : Keeps Q_ s) : ∃ u_, execOffEntry s = .next u_ ∧ Keeps Q_ u_ := by
  refine ⟨_, rfl, ?_⟩
  with_reducible repeat' (first
    | assumption | apply keeps_offEntry | split | (intro _) | dsimp only)

end Sys2Proof.Machine
end

