-- ==== Sys2Proof/Laws/KeepsRetire.lean ====
section
/-! SUPPORT. What the operations of Machine/Retire.lean keep: one lemma per operation that answers a state. -/

namespace Sys2Proof.Machine

theorem keeps_searchPut {Q_ : List Instr} {d f : Nat} {s : State} (h0 : Keeps Q_ s) : Keeps Q_ (searchPut d f s) := by
  unfold searchPut
  try dsimp only
  with_reducible repeat' (first
    | assumption | refine keeps_modSpace (fun _ hx => hx) ?_ | split
    | (intro _) | dsimp only)

theorem keeps_freeLineBad {Q_ : List Instr} {agent d f i : Nat} {hint : Bool} {s : State} (h0 : Keeps Q_ s) : Keeps Q_ (freeLineBad agent d f i hint s) := by
  unfold freeLineBad
  try dsimp only
  with_reducible repeat' (first
    | assumption | apply keeps_searchPut | apply keeps_markBy | split
    | (intro _) | dsimp only)

theorem keeps_freeFrameAgain {Q_ : List Instr} {d f : Nat} {s : State} (h0 : Keeps Q_ s) : Keeps Q_ (freeFrameAgain d f s) := by
  unfold freeFrameAgain
  try dsimp only
  with_reducible repeat' (first
    | assumption | apply keeps_queueBlank | apply keeps_setUse
    | apply keeps_forAll | split | (intro _) | dsimp only)

theorem keeps_rowAlert {Q_ : List Instr} {c row : Nat} {s : State} (h0 : Keeps Q_ s) : Keeps Q_ (rowAlert c row s) := by
  unfold rowAlert
  try dsimp only
  with_reducible repeat' (first
    | assumption | apply keeps_modChan | apply keeps_alertForKind
    | apply keeps_logQuiet | split | (intro _) | dsimp only)

theorem keeps_corrected {Q_ : List Instr} {d f i : Nat} {l : RawLine} {words bits agent : Nat} {s : State} (h0 : Keeps Q_ s) : Keeps Q_ (corrected d f i l words bits agent s) := by
  unfold corrected
  try dsimp only
  with_reducible repeat' (first
    | assumption | apply keeps_memEvent | apply keeps_modChan
    | apply keeps_rowAlert | apply keeps_gbDie | apply keeps_queueWrite
    | split | (intro _) | dsimp only)

theorem keeps_dataBad {Q_ : List Instr} {agent n p d f i : Nat} {s : State} (h0 : Keeps Q_ s) : Keeps Q_ (dataBad agent n p d f i s) := by
  unfold dataBad
  try dsimp only
  with_reducible repeat' (first
    | assumption | apply keeps_markLine | apply keeps_searchPut
    | apply keeps_markBy | apply keeps_rekeyStop | apply keeps_poisonLine
    | apply keeps_moveAbort | split | (intro _) | dsimp only)

theorem keeps_runLineBad {Q_ : List Instr} {agent n p d f i : Nat} {s : State} (h0 : Keeps Q_ s) : Keeps Q_ (runLineBad agent n p d f i s) := by
  unfold runLineBad
  try dsimp only
  with_reducible repeat' (first
    | assumption | apply keeps_markBy | apply keeps_searchPut
    | apply keeps_packedRead | refine keeps_packedRead_eq (by assumption) ?_
    | split | (intro _) | dsimp only)

theorem keeps_badLine {Q_ : List Instr} {d f i words agent : Nat} {s : State} (h0 : Keeps Q_ s) : Keeps Q_ (badLine d f i words agent s) := by
  unfold badLine
  try dsimp only
  with_reducible repeat' (first
    | assumption | apply keeps_uncorrectable | apply keeps_dataBad
    | apply keeps_freeLineBad | apply keeps_groupMetaBad
    | apply keeps_runLineBad | apply keeps_mapLineBad | apply keeps_markLine
    | apply keeps_segmentBad | split | (intro _) | dsimp only)

theorem keeps_readReturn {Q_ : List Instr} {d f i agent : Nat} {err : BitVec 640} {s : State} (h0 : Keeps Q_ s) : Keeps Q_ (readReturn d f i agent err s) := by
  unfold readReturn
  try dsimp only
  with_reducible repeat' (first
    | assumption | apply keeps_unitDenied | apply keeps_dramRead
    | apply keeps_mergeSettle | apply keeps_badLine | apply keeps_corrected
    | apply keeps_metaRead | split | (intro _) | dsimp only)

theorem keeps_scrubSampled {Q_ : List Instr} {c f i : Nat} {err : BitVec 640} {s : State} (h0 : Keeps Q_ s) : Keeps Q_ (scrubSampled c f i err s) := by
  unfold scrubSampled
  try dsimp only
  with_reducible repeat' (first
    | assumption | apply keeps_sampleHome | apply keeps_tokensTake | split
    | (intro _) | dsimp only)

theorem keeps_scrubRead {Q_ : List Instr} {c : Nat} {err : BitVec 640} {s : State} (h0 : Keeps Q_ s) : Keeps Q_ (scrubRead c err s) := by
  unfold scrubRead
  try dsimp only
  with_reducible repeat' (first
    | assumption | apply keeps_modChan | apply keeps_readReturn
    | apply keeps_scrubSampled | apply keeps_recallAll | split | (intro _)
    | dsimp only)

theorem keeps_ownerFound {Q_ : List Instr} {d f : Nat} {q : Nat × Nat} {s : State} (h0 : Keeps Q_ s) : Keeps Q_ (ownerFound d f q s) := by
  unfold ownerFound
  try dsimp only
  with_reducible repeat' (first
    | assumption | apply keeps_notePage | apply keeps_setDesc
    | apply keeps_packedRead | refine keeps_packedRead_eq (by assumption) ?_
    | apply keeps_lockedSays | apply keeps_unlockPage | split | (intro _)
    | dsimp only)

theorem keeps_wingPageLost {Q_ : List Instr} {q : Nat × Nat} {s : State} (h0 : Keeps Q_ s) : Keeps Q_ (wingPageLost q s) := by
  unfold wingPageLost
  try dsimp only
  with_reducible repeat' (first
    | assumption | apply keeps_pageLost | apply keeps_onlyIf
    | apply keeps_leaveDict | apply keeps_unlockPage | split | (intro _)
    | dsimp only)

theorem keeps_ownerSearch {Q_ : List Instr} {d : Nat} {s : State} (h0 : Keeps Q_ s) : Keeps Q_ (ownerSearch d s) := by
  unfold ownerSearch
  try dsimp only
  with_reducible repeat' (first
    | assumption | refine keeps_modSpace (fun _ hx => hx) ?_
    | apply keeps_forAll | apply keeps_flushLine
    | apply keeps_freeFrameAgain | apply keeps_ownerFound
    | apply keeps_modWingAt | apply keeps_wingPageLost | split | (intro _)
    | dsimp only)

theorem keeps_retireStart {Q_ : List Instr} {code v : Nat} {s : State} (h0 : Keeps Q_ s) : Keeps Q_ (retireStart code v s).1 := by
  unfold retireStart
  try dsimp only
  with_reducible repeat' (first
    | assumption | refine keeps_modSpace (fun _ hx => hx) ?_
    | apply keeps_forAll | apply keeps_retireFree | apply keeps_retireEntry
    | split | (intro _) | dsimp only)
theorem keeps_retireStart_eq {Q_ : List Instr} {code v : Nat} {s : State} {t_ x_} (e_ : retireStart code v s = (t_, x_)) (h0 : Keeps Q_ s) : Keeps Q_ t_ := by
  have h_ := keeps_retireStart (Q_ := Q_) (code := code) (v := v) (s := s) h0
  rw [e_] at h_; exact h_

theorem keeps_copyFrames {Q_ : List Instr} {d a b n : Nat} {s0 : State} (h0 : Keeps Q_ s0) : Keeps Q_ (copyFrames d a b n s0) := by
  unfold copyFrames
  try dsimp only
  with_reducible repeat' (first
    | refine keeps_modSpace (fun _ hx => dramFoldPut_wf _ _ _ hx) ?_
    | assumption | refine keeps_modSpace (fun _ hx => hx) ?_
    | apply keeps_forAll | apply keeps_flushLine | apply keeps_foldl
    | apply keeps_foldl_fst | apply keeps_foldl_snd
    | apply keeps_foldl_snd_snd | split | (intro _) | dsimp only)

theorem keeps_regionMove {Q_ : List Instr} {d : Nat} {e : Nat × Use} {s : State} (h0 : Keeps Q_ s) : Keeps Q_ (regionMove d e s) := by
  unfold regionMove
  try dsimp only
  with_reducible repeat' (first
    | assumption | refine keeps_modSpace (fun _ hx => hx) ?_
    | apply keeps_setUse | apply keeps_copyFrames | apply keeps_modLod
    | apply keeps_forAll | apply keeps_queueBlank | split | (intro _)
    | dsimp only)

theorem keeps_retireComplete {Q_ : List Instr} {s : State} (h0 : Keeps Q_ s) : Keeps Q_ (retireComplete s) := by
  unfold retireComplete
  try dsimp only
  with_reducible repeat' (first
    | assumption | refine keeps_modSpace (fun _ hx => hx) ?_
    | apply keeps_forAll | apply keeps_regionMove
    | apply keeps_installedFell | apply keeps_cmdEnd | apply keeps_memEvent
    | split | (intro _) | dsimp only)

theorem keeps_execDramReadReturn {Q_ : List Instr} {d : MemDie} {f : BitVec 30} {i : Fin 64} {agent : Fin 6} {err : BitVec 640} {s : State} (h0 : Keeps Q_ s) : ∃ u_, execDramReadReturn d f i agent err s = .next u_ ∧ Keeps Q_ u_ := by
  refine ⟨_, rfl, ?_⟩
  with_reducible repeat' (first
    | assumption | apply keeps_readReturn | split | (intro _) | dsimp only)

theorem keeps_execScrubRead {Q_ : List Instr} {c : ChanId} {err : BitVec 640} {s : State} (h0 : Keeps Q_ s) : ∃ u_, execScrubRead c err s = .next u_ ∧ Keeps Q_ u_ := by
  refine ⟨_, rfl, ?_⟩
  with_reducible repeat' (first
    | assumption | apply keeps_scrubRead | split | (intro _) | dsimp only)

theorem keeps_execOwnerSearch {Q_ : List Instr} {d : MemDie} {s : State} (h0 : Keeps Q_ s) : ∃ u_, execOwnerSearch d s = .next u_ ∧ Keeps Q_ u_ := by
  refine ⟨_, rfl, ?_⟩
  with_reducible repeat' (first
    | assumption | apply keeps_ownerSearch | split | (intro _) | dsimp only)

theorem keeps_execRetireComplete {Q_ : List Instr} {s : State} (h0 : Keeps Q_ s) : ∃ u_, execRetireComplete s = .next u_ ∧ Keeps Q_ u_ := by
  refine ⟨_, rfl, ?_⟩
  with_reducible repeat' (first
    | assumption | apply keeps_retireComplete | split | (intro _)
    | dsimp only)

theorem keeps_execBlankDone {Q_ : List Instr} {w : WingId} {tgt : Option (BitVec 29)} {s : State} (h0 : Keeps Q_ s) : ∃ u_, execBlankDone w tgt s = .next u_ ∧ Keeps Q_ u_ := by
  refine ⟨_, rfl, ?_⟩
  with_reducible repeat' (first
    | assumption | apply keeps_blankStep | split | (intro _) | dsimp only)

end Sys2Proof.Machine
end

