-- ==== Sys2Proof/Laws/KeepsParamRules.lean ====
section
/-! SUPPORT. What the operations of Machine/ParamRules.lean keep: one lemma per operation that answers a state. -/

namespace Sys2Proof.Machine

theorem keeps_serdesCapped {Q_ : List Instr} {x v : Nat} {s : State} (h0 : Keeps Q_ s) : Keeps Q_ (serdesCapped x v s) := by
  unfold serdesCapped
  try dsimp only
  with_reducible repeat' (first
    | assumption | apply keeps_forAll | apply keeps_modPortAt | split
    | (intro _) | dsimp only)

theorem keeps_beforeWrite {Q_ : List Instr} {n v : Nat} {s : State} (h0 : Keeps Q_ s) : Keeps Q_ (beforeWrite n v s) := by
  unfold beforeWrite
  try dsimp only
  with_reducible repeat' (first
    | assumption | apply keeps_modDict | split | (intro _) | dsimp only)

theorem keeps_ddrRateChanged {Q_ : List Instr} {m : Nat} {s : State} (h0 : Keeps Q_ s) : Keeps Q_ (ddrRateChanged m s) := by
  unfold ddrRateChanged
  try dsimp only
  with_reducible repeat' (first
    | assumption | apply keeps_recomputeD | apply keeps_bumpPs
    | apply keeps_forAll | apply keeps_chanWake
    | apply keeps_chanSelfRefresh | split | (intro _) | dsimp only)

theorem keeps_serdesCapChanged {Q_ : List Instr} {x old v : Nat} {s : State} (h0 : Keeps Q_ s) : Keeps Q_ (serdesCapChanged x old v s) := by
  unfold serdesCapChanged
  try dsimp only
  with_reducible repeat' (first
    | assumption | apply keeps_recomputeD | apply keeps_bumpPs
    | apply keeps_serdesCapped | apply keeps_forAll
    | apply keeps_portRetrain | split | (intro _) | dsimp only)

theorem keeps_debugEnabled {Q_ : List Instr} {n old v : Nat} {s : State} (h0 : Keeps Q_ s) : Keeps Q_ (debugEnabled n old v s) := by
  unfold debugEnabled
  try dsimp only
  with_reducible repeat' (first
    | assumption | apply keeps_putParam | apply keeps_measSecurity | split
    | (intro _) | dsimp only)

theorem keeps_afterWrite {Q_ : List Instr} {row n old v : Nat} {s : State} (h0 : Keeps Q_ s) : Keeps Q_ (afterWrite row n old v s) := by
  unfold afterWrite
  try dsimp only
  with_reducible repeat' (first
    | assumption | apply keeps_psRecompute | apply keeps_vcoreApply
    | apply keeps_recomputeD | apply keeps_ddrRateChanged
    | apply keeps_serdesCapChanged | apply keeps_debugEnabled
    | apply keeps_measSecurity | split | (intro _) | dsimp only)

theorem keeps_beforeCommit {Q_ : List Instr} {grp row : Nat} {s : State} (h0 : Keeps Q_ s) : Keeps Q_ (beforeCommit grp row s) := by
  unfold beforeCommit
  try dsimp only
  with_reducible repeat' (first
    | assumption | apply keeps_forAll | apply keeps_creditTouch
    | apply keeps_prioHold | split | (intro _) | dsimp only)

theorem keeps_afterCommit {Q_ : List Instr} {grp row : Nat} {s t : State} (h0 : Keeps Q_ s) (h1 : Keeps Q_ t) : Keeps Q_ (afterCommit grp row s t).1 := by
  unfold afterCommit
  try dsimp only
  with_reducible repeat' (first
    | assumption | apply keeps_lodgeCommitted
    | refine keeps_lodgeCommitted_eq (by assumption) ?_
    | apply keeps_recomputeD | apply keeps_roleApplied | apply keeps_modChan
    | apply keeps_regionCommit | apply keeps_modDict | split | (intro _)
    | dsimp only)
theorem keeps_afterCommit_eq {Q_ : List Instr} {grp row : Nat} {s t : State} {t_ x_} (e_ : afterCommit grp row s t = (t_, x_)) (h0 : Keeps Q_ s) (h1 : Keeps Q_ t) : Keeps Q_ t_ := by
  have h_ := keeps_afterCommit (Q_ := Q_) (grp := grp) (row := row) (s := s) (t := t) h0 h1
  rw [e_] at h_; exact h_

theorem keeps_cmdRun {Q_ : List Instr} {n row : Nat} {arg : List Byte} {source seq : Nat} {readBack : Bool} {s : State} (h0 : Keeps Q_ s) : Keeps Q_ (cmdRun n row arg source seq readBack s).1 := by
  unfold cmdRun
  try dsimp only
  with_reducible repeat' (first
    | assumption | apply keeps_lifeCycle | apply keeps_deviceReset
    | apply keeps_windowClose | apply keeps_clearTrip | apply keeps_gbCut
    | apply keeps_lodgeCmd | refine keeps_lodgeCmd_eq (by assumption) ?_
    | apply keeps_rekeyAsk | apply keeps_cohReset
    | apply keeps_evacuateStart | apply keeps_evacuateCancel
    | apply keeps_reopenStart | apply keeps_trainStart
    | apply keeps_dictRetireStart | apply keeps_trainStop
    | apply keeps_queueEnable | apply keeps_queueDisable
    | refine keeps_queueDisable_eq (by assumption) ?_
    | apply keeps_queueReset | apply keeps_keyCmd
    | refine keeps_keyCmd_eq (by assumption) ?_ | apply keeps_portCmd
    | apply keeps_bindStart | apply keeps_unbindStart
    | apply keeps_dramApply | apply keeps_recomputeD | apply keeps_forAll
    | apply keeps_dieOut | apply keeps_modSl | apply keeps_retireStart
    | refine keeps_retireStart_eq (by assumption) ?_
    | apply keeps_linkJudged | apply keeps_linkReset
    | refine keeps_linkReset_eq (by assumption) ?_ | apply keeps_takeOut
    | refine keeps_takeOut_eq (by assumption) ?_ | apply keeps_rejoinStart
    | split | (intro _) | dsimp only)
theorem keeps_cmdRun_eq {Q_ : List Instr} {n row : Nat} {arg : List Byte} {source seq : Nat} {readBack : Bool} {s : State} {t_ x_} (e_ : cmdRun n row arg source seq readBack s = (t_, x_)) (h0 : Keeps Q_ s) : Keeps Q_ t_ := by
  have h_ := keeps_cmdRun (Q_ := Q_) (n := n) (row := row) (arg := arg) (source := source) (seq := seq) (readBack := readBack) (s := s) h0
  rw [e_] at h_; exact h_

end Sys2Proof.Machine
end

