-- ==== Sys2Proof/Laws/KeepsAccess.lean ====
section
/-! SUPPORT. What the operations of Machine/Access.lean keep: one lemma per operation that answers a state. -/

namespace Sys2Proof.Machine

theorem keeps_modSession {Q_ : List Instr} {o : Origin} {f : Session → Session} {s : State} (h0 : Keeps Q_ s) : Keeps Q_ (modSession o f s) := by
  unfold modSession
  try dsimp only
  with_reducible repeat' (first
    | assumption | apply keeps_modDict | split | (intro _) | dsimp only)

theorem keeps_respond {Q_ : List Instr} {tgt : ReplyTo} {param : Nat} {r : Resp} {s : State} (h0 : Keeps Q_ s) : Keeps Q_ (respond tgt param r s) := by
  unfold respond
  try dsimp only
  with_reducible repeat' (first
    | refine keeps_modCr (fun _ hx => by simpa only [List.length_map] using hx) (fun _ hx => hx) ?_
    | assumption | refine keeps_modCr (fun _ hx => hx) (fun _ hx => hx) ?_
    | apply keeps_onlyIf | apply keeps_emit | split | (intro _) | dsimp only)

theorem keeps_refuse {Q_ : List Instr} {r : Req} {st seq : Nat} {s : State} (h0 : Keeps Q_ s) : Keeps Q_ (refuse r st seq s).after := by
  unfold refuse
  try dsimp only
  with_reducible repeat' (first
    | assumption | apply keeps_modDict | split | (intro _) | dsimp only)

theorem keeps_accept {Q_ : List Instr} {r : Req} {st seq : Nat} {v : List Byte} {s : State} (h0 : Keeps Q_ s) : Keeps Q_ (accept r st seq v s).after := by
  unfold accept
  try dsimp only
  with_reducible repeat' (first
    | assumption | apply keeps_modSession | split | (intro _) | dsimp only)

theorem keeps_combined {Q_ : List Instr} {grp row : Nat} {staged : SMap (List Byte)} {s : State} (h0 : Keeps Q_ s) : Keeps Q_ (combined grp row staged s) := by
  unfold combined
  try dsimp only
  with_reducible repeat' (first
    | assumption | apply keeps_forAll | apply keeps_putParam | split
    | (intro _) | dsimp only)

theorem keeps_doRead {Q_ : List Instr} {r : Req} {g : GSpec} {p : PSpec} {seq : Nat} {s : State} (h0 : Keeps Q_ s) : Keeps Q_ (doRead r g p seq s).after := by
  unfold doRead
  try dsimp only
  with_reducible repeat' (first
    | assumption | apply keeps_refuse
    | refine keeps_refuse_eq (by assumption) ?_ | apply keeps_accept
    | refine keeps_accept_eq (by assumption) ?_ | apply keeps_afterDraw
    | split | (intro _) | dsimp only)

theorem keeps_commitValue {Q_ : List Instr} {p : PSpec} {row n v : Nat} {s : State} (h0 : Keeps Q_ s) : Keeps Q_ (commitValue p row n v s).1 := by
  unfold commitValue
  try dsimp only
  with_reducible repeat' (first
    | assumption | apply keeps_putParam | apply keeps_modDict | split
    | (intro _) | dsimp only)
theorem keeps_commitValue_eq {Q_ : List Instr} {p : PSpec} {row n v : Nat} {s : State} {t_ x_} (e_ : commitValue p row n v s = (t_, x_)) (h0 : Keeps Q_ s) : Keeps Q_ t_ := by
  have h_ := keeps_commitValue (Q_ := Q_) (p := p) (row := row) (n := n) (v := v) (s := s) h0
  rw [e_] at h_; exact h_

theorem keeps_acceptWrite {Q_ : List Instr} {r : Req} {seq : Nat} {owed : Bool} {s : State} (h0 : Keeps Q_ s) : Keeps Q_ (acceptWrite r seq owed s).after := by
  unfold acceptWrite
  try dsimp only
  with_reducible repeat' (first
    | assumption | apply keeps_accept
    | refine keeps_accept_eq (by assumption) ?_ | split | (intro _)
    | dsimp only)

theorem keeps_writeDirect {Q_ : List Instr} {r : Req} {p : PSpec} {row seq : Nat} {s : State} (h0 : Keeps Q_ s) : Keeps Q_ (writeDirect r p row seq s).after := by
  unfold writeDirect
  try dsimp only
  with_reducible repeat' (first
    | assumption | apply keeps_refuse
    | refine keeps_refuse_eq (by assumption) ?_
    | apply keeps_admissionFailed | apply keeps_commitValue
    | refine keeps_commitValue_eq (by assumption) ?_
    | apply keeps_beforeWrite | apply keeps_acceptWrite
    | refine keeps_acceptWrite_eq (by assumption) ?_
    | apply keeps_afterWrite | split | (intro _) | dsimp only)

theorem keeps_writeStaged {Q_ : List Instr} {r : Req} {p : PSpec} {grp seq : Nat} {s : State} (h0 : Keeps Q_ s) : Keeps Q_ (writeStaged r p grp seq s).after := by
  unfold writeStaged
  try dsimp only
  with_reducible repeat' (first
    | assumption | apply keeps_refuse
    | refine keeps_refuse_eq (by assumption) ?_ | apply keeps_accept
    | refine keeps_accept_eq (by assumption) ?_ | apply keeps_modSession
    | split | (intro _) | dsimp only)

theorem keeps_commitAll {q : List Instr} {g : GSpec} {grp row : Nat} {l : SMap (List Byte)} {s : State}
    (h : Keeps q s) : Keeps q (commitAll g grp row l s).1 := by
  induction l generalizing s with
  | nil => exact h
  | cons a l ih =>
    unfold commitAll
    split
    · exact ih h
    · exact ih (keeps_commitValue h)

theorem keeps_dropStaged {Q_ : List Instr} {o : Origin} {s : State} (h0 : Keeps Q_ s) : Keeps Q_ (dropStaged o s) := by
  unfold dropStaged
  try dsimp only
  with_reducible repeat' (first
    | assumption | apply keeps_modSession | split | (intro _) | dsimp only)

theorem keeps_cmdStart {Q_ : List Instr} {r : Req} {row st detail seq : Nat} {s : State} (h0 : Keeps Q_ s) : Keeps Q_ (cmdStart r row st detail seq s) := by
  unfold cmdStart
  try dsimp only
  with_reducible repeat' (first
    | assumption | apply keeps_modDict | split | (intro _) | dsimp only)

theorem keeps_commitOwner {Q_ : List Instr} {r : Req} {row seq : Nat} {staged : SMap (List Byte)} {s : State} (h0 : Keeps Q_ s) : Keeps Q_ (commitOwner r row seq staged s).after := by
  unfold commitOwner
  try dsimp only
  with_reducible repeat' (first
    | assumption | apply keeps_refuse
    | refine keeps_refuse_eq (by assumption) ?_ | apply keeps_acceptWrite
    | refine keeps_acceptWrite_eq (by assumption) ?_ | apply keeps_cmdStart
    | apply keeps_dropStaged | apply keeps_modDict | split | (intro _)
    | dsimp only)

theorem keeps_commitGroup {Q_ : List Instr} {r : Req} {g : GSpec} {row seq : Nat} {s : State} (h0 : Keeps Q_ s) : Keeps Q_ (commitGroup r g row seq s).after := by
  unfold commitGroup
  try dsimp only
  with_reducible repeat' (first
    | assumption | apply keeps_refuse
    | refine keeps_refuse_eq (by assumption) ?_ | apply keeps_accept
    | refine keeps_accept_eq (by assumption) ?_ | apply keeps_cmdStart
    | apply keeps_commitOwner
    | refine keeps_commitOwner_eq (by assumption) ?_ | apply keeps_combined
    | apply keeps_onlyIf | apply keeps_admissionFailed
    | apply keeps_commitAll | refine keeps_commitAll_eq (by assumption) ?_
    | apply keeps_beforeCommit | apply keeps_afterCommit
    | refine keeps_afterCommit_eq (by assumption) ?_
    | apply keeps_dropStaged | apply keeps_acceptWrite
    | refine keeps_acceptWrite_eq (by assumption) ?_ | apply keeps_cmdEnd
    | split | (intro _) | dsimp only)

theorem keeps_commitDiscarded {Q_ : List Instr} {r : Req} {row seq : Nat} {s : State} (h0 : Keeps Q_ s) : Keeps Q_ (commitDiscarded r row seq s).after := by
  unfold commitDiscarded
  try dsimp only
  with_reducible repeat' (first
    | assumption | apply keeps_refuse
    | refine keeps_refuse_eq (by assumption) ?_ | apply keeps_accept
    | refine keeps_accept_eq (by assumption) ?_ | apply keeps_cmdStart
    | apply keeps_dropStaged | split | (intro _) | dsimp only)

theorem keeps_writeCmd {Q_ : List Instr} {r : Req} {row seq : Nat} {s : State} (h0 : Keeps Q_ s) : Keeps Q_ (writeCmd r row seq s).after := by
  unfold writeCmd
  try dsimp only
  with_reducible repeat' (first
    | assumption | apply keeps_refuse
    | refine keeps_refuse_eq (by assumption) ?_
    | apply keeps_admissionFailed | apply keeps_cmdStart
    | apply keeps_modSession | apply keeps_cmdRun
    | refine keeps_cmdRun_eq (by assumption) ?_ | apply keeps_modDict
    | split | (intro _) | dsimp only)

theorem keeps_writeSelect {Q_ : List Instr} {r : Req} {seq : Nat} {s : State} (h0 : Keeps Q_ s) : Keeps Q_ (writeSelect r seq s).after := by
  unfold writeSelect
  try dsimp only
  with_reducible repeat' (first
    | assumption | apply keeps_refuse
    | refine keeps_refuse_eq (by assumption) ?_ | apply keeps_accept
    | refine keeps_accept_eq (by assumption) ?_ | apply keeps_modSession
    | split | (intro _) | dsimp only)

theorem keeps_doWrite {Q_ : List Instr} {r : Req} {g : GSpec} {p : PSpec} {row seq : Nat} {s : State} (h0 : Keeps Q_ s) : Keeps Q_ (doWrite r g p row seq s).after := by
  unfold doWrite
  try dsimp only
  with_reducible repeat' (first
    | assumption | apply keeps_commitGroup
    | refine keeps_commitGroup_eq (by assumption) ?_
    | apply keeps_commitDiscarded
    | refine keeps_commitDiscarded_eq (by assumption) ?_
    | apply keeps_writeCmd | refine keeps_writeCmd_eq (by assumption) ?_
    | apply keeps_writeStaged
    | refine keeps_writeStaged_eq (by assumption) ?_
    | apply keeps_writeDirect
    | refine keeps_writeDirect_eq (by assumption) ?_ | split | (intro _)
    | dsimp only)

theorem keeps_energyFound {Q_ : List Instr} {param : Nat} {s : State} (h0 : Keeps Q_ s) : Keeps Q_ (energyFound param s) := by
  unfold energyFound
  try dsimp only
  with_reducible repeat' (first
    | assumption | apply keeps_onlyIf | apply keeps_logPlain | split
    | (intro _) | dsimp only)

theorem keeps_readFound {Q_ : List Instr} {o : Origin} {param : Nat} {s0 : State} (h0 : Keeps Q_ s0) : Keeps Q_ (readFound o param s0) := by
  unfold readFound
  try dsimp only
  with_reducible repeat' (first
    | assumption | apply keeps_energyFound | apply keeps_onlyIf
    | apply keeps_forAll | apply keeps_refsRead | split | (intro _)
    | dsimp only)

theorem keeps_performAccess {Q_ : List Instr} {r : Req} {g : GSpec} {p : PSpec} {seq : Nat} {s0 : State} (h0 : Keeps Q_ s0) : Keeps Q_ (performAccess r g p seq s0).after := by
  unfold performAccess
  try dsimp only
  with_reducible repeat' (first
    | assumption | apply keeps_onlyIf | apply keeps_wake
    | apply keeps_refuse | refine keeps_refuse_eq (by assumption) ?_
    | apply keeps_writeSelect
    | refine keeps_writeSelect_eq (by assumption) ?_ | apply keeps_doRead
    | refine keeps_doRead_eq (by assumption) ?_ | apply keeps_readFound
    | apply keeps_doWrite | refine keeps_doWrite_eq (by assumption) ?_
    | split | (intro _) | dsimp only)

theorem keeps_accessAns {Q_ : List Instr} {r : Req} {s0 : State} (h0 : Keeps Q_ s0) : Keeps Q_ (accessAns r s0).after := by
  unfold accessAns
  try dsimp only
  with_reducible repeat' (first
    | assumption | apply keeps_modDict | apply keeps_refuse
    | refine keeps_refuse_eq (by assumption) ?_ | apply keeps_performAccess
    | refine keeps_performAccess_eq (by assumption) ?_ | split | (intro _)
    | dsimp only)

theorem keeps_deliver {Q_ : List Instr} {r : Req} {a : Ans} (h0 : Keeps Q_ a.after) : Keeps Q_ (deliver r a) := by
  unfold deliver
  try dsimp only
  with_reducible repeat' (first
    | assumption | apply keeps_modDict | apply keeps_respond | split
    | (intro _) | dsimp only)

theorem keeps_access {Q_ : List Instr} {r : Req} {s : State} (h0 : Keeps Q_ s) : Keeps Q_ (access r s) := by
  unfold access
  try dsimp only
  with_reducible repeat' (first
    | assumption | apply keeps_deliver | apply keeps_accessAns
    | refine keeps_accessAns_eq (by assumption) ?_ | split | (intro _)
    | dsimp only)

theorem keeps_flashDone {Q_ : List Instr} {s : State} (h0 : Keeps Q_ s) : Keeps Q_ (flashDone s) := by
  unfold flashDone
  try dsimp only
  with_reducible repeat' (first
    | assumption | apply keeps_modSl | apply keeps_modDict
    | apply keeps_respond | apply keeps_cmdEnd | split | (intro _)
    | dsimp only)

theorem keeps_writeOf {Q_ : List Instr} {o : Origin} {param ty : Nat} {value : List Byte} {s : State} (h0 : Keeps Q_ s) : Keeps Q_ (writeOf o param ty value s) := by
  unfold writeOf
  try dsimp only
  with_reducible repeat' (first
    | assumption | apply keeps_access | split | (intro _) | dsimp only)

theorem keeps_cmdOf {Q_ : List Instr} {o : Origin} {param : Nat} {arg : List Byte} {s : State} (h0 : Keeps Q_ s) : Keeps Q_ (cmdOf o param arg s) := by
  unfold cmdOf
  try dsimp only
  with_reducible repeat' (first
    | assumption | apply keeps_writeOf | split | (intro _) | dsimp only)

theorem keeps_rowCmdOf {Q_ : List Instr} {o : Origin} {param row : Nat} {arg : List Byte} {s : State} (h0 : Keeps Q_ s) : Keeps Q_ (rowCmdOf o param row arg s) := by
  unfold rowCmdOf
  try dsimp only
  with_reducible repeat' (first
    | assumption | apply keeps_cmdOf | apply keeps_writeOf | split
    | (intro _) | dsimp only)

end Sys2Proof.Machine
end

