-- ==== Sys2Proof/Laws/KeepsFmApi.lean ====
section
/-! SUPPORT. What the operations of Machine/FmApi.lean keep: one lemma per operation that answers a state. -/

namespace Sys2Proof.Machine

theorem keeps_viewAnswers {Q_ : List Instr} {p : PortId} {f : State → Nat × List Byte} {s : State} (h0 : Keeps Q_ s) : Keeps Q_ (viewAnswers p f s) := by
  unfold viewAnswers
  try dsimp only
  with_reducible repeat' (first
    | assumption | apply keeps_mailboxReply | split | (intro _) | dsimp only)

theorem keeps_eventsClear {Q_ : List Instr} {p log n : Nat} {s : State} (h0 : Keeps Q_ s) : Keeps Q_ (eventsClear p log n s) := by
  unfold eventsClear
  try dsimp only
  with_reducible repeat' (first
    | assumption | apply keeps_mailboxReply | apply keeps_modPortAt | split
    | (intro _) | dsimp only)

theorem keeps_fmReads {q : List Instr} {l : List (Nat × Nat × Nat)} {s : State}
    (h : Keeps q s) : Keeps q (fmReads l s).1 := by
  induction l generalizing s with
  | nil => exact h
  | cons a l ih =>
    unfold fmReads
    dsimp only
    split
    · exact keeps_accessAns h
    · exact ih (keeps_accessAns h)

theorem keeps_fmCommand {q : List Instr} {p : PortId} {f : State → State × Nat × List Byte} {s : State}
    (hf : ∀ t, Keeps q t → Keeps q (f t).1) (h : Keeps q s) : Keeps q (fmCommand p f s) := by
  unfold fmCommand
  dsimp only
  split
  · exact h
  · split
    · exact keeps_mailboxReply h
    · exact keeps_mailboxReply (hf s h)

theorem keeps_fmQuery {Q_ : List Instr} {pre : List Byte} {l : List (Nat × Nat × Nat)} {s : State} (h0 : Keeps Q_ s) : Keeps Q_ (fmQuery pre l s).1 := by
  unfold fmQuery
  try dsimp only
  with_reducible repeat' (first
    | assumption | apply keeps_fmReads
    | refine keeps_fmReads_eq (by assumption) ?_ | split | (intro _)
    | dsimp only)
theorem keeps_fmQuery_eq {Q_ : List Instr} {pre : List Byte} {l : List (Nat × Nat × Nat)} {s : State} {t_ x_} (e_ : fmQuery pre l s = (t_, x_)) (h0 : Keeps Q_ s) : Keeps Q_ t_ := by
  have h_ := keeps_fmQuery (Q_ := Q_) (pre := pre) (l := l) (s := s) h0
  rw [e_] at h_; exact h_

theorem keeps_fmWrite {Q_ : List Instr} {n ty : Nat} {value : List Byte} {s : State} (h0 : Keeps Q_ s) : Keeps Q_ (fmWrite n ty value s).1 := by
  unfold fmWrite
  try dsimp only
  with_reducible repeat' (first
    | assumption | apply keeps_accessAns
    | refine keeps_accessAns_eq (by assumption) ?_ | apply keeps_onlyIf
    | apply keeps_modDict | split | (intro _) | dsimp only)
theorem keeps_fmWrite_eq {Q_ : List Instr} {n ty : Nat} {value : List Byte} {s : State} {t_ x_} (e_ : fmWrite n ty value s = (t_, x_)) (h0 : Keeps Q_ s) : Keeps Q_ t_ := by
  have h_ := keeps_fmWrite (Q_ := Q_) (n := n) (ty := ty) (value := value) (s := s) h0
  rw [e_] at h_; exact h_

theorem keeps_fmCmd {Q_ : List Instr} {n : Nat} {arg : List Byte} {s : State} (h0 : Keeps Q_ s) : Keeps Q_ (fmCmd n arg s).1 := by
  unfold fmCmd
  try dsimp only
  with_reducible repeat' (first
    | assumption | apply keeps_fmWrite
    | refine keeps_fmWrite_eq (by assumption) ?_ | split | (intro _)
    | dsimp only)
theorem keeps_fmCmd_eq {Q_ : List Instr} {n : Nat} {arg : List Byte} {s : State} {t_ x_} (e_ : fmCmd n arg s = (t_, x_)) (h0 : Keeps Q_ s) : Keeps Q_ t_ := by
  have h_ := keeps_fmCmd (Q_ := Q_) (n := n) (arg := arg) (s := s) h0
  rw [e_] at h_; exact h_

theorem keeps_fmBind {Q_ : List Instr} {v b t : Byte} {s : State} (h0 : Keeps Q_ s) : Keeps Q_ (fmBind v b t s).1 := by
  unfold fmBind
  try dsimp only
  with_reducible repeat' (first
    | assumption | apply keeps_fmWrite
    | refine keeps_fmWrite_eq (by assumption) ?_ | apply keeps_modDict
    | split | (intro _) | dsimp only)
theorem keeps_fmBind_eq {Q_ : List Instr} {v b t : Byte} {s : State} {t_ x_} (e_ : fmBind v b t s = (t_, x_)) (h0 : Keeps Q_ s) : Keeps Q_ t_ := by
  have h_ := keeps_fmBind (Q_ := Q_) (v := v) (b := b) (t := t) (s := s) h0
  rw [e_] at h_; exact h_

theorem keeps_fmBackground {Q_ : List Instr} {s : State} (h0 : Keeps Q_ s) : Keeps Q_ (fmBackground s).1 := by
  unfold fmBackground
  try dsimp only
  with_reducible repeat' (first
    | assumption | apply keeps_fmQuery
    | refine keeps_fmQuery_eq (by assumption) ?_ | split | (intro _)
    | dsimp only)
theorem keeps_fmBackground_eq {Q_ : List Instr} {s : State} {t_ x_} (e_ : fmBackground s = (t_, x_)) (h0 : Keeps Q_ s) : Keeps Q_ t_ := by
  have h_ := keeps_fmBackground (Q_ := Q_) (s := s) h0
  rw [e_] at h_; exact h_

theorem keeps_fmHostPorts {Q_ : List Instr} {n ports : Nat} {s : State} (h0 : Keeps Q_ s) : Keeps Q_ (fmHostPorts n ports s).1 := by
  unfold fmHostPorts
  try dsimp only
  with_reducible repeat' (first
    | assumption | apply keeps_fmWrite
    | refine keeps_fmWrite_eq (by assumption) ?_ | apply keeps_fmCmd
    | refine keeps_fmCmd_eq (by assumption) ?_ | split | (intro _)
    | dsimp only)
theorem keeps_fmHostPorts_eq {Q_ : List Instr} {n ports : Nat} {s : State} {t_ x_} (e_ : fmHostPorts n ports s = (t_, x_)) (h0 : Keeps Q_ s) : Keeps Q_ t_ := by
  have h_ := keeps_fmHostPorts (Q_ := Q_) (n := n) (ports := ports) (s := s) h0
  rw [e_] at h_; exact h_

theorem keeps_fmAdd {Q_ : List Instr} {host region : Nat} {tag : BitVec 128} {s : State} (h0 : Keeps Q_ s) : Keeps Q_ (fmAdd host region tag s).1 := by
  unfold fmAdd
  try dsimp only
  with_reducible repeat' (first
    | assumption | apply keeps_fmHostPorts
    | refine keeps_fmHostPorts_eq (by assumption) ?_ | split | (intro _)
    | dsimp only)
theorem keeps_fmAdd_eq {Q_ : List Instr} {host region : Nat} {tag : BitVec 128} {s : State} {t_ x_} (e_ : fmAdd host region tag s = (t_, x_)) (h0 : Keeps Q_ s) : Keeps Q_ t_ := by
  have h_ := keeps_fmAdd (Q_ := Q_) (host := host) (region := region) (tag := tag) (s := s) h0
  rw [e_] at h_; exact h_

theorem keeps_fmRelease {Q_ : List Instr} {host : Nat} {tag : BitVec 128} {forced : Bool} {s : State} (h0 : Keeps Q_ s) : Keeps Q_ (fmRelease host tag forced s).1 := by
  unfold fmRelease
  try dsimp only
  with_reducible repeat' (first
    | assumption | apply keeps_fmHostPorts
    | refine keeps_fmHostPorts_eq (by assumption) ?_ | split | (intro _)
    | dsimp only)
theorem keeps_fmRelease_eq {Q_ : List Instr} {host : Nat} {tag : BitVec 128} {forced : Bool} {s : State} {t_ x_} (e_ : fmRelease host tag forced s = (t_, x_)) (h0 : Keeps Q_ s) : Keeps Q_ t_ := by
  have h_ := keeps_fmRelease (Q_ := Q_) (host := host) (tag := tag) (forced := forced) (s := s) h0
  rw [e_] at h_; exact h_

theorem keeps_fmSetRegion {Q_ : List Instr} {region length block : Nat} {s : State} (h0 : Keeps Q_ s) : Keeps Q_ (fmSetRegion region length block s).1 := by
  unfold fmSetRegion
  try dsimp only
  with_reducible repeat' (first
    | assumption | split | (intro _) | dsimp only)
theorem keeps_fmSetRegion_eq {Q_ : List Instr} {region length block : Nat} {s : State} {t_ x_} (e_ : fmSetRegion region length block s = (t_, x_)) (h0 : Keeps Q_ s) : Keeps Q_ t_ := by
  have h_ := keeps_fmSetRegion (Q_ := Q_) (region := region) (length := length) (block := block) (s := s) h0
  rw [e_] at h_; exact h_

theorem keeps_execIdentifyMemoryDevice {Q_ : List Instr} {p : PortId} {s : State} (h0 : Keeps Q_ s) : ∃ u_, execIdentifyMemoryDevice p s = .next u_ ∧ Keeps Q_ u_ := by
  refine ⟨_, rfl, ?_⟩
  with_reducible repeat' (first
    | assumption | apply keeps_viewAnswers | split | (intro _) | dsimp only)

theorem keeps_execGetSupportedLogs {Q_ : List Instr} {p : PortId} {s : State} (h0 : Keeps Q_ s) : ∃ u_, execGetSupportedLogs p s = .next u_ ∧ Keeps Q_ u_ := by
  refine ⟨_, rfl, ?_⟩
  with_reducible repeat' (first
    | assumption | apply keeps_afterDraw | apply keeps_viewAnswers | split
    | (intro _) | dsimp only)

theorem keeps_execGetLog {Q_ : List Instr} {p : PortId} {log : BitVec 128} {offset length : BitVec 32} {s : State} (h0 : Keeps Q_ s) : ∃ u_, execGetLog p log offset length s = .next u_ ∧ Keeps Q_ u_ := by
  refine ⟨_, rfl, ?_⟩
  with_reducible repeat' (first
    | assumption | apply keeps_afterDraw | apply keeps_viewAnswers | split
    | (intro _) | dsimp only)

theorem keeps_execGetEventRecords {Q_ : List Instr} {p : PortId} {log : Byte} {s : State} (h0 : Keeps Q_ s) : ∃ u_, execGetEventRecords p log s = .next u_ ∧ Keeps Q_ u_ := by
  refine ⟨_, rfl, ?_⟩
  with_reducible repeat' (first
    | assumption | apply keeps_viewAnswers | split | (intro _) | dsimp only)

theorem keeps_execClearEventRecords {Q_ : List Instr} {p : PortId} {log count : Byte} {s : State} (h0 : Keeps Q_ s) : ∃ u_, execClearEventRecords p log count s = .next u_ ∧ Keeps Q_ u_ := by
  refine ⟨_, rfl, ?_⟩
  with_reducible repeat' (first
    | assumption | apply keeps_eventsClear | split | (intro _) | dsimp only)

theorem keeps_execGetDynamicCapacityConfiguration {Q_ : List Instr} {p : PortId} {s : State} (h0 : Keeps Q_ s) : ∃ u_, execGetDynamicCapacityConfiguration p s = .next u_ ∧ Keeps Q_ u_ := by
  refine ⟨_, rfl, ?_⟩
  with_reducible repeat' (first
    | assumption | apply keeps_viewAnswers | split | (intro _) | dsimp only)

theorem keeps_execGetDynamicCapacityExtentList {Q_ : List Instr} {p : PortId} {s : State} (h0 : Keeps Q_ s) : ∃ u_, execGetDynamicCapacityExtentList p s = .next u_ ∧ Keeps Q_ u_ := by
  refine ⟨_, rfl, ?_⟩
  with_reducible repeat' (first
    | assumption | apply keeps_viewAnswers | split | (intro _) | dsimp only)

theorem keeps_execFmIdentify {Q_ : List Instr} {p : PortId} {s : State} (h0 : Keeps Q_ s) : ∃ u_, execFmIdentify p s = .next u_ ∧ Keeps Q_ u_ := by
  refine ⟨_, rfl, ?_⟩
  with_reducible repeat' (first
    | assumption | apply keeps_fmCommand | apply keeps_fmQuery
    | refine keeps_fmQuery_eq (by assumption) ?_ | split | (intro _)
    | dsimp only)

theorem keeps_execBackgroundOperationStatus {Q_ : List Instr} {p : PortId} {s : State} (h0 : Keeps Q_ s) : ∃ u_, execBackgroundOperationStatus p s = .next u_ ∧ Keeps Q_ u_ := by
  refine ⟨_, rfl, ?_⟩
  with_reducible repeat' (first
    | assumption | apply keeps_fmCommand | apply keeps_fmBackground
    | refine keeps_fmBackground_eq (by assumption) ?_ | split | (intro _)
    | dsimp only)

theorem keeps_execGetResponseMessageLimit {Q_ : List Instr} {p : PortId} {s : State} (h0 : Keeps Q_ s) : ∃ u_, execGetResponseMessageLimit p s = .next u_ ∧ Keeps Q_ u_ := by
  refine ⟨_, rfl, ?_⟩
  with_reducible repeat' (first
    | assumption | apply keeps_fmCommand | split | (intro _) | dsimp only)

theorem keeps_execIdentifySwitchDevice {Q_ : List Instr} {p : PortId} {s : State} (h0 : Keeps Q_ s) : ∃ u_, execIdentifySwitchDevice p s = .next u_ ∧ Keeps Q_ u_ := by
  refine ⟨_, rfl, ?_⟩
  with_reducible repeat' (first
    | assumption | apply keeps_fmCommand | apply keeps_fmQuery
    | refine keeps_fmQuery_eq (by assumption) ?_ | split | (intro _)
    | dsimp only)

theorem keeps_execGetPhysicalPortState {Q_ : List Instr} {p : PortId} {ports : List PortId} {s : State} (h0 : Keeps Q_ s) : ∃ u_, execGetPhysicalPortState p ports s = .next u_ ∧ Keeps Q_ u_ := by
  refine ⟨_, rfl, ?_⟩
  with_reducible repeat' (first
    | assumption | apply keeps_fmCommand | apply keeps_fmQuery
    | refine keeps_fmQuery_eq (by assumption) ?_ | split | (intro _)
    | dsimp only)

theorem keeps_execAssertPerst {Q_ : List Instr} {p t : PortId} {s : State} (h0 : Keeps Q_ s) : ∃ u_, execAssertPerst p t s = .next u_ ∧ Keeps Q_ u_ := by
  refine ⟨_, rfl, ?_⟩
  with_reducible repeat' (first
    | assumption | apply keeps_fmCommand | apply keeps_fmCmd
    | refine keeps_fmCmd_eq (by assumption) ?_ | split | (intro _)
    | dsimp only)

theorem keeps_execDeassertPerst {Q_ : List Instr} {p t : PortId} {s : State} (h0 : Keeps Q_ s) : ∃ u_, execDeassertPerst p t s = .next u_ ∧ Keeps Q_ u_ := by
  refine ⟨_, rfl, ?_⟩
  with_reducible repeat' (first
    | assumption | apply keeps_fmCommand | apply keeps_fmCmd
    | refine keeps_fmCmd_eq (by assumption) ?_ | split | (intro _)
    | dsimp only)

theorem keeps_execResetPpb {Q_ : List Instr} {p t : PortId} {s : State} (h0 : Keeps Q_ s) : ∃ u_, execResetPpb p t s = .next u_ ∧ Keeps Q_ u_ := by
  refine ⟨_, rfl, ?_⟩
  with_reducible repeat' (first
    | assumption | apply keeps_fmCommand | apply keeps_fmCmd
    | refine keeps_fmCmd_eq (by assumption) ?_ | split | (intro _)
    | dsimp only)

theorem keeps_execGetVirtualCxlSwitchInfo {Q_ : List Instr} {p : PortId} {s : State} (h0 : Keeps Q_ s) : ∃ u_, execGetVirtualCxlSwitchInfo p s = .next u_ ∧ Keeps Q_ u_ := by
  refine ⟨_, rfl, ?_⟩
  with_reducible repeat' (first
    | assumption | apply keeps_fmCommand | apply keeps_fmQuery
    | refine keeps_fmQuery_eq (by assumption) ?_ | split | (intro _)
    | dsimp only)

theorem keeps_execBindVppb {Q_ : List Instr} {p : PortId} {v b target : Byte} {s : State} (h0 : Keeps Q_ s) : ∃ u_, execBindVppb p v b target s = .next u_ ∧ Keeps Q_ u_ := by
  refine ⟨_, rfl, ?_⟩
  with_reducible repeat' (first
    | assumption | apply keeps_fmCommand | apply keeps_fmBind
    | refine keeps_fmBind_eq (by assumption) ?_ | split | (intro _)
    | dsimp only)

theorem keeps_execUnbindVppbWait {Q_ : List Instr} {p : PortId} {v b : Byte} {s : State} (h0 : Keeps Q_ s) : ∃ u_, execUnbindVppbWait p v b s = .next u_ ∧ Keeps Q_ u_ := by
  refine ⟨_, rfl, ?_⟩
  with_reducible repeat' (first
    | assumption | apply keeps_fmCommand | apply keeps_fmCmd
    | refine keeps_fmCmd_eq (by assumption) ?_ | split | (intro _)
    | dsimp only)

theorem keeps_execUnbindVppbManaged {Q_ : List Instr} {p : PortId} {v b : Byte} {s : State} (h0 : Keeps Q_ s) : ∃ u_, execUnbindVppbManaged p v b s = .next u_ ∧ Keeps Q_ u_ := by
  refine ⟨_, rfl, ?_⟩
  with_reducible repeat' (first
    | assumption | apply keeps_fmCommand | apply keeps_fmCmd
    | refine keeps_fmCmd_eq (by assumption) ?_ | split | (intro _)
    | dsimp only)

theorem keeps_execUnbindVppbSurprise {Q_ : List Instr} {p : PortId} {v b : Byte} {s : State} (h0 : Keeps Q_ s) : ∃ u_, execUnbindVppbSurprise p v b s = .next u_ ∧ Keeps Q_ u_ := by
  refine ⟨_, rfl, ?_⟩
  with_reducible repeat' (first
    | assumption | apply keeps_fmCommand | apply keeps_fmCmd
    | refine keeps_fmCmd_eq (by assumption) ?_ | split | (intro _)
    | dsimp only)

theorem keeps_execGetDcdInfo {Q_ : List Instr} {p : PortId} {s : State} (h0 : Keeps Q_ s) : ∃ u_, execGetDcdInfo p s = .next u_ ∧ Keeps Q_ u_ := by
  refine ⟨_, rfl, ?_⟩
  with_reducible repeat' (first
    | assumption | apply keeps_fmCommand | apply keeps_fmQuery
    | refine keeps_fmQuery_eq (by assumption) ?_ | split | (intro _)
    | dsimp only)

theorem keeps_execGetHostDcRegionConfiguration {Q_ : List Instr} {p host : PortId} {s : State} (h0 : Keeps Q_ s) : ∃ u_, execGetHostDcRegionConfiguration p host s = .next u_ ∧ Keeps Q_ u_ := by
  refine ⟨_, rfl, ?_⟩
  with_reducible repeat' (first
    | assumption | apply keeps_fmCommand | split | (intro _) | dsimp only)

theorem keeps_execSetDcRegionConfiguration {Q_ : List Instr} {p : PortId} {region : Byte} {length block : BitVec 64} {s : State} (h0 : Keeps Q_ s) : ∃ u_, execSetDcRegionConfiguration p region length block s = .next u_ ∧ Keeps Q_ u_ := by
  refine ⟨_, rfl, ?_⟩
  with_reducible repeat' (first
    | assumption | apply keeps_fmCommand | apply keeps_fmSetRegion
    | refine keeps_fmSetRegion_eq (by assumption) ?_ | split | (intro _)
    | dsimp only)

theorem keeps_execGetDcRegionExtentLists {Q_ : List Instr} {p host : PortId} {s : State} (h0 : Keeps Q_ s) : ∃ u_, execGetDcRegionExtentLists p host s = .next u_ ∧ Keeps Q_ u_ := by
  refine ⟨_, rfl, ?_⟩
  with_reducible repeat' (first
    | assumption | apply keeps_fmCommand | apply keeps_fmQuery
    | refine keeps_fmQuery_eq (by assumption) ?_ | split | (intro _)
    | dsimp only)

theorem keeps_execInitiateDynamicCapacityAdd {Q_ : List Instr} {p host : PortId} {region : Byte} {tag : BitVec 128} {s : State} (h0 : Keeps Q_ s) : ∃ u_, execInitiateDynamicCapacityAdd p host region tag s = .next u_ ∧ Keeps Q_ u_ := by
  refine ⟨_, rfl, ?_⟩
  with_reducible repeat' (first
    | assumption | apply keeps_fmCommand | apply keeps_fmAdd
    | refine keeps_fmAdd_eq (by assumption) ?_ | split | (intro _)
    | dsimp only)

theorem keeps_execInitiateDynamicCapacityRelease {Q_ : List Instr} {p host : PortId} {tag : BitVec 128} {forced : Bool} {s : State} (h0 : Keeps Q_ s) : ∃ u_, execInitiateDynamicCapacityRelease p host tag forced s = .next u_ ∧ Keeps Q_ u_ := by
  refine ⟨_, rfl, ?_⟩
  with_reducible repeat' (first
    | assumption | apply keeps_fmCommand | apply keeps_fmRelease
    | refine keeps_fmRelease_eq (by assumption) ?_ | split | (intro _)
    | dsimp only)

end Sys2Proof.Machine
end

