-- ==== Sys2Proof/Laws/KeepsManagement.lean ====
section
/-! SUPPORT. What the operations of Machine/Management.lean keep: one lemma per operation that answers a state. -/

namespace Sys2Proof.Machine

theorem keeps_takeRequest {q : List Instr} {func : Nat} {dest src : BitVec 18} {param : BitVec 24}
    {data : List Byte} {crc : BitVec 16} {endOk : Bool} {s : State} (h : Keeps q s) :
    Keeps q (takeRequest func dest src param data crc endOk s) := by
  unfold takeRequest
  dsimp only
  split
  · exact h
  · split
    · exact keeps_frameDiscard h
    · split
      · exact keeps_frameDiscard h
      · have hf : Keeps q (frameTaken s) := keeps_frameTaken h
        refine keeps_access ⟨hf.1, hf.2, ?_, hf.4, hf.5, hf.6⟩
        have : (frameTaken s).cr.replies = s.cr.replies := rfl
        simp only [modCr, List.length_append, List.length_singleton, this]
        omega

theorem keeps_mailboxAccess {Q_ : List Instr} {p : PortId} {op : Nat} {payload : List Byte} {s : State} (h0 : Keeps Q_ s) : Keeps Q_ (mailboxAccess p op payload s) := by
  unfold mailboxAccess
  try dsimp only
  with_reducible repeat' (first
    | assumption | apply keeps_mailboxReply | apply keeps_access | split
    | (intro _) | dsimp only)

theorem keeps_mailboxSeq {Q_ : List Instr} {p : PortId} {s : State} (h0 : Keeps Q_ s) : Keeps Q_ (mailboxSeq p s) := by
  unfold mailboxSeq
  try dsimp only
  with_reducible repeat' (first
    | assumption | apply keeps_mailboxReply | split | (intro _) | dsimp only)

theorem keeps_lcCmdOf {Q_ : List Instr} {o : Origin} {arg : List Byte} {readBack : Bool} {s : State} (h0 : Keeps Q_ s) : Keeps Q_ (lcCmdOf o arg readBack s) := by
  unfold lcCmdOf
  try dsimp only
  with_reducible repeat' (first
    | assumption | apply keeps_access | split | (intro _) | dsimp only)

theorem keeps_lodgeCmdOf {Q_ : List Instr} {o : Origin} {n : LodgeId} {code operand : Nat} {s : State} (h0 : Keeps Q_ s) : Keeps Q_ (lodgeCmdOf o n code operand s) := by
  unfold lodgeCmdOf
  try dsimp only
  with_reducible repeat' (first
    | assumption | apply keeps_cmdOf | split | (intro _) | dsimp only)

theorem keeps_keyCmdOf {Q_ : List Instr} {o : Origin} {n : LodgeId} {code : Nat} {s : State} (h0 : Keeps Q_ s) : Keeps Q_ (keyCmdOf o n code s) := by
  unfold keyCmdOf
  try dsimp only
  with_reducible repeat' (first
    | assumption | apply keeps_cmdOf | split | (intro _) | dsimp only)

theorem keeps_retireCmdOf {Q_ : List Instr} {o : Origin} {code : Nat} {arg : BitVec 64} {s : State} (h0 : Keeps Q_ s) : Keeps Q_ (retireCmdOf o code arg s) := by
  unfold retireCmdOf
  try dsimp only
  with_reducible repeat' (first
    | assumption | apply keeps_cmdOf | split | (intro _) | dsimp only)

theorem keeps_execCourierRead {Q_ : List Instr} {dest src : BitVec 18} {param : BitVec 24} {data : List Byte} {crc : BitVec 16} {endOk : Bool} {s : State} (h0 : Keeps Q_ s) : ∃ u_, execCourierRead dest src param data crc endOk s = .next u_ ∧ Keeps Q_ u_ := by
  refine ⟨_, rfl, ?_⟩
  with_reducible repeat' (first
    | assumption | apply keeps_takeRequest | split | (intro _) | dsimp only)

theorem keeps_execCourierWrite {Q_ : List Instr} {dest src : BitVec 18} {param : BitVec 24} {data : List Byte} {crc : BitVec 16} {endOk : Bool} {s : State} (h0 : Keeps Q_ s) : ∃ u_, execCourierWrite dest src param data crc endOk s = .next u_ ∧ Keeps Q_ u_ := by
  refine ⟨_, rfl, ?_⟩
  with_reducible repeat' (first
    | assumption | apply keeps_takeRequest | split | (intro _) | dsimp only)

theorem keeps_execDictRead {Q_ : List Instr} {port : PortId} {payload : List Byte} {s : State} (h0 : Keeps Q_ s) : ∃ u_, execDictRead port payload s = .next u_ ∧ Keeps Q_ u_ := by
  refine ⟨_, rfl, ?_⟩
  with_reducible repeat' (first
    | assumption | apply keeps_mailboxAccess | split | (intro _)
    | dsimp only)

theorem keeps_execDictWrite {Q_ : List Instr} {port : PortId} {payload : List Byte} {s : State} (h0 : Keeps Q_ s) : ∃ u_, execDictWrite port payload s = .next u_ ∧ Keeps Q_ u_ := by
  refine ⟨_, rfl, ?_⟩
  with_reducible repeat' (first
    | assumption | apply keeps_mailboxAccess | split | (intro _)
    | dsimp only)

theorem keeps_execDictSeqRead {Q_ : List Instr} {port : PortId} {s : State} (h0 : Keeps Q_ s) : ∃ u_, execDictSeqRead port s = .next u_ ∧ Keeps Q_ u_ := by
  refine ⟨_, rfl, ?_⟩
  with_reducible repeat' (first
    | assumption | apply keeps_mailboxSeq | split | (intro _) | dsimp only)

theorem keeps_execFlashWriteDone {Q_ : List Instr} {s : State} (h0 : Keeps Q_ s) : ∃ u_, execFlashWriteDone s = .next u_ ∧ Keeps Q_ u_ := by
  refine ⟨_, rfl, ?_⟩
  with_reducible repeat' (first
    | assumption | apply keeps_flashDone | split | (intro _) | dsimp only)

theorem keeps_execParamWrite {Q_ : List Instr} {o : Origin} {param : BitVec 24} {ty : Byte} {offset : BitVec 32} {value : List Byte} {s : State} (h0 : Keeps Q_ s) : ∃ u_, execParamWrite o param ty offset value s = .next u_ ∧ Keeps Q_ u_ := by
  refine ⟨_, rfl, ?_⟩
  with_reducible repeat' (first
    | assumption | apply keeps_access | split | (intro _) | dsimp only)

theorem keeps_execSelectRow {Q_ : List Instr} {o : Origin} {group : BitVec 16} {row : BitVec 32} {s : State} (h0 : Keeps Q_ s) : ∃ u_, execSelectRow o group row s = .next u_ ∧ Keeps Q_ u_ := by
  refine ⟨_, rfl, ?_⟩
  with_reducible repeat' (first
    | assumption | apply keeps_writeOf | split | (intro _) | dsimp only)

theorem keeps_execCommit {Q_ : List Instr} {o : Origin} {group : BitVec 16} {s : State} (h0 : Keeps Q_ s) : ∃ u_, execCommit o group s = .next u_ ∧ Keeps Q_ u_ := by
  refine ⟨_, rfl, ?_⟩
  with_reducible repeat' (first
    | assumption | apply keeps_cmdOf | split | (intro _) | dsimp only)

theorem keeps_execCommitDiscard {Q_ : List Instr} {o : Origin} {group : BitVec 16} {s : State} (h0 : Keeps Q_ s) : ∃ u_, execCommitDiscard o group s = .next u_ ∧ Keeps Q_ u_ := by
  refine ⟨_, rfl, ?_⟩
  with_reducible repeat' (first
    | assumption | apply keeps_cmdOf | split | (intro _) | dsimp only)

theorem keeps_execOwnerCommit {Q_ : List Instr} {o : Origin} {s : State} (h0 : Keeps Q_ s) : ∃ u_, execOwnerCommit o s = .next u_ ∧ Keeps Q_ u_ := by
  refine ⟨_, rfl, ?_⟩
  with_reducible repeat' (first
    | assumption | apply keeps_cmdOf | split | (intro _) | dsimp only)

theorem keeps_execFmPortWrite {Q_ : List Instr} {o : Origin} {port : Byte} {s : State} (h0 : Keeps Q_ s) : ∃ u_, execFmPortWrite o port s = .next u_ ∧ Keeps Q_ u_ := by
  refine ⟨_, rfl, ?_⟩
  with_reducible repeat' (first
    | assumption | apply keeps_writeOf | split | (intro _) | dsimp only)

theorem keeps_execLodgeCreate {Q_ : List Instr} {o : Origin} {n : LodgeId} {s : State} (h0 : Keeps Q_ s) : ∃ u_, execLodgeCreate o n s = .next u_ ∧ Keeps Q_ u_ := by
  refine ⟨_, rfl, ?_⟩
  with_reducible repeat' (first
    | assumption | apply keeps_cmdOf | split | (intro _) | dsimp only)

theorem keeps_execLodgeChange {Q_ : List Instr} {o : Origin} {n : LodgeId} {s : State} (h0 : Keeps Q_ s) : ∃ u_, execLodgeChange o n s = .next u_ ∧ Keeps Q_ u_ := by
  refine ⟨_, rfl, ?_⟩
  with_reducible repeat' (first
    | assumption | apply keeps_cmdOf | split | (intro _) | dsimp only)

theorem keeps_execDestroy {Q_ : List Instr} {o : Origin} {n : LodgeId} {s : State} (h0 : Keeps Q_ s) : ∃ u_, execDestroy o n s = .next u_ ∧ Keeps Q_ u_ := by
  refine ⟨_, rfl, ?_⟩
  with_reducible repeat' (first
    | assumption | apply keeps_lodgeCmdOf | split | (intro _) | dsimp only)

theorem keeps_execDestroyForced {Q_ : List Instr} {o : Origin} {n : LodgeId} {s : State} (h0 : Keeps Q_ s) : ∃ u_, execDestroyForced o n s = .next u_ ∧ Keeps Q_ u_ := by
  refine ⟨_, rfl, ?_⟩
  with_reducible repeat' (first
    | assumption | apply keeps_lodgeCmdOf | split | (intro _) | dsimp only)

theorem keeps_execRequestRelease {Q_ : List Instr} {o : Origin} {n : LodgeId} {k : BitVec 32} {s : State} (h0 : Keeps Q_ s) : ∃ u_, execRequestRelease o n k s = .next u_ ∧ Keeps Q_ u_ := by
  refine ⟨_, rfl, ?_⟩
  with_reducible repeat' (first
    | assumption | apply keeps_lodgeCmdOf | split | (intro _) | dsimp only)

theorem keeps_execReoffer {Q_ : List Instr} {o : Origin} {n : LodgeId} {s : State} (h0 : Keeps Q_ s) : ∃ u_, execReoffer o n s = .next u_ ∧ Keeps Q_ u_ := by
  refine ⟨_, rfl, ?_⟩
  with_reducible repeat' (first
    | assumption | apply keeps_lodgeCmdOf | split | (intro _) | dsimp only)

theorem keeps_execEvacuate {Q_ : List Instr} {o : Origin} {w : WingId} {s : State} (h0 : Keeps Q_ s) : ∃ u_, execEvacuate o w s = .next u_ ∧ Keeps Q_ u_ := by
  refine ⟨_, rfl, ?_⟩
  with_reducible repeat' (first
    | assumption | apply keeps_cmdOf | split | (intro _) | dsimp only)

theorem keeps_execReopen {Q_ : List Instr} {o : Origin} {w : WingId} {s : State} (h0 : Keeps Q_ s) : ∃ u_, execReopen o w s = .next u_ ∧ Keeps Q_ u_ := by
  refine ⟨_, rfl, ?_⟩
  with_reducible repeat' (first
    | assumption | apply keeps_cmdOf | split | (intro _) | dsimp only)

theorem keeps_execTrain {Q_ : List Instr} {o : Origin} {x : DictId} {n : BitVec 16} {s : State} (h0 : Keeps Q_ s) : ∃ u_, execTrain o x n s = .next u_ ∧ Keeps Q_ u_ := by
  refine ⟨_, rfl, ?_⟩
  with_reducible repeat' (first
    | assumption | apply keeps_rowCmdOf | split | (intro _) | dsimp only)

theorem keeps_execDictRetire {Q_ : List Instr} {o : Origin} {x : DictId} {s : State} (h0 : Keeps Q_ s) : ∃ u_, execDictRetire o x s = .next u_ ∧ Keeps Q_ u_ := by
  refine ⟨_, rfl, ?_⟩
  with_reducible repeat' (first
    | assumption | apply keeps_rowCmdOf | split | (intro _) | dsimp only)

theorem keeps_execCancel {Q_ : List Instr} {o : Origin} {x : DictId} {s : State} (h0 : Keeps Q_ s) : ∃ u_, execCancel o x s = .next u_ ∧ Keeps Q_ u_ := by
  refine ⟨_, rfl, ?_⟩
  with_reducible repeat' (first
    | assumption | apply keeps_rowCmdOf | split | (intro _) | dsimp only)

theorem keeps_execEnable {Q_ : List Instr} {o : Origin} {q : QueueId} {s : State} (h0 : Keeps Q_ s) : ∃ u_, execEnable o q s = .next u_ ∧ Keeps Q_ u_ := by
  refine ⟨_, rfl, ?_⟩
  with_reducible repeat' (first
    | assumption | apply keeps_rowCmdOf | split | (intro _) | dsimp only)

theorem keeps_execDisable {Q_ : List Instr} {o : Origin} {q : QueueId} {s : State} (h0 : Keeps Q_ s) : ∃ u_, execDisable o q s = .next u_ ∧ Keeps Q_ u_ := by
  refine ⟨_, rfl, ?_⟩
  with_reducible repeat' (first
    | assumption | apply keeps_rowCmdOf | split | (intro _) | dsimp only)

theorem keeps_execQReset {Q_ : List Instr} {o : Origin} {q : QueueId} {s : State} (h0 : Keeps Q_ s) : ∃ u_, execQReset o q s = .next u_ ∧ Keeps Q_ u_ := by
  refine ⟨_, rfl, ?_⟩
  with_reducible repeat' (first
    | assumption | apply keeps_rowCmdOf | split | (intro _) | dsimp only)

theorem keeps_execInstall {Q_ : List Instr} {o : Origin} {n : LodgeId} {s : State} (h0 : Keeps Q_ s) : ∃ u_, execInstall o n s = .next u_ ∧ Keeps Q_ u_ := by
  refine ⟨_, rfl, ?_⟩
  with_reducible repeat' (first
    | assumption | apply keeps_keyCmdOf | split | (intro _) | dsimp only)

theorem keeps_execWipe {Q_ : List Instr} {o : Origin} {n : LodgeId} {s : State} (h0 : Keeps Q_ s) : ∃ u_, execWipe o n s = .next u_ ∧ Keeps Q_ u_ := by
  refine ⟨_, rfl, ?_⟩
  with_reducible repeat' (first
    | assumption | apply keeps_keyCmdOf | split | (intro _) | dsimp only)

theorem keeps_execRekey {Q_ : List Instr} {o : Origin} {n : LodgeId} {s : State} (h0 : Keeps Q_ s) : ∃ u_, execRekey o n s = .next u_ ∧ Keeps Q_ u_ := by
  refine ⟨_, rfl, ?_⟩
  with_reducible repeat' (first
    | assumption | apply keeps_keyCmdOf | split | (intro _) | dsimp only)

theorem keeps_execRekeyRequest {Q_ : List Instr} {o : Origin} {n : LodgeId} {s : State} (h0 : Keeps Q_ s) : ∃ u_, execRekeyRequest o n s = .next u_ ∧ Keeps Q_ u_ := by
  refine ⟨_, rfl, ?_⟩
  with_reducible repeat' (first
    | assumption | apply keeps_cmdOf | split | (intro _) | dsimp only)

theorem keeps_execCohReset {Q_ : List Instr} {o : Origin} {n : LodgeId} {s : State} (h0 : Keeps Q_ s) : ∃ u_, execCohReset o n s = .next u_ ∧ Keeps Q_ u_ := by
  refine ⟨_, rfl, ?_⟩
  with_reducible repeat' (first
    | assumption | apply keeps_cmdOf | split | (intro _) | dsimp only)

theorem keeps_execLinkDisable {Q_ : List Instr} {o : Origin} {p : PortId} {s : State} (h0 : Keeps Q_ s) : ∃ u_, execLinkDisable o p s = .next u_ ∧ Keeps Q_ u_ := by
  refine ⟨_, rfl, ?_⟩
  with_reducible repeat' (first
    | assumption | apply keeps_cmdOf | split | (intro _) | dsimp only)

theorem keeps_execLinkEnable {Q_ : List Instr} {o : Origin} {p : PortId} {s : State} (h0 : Keeps Q_ s) : ∃ u_, execLinkEnable o p s = .next u_ ∧ Keeps Q_ u_ := by
  refine ⟨_, rfl, ?_⟩
  with_reducible repeat' (first
    | assumption | apply keeps_cmdOf | split | (intro _) | dsimp only)

theorem keeps_execRetrain {Q_ : List Instr} {o : Origin} {p : PortId} {s : State} (h0 : Keeps Q_ s) : ∃ u_, execRetrain o p s = .next u_ ∧ Keeps Q_ u_ := by
  refine ⟨_, rfl, ?_⟩
  with_reducible repeat' (first
    | assumption | apply keeps_cmdOf | split | (intro _) | dsimp only)

theorem keeps_execHotReset {Q_ : List Instr} {o : Origin} {p : PortId} {s : State} (h0 : Keeps Q_ s) : ∃ u_, execHotReset o p s = .next u_ ∧ Keeps Q_ u_ := by
  refine ⟨_, rfl, ?_⟩
  with_reducible repeat' (first
    | assumption | apply keeps_cmdOf | split | (intro _) | dsimp only)

theorem keeps_execPerstAssert {Q_ : List Instr} {o : Origin} {p : PortId} {s : State} (h0 : Keeps Q_ s) : ∃ u_, execPerstAssert o p s = .next u_ ∧ Keeps Q_ u_ := by
  refine ⟨_, rfl, ?_⟩
  with_reducible repeat' (first
    | assumption | apply keeps_cmdOf | split | (intro _) | dsimp only)

theorem keeps_execPerstDeassert {Q_ : List Instr} {o : Origin} {p : PortId} {s : State} (h0 : Keeps Q_ s) : ∃ u_, execPerstDeassert o p s = .next u_ ∧ Keeps Q_ u_ := by
  refine ⟨_, rfl, ?_⟩
  with_reducible repeat' (first
    | assumption | apply keeps_cmdOf | split | (intro _) | dsimp only)

theorem keeps_execBind {Q_ : List Instr} {o : Origin} {v b target : Byte} {s : State} (h0 : Keeps Q_ s) : ∃ u_, execBind o v b target s = .next u_ ∧ Keeps Q_ u_ := by
  refine ⟨_, rfl, ?_⟩
  with_reducible repeat' (first
    | assumption | apply keeps_cmdOf | split | (intro _) | dsimp only)

theorem keeps_execUnbindWait {Q_ : List Instr} {o : Origin} {v b : Byte} {s : State} (h0 : Keeps Q_ s) : ∃ u_, execUnbindWait o v b s = .next u_ ∧ Keeps Q_ u_ := by
  refine ⟨_, rfl, ?_⟩
  with_reducible repeat' (first
    | assumption | apply keeps_cmdOf | split | (intro _) | dsimp only)

theorem keeps_execUnbindManaged {Q_ : List Instr} {o : Origin} {v b : Byte} {s : State} (h0 : Keeps Q_ s) : ∃ u_, execUnbindManaged o v b s = .next u_ ∧ Keeps Q_ u_ := by
  refine ⟨_, rfl, ?_⟩
  with_reducible repeat' (first
    | assumption | apply keeps_cmdOf | split | (intro _) | dsimp only)

theorem keeps_execUnbindSurprise {Q_ : List Instr} {o : Origin} {v b : Byte} {s : State} (h0 : Keeps Q_ s) : ∃ u_, execUnbindSurprise o v b s = .next u_ ∧ Keeps Q_ u_ := by
  refine ⟨_, rfl, ?_⟩
  with_reducible repeat' (first
    | assumption | apply keeps_cmdOf | split | (intro _) | dsimp only)

theorem keeps_execDramApply {Q_ : List Instr} {o : Origin} {s : State} (h0 : Keeps Q_ s) : ∃ u_, execDramApply o s = .next u_ ∧ Keeps Q_ u_ := by
  refine ⟨_, rfl, ?_⟩
  with_reducible repeat' (first
    | assumption | apply keeps_cmdOf | split | (intro _) | dsimp only)

theorem keeps_execDramApplyTest {Q_ : List Instr} {o : Origin} {s : State} (h0 : Keeps Q_ s) : ∃ u_, execDramApplyTest o s = .next u_ ∧ Keeps Q_ u_ := by
  refine ⟨_, rfl, ?_⟩
  with_reducible repeat' (first
    | assumption | apply keeps_cmdOf | split | (intro _) | dsimp only)

theorem keeps_execRetireFrame {Q_ : List Instr} {o : Origin} {arg : BitVec 64} {s : State} (h0 : Keeps Q_ s) : ∃ u_, execRetireFrame o arg s = .next u_ ∧ Keeps Q_ u_ := by
  refine ⟨_, rfl, ?_⟩
  with_reducible repeat' (first
    | assumption | apply keeps_retireCmdOf | split | (intro _) | dsimp only)

theorem keeps_execRetireRow {Q_ : List Instr} {o : Origin} {arg : BitVec 64} {s : State} (h0 : Keeps Q_ s) : ∃ u_, execRetireRow o arg s = .next u_ ∧ Keeps Q_ u_ := by
  refine ⟨_, rfl, ?_⟩
  with_reducible repeat' (first
    | assumption | apply keeps_retireCmdOf | split | (intro _) | dsimp only)

theorem keeps_execRetireBank {Q_ : List Instr} {o : Origin} {arg : BitVec 64} {s : State} (h0 : Keeps Q_ s) : ∃ u_, execRetireBank o arg s = .next u_ ∧ Keeps Q_ u_ := by
  refine ⟨_, rfl, ?_⟩
  with_reducible repeat' (first
    | assumption | apply keeps_retireCmdOf | split | (intro _) | dsimp only)

theorem keeps_execRetireClear {Q_ : List Instr} {o : Origin} {arg : BitVec 64} {s : State} (h0 : Keeps Q_ s) : ∃ u_, execRetireClear o arg s = .next u_ ∧ Keeps Q_ u_ := by
  refine ⟨_, rfl, ?_⟩
  with_reducible repeat' (first
    | assumption | apply keeps_retireCmdOf | split | (intro _) | dsimp only)

theorem keeps_execClReset {Q_ : List Instr} {o : Origin} {k : LinkId} {s : State} (h0 : Keeps Q_ s) : ∃ u_, execClReset o k s = .next u_ ∧ Keeps Q_ u_ := by
  refine ⟨_, rfl, ?_⟩
  with_reducible repeat' (first
    | assumption | apply keeps_cmdOf | split | (intro _) | dsimp only)

theorem keeps_execRegionCommit {Q_ : List Instr} {o : Origin} {s : State} (h0 : Keeps Q_ s) : ∃ u_, execRegionCommit o s = .next u_ ∧ Keeps Q_ u_ := by
  refine ⟨_, rfl, ?_⟩
  with_reducible repeat' (first
    | assumption | apply keeps_cmdOf | split | (intro _) | dsimp only)

theorem keeps_execPresenceEnd {Q_ : List Instr} {o : Origin} {s : State} (h0 : Keeps Q_ s) : ∃ u_, execPresenceEnd o s = .next u_ ∧ Keeps Q_ u_ := by
  refine ⟨_, rfl, ?_⟩
  with_reducible repeat' (first
    | assumption | apply keeps_cmdOf | split | (intro _) | dsimp only)

theorem keeps_execProvision {Q_ : List Instr} {o : Origin} {operand : List Byte} {readBack : Bool} {s : State} (h0 : Keeps Q_ s) : ∃ u_, execProvision o operand readBack s = .next u_ ∧ Keeps Q_ u_ := by
  refine ⟨_, rfl, ?_⟩
  with_reducible repeat' (first
    | assumption | apply keeps_lcCmdOf | split | (intro _) | dsimp only)

theorem keeps_execDeploy {Q_ : List Instr} {o : Origin} {readBack : Bool} {s : State} (h0 : Keeps Q_ s) : ∃ u_, execDeploy o readBack s = .next u_ ∧ Keeps Q_ u_ := by
  refine ⟨_, rfl, ?_⟩
  with_reducible repeat' (first
    | assumption | apply keeps_lcCmdOf | split | (intro _) | dsimp only)

theorem keeps_execEnterService {Q_ : List Instr} {o : Origin} {readBack : Bool} {s : State} (h0 : Keeps Q_ s) : ∃ u_, execEnterService o readBack s = .next u_ ∧ Keeps Q_ u_ := by
  refine ⟨_, rfl, ?_⟩
  with_reducible repeat' (first
    | assumption | apply keeps_lcCmdOf | split | (intro _) | dsimp only)

theorem keeps_execLeaveService {Q_ : List Instr} {o : Origin} {readBack : Bool} {s : State} (h0 : Keeps Q_ s) : ∃ u_, execLeaveService o readBack s = .next u_ ∧ Keeps Q_ u_ := by
  refine ⟨_, rfl, ?_⟩
  with_reducible repeat' (first
    | assumption | apply keeps_lcCmdOf | split | (intro _) | dsimp only)

theorem keeps_execLcRetire {Q_ : List Instr} {o : Origin} {readBack : Bool} {s : State} (h0 : Keeps Q_ s) : ∃ u_, execLcRetire o readBack s = .next u_ ∧ Keeps Q_ u_ := by
  refine ⟨_, rfl, ?_⟩
  with_reducible repeat' (first
    | assumption | apply keeps_lcCmdOf | split | (intro _) | dsimp only)

theorem keeps_execDevReset {Q_ : List Instr} {o : Origin} {s : State} (h0 : Keeps Q_ s) : ∃ u_, execDevReset o s = .next u_ ∧ Keeps Q_ u_ := by
  refine ⟨_, rfl, ?_⟩
  with_reducible repeat' (first
    | assumption | apply keeps_cmdOf | split | (intro _) | dsimp only)

theorem keeps_execTakeOut {Q_ : List Instr} {o : Origin} {u : UnitId} {s : State} (h0 : Keeps Q_ s) : ∃ u_, execTakeOut o u s = .next u_ ∧ Keeps Q_ u_ := by
  refine ⟨_, rfl, ?_⟩
  with_reducible repeat' (first
    | assumption | apply keeps_rowCmdOf | split | (intro _) | dsimp only)

theorem keeps_execRejoin {Q_ : List Instr} {o : Origin} {u : UnitId} {s : State} (h0 : Keeps Q_ s) : ∃ u_, execRejoin o u s = .next u_ ∧ Keeps Q_ u_ := by
  refine ⟨_, rfl, ?_⟩
  with_reducible repeat' (first
    | assumption | apply keeps_rowCmdOf | split | (intro _) | dsimp only)

theorem keeps_execHsClear {Q_ : List Instr} {o : Origin} {s : State} (h0 : Keeps Q_ s) : ∃ u_, execHsClear o s = .next u_ ∧ Keeps Q_ u_ := by
  refine ⟨_, rfl, ?_⟩
  with_reducible repeat' (first
    | assumption | apply keeps_cmdOf | split | (intro _) | dsimp only)

theorem keeps_execPsShelfVote {Q_ : List Instr} {o : Origin} {v : Byte} {s : State} (h0 : Keeps Q_ s) : ∃ u_, execPsShelfVote o v s = .next u_ ∧ Keeps Q_ u_ := by
  refine ⟨_, rfl, ?_⟩
  with_reducible repeat' (first
    | assumption | apply keeps_writeOf | split | (intro _) | dsimp only)

theorem keeps_execPsVcore {Q_ : List Instr} {o : Origin} {i : DieId} {v : Byte} {s : State} (h0 : Keeps Q_ s) : ∃ u_, execPsVcore o i v s = .next u_ ∧ Keeps Q_ u_ := by
  refine ⟨_, rfl, ?_⟩
  with_reducible repeat' (first
    | assumption | apply keeps_writeOf | split | (intro _) | dsimp only)

theorem keeps_execPsPace {Q_ : List Instr} {o : Origin} {m : MemDie} {v : BitVec 32} {s : State} (h0 : Keeps Q_ s) : ∃ u_, execPsPace o m v s = .next u_ ∧ Keeps Q_ u_ := by
  refine ⟨_, rfl, ?_⟩
  with_reducible repeat' (first
    | assumption | apply keeps_writeOf | split | (intro _) | dsimp only)

theorem keeps_execPsDdrRate {Q_ : List Instr} {o : Origin} {m : MemDie} {v : Byte} {s : State} (h0 : Keeps Q_ s) : ∃ u_, execPsDdrRate o m v s = .next u_ ∧ Keeps Q_ u_ := by
  refine ⟨_, rfl, ?_⟩
  with_reducible repeat' (first
    | assumption | apply keeps_writeOf | split | (intro _) | dsimp only)

theorem keeps_execPsSerdesCap {Q_ : List Instr} {o : Origin} {x : LinkDie} {v : Byte} {s : State} (h0 : Keeps Q_ s) : ∃ u_, execPsSerdesCap o x v s = .next u_ ∧ Keeps Q_ u_ := by
  refine ⟨_, rfl, ?_⟩
  with_reducible repeat' (first
    | assumption | apply keeps_writeOf | split | (intro _) | dsimp only)

theorem keeps_execCrBitNs {Q_ : List Instr} {o : Origin} {ns : BitVec 32} {s : State} (h0 : Keeps Q_ s) : ∃ u_, execCrBitNs o ns s = .next u_ ∧ Keeps Q_ u_ := by
  refine ⟨_, rfl, ?_⟩
  with_reducible repeat' (first
    | assumption | apply keeps_writeOf | split | (intro _) | dsimp only)

theorem keeps_execCut {Q_ : List Instr} {o : Origin} {s : State} (h0 : Keeps Q_ s) : ∃ u_, execCut o s = .next u_ ∧ Keeps Q_ u_ := by
  refine ⟨_, rfl, ?_⟩
  with_reducible repeat' (first
    | assumption | apply keeps_cmdOf | split | (intro _) | dsimp only)

end Sys2Proof.Machine
end

