-- ==== Sys2Proof/Laws/State.lean ====
section
/-! SUPPORT. One lemma per part of the state per update: what an update of one part leaves. -/

namespace Sys2Proof.Machine

@[simp] theorem modTime_pending (f : Nat → Nat) (s : State) : (modTime f s).pending = s.pending := rfl
@[simp] theorem modTime_time (f : Nat → Nat) (s : State) : (modTime f s).time = f s.time := rfl
@[simp] theorem modTime_slTime (f : Nat → Nat) (s : State) : (modTime f s).slTime = s.slTime := rfl
@[simp] theorem modTime_fresh (f : Nat → Nat) (s : State) : (modTime f s).fresh = s.fresh := rfl
@[simp] theorem modTime_out (f : Nat → Nat) (s : State) : (modTime f s).out = s.out := rfl
@[simp] theorem modTime_dict (f : Nat → Nat) (s : State) : (modTime f s).dict = s.dict := rfl
@[simp] theorem modTime_sl (f : Nat → Nat) (s : State) : (modTime f s).sl = s.sl := rfl
@[simp] theorem modTime_hs (f : Nat → Nat) (s : State) : (modTime f s).hs = s.hs := rfl
@[simp] theorem modTime_ps (f : Nat → Nat) (s : State) : (modTime f s).ps = s.ps := rfl
@[simp] theorem modTime_cr (f : Nat → Nat) (s : State) : (modTime f s).cr = s.cr := rfl
@[simp] theorem modTime_gb (f : Nat → Nat) (s : State) : (modTime f s).gb = s.gb := rfl
@[simp] theorem modTime_world (f : Nat → Nat) (s : State) : (modTime f s).world = s.world := rfl
@[simp] theorem modTime_unit (f : Nat → Nat) (s : State) : (modTime f s).unit = s.unit := rfl
@[simp] theorem modTime_link (f : Nat → Nat) (s : State) : (modTime f s).link = s.link := rfl
@[simp] theorem modTime_lod (f : Nat → Nat) (s : State) : (modTime f s).lod = s.lod := rfl
@[simp] theorem modTime_port (f : Nat → Nat) (s : State) : (modTime f s).port = s.port := rfl
@[simp] theorem modTime_sw (f : Nat → Nat) (s : State) : (modTime f s).sw = s.sw := rfl
@[simp] theorem modTime_reg (f : Nat → Nat) (s : State) : (modTime f s).reg = s.reg := rfl
@[simp] theorem modTime_ch (f : Nat → Nat) (s : State) : (modTime f s).ch = s.ch := rfl
@[simp] theorem modTime_wing (f : Nat → Nat) (s : State) : (modTime f s).wing = s.wing := rfl
@[simp] theorem modTime_prot (f : Nat → Nat) (s : State) : (modTime f s).prot = s.prot := rfl
@[simp] theorem modTime_space (f : Nat → Nat) (s : State) : (modTime f s).space = s.space := rfl
@[simp] theorem modTime_lc (f : Nat → Nat) (s : State) : (modTime f s).lc = s.lc := rfl
@[simp] theorem modTime_tier (f : Nat → Nat) (s : State) : (modTime f s).tier = s.tier := rfl
@[simp] theorem modTime_coh (f : Nat → Nat) (s : State) : (modTime f s).coh = s.coh := rfl
@[simp] theorem modTime_comp (f : Nat → Nat) (s : State) : (modTime f s).comp = s.comp := rfl
@[simp] theorem modTime_job (f : Nat → Nat) (s : State) : (modTime f s).job = s.job := rfl
@[simp] theorem modSlTime_pending (f : Nat → Nat) (s : State) : (modSlTime f s).pending = s.pending := rfl
@[simp] theorem modSlTime_time (f : Nat → Nat) (s : State) : (modSlTime f s).time = s.time := rfl
@[simp] theorem modSlTime_slTime (f : Nat → Nat) (s : State) : (modSlTime f s).slTime = f s.slTime := rfl
@[simp] theorem modSlTime_fresh (f : Nat → Nat) (s : State) : (modSlTime f s).fresh = s.fresh := rfl
@[simp] theorem modSlTime_out (f : Nat → Nat) (s : State) : (modSlTime f s).out = s.out := rfl
@[simp] theorem modSlTime_dict (f : Nat → Nat) (s : State) : (modSlTime f s).dict = s.dict := rfl
@[simp] theorem modSlTime_sl (f : Nat → Nat) (s : State) : (modSlTime f s).sl = s.sl := rfl
@[simp] theorem modSlTime_hs (f : Nat → Nat) (s : State) : (modSlTime f s).hs = s.hs := rfl
@[simp] theorem modSlTime_ps (f : Nat → Nat) (s : State) : (modSlTime f s).ps = s.ps := rfl
@[simp] theorem modSlTime_cr (f : Nat → Nat) (s : State) : (modSlTime f s).cr = s.cr := rfl
@[simp] theorem modSlTime_gb (f : Nat → Nat) (s : State) : (modSlTime f s).gb = s.gb := rfl
@[simp] theorem modSlTime_world (f : Nat → Nat) (s : State) : (modSlTime f s).world = s.world := rfl
@[simp] theorem modSlTime_unit (f : Nat → Nat) (s : State) : (modSlTime f s).unit = s.unit := rfl
@[simp] theorem modSlTime_link (f : Nat → Nat) (s : State) : (modSlTime f s).link = s.link := rfl
@[simp] theorem modSlTime_lod (f : Nat → Nat) (s : State) : (modSlTime f s).lod = s.lod := rfl
@[simp] theorem modSlTime_port (f : Nat → Nat) (s : State) : (modSlTime f s).port = s.port := rfl
@[simp] theorem modSlTime_sw (f : Nat → Nat) (s : State) : (modSlTime f s).sw = s.sw := rfl
@[simp] theorem modSlTime_reg (f : Nat → Nat) (s : State) : (modSlTime f s).reg = s.reg := rfl
@[simp] theorem modSlTime_ch (f : Nat → Nat) (s : State) : (modSlTime f s).ch = s.ch := rfl
@[simp] theorem modSlTime_wing (f : Nat → Nat) (s : State) : (modSlTime f s).wing = s.wing := rfl
@[simp] theorem modSlTime_prot (f : Nat → Nat) (s : State) : (modSlTime f s).prot = s.prot := rfl
@[simp] theorem modSlTime_space (f : Nat → Nat) (s : State) : (modSlTime f s).space = s.space := rfl
@[simp] theorem modSlTime_lc (f : Nat → Nat) (s : State) : (modSlTime f s).lc = s.lc := rfl
@[simp] theorem modSlTime_tier (f : Nat → Nat) (s : State) : (modSlTime f s).tier = s.tier := rfl
@[simp] theorem modSlTime_coh (f : Nat → Nat) (s : State) : (modSlTime f s).coh = s.coh := rfl
@[simp] theorem modSlTime_comp (f : Nat → Nat) (s : State) : (modSlTime f s).comp = s.comp := rfl
@[simp] theorem modSlTime_job (f : Nat → Nat) (s : State) : (modSlTime f s).job = s.job := rfl
@[simp] theorem modDict_pending (f : Dict → Dict) (s : State) : (modDict f s).pending = s.pending := rfl
@[simp] theorem modDict_time (f : Dict → Dict) (s : State) : (modDict f s).time = s.time := rfl
@[simp] theorem modDict_slTime (f : Dict → Dict) (s : State) : (modDict f s).slTime = s.slTime := rfl
@[simp] theorem modDict_fresh (f : Dict → Dict) (s : State) : (modDict f s).fresh = s.fresh := rfl
@[simp] theorem modDict_out (f : Dict → Dict) (s : State) : (modDict f s).out = s.out := rfl
@[simp] theorem modDict_dict (f : Dict → Dict) (s : State) : (modDict f s).dict = f s.dict := rfl
@[simp] theorem modDict_sl (f : Dict → Dict) (s : State) : (modDict f s).sl = s.sl := rfl
@[simp] theorem modDict_hs (f : Dict → Dict) (s : State) : (modDict f s).hs = s.hs := rfl
@[simp] theorem modDict_ps (f : Dict → Dict) (s : State) : (modDict f s).ps = s.ps := rfl
@[simp] theorem modDict_cr (f : Dict → Dict) (s : State) : (modDict f s).cr = s.cr := rfl
@[simp] theorem modDict_gb (f : Dict → Dict) (s : State) : (modDict f s).gb = s.gb := rfl
@[simp] theorem modDict_world (f : Dict → Dict) (s : State) : (modDict f s).world = s.world := rfl
@[simp] theorem modDict_unit (f : Dict → Dict) (s : State) : (modDict f s).unit = s.unit := rfl
@[simp] theorem modDict_link (f : Dict → Dict) (s : State) : (modDict f s).link = s.link := rfl
@[simp] theorem modDict_lod (f : Dict → Dict) (s : State) : (modDict f s).lod = s.lod := rfl
@[simp] theorem modDict_port (f : Dict → Dict) (s : State) : (modDict f s).port = s.port := rfl
@[simp] theorem modDict_sw (f : Dict → Dict) (s : State) : (modDict f s).sw = s.sw := rfl
@[simp] theorem modDict_reg (f : Dict → Dict) (s : State) : (modDict f s).reg = s.reg := rfl
@[simp] theorem modDict_ch (f : Dict → Dict) (s : State) : (modDict f s).ch = s.ch := rfl
@[simp] theorem modDict_wing (f : Dict → Dict) (s : State) : (modDict f s).wing = s.wing := rfl
@[simp] theorem modDict_prot (f : Dict → Dict) (s : State) : (modDict f s).prot = s.prot := rfl
@[simp] theorem modDict_space (f : Dict → Dict) (s : State) : (modDict f s).space = s.space := rfl
@[simp] theorem modDict_lc (f : Dict → Dict) (s : State) : (modDict f s).lc = s.lc := rfl
@[simp] theorem modDict_tier (f : Dict → Dict) (s : State) : (modDict f s).tier = s.tier := rfl
@[simp] theorem modDict_coh (f : Dict → Dict) (s : State) : (modDict f s).coh = s.coh := rfl
@[simp] theorem modDict_comp (f : Dict → Dict) (s : State) : (modDict f s).comp = s.comp := rfl
@[simp] theorem modDict_job (f : Dict → Dict) (s : State) : (modDict f s).job = s.job := rfl
@[simp] theorem modSl_pending (f : Safelight → Safelight) (s : State) : (modSl f s).pending = s.pending := rfl
@[simp] theorem modSl_time (f : Safelight → Safelight) (s : State) : (modSl f s).time = s.time := rfl
@[simp] theorem modSl_slTime (f : Safelight → Safelight) (s : State) : (modSl f s).slTime = s.slTime := rfl
@[simp] theorem modSl_fresh (f : Safelight → Safelight) (s : State) : (modSl f s).fresh = s.fresh := rfl
@[simp] theorem modSl_out (f : Safelight → Safelight) (s : State) : (modSl f s).out = s.out := rfl
@[simp] theorem modSl_dict (f : Safelight → Safelight) (s : State) : (modSl f s).dict = s.dict := rfl
@[simp] theorem modSl_sl (f : Safelight → Safelight) (s : State) : (modSl f s).sl = f s.sl := rfl
@[simp] theorem modSl_hs (f : Safelight → Safelight) (s : State) : (modSl f s).hs = s.hs := rfl
@[simp] theorem modSl_ps (f : Safelight → Safelight) (s : State) : (modSl f s).ps = s.ps := rfl
@[simp] theorem modSl_cr (f : Safelight → Safelight) (s : State) : (modSl f s).cr = s.cr := rfl
@[simp] theorem modSl_gb (f : Safelight → Safelight) (s : State) : (modSl f s).gb = s.gb := rfl
@[simp] theorem modSl_world (f : Safelight → Safelight) (s : State) : (modSl f s).world = s.world := rfl
@[simp] theorem modSl_unit (f : Safelight → Safelight) (s : State) : (modSl f s).unit = s.unit := rfl
@[simp] theorem modSl_link (f : Safelight → Safelight) (s : State) : (modSl f s).link = s.link := rfl
@[simp] theorem modSl_lod (f : Safelight → Safelight) (s : State) : (modSl f s).lod = s.lod := rfl
@[simp] theorem modSl_port (f : Safelight → Safelight) (s : State) : (modSl f s).port = s.port := rfl
@[simp] theorem modSl_sw (f : Safelight → Safelight) (s : State) : (modSl f s).sw = s.sw := rfl
@[simp] theorem modSl_reg (f : Safelight → Safelight) (s : State) : (modSl f s).reg = s.reg := rfl
@[simp] theorem modSl_ch (f : Safelight → Safelight) (s : State) : (modSl f s).ch = s.ch := rfl
@[simp] theorem modSl_wing (f : Safelight → Safelight) (s : State) : (modSl f s).wing = s.wing := rfl
@[simp] theorem modSl_prot (f : Safelight → Safelight) (s : State) : (modSl f s).prot = s.prot := rfl
@[simp] theorem modSl_space (f : Safelight → Safelight) (s : State) : (modSl f s).space = s.space := rfl
@[simp] theorem modSl_lc (f : Safelight → Safelight) (s : State) : (modSl f s).lc = s.lc := rfl
@[simp] theorem modSl_tier (f : Safelight → Safelight) (s : State) : (modSl f s).tier = s.tier := rfl
@[simp] theorem modSl_coh (f : Safelight → Safelight) (s : State) : (modSl f s).coh = s.coh := rfl
@[simp] theorem modSl_comp (f : Safelight → Safelight) (s : State) : (modSl f s).comp = s.comp := rfl
@[simp] theorem modSl_job (f : Safelight → Safelight) (s : State) : (modSl f s).job = s.job := rfl
@[simp] theorem modHs_pending (f : HotSwap → HotSwap) (s : State) : (modHs f s).pending = s.pending := rfl
@[simp] theorem modHs_time (f : HotSwap → HotSwap) (s : State) : (modHs f s).time = s.time := rfl
@[simp] theorem modHs_slTime (f : HotSwap → HotSwap) (s : State) : (modHs f s).slTime = s.slTime := rfl
@[simp] theorem modHs_fresh (f : HotSwap → HotSwap) (s : State) : (modHs f s).fresh = s.fresh := rfl
@[simp] theorem modHs_out (f : HotSwap → HotSwap) (s : State) : (modHs f s).out = s.out := rfl
@[simp] theorem modHs_dict (f : HotSwap → HotSwap) (s : State) : (modHs f s).dict = s.dict := rfl
@[simp] theorem modHs_sl (f : HotSwap → HotSwap) (s : State) : (modHs f s).sl = s.sl := rfl
@[simp] theorem modHs_hs (f : HotSwap → HotSwap) (s : State) : (modHs f s).hs = f s.hs := rfl
@[simp] theorem modHs_ps (f : HotSwap → HotSwap) (s : State) : (modHs f s).ps = s.ps := rfl
@[simp] theorem modHs_cr (f : HotSwap → HotSwap) (s : State) : (modHs f s).cr = s.cr := rfl
@[simp] theorem modHs_gb (f : HotSwap → HotSwap) (s : State) : (modHs f s).gb = s.gb := rfl
@[simp] theorem modHs_world (f : HotSwap → HotSwap) (s : State) : (modHs f s).world = s.world := rfl
@[simp] theorem modHs_unit (f : HotSwap → HotSwap) (s : State) : (modHs f s).unit = s.unit := rfl
@[simp] theorem modHs_link (f : HotSwap → HotSwap) (s : State) : (modHs f s).link = s.link := rfl
@[simp] theorem modHs_lod (f : HotSwap → HotSwap) (s : State) : (modHs f s).lod = s.lod := rfl
@[simp] theorem modHs_port (f : HotSwap → HotSwap) (s : State) : (modHs f s).port = s.port := rfl
@[simp] theorem modHs_sw (f : HotSwap → HotSwap) (s : State) : (modHs f s).sw = s.sw := rfl
@[simp] theorem modHs_reg (f : HotSwap → HotSwap) (s : State) : (modHs f s).reg = s.reg := rfl
@[simp] theorem modHs_ch (f : HotSwap → HotSwap) (s : State) : (modHs f s).ch = s.ch := rfl
@[simp] theorem modHs_wing (f : HotSwap → HotSwap) (s : State) : (modHs f s).wing = s.wing := rfl
@[simp] theorem modHs_prot (f : HotSwap → HotSwap) (s : State) : (modHs f s).prot = s.prot := rfl
@[simp] theorem modHs_space (f : HotSwap → HotSwap) (s : State) : (modHs f s).space = s.space := rfl
@[simp] theorem modHs_lc (f : HotSwap → HotSwap) (s : State) : (modHs f s).lc = s.lc := rfl
@[simp] theorem modHs_tier (f : HotSwap → HotSwap) (s : State) : (modHs f s).tier = s.tier := rfl
@[simp] theorem modHs_coh (f : HotSwap → HotSwap) (s : State) : (modHs f s).coh = s.coh := rfl
@[simp] theorem modHs_comp (f : HotSwap → HotSwap) (s : State) : (modHs f s).comp = s.comp := rfl
@[simp] theorem modHs_job (f : HotSwap → HotSwap) (s : State) : (modHs f s).job = s.job := rfl
@[simp] theorem modPs_pending (f : PowerStates → PowerStates) (s : State) : (modPs f s).pending = s.pending := rfl
@[simp] theorem modPs_time (f : PowerStates → PowerStates) (s : State) : (modPs f s).time = s.time := rfl
@[simp] theorem modPs_slTime (f : PowerStates → PowerStates) (s : State) : (modPs f s).slTime = s.slTime := rfl
@[simp] theorem modPs_fresh (f : PowerStates → PowerStates) (s : State) : (modPs f s).fresh = s.fresh := rfl
@[simp] theorem modPs_out (f : PowerStates → PowerStates) (s : State) : (modPs f s).out = s.out := rfl
@[simp] theorem modPs_dict (f : PowerStates → PowerStates) (s : State) : (modPs f s).dict = s.dict := rfl
@[simp] theorem modPs_sl (f : PowerStates → PowerStates) (s : State) : (modPs f s).sl = s.sl := rfl
@[simp] theorem modPs_hs (f : PowerStates → PowerStates) (s : State) : (modPs f s).hs = s.hs := rfl
@[simp] theorem modPs_ps (f : PowerStates → PowerStates) (s : State) : (modPs f s).ps = f s.ps := rfl
@[simp] theorem modPs_cr (f : PowerStates → PowerStates) (s : State) : (modPs f s).cr = s.cr := rfl
@[simp] theorem modPs_gb (f : PowerStates → PowerStates) (s : State) : (modPs f s).gb = s.gb := rfl
@[simp] theorem modPs_world (f : PowerStates → PowerStates) (s : State) : (modPs f s).world = s.world := rfl
@[simp] theorem modPs_unit (f : PowerStates → PowerStates) (s : State) : (modPs f s).unit = s.unit := rfl
@[simp] theorem modPs_link (f : PowerStates → PowerStates) (s : State) : (modPs f s).link = s.link := rfl
@[simp] theorem modPs_lod (f : PowerStates → PowerStates) (s : State) : (modPs f s).lod = s.lod := rfl
@[simp] theorem modPs_port (f : PowerStates → PowerStates) (s : State) : (modPs f s).port = s.port := rfl
@[simp] theorem modPs_sw (f : PowerStates → PowerStates) (s : State) : (modPs f s).sw = s.sw := rfl
@[simp] theorem modPs_reg (f : PowerStates → PowerStates) (s : State) : (modPs f s).reg = s.reg := rfl
@[simp] theorem modPs_ch (f : PowerStates → PowerStates) (s : State) : (modPs f s).ch = s.ch := rfl
@[simp] theorem modPs_wing (f : PowerStates → PowerStates) (s : State) : (modPs f s).wing = s.wing := rfl
@[simp] theorem modPs_prot (f : PowerStates → PowerStates) (s : State) : (modPs f s).prot = s.prot := rfl
@[simp] theorem modPs_space (f : PowerStates → PowerStates) (s : State) : (modPs f s).space = s.space := rfl
@[simp] theorem modPs_lc (f : PowerStates → PowerStates) (s : State) : (modPs f s).lc = s.lc := rfl
@[simp] theorem modPs_tier (f : PowerStates → PowerStates) (s : State) : (modPs f s).tier = s.tier := rfl
@[simp] theorem modPs_coh (f : PowerStates → PowerStates) (s : State) : (modPs f s).coh = s.coh := rfl
@[simp] theorem modPs_comp (f : PowerStates → PowerStates) (s : State) : (modPs f s).comp = s.comp := rfl
@[simp] theorem modPs_job (f : PowerStates → PowerStates) (s : State) : (modPs f s).job = s.job := rfl
@[simp] theorem modCr_pending (f : Courier → Courier) (s : State) : (modCr f s).pending = s.pending := rfl
@[simp] theorem modCr_time (f : Courier → Courier) (s : State) : (modCr f s).time = s.time := rfl
@[simp] theorem modCr_slTime (f : Courier → Courier) (s : State) : (modCr f s).slTime = s.slTime := rfl
@[simp] theorem modCr_fresh (f : Courier → Courier) (s : State) : (modCr f s).fresh = s.fresh := rfl
@[simp] theorem modCr_out (f : Courier → Courier) (s : State) : (modCr f s).out = s.out := rfl
@[simp] theorem modCr_dict (f : Courier → Courier) (s : State) : (modCr f s).dict = s.dict := rfl
@[simp] theorem modCr_sl (f : Courier → Courier) (s : State) : (modCr f s).sl = s.sl := rfl
@[simp] theorem modCr_hs (f : Courier → Courier) (s : State) : (modCr f s).hs = s.hs := rfl
@[simp] theorem modCr_ps (f : Courier → Courier) (s : State) : (modCr f s).ps = s.ps := rfl
@[simp] theorem modCr_cr (f : Courier → Courier) (s : State) : (modCr f s).cr = f s.cr := rfl
@[simp] theorem modCr_gb (f : Courier → Courier) (s : State) : (modCr f s).gb = s.gb := rfl
@[simp] theorem modCr_world (f : Courier → Courier) (s : State) : (modCr f s).world = s.world := rfl
@[simp] theorem modCr_unit (f : Courier → Courier) (s : State) : (modCr f s).unit = s.unit := rfl
@[simp] theorem modCr_link (f : Courier → Courier) (s : State) : (modCr f s).link = s.link := rfl
@[simp] theorem modCr_lod (f : Courier → Courier) (s : State) : (modCr f s).lod = s.lod := rfl
@[simp] theorem modCr_port (f : Courier → Courier) (s : State) : (modCr f s).port = s.port := rfl
@[simp] theorem modCr_sw (f : Courier → Courier) (s : State) : (modCr f s).sw = s.sw := rfl
@[simp] theorem modCr_reg (f : Courier → Courier) (s : State) : (modCr f s).reg = s.reg := rfl
@[simp] theorem modCr_ch (f : Courier → Courier) (s : State) : (modCr f s).ch = s.ch := rfl
@[simp] theorem modCr_wing (f : Courier → Courier) (s : State) : (modCr f s).wing = s.wing := rfl
@[simp] theorem modCr_prot (f : Courier → Courier) (s : State) : (modCr f s).prot = s.prot := rfl
@[simp] theorem modCr_space (f : Courier → Courier) (s : State) : (modCr f s).space = s.space := rfl
@[simp] theorem modCr_lc (f : Courier → Courier) (s : State) : (modCr f s).lc = s.lc := rfl
@[simp] theorem modCr_tier (f : Courier → Courier) (s : State) : (modCr f s).tier = s.tier := rfl
@[simp] theorem modCr_coh (f : Courier → Courier) (s : State) : (modCr f s).coh = s.coh := rfl
@[simp] theorem modCr_comp (f : Courier → Courier) (s : State) : (modCr f s).comp = s.comp := rfl
@[simp] theorem modCr_job (f : Courier → Courier) (s : State) : (modCr f s).job = s.job := rfl
@[simp] theorem modGb_pending (f : GuestBook → GuestBook) (s : State) : (modGb f s).pending = s.pending := rfl
@[simp] theorem modGb_time (f : GuestBook → GuestBook) (s : State) : (modGb f s).time = s.time := rfl
@[simp] theorem modGb_slTime (f : GuestBook → GuestBook) (s : State) : (modGb f s).slTime = s.slTime := rfl
@[simp] theorem modGb_fresh (f : GuestBook → GuestBook) (s : State) : (modGb f s).fresh = s.fresh := rfl
@[simp] theorem modGb_out (f : GuestBook → GuestBook) (s : State) : (modGb f s).out = s.out := rfl
@[simp] theorem modGb_dict (f : GuestBook → GuestBook) (s : State) : (modGb f s).dict = s.dict := rfl
@[simp] theorem modGb_sl (f : GuestBook → GuestBook) (s : State) : (modGb f s).sl = s.sl := rfl
@[simp] theorem modGb_hs (f : GuestBook → GuestBook) (s : State) : (modGb f s).hs = s.hs := rfl
@[simp] theorem modGb_ps (f : GuestBook → GuestBook) (s : State) : (modGb f s).ps = s.ps := rfl
@[simp] theorem modGb_cr (f : GuestBook → GuestBook) (s : State) : (modGb f s).cr = s.cr := rfl
@[simp] theorem modGb_gb (f : GuestBook → GuestBook) (s : State) : (modGb f s).gb = f s.gb := rfl
@[simp] theorem modGb_world (f : GuestBook → GuestBook) (s : State) : (modGb f s).world = s.world := rfl
@[simp] theorem modGb_unit (f : GuestBook → GuestBook) (s : State) : (modGb f s).unit = s.unit := rfl
@[simp] theorem modGb_link (f : GuestBook → GuestBook) (s : State) : (modGb f s).link = s.link := rfl
@[simp] theorem modGb_lod (f : GuestBook → GuestBook) (s : State) : (modGb f s).lod = s.lod := rfl
@[simp] theorem modGb_port (f : GuestBook → GuestBook) (s : State) : (modGb f s).port = s.port := rfl
@[simp] theorem modGb_sw (f : GuestBook → GuestBook) (s : State) : (modGb f s).sw = s.sw := rfl
@[simp] theorem modGb_reg (f : GuestBook → GuestBook) (s : State) : (modGb f s).reg = s.reg := rfl
@[simp] theorem modGb_ch (f : GuestBook → GuestBook) (s : State) : (modGb f s).ch = s.ch := rfl
@[simp] theorem modGb_wing (f : GuestBook → GuestBook) (s : State) : (modGb f s).wing = s.wing := rfl
@[simp] theorem modGb_prot (f : GuestBook → GuestBook) (s : State) : (modGb f s).prot = s.prot := rfl
@[simp] theorem modGb_space (f : GuestBook → GuestBook) (s : State) : (modGb f s).space = s.space := rfl
@[simp] theorem modGb_lc (f : GuestBook → GuestBook) (s : State) : (modGb f s).lc = s.lc := rfl
@[simp] theorem modGb_tier (f : GuestBook → GuestBook) (s : State) : (modGb f s).tier = s.tier := rfl
@[simp] theorem modGb_coh (f : GuestBook → GuestBook) (s : State) : (modGb f s).coh = s.coh := rfl
@[simp] theorem modGb_comp (f : GuestBook → GuestBook) (s : State) : (modGb f s).comp = s.comp := rfl
@[simp] theorem modGb_job (f : GuestBook → GuestBook) (s : State) : (modGb f s).job = s.job := rfl
@[simp] theorem modWorld_pending (f : Worlds → Worlds) (s : State) : (modWorld f s).pending = s.pending := rfl
@[simp] theorem modWorld_time (f : Worlds → Worlds) (s : State) : (modWorld f s).time = s.time := rfl
@[simp] theorem modWorld_slTime (f : Worlds → Worlds) (s : State) : (modWorld f s).slTime = s.slTime := rfl
@[simp] theorem modWorld_fresh (f : Worlds → Worlds) (s : State) : (modWorld f s).fresh = s.fresh := rfl
@[simp] theorem modWorld_out (f : Worlds → Worlds) (s : State) : (modWorld f s).out = s.out := rfl
@[simp] theorem modWorld_dict (f : Worlds → Worlds) (s : State) : (modWorld f s).dict = s.dict := rfl
@[simp] theorem modWorld_sl (f : Worlds → Worlds) (s : State) : (modWorld f s).sl = s.sl := rfl
@[simp] theorem modWorld_hs (f : Worlds → Worlds) (s : State) : (modWorld f s).hs = s.hs := rfl
@[simp] theorem modWorld_ps (f : Worlds → Worlds) (s : State) : (modWorld f s).ps = s.ps := rfl
@[simp] theorem modWorld_cr (f : Worlds → Worlds) (s : State) : (modWorld f s).cr = s.cr := rfl
@[simp] theorem modWorld_gb (f : Worlds → Worlds) (s : State) : (modWorld f s).gb = s.gb := rfl
@[simp] theorem modWorld_world (f : Worlds → Worlds) (s : State) : (modWorld f s).world = f s.world := rfl
@[simp] theorem modWorld_unit (f : Worlds → Worlds) (s : State) : (modWorld f s).unit = s.unit := rfl
@[simp] theorem modWorld_link (f : Worlds → Worlds) (s : State) : (modWorld f s).link = s.link := rfl
@[simp] theorem modWorld_lod (f : Worlds → Worlds) (s : State) : (modWorld f s).lod = s.lod := rfl
@[simp] theorem modWorld_port (f : Worlds → Worlds) (s : State) : (modWorld f s).port = s.port := rfl
@[simp] theorem modWorld_sw (f : Worlds → Worlds) (s : State) : (modWorld f s).sw = s.sw := rfl
@[simp] theorem modWorld_reg (f : Worlds → Worlds) (s : State) : (modWorld f s).reg = s.reg := rfl
@[simp] theorem modWorld_ch (f : Worlds → Worlds) (s : State) : (modWorld f s).ch = s.ch := rfl
@[simp] theorem modWorld_wing (f : Worlds → Worlds) (s : State) : (modWorld f s).wing = s.wing := rfl
@[simp] theorem modWorld_prot (f : Worlds → Worlds) (s : State) : (modWorld f s).prot = s.prot := rfl
@[simp] theorem modWorld_space (f : Worlds → Worlds) (s : State) : (modWorld f s).space = s.space := rfl
@[simp] theorem modWorld_lc (f : Worlds → Worlds) (s : State) : (modWorld f s).lc = s.lc := rfl
@[simp] theorem modWorld_tier (f : Worlds → Worlds) (s : State) : (modWorld f s).tier = s.tier := rfl
@[simp] theorem modWorld_coh (f : Worlds → Worlds) (s : State) : (modWorld f s).coh = s.coh := rfl
@[simp] theorem modWorld_comp (f : Worlds → Worlds) (s : State) : (modWorld f s).comp = s.comp := rfl
@[simp] theorem modWorld_job (f : Worlds → Worlds) (s : State) : (modWorld f s).job = s.job := rfl
@[simp] theorem modUnit_pending (f : UnitService → UnitService) (s : State) : (modUnit f s).pending = s.pending := rfl
@[simp] theorem modUnit_time (f : UnitService → UnitService) (s : State) : (modUnit f s).time = s.time := rfl
@[simp] theorem modUnit_slTime (f : UnitService → UnitService) (s : State) : (modUnit f s).slTime = s.slTime := rfl
@[simp] theorem modUnit_fresh (f : UnitService → UnitService) (s : State) : (modUnit f s).fresh = s.fresh := rfl
@[simp] theorem modUnit_out (f : UnitService → UnitService) (s : State) : (modUnit f s).out = s.out := rfl
@[simp] theorem modUnit_dict (f : UnitService → UnitService) (s : State) : (modUnit f s).dict = s.dict := rfl
@[simp] theorem modUnit_sl (f : UnitService → UnitService) (s : State) : (modUnit f s).sl = s.sl := rfl
@[simp] theorem modUnit_hs (f : UnitService → UnitService) (s : State) : (modUnit f s).hs = s.hs := rfl
@[simp] theorem modUnit_ps (f : UnitService → UnitService) (s : State) : (modUnit f s).ps = s.ps := rfl
@[simp] theorem modUnit_cr (f : UnitService → UnitService) (s : State) : (modUnit f s).cr = s.cr := rfl
@[simp] theorem modUnit_gb (f : UnitService → UnitService) (s : State) : (modUnit f s).gb = s.gb := rfl
@[simp] theorem modUnit_world (f : UnitService → UnitService) (s : State) : (modUnit f s).world = s.world := rfl
@[simp] theorem modUnit_unit (f : UnitService → UnitService) (s : State) : (modUnit f s).unit = f s.unit := rfl
@[simp] theorem modUnit_link (f : UnitService → UnitService) (s : State) : (modUnit f s).link = s.link := rfl
@[simp] theorem modUnit_lod (f : UnitService → UnitService) (s : State) : (modUnit f s).lod = s.lod := rfl
@[simp] theorem modUnit_port (f : UnitService → UnitService) (s : State) : (modUnit f s).port = s.port := rfl
@[simp] theorem modUnit_sw (f : UnitService → UnitService) (s : State) : (modUnit f s).sw = s.sw := rfl
@[simp] theorem modUnit_reg (f : UnitService → UnitService) (s : State) : (modUnit f s).reg = s.reg := rfl
@[simp] theorem modUnit_ch (f : UnitService → UnitService) (s : State) : (modUnit f s).ch = s.ch := rfl
@[simp] theorem modUnit_wing (f : UnitService → UnitService) (s : State) : (modUnit f s).wing = s.wing := rfl
@[simp] theorem modUnit_prot (f : UnitService → UnitService) (s : State) : (modUnit f s).prot = s.prot := rfl
@[simp] theorem modUnit_space (f : UnitService → UnitService) (s : State) : (modUnit f s).space = s.space := rfl
@[simp] theorem modUnit_lc (f : UnitService → UnitService) (s : State) : (modUnit f s).lc = s.lc := rfl
@[simp] theorem modUnit_tier (f : UnitService → UnitService) (s : State) : (modUnit f s).tier = s.tier := rfl
@[simp] theorem modUnit_coh (f : UnitService → UnitService) (s : State) : (modUnit f s).coh = s.coh := rfl
@[simp] theorem modUnit_comp (f : UnitService → UnitService) (s : State) : (modUnit f s).comp = s.comp := rfl
@[simp] theorem modUnit_job (f : UnitService → UnitService) (s : State) : (modUnit f s).job = s.job := rfl
@[simp] theorem modLink_pending (f : SMap CorrLink → SMap CorrLink) (s : State) : (modLink f s).pending = s.pending := rfl
@[simp] theorem modLink_time (f : SMap CorrLink → SMap CorrLink) (s : State) : (modLink f s).time = s.time := rfl
@[simp] theorem modLink_slTime (f : SMap CorrLink → SMap CorrLink) (s : State) : (modLink f s).slTime = s.slTime := rfl
@[simp] theorem modLink_fresh (f : SMap CorrLink → SMap CorrLink) (s : State) : (modLink f s).fresh = s.fresh := rfl
@[simp] theorem modLink_out (f : SMap CorrLink → SMap CorrLink) (s : State) : (modLink f s).out = s.out := rfl
@[simp] theorem modLink_dict (f : SMap CorrLink → SMap CorrLink) (s : State) : (modLink f s).dict = s.dict := rfl
@[simp] theorem modLink_sl (f : SMap CorrLink → SMap CorrLink) (s : State) : (modLink f s).sl = s.sl := rfl
@[simp] theorem modLink_hs (f : SMap CorrLink → SMap CorrLink) (s : State) : (modLink f s).hs = s.hs := rfl
@[simp] theorem modLink_ps (f : SMap CorrLink → SMap CorrLink) (s : State) : (modLink f s).ps = s.ps := rfl
@[simp] theorem modLink_cr (f : SMap CorrLink → SMap CorrLink) (s : State) : (modLink f s).cr = s.cr := rfl
@[simp] theorem modLink_gb (f : SMap CorrLink → SMap CorrLink) (s : State) : (modLink f s).gb = s.gb := rfl
@[simp] theorem modLink_world (f : SMap CorrLink → SMap CorrLink) (s : State) : (modLink f s).world = s.world := rfl
@[simp] theorem modLink_unit (f : SMap CorrLink → SMap CorrLink) (s : State) : (modLink f s).unit = s.unit := rfl
@[simp] theorem modLink_link (f : SMap CorrLink → SMap CorrLink) (s : State) : (modLink f s).link = f s.link := rfl
@[simp] theorem modLink_lod (f : SMap CorrLink → SMap CorrLink) (s : State) : (modLink f s).lod = s.lod := rfl
@[simp] theorem modLink_port (f : SMap CorrLink → SMap CorrLink) (s : State) : (modLink f s).port = s.port := rfl
@[simp] theorem modLink_sw (f : SMap CorrLink → SMap CorrLink) (s : State) : (modLink f s).sw = s.sw := rfl
@[simp] theorem modLink_reg (f : SMap CorrLink → SMap CorrLink) (s : State) : (modLink f s).reg = s.reg := rfl
@[simp] theorem modLink_ch (f : SMap CorrLink → SMap CorrLink) (s : State) : (modLink f s).ch = s.ch := rfl
@[simp] theorem modLink_wing (f : SMap CorrLink → SMap CorrLink) (s : State) : (modLink f s).wing = s.wing := rfl
@[simp] theorem modLink_prot (f : SMap CorrLink → SMap CorrLink) (s : State) : (modLink f s).prot = s.prot := rfl
@[simp] theorem modLink_space (f : SMap CorrLink → SMap CorrLink) (s : State) : (modLink f s).space = s.space := rfl
@[simp] theorem modLink_lc (f : SMap CorrLink → SMap CorrLink) (s : State) : (modLink f s).lc = s.lc := rfl
@[simp] theorem modLink_tier (f : SMap CorrLink → SMap CorrLink) (s : State) : (modLink f s).tier = s.tier := rfl
@[simp] theorem modLink_coh (f : SMap CorrLink → SMap CorrLink) (s : State) : (modLink f s).coh = s.coh := rfl
@[simp] theorem modLink_comp (f : SMap CorrLink → SMap CorrLink) (s : State) : (modLink f s).comp = s.comp := rfl
@[simp] theorem modLink_job (f : SMap CorrLink → SMap CorrLink) (s : State) : (modLink f s).job = s.job := rfl
@[simp] theorem modLod_pending (f : Lodgings → Lodgings) (s : State) : (modLod f s).pending = s.pending := rfl
@[simp] theorem modLod_time (f : Lodgings → Lodgings) (s : State) : (modLod f s).time = s.time := rfl
@[simp] theorem modLod_slTime (f : Lodgings → Lodgings) (s : State) : (modLod f s).slTime = s.slTime := rfl
@[simp] theorem modLod_fresh (f : Lodgings → Lodgings) (s : State) : (modLod f s).fresh = s.fresh := rfl
@[simp] theorem modLod_out (f : Lodgings → Lodgings) (s : State) : (modLod f s).out = s.out := rfl
@[simp] theorem modLod_dict (f : Lodgings → Lodgings) (s : State) : (modLod f s).dict = s.dict := rfl
@[simp] theorem modLod_sl (f : Lodgings → Lodgings) (s : State) : (modLod f s).sl = s.sl := rfl
@[simp] theorem modLod_hs (f : Lodgings → Lodgings) (s : State) : (modLod f s).hs = s.hs := rfl
@[simp] theorem modLod_ps (f : Lodgings → Lodgings) (s : State) : (modLod f s).ps = s.ps := rfl
@[simp] theorem modLod_cr (f : Lodgings → Lodgings) (s : State) : (modLod f s).cr = s.cr := rfl
@[simp] theorem modLod_gb (f : Lodgings → Lodgings) (s : State) : (modLod f s).gb = s.gb := rfl
@[simp] theorem modLod_world (f : Lodgings → Lodgings) (s : State) : (modLod f s).world = s.world := rfl
@[simp] theorem modLod_unit (f : Lodgings → Lodgings) (s : State) : (modLod f s).unit = s.unit := rfl
@[simp] theorem modLod_link (f : Lodgings → Lodgings) (s : State) : (modLod f s).link = s.link := rfl
@[simp] theorem modLod_lod (f : Lodgings → Lodgings) (s : State) : (modLod f s).lod = f s.lod := rfl
@[simp] theorem modLod_port (f : Lodgings → Lodgings) (s : State) : (modLod f s).port = s.port := rfl
@[simp] theorem modLod_sw (f : Lodgings → Lodgings) (s : State) : (modLod f s).sw = s.sw := rfl
@[simp] theorem modLod_reg (f : Lodgings → Lodgings) (s : State) : (modLod f s).reg = s.reg := rfl
@[simp] theorem modLod_ch (f : Lodgings → Lodgings) (s : State) : (modLod f s).ch = s.ch := rfl
@[simp] theorem modLod_wing (f : Lodgings → Lodgings) (s : State) : (modLod f s).wing = s.wing := rfl
@[simp] theorem modLod_prot (f : Lodgings → Lodgings) (s : State) : (modLod f s).prot = s.prot := rfl
@[simp] theorem modLod_space (f : Lodgings → Lodgings) (s : State) : (modLod f s).space = s.space := rfl
@[simp] theorem modLod_lc (f : Lodgings → Lodgings) (s : State) : (modLod f s).lc = s.lc := rfl
@[simp] theorem modLod_tier (f : Lodgings → Lodgings) (s : State) : (modLod f s).tier = s.tier := rfl
@[simp] theorem modLod_coh (f : Lodgings → Lodgings) (s : State) : (modLod f s).coh = s.coh := rfl
@[simp] theorem modLod_comp (f : Lodgings → Lodgings) (s : State) : (modLod f s).comp = s.comp := rfl
@[simp] theorem modLod_job (f : Lodgings → Lodgings) (s : State) : (modLod f s).job = s.job := rfl
@[simp] theorem modPort_pending (f : SMap Port → SMap Port) (s : State) : (modPort f s).pending = s.pending := rfl
@[simp] theorem modPort_time (f : SMap Port → SMap Port) (s : State) : (modPort f s).time = s.time := rfl
@[simp] theorem modPort_slTime (f : SMap Port → SMap Port) (s : State) : (modPort f s).slTime = s.slTime := rfl
@[simp] theorem modPort_fresh (f : SMap Port → SMap Port) (s : State) : (modPort f s).fresh = s.fresh := rfl
@[simp] theorem modPort_out (f : SMap Port → SMap Port) (s : State) : (modPort f s).out = s.out := rfl
@[simp] theorem modPort_dict (f : SMap Port → SMap Port) (s : State) : (modPort f s).dict = s.dict := rfl
@[simp] theorem modPort_sl (f : SMap Port → SMap Port) (s : State) : (modPort f s).sl = s.sl := rfl
@[simp] theorem modPort_hs (f : SMap Port → SMap Port) (s : State) : (modPort f s).hs = s.hs := rfl
@[simp] theorem modPort_ps (f : SMap Port → SMap Port) (s : State) : (modPort f s).ps = s.ps := rfl
@[simp] theorem modPort_cr (f : SMap Port → SMap Port) (s : State) : (modPort f s).cr = s.cr := rfl
@[simp] theorem modPort_gb (f : SMap Port → SMap Port) (s : State) : (modPort f s).gb = s.gb := rfl
@[simp] theorem modPort_world (f : SMap Port → SMap Port) (s : State) : (modPort f s).world = s.world := rfl
@[simp] theorem modPort_unit (f : SMap Port → SMap Port) (s : State) : (modPort f s).unit = s.unit := rfl
@[simp] theorem modPort_link (f : SMap Port → SMap Port) (s : State) : (modPort f s).link = s.link := rfl
@[simp] theorem modPort_lod (f : SMap Port → SMap Port) (s : State) : (modPort f s).lod = s.lod := rfl
@[simp] theorem modPort_port (f : SMap Port → SMap Port) (s : State) : (modPort f s).port = f s.port := rfl
@[simp] theorem modPort_sw (f : SMap Port → SMap Port) (s : State) : (modPort f s).sw = s.sw := rfl
@[simp] theorem modPort_reg (f : SMap Port → SMap Port) (s : State) : (modPort f s).reg = s.reg := rfl
@[simp] theorem modPort_ch (f : SMap Port → SMap Port) (s : State) : (modPort f s).ch = s.ch := rfl
@[simp] theorem modPort_wing (f : SMap Port → SMap Port) (s : State) : (modPort f s).wing = s.wing := rfl
@[simp] theorem modPort_prot (f : SMap Port → SMap Port) (s : State) : (modPort f s).prot = s.prot := rfl
@[simp] theorem modPort_space (f : SMap Port → SMap Port) (s : State) : (modPort f s).space = s.space := rfl
@[simp] theorem modPort_lc (f : SMap Port → SMap Port) (s : State) : (modPort f s).lc = s.lc := rfl
@[simp] theorem modPort_tier (f : SMap Port → SMap Port) (s : State) : (modPort f s).tier = s.tier := rfl
@[simp] theorem modPort_coh (f : SMap Port → SMap Port) (s : State) : (modPort f s).coh = s.coh := rfl
@[simp] theorem modPort_comp (f : SMap Port → SMap Port) (s : State) : (modPort f s).comp = s.comp := rfl
@[simp] theorem modPort_job (f : SMap Port → SMap Port) (s : State) : (modPort f s).job = s.job := rfl
@[simp] theorem modSw_pending (f : Switch → Switch) (s : State) : (modSw f s).pending = s.pending := rfl
@[simp] theorem modSw_time (f : Switch → Switch) (s : State) : (modSw f s).time = s.time := rfl
@[simp] theorem modSw_slTime (f : Switch → Switch) (s : State) : (modSw f s).slTime = s.slTime := rfl
@[simp] theorem modSw_fresh (f : Switch → Switch) (s : State) : (modSw f s).fresh = s.fresh := rfl
@[simp] theorem modSw_out (f : Switch → Switch) (s : State) : (modSw f s).out = s.out := rfl
@[simp] theorem modSw_dict (f : Switch → Switch) (s : State) : (modSw f s).dict = s.dict := rfl
@[simp] theorem modSw_sl (f : Switch → Switch) (s : State) : (modSw f s).sl = s.sl := rfl
@[simp] theorem modSw_hs (f : Switch → Switch) (s : State) : (modSw f s).hs = s.hs := rfl
@[simp] theorem modSw_ps (f : Switch → Switch) (s : State) : (modSw f s).ps = s.ps := rfl
@[simp] theorem modSw_cr (f : Switch → Switch) (s : State) : (modSw f s).cr = s.cr := rfl
@[simp] theorem modSw_gb (f : Switch → Switch) (s : State) : (modSw f s).gb = s.gb := rfl
@[simp] theorem modSw_world (f : Switch → Switch) (s : State) : (modSw f s).world = s.world := rfl
@[simp] theorem modSw_unit (f : Switch → Switch) (s : State) : (modSw f s).unit = s.unit := rfl
@[simp] theorem modSw_link (f : Switch → Switch) (s : State) : (modSw f s).link = s.link := rfl
@[simp] theorem modSw_lod (f : Switch → Switch) (s : State) : (modSw f s).lod = s.lod := rfl
@[simp] theorem modSw_port (f : Switch → Switch) (s : State) : (modSw f s).port = s.port := rfl
@[simp] theorem modSw_sw (f : Switch → Switch) (s : State) : (modSw f s).sw = f s.sw := rfl
@[simp] theorem modSw_reg (f : Switch → Switch) (s : State) : (modSw f s).reg = s.reg := rfl
@[simp] theorem modSw_ch (f : Switch → Switch) (s : State) : (modSw f s).ch = s.ch := rfl
@[simp] theorem modSw_wing (f : Switch → Switch) (s : State) : (modSw f s).wing = s.wing := rfl
@[simp] theorem modSw_prot (f : Switch → Switch) (s : State) : (modSw f s).prot = s.prot := rfl
@[simp] theorem modSw_space (f : Switch → Switch) (s : State) : (modSw f s).space = s.space := rfl
@[simp] theorem modSw_lc (f : Switch → Switch) (s : State) : (modSw f s).lc = s.lc := rfl
@[simp] theorem modSw_tier (f : Switch → Switch) (s : State) : (modSw f s).tier = s.tier := rfl
@[simp] theorem modSw_coh (f : Switch → Switch) (s : State) : (modSw f s).coh = s.coh := rfl
@[simp] theorem modSw_comp (f : Switch → Switch) (s : State) : (modSw f s).comp = s.comp := rfl
@[simp] theorem modSw_job (f : Switch → Switch) (s : State) : (modSw f s).job = s.job := rfl
@[simp] theorem modReg_pending (f : Regulation → Regulation) (s : State) : (modReg f s).pending = s.pending := rfl
@[simp] theorem modReg_time (f : Regulation → Regulation) (s : State) : (modReg f s).time = s.time := rfl
@[simp] theorem modReg_slTime (f : Regulation → Regulation) (s : State) : (modReg f s).slTime = s.slTime := rfl
@[simp] theorem modReg_fresh (f : Regulation → Regulation) (s : State) : (modReg f s).fresh = s.fresh := rfl
@[simp] theorem modReg_out (f : Regulation → Regulation) (s : State) : (modReg f s).out = s.out := rfl
@[simp] theorem modReg_dict (f : Regulation → Regulation) (s : State) : (modReg f s).dict = s.dict := rfl
@[simp] theorem modReg_sl (f : Regulation → Regulation) (s : State) : (modReg f s).sl = s.sl := rfl
@[simp] theorem modReg_hs (f : Regulation → Regulation) (s : State) : (modReg f s).hs = s.hs := rfl
@[simp] theorem modReg_ps (f : Regulation → Regulation) (s : State) : (modReg f s).ps = s.ps := rfl
@[simp] theorem modReg_cr (f : Regulation → Regulation) (s : State) : (modReg f s).cr = s.cr := rfl
@[simp] theorem modReg_gb (f : Regulation → Regulation) (s : State) : (modReg f s).gb = s.gb := rfl
@[simp] theorem modReg_world (f : Regulation → Regulation) (s : State) : (modReg f s).world = s.world := rfl
@[simp] theorem modReg_unit (f : Regulation → Regulation) (s : State) : (modReg f s).unit = s.unit := rfl
@[simp] theorem modReg_link (f : Regulation → Regulation) (s : State) : (modReg f s).link = s.link := rfl
@[simp] theorem modReg_lod (f : Regulation → Regulation) (s : State) : (modReg f s).lod = s.lod := rfl
@[simp] theorem modReg_port (f : Regulation → Regulation) (s : State) : (modReg f s).port = s.port := rfl
@[simp] theorem modReg_sw (f : Regulation → Regulation) (s : State) : (modReg f s).sw = s.sw := rfl
@[simp] theorem modReg_reg (f : Regulation → Regulation) (s : State) : (modReg f s).reg = f s.reg := rfl
@[simp] theorem modReg_ch (f : Regulation → Regulation) (s : State) : (modReg f s).ch = s.ch := rfl
@[simp] theorem modReg_wing (f : Regulation → Regulation) (s : State) : (modReg f s).wing = s.wing := rfl
@[simp] theorem modReg_prot (f : Regulation → Regulation) (s : State) : (modReg f s).prot = s.prot := rfl
@[simp] theorem modReg_space (f : Regulation → Regulation) (s : State) : (modReg f s).space = s.space := rfl
@[simp] theorem modReg_lc (f : Regulation → Regulation) (s : State) : (modReg f s).lc = s.lc := rfl
@[simp] theorem modReg_tier (f : Regulation → Regulation) (s : State) : (modReg f s).tier = s.tier := rfl
@[simp] theorem modReg_coh (f : Regulation → Regulation) (s : State) : (modReg f s).coh = s.coh := rfl
@[simp] theorem modReg_comp (f : Regulation → Regulation) (s : State) : (modReg f s).comp = s.comp := rfl
@[simp] theorem modReg_job (f : Regulation → Regulation) (s : State) : (modReg f s).job = s.job := rfl
@[simp] theorem modCh_pending (f : SMap Chan → SMap Chan) (s : State) : (modCh f s).pending = s.pending := rfl
@[simp] theorem modCh_time (f : SMap Chan → SMap Chan) (s : State) : (modCh f s).time = s.time := rfl
@[simp] theorem modCh_slTime (f : SMap Chan → SMap Chan) (s : State) : (modCh f s).slTime = s.slTime := rfl
@[simp] theorem modCh_fresh (f : SMap Chan → SMap Chan) (s : State) : (modCh f s).fresh = s.fresh := rfl
@[simp] theorem modCh_out (f : SMap Chan → SMap Chan) (s : State) : (modCh f s).out = s.out := rfl
@[simp] theorem modCh_dict (f : SMap Chan → SMap Chan) (s : State) : (modCh f s).dict = s.dict := rfl
@[simp] theorem modCh_sl (f : SMap Chan → SMap Chan) (s : State) : (modCh f s).sl = s.sl := rfl
@[simp] theorem modCh_hs (f : SMap Chan → SMap Chan) (s : State) : (modCh f s).hs = s.hs := rfl
@[simp] theorem modCh_ps (f : SMap Chan → SMap Chan) (s : State) : (modCh f s).ps = s.ps := rfl
@[simp] theorem modCh_cr (f : SMap Chan → SMap Chan) (s : State) : (modCh f s).cr = s.cr := rfl
@[simp] theorem modCh_gb (f : SMap Chan → SMap Chan) (s : State) : (modCh f s).gb = s.gb := rfl
@[simp] theorem modCh_world (f : SMap Chan → SMap Chan) (s : State) : (modCh f s).world = s.world := rfl
@[simp] theorem modCh_unit (f : SMap Chan → SMap Chan) (s : State) : (modCh f s).unit = s.unit := rfl
@[simp] theorem modCh_link (f : SMap Chan → SMap Chan) (s : State) : (modCh f s).link = s.link := rfl
@[simp] theorem modCh_lod (f : SMap Chan → SMap Chan) (s : State) : (modCh f s).lod = s.lod := rfl
@[simp] theorem modCh_port (f : SMap Chan → SMap Chan) (s : State) : (modCh f s).port = s.port := rfl
@[simp] theorem modCh_sw (f : SMap Chan → SMap Chan) (s : State) : (modCh f s).sw = s.sw := rfl
@[simp] theorem modCh_reg (f : SMap Chan → SMap Chan) (s : State) : (modCh f s).reg = s.reg := rfl
@[simp] theorem modCh_ch (f : SMap Chan → SMap Chan) (s : State) : (modCh f s).ch = f s.ch := rfl
@[simp] theorem modCh_wing (f : SMap Chan → SMap Chan) (s : State) : (modCh f s).wing = s.wing := rfl
@[simp] theorem modCh_prot (f : SMap Chan → SMap Chan) (s : State) : (modCh f s).prot = s.prot := rfl
@[simp] theorem modCh_space (f : SMap Chan → SMap Chan) (s : State) : (modCh f s).space = s.space := rfl
@[simp] theorem modCh_lc (f : SMap Chan → SMap Chan) (s : State) : (modCh f s).lc = s.lc := rfl
@[simp] theorem modCh_tier (f : SMap Chan → SMap Chan) (s : State) : (modCh f s).tier = s.tier := rfl
@[simp] theorem modCh_coh (f : SMap Chan → SMap Chan) (s : State) : (modCh f s).coh = s.coh := rfl
@[simp] theorem modCh_comp (f : SMap Chan → SMap Chan) (s : State) : (modCh f s).comp = s.comp := rfl
@[simp] theorem modCh_job (f : SMap Chan → SMap Chan) (s : State) : (modCh f s).job = s.job := rfl
@[simp] theorem modWing_pending (f : SMap Wing → SMap Wing) (s : State) : (modWing f s).pending = s.pending := rfl
@[simp] theorem modWing_time (f : SMap Wing → SMap Wing) (s : State) : (modWing f s).time = s.time := rfl
@[simp] theorem modWing_slTime (f : SMap Wing → SMap Wing) (s : State) : (modWing f s).slTime = s.slTime := rfl
@[simp] theorem modWing_fresh (f : SMap Wing → SMap Wing) (s : State) : (modWing f s).fresh = s.fresh := rfl
@[simp] theorem modWing_out (f : SMap Wing → SMap Wing) (s : State) : (modWing f s).out = s.out := rfl
@[simp] theorem modWing_dict (f : SMap Wing → SMap Wing) (s : State) : (modWing f s).dict = s.dict := rfl
@[simp] theorem modWing_sl (f : SMap Wing → SMap Wing) (s : State) : (modWing f s).sl = s.sl := rfl
@[simp] theorem modWing_hs (f : SMap Wing → SMap Wing) (s : State) : (modWing f s).hs = s.hs := rfl
@[simp] theorem modWing_ps (f : SMap Wing → SMap Wing) (s : State) : (modWing f s).ps = s.ps := rfl
@[simp] theorem modWing_cr (f : SMap Wing → SMap Wing) (s : State) : (modWing f s).cr = s.cr := rfl
@[simp] theorem modWing_gb (f : SMap Wing → SMap Wing) (s : State) : (modWing f s).gb = s.gb := rfl
@[simp] theorem modWing_world (f : SMap Wing → SMap Wing) (s : State) : (modWing f s).world = s.world := rfl
@[simp] theorem modWing_unit (f : SMap Wing → SMap Wing) (s : State) : (modWing f s).unit = s.unit := rfl
@[simp] theorem modWing_link (f : SMap Wing → SMap Wing) (s : State) : (modWing f s).link = s.link := rfl
@[simp] theorem modWing_lod (f : SMap Wing → SMap Wing) (s : State) : (modWing f s).lod = s.lod := rfl
@[simp] theorem modWing_port (f : SMap Wing → SMap Wing) (s : State) : (modWing f s).port = s.port := rfl
@[simp] theorem modWing_sw (f : SMap Wing → SMap Wing) (s : State) : (modWing f s).sw = s.sw := rfl
@[simp] theorem modWing_reg (f : SMap Wing → SMap Wing) (s : State) : (modWing f s).reg = s.reg := rfl
@[simp] theorem modWing_ch (f : SMap Wing → SMap Wing) (s : State) : (modWing f s).ch = s.ch := rfl
@[simp] theorem modWing_wing (f : SMap Wing → SMap Wing) (s : State) : (modWing f s).wing = f s.wing := rfl
@[simp] theorem modWing_prot (f : SMap Wing → SMap Wing) (s : State) : (modWing f s).prot = s.prot := rfl
@[simp] theorem modWing_space (f : SMap Wing → SMap Wing) (s : State) : (modWing f s).space = s.space := rfl
@[simp] theorem modWing_lc (f : SMap Wing → SMap Wing) (s : State) : (modWing f s).lc = s.lc := rfl
@[simp] theorem modWing_tier (f : SMap Wing → SMap Wing) (s : State) : (modWing f s).tier = s.tier := rfl
@[simp] theorem modWing_coh (f : SMap Wing → SMap Wing) (s : State) : (modWing f s).coh = s.coh := rfl
@[simp] theorem modWing_comp (f : SMap Wing → SMap Wing) (s : State) : (modWing f s).comp = s.comp := rfl
@[simp] theorem modWing_job (f : SMap Wing → SMap Wing) (s : State) : (modWing f s).job = s.job := rfl
@[simp] theorem modProt_pending (f : Protect → Protect) (s : State) : (modProt f s).pending = s.pending := rfl
@[simp] theorem modProt_time (f : Protect → Protect) (s : State) : (modProt f s).time = s.time := rfl
@[simp] theorem modProt_slTime (f : Protect → Protect) (s : State) : (modProt f s).slTime = s.slTime := rfl
@[simp] theorem modProt_fresh (f : Protect → Protect) (s : State) : (modProt f s).fresh = s.fresh := rfl
@[simp] theorem modProt_out (f : Protect → Protect) (s : State) : (modProt f s).out = s.out := rfl
@[simp] theorem modProt_dict (f : Protect → Protect) (s : State) : (modProt f s).dict = s.dict := rfl
@[simp] theorem modProt_sl (f : Protect → Protect) (s : State) : (modProt f s).sl = s.sl := rfl
@[simp] theorem modProt_hs (f : Protect → Protect) (s : State) : (modProt f s).hs = s.hs := rfl
@[simp] theorem modProt_ps (f : Protect → Protect) (s : State) : (modProt f s).ps = s.ps := rfl
@[simp] theorem modProt_cr (f : Protect → Protect) (s : State) : (modProt f s).cr = s.cr := rfl
@[simp] theorem modProt_gb (f : Protect → Protect) (s : State) : (modProt f s).gb = s.gb := rfl
@[simp] theorem modProt_world (f : Protect → Protect) (s : State) : (modProt f s).world = s.world := rfl
@[simp] theorem modProt_unit (f : Protect → Protect) (s : State) : (modProt f s).unit = s.unit := rfl
@[simp] theorem modProt_link (f : Protect → Protect) (s : State) : (modProt f s).link = s.link := rfl
@[simp] theorem modProt_lod (f : Protect → Protect) (s : State) : (modProt f s).lod = s.lod := rfl
@[simp] theorem modProt_port (f : Protect → Protect) (s : State) : (modProt f s).port = s.port := rfl
@[simp] theorem modProt_sw (f : Protect → Protect) (s : State) : (modProt f s).sw = s.sw := rfl
@[simp] theorem modProt_reg (f : Protect → Protect) (s : State) : (modProt f s).reg = s.reg := rfl
@[simp] theorem modProt_ch (f : Protect → Protect) (s : State) : (modProt f s).ch = s.ch := rfl
@[simp] theorem modProt_wing (f : Protect → Protect) (s : State) : (modProt f s).wing = s.wing := rfl
@[simp] theorem modProt_prot (f : Protect → Protect) (s : State) : (modProt f s).prot = f s.prot := rfl
@[simp] theorem modProt_space (f : Protect → Protect) (s : State) : (modProt f s).space = s.space := rfl
@[simp] theorem modProt_lc (f : Protect → Protect) (s : State) : (modProt f s).lc = s.lc := rfl
@[simp] theorem modProt_tier (f : Protect → Protect) (s : State) : (modProt f s).tier = s.tier := rfl
@[simp] theorem modProt_coh (f : Protect → Protect) (s : State) : (modProt f s).coh = s.coh := rfl
@[simp] theorem modProt_comp (f : Protect → Protect) (s : State) : (modProt f s).comp = s.comp := rfl
@[simp] theorem modProt_job (f : Protect → Protect) (s : State) : (modProt f s).job = s.job := rfl
@[simp] theorem modSpace_pending (f : Space → Space) (s : State) : (modSpace f s).pending = s.pending := rfl
@[simp] theorem modSpace_time (f : Space → Space) (s : State) : (modSpace f s).time = s.time := rfl
@[simp] theorem modSpace_slTime (f : Space → Space) (s : State) : (modSpace f s).slTime = s.slTime := rfl
@[simp] theorem modSpace_fresh (f : Space → Space) (s : State) : (modSpace f s).fresh = s.fresh := rfl
@[simp] theorem modSpace_out (f : Space → Space) (s : State) : (modSpace f s).out = s.out := rfl
@[simp] theorem modSpace_dict (f : Space → Space) (s : State) : (modSpace f s).dict = s.dict := rfl
@[simp] theorem modSpace_sl (f : Space → Space) (s : State) : (modSpace f s).sl = s.sl := rfl
@[simp] theorem modSpace_hs (f : Space → Space) (s : State) : (modSpace f s).hs = s.hs := rfl
@[simp] theorem modSpace_ps (f : Space → Space) (s : State) : (modSpace f s).ps = s.ps := rfl
@[simp] theorem modSpace_cr (f : Space → Space) (s : State) : (modSpace f s).cr = s.cr := rfl
@[simp] theorem modSpace_gb (f : Space → Space) (s : State) : (modSpace f s).gb = s.gb := rfl
@[simp] theorem modSpace_world (f : Space → Space) (s : State) : (modSpace f s).world = s.world := rfl
@[simp] theorem modSpace_unit (f : Space → Space) (s : State) : (modSpace f s).unit = s.unit := rfl
@[simp] theorem modSpace_link (f : Space → Space) (s : State) : (modSpace f s).link = s.link := rfl
@[simp] theorem modSpace_lod (f : Space → Space) (s : State) : (modSpace f s).lod = s.lod := rfl
@[simp] theorem modSpace_port (f : Space → Space) (s : State) : (modSpace f s).port = s.port := rfl
@[simp] theorem modSpace_sw (f : Space → Space) (s : State) : (modSpace f s).sw = s.sw := rfl
@[simp] theorem modSpace_reg (f : Space → Space) (s : State) : (modSpace f s).reg = s.reg := rfl
@[simp] theorem modSpace_ch (f : Space → Space) (s : State) : (modSpace f s).ch = s.ch := rfl
@[simp] theorem modSpace_wing (f : Space → Space) (s : State) : (modSpace f s).wing = s.wing := rfl
@[simp] theorem modSpace_prot (f : Space → Space) (s : State) : (modSpace f s).prot = s.prot := rfl
@[simp] theorem modSpace_space (f : Space → Space) (s : State) : (modSpace f s).space = f s.space := rfl
@[simp] theorem modSpace_lc (f : Space → Space) (s : State) : (modSpace f s).lc = s.lc := rfl
@[simp] theorem modSpace_tier (f : Space → Space) (s : State) : (modSpace f s).tier = s.tier := rfl
@[simp] theorem modSpace_coh (f : Space → Space) (s : State) : (modSpace f s).coh = s.coh := rfl
@[simp] theorem modSpace_comp (f : Space → Space) (s : State) : (modSpace f s).comp = s.comp := rfl
@[simp] theorem modSpace_job (f : Space → Space) (s : State) : (modSpace f s).job = s.job := rfl
@[simp] theorem modLc_pending (f : SMap LcLine → SMap LcLine) (s : State) : (modLc f s).pending = s.pending := rfl
@[simp] theorem modLc_time (f : SMap LcLine → SMap LcLine) (s : State) : (modLc f s).time = s.time := rfl
@[simp] theorem modLc_slTime (f : SMap LcLine → SMap LcLine) (s : State) : (modLc f s).slTime = s.slTime := rfl
@[simp] theorem modLc_fresh (f : SMap LcLine → SMap LcLine) (s : State) : (modLc f s).fresh = s.fresh := rfl
@[simp] theorem modLc_out (f : SMap LcLine → SMap LcLine) (s : State) : (modLc f s).out = s.out := rfl
@[simp] theorem modLc_dict (f : SMap LcLine → SMap LcLine) (s : State) : (modLc f s).dict = s.dict := rfl
@[simp] theorem modLc_sl (f : SMap LcLine → SMap LcLine) (s : State) : (modLc f s).sl = s.sl := rfl
@[simp] theorem modLc_hs (f : SMap LcLine → SMap LcLine) (s : State) : (modLc f s).hs = s.hs := rfl
@[simp] theorem modLc_ps (f : SMap LcLine → SMap LcLine) (s : State) : (modLc f s).ps = s.ps := rfl
@[simp] theorem modLc_cr (f : SMap LcLine → SMap LcLine) (s : State) : (modLc f s).cr = s.cr := rfl
@[simp] theorem modLc_gb (f : SMap LcLine → SMap LcLine) (s : State) : (modLc f s).gb = s.gb := rfl
@[simp] theorem modLc_world (f : SMap LcLine → SMap LcLine) (s : State) : (modLc f s).world = s.world := rfl
@[simp] theorem modLc_unit (f : SMap LcLine → SMap LcLine) (s : State) : (modLc f s).unit = s.unit := rfl
@[simp] theorem modLc_link (f : SMap LcLine → SMap LcLine) (s : State) : (modLc f s).link = s.link := rfl
@[simp] theorem modLc_lod (f : SMap LcLine → SMap LcLine) (s : State) : (modLc f s).lod = s.lod := rfl
@[simp] theorem modLc_port (f : SMap LcLine → SMap LcLine) (s : State) : (modLc f s).port = s.port := rfl
@[simp] theorem modLc_sw (f : SMap LcLine → SMap LcLine) (s : State) : (modLc f s).sw = s.sw := rfl
@[simp] theorem modLc_reg (f : SMap LcLine → SMap LcLine) (s : State) : (modLc f s).reg = s.reg := rfl
@[simp] theorem modLc_ch (f : SMap LcLine → SMap LcLine) (s : State) : (modLc f s).ch = s.ch := rfl
@[simp] theorem modLc_wing (f : SMap LcLine → SMap LcLine) (s : State) : (modLc f s).wing = s.wing := rfl
@[simp] theorem modLc_prot (f : SMap LcLine → SMap LcLine) (s : State) : (modLc f s).prot = s.prot := rfl
@[simp] theorem modLc_space (f : SMap LcLine → SMap LcLine) (s : State) : (modLc f s).space = s.space := rfl
@[simp] theorem modLc_lc (f : SMap LcLine → SMap LcLine) (s : State) : (modLc f s).lc = f s.lc := rfl
@[simp] theorem modLc_tier (f : SMap LcLine → SMap LcLine) (s : State) : (modLc f s).tier = s.tier := rfl
@[simp] theorem modLc_coh (f : SMap LcLine → SMap LcLine) (s : State) : (modLc f s).coh = s.coh := rfl
@[simp] theorem modLc_comp (f : SMap LcLine → SMap LcLine) (s : State) : (modLc f s).comp = s.comp := rfl
@[simp] theorem modLc_job (f : SMap LcLine → SMap LcLine) (s : State) : (modLc f s).job = s.job := rfl
@[simp] theorem modTier_pending (f : Tier → Tier) (s : State) : (modTier f s).pending = s.pending := rfl
@[simp] theorem modTier_time (f : Tier → Tier) (s : State) : (modTier f s).time = s.time := rfl
@[simp] theorem modTier_slTime (f : Tier → Tier) (s : State) : (modTier f s).slTime = s.slTime := rfl
@[simp] theorem modTier_fresh (f : Tier → Tier) (s : State) : (modTier f s).fresh = s.fresh := rfl
@[simp] theorem modTier_out (f : Tier → Tier) (s : State) : (modTier f s).out = s.out := rfl
@[simp] theorem modTier_dict (f : Tier → Tier) (s : State) : (modTier f s).dict = s.dict := rfl
@[simp] theorem modTier_sl (f : Tier → Tier) (s : State) : (modTier f s).sl = s.sl := rfl
@[simp] theorem modTier_hs (f : Tier → Tier) (s : State) : (modTier f s).hs = s.hs := rfl
@[simp] theorem modTier_ps (f : Tier → Tier) (s : State) : (modTier f s).ps = s.ps := rfl
@[simp] theorem modTier_cr (f : Tier → Tier) (s : State) : (modTier f s).cr = s.cr := rfl
@[simp] theorem modTier_gb (f : Tier → Tier) (s : State) : (modTier f s).gb = s.gb := rfl
@[simp] theorem modTier_world (f : Tier → Tier) (s : State) : (modTier f s).world = s.world := rfl
@[simp] theorem modTier_unit (f : Tier → Tier) (s : State) : (modTier f s).unit = s.unit := rfl
@[simp] theorem modTier_link (f : Tier → Tier) (s : State) : (modTier f s).link = s.link := rfl
@[simp] theorem modTier_lod (f : Tier → Tier) (s : State) : (modTier f s).lod = s.lod := rfl
@[simp] theorem modTier_port (f : Tier → Tier) (s : State) : (modTier f s).port = s.port := rfl
@[simp] theorem modTier_sw (f : Tier → Tier) (s : State) : (modTier f s).sw = s.sw := rfl
@[simp] theorem modTier_reg (f : Tier → Tier) (s : State) : (modTier f s).reg = s.reg := rfl
@[simp] theorem modTier_ch (f : Tier → Tier) (s : State) : (modTier f s).ch = s.ch := rfl
@[simp] theorem modTier_wing (f : Tier → Tier) (s : State) : (modTier f s).wing = s.wing := rfl
@[simp] theorem modTier_prot (f : Tier → Tier) (s : State) : (modTier f s).prot = s.prot := rfl
@[simp] theorem modTier_space (f : Tier → Tier) (s : State) : (modTier f s).space = s.space := rfl
@[simp] theorem modTier_lc (f : Tier → Tier) (s : State) : (modTier f s).lc = s.lc := rfl
@[simp] theorem modTier_tier (f : Tier → Tier) (s : State) : (modTier f s).tier = f s.tier := rfl
@[simp] theorem modTier_coh (f : Tier → Tier) (s : State) : (modTier f s).coh = s.coh := rfl
@[simp] theorem modTier_comp (f : Tier → Tier) (s : State) : (modTier f s).comp = s.comp := rfl
@[simp] theorem modTier_job (f : Tier → Tier) (s : State) : (modTier f s).job = s.job := rfl
@[simp] theorem modCoh_pending (f : Coherence → Coherence) (s : State) : (modCoh f s).pending = s.pending := rfl
@[simp] theorem modCoh_time (f : Coherence → Coherence) (s : State) : (modCoh f s).time = s.time := rfl
@[simp] theorem modCoh_slTime (f : Coherence → Coherence) (s : State) : (modCoh f s).slTime = s.slTime := rfl
@[simp] theorem modCoh_fresh (f : Coherence → Coherence) (s : State) : (modCoh f s).fresh = s.fresh := rfl
@[simp] theorem modCoh_out (f : Coherence → Coherence) (s : State) : (modCoh f s).out = s.out := rfl
@[simp] theorem modCoh_dict (f : Coherence → Coherence) (s : State) : (modCoh f s).dict = s.dict := rfl
@[simp] theorem modCoh_sl (f : Coherence → Coherence) (s : State) : (modCoh f s).sl = s.sl := rfl
@[simp] theorem modCoh_hs (f : Coherence → Coherence) (s : State) : (modCoh f s).hs = s.hs := rfl
@[simp] theorem modCoh_ps (f : Coherence → Coherence) (s : State) : (modCoh f s).ps = s.ps := rfl
@[simp] theorem modCoh_cr (f : Coherence → Coherence) (s : State) : (modCoh f s).cr = s.cr := rfl
@[simp] theorem modCoh_gb (f : Coherence → Coherence) (s : State) : (modCoh f s).gb = s.gb := rfl
@[simp] theorem modCoh_world (f : Coherence → Coherence) (s : State) : (modCoh f s).world = s.world := rfl
@[simp] theorem modCoh_unit (f : Coherence → Coherence) (s : State) : (modCoh f s).unit = s.unit := rfl
@[simp] theorem modCoh_link (f : Coherence → Coherence) (s : State) : (modCoh f s).link = s.link := rfl
@[simp] theorem modCoh_lod (f : Coherence → Coherence) (s : State) : (modCoh f s).lod = s.lod := rfl
@[simp] theorem modCoh_port (f : Coherence → Coherence) (s : State) : (modCoh f s).port = s.port := rfl
@[simp] theorem modCoh_sw (f : Coherence → Coherence) (s : State) : (modCoh f s).sw = s.sw := rfl
@[simp] theorem modCoh_reg (f : Coherence → Coherence) (s : State) : (modCoh f s).reg = s.reg := rfl
@[simp] theorem modCoh_ch (f : Coherence → Coherence) (s : State) : (modCoh f s).ch = s.ch := rfl
@[simp] theorem modCoh_wing (f : Coherence → Coherence) (s : State) : (modCoh f s).wing = s.wing := rfl
@[simp] theorem modCoh_prot (f : Coherence → Coherence) (s : State) : (modCoh f s).prot = s.prot := rfl
@[simp] theorem modCoh_space (f : Coherence → Coherence) (s : State) : (modCoh f s).space = s.space := rfl
@[simp] theorem modCoh_lc (f : Coherence → Coherence) (s : State) : (modCoh f s).lc = s.lc := rfl
@[simp] theorem modCoh_tier (f : Coherence → Coherence) (s : State) : (modCoh f s).tier = s.tier := rfl
@[simp] theorem modCoh_coh (f : Coherence → Coherence) (s : State) : (modCoh f s).coh = f s.coh := rfl
@[simp] theorem modCoh_comp (f : Coherence → Coherence) (s : State) : (modCoh f s).comp = s.comp := rfl
@[simp] theorem modCoh_job (f : Coherence → Coherence) (s : State) : (modCoh f s).job = s.job := rfl
@[simp] theorem modComp_pending (f : Comp → Comp) (s : State) : (modComp f s).pending = s.pending := rfl
@[simp] theorem modComp_time (f : Comp → Comp) (s : State) : (modComp f s).time = s.time := rfl
@[simp] theorem modComp_slTime (f : Comp → Comp) (s : State) : (modComp f s).slTime = s.slTime := rfl
@[simp] theorem modComp_fresh (f : Comp → Comp) (s : State) : (modComp f s).fresh = s.fresh := rfl
@[simp] theorem modComp_out (f : Comp → Comp) (s : State) : (modComp f s).out = s.out := rfl
@[simp] theorem modComp_dict (f : Comp → Comp) (s : State) : (modComp f s).dict = s.dict := rfl
@[simp] theorem modComp_sl (f : Comp → Comp) (s : State) : (modComp f s).sl = s.sl := rfl
@[simp] theorem modComp_hs (f : Comp → Comp) (s : State) : (modComp f s).hs = s.hs := rfl
@[simp] theorem modComp_ps (f : Comp → Comp) (s : State) : (modComp f s).ps = s.ps := rfl
@[simp] theorem modComp_cr (f : Comp → Comp) (s : State) : (modComp f s).cr = s.cr := rfl
@[simp] theorem modComp_gb (f : Comp → Comp) (s : State) : (modComp f s).gb = s.gb := rfl
@[simp] theorem modComp_world (f : Comp → Comp) (s : State) : (modComp f s).world = s.world := rfl
@[simp] theorem modComp_unit (f : Comp → Comp) (s : State) : (modComp f s).unit = s.unit := rfl
@[simp] theorem modComp_link (f : Comp → Comp) (s : State) : (modComp f s).link = s.link := rfl
@[simp] theorem modComp_lod (f : Comp → Comp) (s : State) : (modComp f s).lod = s.lod := rfl
@[simp] theorem modComp_port (f : Comp → Comp) (s : State) : (modComp f s).port = s.port := rfl
@[simp] theorem modComp_sw (f : Comp → Comp) (s : State) : (modComp f s).sw = s.sw := rfl
@[simp] theorem modComp_reg (f : Comp → Comp) (s : State) : (modComp f s).reg = s.reg := rfl
@[simp] theorem modComp_ch (f : Comp → Comp) (s : State) : (modComp f s).ch = s.ch := rfl
@[simp] theorem modComp_wing (f : Comp → Comp) (s : State) : (modComp f s).wing = s.wing := rfl
@[simp] theorem modComp_prot (f : Comp → Comp) (s : State) : (modComp f s).prot = s.prot := rfl
@[simp] theorem modComp_space (f : Comp → Comp) (s : State) : (modComp f s).space = s.space := rfl
@[simp] theorem modComp_lc (f : Comp → Comp) (s : State) : (modComp f s).lc = s.lc := rfl
@[simp] theorem modComp_tier (f : Comp → Comp) (s : State) : (modComp f s).tier = s.tier := rfl
@[simp] theorem modComp_coh (f : Comp → Comp) (s : State) : (modComp f s).coh = s.coh := rfl
@[simp] theorem modComp_comp (f : Comp → Comp) (s : State) : (modComp f s).comp = f s.comp := rfl
@[simp] theorem modComp_job (f : Comp → Comp) (s : State) : (modComp f s).job = s.job := rfl
@[simp] theorem modJob_pending (f : Offload → Offload) (s : State) : (modJob f s).pending = s.pending := rfl
@[simp] theorem modJob_time (f : Offload → Offload) (s : State) : (modJob f s).time = s.time := rfl
@[simp] theorem modJob_slTime (f : Offload → Offload) (s : State) : (modJob f s).slTime = s.slTime := rfl
@[simp] theorem modJob_fresh (f : Offload → Offload) (s : State) : (modJob f s).fresh = s.fresh := rfl
@[simp] theorem modJob_out (f : Offload → Offload) (s : State) : (modJob f s).out = s.out := rfl
@[simp] theorem modJob_dict (f : Offload → Offload) (s : State) : (modJob f s).dict = s.dict := rfl
@[simp] theorem modJob_sl (f : Offload → Offload) (s : State) : (modJob f s).sl = s.sl := rfl
@[simp] theorem modJob_hs (f : Offload → Offload) (s : State) : (modJob f s).hs = s.hs := rfl
@[simp] theorem modJob_ps (f : Offload → Offload) (s : State) : (modJob f s).ps = s.ps := rfl
@[simp] theorem modJob_cr (f : Offload → Offload) (s : State) : (modJob f s).cr = s.cr := rfl
@[simp] theorem modJob_gb (f : Offload → Offload) (s : State) : (modJob f s).gb = s.gb := rfl
@[simp] theorem modJob_world (f : Offload → Offload) (s : State) : (modJob f s).world = s.world := rfl
@[simp] theorem modJob_unit (f : Offload → Offload) (s : State) : (modJob f s).unit = s.unit := rfl
@[simp] theorem modJob_link (f : Offload → Offload) (s : State) : (modJob f s).link = s.link := rfl
@[simp] theorem modJob_lod (f : Offload → Offload) (s : State) : (modJob f s).lod = s.lod := rfl
@[simp] theorem modJob_port (f : Offload → Offload) (s : State) : (modJob f s).port = s.port := rfl
@[simp] theorem modJob_sw (f : Offload → Offload) (s : State) : (modJob f s).sw = s.sw := rfl
@[simp] theorem modJob_reg (f : Offload → Offload) (s : State) : (modJob f s).reg = s.reg := rfl
@[simp] theorem modJob_ch (f : Offload → Offload) (s : State) : (modJob f s).ch = s.ch := rfl
@[simp] theorem modJob_wing (f : Offload → Offload) (s : State) : (modJob f s).wing = s.wing := rfl
@[simp] theorem modJob_prot (f : Offload → Offload) (s : State) : (modJob f s).prot = s.prot := rfl
@[simp] theorem modJob_space (f : Offload → Offload) (s : State) : (modJob f s).space = s.space := rfl
@[simp] theorem modJob_lc (f : Offload → Offload) (s : State) : (modJob f s).lc = s.lc := rfl
@[simp] theorem modJob_tier (f : Offload → Offload) (s : State) : (modJob f s).tier = s.tier := rfl
@[simp] theorem modJob_coh (f : Offload → Offload) (s : State) : (modJob f s).coh = s.coh := rfl
@[simp] theorem modJob_comp (f : Offload → Offload) (s : State) : (modJob f s).comp = s.comp := rfl
@[simp] theorem modJob_job (f : Offload → Offload) (s : State) : (modJob f s).job = f s.job := rfl
@[simp] theorem emit_pending (f : Output) (s : State) : (emit f s).pending = s.pending := rfl
@[simp] theorem emit_time (f : Output) (s : State) : (emit f s).time = s.time := rfl
@[simp] theorem emit_slTime (f : Output) (s : State) : (emit f s).slTime = s.slTime := rfl
@[simp] theorem emit_fresh (f : Output) (s : State) : (emit f s).fresh = s.fresh := rfl
@[simp] theorem emit_out (f : Output) (s : State) : (emit f s).out = s.out ++ [f] := rfl
@[simp] theorem emit_dict (f : Output) (s : State) : (emit f s).dict = s.dict := rfl
@[simp] theorem emit_sl (f : Output) (s : State) : (emit f s).sl = s.sl := rfl
@[simp] theorem emit_hs (f : Output) (s : State) : (emit f s).hs = s.hs := rfl
@[simp] theorem emit_ps (f : Output) (s : State) : (emit f s).ps = s.ps := rfl
@[simp] theorem emit_cr (f : Output) (s : State) : (emit f s).cr = s.cr := rfl
@[simp] theorem emit_gb (f : Output) (s : State) : (emit f s).gb = s.gb := rfl
@[simp] theorem emit_world (f : Output) (s : State) : (emit f s).world = s.world := rfl
@[simp] theorem emit_unit (f : Output) (s : State) : (emit f s).unit = s.unit := rfl
@[simp] theorem emit_link (f : Output) (s : State) : (emit f s).link = s.link := rfl
@[simp] theorem emit_lod (f : Output) (s : State) : (emit f s).lod = s.lod := rfl
@[simp] theorem emit_port (f : Output) (s : State) : (emit f s).port = s.port := rfl
@[simp] theorem emit_sw (f : Output) (s : State) : (emit f s).sw = s.sw := rfl
@[simp] theorem emit_reg (f : Output) (s : State) : (emit f s).reg = s.reg := rfl
@[simp] theorem emit_ch (f : Output) (s : State) : (emit f s).ch = s.ch := rfl
@[simp] theorem emit_wing (f : Output) (s : State) : (emit f s).wing = s.wing := rfl
@[simp] theorem emit_prot (f : Output) (s : State) : (emit f s).prot = s.prot := rfl
@[simp] theorem emit_space (f : Output) (s : State) : (emit f s).space = s.space := rfl
@[simp] theorem emit_lc (f : Output) (s : State) : (emit f s).lc = s.lc := rfl
@[simp] theorem emit_tier (f : Output) (s : State) : (emit f s).tier = s.tier := rfl
@[simp] theorem emit_coh (f : Output) (s : State) : (emit f s).coh = s.coh := rfl
@[simp] theorem emit_comp (f : Output) (s : State) : (emit f s).comp = s.comp := rfl
@[simp] theorem emit_job (f : Output) (s : State) : (emit f s).job = s.job := rfl
@[simp] theorem afterDraw_pending  (s : State) : (afterDraw  s).pending = s.pending := rfl
@[simp] theorem afterDraw_time  (s : State) : (afterDraw  s).time = s.time := rfl
@[simp] theorem afterDraw_slTime  (s : State) : (afterDraw  s).slTime = s.slTime := rfl
@[simp] theorem afterDraw_fresh  (s : State) : (afterDraw  s).fresh = s.fresh + 1 := rfl
@[simp] theorem afterDraw_out  (s : State) : (afterDraw  s).out = s.out := rfl
@[simp] theorem afterDraw_dict  (s : State) : (afterDraw  s).dict = s.dict := rfl
@[simp] theorem afterDraw_sl  (s : State) : (afterDraw  s).sl = s.sl := rfl
@[simp] theorem afterDraw_hs  (s : State) : (afterDraw  s).hs = s.hs := rfl
@[simp] theorem afterDraw_ps  (s : State) : (afterDraw  s).ps = s.ps := rfl
@[simp] theorem afterDraw_cr  (s : State) : (afterDraw  s).cr = s.cr := rfl
@[simp] theorem afterDraw_gb  (s : State) : (afterDraw  s).gb = s.gb := rfl
@[simp] theorem afterDraw_world  (s : State) : (afterDraw  s).world = s.world := rfl
@[simp] theorem afterDraw_unit  (s : State) : (afterDraw  s).unit = s.unit := rfl
@[simp] theorem afterDraw_link  (s : State) : (afterDraw  s).link = s.link := rfl
@[simp] theorem afterDraw_lod  (s : State) : (afterDraw  s).lod = s.lod := rfl
@[simp] theorem afterDraw_port  (s : State) : (afterDraw  s).port = s.port := rfl
@[simp] theorem afterDraw_sw  (s : State) : (afterDraw  s).sw = s.sw := rfl
@[simp] theorem afterDraw_reg  (s : State) : (afterDraw  s).reg = s.reg := rfl
@[simp] theorem afterDraw_ch  (s : State) : (afterDraw  s).ch = s.ch := rfl
@[simp] theorem afterDraw_wing  (s : State) : (afterDraw  s).wing = s.wing := rfl
@[simp] theorem afterDraw_prot  (s : State) : (afterDraw  s).prot = s.prot := rfl
@[simp] theorem afterDraw_space  (s : State) : (afterDraw  s).space = s.space := rfl
@[simp] theorem afterDraw_lc  (s : State) : (afterDraw  s).lc = s.lc := rfl
@[simp] theorem afterDraw_tier  (s : State) : (afterDraw  s).tier = s.tier := rfl
@[simp] theorem afterDraw_coh  (s : State) : (afterDraw  s).coh = s.coh := rfl
@[simp] theorem afterDraw_comp  (s : State) : (afterDraw  s).comp = s.comp := rfl
@[simp] theorem afterDraw_job  (s : State) : (afterDraw  s).job = s.job := rfl

end Sys2Proof.Machine
end

