-- ==== Sys2Proof/Tests/Slice0.lean ====
section
/-! SUPPORT. The model's own tests: the size checks, the worked examples of the spec, and for every statement a state and operands
that meet what it supposes. -/

namespace Sys2Proof.Tests
open Sys2Proof Sys2Proof.Machine

set_option maxRecDepth 20000
set_option Elab.async false

/-! ### States -/

/-- A Courier source. -/
def co : Origin := .courier 5#18
/-- A Courier source where presence holds. -/
def coP : Origin := .courier 6#18
/-- Parameters given values. -/
def withParams (l : List (Nat × Nat × Nat)) (s : State) : State := l.foldl (fun t e => putParam e.1 e.2.1 e.2.2 t) s
/-- A deployed device with its dies powered and its worlds running. -/
def stReady : State :=
  { State.reset with
    sl := { fuseP := true, fuseY := true, operatorId := 7, bootStage := .ready, railEn := BitVec.allOnes 20, railPg := BitVec.allOnes 20 }
    hs := { state := .on, vin := 12000, vout := 12000 }
    world := { keeperUp := true, stewardUp := 0xFF#8 } }
/-- The same with a presence window open. -/
def stPresence : State := modSl (fun l => { l with windowEnd := some 1000 }) stReady
/-- A device whose fuses are blank, presence holding. -/
def stBlank : State := modSl (fun l => { l with fuseP := false, fuseY := false }) stPresence
/-- A provisioned device, presence holding. -/
def stProvisioned : State := modSl (fun l => { l with fuseY := false }) stPresence
/-- A device in service, presence holding. -/
def stService : State := modSl (fun l => { l with fuseC := 1 }) stPresence
/-- A tripped main input. -/
def stTripped : State := modHs (fun h => { h with state := .tripped, retries := 3 }) stReady
/-- Lodging 3 `READY` with one granule, and host port 17. -/
def stLodge : State := modLodge 3 (fun _ => { state := .ready }) stReady
/-- Lodging 3 `ACTIVE`. -/
def stLodgeActive : State := modLodge 3 (fun _ => { state := .active }) stReady
/-- Lodging 3 under destruction. -/
def stDestroying : State := modLodge 3 (fun _ => { state := .releasing }) stReady
/-- Lodging 3 with its coherence down. -/
def stDown : State := modCoh (fun c => { c with down := [3] }) stLodgeActive
/-- Lodging 3 `PREPARING`, its keys not yet installed. -/
def stPreparing : State := modLodge 3 (fun _ => { state := .preparing }) stReady
/-- Lodging 3 `WIPING`. -/
def stWiping : State := modLodge 3 (fun _ => { state := .wiping }) stReady
/-- Lodging 3 for which a re-key has been asked. -/
def stRekey : State := modProt (fun x => { x with rekeys := [(3, {})] }) stLodgeActive
/-- Wings with channels: all of one kind. -/
def chansDeclared : List (Nat × Nat × Nat) :=
  [0, 1, 8, 9, 16, 17, 24, 25].flatMap fun c =>
    [(0, P.CH_MODULES + 256 * c, 1), (0, P.CH_MODULE_CODE + 256 * c, 3), (0, P.CH_RANKS + 256 * c, 1), (0, P.CH_RATE + 256 * c, 3)]
/-- Channels declared on wing 0 of each die. -/
def stDeclared : State := modCh (fun _ => [0, 1, 8, 9, 16, 17, 24, 25].map fun c => (c, { state := .declared })) (withParams chansDeclared stReady)
/-- The same channels in use. -/
def stDram : State := modCh (fun _ => [0, 1, 8, 9, 16, 17, 24, 25].map fun c => (c, { state := .active })) (withParams chansDeclared stReady)
/-- Wing 9 of die 2 in use beside its anchor. -/
def stWings : State := modSpace (fun x => { x with uses := [(useKey 2 0, ⟨4, .region 0 0⟩)] })
  (modCh (fun _ => [16, 17, 18, 19].map fun c => (c, { state := .active }))
    (withParams ([16, 17, 18, 19].flatMap fun c =>
      [(0, P.CH_MODULES + 256 * c, 1), (0, P.CH_MODULE_CODE + 256 * c, 3), (0, P.CH_RANKS + 256 * c, 1), (0, P.CH_RATE + 256 * c, 3)]) stReady))
/-- Wing 9 being evacuated. -/
def stWingDraining : State := modWingAt 9 (fun _ => { state := .draining, byCmd := true }) stWings
/-- Wing 9 shut. -/
def stWingShut : State := modWingAt 9 (fun _ => { state := .shut }) stWings
/-- Dictionary 7 installed, dictionary 8 in training. -/
def stDicts : State := modDictAt 8 (fun r => { r with state := .training, owner := 3 })
  (modDictAt 7 (fun r => { r with state := .installed, owner := 3 }) stLodgeActive)
/-- Queue 5 bound to port 17, queue 6 enabled, queue 7 stopped. -/
def stQueues : State := modQueue 7 (fun x => { x with state := .stopped }) <| modQueue 6 (fun x => { x with state := .enabled }) (withParams [(5, P.Q_PORT, 17)] stReady)
/-- Port 17 an upstream port that is up, 18 disabled, 19 a downstream port, slot 1 of switch 17 bound to it. -/
def stPorts : State := modSw (fun w => { w with vcs := [(32 * 17 + 1, 19)] })
  (modPortAt 19 (fun x => { x with link := .up }) (modPortAt 18 (fun x => { x with link := .disabled })
    (modPortAt 17 (fun x => { x with link := .up, width := 16, rate := 5 })
      (withParams [(0, P.PORT_ROLE + 256 * 17, 1), (0, P.PORT_ROLE + 256 * 18, 1), (0, P.PORT_ROLE + 256 * 19, 2), (0, P.PORT_ROLE + 256 * 20, 2)] stReady))))
/-- Corridor link 23 in use. -/
def stLinks : State := modLinkAt 23 (fun x => { x with state := .active }) stReady
/-- Unit 277 out of service. -/
def stUnitOut : State := modUnitRec 277 (fun x => { x with state := .outOfService }) stReady
/-- Values an origin holds staged for a group, with the window's cursor. -/
def staging (o : Origin) (g : Nat) (l : SMap (List Byte)) (cursors : SMap Nat) (s : State) : State :=
  modSession o (fun x => { x with group := some g, staged := l, cursors := cursors }) s
/-- Port 17's role staged. -/
def stStagedPort : State := staging co 0x4011 [(0x10, [1#8])] [] stReady
/-- Lodging 3's creation staged: one granule, no port. -/
def stCreate : State := staging co 0x1003 [(0x10, [1#8, 0#8, 0#8, 0#8])] [] stDram
/-- Lodging 3 `ACTIVE`, a new label staged. -/
def stChange : State := staging co 0x1003 [(0x15, [1#8, 0#8])] [] (withParams [(0, 0x100310, 1)] (modLodge 3 (fun _ => { state := .active }) stDram))
/-- The ownership of group 0x4011 staged. -/
def stOwner : State := staging co 3 [(0x10, [1#8])] [(3, 0x4011)] stReady
/-- An entry of a region checker staged. -/
def stRegion : State := staging .keeper 0x7801 [(0x10, List.replicate 16 0#8)] [(0x7801, 8449)] stReady
/-- One entry waiting for the flash. -/
def stFlash (r : Option (ReplyTo × Nat × Resp)) : State := modDict (fun d => { d with flashQ := [⟨pkey 0 P.FM_PORT, 17, r⟩] }) stReady
/-- Port 17 is `FM_PORT` and has an IME vPPB. -/
def stFm : State := modSw (fun w => { w with vcs := [(32 * 17, 0x40)] })
  (modPortAt 17 (fun x => { x with link := .up, width := 16, rate := 5 })
    (withParams [(0, P.FM_PORT, 17), (0, P.PORT_ROLE + 256 * 17, 1), (0, P.PORT_ROLE + 256 * 18, 1)] stReady))
/-- The same, the FM API owning the groups it writes. -/
def stFmOwned : State := modDict (fun d => { d with owners := [(0x1003, 2), (0x4012, 2), (0x4013, 2), (0x4100, 2)] }) stFm
/-- A background command has been started. -/
def stFmBg : State := modDict (fun d => { d with lastBg := some (0, P.SW_BIND_CMD) }) stFm
/-- Downstream ports 19 (bound to slot 1) and 20 behind it. -/
def stFmPorts : State := modSw (fun w => { w with vcs := [(32 * 17, 0x40), (32 * 17 + 1, 19)] })
  (withParams [(0, P.PORT_ROLE + 256 * 19, 2), (0, P.PORT_ROLE + 256 * 20, 2)] stFmOwned)
/-- Lodging 3 offered to port 17. -/
def stFmLodge : State := modCh (fun _ => [0, 1, 8, 9, 16, 17, 24, 25].map fun c => (c, { state := .active }))
  (modLodge 3 (fun _ => { state := .active })
    (withParams ((0, P.HOST_PORTS + 256 * 3, 2 ^ 17) :: (0, 0x100310, 1) :: (0, P.ATTR + 256 * 3, 4) :: chansDeclared) stFmOwned))
/-- A device with Courier address 9 on an idle bus. -/
def stCourier : State := modCr (fun c => { c with address := some 9, busIdle := true }) stReady
/-- The data of a request: header with type 1 and length, then the value. -/
def crData (ty : Nat) (v : List Byte) : List Byte := leBytes 8 (ty + 2 ^ 16) ++ v

/-- No address yet, `ENUM_IN` high for 1 ms. -/
def stUnaddressed : State := modCr (fun c => { c with address := none, busIdle := true, enumIn := true, enumInHeld := true }) stReady
/-- An address has just been acknowledged. -/
def stAcked : State := modCr (fun c => { c with enumIn := true, enumInHeld := true, ackSent := true }) stCourier
/-- One reply is ready. -/
def stReply : State := modCr (fun c => { c with replies := [⟨4, 5, P.PS_WAKE_TIMER, some ⟨0, 3, 9, []⟩, false⟩] }) stCourier
/-- One alert waits for its destination, node 3. -/
def stAlert : State := modCr (fun c => { c with waiting := [⟨1, 9, 1, 1, 0, 0, 0⟩] }) (withParams [(0, P.CR_ALERT_DEST, 3)] stCourier)
/-- The cut of a start. -/
def gbOneCut : GbCut := ⟨0, 4, 6, 6, 0, 0, 0, false, [], [], 0, [7]⟩
/-- One record waits to be written. -/
def stOneCut : State := modGb (fun g => { g with latches := [gbOneCut] }) stReady
/-- Two cuts wait. -/
def stTwoCuts : State := modGb (fun g => { g with latches := [gbOneCut, gbOneCut] }) stReady
/-- The rails of step 3 are enabled, those before are good. -/
def stPowering : State := modSl (fun l => { l with bootStage := .powering, railEn := 0xFFF#20, railPg := 0xFF#20, railStep := 3, railsFor := .boot }) stReady
/-- The rails are up. -/
def stRun : State := modSl (fun l => { l with railStep := 6 }) stReady
/-- Die 5 has been hot for 10 ms. -/
def stHot : State := modSl (fun l => { l with tj := [(5, 116)], hotMs := [(5, 10)] }) stRun
/-- After a thermal shutdown. -/
def stCooled : State := modSl (fun l => { l with thermShutdown := true, thermN := true, railEn := 0#20, railPg := 0#20, resetArmed := 6 }) stReady
/-- Without standby power. -/
def stNoStandby : State := modSl (fun l => { l with vstby := false }) State.reset
/-- The boot ROM has the firmware before it. -/
def stBooting : State := modWorld (fun w => { w with keeperUp := false, stewardUp := 0#8 }) (modSl (fun l => { l with bootStage := .booting }) stRun)
/-- Every region open to every class. -/
def stScrub : State := modWorld (fun w => { w with regions := lockedRegions }) stRun
/-- A main input in some state, seated, its gates off. -/
def stSeat (h : HsState) : State := modHs (fun x => { x with state := h, seatA := true, seatB := true, vin := 12000 }) stReady
/-- The gates on. -/
def stGates : State := modHs (fun x => { x with gateA := true, gateB := true, seatA := true, seatB := true }) stReady
/-- Branch 15 waits to ramp. -/
def stBranchQueue : State := modHs (fun h => { h with rampQueue := [15], branches := [(15, { state := .ramp })] }) stGates
/-- Branch 4 ramps, 5 carries its wing, the gate of 6 has been pulled down. -/
def stBranches : State := modHs (fun h => { h with branches := [(4, { state := .ramp, gate := true, ramping := true }), (5, { state := .on, gate := true }), (6, { state := .on })] }) stGates
/-- `IDLE`. -/
def stIdle : State := modPs (fun p => { p with state := .idle }) stRun
/-- No vote above `NIGHT`. -/
def stQuiet : State := withParams [(0, P.PS_SHELF_VOTE, 1)] (modPs (fun p => { p with steward := 1, keeper := 0 }) stIdle)
/-- No vote at all. -/
def stNoVote : State := withParams [(0, P.PS_SHELF_VOTE, 0)] (modPs (fun p => { p with steward := 0, keeper := 0 }) stIdle)
/-- An entry at a step. -/
def stEntering (k : Nat) : State := modPs (fun p => { p with state := .entering, entryStep := k }) stQuiet
/-- `NIGHT`, the timer having woken. -/
def stAsleep : State := modPs (fun p => { p with state := .night, latchedWake := some 3 }) stQuiet
/-- An exit at a step. -/
def stExiting (k : Nat) : State := modPs (fun p => { p with state := .exiting, exitStep := k }) stQuiet
/-- The wake timer is armed. -/
def stTimer : State := modPs (fun p => { p with state := .night, timerEnd := some 5 }) stQuiet
/-- The wake hold stands. -/
def stHold : State := modPs (fun p => { p with wakeHold := true }) stIdle
/-- The rail of die 3 moves from step 2. -/
def stMovingRail : State := modPs (fun p => { p with moving := [(3, some 2)] }) stReady

/-- Keeper is restarting. -/
def stKeeperRestarting : State := modWorld (fun w => { w with keeper := .restarting, keeperUp := false, restartCause := 2 }) stReady
/-- Core 4 waits for Keeper. -/
def stCalls : State := modWorld (fun w => { w with calls := [{ core := 4, req := [] }] }) stReady
/-- Keeper has been restarted as often as the limit allows. -/
def stRestarted : State := modWorld (fun w => { w with restartTimes := List.replicate 255 0 }) stReady
/-- A device in service whose debug enables are set. -/
def stDebug : State := withParams [(0, P.DBG_KEEPER_INV, 1)] stService
/-- The same with Steward cores open too, and the management memory open to every class. -/
def stDebugMem : State := modWorld (fun w => { w with regions := lockedRegions })
  (withParams [(0, P.DBG_STEWARD_INV, 1)] (modSl (fun l => { l with railStep := 6 }) stDebug))
/-- The last key message of an `INSTALL` for lodging 3 is under way. -/
def stKeyJob : State := modProt (fun x => { x with jobs := [⟨1, 3, 77#256, [1], 0⟩] }) stPreparing
/-- Lodging 3 of one granule under a re-key whose secret all dies have. -/
def stRekeying : State := modProt (fun x => { x with
    rekeys := [(3, { asked := false, slot := 1, bounds := [] })]
    base := [(0, { owner := 3 }), (1, { owner := 3 }), (2, { owner := 3 }), (3, { owner := 3 })]
    tslots := [(1, ⟨5#256, 3, 1⟩), (5, ⟨5#256, 3, 1⟩), (9, ⟨5#256, 3, 1⟩), (13, ⟨5#256, 3, 1⟩)]
    secrets := [(3, 4#256), (4099, 4#256), (8195, 4#256), (12291, 4#256)] })
  (modLod (fun l => { l with slots := [(0, ⟨3, 0, false, [0]⟩)] })
    (withParams [(0, 0x100310, 1)] (modLodge 3 (fun _ => { state := .active, slots := [(0, 0)] }) stRun)))
/-- The first page of die 2 is in a frame. -/
def stRekeyPlain : State := modProt (fun x => { x with desc := [(pageKey 3 (homedFrom 3 2 0), { state := .plain, owner := 3, loc := 5, hasFrame := true })] }) stRekeying
/-- Every boundary has passed the last page. -/
def stRekeyDone : State := modProt (fun x => { x with rekeys := [(3, { asked := false, slot := 1, bounds := [(0, 65536), (1, 65536), (2, 65536), (3, 65536)] })] }) stRekeying
/-- Port 17 has an SPDM session. -/
def stSpdm : State := modWorld (fun w => { w with spdm := [17] }) stPorts
/-- The keys of key set 0 of the port's CXL.cachemem stream are programmed. -/
def stKeyed : State := modProt (fun x => { x with ide := [(16 * 17 + 8, { state := .keyed, keys := [(0, 3#256)] })] }) stSpdm
/-- Port 16 trains as an upstream port, 20 as a downstream port bound to slot 2. -/
def stPortsMore : State := modSw (fun w => { w with vcs := [(32 * 17 + 2, 20)] })
  (modPortAt 20 (fun x => { x with link := .down }) (modPortAt 16 (fun x => { x with link := .training }) (withParams [(0, P.PORT_ROLE + 256 * 16, 1)] stPorts)))
/-- The host has asked for a managed unbind of slot 1. -/
def stArmed : State := modSw (fun w => { w with armed := [(32 * 17 + 1, (3, 19))] }) stPorts
/-- A snoop open to port 17. -/
def stTxOne : Tx := ⟨3, 5, 0, [17], false, .device⟩
/-- The state with it. -/
def stSnoop : State := modCoh (fun c => { c with txs := [stTxOne] }) stPorts
/-- Port 17's host is absent. -/
def stAbsent : State := modCoh (fun c => { c with absent := [17] }) stPorts
/-- Port 17's absence has lasted. -/
def stDying : State := modCoh (fun c => { c with dying := [17] }) stPorts

/-- Lodging 3 of one granule offered to port 17 at its DPA 0, decoders set for it and for the port behind slot 1. -/
def stMem : State :=
  modPortAt 17 (fun x => { x with
    hdmA := [(0, ⟨0, 2 ^ 40, 1, 256, [0], 0⟩), (1, ⟨2 ^ 40, 2 ^ 40, 1, 256, [1], 0⟩), (8, ⟨0, 2 ^ 40, 1, 256, [], 0⟩)]
    hdmB := [(0, ⟨0, 2 ^ 40, 1, 256, [0], 0⟩), (1, ⟨2 ^ 40, 2 ^ 40, 1, 256, [1], 0⟩), (8, ⟨0, 2 ^ 40, 1, 256, [], 0⟩)] })
  (modLod (fun l => { l with extA := [(17, [⟨true, 0, 3, 0, 0, 1, 0⟩])], extB := [(17, [⟨true, 0, 3, 0, 0, 1, 0⟩])]
                             slots := [(0, ⟨3, 0, false, [0]⟩)] })
  (modProt (fun x => { x with
    base := [(0, { owner := 3 }), (1, { owner := 3 }), (2, { owner := 3 }), (3, { owner := 3 })]
    secrets := [(3, 4#256), (4099, 4#256), (8195, 4#256), (12291, 4#256)]
    desc := [(pageKey 3 1, { state := .plain, owner := 3, loc := 5, hasFrame := true })] })
  (modCh (fun _ => [0, 1, 8, 9, 16, 17, 24, 25].map fun c => (c, { state := .active }))
  (modSw (fun w => { w with vcs := [(32 * 17, 0x40), (32 * 17 + 1, 19)] })
  (modLodge 3 (fun _ => { state := .active, slots := [(0, 0)] })
  (withParams ((0, P.HOST_PORTS + 256 * 3, 2 ^ 17) :: (0, 0x100310, 1) :: chansDeclared) (modSl (fun l => { l with railStep := 6 }) stPorts)))))))
/-- The downstream port may reach memory itself. -/
def stMemP2p : State := withParams [(0, P.DSP_P2P + 256 * 19, 1)] stMem
/-- A snoop of line 1 of page 1 open to port 17. -/
def stTxMem : Tx := ⟨homeSlice 3 1, lineKey 3 1 1, 0, [17], false, .device⟩
/-- The state with it. -/
def stMemSnoop : State := modCoh (fun c => { c with txs := [stTxMem] }) stMem
/-- A resident line. -/
def stResLine : LcLine := { lodging := 3, page := 1, line := 1, group := 0, state := .atomic, rrpv := 0, data := 0#512, poison := false }
/-- The state with it. -/
def stResident : State := modLc (fun _ => [(lcSet 3 1 1 + 15, stResLine)]) stMem
/-- A write of that line by port 17. -/
def stReqMem : MemReq := { agent := 0, port := 17, tag := 1, n := 3, p := 1, i := 1, op := .write 0 5#512 (BitVec.allOnes 64), since := 0, label := 0, dpa := 0x1040 }
/-- The write waits for space. -/
def stStalled : State := modCoh (fun c => { c with stalled := [(homeSlice 3 1, [{ stReqMem with snooped := true }])] }) stMem
/-- The write waits in its home queue. -/
def stHomeQ : State := modCoh (fun c => { c with home := [(homeSlice 3 1, [{ req := stReqMem, place := 0 }])] }) stMem
/-- A line and its header, 80 bytes, for class 6 of port 17. -/
def stXmit : Xmit := { cls := 6, bytes := 80, targets := [17], ingress := none, msg := .data 1 0#512 false, lat := none }
/-- The transfer is held. -/
def stWaiting : State := modSw (fun w => { w with waiting := [stXmit] }) stPorts
/-- The transfer is stored. -/
def stStored : State := modSw (fun w => { w with stored := [(1, [stXmit])] }) stPorts
/-- Its queue is shaped. -/
def stShaped : State := withParams [(0, P.PORT_SHAPE_RATE + 6 + 256 * 17, 1000)] stStored
/-- A sample packed from die 1 to memory die 3. -/
def stSamples : State := modReg (fun r => { r with samples := [(7, [⟨7, 100, 0⟩])] }) (modLinkAt 7 (fun x => { x with state := .active }) stReady)
/-- The same without a credit. -/
def stNoCredit : State := modReg (fun r => { r with samples := [(7, [⟨7, 100, 0⟩])] }) (modLinkAt 7 (fun x => { x with state := .active, ab := { x.ab with taken := [(10, 16)] } }) stReady)
/-- A sample on its way. -/
def stFlight : State := modReg (fun r => { r with flights := [(3, [(7, [⟨7, 100, 0⟩])])] }) stReady
/-- A priority on its way. -/
def stMirror : State := modReg (fun r => { r with mirrorMsgs := [(7, 5, 15)] }) stReady
/-- Label 7 misses its target. -/
def stMiss : State := withParams [(7, P.LBL_TARGET, 100), (0, P.MISS_MIN_SAMPLES, 1)] (modReg (fun r => { r with labels := [(7, { p99 := 200, win := 50 })] }) stReady)

/-- Channel 16 trains behind a branch that is up. -/
def stTraining : State := modHs (fun h => { h with branches := [(8, { state := .on, gate := true })] })
  (modChan 16 (fun x => { x with state := .training }) (modDict (fun d => { d with cmds := [(P.DRAM_APPLY, ⟨1, 4, 0, 1⟩)] }) (withParams chansDeclared stRun)))
/-- Rank 0 of channel 16 is owed as many refreshes as may be put off. -/
def stOwed : State := modChan 16 (fun x => { x with owed := [(0, 9)] }) stDram
/-- A row of channel 16 waits for mitigation. -/
def stMitigate : State := modChan 16 (fun x => { x with mitigate := [(5, 7)] }) stDram
/-- A DRAM register of channel 16 that opens its first 16 MiB to every class. -/
def openRegion : BitVec 128 := mkRegion true 0x3FF 0 0xFFFFFFFF
/-- The channels of die 2 readable. -/
def stMemRead : State := modWorld (fun w => { w with regions := [(64 * 16, ⟨openRegion, openRegion⟩), (64 * 17, ⟨openRegion, openRegion⟩)] })
  (modHs (fun h => { h with branches := [(8, { state := .on, gate := true })] }) stDram)
/-- An entry of the merge buffer. -/
def stMerge : State := modChan 16 (fun x => { x with merge := [⟨3, 1, 1, 5#512, 1#64, 0⟩] }) stMem
/-- A queued write. -/
def stWriteQ : State := modChan 16 (fun x => { x with writes := [⟨5, 1, .raw 1#512 false false, 0, false⟩] }) stMemRead
/-- A read waits in the read queue of channel 16. -/
def stReadQ : State := modChan 16 (fun x => { x with reads := [⟨5, 1, 0, 0⟩] }) stMemRead
/-- Line 1 of page 1 is marked, and its frame waits for the owner search. -/
def stMarked : State := modSpace (fun x => { x with marks := [((homeDie 3 1) * 2 ^ 36 + 5 * 64 + 1, 1)], uses := [(useKey (homeDie 3 1) 5, ⟨1, .page 3 1⟩)], search := [(homeDie 3 1, [5])] }) stMem
/-- The top node of the second half of a sealed granule's tree is dirty. -/
def stSealedTree : State := modProt (fun x => { x with dirty := [nodeId 2 0 1 5 0], kTree := [(2, 9#256)] }) (modLod (fun l => { l with slots := [(0, ⟨3, 0, true, [0]⟩)] }) stRun)
/-- The retirement of frame 5 of die 0, which holds nothing. -/
def stRetiring : State := modSpace (fun x => { x with retireJob := some (0, [(5, 1)], frameEntry 0 5), retired := [(0, [(frameEntry 0 5, 5)])], uses := [(useKey 0 5, ⟨1, .retired⟩)] }) stDram
/-- Frame 5 of wing 0 waits for blanking. -/
def stBlankQ : State := modSpace (fun x => { x with blankQ := [(0, [.frames 5 1])], uses := [(useKey 0 5, ⟨1, .blanking⟩)] }) stDram

/-- Context 31 of the page's home die at work. -/
def stMove (m : Move) : State := modTier (fun t => { t with moves := [(32 * homeDie 3 1 + 31, m)] }) stMem
/-- A demotion's image of 9 bytes looks for a run. -/
def stPlacing : State := modSpace (fun x => { x with passed := [(4, 2 ^ 20)], uses := [(useKey 1 5, ⟨1, .page 3 1⟩)] })
  (stMove { req := ⟨.demote, 3, 1, 0⟩, state := .place, pre := { state := .plain, owner := 3, loc := 5, hasFrame := true }, image := List.replicate 9 1#8, engine := some 224 })
/-- Wing 9 shut while its die is short of open space. -/
def stScarce : State := withParams [(0, P.TIER_REOPEN_MARK, 100)] (modSpace (fun x => { x with uses := [(useKey 2 0, ⟨4, .region 0 0⟩), (useKey 2 4, ⟨2 ^ 20, .page 3 1⟩)] }) stWingShut)
/-- Die 2 has much free space in two wings. -/
def stSparse : State := withParams [(0, P.TIER_ENABLE, 31)] stWings
/-- Dictionary 8 in training over a readable page. -/
def stTrain : State := withParams [(0, P.COMP_TRAIN_SAMPLE, 1), (0, P.COMP_TRAIN_PAGES, 1)] (modDictAt 8 (fun r => { r with state := .training, owner := 3 })
  (modLc (fun _ => []) (modProt (fun x => { x with desc := [(pageKey 3 1, { state := .plain, owner := 3, loc := 5, hasFrame := true })] }) stMem)))
/-- Dictionary 7's retirement waits for the last die. -/
def stDictRetiring (refs : SMap Nat) : State := modDictAt 7 (fun r => { r with state := .retiring, owner := 3, left := [2], refs := refs }) stLodgeActive

/-- Queue 5 of port 17 enabled, for lodging 3. -/
def stQueueOn : State := modQueue 5 (fun x => { x with state := .enabled, tokens := 10 ^ 12 }) (withParams [(5, P.Q_PORT, 17), (5, P.Q_SIZE, 8), (5, P.Q_LODGING, 3), (5, P.Q_BURST, 10 ^ 6), (5, P.Q_RATE, 100)] stMem)
/-- Two descriptors wait. -/
def stQueueWork : State := modQueue 5 (fun x => { x with sqTail := 2 }) stQueueOn
/-- A saved context. -/
def stSaved : SavedCtx := ⟨{ op := 1 }, 0, crc32c (List.replicate 131072 0#8)⟩
/-- One job is under way; context 0 is saved, context 1 at work. -/
def stJob (j : Job) : State := modJob (fun x => { x with jobs := [j], ctxs := [(0, some stSaved), (1, none)] }) stQueueOn
/-- An export of page 2. -/
def stExportJob : Job := { queue := 5, index := 2, phase := true, desc := BitVec.ofNat 512 (3 + 1 * 2 ^ 320 + 1 * 2 ^ 192), stream := some { op := 3, lodging := 3, next := 2, left := 1 } }
/-- The export of dictionary 7 is under way; its copies stand on all dies, their bytes still to be given their CRC-32C. -/
def stDictBase : State := modJob (fun x => { x with jobs := [{ queue := 5, index := 2, phase := true, desc := BitVec.ofNat 512 (4 + 1 * 2 ^ 320 + 7 * 2 ^ 32) }] })
  (modSpace (fun x => { x with uses := (below 4).map fun d => (useKey d 1024, ⟨8192, .region 1 0⟩) })
  (withParams [(0, P.LODGE_DICT + 256 * 3, 7)] stQueueOn))
/-- What die 1's copy of dictionary 7 deciphers to. -/
def dictBytes : List Byte := (dictCrypt stDictBase 1 false 3 7 (dramBytes stDictBase (dramAddress 1 1080 0) 32768)).getD []
/-- Dictionary 7 installed, in the store of die 1. -/
def stDictJob : State := modComp (fun _ => {
  rows := [(7, { state := .installed, owner := 3, recs := (below 4).map fun d => (d, { crc := (crc32c dictBytes).toNat }) })]
  store := [(1, [⟨7, dictBytes⟩])] }) stDictBase

/-- Dictionary 7 installed, its copies good, no die's store holding it. -/
def stDictCopies : State := modComp (fun c => { c with store := [] }) stDictJob

/-- Lodging 3 `PREPARING`: its slot is taken, its keys are installed, its segments have their frames. -/
def stPrepared : State := modLod (fun l => { l with slots := [(0, ⟨3, 0, false, []⟩)] })
  (modProt (fun x => { x with secrets := [(3, 4#256), (4099, 4#256), (8195, 4#256), (12291, 4#256)] })
  (modSpace (fun x => { x with uses := (below 4).map fun d => (useKey d 128, ⟨128, .region 4 0⟩) })
  (modLodge 3 (fun _ => { state := .preparing }) stReady)))
/-- An `ISOLATED` rewrite of lodging 3 at its first line on die 2. -/
def stIsoRewrite : State := modLodge 3 (fun x => { x with isoTo := some true, isoLeft := [(2, 8192)] }) stMem
/-- Lodging 3 under destruction at step 1, an offer open. -/
def stOffersOut : State := modLod (fun l => { l with extA := [(17, [⟨false, 0, 3, 0, 0, 1, 0⟩])] }) (modLodge 3 (fun _ => { state := .releasing, step := 1 }) stPorts)
/-- Lodging 3 under destruction at step 2, without extents. -/
def stRecordsOut : State := modLodge 3 (fun _ => { state := .releasing, step := 2 }) stPorts
/-- Lodging 3 offered to port 17. -/
def stOffered : State := modLod (fun l => { l with extA := [(17, [⟨false, 0, 3, 0, 0, 1, 0⟩])] }) (modLodge 3 (fun _ => { state := .ready }) stFm)
/-- Port 17 holds an accepted extent of lodging 3. -/
def stAccepted : State := modLod (fun l => { l with extA := [(17, [⟨true, 0, 3, 0, 0, 4, 0⟩])] }) (modLodge 3 (fun _ => { state := .active }) stFm)
/-- An extent of port 17 drains. -/
def stDraining : State := modLod (fun l => { l with drains := [(17, ⟨true, 0, 3, 0, 0, 1, 0⟩)] }) stLodgeActive
/-- Link 23 resetting, at a step. -/
def stLinkReset (k : Nat) : State := modLinkAt 23 (fun x => { x with state := .reset, step := k, lastReset := 7 }) stReady
/-- Slice 5 out of service while its takeover is scanned. -/
def stScan : State := modUnit (fun x => { x with scanning := [5] }) (modUnitRec 285 (fun r => { r with state := .outOfService }) stReady)
/-- Die 2 in test, its descriptor line 1 to be rebuilt. -/
def stRebuild : State := modUnit (fun x => { x with rebuild := [(2, [1])] }) (modUnitRec 374 (fun r => { r with state := .testing, step := 3 }) stMem)
/-- The mirror of die 2 suspended. -/
def stMirrorOff : State := modProt (fun x => { x with mirrorOff := [2], mac := [(2 * 2 ^ 40 + 5, 7)] }) stReady
/-- Unit 277 in a state of a rejoin. -/
def stUnit277 (st : UnitState) (k : Nat) : State := modUnitRec 277 (fun r => { r with state := st, step := k }) stReady

/-! ### The size checks of operands refuse -/

theorem test_wf_refuses_long_dict_read : (Instr.dictRead 0 (List.replicate 13 0#8)).wf = false := by decide
theorem test_wf_refuses_long_dict_write : (Instr.dictWrite 0 (List.replicate 4109 0#8)).wf = false := by
  rw [Instr.wf, List.length_replicate]
  rfl
theorem test_wf_refuses_long_world_call : (Instr.worldCall 0 (List.replicate 257 0#8)).wf = false := by
  rw [Instr.wf, List.length_replicate]
  rfl
theorem test_wf_refuses_long_world_call_reply : (Instr.worldCallReply (List.replicate 257 0#8)).wf = false := by
  rw [Instr.wf, List.length_replicate]
  rfl
theorem test_wf_takes_a_world_call : (Instr.worldCall 0 (List.replicate 256 0#8)).wf = true := by
  rw [Instr.wf, List.length_replicate]
  rfl

/-! ### The worked examples and check values of the spec -/

/-- The nine ASCII bytes "123456789". -/
def nineDigits : List Byte := (List.range 9).map fun i => BitVec.ofNat 8 (0x31 + i)

/-- 17 R414. -/
theorem test_courier_crc : crc16 (nineDigits.flatMap fun b => msbBits 8 b.toNat) = 0x29B1#16 := by decide +kernel
/-- 12 R323. -/
theorem test_link_crc : crcLink nineDigits = 0xD0DB#16 := by decide +kernel
/-- 05 R139. -/
theorem test_crc32c : crc32c nineDigits = 0xE3069283#32 := by decide +kernel
/-- 01, the example under R20; 07 and 08, the examples of sealed lodging 9 and of lodging 40. -/
theorem test_homes : (homeDie 5 0x1234, homeSlice 5 0x1234) = (0, 11) ∧ homeSlice 9 0x12345 = 2 ∧ homeSlice 40 0x80 = 2 := by
  decide +kernel
/-- 11, the example under R305: line 9 of frame 0x1000_2A40. -/
theorem test_line_place : placeLine 0x10002A40 9 = (3, 0x54804) ∧
    dramAddr ⟨7, 1, 1, 18⟩ 0x54804 = ⟨0, 2, 0, 1, 0, 1, 10⟩ := by decide +kernel
/-- 10, the example of label 0x0305. -/
theorem test_priorities : (prioOf 1604 2000 4, prioOf 1000 2000 4, prioOf 2000 2000 4) = (10, 4, 15) := by decide
/-- 05, the example of an exported run: its header. -/
theorem test_header_bytes : headerBytes ⟨1, 1, 0, 9, false⟩ = [0x11#8, 0x01#8, 0x90#8, 0#8, 0#8, 0#8, 0#8, 0x25#8] := by decide +kernel
/-- 12, the example of link 6: what update leaves 50 `WDATA` data credits of 128. -/
theorem test_credit_counts : w16 (0x0012 + 65536 - 0xFFA0) = 114 ∧ w16 (0x0012 + 65536 - 0xFFC4) = 78 := by decide
/-- 02 R49: a Steward's write of an RO member of group 0x3000 answers `READ_ONLY`. -/
theorem test_read_only_first : (accessAns (reqWrite (.steward 0) 0x300000 4 0 (List.replicate 8 0#8)) stReady).resp.status = 9 := by
  decide +kernel
/-- No row of the opcode table has bits: no word spells a command, and no word changes the queue. -/
theorem test_no_word_spells_a_command : decodeTableWord 32 0 = none ∧ (State.reset.withFetchWord 32 0).pending = [] := by decide +kernel

/-! ### What the statements suppose -/

/-- Die 1's store holds dictionary 7. -/
theorem dictSlot_job : storeSlot stDictJob 1 7 = some ⟨7, dictBytes⟩ := by
  unfold storeSlot stDictJob
  rfl
theorem dictRow_job : dictAt stDictJob 7 =
    { state := .installed, owner := 3, recs := (below 4).map fun d => (d, { crc := (crc32c dictBytes).toNat }) } := by
  unfold stDictJob dictAt
  rfl
theorem dictLoad_job : storeLoad 1 7 0 stDictJob = storeTouch 1 ⟨7, dictBytes⟩ stDictJob := by
  unfold storeLoad
  rw [dictRow_job, dictSlot_job]
  rfl
theorem dictFor_job : dictFor (storeLoad 1 7 0 stDictJob) 1 3 7 = some ⟨dictBytes, []⟩ := by
  rw [dictLoad_job]
  have hs : storeSlot (storeTouch 1 ⟨7, dictBytes⟩ stDictJob) 1 7 = some ⟨7, dictBytes⟩ := by
    unfold storeTouch stDictJob storeSlot
    rfl
  have hr : dictAt (storeTouch 1 ⟨7, dictBytes⟩ stDictJob) 7 = dictAt stDictJob 7 := rfl
  unfold dictFor dictUsable dictRecOn
  rw [hs, hr, dictRow_job]
  have hl : ∀ c : Nat, smGet ({} : DictRec) ((below 4).map fun d => (d, { crc := c })) 1 = { crc := c } := fun _ => rfl
  simp [hl]
theorem stSaved_crc : crc32c (List.replicate 131072 0#8) = stSaved.crc := by unfold stSaved; rfl
theorem stJob_ctx (j : Job) (n : Nat) (h : n = 0) : smFind (stJob j).job.ctxs n = some (some stSaved) := by subst h; rfl
theorem dictJob_dict (x n : Nat) (hx : x = 7) (hn : n = 3) : dictFor (storeLoad 1 x 0 stDictJob) 1 n x = some ⟨dictBytes, []⟩ := by
  subst hx hn
  exact dictFor_job
theorem place_run (d k : Nat) (hd : d = homeDie 3 1) (hk : k = 1) : ∃ q : Nat × State, allocRun d 3 1 k none stPlacing = some (q.1, q.2) := by
  subst hd hk
  exact Option.isSome_iff_exists.1 (show (allocRun (homeDie 3 1) 3 1 1 none stPlacing).isSome = true by decide +kernel)
theorem dictCrypt_modComp (f : Comp → Comp) (s : State) (d : Nat) (e : Bool) (n x : Nat) (b : List Byte) :
    dictCrypt (modComp f s) d e n x b = dictCrypt s d e n x b := rfl
theorem dramBytes_modComp (f : Comp → Comp) (s : State) (a k : Nat) : dramBytes (modComp f s) a k = dramBytes s a k := rfl
theorem dictCrypt_isSome (s : State) (d : Nat) (e : Bool) (n x : Nat) (b : List Byte)
    (h : (secretFor s d n (decide (keyEpoch s n % 2 = 1))).isSome = true) : (dictCrypt s d e n x b).isSome = true := by
  unfold dictCrypt
  obtain ⟨q, hq⟩ := Option.isSome_iff_exists.1 h
  rw [hq]
  rfl
theorem some_getD (o : Option (List Byte)) (h : o.isSome = true) : o = some (o.getD []) := by
  obtain ⟨q, hq⟩ := Option.isSome_iff_exists.1 h
  rw [hq]
  rfl
theorem second_found (f : Nat → Option (List Byte)) (b : List Byte) (h : f 1 = some b) :
    ([0, 1, 3].findSome? fun e => if Nat.testBit 5 e then none else (f e).map fun b => (e, b)) = some (1, b) := by
  have h0 : Nat.testBit 5 0 = true := rfl
  have h1 : Nat.testBit 5 1 = false := rfl
  simp [List.findSome?, h0, h1, h]
theorem dictAt_copies : dictAt stDictCopies 7 = dictAt stDictJob 7 := rfl
theorem dictCopy_job : dictCopy stDictCopies 1 7 = some (dramBytes stDictBase (dramAddress 1 1080 0) 32768) := by
  have hf : dictFrame stDictCopies 1 7 = some 1080 := by decide +kernel
  have hb : ((below 512).any fun i => markAt stDictCopies 1 (1080 + i / 64) (i % 64) % 2 == 1 ||
      chanDead stDictCopies (chanOf 1 (1080 + i / 64) (i % 64))) = false := by decide +kernel
  unfold dictCopy
  rw [hf]
  simp only [hb]
  rw [stDictCopies, dramBytes_modComp, stDictJob, dramBytes_modComp]
  rfl
theorem dictBytes_some : dictCrypt stDictBase 1 false 3 7 (dramBytes stDictBase (dramAddress 1 1080 0) 32768) = some dictBytes :=
  some_getD _ (dictCrypt_isSome _ _ _ _ _ _ (by decide +kernel))
theorem dictCrypt_job (b : List Byte) : dictCrypt stDictCopies 1 false 3 7 b = dictCrypt stDictBase 1 false 3 7 b := by
  rw [stDictCopies, dictCrypt_modComp, stDictJob, dictCrypt_modComp]
theorem dictContent_job : dictContent stDictCopies 1 7 = some dictBytes := by
  have hl : ∀ c : Nat, smGet ({} : DictRec) ((below 4).map fun d => (d, { crc := c })) 1 = { crc := c } := fun _ => rfl
  unfold dictContent
  rw [dictCopy_job]
  simp only [dictAt_copies, dictRow_job, dictCrypt_job, dictBytes_some, dictRecOn, hl, if_true]
theorem dictCopy_copies (d x : Nat) (hd : d = 1) (hx : x = 7) :
    dictCopy stDictCopies d x = some (dramBytes stDictBase (dramAddress 1 1080 0) 32768) := by
  subst hd hx
  exact dictCopy_job
theorem dictContent_copies (d x : Nat) (hd : d = 1) (hx : x = 7) : dictContent stDictCopies d x = some dictBytes := by
  subst hd hx
  exact dictContent_job
theorem dictOther_copies (d b x : Nat) (hd : d = 2) (hb : b = 5) (hx : x = 7) :
    ((dieOrder d).findSome? fun e => if b.testBit e then none else (dictContent stDictCopies e x).map fun b => (e, b)) =
      some (1, dictBytes) := by
  subst hd hb hx
  exact second_found (fun e => dictContent stDictCopies e 7) dictBytes dictContent_job

/-- What `DeviceCommandsRun` supposes is met. -/
theorem witness_DeviceCommandsRun :
    (∃ (o : Origin) (s : State), (commandRuns (cmdReq o (P.DEV_RESET) []) 0 s = true)) ∧
    (∃ (o : Origin) (s : State), (commandRuns (cmdReq o (P.PRESENCE_END) []) 0 s = true)) ∧
    (∃ (o : Origin) (s : State), (commandRuns (cmdReq o (P.HS_CMD) [1#8]) 0 s = true)) ∧
    (∃ (o : Origin) (s : State), (commandRuns (cmdReq o (P.GB_CMD) [1#8]) 0 s = true)) :=
  ⟨⟨coP, stPresence, by decide +kernel⟩,
   ⟨coP, stPresence, by decide +kernel⟩,
   ⟨co, stTripped, by decide +kernel⟩,
   ⟨co, stReady, by decide +kernel⟩⟩

/-- What `LifeCycleCommandsRun` supposes is met. -/
theorem witness_LifeCycleCommandsRun :
    (∃ (o : Origin) (x : List Byte) (s : State), (commandRuns (cmdReq o P.LC_CMD (1#8 :: x)) 0 s = true)) ∧
    (∃ (o : Origin) (s : State), (commandRuns (cmdReq o P.LC_CMD ([2#8])) 0 s = true)) ∧
    (∃ (o : Origin) (s : State), (commandRuns (cmdReq o P.LC_CMD ([3#8])) 0 s = true)) ∧
    (∃ (o : Origin) (s : State), (commandRuns (cmdReq o P.LC_CMD ([4#8])) 0 s = true)) ∧
    (∃ (o : Origin) (s : State), (commandRuns (cmdReq o P.LC_CMD ([5#8])) 0 s = true)) :=
  ⟨⟨coP, List.replicate 32 7#8, stBlank, by decide +kernel⟩,
   ⟨coP, stProvisioned, by decide +kernel⟩,
   ⟨coP, stPresence, by decide +kernel⟩,
   ⟨coP, stService, by decide +kernel⟩,
   ⟨coP, stService, by decide +kernel⟩⟩

/-- What `LodgingCommandsRun` supposes is met. -/
theorem witness_LodgingCommandsRun :
    (∃ (o : Origin) (n : LodgeId) (s : State), (commandRuns (cmdReq o (P.LODGE_CMD + 256 * n.val) (1#8 :: leBytes 4 0)) 0 s = true)) ∧
    (∃ (o : Origin) (n : LodgeId) (s : State), (commandRuns (cmdReq o (P.LODGE_CMD + 256 * n.val) (2#8 :: leBytes 4 0)) 0 s = true)) ∧
    (∃ (o : Origin) (n : LodgeId) (s : State), (commandRuns (cmdReq o (P.LODGE_CMD + 256 * n.val) (2#8 :: leBytes 4 0)) 0 s = true)) ∧
    (∃ (o : Origin) (n : LodgeId) (k : BitVec 32) (s : State), (commandRuns (cmdReq o (P.LODGE_CMD + 256 * n.val) (3#8 :: leBytes 4 k.toNat)) 0 s = true)) ∧
    (∃ (o : Origin) (n : LodgeId) (s : State), (commandRuns (cmdReq o (P.LODGE_CMD + 256 * n.val) (4#8 :: leBytes 4 0)) 0 s = true)) ∧
    (∃ (o : Origin) (n : LodgeId) (s : State), (commandRuns (cmdReq o (P.REKEY_REQUEST + 256 * n.val) []) 0 s = true)) ∧
    (∃ (o : Origin) (n : LodgeId) (s : State), (commandRuns (cmdReq o (P.COH_RESET + 256 * n.val) []) 0 s = true)) :=
  ⟨⟨co, 3, stLodge, by decide +kernel⟩,
   ⟨co, 3, stLodge, by decide +kernel⟩,
   ⟨co, 3, stDestroying, by decide +kernel⟩,
   ⟨co, 3, 1#32, stLodge, by decide +kernel⟩,
   ⟨co, 3, stLodgeActive, by decide +kernel⟩,
   ⟨co, 3, stLodgeActive, by decide +kernel⟩,
   ⟨co, 3, stDown, by decide +kernel⟩⟩

/-- What `WingCommandsRun` supposes is met. -/
theorem witness_WingCommandsRun :
    (∃ (o : Origin) (w : WingId) (s : State), (commandRuns (cmdReq o (P.WING_CMD) (1#8 :: leBytes 1 w.val)) 0 s = true)) ∧
    (∃ (o : Origin) (w : WingId) (s : State), (commandRuns (cmdReq o P.WING_CMD (2#8 :: leBytes 1 w.val)) 0 s = true) ∧ ((wingAt s w.val).state = .draining ∨ (wingAt s w.val).state = .empty) ∧ (wingFailed s w.val = none)) ∧
    (∃ (o : Origin) (w : WingId) (c : Nat) (s : State), (commandRuns (cmdReq o P.WING_CMD (2#8 :: leBytes 1 w.val)) 0 s = true) ∧ ((wingAt s w.val).state = .draining ∨ (wingAt s w.val).state = .empty) ∧ (wingFailed s w.val = some c)) ∧
    (∃ (o : Origin) (w : WingId) (s : State), (commandRuns (cmdReq o P.WING_CMD (2#8 :: leBytes 1 w.val)) 0 s = true) ∧ ((wingAt s w.val).state ≠ .draining) ∧ ((wingAt s w.val).state ≠ .empty)) :=
  ⟨⟨co, 9, stWings, by decide +kernel⟩,
   ⟨co, 9, stWingDraining, by decide +kernel⟩,
   ⟨co, 9, 19, modChan 19 (fun x => { x with state := .failed }) stWingDraining, by decide +kernel⟩,
   ⟨co, 9, stWingShut, by decide +kernel⟩⟩

/-- What `DictionaryAndQueueCommandsRun` supposes is met. -/
theorem witness_DictionaryAndQueueCommandsRun :
    (∃ (o : Origin) (x : DictId) (n : BitVec 16) (s : State), (commandRuns (cmdReq o P.DICT_CMD (1#8 :: leBytes 2 n.toNat)) x.val (rowChosen o P.DICT_CMD x.val s) = true)) ∧
    (∃ (o : Origin) (x : DictId) (s : State), (commandRuns (cmdReq o P.DICT_CMD [2#8, 0#8, 0#8]) x.val (rowChosen o P.DICT_CMD x.val s) = true)) ∧
    (∃ (o : Origin) (x : DictId) (s : State), (commandRuns (cmdReq o P.DICT_CMD [3#8, 0#8, 0#8]) x.val (rowChosen o P.DICT_CMD x.val s) = true)) ∧
    (∃ (o : Origin) (q : QueueId) (s : State), (commandRuns (cmdReq o P.Q_CMD [1#8]) q.val (rowChosen o P.Q_CMD q.val s) = true)) ∧
    (∃ (o : Origin) (q : QueueId) (s : State), (commandRuns (cmdReq o P.Q_CMD [2#8]) q.val (rowChosen o P.Q_CMD q.val s) = true)) ∧
    (∃ (o : Origin) (q : QueueId) (s : State), (commandRuns (cmdReq o P.Q_CMD [3#8]) q.val (rowChosen o P.Q_CMD q.val s) = true)) :=
  ⟨⟨co, 7, 3#16, stLodgeActive, by decide +kernel⟩,
   ⟨co, 7, stDicts, by decide +kernel⟩,
   ⟨co, 8, stDicts, by decide +kernel⟩,
   ⟨co, 5, stQueues, by decide +kernel⟩,
   ⟨co, 6, stQueues, by decide +kernel⟩,
   ⟨co, 7, stQueues, by decide +kernel⟩⟩

/-- What `KeyCommandsRun` supposes is met. -/
theorem witness_KeyCommandsRun :
    (∃ (o : Origin) (n : LodgeId) (s : State), (commandRuns (cmdReq o (P.KEY_CMD) (1#8 :: leBytes 2 n.val)) 0 s = true)) ∧
    (∃ (o : Origin) (n : LodgeId) (s : State), (commandRuns (cmdReq o (P.KEY_CMD) (2#8 :: leBytes 2 n.val)) 0 s = true)) ∧
    (∃ (o : Origin) (n : LodgeId) (s : State), (commandRuns (cmdReq o (P.KEY_CMD) (3#8 :: leBytes 2 n.val)) 0 s = true)) :=
  ⟨⟨.keeper, 3, stPreparing, by decide +kernel⟩,
   ⟨.keeper, 3, stWiping, by decide +kernel⟩,
   ⟨.keeper, 3, stRekey, by decide +kernel⟩⟩

/-- What `PortCommandsRun` supposes is met. -/
theorem witness_PortCommandsRun :
    (∃ (o : Origin) (p : PortId) (s : State), (commandRuns (cmdReq o (P.PORT_CMD + 256 * p.val) [1#8]) 0 s = true)) ∧
    (∃ (o : Origin) (p : PortId) (s : State), (commandRuns (cmdReq o (P.PORT_CMD + 256 * p.val) [2#8]) 0 s = true)) ∧
    (∃ (o : Origin) (p : PortId) (s : State), (commandRuns (cmdReq o (P.PORT_CMD + 256 * p.val) [3#8]) 0 s = true)) ∧
    (∃ (o : Origin) (p : PortId) (s : State), (commandRuns (cmdReq o (P.PORT_CMD + 256 * p.val) [4#8]) 0 s = true)) ∧
    (∃ (o : Origin) (p : PortId) (s : State), (commandRuns (cmdReq o (P.PORT_CMD + 256 * p.val) [5#8]) 0 s = true)) ∧
    (∃ (o : Origin) (p : PortId) (s : State), (commandRuns (cmdReq o (P.PORT_CMD + 256 * p.val) [6#8]) 0 s = true)) :=
  ⟨⟨co, 17, stPorts, by decide +kernel⟩,
   ⟨co, 18, stPorts, by decide +kernel⟩,
   ⟨co, 17, stPorts, by decide +kernel⟩,
   ⟨co, 19, stPorts, by decide +kernel⟩,
   ⟨co, 19, stPorts, by decide +kernel⟩,
   ⟨co, 19, stPorts, by decide +kernel⟩⟩

/-- What `BindCommandsRun` supposes is met. -/
theorem witness_BindCommandsRun :
    (∃ (o : Origin) (v : Byte) (b : Byte) (tgt : Byte) (s : State), (commandRuns (cmdReq o (P.SW_BIND_CMD) [1#8, v, b, tgt]) 0 s = true)) ∧
    (∃ (o : Origin) (v : Byte) (b : Byte) (s : State), (commandRuns (cmdReq o (P.SW_BIND_CMD) [2#8, v, b, 0#8]) 0 s = true)) ∧
    (∃ (o : Origin) (v : Byte) (b : Byte) (s : State), (commandRuns (cmdReq o (P.SW_BIND_CMD) [3#8, v, b, 0#8]) 0 s = true)) ∧
    (∃ (o : Origin) (v : Byte) (b : Byte) (s : State), (commandRuns (cmdReq o (P.SW_BIND_CMD) [4#8, v, b, 0#8]) 0 s = true)) :=
  ⟨⟨co, 17#8, 2#8, 20#8, stPorts, by decide +kernel⟩,
   ⟨co, 17#8, 1#8, stPorts, by decide +kernel⟩,
   ⟨co, 17#8, 1#8, stPorts, by decide +kernel⟩,
   ⟨co, 17#8, 1#8, stPorts, by decide +kernel⟩⟩

/-- What `DramCommandsRun` supposes is met. -/
theorem witness_DramCommandsRun :
    (∃ (o : Origin) (s : State), (commandRuns (cmdReq o (P.DRAM_APPLY) [0#8]) 0 s = true)) ∧
    (∃ (o : Origin) (s : State), (commandRuns (cmdReq o (P.DRAM_APPLY) [0#8]) 0 s = true)) ∧
    (∃ (o : Origin) (s : State), (commandRuns (cmdReq o (P.DRAM_APPLY) [1#8]) 0 s = true)) ∧
    (∃ (o : Origin) (s : State), (commandRuns (cmdReq o (P.DRAM_APPLY) [1#8]) 0 s = true)) ∧
    (∃ (o : Origin) (arg : BitVec 64) (s : State), (commandRuns (cmdReq o (P.RETIRE_CMD) (1#8 :: leBytes 8 arg.toNat)) 0 s = true)) ∧
    (∃ (o : Origin) (arg : BitVec 64) (s : State), (commandRuns (cmdReq o (P.RETIRE_CMD) (2#8 :: leBytes 8 arg.toNat)) 0 s = true)) ∧
    (∃ (o : Origin) (arg : BitVec 64) (s : State), (commandRuns (cmdReq o (P.RETIRE_CMD) (3#8 :: leBytes 8 arg.toNat)) 0 s = true)) ∧
    (∃ (o : Origin) (arg : BitVec 64) (s : State), (commandRuns (cmdReq o (P.RETIRE_CMD) (4#8 :: leBytes 8 arg.toNat)) 0 s = true)) ∧
    (∃ (o : Origin) (k : LinkId) (s : State), (commandRuns (cmdReq o (P.CL_CMD + 256 * k.val) [1#8]) 0 s = true)) :=
  ⟨⟨co, stDeclared, by decide +kernel⟩,
   ⟨co, stReady, by decide +kernel⟩,
   ⟨co, stDeclared, by decide +kernel⟩,
   ⟨co, stReady, by decide +kernel⟩,
   ⟨co, 5#64, stDram, by decide +kernel⟩,
   ⟨co, 0x100000000#64, stDram, by decide +kernel⟩,
   ⟨co, 0#64, stDram, by decide +kernel⟩,
   ⟨co, 0x100000000#64, stDeclared, by decide +kernel⟩,
   ⟨co, 23, stLinks, by decide +kernel⟩⟩

/-- What `UnitCommandsRun` supposes is met. -/
theorem witness_UnitCommandsRun :
    (∃ (o : Origin) (u : UnitId) (s : State), (commandRuns (cmdReq o P.UNIT_CMD [1#8]) u.val (rowChosen o P.UNIT_CMD u.val s) = true)) ∧
    (∃ (o : Origin) (u : UnitId) (s : State), (commandRuns (cmdReq o P.UNIT_CMD [2#8]) u.val (rowChosen o P.UNIT_CMD u.val s) = true)) :=
  ⟨⟨co, 276, stReady, by decide +kernel⟩,
   ⟨co, 277, stUnitOut, by decide +kernel⟩⟩

/-- What `PowerSettingsWritten` supposes is met. -/
theorem witness_PowerSettingsWritten :
    (∃ (o : Origin) (v : Byte) (s : State), (writeRuns (reqWrite o (P.PS_SHELF_VOTE) 1 0 [v]) 0 s = true)) ∧
    (∃ (o : Origin) (j : DieId) (v : Byte) (s : State), (writeRuns (reqWrite o (P.PS_VCORE + j.val) 1 0 [v]) 0 s = true)) ∧
    (∃ (o : Origin) (m : MemDie) (v : BitVec 32) (s : State), (writeRuns (reqWrite o (P.PS_PACE + m.val) 3 0 (leBytes 4 v.toNat)) 0 s = true)) ∧
    (∃ (o : Origin) (m : MemDie) (v : Byte) (s : State), (writeRuns (reqWrite o (P.PS_DDR_RATE + m.val) 7 0 [v]) 0 s = true)) ∧
    (∃ (o : Origin) (x : LinkDie) (v : Byte) (s : State), (writeRuns (reqWrite o (P.PS_SERDES_CAP + x.val) 7 0 [v]) 0 s = true)) ∧
    (∃ (o : Origin) (ns : BitVec 32) (s : State), (writeRuns (reqWrite o (P.CR_BIT_NS) 3 0 (leBytes 4 ns.toNat)) 0 s = true)) ∧
    (∃ (o : Origin) (v : Byte) (s : State), (writeRuns (reqWrite o (P.FM_PORT) 1 0 [v]) 0 s = true)) :=
  ⟨⟨co, 1#8, stReady, by decide +kernel⟩,
   ⟨co, 7, 4#8, stReady, by decide +kernel⟩,
   ⟨co, 3, 5000#32, stReady, by decide +kernel⟩,
   ⟨co, 3, 2#8, stReady, by decide +kernel⟩,
   ⟨co, 3, 5#8, stReady, by decide +kernel⟩,
   ⟨co, 1000#32, stReady, by decide +kernel⟩,
   ⟨co, 255#8, stReady, by decide +kernel⟩⟩

/-- What `CommitsApply` supposes is met. -/
theorem witness_CommitsApply :
    (∃ (o : Origin) (grp : BitVec 16) (row : Nat) (g : GSpec) (p : PSpec) (s : State), (groupSpec grp.toNat = some g) ∧ (paramSpec (grp.toNat * 256 + 2) = some p) ∧ (isCommit g p (grp.toNat * 256 + 2) = true) ∧ (grp ≠ 3#16) ∧ (commitRuns (cmdReq o (grp.toNat * 256 + 2) [0#8]) row s = true)) ∧
    (∃ (o : Origin) (grp : BitVec 16) (row : Nat) (g : GSpec) (p : PSpec) (s : State), (groupSpec grp.toNat = some g) ∧ (paramSpec (grp.toNat * 256 + 2) = some p) ∧ (isCommit g p (grp.toNat * 256 + 2) = true) ∧ (admits17 (cmdReq o (grp.toNat * 256 + 2) [1#8]) s = true) ∧ (rowOf (cmdReq o (grp.toNat * 256 + 2) [1#8]) s = some row) ∧ (cmdPending (judged (cmdReq o (grp.toNat * 256 + 2) [1#8]) s) row (grp.toNat * 256 + 2) = false) ∧ (groupClosed (judged (cmdReq o (grp.toNat * 256 + 2) [1#8]) s) (grp.toNat * 256 + 2) = false) ∧ ((stagedOf (judged (cmdReq o (grp.toNat * 256 + 2) [1#8]) s) o grp.toNat).isSome = true)) ∧
    (∃ (o : Origin) (n : LodgeId) (g : GSpec) (s : State), (groupSpec (0x1000 + n.val) = some g) ∧ (commitRuns (cmdReq o (lodgeCommit n.val) [0#8]) 0 s = true) ∧ ((lodgeAt s n.val).state = .free)) ∧
    (∃ (o : Origin) (n : LodgeId) (g : GSpec) (s : State), (groupSpec (0x1000 + n.val) = some g) ∧ (commitRuns (cmdReq o (lodgeCommit n.val) [0#8]) 0 s = true) ∧ ((lodgeAt s n.val).state ≠ .free)) ∧
    (∃ (o : Origin) (row : Nat) (g : GSpec) (s : State), (groupSpec row = some g) ∧ (g.ownerFixed = false) ∧ (admits17 (cmdReq o 0x000302 [0#8]) s = true) ∧ (rowOf (cmdReq o 0x000302 [0#8]) s = some row) ∧ (cmdPending (judged (cmdReq o 0x000302 [0#8]) s) row 0x000302 = false) ∧ (heldFor (cmdReq o 0x000302 [0#8]) s ≠ []) ∧ ((srcClass (judged (cmdReq o 0x000302 [0#8]) s) o).owner = ownerOf s row ∨ srcClass (judged (cmdReq o 0x000302 [0#8]) s) o = .courierPresent)) ∧
    (∃ (o : Origin) (row : Nat) (g : GSpec) (s : State), (groupSpec 0x7801 = some g) ∧ (commitRuns (cmdReq o 0x780102 [0#8]) row s = true)) :=
  ⟨⟨co, 0x4011#16, 0, (groupSpec 0x4011).getD ⟨0, 0, 0, true, 0, true, []⟩, ⟨2, 1, .cmd, .cmd, 16, 0, .any, false, .fixed⟩, stStagedPort, by decide +kernel⟩,
   ⟨co, 0x4011#16, 0, (groupSpec 0x4011).getD ⟨0, 0, 0, true, 0, true, []⟩, ⟨2, 1, .cmd, .cmd, 16, 0, .any, false, .fixed⟩, stStagedPort, by decide +kernel⟩,
   ⟨co, 3, (groupSpec 0x1003).getD ⟨0, 0, 0, true, 0, true, []⟩, stCreate, by decide +kernel⟩,
   ⟨co, 3, (groupSpec 0x1003).getD ⟨0, 0, 0, true, 0, true, []⟩, stChange, by decide +kernel⟩,
   ⟨co, 0x4011, (groupSpec 0x4011).getD ⟨0, 0, 0, true, 0, true, []⟩, stOwner, by decide +kernel⟩,
   ⟨.keeper, 8449, (groupSpec 0x7801).getD ⟨0, 0, 0, true, 0, true, []⟩, stRegion, by decide +kernel⟩⟩

/-- What `MembersWritten` supposes is met. -/
theorem witness_MembersWritten :
    (∃ (o : Origin) (param : BitVec 24) (ty : Byte) (off : BitVec 32) (value : List Byte) (row : Nat) (g : GSpec) (p : PSpec) (s : State), (groupSpec (param.toNat / 256) = some g) ∧ (paramSpec param.toNat = some p) ∧ (p.ty ≠ .cmd) ∧ (p.staged = false) ∧ (isSelect g (reqWrite o param.toNat ty.toNat off.toNat value) = false) ∧ (writeRuns (reqWrite o param.toNat ty.toNat off.toNat value) row s = true)) ∧
    (∃ (o : Origin) (param : BitVec 24) (ty : Byte) (off : BitVec 32) (value : List Byte) (row : Nat) (g : GSpec) (p : PSpec) (s : State), (groupSpec (param.toNat / 256) = some g) ∧ (paramSpec param.toNat = some p) ∧ (p.ty ≠ .cmd) ∧ (p.ty ≠ .blob) ∧ (p.staged = true) ∧ (isSelect g (reqWrite o param.toNat ty.toNat off.toNat value) = false) ∧ (admits17 (reqWrite o param.toNat ty.toNat off.toNat value) s = true) ∧ (rowOf (reqWrite o param.toNat ty.toNat off.toNat value) s = some row) ∧ (otherStaged (judged (reqWrite o param.toNat ty.toNat off.toNat value) s) o (param.toNat / 256) = false) ∧ (groupClosed (judged (reqWrite o param.toNat ty.toNat off.toNat value) s) param.toNat = false)) ∧
    (∃ (o : Origin) (grp : BitVec 16) (row : BitVec 32) (g : GSpec) (s : State), (groupSpec grp.toNat = some g) ∧ (0 < g.rows) ∧ (admits17 (reqWrite o (grp.toNat * 256 + 1) 3 0 (leBytes 4 row.toNat)) s = true) ∧ (heldFor (reqWrite o (grp.toNat * 256 + 1) 3 0 (leBytes 4 row.toNat)) s = [])) ∧
    (∃ (e : FlashEntry) (rest : List FlashEntry) (s : State), (s.dict.flashQ = e :: rest) ∧ (e.reply = none)) ∧
    (∃ (e : FlashEntry) (rest : List FlashEntry) (tgt : ReplyTo) (n : Nat) (x : Resp) (s : State), (s.dict.flashQ = e :: rest) ∧ (e.reply = some (tgt, n, x))) :=
  ⟨⟨co, 0x200003#24, 1#8, 0#32, [2#8], 0, (groupSpec 0x2000).getD ⟨0, 0, 0, true, 0, true, []⟩, (paramSpec 0x200003).getD ⟨0, 1, .u64, .ro, 8, 0, .any, false, .fixed⟩, stReady, by decide +kernel⟩,
   ⟨co, 0x401110#24, 7#8, 0#32, [1#8], 0, (groupSpec 0x4011).getD ⟨0, 0, 0, true, 0, true, []⟩, (paramSpec 0x401110).getD ⟨0, 1, .u64, .ro, 8, 0, .any, false, .fixed⟩, stReady, by decide +kernel⟩,
   ⟨co, 0x2200#16, 1023#32, (groupSpec 0x2200).getD ⟨0, 0, 0, true, 0, true, []⟩, stReady, by decide +kernel⟩,
   ⟨⟨pkey 0 P.FM_PORT, 17, none⟩, [], stFlash none, by decide +kernel⟩,
   ⟨⟨pkey 0 P.FM_PORT, 17, some (.courier 4, P.FM_PORT, ⟨0, 1, 9, []⟩)⟩, [], .courier 4, P.FM_PORT, ⟨0, 1, 9, []⟩, stFlash (some (.courier 4, P.FM_PORT, ⟨0, 1, 9, []⟩)), by decide +kernel⟩⟩

/-- What `AccessPaths` supposes is met. -/
theorem witness_AccessPaths :
    (∃ (p : PortId) (payload : List Byte) (g : GSpec) (m : PSpec) (s : State), (mailboxOpen s p.val = true) ∧ (pnum s P.FM_PORT = p.val) ∧ (12 ≤ payload.length) ∧ ((reqOf .fmApi (.mailbox p.val) 4096 payload).op = 0) ∧ (groupSpec ((reqOf .fmApi (.mailbox p.val) 4096 payload).param / 256) = some g) ∧ (paramSpec (reqOf .fmApi (.mailbox p.val) 4096 payload).param = some m) ∧ (admits17 (reqOf .fmApi (.mailbox p.val) 4096 payload) s = true)) ∧
    (∃ (p : PortId) (payload : List Byte) (g : GSpec) (m : PSpec) (row : Nat) (s : State), (mailboxOpen s p.val = true) ∧ (pnum s P.FM_PORT = p.val) ∧ (12 ≤ payload.length) ∧ ((reqOf .fmApi (.mailbox p.val) 4096 payload).op = 1) ∧ (groupSpec ((reqOf .fmApi (.mailbox p.val) 4096 payload).param / 256) = some g) ∧ (paramSpec (reqOf .fmApi (.mailbox p.val) 4096 payload).param = some m) ∧ (admits17 (reqOf .fmApi (.mailbox p.val) 4096 payload) s = true) ∧ (isSelect g (reqOf .fmApi (.mailbox p.val) 4096 payload) = false) ∧ (rowOf (reqOf .fmApi (.mailbox p.val) 4096 payload) s = some row)) ∧
    (∃ (p : PortId) (s : State), (mailboxOpen s p.val = true) ∧ (pnum s P.FM_PORT = p.val)) ∧
    (∃ (dest : BitVec 18) (src : BitVec 18) (param : BitVec 24) (data : List Byte) (crc : BitVec 16) (endOk : Bool) (g : GSpec) (m : PSpec) (s : State), (frameHere dest s = true) ∧ (crFrameFault dest.toNat src.toNat 1 param.toNat data crc endOk (data.length == 8) = none) ∧ (s.cr.replies.length < 16) ∧ (groupSpec (param.toNat / 256) = some g) ∧ (paramSpec param.toNat = some m) ∧ (admits17 ({ origin := .courier src, tgt := .courier s.cr.tickets, param := param.toNat, op := 0, ty := bitsOf (leNat (data.take 8)) 0 8, length := bitsOf (leNat (data.take 8)) 16 16, offset := bitsOf (leNat (data.take 8)) 32 32, value := data.drop 8, limit := 240 } : Req) (modCr (fun c => { c with tickets := s.cr.tickets + 1, replies := c.replies ++ [(⟨s.cr.tickets, src.toNat, param.toNat, none, false⟩ : CrReply)] }) (frameTaken s)) = true)) ∧
    (∃ (dest : BitVec 18) (src : BitVec 18) (param : BitVec 24) (data : List Byte) (crc : BitVec 16) (endOk : Bool) (g : GSpec) (m : PSpec) (row : Nat) (s : State), (frameHere dest s = true) ∧ (crFrameFault dest.toNat src.toNat 2 param.toNat data crc endOk (decide (8 ≤ data.length) && decide (data.length ≤ 248)) = none) ∧ (s.cr.replies.length < 16) ∧ (groupSpec (param.toNat / 256) = some g) ∧ (paramSpec param.toNat = some m) ∧ (admits17 ({ origin := .courier src, tgt := .courier s.cr.tickets, param := param.toNat, op := 1, ty := bitsOf (leNat (data.take 8)) 0 8, length := bitsOf (leNat (data.take 8)) 16 16, offset := bitsOf (leNat (data.take 8)) 32 32, value := data.drop 8, limit := 240 } : Req) (modCr (fun c => { c with tickets := s.cr.tickets + 1, replies := c.replies ++ [(⟨s.cr.tickets, src.toNat, param.toNat, none, false⟩ : CrReply)] }) (frameTaken s)) = true) ∧ (isSelect g ({ origin := .courier src, tgt := .courier s.cr.tickets, param := param.toNat, op := 1, ty := bitsOf (leNat (data.take 8)) 0 8, length := bitsOf (leNat (data.take 8)) 16 16, offset := bitsOf (leNat (data.take 8)) 32 32, value := data.drop 8, limit := 240 } : Req) = false) ∧ (rowOf ({ origin := .courier src, tgt := .courier s.cr.tickets, param := param.toNat, op := 1, ty := bitsOf (leNat (data.take 8)) 0 8, length := bitsOf (leNat (data.take 8)) 16 16, offset := bitsOf (leNat (data.take 8)) 32 32, value := data.drop 8, limit := 240 } : Req) (modCr (fun c => { c with tickets := s.cr.tickets + 1, replies := c.replies ++ [(⟨s.cr.tickets, src.toNat, param.toNat, none, false⟩ : CrReply)] }) (frameTaken s)) = some row)) :=
  ⟨⟨17, (leBytes 12 (0x000205 + 0 * 2 ^ 24 + 1 * 2 ^ 32 + 1 * 2 ^ 48 + 0 * 2 ^ 64) ++ []), (groupSpec 2).getD ⟨0, 0, 0, true, 0, true, []⟩, (paramSpec 0x000205).getD ⟨0, 1, .u64, .ro, 8, 0, .any, false, .fixed⟩, stFm, by decide +kernel⟩,
   ⟨17, (leBytes 12 (0x401210 + 1 * 2 ^ 24 + 7 * 2 ^ 32 + 1 * 2 ^ 48 + 0 * 2 ^ 64) ++ [1#8]), (groupSpec 0x4012).getD ⟨0, 0, 0, true, 0, true, []⟩, (paramSpec 0x401210).getD ⟨0, 1, .u64, .ro, 8, 0, .any, false, .fixed⟩, 0, stFmOwned, by decide +kernel⟩,
   ⟨17, stFm, by decide +kernel⟩,
   ⟨9#18, 5#18, 0x000205#24, crData 1 [], crFrameCrc 9 5 1 0x000205 (crData 1 []), true, (groupSpec 2).getD ⟨0, 0, 0, true, 0, true, []⟩, (paramSpec 0x000205).getD ⟨0, 1, .u64, .ro, 8, 0, .any, false, .fixed⟩, stCourier, by decide +kernel⟩,
   ⟨9#18, 5#18, 0x000205#24, crData 1 [255#8], crFrameCrc 9 5 2 0x000205 (crData 1 [255#8]), true, (groupSpec 2).getD ⟨0, 0, 0, true, 0, true, []⟩, (paramSpec 0x000205).getD ⟨0, 1, .u64, .ro, 8, 0, .any, false, .fixed⟩, 0, stCourier, by decide +kernel⟩⟩

/-- What `FmQueriesAnswer` supposes is met. -/
theorem witness_FmQueriesAnswer :
    (∃ (p : PortId) (s : State), (fmOpen p s = true) ∧ ((fmReads (wholeOf [P.LC_STATE, P.OPERATOR_ID]) s).2.1 = 0)) ∧
    (∃ (p : PortId) (s : State), (fmOpen p s = true) ∧ (s.dict.lastBg = none)) ∧
    (∃ (p : PortId) (j : Nat) (m : Nat) (s : State), (fmOpen p s = true) ∧ (s.dict.lastBg = some (j, m)) ∧ ((fmReads [(m, 0, 16)] s).2.1 = 0)) ∧
    (∃ (p : PortId) (s : State), (fmOpen p s = true)) ∧
    (∃ (p : PortId) (s : State), (fmOpen p s = true) ∧ ((fmReads (wholeOf ([P.SW_ROLE_COUNT, P.SW_VCS_MAP] ++ (below 64).map (P.PORT_ROLE + 256 * ·))) s).2.1 = 0)) ∧
    (∃ (p : PortId) (ports : List PortId) (s : State), (fmOpen p s = true) ∧ ((fmReads (wholeOf (ports.flatMap fun (t : PortId) => [P.LINK_STATE, P.PORT_ROLE, P.PORT_WIDTH, P.PORT_RATE].map (· + 256 * t.val))) s).2.1 = 0)) ∧
    (∃ (p : PortId) (s : State), (fmOpen p s = true) ∧ ((fmReads (wholeOf [P.SW_VCS_MAP]) s).2.1 = 0)) ∧
    (∃ (p : PortId) (s : State), (fmOpen p s = true) ∧ ((fmReads (wholeOf ((below 16).map (P.CAP_USABLE + ·) ++ [P.FLOOR_TOTAL, P.LOGICAL_TOTAL, P.STRANDED])) s).2.1 = 0)) ∧
    (∃ (p : PortId) (host : PortId) (s : State), (fmOpen p s = true) ∧ (portRole s host.val = 1)) ∧
    (∃ (p : PortId) (region : Byte) (length : BitVec 64) (block : BitVec 64) (s : State), (fmOpen p s = true) ∧ (region.toNat < 2) ∧ (length.toNat = 2 ^ 46) ∧ (block.toNat = 2 ^ 28)) ∧
    (∃ (p : PortId) (host : PortId) (s : State), (fmOpen p s = true) ∧ ((fmReads (extentReads s host.val) s).2.1 = 0)) :=
  ⟨⟨17, stFm, by decide +kernel⟩,
   ⟨17, stFm, by decide +kernel⟩,
   ⟨17, 0, P.SW_BIND_CMD, stFmBg, by decide +kernel⟩,
   ⟨17, stFm, by decide +kernel⟩,
   ⟨17, stFm, by decide +kernel⟩,
   ⟨17, [17, 63], stFm, by decide +kernel⟩,
   ⟨17, stFm, by decide +kernel⟩,
   ⟨17, stFm, by decide +kernel⟩,
   ⟨17, 18, stFm, by decide +kernel⟩,
   ⟨17, 1#8, BitVec.ofNat 64 (2 ^ 46), BitVec.ofNat 64 (2 ^ 28), stFm, by decide +kernel⟩,
   ⟨17, 17, stFm, by decide +kernel⟩⟩

/-- What `FmCommandsAct` supposes is met. -/
theorem witness_FmCommandsAct :
    (∃ (p : PortId) (t : PortId) (s : State), (fmOpen p s = true) ∧ (commandRuns (cmdReq .fmApi (P.PORT_CMD + 256 * t.val) [5#8]) 0 s = true)) ∧
    (∃ (p : PortId) (t : PortId) (s : State), (fmOpen p s = true) ∧ (commandRuns (cmdReq .fmApi (P.PORT_CMD + 256 * t.val) [6#8]) 0 s = true)) ∧
    (∃ (p : PortId) (t : PortId) (s : State), (fmOpen p s = true) ∧ (commandRuns (cmdReq .fmApi (P.PORT_CMD + 256 * t.val) [4#8]) 0 s = true)) ∧
    (∃ (p : PortId) (v : Byte) (b : Byte) (tgt : Byte) (s : State), (fmOpen p s = true) ∧ (commandRuns (cmdReq .fmApi P.SW_BIND_CMD [1#8, v, b, tgt]) 0 s = true)) ∧
    (∃ (p : PortId) (v : Byte) (b : Byte) (s : State), (fmOpen p s = true) ∧ (commandRuns (cmdReq .fmApi (P.SW_BIND_CMD) [2#8, v, b, 0#8]) 0 s = true)) ∧
    (∃ (p : PortId) (v : Byte) (b : Byte) (s : State), (fmOpen p s = true) ∧ (commandRuns (cmdReq .fmApi (P.SW_BIND_CMD) [3#8, v, b, 0#8]) 0 s = true)) ∧
    (∃ (p : PortId) (v : Byte) (b : Byte) (s : State), (fmOpen p s = true) ∧ (commandRuns (cmdReq .fmApi (P.SW_BIND_CMD) [4#8, v, b, 0#8]) 0 s = true)) ∧
    (∃ (p : PortId) (host : PortId) (region : Byte) (tag : BitVec 128) (n : Nat) (s : State), (fmOpen p s = true) ∧ (tagLodging s tag = some n) ∧ (region.toNat = bNat (lodgeAttr s n 2)) ∧ ((accessAns (reqWrite .fmApi (P.HOST_PORTS + 256 * n) 4 0 (leBytes 8 (Nat.lor (lodgeP s n P.HOST_PORTS) (2 ^ host.val)))) s).resp.status = 0) ∧ ((accessAns (cmdReq .fmApi (lodgeCommit n) [0#8]) (accessAns (reqWrite .fmApi (P.HOST_PORTS + 256 * n) 4 0 (leBytes 8 (Nat.lor (lodgeP s n P.HOST_PORTS) (2 ^ host.val)))) s).after).resp.status ≤ 1)) ∧
    (∃ (p : PortId) (host : PortId) (tag : BitVec 128) (n : Nat) (s : State), (fmOpen p s = true) ∧ (tagLodging s tag = some n) ∧ ((accessAns (reqWrite .fmApi (P.HOST_PORTS + 256 * n) 4 0 (leBytes 8 (lodgeP s n P.HOST_PORTS - Nat.land (lodgeP s n P.HOST_PORTS) (2 ^ host.val)))) s).resp.status = 0) ∧ ((accessAns (cmdReq .fmApi (lodgeCommit n) [0#8]) (accessAns (reqWrite .fmApi (P.HOST_PORTS + 256 * n) 4 0 (leBytes 8 (lodgeP s n P.HOST_PORTS - Nat.land (lodgeP s n P.HOST_PORTS) (2 ^ host.val)))) s).after).resp.status ≤ 1)) :=
  ⟨⟨17, 19, stFmPorts, by decide +kernel⟩,
   ⟨17, 19, stFmPorts, by decide +kernel⟩,
   ⟨17, 19, stFmPorts, by decide +kernel⟩,
   ⟨17, 17#8, 2#8, 20#8, stFmPorts, by decide +kernel⟩,
   ⟨17, 17#8, 1#8, stFmPorts, by decide +kernel⟩,
   ⟨17, 17#8, 1#8, stFmPorts, by decide +kernel⟩,
   ⟨17, 17#8, 1#8, stFmPorts, by decide +kernel⟩,
   ⟨17, 18, 1#8, 3#128, 3, stFmLodge, by decide +kernel⟩,
   ⟨17, 17, 3#128, 3, stFmLodge, by decide +kernel⟩⟩

/-- What `ImeMailboxAnswers` supposes is met. -/
theorem witness_ImeMailboxAnswers :
    (∃ (p : PortId) (s : State), (mailboxOpen s p.val = true)) ∧
    (∃ (p : PortId) (s : State), (mailboxOpen s p.val = true)) ∧
    (∃ (p : PortId) (s : State), (mailboxOpen s p.val = true)) ∧
    (∃ (p : PortId) (log : Byte) (s : State), (mailboxOpen s p.val = true) ∧ (log.toNat ≤ 4)) ∧
    (∃ (p : PortId) (log : Byte) (s : State), (mailboxOpen s p.val = true) ∧ (log.toNat ≤ 4)) ∧
    (∃ (p : PortId) (s : State), (mailboxOpen s p.val = true)) ∧
    (∃ (p : PortId) (s : State), (mailboxOpen s p.val = true)) :=
  ⟨⟨17, stFm, by decide +kernel⟩,
   ⟨17, stFm, by decide +kernel⟩,
   ⟨17, stFm, by decide +kernel⟩,
   ⟨17, 4#8, stFm, by decide +kernel⟩,
   ⟨17, 4#8, stFm, by decide +kernel⟩,
   ⟨17, stFm, by decide +kernel⟩,
   ⟨17, stFm, by decide +kernel⟩⟩

/-- What `CourierEventsAct` supposes is met. -/
theorem witness_CourierEventsAct :
    (∃ (dest : BitVec 18) (src : BitVec 18) (crc : BitVec 16) (s : State), (s.sl.vstby = true) ∧ (s.cr.busIdle = true) ∧ (s.cr.address = none) ∧ (s.cr.enumInHeld = true) ∧ (crc = crFrameCrc dest.toNat src.toNat 5 0 [])) ∧
    (∃ (dest : BitVec 18) (src : BitVec 18) (crc : BitVec 16) (s : State), (frameHere dest s = true) ∧ (crc = crFrameCrc dest.toNat src.toNat 7 0 [])) ∧
    (∃ (r : CrReply) (rsp : Resp) (s : State), (maySend s = true) ∧ (replyReady s = some r) ∧ (r.resp = some rsp)) ∧
    (∃ (r : CrReply) (rsp : Resp) (s : State), (maySend s = true) ∧ (replyReady s = some r) ∧ (r.resp = some rsp)) ∧
    (∃ (r : CrReply) (rsp : Resp) (s : State), (maySend s = true) ∧ (replyReady s = some r) ∧ (r.resp = some rsp)) ∧
    (∃ (a : Alert) (rest : List Alert) (s : State), (maySend s = true) ∧ (pnum s P.CR_ALERT_DEST ≠ 0xFFFFFFFF) ∧ (s.cr.waiting = a :: rest)) ∧
    (∃ (s : State), (s.cr.enumIn = true)) ∧
    (∃ (s : State), (s.cr.enumInHeld = true) ∧ (s.cr.ackSent = true) ∧ (s.cr.address.isSome = true)) ∧
    (∃ (s : State), (s.sl.vstby = true) ∧ (pnum s P.CR_STALL_TIMEOUT ≠ 0)) ∧
    (∃ (s : State), (s.sl.vstby = true) ∧ (pnum s P.CR_STALL_TIMEOUT ≠ 0)) ∧
    (∃ (s : State), (s.sl.vstby = true)) ∧
    (∃ (s : State), (s.sl.vstby = true)) :=
  ⟨⟨9#18, 5#18, crFrameCrc 9 5 5 0 [], stUnaddressed, by decide +kernel⟩,
   ⟨9#18, 5#18, crFrameCrc 9 5 7 0 [], stCourier, by decide +kernel⟩,
   ⟨⟨4, 5, P.PS_WAKE_TIMER, some ⟨0, 3, 9, []⟩, false⟩, ⟨0, 3, 9, []⟩, stReply, by decide +kernel⟩,
   ⟨⟨4, 5, P.PS_WAKE_TIMER, some ⟨0, 3, 9, []⟩, false⟩, ⟨0, 3, 9, []⟩, stReply, by decide +kernel⟩,
   ⟨⟨4, 5, P.PS_WAKE_TIMER, some ⟨0, 3, 9, []⟩, false⟩, ⟨0, 3, 9, []⟩, stReply, by decide +kernel⟩,
   ⟨⟨1, 9, 1, 1, 0, 0, 0⟩, [], stAlert, by decide +kernel⟩,
   ⟨stUnaddressed, by decide +kernel⟩,
   ⟨stAcked, by decide +kernel⟩,
   ⟨stCourier, by decide +kernel⟩,
   ⟨stCourier, by decide +kernel⟩,
   ⟨stCourier, by decide +kernel⟩,
   ⟨stCourier, by decide +kernel⟩⟩

/-- What `GuestBookAndPresenceEventsAct` supposes is met. -/
theorem witness_GuestBookAndPresenceEventsAct :
    (∃ (s : State), (s.sl.vstby = true) ∧ (s.gb.latches.length < 2)) ∧
    (∃ (s : State), (s.sl.vstby = true) ∧ (2 ≤ s.gb.latches.length)) ∧
    (∃ (c : GbCut) (rest : List GbCut) (kind : Nat) (ks : List Nat) (sec : Nat) (s : State), let pos := if sec = s.gb.circPos / 15 then s.gb.circPos else 15 * sec; let s1 := if pos % 15 = 0 ∧ gbHolds s sec = true then modSector (288 + sec) (fun x => { x with erases := min 100000 (x.erases + 1) }) (modGb (fun g => { g with circ := g.circ.filter fun e => e.1 / 15 != sec }) s) else s; (s.sl.vstby = true) ∧ (s.sl.flashOk = true) ∧ (s.gb.latches = c :: rest) ∧ (c.kinds = kind :: ks) ∧ (gbNextSector s (s.gb.circPos / 15) = some sec) ∧ ((gbSector s1 (288 + sec)).erases < 100000)) ∧
    (∃ (d : DieId) (s : State), (diePowered s d.val = true) ∧ (unitServes s (368 + d.val) = true)) ∧
    (∃ (s : State), (s.sl.vstby = true)) ∧
    (∃ (s : State), (s.sl.vstby = true)) ∧
    (∃ (s : State), (s.sl.vstby = true)) ∧
    (∃ (s : State), (s.sl.vstby = true)) :=
  ⟨⟨stReady, by decide +kernel⟩,
   ⟨stTwoCuts, by decide +kernel⟩,
   ⟨gbOneCut, [], 7, [], 0, stOneCut, by decide +kernel⟩,
   ⟨7, stReady, by decide +kernel⟩,
   ⟨stReady, by decide +kernel⟩,
   ⟨stReady, by decide +kernel⟩,
   ⟨stReady, by decide +kernel⟩,
   ⟨stReady, by decide +kernel⟩⟩

/-- What `RailsAndStartUpAct` supposes is met. -/
theorem witness_RailsAndStartUpAct :
    (∃ (r : RailId) (s : State), (s.sl.railEn.getLsbD r.val = true)) ∧
    (∃ (r : RailId) (s : State), (s.sl.railEn.getLsbD r.val = true) ∧ (s.sl.railPg.getLsbD r.val = false)) ∧
    (∃ (r : RailId) (s : State), (s.sl.railEn.getLsbD r.val = true) ∧ (s.sl.railPg.getLsbD r.val = false)) ∧
    (∃ (r : RailId) (s : State), (s.sl.railEn.getLsbD r.val = true) ∧ (s.sl.railPg.getLsbD r.val = true) ∧ (s.sl.railStep = 6 ∨ s.sl.railStep = 0)) ∧
    (∃ (d : DieId) (s : State), (10 ≤ smGet 0 s.sl.hotMs d.val) ∧ (s.sl.thermShutdown = false)) ∧
    (∃ (s : State), (s.sl.thermShutdown = true) ∧ (s.hs.state = .on)) ∧
    (∃ (d : DieId) (s : State), (diePowered s d.val = true)) ∧
    (∃ (s : State), (s.sl.vstby = false)) ∧
    (∃ (keeper : FwSlots) (steward : FwSlots) (k : BitVec 384) (st : BitVec 384) (s : State), (verified s keeper = some k) ∧ (verified s steward = some st) ∧ (s.sl.railStep = 6) ∧ (s.sl.bootStage = .booting) ∧ (lcState s ≠ 4) ∧ (unitServes s 369 = true)) ∧
    (∃ (s : State), (s.sl.vstby = true)) ∧
    (∃ (s : State), (s.sl.vstby = true) ∧ (s.sl.standbyAlive = true)) ∧
    (∃ (b : Fin 128) (word : BitVec 64) (err : BitVec 79) (v : Nat) (held : SramHolds) (s : State), (decodeSram word err = some (0, v)) ∧ (diePowered s (bankDie b.val) = true) ∧ (unitServes s (368 + bankDie b.val) = true) ∧ (regionPermits s (32 + b.val) .scrub false (smGet 0 s.unit.sramPos b.val / 8) = true) ∧ (failsOwner held = false)) ∧
    (∃ (b : Fin 128) (word : BitVec 64) (err : BitVec 79) (n : Nat) (v : Nat) (held : SramHolds) (s : State), (decodeSram word err = some (n, v)) ∧ (0 < n) ∧ (diePowered s (bankDie b.val) = true) ∧ (unitServes s (368 + bankDie b.val) = true) ∧ (regionPermits s (32 + b.val) .scrub true (smGet 0 s.unit.sramPos b.val / 8) = true) ∧ (bankDie b.val < 4) ∧ (failsOwner held = false)) ∧
    (∃ (b : Fin 128) (word : BitVec 64) (err : BitVec 79) (held : SramHolds) (s : State), (decodeSram word err = none) ∧ (diePowered s (bankDie b.val) = true) ∧ (unitServes s (368 + bankDie b.val) = true) ∧ (regionPermits s (32 + b.val) .scrub false (smGet 0 s.unit.sramPos b.val / 8) = true) ∧ (bankDie b.val < 4) ∧ ((heldDie s held).all (fun d => d == bankDie b.val) = true)) :=
  ⟨⟨8, stPowering, by decide +kernel⟩,
   ⟨9, stPowering, by decide +kernel⟩,
   ⟨13, modSl (fun l => { l with railEn := 0xFFFF#20, railStep := 4 }) stPowering, by decide +kernel⟩,
   ⟨14, stRun, by decide +kernel⟩,
   ⟨5, stHot, by decide +kernel⟩,
   ⟨stCooled, by decide +kernel⟩,
   ⟨2, stReady, by decide +kernel⟩,
   ⟨stNoStandby, by decide +kernel⟩,
   ⟨⟨some ⟨1#384, true, 0, 0#384⟩, none⟩, ⟨some ⟨7#384, false, 3, 0#384⟩, some ⟨2#384, true, 1, 0#384⟩⟩, 1#384, 2#384, stBooting, by decide +kernel⟩,
   ⟨stReady, by decide +kernel⟩,
   ⟨stReady, by decide +kernel⟩,
   ⟨3, 77#64, 0#79, 77, .label 5, stScrub, by decide +kernel⟩,
   ⟨120, 77#64, 3#79, 2, 77, .label 5, stScrub, by decide +kernel⟩,
   ⟨112, 77#64, 7#79, .label 5, stScrub, by decide +kernel⟩⟩

/-- What `MainInputAct` supposes is met. -/
theorem witness_MainInputAct :
    (∃ (s : State), (s.hs.state = .unseated)) ∧
    (∃ (a : Bool) (b : Bool) (s : State), ((a && b) = false) ∧ (s.hs.state ≠ .unseated) ∧ (s.hs.state ≠ .on) ∧ (s.ps.state ≠ .entering) ∧ (s.ps.state ≠ .night) ∧ (s.ps.state ≠ .off)) ∧
    (∃ (s : State), (s.hs.state = .seating) ∧ (s.hs.seatA = true) ∧ (s.hs.seatB = true) ∧ (s.sl.flashOk = true)) ∧
    (∃ (vin : BitVec 16) (vmid : BitVec 16) (vout : BitVec 16) (cur : IslandCurrents) (s : State), (mainGateOn (accumMain cur.other.toNat (opTick (measureMain vin.toNat vmid.toNat vout.toNat cur.active.toNat s))) = false) ∧ ((accumMain cur.other.toNat (opTick (measureMain vin.toNat vmid.toNat vout.toNat cur.active.toNat s))).hs.state = .tripped ∨ (accumMain cur.other.toNat (opTick (measureMain vin.toNat vmid.toNat vout.toNat cur.active.toNat s))).hs.state = .latched ∨ (accumMain cur.other.toNat (opTick (measureMain vin.toNat vmid.toNat vout.toNat cur.active.toNat s))).hs.state = .unseated)) ∧
    (∃ (vin : BitVec 16) (vmid : BitVec 16) (vout : BitVec 16) (cur : IslandCurrents) (s : State), (mainGateOn (accumMain cur.other.toNat (opTick (measureMain vin.toNat vmid.toNat vout.toNat cur.active.toNat s))) = true) ∧ (pnum (accumMain cur.other.toNat (opTick (measureMain vin.toNat vmid.toNat vout.toNat cur.active.toNat s))) P.HS_FAST_TRIP < cur.active.toNat)) ∧
    (∃ (vin : BitVec 16) (vmid : BitVec 16) (vout : BitVec 16) (cur : IslandCurrents) (s : State), (mainGateOn (accumMain cur.other.toNat (opTick (measureMain vin.toNat vmid.toNat vout.toNat cur.active.toNat s))) = false) ∧ ((accumMain cur.other.toNat (opTick (measureMain vin.toNat vmid.toNat vout.toNat cur.active.toNat s))).hs.state = .window) ∧ (vinInWindow (accumMain cur.other.toNat (opTick (measureMain vin.toNat vmid.toNat vout.toNat cur.active.toNat s))) = true)) ∧
    (∃ (cur : BitVec 32) (s : State), (mainGateOn s = true) ∧ (pnum s P.HS_FAST_TRIP < cur.toNat)) ∧
    (∃ (s : State), (s.hs.state = .delay)) ∧
    (∃ (midOff : BitVec 16) (midOn : BitVec 16) (vin : BitVec 16) (rise : BitVec 16) (s : State), (s.hs.state = .check) ∧ (midOff.toNat < 1000 ∧ vin.toNat < midOn.toNat + 500 ∧ rise.toNat ≤ 500)) ∧
    (∃ (midOff : BitVec 16) (midOn : BitVec 16) (vin : BitVec 16) (rise : BitVec 16) (s : State), (s.hs.state = .check) ∧ (¬(midOff.toNat < 1000 ∧ vin.toNat < midOn.toNat + 500 ∧ rise.toNat ≤ 500))) ∧
    (∃ (s : State), (s.hs.state = .ramp) ∧ (s.sl.thermShutdown = false) ∧ (s.ps.state ≠ .exiting) ∧ (s.sl.resetArmed < 2)) ∧
    (∃ (s : State), (s.hs.state = .ramp) ∧ (s.sl.thermShutdown = false) ∧ (s.ps.state ≠ .exiting) ∧ (2 ≤ s.sl.resetArmed)) ∧
    (∃ (s : State), (s.hs.state = .tripped) ∧ (s.hs.seatA = true) ∧ (s.hs.seatB = true)) ∧
    (∃ (s : State), (s.hs.state = .on) ∧ (s.hs.onSince + 3600 * 10 ^ 9 ≤ s.slTime)) :=
  ⟨⟨State.reset, by decide +kernel⟩,
   ⟨true, false, stTripped, by decide +kernel⟩,
   ⟨stSeat .seating, by decide +kernel⟩,
   ⟨12000#16, 0#16, 0#16, ⟨0#32, 0#32⟩, stTripped, by decide +kernel⟩,
   ⟨12000#16, 12000#16, 12000#16, ⟨900000#32, 0#32⟩, stGates, by decide +kernel⟩,
   ⟨12000#16, 0#16, 0#16, ⟨0#32, 0#32⟩, stSeat .window, by decide +kernel⟩,
   ⟨900000#32, stGates, by decide +kernel⟩,
   ⟨stSeat .delay, by decide +kernel⟩,
   ⟨999#16, 12000#16, 12499#16, 500#16, stSeat .check, by decide +kernel⟩,
   ⟨1000#16, 12000#16, 12000#16, 0#16, stSeat .check, by decide +kernel⟩,
   ⟨stSeat .ramp, by decide +kernel⟩,
   ⟨modSl (fun l => { l with resetArmed := 5 }) (stSeat .ramp), by decide +kernel⟩,
   ⟨stSeat .tripped, by decide +kernel⟩,
   ⟨modSlTime (fun _ => 3600 * 10 ^ 9) stReady, by decide +kernel⟩⟩

/-- What `BranchesAct` supposes is met. -/
theorem witness_BranchesAct :
    (∃ (w : WingId) (s : State), (s.hs.state = .on) ∧ (someRamping s = false) ∧ (nextRamp s = some w.val)) ∧
    (∃ (w : WingId) (s : State), ((branchAt s w.val).ramping = true) ∧ ((wingAt s w.val).state ≠ .reopening)) ∧
    (∃ (w : WingId) (s : State), ((branchAt s w.val).ramping = true)) ∧
    (∃ (w : WingId) (vout : BitVec 16) (cur : IslandCurrents) (s : State), (branchTripCause w.val cur.active.toNat cur.other.toNat (measureBranch w.val vout.toNat cur.active.toNat cur.other.toNat s) = none)) ∧
    (∃ (w : WingId) (vout : BitVec 16) (cur : IslandCurrents) (c : Nat) (s : State), (branchTripCause w.val cur.active.toNat cur.other.toNat (measureBranch w.val vout.toNat cur.active.toNat cur.other.toNat s) = some c)) ∧
    (∃ (w : WingId) (cur : BitVec 32) (s : State), ((branchAt s w.val).gate = true) ∧ ((branchAt s w.val).state ≠ .fetFault) ∧ (pnum s P.BR_FAST_TRIP < cur.toNat)) ∧
    (∃ (w : WingId) (s : State), ((branchAt s w.val).gate = false) ∧ ((branchAt s w.val).state = .on)) ∧
    (∃ (w : WingId) (s : State), ((branchAt s w.val).gate = false) ∧ ((branchAt s w.val).state = .on) ∧ ((wingAt s w.val).state ≠ .shuttering)) :=
  ⟨⟨15, stBranchQueue, by decide +kernel⟩,
   ⟨4, stBranches, by decide +kernel⟩,
   ⟨4, stBranches, by decide +kernel⟩,
   ⟨5, 12000#16, ⟨100#32, 90#32⟩, stBranches, by decide +kernel⟩,
   ⟨5, 12000#16, ⟨900000#32, 0#32⟩, 1, stBranches, by decide +kernel⟩,
   ⟨5, 900000#32, stBranches, by decide +kernel⟩,
   ⟨6, stBranches, by decide +kernel⟩,
   ⟨6, stBranches, by decide +kernel⟩⟩

/-- What `PowerStatesAct` supposes is met. -/
theorem witness_PowerStatesAct :
    (∃ (s : State), (voteTarget s = 1) ∧ (mayEnter s = true)) ∧
    (∃ (s : State), (voteTarget s = 0) ∧ (mayEnter s = true)) ∧
    (∃ (s : State), (s.ps.state = .entering) ∧ (s.ps.entryStep = 1) ∧ (s.ps.abort = none) ∧ (voteTarget s < 2)) ∧
    (∃ (src : Nat) (s : State), (s.ps.state = .entering) ∧ (s.ps.entryStep = 2) ∧ (s.ps.abort = some src)) ∧
    (∃ (s : State), (s.ps.state = .entering) ∧ (s.ps.entryStep = 7)) ∧
    (∃ (src : Nat) (s : State), (s.ps.state = .night) ∧ (s.ps.latchedWake = some src)) ∧
    (∃ (s : State), (s.ps.state = .exiting) ∧ (s.ps.exitStep = 1) ∧ (s.ps.exitFromOff = false)) ∧
    (∃ (s : State), (s.ps.state = .exiting) ∧ (s.ps.exitStep = 3)) ∧
    (∃ (s : State), (s.ps.timerEnd.isSome = true)) ∧
    (∃ (s : State), (s.ps.wakeHold = true)) ∧
    (∃ (s : State), (hsAlertLevel s = true)) ∧
    (∃ (u : UnitId) (s : State), (112 ≤ u.val) ∧ (u.val < 272) ∧ (s.ps.state = .idle) ∧ (s.ps.gated.contains u.val = false) ∧ (s.tier.moves.all (fun e => e.2.engine != some u.val) = true)) ∧
    (∃ (d : DieId) (old : Nat) (s : State), (smGet none s.ps.moving d.val = some old)) :=
  ⟨⟨stQuiet, by decide +kernel⟩,
   ⟨stNoVote, by decide +kernel⟩,
   ⟨stEntering 1, by decide +kernel⟩,
   ⟨5, modPs (fun p => { p with abort := some 5 }) (stEntering 2), by decide +kernel⟩,
   ⟨stEntering 7, by decide +kernel⟩,
   ⟨3, stAsleep, by decide +kernel⟩,
   ⟨stExiting 1, by decide +kernel⟩,
   ⟨stExiting 3, by decide +kernel⟩,
   ⟨stTimer, by decide +kernel⟩,
   ⟨stHold, by decide +kernel⟩,
   ⟨stTripped, by decide +kernel⟩,
   ⟨271, stIdle, by decide +kernel⟩,
   ⟨3, 2, stMovingRail, by decide +kernel⟩⟩

/-- What `WorldsAct` supposes is met. -/
theorem witness_WorldsAct :
    (∃ (core : Fin 8) (s : State), (s.world.stewardUp.getLsbD core.val = true) ∧ (s.world.calls.any (fun c => c.core == core.val && !c.abandoned) = false) ∧ (keeperStatus s = none)) ∧
    (∃ (core : Fin 8) (st : Nat) (s : State), (s.world.stewardUp.getLsbD core.val = true) ∧ (s.world.calls.any (fun c => c.core == core.val && !c.abandoned) = false) ∧ (keeperStatus s = some st)) ∧
    (∃ (c : WorldCall) (rest : List WorldCall) (s : State), (keeperStatus s = none) ∧ (s.world.calls = c :: rest) ∧ (c.abandoned = false)) ∧
    (∃ (core : Fin 8) (s : State), (s.world.stewardUp.getLsbD core.val = true)) ∧
    (∃ (core : Fin 8) (img : FwSlots) (d : BitVec 384) (s : State), (verified s img = some d) ∧ (s.world.stewardRestarting.getLsbD core.val = true)) ∧
    (∃ (s : State), (s.world.keeper = .running) ∧ (s.world.keeperUp = true) ∧ (restartsInHour s < pnum s P.KEEPER_RESTART_LIMIT) ∧ (s.world.debugHalt = false)) ∧
    (∃ (s : State), (s.world.keeper = .running) ∧ (s.world.keeperUp = true) ∧ (restartsInHour s < pnum s P.KEEPER_RESTART_LIMIT)) ∧
    (∃ (s : State), (s.world.keeper = .running) ∧ (s.world.keeperUp = true) ∧ (restartsInHour s < pnum s P.KEEPER_RESTART_LIMIT)) ∧
    (∃ (s : State), (s.world.keeper = .running) ∧ (s.world.keeperUp = true) ∧ (pnum s P.KEEPER_RESTART_LIMIT ≤ restartsInHour s)) ∧
    (∃ (img : FwSlots) (d : BitVec 384) (s : State), (verified s img = some d) ∧ (s.world.keeper = .restarting)) ∧
    (∃ (img : FwSlots) (s : State), (verified s img = none) ∧ (s.world.keeper = .restarting)) ∧
    (∃ (t : DebugTarget) (s : State), (debugAdmits s t = false)) ∧
    (∃ (s : State), (debugAdmits s .keeperInvasive = true)) ∧
    (∃ (s : State), (debugAdmits s .keeperRun = true)) ∧
    (∃ (t : DebugTarget) (s : State), (debugAdmits s t = true) ∧ (t ∈ [DebugTarget.idcode, .stewardTrace, .stewardInvasive, .keeperTrace])) ∧
    (∃ (a : Fin 98304) (s : State), (debugAdmits s (.stewardMemory a none) = true) ∧ (diePowered s (bankDie (memBank a.val).1) = true) ∧ (regionPermits s (32 + (memBank a.val).1) .debug false (memBank a.val).2 = true)) ∧
    (∃ (a : Fin 16384) (v : Line) (s : State), (debugAdmits s (.keeperMemory a (some v)) = true) ∧ (diePowered s (bankDie (memBank (keeperLines + a.val)).1) = true) ∧ (regionPermits s (32 + (memBank (keeperLines + a.val)).1) .debug true (memBank (keeperLines + a.val)).2 = true)) :=
  ⟨⟨7, stReady, by decide +kernel⟩,
   ⟨7, 2, stKeeperRestarting, by decide +kernel⟩,
   ⟨{ core := 4, req := [] }, [], stCalls, by decide +kernel⟩,
   ⟨4, stCalls, by decide +kernel⟩,
   ⟨4, ⟨some ⟨5#384, true, 0, 0#384⟩, none⟩, 5#384, modWorld (fun w => { w with stewardRestarting := 0x10#8 }) stReady, by decide +kernel⟩,
   ⟨stCalls, by decide +kernel⟩,
   ⟨stCalls, by decide +kernel⟩,
   ⟨stCalls, by decide +kernel⟩,
   ⟨stRestarted, by decide +kernel⟩,
   ⟨⟨none, some ⟨9#384, true, 0, 0#384⟩⟩, 9#384, stKeeperRestarting, by decide +kernel⟩,
   ⟨⟨some ⟨9#384, false, 0, 0#384⟩, none⟩, stKeeperRestarting, by decide +kernel⟩,
   ⟨.datapath, stReady, by decide +kernel⟩,
   ⟨stDebug, by decide +kernel⟩,
   ⟨stDebug, by decide +kernel⟩,
   ⟨.idcode, stReady, by decide +kernel⟩,
   ⟨98303, stDebugMem, by decide +kernel⟩,
   ⟨5, 9#512, stDebugMem, by decide +kernel⟩⟩

/-- What `KeysAndStreamsAct` supposes is met. -/
theorem witness_KeysAndStreamsAct :
    (∃ (d : MemDie) (err : BitVec 384) (j : KeyJob) (v : BitVec 256) (s : State), (s.prot.jobs.find? (fun x => x.left.contains d.val) = some j) ∧ (keyReceived (j.lodging % 4) d.val j.secret err s = some v) ∧ (j.left.filter (· ≠ d.val) = []) ∧ (j.op = 1) ∧ (s.world.keyReissue = false)) ∧
    (∃ (d : MemDie) (err : BitVec 384) (j : KeyJob) (s : State), (s.prot.jobs.find? (fun x => x.left.contains d.val) = some j) ∧ (keyReceived (j.lodging % 4) d.val j.secret err s = none)) ∧
    (∃ (d : MemDie) (n : LodgeId) (r : Rekey) (p : Nat) (x : Desc) (s1 : State) (s : State), (s.ps.state ≠ .night) ∧ (s.ps.state ≠ .off) ∧ (smFind s.prot.rekeys n.val = some r) ∧ (p = homedFrom n.val d.val (smGet 0 r.bounds d.val)) ∧ (r.asked = false) ∧ (lodgeLive s n.val = true) ∧ (rekeyOpen s d.val n.val = true) ∧ ((smFind s.prot.tslots (4 * d.val + r.slot)).isSome = true) ∧ (s.prot.jobs.any (fun j => j.op == 3 && j.lodging == n.val) = false) ∧ (p < lodgeSize s n.val * 65536) ∧ (checkedDesc n.val p s = some (x, s1)) ∧ (x.state ≠ .moving) ∧ (smFind r.asking d.val ≠ some p) ∧ (pageSnooped s1 n.val p = false) ∧ (linesAsked s1 n.val p = []) ∧ (paceOpen s1 d.val = true) ∧ (pageStopped s1 n.val p = false) ∧ (x.state = .zero)) ∧
    (∃ (d : MemDie) (n : LodgeId) (r : Rekey) (p : Nat) (x : Desc) (s1 : State) (s : State), (s.ps.state ≠ .night) ∧ (s.ps.state ≠ .off) ∧ (smFind s.prot.rekeys n.val = some r) ∧ (p = homedFrom n.val d.val (smGet 0 r.bounds d.val)) ∧ (r.asked = false) ∧ (lodgeLive s n.val = true) ∧ (rekeyOpen s d.val n.val = true) ∧ ((smFind s.prot.tslots (4 * d.val + r.slot)).isSome = true) ∧ (s.prot.jobs.any (fun j => j.op == 3 && j.lodging == n.val) = false) ∧ (p < lodgeSize s n.val * 65536) ∧ (checkedDesc n.val p s = some (x, s1)) ∧ (x.state ≠ .moving) ∧ (smFind r.asking d.val ≠ some p) ∧ (pageSnooped s1 n.val p = false) ∧ (linesAsked s1 n.val p = []) ∧ (paceOpen s1 d.val = true) ∧ (pageStopped s1 n.val p = false) ∧ (x.state = .plain)) ∧
    (∃ (p : PortId) (s : State), (portRole s p.val = 1) ∧ (keeperStatus s = none) ∧ (s.world.spdm.contains p.val = false)) ∧
    (∃ (p : PortId) (s : State), (portRole s p.val = 2) ∧ (keeperStatus s = none) ∧ (s.world.spdm.contains p.val = false)) ∧
    (∃ (p : PortId) (st : Nat) (s : State), (portRole s p.val = 1) ∧ (keeperStatus s = some st)) ∧
    (∃ (p : PortId) (i : Fin 9) (slot : Fin 6) (s : State), (keeperStatus s = none) ∧ (s.world.spdm.contains p.val = true) ∧ (ideHas s p.val i.val = true) ∧ (slot.val < ideSlots i.val) ∧ ((ideAt s p.val i.val).state ≠ IdeState.secure)) ∧
    (∃ (p : PortId) (i : Fin 9) (set : Fin 2) (s : State), (keeperStatus s = none) ∧ (s.world.spdm.contains p.val = true) ∧ (ideHas s p.val i.val = true) ∧ ((ideAt s p.val i.val).keys.any (fun k => k.1 / 16 == set.val) = true)) ∧
    (∃ (p : PortId) (i : Fin 9) (s : State), (keeperStatus s = none) ∧ (s.world.spdm.contains p.val = true) ∧ (ideHas s p.val i.val = true)) ∧
    (∃ (n : LodgeId) (r : Rekey) (s : State), (smFind s.prot.rekeys n.val = some r) ∧ (rekeyOver s n.val r = true) ∧ (lodgeLive s n.val = true) ∧ (dictsOf s n.val = [])) :=
  ⟨⟨1, 0#384, ⟨1, 3, 77#256, [1], 0⟩, 77#256, stKeyJob, by decide +kernel⟩,
   ⟨1, 1#384, ⟨1, 3, 77#256, [1], 0⟩, stKeyJob, by decide +kernel⟩,
   ⟨2, 3, { asked := false, slot := 1, bounds := [] }, homedFrom 3 2 0, (descAt stRekeying 3 (homedFrom 3 2 0)).getD {}, stRekeying, stRekeying, by decide +kernel⟩,
   ⟨2, 3, { asked := false, slot := 1, bounds := [] }, homedFrom 3 2 0, (descAt stRekeyPlain 3 (homedFrom 3 2 0)).getD {}, stRekeyPlain, stRekeyPlain, by decide +kernel⟩,
   ⟨17, stPorts, by decide +kernel⟩,
   ⟨19, stPorts, by decide +kernel⟩,
   ⟨17, 2, withParams [(0, P.PORT_ROLE + 256 * 17, 1)] stKeeperRestarting, by decide +kernel⟩,
   ⟨17, 8, 1, stSpdm, by decide +kernel⟩,
   ⟨17, 8, 0, stKeyed, by decide +kernel⟩,
   ⟨17, 8, stKeyed, by decide +kernel⟩,
   ⟨3, { asked := false, slot := 1, bounds := [(0, 65536), (1, 65536), (2, 65536), (3, 65536)] }, stRekeyDone, by decide +kernel⟩⟩

/-- What `PortEventsAct` supposes is met. -/
theorem witness_PortEventsAct :
    (∃ (p : PortId) (width : Fin 17) (rate : Fin 7) (s : State), (lcState s ≠ 4) ∧ (width.val ∈ [1, 2, 4, 8, 16]) ∧ (width.val ≤ portLanes s p.val) ∧ (1 ≤ rate.val) ∧ (rate.val ≤ pnum s (P.PORT_MAX_RATE + 256 * p.val)) ∧ (rate.val ≤ pnum s (P.PS_SERDES_CAP + p.val / 16)) ∧ (portRole s p.val ≠ 0) ∧ ((portAt s p.val).perstOut = false) ∧ (unitServes s p.val = true) ∧ ((portAt s p.val).link = .up)) ∧
    (∃ (p : PortId) (width : Fin 17) (rate : Fin 7) (s : State), (lcState s ≠ 4) ∧ (width.val ∈ [1, 2, 4, 8, 16]) ∧ (width.val ≤ portLanes s p.val) ∧ (1 ≤ rate.val) ∧ (rate.val ≤ pnum s (P.PORT_MAX_RATE + 256 * p.val)) ∧ (rate.val ≤ pnum s (P.PS_SERDES_CAP + p.val / 16)) ∧ (portRole s p.val ≠ 0) ∧ ((portAt s p.val).perstOut = false) ∧ (unitServes s p.val = true) ∧ ((portAt s p.val).link = .training) ∧ (s.coh.absent.contains p.val = false) ∧ (s.coh.dying.contains p.val = false) ∧ (portRole s p.val = 1)) ∧
    (∃ (p : PortId) (width : Fin 17) (rate : Fin 7) (s : State), (lcState s ≠ 4) ∧ (width.val ∈ [1, 2, 4, 8, 16]) ∧ (width.val ≤ portLanes s p.val) ∧ (1 ≤ rate.val) ∧ (rate.val ≤ pnum s (P.PORT_MAX_RATE + 256 * p.val)) ∧ (rate.val ≤ pnum s (P.PS_SERDES_CAP + p.val / 16)) ∧ (portRole s p.val ≠ 0) ∧ ((portAt s p.val).perstOut = false) ∧ (unitServes s p.val = true) ∧ ((portAt s p.val).link = .down) ∧ (s.coh.absent.contains p.val = false) ∧ (s.coh.dying.contains p.val = false) ∧ (portRole s p.val = 1)) ∧
    (∃ (p : PortId) (width : Fin 17) (rate : Fin 7) (b : Nat × Nat) (s : State), (lcState s ≠ 4) ∧ (width.val ∈ [1, 2, 4, 8, 16]) ∧ (width.val ≤ portLanes s p.val) ∧ (1 ≤ rate.val) ∧ (rate.val ≤ pnum s (P.PORT_MAX_RATE + 256 * p.val)) ∧ (rate.val ≤ pnum s (P.PS_SERDES_CAP + p.val / 16)) ∧ (portRole s p.val ≠ 0) ∧ ((portAt s p.val).perstOut = false) ∧ (unitServes s p.val = true) ∧ ((portAt s p.val).link = .training) ∧ (s.coh.absent.contains p.val = false) ∧ (s.coh.dying.contains p.val = false) ∧ (portRole s p.val = 2) ∧ (s.sw.vcs.find? (fun e => e.2 == p.val) = some b)) ∧
    (∃ (p : PortId) (s : State), ((portAt s p.val).link = .up) ∧ (portRole s p.val = 1)) ∧
    (∃ (p : PortId) (s : State), ((portAt s p.val).link = .up) ∧ (portRole s p.val = 2)) ∧
    (∃ (p : PortId) (s : State), ((portAt s p.val).link = .training)) ∧
    (∃ (p : PortId) (s : State), (portRole s p.val = 1)) ∧
    (∃ (p : PortId) (s : State), (portRole s p.val = 1)) ∧
    (∃ (p : PortId) (b : Fin 32) (s : State), (vppb s p.val b.val < 64)) ∧
    (∃ (p : PortId) (b : Fin 32) (s : State), (vppb s p.val b.val = 0x40)) ∧
    (∃ (p : PortId) (s : State), (portRole s p.val = 1)) ∧
    (∃ (p : PortId) (b : Fin 32) (t : Nat) (s : State), (smFind s.sw.armed (32 * p.val + b.val) = some (3, t))) ∧
    (∃ (p : PortId) (x : Tx) (s : State), (s.coh.txs.find? (fun t => t.left.contains p.val) = some x) ∧ (portUp s p.val = true)) ∧
    (∃ (p : PortId) (s : State), (portUp s p.val = true)) ∧
    (∃ (p : PortId) (s : State), (s.coh.absent.contains p.val = true)) ∧
    (∃ (p : PortId) (s : State), (s.coh.dying.contains p.val = true)) :=
  ⟨⟨17, 4, 5, stPorts, by decide +kernel⟩,
   ⟨16, 4, 4, stPortsMore, by decide +kernel⟩,
   ⟨16, 4, 4, modPortAt 16 (fun x => { x with link := .down }) stPortsMore, by decide +kernel⟩,
   ⟨20, 4, 1, (32 * 17 + 2, 20), modPortAt 20 (fun x => { x with link := .training }) stPortsMore, by decide +kernel⟩,
   ⟨17, stPorts, by decide +kernel⟩,
   ⟨19, stPorts, by decide +kernel⟩,
   ⟨16, stPortsMore, by decide +kernel⟩,
   ⟨17, stPorts, by decide +kernel⟩,
   ⟨17, stPorts, by decide +kernel⟩,
   ⟨17, 1, stPorts, by decide +kernel⟩,
   ⟨17, 0, stFm, by decide +kernel⟩,
   ⟨17, stPorts, by decide +kernel⟩,
   ⟨17, 1, 19, stArmed, by decide +kernel⟩,
   ⟨17, stTxOne, stSnoop, by decide +kernel⟩,
   ⟨17, stPorts, by decide +kernel⟩,
   ⟨17, stAbsent, by decide +kernel⟩,
   ⟨17, stDying, by decide +kernel⟩⟩

/-- What `HostRequestsAreServed` supposes is met. -/
theorem witness_HostRequestsAreServed :
    (∃ (p : PortId) (hpa : BitVec 52) (tag : BitVec 16) (grant : Fin 3) (n : Nat) (page : Nat) (i : Nat) (dpa : Nat) (gen : Nat) (s : State), let u := portActivity p.val s; let r := lineReq 0 p.val tag.toNat n page i dpa (.read grant.val true) u; let v := xidTaken p.val u; (hostOpen p u = true) ∧ (hostHit u p.val hpa.toNat = some (.line n page i dpa gen)) ∧ (portPasses 0 p.val n gen u = true) ∧ (atOnce r v = true)) ∧
    (∃ (p : PortId) (hpa : BitVec 52) (tag : BitVec 16) (grant : Fin 3) (n : Nat) (page : Nat) (i : Nat) (dpa : Nat) (gen : Nat) (s : State), let u := portActivity p.val s; let r := lineReq 0 p.val tag.toNat n page i dpa (.read grant.val false) u; let v := xidTaken p.val u; (hostOpen p u = true) ∧ (hostHit u p.val hpa.toNat = some (.line n page i dpa gen)) ∧ (portPasses 0 p.val n gen u = true) ∧ (atOnce r v = true)) ∧
    (∃ (p : PortId) (hpa : BitVec 52) (tag : BitVec 16) (grant : Fin 3) (data : Line) (n : Nat) (page : Nat) (i : Nat) (dpa : Nat) (gen : Nat) (s : State), let u := portActivity p.val s; let r := lineReq 0 p.val tag.toNat n page i dpa (.write grant.val data (BitVec.allOnes 64)) u; let v := xidTaken p.val u; (hostOpen p u = true) ∧ (hostHit u p.val hpa.toNat = some (.line n page i dpa gen)) ∧ (portPasses 0 p.val n gen u = true) ∧ (atOnce r v = true)) ∧
    (∃ (p : PortId) (hpa : BitVec 52) (tag : BitVec 16) (grant : Fin 3) (data : Line) (mask : BitVec 64) (n : Nat) (page : Nat) (i : Nat) (dpa : Nat) (gen : Nat) (s : State), let u := portActivity p.val s; let r := lineReq 0 p.val tag.toNat n page i dpa (.write grant.val data mask) u; let v := xidTaken p.val u; (hostOpen p u = true) ∧ (hostHit u p.val hpa.toNat = some (.line n page i dpa gen)) ∧ (portPasses 0 p.val n gen u = true) ∧ (atOnce r v = true)) ∧
    (∃ (p : PortId) (hpa : BitVec 52) (tag : BitVec 16) (n : Nat) (page : Nat) (i : Nat) (dpa : Nat) (gen : Nat) (s : State), let u := portActivity p.val s; let r := lineReq 0 p.val tag.toNat n page i dpa (.evict) u; let v := xidTaken p.val u; (hostOpen p u = true) ∧ (hostHit u p.val hpa.toNat = some (.line n page i dpa gen)) ∧ (portPasses 0 p.val n gen u = true) ∧ (atOnce r v = true)) ∧
    (∃ (p : PortId) (hpa : BitVec 52) (s : State), let u := portActivity p.val s; (hostOpen p u = true) ∧ (hostHit u p.val hpa.toNat = some .miss)) ∧
    (∃ (p : PortId) (hpa : BitVec 52) (s : State), let u := portActivity p.val s; (hostOpen p u = true) ∧ (hostHit u p.val hpa.toNat = none)) ∧
    (∃ (p : PortId) (hpa : BitVec 52) (q : Nat) (s : State), let u := portActivity p.val s; (hostOpen p u = true) ∧ (hostHit u p.val hpa.toNat = some (.dsp q))) :=
  ⟨⟨17, 0x1040#52, 7#16, 2, 3, 1, 1, 0x1040, 0, stMem, by decide +kernel⟩,
   ⟨17, 0x1040#52, 7#16, 1, 3, 1, 1, 0x1040, 0, stMem, by decide +kernel⟩,
   ⟨17, 0x1040#52, 7#16, 0, 5#512, 3, 1, 1, 0x1040, 0, stMem, by decide +kernel⟩,
   ⟨17, 0x1040#52, 7#16, 0, 5#512, 3#64, 3, 1, 1, 0x1040, 0, stMem, by decide +kernel⟩,
   ⟨17, 0x1040#52, 7#16, 3, 1, 1, 0x1040, 0, stMem, by decide +kernel⟩,
   ⟨17, 0xFFFFFFFFFF#52, stMem, by decide +kernel⟩,
   ⟨17, 0x1040#52, modPortAt 17 (fun x => { x with hdmB := [] }) stMem, by decide +kernel⟩,
   ⟨17, 0x10000000040#52, 19, stMem, by decide +kernel⟩⟩

/-- What `AtomicsAndSnoopAnswersAct` supposes is met. -/
theorem witness_AtomicsAndSnoopAnswersAct :
    (∃ (p : PortId) (dpa : BitVec 47) (tag : BitVec 16) (size : BitVec 8) (operand : BitVec 128) (n : Nat) (page : Nat) (i : Nat) (a : Nat) (gen : Nat) (s : State), let u := portActivity p.val s; let r := lineReq 0 p.val tag.toNat n page i a (.atomic 0 (dpa.toNat % 64) size.toNat operand.toNat 0) u; let v := xidTaken p.val u; (portUp u p.val = true) ∧ (portRole u p.val = 1) ∧ (memoryClosed u p.val = false) ∧ (imeBound u p.val = true) ∧ (atomicSize 0 size.toNat = true) ∧ (dpa.toNat % size.toNat = 0) ∧ (dpaHit u p.val dpa.toNat = some (.line n page i a gen)) ∧ (a = dpa.toNat) ∧ (portPasses 0 p.val n gen u = true) ∧ (atOnce r v = true)) ∧
    (∃ (p : PortId) (dpa : BitVec 47) (tag : BitVec 16) (size : BitVec 8) (operand : BitVec 128) (n : Nat) (page : Nat) (i : Nat) (a : Nat) (gen : Nat) (s : State), let u := portActivity p.val s; let r := lineReq 0 p.val tag.toNat n page i a (.atomic 1 (dpa.toNat % 64) size.toNat operand.toNat 0) u; let v := xidTaken p.val u; (portUp u p.val = true) ∧ (portRole u p.val = 1) ∧ (memoryClosed u p.val = false) ∧ (imeBound u p.val = true) ∧ (atomicSize 1 size.toNat = true) ∧ (dpa.toNat % size.toNat = 0) ∧ (dpaHit u p.val dpa.toNat = some (.line n page i a gen)) ∧ (a = dpa.toNat) ∧ (portPasses 0 p.val n gen u = true) ∧ (atOnce r v = true)) ∧
    (∃ (p : PortId) (dpa : BitVec 47) (tag : BitVec 16) (size : BitVec 8) (operand : BitVec 128) (compare : BitVec 128) (n : Nat) (page : Nat) (i : Nat) (a : Nat) (gen : Nat) (s : State), let u := portActivity p.val s; let r := lineReq 0 p.val tag.toNat n page i a (.atomic 2 (dpa.toNat % 64) size.toNat operand.toNat compare.toNat) u; let v := xidTaken p.val u; (portUp u p.val = true) ∧ (portRole u p.val = 1) ∧ (memoryClosed u p.val = false) ∧ (imeBound u p.val = true) ∧ (atomicSize 2 size.toNat = true) ∧ (dpa.toNat % size.toNat = 0) ∧ (dpaHit u p.val dpa.toNat = some (.line n page i a gen)) ∧ (a = dpa.toNat) ∧ (portPasses 0 p.val n gen u = true) ∧ (atOnce r v = true)) ∧
    (∃ (p : PortId) (size : BitVec 8) (s : State), let u := portActivity p.val s; (portUp u p.val = true) ∧ (portRole u p.val = 1 ∨ portRole u p.val = 2) ∧ (memoryClosed u p.val = false) ∧ (atomicSize 0 size.toNat = false)) ∧
    (∃ (d : PortId) (len : BitVec 13) (v : Nat) (s : State), let u := portActivity d.val s; (portUp u d.val = true) ∧ (portRole u d.val = 2) ∧ (vcsOf u d.val = some v) ∧ (memoryClosed u d.val = false) ∧ (imeBound u v = true) ∧ (pnum u (P.DSP_P2P + 256 * d.val) = 1) ∧ (len ≠ 0#13)) ∧
    (∃ (d : PortId) (bytes : List Byte) (v : Nat) (s : State), let u := portActivity d.val s; (portUp u d.val = true) ∧ (portRole u d.val = 2) ∧ (vcsOf u d.val = some v) ∧ (memoryClosed u d.val = false) ∧ (imeBound u v = true) ∧ (pnum u (P.DSP_P2P + 256 * d.val) = 1) ∧ (bytes ≠ [])) ∧
    (∃ (p : PortId) (n : LodgeId) (page : BitVec 34) (line : Fin 64) (rsp : Fin 3) (x : Tx) (s : State), let u := portActivity p.val s; (portUp u p.val = true) ∧ (txOn u (homeSlice n.val page.toNat) (lineKey n.val page.toNat line.val) = some x) ∧ (x.left.contains p.val = true) ∧ (¬(x.op = 1 ∧ rsp.val = 2))) ∧
    (∃ (p : PortId) (n : LodgeId) (page : BitVec 34) (line : Fin 64) (s : State), let u := portActivity p.val s; (portUp u p.val = true) ∧ (txOn u (homeSlice n.val page.toNat) (lineKey n.val page.toNat line.val) = none)) ∧
    (∃ (p : PortId) (n : LodgeId) (page : BitVec 34) (line : Fin 64) (x : Tx) (s : State), let u := portActivity p.val s; (portUp u p.val = true) ∧ (txOn u (homeSlice n.val page.toNat) (lineKey n.val page.toNat line.val) = some x) ∧ (x.left.contains p.val = true)) ∧
    (∃ (p : PortId) (n : LodgeId) (page : BitVec 34) (line : Fin 64) (s : State), let u := portActivity p.val s; (portUp u p.val = true) ∧ (txOn u (homeSlice n.val page.toNat) (lineKey n.val page.toNat line.val) = none)) ∧
    (∃ (n : LodgeId) (page : BitVec 34) (line : Fin 64) (k : Nat) (l : LcLine) (s : State), (residentLine s n.val page.toNat line.val = some (k, l))) ∧
    (∃ (h : SliceId) (r : MemReq) (rest : List MemReq) (s : State), (smGet [] s.coh.stalled h.val = r :: rest) ∧ (pageLocked s r.n r.p = false) ∧ ((stalledTry h.val r s).2 = true)) ∧
    (∃ (h : SliceId) (q : HomeReq) (s : State), (homeReady s h.val = [q]) ∧ (unitServes s (372 + h.val / 16) = true)) :=
  ⟨⟨17, 0x1048#47, 7#16, 8#8, 9#128, 3, 1, 1, 0x1048, 0, stMem, by decide +kernel⟩,
   ⟨17, 0x1048#47, 7#16, 8#8, 9#128, 3, 1, 1, 0x1048, 0, stMem, by decide +kernel⟩,
   ⟨17, 0x1048#47, 7#16, 8#8, 9#128, 0#128, 3, 1, 1, 0x1048, 0, stMem, by decide +kernel⟩,
   ⟨17, 16#8, stMem, by decide +kernel⟩,
   ⟨19, 64#13, 17, stMemP2p, by decide +kernel⟩,
   ⟨19, [1], 17, stMemP2p, by decide +kernel⟩,
   ⟨17, 3, 1#34, 1, 0, stTxMem, stMemSnoop, by decide +kernel⟩,
   ⟨17, 3, 1#34, 1, stMem, by decide +kernel⟩,
   ⟨17, 3, 1#34, 1, stTxMem, stMemSnoop, by decide +kernel⟩,
   ⟨17, 3, 1#34, 1, stMem, by decide +kernel⟩,
   ⟨3, 1#34, 1, lcSet 3 1 1 + 15, stResLine, stResident, by decide +kernel⟩,
   ⟨⟨homeSlice 3 1, by decide⟩, { stReqMem with snooped := true }, [], stStalled, by decide +kernel⟩,
   ⟨⟨homeSlice 3 1, by decide⟩, { req := stReqMem, place := 0 }, stHomeQ, by decide +kernel⟩⟩

/-- What `TransfersAct` supposes is met. -/
theorem witness_TransfersAct :
    (∃ (p : PortId) (cls : Fin 8) (x : Xmit) (res : Bool) (s : State), (nextAdmitted s p.val cls.val = some (x, res))) ∧
    (∃ (p : PortId) (cls : Fin 8) (x : Xmit) (s : State), ((storedOf s (p.val / 16)).find? (fun y => y.inQueue p.val cls.val) = some x) ∧ ((portAt s p.val).link = .up) ∧ (rawRate s p.val ≠ 0) ∧ ((portAt s p.val).busyTo ≤ dieTime s (p.val / 16)) ∧ (shapeRate s p.val cls.val = 0) ∧ (x.lat = none) ∧ (x.spoiled = false) ∧ (x.msg.fanCount = none)) ∧
    (∃ (p : PortId) (cls : Fin 8) (x : Xmit) (s : State), ((storedOf s (p.val / 16)).find? (fun y => y.inQueue p.val cls.val) = some x) ∧ ((portAt s p.val).link = .up) ∧ (rawRate s p.val ≠ 0) ∧ ((portAt s p.val).busyTo ≤ dieTime s (p.val / 16)) ∧ (shapeRate s p.val cls.val ≠ 0) ∧ (0 ≤ creditNow s p.val cls.val true) ∧ (x.lat = none) ∧ (x.spoiled = false) ∧ (x.msg.fanCount = none)) ∧
    (∃ (v : PortId) (src : PortId) (s : State), (vcsOf s src.val = some v.val)) ∧
    (∃ (src : PortId) (dst : PortId) (kind : Fin 5) (v : Nat) (s : State), let u := portActivity src.val s; (vcsOf u src.val = some v) ∧ (vcsOf u dst.val = some v) ∧ (portRole u src.val ≠ portRole u dst.val) ∧ (portUp u dst.val = true) ∧ (kind.val < 2)) ∧
    (∃ (src : PortId) (dst : PortId) (kind : Fin 5) (v : Nat) (s : State), let u := portActivity src.val s; (vcsOf u src.val = some v) ∧ (vcsOf u dst.val = some v) ∧ (portRole u src.val ≠ portRole u dst.val) ∧ (portUp u dst.val = true) ∧ (2 ≤ kind.val)) ∧
    (∃ (src : PortId) (dst : PortId) (v : Nat) (s : State), let u := portActivity src.val s; (vcsOf u src.val = some v) ∧ (vcsOf u dst.val = some v) ∧ (portRole u src.val = 1 ∨ portRole u dst.val = 1) ∧ (portUp u dst.val = true)) ∧
    (∃ (src : PortId) (dst : PortId) (v : Nat) (s : State), let u := portActivity src.val s; (vcsOf u src.val = some v) ∧ (vcsOf u dst.val = some v) ∧ (portRole u src.val = 1 ∨ portRole u dst.val = 1) ∧ (portUp u dst.val = true)) ∧
    (∃ (p : PortId) (k : Fin 10) (ways : Fin 16) (gran : Fin 16) (s : State), (portRole s p.val = 1) ∧ (portUp s p.val = true) ∧ (ways.val ≤ (if k.val < 8 then 3 else 4)) ∧ (gran.val ≤ 6)) ∧
    (∃ (p : PortId) (k : Fin 10) (ways : Fin 16) (gran : Fin 16) (s : State), (portRole s p.val = 1) ∧ (portUp s p.val = true) ∧ (ways.val ≤ (if k.val < 8 then 3 else 4)) ∧ (gran.val ≤ 6)) :=
  ⟨⟨17, 6, stXmit, true, stWaiting, by decide +kernel⟩,
   ⟨17, 6, stXmit, stStored, by decide +kernel⟩,
   ⟨17, 6, stXmit, stShaped, by decide +kernel⟩,
   ⟨17, 17, stPorts, by decide +kernel⟩,
   ⟨17, 19, 0, 17, stPorts, by decide +kernel⟩,
   ⟨19, 17, 3, 17, stPorts, by decide +kernel⟩,
   ⟨17, 19, 17, stPorts, by decide +kernel⟩,
   ⟨17, 19, 17, stPorts, by decide +kernel⟩,
   ⟨17, 7, 3, 6, stPorts, by decide +kernel⟩,
   ⟨17, 8, 4, 6, stPorts, by decide +kernel⟩⟩

/-- What `RegulationAct` supposes is met. -/
theorem witness_RegulationAct :
    (∃ (l : LinkDie) (m : MemDie) (v : Nat) (s : State), (smGet [] s.reg.samples (4 * l.val + m.val) ≠ []) ∧ (routeVia s l.val (4 + m.val) = v) ∧ (v < 48) ∧ (available (ClDir.of (linkAt s (v / 2)) (v % 2 == 1)) 10 ≠ 0)) ∧
    (∃ (l : LinkDie) (m : MemDie) (v : Nat) (s : State), (smGet [] s.reg.samples (4 * l.val + m.val) ≠ []) ∧ (routeVia s l.val (4 + m.val) = v) ∧ (48 ≤ v ∨ available (ClDir.of (linkAt s (v / 2)) (v % 2 == 1)) 10 = 0)) ∧
    (∃ (l : LinkDie) (m : MemDie) (v : Nat) (s : State), (smGet [] s.reg.samples (4 * l.val + m.val) ≠ []) ∧ (routeVia s l.val (4 + m.val) = v) ∧ (48 ≤ v ∨ available (ClDir.of (linkAt s (v / 2)) (v % 2 == 1)) 10 = 0)) ∧
    (∃ (m : MemDie) (q : Nat × List Sample) (rest : List (Nat × List Sample)) (s : State), (smGet [] s.reg.flights m.val = q :: rest)) ∧
    (∃ (d : DieId) (x : Nat × Nat × Nat) (s : State), (s.reg.mirrorMsgs.find? (fun y => y.1 == d.val) = some x)) ∧
    (∃ (s : State), (s.reg.holding = true) ∧ (scaleDue s.reg.scale s.reg.notified = true)) ∧
    (∃ (kind : Fin 16) (s : State), ((smGet ({} : AlertHold) s.unit.holds kind.val).held = true) ∧ ((smGet ({} : AlertHold) s.unit.holds kind.val).since ≠ 0)) ∧
    (∃ (kind : Fin 16) (s : State), ((smGet ({} : AlertHold) s.unit.holds kind.val).held = true) ∧ ((smGet ({} : AlertHold) s.unit.holds kind.val).since = 0)) :=
  ⟨⟨1, 3, routeVia stSamples 1 7, stSamples, by decide +kernel⟩,
   ⟨1, 3, routeVia stNoCredit 1 7, stNoCredit, by decide +kernel⟩,
   ⟨1, 2, 48, modReg (fun r => { r with samples := [(6, [⟨7, 100, 0⟩])] }) State.reset, by decide +kernel⟩,
   ⟨3, (7, [⟨7, 100, 0⟩]), [], stFlight, by decide +kernel⟩,
   ⟨7, (7, 5, 15), stMirror, by decide +kernel⟩,
   ⟨modReg (fun r => { r with holding := true, scale := 32768 }) stReady, by decide +kernel⟩,
   ⟨13, modUnit (fun u => { u with holds := [(13, { held := true, since := 4, seq := 9 })] }) stReady, by decide +kernel⟩,
   ⟨13, modUnit (fun u => { u with holds := [(13, { held := true })] }) stReady, by decide +kernel⟩⟩

/-- What `ChannelsAct` supposes is met. -/
theorem witness_ChannelsAct :
    (∃ (c : ChanId) (s : State), ((chanAt s c.val).state = .training) ∧ (branchLive s (c.val / 2) = true)) ∧
    (∃ (c : ChanId) (spd : Option (BitVec 2)) (ok : Bool) (s : State), ((chanAt s c.val).state = .training) ∧ (branchLive s (c.val / 2) = true) ∧ (spd = none ∨ ok = false)) ∧
    (∃ (c : ChanId) (spd : Option (BitVec 2)) (ok : Bool) (s : State), ((chanAt s c.val).state = .training) ∧ (branchLive s (c.val / 2) = true) ∧ (spd = none ∨ ok = false)) ∧
    (∃ (c : ChanId) (r : Nat) (s : State), ((chanAt s c.val).state = .active) ∧ ((chanAt s c.val).alertN = false) ∧ (lateRank s c.val = some r)) ∧
    (∃ (c : ChanId) (q : Nat × Nat) (rest : List (Nat × Nat)) (s : State), ((chanAt s c.val).state = .active) ∧ ((chanAt s c.val).alertN = false) ∧ (lateRank s c.val = none) ∧ ((chanAt s c.val).mitigate = q :: rest)) ∧
    (∃ (c : ChanId) (r : Nat) (s : State), ((chanAt s c.val).state = .active) ∧ ((chanAt s c.val).alertN = false) ∧ (lateRank s c.val = none) ∧ ((chanAt s c.val).mitigate = []) ∧ (idleRank s c.val = some r)) ∧
    (∃ (c : ChanId) (barred : BitVec 128) (r : ReadEntry) (s : State), ((chanAt s c.val).state = .active) ∧ ((chanAt s c.val).alertN = false) ∧ (lateRank s c.val = none) ∧ ((chanAt s c.val).mitigate = []) ∧ (idleRank s c.val = none) ∧ ((chanAt s c.val).bursting = false) ∧ (subQueued s c.val 0 ≤ 48) ∧ (subQueued s c.val 1 ≤ 48) ∧ ((((chanAt s c.val).reads.zipIdx.filter fun (q : ReadEntry × Nat) => !barred.getLsbD q.2).map fun (q : ReadEntry × Nat) => q.1) ≠ []) ∧ (readPick (modChan c.val (fun y => { y with bursting := false }) s) c.val (((chanAt s c.val).reads.zipIdx.filter fun (q : ReadEntry × Nat) => !barred.getLsbD q.2).map fun (q : ReadEntry × Nat) => q.1) = some r)) ∧
    (∃ (c : ChanId) (barred : BitVec 128) (s : State), ((chanAt s c.val).state = .active) ∧ ((chanAt s c.val).alertN = false) ∧ (lateRank s c.val = none) ∧ ((chanAt s c.val).mitigate = []) ∧ (idleRank s c.val = none) ∧ ((chanAt s c.val).bursting = true ∨ (((chanAt s c.val).reads.zipIdx.filter fun (q : ReadEntry × Nat) => !barred.getLsbD q.2).map fun (q : ReadEntry × Nat) => q.1) = [])) ∧
    (∃ (c : ChanId) (rank : Fin 8) (postpone : Bool) (s : State), ((chanAt s c.val).state = .active) ∧ ((chanRanks s c.val).contains rank.val = true) ∧ ((postpone && decide (smGet 0 (chanAt s c.val).owed rank.val < chanP s c.val P.CH_REF_POSTPONE) && (chanAt s c.val).reads.any fun r => rankOf (lineBank s c.val r.frame r.line).1 == rank.val) = true)) ∧
    (∃ (c : ChanId) (rank : Fin 8) (postpone : Bool) (s : State), ((chanAt s c.val).state = .active) ∧ ((chanAt s c.val).alertN = false) ∧ ((chanRanks s c.val).contains rank.val = true) ∧ ((postpone && decide (smGet 0 (chanAt s c.val).owed rank.val < chanP s c.val P.CH_REF_POSTPONE) && (chanAt s c.val).reads.any fun r => rankOf (lineBank s c.val r.frame r.line).1 == rank.val) = false)) ∧
    (∃ (c : ChanId) (rank : Fin 8) (postpone : Bool) (s : State), ((chanAt s c.val).state = .active) ∧ ((chanAt s c.val).alertN = false) ∧ ((chanRanks s c.val).contains rank.val = true) ∧ ((postpone && decide (smGet 0 (chanAt s c.val).owed rank.val < chanP s c.val P.CH_REF_POSTPONE) && (chanAt s c.val).reads.any fun r => rankOf (lineBank s c.val r.frame r.line).1 == rank.val) = false)) ∧
    (∃ (c : ChanId) (s : State), ((chanAt s c.val).state = .active ∨ (chanAt s c.val).state = .selfRefresh)) ∧
    (∃ (c : ChanId) (s : State), ((chanAt s c.val).state = .active)) ∧
    (∃ (c : ChanId) (s : State), ((chanAt s c.val).state = .active)) ∧
    (∃ (c : ChanId) (s : State), ((chanAt s c.val).state = .active)) ∧
    (∃ (c : ChanId) (s : State), ((chanAt s c.val).alertN = true)) ∧
    (∃ (d : MemDie) (f : BitVec 30) (i : Fin 64) (agent : Fin 6) (err : BitVec 640) (l : RawLine) (bits : Nat) (s : State), let s0 := dramRead d.val f.toNat i.val ((lineOwner s d.val f.toNat i.val).elim 0 fun q => agentLabel s agent.val q.1) (match lineOwner s d.val f.toNat i.val with | some (n, p) => (match descAt s n p with | some x => if x.state = .plain ∧ x.loc = f.toNat then mergeSettle n p i.val x s else s | none => s) | none => s); (f.toNat % 2 ^ 28 < 2 * chanBytes s (chanOf d.val f.toNat i.val) / 4096) ∧ (regionPermits s (chanOf d.val f.toNat i.val) (agentClass agent.val) false (f.toNat % 2 ^ 28) = true) ∧ (chanDead s0 (chanOf d.val f.toNat i.val) = false) ∧ (decodeLine (storedLine s0 d.val f.toNat i.val) (placeLine f.toNat i.val).2 err = .good l 0 bits) ∧ (l.bytes = (storedLine s0 d.val f.toNat i.val).bytes ∨ metaLine s0 d.val f.toNat i.val = none)) ∧
    (∃ (d : MemDie) (f : BitVec 30) (i : Fin 64) (agent : Fin 6) (err : BitVec 640) (l : RawLine) (words : Nat) (bits : Nat) (s : State), let s0 := dramRead d.val f.toNat i.val ((lineOwner s d.val f.toNat i.val).elim 0 fun q => agentLabel s agent.val q.1) (match lineOwner s d.val f.toNat i.val with | some (n, p) => (match descAt s n p with | some x => if x.state = .plain ∧ x.loc = f.toNat then mergeSettle n p i.val x s else s | none => s) | none => s); (f.toNat % 2 ^ 28 < 2 * chanBytes s (chanOf d.val f.toNat i.val) / 4096) ∧ (regionPermits s (chanOf d.val f.toNat i.val) (agentClass agent.val) false (f.toNat % 2 ^ 28) = true) ∧ (chanDead s0 (chanOf d.val f.toNat i.val) = false) ∧ (decodeLine (storedLine s0 d.val f.toNat i.val) (placeLine f.toNat i.val).2 err = .good l words bits) ∧ (words ≠ 0) ∧ (l.bytes = (storedLine s0 d.val f.toNat i.val).bytes ∨ metaLine s0 d.val f.toNat i.val = none)) ∧
    (∃ (d : MemDie) (f : BitVec 30) (i : Fin 64) (agent : Fin 6) (err : BitVec 640) (words : Nat) (s : State), let s0 := dramRead d.val f.toNat i.val ((lineOwner s d.val f.toNat i.val).elim 0 fun q => agentLabel s agent.val q.1) (match lineOwner s d.val f.toNat i.val with | some (n, p) => (match descAt s n p with | some x => if x.state = .plain ∧ x.loc = f.toNat then mergeSettle n p i.val x s else s | none => s) | none => s); (f.toNat % 2 ^ 28 < 2 * chanBytes s (chanOf d.val f.toNat i.val) / 4096) ∧ (regionPermits s (chanOf d.val f.toNat i.val) (agentClass agent.val) false (f.toNat % 2 ^ 28) = true) ∧ (chanDead s0 (chanOf d.val f.toNat i.val) = false) ∧ (decodeLine (storedLine s0 d.val f.toNat i.val) (placeLine f.toNat i.val).2 err = .bad words)) ∧
    (∃ (c : ChanId) (e : MergeEntry) (rest : List MergeEntry) (s : State), ((chanAt s c.val).merge = e :: rest)) ∧
    (∃ (c : ChanId) (s : State), let q := lineAt (c.val % 8) (chanAt s c.val).scrub; ((chanAt s c.val).state = .active) ∧ ((wingAt s (c.val / 2)).state = .openW ∨ (wingAt s (c.val / 2)).state = .draining) ∧ (chanBytes s c.val / 64 ≠ 0) ∧ ((chanAt s c.val).alertN = false) ∧ (paceOpen s (c.val / 8) = true) ∧ ((wingAt s (c.val / 2)).reopened = none) ∧ (scrubHeld s (c.val / 8) q.1 q.2 = none)) ∧
    (∃ (c : ChanId) (e : WEntry) (s : State), ((chanAt s c.val).alertN = false) ∧ (writePick s c.val (chanAt s c.val).writes = some e)) ∧
    (∃ (d : MemDie) (l : LcLine) (s : State), (s.tier.evicted.find? (fun x => homeDie x.lodging x.page == d.val) = some l)) ∧
    (∃ (d : MemDie) (m : Fin 262144) (h : Fin 2) (level : Fin 6) (k : Fin 16807) (r : SlotRec) (s : State), let s1 := pathFetch d.val m.val h.val level.val k.val s; (smFind s.lod.slots m.val = some r) ∧ (s.prot.dirty.contains (nodeId d.val m.val h.val level.val k.val) = true) ∧ (r.isSealed = true) ∧ (unitServes s (372 + d.val) = true) ∧ (s1.prot.dirty.contains (nodeId d.val m.val h.val level.val k.val) = true) ∧ (parentCounter s1 d.val m.val h.val level.val k.val < 2 ^ 64 - 2)) :=
  ⟨⟨16, stTraining, by decide +kernel⟩,
   ⟨16, some 0#2, false, stTraining, by decide +kernel⟩,
   ⟨16, none, true, stTraining, by decide +kernel⟩,
   ⟨16, 0, stOwed, by decide +kernel⟩,
   ⟨16, (5, 7), [], stMitigate, by decide +kernel⟩,
   ⟨16, 0, modChan 16 (fun x => { x with owed := [(0, 1)] }) stDram, by decide +kernel⟩,
   ⟨16, 2#128, ⟨5, 1, 0, 0⟩, stReadQ, by decide +kernel⟩,
   ⟨16, 3#128, stWriteQ, by decide +kernel⟩,
   ⟨16, 0, true, stReadQ, by decide +kernel⟩,
   ⟨16, 0, false, stReadQ, by decide +kernel⟩,
   ⟨16, 0, true, stDram, by decide +kernel⟩,
   ⟨16, stDram, by decide +kernel⟩,
   ⟨16, stDram, by decide +kernel⟩,
   ⟨16, (fun t : State => { t with time := 32000000 }) (modChan 16 (fun x => { x with blind := [(3, 0)] }) stDram), by decide +kernel⟩,
   ⟨16, stDram, by decide +kernel⟩,
   ⟨16, modChan 16 (fun x => { x with alertN := true }) stDram, by decide +kernel⟩,
   ⟨2, 5#30, 3, 0, 0#640, ⟨0#512, false, false⟩, 0, stMemRead, by decide +kernel⟩,
   ⟨2, 5#30, 3, 0, 1#640, ⟨0#512, false, false⟩, 1, 1, stMemRead, by decide +kernel⟩,
   ⟨2, 5#30, 3, 0, 0xFFFFFFFF00000000#640, 1, stMemRead, by decide +kernel⟩,
   ⟨16, ⟨3, 1, 1, 5#512, 1#64, 0⟩, [], stMerge, by decide +kernel⟩,
   ⟨16, stMemRead, by decide +kernel⟩,
   ⟨16, ⟨5, 1, .raw 1#512 false false, 0, false⟩, stWriteQ, by decide +kernel⟩,
   ⟨⟨homeDie 3 1, by decide⟩, stResLine, modTier (fun t => { t with evicted := [stResLine] }) stMem, by decide +kernel⟩,
   ⟨2, 0, 1, 5, 0, ⟨3, 0, true, [0]⟩, stSealedTree, by decide +kernel⟩⟩

/-- What `SpaceEventsAct` supposes is met. -/
theorem witness_SpaceEventsAct :
    (∃ (d : Nat) (l : List (Nat × Nat)) (x : Nat) (s : State), let s1 := forAll (s.space.uses.filter fun (u : Nat × Use) => u.1 / 2 ^ 30 == d && retiring s d (u.1 % 2 ^ 30) u.2.len) (regionMove d) s; (s.space.retireJob = some (d, l, x)) ∧ (l.any (stretchHeld s1 d) = false)) ∧
    (∃ (w : WingId) (b : BlankItem) (rest : List BlankItem) (s : State), (smGet [] s.space.blankQ w.val = b :: rest)) ∧
    (∃ (w : WingId) (k : BitVec 29) (s : State), (smGet 0 s.space.passed w.val < min k.toNat (wingFrames s w.val))) ∧
    (∃ (d : MemDie) (f : Nat) (n : Nat) (p : Nat) (x : Desc) (s : State), let s0 := modSpace (fun x => { x with search := smMod [] x.search d.val (List.drop 256) }) s; let t1 := forAll (markedLines s0 d.val f) (fun i u => flushLine d.val f i u) s0; let r := notePage 2 n p (setDesc n p { x with poison := true } t1); (smGet [] s.space.search d.val = [f]) ∧ (markedLines t1 d.val f ≠ []) ∧ (((below 64).filterMap fun i => lineOwner t1 d.val f i).eraseDups = [(n, p)]) ∧ (descAt t1 n p = some x) ∧ (x.state = .plain) ∧ (∀ w ∈ dieWings d.val, wingFaulted r w = false)) ∧
    (∃ (s : State), (s.ps.state ≠ .night) ∧ (s.ps.state ≠ .off)) ∧
    (∃ (d : MemDie) (s : State), (asksReleases (smGet 0 s.lod.stage d.val) = true)) :=
  ⟨⟨0, [(5, 1)], frameEntry 0 5, stRetiring, by decide +kernel⟩,
   ⟨0, .frames 5 1, [], stBlankQ, by decide +kernel⟩,
   ⟨0, 64#29, stDram, by decide +kernel⟩,
   ⟨⟨homeDie 3 1, by decide⟩, 5, 3, 1, (descAt stMem 3 1).getD {}, stMarked, by decide +kernel⟩,
   ⟨stMem, by decide +kernel⟩,
   ⟨2, modLod (fun l => { l with stage := [(2, 1)] }) stMem, by decide +kernel⟩⟩

/-- What `MoverAct` supposes is met. -/
theorem witness_MoverAct :
    (∃ (s : State), (s.ps.state ≠ .night) ∧ (s.ps.state ≠ .off)) ∧
    (∃ (d : MemDie) (c : Fin 32) (r : MoveReq) (x : Desc) (s : State), let s0 := modTier (fun t => { t with queue := smMod [] t.queue d.val (List.erase · r) }) s; ((smFind s.tier.moves (32 * d.val + c.val)).isSome = false) ∧ (moverOpen s d.val = true) ∧ (entryRuns s = false) ∧ (nextMove s d.val = some r) ∧ (moveFits s0 r = true) ∧ (r.kind ≠ .relocate) ∧ (descAt (settlePage r.n r.p s0) r.n r.p = some x)) ∧
    (∃ (d : MemDie) (c : Fin 32) (m : Move) (b : List Byte) (t1 : State) (s : State), (smFind s.tier.moves (32 * d.val + c.val) = some m) ∧ (m.state = .snapshot) ∧ (pageSnooped s m.req.n m.req.p = false) ∧ (paceOpen s ((32 * d.val + c.val) / 32) = true) ∧ (pageStopped s m.req.n m.req.p = false) ∧ (engineGone m s = false) ∧ (engineWaits m = false) ∧ (m.fired = false) ∧ (linesUnasked s m.req.n m.req.p = []) ∧ (m.pre.state ≠ .packed) ∧ (m.req.kind = .demote) ∧ (readPage 2 m.req.n m.req.p m.pre s = (some (b, []), t1))) ∧
    (∃ (d : MemDie) (c : Fin 32) (m : Move) (s : State), (smFind s.tier.moves (32 * d.val + c.val) = some m) ∧ (m.state = .snapshot) ∧ (pageSnooped s m.req.n m.req.p = false) ∧ (paceOpen s ((32 * d.val + c.val) / 32) = true) ∧ (pageStopped s m.req.n m.req.p = false) ∧ (engineGone m s = false) ∧ (engineWaits m = false) ∧ (m.fired = true) ∧ (m.pess = false)) ∧
    (∃ (d : MemDie) (c : Fin 32) (m : Move) (s : State), (smFind s.tier.moves (32 * d.val + c.val) = some m) ∧ (m.state = .encode) ∧ (m.req.kind = .relocate ∨ m.req.kind = .promote) ∧ (engineGone m s = false) ∧ (engineWaits m = false)) ∧
    (∃ (d : MemDie) (c : Fin 32) (m : Move) (s : State), (smFind s.tier.moves (32 * d.val + c.val) = some m) ∧ (m.state = .encode) ∧ (m.req.kind = .demote) ∧ (engineGone m s = false) ∧ (engineWaits m = false) ∧ (m.staged.all (fun (b : Byte) => b == 0#8) = true)) ∧
    (∃ (d : MemDie) (c : Fin 32) (m : Move) (s : State), (smFind s.tier.moves (32 * d.val + c.val) = some m) ∧ (m.state = .verify) ∧ (engineGone m s = false) ∧ (engineWaits m = false)) ∧
    (∃ (d : MemDie) (c : Fin 32) (m : Move) (s : State), (smFind s.tier.moves (32 * d.val + c.val) = some m) ∧ (m.state = .verify) ∧ (engineGone m s = false) ∧ (engineWaits m = false) ∧ (m.req.kind = .demote ∨ m.req.kind = .repack)) ∧
    (∃ (d : MemDie) (c : Fin 32) (m : Move) (s : State), (smFind s.tier.moves (32 * d.val + c.val) = some m) ∧ (m.state = .place) ∧ (paceOpen s ((32 * d.val + c.val) / 32) = true) ∧ (pageStopped s m.req.n m.req.p = false) ∧ (engineGone m s = false) ∧ (engineWaits m = false) ∧ (moveIsZero m = true)) ∧
    (∃ (d : MemDie) (c : Fin 32) (m : Move) (l : Nat) (s1 : State) (key : PageKeys) (s : State), (smFind s.tier.moves (32 * d.val + c.val) = some m) ∧ (m.state = .place) ∧ (paceOpen s ((32 * d.val + c.val) / 32) = true) ∧ (pageStopped s m.req.n m.req.p = false) ∧ (engineGone m s = false) ∧ (engineWaits m = false) ∧ (m.req.kind = .demote) ∧ (m.image ≠ []) ∧ (smGet 0 s.space.reserve ((32 * d.val + c.val) / 32) + moveBytes m ≤ 64 * 2 ^ 20) ∧ (allocRun ((32 * d.val + c.val) / 32) m.req.n m.req.p (moveBytes m / 256) (moveSource m) s = some (l, s1)) ∧ (pageKeys s m.req.n m.req.p m.pre.phase = some key)) ∧
    (∃ (d : MemDie) (c : Fin 32) (m : Move) (x : Desc) (key : PageKeys) (s : State), (smFind s.tier.moves (32 * d.val + c.val) = some m) ∧ (m.state = .commit) ∧ (m.pess = false) ∧ (¬(m.req.kind = .demote ∧ atomicHeld s m.req.n m.req.p = true)) ∧ (m.fired = false) ∧ (pageLocked s m.req.n m.req.p = false) ∧ (s.tier.evicted.any (fun l => l.lodging == m.req.n && l.page == m.req.p) = false) ∧ (namesRetiring s m = false) ∧ (moveSpends s m x = false) ∧ (descAt s m.req.n m.req.p = some x) ∧ (pageKeys s m.req.n m.req.p m.pre.phase = some key)) ∧
    (∃ (d : MemDie) (c : Fin 32) (m : Move) (s : State), (smFind s.tier.moves (32 * d.val + c.val) = some m) ∧ (m.state = .commit) ∧ (m.pess = false) ∧ (pageLocked s m.req.n m.req.p = false) ∧ (m.fired = true)) :=
  ⟨⟨stRun, by decide +kernel⟩,
   ⟨⟨homeDie 3 1, by decide⟩, 31, ⟨.demote, 3, 1, 0⟩, { state := .plain, owner := 3, loc := 5, hasFrame := true }, modTier (fun t => { t with queue := [(homeDie 3 1, [⟨.demote, 3, 1, 0⟩])] }) stMem, by decide +kernel⟩,
   ⟨⟨homeDie 3 1, by decide⟩, 31, { req := ⟨.demote, 3, 1, 0⟩, state := .snapshot, pre := { state := .zero, owner := 3, loc := 5, hasFrame := true }, engine := some 224 }, List.replicate 4096 0#8, stMove ({ req := ⟨.demote, 3, 1, 0⟩, state := .snapshot, pre := { state := .zero, owner := 3, loc := 5, hasFrame := true }, engine := some 224 }), stMove ({ req := ⟨.demote, 3, 1, 0⟩, state := .snapshot, pre := { state := .zero, owner := 3, loc := 5, hasFrame := true }, engine := some 224 }), by decide +kernel⟩,
   ⟨⟨homeDie 3 1, by decide⟩, 31, { req := ⟨.demote, 3, 1, 0⟩, state := .snapshot, pre := { state := .plain, owner := 3, loc := 5, hasFrame := true }, fired := true, engine := some 224 }, stMove ({ req := ⟨.demote, 3, 1, 0⟩, state := .snapshot, pre := { state := .plain, owner := 3, loc := 5, hasFrame := true }, fired := true, engine := some 224 }), by decide +kernel⟩,
   ⟨⟨homeDie 3 1, by decide⟩, 31, { req := ⟨.promote, 3, 1, 0⟩, state := .encode, pre := { state := .packed, owner := 3, loc := 5, hasFrame := true }, engine := some 224 }, stMove ({ req := ⟨.promote, 3, 1, 0⟩, state := .encode, pre := { state := .packed, owner := 3, loc := 5, hasFrame := true }, engine := some 224 }), by decide +kernel⟩,
   ⟨⟨homeDie 3 1, by decide⟩, 31, { req := ⟨.demote, 3, 1, 0⟩, state := .encode, pre := { state := .plain, owner := 3, loc := 5, hasFrame := true }, engine := some 120 }, stMove ({ req := ⟨.demote, 3, 1, 0⟩, state := .encode, pre := { state := .plain, owner := 3, loc := 5, hasFrame := true }, engine := some 120 }), by decide +kernel⟩,
   ⟨⟨homeDie 3 1, by decide⟩, 31, { req := ⟨.demote, 3, 1, 0⟩, state := .verify, pre := { state := .plain, owner := 3, loc := 5, hasFrame := true }, engine := some 160 }, stMove ({ req := ⟨.demote, 3, 1, 0⟩, state := .verify, pre := { state := .plain, owner := 3, loc := 5, hasFrame := true }, engine := some 160 }), by decide +kernel⟩,
   ⟨⟨homeDie 3 1, by decide⟩, 31, { req := ⟨.demote, 3, 1, 0⟩, state := .verify, pre := { state := .plain, owner := 3, loc := 5, hasFrame := true }, engine := some 160 }, stMove ({ req := ⟨.demote, 3, 1, 0⟩, state := .verify, pre := { state := .plain, owner := 3, loc := 5, hasFrame := true }, engine := some 160 }), by decide +kernel⟩,
   ⟨⟨homeDie 3 1, by decide⟩, 31, { req := ⟨.demote, 3, 1, 0⟩, state := .place, pre := { state := .plain, owner := 3, loc := 5, hasFrame := true }, engine := some 224 }, stMove ({ req := ⟨.demote, 3, 1, 0⟩, state := .place, pre := { state := .plain, owner := 3, loc := 5, hasFrame := true }, engine := some 224 }), by decide +kernel⟩,
   by
      obtain ⟨key, hk⟩ := Option.isSome_iff_exists.1 (show (pageKeys stPlacing 3 1 false).isSome = true by decide +kernel)
      obtain ⟨q, hq⟩ := place_run ((32 * (1 : MemDie).val + (31 : Fin 32).val) / 32) (moveBytes { req := ⟨.demote, 3, 1, 0⟩, state := .place, pre := { state := .plain, owner := 3, loc := 5, hasFrame := true }, image := List.replicate 9 1#8, engine := some 224 } / 256) (by decide +kernel) (by decide +kernel)
      exact ⟨1, 31, { req := ⟨.demote, 3, 1, 0⟩, state := .place, pre := { state := .plain, owner := 3, loc := 5, hasFrame := true }, image := List.replicate 9 1#8, engine := some 224 }, q.1, q.2, key, stPlacing, by decide +kernel, by decide +kernel, by decide +kernel, by decide +kernel, by decide +kernel, by decide +kernel, by decide +kernel, by decide +kernel, by decide +kernel, hq, hk⟩,
   by
      obtain ⟨key, hk⟩ := Option.isSome_iff_exists.1 (show (pageKeys stMem 3 1 false).isSome = true by decide +kernel)
      exact ⟨1, 31, { req := ⟨.demote, 3, 1, 0⟩, state := .commit, pre := { state := .plain, owner := 3, loc := 5, hasFrame := true } }, (descAt stMem 3 1).getD {}, key, stMove ({ req := ⟨.demote, 3, 1, 0⟩, state := .commit, pre := { state := .plain, owner := 3, loc := 5, hasFrame := true } }), by decide +kernel, by decide +kernel, by decide +kernel, by decide +kernel, by decide +kernel, by decide +kernel, by decide +kernel, by decide +kernel, by decide +kernel, by decide +kernel, hk⟩,
   ⟨⟨homeDie 3 1, by decide⟩, 31, { req := ⟨.demote, 3, 1, 0⟩, state := .commit, pre := { state := .plain, owner := 3, loc := 5, hasFrame := true }, fired := true }, stMove ({ req := ⟨.demote, 3, 1, 0⟩, state := .commit, pre := { state := .plain, owner := 3, loc := 5, hasFrame := true }, fired := true }), by decide +kernel⟩⟩

/-- What `WingsAndDictionariesAct` supposes is met. -/
theorem witness_WingsAndDictionariesAct :
    (∃ (w : WingId) (s : State), ((wingAt s w.val).state = .draining) ∧ (wingUsed s w.val = 0) ∧ (wingInFlight s w.val = false)) ∧
    (∃ (w : WingId) (s : State), ((wingAt s w.val).state = .empty)) ∧
    (∃ (w : WingId) (s : State), ((wingAt s w.val).state = .shuttering) ∧ ((branchAt s w.val).state = .off) ∧ ((wingAt s w.val).byCmd = true) ∧ ((wingAt s w.val).byUnit = none) ∧ ((wingAt s w.val).reopenWanted = false)) ∧
    (∃ (w : WingId) (s : State), ((wingAt s w.val).state = .reopening) ∧ ((chanAt s (2 * w.val)).state = .active) ∧ ((chanAt s (2 * w.val + 1)).state = .active) ∧ ((wingAt s w.val).reopenUnit = none)) ∧
    (∃ (d : MemDie) (w : Nat) (s : State), (((openFree s d.val * 100 : Nat) : Int) < pnum s P.TIER_REOPEN_MARK * usable s d.val) ∧ ((dieWings d.val).any (fun w => (wingAt s w).state == .draining || (wingAt s w).state == .empty) = false) ∧ ((dieWings d.val).any (fun w => (wingAt s w).state == .reopening) = false) ∧ ((dieWings d.val).any (fun w => (wingAt s w).state == .shuttering) = false) ∧ (reopenPick s d.val = some w)) ∧
    (∃ (s : State), (bitOf (pnum s P.TIER_ENABLE) 4 = false)) ∧
    (∃ (d : MemDie) (w : Nat) (s : State), let s1 := modTier (fun t => { t with sweep := smErase t.sweep d.val }) s; (bitOf (pnum s P.TIER_ENABLE) 4 = true) ∧ (smGet 0 s.lod.stage d.val = 0) ∧ ((dieWings d.val).any (wingMoving s) = false) ∧ (cmdPending s 0 P.WING_CMD = false) ∧ (shutterPick s1 d.val = some w)) ∧
    (∃ (d : MemDie) (w : Nat) (s : State), let s1 := modTier (fun t => { t with sweep := smErase t.sweep d.val }) s; (bitOf (pnum s P.TIER_ENABLE) 4 = true) ∧ (smGet 0 s.lod.stage d.val = 0) ∧ ((dieWings d.val).any (wingMoving s) = false) ∧ (cmdPending s 0 P.WING_CMD = true) ∧ (shutterPick s1 d.val = some w)) ∧
    (∃ (d : MemDie) (x : DictId) (y : StoreSlot) (s : State), ((dictAt s x.val).state = .installed ∨ (dictAt s x.val).state = .retiring) ∧ (storeSlot s d.val x.val = some y)) ∧
    (∃ (d : MemDie) (x : DictId) (bad : BitVec 4) (b : List Byte) (s : State), ((dictAt s x.val).state = .installed ∨ (dictAt s x.val).state = .retiring) ∧ (storeSlot s d.val x.val = none) ∧ (bad.toNat.testBit d.val = false) ∧ (dictContent s d.val x.val = some b)) ∧
    (∃ (d : MemDie) (x : DictId) (bad : BitVec 4) (e : Nat) (b : List Byte) (c : List Byte) (s : State), ((dictAt s x.val).state = .installed ∨ (dictAt s x.val).state = .retiring) ∧ (storeSlot s d.val x.val = none) ∧ (bad.toNat.testBit d.val = true ∨ dictContent s d.val x.val = none) ∧ ((dieOrder d.val).findSome? (fun e => if bad.toNat.testBit e then none else (dictContent s e x.val).map fun b => (e, b)) = some (e, b)) ∧ (dictCopy s e x.val = some c)) ∧
    (∃ (d : MemDie) (x : DictId) (bad : BitVec 4) (s : State), ((dictAt s x.val).state = .installed ∨ (dictAt s x.val).state = .retiring) ∧ (storeSlot s d.val x.val = none) ∧ (∀ e : MemDie, bad.toNat.testBit e.val = true ∨ dictContent s e.val x.val = none)) ∧
    (∃ (x : DictId) (s : State), ((dictAt s x.val).state = .training) ∧ ((trainPages s (dictAt s x.val).owner).any (pageSnooped s (dictAt s x.val).owner) = false) ∧ ((trainPages s (dictAt s x.val).owner).any (fun p => linesUnasked s (dictAt s x.val).owner p != []) = false) ∧ ((trainRead (dictAt s x.val).owner (trainPages s (dictAt s x.val).owner) (useCompressor ((dictAt s x.val).owner % 4) s)).1 = [])) ∧
    (∃ (x : DictId) (g : List (List Byte) × State) (s : State), ((dictAt s x.val).state = .training) ∧ ((trainPages s (dictAt s x.val).owner).any (pageSnooped s (dictAt s x.val).owner) = false) ∧ ((trainPages s (dictAt s x.val).owner).any (fun p => linesUnasked s (dictAt s x.val).owner p != []) = false) ∧ (g = trainRead (dictAt s x.val).owner (trainPages s (dictAt s x.val).owner) (useCompressor ((dictAt s x.val).owner % 4) s)) ∧ (g.1 ≠ [])) ∧
    (∃ (x : DictId) (d : MemDie) (s : State), ((dictAt s x.val).state = .retiring) ∧ ((dictAt s x.val).left = [d.val]) ∧ (movesName s d.val x.val = false) ∧ ((dictAt s x.val).found + dictRefs s d.val x.val = 0)) ∧
    (∃ (x : DictId) (d : MemDie) (s : State), ((dictAt s x.val).state = .retiring) ∧ ((dictAt s x.val).left = [d.val]) ∧ (movesName s d.val x.val = false) ∧ ((dictAt s x.val).found + dictRefs s d.val x.val ≠ 0)) :=
  ⟨⟨9, stWingDraining, by decide +kernel⟩,
   ⟨9, modWingAt 9 (fun x => { x with state := .empty }) stWingDraining, by decide +kernel⟩,
   ⟨9, modWingAt 9 (fun _ => { state := .shuttering, byCmd := true }) stWings, by decide +kernel⟩,
   ⟨9, modWingAt 9 (fun _ => { state := .reopening, reopenByCmd := true }) stWings, by decide +kernel⟩,
   ⟨2, 9, stScarce, by decide +kernel⟩,
   ⟨withParams [(0, P.TIER_ENABLE, 0)] stWings, by decide +kernel⟩,
   ⟨2, 9, stSparse, by decide +kernel⟩,
   ⟨2, 9, modDict (fun x => { x with cmds := [(P.WING_CMD, ⟨1, 4, 0, 1⟩)] }) stSparse, by decide +kernel⟩,
   ⟨2, 7, ⟨7, []⟩, modComp (fun c => { c with store := [(2, [⟨7, []⟩])] }) stDicts, by decide +kernel⟩,
   ⟨1, 7, 0#4, dictBytes, stDictCopies, by decide +kernel, by decide +kernel, by decide +kernel, dictContent_copies _ _ rfl rfl⟩,
   ⟨2, 7, 5#4, 1, dictBytes, dramBytes stDictBase (dramAddress 1 1080 0) 32768, stDictCopies, by decide +kernel, by decide +kernel, by decide +kernel, dictOther_copies _ _ _ rfl rfl rfl, dictCopy_copies _ _ rfl rfl⟩,
   ⟨2, 7, 0xF#4, stDicts, by decide +kernel⟩,
   ⟨8, stDicts, by decide +kernel⟩,
   by
      exact ⟨8, trainRead 3 (trainPages stTrain 3) (useCompressor 3 stTrain), stTrain, by decide +kernel, by decide +kernel, by decide +kernel, rfl, by decide +kernel⟩,
   ⟨7, 2, stDictRetiring [], by decide +kernel⟩,
   ⟨7, 2, stDictRetiring [(2, 4)], by decide +kernel⟩⟩

/-- What `OffloadAct` supposes is met. -/
theorem witness_OffloadAct :
    (∃ (p : PortId) (q : QueueId) (v : BitVec 32) (s : State), let u := portActivity p.val s; (portUp u p.val = true) ∧ (queueP u q.val P.Q_PORT = p.val) ∧ ((queueAt u q.val).state = .enabled) ∧ (v.toNat % 4096 < queueP u q.val P.Q_SIZE) ∧ (outstanding (queueP u q.val P.Q_SIZE) (queueAt u q.val).sqTail (queueAt u q.val).cqHead + (v.toNat % 4096 + queueP u q.val P.Q_SIZE - (queueAt u q.val).sqTail) % queueP u q.val P.Q_SIZE < queueP u q.val P.Q_SIZE) ∧ (portUp s p.val = true) ∧ (queueP s q.val P.Q_PORT = p.val)) ∧
    (∃ (p : PortId) (q : QueueId) (s : State), (portUp s p.val = true) ∧ (queueP s q.val P.Q_PORT = p.val) ∧ ((queueAt s q.val).state = .enabled)) ∧
    (∃ (q : QueueId) (s : State), ((queueAt s q.val).state ≠ .disabled)) ∧
    (∃ (q : QueueId) (d : BitVec 512) (src : Option (List (BitVec 128))) (s : State), let listed := match src with | some l => listBytes l | none => 0; ((queueAt s q.val).state = .enabled) ∧ ((queueAt s q.val).sqHead ≠ (queueAt s q.val).sqTail) ∧ ((jobAt s q.val (queueAt s q.val).sqHead).isSome = false) ∧ (s.ps.state ≠ .entering) ∧ (portUp s (queueP s q.val P.Q_PORT) = true) ∧ (listWhole d src = true) ∧ (fetchFault s q.val d src = none) ∧ (jobCost d listed * 10 ^ 6 ≤ (queueAt s q.val).tokens)) ∧
    (∃ (q : QueueId) (d : BitVec 512) (src : Option (List (BitVec 128))) (e : Nat × Nat) (s : State), ((queueAt s q.val).state = .enabled) ∧ ((queueAt s q.val).sqHead ≠ (queueAt s q.val).sqTail) ∧ ((jobAt s q.val (queueAt s q.val).sqHead).isSome = false) ∧ (s.ps.state ≠ .entering) ∧ (portUp s (queueP s q.val P.Q_PORT) = true) ∧ (listWhole d src = true ∨ jobMalformed s q.val d ≠ none) ∧ (fetchFault s q.val d src = some e)) ∧
    (∃ (q : QueueId) (i : Fin 4096) (j : Job) (b : List Byte) (l : List (BitVec 128)) (s : State), (jobAt s q.val i.val = some j) ∧ (mayStart s j = true) ∧ (jobF j.desc 0 8 = 1) ∧ (engineThere (112 + 8 * (q.val % 4)) 8 s = true) ∧ (engineThere (144 + 16 * (q.val % 4)) 16 s = true) ∧ (ctxRefused s j = false) ∧ ((decide (jobF j.desc 8 4 = 0) && j.desc.getLsbD 19 && decide (4 ≤ jobF j.desc 12 4)) = false) ∧ (b.length = sourceLen j) ∧ (b.length < 2 ^ 32) ∧ (l.length = jobF j.desc 320 16) ∧ (listFault l = none)) ∧
    (∃ (q : QueueId) (i : Fin 4096) (j : Job) (b : List Byte) (l : List (BitVec 128)) (s : State), (jobAt s q.val i.val = some j) ∧ (mayStart s j = true) ∧ (jobF j.desc 0 8 = 2) ∧ ((if jobF j.desc 8 4 = 1 then 2 else 1) ≤ enginesServing (144 + 16 * (q.val % 4)) 16 s) ∧ (ctxRefused s j = false) ∧ (b.length = sourceLen j) ∧ (b.length < 2 ^ 32) ∧ (l.length = jobF j.desc 320 16) ∧ (listFault l = none)) ∧
    (∃ (q : QueueId) (i : Fin 4096) (j : Job) (l : List (BitVec 128)) (s : State), (jobAt s q.val i.val = some j) ∧ (mayStart s j = true) ∧ (jobF j.desc 0 8 = 3) ∧ (ctxRefused s j = false) ∧ (exportRefused s j j.stream = none) ∧ (l.length = jobF j.desc 320 16) ∧ (listFault l = none)) ∧
    (∃ (q : QueueId) (i : Fin 4096) (j : Job) (body : DictBody) (l : List (BitVec 128)) (s : State), let x := jobF j.desc 32 10; let s1 := storeLoad (q.val % 4) x 0 s; (jobAt s q.val i.val = some j) ∧ (mayStart s j = true) ∧ (jobF j.desc 0 8 = 4) ∧ (ctxRefused s j = false) ∧ (queueP s q.val P.Q_LODGING < 4096) ∧ (jobDictRefused s j (jobF j.desc 32 10) = false) ∧ (exportRefused s j j.stream = none) ∧ (dictFor s1 (q.val % 4) (queueP s q.val P.Q_LODGING) (jobF j.desc 32 10) = some body) ∧ (l.length = jobF j.desc 320 16) ∧ (listFault l = none)) ∧
    (∃ (q : QueueId) (i : Fin 4096) (j : Job) (c : SavedCtx) (a : List Byte) (l : List (BitVec 128)) (s : State), (jobAt s q.val i.val = some j) ∧ (mayStart s j = true) ∧ (jobF j.desc 0 8 = 5) ∧ (smFind s.job.ctxs (jobCtx j.desc) = some (some c)) ∧ (resumeRefused s j c.stream = none) ∧ (crc32c a = c.crc) ∧ (a.length = 131072) ∧ (c.stream.pieces = []) ∧ (l.length = jobF j.desc 320 16) ∧ (listFault l = none)) ∧
    (∃ (q : QueueId) (i : Fin 4096) (j : Job) (c : SavedCtx) (a : List Byte) (s : State), (jobAt s q.val i.val = some j) ∧ (mayStart s j = true) ∧ (jobF j.desc 0 8 = 5) ∧ (smFind s.job.ctxs (jobCtx j.desc) = some (some c)) ∧ (resumeRefused s j c.stream = none) ∧ (a.length ≠ 131072)) ∧
    (∃ (q : QueueId) (i : Fin 4096) (j : Job) (s : State), (jobAt s q.val i.val = some j) ∧ (mayStart s j = true) ∧ (jobF j.desc 0 8 = 6) ∧ (smFind s.job.ctxs (jobCtx j.desc) ≠ some none)) ∧
    (∃ (q : QueueId) (i : Fin 4096) (j : Job) (s : State), (jobAt s q.val i.val = some j) ∧ (mayStart s j = true) ∧ (jobF j.desc 0 8 = 6) ∧ (smFind s.job.ctxs (jobCtx j.desc) = some none)) ∧
    (∃ (q : QueueId) (i : Fin 4096) (page : BitVec 34) (j : Job) (t : Stream) (r : Piece) (s : State), (jobAt s q.val i.val = some j) ∧ (j.stream = some t) ∧ (t.op = 3) ∧ (j.ended = none) ∧ (t.next ≤ page.toNat) ∧ (page.toNat < t.next + t.left) ∧ ((smFind t.built page.toNat).isSome = false) ∧ ((smFind t.arrived page.toNat).isSome = false) ∧ (pageSnooped s t.lodging page.toNat = false) ∧ (sliceServing s (homeSlice t.lodging page.toNat) = true) ∧ (engineMissing s t.lodging page.toNat = false) ∧ (exportWaits s t.lodging page.toNat = false) ∧ (paceOpen s (homeDie t.lodging page.toNat) = true) ∧ (pageStopped s t.lodging page.toNat = false) ∧ (exportRefused s j j.stream = none) ∧ (linesAsked s t.lodging page.toNat = []) ∧ ((pageRecord t.lodging page.toNat t.level s).1 = some r)) ∧
    (∃ (q : QueueId) (i : Fin 4096) (page : BitVec 34) (j : Job) (t : Stream) (r : Piece) (s : State), let t1 := { t with built := smErase t.built page.toNat, arrived := smSet t.arrived page.toNat r }; (jobAt s q.val i.val = some j) ∧ (j.stream = some t) ∧ (smFind t.built page.toNat = some r) ∧ (j.ended = none) ∧ (exportRefused s j j.stream = none) ∧ ((placeRecords t1.arrived.length t1).pieces = [])) ∧
    (∃ (q : QueueId) (i : Fin 4096) (page : BitVec 34) (j : Job) (t : Stream) (r : Piece) (s : State), let t1 := { t with built := smErase t.built page.toNat, arrived := smSet t.arrived page.toNat r }; (jobAt s q.val i.val = some j) ∧ (j.stream = some t) ∧ (smFind t.built page.toNat = some r) ∧ (j.ended = none) ∧ (exportRefused s j j.stream = none) ∧ ((placeRecords t1.arrived.length t1).pieces ≠ [])) ∧
    (∃ (q : QueueId) (i : Fin 4096) (j : Job) (status : Nat) (detail : Nat) (s : State), let s3 := bumpQueue q.val (if status = 0 then 3 else if status = 0x2A then 5 else 4) (modJob (fun x => { x with jobs := x.jobs.filter fun k => !(k.queue == q.val && k.index == i.val) }) (jobNotify j (writeRecord j status detail 0 s))); (jobAt s q.val i.val = some j) ∧ (j.ended = some (status, detail)) ∧ (j.saved = false) ∧ (j.stream = none) ∧ ((queueAt s3 q.val).state ≠ .draining)) :=
  ⟨⟨17, 5, 3#32, stQueueOn, by decide +kernel⟩,
   ⟨17, 5, stQueueOn, by decide +kernel⟩,
   ⟨5, stQueueOn, by decide +kernel⟩,
   ⟨5, (BitVec.ofNat 512 (1 + 1 * 2 ^ 320 + 3 * 2 ^ 192)), none, stQueueWork, by decide +kernel⟩,
   ⟨5, 7#512, none, (6, 1), stQueueWork, by decide +kernel⟩,
   ⟨5, 2, { queue := 5, index := 2, phase := true, desc := (BitVec.ofNat 512 (1 + 1 * 2 ^ 320 + 3 * 2 ^ 192)) }, [1, 2, 3], [BitVec.ofNat 128 (0x1000 + 256 * 2 ^ 64)], stJob ({ queue := 5, index := 2, phase := true, desc := (BitVec.ofNat 512 (1 + 1 * 2 ^ 320 + 3 * 2 ^ 192)) }), by decide +kernel⟩,
   ⟨5, 2, { queue := 5, index := 2, phase := true, desc := (BitVec.ofNat 512 (2 + 1 * 2 ^ 320 + 3 * 2 ^ 192)) }, [1, 2, 3], [BitVec.ofNat 128 (0x1000 + 256 * 2 ^ 64)], stJob ({ queue := 5, index := 2, phase := true, desc := (BitVec.ofNat 512 (2 + 1 * 2 ^ 320 + 3 * 2 ^ 192)) }), by decide +kernel⟩,
   ⟨5, 2, { queue := 5, index := 2, phase := true, desc := (BitVec.ofNat 512 (3 + 1 * 2 ^ 320 + 1 * 2 ^ 192)) }, [BitVec.ofNat 128 (0x1000 + 256 * 2 ^ 64)], stJob ({ queue := 5, index := 2, phase := true, desc := (BitVec.ofNat 512 (3 + 1 * 2 ^ 320 + 1 * 2 ^ 192)) }), by decide +kernel⟩,
   ⟨5, 2, { queue := 5, index := 2, phase := true, desc := (BitVec.ofNat 512 (4 + 1 * 2 ^ 320 + 7 * 2 ^ 32)) }, ⟨dictBytes, []⟩, [BitVec.ofNat 128 (0x1000 + 256 * 2 ^ 64)], stDictJob, by decide +kernel, by decide +kernel, by decide +kernel, by decide +kernel, by decide +kernel, by decide +kernel, by decide +kernel, dictJob_dict _ _ (by decide +kernel) (by decide +kernel), by decide +kernel, by decide +kernel⟩,
   ⟨5, 2, { queue := 5, index := 2, phase := true, desc := (BitVec.ofNat 512 (5 + 1 * 2 ^ 320 + 1 * 2 ^ 62)) }, stSaved, List.replicate 131072 0#8, [BitVec.ofNat 128 (0x1000 + 256 * 2 ^ 64)], stJob ({ queue := 5, index := 2, phase := true, desc := (BitVec.ofNat 512 (5 + 1 * 2 ^ 320 + 1 * 2 ^ 62)) }), by decide +kernel, by decide +kernel, by decide +kernel, stJob_ctx _ _ (by decide +kernel), by decide +kernel, stSaved_crc, List.length_replicate, rfl, by decide +kernel, by decide +kernel⟩,
   ⟨5, 2, { queue := 5, index := 2, phase := true, desc := (BitVec.ofNat 512 (5 + 1 * 2 ^ 320 + 1 * 2 ^ 62)) }, stSaved, [], stJob ({ queue := 5, index := 2, phase := true, desc := (BitVec.ofNat 512 (5 + 1 * 2 ^ 320 + 1 * 2 ^ 62)) }), by decide +kernel, by decide +kernel, by decide +kernel, stJob_ctx _ _ (by decide +kernel), by decide +kernel, by decide +kernel⟩,
   ⟨5, 2, { queue := 5, index := 2, phase := true, desc := (BitVec.ofNat 512 (6 + 1 * 2 ^ 320 + 1 * 2 ^ 62)) }, stJob ({ queue := 5, index := 2, phase := true, desc := (BitVec.ofNat 512 (6 + 1 * 2 ^ 320 + 1 * 2 ^ 62)) }), by decide +kernel⟩,
   ⟨5, 2, { queue := 5, index := 2, phase := true, desc := (BitVec.ofNat 512 (6 + 1 * 2 ^ 320 + 1 * 2 ^ 62 + 1 * 2 ^ 48)) }, stJob ({ queue := 5, index := 2, phase := true, desc := (BitVec.ofNat 512 (6 + 1 * 2 ^ 320 + 1 * 2 ^ 62 + 1 * 2 ^ 48)) }), by decide +kernel⟩,
   ⟨5, 2, 2#34, { queue := 5, index := 2, phase := true, desc := (BitVec.ofNat 512 (3 + 1 * 2 ^ 320 + 1 * 2 ^ 192)), stream := some { op := 3, lodging := 3, next := 2, left := 1 } }, { op := 3, lodging := 3, next := 2, left := 1 }, ((pageRecord 3 2 0 (stJob stExportJob)).1).getD ⟨0, [], false, 0⟩, stJob ({ queue := 5, index := 2, phase := true, desc := (BitVec.ofNat 512 (3 + 1 * 2 ^ 320 + 1 * 2 ^ 192)), stream := some { op := 3, lodging := 3, next := 2, left := 1 } }), by decide +kernel⟩,
   ⟨5, 2, 3#34, { queue := 5, index := 2, phase := true, desc := (BitVec.ofNat 512 (3 + 1 * 2 ^ 320 + 1 * 2 ^ 192)), stream := some { op := 3, lodging := 3, next := 2, left := 2, built := [(3, ⟨3, [1], false, 0⟩)] } }, { op := 3, lodging := 3, next := 2, left := 2, built := [(3, ⟨3, [1], false, 0⟩)] }, ⟨3, [1], false, 0⟩, stJob ({ queue := 5, index := 2, phase := true, desc := (BitVec.ofNat 512 (3 + 1 * 2 ^ 320 + 1 * 2 ^ 192)), stream := some { op := 3, lodging := 3, next := 2, left := 2, built := [(3, ⟨3, [1], false, 0⟩)] } }), by decide +kernel⟩,
   ⟨5, 2, 2#34, { queue := 5, index := 2, phase := true, desc := (BitVec.ofNat 512 (3 + 1 * 2 ^ 320 + 1 * 2 ^ 192)), outs := [(0x1000, 256)], stream := some { op := 3, lodging := 3, next := 2, left := 1, built := [(2, ⟨2, [1], false, 0⟩)] } }, { op := 3, lodging := 3, next := 2, left := 1, built := [(2, ⟨2, [1], false, 0⟩)] }, ⟨2, [1], false, 0⟩, stJob ({ queue := 5, index := 2, phase := true, desc := (BitVec.ofNat 512 (3 + 1 * 2 ^ 320 + 1 * 2 ^ 192)), outs := [(0x1000, 256)], stream := some { op := 3, lodging := 3, next := 2, left := 1, built := [(2, ⟨2, [1], false, 0⟩)] } }), by decide +kernel⟩,
   ⟨5, 2, { queue := 5, index := 2, phase := true, desc := (BitVec.ofNat 512 (6 + 1 * 2 ^ 320)), ended := some (3, 1) }, 3, 1, stJob ({ queue := 5, index := 2, phase := true, desc := (BitVec.ofNat 512 (6 + 1 * 2 ^ 320)), ended := some (3, 1) }), by decide +kernel⟩⟩

/-- What `LodgingEventsAct` supposes is met. -/
theorem witness_LodgingEventsAct :
    (∃ (n : LodgeId) (s : State), (unplaced s n.val ≠ []) ∧ ((lodgeAt s n.val).state = .preparing) ∧ (keysInstalled s n.val = true) ∧ ((unplaced s n.val).any (fun e => (below 4).any fun d => (regionFrame s d 4 e.1).isNone) = false)) ∧
    (∃ (n : LodgeId) (s : State), (unplaced s n.val ≠ []) ∧ ((lodgeAt s n.val).state = .preparing)) ∧
    (∃ (n : LodgeId) (d : MemDie) (m : Nat) (r : SlotRec) (s : State), let line := forAll [descPage n.val r.granule d.val 0, descPage n.val r.granule d.val 1] (fun p t => match descAt t n.val p with | some y => lockedSays n.val p (fun z => { z with isolated := true }) (setDesc n.val p { y with isolated := true } t) | none => t) s; let s1 := modLodge n.val (fun y => { y with isoLeft := smPut 0 y.isoLeft d.val 8191 }) line; ((lodgeAt s n.val).isoTo = some true) ∧ ((lodgeSlots s n.val).filter (fun (e : Nat × SlotRec) => e.2.placed && (smGet {} s.prot.base (4 * e.1 + d.val)).isolated != true) = [(m, r)]) ∧ (s.ps.state ≠ .night) ∧ (s.ps.state ≠ .off) ∧ (smGet 0 (lodgeAt s n.val).isoLeft d.val = 8192) ∧ (lodgeLive s n.val = true) ∧ (unitServes s (372 + d.val) = true) ∧ ((lodgeAt s1 n.val).isoLeft ≠ [])) ∧
    (∃ (n : LodgeId) (s : State), ((lodgeAt s n.val).state = .releasing) ∧ ((lodgeAt s n.val).step = 1)) ∧
    (∃ (n : LodgeId) (s : State), ((lodgeAt s n.val).state = .releasing) ∧ (2 ≤ (lodgeAt s n.val).step) ∧ (lodgeExtents s n.val = []) ∧ (s.lod.drains.any (fun e => e.2.lodging == n.val) = false)) ∧
    (∃ (n : LodgeId) (s : State), ((lodgeAt s n.val).state = .wiping) ∧ (secretsHeld s n.val = false) ∧ (lodgeQuiet s n.val = true)) ∧
    (∃ (p : PortId) (a : BitVec 19) (b : BitVec 19) (e : Extent) (s : State), let s1 := mailboxReply p.val 0 [] (modLodge e.lodging (fun x => { x with state := if x.state = LodgeState.ready then LodgeState.active else x.state }) (modExt p.val (fun x => x.map fun y => if y = e then { e with accepted := true } else y) s)); (mailboxOpen s p.val = true) ∧ (offeredAt s p.val a.toNat b.toNat = some e) ∧ ((liveLodges s1).filter (fun n => (lodgeAt s1 n).state == .releasing && !offersOpen s1 n) = [])) ∧
    (∃ (p : PortId) (a : BitVec 19) (b : BitVec 19) (e : Extent) (gone : Extent) (rest : List Extent) (s : State), (mailboxOpen s p.val = true) ∧ (releaseParts s p.val a.toNat b.toNat = some (e, gone, rest)) ∧ ((extentsOf (withPrepared (fun _ => true) s) p.val).length + rest.length ≤ 513) ∧ (cmdPending s 0 (lodgeCommit e.lodging) = false)) ∧
    (∃ (p : PortId) (e : Extent) (s : State), (s.lod.drains = [(p.val, e)]) ∧ ((stalledDropped p.val e s).lod.drains = [(p.val, e)]) ∧ (extentBusy (stalledDropped p.val e s) p.val e = false) ∧ (s.coh.dir = []) ∧ (s.coh.txs = []) ∧ (e.len = 1) ∧ ((lodgeExtents (modLod (fun l => { l with drains := [] }) (stalledDropped p.val e s)) e.lodging).any (fun x => x.2.accepted && x.2.covers e.logical) = false)) :=
  ⟨⟨3, stPrepared, by decide +kernel⟩,
   ⟨3, stPrepared, by decide +kernel⟩,
   ⟨3, 2, 0, ⟨3, 0, false, [0]⟩, stIsoRewrite, by decide +kernel⟩,
   ⟨3, stOffersOut, by decide +kernel⟩,
   ⟨3, stRecordsOut, by decide +kernel⟩,
   ⟨3, stWiping, by decide +kernel⟩,
   ⟨17, 0#19, 1#19, ⟨false, 0, 3, 0, 0, 1, 0⟩, stOffered, by decide +kernel⟩,
   ⟨17, 1#19, 2#19, ⟨true, 0, 3, 0, 0, 4, 0⟩, ⟨true, 0, 3, 0, 1, 2, 1⟩, [⟨true, 0, 3, 0, 0, 1, 0⟩, ⟨true, 0, 3, 0, 3, 1, 3⟩], stAccepted, by decide +kernel⟩,
   ⟨17, ⟨true, 0, 3, 0, 0, 1, 0⟩, stDraining, by decide +kernel⟩⟩

/-- What `LinkResetStepsAct` supposes is met. -/
theorem witness_LinkResetStepsAct :
    (∃ (k : LinkId) (toB : Bool) (what : LinkSend) (s : State) (s1 : State), ((linkAt s k.val).state = .active) ∧ (linkSend k.val toB what s = (s1, none))) ∧
    (∃ (k : LinkId) (toB : Bool) (what : LinkSend) (w : OnWire) (s : State) (s1 : State), ((linkAt s k.val).state = .active) ∧ (linkSend k.val toB what s = (s1, some w))) ∧
    (∃ (k : LinkId) (toB : Bool) (what : LinkSend) (w : OnWire) (s : State) (s1 : State), let back := ClDir.of (linkAt s1 k.val) (!toB); let pair := creditTurn back; let cnt := smGet 0 back.freed pair; let rcw := (BitVec.ofNat 80 (controlWord w.valid w.x.cls w.x.data w.x.count w.x.seq (ackField back) back.nak pair cnt)).toNat; let s2 := modLinkAt k.val (fun l => l.modDir (!toB) fun d => { d with crSent := smPut 0 d.crSent pair cnt, crTurn := (pair + 1) % 12, ackSent := ackField d, nakSent := d.nak }) s1; ((linkAt s k.val).state = .active) ∧ (linkSend k.val toB what s = (s1, some w)) ∧ (bitOf rcw 0 = true → bitsOf rcw 12 16 = (ClDir.of (linkAt s2 k.val) toB).expSeq)) ∧
    (∃ (k : LinkId) (s : State), ((linkAt s k.val).state = .active)) ∧
    (∃ (k : LinkId) (badAB : BitVec 78) (badBA : BitVec 78) (s : State), ((linkAt s k.val).state = .reset) ∧ ((linkAt s k.val).step = 1) ∧ ((widthOf badAB).isSome = true) ∧ ((widthOf badBA).isSome = true)) ∧
    (∃ (k : LinkId) (s : State), ((linkAt s k.val).state = .reset) ∧ ((linkAt s k.val).step = 3)) ∧
    (∃ (k : LinkId) (s : State), ((linkAt s k.val).state = .reset) ∧ ((linkAt s k.val).step = 3)) ∧
    (∃ (k : LinkId) (s : State), ((linkAt s k.val).state = .reset) ∧ ((linkAt s k.val).step = 4)) ∧
    (∃ (k : LinkId) (s : State), ((linkAt s k.val).state = .reset) ∧ ((linkAt s k.val).step = 5)) ∧
    (∃ (k : LinkId) (s : State), ((linkAt s k.val).state = .reset)) :=
  ⟨⟨23, true, .again, stLinks, stLinks, by decide +kernel⟩,
   ⟨23, true, .fresh 1 false 0 5#512 3, ((linkSend 23 true (.fresh 1 false 0 5#512 3) stLinks).2).getD ⟨true, ⟨0, 0, false, 0, 0#512, 0, 0, [], none⟩⟩, stLinks, (linkSend 23 true (.fresh 1 false 0 5#512 3) stLinks).1, by decide +kernel⟩,
   ⟨23, true, .fresh 1 false 0 5#512 3, ((linkSend 23 true (.fresh 1 false 0 5#512 3) stLinks).2).getD ⟨true, ⟨0, 0, false, 0, 0#512, 0, 0, [], none⟩⟩, stLinks, (linkSend 23 true (.fresh 1 false 0 5#512 3) stLinks).1, by decide +kernel⟩,
   ⟨23, stLinks, by decide +kernel⟩,
   ⟨23, 5#78, 0#78, stLinkReset 1, by decide +kernel⟩,
   ⟨23, stLinkReset 3, by decide +kernel⟩,
   ⟨23, stLinkReset 3, by decide +kernel⟩,
   ⟨23, stLinkReset 4, by decide +kernel⟩,
   ⟨23, stLinkReset 5, by decide +kernel⟩,
   ⟨23, stLinkReset 3, by decide +kernel⟩⟩

/-- What `UnitEventsAct` supposes is met. -/
theorem witness_UnitEventsAct :
    (∃ (u : UnitId) (s : State), (unitClass u.val ≠ 9) ∧ (¬(unitClass u.val = 2 ∧ (unitAt s u.val).state ≠ .outOfService))) ∧
    (∃ (u : UnitId) (s : State), (unitClass u.val = 2) ∧ ((unitAt s u.val).state ≠ .outOfService)) ∧
    (∃ (u : UnitId) (s : State), (unitClass u.val = 9) ∧ ((linkAt s (u.val - 344)).state = .active)) ∧
    (∃ (u : UnitId) (s : State), ((unitAt s u.val).state = .draining) ∧ (drained s u.val = true) ∧ (unitClass u.val ∉ [8, 9, 10])) ∧
    (∃ (i : SliceId) (t0 : Nat) (s : State), (s.unit.scanning.contains i.val = true) ∧ (takeoverBy s i.val = some t0)) ∧
    (∃ (d : MemDie) (q : Nat) (rest : List Nat) (s : State), (smGet [] s.unit.rebuild d.val = q :: rest) ∧ (smFind s.lod.slots (q / 8192) = none)) ∧
    (∃ (d : MemDie) (q : Nat) (rest : List Nat) (r : SlotRec) (x : Desc) (s : State), (smGet [] s.unit.rebuild d.val = q :: rest) ∧ (smFind s.lod.slots (q / 8192) = some r) ∧ (descAt s r.lodging (descPage r.lodging r.granule d.val (2 * (q % 8192))) = some x) ∧ (x.state ≠ .unmapped) ∧ (descPage r.lodging r.granule d.val (2 * (q % 8192)) ≠ descPage r.lodging r.granule d.val (2 * (q % 8192) + 1))) ∧
    (∃ (d : MemDie) (s : State), (s.prot.mirrorOff.contains d.val = true) ∧ (unitServes s (372 + d.val) = true) ∧ (unitServes s (372 + partner d.val) = true)) ∧
    (∃ (s : State), (s.ps.state ≠ .night) ∧ (s.ps.state ≠ .off)) ∧
    (∃ (u : UnitId) (s : State), ((unitAt s u.val).state = .testing) ∧ ((unitAt s u.val).step ≠ 3) ∧ (unitClass u.val = 7)) ∧
    (∃ (u : UnitId) (s : State), ((unitAt s u.val).state = .testing) ∧ ((unitAt s u.val).step ≠ 3) ∧ (unitClass u.val ≠ 1)) ∧
    (∃ (u : UnitId) (s : State), ((unitAt s u.val).state = .rejoining) ∧ ((unitAt s u.val).step = 4)) :=
  ⟨⟨277, stReady, by decide +kernel⟩,
   ⟨97, stReady, by decide +kernel⟩,
   ⟨367, stLinks, by decide +kernel⟩,
   ⟨277, stUnit277 .draining 0, by decide +kernel⟩,
   ⟨5, 4, stScan, by decide +kernel⟩,
   ⟨2, 1, [], modLod (fun l => { l with slots := [] }) stRebuild, by decide +kernel⟩,
   ⟨2, 1, [], ⟨3, 0, false, [0]⟩, (descAt stRebuild 3 (descPage 3 0 2 2)).getD {}, stRebuild, by decide +kernel⟩,
   ⟨2, stMirrorOff, by decide +kernel⟩,
   ⟨stReady, by decide +kernel⟩,
   ⟨277, stUnit277 .testing 2, by decide +kernel⟩,
   ⟨277, stUnit277 .testing 2, by decide +kernel⟩,
   ⟨277, stUnit277 .rejoining 4, by decide +kernel⟩⟩

/-- What `EmptyQueueTicks` supposes is met. -/
theorem witness_EmptyQueueTicks :
    (∃ s : State, s.pending = [] ∧ (∀ e ∈ s.unit.units, unitOverLimit s e.2 = false) ∧ (∀ p, p < 64 → (portAt s p).link ≠ .down) ∧ votesSettle s = s) :=
  ⟨State.reset, by decide +kernel⟩

/-- What `StepKeepsInvariant` supposes is met. -/
theorem witness_StepKeepsInvariant :
    (∃ s t : State, Machine.Inv s ∧ step s = .next t) :=
  ⟨State.reset, idle State.reset, by unfold Machine.Inv; decide +kernel, rfl⟩

/-- What `CommandsLeaveTheQueue` supposes is met. -/
theorem witness_CommandsLeaveTheQueue :
    (∃ (c : Instr) (s t : State), Machine.Inv s ∧ exec c s = .next t) :=
  ⟨.wakeTimer, stTimer, timerExpires stTimer, by unfold Machine.Inv; decide +kernel, rfl⟩

/-- What `ResetState` supposes is met. -/
theorem witness_ResetState :
    (∃ (g : Nat) (r : GSpec), groupSpec g = some r) ∧
    (∃ (n : Nat) (p : PSpec), paramSpec n = some p) :=
  ⟨⟨0x4011, (groupSpec 0x4011).getD ⟨0, 0, 0, true, 0, true, []⟩, by decide +kernel⟩,
   ⟨P.PORT_ROLE, (paramSpec P.PORT_ROLE).getD ⟨0, 0, .u8, .ro, 0, 0, .any, false, .night⟩, by decide +kernel⟩⟩

/-- What `RefusedAccessHasNoSideEffects` supposes is met. -/
theorem witness_RefusedAccessHasNoSideEffects :
    (∃ (r : Req) (s : State), (accessAns r s).resp.status ≠ 0 ∧ (accessAns r s).resp.status ≠ 1) :=
  ⟨reqWrite co 0xF00001 3 0 [0#8, 0#8, 0#8, 0#8], stReady, by decide +kernel⟩

/-- What `ReadsChangeNothing` supposes is met. -/
theorem witness_ReadsChangeNothing :
    (∃ r : Req, r.op = 0) :=
  ⟨{ reqWrite co 0x200001 3 0 [] with op := 0 }, rfl⟩

/-- What `FirstFailingCheckAnswers` supposes is met. -/
theorem witness_FirstFailingCheckAnswers :
    (∃ (r : Req) (s : State), s.dict.seq + 1 < 2 ^ 64 - 1 ∧ (groupSpec (r.param / 256) = none ∨ paramSpec r.param = none)) ∧
    (∃ (r : Req) (g : GSpec) (p : PSpec) (s : State), s.dict.seq + 1 < 2 ^ 64 - 1 ∧ groupSpec (r.param / 256) = some g ∧ paramSpec r.param = some p ∧ headerFault r p = some 7) ∧
    (∃ (r : Req) (g : GSpec) (p : PSpec) (s : State), s.dict.seq + 1 < 2 ^ 64 - 1 ∧ groupSpec (r.param / 256) = some g ∧ paramSpec r.param = some p ∧ headerFault r p = none ∧ r.op = 1 ∧ p.acc = .ro) ∧
    (∃ (r : Req) (g : GSpec) (p : PSpec) (s : State), s.dict.seq + 1 < 2 ^ 64 - 1 ∧ groupSpec (r.param / 256) = some g ∧ paramSpec r.param = some p ∧ headerFault r p = none ∧ r.op = 1 ∧ p.acc = .rwk ∧ srcClass s r.origin ≠ .keeper) ∧
    (∃ (r : Req) (g : GSpec) (p : PSpec) (s : State), s.dict.seq + 1 < 2 ^ 64 - 1 ∧ groupSpec (r.param / 256) = some g ∧ paramSpec r.param = some p ∧ headerFault r p = none ∧ r.op = 1 ∧ p.acc ≠ .ro ∧ p.acc ≠ .rwk ∧ ownerFault (numbered s) r p = some 4) ∧
    (∃ (r : Req) (g : GSpec) (p : PSpec) (s : State), s.dict.seq + 1 < 2 ^ 64 - 1 ∧ groupSpec (r.param / 256) = some g ∧ paramSpec r.param = some p ∧ rightsFault (numbered s) r p = none ∧ valueFault (numbered s) r g p = some 6) ∧
    (∃ (r : Req) (g : GSpec) (p : PSpec) (s : State), s.dict.seq + 1 < 2 ^ 64 - 1 ∧ groupSpec (r.param / 256) = some g ∧ paramSpec r.param = some p ∧ rightsFault (numbered s) r p = none ∧ valueFault (numbered s) r g p = none ∧ holderFault (numbered s) r g = some 2) :=
  ⟨⟨reqWrite co 0x401170 3 0 [0#8, 0#8, 0#8, 0#8], stReady, by decide +kernel⟩,
   ⟨reqWrite co P.PORT_ROLE 3 0 [0#8], (groupSpec (P.PORT_ROLE / 256)).getD ⟨0, 0, 0, true, 0, true, []⟩, (paramSpec P.PORT_ROLE).getD ⟨0, 0, .u8, .ro, 0, 0, .any, false, .night⟩, stReady, by decide +kernel⟩,
   ⟨reqWrite co P.LODGE_STATE 7 0 [0#8], (groupSpec (P.LODGE_STATE / 256)).getD ⟨0, 0, 0, true, 0, true, []⟩, (paramSpec P.LODGE_STATE).getD ⟨0, 0, .u8, .ro, 0, 0, .any, false, .night⟩, stReady, by decide +kernel⟩,
   ⟨reqWrite co P.KEEPER_WDOG 2 0 [100#8, 0#8], (groupSpec (P.KEEPER_WDOG / 256)).getD ⟨0, 0, 0, true, 0, true, []⟩, (paramSpec P.KEEPER_WDOG).getD ⟨0, 0, .u8, .ro, 0, 0, .any, false, .night⟩, stReady, by decide +kernel⟩,
   ⟨reqWrite (.steward 2) P.PORT_ROLE 7 0 [1#8], (groupSpec (P.PORT_ROLE / 256)).getD ⟨0, 0, 0, true, 0, true, []⟩, (paramSpec P.PORT_ROLE).getD ⟨0, 0, .u8, .ro, 0, 0, .any, false, .night⟩, stReady, by decide +kernel⟩,
   ⟨reqWrite co P.PORT_ROLE 7 0 [9#8], (groupSpec (P.PORT_ROLE / 256)).getD ⟨0, 0, 0, true, 0, true, []⟩, (paramSpec P.PORT_ROLE).getD ⟨0, 0, .u8, .ro, 0, 0, .any, false, .night⟩, stReady, by decide +kernel⟩,
   ⟨reqWrite co P.PORT_ROLE 7 0 [1#8], (groupSpec (P.PORT_ROLE / 256)).getD ⟨0, 0, 0, true, 0, true, []⟩, (paramSpec P.PORT_ROLE).getD ⟨0, 0, .u8, .ro, 0, 0, .any, false, .night⟩, State.reset, by decide +kernel⟩⟩

/-- What `FmPortChangeDropsSession` supposes is met. -/
theorem witness_FmPortChangeDropsSession :
    (∃ (r : Req) (s : State), r.op = 1 ∧ r.param = P.FM_PORT ∧ writeRuns r 0 s = true ∧ leNat r.value ≠ pnum s P.FM_PORT ∧ (sessionOf s .fmApi).isSome = true) :=
  ⟨reqWrite co P.FM_PORT 1 0 [18#8], modSession .fmApi id stFm, by decide +kernel⟩

/-- What `BifurcationNeedsUnusedPorts` supposes is met. -/
theorem witness_BifurcationNeedsUnusedPorts :
    (∃ (G : Fin 16) (r : Req) (s : State), r.op = 1 ∧ r.param = P.SW_BIFURCATION + G.val ∧ admits17 r s = true ∧ portRole s (4 * G.val + 1) ≠ 0) ∧
    (∃ (G : Fin 16) (r : Req) (s : State), r.op = 1 ∧ r.param = P.SW_BIFURCATION + G.val ∧ admits17 r s = true ∧ ∀ i : Fin 4, portRole s (4 * G.val + i.val) = 0) :=
  ⟨⟨4, reqWrite co (P.SW_BIFURCATION + 4) 7 0 [1#8], stPorts, by decide +kernel⟩,
   ⟨15, reqWrite co (P.SW_BIFURCATION + 15) 7 0 [1#8], stPorts, by decide +kernel⟩⟩

/-- What `BadFramesAreDiscarded` supposes is met. -/
theorem witness_BadFramesAreDiscarded :
    (∃ (dest src : BitVec 18) (param : BitVec 24) (data : List Byte) (crc : BitVec 16) (endOk : Bool) (s : State), frameHere dest s = true ∧ crFrameFault dest.toNat src.toNat 1 param.toNat data crc endOk (data.length == 8) = some true) ∧
    (∃ (dest src : BitVec 18) (param : BitVec 24) (data : List Byte) (crc : BitVec 16) (endOk : Bool) (s : State), frameHere dest s = true ∧ crFrameFault dest.toNat src.toNat 2 param.toNat data crc endOk (decide (8 ≤ data.length) && decide (data.length ≤ 248)) = some false) ∧
    (∃ (dest src : BitVec 18) (param : BitVec 24) (data : List Byte) (crc : BitVec 16) (endOk : Bool) (s : State), frameHere dest s = true ∧ crFrameFault dest.toNat src.toNat 1 param.toNat data crc endOk (data.length == 8) = none ∧ 16 ≤ s.cr.replies.length) :=
  ⟨⟨9#18, 5#18, 1#24, List.replicate 8 0#8, 3#16, true, stCourier, by decide +kernel⟩,
   ⟨9#18, 5#18, 1#24, List.replicate 249 0#8, crFrameCrc 9 5 2 1 (List.replicate 249 0#8), true, stCourier, by decide +kernel⟩,
   ⟨9#18, 5#18, 1#24, List.replicate 8 0#8, crFrameCrc 9 5 1 1 (List.replicate 8 0#8), true, modCr (fun c => { c with replies := List.replicate 16 ⟨1, 5, 1, none, false⟩ }) stCourier, by decide +kernel⟩⟩

/-- What `IslandCommandsTouchOnlyTheirPart` supposes is met. -/
theorem witness_IslandCommandsTouchOnlyTheirPart :
    ((∃ s', exec (.courierBusIdle) stCourier = .next s')) ∧
    ((let high : Bool := true; ∃ s', exec (.enumIn high) stCourier = .next s')) ∧
    ((∃ s', exec (.enumInHeldHigh) stUnaddressed = .next s')) ∧
    ((∃ s', exec (.enumOutRaise) stAcked = .next s')) ∧
    ((∃ s', exec (.railHoldRelease) stCourier = .next s')) ∧
    ((∃ s', exec (.reply .won) stReply = .next s')) ∧
    ((∃ s', exec (.alert .won) stAlert = .next s')) ∧
    ((let kind : Fin 16 := 13; ∃ s', exec (.alertHold kind) (modUnit (fun u => { u with holds := [(13, { held := true, since := 4, seq := 9 })] }) stReady) = .next s')) ∧
    ((let dest : BitVec 18 := 9#18; let src : BitVec 18 := 5#18; let crc : BitVec 16 := crFrameCrc 9 5 5 0 []; ∃ s', exec (.assign dest src crc true) stUnaddressed = .next s')) ∧
    ((let dest : BitVec 18 := 9#18; let src : BitVec 18 := 5#18; let crc : BitVec 16 := crFrameCrc 9 5 7 0 []; ∃ s', exec (.release dest src crc true) stCourier = .next s')) ∧
    ((∃ s', exec (.crStallTimeout true) stCourier = .next s')) ∧
    ((let d : DieId := 7; ∃ s', exec (.gbFigures d) stReady = .next s')) ∧
    ((∃ s', exec (.gbHourCut) stReady = .next s')) ∧
    ((let okPerm : Bool := true; ∃ s', exec (.gbRecordWrite ⟨true, okPerm⟩) stOneCut = .next s')) ∧
    ((∃ s', exec (.hsInsertDelay) (stSeat .delay) = .next s')) ∧
    ((∃ s', exec (.hsSeatDebounce) (stSeat .seating) = .next s')) ∧
    ((∃ s', exec (.hsRetryTime) (stSeat .tripped) = .next s')) ∧
    ((∃ s', exec (.retryCountClear) (modSlTime (fun _ => 3600 * 10 ^ 9) stReady) = .next s')) ∧
    ((let midOff : BitVec 16 := 999#16; let midOn : BitVec 16 := 12000#16; let vin : BitVec 16 := 12499#16; let rise : BitVec 16 := 500#16; ∃ s', exec (.mosfetCheck midOff midOn vin rise) (stSeat .check) = .next s')) ∧
    ((let w : WingId := 15; ∃ s', exec (.branchRampStart w) stBranchQueue = .next s')) ∧
    ((let w : WingId := 6; ∃ s', exec (.branchOff w) stBranches = .next s')) ∧
    ((let w : WingId := 4; ∃ s', exec (.branchPowerGood w) stBranches = .next s')) ∧
    ((∃ s', exec (.presenceN true) stReady = .next s')) ∧
    ((∃ s', exec (.presenceWindowEnd) stPresence = .next s')) ∧
    ((let m : Bool := true; ∃ s', exec (.sealLoopSample m) stReady = .next s')) ∧
    ((let d : DieId := 2; let t0 : BitVec 32 := 40#32; let t1 : BitVec 32 := 117#32; let t2 : BitVec 32 := 0xFFFFFFFF#32; let t3 : BitVec 32 := 3#32; ∃ s', exec (.junctionSensorRead d t0 t1 t2 t3) stReady = .next s')) ∧
    ((let d : DieId := 3; ∃ s', exec (.railSettled d) stMovingRail = .next s')) ∧
    ((∃ s', exec (.wakeTimer) stTimer = .next s')) ∧
    ((∃ s', exec (.wakeHoldExpire) stHold = .next s')) ∧
    ((∃ s', exec (.nightEntry) stQuiet = .next s')) ∧
    ((∃ s', exec (.nightExit) stAsleep = .next s')) ∧
    ((let v : Fin 4 := 3; ∃ s', exec (.voteChange (.steward v)) stIdle = .next s')) ∧
    ((let u : UnitId := 271; ∃ s', exec (.engineGate u) stIdle = .next s')) ∧
    ((∃ s', exec (.heartbeatTimeout) stReady = .next s')) ∧
    ((∃ s', exec (.flashWriteDone) (stFlash none) = .next s')) :=
  ⟨⟨_, rfl⟩,
   ⟨_, rfl⟩,
   ⟨_, rfl⟩,
   ⟨_, rfl⟩,
   ⟨_, rfl⟩,
   ⟨_, rfl⟩,
   ⟨_, rfl⟩,
   ⟨_, rfl⟩,
   ⟨_, rfl⟩,
   ⟨_, rfl⟩,
   ⟨_, rfl⟩,
   ⟨_, rfl⟩,
   ⟨_, rfl⟩,
   ⟨_, rfl⟩,
   ⟨_, rfl⟩,
   ⟨_, rfl⟩,
   ⟨_, rfl⟩,
   ⟨_, rfl⟩,
   ⟨_, rfl⟩,
   ⟨_, rfl⟩,
   ⟨_, rfl⟩,
   ⟨_, rfl⟩,
   ⟨_, rfl⟩,
   ⟨_, rfl⟩,
   ⟨_, rfl⟩,
   ⟨_, rfl⟩,
   ⟨_, rfl⟩,
   ⟨_, rfl⟩,
   ⟨_, rfl⟩,
   ⟨_, rfl⟩,
   ⟨_, rfl⟩,
   ⟨_, rfl⟩,
   ⟨_, rfl⟩,
   ⟨_, rfl⟩,
   ⟨_, rfl⟩⟩

/-- What `HostSideCommandsTouchOnlyTheirPart` supposes is met. -/
theorem witness_HostSideCommandsTouchOnlyTheirPart :
    ((let p : PortId := 17; ∃ s', exec (.dictSeqRead p) stFm = .next s')) ∧
    ((let p : PortId := 17; ∃ s', exec (.identifyMemoryDevice p) stFm = .next s')) ∧
    ((let p : PortId := 17; ∃ s', exec (.getResponseMessageLimit p) stFm = .next s')) ∧
    ((let p : PortId := 17; ∃ s', exec (.getSupportedLogs p) stFm = .next s')) ∧
    ((let p : PortId := 17; let log : BitVec 128 := 1#128; let offset : BitVec 32 := 0#32; let length : BitVec 32 := 16#32; ∃ s', exec (.getLog p log offset length) stFm = .next s')) ∧
    ((let p : PortId := 17; let log : Byte := 4#8; ∃ s', exec (.getEventRecords p log) stFm = .next s')) ∧
    ((let p : PortId := 17; let log : Byte := 4#8; let count : Byte := 0#8; ∃ s', exec (.clearEventRecords p log count) stFm = .next s')) ∧
    ((let p : PortId := 17; ∃ s', exec (.getDynamicCapacityConfiguration p) stFm = .next s')) ∧
    ((let p : PortId := 17; ∃ s', exec (.getDynamicCapacityExtentList p) stFm = .next s')) ∧
    ((let p : PortId := 17; let host : PortId := 18; ∃ s', exec (.getHostDcRegionConfiguration p host) stFm = .next s')) ∧
    ((let p : PortId := 17; let region : Byte := 1#8; let length : BitVec 64 := BitVec.ofNat 64 (2 ^ 46); let block : BitVec 64 := BitVec.ofNat 64 (2 ^ 28); ∃ s', exec (.setDcRegionConfiguration p region length block) stFm = .next s')) ∧
    ((let p : PortId := 17; let a : BitVec 19 := 1#19; let b : BitVec 19 := 2#19; ∃ s', exec (.releaseDynamicCapacity p [(a, b)]) stAccepted = .next s')) ∧
    ((let d : MemDie := 2; ∃ s', exec (.capReleaseRepeat d) (modLod (fun l => { l with stage := [(2, 1)] }) stMem) = .next s')) ∧
    ((∃ s', exec (.capStatusUpdate) stMem = .next s')) ∧
    ((let n : LodgeId := 3; ∃ s', exec (.destroyRecordsGone n) stRecordsOut = .next s')) ∧
    ((let p : PortId := 17; let k : Fin 10 := 7; let base : BitVec 52 := 0#52; let size : BitVec 52 := 0x10000000#52; let skip : BitVec 52 := 0#52; let ways : Fin 16 := 3; let gran : Fin 16 := 6; let targets : List (Fin 32) := [0, 1]; ∃ s', exec (.hdmDecoderCommit p k base size skip ways gran targets) stPorts = .next s')) ∧
    ((let v : PortId := 17; let src : PortId := 17; let targets : BitVec 64 := 0x80000#64; let group : Fin 64 := 3; let bytes : List Byte := [1]; ∃ s', exec (.multicastWrite v src targets group bytes) stPorts = .next s')) ∧
    ((let p : PortId := 17; let b : Fin 32 := 1; ∃ s', exec (.slotPowerOff p b) stArmed = .next s')) ∧
    ((let src : PortId := 17; let dst : PortId := 19; let tag : BitVec 16 := 9#16; let bytes : List Byte := []; let acs : Fin 3 := 2; ∃ s', exec (.cxlIoRoute src dst 0 tag bytes acs) stPorts = .next s')) ∧
    ((let src : PortId := 17; let dst : PortId := 19; let kind : Fin 5 := 0; let tag : BitVec 16 := 9#16; let bytes : List Byte := []; ∃ s', exec (.cxlMemRoute src dst kind tag bytes) stPorts = .next s')) ∧
    ((let p : PortId := 17; let cls : Fin 8 := 6; ∃ s', exec (.egressAdmit p cls) stWaiting = .next s')) ∧
    ((let p : PortId := 17; let cls : Fin 8 := 6; ∃ s', exec (.egressSend p cls) stStored = .next s')) ∧
    ((let p : PortId := 17; let n : LodgeId := 3; let page : BitVec 34 := 1#34; let line : Fin 64 := 1; ∃ s', exec (.biconflict p n page line) stMemSnoop = .next s')) ∧
    ((let p : PortId := 17; ∃ s', exec (.absenceTimeout p) stAbsent = .next s')) ∧
    ((let p : PortId := 17; ∃ s', exec (.flr p) stPorts = .next s')) ∧
    ((let p : PortId := 17; let q : QueueId := 5; let v : BitVec 32 := 0#32; ∃ s', exec (.cqHead p q v) stQueueOn = .next s')) ∧
    ((let q : QueueId := 5; ∃ s', exec (.tokenRefill q) stQueueOn = .next s')) ∧
    ((let q : QueueId := 5; let i : Fin 4096 := 2; let l : List (BitVec 128) := [BitVec.ofNat 128 (0x1000 + 256 * 2 ^ 64)]; ∃ s', exec (.exportJob q i (some l)) (stJob ({ queue := 5, index := 2, phase := true, desc := (BitVec.ofNat 512 (3 + 1 * 2 ^ 320 + 1 * 2 ^ 192)) })) = .next s')) ∧
    ((let q : QueueId := 5; let i : Fin 4096 := 2; ∃ s', exec (.releaseCtx q i) (stJob ({ queue := 5, index := 2, phase := true, desc := (BitVec.ofNat 512 (6 + 1 * 2 ^ 320 + 1 * 2 ^ 62)) })) = .next s')) ∧
    ((let q : QueueId := 5; let i : Fin 4096 := 2; ∃ s', exec (.jobComplete q i) (stJob ({ queue := 5, index := 2, phase := true, desc := (BitVec.ofNat 512 (6 + 1 * 2 ^ 320)), ended := some (3, 1) })) = .next s')) ∧
    ((let t : DebugTarget := .datapath; ∃ s', exec (.debugAccess t) stReady = .next s')) ∧
    ((let p : PortId := 17; let req : List Byte := [1, 2]; ∃ s', exec (.spdmRequest p req true) stPorts = .next s')) ∧
    ((let core : Fin 8 := 7; let req : List Byte := [1]; ∃ s', exec (.worldCall core req) stReady = .next s')) ∧
    ((let answer : List Byte := [2]; ∃ s', exec (.worldCallReply answer) stCalls = .next s')) ∧
    ((let core : Fin 8 := 4; ∃ s', exec (.stewardWdog core) stCalls = .next s')) ∧
    ((let core : Fin 8 := 4; let img : FwSlots := ⟨some ⟨5#384, true, 0, 0#384⟩, none⟩; ∃ s', exec (.stewardCoreRestartDone core img) (modWorld (fun w => { w with stewardRestarting := 0x10#8 }) stReady) = .next s')) :=
  ⟨⟨_, rfl⟩,
   ⟨_, rfl⟩,
   ⟨_, rfl⟩,
   ⟨_, rfl⟩,
   ⟨_, rfl⟩,
   ⟨_, rfl⟩,
   ⟨_, rfl⟩,
   ⟨_, rfl⟩,
   ⟨_, rfl⟩,
   ⟨_, rfl⟩,
   ⟨_, rfl⟩,
   ⟨_, rfl⟩,
   ⟨_, rfl⟩,
   ⟨_, rfl⟩,
   ⟨_, rfl⟩,
   ⟨_, rfl⟩,
   ⟨_, rfl⟩,
   ⟨_, rfl⟩,
   ⟨_, rfl⟩,
   ⟨_, rfl⟩,
   ⟨_, rfl⟩,
   ⟨_, rfl⟩,
   ⟨_, rfl⟩,
   ⟨_, rfl⟩,
   ⟨_, rfl⟩,
   ⟨_, rfl⟩,
   ⟨_, rfl⟩,
   ⟨_, rfl⟩,
   ⟨_, rfl⟩,
   ⟨_, rfl⟩,
   ⟨_, rfl⟩,
   ⟨_, rfl⟩,
   ⟨_, rfl⟩,
   ⟨_, rfl⟩,
   ⟨_, rfl⟩,
   ⟨_, rfl⟩⟩

/-- What `MemorySideCommandsTouchOnlyTheirPart` supposes is met. -/
theorem witness_MemorySideCommandsTouchOnlyTheirPart :
    ((∃ s', exec (.actTableClear) stDram = .next s')) ∧
    ((let c : ChanId := 16; ∃ s', exec (.tableValid c) stDram = .next s')) ∧
    ((let c : ChanId := 16; let latency : BitVec 16 := 0xFFFF#16; ∃ s', exec (.caParityAlert c latency) stDram = .next s')) ∧
    ((let c : ChanId := 16; let t : BitVec 32 := 86#32; ∃ s', exec (.moduleTempRead c t) stDram = .next s')) ∧
    ((let c : ChanId := 16; let rank : Fin 8 := 0; let postpone : Bool := true; ∃ s', exec (.refDue c rank postpone) stReadQ = .next s')) ∧
    ((let w : WingId := 0; ∃ s', exec (.blankDone w none) stBlankQ = .next s')) ∧
    ((let d : MemDie := 3; ∃ s', exec (.tierEpoch d) stRun = .next s')) ∧
    ((let d : MemDie := ⟨homeDie 3 1, by decide⟩; let c : Fin 32 := 31; ∃ s', exec (.movePlaceDone d c) (stMove ({ req := ⟨.demote, 3, 1, 0⟩, state := .place, pre := { state := .plain, owner := 3, loc := 5, hasFrame := true }, engine := some 224 })) = .next s')) ∧
    ((let n : LodgeId := 3; let page : BitVec 34 := 1#34; let line : Fin 64 := 1; ∃ s', exec (.atomCoolTick n page line) stResident = .next s')) ∧
    ((let l : LinkDie := 1; let m : MemDie := 3; ∃ s', exec (.sampleFlush l m) stSamples = .next s')) ∧
    ((let m : MemDie := 3; ∃ s', exec (.sampleApply m) stFlight = .next s')) ∧
    ((let d : DieId := 7; ∃ s', exec (.prioMirrorUpdate d) stMirror = .next s')) ∧
    ((let m : MemDie := 3; ∃ s', exec (.missWindow m) stMiss = .next s')) ∧
    ((let p : PortId := 17; let i : Fin 9 := 8; let set : Fin 2 := 1; let slot : Fin 6 := 1; let key : BitVec 256 := 3#256; ∃ s', exec (.ideKm p i 0 set slot key) stSpdm = .next s')) ∧
    ((let d : MemDie := 1; let err : BitVec 384 := 0#384; ∃ s', exec (.keyTransport d err) stKeyJob = .next s')) ∧
    ((let n : LodgeId := 3; ∃ s', exec (.rekeyFinish n) stRekeyDone = .next s')) ∧
    ((let d : MemDie := 2; ∃ s', exec (.rebuildLine d) (modLod (fun l => { l with slots := [] }) stRebuild) = .next s')) ∧
    ((∃ s', exec (.hwmRefresh) stReady = .next s')) ∧
    ((let x : DictId := 7; let d : MemDie := 2; ∃ s', exec (.dictRetireCheck x d) (stDictRetiring []) = .next s')) ∧
    ((let d : MemDie := 2; let x : DictId := 7; let bad : BitVec 4 := 0#4; ∃ s', exec (.dictStoreLoad d x bad) (modComp (fun c => { c with store := [(2, [⟨7, []⟩])] }) stDicts) = .next s')) ∧
    ((let d : MemDie := 2; ∃ s', exec (.sweepPassEnd d) (withParams [(0, P.TIER_ENABLE, 0)] stWings) = .next s')) :=
  ⟨⟨_, rfl⟩,
   ⟨_, rfl⟩,
   ⟨_, rfl⟩,
   ⟨_, rfl⟩,
   ⟨_, rfl⟩,
   ⟨_, rfl⟩,
   ⟨_, rfl⟩,
   ⟨_, rfl⟩,
   ⟨_, rfl⟩,
   ⟨_, rfl⟩,
   ⟨_, rfl⟩,
   ⟨_, rfl⟩,
   ⟨_, rfl⟩,
   ⟨_, rfl⟩,
   ⟨_, rfl⟩,
   ⟨_, rfl⟩,
   ⟨_, rfl⟩,
   ⟨_, rfl⟩,
   ⟨_, rfl⟩,
   ⟨_, rfl⟩,
   ⟨_, rfl⟩⟩

/-- What `PortResetsWipeNothing` supposes is met. -/
theorem witness_PortResetsWipeNothing :
    (∃ (p : PortId) (b : Fin 32) (c : Instr) (s t : State), c ∈ [Instr.portPerstN p, .hostHotReset p, .linkDown p, .secondaryBusReset p b, .flr p] ∧ exec c s = .next t ∧ s.sw.armed = []) :=
  ⟨17, 1, .linkDown 17, stPorts, portGoesDown 17 stPorts, by decide +kernel, rfl, rfl⟩

/-- What `DramReadsBackWhatWasStored` supposes is met. -/
theorem witness_DramReadsBackWhatWasStored :
    (∃ d f i d' f' i' : Nat, f < 2 ^ 30 ∧ i < 64 ∧ f' < 2 ^ 30 ∧ i' < 64 ∧ (d', f', i') ≠ (d, f, i)) :=
  ⟨3, 2 ^ 30 - 1, 63, 3, 2 ^ 30 - 1, 62, by decide⟩

/-- What `EccCorrectsTwoBits` supposes is met. -/
theorem witness_EccCorrectsTwoBits :
    (∃ i j : Nat, i < 80 ∧ j < 80 ∧ i ≠ j ∧ i ≠ 78 ∧ j ≠ 78) :=
  ⟨0, 79, by decide⟩

/-- What `DramAddressesAreOneToOne` supposes is met. -/
theorem witness_DramAddressesAreOneToOne :
    (∃ f i : Nat, f < 2 ^ 30 ∧ i < 64) ∧
    (∃ (g : Geometry) (a : DramAddr), a.sub < 2 ∧ a.group < 8 ∧ a.line < 2 ^ g.col ∧ a.bank < 4 ∧ a.rank < 2 ^ g.rank ∧ a.modl < 2 ^ g.modl) :=
  ⟨⟨2 ^ 30 - 1, 63, by decide⟩,
   ⟨⟨7, 2, 1, 16⟩, ⟨1, 7, 127, 3, 3, 1, 65535⟩, by decide⟩⟩

/-- What `PackedImagesDecode` supposes is met. -/
theorem witness_PackedImagesDecode :
    (∃ (level : Nat) (dict : Option (Nat × DictBody)) (src : List Byte), 1 ≤ src.length ∧ src.length ≤ 4096 ∧ packs level dict src = true) :=
  ⟨9, none, [7#8, 7#8], by decide +kernel⟩

end Sys2Proof.Tests
end

section
/-! Frames: which parts of the state an operation may change. An operation has one lemma, which names the parts; the
frame of a command is put together from those of its operations. -/

namespace Sys2Proof.Machine

/-- The parts of the state. -/
inductive Part where
  | pending | time | slTime | fresh | out | dict | sl | hs | ps | cr | gb | world | unit | link | lod | port | sw | reg | ch
  | wing | prot | space | lc | tier | coh | comp | job
deriving DecidableEq

/-- A part is in a second state what it is in the first. -/
def Part.Same : Part → State → State → Prop
  | .pending, s, t => t.pending = s.pending
  | .time, s, t => t.time = s.time
  | .slTime, s, t => t.slTime = s.slTime
  | .fresh, s, t => t.fresh = s.fresh
  | .out, s, t => t.out = s.out
  | .dict, s, t => t.dict = s.dict
  | .sl, s, t => t.sl = s.sl
  | .hs, s, t => t.hs = s.hs
  | .ps, s, t => t.ps = s.ps
  | .cr, s, t => t.cr = s.cr
  | .gb, s, t => t.gb = s.gb
  | .world, s, t => t.world = s.world
  | .unit, s, t => t.unit = s.unit
  | .link, s, t => t.link = s.link
  | .lod, s, t => t.lod = s.lod
  | .port, s, t => t.port = s.port
  | .sw, s, t => t.sw = s.sw
  | .reg, s, t => t.reg = s.reg
  | .ch, s, t => t.ch = s.ch
  | .wing, s, t => t.wing = s.wing
  | .prot, s, t => t.prot = s.prot
  | .space, s, t => t.space = s.space
  | .lc, s, t => t.lc = s.lc
  | .tier, s, t => t.tier = s.tier
  | .coh, s, t => t.coh = s.coh
  | .comp, s, t => t.comp = s.comp
  | .job, s, t => t.job = s.job

/-- From `s` to `t` no part changes but those listed. -/
def Touches (l : List Part) (s t : State) : Prop := ∀ p, p ∉ l → p.Same s t

/-- `s` with the listed parts of `t`. -/
def State.grafted (s : State) (l : List Part) (t : State) : State where
  pending := if .pending ∈ l then t.pending else s.pending
  time := if .time ∈ l then t.time else s.time
  slTime := if .slTime ∈ l then t.slTime else s.slTime
  fresh := if .fresh ∈ l then t.fresh else s.fresh
  out := if .out ∈ l then t.out else s.out
  dict := if .dict ∈ l then t.dict else s.dict
  sl := if .sl ∈ l then t.sl else s.sl
  hs := if .hs ∈ l then t.hs else s.hs
  ps := if .ps ∈ l then t.ps else s.ps
  cr := if .cr ∈ l then t.cr else s.cr
  gb := if .gb ∈ l then t.gb else s.gb
  world := if .world ∈ l then t.world else s.world
  unit := if .unit ∈ l then t.unit else s.unit
  link := if .link ∈ l then t.link else s.link
  lod := if .lod ∈ l then t.lod else s.lod
  port := if .port ∈ l then t.port else s.port
  sw := if .sw ∈ l then t.sw else s.sw
  reg := if .reg ∈ l then t.reg else s.reg
  ch := if .ch ∈ l then t.ch else s.ch
  wing := if .wing ∈ l then t.wing else s.wing
  prot := if .prot ∈ l then t.prot else s.prot
  space := if .space ∈ l then t.space else s.space
  lc := if .lc ∈ l then t.lc else s.lc
  tier := if .tier ∈ l then t.tier else s.tier
  coh := if .coh ∈ l then t.coh else s.coh
  comp := if .comp ∈ l then t.comp else s.comp
  job := if .job ∈ l then t.job else s.job

section
variable {l m : List Part} {s t u : State}

/-- A grafted state differs in the grafted parts at most. -/
theorem touches_grafted : Touches l s (s.grafted l u) := by
  intro p hp
  cases p <;> exact if_neg hp

/-- A state that differs in the listed parts alone is the first with those parts of the second. -/
theorem Touches.eq_grafted (h : Touches l s t) : t = s.grafted l t := by
  have part {α : Type} (p : Part) (a b : α) (same : p ∉ l → b = a) : b = if p ∈ l then b else a := by
    split
    · rfl
    · exact same ‹_›
  cases t
  unfold State.grafted
  rw [State.mk.injEq]
  exact ⟨part .pending _ _ (h .pending), part .time _ _ (h .time), part .slTime _ _ (h .slTime), part .fresh _ _ (h .fresh),
    part .out _ _ (h .out), part .dict _ _ (h .dict), part .sl _ _ (h .sl), part .hs _ _ (h .hs), part .ps _ _ (h .ps),
    part .cr _ _ (h .cr), part .gb _ _ (h .gb), part .world _ _ (h .world), part .unit _ _ (h .unit), part .link _ _ (h .link),
    part .lod _ _ (h .lod), part .port _ _ (h .port), part .sw _ _ (h .sw), part .reg _ _ (h .reg), part .ch _ _ (h .ch),
    part .wing _ _ (h .wing), part .prot _ _ (h .prot), part .space _ _ (h .space), part .lc _ _ (h .lc),
    part .tier _ _ (h .tier), part .coh _ _ (h .coh), part .comp _ _ (h .comp), part .job _ _ (h .job)⟩

theorem Touches.refl : Touches [] s s := fun p _ => by cases p <;> rfl

/-- Whether a frame lies within another. -/
def framedBy (m l : List Part) : Bool := m.all fun p => decide (p ∈ l)

theorem Touches.within (h : Touches m s t) (hm : framedBy m l = true) : Touches l s t := fun p hp =>
  h p fun hq => hp (of_decide_eq_true (List.all_eq_true.1 hm p hq))

/-- One operation after another: the two frames together. -/
theorem Touches.after (k : Touches m t u) (h : Touches l s t) : Touches (m ++ l) s u := fun p hp => by
  rw [List.mem_append, not_or] at hp
  obtain ⟨hm, hl⟩ := hp
  have before := h p hl
  have behind := k p hm
  cases p <;> exact behind.trans before

/-- One operation or another. -/
theorem Touches.ite {c : Prop} [Decidable c] (ht : Touches l s t) (hu : Touches m s u) :
    Touches (l ++ m) s (if c then t else u) := by
  intro p hp
  rw [List.mem_append, not_or] at hp
  obtain ⟨hl, hm⟩ := hp
  split
  · exact ht p hl
  · exact hu p hm

/-- A state that is left as it was. -/
theorem Touches.same : Touches l s s := Touches.refl.within rfl

theorem Touches.onlyIf {b : Bool} {f : State → State} (h : Touches l s (f s)) : Touches l s (onlyIf b f s) := by
  unfold Machine.onlyIf
  split
  · exact h
  · exact .same

theorem Touches.forAll {α : Type} {f : α → State → State} (hf : ∀ a t, Touches l t (f a t)) (xs : List α) :
    Touches l s (forAll xs f s) := by
  unfold Machine.forAll
  induction xs generalizing s with
  | nil => exact .same
  | cons a xs ih => exact (ih.after (hf a s)).within (by simp [framedBy])

/-- What a command leaves of a state is what its next state keeps. -/
theorem Touches.of_next (h : Touches l s t) : (Host.Outcome.next t : Out) = .next u → u = s.grafted l u := by
  rintro ⟨⟩
  exact h.eq_grafted

/-! ### The updates of one part -/

theorem touches_modDict {f : Dict → Dict} : Touches [.dict] s (modDict f s) := touches_grafted (u := modDict f s)
theorem touches_modSl {f : Safelight → Safelight} : Touches [.sl] s (modSl f s) := touches_grafted (u := modSl f s)
theorem touches_modHs {f : HotSwap → HotSwap} : Touches [.hs] s (modHs f s) := touches_grafted (u := modHs f s)
theorem touches_modPs {f : PowerStates → PowerStates} : Touches [.ps] s (modPs f s) := touches_grafted (u := modPs f s)
theorem touches_modCr {f : Courier → Courier} : Touches [.cr] s (modCr f s) := touches_grafted (u := modCr f s)
theorem touches_modGb {f : GuestBook → GuestBook} : Touches [.gb] s (modGb f s) := touches_grafted (u := modGb f s)
theorem touches_modUnit {f : UnitService → UnitService} : Touches [.unit] s (modUnit f s) :=
  touches_grafted (u := modUnit f s)
theorem touches_modPort {f : SMap Port → SMap Port} : Touches [.port] s (modPort f s) :=
  touches_grafted (u := modPort f s)
theorem touches_modCh {f : SMap Chan → SMap Chan} : Touches [.ch] s (modCh f s) := touches_grafted (u := modCh f s)
theorem touches_modWing {f : SMap Wing → SMap Wing} : Touches [.wing] s (modWing f s) :=
  touches_grafted (u := modWing f s)
theorem touches_emit {o : Output} : Touches [.out] s (emit o s) := touches_grafted (u := emit o s)
theorem touches_afterDraw : Touches [.fresh] s (afterDraw s) := touches_grafted (u := afterDraw s)

end

end Sys2Proof.Machine
end

section
/-! The frames of the island's operations: the error log, the guest book, the Courier, power entry, presence and the
power states. -/

namespace Sys2Proof.Machine

section
variable {s : State}

/-! ### The error log and the guest book -/

theorem touches_raiseAlert {source kind count seq detail : Nat} :
    Touches [.cr] s (raiseAlert source kind count seq detail s) := by
  unfold raiseAlert
  exact touches_modCr

theorem touches_alertForKind {kind seq : Nat} : Touches [.cr, .unit] s (alertForKind kind seq s) :=
  .within (.ite touches_modUnit (touches_raiseAlert.after touches_modUnit)) rfl

theorem touches_logQuiet {kind unit severity : Nat} {page : Option (Nat × Nat)} {body : Nat} :
    Touches [.unit] s (logQuiet kind unit severity page body s) := by
  unfold logQuiet
  exact touches_modUnit

theorem touches_logEvent {kind unit severity : Nat} {page : Option (Nat × Nat)} {body : Nat} :
    Touches [.cr, .unit] s (logEvent kind unit severity page body s) :=
  .within (.ite touches_logQuiet (touches_alertForKind.after touches_logQuiet)) rfl

theorem touches_logPlain {kind severity : Nat} : Touches [.cr, .unit] s (logPlain kind severity s) := touches_logEvent

theorem touches_alertHoldEnd {kind : Nat} : Touches [.cr, .unit] s (alertHoldEnd kind s) :=
  .within (.ite .refl (.ite touches_modUnit (touches_raiseAlert.after touches_modUnit))) rfl

theorem touches_gbAdd {k n : Nat} : Touches [.gb] s (gbAdd k n s) := touches_modGb

theorem touches_gbFold {toSt : Nat} : Touches [.gb] s (gbFold toSt s) := touches_modGb

theorem touches_gbCutNow {cause toSt : Nat} : Touches [.gb] s (gbCutNow cause toSt s) := by
  unfold gbCutNow
  exact touches_modGb

theorem touches_gbCut {cause toSt : Nat} : Touches [.gb] s (gbCut cause toSt s) :=
  .within (.ite touches_gbFold touches_gbCutNow) rfl

theorem touches_modSector {i : Nat} {f : GbSector → GbSector} : Touches [.gb] s (modSector i f s) := touches_modGb

theorem touches_gbRetire {i : Nat} : Touches [.cr, .gb, .unit] s (gbRetire i s) :=
  .within (.ite (touches_logPlain.after (touches_modGb.after touches_modSector)) touches_modSector) rfl

theorem touches_gbWriteFailed {sector : Nat} : Touches [.cr, .gb, .unit] s (gbWriteFailed sector s) :=
  (touches_gbRetire.after touches_modGb).within rfl

theorem touches_gbPermPut {rec : Nat} : Touches [.gb] s (gbPermPut rec s) := by
  unfold gbPermPut
  split <;> exact touches_modGb

theorem touches_gbPermanent {ok : Bool} {rec : Nat} : Touches [.cr, .gb, .unit] s (gbPermanent ok rec s) := by
  unfold gbPermanent
  split
  · exact .same
  · split
    · exact (touches_gbPermPut.after touches_gbWriteFailed).within rfl
    · exact touches_gbPermPut.within rfl

theorem touches_gbPop : Touches [.gb] s (gbPop s) := touches_modGb

/-- A sector that holds records is erased before a write enters it. -/
theorem touches_gbErased {c : Prop} [Decidable c] {i : Nat} {f : GbSector → GbSector} {g : GuestBook → GuestBook} :
    Touches [.gb] s (if c then modSector i f (modGb g s) else s) :=
  .within (.ite (touches_modSector.after touches_modGb) .refl) rfl

/-- A record goes to the areas of the flash; a write that fails to verify is logged. -/
theorem touches_gbRecordWrite {ok okPerm : Bool} : Touches [.cr, .gb, .unit] s (gbRecordWrite ok okPerm s) := by
  unfold gbRecordWrite
  split
  · exact .same
  · split
    · exact .same
    · split
      · exact touches_modGb.within rfl
      · split
        · exact (touches_gbPop.after touches_gbPermanent).within rfl
        · dsimp only
          exact .within (.ite (touches_gbWriteFailed.after touches_gbErased) (.ite (touches_gbRetire.after touches_gbErased)
            (touches_gbPop.after (touches_gbPermanent.after (touches_modGb.after touches_gbErased))))) rfl

theorem touches_gbFigures {d : Nat} : Touches [.gb] s (gbFigures d s) := .within (.ite .refl touches_modGb) rfl

/-! ### The Courier -/

theorem touches_bumpCr {i : Nat} : Touches [.cr] s (bumpCr i s) := touches_modCr

theorem touches_frameDiscard {badCrc : Bool} : Touches [.cr, .gb] s (frameDiscard badCrc s) :=
  (touches_gbAdd.after touches_bumpCr).within rfl

theorem touches_frameTaken : Touches [.cr] s (frameTaken s) := (touches_bumpCr.after touches_modCr).within rfl

theorem touches_arbLost {arb : Arb} : Touches [.cr] s (arbLost arb s) := by
  cases arb with
  | won => exact .same
  | lost => exact touches_bumpCr
  | duplicate => exact (touches_raiseAlert.after (touches_bumpCr.after touches_modCr)).within rfl

theorem touches_replySent {r : CrReply} {rsp : Resp} : Touches [.out, .cr] s (replySent r rsp s) :=
  (touches_emit.after (touches_bumpCr.after touches_modCr)).within rfl

theorem touches_sendReply {arb : Arb} : Touches [.out, .cr] s (sendReply arb s) := by
  unfold sendReply
  split
  · exact .same
  · split
    · exact .same
    · split
      · exact .same
      · exact .within (.ite touches_replySent touches_arbLost) rfl

theorem touches_sendAlert {arb : Arb} : Touches [.out, .cr] s (sendAlert arb s) := by
  unfold sendAlert
  split
  · exact .same
  · split
    · exact .same
    · exact .within (.ite (touches_emit.after (touches_bumpCr.after touches_modCr)) touches_arbLost) rfl

theorem touches_takeAssign {dest src : BitVec 18} {crc : BitVec 16} {endOk : Bool} :
    Touches [.out, .cr, .gb] s (takeAssign dest src crc endOk s) := by
  unfold takeAssign
  split
  · exact .same
  · split
    · exact touches_frameDiscard.within rfl
    · exact (touches_emit.after (touches_bumpCr.after (touches_modCr.after touches_frameTaken))).within rfl

theorem touches_takeRelease {dest src : BitVec 18} {crc : BitVec 16} {endOk : Bool} :
    Touches [.cr, .gb] s (takeRelease dest src crc endOk s) := by
  unfold takeRelease
  split
  · exact .same
  · split
    · exact touches_frameDiscard
    · exact (touches_modCr.after touches_frameTaken).within rfl

theorem touches_stallTimeout {railHeld : Bool} : Touches [.cr, .gb] s (stallTimeout railHeld s) :=
  .within (.ite .refl (.ite (touches_raiseAlert.after (touches_gbAdd.after touches_modCr))
    (touches_raiseAlert.after touches_frameDiscard))) rfl

/-! ### Power entry -/

theorem touches_bumpHs {i : Nat} : Touches [.hs, .gb] s (bumpHs i s) := (touches_gbAdd.after touches_modHs).within rfl

theorem touches_recordTrip {cause branch peak : Nat} : Touches [.hs, .gb] s (recordTrip cause branch peak s) :=
  (touches_modGb.after touches_modHs).within rfl

theorem touches_seatDebounce : Touches [.hs] s (seatDebounce s) := .within (.ite touches_modHs .refl) rfl

theorem touches_insertDelayEnd : Touches [.hs] s (insertDelayEnd s) := .within (.ite touches_modHs .refl) rfl

/-- A failed check is a trip that is counted and logged. -/
theorem touches_mosfetCheck {midOff midOn vin rise : Nat} :
    Touches [.hs, .cr, .gb, .unit] s (mosfetCheck midOff midOn vin rise s) :=
  .within (.ite .refl (.ite touches_modHs
    (touches_logPlain.after (touches_bumpHs.after (touches_recordTrip.after touches_modHs))))) rfl

theorem touches_retryTime : Touches [.hs, .gb] s (retryTime s) :=
  .within (.ite (touches_bumpHs.after touches_modHs) .refl) rfl

theorem touches_retryCountClear : Touches [.hs] s (retryCountClear s) := .within (.ite touches_modHs .refl) rfl

theorem touches_modBranch {w : Nat} {f : Branch → Branch} : Touches [.hs] s (modBranch w f s) := touches_modHs

theorem touches_branchRampStart {w : Nat} : Touches [.hs] s (branchRampStart w s) :=
  .within (.ite (touches_modBranch.after touches_modHs) .refl) rfl

theorem touches_branchOff {w : Nat} : Touches [.hs] s (branchOff w s) := .within (.ite touches_modBranch .refl) rfl

theorem touches_branchOpen {w : Nat} : Touches [.hs] s (branchOpen w s) :=
  (touches_modHs.after touches_modBranch).within rfl

/-! ### A wing whose branch reports power good -/

theorem touches_cmdEnd {row param status detail : Nat} : Touches [.dict] s (cmdEnd row param status detail s) :=
  .within (.ite touches_modDict .refl) rfl

theorem touches_trainChan {c : Nat} {test : Bool} : Touches [.fresh, .ch] s (trainChan c test s) :=
  (touches_afterDraw.after touches_modCh).within rfl

theorem touches_modChan {c : Nat} {f : Chan → Chan} : Touches [.ch] s (modChan c f s) := touches_modCh

theorem touches_modWingAt {w : Nat} {f : Wing → Wing} : Touches [.wing] s (modWingAt w f s) := touches_modWing

/-- A wing and its channels change, and its branch opens. -/
theorem touches_wingOpens {w : Nat} {f : Chan → Chan} {g : Wing → Wing} :
    Touches [.hs, .ch, .wing] s (branchOpen w (modWingChans w f (modWingAt w g s))) :=
  (touches_branchOpen.after (touches_modChan.after (touches_modChan.after touches_modWingAt))).within rfl

theorem touches_reopenFailed {w c : Nat} : Touches [.dict, .hs, .ch, .wing] s (reopenFailed w c s) := by
  unfold reopenFailed
  dsimp only
  split
  · exact (touches_cmdEnd.after (.ite (touches_cmdEnd.after touches_wingOpens) touches_wingOpens)).within rfl
  · exact .within (.ite (touches_cmdEnd.after touches_wingOpens) touches_wingOpens) rfl

/-- A wing trains, or goes back where one of its channels has failed for good. -/
theorem touches_trainWing {w : Nat} : Touches [.fresh, .dict, .hs, .ch, .wing] s (trainWing w s) := by
  unfold trainWing
  split
  · exact .within (.ite touches_reopenFailed (.forAll (fun _ _ => .ite .refl touches_trainChan) _)) rfl
  · exact (touches_trainChan.after touches_trainChan).within rfl

theorem touches_branchGood {w : Nat} : Touches [.fresh, .dict, .hs, .ch, .wing] s (branchGood w s) :=
  .within (.ite .refl (.ite (touches_trainWing.after touches_modBranch) touches_modBranch)) rfl

/-! ### Presence and temperature -/

theorem touches_thermWarn : Touches [.sl] s (thermWarn s) := .within (.ite touches_modSl (.ite touches_modSl .refl)) rfl

theorem touches_sensorRead {d : Nat} {t : Int} : Touches [.sl] s (sensorRead d t s) :=
  .within (.ite (touches_thermWarn.after touches_modSl) .refl) rfl

/-! ### Power states -/

/-- A wake is recorded for the entry or the exit that takes it. -/
theorem touches_wake {source : Nat} : Touches [.ps] s (wake source s) := by
  unfold wake
  split
  · exact .within (.ite touches_modPs (.ite touches_modPs .refl)) rfl
  · exact .within (.ite .refl touches_modPs) rfl
  · exact .within (.ite .refl touches_modPs) rfl
  · exact .same

/-- A change of the power state may cut a period of the guest book. -/
theorem touches_psEnter {st : PsState} : Touches [.ps, .gb] s (psEnter st s) :=
  .within (.ite touches_modPs (.ite (touches_gbFold.after touches_modPs) (touches_gbCut.after touches_modPs))) rfl

theorem touches_psRecompute {source : Nat} : Touches [.ps, .gb] s (psRecompute source s) := by
  unfold psRecompute
  dsimp only
  split
  case h_1 | h_2 | h_3 =>
    exact .within (.ite (.ite (touches_psEnter.after touches_modPs) touches_modPs)
      (.ite (touches_psEnter.after touches_modPs) touches_modPs)) rfl
  case h_4 | h_5 | h_6 => exact .within (.ite (touches_wake.after touches_modPs) touches_modPs) rfl
  case h_7 => exact touches_modPs.within rfl

/-- A vote changes the target; a port's is held with the port. -/
theorem touches_voteChange {c : VoteChange} : Touches [.ps, .gb, .port] s (voteChange c s) := by
  unfold voteChange
  split
  · exact (touches_psRecompute.after touches_modPs).within rfl
  · exact (touches_psRecompute.after touches_modPs).within rfl
  · exact (touches_psRecompute.after (.onlyIf touches_modPort)).within rfl
  · exact touches_psRecompute.within rfl

theorem touches_engineGate {u : Nat} : Touches [.ps, .gb] s (engineGate u s) :=
  .within (.ite (.ite (touches_psEnter.after touches_modPs) touches_modPs) .refl) rfl

theorem touches_timerExpires : Touches [.ps] s (timerExpires s) :=
  .within (.ite (touches_wake.after touches_modPs) .refl) rfl

theorem touches_holdLapses : Touches [.ps, .gb] s (holdLapses s) :=
  .within (.ite (touches_psRecompute.after touches_modPs) .refl) rfl

theorem touches_nightEntry : Touches [.ps, .gb] s (nightEntry s) :=
  .within (.ite (touches_psEnter.after (touches_modPs.after touches_modPs)) .refl) rfl

theorem touches_wakeTaken {src : Nat} {f : PowerStates → PowerStates} :
    Touches [.ps] s (bumpPs 2 (recordWake src 0 (modPs f s))) :=
  (touches_modPs.after (touches_modPs.after touches_modPs)).within rfl

/-- A latched wake starts the exit; out of `OFF` the main input starts its sequence too. -/
theorem touches_exitStart : Touches [.hs, .ps, .gb] s (exitStart s) := by
  unfold exitStart
  split
  · exact .same
  · dsimp only
    split
    · exact (touches_psEnter.after (touches_modPs.after touches_wakeTaken)).within rfl
    · exact .within (.ite (touches_psEnter.after (touches_modHs.after (touches_modPs.after touches_wakeTaken))) .refl) rfl
    · exact .same

theorem touches_presence {low : Bool} :
    Touches [.sl, .ps] s (if s.sl.vstby = false then s else if low then wake 5 (presenceLow s) else presenceHigh s) :=
  .within (.ite .refl (.ite (touches_wake.after touches_modSl) touches_modSl)) rfl

/-! ### The standby island and the flash -/

/-- The standby island takes over what its own copies hold. -/
theorem touches_heartbeatLost : Touches [.dict, .sl, .hs, .gb, .unit] s (heartbeatLost s) :=
  .within (.ite .refl (touches_modGb.after (touches_modHs.after (touches_modUnit.after
    (touches_modDict.after touches_modSl))))) rfl

theorem touches_respond {tgt : ReplyTo} {param : Nat} {r : Resp} : Touches [.out, .cr] s (respond tgt param r s) := by
  unfold respond
  split
  · exact touches_modCr.within rfl
  · exact .within (.onlyIf touches_emit) rfl
  · exact touches_emit.within rfl
  · exact .same

/-- The first entry of the queue to the flash is written, and the answer that waited for it goes out. -/
theorem touches_flashDone : Touches [.out, .dict, .sl, .cr] s (flashDone s) := by
  unfold flashDone
  split
  · exact .same
  · dsimp only
    split
    · exact (touches_modSl.after touches_modDict).within rfl
    · exact (touches_respond.after (touches_cmdEnd.after (touches_modSl.after touches_modDict))).within rfl

end

/-- Settles O53: each command is one operation, whose frame is put together above. -/
theorem islandCommandsTouchOnlyTheirPart : Obligations.IslandCommandsTouchOnlyTheirPart := by
  refine ⟨fun _ _ => Touches.of_next (l := [.cr]) (.onlyIf touches_modCr),
    fun _ _ _ => Touches.of_next (l := [.cr]) touches_modCr,
    fun _ _ => Touches.of_next (l := [.cr]) (.ite touches_modCr .refl),
    fun _ _ => Touches.of_next (l := [.cr]) (.ite touches_modCr .refl),
    fun _ _ => Touches.of_next (l := [.cr]) (.onlyIf touches_bumpCr),
    fun _ _ _ => Touches.of_next (l := [.out, .cr]) touches_sendReply,
    fun _ _ _ => Touches.of_next (l := [.out, .cr]) touches_sendAlert,
    fun _ _ _ => Touches.of_next (l := [.cr, .unit]) touches_alertHoldEnd,
    fun _ _ _ _ _ _ => Touches.of_next (l := [.out, .cr, .gb]) touches_takeAssign,
    fun _ _ _ _ _ _ => Touches.of_next (l := [.cr, .gb]) touches_takeRelease,
    fun _ _ _ => Touches.of_next (l := [.cr, .gb]) touches_stallTimeout,
    fun _ _ _ => Touches.of_next (l := [.gb]) touches_gbFigures,
    fun _ _ => Touches.of_next (l := [.gb]) (.onlyIf touches_gbCut),
    fun _ _ _ => Touches.of_next (l := [.cr, .gb, .unit]) touches_gbRecordWrite,
    fun _ _ => Touches.of_next (l := [.hs]) touches_insertDelayEnd,
    fun _ _ => Touches.of_next (l := [.hs]) touches_seatDebounce,
    fun _ _ => Touches.of_next (l := [.hs, .gb]) touches_retryTime,
    fun _ _ => Touches.of_next (l := [.hs]) touches_retryCountClear,
    fun _ _ _ _ _ _ => Touches.of_next (l := [.hs, .cr, .gb, .unit]) touches_mosfetCheck,
    fun _ _ _ => Touches.of_next (l := [.hs]) touches_branchRampStart,
    fun _ _ _ => Touches.of_next (l := [.hs]) touches_branchOff,
    fun _ _ _ => Touches.of_next (l := [.fresh, .dict, .hs, .ch, .wing]) touches_branchGood,
    fun _ _ _ => Touches.of_next (l := [.sl, .ps]) touches_presence,
    fun _ _ => Touches.of_next (l := [.sl]) touches_modSl,
    fun _ _ _ => Touches.of_next (l := [.sl]) (.ite touches_modSl .refl),
    fun _ _ _ _ _ _ _ => Touches.of_next (l := [.sl]) touches_sensorRead,
    fun _ _ _ => Touches.of_next (l := [.ps]) touches_modPs,
    fun _ _ => Touches.of_next (l := [.ps]) touches_timerExpires,
    fun _ _ => Touches.of_next (l := [.ps, .gb]) touches_holdLapses,
    fun _ _ => Touches.of_next (l := [.ps, .gb]) touches_nightEntry,
    fun _ _ => Touches.of_next (l := [.hs, .ps, .gb]) touches_exitStart,
    fun _ _ _ => Touches.of_next (l := [.ps, .gb, .port]) touches_voteChange,
    fun _ _ _ => Touches.of_next (l := [.ps, .gb]) touches_engineGate,
    fun _ _ => Touches.of_next (l := [.dict, .sl, .hs, .gb, .unit]) touches_heartbeatLost,
    fun _ _ => Touches.of_next (l := [.out, .dict, .sl, .cr]) touches_flashDone⟩

end Sys2Proof.Machine
end

section
/-! What a tick of the empty queue leaves as it was where nothing is due (log 1). -/

namespace Sys2Proof.Machine

/-- No unit over its limit: none leaves service. -/
theorem unitsSettle_of_none_over {s : State} (h : ∀ e ∈ s.unit.units, unitOverLimit s e.2 = false) : unitsSettle s = s := by
  have noneOver : s.unit.units.filter (fun e => unitOverLimit s e.2) = [] :=
    List.filter_eq_nil_iff.2 fun e he => by simp [h e he]
  unfold unitsSettle
  rw [noneOver]
  rfl

/-- No port down: none starts to train. -/
theorem portsRetrain_of_none_down {s : State} (h : ∀ p, p < 64 → (portAt s p).link ≠ .down) : portsRetrain s = s := by
  unfold portsRetrain onlyIf
  rw [List.filter_eq_nil_iff.2 fun p hp => by simp [h p (List.mem_range.1 hp)]]
  split <;> rfl

theorem step_of_no_command {s : State} (h : s.pending = []) :
    step s = .next (clocksTick (votesSettle (portsRetrain (unitsSettle s)))) := by
  unfold step
  rw [h]
  rfl

/-- Settles O40: with nothing due, the parts of a tick before the clocks leave the state as it was. -/
theorem emptyQueueTicks : Obligations.EmptyQueueTicks := by
  refine ⟨fun s => step_of_no_command, fun s hq hunits hports hvotes => ?_⟩
  rw [step_of_no_command hq, unitsSettle_of_none_over hunits, portsRetrain_of_none_down hports, hvotes]
  rfl

end Sys2Proof.Machine
end

section
/-! What the events of replaceable units do: one equation for each case of the handlers of Machine/UnitService.lean. -/

namespace Sys2Proof.Machine

/-! ### Watchdogs, drains and mirrors -/

/-- A watchdog of a unit that is no Corridor link (14 R361): a wing's has no channels to unpower. -/
theorem watchdog_of_unit {u : Nat} {s : State} (hlink : unitClass u ≠ 9)
    (hwing : ¬(unitClass u = 2 ∧ (unitAt s u).state ≠ .outOfService)) : watchdog u s = recomputeD (unitFault u 1 s) := by
  unfold watchdog
  rw [if_neg hlink, if_neg hwing]

/-- A watchdog of a wing in service takes its two channels' power too. -/
theorem watchdog_of_wing {u : Nat} {s : State} (hclass : unitClass u = 2) (hin : (unitAt s u).state ≠ .outOfService) :
    watchdog u s =
      chanUnpowered false (2 * unitIndex u + 1) (chanUnpowered false (2 * unitIndex u) (recomputeD (unitFault u 1 s))) := by
  unfold watchdog
  rw [if_neg (by simp [hclass]), if_pos ⟨hclass, hin⟩]

/-- A watchdog of an active Corridor link resets it with cause 3. -/
theorem watchdog_of_link {u : Nat} {s : State} (hclass : unitClass u = 9) (hup : (linkAt s (u - 344)).state = .active) :
    watchdog u s = linkJudged (u - 344) (linkReset (u - 344) false 3 s) := by
  unfold watchdog
  rw [if_pos hclass, if_pos hup]

/-- A drained unit whose class brings no further work is out of service with cause 5, and its command ends `OK`. -/
theorem drainComplete_of_drained {u : Nat} {s : State} (hst : (unitAt s u).state = .draining) (hd : drained s u = true)
    (hclass : unitClass u ∉ [8, 9, 10]) : drainComplete u s = cmdEnd u P.UNIT_CMD 0x00 0 (unitOut u 5 s) := by
  simp only [List.mem_cons, List.not_mem_nil, or_false, not_or] at hclass
  obtain ⟨h8, h9, h10⟩ := hclass
  unfold drainComplete
  rw [if_neg (by simp [hst, hd])]
  split
  · exact absurd ‹_› h10
  · exact absurd ‹_› h8
  · exact absurd ‹_› h9
  · rfl

/-- A suspended mirror is restored once both dies of the pair serve (01 R25). -/
theorem mirrorRestore_of_serving {d : Nat} {s : State} (hoff : s.prot.mirrorOff.contains d = true)
    (hown : unitServes s (372 + d) = true) (hpair : unitServes s (372 + partner d) = true) :
    mirrorRestore d s = mirrorNotice 0 (modProt (fun x => { x with
      mirrorOff := x.mirrorOff.filter (· ≠ d), nodeM := smFilter (fun k _ => k / 2 ^ 40 != d) x.nodeM }) s) := by
  unfold mirrorRestore
  rw [if_neg (by simp only [hoff, hown, hpair, Bool.true_or]; decide)]

/-! ### The takeover of a slice -/

theorem smFind_insert_same {α : Type} {m : SMap α} {k : Nat} {v : α} (hm : ∀ e ∈ m, e.1 ≠ k) :
    smFind (smInsert m k v) k = some v := by
  induction m with
  | nil => simp [smInsert, smFind]
  | cons e m ih =>
    have he : e.1 ≠ k := hm e (by simp)
    have hrest := ih fun x hx => hm x (by simp [hx])
    by_cases h : k < e.1 <;> simp [smInsert, smFind, h, he, hrest]

theorem smFind_insert_other {α : Type} {m : SMap α} {k j : Nat} {v : α} (hj : j ≠ k) :
    smFind (smInsert m k v) j = smFind m j := by
  induction m with
  | nil => simp [smInsert, smFind, hj.symm]
  | cons e m ih => by_cases h : k < e.1 <;> simp [smInsert, smFind, h, hj.symm, ih]

theorem smFind_erase_other {α : Type} {m : SMap α} {k j : Nat} (hj : j ≠ k) : smFind (smErase m k) j = smFind m j := by
  induction m with
  | nil => rfl
  | cons e m ih =>
    by_cases h : e.1 = k
    · simp [smErase, smFind, h, hj.symm, ih]
    · simp [smErase, smFind, h, ih]

/-- A key set in a map is found with its value. -/
theorem smFind_set_same {α : Type} (m : SMap α) (k : Nat) (v : α) : smFind (smSet m k v) k = some v :=
  smFind_insert_same fun _ he => (mem_smErase.1 he).2

/-- A key set in a map leaves what every other key finds. -/
theorem smFind_set_other {α : Type} (m : SMap α) {k j : Nat} (v : α) (hj : j ≠ k) :
    smFind (smSet m k v) j = smFind m j := by
  rw [smSet, smFind_insert_other hj, smFind_erase_other hj]

/-- The end of a takeover scan (14 R364): whatever the scan wrote back, the slice found serves, the scan is over, and no cache
line of the lost slice is left. -/
theorem takeoverScanned_serves {i t0 : Nat} {s : State} (hscan : s.unit.scanning.contains i = true)
    (hby : takeoverBy s i = some t0) :
    smFind (takeoverScanned i s).unit.takeover i = some t0 ∧ (takeoverScanned i s).unit.scanning.contains i = false ∧
      (takeoverScanned i s).lc.any (fun e => e.1 / 16 / 3072 == i) = false := by
  have scanned : ∃ w : State, takeoverScanned i s = modLc (smFilter fun k _ => k / 16 / 3072 != i) (modUnit (fun x => { x with
      takeover := smSet x.takeover i t0, scanning := x.scanning.filter (· ≠ i) }) w) := by
    unfold takeoverScanned
    rw [if_neg (by rw [hscan]; decide), hby]
    exact ⟨_, rfl⟩
  obtain ⟨w, hw⟩ := scanned
  rw [hw]
  refine ⟨smFind_set_same _ _ _, ?_, ?_⟩
  · simp
  · simp [smFilter]

/-! ### Descriptors that are written again -/

/-- A descriptor is read from the granule map and the descriptors alone. -/
theorem descAt_congr {s t : State} {n : Nat} (p : Nat) (hslots : (lodgeAt t n).slots = (lodgeAt s n).slots)
    (hdesc : t.prot.desc = s.prot.desc) (hbase : t.prot.base = s.prot.base) : descAt t n p = descAt s n p := by
  unfold descAt slotOf
  rw [hslots, hdesc, hbase]

/-- What `setDesc` changes of what a descriptor is read from. -/
theorem setDesc_effect (n p : Nat) (x : Desc) (s : State) : (setDesc n p x s).lod = s.lod ∧
    (setDesc n p x s).prot.desc = smSet s.prot.desc (pageKey n p) x ∧ (setDesc n p x s).prot.base = s.prot.base := by
  unfold setDesc
  split
  · exact ⟨rfl, rfl, rfl⟩
  · dsimp only
    split <;> split <;> exact ⟨rfl, rfl, rfl⟩

/-- A descriptor set reads back where its page has a granule slot. -/
theorem descAt_setDesc_same {n p m : Nat} {s : State} (x : Desc) (hm : slotOf s n p = some m) :
    descAt (setDesc n p x s) n p = some x := by
  obtain ⟨hlod, hdesc, hbase⟩ := setDesc_effect n p x s
  have hslot : slotOf (setDesc n p x s) n p = some m := by rw [← hm]; unfold slotOf lodgeAt; rw [hlod]
  unfold descAt
  rw [hslot, hdesc, smFind_set_same]
  rfl

/-- A descriptor set leaves those of the lodging's other pages. -/
theorem descAt_setDesc_other {n p q : Nat} {s : State} (x : Desc) (hq : q ≠ p) :
    descAt (setDesc n p x s) n q = descAt s n q := by
  obtain ⟨hlod, hdesc, hbase⟩ := setDesc_effect n p x s
  have hkey : pageKey n q ≠ pageKey n p := by unfold pageKey; omega
  unfold descAt slotOf lodgeAt
  rw [hlod, hdesc, hbase, smFind_set_other _ _ hkey]

theorem slotOf_of_descAt {s : State} {n p : Nat} {x : Desc} (h : descAt s n p = some x) : ∃ m, slotOf s n p = some m := by
  cases hm : slotOf s n p with
  | none => simp [descAt, hm] at h
  | some m => exact ⟨m, rfl⟩

/-! ### The rebuilding of a die (14 R366) -/

/-- What becomes of one page of a descriptor line of die `d` under rebuild. -/
def pageRebuilt (d n p : Nat) (t : State) : State :=
  match descAt t n p with
  | none => t
  | some x =>
    if x.state = .unmapped then t
    else
      setDesc n p { state := .lost, owner := n, phase := x.phase, isSealed := lodgeAttr t n 0
                    isolated := lodgeAttr t n 1, pinned := lodgeAttr t n 3, version := smGet 0 t.prot.hwm d }
        (countersDrop n p (modLodge n (fun l => { l with
          pagesLost := if x.state = .lost then l.pagesLost else l.pagesLost + 1 }) t))

/-- The count of lost pages and the loss of a page's counters leave the granule slots of a lodging. -/
theorem slots_countersDrop_modLodge (n p : Nat) (f : Lodge → Lodge) (s : State) (hf : ∀ l, (f l).slots = l.slots) :
    (lodgeAt (countersDrop n p (modLodge n f s)) n).slots = (lodgeAt s n).slots := by
  show (smGet {} (smMod {} s.lod.lodges n f) n).slots = _
  rw [smMod, smGet_put_same, hf]
  rfl

/-- A page that is not `UNMAPPED` reads `LOST` once its line is rewritten. -/
theorem descAt_pageRebuilt_same {d n p : Nat} {x : Desc} {s : State} (hx : descAt s n p = some x) (hst : x.state ≠ .unmapped) :
    (descAt (pageRebuilt d n p s) n p).map Desc.state = some PageState.lost := by
  unfold pageRebuilt
  rw [hx]
  dsimp only
  rw [if_neg hst]
  obtain ⟨m, hm⟩ := slotOf_of_descAt hx
  rw [descAt_setDesc_same (m := m)]
  · rfl
  · unfold slotOf at hm ⊢
    rw [slots_countersDrop_modLodge, hm]
    intro l
    rfl

/-- The rewriting of one page leaves the descriptors of the lodging's others. -/
theorem descAt_pageRebuilt_other {d n p q : Nat} (s : State) (hq : q ≠ p) :
    descAt (pageRebuilt d n p s) n q = descAt s n q := by
  unfold pageRebuilt
  split
  · rfl
  · split
    · rfl
    · rw [descAt_setDesc_other _ hq]
      refine descAt_congr q ?_ rfl rfl
      rw [slots_countersDrop_modLodge]
      intro l
      rfl

/-- The line after the one under rebuild, or the next granule's. -/
def rebuildNext (q : Nat) (rest : List Nat) : List Nat := if q % 8192 = 8191 then rest else (q + 1) :: rest

theorem rebuildLine_next {d q : Nat} {rest : List Nat} {s : State} (h : smGet [] s.unit.rebuild d = q :: rest) :
    rebuildLine d s = rebuildAt d q (modUnit (fun x => { x with rebuild := smPut [] x.rebuild d (rebuildNext q rest) }) s) := by
  unfold rebuildLine
  rw [h]
  rfl

/-- A granule slot that is free has no descriptors to rewrite. -/
theorem rebuildLine_of_free {d q : Nat} {rest : List Nat} {s : State} (hq : smGet [] s.unit.rebuild d = q :: rest)
    (hfree : smFind s.lod.slots (q / 8192) = none) :
    rebuildLine d s = modUnit (fun x => { x with rebuild := smPut [] x.rebuild d (rebuildNext q rest) }) s := by
  rw [rebuildLine_next hq]
  unfold rebuildAt
  rw [modUnit_lod, hfree]

/-- A granule slot that is taken has the two pages of its line rewritten. -/
theorem rebuildLine_of_slot {d q : Nat} {rest : List Nat} {r : SlotRec} {s : State}
    (hq : smGet [] s.unit.rebuild d = q :: rest) (hslot : smFind s.lod.slots (q / 8192) = some r) :
    rebuildLine d s = pageRebuilt d r.lodging (descPage r.lodging r.granule d (2 * (q % 8192) + 1))
      (pageRebuilt d r.lodging (descPage r.lodging r.granule d (2 * (q % 8192)))
        (modUnit (fun x => { x with rebuild := smPut [] x.rebuild d (rebuildNext q rest) }) s)) := by
  rw [rebuildLine_next hq]
  unfold rebuildAt
  rw [modUnit_lod, hslot]
  rfl

/-! ### The return of a unit (14 R368) -/

/-- A re-key engine that passes its test has nothing to rebuild: it rejoins. -/
theorem rejoinTestDone_of_engine {u : Nat} {s : State} (hst : (unitAt s u).state = .testing) (hstep : (unitAt s u).step ≠ 3)
    (hclass : unitClass u = 7) : rejoinTestDone u true s = rejoinEnter u s := by
  have below : ¬ 372 ≤ u := fun h => by
    have top : unitClass u = 10 := by
      unfold unitClass
      iterate 10 rw [if_neg (by omega)]
    omega
  unfold rejoinTestDone rejoinRebuild
  simp [hst, hstep, hclass, below]

/-- A unit but a channel that fails its test goes back out of service. -/
theorem rejoinTestDone_of_failed {u : Nat} {s : State} (hst : (unitAt s u).state = .testing) (hstep : (unitAt s u).step ≠ 3)
    (hclass : unitClass u ≠ 1) : rejoinTestDone u false s = rejoinBack u s := by
  unfold rejoinTestDone
  simp [hst, hstep, hclass]

/-- Probation without a fault ends in service. -/
theorem unitProbation_of_rejoining {u : Nat} {s : State} (hst : (unitAt s u).state = .rejoining)
    (hstep : (unitAt s u).step = 4) :
    let s1 := cmdEnd u P.UNIT_CMD 0x00 0 (noticeFmPort u 0 (logEvent 7 u 1 none (unitBody 0 0)
      (modUnitRec u (fun r => { r with state := .inService, step := 0, recent := [] }) s)))
    unitProbation u s = recomputeD (if unitClass u = 10 then dieUnitsReturn (unitIndex u) .inService s1 else s1) := by
  unfold unitProbation
  rw [if_neg (by simp [hst, hstep])]

/-! ### The obligation -/

/-- Settles O38: each event is the equation of its handler's case. -/
theorem unitEventsAct : Obligations.UnitEventsAct := by
  refine ⟨fun u s hlink hwing => congrArg Host.Outcome.next (watchdog_of_unit hlink hwing),
    fun u s hclass hin => congrArg Host.Outcome.next (watchdog_of_wing hclass hin),
    fun u s hclass hup => congrArg Host.Outcome.next (watchdog_of_link hclass hup),
    fun u s hst hd hclass => congrArg Host.Outcome.next (congrArg recomputeD (drainComplete_of_drained hst hd hclass)),
    fun i t0 s hscan hby => ⟨_, rfl, takeoverScanned_serves hscan hby⟩,
    fun d q rest s hq hfree => congrArg Host.Outcome.next (rebuildLine_of_free hq hfree),
    fun d q rest r x s hq hslot hx hst hne => ⟨_, rfl, ?_⟩,
    fun d s hoff hown hpair => congrArg Host.Outcome.next (mirrorRestore_of_serving hoff hown hpair),
    fun s hnight hoff => congrArg Host.Outcome.next (if_neg (by simp [hnight, hoff])),
    fun u s hst hstep hclass => congrArg Host.Outcome.next (rejoinTestDone_of_engine hst hstep hclass),
    fun u s hst hstep hclass => congrArg Host.Outcome.next (rejoinTestDone_of_failed hst hstep hclass),
    fun u s hst hstep => congrArg Host.Outcome.next (unitProbation_of_rejoining hst hstep)⟩
  rw [rebuildLine_of_slot hq hslot, descAt_pageRebuilt_other _ hne]
  exact descAt_pageRebuilt_same hx hst

end Sys2Proof.Machine
end

section
/-! The way of a host's request that waits for nothing: through its slice's queue, the home arbiter and Table 8.2
(01 R26-R28, 08 R215, 09 R246, 10 R275). -/

namespace Sys2Proof.Machine

/-! ### A lone request in its slice's queue -/

/-- The place a lone request takes in its slice's queue. -/
def homeEntry (r : MemReq) (s : State) : HomeReq :=
  let now := dieTime s (4 + homeSlice r.n r.p / 16)
  ⟨{ r with arrived := some now }, 0, now, 48⟩

/-- The state in which a lone request stands in its slice's queue. -/
def joinedAlone (r : MemReq) (s : State) : State :=
  modCoh (fun c => { c with home := [(homeSlice r.n r.p, [homeEntry r s])] }) (fairArrive (homeSlice r.n r.p) r.group s)

theorem homeJoin_alone {r : MemReq} {s : State} (hhome : s.coh.home = []) (hlink : linkHeld s r = false)
    (hplace : homePlace s (homeSlice r.n r.p) r.group = 0) : homeJoin r s = joinedAlone r s := by
  unfold homeJoin
  simp only [hlink, hplace, homeOf, hhome]
  show modCoh (fun c => { c with home := smMod [] c.home _ _ }) (fairArrive _ _ s) = _
  unfold modCoh
  simp [fairArrive, modReg, hhome]
  rfl

/-- What keeps a request waiting reads neither the queues nor the fair-queueing points. -/
theorem mustWait_joinedAlone (r : MemReq) (s : State) : mustWait (joinedAlone r s) (homeEntry r s).req = mustWait s r := rfl

theorem homeReady_joinedAlone {r : MemReq} {s : State} (hwait : mustWait s r = false) :
    homeReady (joinedAlone r s) (homeSlice r.n r.p) = [homeEntry r s] := by
  have queue : homeOf (joinedAlone r s) (homeSlice r.n r.p) = [homeEntry r s] := by simp [joinedAlone, homeOf, smGet]
  have first : (homeEntry r s).behind [homeEntry r s] = false := by simp [HomeReq.behind]
  have place : (homeEntry r s).place = 0 := rfl
  have goes : mustWait (joinedAlone r s) (homeEntry r s).req = false := (mustWait_joinedAlone r s).trans hwait
  unfold homeReady
  rw [queue]
  simp [goes, first, place]

/-- Of one request, whether it has waited 10 microseconds or not, that one is released. -/
theorem first_of_one (s : State) (h : HomeReq) (old : HomeReq → Bool) (prio late : HomeReq → Nat) :
    (if [h].filter old = [] then HomeReq.first s prio [h] else HomeReq.first s late ([h].filter old)) = some h := by
  cases hold : old h <;> simp [hold, HomeReq.first]

/-- A lone request that leaves its slice's queue leaves none behind. -/
theorem joinedAlone_left {r : MemReq} {s : State} (hhome : s.coh.home = []) :
    modCoh (fun c => { c with home := smMod [] c.home (homeSlice r.n r.p) (List.erase · (homeEntry r s)) }) (joinedAlone r s) =
      fairArrive (homeSlice r.n r.p) r.group s := by
  have coh : { s.coh with home := [] } = s.coh := by rw [← hhome]
  unfold modCoh joinedAlone
  simp [modCoh, smMod, smPut, smGet, smErase, fairArrive, modReg, coh]


theorem homeSelect_of_one {slice : Nat} {h : HomeReq} {s : State} (hready : homeReady s slice = [h]) :
    homeSelect slice s =
      let s1 := modCoh (fun c => { c with home := smMod [] c.home slice (List.erase · h) }) s
      let s2 := fairServe slice h.req.group 64 ((homeOf s1 slice).any fun x => x.req.group == h.req.group) s1
      homeSettle slice (if unitServes s (372 + slice / 16) = false then refuseReq 11 h.req s2 else arrive h.req s2) := by
  have picked : fairPick s slice ([h].map (·.req.group)).eraseDups = some h.req.group := rfl
  have mine : [h].filter (fun x => x.req.group == h.req.group) = [h] := by simp
  unfold homeSelect
  simp only [hready, picked, mine, first_of_one]

theorem homeSelect_alone {r : MemReq} {s : State} (hhome : s.coh.home = []) (hwait : mustWait s r = false)
    (hdie : unitServes s (372 + homeSlice r.n r.p / 16) = true) :
    homeSelect (homeSlice r.n r.p) (joinedAlone r s) =
      homeSettle (homeSlice r.n r.p) (arrive (homeEntry r s).req (fairPass (homeSlice r.n r.p) r.label 64 s)) := by
  have serves : unitServes (joinedAlone r s) (372 + homeSlice r.n r.p / 16) = true := hdie
  have empty : homeOf (fairArrive (homeSlice r.n r.p) r.group s) (homeSlice r.n r.p) = [] := by
    simp [homeOf, fairArrive, hhome, smGet]
  rw [homeSelect_of_one (homeReady_joinedAlone hwait)]
  dsimp only
  rw [joinedAlone_left hhome, empty, serves, if_neg (by decide)]
  rfl

/-! ### The home arbiter -/

/-- Fair queueing leaves the home slices. -/
theorem fairPass_coh (point label len : Nat) (s : State) : (fairPass point label len s).coh = s.coh := by
  unfold fairPass fairServe fairArrive
  rw [modReg_coh, modReg_coh]

/-- A request that reaches the arbiter alone is evaluated. -/
theorem arrive_alone {r : MemReq} {s : State} (hbusy : lineBusy s r = false) (hhome : s.coh.home = []) :
    arrive r s = evaluate { r with ordered := true } (ordered r s) := by
  have empty : homeOf s (homeSlice r.n r.p) = [] := by simp [homeOf, hhome, smGet]
  have busy : lineBusy s { r with ordered := true } = false := hbusy
  unfold arrive
  dsimp only
  rw [busy, empty]
  rfl

/-- A request that nothing stops at the arbiter, that needs no snoop and finds a way, is performed. -/
theorem evaluate_performs {r : MemReq} {s : State} (htag : r.tagGood = true) (hdomain : domainRefuses s r = false)
    (hlock : pageLocked s r.n r.p = false) (hstall : pageStalled s r.n r.p = false) (hsnoop : snoopFor s r = none)
    (hway : (needsEntry s r && (freeWay s (dirSet (homeSlice r.n r.p) (lineKey r.n r.p r.i))).isNone) = false)
    (hdone : (perform r s).2 = true) : evaluate r s = (perform r s).1 := by
  unfold evaluate
  dsimp only
  rw [htag, hdomain, hlock, hstall, hsnoop, hdone]
  rw [ite_self, if_neg (by decide), if_neg (by decide), if_neg (by decide)]
  dsimp only
  rw [if_neg, if_pos rfl]
  rintro ⟨hneeds, hnone⟩
  rw [hneeds, hnone] at hway
  exact absurd hway (by decide)

/-- What neither the regulation, the tokens nor a slice's pointer show reads as before a request's arrival. -/
theorem arrived_reads {α : Type} (g : State → α) (r : MemReq) (s : State) (hreg : ∀ f t, g (modReg f t) = g t)
    (htokens : ∀ d k t, g (tokensTake d k t) = g t) (hpointer : ∀ slice p t, g (pointerPast slice p t) = g t) :
    g (arrived r s) = g s := by
  have fair : g (fairPass (homeSlice r.n r.p) r.label 64 s) = g s := by
    unfold fairPass fairServe fairArrive
    rw [hreg, hreg]
  unfold arrived ordered tokenTake onlyIf
  split
  · exact fair
  · rw [htokens]
    split
    · rw [hpointer, fair]
    · exact fair

/-- What `atOnce` says, part by part. -/
theorem atOnce_parts {r : MemReq} {s : State} (h : atOnce r s = true) :
    (answersSnoop s r = none ∧ unitServes s (372 + homeDie r.n r.p) = true ∧
      unitServes s (372 + homeSlice r.n r.p / 16) = true ∧ domainRefuses s r = false) ∧
    (mustWait s r = false ∧ linkHeld s r = false ∧ s.coh.home = [] ∧ homePlace s (homeSlice r.n r.p) r.group = 0) ∧
    lineBusy (fairPass (homeSlice r.n r.p) r.label 64 s) r = false ∧
    (r.tagGood = true ∧ r.ordered = false ∧ r.snooped = false) ∧ snoopFor (arrived r s) r = none ∧
    (needsEntry (arrived r s) r && (freeWay (arrived r s) (dirSet (homeSlice r.n r.p) (lineKey r.n r.p r.i))).isNone) = false ∧
    (perform (r.taken s) (arrived r s)).2 = true := by
  unfold atOnce at h
  dsimp only at h
  simp only [Bool.and_eq_true, Bool.not_eq_true', beq_iff_eq, List.isEmpty_iff, Option.isNone_iff_eq_none, and_assoc] at h ⊢
  exact h

theorem mustWait_parts {r : MemReq} {s : State} (h : mustWait s r = false) :
    pageLocked s r.n r.p = false ∧ pageStalled s r.n r.p = false := by
  unfold mustWait at h
  simp only [Bool.or_eq_false_iff, and_assoc] at h
  obtain ⟨-, hlock, hstall, -⟩ := h
  exact ⟨hlock, hstall⟩

/-- A request that waits for nothing is performed (08 R215). -/
theorem order_served {r : MemReq} {s : State} (h : atOnce r s = true) : order r s = served r s := by
  obtain ⟨⟨hsnoop, hdie, hslice, hdomain⟩, ⟨hwait, hlink, hhome, hplace⟩, hbusy, ⟨htag, -, -⟩, hfor, hway, hdone⟩ := atOnce_parts h
  obtain ⟨hlock, hstall⟩ := mustWait_parts hwait
  have empty : homeReady s (homeSlice r.n r.p) = [] := by simp [homeReady, homeOf, hhome, smGet]
  have home : (fairPass (homeSlice r.n r.p) r.label 64 s).coh.home = [] := by rw [fairPass_coh, hhome]
  have domain : domainRefuses (arrived r s) r = false := by
    rw [arrived_reads (domainRefuses · r) r s (fun _ _ => rfl) (fun _ _ _ => rfl) (fun _ _ _ => rfl), hdomain]
  have lock : pageLocked (arrived r s) r.n r.p = false := by
    rw [arrived_reads (pageLocked · r.n r.p) r s (fun _ _ => rfl) (fun _ _ _ => rfl) (fun _ _ _ => rfl), hlock]
  have stalled : pageStalled (arrived r s) r.n r.p = false := by
    rw [arrived_reads (pageStalled · r.n r.p) r s (fun _ _ => rfl) (fun _ _ _ => rfl) (fun _ _ _ => rfl), hstall]
  have evaluated : arrive (homeEntry r s).req (fairPass (homeSlice r.n r.p) r.label 64 s) =
      (perform (r.taken s) (arrived r s)).1 :=
    (arrive_alone (r := (homeEntry r s).req) hbusy home).trans
      (evaluate_performs (r := r.taken s) (s := arrived r s) htag domain lock stalled hfor hway hdone)
  unfold order
  dsimp only
  rw [hsnoop, hdie, hdomain, empty, if_pos rfl, homeJoin_alone hhome hlink hplace, homeSelect_alone hhome hwait hslice, evaluated]
  rfl

/-! ### The ports -/

/-- A decoded request that the port's checks pass and that waits for nothing is served, its tag stamped (01 R26, 01 R27). -/
theorem portRequest_served {agent p tag dpa n page i a gen : Nat} {op : ReqOp} {s : State}
    (hpass : portPasses agent p n gen s = true) (hnow : atOnce (lineReq agent p tag n page i a op s) (xidTaken p s) = true) :
    portRequest agent p tag 0 op (some (.line n page i a gen)) dpa s =
      served (lineReq agent p tag n page i a op s) (xidTaken p s) := by
  unfold portPasses at hpass
  simp only [Bool.and_eq_true, Bool.not_eq_true', beq_iff_eq] at hpass
  obtain ⟨⟨hgen, hio⟩, hide⟩ := hpass
  have io : ¬(agent = 1 ∧ (lodgeAttr s n 1 = true ∨ (lodgeAt s n).isoTo = some false)) := by
    rintro ⟨rfl, h | h⟩ <;> simp [h] at hio
  unfold portRequest
  dsimp only
  rw [if_neg (not_not_intro hgen), if_neg io, if_neg (by simp [hide])]
  exact order_served hnow

/-- Memory traffic is served on a port that is up, of an upstream role, and whose memory is not closed (09 R242). -/
theorem hostOpen_not_refused {p : PortId} {s : State} (h : hostOpen p s = true) :
    ¬(portUp s p.val = false ∨ portRole s p.val ≠ 1 ∨ memoryClosed s p.val = true) := by
  unfold hostOpen at h
  simp only [Bool.and_eq_true, beq_iff_eq, Bool.not_eq_true'] at h
  obtain ⟨⟨hup, hrole⟩, hmem⟩ := h
  simp [hup, hrole, hmem]

section
variable {p : PortId} {hpa tag kind : Nat} {op : ReqOp} {bytes : List Byte} {s : State}

/-- A host's request that decodes to a bound downstream port is routed to it (09 R246). -/
theorem hostRequest_routed {q : Nat} (hopen : hostOpen p (portActivity p.val s) = true)
    (hhit : hostHit (portActivity p.val s) p.val hpa = some (.dsp q)) :
    hostRequest p.val hpa tag op kind bytes s = routeMem p.val q kind tag bytes (portActivity p.val s) := by
  unfold hostRequest
  dsimp only
  rw [if_neg (hostOpen_not_refused hopen), hhit]

/-- Any other request goes through the port's checks. -/
theorem hostRequest_decoded {h : Option HostHit} (hopen : hostOpen p (portActivity p.val s) = true)
    (hhit : hostHit (portActivity p.val s) p.val hpa = h) (hmem : ∀ q, h ≠ some (.dsp q)) :
    hostRequest p.val hpa tag op kind bytes s = portRequest 0 p.val tag 0 op h hpa (portActivity p.val s) := by
  unfold hostRequest
  dsimp only
  rw [if_neg (hostOpen_not_refused hopen), hhit]
  split
  · exact absurd rfl (hmem _)
  · rfl

/-- A host's request for a line of a lodging that nothing refuses and nothing holds up is served. -/
theorem hostRequest_served {n page i dpa gen : Nat} (hopen : hostOpen p (portActivity p.val s) = true)
    (hhit : hostHit (portActivity p.val s) p.val hpa = some (.line n page i dpa gen))
    (hpass : portPasses 0 p.val n gen (portActivity p.val s) = true)
    (hnow : atOnce (lineReq 0 p.val tag n page i dpa op (portActivity p.val s)) (xidTaken p.val (portActivity p.val s)) = true) :
    hostRequest p.val hpa tag op kind bytes s =
      served (lineReq 0 p.val tag n page i dpa op (portActivity p.val s)) (xidTaken p.val (portActivity p.val s)) :=
  (hostRequest_decoded hopen hhit (by simp)).trans (portRequest_served hpass hnow)

/-- A host's request that decodes to no line is refused (03 R67). -/
theorem hostRequest_miss (hopen : hostOpen p (portActivity p.val s) = true)
    (hhit : hostHit (portActivity p.val s) p.val hpa = some .miss) :
    hostRequest p.val hpa tag op kind bytes s =
      refuseReq 4 (bareReq (portActivity p.val s) 0 p.val tag hpa op) (portActivity p.val s) :=
  (hostRequest_decoded hopen hhit (by simp)).trans rfl

/-- A host's request whose two decodes differ is refused, and counts against the port controller (14 R362). -/
theorem hostRequest_differs (hopen : hostOpen p (portActivity p.val s) = true)
    (hhit : hostHit (portActivity p.val s) p.val hpa = none) :
    hostRequest p.val hpa tag op kind bytes s = refuseReq 4 (bareReq (portActivity p.val s) 0 p.val tag hpa op)
      (unitSuspect p.val (p.val / 16) (portActivity p.val s)) :=
  (hostRequest_decoded hopen hhit (by simp)).trans rfl

end

/-- Settles O27: the five requests are one handler, and each clause is one thing its decoders can find. -/
theorem hostRequestsAreServed : Obligations.HostRequestsAreServed :=
  ⟨fun _ _ _ _ _ _ _ _ _ _ hopen hhit hpass hnow => congrArg Host.Outcome.next (hostRequest_served hopen hhit hpass hnow),
   fun _ _ _ _ _ _ _ _ _ _ hopen hhit hpass hnow => congrArg Host.Outcome.next (hostRequest_served hopen hhit hpass hnow),
   fun _ _ _ _ _ _ _ _ _ _ _ hopen hhit hpass hnow => congrArg Host.Outcome.next (hostRequest_served hopen hhit hpass hnow),
   fun _ _ _ _ _ _ _ _ _ _ _ _ hopen hhit hpass hnow => congrArg Host.Outcome.next (hostRequest_served hopen hhit hpass hnow),
   fun _ _ _ _ _ _ _ _ _ hopen hhit hpass hnow => congrArg Host.Outcome.next (hostRequest_served hopen hhit hpass hnow),
   fun _ _ _ _ _ hopen hhit => congrArg Host.Outcome.next (hostRequest_miss hopen hhit),
   fun _ _ _ _ _ hopen hhit => congrArg Host.Outcome.next (hostRequest_differs hopen hhit),
   fun _ _ _ _ _ _ _ hopen hhit => congrArg Host.Outcome.next (hostRequest_routed hopen hhit)⟩

end Sys2Proof.Machine
end

section
/-! How the codes of the state tables are read, and what the mailbox of an IME view answers (02 R41, 03 R62, R66, R81, 09
R245, 14 R359). -/

namespace Sys2Proof.Machine

/-! ### Read-only members -/

/-- A read-only member other than a command record and the owner of a group reads its part of the state. -/
theorem valueOf_readOnly {s : State} {g : GSpec} {p : PSpec} {grp m row : Nat} (hm : m ≠ 0) (hty : p.ty ≠ .cmd)
    (hacc : p.acc = .ro) (howner : grp * 256 + m ≠ P.OWNER) : valueOf s g p grp m row = roBytes s grp row m := by
  unfold valueOf
  dsimp only
  rw [if_neg hm, if_neg hty, if_neg (by simp [hacc]), if_neg howner, if_pos (.inl hacc)]

theorem roBytes_lodging (s : State) {n : Nat} (h : n < 4096) (row m : Nat) :
    roBytes s (0x1000 + n) row m = roLodging s n m := by
  unfold roBytes
  iterate 5 rw [if_neg (by omega)]
  rw [if_pos (by omega), Nat.add_sub_cancel_left]

theorem roBytes_units (s : State) {grp : Nat} (h : 0x7C00 ≤ grp) (row m : Nat) : roBytes s grp row m = roUnits s grp row m := by
  unfold roBytes
  iterate 14 rw [if_neg (by omega)]

/-- A member of a lodging's group is found in the table of those groups. -/
theorem paramSpec_lodge {base n : Nat} (hbase : base / 256 = 0x1000) (h : n < 4096) :
    paramSpec (base + 256 * n) = memberSpec ⟨0x1000, 4096, 0, false, 0, true, members1nnn⟩ (base % 256) := by
  unfold paramSpec
  rw [param_group, param_member, hbase, groupSpec_lodge h]
  rfl

/-- Settles O49: both members are read-only, and one byte of a code below 8 is that code. -/
theorem stateCodesRead : Obligations.StateCodesRead := by
  refine ⟨fun n s => ⟨_, _, groupSpec_lodge n.isLt, paramSpec_lodge (by decide) n.isLt, ?_⟩, fun u s => ⟨_, _, rfl, rfl, ?_⟩⟩
  · have hread : roLodging s n.val 1 = leBytes 1 (lodgeAt s n.val).state.code := rfl
    rw [valueOf_readOnly (by decide) (by decide) rfl (by unfold P.OWNER; omega), roBytes_lodging s n.isLt, hread]
    cases (lodgeAt s n.val).state <;> rfl
  · have hread : roUnits s 0x7C01 u.val 0x10 = leBytes 1 (unitAt s u.val).state.code := rfl
    rw [valueOf_readOnly (by decide) (by decide) rfl (by decide), roBytes_units s (by decide), hread]
    cases (unitAt s u.val).state <;> rfl

/-! ### The mailbox of an IME view -/

/-- A mailbox that is open answers with what the view finds in the state. -/
theorem viewAnswers_open {p : PortId} {f : State → Nat × List Byte} {s : State} (h : mailboxOpen s p.val = true) :
    viewAnswers p f s = emit (.mailbox p.val (f s).1 (f s).2) s := by
  unfold viewAnswers
  rw [if_pos h]
  rfl

/-- Settles O17: each command is one answer of an open mailbox; the two payloads that the CXL standard gives are draws. -/
theorem imeMailboxAnswers : Obligations.ImeMailboxAnswers := by
  refine ⟨fun p s hopen => congrArg Host.Outcome.next (viewAnswers_open hopen),
    fun p s hopen => congrArg Host.Outcome.next (congrArg afterDraw (viewAnswers_open hopen)),
    fun p log offset length s hopen => congrArg Host.Outcome.next (congrArg afterDraw (viewAnswers_open hopen)),
    fun p log s hopen hlog => ?_,
    fun _ _ _ _ _ _ => rfl,
    fun p s hopen => congrArg Host.Outcome.next (viewAnswers_open hopen),
    fun p s hopen => congrArg Host.Outcome.next (viewAnswers_open hopen)⟩
  refine congrArg Host.Outcome.next ((viewAnswers_open hopen).trans ?_)
  rw [if_neg (Nat.not_lt.2 hlog)]

end Sys2Proof.Machine
end

section
/-! AtomicOps, the BAR 2 requests of downstream devices, the answers to snoops, and what resumes (03 R79, 08 R219-R228, 09
R247, 10 R275). -/

namespace Sys2Proof.Machine

/-! ### AtomicOps -/

section
variable {p dpa tag op size operand compare : Nat} {s : State}

/-- An AtomicOp of a host, of a supported size and alignment, that nothing refuses and nothing holds up is performed (08
R226). -/
theorem atomicRequest_served {n page i a gen : Nat} (hup : portUp (portActivity p s) p = true)
    (hrole : portRole (portActivity p s) p = 1) (hmem : memoryClosed (portActivity p s) p = false)
    (hime : imeBound (portActivity p s) p = true) (hsize : atomicSize op size = true) (halign : dpa % size = 0)
    (hhit : dpaHit (portActivity p s) p dpa = some (.line n page i a gen))
    (hpass : portPasses 0 p n gen (portActivity p s) = true)
    (hnow : atOnce (lineReq 0 p tag n page i a (.atomic op (dpa % 64) size operand compare) (portActivity p s))
      (xidTaken p (portActivity p s)) = true) :
    atomicRequest p dpa tag op size operand compare s =
      served (lineReq 0 p tag n page i a (.atomic op (dpa % 64) size operand compare) (portActivity p s))
        (xidTaken p (portActivity p s)) := by
  unfold atomicRequest
  dsimp only
  rw [if_neg (by simp [hup, hrole, hmem]), if_neg (by simp [hsize, halign]), if_pos hrole, if_pos hime, hhit]
  exact portRequest_served hpass hnow

/-- One of a size that the operation does not have is malformed: logged, and nothing else (08 R226). -/
theorem atomicRequest_malformed (hup : portUp (portActivity p s) p = true)
    (hrole : portRole (portActivity p s) p = 1 ∨ portRole (portActivity p s) p = 2)
    (hmem : memoryClosed (portActivity p s) p = false) (hsize : atomicSize op size = false) :
    atomicRequest p dpa tag op size operand compare s = logEvent 10 p 1 none 0 (portActivity p s) := by
  have taken : ¬(portUp (portActivity p s) p = false ∨
      (portRole (portActivity p s) p ≠ 1 ∧ portRole (portActivity p s) p ≠ 2) ∨ memoryClosed (portActivity p s) p = true) := by
    rw [← not_or, hup, hmem]
    simp [hrole]
  unfold atomicRequest
  dsimp only
  rw [if_neg taken, if_pos (.inl hsize)]

end

/-! ### Requests of downstream devices in BAR 2 -/

section
variable {d v dpa tag : Nat} {s : State}

/-- A downstream device of a virtual switch that holds the IME, with peer-to-peer requests allowed, on a port that takes memory
traffic (09 R247). -/
structure DeviceReaches (d v : Nat) (u : State) : Prop where
  up : portUp u d = true
  role : portRole u d = 2
  vcs : vcsOf u d = some v
  mem : memoryClosed u d = false
  ime : imeBound u v = true
  peer : pnum u (P.DSP_P2P + 256 * d) = 1

/-- A read takes one part for each line it touches (09 R247). -/
theorem bar2Request_read {len : BitVec 13} (h : DeviceReaches d v (portActivity d s)) (hlen : len ≠ 0#13) :
    let u := portActivity d s
    let lines := (dpa % 64 + len.toNat + 63) / 64
    bar2Request d dpa tag (.read len) s =
      forAll (below lines) (fun k t => portRequest 1 d tag k (.read 0 true) (dpaHit t v ((dpa / 64 + k) * 64)) ((dpa / 64 + k) * 64) t)
        (modCoh (fun c => { c with gathers := c.gathers ++ [⟨d, tag, lines, true, [], gatherTag u d v dpa⟩] }) u) := by
  obtain ⟨hup, hrole, hvcs, hmem, hime, hpeer⟩ := h
  unfold bar2Request
  dsimp only
  rw [if_neg (by simp [hup, hrole, hmem]), if_neg (by simp [hrole]), hvcs]
  dsimp only
  rw [if_neg (by simp [hpeer, hime, hlen])]

/-- A write takes one part for each line it touches, with the bytes that fall into it (09 R247). -/
theorem bar2Request_write {bytes : List Byte} (h : DeviceReaches d v (portActivity d s)) (hbytes : bytes ≠ []) :
    let u := portActivity d s
    let lines := (dpa % 64 + bytes.length + 63) / 64
    bar2Request d dpa tag (.write bytes) s =
      forAll (below lines) (fun k t => portRequest 1 d tag k
          (.write 0 (linePart (dpa % 64) bytes k).1 (linePart (dpa % 64) bytes k).2) (dpaHit t v ((dpa / 64 + k) * 64))
          ((dpa / 64 + k) * 64) t)
        (modCoh (fun c => { c with gathers := c.gathers ++ [⟨d, tag, lines, false, [], gatherTag u d v dpa⟩] }) u) := by
  obtain ⟨hup, hrole, hvcs, hmem, hime, hpeer⟩ := h
  unfold bar2Request
  dsimp only
  rw [if_neg (by simp [hup, hrole, hmem]), if_neg (by simp [hrole]), hvcs]
  dsimp only
  rw [if_neg (by simp [hpeer, hime]), if_neg hbytes]

end

/-! ### Answers to snoops -/

section
variable {p n page i : Nat} {s : State}

/-- An answer that the line's open snoop waits for, and that its kind of snoop allows, is taken (08 R219). -/
theorem birsp_taken {rsp : Nat} {x : Tx} (hup : portUp s p = true)
    (hopen : txOn s (homeSlice n page) (lineKey n page i) = some x) (hleft : x.left.contains p = true)
    (hkind : ¬(x.op = 1 ∧ rsp = 2)) :
    birsp p n page i rsp false s = snoopAnswered x p (if x.op = 0 then 0 else rsp) (pointerPast (homeSlice n page) p s) := by
  unfold birsp
  rw [if_neg (by simp [hup]), hopen]
  dsimp only
  rw [if_neg]
  rintro (h | h | h)
  · exact absurd h (by decide)
  · exact absurd (hleft.symm.trans h) (by decide)
  · exact hkind h

/-- An answer where no snoop of the line is open is discarded, counted and reported to the host (08 R219). -/
theorem birsp_unasked {rsp : Nat} {block : Bool} (hup : portUp s p = true)
    (hnone : txOn s (homeSlice n page) (lineKey n page i) = none) :
    birsp p n page i rsp block s = protocolError p n page i s := by
  unfold birsp
  rw [if_neg (by simp [hup]), hnone]

/-- A conflict with the line's open snoop is counted and acknowledged (08 R221). -/
theorem biconflict_asked {x : Tx} (hup : portUp s p = true)
    (hopen : txOn s (homeSlice n page) (lineKey n page i) = some x) (hleft : x.left.contains p = true) :
    biconflict p n page i s = answerPort p 5 (.conflictAck n page i) none (bumpCoh (homeDie n page) 2 1 s) := by
  unfold biconflict
  rw [if_neg (by simp [hup]), hopen]
  dsimp only
  rw [hleft]
  rfl

/-- Where no snoop of the line is open it is acknowledged alone (08 R221). -/
theorem biconflict_unasked (hup : portUp s p = true) (hnone : txOn s (homeSlice n page) (lineKey n page i) = none) :
    biconflict p n page i s = answerPort p 5 (.conflictAck n page i) none s := by
  unfold biconflict
  rw [if_neg (by simp [hup]), hnone]
  rfl

end

/-! ### What cools and what resumes -/

theorem coolTick_of_resident {n page i k : Nat} {l : LcLine} {s : State} (h : residentLine s n page i = some (k, l)) :
    coolTick n page i s =
      if predOf (predMove n page i false s) n page i < 2 then releaseResident k (predMove n page i false s)
      else predMove n page i false s := by
  unfold coolTick
  rw [h]

/-- The first stalled write of a slice, whose page nobody locks, is the first of its page: it resumes where it is answered (03
R79). -/
theorem stalledResume_of_first {slice : Nat} {r : MemReq} {rest : List MemReq} {s : State}
    (hq : smGet [] s.coh.stalled slice = r :: rest) (hlock : pageLocked s r.n r.p = false)
    (hdone : (stalledTry slice r s).2 = true) : stalledResume slice s = homeSettle slice (stalledTry slice r s).1 := by
  have firstOfPage : (r :: rest).find? (fun x => x.n == r.n && x.p == r.p) = some r := List.find?_cons_of_pos (by simp)
  unfold stalledResume
  dsimp only
  rw [hq, List.findSome?_cons_of_isSome] <;> simp [hlock, firstOfPage, hdone]

/-- A slice's one ready request is released where its die serves (10 R275). -/
theorem homeSelect_serves {slice : Nat} {q : HomeReq} {s : State} (hready : homeReady s slice = [q])
    (hdie : unitServes s (372 + slice / 16) = true) :
    let s1 := modCoh (fun c => { c with home := smMod [] c.home slice (List.erase · q) }) s
    homeSelect slice s = homeSettle slice (arrive q.req
      (fairServe slice q.req.group 64 ((homeOf s1 slice).any fun x => x.req.group == q.req.group) s1)) := by
  rw [homeSelect_of_one hready]
  dsimp only
  rw [hdie, if_neg (by decide)]

/-- Settles O28: each clause is the equation of its handler's case. -/
theorem atomicsAndSnoopAnswersAct : Obligations.AtomicsAndSnoopAnswersAct :=
  ⟨fun _ _ _ _ _ _ _ _ _ _ _ hup hrole hmem hime hsize halign hhit _ hpass hnow =>
      congrArg Host.Outcome.next (atomicRequest_served hup hrole hmem hime hsize halign hhit hpass hnow),
   fun _ _ _ _ _ _ _ _ _ _ _ hup hrole hmem hime hsize halign hhit _ hpass hnow =>
      congrArg Host.Outcome.next (atomicRequest_served hup hrole hmem hime hsize halign hhit hpass hnow),
   fun _ _ _ _ _ _ _ _ _ _ _ _ hup hrole hmem hime hsize halign hhit _ hpass hnow =>
      congrArg Host.Outcome.next (atomicRequest_served hup hrole hmem hime hsize halign hhit hpass hnow),
   fun _ _ _ _ _ _ hup hrole hmem hsize => congrArg Host.Outcome.next (atomicRequest_malformed hup hrole hmem hsize),
   fun _ _ _ _ _ _ hup hrole hvcs hmem hime hpeer hlen =>
      congrArg Host.Outcome.next (bar2Request_read ⟨hup, hrole, hvcs, hmem, hime, hpeer⟩ hlen),
   fun _ _ _ _ _ _ hup hrole hvcs hmem hime hpeer hbytes =>
      congrArg Host.Outcome.next (bar2Request_write ⟨hup, hrole, hvcs, hmem, hime, hpeer⟩ hbytes),
   fun _ _ _ _ _ _ _ hup hopen hleft hkind => congrArg Host.Outcome.next (birsp_taken hup hopen hleft hkind),
   fun _ _ _ _ _ _ _ hup hnone => congrArg Host.Outcome.next (birsp_unasked hup hnone),
   fun _ _ _ _ _ _ hup hopen hleft => congrArg Host.Outcome.next (biconflict_asked hup hopen hleft),
   fun _ _ _ _ _ hup hnone => congrArg Host.Outcome.next (biconflict_unasked hup hnone),
   fun _ _ _ _ _ _ hres => congrArg Host.Outcome.next (coolTick_of_resident hres),
   fun _ _ _ _ hq hlock hdone => congrArg Host.Outcome.next (stalledResume_of_first hq hlock hdone),
   fun _ _ _ hready hdie => congrArg Host.Outcome.next (homeSelect_serves hready hdie)⟩

end Sys2Proof.Machine
end

section
/-! Retirement, blanking, the owner search and the figures of capacity (03 R76, R77, R80, R86, 11 R310, R315). -/

namespace Sys2Proof.Machine

/-! ### Retirement and blanking -/

/-- A retirement ends when, with the regions moved out of its frames, nothing remains in them (11 Table 11.9). -/
theorem retireComplete_ends {d x : Nat} {l : List (Nat × Nat)} {s : State} (hjob : s.space.retireJob = some (d, l, x)) :
    let s1 := forAll (s.space.uses.filter fun (u : Nat × Use) => u.1 / 2 ^ 30 == d && retiring s d (u.1 % 2 ^ 30) u.2.len)
      (regionMove d) s
    let s2 := installedFell d (modSpace (fun x => { x with retireJob := none }) s1)
    l.any (stretchHeld s1 d) = false →
    retireComplete s = cmdEnd 0 P.RETIRE_CMD 0x00 ((l.map Prod.snd).sum) (memEvent (x % 256) 0 none (chanRecord s2 7 (x % 256)) s2) := by
  intro s1 s2 hleft
  unfold retireComplete
  rw [hjob]
  dsimp only
  rw [if_neg (by rw [hleft]; decide)]

/-- The oldest freed stretch of a wing is blanked, and the regions that wait take what they can (03 R86). -/
theorem blankStep_item {w : Nat} {b : BlankItem} {rest : List BlankItem} {s : State} (hq : smGet [] s.space.blankQ w = b :: rest) :
    blankStep w none s =
      regionsTake (blankItem (w / 4) b (modSpace (fun x => { x with blankQ := smPut [] x.blankQ w rest }) s)) := by
  unfold blankStep
  rw [hq]

/-- The pass after training goes on to a frame further on: what nothing uses on the way is blanked (03 R86). -/
theorem blankStep_pass {w k : Nat} {s : State} (hk : smGet 0 s.space.passed w < min k (wingFrames s w)) :
    blankStep w (some k) s = regionsTake (modSpace (fun x => { x with passed := smSet x.passed w (min k (wingFrames s w)) })
      (forAll (gapsIn (smGet 0 s.space.passed w) (min k (wingFrames s w)) (wingUses s w))
        (fun g => blankFrames (w / 4) ((w % 4) * 2 ^ 28 + g.1) g.2) s)) := by
  unfold blankStep
  dsimp only
  rw [if_neg (Nat.not_le.2 hk)]

/-! ### The owner search -/

/-- What a pass of the search does with one pending frame: its marked lines are written, and its owners learn of it. -/
def frameSearched (d f : Nat) (t : State) : State :=
  let t1 := forAll (markedLines t d f) (fun i u => flushLine d f i u) t
  let owners := ((below 64).filterMap fun i => lineOwner t1 d f i).eraseDups
  if owners = [] then freeFrameAgain d f t1 else forAll owners (ownerFound d f) t1

/-- What the end of a pass does with one wing of the die: one that has left service loses its pages and is shut. -/
def wingSearched (w : Nat) (t : State) : State :=
  if wingFaulted t w ∧ (wingAt t w).state = .shuttering then
    modWingAt w (fun x => { x with state := .shut }) (forAll ((wingUses t w).flatMap fun e => usePages e.2.kind) wingPageLost t)
  else t

theorem ownerSearch_eq (d : Nat) (s : State) :
    ownerSearch d s = forAll (dieWings d) wingSearched (forAll ((smGet [] s.space.search d).take 256) (frameSearched d)
      (modSpace (fun x => { x with search := smMod [] x.search d (List.drop 256) }) s)) := rfl

/-- A function that leaves a state as it is, for every element, leaves it after all of them. -/
theorem forAll_of_same {α : Type} {l : List α} {f : α → State → State} {s : State} (h : ∀ a ∈ l, f a s = s) : forAll l f s = s := by
  unfold forAll
  induction l with
  | nil => rfl
  | cons a l ih =>
    rw [List.foldl_cons, h a (by simp)]
    exact ih fun b hb => h b (by simp [hb])

/-- With no wing of the die out of service, the end of a pass does nothing. -/
theorem wingsSearched_of_none_faulted {d : Nat} {t : State} (h : ∀ w ∈ dieWings d, wingFaulted t w = false) :
    forAll (dieWings d) wingSearched t = t :=
  forAll_of_same fun w hw => if_neg (by simp [h w hw])

/-- A page in plain form that alone owns a frame with marked lines becomes poisoned, and is noted (11 R310). -/
theorem frameSearched_plain {d f n p : Nat} {x : Desc} {s : State} :
    let t := forAll (markedLines s d f) (fun i u => flushLine d f i u) s
    markedLines t d f ≠ [] → ((below 64).filterMap fun i => lineOwner t d f i).eraseDups = [(n, p)] →
    descAt t n p = some x → x.state = .plain →
    frameSearched d f s = notePage 2 n p (setDesc n p { x with poison := true } t) := by
  intro t hmarked howner hdesc hplain
  have found : ownerFound d f (n, p) t = notePage 2 n p (setDesc n p { x with poison := true } t) := by
    unfold ownerFound
    dsimp only
    rw [hdesc]
    dsimp only
    rw [hplain]
    dsimp only
    rw [if_neg hmarked]
  unfold frameSearched
  dsimp only
  rw [howner, if_neg (by simp)]
  exact found

/-- The search of a die whose one pending frame is a plain page's (11 R310). -/
theorem ownerSearch_plain {d f n p : Nat} {x : Desc} {s : State} (hq : smGet [] s.space.search d = [f]) :
    let s0 := modSpace (fun x => { x with search := smMod [] x.search d (List.drop 256) }) s
    let t := forAll (markedLines s0 d f) (fun i u => flushLine d f i u) s0
    let r := notePage 2 n p (setDesc n p { x with poison := true } t)
    markedLines t d f ≠ [] → ((below 64).filterMap fun i => lineOwner t d f i).eraseDups = [(n, p)] →
    descAt t n p = some x → x.state = .plain → (∀ w ∈ dieWings d, wingFaulted r w = false) → ownerSearch d s = r := by
  intro s0 t r hmarked howner hdesc hplain hwings
  have frames : forAll ((smGet [] s.space.search d).take 256) (frameSearched d) s0 = r := by
    rw [hq]
    exact frameSearched_plain hmarked howner hdesc hplain
  rw [ownerSearch_eq, frames]
  exact wingsSearched_of_none_faulted hwings

/-! ### The figures of capacity -/

/-- A map with the four figures of a die. -/
def dieFigures (s : State) (d : Nat) (m : SMap Nat) : SMap Nat :=
  smPut 0 (smPut 0 (smPut 0 (smPut 0 m d (usable s d).toNat) (4 + d) (freeSpace s d).toNat) (8 + d) (smGet 0 s.lod.stage d))
    (12 + d) (shortfall s d)

/-- A map with the figures of the dies in service among those listed. -/
def diesFigures (s : State) (l : List Nat) (m : SMap Nat) : SMap Nat :=
  l.foldl (fun m d => if unitServes s (372 + d) then dieFigures s d m else m) m

/-- A die's figures stand at the keys that leave its number modulo 4. -/
theorem smGet_dieFigures_other (s : State) {d k : Nat} (m : SMap Nat) (hd : d < 4) (hk : k % 4 ≠ d) :
    smGet 0 (dieFigures s d m) k = smGet 0 m k := by
  unfold dieFigures
  rw [smGet_put_other _ _ _ (by omega), smGet_put_other _ _ _ (by omega), smGet_put_other _ _ _ (by omega),
    smGet_put_other _ _ _ (by omega)]

/-- What the four keys of a die read in a map that holds its figures. -/
def HoldsFigures (s : State) (d : Nat) (m : SMap Nat) : Prop :=
  smGet 0 m d = (usable s d).toNat ∧ smGet 0 m (4 + d) = (freeSpace s d).toNat ∧
    smGet 0 m (8 + d) = smGet 0 s.lod.stage d ∧ smGet 0 m (12 + d) = shortfall s d

theorem holdsFigures_dieFigures (s : State) (d : Nat) (m : SMap Nat) : HoldsFigures s d (dieFigures s d m) := by
  unfold HoldsFigures dieFigures
  refine ⟨?_, ?_, ?_, smGet_put_same _ _ _ _⟩
  · rw [smGet_put_other _ _ _ (by omega), smGet_put_other _ _ _ (by omega), smGet_put_other _ _ _ (by omega), smGet_put_same]
  · rw [smGet_put_other _ _ _ (by omega), smGet_put_other _ _ _ (by omega), smGet_put_same]
  · rw [smGet_put_other _ _ _ (by omega), smGet_put_same]

/-- Two maps that read the same at a die's keys hold its figures together. -/
theorem HoldsFigures.congr {s : State} {d : Nat} {m m' : SMap Nat} (h : HoldsFigures s d m)
    (hsame : ∀ k, k < 16 → k % 4 = d → smGet 0 m' k = smGet 0 m k) (hd : d < 4) : HoldsFigures s d m' := by
  unfold HoldsFigures at h ⊢
  rwa [hsame d (by omega) (by omega), hsame (4 + d) (by omega) (by omega), hsame (8 + d) (by omega) (by omega),
    hsame (12 + d) (by omega) (by omega)]

/-- A die in service has its figures in the map, whichever dies come after it. -/
theorem holdsFigures_diesFigures {s : State} {d : Nat} (hd : d < 4) (hserves : unitServes s (372 + d) = true) :
    ∀ (l : List Nat) (m : SMap Nat), (∀ e ∈ l, e < 4) → (d ∈ l ∨ HoldsFigures s d m) → HoldsFigures s d (diesFigures s l m) := by
  intro l
  induction l with
  | nil =>
    rintro m - (h | h)
    · exact absurd h (by simp)
    · exact h
  | cons e l ih =>
    intro m hl hm
    refine ih _ (fun x hx => hl x (by simp [hx])) ?_
    dsimp only
    by_cases he : e = d
    · subst he
      rw [if_pos hserves]
      exact .inr (holdsFigures_dieFigures s e m)
    · refine hm.imp (fun h => (List.mem_cons.1 h).resolve_left (Ne.symm he)) fun h => ?_
      split
      · exact h.congr (fun k _ hk => smGet_dieFigures_other s m (hl e (by simp)) (by omega)) hd
      · exact h

/-- What the status of a device that is powered reads (03 R80). -/
theorem capStatus_status {s : State} (hnight : s.ps.state ≠ .night) (hoff : s.ps.state ≠ .off) :
    (capStatus s).lod.status =
      smPut 0 (smPut 0 (smPut 0 (diesFigures s (below 4) s.lod.status)
        16 ((liveLodges s).foldl (fun a n => a + lodgeP s n P.FLOOR) 0))
        17 ((liveLodges s).foldl (fun a n => a + lodgeP s n P.LOGICAL_SIZE) 0))
        18 (s.lod.stranded.foldl (fun a (e : Nat × Nat) => a + e.2) 0) := by
  unfold capStatus
  rw [if_neg (by simp [hnight, hoff])]
  rfl

theorem capReleaseRepeat_asks {d : Nat} {s : State} (h : asksReleases (smGet 0 s.lod.stage d) = true) :
    capReleaseRepeat d s = askReleases d s := if_pos h

/-- Settles O32: each event is the equation of its handler's case, and the figures are read out of the status map. -/
theorem spaceEventsAct : Obligations.SpaceEventsAct := by
  refine ⟨fun d l x s hjob hleft => congrArg Host.Outcome.next (retireComplete_ends hjob hleft),
    fun w b rest s hq => congrArg Host.Outcome.next (blankStep_item hq),
    fun w k s hk => congrArg Host.Outcome.next (blankStep_pass hk),
    fun d s => rfl,
    fun d f n p x s hq hmarked howner hdesc hplain hwings =>
      congrArg Host.Outcome.next (ownerSearch_plain hq hmarked howner hdesc hplain hwings),
    fun s hnight hoff => ⟨_, rfl, ?_⟩,
    fun d s h => congrArg Host.Outcome.next (capReleaseRepeat_asks h)⟩
  rw [capStatus_status hnight hoff]
  refine ⟨?_, ?_, smGet_put_same _ _ _ _, fun d hserves => ?_⟩
  · rw [smGet_put_other _ _ _ (by decide), smGet_put_other _ _ _ (by decide), smGet_put_same]
  · rw [smGet_put_other _ _ _ (by decide), smGet_put_same]
  · have figures := holdsFigures_diesFigures d.isLt hserves (below 4) s.lod.status (fun e he => List.mem_range.1 he)
      (.inl (List.mem_range.2 d.isLt))
    refine figures.congr (fun k hk _ => ?_) d.isLt
    rw [smGet_put_other _ _ _ (by omega), smGet_put_other _ _ _ (by omega), smGet_put_other _ _ _ (by omega)]

end Sys2Proof.Machine
end

section
/-! What a DDR channel does: training, the scheduler's order, refresh, the activate tables, parity replay, the queues that
empty, reads of lines and the night watch (04 R93, 07 R194, 11 R294-R312). -/

namespace Sys2Proof.Machine

/-! ### Training (11 R294) -/

section
variable {c : Nat} {bad : List Nat} {s : State}

theorem channelTrained_passes {drfm : BitVec 2} (htrain : (chanAt s c).state = .training)
    (hlive : branchLive s (c / 2) = true) :
    channelTrained c (some drfm) true bad s = applyEnds (recomputeD (chanActive c drfm bad s)) := by
  unfold channelTrained
  rw [if_neg (by simp [htrain, hlive])]

/-- A training fails where the SPD does not agree with the declaration, and where a step does not pass. -/
theorem channelTrained_fails {spd : Option (BitVec 2)} {ok : Bool} (htrain : (chanAt s c).state = .training)
    (hlive : branchLive s (c / 2) = true) (hfail : spd = none ∨ ok = false) :
    channelTrained c spd ok bad s =
      applyEnds (channelBroken c (memEvent c 3 none (chanRecord s (if spd.isSome then 5 else 6) c) s)) := by
  unfold channelTrained
  rw [if_neg (by simp [htrain, hlive])]
  obtain rfl | rfl := hfail
  · rfl
  · cases spd <;> rfl

end

/-! ### The scheduler (11 R296) -/

/-- The queued reads of a channel that no timing of its modules bars. -/
def readsUnbarred (x : Chan) (barred : BitVec 128) : List ReadEntry :=
  (x.reads.zipIdx.filter fun q => !barred.getLsbD q.2).map (·.1)

/-- A channel serves its queues: a write in a burst or where no read may go, else the read that the scheduler picks. -/
def queuesServed (c : Nat) (reads : List ReadEntry) (burst : Bool) (s : State) : State :=
  let s1 := modChan c (fun y => { y with bursting := burst }) s
  if burst ∨ reads = [] then writeNext c s1
  else match readPick s1 c reads with
    | some r => issueRead c r s1
    | none => s1

section
variable {c : Nat} {barred : BitVec 128} {s : State} (hactive : (chanAt s c).state = .active)
  (halert : (chanAt s c).alertN = false)
include hactive halert

/-- A REF that may be postponed no longer goes ahead of every command (11 R297). -/
theorem dramIssue_lateRefresh {r : Nat} (hlate : lateRank s c = some r) : dramIssue c barred s = refresh c r 1 s := by
  unfold dramIssue
  dsimp only
  rw [if_neg (by simp [hactive, halert]), hlate]

theorem dramIssue_mitigates {q : Nat × Nat} {rest : List (Nat × Nat)} (hlate : lateRank s c = none)
    (hq : (chanAt s c).mitigate = q :: rest) : dramIssue c barred s = mitigation c q.1 q.2 s := by
  unfold dramIssue
  dsimp only
  rw [if_neg (by simp [hactive, halert]), hlate]
  dsimp only
  rw [hq]

theorem dramIssue_idleRefresh {r : Nat} (hlate : lateRank s c = none) (hq : (chanAt s c).mitigate = [])
    (hidle : idleRank s c = some r) : dramIssue c barred s = refresh c r 1 s := by
  unfold dramIssue
  dsimp only
  rw [if_neg (by simp [hactive, halert]), hlate]
  dsimp only
  rw [hq]
  dsimp only
  rw [hidle]

/-- With nothing owed to the modules a channel serves its queues; a burst of writes starts above 48 and lasts down to 16. -/
theorem dramIssue_serves (hlate : lateRank s c = none) (hq : (chanAt s c).mitigate = []) (hidle : idleRank s c = none) :
    dramIssue c barred s = queuesServed c (readsUnbarred (chanAt s c) barred)
      (if (chanAt s c).bursting ∨ readsUnbarred (chanAt s c) barred = []
        then decide (16 ≤ subQueued s c 0) || decide (16 ≤ subQueued s c 1)
        else decide (48 < subQueued s c 0) || decide (48 < subQueued s c 1)) s := by
  unfold dramIssue
  dsimp only
  rw [if_neg (by simp [hactive, halert]), hlate]
  dsimp only
  rw [hq]
  dsimp only
  rw [hidle]
  rfl

theorem dramIssue_reads {r : ReadEntry} (hlate : lateRank s c = none) (hq : (chanAt s c).mitigate = [])
    (hidle : idleRank s c = none) (hburst : (chanAt s c).bursting = false) (hsub0 : subQueued s c 0 ≤ 48)
    (hsub1 : subQueued s c 1 ≤ 48) (hreads : readsUnbarred (chanAt s c) barred ≠ [])
    (hpick : readPick (modChan c (fun y => { y with bursting := false }) s) c (readsUnbarred (chanAt s c) barred) = some r) :
    dramIssue c barred s = issueRead c r (modChan c (fun y => { y with bursting := false }) s) := by
  have noBurst : (decide (48 < subQueued s c 0) || decide (48 < subQueued s c 1)) = false := by
    simp [hsub0, hsub1]
  rw [dramIssue_serves hactive halert hlate hq hidle, if_neg (by simp [hburst, hreads]), noBurst]
  unfold queuesServed
  dsimp only
  rw [if_neg (by simp [hreads]), hpick]

theorem dramIssue_bursts (hlate : lateRank s c = none) (hq : (chanAt s c).mitigate = []) (hidle : idleRank s c = none)
    (hgoes : (chanAt s c).bursting = true ∨ readsUnbarred (chanAt s c) barred = []) :
    dramIssue c barred s = queuesServed c (readsUnbarred (chanAt s c) barred)
      (decide (16 ≤ subQueued s c 0) || decide (16 ≤ subQueued s c 1)) s := by
  rw [dramIssue_serves hactive halert hlate hq hidle, if_pos hgoes]

end

/-! ### Refresh, temperature and the activate tables (11 R297, R299, R300) -/

section
variable {c rank : Nat} {postpone : Bool} {s : State}

/-- Whether a REF that falls due may wait: its rank has reads queued, and owes fewer than the limit. -/
def refMayWait (s : State) (c rank : Nat) (postpone : Bool) : Bool :=
  postpone && decide (smGet 0 (chanAt s c).owed rank < chanP s c P.CH_REF_POSTPONE) &&
    (chanAt s c).reads.any fun r => rankOf (lineBank s c r.frame r.line).1 == rank

theorem refDue_postpones (hactive : (chanAt s c).state = .active) (hrank : (chanRanks s c).contains rank = true)
    (hwait : refMayWait s c rank postpone = true) :
    refDue c rank postpone s = modChan c (fun x => { x with
      owed := smPut 0 x.owed rank (smGet 0 x.owed rank + 1), counts := bump 64 x.counts 3 1 }) s := by
  unfold refMayWait at hwait
  unfold refDue
  dsimp only
  rw [if_neg (by rw [hactive, hrank]; decide), hwait]
  rfl

theorem refDue_refreshes (hactive : (chanAt s c).state = .active) (halert : (chanAt s c).alertN = false)
    (hrank : (chanRanks s c).contains rank = true) (hgoes : refMayWait s c rank postpone = false) :
    refDue c rank postpone s =
      refresh c rank 1 (modChan c (fun x => { x with owed := smPut 0 x.owed rank (smGet 0 x.owed rank + 1) }) s) := by
  unfold refMayWait at hgoes
  unfold refDue
  dsimp only
  rw [if_neg (by rw [hactive, hrank]; decide), hgoes, halert]
  rfl

end

/-! ### Parity replay (11 R301) -/

/-- What the replay of a command does: an ACT counts again, and may set off a mitigation; a write stores its line again. -/
def commandReplayed (c : Nat) (r : RetryCmd) (t : State) : State :=
  match r.kind, r.data with
  | 1, _ => randomMitigation c r.bank r.row (countAct c r.bank r.row t)
  | _, some ⟨f, i, .raw b po hi, _, _⟩ => storeRaw (c / 8) f i ⟨b, po, hi⟩ t
  | _, _ => t

/-- `ALERT_N` is released: the banks are precharged, the tables no longer valid, and the replay is counted. -/
def alertReleased (c : Nat) (s : State) : State :=
  modChan c (fun y => { y with
    acts := y.acts.filterMap fun e => if e.2.rows = [] then none else some (e.1, { e.2 with openRow := none })
    tableValid := false, since := dieTime s (4 + c / 8), replays := (chanAt s c).replays + 1, alertN := false
    counts := bump 64 y.counts 0 1 }) s

/-- The channel's commands have been replayed: it is recorded and counted, and its count of replays begins anew. -/
def replayCompleted (c : Nat) (s : State) : State :=
  modChan c (fun y => { y with replays := 0 }) (gbDie (4 + c / 8) (2100 + c) 1
    (memEvent c 1 none (chanRecord s 3 c) (forAll (chanAt s c).retry (commandReplayed c) (alertReleased c s))))

/-- A replay that no further alert meets runs to its end, and the channel does not fail. -/
theorem caReplay_completes {c : Nat} {s : State} (halert : (chanAt s c).alertN = true) :
    caReplay c false s = (replayCompleted c s, false) := by
  unfold caReplay
  dsimp only
  rw [if_neg (by rw [halert]; decide), if_neg (by simp), if_neg (by decide)]
  rfl

theorem replayed_completes {c : Nat} {s : State} (halert : (chanAt s c).alertN = true) :
    replayed c false s = replayCompleted c s := by
  unfold replayed
  rw [caReplay_completes halert]
  rfl

/-! ### Reads of lines (11 R303, R304, R307, R309) -/

/-- The state in which a line's read is issued: a merge entry of its plain page has settled, and the writes queued for the line
have left. -/
def lineRead (d f i agent : Nat) (s : State) : State :=
  dramRead d f i ((lineOwner s d f i).elim 0 fun q => agentLabel s agent q.1) (match lineOwner s d f i with
    | some (n, p) => (match descAt s n p with
      | some x => if x.state = .plain ∧ x.loc = f then mergeSettle n p i x s else s
      | none => s)
    | none => s)

/-- What a line's read brings about in the state in which it was issued. -/
def lineReturned (d f i agent : Nat) (err : BitVec 640) (s0 : State) : State :=
  if chanDead s0 (chanOf d f i) then badLine d f i 255 agent s0
  else match decodeLine (storedLine s0 d f i) (placeLine f i).2 err with
    | .good l words bits =>
      let s1 := if words = 0 then s0 else corrected d f i l words bits agent s0
      if l.bytes ≠ (storedLine s0 d f i).bytes ∧ (metaLine s0 d f i).isSome then metaRead d f i (leBytes 64 l.bytes.toNat) s1
      else s1
    | .bad words => badLine d f i words agent s0

section
variable {d f i agent : Nat} {err : BitVec 640} {s : State}

/-- A line within its channel that the regions permit to the agent is read. -/
theorem readReturn_reads (hrange : f % 2 ^ 28 < 2 * chanBytes s (chanOf d f i) / 4096)
    (hpermits : regionPermits s (chanOf d f i) (agentClass agent) false (f % 2 ^ 28) = true) :
    readReturn d f i agent err s = lineReturned d f i agent err (lineRead d f i agent s) := by
  unfold readReturn
  dsimp only
  rw [if_neg (Nat.not_le.2 hrange), if_neg (by rw [hpermits]; decide)]
  rfl

theorem lineReturned_bad {words : Nat} (hchan : chanDead s (chanOf d f i) = false)
    (hline : decodeLine (storedLine s d f i) (placeLine f i).2 err = .bad words) :
    lineReturned d f i agent err s = badLine d f i words agent s := by
  unfold lineReturned
  rw [if_neg (by rw [hchan]; decide), hline]

/-- A line that the code passes, and that holds what was stored or no metadata, brings about its correction alone. -/
theorem lineReturned_good {l : RawLine} {words bits : Nat} (hchan : chanDead s (chanOf d f i) = false)
    (hline : decodeLine (storedLine s d f i) (placeLine f i).2 err = .good l words bits)
    (hplain : l.bytes = (storedLine s d f i).bytes ∨ metaLine s d f i = none) :
    lineReturned d f i agent err s = if words = 0 then s else corrected d f i l words bits agent s := by
  have noMeta : ¬(l.bytes ≠ (storedLine s d f i).bytes ∧ (metaLine s d f i).isSome = true) := by
    rintro ⟨hdiffers, hmeta⟩
    rw [hplain.resolve_left hdiffers] at hmeta
    exact absurd hmeta (by decide)
  unfold lineReturned
  rw [if_neg (by rw [hchan]; decide), hline]
  exact if_neg noMeta

end

/-- The night watch reads the next line of a channel, where no host holds it (11 R312). -/
theorem scrubRead_reads {c : Nat} {err : BitVec 640} {s : State} (hactive : (chanAt s c).state = .active)
    (hwing : (wingAt s (c / 2)).state = .openW ∨ (wingAt s (c / 2)).state = .draining) (hlines : chanBytes s c / 64 ≠ 0)
    (halert : (chanAt s c).alertN = false) (hpace : paceOpen s (c / 8) = true) (hreopened : (wingAt s (c / 2)).reopened = none) :
    let q := lineAt (c % 8) (chanAt s c).scrub
    scrubHeld s (c / 8) q.1 q.2 = none →
    scrubRead c err s = modChan c (fun y => { y with
      scrub := ((chanAt s c).scrub + 1) % (chanBytes s c / 64), scrubAsked := false, counts := bump 64 y.counts 7 1 })
      (readReturn (c / 8) q.1 q.2 4 err (scrubSampled c q.1 q.2 err s)) := by
  intro q hheld
  have goes : ¬((chanAt s c).state ≠ .active ∨
      ((wingAt s (c / 2)).state ≠ .openW ∧ (wingAt s (c / 2)).state ≠ .draining) ∨ chanBytes s c / 64 = 0 ∨
      ((wingAt s (c / 2)).reopened.isSome ∧ smGet 0 s.space.passed (c / 2) < wingFrames s (c / 2)) ∨
      (chanAt s c).alertN ∨ paceOpen s (c / 8) = false) := by
    rw [hreopened, halert, hpace]
    simp only [hactive, hlines, ne_eq, not_true_eq_false, Option.isSome_none, Bool.false_eq_true, false_and, or_false,
      false_or, reduceCtorEq]
    rintro ⟨hopen, hdraining⟩
    exact hwing.elim hopen hdraining
  unfold scrubRead
  dsimp only
  rw [if_neg goes, hheld]

/-! ### What empties oldest first (04 R93, 07 R194, 11 R296, R308) -/

theorem writeNext_issues {c : Nat} {e : WEntry} {s : State} (halert : (chanAt s c).alertN = false)
    (hpick : writePick s c (chanAt s c).writes = some e) : writeNext c s = issueWrite c e s := by
  unfold writeNext
  rw [if_neg (by simp [halert]), hpick]

theorem writeBackNext_writes {d : Nat} {l : LcLine} {s : State}
    (holdest : s.tier.evicted.find? (fun x => homeDie x.lodging x.page == d) = some l) :
    writeBackNext d s = writeBackLine l (modTier (fun t => { t with evicted := t.evicted.erase l }) s) := by
  unfold writeBackNext
  rw [holdest]

/-- The entry of the merge buffer that has been held longest leaves it. -/
theorem execMergeHold_oldest {c : ChanId} {e : MergeEntry} {rest : List MergeEntry} {s : State}
    (hmerge : (chanAt s c.val).merge = e :: rest) : execMergeHold c s = .next (mergeOut c.val e s) := by
  unfold execMergeHold
  rw [hmerge]

theorem nodeWriteBack_writes {d m h level k : Nat} {r : SlotRec} {s : State} (hslot : smFind s.lod.slots m = some r)
    (hdirty : s.prot.dirty.contains (nodeId d m h level k) = true) (hsealed : r.isSealed = true)
    (hserves : unitServes s (372 + d) = true) :
    let s1 := pathFetch d m h level k s
    s1.prot.dirty.contains (nodeId d m h level k) = true → parentCounter s1 d m h level k < 2 ^ 64 - 2 →
    nodeWriteBack d m h level k s = treeWrite d m h level k s1 := by
  intro s1 hstill hcounter
  have room : ¬ allOnes64 - 1 ≤ parentCounter s1 d m h level k := Nat.not_le.2 hcounter
  unfold nodeWriteBack
  rw [hslot]
  dsimp only
  rw [if_neg (by rw [hdirty, hsealed, hserves]; decide), if_neg (by rw [hstill]; decide), if_neg room]

/-! ### The obligation -/

/-- Settles O31: each clause is the equation of its handler's case. -/
theorem channelsAct : Obligations.ChannelsAct :=
  ⟨fun _ _ _ _ htrain hlive => congrArg Host.Outcome.next (channelTrained_passes htrain hlive),
   fun _ _ _ _ _ htrain hlive hfail => congrArg Host.Outcome.next (channelTrained_fails htrain hlive hfail),
   fun _ _ _ _ hactive halert hlate => congrArg Host.Outcome.next (dramIssue_lateRefresh hactive halert hlate),
   fun _ _ _ _ _ hactive halert hlate hq =>
      congrArg Host.Outcome.next (dramIssue_mitigates hactive halert hlate hq),
   fun _ _ _ _ hactive halert hlate hq hidle =>
      congrArg Host.Outcome.next (dramIssue_idleRefresh hactive halert hlate hq hidle),
   fun _ _ _ _ hactive halert hlate hq hidle hburst hsub0 hsub1 hreads hpick =>
      congrArg Host.Outcome.next (dramIssue_reads hactive halert hlate hq hidle hburst hsub0 hsub1 hreads hpick),
   fun _ _ _ hactive halert hlate hq hidle hgoes =>
      congrArg Host.Outcome.next (dramIssue_bursts hactive halert hlate hq hidle hgoes),
   fun _ _ _ _ hactive hrank hwait => congrArg Host.Outcome.next (refDue_postpones hactive hrank hwait),
   fun _ _ _ _ hactive halert hrank hgoes =>
      congrArg Host.Outcome.next (refDue_refreshes hactive halert hrank hgoes),
   fun _ _ _ hstate => congrArg Host.Outcome.next (if_pos hstate),
   fun _ => rfl,
   fun _ _ hactive => congrArg Host.Outcome.next (if_pos hactive),
   fun _ _ _ hactive => congrArg Host.Outcome.next (if_pos hactive),
   fun _ _ halert => congrArg Host.Outcome.next (replayed_completes halert),
   fun _ _ _ _ _ _ _ _ hrange hpermits hchan hline hplain => congrArg Host.Outcome.next
      ((readReturn_reads hrange hpermits).trans ((lineReturned_good hchan hline hplain).trans (if_pos rfl))),
   fun _ _ _ _ _ _ _ _ _ hrange hpermits hchan hline hwords hplain => congrArg Host.Outcome.next
      ((readReturn_reads hrange hpermits).trans ((lineReturned_good hchan hline hplain).trans (if_neg hwords))),
   fun _ _ _ _ _ _ _ hrange hpermits hchan hline => congrArg Host.Outcome.next
      ((readReturn_reads hrange hpermits).trans (lineReturned_bad hchan hline)),
   fun _ _ _ _ hmerge => execMergeHold_oldest hmerge,
   fun _ _ hactive hwing hlines halert hpace hreopened hheld =>
      congrArg Host.Outcome.next (scrubRead_reads hactive hwing hlines halert hpace hreopened hheld),
   fun _ _ _ halert hpick => congrArg Host.Outcome.next (writeNext_issues halert hpick),
   fun _ _ _ holdest => congrArg Host.Outcome.next (writeBackNext_writes holdest),
   fun _ _ _ _ _ _ _ hslot hdirty hsealed hserves hstill hcounter =>
      congrArg Host.Outcome.next (nodeWriteBack_writes hslot hdirty hsealed hserves hstill hcounter)⟩

end Sys2Proof.Machine
end

section
/-! What the tier mover does: the epoch and the sweep, and a move's way through a context, state by state (04 R95, R97,
R103-R108). -/

namespace Sys2Proof.Machine

theorem tierEpoch_advances {d : Nat} {s : State} (hnight : s.ps.state ≠ .night) (hoff : s.ps.state ≠ .off) :
    tierEpoch d s = modWing (fun x => x.map fun e =>
        if e.1 / 4 = d then (e.1, { e.2 with reopened := e.2.reopened.map fun k => min 2047 (k + 1) }) else e)
      (modTier (fun t => { t with epoch := smPut 0 t.epoch d ((smGet 0 t.epoch d + 1) % 2048) }) s) :=
  if_neg (by simp [hnight, hoff])

/-- A change that is not due changes nothing. -/
theorem onlyIf_false {f : State → State} {s : State} : onlyIf false f s = s := rfl

/-- A free context takes the next move where it still fits its page; one that is no relocation takes no lock. -/
theorem moveStart_takes {d c : Nat} {r : MoveReq} {x : Desc} {s : State}
    (hfree : (smFind s.tier.moves (32 * d + c)).isSome = false) (hmover : moverOpen s d = true)
    (hentry : entryRuns s = false) (hnext : nextMove s d = some r) (hkind : r.kind ≠ .relocate) :
    let s0 := modTier (fun t => { t with queue := smMod [] t.queue d (List.erase · r) }) s
    moveFits s0 r = true → descAt (settlePage r.n r.p s0) r.n r.p = some x →
    moveStart d c s = moveEnters (32 * d + c) { req := r, state := .snapshot, pess := false, pre := x } .snapshot
      (snoopPageNow r.n r.p (settlePage r.n r.p s0)) := by
  intro s0 hfits hdesc
  have noLock (k : Nat) : (r.kind == .relocate && decide (k ≤ r.aborts)) = false := by simp [hkind]
  unfold moveStart
  rw [if_neg (by simp [hfree, hmover, hentry]), hnext]
  dsimp only
  rw [if_neg (by rw [hfits]; decide), hdesc]
  dsimp only
  rw [noLock, if_neg (by simp), onlyIf_false]

/-! ### What a context does in each state of its move -/

section
variable {k : Nat} {m : Move} {s : State} (hmove : smFind s.tier.moves k = some m)
  (hgone : engineGone m s = false) (hwaits : engineWaits m = false)
include hmove hgone hwaits

section
variable (hstate : m.state = .snapshot) (hsnoop : pageSnooped s m.req.n m.req.p = false)
  (hpace : paceOpen s (k / 32) = true) (hstopped : pageStopped s m.req.n m.req.p = false)
include hstate hsnoop hpace hstopped

/-- The watch that fires aborts a move that holds no lock (04 R105). -/
theorem moveSnapshot_watchFired (hfired : m.fired = true) (hpess : m.pess = false) :
    moveSnapshot k s = moveAbort k true s := by
  unfold moveSnapshot
  rw [hmove]
  dsimp only
  rw [if_neg (by simp [hstate, hsnoop, hpace, hstopped]), if_neg (by simp [hgone]), if_neg (by simp [hwaits]),
    if_pos ⟨hfired, hpess⟩]

/-- A demotion's page that reads whole is staged, and is encoded next. -/
theorem moveSnapshot_stages {b : List Byte} {t : State} (hfired : m.fired = false)
    (hasked : linesUnasked s m.req.n m.req.p = []) (hplain : m.pre.state ≠ .packed) (hkind : m.req.kind = .demote)
    (hread : readPage 2 m.req.n m.req.p m.pre s = (some (b, []), t)) :
    moveSnapshot k s =
      sampleHome (k / 32) 2 (pnum s P.TIER_LABEL) 64 (moveEnters k { m with staged := b } .encode t) := by
  unfold moveSnapshot
  rw [hmove]
  dsimp only
  rw [if_neg (by simp [hstate, hsnoop, hpace, hstopped]), if_neg (by simp [hgone]), if_neg (by simp [hwaits]),
    if_neg (by simp [hfired]), if_neg (by simp [hasked]), hkind]
  dsimp only
  rw [hread]
  dsimp only
  rw [if_pos rfl, if_neg hplain]

end

section
variable (hstate : m.state = .encode)
include hstate

/-- A relocation and a promotion have nothing to encode. -/
theorem moveEncode_passes (hkind : m.req.kind = .relocate ∨ m.req.kind = .promote) :
    moveEncode k s = moveEnters k m .verify s := by
  unfold moveEncode
  rw [hmove]
  dsimp only
  rw [if_neg (by simp [hstate]), if_neg (by simp [hgone]), if_neg (by simp [hwaits])]
  obtain h | h := hkind <;> rw [h]

/-- A page of zeros has an empty image (04 R108). -/
theorem moveEncode_zero (hkind : m.req.kind = .demote) (hzero : m.staged.all (· == 0#8) = true) :
    moveEncode k s = moveEnters k { m with image := [] } .verify s := by
  unfold moveEncode
  rw [hmove]
  dsimp only
  rw [if_neg (by simp [hstate]), if_neg (by simp [hgone]), if_neg (by simp [hwaits]), hkind]
  exact if_pos ⟨rfl, hzero⟩

end

section
variable (hstate : m.state = .verify)
include hstate

theorem moveVerify_agrees : moveVerify k true s = (moveEnters k m .place s, none) := by
  unfold moveVerify
  rw [hmove]
  dsimp only
  rw [if_neg (by simp [hstate]), if_neg (by simp [hgone]), if_neg (by simp [hwaits]), if_neg (by simp)]

/-- An image that decodes otherwise aborts its move and names the compressor that made it (04 R107). -/
theorem moveVerify_differs (hkind : m.req.kind = .demote ∨ m.req.kind = .repack) :
    moveVerify k false s = (moveAbort k true s, some m.coder) := by
  unfold moveVerify
  rw [hmove]
  dsimp only
  rw [if_neg (by simp [hstate]), if_neg (by simp [hgone]), if_neg (by simp [hwaits]), if_pos ⟨rfl, hkind⟩]

end

section
variable (hstate : m.state = .place) (hpace : paceOpen s (k / 32) = true)
  (hstopped : pageStopped s m.req.n m.req.p = false)
include hstate hpace hstopped

/-- A page of zeros takes no place. -/
theorem movePlace_zero (hzero : moveIsZero m = true) : movePlace k s = moveEnters k m .commit s := by
  unfold movePlace
  rw [hmove]
  dsimp only
  rw [if_neg (by simp [hstate, hpace, hstopped]), if_neg (by simp [hgone]), if_neg (by simp [hwaits]), if_pos hzero]

/-- A demotion's image is written to a run drawn from the working reserve (03 R75). -/
theorem movePlace_writesRun {l : Nat} {s1 : State} {key : PageKeys} (hkind : m.req.kind = .demote) (himage : m.image ≠ [])
    (hroom : smGet 0 s.space.reserve (k / 32) + moveBytes m ≤ 64 * 2 ^ 20)
    (hrun : allocRun (k / 32) m.req.n m.req.p (moveBytes m / 256) (moveSource m) s = some (l, s1))
    (hkey : pageKeys s m.req.n m.req.p m.pre.phase = some key) :
    movePlace k s = sampleHome (k / 32) 2 (pnum s P.TIER_LABEL) (moveBytes m / 64)
      (moveEnters k { m with loc := some l, drew := moveBytes m } .commit
        (modSpace (fun x => { x with reserve := smPut 0 x.reserve (k / 32) (smGet 0 x.reserve (k / 32) + moveBytes m) })
          (putLines (k / 32) (l * 4) (runCipher key m.req.p m.image) [] true s1))) := by
  have toRun : moveToRun m = true := by unfold moveToRun; rw [hkind]
  have notZero : ¬ moveIsZero m = true := by simp [moveIsZero, himage]
  have notPromote : (m.req.kind == .promote) = false := by rw [hkind]; rfl
  unfold movePlace
  rw [hmove]
  dsimp only
  rw [if_neg (by simp [hstate, hpace, hstopped]), if_neg (by simp [hgone]), if_neg (by simp [hwaits]), if_neg notZero,
    notPromote, toRun, if_neg (by decide), if_pos rfl, decide_eq_true hroom, hrun, hkey]
  dsimp only
  rw [hkind]
  rfl

end

end

/-! ### The commit (04 R105) -/

section
variable {k : Nat} {m : Move} {s : State} (hmove : smFind s.tier.moves k = some m) (hstate : m.state = .commit)
  (hpess : m.pess = false) (hlock : pageLocked s m.req.n m.req.p = false)
include hmove hstate hpess hlock

/-- A watch that has fired by the commit aborts the move. -/
theorem moveCommit_watchFired (hfired : m.fired = true) : moveCommit k s = moveAbort k true s := by
  have fires : m.pess = false ∧
      (m.fired = true ∨ s.tier.evicted.any (fun l => l.lodging == m.req.n && l.page == m.req.p) = true) :=
    ⟨hpess, .inl hfired⟩
  unfold moveCommit
  rw [hmove]
  dsimp only
  rw [if_neg (by simp [hstate, hlock]), if_pos fires, ite_self]

/-- A move that nothing stops at its commit is applied. -/
theorem moveCommit_applies {x : Desc} {key : PageKeys}
    (hatomic : ¬(m.req.kind = .demote ∧ atomicHeld s m.req.n m.req.p = true)) (hfired : m.fired = false)
    (hevicted : s.tier.evicted.any (fun l => l.lodging == m.req.n && l.page == m.req.p) = false)
    (hretiring : namesRetiring s m = false) (hspends : moveSpends s m x = false)
    (hdesc : descAt s m.req.n m.req.p = some x) (hkey : pageKeys s m.req.n m.req.p m.pre.phase = some key) :
    moveCommit k s = moveApply k m x key (moveIdle k s) := by
  unfold moveCommit
  rw [hmove]
  dsimp only
  rw [if_neg (by simp [hstate, hlock]), if_neg hatomic, if_neg (by rw [hfired, hevicted]; simp), if_neg (by simp [hretiring]),
    hdesc, if_neg (by simp [hspends]), hkey]
  dsimp only
  rw [hpess, if_neg (by decide), if_neg (by simp)]

end

/-- Settles O33: each clause is the equation of its handler's case. -/
theorem moverAct : Obligations.MoverAct :=
  ⟨fun _ _ hnight hoff => congrArg Host.Outcome.next (tierEpoch_advances hnight hoff),
   fun _ _ _ => rfl,
   fun _ _ _ _ _ hfree hmover hentry hnext hfits hkind hdesc =>
      congrArg Host.Outcome.next (moveStart_takes hfree hmover hentry hnext hkind hfits hdesc),
   fun _ _ _ _ _ _ hmove hstate hsnoop hpace hstopped hgone hwaits hfired hasked hplain hkind hread =>
      congrArg Host.Outcome.next
        (moveSnapshot_stages hmove hgone hwaits hstate hsnoop hpace hstopped hfired hasked hplain hkind hread),
   fun _ _ _ _ hmove hstate hsnoop hpace hstopped hgone hwaits hfired hpess => congrArg Host.Outcome.next
      (moveSnapshot_watchFired hmove hgone hwaits hstate hsnoop hpace hstopped hfired hpess),
   fun _ _ _ _ hmove hstate hkind hgone hwaits =>
      congrArg Host.Outcome.next (moveEncode_passes hmove hgone hwaits hstate hkind),
   fun _ _ _ _ hmove hstate hkind hgone hwaits hzero =>
      congrArg Host.Outcome.next (moveEncode_zero hmove hgone hwaits hstate hkind hzero),
   fun _ _ _ _ hmove hstate hgone hwaits =>
      congrArg (fun q => Host.Outcome.next (unitNamed q)) (moveVerify_agrees hmove hgone hwaits hstate),
   fun _ _ _ _ hmove hstate hgone hwaits hkind =>
      congrArg (fun q => Host.Outcome.next (unitNamed q)) (moveVerify_differs hmove hgone hwaits hstate hkind),
   fun _ _ _ _ hmove hstate hpace hstopped hgone hwaits hzero =>
      congrArg Host.Outcome.next (movePlace_zero hmove hgone hwaits hstate hpace hstopped hzero),
   fun _ _ _ _ _ _ _ hmove hstate hpace hstopped hgone hwaits hkind himage hroom hrun hkey => congrArg Host.Outcome.next
      (movePlace_writesRun hmove hgone hwaits hstate hpace hstopped hkind himage hroom hrun hkey),
   fun _ _ _ _ _ _ hmove hstate hpess hatomic hfired hlock hevicted hretiring hspends hdesc hkey =>
      congrArg Host.Outcome.next
        (moveCommit_applies hmove hstate hpess hlock hatomic hfired hevicted hretiring hspends hdesc hkey),
   fun _ _ _ _ hmove hstate hpess hlock hfired =>
      congrArg Host.Outcome.next (moveCommit_watchFired hmove hstate hpess hlock hfired)⟩

end Sys2Proof.Machine
end

section
/-! How wings shut and reopen, and how dictionaries are loaded, trained and retired (04 R120-R123, 05 R145, R147, R149). -/

namespace Sys2Proof.Machine

/-! ### Wings -/

section
variable {w : Nat} {s : State}

theorem wingEmpty_empties (hstate : (wingAt s w).state = .draining) (hused : wingUsed s w = 0)
    (hflight : wingInFlight s w = false) : wingEmpty w s = modWingAt w (fun x => { x with state := .empty }) s := by
  unfold wingEmpty
  rw [hstate]
  exact if_neg (by simp [hused, hflight])

theorem wingEmpty_shutters (hstate : (wingAt s w).state = .empty) : wingEmpty w s = wingShutters w s := by
  unfold wingEmpty
  rw [hstate]

/-- A wing that `EVACUATE` shuts and that nobody wants back is `SHUT` once its branch is off, and the command ends `OK`. -/
theorem wingShutDone_ofCommand (hstate : (wingAt s w).state = .shuttering) (hoff : (branchAt s w).state = .off)
    (hcmd : (wingAt s w).byCmd = true) (hunit : (wingAt s w).byUnit = none) (hwanted : (wingAt s w).reopenWanted = false) :
    wingShutDone w s = modWingAt w (fun y => { y with reopenWanted := false }) (cmdEnd 0 P.WING_CMD 0x00 0
      (modWingAt w (fun y => { y with state := .shut, byCmd := false, byUnit := none }) s)) := by
  have off : ¬((wingAt s w).state ≠ .shuttering ∨ (branchAt s w).state ≠ .off) := by simp [hstate, hoff]
  unfold wingShutDone
  dsimp only
  rw [if_neg off, hunit]
  unfold wingShut
  dsimp only
  rw [if_neg off, if_pos (.inl hwanted), if_pos hcmd]

theorem wingReopened_trained (hstate : (wingAt s w).state = .reopening) (hlow : (chanAt s (2 * w)).state = .active)
    (hhigh : (chanAt s (2 * w + 1)).state = .active) (hunit : (wingAt s w).reopenUnit = none) :
    wingReopened w s =
      reopenTrained w (unitReturns (64 + 2 * w + 1) (unitReturns (64 + 2 * w) (unitReturns (96 + w) s))) := by
  unfold wingReopened
  dsimp only
  rw [if_neg (by simp [hstate, hlow, hhigh]), hunit]

end

section
variable {d w : Nat} {s : State}

/-- A test that implies one which no wing of a die meets finds no wing of it. -/
theorem find_dieWings_none {p q : Nat → Bool} (hnone : (dieWings d).any q = false) (himp : ∀ v, p v = true → q v = true) :
    (dieWings d).find? p = none := by
  rw [List.any_eq_false] at hnone
  exact List.find?_eq_none.2 fun v hv hp => hnone v hv (himp v hp)

/-- Where open free space is short and no wing is on its way out or back, the lowest that can open reopens (04 R121). -/
theorem autoReopen_reopens (hshort : ((openFree s d * 100 : Nat) : Int) < pnum s P.TIER_REOPEN_MARK * usable s d)
    (hleaving : (dieWings d).any (fun w => (wingAt s w).state == .draining || (wingAt s w).state == .empty) = false)
    (hreopening : (dieWings d).any (fun w => (wingAt s w).state == .reopening) = false)
    (hshuttering : (dieWings d).any (fun w => (wingAt s w).state == .shuttering) = false)
    (hpick : reopenPick s d = some w) : autoReopen d s = reopenStart w false none s := by
  unfold autoReopen
  dsimp only
  rw [if_neg (fun h => of_decide_eq_false h.1 hshort), find_dieWings_none hleaving fun v hv => (Bool.and_eq_true_iff.1 hv).2]
  dsimp only
  rw [if_neg (by rw [hreopening]; decide), find_dieWings_none hshuttering fun v hv => hv, hpick]

/-- The end of a pass, as it stands before anything is shut. -/
def sweepEnded (d : Nat) (s : State) : State := modTier (fun t => { t with sweep := smErase t.sweep d }) s

theorem sweepPassEnd_disabled (hoff : bitOf (pnum s P.TIER_ENABLE) 4 = false) : sweepPassEnd d s = sweepEnded d s :=
  if_pos (.inl hoff)

section
variable (hon : bitOf (pnum s P.TIER_ENABLE) 4 = true) (hstage : smGet 0 s.lod.stage d = 0)
  (hmoving : (dieWings d).any (wingMoving s) = false) (hpick : shutterPick (sweepEnded d s) d = some w)
include hon hstage hmoving hpick

/-- A normal die with no wing on its way shuts the wing that is picked; a command under way refuses it (04 R123). -/
theorem sweepPassEnd_picks : sweepPassEnd d s =
    if cmdPending s 0 P.WING_CMD then autoRefused P.WING_CMD 0x02 (sweepEnded d s)
    else evacuateStart w true none (autoCommand P.WING_CMD (sweepEnded d s)) := by
  unfold sweepEnded at hpick ⊢
  unfold sweepPassEnd
  dsimp only
  rw [if_neg (by simp [hon, hstage, hmoving]), hpick]

theorem sweepPassEnd_evacuates (hcmd : cmdPending s 0 P.WING_CMD = false) :
    sweepPassEnd d s = evacuateStart w true none (autoCommand P.WING_CMD (sweepEnded d s)) := by
  rw [sweepPassEnd_picks hon hstage hmoving hpick, if_neg (by simp [hcmd])]

theorem sweepPassEnd_refused (hcmd : cmdPending s 0 P.WING_CMD = true) :
    sweepPassEnd d s = autoRefused P.WING_CMD 0x02 (sweepEnded d s) := by
  rw [sweepPassEnd_picks hon hstage hmoving hpick, if_pos hcmd]

end

end

/-! ### A store's load of a dictionary (05 R145) -/

/-- What a load finds in a die's copy: nothing where it meets an error or fails its check. -/
def copyRead (s : State) (x bad e : Nat) : Option (Nat × List Byte) :=
  if bad.testBit e then none else (dictContent s e x).map fun b => (e, b)

/-- A copy that meets an error, or has no content, is not good. -/
theorem copyRead_none {s : State} {x bad e : Nat} (h : bad.testBit e = true ∨ dictContent s e x = none) :
    copyRead s x bad e = none := by
  unfold copyRead
  obtain h | h := h <;> simp [h]

/-- Installed and retiring dictionaries are loaded. -/
theorem dictHeld_of_state {s : State} {x : Nat}
    (hstate : (dictAt s x).state = .installed ∨ (dictAt s x).state = .retiring) :
    ((dictAt s x).state == .installed || (dictAt s x).state == .retiring) = true := by simpa using hstate

/-- The other dies of the order in which copies are tried are memory dies. -/
theorem lt_of_mem_dieOrder {d e : Nat} (h : e ∈ dieOrder d) : e < 4 := by
  simp only [dieOrder, List.mem_cons, List.mem_filter, below, List.mem_range] at h
  omega

section
variable {d x bad : Nat} {s : State}
  (hstate : (dictAt s x).state = .installed ∨ (dictAt s x).state = .retiring)
include hstate

/-- A store that holds the dictionary has it as its most recently used. -/
theorem storeLoad_held {y : StoreSlot} (hslot : storeSlot s d x = some y) : storeLoad d x bad s = storeTouch d y s := by
  unfold storeLoad
  dsimp only
  rw [dictHeld_of_state hstate, if_neg (by decide), hslot]

section
variable (hslot : storeSlot s d x = none)
include hslot

/-- A store that lacks the dictionary takes it from the die's own copy. -/
theorem storeLoad_ownCopy {b : List Byte} (hbad : bad.testBit d = false) (hcontent : dictContent s d x = some b) :
    storeLoad d x bad s = storeTouch d ⟨x, b⟩ s := by
  unfold storeLoad
  dsimp only
  rw [dictHeld_of_state hstate, if_neg (by decide), hslot, hbad, hcontent]
  rfl

/-- A bad copy is repaired from the first good one. -/
theorem storeLoad_repairs {e : Nat} {b c : List Byte} (hown : copyRead s x bad d = none)
    (hfound : (dieOrder d).findSome? (copyRead s x bad) = some (e, b)) (hcopy : dictCopy s e x = some c) :
    storeLoad d x bad s = storeTouch d ⟨x, b⟩ (dictStore d x c s) := by
  unfold copyRead at hown hfound
  unfold storeLoad
  dsimp only
  rw [dictHeld_of_state hstate, if_neg (by decide), hslot, hown]
  dsimp only
  rw [hfound]
  dsimp only
  rw [hcopy]

/-- A dictionary that no die has a good copy of is damaged; a retirement under way would return its row to that. -/
theorem storeLoad_damaged (hdies : ∀ e < 4, bad.testBit e = true ∨ dictContent s e x = none) (hd : d < 4) :
    storeLoad d x bad s = logPlain 14 2 (modDictAt x (fun r =>
      if r.state = .retiring then { r with former := .damaged } else { r with state := .damaged }) s) := by
  have own := copyRead_none (hdies d hd)
  have others : (dieOrder d).findSome? (copyRead s x bad) = none :=
    List.findSome?_eq_none_iff.2 fun e he => copyRead_none (hdies e (lt_of_mem_dieOrder he))
  unfold copyRead at own others
  unfold storeLoad
  dsimp only
  rw [dictHeld_of_state hstate, if_neg (by decide), hslot, own]
  dsimp only
  rw [others]

end

end

/-! ### The end of a training (05 R147) -/

/-- A die takes its encrypted copy of a dictionary's content, where it has its owner's key. -/
def copyInstalled (n x : Nat) (content : List Byte) (d : Nat) (t : State) : State :=
  match dictCrypt t d true n x content with
  | some c => dictStore d x c t
  | none => t

section
variable {x : Nat} {s : State} (hstate : (dictAt s x).state = .training)
  (hsnoop : (trainPages s (dictAt s x).owner).any (pageSnooped s (dictAt s x).owner) = false)
  (hasked : (trainPages s (dictAt s x).owner).any (fun p => linesUnasked s (dictAt s x).owner p != []) = false)
include hstate hsnoop hasked

/-- A training that could read no page ends without a dictionary. -/
theorem trainEnd_noPage :
    let g := trainRead (dictAt s x).owner (trainPages s (dictAt s x).owner) (useCompressor ((dictAt s x).owner % 4) s)
    g.1 = [] → trainEnd x false s = (trainStop x 0x0B 3 g.2, none) := by
  intro g hnone
  unfold trainEnd
  dsimp only
  rw [if_neg (by simp [hstate, hsnoop]), if_neg (by rw [hasked]; decide), if_neg (by decide), if_pos hnone]

/-- A training that read pages installs its dictionary on every die in service. -/
theorem trainEnd_installs :
    let n := (dictAt s x).owner
    let g := trainRead n (trainPages s n) (useCompressor (n % 4) s)
    let content := dictAssemble (pnum s P.COMP_TRAIN_MIN) g.1
    let entry : DictRec := ⟨(crc32c content).toNat, trainLengths (pnum s P.COMP_TRAIN_LEVEL) content g.1⟩
    let dies := (below 4).filter fun d => unitServes g.2 (372 + d)
    let s2 := modDictAt x (fun r => { r with
      state := .installed, former := .free, recs := dies.map (fun d => (d, entry)), sampled := g.1.length, refs := []
      left := [] }) g.2
    g.1 ≠ [] → trainEnd x false s =
      (cmdEnd x P.DICT_CMD 0x00 g.1.length (forAll dies (copyInstalled n x content) s2), none) := by
  intro n g content entry dies s2 hsome
  unfold trainEnd
  dsimp only
  rw [if_neg (by simp [hstate, hsnoop]), if_neg (by rw [hasked]; decide), if_neg (by decide), if_neg hsome]
  rfl

end

/-! ### Retirement (05 R149) -/

/-- The last die's count decides a retirement: a dictionary that no page names is freed, another returns. -/
theorem dictRetireCheck_last {x d : Nat} {s : State} (hstate : (dictAt s x).state = .retiring)
    (hleft : (dictAt s x).left = [d]) (hmoves : movesName s d x = false) :
    let sum := (dictAt s x).found + dictRefs s d x
    let s1 := modDictAt x (fun r => { r with left := [], found := sum }) (refsRead d x s)
    dictRetireCheck x d s = if sum = 0 then cmdEnd x P.DICT_CMD 0x00 0 (dictFree x s1)
      else dictRetireBack x (min 0xFFFFFFFF sum) s1 := by
  intro sum s1
  have noneLeft : [d].filter (· ≠ d) = [] := by simp
  unfold dictRetireCheck
  dsimp only
  rw [if_neg (by simp [hstate, hleft, hmoves]), hleft, noneLeft, if_neg (by simp)]

/-! ### The obligation -/

/-- Settles O34: each clause is the equation of its handler's case. -/
theorem wingsAndDictionariesAct : Obligations.WingsAndDictionariesAct :=
  ⟨fun _ _ hstate hused hflight => congrArg Host.Outcome.next (wingEmpty_empties hstate hused hflight),
   fun _ _ hstate => congrArg Host.Outcome.next (wingEmpty_shutters hstate),
   fun _ _ hstate hoff hcmd hunit hwanted =>
      congrArg Host.Outcome.next (wingShutDone_ofCommand hstate hoff hcmd hunit hwanted),
   fun _ _ hstate hlow hhigh hunit => congrArg Host.Outcome.next (wingReopened_trained hstate hlow hhigh hunit),
   fun _ _ _ hshort hleaving hreopening hshuttering hpick =>
      congrArg Host.Outcome.next (autoReopen_reopens hshort hleaving hreopening hshuttering hpick),
   fun _ _ hoff => congrArg Host.Outcome.next (sweepPassEnd_disabled hoff),
   fun _ _ _ hon hstage hmoving hcmd hpick =>
      congrArg Host.Outcome.next (sweepPassEnd_evacuates hon hstage hmoving hpick hcmd),
   fun _ _ _ hon hstage hmoving hcmd hpick =>
      congrArg Host.Outcome.next (sweepPassEnd_refused hon hstage hmoving hpick hcmd),
   fun _ _ _ _ _ hstate hslot => congrArg Host.Outcome.next (storeLoad_held hstate hslot),
   fun _ _ _ _ _ hstate hslot hbad hcontent =>
      congrArg Host.Outcome.next (storeLoad_ownCopy hstate hslot hbad hcontent),
   fun _ _ _ _ _ _ _ hstate hslot hown hfound hcopy =>
      congrArg Host.Outcome.next (storeLoad_repairs hstate hslot (copyRead_none hown) hfound hcopy),
   fun d _ _ _ hstate hslot hdies =>
      congrArg Host.Outcome.next (storeLoad_damaged hstate hslot (fun e he => hdies ⟨e, he⟩) d.isLt),
   fun _ _ hstate hsnoop hasked hnone =>
      congrArg (fun q => Host.Outcome.next (unitNamed q)) (trainEnd_noPage hstate hsnoop hasked hnone),
   fun _ _ _ hstate hsnoop hasked hg hsome => by
      subst hg
      exact congrArg (fun q => Host.Outcome.next (unitNamed q)) (trainEnd_installs hstate hsnoop hasked hsome),
   fun _ _ _ hstate hleft hmoves hsum =>
      congrArg Host.Outcome.next ((dictRetireCheck_last hstate hleft hmoves).trans (if_pos hsum)),
   fun _ _ _ hstate hleft hmoves hsum =>
      congrArg Host.Outcome.next ((dictRetireCheck_last hstate hleft hmoves).trans (if_neg hsum))⟩

end Sys2Proof.Machine
end

section
/-! How offload jobs are asked for, fetched, worked on and ended (06 R160-R174). -/

namespace Sys2Proof.Machine

/-! ### Doorbells and tokens (06 R160, R161, R164) -/

section
variable {p q v : Nat} {s : State} (hup : portUp s p = true) (hport : queueP s q P.Q_PORT = p)
  (hon : (queueAt s q).state = .enabled)
include hup hport hon

/-- A tail within the ring that leaves room for what is outstanding stands. -/
theorem writeTail_stands (hring : v % 4096 < queueP s q P.Q_SIZE)
    (hroom : outstanding (queueP s q P.Q_SIZE) (queueAt s q).sqTail (queueAt s q).cqHead +
      (v % 4096 + queueP s q P.Q_SIZE - (queueAt s q).sqTail) % queueP s q P.Q_SIZE < queueP s q P.Q_SIZE) :
    writeTail p q v s = modQueue q (fun y => { y with sqTail := v % 4096 }) s := by
  have within : ¬(queueP s q P.Q_SIZE ≤ v % 4096 ∨ queueP s q P.Q_SIZE ≤
      outstanding (queueP s q P.Q_SIZE) (queueAt s q).sqTail (queueAt s q).cqHead +
        (v % 4096 + queueP s q P.Q_SIZE - (queueAt s q).sqTail) % queueP s q P.Q_SIZE) :=
    not_or.2 ⟨Nat.not_le_of_lt hring, Nat.not_le_of_lt hroom⟩
  unfold writeTail
  dsimp only
  rw [if_neg (by simp [hup]), if_neg (not_not_intro hport), if_neg (not_not_intro hon), if_neg within]

theorem writeHead_stands : writeHead p q v s = modQueue q (fun y => { y with cqHead := v % 4096 }) s := by
  unfold writeHead
  rw [if_neg (by simp [hup]), if_neg (not_not_intro hport), if_neg (not_not_intro hon)]

end

/-- The doorbell that comes through the queue's own port wakes the device (16 Table 16.5). -/
theorem doorbell_wakes {p : PortId} {q : QueueId} {v : BitVec 32} {s : State} (hup : portUp s p.val = true)
    (hport : queueP s q.val P.Q_PORT = p.val) :
    exec (.sqTail p q (.write v)) s = .next (wake 2 (writeTail p.val q.val v.toNat (portActivity p.val s))) := by
  have own : (portUp s p.val && queueP s q.val P.Q_PORT == p.val) = true := by simp [hup, hport]
  exact congrArg (fun b => Host.Outcome.next (onlyIf b (wake 2) (writeTail p.val q.val v.toNat (portActivity p.val s)))) own

theorem tokenRefill_adds {q : Nat} {s : State} (hon : (queueAt s q).state ≠ .disabled) :
    tokenRefill q s = modQueue q (fun x => { x with
      tokens := min (queueP s q P.Q_BURST * 10 ^ 6) (x.tokens + queueP s q P.Q_RATE) }) s :=
  if_neg hon

/-! ### The fetch of a descriptor (06 R163) -/

/-- The source bytes of a list as it was read. -/
def bytesListed : Option (List (BitVec 128)) → Nat
  | some l => listBytes l
  | none => 0

/-- The job of the descriptor at a queue's head. -/
def fetchedJob (s : State) (q : Nat) (d : BitVec 512) (src : Option (List (BitVec 128))) : Job :=
  { queue := q, index := (queueAt s q).sqHead, phase := (queueAt s q).phase, desc := d, listed := bytesListed src }

section
variable {q : Nat} {d : BitVec 512} {src : Option (List (BitVec 128))} {s : State}
  (hon : (queueAt s q).state = .enabled) (hnew : (queueAt s q).sqHead ≠ (queueAt s q).sqTail)
  (hslot : (jobAt s q (queueAt s q).sqHead).isSome = false) (hpower : s.ps.state ≠ .entering)
  (hup : portUp s (queueP s q P.Q_PORT) = true)
include hon hnew hslot hpower hup

/-- A well-formed descriptor whose tokens are there starts its job: the record `STARTED` is written (06 R164, R165). -/
theorem jobFetch_starts (hwhole : listWhole d src = true) (hgood : fetchFault s q d src = none)
    (hpaid : jobCost d (bytesListed src) * 10 ^ 6 ≤ (queueAt s q).tokens) :
    jobFetch q (some d) src s = headPasses q (writeRecord (fetchedJob s q d src) 0x01 0 0 (bumpQueue q 0
      (modQueue q (fun y => { y with tokens := y.tokens - jobCost d (bytesListed src) * 10 ^ 6 })
        (modJob (fun y => { y with jobs := y.jobs ++ [fetchedJob s q d src] }) s)))) := by
  unfold jobFetch
  dsimp only
  rw [if_neg (by simp [hon, hnew, hslot, hpower, hup]), if_neg (by simp [hwhole]), hgood]
  exact if_neg (Nat.not_lt_of_le hpaid)

/-- A descriptor that is not well formed, or whose list is not, ends at once with its status. -/
theorem jobFetch_refuses {e : Nat × Nat} (hread : listWhole d src = true ∨ jobMalformed s q d ≠ none)
    (hbad : fetchFault s q d src = some e) :
    jobFetch q (some d) src s = headPasses q (jobNotify (fetchedJob s q d src)
      (writeRecord (fetchedJob s q d src) e.1 e.2 0 (bumpQueue q 2 s))) := by
  have read : ¬(listWhole d src = false ∧ jobMalformed s q d = none) := by
    rintro ⟨hpart, hform⟩
    exact hread.elim (by simp [hpart]) (· hform)
  unfold jobFetch
  dsimp only
  rw [if_neg (by simp [hon, hnew, hslot, hpower, hup]), if_neg read, hbad]
  rfl

end

/-! ### The start of a job (06 R163, R167, R169-R173, R175) -/

/-- An output list that was read whole and is well formed is the job's. -/
theorem withOuts_whole {j : Job} {l : List (BitVec 128)} {s : State} (k : Job → State)
    (hcount : l.length = jobF j.desc 320 16) (hlist : listFault l = none) :
    withOuts j (some l) s k = k { j with outs := listEntries l } := by
  unfold withOuts
  dsimp only
  rw [if_neg (not_not_intro hcount), hlist]

/-- The stream of a compression without a dictionary, made in a state. -/
def compressStream (lodging : Nat) (d : BitVec 512) (b : List Byte) (s : State) : Stream :=
  let out := compressed (jobF d 8 4) (jobF d 12 4) none (defaultTables s) b
  { op := 1, fmt := jobF d 8 4, level := jobF d 12 4, lodging := lodging, source := b
    pieces := if out.isEmpty then [] else [⟨0, out, false, 0⟩], check := checkStart (jobF d 8 4) }

/-- The stream of a decompression whose source decodes so. -/
def decompressStream (lodging fmt : Nat) (g : List Piece × (Nat × Nat × Nat) × State) : Stream :=
  { op := 2, fmt := fmt, lodging := lodging, pieces := g.1, last := g.2.1, check := checkStart fmt }

/-- The stream of an `EXPORT` job that begins. -/
def exportStream (lodging : Nat) (d : BitVec 512) : Stream :=
  { op := 3, level := jobF d 12 4, lodging := lodging, next := jobF d 128 34, left := jobF d 192 32 }

/-- The stream of an `EXPORT_DICT` job: one record. -/
def exportDictStream (lodging x : Nat) (content : List Byte) (s : State) : Stream :=
  { op := 4, lodging := lodging, dict := x, pieces := [exportRecord 5 x lodging (dictRecord s x ++ content)] }

section
variable {q i : Nat} {j : Job} {s : State} (hjob : jobAt s q i = some j) (hstart : mayStart s j = true)
include hjob hstart

section
variable {b : List Byte} {l : List (BitVec 128)} (hctx : ctxRefused s j = false) (hlen : b.length = sourceLen j)
  (hsize : b.length < 2 ^ 32) (hcount : l.length = jobF j.desc 320 16) (hlist : listFault l = none)
include hctx hlen hsize hcount hlist

/-- A compression without a dictionary gives what the die's compressor makes of its source to the outputs. -/
theorem jobCompress_writes (hop : jobF j.desc 0 8 = 1) (hcoder : engineThere (112 + 8 * (q % 4)) 8 s = true)
    (hdecoder : engineThere (144 + 16 * (q % 4)) 16 s = true)
    (hnoDict : (decide (jobF j.desc 8 4 = 0) && j.desc.getLsbD 19 && decide (4 ≤ jobF j.desc 12 4)) = false) :
    let s1 := useDecompressor (q % 4) (useCompressor (q % 4) s)
    let t := compressStream (queueP s q P.Q_LODGING) j.desc b s1
    jobCompress q i (some b) (some l) none s =
      (jobWrite { j with outs := listEntries l, stream := some t } t (ctxRun j s1), none) := by
  unfold jobCompress
  rw [hjob]
  dsimp only
  rw [if_neg (by simp [hop, hstart, hcoder, hdecoder]), if_neg (by simp [hctx]), hnoDict, if_neg (by simp),
    if_neg (not_not_intro hlen), if_neg (Nat.not_le_of_lt hsize), withOuts_whole _ hcount hlist, onlyIf_false]
  rfl

/-- A decompression gives what its source decodes to to the outputs. -/
theorem jobDecompress_writes (hop : jobF j.desc 0 8 = 2)
    (hdecoders : (if jobF j.desc 8 4 = 1 then 2 else 1) ≤ enginesServing (144 + 16 * (q % 4)) 16 s) :
    let g := decoded (jobF j.desc 8 4) (q % 4) (queueP s q P.Q_LODGING) b s
    let t := decompressStream (queueP s q P.Q_LODGING) (jobF j.desc 8 4) g
    jobDecompress q i (some b) (some l) false s =
      (jobWrite { j with outs := listEntries l, stream := some t } t (useDecompressor (q % 4) (ctxRun j g.2.2)), none) := by
  have ready : ¬(jobF j.desc 0 8 ≠ 2 ∨ mayStart s j = false ∨
      enginesServing (144 + 16 * (q % 4)) 16 s < if jobF j.desc 8 4 = 1 then 2 else 1) := by
    simp [hop, hstart, hdecoders]
  unfold jobDecompress
  rw [hjob]
  dsimp only
  rw [if_neg ready, if_neg (by simp [hctx]), if_neg (not_not_intro hlen), if_neg (Nat.not_le_of_lt hsize),
    if_neg (by decide), withOuts_whole _ hcount hlist]
  rfl

end

section
variable {l : List (BitVec 128)} (hctx : ctxRefused s j = false) (hmay : exportRefused s j j.stream = none)
  (hcount : l.length = jobF j.desc 320 16) (hlist : listFault l = none)
include hctx hmay hcount hlist

/-- An `EXPORT` job that may run has its pages before it. -/
theorem jobExport_begins (hop : jobF j.desc 0 8 = 3) :
    jobExport q i (some l) s = putJob { j with
      outs := listEntries l, stream := some (exportStream (queueP s q P.Q_LODGING) j.desc) } (ctxRun j s) := by
  unfold jobExport
  rw [hjob]
  dsimp only
  rw [if_neg (by simp [hop, hstart]), if_neg (by simp [hctx]), hmay]
  exact withOuts_whole _ hcount hlist

/-- `EXPORT_DICT` of a dictionary that the lodging may use gives its record to the outputs. -/
theorem jobExportDict_writes {body : DictBody} (hop : jobF j.desc 0 8 = 4) (hlodging : queueP s q P.Q_LODGING < 4096)
    (hdict : jobDictRefused s j (jobF j.desc 32 10) = false) :
    let x := jobF j.desc 32 10
    let s1 := storeLoad (q % 4) x 0 s
    let t := exportDictStream (queueP s q P.Q_LODGING) x body.content s1
    dictFor s1 (q % 4) (queueP s q P.Q_LODGING) x = some body →
    jobExportDict q i (some l) s = jobWrite { j with outs := listEntries l, stream := some t } t (ctxRun j s1) := by
  intro x s1 t hbody
  unfold jobExportDict
  rw [hjob]
  dsimp only
  rw [if_neg (by simp [hop, hstart]), if_neg (by simp [hctx]), if_neg (Nat.not_le_of_lt hlodging),
    if_neg (by simp [hdict]), hmay]
  dsimp only
  rw [hbody]
  exact withOuts_whole _ hcount hlist

end

section
variable {c : SavedCtx} {a : List Byte} (hop : jobF j.desc 0 8 = 5)
  (hsaved : smFind s.job.ctxs (jobCtx j.desc) = some (some c)) (hmay : resumeRefused s j c.stream = none)
include hop hsaved hmay

/-- A saved stream that has nothing left to write goes on. -/
theorem jobResume_goesOn {l : List (BitVec 128)} (hcrc : crc32c a = c.crc) (hlen : a.length = 131072)
    (hpieces : c.stream.pieces = []) (hcount : l.length = jobF j.desc 320 16) (hlist : listFault l = none) :
    jobResume q i (some a) (some l) s =
      putJob { j with outs := listEntries l, stream := some c.stream } (ctxRun j s) := by
  have intact : ¬(crc32c a ≠ c.crc ∨ a.length ≠ 131072) := not_or.2 ⟨not_not_intro hcrc, not_not_intro hlen⟩
  unfold jobResume
  rw [hjob]
  dsimp only
  rw [if_neg (by simp [hop, hstart]), hsaved]
  dsimp only
  rw [hmay]
  dsimp only
  rw [if_neg intact]
  exact (withOuts_whole (j := { j with stream := some c.stream }) _ hcount hlist).trans (if_pos hpieces)

/-- A save area of another length ends the job (06 R172). -/
theorem jobResume_areaRefused {outs : Option (List (BitVec 128))} (hlen : a.length ≠ 131072) :
    jobResume q i (some a) outs s =
      jobEnds { j with stream := some { c.stream with pieces := [] } } 0x0C 3 (ctxRun j s) := by
  unfold jobResume
  rw [hjob]
  dsimp only
  rw [if_neg (by simp [hop, hstart]), hsaved]
  dsimp only
  rw [hmay]
  exact if_pos (.inr hlen)

end

section
variable (hop : jobF j.desc 0 8 = 6)
include hop

/-- A context that no job runs is freed. -/
theorem jobRelease_frees (hidle : smFind s.job.ctxs (jobCtx j.desc) ≠ some none) :
    jobRelease q i s = jobEnds j 0x00 0 (ctxFree (jobCtx j.desc) s) := by
  unfold jobRelease
  rw [hjob]
  dsimp only
  rw [if_neg (by simp [hop, hstart])]
  split
  · next hrun => exact absurd hrun hidle
  · rfl

theorem jobRelease_running (hrun : smFind s.job.ctxs (jobCtx j.desc) = some none) :
    jobRelease q i s = jobEnds j 0x03 1 s := by
  unfold jobRelease
  rw [hjob]
  dsimp only
  rw [if_neg (by simp [hop, hstart]), hrun]

end

end

/-! ### The pages of an `EXPORT` job (06 R173, R174) -/

section
variable {q i p : Nat} {j : Job} {t : Stream} {r : Piece} {s : State} (hjob : jobAt s q i = some j)
  (hstream : j.stream = some t) (hlive : j.ended = none) (hmay : exportRefused s j j.stream = none)
include hjob hstream hlive hmay

/-- A page whose lines the device may read has its record built. -/
theorem exportPage_builds (hop : t.op = 3) (hfrom : t.next ≤ p) (hto : p < t.next + t.left)
    (hnew : (smFind t.built p).isSome = false) (harrived : (smFind t.arrived p).isSome = false)
    (hsnoop : pageSnooped s t.lodging p = false) (hslice : sliceServing s (homeSlice t.lodging p) = true)
    (hengine : engineMissing s t.lodging p = false) (hwaits : exportWaits s t.lodging p = false)
    (hpace : paceOpen s (homeDie t.lodging p) = true) (hstopped : pageStopped s t.lodging p = false)
    (hasked : linesAsked s t.lodging p = []) (hrecord : (pageRecord t.lodging p t.level s).1 = some r) :
    exportPage q i p none s = (putJob { j with stream := some { t with
        built := smSet t.built p r, asked := t.asked.filter (· ≠ p) } }
      (sampleHome (homeDie t.lodging p) 5 (queueP s q P.Q_LABEL) (linesRead s t.lodging p)
        (pageRecord t.lodging p t.level s).2), none) := by
  have due : ¬(t.op ≠ 3 ∨ j.ended.isSome ∨ p < t.next ∨ t.next + t.left ≤ p ∨ (smFind t.built p).isSome ∨
      (smFind t.arrived p).isSome ∨ pageSnooped s t.lodging p ∨ sliceServing s (homeSlice t.lodging p) = false) := by
    simp [hop, hlive, hfrom, hto, hnew, harrived, hsnoop, hslice]
  have free : ¬(engineMissing s t.lodging p ∨ exportWaits s t.lodging p ∨ paceOpen s (homeDie t.lodging p) = false ∨
      pageStopped s t.lodging p) := by simp [hengine, hwaits, hpace, hstopped]
  unfold exportPage
  rw [hjob]
  dsimp only
  rw [hstream] at hmay ⊢
  dsimp only
  rw [if_neg due, if_neg free, hmay]
  dsimp only
  rw [if_neg (fun h => h.1 hasked), ite_self]
  dsimp only
  rw [hrecord]

/-- A record that reaches the queue die is placed with those that follow it in page order, and they are written. -/
theorem exportArrive_places (hbuilt : smFind t.built p = some r) :
    let t1 := { t with built := smErase t.built p, arrived := smSet t.arrived p r }
    let t2 := placeRecords t1.arrived.length t1
    exportArrive q i p s = if t2.pieces = [] then putJob { j with stream := some t2 } s
      else jobWrite { j with stream := some t2 } t2 s := by
  unfold exportArrive
  rw [hjob]
  dsimp only
  rw [hstream] at hmay ⊢
  dsimp only
  rw [hbuilt]
  dsimp only
  rw [if_neg (by simp [hlive]), hmay]

end

/-! ### The end of a job (06 R166) -/

/-- A job without a stream that has ended writes its record, notifies and counts. -/
theorem jobComplete_counts {q i status detail : Nat} {j : Job} {s : State} (hjob : jobAt s q i = some j)
    (hended : j.ended = some (status, detail)) (hsaved : j.saved = false) (hstream : j.stream = none) :
    let s3 := bumpQueue q (if status = 0 then 3 else if status = 0x2A then 5 else 4)
      (modJob (fun x => { x with jobs := x.jobs.filter fun k => !(k.queue == q && k.index == i) })
        (jobNotify j (writeRecord j status detail 0 s)))
    (queueAt s3 q).state ≠ .draining → jobComplete q i s = s3 := by
  intro s3 hstate
  unfold jobComplete
  rw [hjob]
  dsimp only
  rw [hended]
  dsimp only
  rw [hsaved, hstream, Option.isSome_none, Bool.and_false]
  exact if_neg fun h => hstate h.1

/-! ### The obligation -/

/-- Settles O35: each clause is the equation of its handler's case. -/
theorem offloadAct : Obligations.OffloadAct :=
  ⟨fun _ _ _ _ hupNow hportNow hon hring hroom hup hport => (doorbell_wakes hup hport).trans
      (congrArg (fun t => Host.Outcome.next (wake 2 t)) (writeTail_stands hupNow hportNow hon hring hroom)),
   fun _ _ _ _ => rfl,
   fun _ _ _ _ hup hport hon => congrArg Host.Outcome.next (writeHead_stands hup hport hon),
   fun _ _ hon => congrArg Host.Outcome.next (tokenRefill_adds hon),
   fun _ _ _ _ hon hnew hslot hpower hup hwhole hgood hpaid =>
      congrArg Host.Outcome.next (jobFetch_starts hon hnew hslot hpower hup hwhole hgood hpaid),
   fun _ _ _ _ _ hon hnew hslot hpower hup hread hbad =>
      congrArg Host.Outcome.next (jobFetch_refuses hon hnew hslot hpower hup hread hbad),
   fun _ _ _ _ _ _ hjob hstart hop hcoder hdecoder hctx hnoDict hlen hsize hcount hlist =>
      congrArg (fun r => Host.Outcome.next (unitNamed r))
        (jobCompress_writes hjob hstart hctx hlen hsize hcount hlist hop hcoder hdecoder hnoDict),
   fun _ _ _ _ _ _ hjob hstart hop hdecoders hctx hlen hsize hcount hlist =>
      congrArg (fun r => Host.Outcome.next (unitNamed r))
        (jobDecompress_writes hjob hstart hctx hlen hsize hcount hlist hop hdecoders),
   fun _ _ _ _ _ hjob hstart hop hctx hmay hcount hlist =>
      congrArg Host.Outcome.next (jobExport_begins hjob hstart hctx hmay hcount hlist hop),
   fun _ _ _ _ _ _ hjob hstart hop hctx hlodging hdict hmay hbody hcount hlist => congrArg Host.Outcome.next
      (jobExportDict_writes hjob hstart hctx hmay hcount hlist hop hlodging hdict hbody),
   fun _ _ _ _ _ _ _ hjob hstart hop hsaved hmay hcrc hlen hpieces hcount hlist => congrArg Host.Outcome.next
      (jobResume_goesOn hjob hstart hop hsaved hmay hcrc hlen hpieces hcount hlist),
   fun _ _ _ _ _ _ _ hjob hstart hop hsaved hmay hlen =>
      congrArg Host.Outcome.next (jobResume_areaRefused hjob hstart hop hsaved hmay hlen),
   fun _ _ _ _ hjob hstart hop hidle => congrArg Host.Outcome.next (jobRelease_frees hjob hstart hop hidle),
   fun _ _ _ _ hjob hstart hop hrun => congrArg Host.Outcome.next (jobRelease_running hjob hstart hop hrun),
   fun _ _ _ _ _ _ _ hjob hstream hop hlive hfrom hto hnew harrived hsnoop hslice hengine hwaits hpace hstopped hmay hasked
        hrecord =>
      congrArg (fun r => Host.Outcome.next (unitNamed r)) (exportPage_builds hjob hstream hlive hmay hop hfrom hto hnew
        harrived hsnoop hslice hengine hwaits hpace hstopped hasked hrecord),
   fun _ _ _ _ _ _ _ hjob hstream hbuilt hlive hmay hnone =>
      congrArg Host.Outcome.next ((exportArrive_places hjob hstream hlive hmay hbuilt).trans (if_pos hnone)),
   fun _ _ _ _ _ _ _ hjob hstream hbuilt hlive hmay hsome =>
      congrArg Host.Outcome.next ((exportArrive_places hjob hstream hlive hmay hbuilt).trans (if_neg hsome)),
   fun _ _ _ _ _ _ hjob hended hsaved hstream hstate =>
      congrArg Host.Outcome.next (jobComplete_counts hjob hended hsaved hstream hstate)⟩

end Sys2Proof.Machine
end

section
/-! How secrets reach the dies, how the engines re-key a lodging, and how the keys of IDE streams come and go (07 R180, R181,
R202-R208). -/

namespace Sys2Proof.Machine

/-! ### Key messages (07 R180, R181) -/

section
variable {d : Nat} {err : BitVec 384} {j : KeyJob} {s : State}

/-- Where no restart of Keeper has left a key command to issue, none is issued. -/
theorem keysReissued_of_none_owed (howed : s.world.keyReissue = false) : keysReissued s = s := if_pos (.inl howed)

/-- The end of a command leaves the worlds as they are. -/
theorem world_cmdEnd (row param status detail : Nat) : (cmdEnd row param status detail s).world = s.world :=
  touches_cmdEnd .world (by decide)

/-- A secret that a die takes is placed there, and the sender has counted its message. -/
theorem keyTransport_authentic {v : BitVec 256} (hjob : s.prot.jobs.find? (fun x => x.left.contains d) = some j)
    (hreceived : keyReceived (j.lodging % 4) d j.secret err s = some v) :
    keyTransport d err s = keyPlaced d j v (messageSent (j.lodging % 4) s) := by
  unfold keyTransport
  rw [hjob]
  dsimp only
  rw [hreceived]

/-- A message that does not authenticate is counted by its sender, and that is all. -/
theorem keyTransport_rejected (hjob : s.prot.jobs.find? (fun x => x.left.contains d) = some j)
    (hreceived : keyReceived (j.lodging % 4) d j.secret err s = none) :
    keyTransport d err s = (messageSent (j.lodging % 4) s, none) := by
  unfold keyTransport
  rw [hjob]
  dsimp only
  rw [hreceived]

/-- The last die of an installation takes the secret into the lodging's slot, and the job is over. -/
theorem keyPlaced_last_install {v : BitVec 256} (hleft : j.left.filter (· ≠ d) = []) (hop : j.op = 1) :
    keyPlaced d j v s = (modProt (fun p => { p with
      secrets := smSet p.secrets (4096 * d + j.lodging) v, jobs := p.jobs.erase j }) s, some j) := by
  unfold keyPlaced
  rw [hleft, hop]
  rfl

theorem keyArrives_last_install {v : BitVec 256} (hjob : s.prot.jobs.find? (fun x => x.left.contains d) = some j)
    (hreceived : keyReceived (j.lodging % 4) d j.secret err s = some v) (hleft : j.left.filter (· ≠ d) = []) (hop : j.op = 1)
    (howed : s.world.keyReissue = false) :
    keyArrives d err s = cmdEnd 0 P.KEY_CMD 0 0 (modProt (fun p => { p with
      messages := bump 64 p.messages (j.lodging % 4) 1
      secrets := smSet p.secrets (4096 * d + j.lodging) v
      jobs := p.jobs.erase j }) s) := by
  unfold keyArrives
  rw [keyTransport_authentic hjob hreceived, keyPlaced_last_install hleft hop]
  refine keysReissued_of_none_owed ?_
  rw [world_cmdEnd]
  exact howed

theorem keyArrives_rejected (hjob : s.prot.jobs.find? (fun x => x.left.contains d) = some j)
    (hreceived : keyReceived (j.lodging % 4) d j.secret err s = none) :
    keyArrives d err s = messageSent (j.lodging % 4) s := by
  unfold keyArrives
  rw [keyTransport_rejected hjob hreceived]

end

/-! ### The re-key engines (07 R204, R205) -/

/-- Die `d`'s engine may take page `p` of lodging `n`, which is the next of its die. -/
structure RekeyDue (s : State) (d n p : Nat) (r : Rekey) : Prop where
  run : smFind s.prot.rekeys n = some r
  next : p = homedFrom n d (smGet 0 r.bounds d)
  asked : r.asked = false
  live : lodgeLive s n = true
  engine : rekeyOpen s d n = true
  secret : (smFind s.prot.tslots (4 * d + r.slot)).isSome = true
  noJob : s.prot.jobs.any (fun j => j.op == 3 && j.lodging == n) = false
  inRange : p < lodgeSize s n * 65536

/-- Nothing holds up a page whose descriptor has been read: no move, no snoop, no line in a host, no pace, no stop. -/
structure PageFree (s : State) (d n p : Nat) (r : Rekey) (x : Desc) : Prop where
  unmoved : x.state ≠ .moving
  unasked : smFind r.asking d ≠ some p
  unsnooped : pageSnooped s n p = false
  noLines : linesAsked s n p = []
  pace : paceOpen s d = true
  unstopped : pageStopped s n p = false

section
variable {d n p : Nat} {r : Rekey} {x : Desc} {s s1 : State}

/-- A page that is due and free is re-encrypted in the state its descriptor gives. -/
theorem rekeyVisit_free (hdue : RekeyDue s d n p r) (hread : checkedDesc n p s = some (x, s1))
    (hfree : PageFree s1 d n p r x) : rekeyVisit d n s = rekeyPage n p x s1 := by
  obtain ⟨hrun, rfl, hasked, hlive, hengine, hsecret, hnoJob, hinRange⟩ := hdue
  obtain ⟨hunmoved, hunasked, hunsnooped, hnoLines, hpace, hunstopped⟩ := hfree
  have due : ¬(r.asked = true ∨ lodgeLive s n = false ∨ rekeyOpen s d n = false ∨
      (smFind s.prot.tslots (4 * d + r.slot)).isNone = true ∨
      s.prot.jobs.any (fun j => j.op == 3 && j.lodging == n) = true ∨
      lodgeSize s n * 65536 ≤ homedFrom n d (smGet 0 r.bounds d)) := by
    rw [hasked, hlive, hengine, Option.isNone_eq_false_iff.2 hsecret, hnoJob]
    simpa using hinRange
  have free : ¬(pageSnooped s1 n (homedFrom n d (smGet 0 r.bounds d)) = true ∨ paceOpen s1 d = false ∨
      pageStopped s1 n (homedFrom n d (smGet 0 r.bounds d)) = true) := by
    simp [hunsnooped, hpace, hunstopped]
  unfold rekeyVisit
  rw [hrun]
  dsimp only
  rw [if_neg due, hread]
  dsimp only
  rw [if_neg free, if_neg hunasked, if_neg hunmoved, if_neg (not_not_intro hnoLines)]

/-- A page of zeros has no bytes to re-encrypt: it is passed. -/
theorem rekeyPage_zero (hstate : x.state = .zero) : rekeyPage n p x s = rekeyPassed n (homeDie n p) p x s := by
  unfold rekeyPage
  rw [hstate]

theorem rekeyPage_plain (hstate : x.state = .plain) : rekeyPage n p x s = rekeyFrame n p x s := by
  unfold rekeyPage
  rw [hstate]

/-- While the DRAM is served, an engine's visit of a page that is due and free re-encrypts it. -/
theorem execRekeyVisit_free {d : MemDie} {n : LodgeId} (hnight : s.ps.state ≠ .night) (hoff : s.ps.state ≠ .off)
    (hdue : RekeyDue s d.val n.val p r) (hread : checkedDesc n.val p s = some (x, s1)) (hfree : PageFree s1 d.val n.val p r x) :
    execRekeyVisit d n s = .next (rekeyPage n.val p x s1) :=
  congrArg Host.Outcome.next ((if_neg (by simp [hnight, hoff])).trans (rekeyVisit_free hdue hread hfree))

/-- The keys of lodging `n` once every page is passed: the next secrets are the present ones, and the next epoch begins. -/
def rekeyEnded (n : Nat) (r : Rekey) (s : State) : State :=
  modProt (fun q => { q with
    secrets := (below 4).foldl (fun m d => match smFind q.tslots (4 * d + r.slot) with
      | some t => if t.lodging = n then smSet m (4096 * d + n) t.secret else m
      | none => m) q.secrets
    tslots := smFilter (fun _ t => t.lodging != n) q.tslots
    epoch := smPut 0 q.epoch n (keyEpoch s n + 1)
    rekeys := smErase q.rekeys n }) s

/-- A lodging without dictionaries has nothing left to re-encrypt at the end of its re-key. -/
theorem rekeyFinish_noDicts (hrun : smFind s.prot.rekeys n = some r) (hover : rekeyOver s n r = true)
    (hlive : lodgeLive s n = true) (hdicts : dictsOf s n = []) :
    rekeyFinish n s = cmdEnd 0 (P.REKEY_REQUEST + 256 * n) 0 0 (rekeyEnded n r s) := by
  unfold rekeyFinish
  rw [hrun]
  dsimp only
  rw [if_neg (by simp [hover, hlive]), hdicts]
  rfl

end

/-! ### SPDM requests (07 R207) -/

section
variable {p : Nat} {req : List Byte} {opens : Bool} {s : State}

theorem spdmRequest_answered (hrole : portRole s p = 1) (hkeeper : keeperStatus s = none) :
    spdmRequest p req opens s = emit (.mailbox p 0 (spdmAnswer req s)) (afterDraw (onlyIf opens (spdmOpen p) s)) := by
  unfold spdmRequest
  rw [hrole, hkeeper]
  rfl

/-- On a downstream port the message is an answer to Keeper (log 135). -/
theorem spdmRequest_ofRequester (hrole : portRole s p = 2) (hkeeper : keeperStatus s = none) :
    spdmRequest p req opens s = onlyIf opens (spdmOpen p) s := by
  unfold spdmRequest
  rw [hrole, hkeeper]
  rfl

theorem spdmRequest_busy {st : Nat} (hrole : portRole s p = 1) (hkeeper : keeperStatus s = some st) :
    spdmRequest p req opens s = emit (.mailbox p 2 []) s := by
  unfold spdmRequest
  rw [hrole, hkeeper]
  rfl

theorem spdmOpen_new (hnew : s.world.spdm.contains p = false) :
    spdmOpen p s = modWorld (fun w => { w with spdm := w.spdm ++ [p] }) s := by
  unfold spdmOpen
  rw [if_neg (by rw [hnew]; decide)]

theorem spdmRequest_opens_usp (hrole : portRole s p = 1) (hkeeper : keeperStatus s = none)
    (hnew : s.world.spdm.contains p = false) : spdmRequest p req true s =
      emit (.mailbox p 0 (spdmAnswer req s)) (afterDraw (modWorld (fun w => { w with spdm := w.spdm ++ [p] }) s)) := by
  rw [spdmRequest_answered hrole hkeeper, ← spdmOpen_new hnew]
  rfl

theorem spdmRequest_opens_dsp (hrole : portRole s p = 2) (hkeeper : keeperStatus s = none)
    (hnew : s.world.spdm.contains p = false) :
    spdmRequest p req true s = modWorld (fun w => { w with spdm := w.spdm ++ [p] }) s :=
  (spdmRequest_ofRequester hrole hkeeper).trans (spdmOpen_new hnew)

end

/-! ### The keys of a stream (07 R208) -/

section
variable {p i set slot : Nat} {key : BitVec 256} {s : State}
  (hkeeper : keeperStatus s = none) (hsession : s.world.spdm.contains p = true) (hstream : ideHas s p i = true)
include hkeeper hsession hstream

/-- A key message over an open session of Keeper's, for a stream that the port has and a key that the stream has, is taken. -/
theorem ideKey_taken {op : Nat} (hslot : op = 0 → slot < ideSlots i) : ideKeyMessage.keyStatusFree s = true ∧
    s.world.spdm.contains p = true ∧ ideHas s p i = true ∧ (op = 0 → slot < ideSlots i) :=
  ⟨by rw [ideKeyMessage.keyStatusFree, hkeeper]; rfl, hsession, hstream, hslot⟩

theorem ideKeyMessage_program (hslot : slot < ideSlots i) : ideKeyMessage p i 0 set slot key s =
    modProt (fun x => { x with ide := smMod {} x.ide (16 * p + i) fun e => { e with
      keys := smSet e.keys (16 * set + slot) key, state := if e.state = .secure then .secure else .keyed } }) s :=
  if_pos (ideKey_taken hkeeper hsession hstream fun _ => hslot)

theorem ideKeyMessage_go : ideKeyMessage p i 1 set slot key s =
    modProt (fun x => { x with
      ide := smMod {} x.ide (16 * p + i) fun e =>
        if e.keys.any (fun k => k.1 / 16 == set) then { e with state := .secure, keySet := set } else e }) s :=
  if_pos (ideKey_taken hkeeper hsession hstream (by simp))

/-- A stream that is stopped has no keys left. -/
theorem ideKeyMessage_stop : ideKeyMessage p i 2 set slot key s =
    modProt (fun x => { x with ide := smMod {} x.ide (16 * p + i) fun _ => {} }) s :=
  if_pos (ideKey_taken hkeeper hsession hstream (by simp))

end

/-! ### The obligation -/

/-- Settles O25: each clause is the equation of its handler's case. -/
theorem keysAndStreamsAct : Obligations.KeysAndStreamsAct :=
  ⟨fun _ _ _ _ _ hjob hreceived hleft hop howed =>
      congrArg Host.Outcome.next (keyArrives_last_install hjob hreceived hleft hop howed),
   fun _ _ _ _ hjob hreceived => congrArg Host.Outcome.next (keyArrives_rejected hjob hreceived),
   fun _ _ _ _ _ _ _ hnight hoff hrun hnext hasked hlive hengine hsecret hnoJob hinRange hread hunmoved hunasked hunsnooped
        hnoLines hpace hunstopped hzero =>
      (execRekeyVisit_free hnight hoff ⟨hrun, hnext, hasked, hlive, hengine, hsecret, hnoJob, hinRange⟩ hread
        ⟨hunmoved, hunasked, hunsnooped, hnoLines, hpace, hunstopped⟩).trans
      (congrArg Host.Outcome.next (rekeyPage_zero hzero)),
   fun _ _ _ _ _ _ _ hnight hoff hrun hnext hasked hlive hengine hsecret hnoJob hinRange hread hunmoved hunasked hunsnooped
        hnoLines hpace hunstopped hplain =>
      (execRekeyVisit_free hnight hoff ⟨hrun, hnext, hasked, hlive, hengine, hsecret, hnoJob, hinRange⟩ hread
        ⟨hunmoved, hunasked, hunsnooped, hnoLines, hpace, hunstopped⟩).trans
      (congrArg Host.Outcome.next (rekeyPage_plain hplain)),
   fun _ _ _ hrole hkeeper hnew => congrArg Host.Outcome.next (spdmRequest_opens_usp hrole hkeeper hnew),
   fun _ _ _ hrole hkeeper hnew => congrArg Host.Outcome.next (spdmRequest_opens_dsp hrole hkeeper hnew),
   fun _ _ _ _ _ hrole hkeeper => congrArg Host.Outcome.next (spdmRequest_busy hrole hkeeper),
   fun _ _ _ _ _ _ hkeeper hsession hstream hslot _ =>
      congrArg Host.Outcome.next (ideKeyMessage_program hkeeper hsession hstream hslot),
   fun _ _ _ _ _ _ hkeeper hsession hstream _ =>
      congrArg Host.Outcome.next (ideKeyMessage_go hkeeper hsession hstream),
   fun _ _ _ _ _ _ hkeeper hsession hstream =>
      congrArg Host.Outcome.next (ideKeyMessage_stop hkeeper hsession hstream),
   fun _ _ _ hrun hover hlive hdicts => congrArg Host.Outcome.next (rekeyFinish_noDicts hrun hover hlive hdicts)⟩

end Sys2Proof.Machine
end

section
/-! How links come up and go down, what the resets of a host do, and what becomes of a port that stops answering (07 R209, 08
R220, R234, R235, 09 R242, R250, R258-R262, 19 R440). -/

namespace Sys2Proof.Machine

/-! ### A link that comes up (09 R242, R261) -/

/-- A port's role is read from the parameters alone. -/
theorem portRole_congr {s t : State} (p : Nat) (hdict : t.dict = s.dict) : portRole t p = portRole s p := by
  unfold portRole pnum prow
  rw [hdict]

/-- A port's vote changes the power state alone, which may cut a period of the guest book. -/
theorem touches_portVotesRun {s : State} : Touches [.ps, .gb] s (portVotesRun s) :=
  (touches_wake.after (.ite (touches_psEnter.after touches_modPs) .refl)).within rfl

/-- The state in which the link of port `p` comes up: one that was down raises the port's vote (16 R396). -/
def portAwake (p : Nat) (s : State) : State := if (portAt s p).link = .down then portVotesRun s else s

theorem touches_portAwake {p : Nat} {s : State} : Touches [.ps, .gb] s (portAwake p s) :=
  .within (.ite touches_portVotesRun .refl) rfl

/-- Port `p` may come up at a width and a rate: the lanes and the rate are allowed, and the port serves (09 R242). -/
structure LinkFits (s : State) (p width rate : Nat) : Prop where
  notRetired : lcState s ≠ 4
  isWidth : width ∈ [1, 2, 4, 8, 16]
  lanes : width ≤ portLanes s p
  lowest : 1 ≤ rate
  maxRate : rate ≤ pnum s (P.PORT_MAX_RATE + 256 * p)
  cap : rate ≤ pnum s (P.PS_SERDES_CAP + p / 16)
  hasRole : portRole s p ≠ 0
  released : (portAt s p).perstOut = false
  serves : unitServes s p = true

/-- Port `p` as it stands once its link has trained. -/
def portUpAt (p width rate : Nat) (s : State) : State :=
  modPortAt p (fun y => { y with
    link := .up, width := width, rate := rate, inL1 := false, dpc := false, linkCounts := bump 64 y.linkCounts 0 1 }) s

/-- A vPPB that a downstream port is bound to shows the host a presence change. -/
def linkShown (p : Nat) (s : State) : State :=
  match s.sw.vcs.find? fun e => e.2 == p with
  | some e => if portRole s p = 2 then vppbTell (e.1 / 32) (e.1 % 32) 1 s else s
  | none => s

section
variable {p width rate : Nat} {s : State}

theorem LinkFits.not_refused (h : LinkFits s p width rate) :
    ¬(¬((width = 1 ∨ width = 2 ∨ width = 4 ∨ width = 8 ∨ width = 16) ∧ width ≤ portLanes s p ∧ 1 ≤ rate ∧
        rate ≤ pnum s (P.PORT_MAX_RATE + 256 * p) ∧ rate ≤ pnum s (P.PS_SERDES_CAP + p / 16)) ∨
      portRole s p = 0 ∨ lcState s = 4 ∨ (portAt s p).perstOut = true ∨ unitServes s p = false) := by
  obtain ⟨hretired, hwidth, hlanes, hlowest, hmax, hcap, hrole, hperst, hserves⟩ := h
  simp only [List.mem_cons, List.not_mem_nil, or_false] at hwidth
  simp [hretired, hwidth, hlanes, hlowest, hmax, hcap, hrole, hperst, hserves]

/-- A link that is up takes the width and the rate it retrains to. -/
theorem linkUp_retrains (hfits : LinkFits s p width rate) (hlink : (portAt s p).link = .up) :
    linkUp p width rate s = recomputeD (modPortAt p (fun y => { y with width := width, rate := rate }) s) := by
  unfold linkUp
  dsimp only
  rw [if_neg hfits.not_refused, if_pos hlink]

/-- A link that trains or is down comes up; where no host of the port was gone, no agent dies by it. -/
theorem linkUp_comes (hfits : LinkFits s p width rate) (hlink : (portAt s p).link = .training ∨ (portAt s p).link = .down)
    (habsent : s.coh.absent.contains p = false) (hdying : s.coh.dying.contains p = false) :
    linkUp p width rate s = recomputeD (linkShown p (portUpAt p width rate (portAwake p s))) := by
  have notUp : (portAt s p).link ≠ .up := fun h => by simp [h] at hlink
  have comes : ¬((portAt s p).link ≠ .training ∧ (portAt s p).link ≠ .down) := fun h => hlink.elim h.1 h.2
  have coh : (portAwake p s).coh = s.coh := touches_portAwake .coh (by decide)
  have noneGone : ¬((portAwake p s).coh.absent.contains p = true ∨ (portAwake p s).coh.dying.contains p = true) := by
    rw [coh, habsent, hdying]
    decide
  unfold linkUp
  dsimp only
  rw [if_neg hfits.not_refused, if_neg notUp, if_neg comes]
  exact congrArg (fun t => recomputeD (linkShown p t)) (if_neg noneGone)

/-- An upstream port shows no presence change. -/
theorem linkShown_of_usp (hrole : portRole s p = 1) : linkShown p s = s := by
  unfold linkShown
  split
  · exact if_neg (by simp [hrole])
  · rfl

theorem linkShown_of_bound {b : Nat × Nat} (hrole : portRole s p = 2) (hbound : s.sw.vcs.find? (fun e => e.2 == p) = some b) :
    linkShown p s = vppbTell (b.1 / 32) (b.1 % 32) 1 s := by
  unfold linkShown
  rw [hbound]
  exact if_pos hrole

theorem portRole_portUpAt (t : State) : portRole (portUpAt p width rate t) p = portRole t p := portRole_congr p rfl

theorem portRole_portAwake : portRole (portAwake p s) p = portRole s p :=
  portRole_congr p (touches_portAwake .dict (by decide))

theorem linkUp_usp (hfits : LinkFits s p width rate) (hlink : (portAt s p).link = .training ∨ (portAt s p).link = .down)
    (habsent : s.coh.absent.contains p = false) (hdying : s.coh.dying.contains p = false) (hrole : portRole s p = 1) :
    linkUp p width rate s = recomputeD (portUpAt p width rate (portAwake p s)) := by
  rw [linkUp_comes hfits hlink habsent hdying,
    linkShown_of_usp ((portRole_portUpAt _).trans (portRole_portAwake.trans hrole))]

theorem portAwake_of_training (hlink : (portAt s p).link = .training) : portAwake p s = s := if_neg (by simp [hlink])

theorem portAwake_of_down (hlink : (portAt s p).link = .down) : portAwake p s = portVotesRun s := if_pos hlink

theorem linkUp_usp_trained (hfits : LinkFits s p width rate) (hlink : (portAt s p).link = .training)
    (habsent : s.coh.absent.contains p = false) (hdying : s.coh.dying.contains p = false) (hrole : portRole s p = 1) :
    linkUp p width rate s = recomputeD (portUpAt p width rate s) := by
  rw [linkUp_usp hfits (.inl hlink) habsent hdying hrole, portAwake_of_training hlink]

theorem linkUp_usp_down (hfits : LinkFits s p width rate) (hlink : (portAt s p).link = .down)
    (habsent : s.coh.absent.contains p = false) (hdying : s.coh.dying.contains p = false) (hrole : portRole s p = 1) :
    linkUp p width rate s = recomputeD (portUpAt p width rate (portVotesRun s)) := by
  rw [linkUp_usp hfits (.inr hlink) habsent hdying hrole, portAwake_of_down hlink]

theorem linkUp_dsp_trained {b : Nat × Nat} (hfits : LinkFits s p width rate) (hlink : (portAt s p).link = .training)
    (habsent : s.coh.absent.contains p = false) (hdying : s.coh.dying.contains p = false) (hrole : portRole s p = 2)
    (hbound : s.sw.vcs.find? (fun e => e.2 == p) = some b) :
    linkUp p width rate s = recomputeD (vppbTell (b.1 / 32) (b.1 % 32) 1 (portUpAt p width rate s)) := by
  rw [linkUp_comes hfits (.inl hlink) habsent hdying, portAwake_of_training hlink]
  exact congrArg recomputeD (linkShown_of_bound ((portRole_portUpAt s).trans hrole) hbound)

end

/-! ### A link that goes down (09 R258, R260) -/

section
variable {p : Nat} {s : State}

/-- A link that was training carried no traffic. -/
theorem portGoesDown_training (hlink : (portAt s p).link = .training) :
    portGoesDown p s = modPortAt p (fun x => { x with link := .down }) s := if_pos hlink

/-- A host's traffic ends, and its absence timeout runs (08 R234). -/
theorem portGoesDown_usp (hlink : (portAt s p).link = .up) (hrole : portRole s p = 1) :
    portGoesDown p s = recomputeD (queuesDown p (portAbsent p (flushEgress p (modSw (fun w => { w with
      routed := w.routed.filter fun q => !(q.1 == p || q.2.1 == p) }) (linkGone p s))))) := by
  unfold portGoesDown
  dsimp only
  rw [if_neg (by simp [hlink]), if_neg (not_not_intro hlink), if_pos hrole]

/-- A downstream port's traffic ends, and the unbinds that waited for its link take effect (09 R250). -/
theorem portGoesDown_dsp (hlink : (portAt s p).link = .up) (hrole : portRole s p = 2) :
    portGoesDown p s = recomputeD (armedTake p (dspTrafficEnds p (linkGone p s))) := by
  unfold portGoesDown
  dsimp only
  rw [if_neg (by simp [hlink]), if_neg (not_not_intro hlink), if_neg (by simp [hrole])]

/-! ### Resets by a host, and slot power (09 R250, R262, 19 R440) -/

theorem hostReset_usp (hrole : portRole s p = 1) : hostReset p s =
    let s1 := viewReset p (modPortAt p (fun x => { x with hdmA := [], hdmB := [] }) (portGoesDown p s))
    forAll ((s1.sw.vcs.filter fun e => decide (e.1 / 32 = p ∧ e.2 < 64)).map Prod.snd) portGoesDown s1 :=
  if_neg (not_not_intro hrole)

theorem busReset_port {b : Nat} (hport : vppb s p b < 64) : busReset p b s = portGoesDown (vppb s p b) s := if_pos hport

theorem busReset_ime {b : Nat} (hime : vppb s p b = 0x40) : busReset p b s = viewReset p s := by
  unfold busReset
  dsimp only
  rw [if_neg (by simp [hime]), if_pos hime]

theorem execFlr_usp {p : PortId} (hrole : portRole s p.val = 1) : execFlr p s = .next (viewReset p.val s) :=
  congrArg Host.Outcome.next (if_pos hrole)

theorem slotPower_managed {b t : Nat} (harmed : smFind s.sw.armed (32 * p + b) = some (3, t)) :
    slotPower p b s = unbindNow p b s := by
  unfold slotPower
  rw [harmed]
  rfl

/-! ### Ports that stop answering (07 R209, 08 R220, R235) -/

theorem biTimeout_live {x : Tx} (hopen : s.coh.txs.find? (fun t => t.left.contains p) = some x) (hup : portUp s p = true) :
    biTimeout p s = portGoesDown p (logEvent 8 p 1 none 0 (bumpCoh (x.slice / 16) 3 1 s)) := by
  unfold biTimeout
  rw [hopen]
  exact if_pos hup

theorem ideFail_live {i : Nat} (hup : portUp s p = true) : ideFail p i s =
    portGoesDown p (modPortAt p (fun x => { x with linkCounts := bump 64 x.linkCounts 5 1 }) (ideInsecure p i s)) :=
  if_neg (by simp [hup])

theorem absenceEnd_absent (habsent : s.coh.absent.contains p = true) :
    absenceEnd p s = modCoh (fun c => { c with absent := c.absent.filter (· ≠ p), dying := c.dying ++ [p] }) s :=
  if_pos habsent

theorem scanDone_dying (hdying : s.coh.dying.contains p = true) : scanDone p s = deadAgent p false s := if_pos hdying

end

/-! ### The obligation -/

/-- Settles O26: each clause is the equation of its handler's case. -/
theorem portEventsAct : Obligations.PortEventsAct :=
  ⟨fun _ _ _ _ hretired hwidth hlanes hlowest hmax hcap hrole hperst hserves hlink => congrArg Host.Outcome.next
      (linkUp_retrains ⟨hretired, hwidth, hlanes, hlowest, hmax, hcap, hrole, hperst, hserves⟩ hlink),
   fun _ _ _ _ hretired hwidth hlanes hlowest hmax hcap hrole hperst hserves hlink habsent hdying husp =>
      congrArg Host.Outcome.next (linkUp_usp_trained
        ⟨hretired, hwidth, hlanes, hlowest, hmax, hcap, hrole, hperst, hserves⟩ hlink habsent hdying husp),
   fun _ _ _ _ hretired hwidth hlanes hlowest hmax hcap hrole hperst hserves hlink habsent hdying husp =>
      congrArg Host.Outcome.next (linkUp_usp_down
        ⟨hretired, hwidth, hlanes, hlowest, hmax, hcap, hrole, hperst, hserves⟩ hlink habsent hdying husp),
   fun _ _ _ _ _ hretired hwidth hlanes hlowest hmax hcap hrole hperst hserves hlink habsent hdying hdsp hbound =>
      congrArg Host.Outcome.next (linkUp_dsp_trained
        ⟨hretired, hwidth, hlanes, hlowest, hmax, hcap, hrole, hperst, hserves⟩ hlink habsent hdying hdsp hbound),
   fun _ _ hlink husp => congrArg Host.Outcome.next (portGoesDown_usp hlink husp),
   fun _ _ hlink hdsp => congrArg Host.Outcome.next (portGoesDown_dsp hlink hdsp),
   fun _ _ hlink => congrArg Host.Outcome.next (portGoesDown_training hlink),
   fun _ _ husp => congrArg Host.Outcome.next (hostReset_usp husp),
   fun _ _ husp => congrArg Host.Outcome.next (hostReset_usp husp),
   fun _ _ _ hport => congrArg Host.Outcome.next (busReset_port hport),
   fun _ _ _ hime => congrArg Host.Outcome.next (busReset_ime hime),
   fun _ _ husp => execFlr_usp husp,
   fun _ _ _ _ harmed => congrArg Host.Outcome.next (slotPower_managed harmed),
   fun _ _ _ hopen hup => congrArg Host.Outcome.next (biTimeout_live hopen hup),
   fun _ _ _ hup => congrArg Host.Outcome.next (ideFail_live hup),
   fun _ _ habsent => congrArg Host.Outcome.next (absenceEnd_absent habsent),
   fun _ _ hdying => congrArg Host.Outcome.next (scanDone_dying hdying)⟩

end Sys2Proof.Machine
end

section
/-! Writes of members that are neither staged nor commands, and the lane assignment of a group of ports (02 R35, R49, 09 R241). -/

namespace Sys2Proof.Machine

/-! ### The values of members -/

/-- The value of a member is read from the committed values alone. -/
theorem prow_congr {s t : State} (row n : Nat) (hparams : t.dict.params = s.dict.params) : prow t row n = prow s row n := by
  unfold prow
  rw [hparams]

theorem prow_modSession (o : Origin) (f : Session → Session) (row n : Nat) (s : State) :
    prow (modSession o f s) row n = prow s row n := prow_congr row n rfl

theorem smFind_erase_same {α : Type} (m : SMap α) (k : Nat) : smFind (smErase m k) k = none := by
  induction m with
  | nil => rfl
  | cons e m ih => by_cases h : e.1 = k <;> simp [smErase, smFind, h, ih]

/-- What a member reads as long as nothing is committed for it (02 R35). -/
def dfltOf (n : Nat) : Nat := ((paramSpec n).map PSpec.dflt).getD 0

theorem prow_eq_getD (s : State) (row n : Nat) : prow s row n = (smFind s.dict.params (pkey row n)).getD (dfltOf n) := by
  unfold prow dfltOf
  cases smFind s.dict.params (pkey row n) <;> cases paramSpec n <;> rfl

theorem putValue_eq_ite (row n v : Nat) (m : SMap Nat) :
    putValue row n v m = if v = dfltOf n then smErase m (pkey row n) else smSet m (pkey row n) v := by
  unfold putValue dfltOf
  cases paramSpec n <;> rfl

theorem putParam_params (row n v : Nat) (s : State) :
    (putParam row n v s).dict.params = putValue row n v s.dict.params := rfl

/-- A member reads the value it took, also where that is its default. -/
theorem prow_putParam (row n v : Nat) (s : State) : prow (putParam row n v s) row n = v := by
  rw [prow_eq_getD, putParam_params, putValue_eq_ite]
  by_cases hdflt : v = dfltOf n
  · rw [if_pos hdflt, smFind_erase_same]
    exact hdflt.symm
  · rw [if_neg hdflt, smFind_set_same]
    rfl

/-- A value that is committed is read, whether or not it is owed to the flash. -/
theorem prow_commitValue (p : PSpec) (row n v : Nat) (s : State) : prow (commitValue p row n v s).1 row n = v := by
  unfold commitValue
  dsimp only
  split <;> exact prow_putParam row n v s

/-! ### An access as it is judged -/

/-- The number of an access and the wake it causes leave the committed values. -/
theorem judged_params (r : Req) (s : State) : (judged r s).dict.params = s.dict.params := by
  have wakes : Touches [.ps] (numbered s) (judged r s) := .onlyIf touches_wake
  have dict : (judged r s).dict = (numbered s).dict := wakes .dict (by decide)
  rw [dict]
  rfl

theorem portRole_judged (r : Req) (s : State) (p : Nat) : portRole (judged r s) p = portRole s p :=
  prow_congr 0 _ (judged_params r s)

/-- A write of a member outside the table windows that checks 1 to 7 do not refuse goes on to the checks of its own kind. -/
theorem accessAns_write {r : Req} {s : State} {g : GSpec} {p : PSpec} (h : admits17 r s = true) (hop : r.op = 1)
    (hg : groupSpec (r.param / 256) = some g) (hp : paramSpec r.param = some p) (hrows : g.rows = 0) :
    accessAns r s = doWrite r g p 0 (s.dict.seq + 1) (judged r s) := by
  obtain ⟨g', p', -, -, hg', hp', hseq, hrights, hvalue, hholder⟩ := admits17_parts h
  obtain rfl : g = g' := Option.some.inj (hg.symm.trans hg')
  obtain rfl : p = p' := Option.some.inj (hp.symm.trans hp')
  have notSelect : isSelect g r = false := by simp [isSelect, hrows]
  have onlyRow (t : State) : rowFor t r.origin r.param g = some 0 := if_pos hrows
  rw [accessAns_performed hg hp hseq hrights hvalue]
  unfold performAccess
  dsimp only
  rw [hholder]
  dsimp only
  rw [if_neg (by simp [notSelect]), if_neg (by simp [hop]), onlyRow]
  rfl

/-- A member that is neither staged nor a command is written directly. -/
theorem doWrite_direct {r : Req} {g : GSpec} {p : PSpec} {row seq : Nat} {s : State} (hty : p.ty ≠ .cmd)
    (hstaged : p.staged = false) : doWrite r g p row seq s = writeDirect r p row seq s := by
  unfold doWrite isCommit
  rw [if_neg (by simp [hty]), if_neg hty, if_neg (by simp [hstaged])]

/-- A direct write that its owner's rules refuse for another reason than admission does nothing else. -/
theorem writeDirect_refused {r : Req} {p : PSpec} {row seq st : Nat} {s : State}
    (h : writeRefused s row r.param (leNat r.value) = some st) (hst : st ≠ 0x0A) :
    writeDirect r p row seq s = refuse r st seq s := by
  have notAdmission : (st == 0x0A) = false := by simpa using hst
  unfold writeDirect admissionFailed
  dsimp only
  rw [h]
  dsimp only
  rw [notAdmission]
  rfl

/-- A direct write that its owner's rules allow stands, then brings about what its member says. -/
theorem writeDirect_written {r : Req} {p : PSpec} {row seq : Nat} {s : State}
    (h : writeRefused s row r.param (leNat r.value) = none) :
    let q := commitValue p row r.param (leNat r.value) (beforeWrite r.param (leNat r.value) s)
    writeDirect r p row seq s = acceptWrite r seq q.2 (afterWrite row r.param (prow s row r.param) (leNat r.value) q.1) := by
  unfold writeDirect
  dsimp only
  rw [h]

/-! ### The lanes of a group of ports -/

section
variable {G : Nat}

theorem groupSpec_switch : groupSpec 0x4100 = some ⟨0x4100, 1, 0, false, 0, false, members4100⟩ := rfl

theorem bifurcation_group (hG : G < 16) : (P.SW_BIFURCATION + G) / 256 = 0x4100 := by unfold P.SW_BIFURCATION; omega

theorem bifurcation_member (hG : G < 16) : (P.SW_BIFURCATION + G) % 256 = 0x10 + G := by unfold P.SW_BIFURCATION; omega

/-- `SW_BIFURCATION` of every group of ports is one row of the member table (09 R265). -/
theorem paramSpec_bifurcation (hG : G < 16) :
    paramSpec (P.SW_BIFURCATION + G) = some ⟨0x10, 16, .enum, .rw, 1, 3, .codes [0, 1, 2, 3], false, .flash⟩ := by
  unfold paramSpec
  rw [bifurcation_group hG, bifurcation_member hG, groupSpec_switch, Option.bind_some, memberSpec, if_neg (by omega)]
  unfold members4100
  rw [List.find?_cons_of_neg (by simp only [Bool.and_eq_true, decide_eq_true_eq]; omega),
    List.find?_cons_of_pos (by simp only [Bool.and_eq_true, decide_eq_true_eq]; omega)]

/-- The lanes of a group are moved only while none of its four controllers has a role (09 R241). -/
theorem writeRefused_bifurcation (hG : G < 16) (row v : Nat) (s : State) :
    writeRefused s row (P.SW_BIFURCATION + G) v =
      if (below 4).any fun i => portRole s (4 * G + i) != 0 then some 0x03 else none := by
  have noLodging : lodgeOfGroup (P.SW_BIFURCATION + G) = none := by
    unfold lodgeOfGroup
    rw [bifurcation_group hG]
    rfl
  have notClosed : groupClosed s (P.SW_BIFURCATION + G) = false := by rw [groupClosed, noLodging]
  unfold writeRefused
  dsimp only
  rw [notClosed, if_neg (by decide), if_neg (by unfold P.SW_BIFURCATION P.FM_PORT; omega), noLodging]
  dsimp only
  rw [if_pos (by simp [hG]), Nat.add_sub_cancel_left]

/-- Moving the lanes brings about nothing else: no port is there to feel it. -/
theorem afterWrite_bifurcation (hG : G < 16) (old v : Nat) (s : State) :
    afterWrite 0 (P.SW_BIFURCATION + G) old v s = s := by
  unfold afterWrite
  simp only [Bool.and_eq_true, decide_eq_true_eq]
  rw [if_neg (by decide)]
  iterate 8
    rw [if_neg (by
      simp only [P.SW_BIFURCATION, P.PS_SHELF_VOTE, P.PS_VCORE, P.PS_PACE, P.PS_DDR_RATE, P.PS_SERDES_CAP, P.TIER_LABEL,
        P.ALLOW_OVERCOMMIT, P.DBG_STEWARD_NONINV, P.SEAL_PORT_LOCK, P.SEAL_REQUIRE_IDE]
      omega)]

/-- A write of `SW_BIFURCATION` that checks 1 to 7 do not refuse is written directly. -/
theorem accessAns_bifurcation {r : Req} {s : State} (hG : G < 16) (hop : r.op = 1) (hparam : r.param = P.SW_BIFURCATION + G)
    (h : admits17 r s = true) : accessAns r s =
      writeDirect r ⟨0x10, 16, .enum, .rw, 1, 3, .codes [0, 1, 2, 3], false, .flash⟩ 0 (s.dict.seq + 1) (judged r s) := by
  have group : groupSpec (r.param / 256) = some ⟨0x4100, 1, 0, false, 0, false, members4100⟩ := by
    rw [hparam, bifurcation_group hG, groupSpec_switch]
  rw [accessAns_write h hop group (hparam ▸ paramSpec_bifurcation hG) rfl]
  exact doWrite_direct (by decide) rfl

end

/-- Settles O51: the write is direct, its owner's rule asks the four roles, and where it runs the member reads the new code. -/
theorem bifurcationNeedsUnusedPorts : Obligations.BifurcationNeedsUnusedPorts := by
  intro G r s hop hparam h
  have rule := writeRefused_bifurcation G.isLt 0 (leNat r.value) (judged r s)
  rw [← hparam] at rule
  rw [accessAns_bifurcation G.isLt hop hparam h]
  refine ⟨fun ⟨i, hrole⟩ => ?_, fun hnone => ?_⟩
  · refine writeDirect_refused (rule.trans (if_pos ?_)) (by decide)
    exact List.any_eq_true.2 ⟨i.val, List.mem_range.2 i.isLt, by simpa [portRole_judged] using hrole⟩
  · have runs : writeRefused (judged r s) 0 r.param (leNat r.value) = none := by
      refine rule.trans (if_neg ?_)
      rw [List.any_eq_true]
      rintro ⟨i, hi, hrole⟩
      exact absurd (hnone ⟨i, List.mem_range.1 hi⟩) (by simpa [portRole_judged] using hrole)
    rw [writeDirect_written runs]
    refine ⟨rfl, (prow_modSession _ _ 0 _ _).trans ?_⟩
    rw [hparam, afterWrite_bifurcation G.isLt]
    exact prow_commitValue _ 0 _ _ _

end Sys2Proof.Machine
end

section
/-! Transfers between the ports of a virtual switch, their egress, and the decoders of a host bridge (09 R244, R246, R251,
R254-R256, 10 R279, R280). -/

namespace Sys2Proof.Machine

/-! ### Admission and sending -/

section
variable {p c : Nat} {x : Xmit} {s : State}

theorem egressAdmit_next {res : Bool} (h : nextAdmitted s p c = some (x, res)) : egressAdmit p c s =
    storeXmit { x with reserved := res } (modSw (fun w => { w with waiting := w.waiting.erase x }) s) := by
  unfold egressAdmit
  rw [h]

/-- The queue of class `c` of port `p` has `x` first, on a link that is up and free: a message of one target that no sampling
follows and whose path check is right (10 R279). -/
structure SendsPlain (s : State) (p c : Nat) (x : Xmit) : Prop where
  first : (storedOf s (p / 16)).find? (fun y => y.inQueue p c) = some x
  up : (portAt s p).link = .up
  runs : rawRate s p ≠ 0
  free : (portAt s p).busyTo ≤ dieTime s (p / 16)
  unsampled : x.lat = none
  sound : x.spoiled = false
  single : x.msg.fanCount = none

/-- The length of a transfer as the shaper counts it, in 10^-4 bytes (10 R280). -/
def lengthSent (s : State) (x : Xmit) : Nat := shapedLength (pnum s P.SHAPE_OVERHEAD) x.bytes * 10000

/-- When a transfer that port `p` starts now ends. -/
def sentBy (s : State) (p : Nat) (x : Xmit) : Nat :=
  dieTime s (p / 16) + (lengthSent s x + rawRate s p - 1) / rawRate s p

/-- Such a transfer goes out: the link is busy to its end, its credit is drawn, and it leaves its queue. -/
theorem egressSend_plain (h : SendsPlain s p c x) (hcredit : shapeRate s p c ≠ 0 → 0 ≤ creditNow s p c true) :
    egressSend p c s = emit (.port p c x.msg)
      (modSw (fun w => { w with stored := smMod [] w.stored (p / 16) (unstore p c) })
        (modPortAt p (fun y => { y with
          busyTo := sentBy s p x
          credit := if shapeRate s p c = 0 then y.credit else smPut 0 y.credit c
            (creditNow s p c true + ((lengthSent s x * shapeRate s p c / rawRate s p : Nat) : Int) - (lengthSent s x : Int))
          creditAt := if shapeRate s p c = 0 then y.creditAt else smPut 0 y.creditAt c (sentBy s p x) }) s)) := by
  obtain ⟨first, up, runs, free, unsampled, sound, single⟩ := h
  have sends : ¬((portAt s p).link ≠ .up ∨ rawRate s p = 0 ∨ dieTime s (p / 16) < (portAt s p).busyTo ∨
      (shapeRate s p c ≠ 0 ∧ creditNow s p c true < 0)) := by
    rintro (hlink | hrate | hbusy | ⟨hshaped, hneg⟩)
    · exact hlink up
    · exact runs hrate
    · exact Nat.not_lt.2 free hbusy
    · exact Int.not_lt.2 (hcredit hshaped) hneg
  unfold egressSend
  dsimp only
  rw [first]
  dsimp only
  rw [if_neg sends, unsampled, single, sound]
  rfl

theorem egressSend_unshaped (h : SendsPlain s p c x) (hrate : shapeRate s p c = 0) :
    egressSend p c s = emit (.port p c x.msg)
      (modSw (fun w => { w with stored := smMod [] w.stored (p / 16) (unstore p c) })
        (modPortAt p (fun y => { y with busyTo := sentBy s p x }) s)) := by
  simp only [egressSend_plain h fun shaped => absurd hrate shaped, if_pos hrate]

theorem egressSend_shaped (h : SendsPlain s p c x) (hrate : shapeRate s p c ≠ 0) (hcredit : 0 ≤ creditNow s p c true) :
    egressSend p c s = emit (.port p c x.msg)
      (modSw (fun w => { w with stored := smMod [] w.stored (p / 16) (unstore p c) })
        (modPortAt p (fun y => { y with
          busyTo := sentBy s p x
          credit := smPut 0 y.credit c
            (creditNow s p c true + ((lengthSent s x * shapeRate s p c / rawRate s p : Nat) : Int) - (lengthSent s x : Int))
          creditAt := smPut 0 y.creditAt c (sentBy s p x) }) s)) := by
  simp only [egressSend_plain h fun _ => hcredit, if_neg hrate]

end

/-! ### Routing within a virtual switch -/

section
variable {src dst kind tag acs v : Nat} {bytes : List Byte} {s : State}

/-- A message from port `src` to port `dst`, as its class counts it (09 Table 9.7). -/
def routedXmit (cls src dst tag : Nat) (bytes : List Byte) : Xmit :=
  ⟨cls, (Msg.routed cls src tag bytes).size, [dst], some src, .routed cls src tag bytes, none, false, false⟩

/-- Two ports of one virtual switch, the second with its link up. -/
structure PortsBound (s : State) (src dst v : Nat) : Prop where
  source : vcsOf s src = some v
  target : vcsOf s dst = some v
  up : portUp s dst = true

/-- A CXL.mem message passes between ports of unlike roles: a request is noted until its response passes (09 R244). -/
theorem routeMem_passes (h : PortsBound s src dst v) (hroles : portRole s src ≠ portRole s dst) :
    routeMem src dst kind tag bytes s = egressOffer (routedXmit (memClass kind) src dst tag bytes)
      (if kind < 2 then modSw (fun w => { w with routed := w.routed ++ [(src, dst, kind, tag)] }) s
      else modSw (fun w => { w with routed := w.routed.filter fun q =>
        !(q.1 == dst && q.2.1 == src && decide (q.2.2.1 < 2) && q.2.2.2 == tag) }) s) := by
  obtain ⟨source, target, up⟩ := h
  unfold routeMem
  rw [if_neg (by simp [source, target, hroles]), if_neg (by simp [up])]
  rfl

/-- A CXL.io transfer to or from the upstream port passes, whatever the ACS controls say of peers (09 R251). -/
theorem routeIo_passes (h : PortsBound s src dst v) (husp : portRole s src = 1 ∨ portRole s dst = 1) :
    routeIo src dst kind tag bytes acs s = egressOffer (routedXmit kind src dst tag bytes)
      (if kind = 1 then modSw (fun w => { w with routed := w.routed ++ [(src, dst, 10, tag)] }) s
      else if kind = 2 then modSw (fun w => { w with routed := w.routed.filter fun q =>
        !(q.1 == dst && q.2.1 == src && q.2.2.1 == 10 && q.2.2.2 == tag) }) s
      else s) := by
  obtain ⟨source, target, up⟩ := h
  have notPeers : ¬(portRole s src = 2 ∧ portRole s dst = 2) := by omega
  have direct : (if (portRole s src = 2 ∧ portRole s dst = 2) ∧ acs = 1 then v else dst) = dst :=
    if_neg fun h => notPeers h.1
  unfold routeIo
  rw [source]
  dsimp only
  rw [direct, if_neg (by simp [target, up, notPeers])]
  rfl

end

/-! ### Copies and decoders -/

/-- A multicast write from a port of the virtual switch is stored for the group's other ports in it (09 R256). -/
theorem execMulticastWrite_ofSwitch {v src : PortId} {targets : BitVec 64} {group : Fin 64} {bytes : List Byte} {s : State}
    (h : vcsOf s src.val = some v.val) : execMulticastWrite v src targets group bytes s =
      .next (fanOut 0 (Msg.multicast group.val bytes).size
        ((bitsSet 64 targets.toNat).filter fun p => p != src.val && vcsOf s p == some v.val)
        (some src.val) (.multicast group.val bytes) s) :=
  congrArg Host.Outcome.next (if_pos h)

/-- A decoder of an upstream port within the common limits is taken by both copies (09 R246). -/
theorem hdmCommit_taken {p k base size skip ways gran : Nat} {targets : List Nat} {s : State} (hrole : portRole s p = 1)
    (hup : portUp s p = true) (hways : ways ≤ if k < 8 then 3 else 4) (hgran : gran ≤ 6) :
    let h : Hdm := ⟨base, size, 2 ^ ways, 2 ^ (8 + gran), targets, skip⟩
    hdmCommit p k base size skip ways gran targets s =
      modPortAt p (fun x => { x with hdmA := smSet x.hdmA k h, hdmB := smSet x.hdmB k h }) s := by
  refine if_neg ?_
  rintro (hother | hdown | htooMany | htooCoarse)
  · exact hother hrole
  · exact absurd (hup.symm.trans hdown) (by decide)
  · exact Nat.not_lt.2 hways htooMany
  · exact Nat.not_lt.2 hgran htooCoarse

/-- Settles O29: each clause is the equation of its handler's case. -/
theorem transfersAct : Obligations.TransfersAct :=
  ⟨fun _ _ _ _ _ hnext => congrArg Host.Outcome.next (egressAdmit_next hnext),
   fun _ _ _ _ first up runs free hrate unsampled sound single => congrArg Host.Outcome.next
      (egressSend_unshaped ⟨first, up, runs, free, unsampled, sound, single⟩ hrate),
   fun _ _ _ _ first up runs free hrate hcredit unsampled sound single => congrArg Host.Outcome.next
      (egressSend_shaped ⟨first, up, runs, free, unsampled, sound, single⟩ hrate hcredit),
   fun _ _ _ _ _ _ hswitch => execMulticastWrite_ofSwitch hswitch,
   fun _ _ _ _ _ _ _ source target hroles up hkind => congrArg Host.Outcome.next
      ((routeMem_passes ⟨source, target, up⟩ hroles).trans (congrArg _ (if_pos hkind))),
   fun _ _ _ _ _ _ _ source target hroles up hkind => congrArg Host.Outcome.next
      ((routeMem_passes ⟨source, target, up⟩ hroles).trans (congrArg _ (if_neg (Nat.not_lt.2 hkind)))),
   fun _ _ _ _ _ _ _ source target husp up => congrArg Host.Outcome.next (routeIo_passes ⟨source, target, up⟩ husp),
   fun _ _ _ _ _ _ _ source target husp up => congrArg Host.Outcome.next (routeIo_passes ⟨source, target, up⟩ husp),
   fun _ _ _ _ _ _ _ _ _ hrole hup hways hgran => congrArg Host.Outcome.next (hdmCommit_taken hrole hup hways hgran)⟩

end Sys2Proof.Machine
end

section
/-! Latency samples on their way to a memory die, priority mirrors, and notices that were held back (10 R271-R273, R282,
14 R373). -/

namespace Sys2Proof.Machine

/-! ### Samples and priorities -/

section
variable {l m via : Nat} {s : State}

/-- The link die no longer holds the samples it packed for memory die `m`. -/
def samplesTaken (l m : Nat) (s : State) : State :=
  modReg (fun r => { r with samples := smErase r.samples (4 * l + m) }) s

/-- The route has no link, or the MGMT header pair of its first link has no credit left (10 R271). -/
def FlushBlocked (s : State) (via : Nat) : Prop :=
  48 ≤ via ∨ available (ClDir.of (linkAt s (via / 2)) (via % 2 == 1)) 10 = 0

/-- With a credit on the first link of its route the packed transfer leaves. -/
theorem sampleFlush_sent (hpacked : smGet [] s.reg.samples (4 * l + m) ≠ []) (hroute : routeVia s l (4 + m) = via)
    (hfree : ¬FlushBlocked s via) : sampleFlush l m s =
      creditOut via 10 (modReg (fun r => { r with
        flights := smMod [] r.flights m (· ++ [(via, smGet [] s.reg.samples (4 * l + m))]) }) (samplesTaken l m s)) := by
  subst hroute
  exact (if_neg hpacked).trans (if_neg hfree)

/-- Without one its samples are dropped and counted. -/
theorem sampleFlush_dropped (hpacked : smGet [] s.reg.samples (4 * l + m) ≠ []) (hroute : routeVia s l (4 + m) = via)
    (hblocked : FlushBlocked s via) :
    sampleFlush l m s = bumpReg 1 (smGet [] s.reg.samples (4 * l + m)).length (samplesTaken l m s) := by
  subst hroute
  exact (if_neg hpacked).trans (if_pos hblocked)

theorem flightApply_oldest {q : Nat × List Sample} {rest : List (Nat × List Sample)}
    (hflights : smGet [] s.reg.flights m = q :: rest) : flightApply m s =
      forAll q.2 sampleApply (creditBack q.1 10 (modReg (fun r => { r with flights := smPut [] r.flights m rest }) s)) := by
  unfold flightApply
  rw [hflights]

theorem mirrorUpdate_found {die : Nat} {x : Nat × Nat × Nat}
    (hfirst : s.reg.mirrorMsgs.find? (fun y => y.1 == die) = some x) : mirrorUpdate die s =
      modReg (fun r => { r with
        mirror := smSet r.mirror (die * 65536 + x.2.1) x.2.2, mirrorMsgs := r.mirrorMsgs.erase x }) s := by
  unfold mirrorUpdate
  rw [hfirst]

end

/-! ### Held notices -/

section
variable {kind : Nat} {s : State}

theorem scaleHoldEnd_due (hholding : s.reg.holding = true) (hdue : scaleDue s.reg.scale s.reg.notified = true) :
    scaleHoldEnd s = scaleNotice (modReg (fun r => { r with holding := false }) s) :=
  if_pos ⟨hholding, hdue⟩

/-- Records written during the hold are told in one alert, and the hold starts again (14 R373). -/
theorem alertHoldEnd_tells (hheld : (smGet ({} : AlertHold) s.unit.holds kind).held = true)
    (hsince : (smGet ({} : AlertHold) s.unit.holds kind).since ≠ 0) : alertHoldEnd kind s =
      raiseAlert 1 kind (smGet ({} : AlertHold) s.unit.holds kind).since (smGet ({} : AlertHold) s.unit.holds kind).seq 0
        (modUnit (fun u => { u with
          holds := smPut ({} : AlertHold) u.holds kind
            { held := true, since := 0, seq := (smGet ({} : AlertHold) s.unit.holds kind).seq } }) s) :=
  (if_neg (by simp [hheld])).trans (if_neg hsince)

/-- A hold in which nothing was written ends. -/
theorem alertHoldEnd_ends (hheld : (smGet ({} : AlertHold) s.unit.holds kind).held = true)
    (hsince : (smGet ({} : AlertHold) s.unit.holds kind).since = 0) :
    alertHoldEnd kind s = modUnit (fun u => { u with holds := smErase u.holds kind }) s :=
  (if_neg (by simp [hheld])).trans (if_pos hsince)

end

/-! ### The obligation -/

/-- Settles O30: each clause is the equation of its handler's case; the miss window has one case. -/
theorem regulationAct : Obligations.RegulationAct :=
  ⟨fun _ _ _ _ hpacked hroute hlink hcredit => congrArg Host.Outcome.next
      (sampleFlush_sent hpacked hroute (not_or.2 ⟨Nat.not_le.2 hlink, hcredit⟩)),
   fun _ _ _ _ hpacked hroute hblocked => congrArg Host.Outcome.next (sampleFlush_dropped hpacked hroute hblocked),
   fun _ _ _ _ hflights => congrArg Host.Outcome.next (flightApply_oldest hflights),
   fun _ _ _ hfirst => congrArg Host.Outcome.next (mirrorUpdate_found hfirst),
   fun _ _ => rfl,
   fun _ hholding hdue => congrArg Host.Outcome.next (scaleHoldEnd_due hholding hdue),
   fun _ _ hheld hsince => congrArg Host.Outcome.next (alertHoldEnd_tells hheld hsince),
   fun _ _ hheld hsince => congrArg Host.Outcome.next (alertHoldEnd_ends hheld hsince)⟩

end Sys2Proof.Machine
end

section
/-! The contents of the DIMMs and where a line lies: a stored line reads back, and frames, channel lines and DRAM addresses
correspond one to one (11 R292, R293, R302, R305). -/

namespace Sys2Proof.Machine

/-! ### Numbers as bytes -/

theorem length_leBytes (n v : Nat) : (leBytes n v).length = n := by
  induction n generalizing v with
  | zero => rfl
  | succ n ih => simp [leBytes, ih]

theorem leNat_leBytes {n v : Nat} (hv : v < 2 ^ (8 * n)) : leNat (leBytes n v) = v := by
  induction n generalizing v with
  | zero => exact (Nat.lt_one_iff.1 hv).symm
  | succ n ih =>
    have hrest : v / 256 < 2 ^ (8 * n) := Nat.div_lt_of_lt_mul (by rwa [Nat.mul_succ, Nat.pow_add, Nat.mul_comm] at hv)
    rw [leBytes, leNat, ih hrest, BitVec.toNat_ofNat]
    exact Nat.mod_add_div v 256

/-- The bytes of a word spell it. -/
theorem leNat_leBytes_toNat {n w : Nat} (hw : w = 8 * n) (v : BitVec w) : leNat (leBytes n v.toNat) = v.toNat :=
  leNat_leBytes (hw ▸ v.isLt)

/-- The two marks of a line, packed and read again. -/
theorem bitOf_marks (p h : Bool) : bitOf (bNat p + 2 * bNat h) 0 = p ∧ bitOf (bNat p + 2 * bNat h) 1 = h := by
  cases p <;> cases h <;> decide

/-! ### A line stored and read -/

section
variable {m : List Host.Cell} {a b n : Nat} {bs : List Byte}

/-- Bytes written from an address on are read there again. -/
theorem map_dramByte_putAll_same :
    (below bs.length).map (fun i => dramByte (dramPutAll m a bs) (a + i)) = bs := by
  refine List.ext_getElem (by simp [below]) fun i _ hi => ?_
  simpa [below] using dramByte_putAll_inside m a bs i hi

/-- Bytes of a range that a write does not meet are read as before. -/
theorem map_dramByte_putAll_apart (h : b + n ≤ a ∨ a + bs.length ≤ b) :
    (below n).map (fun i => dramByte (dramPutAll m a bs) (b + i)) = (below n).map fun i => dramByte m (b + i) := by
  refine List.map_congr_left fun i hi => dramByte_putAll_outside m a bs ?_
  have := List.mem_range.1 hi
  omega

end

section
variable {d f i d' f' i' : Nat} {l : RawLine} {s : State}

/-- The bytes of two different lines do not meet. -/
theorem lineAddresses_apart (hf : f < 2 ^ 30) (hi : i < 64) (hf' : f' < 2 ^ 30) (hi' : i' < 64)
    (hne : (d', f', i') ≠ (d, f, i)) :
    dramAddress d' f' (64 * i') + 64 ≤ dramAddress d f (64 * i) ∨
      dramAddress d f (64 * i) + 64 ≤ dramAddress d' f' (64 * i') := by
  rw [Ne, Prod.mk.injEq, Prod.mk.injEq] at hne
  unfold dramAddress
  omega

/-- Two different lines have their marks at different keys. -/
theorem markKeys_ne (hf : f < 2 ^ 30) (hi : i < 64) (hf' : f' < 2 ^ 30) (hi' : i' < 64)
    (hne : (d', f', i') ≠ (d, f, i)) : d' * 2 ^ 36 + f' * 64 + i' ≠ d * 2 ^ 36 + f * 64 + i := by
  rw [Ne, Prod.mk.injEq, Prod.mk.injEq] at hne
  omega

theorem markAt_storeRaw_same : markAt (storeRaw d f i l s) d f i = bNat l.poison + 2 * bNat l.hint :=
  smGet_put_same ..

theorem markAt_storeRaw_other (h : d' * 2 ^ 36 + f' * 64 + i' ≠ d * 2 ^ 36 + f * 64 + i) :
    markAt (storeRaw d f i l s) d' f' i' = markAt s d' f' i' := smGet_put_other _ _ _ h

theorem dramBytes_storeRaw_same :
    dramBytes (storeRaw d f i l s) (dramAddress d f (64 * i)) 64 = leBytes 64 l.bytes.toNat := by
  have h := map_dramByte_putAll_same (m := s.space.dram) (a := dramAddress d f (64 * i)) (bs := leBytes 64 l.bytes.toNat)
  rwa [length_leBytes] at h

theorem dramBytes_storeRaw_other
    (h : dramAddress d' f' (64 * i') + 64 ≤ dramAddress d f (64 * i) ∨
      dramAddress d f (64 * i) + 64 ≤ dramAddress d' f' (64 * i')) :
    dramBytes (storeRaw d f i l s) (dramAddress d' f' (64 * i')) 64 = dramBytes s (dramAddress d' f' (64 * i')) 64 :=
  map_dramByte_putAll_apart (by rwa [length_leBytes])

/-- A stored line reads back. -/
theorem rawLine_storeRaw_same : rawLine (storeRaw d f i l s) d f i = l := by
  obtain ⟨hpoison, hhint⟩ := bitOf_marks l.poison l.hint
  unfold rawLine
  rw [dramBytes_storeRaw_same, markAt_storeRaw_same, hpoison, hhint, leNat_leBytes_toNat rfl,
    BitVec.ofNat_toNat, BitVec.setWidth_eq]

/-- Every other line reads as before. -/
theorem rawLine_storeRaw_other (hf : f < 2 ^ 30) (hi : i < 64) (hf' : f' < 2 ^ 30) (hi' : i' < 64)
    (hne : (d', f', i') ≠ (d, f, i)) : rawLine (storeRaw d f i l s) d' f' i' = rawLine s d' f' i' := by
  unfold rawLine
  rw [dramBytes_storeRaw_other (lineAddresses_apart hf hi hf' hi' hne),
    markAt_storeRaw_other (markKeys_ne hf hi hf' hi' hne)]

end

/-- Settles O57: the bytes and the marks of a line lie at addresses of its own. -/
theorem dramReadsBackWhatWasStored : Obligations.DramReadsBackWhatWasStored := fun _ _ _ _ _ hf hi =>
  ⟨rawLine_storeRaw_same, fun _ _ _ hf' hi' hne => rawLine_storeRaw_other hf hi hf' hi' hne⟩

/-! ### Where a line lies -/

/-- The line of a frame is found again from its channel and line index (11 R292). -/
theorem lineAt_placeLine {f i : Nat} (hf : f < 2 ^ 30) (hi : i < 64) :
    lineAt (placeLine f i).1 (placeLine f i).2 = (f, i) := by
  unfold lineAt placeLine bitsOf
  have hframe : (2 * (f / 2 ^ 28 % 2 ^ 2) + (i % 2 + f % 2) % 2) / 2 * 2 ^ 28 + (f % 2 ^ 28 * 32 + i / 2) / 32 = f := by
    omega
  dsimp only
  rw [hframe]
  exact Prod.ext rfl (by dsimp only; omega)

/-- What lies from bit `lo` on of a number is a field of `w` bits and what lies above the field. -/
theorem bitsOf_add_above (x : Nat) {lo w up : Nat} (hup : lo + w = up) :
    bitsOf x lo w * 2 ^ lo + x / 2 ^ up * 2 ^ up = x / 2 ^ lo * 2 ^ lo := by
  rw [← hup, bitsOf, Nat.pow_add, ← Nat.div_div_eq_div_mul, Nat.mul_comm (2 ^ lo), ← Nat.mul_assoc, ← Nat.add_mul,
    Nat.mod_add_div']

section
variable {a w : Nat} (ha : a < 2 ^ w) (c lo v : Nat)
include ha

/-- The lowest field does not reach what lies above it. -/
theorem field_add_div : (a + 2 ^ w * c) / 2 ^ (w + lo) = c / 2 ^ lo := by
  rw [Nat.pow_add, ← Nat.div_div_eq_div_mul, Nat.add_mul_div_left _ _ (Nat.two_pow_pos w), Nat.div_eq_of_lt ha,
    Nat.zero_add]

theorem bitsOf_field_add_above : bitsOf (a + 2 ^ w * c) (w + lo) v = bitsOf c lo v := by
  rw [bitsOf, field_add_div ha, bitsOf]

theorem bitsOf_field_add_lowest : bitsOf (a + 2 ^ w * c) 0 w = a := by
  rw [bitsOf, Nat.pow_zero, Nat.div_one, Nat.add_mul_mod_self_left, Nat.mod_eq_of_lt ha]

end

section
variable (g : Geometry)

theorem dramIndex_dramAddr (idx : Nat) : dramIndex g (dramAddr g idx) = idx := by
  have hgroup := bitsOf_add_above (idx / 2) (Nat.zero_add 3)
  have hline := bitsOf_add_above (idx / 2) (Nat.add_comm 3 g.col)
  have hbank := bitsOf_add_above (idx / 2) (lo := g.col + 3) (w := 2) (up := g.col + 5) rfl
  have hrank := bitsOf_add_above (idx / 2) (Eq.refl (g.col + 5 + g.rank))
  have hmodl := bitsOf_add_above (idx / 2) (Eq.refl (g.col + 5 + g.rank + g.modl))
  simp only [dramIndex, dramAddr]
  omega

/-- The line index within a subchannel, field within field. -/
def subIndex (g : Geometry) (a : DramAddr) : Nat :=
  a.group + 2 ^ 3 * (a.line + 2 ^ g.col * (a.bank + 2 ^ 2 * (a.rank + 2 ^ g.rank * (a.modl + 2 ^ g.modl * a.row))))

theorem dramIndex_eq_subIndex (a : DramAddr) : dramIndex g a = 2 * subIndex g a + a.sub := by
  have hbank : g.col + 3 = 3 + g.col := Nat.add_comm ..
  have hrank : g.col + 5 = 3 + g.col + 2 := by omega
  simp only [dramIndex, subIndex, hbank, hrank, Nat.pow_add, Nat.mul_add]
  ac_rfl

theorem dramAddr_dramIndex {a : DramAddr} (hsub : a.sub < 2) (hgroup : a.group < 8) (hline : a.line < 2 ^ g.col)
    (hbank : a.bank < 4) (hrank : a.rank < 2 ^ g.rank) (hmodl : a.modl < 2 ^ g.modl) :
    dramAddr g (dramIndex g a) = a := by
  have hodd : (2 * subIndex g a + a.sub) % 2 = a.sub := by omega
  have hhalf : (2 * subIndex g a + a.sub) / 2 = subIndex g a := by omega
  have hbankAt : g.col + 3 = 3 + (g.col + 0) := by omega
  have hrankAt : g.col + 5 = 3 + (g.col + (2 + 0)) := by omega
  have hmodlAt : g.col + 5 + g.rank = 3 + (g.col + (2 + (g.rank + 0))) := by omega
  have hrowAt : g.col + 5 + g.rank + g.modl = 3 + (g.col + (2 + (g.rank + (g.modl + 0)))) := by omega
  rw [dramIndex_eq_subIndex]
  unfold dramAddr
  rw [hodd, hhalf, hrowAt, hmodlAt, hrankAt, hbankAt, subIndex]
  have h3 : a.group < 2 ^ 3 := hgroup
  have h2 : a.bank < 2 ^ 2 := hbank
  simp only [field_add_div h3, field_add_div hline, field_add_div h2, field_add_div hrank, field_add_div hmodl,
    bitsOf_field_add_above h3, bitsOf_field_add_above h3 _ 0, bitsOf_field_add_above hline, bitsOf_field_add_above h2,
    bitsOf_field_add_above hrank,
    bitsOf_field_add_lowest h3, bitsOf_field_add_lowest hline, bitsOf_field_add_lowest h2, bitsOf_field_add_lowest hrank,
    bitsOf_field_add_lowest hmodl, Nat.pow_zero, Nat.div_one]

end

/-- Settles O59. -/
theorem dramAddressesAreOneToOne : Obligations.DramAddressesAreOneToOne :=
  ⟨fun _ _ => lineAt_placeLine, dramIndex_dramAddr,
   fun g _ hsub hgroup hline hbank hrank hmodl => dramAddr_dramIndex g hsub hgroup hline hbank hrank hmodl⟩

end Sys2Proof.Machine
end

section
/-! The DRAM code word: its residue and its parity are linear, and the error patterns of at most two BCH bits have different
syndromes, so each is found from its own (11 R302, R303). -/

namespace Sys2Proof.Machine

/-! ### Numbers as bit strings -/

/-- A number in two parts whose bits do not meet. -/
theorem two_pow_mul_add_eq_xor {i b : Nat} (hb : b < 2 ^ i) (a : Nat) : 2 ^ i * a + b = 2 ^ i * a ^^^ b := by
  refine Nat.eq_of_testBit_eq fun j => ?_
  rw [Nat.testBit_two_pow_mul_add a hb, Nat.testBit_xor, Nat.testBit_two_pow_mul]
  split
  · rw [decide_eq_false (by omega), Bool.false_and, Bool.false_xor]
  · have hj : b.testBit j = false :=
      Nat.testBit_lt_two_pow (Nat.lt_of_lt_of_le hb (Nat.pow_le_pow_right (by omega) (by omega)))
    rw [decide_eq_true (by omega), Bool.true_and, hj, Bool.xor_false]

theorem xor_swap (w a b : Nat) : w ^^^ a ^^^ b = w ^^^ b ^^^ a := by ac_rfl

theorem xor_xor_self_right (w a : Nat) : w ^^^ a ^^^ a = w := by rw [Nat.xor_assoc, Nat.xor_self, Nat.xor_zero]

theorem bitsOf_xor (a b lo w : Nat) : bitsOf (a ^^^ b) lo w = bitsOf a lo w ^^^ bitsOf b lo w := by
  rw [bitsOf, Nat.xor_div_two_pow, Nat.xor_mod_two_pow, bitsOf, bitsOf]

theorem two_pow_mul_xor (i a b : Nat) : 2 ^ i * (a ^^^ b) = 2 ^ i * a ^^^ 2 ^ i * b := by
  simpa [Nat.shiftLeft_eq, Nat.mul_comm] using Nat.shiftLeft_xor_distrib (i := i) (a := a) (b := b)

/-- The last bit of a bit string stands alone at its end. -/
theorem msbBits_succ (n v : Nat) : msbBits (n + 1) v = msbBits n (v / 2) ++ [v.testBit 0] := by
  induction n with
  | zero => rfl
  | succ n ih => rw [msbBits, ih, msbBits, Nat.testBit_div_two, List.cons_append]

/-! ### Residues modulo g(x) -/

/-- One more bit, as a sum: the residue moved up, the bit, and g(x) where the degree reached 14. -/
theorem bchBit_eq (c : BitVec 14) (b : Bool) :
    bchBit c b = c <<< 1 ^^^ (if b then 1#14 else 0#14) ^^^ (if c.getLsbD 13 then 0x0377#14 else 0#14) := by
  have hlow : c <<< 1 ||| 1#14 = c <<< 1 ^^^ 1#14 := by
    refine BitVec.eq_of_getLsbD_eq fun i hi => ?_
    cases i <;> simp
  unfold bchBit
  cases b <;> cases c.getLsbD 13 <;> simp [hlow]

/-- A term that a bit switches on is linear in the bit. -/
theorem ite_bit_xor {w : Nat} (x : BitVec w) (a b : Bool) :
    (if (a ^^ b) = true then x else 0#w) = (if a = true then x else 0#w) ^^^ (if b = true then x else 0#w) := by
  cases a <;> cases b <;> simp

theorem bchBit_xor (c e : BitVec 14) (a b : Bool) : bchBit (c ^^^ e) (a ^^ b) = bchBit c a ^^^ bchBit e b := by
  simp only [bchBit_eq, BitVec.shiftLeft_xor_distrib, BitVec.getLsbD_xor, ite_bit_xor]
  ac_rfl

theorem bchMod_succ (n v : Nat) : bchMod (n + 1) v = bchBit (bchMod n (v / 2)) (v.testBit 0) := by
  rw [bchMod, msbBits_succ, List.foldl_append]
  rfl

/-- The residue of a sum is the sum of the residues. -/
theorem bchMod_xor (n a b : Nat) : bchMod n (a ^^^ b) = bchMod n a ^^^ bchMod n b := by
  induction n generalizing a b with
  | zero => exact BitVec.xor_self.symm
  | succ n ih => simp only [bchMod_succ, Nat.xor_div_two, ih, Nat.testBit_xor, bchBit_xor]

/-- A polynomial of degree below 14 is its own residue. -/
theorem bchMod_of_lt {n v : Nat} (hn : v < 2 ^ n) (hv : v < 2 ^ 14) : bchMod n v = BitVec.ofNat 14 v := by
  induction n generalizing v with
  | zero => rw [Nat.lt_one_iff.1 hn]; rfl
  | succ n ih =>
    have htop : (BitVec.ofNat 14 (v / 2)).getLsbD 13 = false := by
      rw [BitVec.getLsbD_ofNat, Nat.testBit_lt_two_pow (by omega), Bool.and_false]
    rw [bchMod_succ, ih (by omega) (by omega), bchBit_eq, htop]
    refine BitVec.eq_of_getLsbD_eq fun i hi => ?_
    have hbit : (if v.testBit 0 = true then 1#14 else 0#14).getLsbD i = (decide (i = 0) && v.testBit 0) := by
      cases v.testBit 0 <;> simp [hi]
    rw [if_neg Bool.false_ne_true, BitVec.xor_zero, BitVec.getLsbD_xor, hbit, BitVec.getLsbD_shiftLeft,
      BitVec.getLsbD_ofNat, BitVec.getLsbD_ofNat, Nat.testBit_div_two]
    cases i with
    | zero => simp
    | succ i => simp [hi, (by omega : i < 14)]

/-! ### Parity -/

theorem oddBits_succ (n v : Nat) : oddBits (n + 1) v = (oddBits n v ^^ v.testBit n) := by
  rw [oddBits, below, List.range_succ, List.foldl_append]
  change (oddBits n v != v.testBit n) = _
  cases oddBits n v <;> cases v.testBit n <;> rfl

theorem oddBits_xor (n a b : Nat) : oddBits n (a ^^^ b) = (oddBits n a ^^ oddBits n b) := by
  induction n with
  | zero => rfl
  | succ n ih =>
    simp only [oddBits_succ, ih, Nat.testBit_xor, Bool.xor_assoc, Bool.xor_left_comm]

theorem oddBits_two_pow {i : Nat} (hi : i < 80) : oddBits 80 (2 ^ i) = true :=
  (by decide +kernel : ∀ i < 80, oddBits 80 (2 ^ i) = true) i hi

/-! ### Syndromes -/

/-- What `decodeWord` finds the wrong bits from. -/
def syndrome (w : Nat) : BitVec 14 := bchMod 79 (bchPoly w)

theorem bchPoly_xor (a b : Nat) : bchPoly (a ^^^ b) = bchPoly a ^^^ bchPoly b := by
  have parts (w : Nat) : bchPoly w = 2 ^ 78 * bitsOf w 79 1 ^^^ (2 ^ 14 * bitsOf w 0 64 ^^^ bitsOf w 64 14) := by
    have hcheck : bitsOf w 64 14 < 2 ^ 14 := Nat.mod_lt _ (by decide)
    have hdata : bitsOf w 0 64 < 2 ^ 64 := Nat.mod_lt _ (by decide)
    rw [← two_pow_mul_add_eq_xor hcheck, ← two_pow_mul_add_eq_xor (by omega), bchPoly]
    omega
  simp only [parts, bitsOf_xor, two_pow_mul_xor]
  ac_rfl

theorem syndrome_xor (a b : Nat) : syndrome (a ^^^ b) = syndrome a ^^^ syndrome b := by
  rw [syndrome, bchPoly_xor, bchMod_xor, syndrome, syndrome]

/-- The syndrome of one wrong bit is the residue of its position's power of x. -/
theorem syndrome_posBit {p : Nat} (hp : p < 79) : syndrome (2 ^ posBit p) = bchPower p :=
  (by decide +kernel : ∀ p < 79, syndrome (2 ^ posBit p) = bchPower p) p hp

theorem syndrome_parity : syndrome (2 ^ 78) = 0#14 := by decide +kernel

/-- Every bit of a code word but the parity bit has a BCH position. -/
theorem exists_posBit {i : Nat} (hi : i < 80) (hne : i ≠ 78) : ∃ p < 79, posBit p = i := by
  unfold posBit
  by_cases hdata : i < 64
  · exact ⟨i + 14, by omega, (if_neg (by omega)).trans ((if_pos (by omega)).trans (Nat.add_sub_cancel ..))⟩
  · by_cases hcheck : i < 78
    · exact ⟨i - 64, by omega, (if_pos (by omega)).trans (by omega)⟩
    · exact ⟨78, by omega, (if_neg (by omega)).trans ((if_neg (by omega)).trans (by omega))⟩

theorem posBit_lt {p : Nat} (hp : p < 79) : posBit p < 80 := by
  unfold posBit
  split
  · omega
  · split <;> omega

/-! ### What is written -/

theorem bchPoly_fields {d c : Nat} (hd : d < 2 ^ 64) (hc : c < 2 ^ 14) (m p : Bool) :
    bchPoly (d + c * 2 ^ 64 + bNat m * 2 ^ 79 + bNat p * 2 ^ 78) = 2 ^ 14 * (d + bNat m * 2 ^ 64) + c := by
  have hbit (b : Bool) : bNat b < 2 := by cases b <;> decide
  have hm := hbit m
  have hp := hbit p
  unfold bchPoly bitsOf
  omega

/-- The parity bit is clear before it is set. -/
theorem fields_add_parity {d c : Nat} (hd : d < 2 ^ 64) (hc : c < 2 ^ 14) (m p : Bool) :
    d + c * 2 ^ 64 + bNat m * 2 ^ 79 + bNat p * 2 ^ 78 = (d + c * 2 ^ 64 + bNat m * 2 ^ 79) ^^^ (bNat p * 2 ^ 78) := by
  have hlow : d + c * 2 ^ 64 < 2 ^ 78 := by omega
  have hset : 2 ^ 78 * (2 * bNat m + bNat p) = 2 ^ 78 * (2 * bNat m) ^^^ bNat p * 2 ^ 78 := by
    cases m <;> cases p <;> decide +kernel
  calc d + c * 2 ^ 64 + bNat m * 2 ^ 79 + bNat p * 2 ^ 78
      = 2 ^ 78 * (2 * bNat m + bNat p) + (d + c * 2 ^ 64) := by omega
    _ = (2 ^ 78 * (2 * bNat m) ^^^ (d + c * 2 ^ 64)) ^^^ bNat p * 2 ^ 78 := by
      rw [two_pow_mul_add_eq_xor hlow, hset]
      ac_rfl
    _ = (d + c * 2 ^ 64 + bNat m * 2 ^ 79) ^^^ bNat p * 2 ^ 78 := by
      rw [← two_pow_mul_add_eq_xor hlow]
      congr 1
      omega

section
variable (d : BitVec 64) (m : Bool)

/-- A code word is a multiple of g(x). -/
theorem syndrome_encodeWord : syndrome (encodeWord d.toNat m) = 0#14 := by
  have hcheck := (bchCheck d.toNat m).isLt
  have hpoly : bchPoly (encodeWord d.toNat m) = 2 ^ 14 * (d.toNat + bNat m * 2 ^ 64) ^^^ (bchCheck d.toNat m).toNat :=
    (bchPoly_fields d.isLt hcheck m _).trans (two_pow_mul_add_eq_xor hcheck _)
  rw [syndrome, hpoly, bchMod_xor, bchMod_of_lt (by omega) hcheck, BitVec.ofNat_toNat, BitVec.setWidth_eq,
    Nat.mul_comm (2 ^ 14), ← bchCheck, BitVec.xor_self]

/-- The parity bit makes the count of set bits even. -/
theorem oddBits_encodeWord : oddBits 80 (encodeWord d.toNat m) = false := by
  have hparity (p : Bool) : oddBits 80 (bNat p * 2 ^ 78) = p := by cases p <;> decide +kernel
  rw [encodeWord, fields_add_parity d.isLt (bchCheck d.toNat m).isLt, oddBits_xor, hparity, Bool.xor_self]

end

/-! ### The patterns of at most two wrong BCH bits -/

/-- The positions that decoding looks for, the higher first. -/
def errorPatterns : List (List Nat) :=
  [] :: ((below 79).map (fun i => [i]) ++ (below 79).flatMap fun i => (below i).map fun j => [i, j])

/-- The syndrome of the bits at some positions. -/
def patternSyndrome (l : List Nat) : BitVec 14 := l.foldr (fun i c => bchPower i ^^^ c) 0#14

/-- No number of a list is a set bit of `seen`, nor occurs twice. -/
def allFresh : List Nat → Nat → Bool
  | [], _ => true
  | x :: xs, seen => !seen.testBit x && allFresh xs (seen ||| 2 ^ x)

theorem inj_of_allFresh {α : Type} {f : α → Nat} {l : List α} {seen : Nat} (h : allFresh (l.map f) seen = true) :
    (∀ x ∈ l, seen.testBit (f x) = false) ∧ ∀ x ∈ l, ∀ y ∈ l, f x = f y → x = y := by
  induction l generalizing seen with
  | nil => exact ⟨nofun, nofun⟩
  | cons a l ih =>
    rw [List.map_cons, allFresh, Bool.and_eq_true, Bool.not_eq_true'] at h
    obtain ⟨hfresh, hinj⟩ := ih h.2
    have hunseen : ∀ x ∈ l, seen.testBit (f x) = false ∧ f a ≠ f x := fun x hx => by
      simpa only [Nat.testBit_or, Nat.testBit_two_pow, Bool.or_eq_false_iff, decide_eq_false_iff_not] using hfresh x hx
    refine ⟨List.forall_mem_cons.2 ⟨h.1, fun x hx => (hunseen x hx).1⟩, fun x hx y hy heq => ?_⟩
    rcases List.mem_cons.1 hx with hxa | hxl
    · rcases List.mem_cons.1 hy with hya | hyl
      · exact hxa.trans hya.symm
      · exact absurd (hxa ▸ heq) (hunseen y hyl).2
    · rcases List.mem_cons.1 hy with hya | hyl
      · exact absurd (hya ▸ heq).symm (hunseen x hxl).2
      · exact hinj x hxl y hyl heq

/-- The 3,161 syndromes are different: each sets a bit of its own in a number of 2^14 bits. -/
theorem patternSyndromes_allFresh : allFresh (errorPatterns.map fun l => (patternSyndrome l).toNat) 0 = true := by
  decide +kernel

/-- The minimum distance of the code, as decoding uses it: no two patterns of at most two positions have one syndrome. -/
theorem patternSyndrome_inj {l k : List Nat} (hl : l ∈ errorPatterns) (hk : k ∈ errorPatterns)
    (h : patternSyndrome l = patternSyndrome k) : l = k :=
  (inj_of_allFresh patternSyndromes_allFresh).2 l hl k hk (congrArg BitVec.toNat h)

section
variable {i j k l : Nat}

theorem nil_mem_errorPatterns : [] ∈ errorPatterns := List.mem_cons_self

theorem single_mem_errorPatterns (hi : i < 79) : [i] ∈ errorPatterns :=
  List.mem_cons_of_mem _ (List.mem_append_left _ (List.mem_map_of_mem (List.mem_range.2 hi)))

theorem pair_mem_errorPatterns (hi : i < 79) (hj : j < i) : [i, j] ∈ errorPatterns :=
  List.mem_cons_of_mem _ (List.mem_append_right _
    (List.mem_flatMap_of_mem (List.mem_range.2 hi) (List.mem_map_of_mem (List.mem_range.2 hj))))

theorem patternSyndrome_single : patternSyndrome [i] = bchPower i := BitVec.xor_zero

theorem patternSyndrome_pair : patternSyndrome [i, j] = bchPower i ^^^ bchPower j :=
  congrArg (bchPower i ^^^ ·) BitVec.xor_zero

theorem bchPower_ne_zero (hi : i < 79) : bchPower i ≠ 0#14 := fun h =>
  List.cons_ne_nil _ _
    (patternSyndrome_inj (single_mem_errorPatterns hi) nil_mem_errorPatterns (patternSyndrome_single.trans h))

theorem bchPower_inj (hi : i < 79) (hk : k < 79) (h : bchPower i = bchPower k) : i = k := by
  have hlist := patternSyndrome_inj (single_mem_errorPatterns hi) (single_mem_errorPatterns hk)
    (by rwa [patternSyndrome_single, patternSyndrome_single])
  exact List.head_eq_of_cons_eq hlist

theorem bchPower_pair_ne_zero (hi : i < 79) (hj : j < i) : bchPower i ^^^ bchPower j ≠ 0#14 := fun h =>
  List.cons_ne_nil _ _
    (patternSyndrome_inj (pair_mem_errorPatterns hi hj) nil_mem_errorPatterns (patternSyndrome_pair.trans h))

theorem bchPower_ne_pair (hi : i < 79) (hj : j < i) (hk : k < 79) : bchPower k ≠ bchPower i ^^^ bchPower j := fun h => by
  have hlist := patternSyndrome_inj (single_mem_errorPatterns hk) (pair_mem_errorPatterns hi hj)
    (by rwa [patternSyndrome_single, patternSyndrome_pair])
  simp at hlist

theorem bchPower_pair_inj (hi : i < 79) (hj : j < i) (hk : k < 79) (hl : l < k)
    (h : bchPower i ^^^ bchPower j = bchPower k ^^^ bchPower l) : i = k ∧ j = l := by
  have hlist := patternSyndrome_inj (pair_mem_errorPatterns hi hj) (pair_mem_errorPatterns hk hl)
    (by rwa [patternSyndrome_pair, patternSyndrome_pair])
  simpa using hlist

end

/-! ### Finding a pattern from its syndrome -/

/-- A search meets the one element that passes its test. -/
theorem find?_eq_some_of_unique {α : Type} {l : List α} {f : α → Bool} {x : α} (hx : x ∈ l) (hfx : f x = true)
    (hunique : ∀ y ∈ l, f y = true → y = x) : l.find? f = some x := by
  cases hfind : l.find? f with
  | none => exact absurd hfx (List.find?_eq_none.1 hfind x hx)
  | some y => rw [hunique y (List.mem_of_find?_eq_some hfind) (List.find?_some hfind)]

section
variable {i j : Nat}

theorem nth_bchPowers (hi : i < 79) : nth 0#14 ((below 79).map bchPower) i = bchPower i := by
  simp [nth, below, hi]

theorem onePattern_bchPower (hi : i < 79) : onePattern (bchPower i) = some i :=
  find?_eq_some_of_unique (List.mem_range.2 hi) (beq_self_eq_true _) fun _ hk heq =>
    bchPower_inj (List.mem_range.1 hk) hi (beq_iff_eq.1 heq)

theorem onePattern_pair (hi : i < 79) (hj : j < i) : onePattern (bchPower i ^^^ bchPower j) = none :=
  List.find?_eq_none.2 fun _ hk heq => bchPower_ne_pair hi hj (List.mem_range.1 hk) (beq_iff_eq.1 heq)

/-- The search that `twoPattern` makes below a position. -/
theorem find_lower_bchPower (hi : i < 79) (hj : j < i) {k : Nat} (hk : k < 79) :
    ((below k).find? fun l => nth 0#14 ((below 79).map bchPower) k ^^^ nth 0#14 ((below 79).map bchPower) l ==
      bchPower i ^^^ bchPower j) = if k = i then some j else none := by
  have hpair {l : Nat} (hl : l ∈ below k) (heq : (nth 0#14 ((below 79).map bchPower) k ^^^
      nth 0#14 ((below 79).map bchPower) l == bchPower i ^^^ bchPower j) = true) : k = i ∧ l = j := by
    have hlk := List.mem_range.1 hl
    rw [beq_iff_eq, nth_bchPowers hk, nth_bchPowers (Nat.lt_trans hlk hk)] at heq
    exact bchPower_pair_inj hk hlk hi hj heq
  split
  · subst k
    refine find?_eq_some_of_unique (List.mem_range.2 hj) ?_ fun l hl heq => (hpair hl heq).2
    rw [nth_bchPowers hi, nth_bchPowers (Nat.lt_trans hj hi), beq_self_eq_true]
  · exact List.find?_eq_none.2 fun l hl heq => absurd (hpair hl heq).1 ‹_›

theorem twoPattern_pair (hi : i < 79) (hj : j < i) : twoPattern (bchPower i ^^^ bchPower j) = some (i, j) := by
  unfold twoPattern
  cases hfind : (below 79).findSome? _ with
  | none =>
    have hnone := List.findSome?_eq_none_iff.1 hfind i (List.mem_range.2 hi)
    rw [find_lower_bchPower hi hj hi, if_pos rfl] at hnone
    exact nomatch hnone
  | some ij =>
    obtain ⟨k, hk, hsome⟩ := List.exists_of_findSome?_eq_some hfind
    rw [find_lower_bchPower hi hj (List.mem_range.1 hk)] at hsome
    split at hsome
    · subst k
      exact hsome.symm
    · exact nomatch hsome

end

/-! ### Decoding, by syndrome and parity (Table 11.5) -/

section
variable {w i j : Nat}

theorem decodeWord_noError (hsyn : syndrome w = 0#14) (hodd : oddBits 80 w = false) : decodeWord w = some (0, w) :=
  (if_pos hsyn).trans (by rw [hodd]; rfl)

theorem decodeWord_parity (hsyn : syndrome w = 0#14) (hodd : oddBits 80 w = true) :
    decodeWord w = some (1, w ^^^ 2 ^ 78) :=
  (if_pos hsyn).trans (by rw [hodd]; rfl)

theorem decodeWord_one (hi : i < 79) (hsyn : syndrome w = bchPower i) :
    decodeWord w = if oddBits 80 w = true then some (1, w ^^^ 2 ^ posBit i) else none := by
  refine (if_neg fun h => bchPower_ne_zero hi (hsyn.symm.trans h)).trans ?_
  rw [← syndrome, hsyn, onePattern_bchPower hi]
  rfl

theorem decodeWord_two (hi : i < 79) (hj : j < i) (hsyn : syndrome w = bchPower i ^^^ bchPower j)
    (hodd : oddBits 80 w = false) : decodeWord w = some (2, w ^^^ 2 ^ posBit i ^^^ 2 ^ posBit j) := by
  refine (if_neg fun h => bchPower_pair_ne_zero hi hj (hsyn.symm.trans h)).trans ?_
  rw [← syndrome, hsyn, onePattern_pair hi hj, twoPattern_pair hi hj, hodd]
  rfl

end

/-! ### A code word with wrong bits -/

section
variable {w i j : Nat} (hsyn : syndrome w = 0#14) (hodd : oddBits 80 w = false)
include hsyn

theorem syndrome_wrongBit (hi : i < 79) : syndrome (w ^^^ 2 ^ posBit i) = bchPower i := by
  rw [syndrome_xor, hsyn, syndrome_posBit hi, BitVec.zero_xor]

include hodd

theorem decodeWord_wrongBit (hi : i < 80) : decodeWord (w ^^^ 2 ^ i) = some (1, w) := by
  have hwrong : oddBits 80 (w ^^^ 2 ^ i) = true := by rw [oddBits_xor, hodd, oddBits_two_pow hi, Bool.false_xor]
  by_cases hparity : i = 78
  · subst i
    rw [decodeWord_parity (by rw [syndrome_xor, hsyn, syndrome_parity, BitVec.xor_zero]) hwrong, xor_xor_self_right]
  · obtain ⟨p, hp, rfl⟩ := exists_posBit hi hparity
    rw [decodeWord_one hp (syndrome_wrongBit hsyn hp), if_pos hwrong, xor_xor_self_right]

theorem decodeWord_wrongPair_ordered (hi : i < 79) (hj : j < i) :
    decodeWord (w ^^^ 2 ^ posBit i ^^^ 2 ^ posBit j) = some (2, w) := by
  have hsyn2 : syndrome (w ^^^ 2 ^ posBit i ^^^ 2 ^ posBit j) = bchPower i ^^^ bchPower j := by
    rw [syndrome_xor, syndrome_wrongBit hsyn hi, syndrome_posBit (Nat.lt_trans hj hi)]
  have heven : oddBits 80 (w ^^^ 2 ^ posBit i ^^^ 2 ^ posBit j) = false := by
    rw [oddBits_xor, oddBits_xor, hodd, oddBits_two_pow (posBit_lt hi), oddBits_two_pow (posBit_lt (Nat.lt_trans hj hi))]
    rfl
  rw [decodeWord_two hi hj hsyn2 heven, xor_swap _ _ (2 ^ posBit i), xor_xor_self_right, xor_xor_self_right]

theorem decodeWord_wrongPair (hi : i < 80) (hj : j < 80) (hij : i ≠ j) (hi78 : i ≠ 78) (hj78 : j ≠ 78) :
    decodeWord (w ^^^ 2 ^ i ^^^ 2 ^ j) = some (2, w) := by
  obtain ⟨p, hp, rfl⟩ := exists_posBit hi hi78
  obtain ⟨q, hq, rfl⟩ := exists_posBit hj hj78
  rcases Nat.lt_trichotomy p q with hlt | rfl | hgt
  · rw [xor_swap]
    exact decodeWord_wrongPair_ordered hsyn hodd hq hlt
  · exact absurd rfl hij
  · exact decodeWord_wrongPair_ordered hsyn hodd hp hgt

theorem decodeWord_wrongBit_and_parity (hi : i < 80) (hi78 : i ≠ 78) : decodeWord (w ^^^ 2 ^ i ^^^ 2 ^ 78) = none := by
  obtain ⟨p, hp, rfl⟩ := exists_posBit hi hi78
  have hsyn1 : syndrome (w ^^^ 2 ^ posBit p ^^^ 2 ^ 78) = bchPower p := by
    rw [syndrome_xor, syndrome_wrongBit hsyn hp, syndrome_parity, BitVec.xor_zero]
  have heven : oddBits 80 (w ^^^ 2 ^ posBit p ^^^ 2 ^ 78) = false := by
    rw [oddBits_xor, oddBits_xor, hodd, oddBits_two_pow (posBit_lt hp), oddBits_two_pow (by decide)]
    rfl
  rw [decodeWord_one hp hsyn1, heven, if_neg Bool.false_ne_true]

end

/-- Settles O58: a code word has syndrome 0 and even parity, and a pattern of wrong bits shows as its own syndrome. -/
theorem eccCorrectsTwoBits : Obligations.EccCorrectsTwoBits := fun d m =>
  have hsyn := syndrome_encodeWord d m
  have hodd := oddBits_encodeWord d m
  ⟨decodeWord_noError hsyn hodd, fun _ => decodeWord_wrongBit hsyn hodd, fun _ _ => decodeWord_wrongPair hsyn hodd,
   fun _ => decodeWord_wrongBit_and_parity hsyn hodd⟩

end Sys2Proof.Machine
end

section
/-! Rails, the thermal response, standby power, the start of firmware and the SRAM patrol: one equation for each case of
their handlers (11 R306, 13 R345, 14 R367, 19 R441-R450, 20 R455). -/

namespace Sys2Proof.Machine

/-! ### Rails (R446, R447, R450) -/

section
variable {r d : Nat} {s : State}

theorem logEvent_sl {kind unit severity body : Nat} {page : Option (Nat × Nat)} :
    (logEvent kind unit severity page body s).sl = s.sl := touches_logEvent .sl (by decide)

theorem railGood_enabled (hen : s.sl.railEn.getLsbD r = true) :
    railGood r s = advanceRails 6 (modSl (fun l => { l with railPg := setRail l.railPg r true }) s) := if_pos hen

/-- A regulator that gave no power good is given up; a die rail takes the die's other rails with it. -/
theorem railTimeout_late (hen : s.sl.railEn.getLsbD r = true) (hpg : s.sl.railPg.getLsbD r = false) :
    railTimeout r s = railsDone (advanceRails 6 (logEvent 13 (368 + railDie r) (railSeverity (railDie r)) none 0
      (modSl (fun l => { l with railEn := setRail l.railEn r false, railDenied := l.railDenied ++ [railDie r] })
        (if 4 ≤ r ∧ r < 12 then railsOfDieFall (railDie r) s else s)))) := by
  have hlate : ¬(s.sl.railEn.getLsbD r = false ∨ s.sl.railPg.getLsbD r = true) := by simp [hen, hpg]
  refine (if_neg hlate).trans ?_
  simp only [onlyIf, Bool.and_eq_true, decide_eq_true_eq]

/-- A power good that falls while no order of rails runs takes the die out. -/
theorem railLost_settled (hen : s.sl.railEn.getLsbD r = true) (hpg : s.sl.railPg.getLsbD r = true)
    (hstep : s.sl.railStep = 6 ∨ s.sl.railStep = 0) :
    railLost r s = recomputeD (dieOut (railDie r) 3 (logEvent 13 (368 + railDie r) (railSeverity (railDie r)) none 0
      (modSl (fun l => { l with railDenied := l.railDenied ++ [railDie r] }) (railsOfDieFall (railDie r) s)))) := by
  have hgood : ¬(s.sl.railEn.getLsbD r = false ∨ s.sl.railPg.getLsbD r = false) := by simp [hen, hpg]
  refine (if_neg hgood).trans (if_pos ?_)
  rw [logEvent_sl]
  exact hstep

theorem thermalShutdown_hot (hhot : 10 ≤ smGet 0 s.sl.hotMs d) (hrun : s.sl.thermShutdown = false) :
    thermalShutdown d s = logPlain 13 4 (diesLost (openAllBranches (allRailsFall false (modSl (fun l => { l with
      thermShutdown := true, thermN := true, thermShutdowns := satAdd 32 l.thermShutdowns 1
      thermLast := d + ((smGet 0 l.tj d).toNat % 256) * 2 ^ 8 + (s.slTime / 1000 % 2 ^ 64) * 2 ^ 64
      hotMs := [], resetArmed := 6 }) s)))) := if_pos ⟨hhot, hrun⟩

/-- The device is cool again with main power still on: the order of the rails begins. -/
theorem execThermalRecovery_on (hshut : s.sl.thermShutdown = true) (hon : s.hs.state = .on) :
    execThermalRecovery s = .next (railsDone (startRails .boot
      (modSl (fun l => { l with bootStage := .powering, thermShutdown := false }) s))) := by
  refine congrArg Host.Outcome.next ((if_pos hshut).trans (congrArg railsDone ?_))
  refine (if_pos hshut).trans ((if_pos hon).trans ?_)
  simp only [if_pos hon]
  rfl

theorem sensorRead_powered {t : Int} (hpower : diePowered s d = true) :
    sensorRead d t s = thermWarn (modSl (fun l => { l with
      tj := smPut 0 l.tj d t, hotMs := smPut 0 l.hotMs d (if 115 ≤ t then smGet 0 l.hotMs d + 1 else 0) }) s) :=
  if_pos hpower

end

/-! ### Standby power (R447, R455) -/

section
variable {s : State}

theorem touches_gbHeaderLost {i : Nat} : Touches [.cr, .gb, .unit] s (gbHeaderLost i s) :=
  .within (.ite (touches_gbRetire.after touches_modSector) touches_modSector) rfl

theorem touches_gbStandbyRise : Touches [.gb] s (gbStandbyRise s) := by
  unfold gbStandbyRise
  exact touches_modGb

/-- The straps are loaded and a reset of cause 1 is armed. -/
def standbyUp (strap slSel : Nat) (flashOk : Bool) (s : State) : State :=
  modSl (fun l => { l with
    vstby := true, standbyAlive := true, straps := strap + 4 * slSel, onL2 := slSel == 1, resetCause := 1
    resetArmed := 1, bootStage := .standby, flashOk := flashOk }) s

variable {strap slSel : Nat} {flashOk : Bool} {torn : List Nat}

/-- The dictionary and the Courier take their values from the flash, and the guest book starts a period. -/
theorem touches_valuesLoaded {f : Dict → Dict} {g : Courier → Courier} :
    Touches [.dict, .cr, .gb, .unit] s (modCr g (gbStandbyRise (forAll torn gbHeaderLost (modDict f s)))) :=
  (touches_modCr.after (touches_gbStandbyRise.after ((Touches.forAll (fun _ _ => touches_gbHeaderLost) torn).after
    touches_modDict))).within rfl

/-- A reserved strap code is logged. -/
theorem touches_loggedWhere {c : Prop} [Decidable c] {kind severity : Nat} {t : State}
    (h : Touches [.dict, .cr, .gb, .unit] s t) :
    Touches [.dict, .cr, .gb, .unit] s (if c then logPlain kind severity t else t) :=
  .within (.ite (touches_logPlain.after h) h) rfl

theorem touches_standbyRise (hdown : s.sl.vstby = false) : Touches [.dict, .cr, .gb, .unit]
    (standbyUp strap slSel flashOk s) (standbyRise strap slSel flashOk torn s) := by
  unfold standbyRise
  rw [if_neg (by simp [hdown])]
  exact .within (.ite (touches_modGb.after (touches_loggedWhere touches_valuesLoaded))
    (touches_logPlain.after (touches_modGb.after (touches_loggedWhere touches_valuesLoaded)))) rfl

theorem standbyRise_sl (hdown : s.sl.vstby = false) :
    (standbyRise strap slSel flashOk torn s).sl = (standbyUp strap slSel flashOk s).sl :=
  touches_standbyRise hdown .sl (by decide)

end

/-! ### Firmware and the standby island (R455, 14 R367) -/

section
variable {s : State} {k st : BitVec 384}

/-- Both images verified: each is measured, and the world it belongs to runs. -/
theorem firmwareChecked_verified {keeper steward : Option (BitVec 384)} (hk : keeper = some k) (hst : steward = some st)
    (hrails : s.sl.railStep = 6) (hstage : s.sl.bootStage = .booting) (hlc : lcState s ≠ 4)
    (hunit : unitServes s 369 = true) : firmwareChecked keeper steward s =
      hardwareKnown (modSl (fun l => { l with bootStage := .firmware }) (measExtend 2 (digestBytes 48 st)
        (modWorld (fun w => { w with stewardUp := 0xFF#8, stewardDigest := st })
          (measExtend 1 (digestBytes 48 k) (modWorld (fun w => { w with keeperUp := true, keeperDigest := k }) s))))) := by
  subst hk hst
  have hstart : ¬(s.sl.bootStage ≠ .booting ∨ lcState s = 4) := by simp [hstage, hlc]
  refine (if_neg fun h => h hrails).trans ?_
  rw [hstage]
  refine (if_neg hstart).trans ?_
  simp only [if_pos hunit]

/-- The island that takes over goes on from its own copies, with `DICT_SEQ` advanced. -/
theorem heartbeatLost_alive (hvstby : s.sl.vstby = true) (halive : s.sl.standbyAlive = true) :
    heartbeatLost s = modGb (fun g => { g with latches := cutAgain g.latches }) (modHs breakersSwap
      (modUnit (fun u => { u with log := u.logMirror })
        (modDict (fun d => { d with seq := d.seqMirror + 65536, params := valuesFromMirror d, sessions := [] })
          (modSl (fun l => { l with
            onL2 := !l.onL2, standbyAlive := false, hwmCopy := l.mirror.hwmCopy, nightDigest := l.mirror.nightDigest
            rootDigest := l.mirror.rootDigest, wrapped := l.mirror.wrapped }) s)))) :=
  if_neg (by simp [hvstby, halive])

end

/-! ### The SRAM patrol (11 R306) -/

section
variable {b : Nat} {word : BitVec 64} {err : BitVec 79} {held : SramHolds} {s : State}

/-- The patrol goes on to the next word of a bank. -/
def patrolled (b : Nat) (s : State) : State :=
  modUnit (fun u => { u with sramPos := smPut 0 u.sramPos b (smGet 0 s.unit.sramPos b + 1) }) s

variable (hpower : diePowered s (bankDie b) = true) (hunit : unitServes s (368 + bankDie b) = true)
include hpower hunit

theorem sramPatrol_clean {v : Nat} (hread : decodeSram word err = some (0, v))
    (hregion : regionPermits s (32 + b) .scrub false (smGet 0 s.unit.sramPos b / 8) = true)
    (howner : failsOwner held = false) : sramPatrol b word err held s = patrolled b s := by
  unfold sramPatrol
  simp [hread, hpower, hunit, hregion, howner, patrolled]

/-- A corrected word is recorded, and what it holds stays. -/
theorem sramPatrol_corrected {n v : Nat} (hread : decodeSram word err = some (n, v)) (hn : 0 < n)
    (hregion : regionPermits s (32 + b) .scrub true (smGet 0 s.unit.sramPos b / 8) = true) (hdie : bankDie b < 4)
    (howner : failsOwner held = false) : sramPatrol b word err held s =
      logEvent 1 0xFFFF 0 none (sramRecord s 8 b (smGet 0 s.unit.sramPos b % 8) n 4) (patrolled b s) := by
  have hdirty : (n == 0) = false := beq_false_of_ne (Nat.ne_of_gt hn)
  unfold sramPatrol
  simp [hread, hpower, hunit, hregion, howner, patrolled, hdirty, onlyIf, Nat.not_le.2 hdie]

/-- An uncorrectable word is recorded, and what it holds on the bank's die is lost. -/
theorem sramPatrol_uncorrectable (hread : decodeSram word err = none)
    (hregion : regionPermits s (32 + b) .scrub false (smGet 0 s.unit.sramPos b / 8) = true) (hdie : bankDie b < 4)
    (hheld : (heldDie s held).all (fun d => d == bankDie b) = true) : sramPatrol b word err held s =
      sramLost held (logEvent 1 0xFFFF 1 none (sramRecord s 9 b (smGet 0 s.unit.sramPos b % 8) 0 4) (patrolled b s)) := by
  have hhere : (heldDie s held).any (· != bankDie b) = false := by
    cases heldAt : heldDie s held <;> simp_all
  unfold sramPatrol
  simp [hread, hpower, hunit, hregion, hhere, patrolled, onlyIf, Nat.not_le.2 hdie]

end

/-! ### The obligation -/

/-- Settles O20: each clause is the equation of its handler's case. -/
theorem railsAndStartUpAct : Obligations.RailsAndStartUpAct :=
  ⟨fun _ _ hen => congrArg (fun t => Host.Outcome.next (railsDone t)) (railGood_enabled hen),
   fun _ _ hen hpg => congrArg Host.Outcome.next (railTimeout_late hen hpg),
   fun _ _ hen hpg hstep => congrArg Host.Outcome.next (railLost_settled hen hpg hstep),
   fun _ _ hhot hrun => congrArg Host.Outcome.next (thermalShutdown_hot hhot hrun),
   fun _ => execThermalRecovery_on,
   fun _ _ _ _ _ _ hpower => congrArg Host.Outcome.next (sensorRead_powered hpower),
   fun strap slSel flash s hdown =>
    have hsl := standbyRise_sl (strap := strap.toNat) (slSel := bNat slSel) (flashOk := flash.ok)
      (torn := flash.torn.map (·.val)) hdown
    ⟨_, rfl, by rw [hsl]; cases slSel <;> exact ⟨rfl, rfl, rfl, rfl, rfl, rfl, rfl, rfl⟩⟩,
   fun _ => ⟨_, rfl, rfl, rfl, rfl, rfl, rfl, rfl, rfl, rfl, rfl, rfl, rfl, rfl, rfl, rfl, rfl, rfl⟩,
   fun _ _ _ _ _ hk hst hrails hstage hlc hunit => congrArg Host.Outcome.next
      (firmwareChecked_verified hk hst hrails hstage hlc hunit),
   fun _ hvstby => congrArg Host.Outcome.next (if_pos hvstby),
   fun _ hvstby halive => congrArg Host.Outcome.next (heartbeatLost_alive hvstby halive),
   fun _ _ _ _ _ _ hread hpower hunit hregion howner =>
    congrArg Host.Outcome.next (sramPatrol_clean hpower hunit hread hregion howner),
   fun _ _ _ _ _ _ _ hread hn hpower hunit hregion hdie howner =>
    congrArg Host.Outcome.next (sramPatrol_corrected hpower hunit hread hn hregion hdie howner),
   fun _ _ _ _ _ hread hpower hunit hregion hdie hheld =>
    congrArg Host.Outcome.next (sramPatrol_uncorrectable hpower hunit hread hregion hdie hheld)⟩

end Sys2Proof.Machine
end

section
/-! What a Corridor link does: its transfers and the steps of its reset (12 R321-R333). -/

namespace Sys2Proof.Machine

/-- A link that was changed reads as changed. -/
theorem linkAt_modLinkAt (k : Nat) (f : CorrLink → CorrLink) (s : State) :
    linkAt (modLinkAt k f s) k = f (linkAt s k) :=
  smGet_put_same _ _ _ _

/-! ### A transfer without damage (12 R323, R330) -/

theorem leBytes_mod (n v : Nat) : leBytes n (v % 2 ^ (8 * n)) = leBytes n v := by
  induction n generalizing v with
  | zero => rfl
  | succ n ih =>
    have hpow : 2 ^ (8 * (n + 1)) = 256 * 2 ^ (8 * n) := by rw [Nat.mul_succ, Nat.pow_add, Nat.mul_comm]
    have hlow : BitVec.ofNat 8 (v % (256 * 2 ^ (8 * n))) = BitVec.ofNat 8 v :=
      BitVec.eq_of_toNat_eq (Nat.mod_mod_of_dvd v ⟨2 ^ (8 * n), rfl⟩)
    simp only [leBytes, hpow]
    rw [hlow, Nat.mod_mul_right_div_self, ih]

/-- The ten bytes of a control word spell what the receiver reads of it. -/
theorem leBytes_controlWord (cw : Nat) : leBytes 10 (BitVec.ofNat 80 cw).toNat = leBytes 10 cw := by
  rw [BitVec.toNat_ofNat]
  exact leBytes_mod 10 cw

theorem copiesMatch_undamaged (width : Nat) : copiesMatch width 0#896 = true :=
  List.all_eq_true.2 fun _ _ => by simp

/-! ### Transfers (12 R325-R328) -/

/-- The control word with a transfer: `back` is the receiver's own direction, whose acknowledgement and next count it takes. -/
def sentWord (w : OnWire) (back : ClDir) : Nat :=
  controlWord w.valid w.x.cls w.x.data w.x.count w.x.seq (ackField back) back.nak (creditTurn back)
    (smGet 0 back.freed (creditTurn back))

/-- The other direction notes the acknowledgement and the credit count that go with a transfer of direction `toB`. -/
def wordNoted (k : Nat) (toB : Bool) (s : State) : State :=
  let back := ClDir.of (linkAt s k) (!toB)
  modLinkAt k (fun l => l.modDir (!toB) fun d => { d with
    crSent := smPut 0 d.crSent (creditTurn back) (smGet 0 back.freed (creditTurn back))
    crTurn := (creditTurn back + 1) % 12, ackSent := ackField d, nakSent := d.nak }) s

/-- What an accepted transfer changes: it is delivered, and its acknowledgement or `NAK` and its credit count are applied. -/
def arrivalApplied (k : Nat) (toB : Bool) (x : Xfer) (rcw : Nat) (s : State) : State × Bool :=
  let exp := (ClDir.of (linkAt s k) toB).expSeq
  let s1 := if bitOf rcw 0 then
      rxDeliver k toB { x with seq := exp, cls := bitsOf rcw 1 3, data := bitOf rcw 4, count := bitsOf rcw 5 7 } s
    else s
  let s2 := if bitOf rcw 44 then s1 else applyAck k (!toB) (bitsOf rcw 28 16) s1
  let s3 := if bitOf rcw 49 then
      modLinkAt k (fun l => l.modDir (!toB)
        (creditReturned (2 * bitsOf rcw 45 3 + bitsOf rcw 48 1) (bitsOf rcw 50 16))) s2
    else s2
  if bitOf rcw 44 then applyNak k (!toB) (bitsOf rcw 28 16) s3 else (s3, false)

section
variable {k rcw : Nat} {toB invalid : Bool} {what : LinkSend} {err : BitVec 896} {w : OnWire} {x : Xfer} {s s1 t : State}

/-- Below the replay limit a transfer starts no reset. -/
theorem transferred_of_transfer (h : transfer k toB what err invalid s = (t, false)) :
    transferred k toB what err invalid s = t := by
  simp [transferred, h]

/-- A transfer with the number expected is accepted. -/
theorem goodArrival_expected (hseq : bitsOf rcw 12 16 = (ClDir.of (linkAt s k) toB).expSeq) :
    goodArrival k toB x rcw s = arrivalApplied k toB x rcw s :=
  if_neg fun h => h.2 hseq

variable (hup : (linkAt s k).state = .active)
include hup

theorem transfer_unsent (hsend : linkSend k toB what s = (s1, none)) :
    transfer k toB what err invalid s = (s1, false) := by
  unfold transfer
  rw [if_neg (not_not_intro hup), hsend]

/-- An invalid codeword is counted, and the receiver asks for a replay. -/
theorem transfer_invalid (hsend : linkSend k toB what s = (s1, some w)) :
    transfer k toB what err true s = (rxDiscard k toB (bumpLink k 2 (wordNoted k toB s1)), false) := by
  unfold transfer
  rw [if_neg (not_not_intro hup), hsend]
  rfl

/-- What arrives as it was sent passes its check. -/
theorem transfer_undamaged (hsend : linkSend k toB what s = (s1, some w)) :
    transfer k toB what 0#896 false s =
      goodArrival k toB w.x (BitVec.ofNat 80 (sentWord w (ClDir.of (linkAt s1 k) (!toB)))).toNat (wordNoted k toB s1) := by
  unfold transfer
  rw [if_neg (not_not_intro hup), hsend]
  simp only [BitVec.extractLsb'_zero, BitVec.xor_zero, leBytes_controlWord, copiesMatch_undamaged, beq_self_eq_true,
    Bool.and_true, Bool.false_eq_true, Bool.true_eq_false, if_false]
  rfl

end

/-! ### The steps of a reset (12 R331-R333) -/

/-- A flag that is a test: the link fails where the test holds. -/
theorem linkJudged_decide {c : Prop} [Decidable c] (k : Nat) (t : State) :
    linkJudged k (t, decide c) = (if c then linkBroken k else fun s => s) t := by
  by_cases h : c <;> simp [linkJudged, h]

section
variable {k n : Nat} {s : State}

/-- In use, a link that is asked for a reset begins one, and its earlier failures stay counted. -/
theorem linkResetReq_active {byB : Bool} {cause : Nat} (hup : (linkAt s k).state = .active) :
    linkResetReq k byB cause s = (modLinkAt k (fun l => { l with
      state := .reset, step := 1, byB := byB, fails := (linkAt s k).fails, ab := rxForget l.ab, ba := rxForget l.ba
      lastReset := (if byB then linkEndB k else linkEndA k) + cause * 2 ^ 8 + 1 * 2 ^ 16
      counts := bump 64 l.counts 4 1 }) s, decide (3 ≤ (linkAt s k).fails)) := by
  simp [linkResetReq, linkReset, hup]

variable (hreset : (linkAt s k).state = .reset)
include hreset

/-- A link in step `n` of a reset passes the test that the step's command begins with. -/
theorem in_reset_step (hstep : (linkAt s k).step = n) : ¬((linkAt s k).state ≠ .reset ∨ (linkAt s k).step ≠ n) := by
  simp [hreset, hstep]

/-- Where both directions keep a width, the failed groups are recorded. -/
theorem linkTested_wide {badAB badBA : BitVec 78} (hstep : (linkAt s k).step = 1) (hab : (widthOf badAB).isSome = true)
    (hba : (widthOf badBA).isSome = true) : linkTested k badAB badBA s =
      (modLinkAt k (fun l => { l with
        step := 3, ab := { l.ab with bad := badAB }, ba := { l.ba with bad := badBA } }) s, false) := by
  unfold linkTested
  rw [if_neg (in_reset_step hreset hstep)]
  simp [Option.isNone_eq_false_iff.2 hab, Option.isNone_eq_false_iff.2 hba]

/-- `READY` at both ends puts the link in use, so its command ends `OK`. -/
theorem linkReadied_active (hstep : (linkAt s k).step = 5) :
    linkReadied k s = cmdEnd 0 (P.CL_CMD + 256 * k) 0x00 0 (linkResumes k s) := by
  have hresumed : (linkAt (linkResumes k s) k).state = .active := by
    unfold linkResumes
    rw [if_neg (in_reset_step hreset hstep), linkAt_modLinkAt]
  exact if_pos hresumed

end

/-! ### The obligation -/

/-- Settles O37: each clause is the equation of its handler's case. -/
theorem linkResetStepsAct : Obligations.LinkResetStepsAct :=
  ⟨fun _ _ _ _ _ _ hup hsend => congrArg Host.Outcome.next (transferred_of_transfer (transfer_unsent hup hsend)),
   fun _ _ _ _ _ _ _ hup hsend => congrArg Host.Outcome.next (transferred_of_transfer (transfer_invalid hup hsend)),
   fun k toB _ _ _ _ hup hsend _ hseq => congrArg
      (fun q : State × Bool => Host.Outcome.next (if q.2 then linkJudged k.val (linkReset k.val toB 2 q.1) else q.1))
      ((transfer_undamaged hup hsend).trans (goodArrival_expected hseq)),
   fun k _ _ _ hup => congrArg Host.Outcome.next
      ((congrArg (linkJudged k.val) (linkResetReq_active hup)).trans (linkJudged_decide _ _)),
   fun k _ _ _ hreset hstep hab hba => congrArg (fun q => Host.Outcome.next (linkJudged k.val q))
      (linkTested_wide hreset hstep hab hba),
   fun k _ hreset hstep => congrArg (fun q => Host.Outcome.next (linkJudged k.val q))
      (if_neg (in_reset_step hreset hstep)),
   fun k _ hreset hstep => congrArg (fun q => Host.Outcome.next (linkJudged k.val q))
      (if_neg (in_reset_step hreset hstep)),
   fun _ _ hreset hstep => congrArg Host.Outcome.next (if_neg (in_reset_step hreset hstep)),
   fun k _ hreset hstep => congrArg Host.Outcome.next ((linkReadied_active hreset hstep).trans
      (congrArg (cmdEnd 0 (P.CL_CMD + 256 * k.val) 0x00 0) (if_neg (in_reset_step hreset hstep)))),
   fun _ _ hreset => congrArg Host.Outcome.next (if_pos hreset)⟩

end Sys2Proof.Machine
end

section
/-! The invariant: it holds at reset, and every step keeps it (17 R418, 17 R425, 18 R436). -/

namespace Sys2Proof.Machine

section
variable {q : List Instr} {s : State}

theorem Keeps.inv (h : Keeps q s) : Inv s := ⟨h.dram, h.mgmt, h.replies, h.alerts, h.latches⟩

/-- The command at the front of the queue runs from a state that keeps the queue's rest. -/
theorem Inv.keeps_popped (h : Inv s) : Keeps q { s with pending := q } := by
  obtain ⟨hdram, hmgmt, hreplies, halerts, hlatches⟩ := h
  exact ⟨rfl, hdram, hreplies, halerts, hlatches, hmgmt⟩

theorem Inv.keeps (h : Inv s) : Keeps s.pending s := h.keeps_popped

/-! ### What a tick and a command keep -/

theorem keeps_clocksTick (h : Keeps q s) : Keeps q (clocksTick s) :=
  ⟨h.queue, h.dram, h.replies, h.alerts, h.latches, h.mgmt⟩

theorem keeps_idle (h : Keeps q s) : Keeps q (idle s) :=
  keeps_clocksTick (keeps_votesSettle (keeps_portsRetrain (keeps_unitsSettle h)))

/-- Every command answers a next state, and keeps what its operations keep. -/
theorem keeps_exec (h : Keeps q s) (c : Instr) : ∃ t, exec c s = .next t ∧ Keeps q t :=
  match c with
  | .dictRead .. => keeps_execDictRead h
  | .dictWrite .. => keeps_execDictWrite h
  | .dictSeqRead .. => keeps_execDictSeqRead h
  | .paramWrite .. => keeps_execParamWrite h
  | .selectRow .. => keeps_execSelectRow h
  | .commit .. => keeps_execCommit h
  | .commitDiscard .. => keeps_execCommitDiscard h
  | .ownerCommit .. => keeps_execOwnerCommit h
  | .fmPortWrite .. => keeps_execFmPortWrite h
  | .lodgeCreate .. => keeps_execLodgeCreate h
  | .lodgePrepareDone .. => keeps_execLodgePrepareDone h
  | .lodgeChange .. => keeps_execLodgeChange h
  | .isolatedRewriteLine .. => keeps_execIsolatedRewriteLine h
  | .destroy .. => keeps_execDestroy h
  | .destroyForced .. => keeps_execDestroyForced h
  | .requestRelease .. => keeps_execRequestRelease h
  | .reoffer .. => keeps_execReoffer h
  | .destroyOfferTimeout .. => keeps_execDestroyOfferTimeout h
  | .destroyRecordsGone .. => keeps_execDestroyRecordsGone h
  | .destroyWipeDone .. => keeps_execDestroyWipeDone h
  | .addDynamicCapacityResponse .. => keeps_execAddDynamicCapacityResponse h
  | .releaseDynamicCapacity .. => keeps_execReleaseDynamicCapacity h
  | .extentDrainDone .. => keeps_execExtentDrainDone h
  | .identifyMemoryDevice .. => keeps_execIdentifyMemoryDevice h
  | .getSupportedLogs .. => keeps_execGetSupportedLogs h
  | .getLog .. => keeps_execGetLog h
  | .getEventRecords .. => keeps_execGetEventRecords h
  | .clearEventRecords .. => keeps_execClearEventRecords h
  | .getDynamicCapacityConfiguration .. => keeps_execGetDynamicCapacityConfiguration h
  | .getDynamicCapacityExtentList .. => keeps_execGetDynamicCapacityExtentList h
  | .fmIdentify .. => keeps_execFmIdentify h
  | .backgroundOperationStatus .. => keeps_execBackgroundOperationStatus h
  | .getResponseMessageLimit .. => keeps_execGetResponseMessageLimit h
  | .identifySwitchDevice .. => keeps_execIdentifySwitchDevice h
  | .getPhysicalPortState .. => keeps_execGetPhysicalPortState h
  | .assertPerst .. => keeps_execAssertPerst h
  | .deassertPerst .. => keeps_execDeassertPerst h
  | .resetPpb .. => keeps_execResetPpb h
  | .getVirtualCxlSwitchInfo .. => keeps_execGetVirtualCxlSwitchInfo h
  | .bindVppb .. => keeps_execBindVppb h
  | .unbindVppbWait .. => keeps_execUnbindVppbWait h
  | .unbindVppbManaged .. => keeps_execUnbindVppbManaged h
  | .unbindVppbSurprise .. => keeps_execUnbindVppbSurprise h
  | .getDcdInfo .. => keeps_execGetDcdInfo h
  | .getHostDcRegionConfiguration .. => keeps_execGetHostDcRegionConfiguration h
  | .setDcRegionConfiguration .. => keeps_execSetDcRegionConfiguration h
  | .getDcRegionExtentLists .. => keeps_execGetDcRegionExtentLists h
  | .initiateDynamicCapacityAdd .. => keeps_execInitiateDynamicCapacityAdd h
  | .initiateDynamicCapacityRelease .. => keeps_execInitiateDynamicCapacityRelease h
  | .memrd .. => keeps_execMemrd h
  | .meminv .. => keeps_execMeminv h
  | .memwr .. => keeps_execMemwr h
  | .memwrptl .. => keeps_execMemwrptl h
  | .memclnevct .. => keeps_execMemclnevct h
  | .birsp .. => keeps_execBirsp h
  | .biconflict .. => keeps_execBiconflict h
  | .fetchAdd .. => keeps_execFetchAdd h
  | .atomSwap .. => keeps_execAtomSwap h
  | .atomCas .. => keeps_execAtomCas h
  | .dspBar2Request .. => keeps_execDspBar2Request h
  | .cxlIoRoute .. => keeps_execCxlIoRoute h
  | .multicastWrite .. => keeps_execMulticastWrite h
  | .hdmDecoderCommit .. => keeps_execHdmDecoderCommit h
  | .stalledWriteResume .. => keeps_execStalledWriteResume h
  | .blankDone .. => keeps_execBlankDone h
  | .capReleaseRepeat .. => keeps_execCapReleaseRepeat h
  | .writeBack .. => keeps_execWriteBack h
  | .lineWriteOut .. => keeps_execLineWriteOut h
  | .nodeWriteBack .. => keeps_execNodeWriteBack h
  | .tierEpoch .. => keeps_execTierEpoch h
  | .sweepVisit .. => keeps_execSweepVisit h
  | .sweepPassEnd .. => keeps_execSweepPassEnd h
  | .moveStart .. => keeps_execMoveStart h
  | .moveSnapshotDone .. => keeps_execMoveSnapshotDone h
  | .moveEncodeDone .. => keeps_execMoveEncodeDone h
  | .moveVerifyDone .. => keeps_execMoveVerifyDone h
  | .movePlaceDone .. => keeps_execMovePlaceDone h
  | .moveCommit .. => keeps_execMoveCommit h
  | .evacuate .. => keeps_execEvacuate h
  | .reopen .. => keeps_execReopen h
  | .wingEmpty .. => keeps_execWingEmpty h
  | .wingShut .. => keeps_execWingShut h
  | .autoReopen .. => keeps_execAutoReopen h
  | .wingReopenTrained .. => keeps_execWingReopenTrained h
  | .dictStoreLoad .. => keeps_execDictStoreLoad h
  | .train .. => keeps_execTrain h
  | .trainComplete .. => keeps_execTrainComplete h
  | .dictRetire .. => keeps_execDictRetire h
  | .dictRetireCheck .. => keeps_execDictRetireCheck h
  | .cancel .. => keeps_execCancel h
  | .enable .. => keeps_execEnable h
  | .disable .. => keeps_execDisable h
  | .qReset .. => keeps_execQReset h
  | .sqTail .. => keeps_execSqTail h
  | .cqHead .. => keeps_execCqHead h
  | .jobFetch .. => keeps_execJobFetch h
  | .tokenRefill .. => keeps_execTokenRefill h
  | .compress .. => keeps_execCompress h
  | .decompress .. => keeps_execDecompress h
  | .exportJob .. => keeps_execExportJob h
  | .exportDict .. => keeps_execExportDict h
  | .resume .. => keeps_execResume h
  | .releaseCtx .. => keeps_execReleaseCtx h
  | .exportPage .. => keeps_execExportPage h
  | .exportRecordArrive .. => keeps_execExportRecordArrive h
  | .jobComplete .. => keeps_execJobComplete h
  | .install .. => keeps_execInstall h
  | .wipe .. => keeps_execWipe h
  | .rekey .. => keeps_execRekey h
  | .keyTransport .. => keeps_execKeyTransport h
  | .rekeyRequest .. => keeps_execRekeyRequest h
  | .rekeyVisit .. => keeps_execRekeyVisit h
  | .rekeyFinish .. => keeps_execRekeyFinish h
  | .spdmRequest .. => keeps_execSpdmRequest h
  | .ideKm .. => keeps_execIdeKm h
  | .ideCheckFail .. => keeps_execIdeCheckFail h
  | .biTimeout .. => keeps_execBiTimeout h
  | .absenceTimeout .. => keeps_execAbsenceTimeout h
  | .deadAgentScanDone .. => keeps_execDeadAgentScanDone h
  | .cohReset .. => keeps_execCohReset h
  | .atomCoolTick .. => keeps_execAtomCoolTick h
  | .linkUp .. => keeps_execLinkUp h
  | .linkDown .. => keeps_execLinkDown h
  | .hostHotReset .. => keeps_execHostHotReset h
  | .secondaryBusReset .. => keeps_execSecondaryBusReset h
  | .flr .. => keeps_execFlr h
  | .portPerstN .. => keeps_execPortPerstN h
  | .slotPowerOff .. => keeps_execSlotPowerOff h
  | .linkDisable .. => keeps_execLinkDisable h
  | .linkEnable .. => keeps_execLinkEnable h
  | .retrain .. => keeps_execRetrain h
  | .hotReset .. => keeps_execHotReset h
  | .perstAssert .. => keeps_execPerstAssert h
  | .perstDeassert .. => keeps_execPerstDeassert h
  | .bind .. => keeps_execBind h
  | .unbindWait .. => keeps_execUnbindWait h
  | .unbindManaged .. => keeps_execUnbindManaged h
  | .unbindSurprise .. => keeps_execUnbindSurprise h
  | .egressAdmit .. => keeps_execEgressAdmit h
  | .egressSend .. => keeps_execEgressSend h
  | .sampleFlush .. => keeps_execSampleFlush h
  | .sampleApply .. => keeps_execSampleApply h
  | .prioMirrorUpdate .. => keeps_execPrioMirrorUpdate h
  | .missWindow .. => keeps_execMissWindow h
  | .homeQueueSelect .. => keeps_execHomeQueueSelect h
  | .dramApply .. => keeps_execDramApply h
  | .dramApplyTest .. => keeps_execDramApplyTest h
  | .channelTrained .. => keeps_execChannelTrained h
  | .dramCommandIssue .. => keeps_execDramCommandIssue h
  | .refDue .. => keeps_execRefDue h
  | .moduleTempRead .. => keeps_execModuleTempRead h
  | .tableValid .. => keeps_execTableValid h
  | .caParityAlert .. => keeps_execCaParityAlert h
  | .caReplay .. => keeps_execCaReplay h
  | .dramReadReturn .. => keeps_execDramReadReturn h
  | .mergeHold .. => keeps_execMergeHold h
  | .scrubRead .. => keeps_execScrubRead h
  | .ownerSearch .. => keeps_execOwnerSearch h
  | .retireFrame .. => keeps_execRetireFrame h
  | .retireRow .. => keeps_execRetireRow h
  | .retireBank .. => keeps_execRetireBank h
  | .retireClear .. => keeps_execRetireClear h
  | .corridorTransfer .. => keeps_execCorridorTransfer h
  | .clReset .. => keeps_execClReset h
  | .resetReq .. => keeps_execResetReq h
  | .linkGroupTestDone .. => keeps_execLinkGroupTestDone h
  | .linkMap .. => keeps_execLinkMap h
  | .linkCredits .. => keeps_execLinkCredits h
  | .linkReady .. => keeps_execLinkReady h
  | .corridorResetTimeout .. => keeps_execCorridorResetTimeout h
  | .worldCall .. => keeps_execWorldCall h
  | .worldCallReply .. => keeps_execWorldCallReply h
  | .stewardWdog .. => keeps_execStewardWdog h
  | .keeperResume .. => keeps_execKeeperResume h
  | .regionCommit .. => keeps_execRegionCommit h
  | .debugAccess .. => keeps_execDebugAccess h
  | .presenceN .. => keeps_execPresenceN h
  | .presenceEnd .. => keeps_execPresenceEnd h
  | .sealLoopSample .. => keeps_execSealLoopSample h
  | .provision .. => keeps_execProvision h
  | .deploy .. => keeps_execDeploy h
  | .enterService .. => keeps_execEnterService h
  | .leaveService .. => keeps_execLeaveService h
  | .lcRetire .. => keeps_execLcRetire h
  | .devReset .. => keeps_execDevReset h
  | .unitWdog .. => keeps_execUnitWdog h
  | .takeOut .. => keeps_execTakeOut h
  | .drainComplete .. => keeps_execDrainComplete h
  | .takeoverScanDone .. => keeps_execTakeoverScanDone h
  | .rebuildLine .. => keeps_execRebuildLine h
  | .mirrorRestore .. => keeps_execMirrorRestore h
  | .rejoin .. => keeps_execRejoin h
  | .rejoinTestDone .. => keeps_execRejoinTestDone h
  | .unitProbation .. => keeps_execUnitProbation h
  | .alertHold .. => keeps_execAlertHold h
  | .seatChange .. => keeps_execSeatChange h
  | .mainSample .. => keeps_execMainSample h
  | .fastTrip .. => keeps_execFastTrip h
  | .mosfetCheck .. => keeps_execMosfetCheck h
  | .hsClear .. => keeps_execHsClear h
  | .branchRampStart .. => keeps_execBranchRampStart h
  | .branchPowerGood .. => keeps_execBranchPowerGood h
  | .branchRampTimeout .. => keeps_execBranchRampTimeout h
  | .branchSample .. => keeps_execBranchSample h
  | .branchTrip .. => keeps_execBranchTrip h
  | .branchOff .. => keeps_execBranchOff h
  | .fetFault .. => keeps_execFetFault h
  | .voteChange .. => keeps_execVoteChange h
  | .psShelfVote .. => keeps_execPsShelfVote h
  | .engineGate .. => keeps_execEngineGate h
  | .selfRefreshEntry .. => keeps_execSelfRefreshEntry h
  | .psVcore .. => keeps_execPsVcore h
  | .psPace .. => keeps_execPsPace h
  | .psDdrRate .. => keeps_execPsDdrRate h
  | .psSerdesCap .. => keeps_execPsSerdesCap h
  | .railSettled .. => keeps_execRailSettled h
  | .railSettleTimeout .. => keeps_execRailSettleTimeout h
  | .courierRead .. => keeps_execCourierRead h
  | .courierWrite .. => keeps_execCourierWrite h
  | .reply .. => keeps_execReply h
  | .alert .. => keeps_execAlert h
  | .assign .. => keeps_execAssign h
  | .enumIn .. => keeps_execEnumIn h
  | .release .. => keeps_execRelease h
  | .crStallTimeout .. => keeps_execCrStallTimeout h
  | .crBitNs .. => keeps_execCrBitNs h
  | .cut .. => keeps_execCut h
  | .gbRecordWrite .. => keeps_execGbRecordWrite h
  | .gbFigures .. => keeps_execGbFigures h
  | .junctionSensorRead .. => keeps_execJunctionSensorRead h
  | .thermalShutdown .. => keeps_execThermalShutdown h
  | .regulatorPowerGood .. => keeps_execRegulatorPowerGood h
  | .regulatorTimeout .. => keeps_execRegulatorTimeout h
  | .powerGoodLoss .. => keeps_execPowerGoodLoss h
  | .standbyRise .. => keeps_execStandbyRise h
  | .bootFirmwareStart .. => keeps_execBootFirmwareStart h
  | .stewardCoreRestartDone .. => keeps_execStewardCoreRestartDone h
  | .cxlMemRoute .. => keeps_execCxlMemRoute h
  | .sramPatrol .. => keeps_execSramPatrol h
  | .capStatusUpdate => keeps_execCapStatusUpdate h
  | .scaleNoticeHold => keeps_execScaleNoticeHold h
  | .actTableClear => keeps_execActTableClear h
  | .retireComplete => keeps_execRetireComplete h
  | .keeperWdog => keeps_execKeeperWdog h
  | .lockstepMismatch => keeps_execLockstepMismatch h
  | .presenceWindowEnd => keeps_execPresenceWindowEnd h
  | .devResetN => keeps_execDevResetN h
  | .heartbeatTimeout => keeps_execHeartbeatTimeout h
  | .hwmRefresh => keeps_execHwmRefresh h
  | .hsSeatDebounce => keeps_execHsSeatDebounce h
  | .hsInsertDelay => keeps_execHsInsertDelay h
  | .mainPowerGood => keeps_execMainPowerGood h
  | .hsRetryTime => keeps_execHsRetryTime h
  | .retryCountClear => keeps_execRetryCountClear h
  | .nightEntry => keeps_execNightEntry h
  | .nightEntryAdvance => keeps_execNightEntryAdvance h
  | .nightExit => keeps_execNightExit h
  | .nightExitAdvance => keeps_execNightExitAdvance h
  | .offEntry => keeps_execOffEntry h
  | .wakeTimer => keeps_execWakeTimer h
  | .wakeHoldExpire => keeps_execWakeHoldExpire h
  | .hsAlert => keeps_execHsAlert h
  | .enumOutRaise => keeps_execEnumOutRaise h
  | .railHoldRelease => keeps_execRailHoldRelease h
  | .gbHourCut => keeps_execGbHourCut h
  | .tempSample => keeps_execTempSample h
  | .flashWriteDone => keeps_execFlashWriteDone h
  | .thermalRecovery => keeps_execThermalRecovery h
  | .standbyLoss => keeps_execStandbyLoss h
  | .uncorrectableInstructionFetch => keeps_execUncorrectableInstructionFetch h
  | .courierBusIdle => keeps_execCourierBusIdle h
  | .enumInHeldHigh => keeps_execEnumInHeldHigh h

end

/-! ### The obligations -/

/-- Settles O42: memory and the three lists are empty. -/
theorem resetHoldsInvariant : Obligations.ResetHoldsInvariant :=
  ⟨rfl, rfl, Nat.zero_le 16, Nat.zero_le 64, Nat.zero_le 2⟩

/-- Settles O43: an empty queue ticks, and a command runs from the state without it. -/
theorem stepKeepsInvariant : Obligations.StepKeepsInvariant := by
  intro s t hinv hstep
  cases hq : s.pending with
  | nil =>
    rw [step_of_no_command hq] at hstep
    obtain rfl := Host.Outcome.next.inj hstep
    exact (keeps_idle hinv.keeps).inv
  | cons c rest =>
    obtain ⟨u, hexec, hkeeps⟩ := keeps_exec (hinv.keeps_popped (q := rest)) c
    have hnext : step s = exec c { s with pending := rest } := by unfold step; rw [hq]
    rw [hnext, hexec] at hstep
    obtain rfl := Host.Outcome.next.inj hstep
    exact hkeeps.inv

end Sys2Proof.Machine
end

section
/-! What the Courier node does: enumeration, replies, alerts and the bus, one equation for each case of the handlers of
Machine/Courier.lean (17 R412-R427). -/

namespace Sys2Proof.Machine

/-! ### Frames to the node (R415, R421, R422) -/

section
variable {dest src : BitVec 18} {crc : BitVec 16} {s : State}

/-- Nothing is wrong with a frame without data that carries its own CRC and ends where it must. -/
theorem crFrameFault_good {d x func param : Nat} (hcrc : crc = crFrameCrc d x func param []) :
    crFrameFault d x func param [] crc true true = none := by
  simp [crFrameFault, hcrc]

theorem takeAssign_heard (hvstby : s.sl.vstby = true) (hidle : s.cr.busIdle = true) (hfree : s.cr.address = none)
    (hheld : s.cr.enumInHeld = true) (hcrc : crc = crFrameCrc dest.toNat src.toNat 5 0 []) :
    takeAssign dest src crc true s = emit (.courier 6 src.toNat dest.toNat 0 (identityBytes s)) (bumpCr 1
      (modCr (fun c => { c with address := some dest.toNat, ackSent := true, duplicate := false }) (frameTaken s))) := by
  unfold takeAssign
  rw [if_neg (by simp [hvstby, hidle, hfree, hheld]), crFrameFault_good hcrc]

theorem takeRelease_heard (hhere : frameHere dest s = true) (hcrc : crc = crFrameCrc dest.toNat src.toNat 7 0 []) :
    takeRelease dest src crc true s =
      modCr (fun c => { c with address := none, duplicate := false, enumOut := false, ackSent := false }) (frameTaken s) := by
  unfold takeRelease
  rw [if_neg (by simp [hhere]), crFrameFault_good hcrc]

end

/-! ### Frames of the node (R419, R424) -/

section
variable {s : State}

/-- An access has been answered: its reply goes out where the arbitration is won. -/
theorem sendReply_ready {arb : Arb} {r : CrReply} {rsp : Resp} (hmay : maySend s = true) (hready : replyReady s = some r)
    (hresp : r.resp = some rsp) : sendReply arb s = if arb = .won then replySent r rsp s else arbLost arb s := by
  unfold sendReply
  rw [if_neg (by simp [hmay]), hready]
  dsimp only
  rw [hresp]

theorem sendAlert_won {a : Alert} {rest : List Alert} (hmay : maySend s = true) (hdest : pnum s P.CR_ALERT_DEST ≠ 0xFFFFFFFF)
    (hwaiting : s.cr.waiting = a :: rest) :
    sendAlert .won s = emit (.courier 4 (pnum s P.CR_ALERT_DEST) (s.cr.address.getD 0) 0 (alertBytes a))
      (bumpCr 1 (modCr (fun c => { c with waiting := rest }) s)) := by
  unfold sendAlert
  rw [if_neg (by simp [hmay, hdest]), hwaiting]
  exact if_pos rfl

/-! ### The lines and the bus (R412, R415, R421, R427) -/

theorem stallTimeout_allowed {railHeld : Bool} (hvstby : s.sl.vstby = true) (hlimit : pnum s P.CR_STALL_TIMEOUT ≠ 0) :
    stallTimeout railHeld s = if railHeld then
        raiseAlert 5 0 0 0 1 (gbAdd 3500 1 (modCr (fun c => { c with railHeld := true }) s))
      else raiseAlert 5 0 0 0 3 (frameDiscard false s) :=
  if_neg (by simp [hvstby, hlimit])

/-- A change whose condition holds is made. -/
theorem onlyIf_holds {b : Bool} {f : State → State} (h : b = true) : onlyIf b f s = f s := if_pos h

end

/-! ### The obligation -/

/-- Settles O18: each clause is the equation of its handler's case. -/
theorem courierEventsAct : Obligations.CourierEventsAct :=
  ⟨fun _ _ _ _ hvstby hidle hfree hheld hcrc => congrArg Host.Outcome.next
      (takeAssign_heard hvstby hidle hfree hheld hcrc),
   fun _ _ _ _ hhere hcrc => congrArg Host.Outcome.next (takeRelease_heard hhere hcrc),
   fun _ _ _ hmay hready hresp => congrArg Host.Outcome.next (sendReply_ready hmay hready hresp),
   fun _ _ _ hmay hready hresp => congrArg Host.Outcome.next (sendReply_ready hmay hready hresp),
   fun _ _ _ hmay hready hresp => congrArg Host.Outcome.next (sendReply_ready hmay hready hresp),
   fun _ _ _ hmay hdest hwaiting => congrArg Host.Outcome.next (sendAlert_won hmay hdest hwaiting),
   fun _ _ => rfl,
   fun _ hhigh => congrArg Host.Outcome.next (if_pos hhigh),
   fun _ hheld hack haddress => congrArg Host.Outcome.next (if_pos ⟨hheld, hack, haddress⟩),
   fun _ hvstby hlimit => congrArg Host.Outcome.next (stallTimeout_allowed hvstby hlimit),
   fun _ hvstby hlimit => congrArg Host.Outcome.next (stallTimeout_allowed hvstby hlimit),
   fun _ hvstby => congrArg Host.Outcome.next (onlyIf_holds hvstby),
   fun _ hvstby => congrArg Host.Outcome.next (onlyIf_holds hvstby)⟩

end Sys2Proof.Machine
end

section
/-! Cuts and records of the guest book, and the inputs of physical presence: one equation for each case of their handlers
(13 R351, 16 R404, 18 R431-R436). -/

namespace Sys2Proof.Machine

/-! ### Cuts and figures (18 R432, R435, R436) -/

section
variable {s : State}

theorem execGbHourCut_powered (hvstby : s.sl.vstby = true) : execGbHourCut s = .next (gbCut 1 s.gb.major s) :=
  congrArg Host.Outcome.next (onlyIf_holds hvstby)

theorem gbFigures_powered {d : Nat} (hpower : diePowered s d = true) (hunit : unitServes s (368 + d) = true) :
    gbFigures d s = modGb (fun g => { g with
      dieFigs := smErase g.dieFigs d
      figs := (smGet [] g.dieFigs d).foldl (fun m e => smPut 0 m e.1 (smGet 0 m e.1 + e.2)) g.figs }) s :=
  if_neg (by simp [hpower, hunit])

end

/-! ### Records (18 R431) -/

/-- Where the next record of the circulating area goes: on in the present sector, or to the start of the next good one. -/
def gbSlot (sec : Nat) (s : State) : Nat := if sec = s.gb.circPos / 15 then s.gb.circPos else 15 * sec

/-- A write that enters a sector which holds records erases it first. -/
def gbSectorReady (sec : Nat) (s : State) : State :=
  if gbSlot sec s % 15 = 0 ∧ gbHolds s sec = true then
    modSector (288 + sec) (fun x => { x with erases := min 100000 (x.erases + 1) })
      (modGb (fun g => { g with circ := g.circ.filter fun e => e.1 / 15 != sec }) s)
  else s

/-- A record that verifies in a sector with erases left stands in its slot, and its copy in the permanent area. -/
theorem gbRecordWrite_verified {c : GbCut} {rest : List GbCut} {kind : Nat} {ks : List Nat} {sec : Nat} {okPerm : Bool}
    {s : State} (hvstby : s.sl.vstby = true) (hflash : s.sl.flashOk = true) (hlatched : s.gb.latches = c :: rest)
    (hkinds : c.kinds = kind :: ks) (hsector : gbNextSector s (s.gb.circPos / 15) = some sec)
    (herases : (gbSector (gbSectorReady sec s) (288 + sec)).erases < 100000) :
    gbRecordWrite true okPerm s = gbPop (gbPermanent okPerm (gbRecord c kind s) (modGb (fun g => { g with
      circ := smPut 0 g.circ (gbSlot sec s) (gbRecord c kind s), circPos := (gbSlot sec s + 1) % 16500 })
        (gbSectorReady sec s))) := by
  unfold gbRecordWrite
  rw [if_neg (by simp [hvstby, hflash]), hlatched]
  simp only [hkinds, hsector, Bool.and_eq_true, decide_eq_true_eq]
  exact (if_neg nofun).trans (if_neg (Nat.not_le_of_lt herases))

/-! ### The obligation -/

/-- Settles O19: each clause is the equation of its handler's case. -/
theorem guestBookAndPresenceEventsAct : Obligations.GuestBookAndPresenceEventsAct :=
  ⟨fun _ hvstby hroom => (execGbHourCut_powered hvstby).trans (congrArg Host.Outcome.next (if_neg (Nat.not_le_of_lt hroom))),
   fun _ hvstby hfull => (execGbHourCut_powered hvstby).trans (congrArg Host.Outcome.next (if_pos hfull)),
   fun _ _ _ _ _ _ _ hvstby hflash hlatched hkinds hsector herases => congrArg Host.Outcome.next
      (gbRecordWrite_verified hvstby hflash hlatched hkinds hsector herases),
   fun _ _ hpower hunit => congrArg Host.Outcome.next (gbFigures_powered hpower hunit),
   fun _ hvstby => congrArg Host.Outcome.next (onlyIf_holds hvstby),
   fun _ hvstby => congrArg Host.Outcome.next (if_neg (by simp [hvstby])),
   fun _ hvstby => congrArg Host.Outcome.next (if_neg (by simp [hvstby])),
   fun _ => rfl,
   fun _ _ hvstby => congrArg Host.Outcome.next (if_pos hvstby)⟩

end Sys2Proof.Machine
end

section
/-! The main input: its insertion sequence, its breaker and its retries, one equation for each case of the handlers of
Machine/HotSwap.lean and of main power good (15 R377-R391). -/

namespace Sys2Proof.Machine

/-! ### Seating (R378) -/

section
variable {s : State}

/-- Both inputs high on an unseated device: the sequence starts with no retries made. -/
theorem seatChange_seated (hstate : s.hs.state = .unseated) :
    seatChange true true s = bumpHs 0 (modHs (fun h => { h with state := .seating, retries := 0 })
      (modHs (fun h => { h with seatA := true, seatB := true }) s)) := by
  have hheld : ¬(true && true) = false := by decide
  unfold seatChange
  rw [if_neg hheld, if_pos hstate]

theorem mainOpens_of_not_on {st : HsState} (hon : s.hs.state ≠ .on) : mainOpens st s = openMain st s := if_neg hon

/-- An input falls while neither the main input is `ON` nor a power state sleeps: the sequence ends, and is counted. -/
theorem seatChange_unseated {a b : Bool} (hopen : (a && b) = false) (hseated : s.hs.state ≠ .unseated)
    (hon : s.hs.state ≠ .on) (hentering : s.ps.state ≠ .entering) (hnight : s.ps.state ≠ .night)
    (hoff : s.ps.state ≠ .off) :
    seatChange a b s = modHs (fun h => { h with windowReturn := false })
      (openMain .unseated (bumpHs 5 (modHs (fun h => { h with seatA := a, seatB := b }) s))) := by
  have hrun : (s.hs.state = .on) = False := eq_false hon
  have hawake : (s.ps.state = .entering ∨ s.ps.state = .night ∨ s.ps.state = .off) = False := by
    simp [hentering, hnight, hoff]
  unfold seatChange
  rw [if_pos hopen, if_neg hseated]
  simp only [hrun, hawake, decide_false, onlyIf_false]
  exact congrArg (modHs _) (mainOpens_of_not_on hon)

end

/-! ### Samples (R382, R383, R391) -/

/-- What a sample stores: the measurement, the operating time, and the accumulators of both islands. -/
def mainMeasured (vin vmid vout : BitVec 16) (cur : IslandCurrents) (s : State) : State :=
  accumMain cur.other.toNat (opTick (measureMain vin.toNat vmid.toNat vout.toNat cur.active.toNat s))

/-- A current above the limit of an island is its fast trip. -/
theorem breakerCause_fast {s : State} {fast cur accum other accum2 : Nat} (h : fast < cur) :
    breakerCause s fast cur accum other accum2 = some 1 := if_pos (.inl h)

section
variable {vin vmid vout : BitVec 16} {cur : IslandCurrents} {s : State}

/-- With no gate on, no breaker trips: the state decides what the sample brings. -/
theorem mainSample_idle (hgate : mainGateOn (mainMeasured vin vmid vout cur s) = false)
    (hidle : (mainMeasured vin vmid vout cur s).hs.state = .tripped ∨ (mainMeasured vin vmid vout cur s).hs.state = .latched ∨
      (mainMeasured vin vmid vout cur s).hs.state = .unseated) :
    mainSample vin.toNat vmid.toNat vout.toNat cur.active.toNat cur.other.toNat s = mainMeasured vin vmid vout cur s := by
  unfold mainMeasured at hgate hidle ⊢
  unfold mainSample
  simp only [hgate, Bool.false_eq_true, if_false]
  rcases hidle with h | h | h <;> rw [h]

theorem mainSample_fast (hgate : mainGateOn (mainMeasured vin vmid vout cur s) = true)
    (hfast : pnum (mainMeasured vin vmid vout cur s) P.HS_FAST_TRIP < cur.active.toNat) :
    mainSample vin.toNat vmid.toNat vout.toNat cur.active.toNat cur.other.toNat s =
      mainTrip 1 (mainMeasured vin vmid vout cur s) := by
  unfold mainMeasured at hgate hfast ⊢
  unfold mainSample
  simp only [hgate, if_true, breakerCause_fast hfast]

/-- Within the voltage window, a sample ends the wait for it. -/
theorem mainSample_window (hgate : mainGateOn (mainMeasured vin vmid vout cur s) = false)
    (hstate : (mainMeasured vin vmid vout cur s).hs.state = .window)
    (hwindow : vinInWindow (mainMeasured vin vmid vout cur s) = true) :
    mainSample vin.toNat vmid.toNat vout.toNat cur.active.toNat cur.other.toNat s =
      modHs (fun h => { h with state := coolingOrDelay (mainMeasured vin vmid vout cur s), windowReturn := false })
        (mainMeasured vin vmid vout cur s) := by
  unfold mainMeasured at hgate hstate hwindow ⊢
  unfold mainSample
  simp only [hgate, Bool.false_eq_true, if_false]
  rw [hstate]
  exact if_pos hwindow

end

/-! ### The ramp and its end (R377, R380, R386) -/

section
variable {s : State}

theorem mosfetCheck_passed {midOff midOn vin rise : Nat} (hstate : s.hs.state = .check)
    (hpass : midOff < 1000 ∧ vin < midOn + 500 ∧ rise ≤ 500) : mosfetCheck midOff midOn vin rise s =
      modHs (fun h => { h with
        state := .ramp, gateA := true, gateB := true, fltN := false, plimUs := 0, rampUs := 0
        rampPlim := pnum s P.HS_FET_PLIM, rampPlimTime := pnum s P.HS_PLIM_TIME
        rampTimeout := pnum s P.HS_RAMP_TIMEOUT }) s :=
  (if_neg (not_not_intro hstate)).trans (if_pos hpass)

theorem mosfetCheck_failed {midOff midOn vin rise : Nat} (hstate : s.hs.state = .check)
    (hfail : ¬(midOff < 1000 ∧ vin < midOn + 500 ∧ rise ≤ 500)) : mosfetCheck midOff midOn vin rise s =
      logPlain 13 1 (bumpHs 7 (recordTrip 8 0 s.hs.current
        (modHs (fun h => { h with state := .latched, gateA := false, gateB := false, tripCause := 8, fltN := true }) s))) :=
  (if_neg (not_not_intro hstate)).trans (if_neg hfail)

/-- Power good where neither a thermal shutdown nor an exit waits for it: the reset that is due, or the start-up order. -/
theorem mainPowerGood_ramp (hstate : s.hs.state = .ramp) (hcool : s.sl.thermShutdown = false) (hexit : s.ps.state ≠ .exiting) :
    let s1 := modHs (fun h => { h with state := .on, onSince := s.slTime, peak := 0, windowReturn := false }) s
    mainPowerGood s = if 2 ≤ s.sl.resetArmed then deviceReset s.sl.resetArmed s1
      else railsDone (startRails .boot (modSl (fun l => { l with bootStage := .powering }) s1)) :=
  (if_neg (not_not_intro hstate)).trans ((if_neg (by simp [hcool])).trans (if_neg hexit))

end

/-! ### The obligation -/

/-- Settles O21: each clause is the equation of its handler's case. -/
theorem mainInputAct : Obligations.MainInputAct :=
  ⟨fun _ hstate => congrArg Host.Outcome.next (seatChange_seated hstate),
   fun _ _ _ hopen hseated hon hentering hnight hoff => congrArg Host.Outcome.next
      (seatChange_unseated hopen hseated hon hentering hnight hoff),
   fun _ hstate hseatA hseatB hflash => congrArg Host.Outcome.next (if_pos ⟨hstate, hseatA, hseatB, hflash⟩),
   fun _ _ _ _ _ hgate hidle => congrArg Host.Outcome.next (mainSample_idle hgate hidle),
   fun _ _ _ _ _ hgate hfast => congrArg Host.Outcome.next (mainSample_fast hgate hfast),
   fun _ _ _ _ _ hgate hstate hwindow => congrArg Host.Outcome.next (mainSample_window hgate hstate hwindow),
   fun _ _ hgate hfast => congrArg Host.Outcome.next (if_pos ⟨hgate, hfast⟩),
   fun _ hstate => congrArg Host.Outcome.next (if_pos hstate),
   fun _ _ _ _ _ hstate hpass => congrArg Host.Outcome.next (mosfetCheck_passed hstate hpass),
   fun _ _ _ _ _ hstate hfail => congrArg Host.Outcome.next (mosfetCheck_failed hstate hfail),
   fun _ hstate hcool hexit harmed => congrArg Host.Outcome.next
      ((mainPowerGood_ramp hstate hcool hexit).trans (if_neg (Nat.not_le_of_lt harmed))),
   fun _ hstate hcool hexit harmed => congrArg Host.Outcome.next
      ((mainPowerGood_ramp hstate hcool hexit).trans (if_pos harmed)),
   fun _ hstate hseatA hseatB => congrArg Host.Outcome.next (if_pos ⟨hstate, hseatA, hseatB⟩),
   fun _ hstate hhour => congrArg Host.Outcome.next (if_pos ⟨hstate, hhour⟩)⟩

end Sys2Proof.Machine
end

section
/-! The branches of the wings: one equation for each case of their handlers (15 R383-R391). -/

namespace Sys2Proof.Machine

section
variable {w : Nat} {s : State}

/-! ### The ramp (R387) -/

/-- Power good ends a ramp; behind it no wing reopens. -/
theorem branchGood_ramping (hramp : (branchAt s w).ramping = true) (hwing : (wingAt s w).state ≠ .reopening) :
    branchGood w s = modBranch w (fun b => { b with state := .on, ramping := false }) s :=
  (if_neg (by simp [hramp])).trans (if_neg fun h => hwing h.1)

/-! ### Samples and trips (R383, R389, R391) -/

section
variable {vout cur other : Nat}

theorem branchSampled_within (hnone : branchTripCause w cur other (measureBranch w vout cur other s) = none) :
    branchSampled w vout cur other s = measureBranch w vout cur other s := by
  simp only [branchSampled, hnone]

theorem branchSampled_trips {c : Nat} (hcause : branchTripCause w cur other (measureBranch w vout cur other s) = some c) :
    branchSampled w vout cur other s = branchTripped w c cur (measureBranch w vout cur other s) := by
  simp only [branchSampled, hcause]

end

/-- A current above `BR_FAST_TRIP` opens a gate that is on, but for one driven on after a `FET_FAULT`. -/
theorem branchTripEvent_fast {cur : Nat} (hgate : (branchAt s w).gate = true) (hfet : (branchAt s w).state ≠ .fetFault)
    (hfast : pnum s P.BR_FAST_TRIP < cur) :
    branchTripEvent w true cur s = branchTripped w 1 cur (modBranch w (fun b => { b with current := cur }) s) :=
  (if_neg (by simp [hgate, hfet])).trans (if_pos hfast)

/-! ### A branch whose gate is off (R388) -/

/-- A wing that is not on its way to be shut stays as it is when its branch conducts with its gate off. -/
theorem fetFault_conducts (hgate : (branchAt s w).gate = false) (hon : (branchAt s w).state = .on)
    (hwing : (wingAt s w).state ≠ .shuttering) : fetFault w s =
      logEvent 13 (96 + w) 3 none 0 (bumpHs 7 (modBranch w (fun y => { y with state := .fetFault, gate := true }) s)) :=
  (if_neg (by simp [hgate, hon])).trans (if_pos (.inl hwing))

end

/-! ### The obligation -/

/-- Settles O22: each clause is the equation of its handler's case. -/
theorem branchesAct : Obligations.BranchesAct :=
  ⟨fun _ _ hon hnone hnext => congrArg Host.Outcome.next (if_pos ⟨hon, hnone, hnext⟩),
   fun _ _ hramp hwing => congrArg Host.Outcome.next (branchGood_ramping hramp hwing),
   fun _ _ hramp => congrArg Host.Outcome.next (if_pos hramp),
   fun _ _ _ _ hnone => congrArg Host.Outcome.next (branchSampled_within hnone),
   fun _ _ _ _ _ hcause => congrArg Host.Outcome.next (branchSampled_trips hcause),
   fun _ _ _ hgate hfet hfast => congrArg Host.Outcome.next (branchTripEvent_fast hgate hfet hfast),
   fun _ _ hgate hon => congrArg Host.Outcome.next (if_pos ⟨hgate, hon⟩),
   fun _ _ hgate hon hwing => congrArg Host.Outcome.next (fetFault_conducts hgate hon hwing)⟩

end Sys2Proof.Machine
end

section
/-! Votes, the entry to `NIGHT` and `OFF`, the exit from them, rails and engines: one equation for each case of the handlers
of Machine/PowerStates.lean and Machine/Night.lean (16 R395-R407, 19 R445). -/

namespace Sys2Proof.Machine

section
variable {s : State}

/-! ### The entry (R402, R403, R407) -/

/-- What step 1 of Table 16.4 leaves, for a target known to the votes. -/
theorem entryStart_target {off : Bool} {t : Nat} (hvote : voteTarget s = t) :
    entryStart off s = psEnter .entering (armTimer (modPs (fun p => { p with
      entryStep := 1, entryToOff := off, abort := none, latchedWake := none, target := t }) s)) := by
  subst hvote
  rfl

theorem nightEntry_begins (hvote : voteTarget s = 1) (hmay : mayEnter s = true) : nightEntry s = entryStart false s :=
  if_pos ⟨hvote, hmay⟩

theorem offEntry_begins (hvote : voteTarget s = 0) (hmay : mayEnter s = true) : offEntry s = entryStart true s :=
  (if_neg (not_not_intro hvote)).trans (if_pos hmay)

/-- In the steps that wait for nothing, the end of the present step is all that happens. -/
theorem entryAdvance_simple (hrecall : s.ps.entryStep ≠ 3) (hlinks : s.ps.entryStep ≠ 5) :
    entryAdvance s = entryStepEnds s := by
  simp [entryAdvance, onlyIf, hrecall, hlinks]

section
variable (hentering : s.ps.state = .entering)
include hentering

/-- Abort point 1 with no wake and no vote above `NIGHT`: step 2 begins. -/
theorem entryStepEnds_first (hstep : s.ps.entryStep = 1) (habort : s.ps.abort = none) (hvote : voteTarget s < 2) :
    entryStepEnds s = entryBegin 2 (modPs (fun p => { p with entryStep := 2 }) s) := by
  simp [entryStepEnds, entryReady, hentering, hstep, habort, Nat.not_le_of_lt hvote]

/-- Abort point 2 with a wake: the entry is abandoned. -/
theorem entryStepEnds_woken {src : Nat} (hstep : s.ps.entryStep = 2) (habort : s.ps.abort = some src) :
    entryStepEnds s = entryAbandon 2 src s := by
  simp [entryStepEnds, entryReady, hentering, hstep, habort]

theorem entryStepEnds_last (hstep : s.ps.entryStep = 7) : entryStepEnds s = entryEnds s := by
  simp [entryStepEnds, entryReady, hentering, hstep]

end

/-! ### The exit (R406) -/

/-- A wake latched in `NIGHT` starts the exit. -/
theorem exitStart_night {src : Nat} (hnight : s.ps.state = .night) (hwake : s.ps.latchedWake = some src) :
    exitStart s = psEnter .exiting (modPs (fun p => { p with exitStep := 1, exitFromOff := false })
      (bumpPs 2 (recordWake src 0 (modPs (fun p => { p with wakeHold := true, timerEnd := none, latchedWake := none }) s)))) := by
  unfold exitStart
  rw [hwake, hnight]

/-- A step of the exit that is complete, and is not the check of the night region, begins the next. -/
theorem exitAdvance_ready {k : Nat} (hexit : s.ps.state = .exiting) (hstep : s.ps.exitStep = k) (hk : k ≠ 0) (hcheck : k ≠ 5)
    (hready : exitReady s = true) :
    exitAdvance s = exitWork s.fresh k (modPs (fun p => { p with exitStep := k + 1 }) s) := by
  subst hstep
  refine (if_neg ?_).trans (if_neg fun h => hcheck h.1)
  simp [hexit, hk, hready]

/-- From `NIGHT` nothing is waited for in step 1, and nothing in step 3. -/
theorem exitReady_first (hstep : s.ps.exitStep = 1) (hnight : s.ps.exitFromOff = false) : exitReady s = true := by
  simp [exitReady, hstep, hnight]

theorem exitReady_third (hstep : s.ps.exitStep = 3) : exitReady s = true := by
  simp [exitReady, hstep]

/-! ### Engines and rails (R398, R445) -/

/-- In `IDLE` an engine that no move uses is gated, and no other state shows. -/
theorem engineGate_idle {u : Nat} (hlow : 112 ≤ u) (hhigh : u < 272) (hidle : s.ps.state = .idle)
    (hrun : s.ps.gated.contains u = false) (hfree : s.tier.moves.all (fun e => e.2.engine != some u) = true) :
    engineGate u s = modPs (fun p => { p with gated := p.gated ++ [u] }) s :=
  (if_pos ⟨hlow, hhigh, .inr (.inl hidle), hrun, hfree⟩).trans (if_neg (by simp [hidle]))

/-- A die whose rail does not settle is at its former step again. -/
theorem railNotSettled_moving {d old : Nat} (hmoving : smGet none s.ps.moving d = some old) :
    railNotSettled d s = logPlain 13 1 (putParam 0 (P.PS_VCORE + d) old s) := by
  unfold railNotSettled
  rw [hmoving]

end

/-! ### The obligation -/

/-- Settles O23: each clause is the equation of its handler's case. -/
theorem powerStatesAct : Obligations.PowerStatesAct :=
  ⟨fun _ _ => rfl,
   fun _ _ => rfl,
   fun _ hvote hmay => congrArg Host.Outcome.next ((nightEntry_begins hvote hmay).trans (entryStart_target hvote)),
   fun _ hvote hmay => congrArg Host.Outcome.next ((offEntry_begins hvote hmay).trans (entryStart_target hvote)),
   fun _ hentering hstep habort hvote => congrArg Host.Outcome.next
      ((entryAdvance_simple (by simp [hstep]) (by simp [hstep])).trans (entryStepEnds_first hentering hstep habort hvote)),
   fun _ _ hentering hstep habort => congrArg Host.Outcome.next
      ((entryAdvance_simple (by simp [hstep]) (by simp [hstep])).trans (entryStepEnds_woken hentering hstep habort)),
   fun _ hentering hstep => congrArg Host.Outcome.next
      ((entryAdvance_simple (by simp [hstep]) (by simp [hstep])).trans (entryStepEnds_last hentering hstep)),
   fun _ _ hnight hwake => congrArg Host.Outcome.next (exitStart_night hnight hwake),
   fun _ hexit hstep hnight => congrArg Host.Outcome.next
      (exitAdvance_ready hexit hstep (by decide) (by decide) (exitReady_first hstep hnight)),
   fun _ hexit hstep => congrArg Host.Outcome.next
      (exitAdvance_ready hexit hstep (by decide) (by decide) (exitReady_third hstep)),
   fun _ htimer => congrArg Host.Outcome.next (if_pos htimer),
   fun _ hhold => congrArg Host.Outcome.next (if_pos hhold),
   fun _ hlevel => congrArg Host.Outcome.next (if_pos hlevel),
   fun _ _ hlow hhigh hidle hrun hfree => congrArg Host.Outcome.next (engineGate_idle hlow hhigh hidle hrun hfree),
   fun _ _ => rfl,
   fun _ _ => rfl,
   fun _ _ _ hmoving => congrArg Host.Outcome.next (railNotSettled_moving hmoving)⟩

end Sys2Proof.Machine
end

section
/-! World calls, the restarts of Steward cores and of Keeper, and the debug port: one equation for each case of the handlers
of Machine/Worlds.lean (13 R337-R348). -/

namespace Sys2Proof.Machine

section
variable {s : State}

/-! ### World calls (R337) -/

section
variable {core : Nat} {req : List Byte} (hup : s.world.stewardUp.getLsbD core = true)
  (hnone : s.world.calls.any (fun c => c.core == core && !c.abandoned) = false)
include hup hnone

theorem worldCall_queued (hkeeper : keeperStatus s = none) : worldCall core req s =
    bufferStore .steward core (fit 0#8 256 req) (modWorld (fun w => { w with
      calls := callPut { core := core, req := fit 0#8 256 req, since := dieTime s 1 } w.calls }) s) :=
  (if_neg (by simp [hup, hnone])).trans (if_neg (not_not_intro hkeeper))

theorem worldCall_busy {st : Nat} (hkeeper : keeperStatus s = some st) :
    worldCall core req s = emit (.worldReply core 2 []) s :=
  (if_neg (by simp [hup, hnone])).trans (if_pos (by simp [hkeeper]))

end

/-- Keeper reads the buffer of a call and writes its answer there, and the core that called loads it. -/
def answerLoaded (answer : List Byte) (c : WorldCall) (s : State) : Option (List Byte) × State :=
  bufferLoad .steward c.core c.core
    (bufferStore .keeper c.core (fit 0#8 256 answer) (bufferLoad .keeper 8 c.core s).2)

/-- The core that called has its answer, unless a load trapped. -/
def callEnds (core : Nat) (q : Option (List Byte) × State) : State :=
  match q.1 with
  | some b => emit (.worldReply core 0 b) q.2
  | none => q.2

theorem callEnds_loaded {core : Nat} {b : List Byte} {q : Option (List Byte) × State} (h : q.1 = some b) :
    callEnds core q = emit (.worldReply core 0 b) q.2 := by
  unfold callEnds
  rw [h]

theorem callEnds_trapped {core : Nat} {q : Option (List Byte) × State} (h : q.1 = none) : callEnds core q = q.2 := by
  unfold callEnds
  rw [h]

/-- Keeper answers the oldest call, unless its core has restarted since. -/
theorem worldReply_oldest {answer : List Byte} {c : WorldCall} {rest : List WorldCall} (hkeeper : keeperStatus s = none)
    (hcalls : s.world.calls = c :: rest) (hheard : c.abandoned = false) :
    worldReply answer s = callEnds c.core (answerLoaded answer c (modWorld (fun w => { w with calls := rest }) s)) := by
  unfold worldReply
  rw [if_neg (not_not_intro hkeeper), hcalls]
  refine (if_neg (by simp [hheard])).trans ?_
  dsimp only
  split
  case h_1 b hb => exact (callEnds_loaded hb).symm
  case h_2 hnone => exact (callEnds_trapped hnone).symm

/-! ### Steward cores (R339) -/

theorem stewardRestart_up (core : Fin 8) (hup : s.world.stewardUp.getLsbD core.val = true) : stewardRestart core.val s =
    coreZero core.val (dropSession (.steward core) (modWorld (fun w => { w with
      stewardUp := setBit8 w.stewardUp core.val false
      stewardRestarting := setBit8 w.stewardRestarting core.val true
      calls := dropCalls core.val w.calls }) s)) :=
  (if_neg (by simp [hup])).trans (dif_pos core.isLt)

/-- The core runs again once a verified image is measured. -/
theorem stewardRestartDone_verified {core : Nat} {img : Option (BitVec 384)} {d : BitVec 384} (himg : img = some d)
    (hrestart : s.world.stewardRestarting.getLsbD core = true) : stewardRestartDone core img s =
      modWorld (fun w => { w with stewardUp := setBit8 w.stewardUp core true }) (measExtend 2 (digestBytes 48 d)
        (modWorld (fun w => { w with stewardRestarting := setBit8 w.stewardRestarting core false }) s)) := by
  subst himg
  exact if_neg (by simp [hrestart])

/-! ### Keeper's restarts (R340) -/

/-- Keeper's pair is held in reset from the instant `now`, and all that was its own is gone. -/
def keeperHeld (cause now : Nat) (s : State) : State :=
  keeperZero (callsBusy (dropSession .keeper (keeperUnheard (modWorld (fun w => { w with
    keeper := .restarting, keeperUp := false, debugHalt := false, restartCause := cause
    restartTimes := now :: w.restartTimes.filter fun t => decide (now < t + 3600 * 10 ^ 9)
    spdm := [] }) s))))

section
variable (hkeeper : s.world.keeper = .running) (hup : s.world.keeperUp = true)
include hkeeper hup

/-- A Keeper that runs is not one that a trigger passes over. -/
theorem keeper_runs : ¬(s.world.keeper ≠ .running ∨ s.world.keeperUp = false) := by
  simp [hkeeper, hup]

theorem keeperTrigger_restarts {cause : Nat} (hlimit : restartsInHour s < pnum s P.KEEPER_RESTART_LIMIT) :
    keeperTrigger cause s = keeperHeld cause (dieTime s 1) s :=
  (if_neg (keeper_runs hkeeper hup)).trans (if_neg (Nat.not_le_of_lt hlimit))

theorem keeperTrigger_halts {cause : Nat} (hlimit : pnum s P.KEEPER_RESTART_LIMIT ≤ restartsInHour s) :
    keeperTrigger cause s = keeperHalt s :=
  (if_neg (keeper_runs hkeeper hup)).trans (if_pos hlimit)

end

/-! A record of the error log moves neither the timebases nor anything that a trigger of Keeper reads. -/

section
variable {kind unit severity body : Nat} {page : Option (Nat × Nat)}

theorem raiseAlert_unit {source kind count seq detail : Nat} : (raiseAlert source kind count seq detail s).unit = s.unit :=
  touches_raiseAlert .unit (by decide)

theorem alertForKind_skew {kind seq : Nat} : (alertForKind kind seq s).unit.skew = s.unit.skew := by
  unfold alertForKind
  dsimp only
  split
  · rfl
  · rw [raiseAlert_unit]
    rfl

theorem logQuiet_skew : (logQuiet kind unit severity page body s).unit.skew = s.unit.skew := by
  simp only [logQuiet, modUnit_unit]

theorem logEvent_skew : (logEvent kind unit severity page body s).unit.skew = s.unit.skew := by
  unfold logEvent
  split
  · exact logQuiet_skew
  · rw [alertForKind_skew, logQuiet_skew]

theorem dieTime_logEvent (d : Nat) : dieTime (logEvent kind unit severity page body s) d = dieTime s d := by
  unfold dieTime
  rw [logEvent_skew, touches_logEvent .time (by decide)]

theorem logEvent_world : (logEvent kind unit severity page body s).world = s.world := touches_logEvent .world (by decide)

theorem pnum_logEvent (n : Nat) : pnum (logEvent kind unit severity page body s) n = pnum s n := by
  unfold pnum prow
  rw [touches_logEvent .dict (by decide)]

theorem restartsInHour_logEvent : restartsInHour (logEvent kind unit severity page body s) = restartsInHour s := by
  unfold restartsInHour
  rw [logEvent_world, dieTime_logEvent]

end

/-- The record of a fetch that met an uncorrectable word, drawn from Keeper memory and the management L2 (11 R306). -/
def fetchLogged (s : State) : State :=
  logEvent 1 0xFFFF 1 none (sramRecord s 9 (110 + Config.freeBits s.fresh % 2) (Config.freeBits (s.fresh + 1) % 8) 0 7)
    (afterDraw (afterDraw s))

theorem keeperFetchBad_restarts (hkeeper : s.world.keeper = .running) (hup : s.world.keeperUp = true)
    (hlimit : restartsInHour s < pnum s P.KEEPER_RESTART_LIMIT) :
    keeperFetchBad s = keeperHeld 3 (dieTime s 1) (fetchLogged s) := by
  have hworld : (fetchLogged s).world = s.world := logEvent_world
  have hnow : dieTime (fetchLogged s) 1 = dieTime s 1 := dieTime_logEvent 1
  have hcount : restartsInHour (fetchLogged s) = restartsInHour s := restartsInHour_logEvent
  have hparam : pnum (fetchLogged s) P.KEEPER_RESTART_LIMIT = pnum s P.KEEPER_RESTART_LIMIT := pnum_logEvent _
  calc keeperFetchBad s = keeperTrigger 3 (fetchLogged s) := if_neg (keeper_runs hkeeper hup)
    _ = keeperHeld 3 (dieTime (fetchLogged s) 1) (fetchLogged s) := keeperTrigger_restarts (by rw [hworld, hkeeper])
        (by rw [hworld, hup]) (by rwa [hcount, hparam])
    _ = keeperHeld 3 (dieTime s 1) (fetchLogged s) := by rw [hnow]

/-! ### Keeper resumes (R340, R341) -/

theorem callsBusy_world : (callsBusy s).world = { s.world with calls := [] } :=
  Touches.forAll (l := [.out]) (fun _ _ => .onlyIf touches_emit) _ .world (by decide)

theorem keeperHalt_halted : (keeperHalt s).world.keeper = .halted := by
  unfold keeperHalt
  rw [touches_logPlain .world (by decide), callsBusy_world]
  rfl

/-- The verified image and the restart are measured, and Keeper runs. -/
def keeperRestarted (d : BitVec 384) (s : State) : State :=
  modWorld (fun w => { w with
      keeper := .running, keeperUp := true, keyReissue := true, restarts := satAdd 32 w.restarts 1 })
    (measExtend 4 (sha384 (restartRecord s)) (measExtend 1 (digestBytes 48 d) (measZero 1 s)))

theorem keeperResumeCore_verified {d : BitVec 384} (hkeeper : s.world.keeper = .restarting) :
    keeperResumeCore (some d) s = keeperRestarted d s := if_neg (not_not_intro hkeeper)

theorem keeperResumeCore_unverified (hkeeper : s.world.keeper = .restarting) :
    keeperResumeCore none s = keeperHalt s := if_neg (not_not_intro hkeeper)

/-- Keeper runs again, so its key commands are issued again. -/
theorem keeperResumes_verified {img : Option (BitVec 384)} {d : BitVec 384} (himg : img = some d)
    (hkeeper : s.world.keeper = .restarting) : keeperResumes img s = keysReissued (keeperRestarted d s) := by
  subst himg
  unfold keeperResumes
  rw [keeperResumeCore_verified hkeeper]
  exact if_pos ⟨hkeeper, rfl⟩

theorem keeperResumes_unverified {img : Option (BitVec 384)} (himg : img = none) (hkeeper : s.world.keeper = .restarting) :
    keeperResumes img s = keeperHalt s := by
  subst himg
  unfold keeperResumes
  rw [keeperResumeCore_unverified hkeeper]
  exact if_neg fun h => by simp [keeperHalt_halted] at h

/-! ### Debug (R348) -/

theorem debugAccess_admitted {t : DebugTarget} (h : debugAdmits s t = true) : debugAccess t s = debugDo t s := if_pos h

/-- Four targets carry no effect of their own. -/
theorem debugDo_plain {t : DebugTarget} (h : t ∈ [DebugTarget.idcode, .stewardTrace, .stewardInvasive, .keeperTrace]) :
    debugDo t s = emit (.debug true) s := by
  simp only [List.mem_cons, List.not_mem_nil, or_false] at h
  rcases h with rfl | rfl | rfl | rfl <;> rfl

/-- A line whose checker permits the access is read or written, and a read shows it. -/
theorem debugLine_permitted {bank unit : Nat} {write : Bool} {act : State → Line × State}
    (hpower : diePowered s (bankDie bank) = true) (hregion : regionPermits s (32 + bank) .debug write unit = true) :
    debugLine bank unit write act s = if write then emit (.debug true) (act s).2
      else emit (.debugLine (act s).1) (emit (.debug true) (act s).2) :=
  (if_neg (by simp [hpower])).trans (if_neg (by simp [hregion]))

end

/-! ### The obligation -/

/-- Settles O24: each clause is the equation of its handler's case. -/
theorem worldsAct : Obligations.WorldsAct :=
  ⟨fun _ _ _ hup hnone hkeeper => congrArg Host.Outcome.next (worldCall_queued hup hnone hkeeper),
   fun _ _ _ _ hup hnone hkeeper => congrArg Host.Outcome.next (worldCall_busy hup hnone hkeeper),
   fun _ _ _ _ hkeeper hcalls hheard => congrArg Host.Outcome.next ((worldReply_oldest hkeeper hcalls hheard).trans (by
      dsimp only
      split
      case h_1 b hb => exact callEnds_loaded hb
      case h_2 hnone => exact callEnds_trapped hnone)),
   fun core _ hup => congrArg Host.Outcome.next (stewardRestart_up core hup),
   fun _ _ _ _ himg hrestart => congrArg Host.Outcome.next (stewardRestartDone_verified himg hrestart),
   fun _ hkeeper hup hlimit hrun => congrArg Host.Outcome.next
      ((if_neg (by simp [hrun])).trans (keeperTrigger_restarts hkeeper hup hlimit)),
   fun _ hkeeper hup hlimit => congrArg Host.Outcome.next (keeperTrigger_restarts hkeeper hup hlimit),
   fun _ hkeeper hup hlimit => congrArg Host.Outcome.next (keeperFetchBad_restarts hkeeper hup hlimit),
   fun _ hkeeper hup hlimit => congrArg Host.Outcome.next (keeperTrigger_halts hkeeper hup hlimit),
   fun _ _ _ himg hkeeper => congrArg Host.Outcome.next (keeperResumes_verified himg hkeeper),
   fun _ _ himg hkeeper => congrArg Host.Outcome.next (keeperResumes_unverified himg hkeeper),
   fun _ _ hclosed => congrArg Host.Outcome.next (if_neg (by simp [hclosed])),
   fun _ hopen => congrArg Host.Outcome.next (debugAccess_admitted hopen),
   fun _ hopen => congrArg Host.Outcome.next (debugAccess_admitted hopen),
   fun _ _ hopen hplain => congrArg Host.Outcome.next ((debugAccess_admitted hopen).trans (debugDo_plain hplain)),
   fun _ _ hopen hpower hregion => congrArg Host.Outcome.next
      ((debugAccess_admitted hopen).trans (debugLine_permitted hpower hregion)),
   fun _ _ _ hopen hpower hregion => congrArg Host.Outcome.next
      ((debugAccess_admitted hopen).trans (debugLine_permitted hpower hregion))⟩

end Sys2Proof.Machine
end

section
/-! The queue, the state after reset, and what the checks of an access answer (02 R32-R55). -/

namespace Sys2Proof.Machine

/-! ### The queue and the state after reset -/

/-- Settles O39: `step` is `exec` of the command at the front. -/
theorem stepRunsTheFrontCommand : Obligations.StepRunsTheFrontCommand := fun _ _ _ => rfl

/-- A command answers a next state, whatever the state it meets. -/
theorem exec_answers (c : Instr) (s : State) : ∃ t, exec c s = .next t := by
  cases c <;> exact ⟨_, rfl⟩

/-- Settles O41: every command answers a next state, and an empty queue ticks. -/
theorem nothingStopsTheBlock : Obligations.NothingStopsTheBlock := by
  refine ⟨exec_answers, fun s => ?_⟩
  unfold Goes step
  cases s.pending with
  | nil => exact ⟨_, rfl⟩
  | cons c rest => exact exec_answers c _

/-- Settles O44: a command keeps the queue it meets, and what the invariant says. -/
theorem commandsLeaveTheQueue : Obligations.CommandsLeaveTheQueue := by
  intro c s t hinv hexec
  obtain ⟨u, hu, hkeeps⟩ := keeps_exec hinv.keeps c
  obtain rfl := Host.Outcome.next.inj (hu.symm.trans hexec)
  exact ⟨hkeeps.queue, hkeeps.inv⟩

theorem ownerOf_reset {g : Nat} {r : GSpec} (h : groupSpec g = some r) : ownerOf State.reset g = r.owner := by
  unfold ownerOf
  rw [h]
  rfl

theorem prow_reset {n : Nat} {p : PSpec} (row : Nat) (h : paramSpec n = some p) : prow State.reset row n = p.dflt := by
  unfold prow
  rw [h]
  rfl

/-- Settles O45: every table is empty after reset, and what is not listed reads its default. -/
theorem resetState : Obligations.ResetState :=
  ⟨rfl, rfl, rfl, rfl, fun _ => rfl, fun _ => rfl, rfl, rfl, fun _ _ => ownerOf_reset,
    fun row _ _ => prow_reset row, fun _ => nofun, rfl⟩

/-! ### The first check that fails -/

section
variable {r : Req} {g : GSpec} {p : PSpec} {s : State}

/-- Below the all-ones number the sequencer goes on to check 1. -/
theorem accessAns_checked (hseq : s.dict.seq + 1 < 2 ^ 64 - 1) : accessAns r s =
    match groupSpec (r.param / 256), paramSpec r.param with
    | some g, some p =>
      match rightsFault (numbered s) r p with
      | some st => refuse r st (s.dict.seq + 1) (numbered s)
      | none =>
        match valueFault (numbered s) r g p with
        | some st => refuse r st (s.dict.seq + 1) (numbered s)
        | none => performAccess r g p (s.dict.seq + 1) (numbered s)
    | _, _ => refuse r 0x08 (s.dict.seq + 1) (numbered s) :=
  if_neg (Nat.not_le.2 hseq)

theorem accessAns_undefined (hseq : s.dict.seq + 1 < 2 ^ 64 - 1)
    (h : groupSpec (r.param / 256) = none ∨ paramSpec r.param = none) :
    accessAns r s = refuse r 0x08 (s.dict.seq + 1) (numbered s) := by
  rw [accessAns_checked hseq]
  rcases h with h | h
  · rw [h]
  · rw [h]
    cases groupSpec (r.param / 256) <;> rfl

theorem accessAns_noRights {st : Nat} (hseq : s.dict.seq + 1 < 2 ^ 64 - 1) (hg : groupSpec (r.param / 256) = some g)
    (hp : paramSpec r.param = some p) (h : rightsFault (numbered s) r p = some st) :
    accessAns r s = refuse r st (s.dict.seq + 1) (numbered s) := by
  rw [accessAns_checked hseq, hg, hp]
  dsimp only
  rw [h]

theorem accessAns_badValue {st : Nat} (hseq : s.dict.seq + 1 < 2 ^ 64 - 1) (hg : groupSpec (r.param / 256) = some g)
    (hp : paramSpec r.param = some p) (hr : rightsFault (numbered s) r p = none)
    (h : valueFault (numbered s) r g p = some st) :
    accessAns r s = refuse r st (s.dict.seq + 1) (numbered s) := by
  rw [accessAns_checked hseq, hg, hp]
  dsimp only
  rw [hr]
  dsimp only
  rw [h]

theorem accessAns_noHolder {st : Nat} (hseq : s.dict.seq + 1 < 2 ^ 64 - 1) (hg : groupSpec (r.param / 256) = some g)
    (hp : paramSpec r.param = some p) (hr : rightsFault (numbered s) r p = none)
    (hv : valueFault (numbered s) r g p = none) (h : holderFault (numbered s) r g = some st) :
    accessAns r s = refuse r st (s.dict.seq + 1) (judged r s) := by
  rw [accessAns_performed hg hp hseq hr hv]
  unfold performAccess
  dsimp only
  rw [h]
  rfl

theorem rightsFault_of_header {st : Nat} (h : headerFault r p = some st) : rightsFault s r p = some st := by
  unfold rightsFault
  rw [h]

/-- Checks 3 to 5 of a write whose header is good. -/
theorem rightsFault_write (h : headerFault r p = none) (hop : r.op = 1) : rightsFault s r p =
    if p.acc = .ro then some 0x09
    else if p.acc = .rwk ∧ srcClass s r.origin ≠ .keeper then some 0x0D
    else ownerFault s r p := by
  unfold rightsFault
  rw [h]
  dsimp only
  rw [if_neg (by omega)]

end

/-- Settles O48: each check is asked when those before it pass, and its status is the answer. -/
theorem firstFailingCheckAnswers : Obligations.FirstFailingCheckAnswers := by
  refine ⟨fun r s hseq h => accessAns_undefined hseq h, fun r g p s hseq hg hp => ⟨?_, ?_, ?_, ?_, ?_, ?_⟩⟩
  · exact fun st h => accessAns_noRights hseq hg hp (rightsFault_of_header h)
  · intro hh hop hro
    exact accessAns_noRights hseq hg hp ((rightsFault_write hh hop).trans (if_pos hro))
  · intro hh hop hrwk hsrc
    refine accessAns_noRights hseq hg hp ((rightsFault_write hh hop).trans ?_)
    rw [if_neg (by simp [hrwk]), if_pos ⟨hrwk, hsrc⟩]
  · intro st hh hop hro hrwk hown
    refine accessAns_noRights hseq hg hp ((rightsFault_write hh hop).trans ?_)
    rw [if_neg hro, if_neg (fun h => hrwk h.1), hown]
  · exact fun st hr hv => accessAns_badValue hseq hg hp hr hv
  · exact fun st hr hv hh => accessAns_noHolder hseq hg hp hr hv hh

end Sys2Proof.Machine
end

section
/-! What a refused access leaves: every operation of the sequencer either answers `OK` or `PENDING`, or refuses the access in
the state it found (02 R50, 10 R285). -/

namespace Sys2Proof.Machine

/-- The access is answered `OK` or `PENDING`, or it is refused in the state it found, but for the count of refusals by
admission. -/
def AnsweredOrRefused (r : Req) (seq : Nat) (s : State) (a : Ans) : Prop :=
  a.resp.status = 0 ∨ a.resp.status = 1 ∨ ∃ st, a = refuse r st seq s ∨ a = refuse r st seq (admissionFailed st s)

section
variable {r : Req} {g : GSpec} {p : PSpec} {seq row : Nat} {s : State}

/-! ### The operations of the sequencer -/

theorem answeredOrRefused_refuse {st : Nat} : AnsweredOrRefused r seq s (refuse r st seq s) := .inr (.inr ⟨st, .inl rfl⟩)

theorem answeredOrRefused_admission {st : Nat} : AnsweredOrRefused r seq s (refuse r st seq (admissionFailed st s)) :=
  .inr (.inr ⟨st, .inr rfl⟩)

theorem answeredOrRefused_accept {v : List Byte} {t : State} : AnsweredOrRefused r seq s (accept r 0 seq v t) := .inl rfl

theorem answeredOrRefused_pending {v : List Byte} {t : State} : AnsweredOrRefused r seq s (accept r 1 seq v t) := .inr (.inl rfl)

theorem answeredOrRefused_acceptWrite {owed : Bool} {t : State} : AnsweredOrRefused r seq s (acceptWrite r seq owed t) := .inl rfl

theorem answeredOrRefused_writeSelect : AnsweredOrRefused r seq s (writeSelect r seq s) := by
  unfold writeSelect
  dsimp only
  split
  · exact answeredOrRefused_refuse
  · exact answeredOrRefused_accept

theorem answeredOrRefused_writeStaged {grp : Nat} : AnsweredOrRefused r seq s (writeStaged r p grp seq s) := by
  unfold writeStaged
  split
  · exact answeredOrRefused_refuse
  · exact answeredOrRefused_accept

theorem answeredOrRefused_writeDirect : AnsweredOrRefused r seq s (writeDirect r p row seq s) := by
  unfold writeDirect
  dsimp only
  split
  · exact answeredOrRefused_admission
  · exact answeredOrRefused_acceptWrite

theorem answeredOrRefused_commitOwner {staged : SMap (List Byte)} :
    AnsweredOrRefused r seq s (commitOwner r row seq staged s) := by
  unfold commitOwner
  split
  · exact answeredOrRefused_refuse
  · exact answeredOrRefused_acceptWrite

/-- A commit that is refused on its floors is not counted, any other is counted by its status. -/
theorem answeredOrRefused_commitGroup : AnsweredOrRefused r seq s (commitGroup r g row seq s) := by
  unfold commitGroup
  dsimp only
  split
  · exact answeredOrRefused_refuse
  · split
    · split
      · exact answeredOrRefused_accept
      · exact answeredOrRefused_refuse
    · split
      · exact answeredOrRefused_commitOwner
      · split
        · unfold onlyIf
          split
          · exact answeredOrRefused_admission
          · exact answeredOrRefused_refuse
        · split
          · exact answeredOrRefused_pending
          · split
            · exact answeredOrRefused_acceptWrite
            · exact answeredOrRefused_accept

theorem answeredOrRefused_commitDiscarded : AnsweredOrRefused r seq s (commitDiscarded r row seq s) := by
  unfold commitDiscarded
  split
  · exact answeredOrRefused_refuse
  · split
    · exact answeredOrRefused_refuse
    · split
      · split
        · exact answeredOrRefused_accept
        · exact answeredOrRefused_refuse
      · exact answeredOrRefused_accept

/-- A command that is accepted is answered by its record. -/
theorem answeredOrRefused_writeCmd : AnsweredOrRefused r seq s (writeCmd r row seq s) := by
  unfold writeCmd
  split
  · exact answeredOrRefused_refuse
  · split
    · exact answeredOrRefused_admission
    · exact (ite_eq_or_eq _ 0 1).imp_right .inl

theorem answeredOrRefused_doWrite : AnsweredOrRefused r seq s (doWrite r g p row seq s) := by
  unfold doWrite
  split
  · split
    · exact answeredOrRefused_commitGroup
    · exact answeredOrRefused_commitDiscarded
  · split
    · exact answeredOrRefused_writeCmd
    · split
      · exact answeredOrRefused_writeStaged
      · exact answeredOrRefused_writeDirect

/-! ### Reads -/

/-- A read is refused only in a window with no row selected. -/
theorem doRead_refused (h : (doRead r g p seq s).resp.status ≠ 0) :
    0 < g.rows ∧ cursorOf s r.origin (r.param / 256) = none ∧ doRead r g p seq s = refuse r 0x03 seq s := by
  unfold doRead at h ⊢
  dsimp only at h ⊢
  split at h
  case h_2 => exact absurd rfl h
  case h_1 hv =>
    split at hv
    case isTrue hm =>
      refine ⟨hm.1, ?_, rfl⟩
      unfold windowRead at hv
      obtain ⟨h1, h3, hcursor⟩ : r.param % 256 ≠ 1 ∧ r.param % 256 ≠ 3 ∧
          (r.param % 256 = 4 → cursorOf s r.origin (r.param / 256) = none) := by simpa [apply_ite (· = none)] using hv
      exact hcursor ((hm.2.resolve_left h1).resolve_left h3)
    case isFalse =>
      split at hv
      case isTrue hm => exact ⟨hm.1, Option.map_eq_none_iff.1 hv, rfl⟩
      case isFalse => cases hv

/-- The energy counts stand in groups without rows. -/
theorem energyFound_of_rows (hg : groupSpec (r.param / 256) = some g) (hrows : 0 < g.rows) :
    energyFound r.param s = s := by
  have outside {e : Nat} (he : r.param = e) (h0 : (groupSpec (e / 256)).all (fun x => x.rows == 0) = true) : False := by
    subst he
    rw [hg] at h0
    simp at h0
    omega
  unfold energyFound onlyIf
  refine if_neg fun h => ?_
  simp only [Bool.or_eq_true, Bool.and_eq_true, decide_eq_true_eq, List.any_eq_true] at h
  rcases h with ⟨he, -⟩ | ⟨w, hw, he, -⟩
  · exact outside he rfl
  · refine outside he ?_
    have hw16 : w < 16 := List.mem_range.1 hw
    rw [show (P.BR_ENERGY + w) / 256 = 0x0200 by unfold P.BR_ENERGY; omega]
    rfl

/-- Where no row is selected a read in a window finds nothing. -/
theorem readFound_of_noRow (hg : groupSpec (r.param / 256) = some g) (hrows : 0 < g.rows)
    (hcursor : cursorOf s r.origin (r.param / 256) = none) : readFound r.origin r.param s = s := by
  unfold readFound
  rw [energyFound_of_rows hg hrows]
  dsimp only
  rw [hcursor]

theorem touches_energyFound {param : Nat} : Touches [.cr, .unit] s (energyFound param s) := .onlyIf touches_logPlain

theorem touches_refsRead {d x : Nat} : Touches [.cr, .unit] s (refsRead d x s) := .onlyIf touches_logPlain

/-- A read may raise alerts, and nothing else. -/
theorem touches_readFound {o : Origin} {param : Nat} : Touches [.cr, .unit] s (readFound o param s) := by
  unfold readFound
  dsimp only
  split
  · exact .within (.after (.onlyIf (.forAll (fun _ _ => touches_refsRead) _)) touches_energyFound) rfl
  · exact touches_energyFound

/-- What a read finds leaves the cursors of the sessions. -/
theorem cursorOf_readFound {o : Origin} {param grp : Nat} :
    cursorOf (readFound o param s) o grp = cursorOf s o grp := by
  have dict : (readFound o param s).dict = s.dict := touches_readFound .dict (by decide)
  unfold cursorOf sessionOf
  rw [dict]

theorem answeredOrRefused_read (hg : groupSpec (r.param / 256) = some g) :
    AnsweredOrRefused r seq s (doRead r g p seq (readFound r.origin r.param s)) := by
  by_cases h : (doRead r g p seq (readFound r.origin r.param s)).resp.status = 0
  · exact .inl h
  · obtain ⟨hrows, hcursor, hread⟩ := doRead_refused h
    rw [hread, readFound_of_noRow hg hrows (cursorOf_readFound ▸ hcursor)]
    exact answeredOrRefused_refuse

end

/-! ### The access -/

/-- Checks 7 to 9 are asked in the state an access is judged in. -/
theorem answeredOrRefused_performAccess {r : Req} {g : GSpec} {p : PSpec} {s : State}
    (hg : groupSpec (r.param / 256) = some g) :
    AnsweredOrRefused r (s.dict.seq + 1) (judged r s) (performAccess r g p (s.dict.seq + 1) (numbered s)) := by
  unfold performAccess
  dsimp only
  split
  · exact answeredOrRefused_refuse
  · split
    · exact answeredOrRefused_writeSelect
    · split
      · exact answeredOrRefused_read hg
      · split
        · split
          · exact answeredOrRefused_refuse
          · exact answeredOrRefused_refuse
        · exact answeredOrRefused_doWrite

/-- An access is refused by checks 1 to 6 in the state that has numbered it, or it is performed. -/
theorem accessAns_answeredOrRefused (r : Req) (s : State) :
    (∃ st, accessAns r s = refuse r st (s.dict.seq + 1) (numbered s)) ∨
      AnsweredOrRefused r (s.dict.seq + 1) (judged r s) (accessAns r s) := by
  by_cases hseq : s.dict.seq + 1 < 2 ^ 64 - 1
  · rw [accessAns_checked hseq]
    split
    case h_1 g p hg hp =>
      split
      · exact .inl ⟨_, rfl⟩
      · split
        · exact .inl ⟨_, rfl⟩
        · exact .inr (answeredOrRefused_performAccess hg)
    case h_2 => exact .inl ⟨_, rfl⟩
  · exact .inl ⟨0x0C, if_pos (Nat.not_lt.1 hseq)⟩

theorem srcClass_congr {s t : State} (o : Origin) (hsl : t.sl = s.sl) (htime : t.slTime = s.slTime) :
    srcClass t o = srcClass s o := by
  unfold srcClass presenceHolds windowOpenNow sealPermitted sealIntact
  rw [hsl, htime]

/-- A wake goes by the power states and the main input alone, and its number does not matter to it. -/
theorem wake_numbered (source : Nat) (s : State) : wake source (numbered s) = numbered (wake source s) := by
  have hps : (numbered s).ps = s.ps := rfl
  have hhs : (numbered s).hs = s.hs := rfl
  unfold wake
  rw [hps, hhs]
  cases s.ps.state with
  | entering | night | off => simp only [apply_ite numbered]; rfl
  | run | drowse | idle | exiting => rfl

/-- The state an access is judged in is the numbered one, or Courier has woken the device. -/
theorem judged_cases (r : Req) (s : State) : ∃ u : State, judged r s = numbered u ∧
    (u = s ∨ (fromCourier r.origin = true ∧ 0x0500 ≤ r.param / 256 ∧ u = { s with ps := (wake 4 s).ps })) := by
  unfold judged onlyIf
  split
  case isFalse => exact ⟨s, rfl, .inl rfl⟩
  case isTrue h =>
    simp only [Bool.and_eq_true, decide_eq_true_eq] at h
    obtain ⟨⟨hcourier, hgroup⟩, -⟩ := h
    have woken : wake 4 s = s.grafted [.ps] (wake 4 s) := touches_wake.eq_grafted
    exact ⟨_, (wake_numbered 4 s).trans (congrArg numbered woken), .inr ⟨hcourier, hgroup, rfl⟩⟩

/-- What a refusal leaves of a state that differs from the one before the access in its number, and in parts that say
nothing of the source of the access. -/
theorem refuse_numbered {s u : State} (r : Req) (st : Nat) (hdict : u.dict = s.dict) (hsl : u.sl = s.sl)
    (htime : u.slTime = s.slTime) : (refuse r st (s.dict.seq + 1) (numbered u)).after = { u with dict := { s.dict with
      seq := s.dict.seq + 1
      seqMirror := s.dict.seq + 1
      rejectCount := satAdd 32 s.dict.rejectCount 1
      lastReject := r.param + (srcClass s r.origin).code * 2 ^ 24 + st * 2 ^ 32 + (s.dict.seq + 1) * 2 ^ 64 } } := by
  have src : srcClass (numbered u) r.origin = srcClass s r.origin := srcClass_congr r.origin hsl htime
  unfold refuse
  rw [src, ← hdict]
  rfl

/-- Settles O46: a refusal is given in the numbered state, in the woken one, or in one that counts it by admission. -/
theorem refusedAccessHasNoSideEffects : Obligations.RefusedAccessHasNoSideEffects := by
  intro r s
  dsimp only
  intro hok hpending
  obtain ⟨u, hjudged, hu⟩ := judged_cases r s
  obtain ⟨hdict, hsl, htime⟩ : u.dict = s.dict ∧ u.sl = s.sl ∧ u.slTime = s.slTime := by
    rcases hu with rfl | ⟨-, -, rfl⟩ <;> exact ⟨rfl, rfl, rfl⟩
  rcases accessAns_answeredOrRefused r s with ⟨st, h⟩ | h | h | ⟨st, h | h⟩
  · rw [h]
    exact ⟨rfl, rfl, s, s, .inl rfl, .inl rfl, refuse_numbered r st rfl rfl rfl⟩
  · exact absurd h hok
  · exact absurd h hpending
  · rw [h, hjudged]
    exact ⟨rfl, rfl, u, u, hu, .inl rfl, refuse_numbered r st hdict hsl htime⟩
  · rw [h, hjudged]
    by_cases hst : st = 0x0A
    · subst hst
      exact ⟨rfl, rfl, u, bumpReg 4 1 u, hu, .inr ⟨rfl, rfl⟩, refuse_numbered (u := bumpReg 4 1 u) r _ hdict hsl htime⟩
    · have uncounted : admissionFailed st (numbered u) = numbered u := if_neg (by simpa using hst)
      rw [uncounted]
      exact ⟨rfl, rfl, u, u, hu, .inl rfl, refuse_numbered r st hdict hsl htime⟩

end Sys2Proof.Machine
end

section
/-! Command members: which parameters they are, what an accepted command does by its group, and the commands of the device,
of lodgings, wings, dictionaries, queues, keys, ports, bindings, DRAM, links and units (02 R44, R49). -/

namespace Sys2Proof.Machine

/-! ### Command members -/

/-- A command member that is neither a `COMMIT` nor the `SELECT` of a window. -/
def isCommandMember (n : Nat) : Bool :=
  match groupSpec (n / 256), paramSpec n with
  | some g, some p => p.ty == .cmd && !isCommit g p n && !(decide (0 < g.rows) && n % 256 == 1)
  | _, _ => false

/-- Members of the same number in groups of one kind are alike. -/
theorem isCommandMember_indexed {base i : Nat} (h : groupSpec (base / 256 + i) = groupSpec (base / 256)) :
    isCommandMember (base + 256 * i) = isCommandMember base := by
  unfold isCommandMember paramSpec isCommit
  rw [param_group, param_member, h]

/-- An accepted command leaves what its effect makes of the state it acts in. -/
theorem cmdOf_ran {o : Origin} {n row : Nat} {arg : List Byte} {s : State} {e : State → State × Option (Nat × Nat)}
    (hn : isCommandMember n = true) (h : commandRuns (cmdReq o n arg) row s = true)
    (he : cmdRun n row arg (srcClass (judged (cmdReq o n arg) s) o).code (s.dict.seq + 1) true (begun (cmdReq o n arg) row s) =
      e (begun (cmdReq o n arg) row s)) :
    (Host.Outcome.next (cmdOf o n arg s) : Out) = .next (ran (cmdReq o n arg) row s e) := by
  unfold isCommandMember at hn
  split at hn
  case h_2 => cases hn
  case h_1 g p hg hp =>
    simp only [Bool.and_eq_true, Bool.not_eq_true', beq_iff_eq] at hn
    obtain ⟨⟨hty, hcommit⟩, hselect⟩ := hn
    unfold ran
    rw [← he]
    exact congrArg Host.Outcome.next (access_command h hg hp hty hcommit ((Bool.and_assoc ..).trans hselect) rfl)

/-- An accepted command leaves every part but the dictionary and, where Courier has woken the device, the power states as
they were until it acts. -/
theorem touches_begun {r : Req} {row : Nat} {s : State} : Touches [.dict, .ps] s (begun r row s) := by
  have woken : Touches [.dict, .ps] s (judged r s) :=
    (Touches.after (.onlyIf touches_wake) touches_modDict).within rfl
  have session : Touches [.dict, .ps] s (modSession r.origin id (judged r s)) := (touches_modDict.after woken).within rfl
  unfold begun cmdStart
  exact (touches_modDict.after session).within rfl

/-! ### The groups of a command -/

theorem groupKind_of_spec {g : Nat} {r : GSpec} (h : groupSpec g = some r) : groupKind g = r.first := by
  unfold groupKind
  rw [h]

theorem operandOf_leBytes {n v : Nat} (c : Byte) (hv : v < 2 ^ (8 * n)) : operandOf (c :: leBytes n v) = v := leNat_leBytes hv

section
variable {row source seq : Nat} {arg : List Byte} {readBack : Bool} {s : State}

theorem isCommandMember_lodge (n : LodgeId) (base : Nat) (hbase : base / 256 = 0x1000 := by decide) :
    isCommandMember (base + 256 * n.val) = isCommandMember base :=
  isCommandMember_indexed (by rw [hbase, groupSpec_lodge n.isLt]; rfl)

theorem isCommandMember_port (p : PortId) : isCommandMember (P.PORT_CMD + 256 * p.val) = true :=
  (isCommandMember_indexed ((groupSpec_port p.isLt).trans (groupSpec_port (n := 0) (by decide)).symm)).trans rfl

theorem isCommandMember_link (k : LinkId) : isCommandMember (P.CL_CMD + 256 * k.val) = true :=
  (isCommandMember_indexed ((groupSpec_link k.isLt).trans (groupSpec_link (n := 0) (by decide)).symm)).trans rfl

/-- A command of a lodging's group, by its member. -/
theorem cmdRun_lodge (n : LodgeId) {m : Nat} (hm : m < 256) (hm2 : m ≠ 2) :
    cmdRun (0x100000 + m + 256 * n.val) row arg source seq readBack s =
      if m = 0x03 then lodgeCmd n.val (codeOf arg) (operandOf arg) s
      else if m = 0x53 then (rekeyAsk n.val s, none) else (cohReset n.val s, none) := by
  have group : (0x100000 + m + 256 * n.val) / 256 = 0x1000 + n.val := by omega
  have member : (0x100000 + m + 256 * n.val) % 256 = m := by omega
  unfold cmdRun
  dsimp only
  rw [group, member, groupKind_of_spec (groupSpec_lodge n.isLt), Nat.add_sub_cancel_left]
  split <;> simp_all

theorem cmdRun_port (p : PortId) : cmdRun (P.PORT_CMD + 256 * p.val) row arg source seq readBack s =
    (portCmd p.val (codeOf arg) s, some (0, 0)) := by
  have group : (P.PORT_CMD + 256 * p.val) / 256 = 0x4000 + p.val := by unfold P.PORT_CMD; omega
  have member : (P.PORT_CMD + 256 * p.val) % 256 = 3 := by unfold P.PORT_CMD; omega
  unfold cmdRun
  dsimp only
  rw [group, member, groupKind_of_spec (groupSpec_port p.isLt), Nat.add_sub_cancel_left]
  rfl

theorem cmdRun_link (k : LinkId) : cmdRun (P.CL_CMD + 256 * k.val) row arg source seq readBack s =
    (linkJudged k.val (linkReset k.val (!unitServes s (368 + linkEndA k.val)) 4 s), none) := by
  have group : (P.CL_CMD + 256 * k.val) / 256 = 0x7000 + k.val := by unfold P.CL_CMD; omega
  have member : (P.CL_CMD + 256 * k.val) % 256 = 3 := by unfold P.CL_CMD; omega
  unfold cmdRun
  dsimp only
  rw [group, member, groupKind_of_spec (groupSpec_link k.isLt), Nat.add_sub_cancel_left]
  rfl

end

/-! ### The device and its life cycle -/

/-- A cut is refused while two cuts wait to be written (18 R437). -/
theorem latches_of_cutRuns {o : Origin} {s : State} (h : commandRuns (cmdReq o P.GB_CMD [1#8]) 0 s = true) :
    (begun (cmdReq o P.GB_CMD [1#8]) 0 s).gb.latches.length < 2 := by
  have gb : (begun (cmdReq o P.GB_CMD [1#8]) 0 s).gb = (judged (cmdReq o P.GB_CMD [1#8]) s).gb := rfl
  have refused : (cmdRefused (judged (cmdReq o P.GB_CMD [1#8]) s) P.GB_CMD 0 [1#8]).isNone = true := by
    unfold commandRuns at h
    exact (Bool.and_eq_true _ _ ▸ h).2
  have rule : cmdRefused (judged (cmdReq o P.GB_CMD [1#8]) s) P.GB_CMD 0 [1#8] =
    if 2 ≤ (judged (cmdReq o P.GB_CMD [1#8]) s).gb.latches.length then some 0x02 else none := rfl
  rw [rule] at refused
  rw [gb]
  by_contra hfull
  rw [if_pos (Nat.not_lt.1 hfull)] at refused
  cases refused

/-- A cut that is accepted is not folded. -/
theorem cmdRun_cut {source seq : Nat} {readBack : Bool} {t : State} (h : t.gb.latches.length < 2) :
    cmdRun P.GB_CMD 0 [1#8] source seq readBack t = (gbCutNow 3 t.gb.major t, some (0, 0)) := by
  have cut : cmdRun P.GB_CMD 0 [1#8] source seq readBack t = (gbCut 3 t.gb.major t, some (0, 0)) := rfl
  rw [cut, gbCut, if_neg (Nat.not_le.2 h)]

/-- Settles O1: each command is one effect. -/
theorem deviceCommandsRun : Obligations.DeviceCommandsRun :=
  ⟨fun _ _ h => cmdOf_ran rfl h rfl, fun _ _ h => cmdOf_ran rfl h rfl, fun _ _ h => cmdOf_ran rfl h rfl,
    fun _ _ h => cmdOf_ran rfl h (cmdRun_cut (latches_of_cutRuns h))⟩

/-- A life-cycle command whose fuses read back right, but for `RETIRE`. -/
theorem lifeCycle_readBack {code operand source seq : Nat} (hcode : code ≠ 5) (s : State) :
    lifeCycle code operand true source seq s = lifeCycleEnds (fusesBlown code operand) source seq s := by
  unfold lifeCycle lifeCycleEnds
  dsimp only
  rw [if_neg hcode]
  rfl

/-- `RETIRE` erases the journal and the retired list besides (13 R353). -/
theorem lifeCycle_retire {operand source seq : Nat} (s : State) : lifeCycle 5 operand true source seq s =
    lifeCycleEnds (fun t => modSpace (fun x => { x with retired := [] }) (modSl (fun l => { l with journal := [] })
      (modSl (fun l => { l with fuseT := true }) t))) source seq s := by
  unfold lifeCycle lifeCycleEnds
  dsimp only
  rw [if_pos rfl]
  rfl

theorem cmdRun_lifeCycle {c : Byte} {arg : List Byte} {row source seq : Nat} {readBack : Bool} {s : State} :
    cmdRun P.LC_CMD row (c :: arg) source seq readBack s =
      (lifeCycle (codeOf [c]) (if codeOf [c] = 1 then leNat arg else 0) readBack source seq s, none) := rfl

/-- A life-cycle command that is accepted, its fuses reading back right. -/
theorem lcCmdOf_ran {o : Origin} {arg : List Byte} {s : State} {f : Nat → Nat → State → State}
    (h : commandRuns (cmdReq o P.LC_CMD arg) 0 s = true)
    (hf : ∀ source seq t, cmdRun P.LC_CMD 0 arg source seq true t = (f source seq t, none)) :
    (Host.Outcome.next (lcCmdOf o arg true s) : Out) = .next (ran (cmdReq o P.LC_CMD arg) 0 s (goesOn
      (f (srcClass (judged (cmdReq o P.LC_CMD arg) s) o).code (s.dict.seq + 1)))) :=
  cmdOf_ran (n := P.LC_CMD) rfl h (hf _ _ _)

/-- Settles O2: the code of the command says which fuses are blown. -/
theorem lifeCycleCommandsRun : Obligations.LifeCycleCommandsRun :=
  have blows {c : Byte} (hcode : codeOf [c] ≠ 5) {arg : List Byte} (source seq : Nat) (t : State) :
      cmdRun P.LC_CMD 0 (c :: arg) source seq true t =
        (lifeCycleEnds (fusesBlown (codeOf [c]) (if codeOf [c] = 1 then leNat arg else 0)) source seq t, none) :=
    cmdRun_lifeCycle.trans (congrArg (·, none) (lifeCycle_readBack hcode t))
  ⟨fun _ _ _ h => lcCmdOf_ran h (blows (by decide)), fun _ _ h => lcCmdOf_ran h (blows (by decide)),
    fun _ _ h => lcCmdOf_ran h (blows (by decide)), fun _ _ h => lcCmdOf_ran h (blows (by decide)),
    fun _ _ h => lcCmdOf_ran h fun _ _ t => cmdRun_lifeCycle.trans (congrArg (·, none) (lifeCycle_retire t))⟩

/-! ### Lodgings -/

theorem cmdRun_lodgeCmd (n : LodgeId) (k : BitVec 32) (c : Byte) {row source seq : Nat} {readBack : Bool} {s : State} :
    cmdRun (P.LODGE_CMD + 256 * n.val) row (c :: leBytes 4 k.toNat) source seq readBack s = lodgeCmd n.val (codeOf [c]) k.toNat s := by
  rw [cmdRun_lodge n (m := 3) (by decide) (by decide), if_pos rfl, operandOf_leBytes c k.isLt]
  rfl

/-- Settles O3: `LODGE_CMD` by its code, then the two commands of a lodging without an argument. -/
theorem lodgingCommandsRun : Obligations.LodgingCommandsRun :=
  have lodgeCmdMember (n : LodgeId) : isCommandMember (P.LODGE_CMD + 256 * n.val) = true := (isCommandMember_lodge n _).trans rfl
  ⟨fun _ n _ h => cmdOf_ran (lodgeCmdMember n) h (cmdRun_lodgeCmd n 0#32 1#8),
   fun _ n _ h => cmdOf_ran (lodgeCmdMember n) h (cmdRun_lodgeCmd n 0#32 2#8),
   fun _ n k _ h => cmdOf_ran (lodgeCmdMember n) h (cmdRun_lodgeCmd n k 3#8),
   fun _ n _ h => cmdOf_ran (lodgeCmdMember n) h (cmdRun_lodgeCmd n 0#32 4#8),
   fun _ n _ h => cmdOf_ran ((isCommandMember_lodge n _).trans rfl) h (cmdRun_lodge n (m := 0x53) (by decide) (by decide)),
   fun _ n _ h => cmdOf_ran ((isCommandMember_lodge n _).trans rfl) h (cmdRun_lodge n (m := 0x61) (by decide) (by decide))⟩

/-! ### Wings -/

section
variable {row source seq : Nat} {readBack : Bool} {w : WingId} {s t : State}

theorem operandOf_wing (c : Byte) (w : WingId) : operandOf (c :: leBytes 1 w.val) = w.val :=
  operandOf_leBytes c (by omega)

/-- A wing that is `DRAINING` or `EMPTY` reopens by ending its evacuation; a channel that failed forbids it (04 R120). -/
theorem cmdRun_reopen_evacuated (hwing : t.wing = s.wing) (hch : t.ch = s.ch)
    (h : (wingAt s w.val).state = .draining ∨ (wingAt s w.val).state = .empty) :
    cmdRun P.WING_CMD row (2#8 :: leBytes 1 w.val) source seq readBack t =
      match wingFailed s w.val with
      | some c => (t, some (0x0C, c))
      | none => (evacuateCancel w.val t, some (0, 0)) := by
  have state : wingAt t w.val = wingAt s w.val := by unfold wingAt; rw [hwing]
  have failed : wingFailed t w.val = wingFailed s w.val := by unfold wingFailed chanAt; rw [hch]
  have reopen : cmdRun P.WING_CMD row (2#8 :: leBytes 1 w.val) source seq readBack t =
    match (wingAt t (operandOf (2#8 :: leBytes 1 w.val))).state with
    | .draining | .empty => (match wingFailed t (operandOf (2#8 :: leBytes 1 w.val)) with
      | some c => (t, some (0x0C, c))
      | none => (evacuateCancel (operandOf (2#8 :: leBytes 1 w.val)) t, some (0, 0)))
    | _ => (reopenStart (operandOf (2#8 :: leBytes 1 w.val)) true none t, none) := rfl
  rw [reopen, operandOf_wing, state, failed]
  rcases h with h | h <;> rw [h]

/-- Any other wing starts to reopen. -/
theorem cmdRun_reopen_shut (hwing : t.wing = s.wing) (hdraining : (wingAt s w.val).state ≠ .draining)
    (hempty : (wingAt s w.val).state ≠ .empty) :
    cmdRun P.WING_CMD row (2#8 :: leBytes 1 w.val) source seq readBack t = (reopenStart w.val true none t, none) := by
  have state : wingAt t w.val = wingAt s w.val := by unfold wingAt; rw [hwing]
  have reopen : cmdRun P.WING_CMD row (2#8 :: leBytes 1 w.val) source seq readBack t =
    match (wingAt t (operandOf (2#8 :: leBytes 1 w.val))).state with
    | .draining | .empty => (match wingFailed t (operandOf (2#8 :: leBytes 1 w.val)) with
      | some c => (t, some (0x0C, c))
      | none => (evacuateCancel (operandOf (2#8 :: leBytes 1 w.val)) t, some (0, 0)))
    | _ => (reopenStart (operandOf (2#8 :: leBytes 1 w.val)) true none t, none) := rfl
  rw [reopen, operandOf_wing, state]
  split
  · exact absurd ‹_› hdraining
  · exact absurd ‹_› hempty
  · rfl

theorem cmdRun_evacuate : cmdRun P.WING_CMD row (1#8 :: leBytes 1 w.val) source seq readBack t =
    (evacuateStart w.val true none t, none) := by
  have evacuate : cmdRun P.WING_CMD row (1#8 :: leBytes 1 w.val) source seq readBack t =
    (evacuateStart (operandOf (1#8 :: leBytes 1 w.val)) true none t, none) := rfl
  rw [evacuate, operandOf_wing]

end

/-- Settles O4: the state of the wing, which the command has not yet changed, says what `REOPEN` does. -/
theorem wingCommandsRun : Obligations.WingCommandsRun := by
  refine ⟨fun _ _ _ h => cmdOf_ran rfl h cmdRun_evacuate, fun o w s h hstate hgood => ?_, fun o w c s h hstate hfailed => ?_,
    fun o w s h hdraining hempty => ?_⟩
  all_goals
    have wing := touches_begun (r := cmdReq o P.WING_CMD (2#8 :: leBytes 1 w.val)) (row := 0) (s := s) .wing (by decide)
    have ch := touches_begun (r := cmdReq o P.WING_CMD (2#8 :: leBytes 1 w.val)) (row := 0) (s := s) .ch (by decide)
  · exact cmdOf_ran rfl h ((cmdRun_reopen_evacuated wing ch hstate).trans (by rw [hgood]; rfl))
  · exact cmdOf_ran rfl h ((cmdRun_reopen_evacuated wing ch hstate).trans (by rw [hfailed]))
  · exact cmdOf_ran rfl h (cmdRun_reopen_shut wing hdraining hempty)

/-! ### Dictionaries, queues and units: a row is selected first -/

/-- A command of a window's row is the command in the state that has selected the row. -/
theorem rowCmdOf_ran {o : Origin} {n row : Nat} {arg : List Byte} {s : State} {e : State → State × Option (Nat × Nat)}
    (hn : isCommandMember n = true) (h : commandRuns (cmdReq o n arg) row (rowChosen o n row s) = true)
    (he : ∀ source seq t, cmdRun n row arg source seq true t = e t) :
    (Host.Outcome.next (rowCmdOf o n row arg s) : Out) = .next (ran (cmdReq o n arg) row (rowChosen o n row s) e) :=
  cmdOf_ran hn h (he _ _ _)

theorem cmdRun_train {x source seq : Nat} {readBack : Bool} {n : BitVec 16} {s : State} :
    cmdRun P.DICT_CMD x (1#8 :: leBytes 2 n.toNat) source seq readBack s = (trainStart x n.toNat s, none) := by
  have train : cmdRun P.DICT_CMD x (1#8 :: leBytes 2 n.toNat) source seq readBack s =
    (trainStart x (operandOf (1#8 :: leBytes 2 n.toNat)) s, none) := rfl
  rw [train, operandOf_leBytes 1#8 n.isLt]

/-- Settles O5: `DICT_CMD` and `Q_CMD` by their codes. -/
theorem dictionaryAndQueueCommandsRun : Obligations.DictionaryAndQueueCommandsRun :=
  ⟨fun _ _ _ _ h => rowCmdOf_ran rfl h fun _ _ _ => cmdRun_train, fun _ _ _ h => rowCmdOf_ran rfl h fun _ _ _ => rfl,
    fun _ _ _ h => rowCmdOf_ran rfl h fun _ _ _ => rfl, fun _ _ _ h => rowCmdOf_ran rfl h fun _ _ _ => rfl,
    fun _ _ _ h => rowCmdOf_ran rfl h fun _ _ _ => rfl, fun _ _ _ h => rowCmdOf_ran rfl h fun _ _ _ => rfl⟩

/-- Settles O10: `UNIT_CMD` by its code. -/
theorem unitCommandsRun : Obligations.UnitCommandsRun :=
  ⟨fun _ _ _ h => rowCmdOf_ran rfl h fun _ _ _ => rfl, fun _ _ _ h => rowCmdOf_ran rfl h fun _ _ _ => rfl⟩

/-! ### Keys -/

theorem cmdRun_key (c : Byte) (n : LodgeId) {row source seq : Nat} {readBack : Bool} {s : State} :
    cmdRun P.KEY_CMD row (c :: leBytes 2 n.val) source seq readBack s = keyCmd (codeOf [c]) n.val s := by
  have key : cmdRun P.KEY_CMD row (c :: leBytes 2 n.val) source seq readBack s =
    keyCmd (codeOf [c]) (operandOf (c :: leBytes 2 n.val)) s := rfl
  rw [key, operandOf_leBytes c (by omega)]

/-- Settles O6: `KEY_CMD` by its code. -/
theorem keyCommandsRun : Obligations.KeyCommandsRun :=
  ⟨fun _ n _ h => cmdOf_ran (n := P.KEY_CMD) rfl h (cmdRun_key 1#8 n),
    fun _ n _ h => cmdOf_ran (n := P.KEY_CMD) rfl h (cmdRun_key 2#8 n),
    fun _ n _ h => cmdOf_ran (n := P.KEY_CMD) rfl h (cmdRun_key 3#8 n)⟩

/-! ### Ports and bindings -/

/-- Settles O7: `PORT_CMD` by its code. -/
theorem portCommandsRun : Obligations.PortCommandsRun :=
  ⟨fun _ p _ h => cmdOf_ran (isCommandMember_port p) h (cmdRun_port p),
    fun _ p _ h => cmdOf_ran (isCommandMember_port p) h (cmdRun_port p),
    fun _ p _ h => cmdOf_ran (isCommandMember_port p) h (cmdRun_port p),
    fun _ p _ h => cmdOf_ran (isCommandMember_port p) h (cmdRun_port p),
    fun _ p _ h => cmdOf_ran (isCommandMember_port p) h (cmdRun_port p),
    fun _ p _ h => cmdOf_ran (isCommandMember_port p) h (cmdRun_port p)⟩

/-- The three operands of `SW_BIND_CMD` are its bytes. -/
theorem bitsOf_bytes (c v b t : Byte) : bitsOf (operandOf [c, v, b, t]) 0 8 = v.toNat ∧
    bitsOf (operandOf [c, v, b, t]) 8 8 = b.toNat ∧ bitsOf (operandOf [c, v, b, t]) 16 8 = t.toNat := by
  have operand : operandOf [c, v, b, t] = v.toNat + 256 * (b.toNat + 256 * (t.toNat + 256 * 0)) := rfl
  rw [operand]
  unfold bitsOf
  omega

theorem cmdRun_bind {v b t : Byte} {row source seq : Nat} {readBack : Bool} {s : State} :
    cmdRun P.SW_BIND_CMD row [1#8, v, b, t] source seq readBack s = (bindStart v.toNat b.toNat t.toNat s, some (0, 0)) := by
  obtain ⟨hv, hb, ht⟩ := bitsOf_bytes 1#8 v b t
  have bind : cmdRun P.SW_BIND_CMD row [1#8, v, b, t] source seq readBack s =
    (bindStart (bitsOf (operandOf [1#8, v, b, t]) 0 8) (bitsOf (operandOf [1#8, v, b, t]) 8 8)
      (bitsOf (operandOf [1#8, v, b, t]) 16 8) s, some (0, 0)) := rfl
  rw [bind, hv, hb, ht]

theorem cmdRun_unbind {c v b : Byte} (hc : codeOf [c] ≠ 1) {row source seq : Nat} {readBack : Bool} {s : State} :
    cmdRun P.SW_BIND_CMD row [c, v, b, 0#8] source seq readBack s =
      (unbindStart (codeOf [c]) v.toNat b.toNat s, some (0, 0)) := by
  obtain ⟨hv, hb, -⟩ := bitsOf_bytes c v b 0#8
  have unbind : cmdRun P.SW_BIND_CMD row [c, v, b, 0#8] source seq readBack s =
    if codeOf [c] = 1 then
      (bindStart (bitsOf (operandOf [c, v, b, 0#8]) 0 8) (bitsOf (operandOf [c, v, b, 0#8]) 8 8)
        (bitsOf (operandOf [c, v, b, 0#8]) 16 8) s, some (0, 0))
    else (unbindStart (codeOf [c]) (bitsOf (operandOf [c, v, b, 0#8]) 0 8) (bitsOf (operandOf [c, v, b, 0#8]) 8 8) s,
      some (0, 0)) := rfl
  rw [unbind, if_neg hc, hv, hb]

/-- Settles O8: `SW_BIND_CMD` by its code. -/
theorem bindCommandsRun : Obligations.BindCommandsRun :=
  ⟨fun _ _ _ _ _ h => cmdOf_ran (n := P.SW_BIND_CMD) rfl h cmdRun_bind,
    fun _ _ _ _ h => cmdOf_ran (n := P.SW_BIND_CMD) rfl h (cmdRun_unbind (by decide)),
    fun _ _ _ _ h => cmdOf_ran (n := P.SW_BIND_CMD) rfl h (cmdRun_unbind (by decide)),
    fun _ _ _ _ h => cmdOf_ran (n := P.SW_BIND_CMD) rfl h (cmdRun_unbind (by decide))⟩

/-! ### DRAM, retirement and Corridor links -/

theorem cmdRun_retire (c : Byte) (x : BitVec 64) {row source seq : Nat} {readBack : Bool} {s : State} :
    cmdRun P.RETIRE_CMD row (c :: leBytes 8 x.toNat) source seq readBack s =
      ((retireStart (codeOf [c]) x.toNat s).1, (retireStart (codeOf [c]) x.toNat s).2.map fun d => (0, d)) := by
  have retire : cmdRun P.RETIRE_CMD row (c :: leBytes 8 x.toNat) source seq readBack s =
    ((retireStart (codeOf [c]) (operandOf (c :: leBytes 8 x.toNat)) s).1,
      (retireStart (codeOf [c]) (operandOf (c :: leBytes 8 x.toNat)) s).2.map fun d => (0, d)) := rfl
  rw [retire, operandOf_leBytes c x.isLt]

/-- Settles O9: `DRAM_APPLY` and `RETIRE_CMD` by their codes; `CL_CMD` has one. -/
theorem dramCommandsRun : Obligations.DramCommandsRun :=
  ⟨fun _ _ h => cmdOf_ran rfl h rfl, fun _ _ h => cmdOf_ran rfl h rfl,
    fun _ x _ h => cmdOf_ran (n := P.RETIRE_CMD) rfl h (cmdRun_retire 1#8 x),
    fun _ x _ h => cmdOf_ran (n := P.RETIRE_CMD) rfl h (cmdRun_retire 2#8 x),
    fun _ x _ h => cmdOf_ran (n := P.RETIRE_CMD) rfl h (cmdRun_retire 3#8 x),
    fun _ x _ h => cmdOf_ran (n := P.RETIRE_CMD) rfl h (cmdRun_retire 4#8 x),
    fun _ k _ h => cmdOf_ran (isCommandMember_link k) h (cmdRun_link k)⟩

end Sys2Proof.Machine
end

section
/-! Writes that are accepted: members that are written directly, staged members, selections and commits (02 R35, R42, R43,
R48, R49), and the paths on which an access reaches the sequencer (02 R40, 17 R418). -/

namespace Sys2Proof.Machine

/-! ### An access that checks 1 to 7 do not refuse -/

section
variable {r : Req} {g : GSpec} {p : PSpec} {row : Nat} {s : State}

/-- An admitted access goes out with its answer. -/
theorem access_admitted (h : admits17 r s = true) : access r s = deliver r (accessAns r s) := by
  obtain ⟨g, p, hpower, hkeeper, -⟩ := admits17_parts h
  exact if_pos (by rw [hpower, hkeeper]; rfl)

/-- An admitted write goes to its row. -/
theorem accessAns_doWrite (h : admits17 r s = true) (hop : r.op = 1) (hg : groupSpec (r.param / 256) = some g)
    (hp : paramSpec r.param = some p) (hselect : isSelect g r = false) (hrow : rowOf r s = some row) :
    accessAns r s = doWrite r g p row (s.dict.seq + 1) (judged r s) := by
  obtain ⟨g', p', -, -, hg', hp', hseq, hrights, hvalue, hholder⟩ := admits17_parts h
  obtain rfl : g = g' := Option.some.inj (hg.symm.trans hg')
  obtain rfl : p = p' := Option.some.inj (hp.symm.trans hp')
  have atRow : rowFor (judged r s) r.origin r.param g = some row := by simpa only [rowOf, hg] using hrow
  rw [accessAns_performed hg hp hseq hrights hvalue]
  unfold performAccess
  dsimp only
  rw [hholder]
  dsimp only
  rw [if_neg (by simp [hselect]), if_neg (by simp [hop])]
  show (match rowFor (judged r s) r.origin r.param g with | none => _ | some row => _) = _
  rw [atRow]
  rfl

/-- An admitted `SELECT` is asked only whether row values are staged. -/
theorem accessAns_select (h : admits17 r s = true) (hg : groupSpec (r.param / 256) = some g)
    (hselect : isSelect g r = true) : accessAns r s = writeSelect r (s.dict.seq + 1) (judged r s) := by
  obtain ⟨g', p, -, -, hg', hp, hseq, hrights, hvalue, hholder⟩ := admits17_parts h
  obtain rfl : g = g' := Option.some.inj (hg.symm.trans hg')
  rw [accessAns_performed hg hp hseq hrights hvalue]
  unfold performAccess
  dsimp only
  rw [hholder]
  exact if_pos hselect

/-! ### Members written directly -/

theorem commitValue_flash {n v : Nat} : commitValue p row n v s =
    (if (p.pers == .flash) = true then modDict (fun d => { d with flashQ := d.flashQ ++ [⟨pkey row n, v, none⟩] }) (putParam row n v s)
      else putParam row n v s, p.pers == .flash) := by
  unfold commitValue
  dsimp only
  by_cases h : p.pers = .flash <;> simp [h]

/-- A write that no check refuses: the value stands, then comes what follows from it. -/
theorem access_written (h : writeRuns r row s = true) (hop : r.op = 1) (hg : groupSpec (r.param / 256) = some g)
    (hp : paramSpec r.param = some p) (hty : p.ty ≠ .cmd) (hstaged : p.staged = false) (hselect : isSelect g r = false) :
    access r s = written r row (p.pers == .flash) s (afterWrite row r.param (prow (judged r s) row r.param) (leNat r.value)) := by
  unfold writeRuns at h
  simp only [Bool.and_eq_true, beq_iff_eq, Option.isNone_iff_eq_none] at h
  obtain ⟨⟨hadmits, hrow⟩, hrefused⟩ := h
  rw [access_admitted hadmits, accessAns_doWrite hadmits hop hg hp hselect hrow, doWrite_direct hty hstaged,
    writeDirect_written hrefused]
  rw [commitValue_flash]
  rfl

end

/-! ### The power settings: what follows from a write is found by the number of its member -/

/-- A member outside the table windows that is neither staged nor a command is written directly. -/
def writtenDirectly (n : Nat) (flash : Bool) : Bool :=
  match groupSpec (n / 256), paramSpec n with
  | some g, some p => p.ty != .cmd && !p.staged && g.rows == 0 && (p.pers == .flash) == flash
  | _, _ => false

theorem writeOf_written {o : Origin} {n ty : Nat} {flash : Bool} {value : List Byte} {s : State} {e : State → State}
    (hn : writtenDirectly n flash = true) (h : writeRuns (reqWrite o n ty 0 value) 0 s = true)
    (he : ∀ t, afterWrite 0 n (prow (judged (reqWrite o n ty 0 value) s) 0 n) (leNat value) t = e t) :
    (Host.Outcome.next (writeOf o n ty value s) : Out) = .next (written (reqWrite o n ty 0 value) 0 flash s e) := by
  unfold writtenDirectly at hn
  split at hn
  case h_2 => cases hn
  case h_1 g p hg hp =>
    simp only [Bool.and_eq_true, Bool.not_eq_true', bne_iff_ne, beq_iff_eq] at hn
    obtain ⟨⟨⟨hty, hstaged⟩, hrows⟩, hflash⟩ := hn
    have select : isSelect g (reqWrite o n ty 0 value) = false := by simp [isSelect, hrows]
    rw [← hflash, ← funext he]
    exact congrArg Host.Outcome.next (access_written h rfl hg hp hty hstaged select)

section
variable {old v : Nat} {t : State}

theorem afterWrite_shelfVote : afterWrite 0 P.PS_SHELF_VOTE old v t = psRecompute (if old < v then 4 else 8) t := rfl

theorem afterWrite_vcore (i : DieId) : afterWrite 0 (P.PS_VCORE + i.val) old v t =
    if old ≠ v ∧ diePowered t i.val then vcoreApply i.val old t else t := by
  fin_cases i <;> rfl

theorem afterWrite_pace (m : MemDie) : afterWrite 0 (P.PS_PACE + m.val) old v t = recomputeD t := by
  fin_cases m <;> rfl

theorem afterWrite_ddrRate (m : MemDie) : afterWrite 0 (P.PS_DDR_RATE + m.val) old v t =
    if old = v then t else ddrRateChanged m.val t := by
  fin_cases m <;> rfl

theorem afterWrite_serdesCap (x : LinkDie) : afterWrite 0 (P.PS_SERDES_CAP + x.val) old v t =
    if old = v then t else serdesCapChanged x.val old v t := by
  fin_cases x <;> rfl

theorem afterWrite_bitTime : afterWrite 0 P.CR_BIT_NS old v t = t := rfl

theorem afterWrite_fmPort : afterWrite 0 P.FM_PORT old v t = t := rfl

end

/-- Settles O11: each setting is written directly, and has its own consequence. -/
theorem powerSettingsWritten : Obligations.PowerSettingsWritten :=
  have vcore : ∀ i : DieId, writtenDirectly (P.PS_VCORE + i.val) true = true := by decide
  have pace : ∀ m : MemDie, writtenDirectly (P.PS_PACE + m.val) true = true := by decide
  have ddrRate : ∀ m : MemDie, writtenDirectly (P.PS_DDR_RATE + m.val) true = true := by decide
  have serdesCap : ∀ x : LinkDie, writtenDirectly (P.PS_SERDES_CAP + x.val) true = true := by decide
  ⟨fun _ _ _ h => writeOf_written rfl h fun _ => afterWrite_shelfVote,
    fun _ i _ _ h => writeOf_written (vcore i) h fun _ => afterWrite_vcore i,
    fun _ m _ _ h => writeOf_written (pace m) h fun _ => afterWrite_pace m,
    fun _ m _ _ h => writeOf_written (ddrRate m) h fun _ => afterWrite_ddrRate m,
    fun _ x _ _ h => writeOf_written (serdesCap x) h fun _ => afterWrite_serdesCap x,
    fun _ _ _ h => writeOf_written rfl h fun _ => afterWrite_bitTime,
    fun _ _ _ h => writeOf_written rfl h fun _ => afterWrite_fmPort⟩

/-! ### Members, selections and the flash -/

section
variable {r : Req} {g : GSpec} {p : PSpec} {row : Nat} {s : State}

/-- A staged write of a value that is no BLOB is held whole. -/
theorem writeStaged_held {grp seq : Nat} (hty : p.ty ≠ .blob) (hother : otherStaged s r.origin grp = false)
    (hclosed : groupClosed s r.param = false) : writeStaged r p grp seq s = accept r 0 seq []
      (modSession r.origin (fun x => { x with
        group := some grp, staged := smSet ((stagedOf s r.origin grp).getD []) (r.param % 256) r.value }) s) := by
  unfold writeStaged
  dsimp only
  rw [if_neg (by simp [hother, hclosed]), if_neg hty]

theorem writeSelect_moves {seq : Nat} (hheld : (stagedOf s r.origin (r.param / 256)).getD [] = []) :
    writeSelect r seq s = accept r 0 seq []
      (modSession r.origin (fun x => { x with cursors := smSet x.cursors (r.param / 256) (leNat r.value) }) s) := by
  unfold writeSelect
  dsimp only
  rw [if_neg (by simp [hheld])]

end

/-- The flash has programmed an entry for which no answer waits (02 R35, 18 R429). -/
theorem flashDone_silent {e : FlashEntry} {rest : List FlashEntry} {s : State} (h : s.dict.flashQ = e :: rest)
    (hreply : e.reply = none) : flashDone s = modSl (fun l => { l with journal := smSet l.journal e.key e.value })
      (modDict (fun d => { d with flashQ := rest }) s) := by
  unfold flashDone
  rw [h]
  dsimp only
  rw [hreply]

/-- The flash has programmed the entry for which an answer waits: it goes out, and a `COMMIT` ends. -/
theorem flashDone_answers {e : FlashEntry} {rest : List FlashEntry} {tgt : ReplyTo} {n : Nat} {x : Resp} {s : State}
    (h : s.dict.flashQ = e :: rest) (hreply : e.reply = some (tgt, n, x)) :
    flashDone s = respond tgt n x (cmdEnd (e.key / 2 ^ 24) n 0 0
      (modSl (fun l => { l with journal := smSet l.journal e.key e.value }) (modDict (fun d => { d with flashQ := rest }) s))) := by
  unfold flashDone
  rw [h]
  dsimp only
  rw [hreply]

/-- The member of a group as the number of a parameter. -/
theorem member_group (grp m : Nat) (hm : m < 256) : (grp * 256 + m) / 256 = grp ∧ (grp * 256 + m) % 256 = m := by omega

/-- Settles O13: a direct write, a staged write, a selection, and the flash. -/
theorem membersWritten : Obligations.MembersWritten := by
  refine ⟨fun o param ty off value row g p s hg hp hty hstaged hselect h => ?_,
    fun o param ty off value row g p s hg hp hty hblob hstaged hselect h hrow hother hclosed => ?_,
    fun o grp row g s hg hrows h hheld => ?_, fun e rest s hq hreply => ?_, fun e rest tgt n x s hq hreply => ?_⟩
  · exact congrArg Host.Outcome.next (access_written h rfl hg hp hty hstaged hselect)
  · have notCommit : isCommit g p param.toNat = false := by simp [isCommit, hty]
    refine congrArg Host.Outcome.next ((access_admitted h).trans ?_)
    rw [accessAns_doWrite h rfl hg hp hselect hrow]
    unfold doWrite
    rw [if_neg (by simp only [reqWrite, notCommit]; decide), if_neg hty, if_pos hstaged, writeStaged_held hblob hother hclosed]
    rfl
  · obtain ⟨group, member⟩ := member_group grp.toNat 1 (by decide)
    have hg' : groupSpec ((reqWrite o (grp.toNat * 256 + 1) 3 0 (leBytes 4 row.toNat)).param / 256) = some g := by
      rw [← hg]; exact congrArg groupSpec group
    have select : isSelect g (reqWrite o (grp.toNat * 256 + 1) 3 0 (leBytes 4 row.toNat)) = true := by
      simp [isSelect, reqWrite, hrows, member]
    refine congrArg Host.Outcome.next ((access_admitted h).trans ?_)
    rw [accessAns_select h hg' select, writeSelect_moves hheld]
    simp only [reqWrite, group, leNat_leBytes_toNat (n := 4) rfl row]
    rfl
  · exact congrArg Host.Outcome.next (flashDone_silent hq hreply)
  · exact congrArg Host.Outcome.next (flashDone_answers hq hreply)

/-! ### Commits -/

section
variable {r : Req} {g : GSpec} {p : PSpec} {row : Nat} {s : State}

theorem judged_dict (r : Req) (s : State) : (judged r s).dict = (numbered s).dict :=
  (Touches.onlyIf touches_wake : Touches [.ps] (numbered s) (judged r s)) .dict (by decide)

theorem isSelect_of_commit (h : isCommit g p r.param = true) : isSelect g r = false := by
  unfold isCommit at h
  simp only [Bool.and_eq_true, beq_iff_eq] at h
  simp [isSelect, h.2]

/-- A `COMMIT` of staged values, which no check refuses, is answered by what its group makes of it. -/
theorem commitGroup_applies {seq : Nat} (hpending : cmdPending s row r.param = false)
    (hheld : (stagedOf s r.origin (r.param / 256)).getD [] ≠ []) (hgrp : r.param / 256 ≠ 0x0003)
    (hrefused : commitRefused s (combined (r.param / 256) row ((stagedOf s r.origin (r.param / 256)).getD []) s) r.origin
      (r.param / 256) row ((stagedOf s r.origin (r.param / 256)).getD []) = none) :
    commitGroup r g row seq s =
      let q := commitAll g (r.param / 256) row ((stagedOf s r.origin (r.param / 256)).getD [])
        (beforeCommit (r.param / 256) row s)
      let e := afterCommit (r.param / 256) row s (cmdStart r row 1 0 seq (dropStaged r.origin q.1))
      if e.2 then accept r 1 seq [] e.1
      else if q.2 then acceptWrite r seq true e.1
      else accept r 0 seq [] (cmdEnd row r.param 0 0 e.1) := by
  unfold commitGroup
  dsimp only
  rw [if_neg (by simp [hpending]), if_neg hheld, if_neg hgrp, hrefused]

/-- A `COMMIT` of `OWNER` has rules of its own. -/
theorem commitGroup_owner {seq : Nat} (hpending : cmdPending s row r.param = false)
    (hheld : (stagedOf s r.origin (r.param / 256)).getD [] ≠ []) (hgrp : r.param / 256 = 0x0003) :
    commitGroup r g row seq s = commitOwner r row seq ((stagedOf s r.origin (r.param / 256)).getD []) s := by
  unfold commitGroup
  dsimp only
  rw [if_neg (by simp [hpending]), if_neg hheld, if_pos hgrp]

theorem doWrite_commit {seq : Nat} (hcommit : isCommit g p r.param = true) (hvalue : r.value = [0#8]) :
    doWrite r g p row seq s = commitGroup r g row seq s := by
  unfold doWrite
  rw [if_pos hcommit, if_pos hvalue]

/-- The answer to a `COMMIT` goes out at once, or it waits for the flash. -/
theorem deliver_commit {goes owed : Bool} {t : State} :
    deliver r (if goes then accept r 1 (s.dict.seq + 1) [] t
      else if owed then acceptWrite r (s.dict.seq + 1) true t
      else accept r 0 (s.dict.seq + 1) [] (cmdEnd row r.param 0 0 t)) = commitAnswered r row goes owed s t := by
  cases goes <;> cases owed <;> rfl

/-- A `COMMIT` that no check refuses: all staged values stand, with what the group makes of them. -/
theorem access_commit (h : commitRuns r row s = true) (hop : r.op = 1) (hvalue : r.value = [0#8])
    (hg : groupSpec (r.param / 256) = some g) (hp : paramSpec r.param = some p) (hcommit : isCommit g p r.param = true)
    (hgrp : r.param / 256 ≠ 0x0003) : access r s =
      let e := afterCommit (r.param / 256) row (judged r s) (committing r g row s).1
      commitAnswered r row e.2 (committing r g row s).2 s e.1 := by
  unfold commitRuns at h
  simp only [Bool.and_eq_true, Bool.not_eq_true', beq_iff_eq, bne_iff_ne, Option.isNone_iff_eq_none] at h
  obtain ⟨⟨⟨⟨hadmits, hrow⟩, hpending⟩, hheld⟩, hrefused⟩ := h
  rw [access_admitted hadmits, accessAns_doWrite hadmits hop hg hp (isSelect_of_commit hcommit) hrow]
  rw [doWrite_commit hcommit hvalue, commitGroup_applies hpending hheld hgrp hrefused]
  exact deliver_commit

/-- A `COMMIT` that discards what is staged. -/
theorem access_discard (h : admits17 r s = true) (hrow : rowOf r s = some row) (hop : r.op = 1) (hvalue : r.value = [1#8])
    (hg : groupSpec (r.param / 256) = some g) (hp : paramSpec r.param = some p) (hcommit : isCommit g p r.param = true)
    (hpending : cmdPending (judged r s) row r.param = false) (hclosed : groupClosed (judged r s) r.param = false)
    (hstaged : (stagedOf (judged r s) r.origin (r.param / 256)).isSome = true) :
    access r s = respond r.tgt r.param ⟨0, r.ty, s.dict.seq + 1, []⟩
      (modSession r.origin id (cmdStart r row 0 0 (s.dict.seq + 1) (dropStaged r.origin (judged r s)))) := by
  obtain ⟨staged, hstaged⟩ := Option.isSome_iff_exists.1 hstaged
  rw [access_admitted h, accessAns_doWrite h hop hg hp (isSelect_of_commit hcommit) hrow]
  unfold doWrite commitDiscarded
  rw [if_pos hcommit, if_neg (by simp [hvalue]), if_neg (by simp [hpending]), if_neg (by simp [hclosed]), hstaged]
  rfl

end

/-- The member `COMMIT` of a staged group. -/
def commitMember : PSpec := ⟨0x02, 1, .cmd, .cmd, 16, 0, .any, false, .fixed⟩

theorem groupSpec_owners : groupSpec (0x000302 / 256) = some ⟨0x0003, 1, 0, true, 61440, true, members0003⟩ := rfl

theorem groupSpec_regions : groupSpec (0x780102 / 256) = some ⟨0x7801, 1, 1, true, 10240, true, members7801⟩ := rfl

theorem paramSpec_ownerCommit : paramSpec 0x000302 = some commitMember := rfl

theorem paramSpec_regionCommit : paramSpec 0x780102 = some commitMember := rfl

theorem cmdReq_param (o : Origin) (n : Nat) (arg : List Byte) : (cmdReq o n arg).param = n := rfl

/-! ### Lodgings, owners and region checkers -/

section
variable {o : Origin} {n : LodgeId} {g : GSpec} {s : State}

theorem lodgeCommit_group (n : Nat) : lodgeCommit n / 256 = 0x1000 + n := by unfold lodgeCommit; omega

theorem lodgeCommit_member (n : Nat) : lodgeCommit n % 256 = 2 := by unfold lodgeCommit; omega

theorem paramSpec_lodgeCommit (n : LodgeId) :
    paramSpec (lodgeCommit n.val) = some commitMember := by
  unfold paramSpec
  rw [lodgeCommit_group, lodgeCommit_member, groupSpec_lodge n.isLt]
  rfl

/-- A `COMMIT` of a lodging's group that no check refuses begins its creation or changes it (03 R82, R83). -/
theorem cmdOf_lodgeCommit (hg : groupSpec (0x1000 + n.val) = some g)
    (h : commitRuns (cmdReq o (lodgeCommit n.val) [0#8]) 0 s = true) :
    cmdOf o (lodgeCommit n.val) [0#8] s =
      let k := committing (cmdReq o (lodgeCommit n.val) [0#8]) g 0 s
      let e := lodgeCommitted n.val (judged (cmdReq o (lodgeCommit n.val) [0#8]) s) k.1
      commitAnswered (cmdReq o (lodgeCommit n.val) [0#8]) 0 e.2 k.2 s e.1 := by
  have group : (cmdReq o (lodgeCommit n.val) [0#8]).param / 256 = 0x1000 + n.val := lodgeCommit_group n.val
  have kind (u t : State) : afterCommit (0x1000 + n.val) 0 u t = lodgeCommitted n.val u t := by
    unfold afterCommit
    rw [groupKind_of_spec (groupSpec_lodge n.isLt), Nat.add_sub_cancel_left]
    rfl
  have commits : isCommit g commitMember (lodgeCommit n.val) = true := by
    obtain rfl := Option.some.inj (hg.symm.trans (groupSpec_lodge n.isLt))
    simp [isCommit, lodgeCommit_member, commitMember]
  have applied := access_commit h rfl rfl (group.symm ▸ hg) (paramSpec_lodgeCommit n) commits (by rw [group]; omega)
  rw [group, kind] at applied
  exact applied

theorem lodgeAt_judged (r : Req) (n : Nat) : lodgeAt (judged r s) n = lodgeAt s n := by
  have lod : (judged r s).lod = s.lod :=
    (Touches.onlyIf touches_wake : Touches [.ps] (numbered s) (judged r s)) .lod (by decide)
  unfold lodgeAt
  rw [lod]

/-- The owner of a group is asked in the state an access is judged in. -/
theorem ownerOf_judged (r : Req) (grp : Nat) : ownerOf (judged r s) grp = ownerOf s grp := by
  unfold ownerOf
  rw [judged_dict]
  rfl

/-- A `COMMIT` of `OWNER` by one who may give the group (02 R48). -/
theorem commitOwner_gives {r : Req} {row seq : Nat} {staged : SMap (List Byte)} (hg : groupSpec row = some g)
    (hfixed : g.ownerFixed = false)
    (howner : (srcClass s r.origin).owner = ownerOf s row ∨ srcClass s r.origin = .courierPresent) :
    commitOwner r row seq staged s = acceptWrite r seq true (cmdStart r row 1 0 seq (dropStaged r.origin (modDict (fun d => { d with
      owners := smSet d.owners row (leNat (smGet [] staged 0x10))
      flashQ := d.flashQ ++ [⟨pkey row P.OWNER, leNat (smGet [] staged 0x10), none⟩] }) s))) := by
  have allowed : ownerCommitFault s r.origin row = none := by
    unfold ownerCommitFault
    rw [hg]
    dsimp only
    rw [if_neg (by simp [hfixed]), if_neg (by tauto)]
  unfold commitOwner
  rw [allowed]

end

/-- Settles O12: each commit is the commit of its group, whose chapter says what follows. -/
theorem commitsApply : Obligations.CommitsApply := by
  refine ⟨fun o grp row g p s hg hp hcommit hgrp h => ?_, fun o grp row g p s hg hp hcommit h hrow hpending hclosed hstaged => ?_,
    fun o n g s hg h hfree => ?_, fun o n g s hg h hfree => ?_, fun o row g s hg hfixed h hrow hpending hheld howner => ?_,
    fun o row g s hg h => ?_⟩
  · have group : (cmdReq o (grp.toNat * 256 + 2) [0#8]).param / 256 = grp.toNat := (member_group grp.toNat 2 (by decide)).1
    have notOwner : grp.toNat ≠ 0x0003 := fun h3 => hgrp (BitVec.eq_of_toNat_eq h3)
    have applied := access_commit h rfl rfl (group.symm ▸ hg) hp hcommit (group.symm ▸ notOwner)
    rw [group] at applied
    exact congrArg Host.Outcome.next applied
  · have group : (cmdReq o (grp.toNat * 256 + 2) [1#8]).param / 256 = grp.toNat := (member_group grp.toNat 2 (by decide)).1
    exact congrArg Host.Outcome.next
      (access_discard h hrow rfl rfl (group.symm ▸ hg) hp hcommit hpending hclosed (group.symm ▸ hstaged))
  · refine congrArg Host.Outcome.next ((cmdOf_lodgeCommit hg h).trans ?_)
    unfold lodgeCommitted
    dsimp only
    rw [lodgeAt_judged, if_pos hfree]
  · refine congrArg Host.Outcome.next ((cmdOf_lodgeCommit hg h).trans ?_)
    unfold lodgeCommitted
    dsimp only
    rw [lodgeAt_judged, if_neg hfree]
  · refine congrArg Host.Outcome.next ((access_admitted h).trans (congrArg (deliver _) ?_))
    have commits : isCommit ⟨0x0003, 1, 0, true, 61440, true, members0003⟩ commitMember 0x000302 = true := rfl
    have group : (cmdReq o 0x000302 [0#8]).param / 256 = 0x0003 := by rw [cmdReq_param]
    rw [accessAns_doWrite h rfl groupSpec_owners paramSpec_ownerCommit (isSelect_of_commit commits) hrow,
      doWrite_commit commits rfl, commitGroup_owner (r := cmdReq o 0x000302 [0#8]) hpending hheld group,
      commitOwner_gives hg hfixed (by rw [ownerOf_judged]; exact howner)]
    rfl
  · have group : (cmdReq o 0x780102 [0#8]).param / 256 = 0x7801 := by rw [cmdReq_param]
    obtain rfl := Option.some.inj (groupSpec_regions.symm.trans hg)
    have commits : isCommit ⟨0x7801, 1, 1, true, 10240, true, members7801⟩ commitMember 0x780102 = true := rfl
    have kind (u t : State) : afterCommit 0x7801 row u t = (regionCommit row (prow t row P.REGION_REG)
      (modDict (fun d => { d with params := smErase d.params (pkey row P.REGION_REG) }) t), false) := rfl
    have applied := access_commit h rfl rfl groupSpec_regions paramSpec_regionCommit commits (by rw [group]; omega)
    rw [group, kind] at applied
    exact congrArg Host.Outcome.next applied

end Sys2Proof.Machine
end

section
/-! The paths of an access, refuted as stated: a read that finds a saturated count raises its alert (02 R35, 15 R391). -/

namespace Sys2Proof.Machine

/-- The FM API's mailbox is open on port 17, and the main input's energy count stands at all ones. -/
def energySaturated : State :=
  modHs (fun h => { h with energy := 2 ^ 64 - 1 })
    (modSw (fun w => { w with vcs := [(32 * 17, 0x40)] })
      (modPortAt 17 (fun x => { x with link := .up, width := 16, rate := 5 })
        (putParam 0 P.FM_PORT 17 (putParam 0 (P.PORT_ROLE + 256 * 17) 1
          { State.reset with
            sl := { fuseP := true, fuseY := true, operatorId := 7, bootStage := .ready }
            world := { keeperUp := true } }))))

/-- A read of `HS_ENERGY`, a U64. -/
def energyRead : List Byte := leBytes 12 (P.HS_ENERGY + 4 * 2 ^ 32 + 8 * 2 ^ 48)

/-- What the read of the saturated count leaves in the error log. -/
theorem energyRead_logs : (mailboxAccess 17 0 energyRead energySaturated).unit.logSeq = 1 := by decide +kernel

/-- An answer goes out without a word to the error log. -/
theorem deliver_unit (r : Req) (a : Ans) : (deliver r a).unit = a.after.unit := by
  unfold deliver
  split
  · rfl
  · exact touches_respond .unit (by decide)

/-- A read of a member takes nothing to the error log by itself. -/
theorem doRead_unit (r : Req) (g : GSpec) (p : PSpec) (seq : Nat) (s : State) : (doRead r g p seq s).after.unit = s.unit := by
  unfold doRead
  dsimp only
  split
  · rfl
  · show (if _ then afterDraw s else s).unit = s.unit
    split <;> rfl

/-- Refutes O14: `HS_ENERGY` stands at all ones, and the read of it over the mailbox raises an alert, which the statement
leaves out. -/
theorem not_accessPaths : ¬ Obligations.AccessPaths := by
  intro h
  obtain ⟨read, -⟩ := h
  have answered := read 17 energyRead _ _ energySaturated (by decide +kernel) (by decide +kernel) (by decide +kernel)
    (by decide +kernel) (show _ = some (_ : GSpec) from rfl) (show _ = some (_ : PSpec) from rfl) (by decide +kernel)
  have logged := energyRead_logs
  rw [Host.Outcome.next.inj answered, deliver_unit, doRead_unit] at logged
  exact absurd logged (by decide +kernel)

end Sys2Proof.Machine
end

section
/-! The FM API: a command heard on `FM_PORT` is a series of reads, or one write of a command member (02 R40, R41, 09 R252). -/

namespace Sys2Proof.Machine

/-! ### Heard on `FM_PORT` -/

/-- A command that is heard on `FM_PORT` is answered there. -/
theorem fmCommand_heard {p : PortId} {f : State → State × Nat × List Byte} {s : State} (h : fmOpen p s = true) :
    fmCommand p f s = mailboxReply p.val (f s).2.1 (f s).2.2 (f s).1 := by
  unfold fmOpen at h
  simp only [Bool.and_eq_true, beq_iff_eq] at h
  obtain ⟨⟨hup, hrole⟩, hfm⟩ := h
  unfold fmCommand
  rw [if_neg (by simp [hup, hrole]), if_neg (by simp [hfm])]

theorem fmCommand_answers {p : PortId} {f : State → State × Nat × List Byte} {s t : State} {code : Nat} {bytes : List Byte}
    (h : fmOpen p s = true) (hf : f s = (t, code, bytes)) :
    (Host.Outcome.next (fmCommand p f s) : Out) = .next (emit (.mailbox p.val code bytes) t) := by
  rw [fmCommand_heard h, hf]
  rfl

/-! ### Queries -/

/-- A query all of whose reads are answered gives Success and their bytes. -/
theorem fmQuery_answers {pre : List Byte} {l : List (Nat × Nat × Nat)} {s : State} (h : (fmReads l s).2.1 = 0) :
    fmQuery pre l s = ((fmReads l s).1, 0, pre ++ (fmReads l s).2.2) := by
  unfold fmQuery
  dsimp only
  rw [if_pos h, h]
  rfl

/-- Settles O15: each query is its reads, or a fixed answer. -/
theorem fmQueriesAnswer : Obligations.FmQueriesAnswer := by
  refine ⟨fun p s hopen hreads => fmCommand_answers hopen (fmQuery_answers hreads),
    fun p s hopen hnone => fmCommand_answers hopen ?_,
    fun p j m s hopen hlast hreads => fmCommand_answers hopen ?_,
    fun p s hopen => fmCommand_answers hopen rfl,
    fun p s hopen hreads => fmCommand_answers hopen (fmQuery_answers hreads),
    fun p ports s hopen hreads => fmCommand_answers hopen (fmQuery_answers hreads),
    fun p s hopen hreads => fmCommand_answers hopen (fmQuery_answers hreads),
    fun p s hopen hreads => fmCommand_answers hopen (fmQuery_answers hreads),
    fun p host s hopen hrole => fmCommand_answers hopen (by rw [if_pos hrole, if_pos hrole]),
    fun p region length block s hopen hregion hlength hblock => fmCommand_answers hopen ?_,
    fun p host s hopen hreads => fmCommand_answers hopen (fmQuery_answers hreads)⟩
  · unfold fmBackground
    rw [hnone]
  · unfold fmBackground
    rw [hlast]
    exact fmQuery_answers hreads
  · unfold fmSetRegion
    rw [if_pos ⟨hregion, hlength, hblock⟩]

/-! ### Commands -/

section
variable {row : Nat} {s : State}

/-- The record of a command that ends at once with `OK` reads `OK`. -/
theorem cmdAt_acted_ok {r : Req} {t : State} : (cmdAt (acted r row s (t, some (0, 0))) row r.param).status = 0 := by
  unfold cmdAt acted
  dsimp only
  rw [modDict_dict, smGet_put_same]

/-- A command of a group without rows that no check refuses: its effect and the status of its answer. -/
theorem accessAns_command {r : Req} {g : GSpec} {p : PSpec} (h : commandRuns r 0 s = true) (hop : r.op = 1)
    (hg : groupSpec (r.param / 256) = some g) (hp : paramSpec r.param = some p) (hty : p.ty = .cmd)
    (hcommit : isCommit g p r.param = false) (hselect : isSelect g r = false) {e : State × Option (Nat × Nat)}
    (he : cmdRun r.param 0 r.value (srcClass (judged r s) r.origin).code (s.dict.seq + 1) r.readBack (begun r 0 s) = e) :
    accessAns r s = ⟨acted r 0 s e, ⟨if (cmdAt (acted r 0 s e) 0 r.param).status = 0 then 0 else 1, r.ty, s.dict.seq + 1, []⟩,
      false⟩ := by
  unfold commandRuns at h
  simp only [Bool.and_eq_true, beq_iff_eq, Bool.or_eq_true, Bool.not_eq_true', Option.isNone_iff_eq_none] at h
  obtain ⟨⟨⟨hadmits, hrow⟩, hpending⟩, hrefused⟩ := h
  rw [accessAns_doWrite hadmits hop hg hp hselect hrow, ← he]
  unfold doWrite
  rw [if_neg (by simp [hcommit]), if_pos hty]
  unfold writeCmd
  rw [if_neg (by rintro ⟨h1, h2⟩; rcases hpending with h | h <;> simp_all), hrefused]
  rfl

/-- A command written by the FM API, and the background command it may have started. -/
theorem fmWrite_cmd {n : Nat} {arg : List Byte} : fmWrite n 12 arg s =
    (onlyIf ((accessAns (cmdReq .fmApi n arg) s).resp.status == 1) (modDict fun d => { d with lastBg := some (0, n) })
      (accessAns (cmdReq .fmApi n arg) s).after, (accessAns (cmdReq .fmApi n arg) s).resp.status) := rfl

/-- A write by the FM API of a command that ends at once: its effect, and `OK`. -/
theorem fmWrite_ends {n : Nat} {arg : List Byte} {f : State → State} (hn : isCommandMember n = true)
    (h : commandRuns (cmdReq .fmApi n arg) 0 s = true)
    (hf : ∀ source seq t, cmdRun n 0 arg source seq true t = endsOk f t) :
    fmWrite n 12 arg s = (acted (cmdReq .fmApi n arg) 0 s (endsOk f (begun (cmdReq .fmApi n arg) 0 s)), 0) := by
  unfold isCommandMember at hn
  split at hn
  case h_2 => cases hn
  case h_1 g p hg hp =>
    simp only [Bool.and_eq_true, Bool.not_eq_true', beq_iff_eq] at hn
    obtain ⟨⟨hty, hcommit⟩, hselect⟩ := hn
    have answer := accessAns_command h rfl hg hp hty hcommit ((Bool.and_assoc ..).trans hselect) (hf _ _ _)
    rw [fmWrite_cmd, answer, endsOk, cmdAt_acted_ok (r := cmdReq .fmApi n arg)]
    rfl

/-- A command that is one write of a member whose command ends at once is answered Success. -/
theorem fmCmd_ends {p : PortId} {n : Nat} {arg : List Byte} {f : State → State} (hopen : fmOpen p s = true)
    (hn : isCommandMember n = true) (h : commandRuns (cmdReq .fmApi n arg) 0 s = true)
    (hf : ∀ source seq t, cmdRun n 0 arg source seq true t = endsOk f t) :
    (Host.Outcome.next (fmCommand p (fmCmd n arg) s) : Out) =
      .next (emit (.mailbox p.val 0 []) (acted (cmdReq .fmApi n arg) 0 s (endsOk f (begun (cmdReq .fmApi n arg) 0 s)))) :=
  fmCommand_answers hopen (by unfold fmCmd; dsimp only; rw [fmWrite_ends hn h hf]; rfl)

/-! ### Capacity -/

/-- `HOST_PORTS` is staged, then committed; the answer is that of the commit. -/
theorem fmHostPorts_commits {n ports : Nat}
    (hstaged : (accessAns (reqWrite .fmApi (P.HOST_PORTS + 256 * n) 4 0 (leBytes 8 ports)) s).resp.status = 0)
    (hcommit : (accessAns (cmdReq .fmApi (lodgeCommit n) [0#8])
      (accessAns (reqWrite .fmApi (P.HOST_PORTS + 256 * n) 4 0 (leBytes 8 ports)) s).after).resp.status ≤ 1) :
    fmHostPorts n ports s =
      let a := accessAns (cmdReq .fmApi (lodgeCommit n) [0#8])
        (accessAns (reqWrite .fmApi (P.HOST_PORTS + 256 * n) 4 0 (leBytes 8 ports)) s).after
      (onlyIf (a.resp.status == 1) (modDict fun d => { d with lastBg := some (0, lodgeCommit n) }) a.after, a.resp.status, []) := by
  have code (st : Nat) (h : st ≤ 1) : fmCode st = st := by
    interval_cases st <;> rfl
  have staged : fmWrite (P.HOST_PORTS + 256 * n) 4 (leBytes 8 ports) s =
      ((accessAns (reqWrite .fmApi (P.HOST_PORTS + 256 * n) 4 0 (leBytes 8 ports)) s).after, 0) := by
    unfold fmWrite
    dsimp only
    rw [hstaged]
    rfl
  unfold fmHostPorts fmCmd
  rw [staged]
  dsimp only
  rw [if_pos rfl]
  rw [fmWrite_cmd, code _ hcommit]

end

/-- Settles O16: each command is one write of `PORT_CMD` or `SW_BIND_CMD`, or a commit of `HOST_PORTS`. -/
theorem fmCommandsAct : Obligations.FmCommandsAct := by
  have port (t : PortId) (arg : List Byte) (source seq : Nat) (u : State) :
      cmdRun (P.PORT_CMD + 256 * t.val) 0 arg source seq true u = endsOk (portCmd t.val (codeOf arg)) u := cmdRun_port t
  refine ⟨fun p t s hopen h => fmCmd_ends hopen (isCommandMember_port t) h (port t _),
    fun p t s hopen h => fmCmd_ends hopen (isCommandMember_port t) h (port t _),
    fun p t s hopen h => fmCmd_ends hopen (isCommandMember_port t) h (port t _),
    fun p v b tgt s hopen h => fmCommand_answers hopen ?_,
    fun p v b s hopen h => fmCmd_ends (n := P.SW_BIND_CMD) hopen rfl h fun _ _ _ => cmdRun_unbind (by decide),
    fun p v b s hopen h => fmCmd_ends (n := P.SW_BIND_CMD) hopen rfl h fun _ _ _ => cmdRun_unbind (by decide),
    fun p v b s hopen h => fmCmd_ends (n := P.SW_BIND_CMD) hopen rfl h fun _ _ _ => cmdRun_unbind (by decide),
    fun p host region tag n s hopen htag hregion hstaged hcommit => fmCommand_answers hopen ?_,
    fun p host tag n s hopen htag hstaged hcommit => fmCommand_answers hopen ?_⟩
  · have bound := fmWrite_ends (n := P.SW_BIND_CMD) rfl h fun _ _ _ => cmdRun_bind
    unfold fmBind
    rw [bound]
    rfl
  · unfold fmAdd
    rw [htag]
    dsimp only
    rw [if_pos hregion, fmHostPorts_commits hstaged hcommit]
  · unfold fmRelease
    rw [htag]
    dsimp only
    rw [if_neg Bool.false_ne_true, fmHostPorts_commits hstaged hcommit]

end Sys2Proof.Machine
end

section
/-! A change of `FM_PORT` discards the FM API's session (02 R55). -/

namespace Sys2Proof.Machine

/-! ### Sessions -/

/-- Making room for a session discards others, and opens none. -/
theorem mem_of_mem_makeRoom {o : Origin} {l : List Session} {x : Session} (h : x ∈ makeRoom o l) : x ∈ l := by
  unfold makeRoom at h
  split at h
  · split at h
    · exact (List.mem_filter.1 h).1
    · exact h
  · exact h

/-- The session an origin goes on with: its own, or a new one that holds nothing. -/
def sessionKept (s : State) (o : Origin) : Session :=
  { (sessionOf s o).getD { origin := o, used := 0 } with used := s.dict.uses }

/-- After the use of an origin's session every session is one from before, or that one. -/
theorem mem_sessions_modSession {o : Origin} {s : State} {x : Session} (h : x ∈ (modSession o id s).dict.sessions) :
    x ∈ s.dict.sessions ∨ x = sessionKept s o := by
  unfold modSession at h
  rw [modDict_dict, List.mem_append, List.mem_singleton] at h
  refine h.imp_left fun hrest => ?_
  split at hrest
  · exact (List.mem_filter.1 hrest).1
  · exact mem_of_mem_makeRoom hrest

theorem sessionOf_origin {s : State} {o : Origin} {x : Session} (h : sessionOf s o = some x) :
    x ∈ s.dict.sessions ∧ x.origin = o :=
  ⟨List.mem_of_find?_eq_some h, by simpa using List.find?_some h⟩

theorem sessionKept_origin (s : State) (o : Origin) : (sessionKept s o).origin = o := by
  unfold sessionKept
  cases h : sessionOf s o with
  | none => rfl
  | some x => exact (sessionOf_origin h).2

/-- Where an origin has no session, none or a new one that holds nothing stands after the use of any session. -/
theorem sessionOf_modSession_fresh {o p : Origin} {s : State} {x : Session} (hnone : ∀ y ∈ s.dict.sessions, y.origin ≠ p)
    (h : sessionOf (modSession o id s) p = some x) : x.staged = [] ∧ x.group = none ∧ x.cursors = [] := by
  obtain ⟨hmem, horigin⟩ := sessionOf_origin h
  rcases mem_sessions_modSession hmem with hold | rfl
  · exact absurd horigin (hnone x hold)
  · obtain rfl : o = p := (sessionKept_origin s o).symm.trans horigin
    have none : sessionOf s o = none := List.find?_eq_none.2 fun y hy => by simpa using hnone y hy
    unfold sessionKept
    rw [none]
    exact ⟨rfl, rfl, rfl⟩

/-! ### The write of `FM_PORT` -/

theorem pnum_judged (r : Req) (s : State) (n : Nat) : pnum (judged r s) n = pnum s n := prow_congr 0 n (judged_params r s)

/-- A write that changes `FM_PORT` finds no session of the FM API when it takes effect. -/
theorem sessions_beforeWrite_fmPort {v : Nat} {s : State} (h : pnum s P.FM_PORT ≠ v) :
    ∀ y ∈ (beforeWrite P.FM_PORT v s).dict.sessions, y.origin ≠ .fmApi := by
  unfold beforeWrite
  rw [if_pos ⟨rfl, h⟩]
  intro y hy
  simpa using (List.mem_filter.1 hy).2

theorem commitValue_sessions (p : PSpec) (row n v : Nat) (s : State) :
    (commitValue p row n v s).1.dict.sessions = s.dict.sessions := by
  unfold commitValue
  dsimp only
  split <;> rfl

/-- `FM_PORT` is written directly, and answered when the flash holds it. -/
theorem paramSpec_fmPort : paramSpec P.FM_PORT = some ⟨0x05, 1, .u8, .rw, 1, 255, .oneOf 0 63 0xFF, false, .flash⟩ := rfl

theorem accessAns_fmPort {r : Req} {s : State} (hop : r.op = 1) (hparam : r.param = P.FM_PORT)
    (h : writeRuns r 0 s = true) : accessAns r s = acceptWrite r (s.dict.seq + 1) true
      (commitValue ⟨0x05, 1, .u8, .rw, 1, 255, .oneOf 0 63 0xFF, false, .flash⟩ 0 P.FM_PORT (leNat r.value)
        (beforeWrite P.FM_PORT (leNat r.value) (judged r s))).1 := by
  unfold writeRuns at h
  simp only [Bool.and_eq_true, Option.isNone_iff_eq_none] at h
  obtain ⟨⟨hadmits, -⟩, hrefused⟩ := h
  have group : groupSpec (r.param / 256) = some ⟨0x0002, 1, 0, true, 0, false, members0002⟩ := by rw [hparam]; rfl
  rw [accessAns_write hadmits hop group (hparam ▸ paramSpec_fmPort) rfl, doWrite_direct (by decide) rfl,
    writeDirect_written hrefused, hparam, afterWrite_fmPort]
  rfl

/-- Settles O50: the session is gone before the write takes effect, and the writer's own is new. -/
theorem fmPortChangeDropsSession : Obligations.FmPortChangeDropsSession := by
  intro r s hop hparam hruns hchange
  have noSession := sessions_beforeWrite_fmPort (v := leNat r.value) (s := judged r s) (by rw [pnum_judged]; exact hchange.symm)
  rw [accessAns_fmPort hop hparam hruns]
  refine ⟨rfl, (prow_modSession r.origin id 0 P.FM_PORT _).trans (prow_commitValue _ 0 _ _ _), fun x hx => ?_⟩
  exact sessionOf_modSession_fresh (by rw [commitValue_sessions]; exact noSession) hx

end Sys2Proof.Machine
end

section
/-! The frames of the host's side: mailboxes, the egress of ports, extents, the directory, offload queues, and the worlds. -/

namespace Sys2Proof.Machine

section
variable {l m : List Part} {s t u : State}

/-! ### Frames put together -/

/-- An operation whose frame lies within that of what went before. -/
theorem Touches.into (k : Touches m t u) (h : Touches l s t) (hm : framedBy m l = true) : Touches l s u :=
  fun p hp => by
    have before := h p hp
    have behind := k.within hm p hp
    cases p <;> exact behind.trans before

theorem Touches.either {c : Prop} [Decidable c] (ht : Touches l s t) (hu : Touches l s u) :
    Touches l s (if c then t else u) := by
  split
  · exact ht
  · exact hu

/-- A state carried along a list beside a result. -/
theorem Touches.foldl_fst {α β : Type} {f : State × β → α → State × β} (hf : ∀ q a, Touches l q.1 (f q a).1) (xs : List α)
    (q : State × β) : Touches l q.1 (xs.foldl f q).1 := by
  induction xs generalizing q with
  | nil => exact .same
  | cons a xs ih => exact (ih (f q a)).into (hf q a) (by simp [framedBy])

theorem Touches.foldl_snd {α β : Type} {f : β × State → α → β × State} (hf : ∀ q a, Touches l q.2 (f q a).2) (xs : List α)
    (q : β × State) : Touches l q.2 (xs.foldl f q).2 := by
  induction xs generalizing q with
  | nil => exact .same
  | cons a xs ih => exact (ih (f q a)).into (hf q a) (by simp [framedBy])

theorem touches_modWorld {f : Worlds → Worlds} : Touches [.world] s (modWorld f s) := touches_grafted (u := modWorld f s)
theorem touches_modLink {f : SMap CorrLink → SMap CorrLink} : Touches [.link] s (modLink f s) :=
  touches_grafted (u := modLink f s)
theorem touches_modLod {f : Lodgings → Lodgings} : Touches [.lod] s (modLod f s) := touches_grafted (u := modLod f s)
theorem touches_modSw {f : Switch → Switch} : Touches [.sw] s (modSw f s) := touches_grafted (u := modSw f s)
theorem touches_modReg {f : Regulation → Regulation} : Touches [.reg] s (modReg f s) := touches_grafted (u := modReg f s)
theorem touches_modLc {f : SMap LcLine → SMap LcLine} : Touches [.lc] s (modLc f s) := touches_grafted (u := modLc f s)
theorem touches_modTier {f : Tier → Tier} : Touches [.tier] s (modTier f s) := touches_grafted (u := modTier f s)
theorem touches_modCoh {f : Coherence → Coherence} : Touches [.coh] s (modCoh f s) := touches_grafted (u := modCoh f s)
theorem touches_modJob {f : Offload → Offload} : Touches [.job] s (modJob f s) := touches_grafted (u := modJob f s)

theorem touches_modPortAt {p : Nat} {f : Port → Port} : Touches [.port] s (modPortAt p f s) := touches_modPort
theorem touches_modLinkAt {k : Nat} {f : CorrLink → CorrLink} : Touches [.link] s (modLinkAt k f s) := touches_modLink
theorem touches_modLodge {n : Nat} {f : Lodge → Lodge} : Touches [.lod] s (modLodge n f s) := touches_modLod
theorem touches_modExt {p : Nat} {f : List Extent → List Extent} : Touches [.lod] s (modExt p f s) := touches_modLod
theorem touches_modQueue {q : Nat} {f : Queue → Queue} : Touches [.job] s (modQueue q f s) := touches_modJob
theorem touches_modUnitRec {v : Nat} {f : UnitRec → UnitRec} : Touches [.unit] s (modUnitRec v f s) := touches_modUnit

/-! ### Mailboxes -/

theorem touches_mailboxReply {p code : Nat} {bytes : List Byte} : Touches [.out] s (mailboxReply p code bytes s) :=
  touches_emit

theorem touches_viewAnswers {p : PortId} {f : State → Nat × List Byte} : Touches [.out] s (viewAnswers p f s) :=
  .either touches_mailboxReply .same

/-- An FM API command that reads nothing answers, and that is all. -/
theorem touches_fmCommand {p : PortId} {f : State → State × Nat × List Byte} (hf : (f s).1 = s) :
    Touches [.out] s (fmCommand p f s) := by
  unfold fmCommand
  dsimp only
  rw [hf]
  exact .either .same (.either touches_mailboxReply touches_mailboxReply)

theorem touches_mailboxSeq {p : PortId} : Touches [.out] s (mailboxSeq p s) :=
  .either .same (.either touches_mailboxReply touches_mailboxReply)

theorem touches_eventsClear {p log n : Nat} : Touches [.out, .port] s (eventsClear p log n s) := by
  unfold eventsClear
  exact .either .same (.either (touches_mailboxReply.into .same rfl) (touches_mailboxReply.into (touches_modPortAt.into .same rfl) rfl))

/-! ### Egress (09 R253-R257, 10 R279) -/

theorem touches_bumpDrop {p i n : Nat} : Touches [.port] s (bumpDrop p i n s) := touches_modPortAt

theorem touches_bumpFan {i n : Nat} : Touches [.sw] s (bumpFan i n s) := touches_modSw

theorem touches_creditTouch {p c : Nat} {busy : Bool} : Touches [.port] s (creditTouch p c busy s) :=
  .either .same touches_modPortAt

theorem touches_storeXmit {x : Xmit} : Touches [.port, .sw] s (storeXmit x s) := by
  unfold storeXmit
  dsimp only
  refine touches_modSw.into (Touches.into (.forAll (fun _ _ => touches_creditTouch) _) ?_ rfl) rfl
  split
  · exact touches_bumpFan.into .same rfl
  · exact .same

theorem touches_egressOffer {x : Xmit} : Touches [.port, .sw] s (egressOffer x s) := by
  unfold egressOffer
  split
  · exact .same
  · split
    · exact .either (touches_modSw.into .same rfl) touches_storeXmit
    · exact touches_modSw.into .same rfl

theorem touches_answerPort {p cls : Nat} {x : Msg} {lat : Option LatTag} :
    Touches [.port, .sw] s (answerPort p cls x lat s) :=
  .either touches_egressOffer (touches_bumpDrop.into .same rfl)

theorem touches_fanOut {cls bytes : Nat} {targets : List Nat} {ingress : Option Nat} {x : Msg} :
    Touches [.port, .sw] s (fanOut cls bytes targets ingress x s) :=
  .forAll (fun _ _ => .either .same touches_egressOffer) _

theorem touches_egressAdmit {p c : Nat} : Touches [.port, .sw] s (egressAdmit p c s) := by
  unfold egressAdmit
  split
  · exact .same
  · exact touches_storeXmit.into (touches_modSw.into .same rfl) rfl

/-! ### Switching (09 R244, R250, R251) -/

theorem touches_vppbTell {v b what : Nat} : Touches [.port, .sw] s (vppbTell v b what s) := touches_answerPort

theorem touches_unbindNow {v b : Nat} : Touches [.port, .sw] s (unbindNow v b s) :=
  touches_vppbTell.into (touches_modSw.into .same rfl) rfl

theorem touches_slotPower {v b : Nat} : Touches [.port, .sw] s (slotPower v b s) := by
  unfold slotPower
  split
  · exact touches_unbindNow
  · exact .same

theorem touches_routeIo {src dst kind tag acs : Nat} {bytes : List Byte} :
    Touches [.port, .sw] s (routeIo src dst kind tag bytes acs s) := by
  unfold routeIo
  split
  · exact .same
  · dsimp only
    exact .either (.either (.either .same touches_answerPort) (.either (touches_bumpDrop.into .same rfl) .same))
      (touches_egressOffer.into (.either (touches_modSw.into .same rfl) (.either (touches_modSw.into .same rfl) .same)) rfl)

theorem touches_routeMem {src dst kind tag : Nat} {bytes : List Byte} :
    Touches [.port, .sw] s (routeMem src dst kind tag bytes s) := by
  unfold routeMem
  dsimp only
  exact .either .same (.either (.either (touches_answerPort.into touches_answerPort rfl) .same)
    (touches_egressOffer.into (.either (touches_modSw.into .same rfl) (touches_modSw.into .same rfl)) rfl))

/-- A request on a port is a wake source, and takes its link out of L1. -/
theorem touches_portActivity {p : Nat} : Touches [.ps, .gb, .port] s (portActivity p s) :=
  .either (touches_portVotesRun.into (touches_modPortAt.into .same rfl) rfl) .same

theorem touches_hdmCommit {p k base size skip ways gran : Nat} {targets : List Nat} :
    Touches [.port] s (hdmCommit p k base size skip ways gran targets s) := by
  unfold hdmCommit
  exact .either .same touches_modPortAt

/-! ### A transfer is sent (10 R271, R279) -/

theorem touches_bumpReg {i n : Nat} : Touches [.reg] s (bumpReg i n s) := touches_modReg

theorem touches_creditOut {via pair : Nat} : Touches [.link] s (creditOut via pair s) := .either .same touches_modLinkAt

theorem touches_sampleFlush {x d : Nat} : Touches [.link, .reg] s (sampleFlush x d s) := by
  unfold sampleFlush
  dsimp only
  exact .either .same (.either (touches_bumpReg.into (touches_modReg.into .same rfl) rfl)
    (touches_creditOut.into (touches_modReg.into (touches_modReg.into .same rfl) rfl) rfl))

theorem touches_sampleAdd {x d : Nat} {y : Sample} : Touches [.link, .reg] s (sampleAdd x d y s) := by
  unfold sampleAdd
  exact Touches.into (.onlyIf touches_sampleFlush) (touches_modReg.into .same rfl) rfl

theorem touches_sampleTake {p : Nat} {x : LatTag} {good : Bool} : Touches [.link, .port, .reg] s (sampleTake p x good s) := by
  unfold sampleTake
  dsimp only
  exact .either .same (.either (touches_sampleAdd.into (touches_modPortAt.into .same rfl) rfl) (touches_modPortAt.into .same rfl))

theorem touches_unitSuspect {v d : Nat} : Touches [.unit] s (unitSuspect v d s) := touches_modUnitRec

theorem touches_spoiledSent {p c : Nat} {x : Xmit} : Touches [.out, .cr, .unit] s (spoiledSent p c x s) := by
  have suspected : Touches [.out, .cr, .unit] s (match x.lat with
      | some t => unitSuspect (280 + t.home) (4 + t.home / 16) s
      | none => s) := by
    split
    · exact touches_unitSuspect.into .same rfl
    · exact .same
  unfold spoiledSent
  dsimp only
  split
  case h_4 => exact touches_logEvent.into suspected rfl
  all_goals exact touches_emit.into (touches_logEvent.into suspected rfl) rfl

theorem touches_egressSend {p c : Nat} : Touches [.out, .cr, .unit, .link, .port, .sw, .reg] s (egressSend p c s) := by
  unfold egressSend
  dsimp only
  split
  · exact .same
  · refine .either .same (.either (touches_spoiledSent.into ?_ rfl) (touches_emit.into ?_ rfl))
    all_goals
      split
      · refine touches_sampleTake.into ?_ rfl
        split
        · exact touches_bumpFan.into (touches_modSw.into (touches_modPortAt.into .same rfl) rfl) rfl
        · exact touches_modSw.into (touches_modPortAt.into .same rfl) rfl
      · split
        · exact touches_bumpFan.into (touches_modSw.into (touches_modPortAt.into .same rfl) rfl) rfl
        · exact touches_modSw.into (touches_modPortAt.into .same rfl) rfl

/-! ### Home queues and extents (03 R65, R87, 10 R277) -/

theorem touches_gatherPut {r : MemReq} {line : Line} {poison : Bool} :
    Touches [.port, .sw, .coh] s (gatherPut r line poison s) := by
  unfold gatherPut
  split
  · exact .same
  · exact .either (.either (touches_answerPort.into (touches_modCoh.into .same rfl) rfl) (touches_modCoh.into .same rfl))
      (touches_modCoh.into .same rfl)

theorem touches_answerVoid {r : MemReq} : Touches [.port, .sw, .coh] s (answerVoid r s) :=
  touches_bumpDrop.into (.either touches_gatherPut (touches_answerPort.into .same rfl)) rfl

theorem touches_creditBack {via pair : Nat} : Touches [.link] s (creditBack via pair s) := .either .same touches_modLinkAt

theorem touches_homeMove {slice : Nat} {h : HomeReq} : Touches [.link, .coh] s (homeMove slice h s) := by
  unfold homeMove
  exact .either (touches_creditBack.into (touches_modCoh.into .same rfl) rfl) .same

theorem touches_homeSettle {slice : Nat} : Touches [.link, .coh] s (homeSettle slice s) := by
  unfold homeSettle
  exact Touches.into (.forAll (fun _ _ => .either touches_homeMove .same) _) (.forAll (fun _ _ => touches_homeMove) _) rfl

theorem touches_stalledDropped {p : Nat} {e : Extent} :
    Touches [.link, .port, .sw, .coh] s (stalledDropped p e s) := by
  unfold stalledDropped
  exact .forAll (fun _ _ => touches_homeSettle.into (touches_answerVoid.into (touches_modCoh.into .same rfl) rfl) rfl) _

theorem touches_extentOut {p : Nat} {e : Extent} : Touches [.link, .lod, .port, .sw, .coh] s (extentOut p e s) := by
  unfold extentOut
  exact touches_stalledDropped.into
    (Touches.into (.onlyIf touches_modLodge) (touches_modLod.into (touches_modExt.into .same rfl) rfl) rfl) rfl

theorem touches_releaseNow {p dpa len : Nat} : Touches [.link, .lod, .port, .sw, .coh] s (releaseNow p dpa len s) := by
  unfold releaseNow
  split
  · exact .same
  · exact touches_extentOut.into (touches_modExt.into .same rfl) rfl

theorem touches_capacityRelease {p : Nat} {xs : List (Nat × Nat)} :
    Touches [.out, .link, .lod, .port, .sw, .coh] s (capacityRelease p xs s) := by
  unfold capacityRelease
  refine .either .same (.either (touches_mailboxReply.into .same rfl) (touches_mailboxReply.into (.forAll (fun q t => ?_) _) rfl))
  split
  · exact .same
  · exact .either .same (.either (touches_modLod.into .same rfl) (touches_releaseNow.into .same rfl))

theorem touches_putEvent {p log : Nat} {b : EventBody} : Touches [.port] s (putEvent p log b s) := touches_modPortAt

theorem touches_releaseRecords {n : Nat} {f : Extent → Bool} : Touches [.port] s (releaseRecords n f s).1 :=
  .foldl_fst (fun _ _ => .forAll (fun _ _ => touches_putEvent) _) _ (s, 0)

theorem touches_capReleaseRepeat {d : Nat} : Touches [.port] s (capReleaseRepeat d s) :=
  .either (.forAll (fun _ _ => touches_releaseRecords) _) .same

theorem touches_capStatus : Touches [.lod] s (capStatus s) := .either .same touches_modLod

/-! ### The directory (08 R216, R225) -/

theorem touches_lcDropLodging {n : Nat} : Touches [.lc, .tier] s (lcDropLodging n s) :=
  touches_modTier.into (touches_modLc.into .same rfl) rfl

theorem touches_bumpCoh {d i n : Nat} : Touches [.coh] s (bumpCoh d i n s) := touches_modCoh

theorem touches_openTx {x : Tx} : Touches [.port, .sw, .coh] s (openTx x s) :=
  touches_fanOut.into (touches_bumpCoh.into (touches_modCoh.into .same rfl) rfl) rfl

theorem touches_openDue {slice : Nat} : Touches [.port, .sw, .coh] s (openDue slice s) := by
  unfold openDue
  refine .forAll (fun w t => .either .same ?_) _
  dsimp only
  split
  · exact .either (touches_openTx.into (touches_modCoh.into .same rfl) rfl) (touches_modCoh.into .same rfl)
  · refine .either (.either (touches_openTx.into (touches_modCoh.into .same rfl) rfl) (touches_modCoh.into .same rfl)) ?_
    split
    · exact touches_modCoh.into (touches_modCoh.into .same rfl) rfl
    · exact touches_openTx.into (touches_modCoh.into .same rfl) rfl

theorem touches_removeEntries {test : Nat → DirEntry → Bool} {drop : Bool} :
    Touches [.port, .sw, .coh] s (removeEntries test drop s) := by
  unfold removeEntries recallAll
  exact Touches.into (.forAll (fun _ _ => touches_openDue) _) (touches_modCoh.into .same rfl) rfl

theorem touches_recordsGone {n : Nat} : Touches [.lod, .port, .sw, .lc, .tier, .coh] s (recordsGone n s) := by
  unfold recordsGone
  exact .either .same (touches_removeEntries.into (touches_lcDropLodging.into (touches_modLodge.into .same rfl) rfl) rfl)

theorem touches_biconflict {p n page i : Nat} : Touches [.port, .sw, .coh] s (biconflict p n page i s) := by
  unfold biconflict
  exact .either .same (touches_answerPort.into (.onlyIf (touches_bumpCoh.into .same rfl)) rfl)

theorem touches_absenceEnd {p : Nat} : Touches [.coh] s (absenceEnd p s) := .either touches_modCoh .same

/-! ### Offload queues and jobs (06) -/

theorem touches_ctxFree {c : Nat} : Touches [.job] s (ctxFree c s) := touches_modJob

theorem touches_viewReset {v : Nat} : Touches [.dict, .port, .job] s (viewReset v s) := by
  unfold viewReset queuesDown
  refine Touches.into (m := [.dict, .port, .job]) (.forAll (fun q t => ?_) _) (touches_modPortAt.into .same rfl) rfl
  exact touches_cmdEnd.into (touches_modQueue.into
    (Touches.into (.forAll (fun _ _ => touches_ctxFree) _) (touches_modJob.into .same rfl) rfl) rfl) rfl

theorem touches_bumpQueue {q i : Nat} : Touches [.job] s (bumpQueue q i s) := touches_modQueue

theorem touches_writeHead {p q v : Nat} : Touches [.job] s (writeHead p q v s) :=
  .either .same (.either touches_bumpQueue (.either .same touches_modQueue))

theorem touches_tokenRefill {q : Nat} : Touches [.job] s (tokenRefill q s) := .either .same touches_modQueue

theorem touches_ctxRun {j : Job} : Touches [.job] s (ctxRun j s) := .either touches_modJob .same

theorem touches_putJob {j : Job} : Touches [.job] s (putJob j s) := touches_modJob

theorem touches_jobEnds {j : Job} {status detail : Nat} : Touches [.job] s (jobEnds j status detail s) := touches_putJob

theorem touches_withOuts {j : Job} {outs : Option (List (BitVec 128))} {k : Job → State} (hk : ∀ j, Touches [.job] s (k j)) :
    Touches [.job] s (withOuts j outs s k) := by
  unfold withOuts
  split
  · exact touches_jobEnds
  · refine .either .same ?_
    split
    · exact touches_jobEnds
    · exact hk _

theorem touches_jobExport {q i : Nat} {outs : Option (List (BitVec 128))} : Touches [.job] s (jobExport q i outs s) := by
  unfold jobExport
  split
  · exact .same
  · refine .either .same (.either touches_jobEnds ?_)
    split
    · exact touches_jobEnds
    · exact touches_withOuts fun _ => touches_putJob.into touches_ctxRun rfl

theorem touches_jobRelease {q i : Nat} : Touches [.job] s (jobRelease q i s) := by
  unfold jobRelease
  split
  · exact .same
  · refine .either .same ?_
    split
    · exact touches_jobEnds
    · exact touches_jobEnds.into touches_ctxFree rfl

theorem touches_hostWrite {q addr : Nat} {bytes : List Byte} : Touches [.port, .sw] s (hostWrite q addr bytes s) :=
  touches_answerPort

theorem touches_jobNotify {j : Job} : Touches [.port, .sw] s (jobNotify j s) := .either touches_answerPort .same

theorem touches_writeRecord {j : Job} {status detail check : Nat} :
    Touches [.port, .sw] s (writeRecord j status detail check s) := touches_hostWrite

theorem touches_jobComplete {q i : Nat} : Touches [.fresh, .dict, .port, .sw, .job] s (jobComplete q i s) := by
  unfold jobComplete
  split
  · exact .same
  · split
    · exact .same
    · refine .either (touches_cmdEnd.into (touches_modQueue.into ?_ rfl) rfl) ?_
      all_goals
        refine touches_bumpQueue.into (touches_modJob.into (touches_jobNotify.into (touches_writeRecord.into ?_ rfl) rfl) rfl) rfl
        split
        · exact touches_afterDraw.into (touches_modJob.into (touches_hostWrite.into .same rfl) rfl) rfl
        · exact .either (touches_ctxFree.into .same rfl) .same

/-! ### Debug (13 R348) -/

theorem touches_regionDenied {checker v : Nat} {c : AgentClass} {write : Bool} :
    Touches [.cr, .world, .unit] s (regionDenied checker c write v s) := touches_logEvent.into (touches_modWorld.into .same rfl) rfl

theorem touches_l2Evict {k : Nat} : Touches [.world] s (l2Evict k s) := by
  unfold l2Evict
  split
  · exact .same
  · exact touches_modWorld

theorem touches_l2Fill {keeper : Bool} {a : Nat} : Touches [.fresh, .world] s (l2Fill keeper a s).2.2 := by
  unfold l2Fill
  split
  · exact .same
  · exact touches_afterDraw.into (touches_modWorld.into (touches_l2Evict.into .same rfl) rfl) rfl

theorem touches_l2Access {keeper : Bool} {a : Nat} {write : Option Line} :
    Touches [.fresh, .world] s (l2Access keeper a write s).2 := by
  unfold l2Access
  dsimp only
  split
  · exact touches_l2Fill
  · dsimp only
    exact touches_modWorld.into touches_l2Fill rfl

theorem touches_l2Raw {k : Nat} {write : Option Line} : Touches [.world] s (l2Raw k write s).2 := by
  unfold l2Raw
  split
  · exact .same
  · exact .same
  · dsimp only
    exact touches_modWorld

theorem touches_debugLine {bank v : Nat} {write : Bool} {act : State → Line × State}
    (hact : Touches [.fresh, .world] s (act s).2) :
    Touches [.fresh, .out, .cr, .world, .unit] s (debugLine bank v write act s) := by
  have acted : Touches [.fresh, .out, .cr, .world, .unit] s (act s).2 := hact.into .same rfl
  unfold debugLine
  exact .either (touches_emit.into .same rfl) (.either (touches_emit.into (touches_regionDenied.into .same rfl) rfl)
    (.either (touches_emit.into acted rfl) (touches_emit.into (touches_emit.into acted rfl) rfl)))

theorem touches_debugAccess {x : DebugTarget} : Touches [.fresh, .out, .cr, .world, .unit] s (debugAccess x s) := by
  refine .either ?_ (touches_emit.into .same rfl)
  unfold debugDo
  split
  · exact touches_emit.into (touches_modWorld.into .same rfl) rfl
  · exact touches_emit.into (touches_modWorld.into .same rfl) rfl
  · exact touches_debugLine touches_l2Access
  · exact touches_debugLine touches_l2Access
  · exact touches_debugLine (touches_l2Raw.into .same rfl)
  · exact touches_emit.into .same rfl

/-! ### SPDM (07 R207) -/

theorem touches_spdmOpen {p : Nat} : Touches [.world] s (spdmOpen p s) := .either .same touches_modWorld

theorem touches_spdmRequest {p : Nat} {req : List Byte} {opens : Bool} :
    Touches [.fresh, .out, .world] s (spdmRequest p req opens s) := by
  unfold spdmRequest
  split
  · exact touches_emit.into .same rfl
  · exact touches_emit.into (touches_afterDraw.into (.onlyIf (touches_spdmOpen.into .same rfl)) rfl) rfl
  · exact .onlyIf (touches_spdmOpen.into .same rfl)
  · exact .same

/-! ### World calls and the restarts of cores (13 R337, R339) -/

theorem touches_l2Flush {a : Nat} : Touches [.world] s (l2Flush a s) :=
  .forAll (fun _ _ => .either touches_l2Evict .same) _

theorem touches_coreStore {c : AgentClass} {a : Nat} {v : Line} : Touches [.cr, .world, .unit] s (coreStore c a v s) := by
  unfold coreStore
  exact .either (touches_modWorld.into (touches_l2Flush.into .same rfl) rfl) touches_regionDenied

theorem touches_bufferStore {c : AgentClass} {core : Nat} {b : List Byte} :
    Touches [.cr, .world, .unit] s (bufferStore c core b s) := .forAll (fun _ _ => touches_coreStore) _

theorem touches_coreLoad {c : AgentClass} {core a : Nat} : Touches [.out, .cr, .world, .unit] s (coreLoad c core a s).2 := by
  unfold coreLoad
  dsimp only
  split
  · dsimp only
    exact touches_l2Flush.into .same rfl
  · dsimp only
    exact touches_emit.into (touches_regionDenied.into .same rfl) rfl

theorem touches_bufferLoad {c : AgentClass} {reader core : Nat} :
    Touches [.out, .cr, .world, .unit] s (bufferLoad c reader core s).2 := by
  refine .foldl_snd (fun q a => ?_) _ (some [], s)
  split
  · exact .same
  · exact touches_coreLoad

theorem touches_worldReply {answer : List Byte} : Touches [.out, .cr, .world, .unit] s (worldReply answer s) := by
  unfold worldReply
  refine .either .same ?_
  split
  · exact .same
  · refine .either (touches_modWorld.into .same rfl) ?_
    dsimp only
    split
    · exact touches_emit.into (touches_bufferLoad.into (touches_bufferStore.into (touches_bufferLoad.into
        (touches_modWorld.into .same rfl) rfl) rfl) rfl) rfl
    · exact touches_bufferLoad.into (touches_bufferStore.into (touches_bufferLoad.into (touches_modWorld.into .same rfl) rfl) rfl) rfl

theorem touches_worldCall {core : Nat} {req : List Byte} : Touches [.out, .cr, .world, .unit] s (worldCall core req s) :=
  .either .same (.either (touches_emit.into .same rfl) (touches_bufferStore.into (touches_modWorld.into .same rfl) rfl))

theorem touches_coreZero {core : Nat} : Touches [.world] s (coreZero core s) := by
  unfold coreZero
  exact touches_modWorld

theorem touches_dropSession {o : Origin} : Touches [.dict] s (dropSession o s) := touches_modDict

theorem touches_stewardRestart {core : Nat} : Touches [.dict, .world] s (stewardRestart core s) := by
  unfold stewardRestart
  refine .either .same ?_
  split
  · exact touches_coreZero.into (touches_dropSession.into (touches_modWorld.into .same rfl) rfl) rfl
  · exact .same

theorem touches_stewardRestartDone {core : Nat} {img : Option (BitVec 384)} :
    Touches [.world] s (stewardRestartDone core img s) := by
  unfold stewardRestartDone measExtend
  refine .either .same ?_
  dsimp only
  split
  · exact touches_modWorld
  · exact touches_modWorld.into (touches_modWorld.into touches_modWorld rfl) rfl

end

/-! ### The obligation -/

/-- Settles O54: each command is one operation, whose frame is put together above. -/
theorem hostSideCommandsTouchOnlyTheirPart : Obligations.HostSideCommandsTouchOnlyTheirPart := by
  refine ⟨fun _ _ _ => Touches.of_next (l := [.out]) touches_mailboxSeq,
    fun _ _ _ => Touches.of_next (l := [.out]) touches_viewAnswers,
    fun _ _ _ => Touches.of_next (l := [.out]) (touches_fmCommand rfl),
    fun _ _ _ => Touches.of_next (l := [.fresh, .out]) (touches_afterDraw.into (touches_viewAnswers.into .same rfl) rfl),
    fun _ _ _ _ _ _ => Touches.of_next (l := [.fresh, .out]) (touches_afterDraw.into (touches_viewAnswers.into .same rfl) rfl),
    fun _ _ _ _ => Touches.of_next (l := [.out]) touches_viewAnswers,
    fun _ _ _ _ _ => Touches.of_next (l := [.out, .port]) touches_eventsClear,
    fun _ _ _ => Touches.of_next (l := [.out]) touches_viewAnswers,
    fun _ _ _ => Touches.of_next (l := [.out]) touches_viewAnswers,
    fun _ _ _ _ => Touches.of_next (l := [.out]) (touches_fmCommand rfl),
    fun _ _ _ _ _ _ => Touches.of_next (l := [.out]) (touches_fmCommand rfl),
    fun _ _ _ _ => Touches.of_next (l := [.out, .link, .lod, .port, .sw, .coh]) touches_capacityRelease,
    fun _ _ _ => Touches.of_next (l := [.port]) touches_capReleaseRepeat,
    fun _ _ => Touches.of_next (l := [.lod]) touches_capStatus,
    fun _ _ _ => Touches.of_next (l := [.lod, .port, .sw, .lc, .tier, .coh]) touches_recordsGone,
    fun _ _ _ _ _ _ _ _ _ _ => Touches.of_next (l := [.port]) touches_hdmCommit,
    fun _ _ _ _ _ _ _ => Touches.of_next (l := [.port, .sw]) (.either touches_fanOut .same),
    fun _ _ _ _ => Touches.of_next (l := [.port, .sw]) touches_slotPower,
    fun _ _ _ _ _ _ _ _ => Touches.of_next (l := [.ps, .gb, .port, .sw]) (touches_routeIo.into (touches_portActivity.into .same rfl) rfl),
    fun _ _ _ _ _ _ _ => Touches.of_next (l := [.ps, .gb, .port, .sw]) (touches_routeMem.into (touches_portActivity.into .same rfl) rfl),
    fun _ _ _ _ => Touches.of_next (l := [.port, .sw]) touches_egressAdmit,
    fun _ _ _ _ => Touches.of_next (l := [.out, .cr, .unit, .link, .port, .sw, .reg]) touches_egressSend,
    fun _ _ _ _ _ _ => Touches.of_next (l := [.ps, .gb, .port, .sw, .coh])
      (touches_biconflict.into (touches_portActivity.into .same rfl) rfl),
    fun _ _ _ => Touches.of_next (l := [.coh]) touches_absenceEnd,
    fun _ _ _ => Touches.of_next (l := [.dict, .port, .job]) (.either touches_viewReset .same),
    fun _ _ _ _ _ => Touches.of_next (l := [.job]) touches_writeHead,
    fun _ _ _ => Touches.of_next (l := [.job]) touches_tokenRefill,
    fun _ _ _ _ _ => Touches.of_next (l := [.job]) touches_jobExport,
    fun _ _ _ _ => Touches.of_next (l := [.job]) touches_jobRelease,
    fun _ _ _ _ => Touches.of_next (l := [.fresh, .dict, .port, .sw, .job]) touches_jobComplete,
    fun _ _ _ => Touches.of_next (l := [.fresh, .out, .cr, .world, .unit]) touches_debugAccess,
    fun _ _ _ _ _ => Touches.of_next (l := [.fresh, .out, .world]) touches_spdmRequest,
    fun _ _ _ _ => Touches.of_next (l := [.out, .cr, .world, .unit]) touches_worldCall,
    fun _ _ _ => Touches.of_next (l := [.out, .cr, .world, .unit]) touches_worldReply,
    fun _ _ _ => Touches.of_next (l := [.dict, .world]) touches_stewardRestart,
    fun _ _ _ _ => Touches.of_next (l := [.world]) touches_stewardRestartDone⟩

end Sys2Proof.Machine
end

section
/-! The events of a lodging: preparation, `ISOLATED` rewrites, capacity offered and released, destruction (03 R57-R87). -/

namespace Sys2Proof.Machine

/-! ### Preparation (R82, R83) -/

theorem prepareDone_placed {n : Nat} {s : State} (hnew : unplaced s n ≠ []) (hstate : (lodgeAt s n).state = .preparing)
    (hkeys : keysInstalled s n = true)
    (hframes : ((unplaced s n).any fun e => (below 4).any fun d => (regionFrame s d 4 e.1).isNone) = false) :
    prepareDone n true s = lodgeSettle n (recomputeD (offerEach n (preparedOffers s n)
      (modLodge n (fun x => { x with state := if x.state = .preparing then .ready else x.state })
        (forAll (unplaced s n) (slotWritten n) s)))) := by
  unfold prepareDone
  rw [if_neg (by simp [hnew, hstate]), if_pos rfl, if_neg (by simp only [hkeys, hframes]; decide)]

theorem prepareDone_undone {n : Nat} {s : State} (hnew : unplaced s n ≠ []) (hstate : (lodgeAt s n).state = .preparing) :
    prepareDone n false s = restageAll (recomputeD (releasesDue n (cmdEnd 0 (lodgeCommit n) 0x0C 0
      (keyWipe n (modLod (fun x => { x with dirBase := smErase x.dirBase n })
        (modLodge n (fun x => { state := .free, gen := x.gen }) (prepareUndone n s))))))) := by
  unfold prepareDone
  rw [if_neg (by simp [hnew, hstate]), if_neg Bool.false_ne_true]
  simp only [hstate, if_true]

/-! ### `ISOLATED` (R59) -/

/-- The first line of the one granule that is not yet rewritten. -/
theorem isolatedLine_first {n d m : Nat} {r : SlotRec} {s : State} (hto : (lodgeAt s n).isoTo = some true)
    (hdue : ((lodgeSlots s n).filter fun e => e.2.placed && (smGet {} s.prot.base (4 * e.1 + d)).isolated != true) = [(m, r)])
    (hleft : smGet 0 (lodgeAt s n).isoLeft d = 8192) (hlive : lodgeLive s n = true) (hserves : unitServes s (372 + d) = true)
    {line : State} (hline : line = forAll [descPage n r.granule d 0, descPage n r.granule d 1] (fun p t => match descAt t n p with
      | some y => lockedSays n p (fun z => { z with isolated := true }) (setDesc n p { y with isolated := true } t)
      | none => t) s)
    (hmore : (lodgeAt (modLodge n (fun y => { y with isoLeft := smPut 0 y.isoLeft d 8191 }) line) n).isoLeft ≠ []) :
    isolatedLine n d s = modLodge n (fun y => { y with isoLeft := smPut 0 y.isoLeft d 8191 }) line := by
  subst hline
  unfold isolatedLine
  simp only [hto, hdue, hleft, List.foldl_cons, List.foldl_nil, List.length_singleton, Nat.reduceMul, Nat.reduceSub, Nat.reduceAdd,
    Nat.reduceEqDiff, if_false]
  rw [if_neg (by simp [hlive, hserves])]
  exact if_neg hmore

/-! ### Capacity (R64, R65) -/

theorem capacityResponse_one {p a b : Nat} {e : Extent} {s : State} (hopen : mailboxOpen s p = true)
    (he : offeredAt s p a b = some e) :
    capacityResponse p [(a, b)] s = mailboxReply p 0 []
      (modLodge e.lodging (fun x => { x with state := if x.state = .ready then .active else x.state })
        (modExt p (fun x => x.map fun y => if y = e then { e with accepted := true } else y) s)) := by
  unfold capacityResponse
  rw [if_neg (by simp [hopen]), if_neg (by simp [he]), if_neg (List.cons_ne_nil _ _)]
  simp only [forAll, List.foldl_cons, List.foldl_nil, he]

theorem capacityRelease_one {p a b : Nat} {e gone : Extent} {rest : List Extent} {s : State} (hopen : mailboxOpen s p = true)
    (hparts : releaseParts s p a b = some (e, gone, rest))
    (hroom : (extentsOf (withPrepared (fun _ => true) s) p).length + rest.length ≤ 513)
    (hidle : cmdPending s 0 (lodgeCommit e.lodging) = false) :
    capacityRelease p [(a, b)] s =
      mailboxReply p 0 [] (extentOut p gone (modExt p (fun l => rest.foldr extInsert (extInsert gone (l.erase e))) s)) := by
  unfold capacityRelease
  rw [if_neg (by simp [hopen]), if_neg (by simp [hparts])]
  simp only [forAll, List.foldl_cons, List.foldl_nil, hparts]
  rw [if_neg (Nat.not_lt.2 hroom), if_neg (by simp [hidle]), releaseNow, hparts]

/-- The only drain ends: its one granule, which nothing else covers, is unmapped. -/
theorem drainDone_unmapped {p : Nat} {e : Extent} {s : State} (hdrain : s.lod.drains = [(p, e)])
    (hkept : (stalledDropped p e s).lod.drains = [(p, e)]) (hidle : extentBusy (stalledDropped p e s) p e = false)
    (hdir : s.coh.dir = []) (htxs : s.coh.txs = []) (hlen : e.len = 1)
    (hfree : ((lodgeExtents (modLod (fun l => { l with drains := [] }) (stalledDropped p e s)) e.lodging).any
      fun x => x.2.accepted && x.2.covers e.logical) = false) :
    drainDone p s = granuleUnmap e.lodging e.logical (modLod (fun l => { l with drains := [] }) (stalledDropped p e s)) := by
  have hafter : modLod (fun l => { l with drains := l.drains.erase (p, e) }) (stalledDropped p e s) =
      modLod (fun l => { l with drains := [] }) (stalledDropped p e s) := by
    unfold modLod
    simp only [hkept, List.erase_cons_head]
  have hfind : (s.lod.drains.find? fun q => q.1 == p && !extentBusy (stalledDropped p q.2 s) p q.2) = some (p, e) := by
    simp [hdrain, hidle]
  unfold drainDone
  rw [hfind]
  dsimp only
  rw [hafter, hdir, htxs, hlen, if_neg (by simp)]
  simp [hfree, forAll]

/-! ### Destruction (R85, R86) -/

theorem destroyOffersEnd_releasing {n : Nat} {s : State} (hstate : (lodgeAt s n).state = .releasing)
    (hstep : (lodgeAt s n).step = 1) : destroyOffersEnd n s = destroyRelease n (offersWithdrawn n s) :=
  if_pos ⟨hstate, hstep⟩

theorem recordsGone_wiping {n : Nat} {s : State} (hstate : (lodgeAt s n).state = .releasing) (hstep : 2 ≤ (lodgeAt s n).step)
    (hextents : lodgeExtents s n = []) (hdrains : s.lod.drains.any (fun e => e.2.lodging == n) = false) :
    recordsGone n s = removeEntries (fun place e => (entryLine place e).1 == n) true
      (lcDropLodging n (modLodge n (fun x => { x with state := .wiping }) s)) :=
  if_neg (by rw [hdrains]; simp [hstate, hextents, Nat.not_lt.2 hstep])

/-- Settles O36: each event is its handler's case where the conditions of the clause hold. -/
theorem lodgingEventsAct : Obligations.LodgingEventsAct := by
  refine ⟨fun n s hnew hstate hkeys hframes => ?_, fun n s hnew hstate => ?_,
    fun n d m r s hto hdue hnight hoff hleft hlive hserves hmore => ?_,
    fun n s hstate hstep => ?_, fun n s hstate hstep hextents hdrains => ?_, fun n s hstate hsecrets hquiet => ?_,
    fun p a b e s hopen he hwaits => ?_, fun p a b e gone rest s hopen hparts hroom hidle => ?_,
    fun p e s hdrain hkept hidle hdir htxs hlen hfree => ?_⟩
  · exact congrArg Host.Outcome.next (prepareDone_placed hnew hstate hkeys hframes)
  · exact congrArg Host.Outcome.next (prepareDone_undone hnew hstate)
  · exact congrArg Host.Outcome.next ((if_neg (by simp [hnight, hoff])).trans
      (isolatedLine_first hto hdue hleft hlive hserves rfl hmore))
  · exact congrArg Host.Outcome.next (destroyOffersEnd_releasing hstate hstep)
  · exact congrArg Host.Outcome.next (recordsGone_wiping hstate hstep hextents hdrains)
  · exact congrArg Host.Outcome.next (if_neg (by simp [hstate, hsecrets, hquiet]))
  · refine congrArg Host.Outcome.next ?_
    simp only [capacityAnswered, List.map_cons, List.map_nil, capacityResponse_one hopen he]
    rw [hwaits]
    rfl
  · exact congrArg Host.Outcome.next (capacityRelease_one hopen hparts hroom hidle)
  · exact congrArg Host.Outcome.next (drainDone_unmapped hdrain hkept hidle hdir htxs hlen hfree)

end Sys2Proof.Machine
end

section
/-! Decoders of a frame as readers of words: what a decoder reads does not depend on what follows nor on where it stands
(05 R128, R133). -/

namespace Sys2Proof.Machine

/-! ### What a decoder reads -/

/-- At the head of any input, a decoder takes the word `w` and nothing more, and reads `v`. -/
def Reads {α : Type} (f : Reader → Dec α) (w : List Bool) (v : α) : Prop :=
  ∀ more p, f ⟨w ++ more, p⟩ = .ok v ⟨more, p + w.length⟩

/-- Whatever a decoder has read, it reads from the word it has taken. -/
def ReadsWords {α : Type} (f : Reader → Dec α) : Prop :=
  ∀ r v r', f r = .ok v r' → ∃ w, r.bits = w ++ r'.bits ∧ Reads f w v

theorem Reads.of_all {α : Type} {f : Reader → Dec α} {v : α} {r r' : Reader} (hf : ReadsWords f) (h : f r = .ok v r')
    (hend : r'.bits = []) : Reads f r.bits v := by
  obtain ⟨w, hw, hreads⟩ := hf r v r' h
  rw [hw, hend, List.append_nil]
  exact hreads

/-! ### Fields -/

theorem length_fieldBits (n v : Nat) : (fieldBits n v).length = n := by simp [fieldBits, below]

theorem fieldBits_succ (n v : Nat) : fieldBits (n + 1) v = v.testBit 0 :: fieldBits n (v / 2) := by
  simp only [fieldBits, below, List.range_succ_eq_map, List.map_cons, List.map_map]
  congr 1
  refine List.map_congr_left fun i _ => ?_
  simp only [Function.comp, Nat.succ_eq_add_one, Nat.testBit_succ]

/-- The number a field of bits spells, as `readBits` takes it. -/
theorem foldr_fieldBits (n v : Nat) : (fieldBits n v).foldr (fun b a => bNat b + 2 * a) 0 = v % 2 ^ n := by
  induction n generalizing v with
  | zero => simp [fieldBits, below, Nat.mod_one]
  | succ n ih =>
    rw [fieldBits_succ, List.foldr_cons, ih, Nat.pow_succ', Nat.mod_mul]
    congr 1
    rw [Nat.testBit_zero, bNat]
    rcases Nat.mod_two_eq_zero_or_one v with h | h <;> simp [h]

theorem readBits_append {n : Nat} {w : List Bool} (hw : w.length = n) :
    Reads (readBits n) w (w.foldr (fun b a => bNat b + 2 * a) 0) := by
  intro more p
  subst hw
  simp [readBits]

theorem readBits_field {n v : Nat} (hv : v < 2 ^ n) : Reads (readBits n) (fieldBits n v) v := by
  have h := readBits_append (length_fieldBits n v)
  rwa [foldr_fieldBits, Nat.mod_eq_of_lt hv] at h

theorem readBits_readsWords (n : Nat) : ReadsWords (readBits n) := by
  intro r v r' h
  unfold readBits at h
  split at h
  · exact absurd h (by simp [truncated])
  · rename_i hlen
    obtain ⟨rfl, rfl⟩ := Dec.ok.inj h
    exact ⟨r.bits.take n, (List.take_append_drop n r.bits).symm, readBits_append (by simp; omega)⟩

/-! ### Symbols -/

/-- The leaf that a word leads to. -/
def CTree.leafAt : CTree → List Bool → Nat → Prop
  | .sym m, [], n => m = n
  | .node z _, false :: bs, n => z.leafAt bs n
  | .node _ o, true :: bs, n => o.leafAt bs n
  | _, _, _ => False

theorem readSym_leafAt {start n : Nat} : ∀ {t : CTree} {w : List Bool}, t.leafAt w n → Reads (readSym start t) w n
  | .sym m, [], h => fun more p => by
    cases h
    rfl
  | .node z o, false :: bs, h => fun more p => by
    have hrest := readSym_leafAt (start := start) (t := z) h more (p + 1)
    simp only [readSym, List.cons_append, Bool.false_eq_true, if_false, hrest, List.length_cons]
    congr 2
    omega
  | .node z o, true :: bs, h => fun more p => by
    have hrest := readSym_leafAt (start := start) (t := o) h more (p + 1)
    simp only [readSym, List.cons_append, if_true, hrest, List.length_cons]
    congr 2
    omega

theorem leafAt_readSym {start n : Nat} : ∀ {t : CTree} {r r' : Reader}, readSym start t r = .ok n r' →
    ∃ w, r.bits = w ++ r'.bits ∧ t.leafAt w n
  | .empty, r, r', h => by simp [readSym] at h
  | .sym m, r, r', h => by
    obtain ⟨rfl, rfl⟩ := Dec.ok.inj h
    exact ⟨[], rfl, rfl⟩
  | .node z o, r, r', h => by
    unfold readSym at h
    split at h
    · exact absurd h (by simp [truncated])
    · rename_i b bs hbits
      cases b with
      | false =>
        obtain ⟨w, hw, hleaf⟩ := leafAt_readSym (t := z) h
        exact ⟨false :: w, by rw [hbits, List.cons_append, ← hw], hleaf⟩
      | true =>
        obtain ⟨w, hw, hleaf⟩ := leafAt_readSym (t := o) h
        exact ⟨true :: w, by rw [hbits, List.cons_append, ← hw], hleaf⟩

/-- Where anything is left, a symbol is read as its codeword says. -/
theorem decodeSym_leafAt {t : CTree} {b : Bool} {w : List Bool} {n : Nat} (h : t.leafAt (b :: w) n) :
    Reads (decodeSym t) (b :: w) n := fun more p => readSym_leafAt (start := p) h more p

theorem decodeSym_readsWords {t : CTree} (ht : ∀ m, t ≠ .sym m) : ReadsWords (decodeSym t) := by
  intro r n r' h
  unfold decodeSym at h
  split at h
  · exact absurd h (by simp [truncated])
  · obtain ⟨w, hw, hleaf⟩ := leafAt_readSym h
    cases w with
    | nil =>
      cases t with
      | sym m => exact absurd rfl (ht m)
      | empty => exact hleaf.elim
      | node z o => exact hleaf.elim
    | cons b w => exact ⟨b :: w, hw, decodeSym_leafAt hleaf⟩

/-! ### The sequence of lengths (R133) -/

theorem readTriples_cons {k v : Nat} {w ws : List Bool} {vs : List Nat} (h : Reads (readBits 3) w v)
    (hs : Reads (readTriples k) ws vs) : Reads (readTriples (k + 1)) (w ++ ws) (v :: vs) := by
  intro more p
  simp only [readTriples, List.append_assoc, h _ p, hs more _, List.length_append, Nat.add_assoc]

theorem readTriples_readsWords (k : Nat) : ReadsWords (readTriples k) := by
  induction k with
  | zero =>
    intro r v r' h
    obtain ⟨rfl, rfl⟩ := Dec.ok.inj h
    exact ⟨[], rfl, fun _ _ => rfl⟩
  | succ k ih =>
    intro r v r' h
    unfold readTriples at h
    split at h
    · exact absurd h (by simp)
    · rename_i v1 r1 h1
      split at h
      · exact absurd h (by simp)
      · rename_i vs r2 h2
        obtain ⟨rfl, rfl⟩ := Dec.ok.inj h
        obtain ⟨w1, e1, reads1⟩ := readBits_readsWords 3 _ _ _ h1
        obtain ⟨w2, e2, reads2⟩ := ih _ _ _ h2
        exact ⟨w1 ++ w2, by rw [e1, e2, List.append_assoc], readTriples_cons reads1 reads2⟩

section
variable {t : CTree} {rep total fuel : Nat} {acc : List Nat}

theorem readLengths_done (h : total ≤ acc.length) : Reads (readLengths t rep total fuel acc) [] acc.reverse := by
  intro more p
  cases fuel with
  | zero => rfl
  | succ fuel => rw [readLengths, if_pos h]; rfl

/-- A length sent as its own symbol. -/
theorem readLengths_length {sym : Nat} {w ws : List Bool} {ls : List Nat} (hmore : acc.length < total) (hsym : sym < rep)
    (h : Reads (decodeSym t) w sym) (hs : Reads (readLengths t rep total fuel (sym :: acc)) ws ls) :
    Reads (readLengths t rep total (fuel + 1) acc) (w ++ ws) ls := by
  intro more p
  rw [readLengths, if_neg (Nat.not_le.2 hmore)]
  simp only [List.append_assoc, h _ p, hsym, if_true, hs more _, List.length_append, Nat.add_assoc]

/-- A run of lengths: its symbol and its count. -/
theorem readLengths_run {sym x : Nat} {w wx ws : List Bool} {ls : List Nat} (hmore : acc.length < total) (hsym : ¬ sym < rep)
    (hfirst : ¬ (sym = rep ∧ acc = [])) (hleast : ¬ total < acc.length + (clRun (sym - rep)).1)
    (hfits : ¬ total < acc.length + ((clRun (sym - rep)).1 + x))
    (h : Reads (decodeSym t) w sym) (hx : Reads (readBits (clRun (sym - rep)).2) wx x)
    (hs : Reads (readLengths t rep total fuel
      (List.replicate ((clRun (sym - rep)).1 + x) (if sym = rep then acc.headD 0 else 0) ++ acc)) ws ls) :
    Reads (readLengths t rep total (fuel + 1) acc) (w ++ (wx ++ ws)) ls := by
  intro more p
  rw [readLengths, if_neg (Nat.not_le.2 hmore)]
  simp only [List.append_assoc, h _ p, hsym, if_false, if_neg hfirst, if_neg hleast, hx _ (p + w.length), if_neg hfits,
    hs more _, List.length_append, Nat.add_assoc]

end

theorem readLengths_readsWords {t : CTree} (ht : ∀ m, t ≠ .sym m) (rep total fuel : Nat) (acc : List Nat) :
    ReadsWords (readLengths t rep total fuel acc) := by
  induction fuel generalizing acc with
  | zero =>
    intro r v r' h
    obtain ⟨rfl, rfl⟩ := Dec.ok.inj h
    exact ⟨[], rfl, fun _ _ => rfl⟩
  | succ fuel ih =>
    intro r v r' h
    unfold readLengths at h
    split at h
    · rename_i hend
      obtain ⟨rfl, rfl⟩ := Dec.ok.inj h
      exact ⟨[], rfl, readLengths_done hend⟩
    · rename_i hmore
      have hmore := Nat.not_le.1 hmore
      split at h
      · exact absurd h (by simp)
      · rename_i sym r1 h1
        obtain ⟨w1, e1, reads1⟩ := decodeSym_readsWords ht _ _ _ h1
        split at h
        · rename_i hsym
          obtain ⟨w2, e2, reads2⟩ := ih _ _ _ _ h
          exact ⟨w1 ++ w2, by rw [e1, e2, List.append_assoc], readLengths_length hmore hsym reads1 reads2⟩
        · rename_i hsym
          split at h
          · exact absurd h (by simp)
          · rename_i hfirst
            split at h
            · exact absurd h (by simp)
            · rename_i hleast
              split at h
              · exact absurd h (by simp)
              · rename_i x r2 h2
                dsimp only at h
                split at h
                · exact absurd h (by simp)
                · rename_i hfits
                  obtain ⟨w2, e2, reads2⟩ := readBits_readsWords _ _ _ _ h2
                  obtain ⟨w3, e3, reads3⟩ := ih _ _ _ _ h
                  exact ⟨w1 ++ (w2 ++ w3), by rw [e1, e2, e3]; simp only [List.append_assoc],
                    readLengths_run hmore hsym hfirst hleast hfits reads1 reads2 reads3⟩

/-! ### The table section (R133) -/

/-- The code-length-code lengths by symbol, of the triples in their order. -/
def clLensOf (cl : List Nat) : List Nat :=
  (below 16).map fun s => match (clOrder.zip cl).find? fun e => e.1 == s with
    | some e => e.2
    | none => 0

/-- What a table section must hold beside its words: lengths that make codes, with a codeword for end-of-page (R135). -/
def tablesServe (lit dist : List Nat) : Prop := lengthsValid 12 false lit = true ∧ nth 0 lit 256 ≠ 0 ∧ lengthsValid 12 true dist = true

theorem readTableLengths_reads {nl nd nc : Nat} {w1 w2 w3 w4 w5 : List Bool} {cl ls : List Nat}
    (h1 : Reads (readBits 5) w1 nl) (h2 : Reads (readBits 5) w2 nd) (h3 : Reads (readBits 4) w3 nc) (hnc : ¬ 16 < nc + 4)
    (h4 : Reads (readTriples (nc + 4)) w4 cl) (hcl : lengthsValid 7 false (clLensOf cl) = true)
    (h5 : Reads (readLengths (canonical 7 (clLensOf cl)) 13 (258 + nl + nd + 1) (258 + nl + nd + 2) []) w5 ls)
    (hserve : tablesServe (ls.take (258 + nl)) (ls.drop (258 + nl))) :
    Reads readTableLengths (w1 ++ (w2 ++ (w3 ++ (w4 ++ w5)))) (ls.take (258 + nl), ls.drop (258 + nl)) := by
  intro more p
  obtain ⟨hlit, hend, hdist⟩ := hserve
  unfold readTableLengths
  simp only [List.append_assoc, h1 _ p, h2 _ _, h3 _ _, if_neg hnc, h4 _ _]
  change (if lengthsValid 7 false (clLensOf cl) = false then _ else _) = _
  rw [if_neg (by simp [hcl])]
  change (match readLengths (canonical 7 (clLensOf cl)) _ _ _ _ _ with | .err c o => _ | .ok ls r5 => _) = _
  rw [h5 more _]
  dsimp only
  rw [if_neg (by simp [hlit, hend, hdist])]
  simp only [List.length_append, Nat.add_assoc]

end Sys2Proof.Machine
end

section
/-! Canonical codes: the codewords of lengths that fill a code are the paths of its tree (05 R134, R135). -/

namespace Sys2Proof.Machine

/-! ### Trees and codewords -/

theorem leafAt_insert (n : Nat) : ∀ (w : List Bool) (t : CTree), (t.insert n w).leafAt w n
  | [], _ => rfl
  | false :: bs, t => by
    simp only [CTree.insert, Bool.false_eq_true, if_false, CTree.leafAt]
    exact leafAt_insert n bs _
  | true :: bs, t => by
    simp only [CTree.insert, if_true, CTree.leafAt]
    exact leafAt_insert n bs _

/-- A codeword that neither begins another nor begins with it stays where it is. -/
theorem leafAt_insert_other {m n : Nat} : ∀ {w v : List Bool} {t : CTree}, t.leafAt w m → ¬ w <+: v → ¬ v <+: w →
    (t.insert n v).leafAt w m
  | _, [], _, _, _, h => absurd List.nil_prefix h
  | [], _ :: _, _, _, h, _ => absurd List.nil_prefix h
  | a :: w, b :: v, .node z o, hleaf, hw, hv => by
    rw [List.cons_prefix_cons] at hw hv
    cases a <;> cases b
    · exact leafAt_insert_other (t := z) hleaf (fun h => hw ⟨rfl, h⟩) (fun h => hv ⟨rfl, h⟩)
    · exact hleaf
    · exact hleaf
    · exact leafAt_insert_other (t := o) hleaf (fun h => hw ⟨rfl, h⟩) (fun h => hv ⟨rfl, h⟩)

theorem insert_ne_sym {n m : Nat} {w : List Bool} {t : CTree} (hw : w ≠ []) : t.insert n w ≠ .sym m := by
  cases w with
  | nil => exact absurd rfl hw
  | cons b bs => cases b <;> simp [CTree.insert]

/-! ### Bit strings of numbers -/

theorem length_msbBits (n v : Nat) : (msbBits n v).length = n := by
  induction n with
  | zero => rfl
  | succ n ih => rw [msbBits, List.length_cons, ih]

theorem msbBits_inj {n a b : Nat} (ha : a < 2 ^ n) (hb : b < 2 ^ n) (h : msbBits n a = msbBits n b) : a = b := by
  induction n generalizing a b with
  | zero => omega
  | succ n ih =>
    rw [msbBits_succ, msbBits_succ] at h
    obtain ⟨hhigh, hlow⟩ := List.append_inj' h rfl
    have hdiv := ih (by omega) (by omega) hhigh
    have hbit : a % 2 = b % 2 := by
      have := List.head_eq_of_cons_eq hlow
      rw [Nat.testBit_zero, Nat.testBit_zero, decide_eq_decide] at this
      omega
    omega

/-- The first bits of a number are those of the number without its low bits. -/
theorem msbBits_prefix (n k v : Nat) : msbBits n (v / 2 ^ k) <+: msbBits (n + k) v := by
  induction k generalizing v with
  | zero => simp
  | succ k ih =>
    rw [← Nat.add_assoc, msbBits_succ, Nat.pow_succ', ← Nat.div_div_eq_div_mul]
    exact (ih (v / 2)).trans (List.prefix_append _ _)

/-- A codeword of `l` bits that begins one of `l + k` bits spells its first `l` bits. -/
theorem eq_div_of_prefix {l k c d : Nat} (hc : c < 2 ^ l) (hd : d < 2 ^ (l + k)) (h : msbBits l c <+: msbBits (l + k) d) :
    c = d / 2 ^ k := by
  refine msbBits_inj hc (Nat.div_lt_of_lt_mul (by rwa [Nat.mul_comm, ← Nat.pow_add])) ?_
  exact (List.prefix_of_prefix_length_le h (msbBits_prefix l k d) (by simp [length_msbBits])).eq_of_length
    (by simp [length_msbBits])

/-! ### The first codeword of each length (R134) -/

/-- The first codeword of `l` bits. -/
def firstCode (lens : List Nat) : Nat → Nat
  | 0 => 0
  | l + 1 => (firstCode lens l + countLen lens l) * 2

/-- The codeword of a symbol, as a number. -/
def symCode (lens : List Nat) (s : Nat) : Nat := firstCode lens (nth 0 lens s) + (lens.take s).count (nth 0 lens s)

/-- The codeword of a symbol. -/
def codeword (lens : List Nat) (s : Nat) : List Bool := msbBits (nth 0 lens s) (symCode lens s)

theorem length_firstCodes (lens : List Nat) (k l code : Nat) : (firstCodes lens k l code).length = k := by
  induction k generalizing l code with
  | zero => rfl
  | succ k ih => rw [firstCodes, List.length_cons, ih]

theorem nth_firstCodes_from (lens : List Nat) {k i : Nat} (hi : i < k) (l : Nat) :
    nth 0 (firstCodes lens k (l + 1) (firstCode lens l)) i = firstCode lens (l + 1 + i) := by
  induction k generalizing i l with
  | zero => omega
  | succ k ih =>
    have hrest : firstCodes lens (k + 1) (l + 1) (firstCode lens l) =
        firstCode lens (l + 1) :: firstCodes lens k (l + 2) (firstCode lens (l + 1)) := rfl
    rw [hrest]
    cases i with
    | zero => rfl
    | succ i =>
      rw [show l + 1 + (i + 1) = l + 1 + 1 + i by omega, ← ih (by omega) (l + 1)]
      rfl

theorem nth_firstCodes (lens : List Nat) {k l : Nat} (hl : l ≠ 0) (hk : l ≤ k) :
    nth 0 (firstCodes lens k 1 0) (l - 1) = firstCode lens l := by
  have h := nth_firstCodes_from lens (k := k) (i := l - 1) (by omega) 0
  rwa [show 0 + 1 + (l - 1) = l by omega] at h

/-! ### Room for the codewords -/

/-- What the symbols of at most `l` bits take of a code, in units of 2^-maxLen. -/
def taken (maxLen l : Nat) (lens : List Nat) : Nat := (lens.map fun x => if x = 0 ∨ l < x then 0 else 2 ^ (maxLen - x)).sum

theorem kraft_eq_sum (maxLen : Nat) (lens : List Nat) :
    kraft maxLen lens = (lens.map fun x => if x = 0 then 0 else 2 ^ (maxLen - x)).sum := by
  suffices h : ∀ a, lens.foldl (fun a l => if l = 0 then a else a + 2 ^ (maxLen - l)) a =
      a + (lens.map fun x => if x = 0 then 0 else 2 ^ (maxLen - x)).sum by simpa [kraft] using h 0
  induction lens with
  | nil => simp
  | cons x xs ih =>
    intro a
    rw [List.foldl_cons, ih, List.map_cons, List.sum_cons]
    split <;> omega

theorem taken_le_kraft (maxLen l : Nat) (lens : List Nat) : taken maxLen l lens ≤ kraft maxLen lens := by
  rw [kraft_eq_sum, taken]
  refine List.sum_le_sum fun x _ => ?_
  by_cases hx : x = 0
  · simp [hx]
  · by_cases hl : l < x <;> simp [hx, hl]

theorem taken_zero (maxLen : Nat) (lens : List Nat) : taken maxLen 0 lens = 0 := by
  unfold taken
  refine List.sum_eq_zero fun y hy => ?_
  obtain ⟨x, _, rfl⟩ := List.mem_map.1 hy
  exact if_pos (by omega)

theorem taken_succ (maxLen l : Nat) (lens : List Nat) :
    taken maxLen (l + 1) lens = taken maxLen l lens + lens.count (l + 1) * 2 ^ (maxLen - (l + 1)) := by
  induction lens with
  | nil => simp [taken]
  | cons x xs ih =>
    simp only [taken, List.map_cons, List.sum_cons, List.count_cons] at ih ⊢
    rw [ih, Nat.add_mul]
    by_cases hx : x = l + 1
    · subst hx
      simp
      omega
    · have hcond : (x = 0 ∨ l + 1 < x) ↔ (x = 0 ∨ l < x) := by omega
      simp only [hcond, beq_iff_eq, hx, if_false]
      omega

/-- The codewords of at most `l` bits stand at the beginning of the code, without gaps. -/
theorem firstCode_add_count (lens : List Nat) {maxLen l : Nat} (hl : l ≤ maxLen) :
    (firstCode lens l + countLen lens l) * 2 ^ (maxLen - l) = taken maxLen l lens := by
  induction l with
  | zero => simp [firstCode, countLen, taken_zero]
  | succ l ih =>
    have hpow : 2 ^ (maxLen - l) = 2 * 2 ^ (maxLen - (l + 1)) := by
      rw [← Nat.pow_succ', show (maxLen - (l + 1)).succ = maxLen - l by omega]
    have hcount : countLen lens (l + 1) = lens.count (l + 1) := if_neg (Nat.succ_ne_zero l)
    rw [taken_succ, ← ih (by omega), hpow, firstCode, hcount, Nat.add_mul, Nat.mul_assoc]

theorem firstCode_add_count_le {lens : List Nat} {maxLen l : Nat} (hk : kraft maxLen lens ≤ 2 ^ maxLen) (hl : l ≤ maxLen) :
    firstCode lens l + countLen lens l ≤ 2 ^ l := by
  refine Nat.le_of_mul_le_mul_right ?_ (Nat.two_pow_pos (maxLen - l))
  rw [firstCode_add_count lens hl, ← Nat.pow_add, Nat.add_sub_cancel' hl]
  exact (taken_le_kraft maxLen l lens).trans hk

theorem firstCode_le_later (lens : List Nat) (l k : Nat) :
    (firstCode lens l + countLen lens l) * 2 ^ (k + 1) ≤ firstCode lens (l + (k + 1)) := by
  induction k with
  | zero => exact (by simp [firstCode])
  | succ k ih =>
    rw [Nat.pow_succ, ← Nat.mul_assoc]
    exact Nat.mul_le_mul_right 2 (ih.trans (Nat.le_add_right _ _))

/-! ### The codewords of symbols -/

section
variable {lens : List Nat} {s s' maxLen : Nat}

theorem nth_eq_getElem (hs : s < lens.length) : nth 0 lens s = lens[s] := by simp [nth, hs]

/-- Symbols of one length are numbered in their order. -/
theorem count_take_lt (h : s < s') (hs : s' ≤ lens.length) :
    (lens.take s).count (nth 0 lens s) < (lens.take s').count (nth 0 lens s) := by
  have hlt : s < lens.length := by omega
  have hnext : lens.take (s + 1) = lens.take s ++ [nth 0 lens s] := by
    rw [nth_eq_getElem hlt, List.take_append_getElem hlt]
  have hle := ((List.take_prefix_take_left (l := lens) (show s + 1 ≤ s' by omega)).sublist.count_le (nth 0 lens s))
  rw [hnext, List.count_append, List.count_singleton_self] at hle
  omega

theorem symCode_lt_next (hs : s < lens.length) (hlen : nth 0 lens s ≠ 0) :
    symCode lens s < firstCode lens (nth 0 lens s) + countLen lens (nth 0 lens s) := by
  have h := count_take_lt hs (Nat.le_refl _)
  rw [List.take_length] at h
  simp only [symCode, countLen, if_neg hlen]
  omega

theorem symCode_lt (hk : kraft maxLen lens ≤ 2 ^ maxLen) (hs : s < lens.length) (hlen : nth 0 lens s ≠ 0)
    (hmax : nth 0 lens s ≤ maxLen) : symCode lens s < 2 ^ nth 0 lens s :=
  (symCode_lt_next hs hlen).trans_le (firstCode_add_count_le hk hmax)

theorem symCode_ne (hs : s < lens.length) (hs' : s' < lens.length) (hne : s ≠ s') (heq : nth 0 lens s = nth 0 lens s') :
    symCode lens s ≠ symCode lens s' := by
  unfold symCode
  rcases Nat.lt_or_gt_of_ne hne with h | h
  · have := count_take_lt h hs'.le
    rw [← heq]
    omega
  · have := count_take_lt h hs.le
    rw [heq]
    omega

/-- No codeword begins another. -/
theorem codeword_not_prefix (hk : kraft maxLen lens ≤ 2 ^ maxLen) (hs : s < lens.length) (hs' : s' < lens.length)
    (hne : s ≠ s') (hlen : nth 0 lens s ≠ 0) (hlen' : nth 0 lens s' ≠ 0) (hmax' : nth 0 lens s' ≤ maxLen) :
    ¬ codeword lens s <+: codeword lens s' := by
  intro h
  have hle : nth 0 lens s ≤ nth 0 lens s' := by simpa [codeword, length_msbBits] using h.length_le
  obtain ⟨k, hsum⟩ := Nat.exists_eq_add_of_le hle
  have hlt := symCode_lt hk hs hlen (hle.trans hmax')
  have hlt' := symCode_lt hk hs' hlen' hmax'
  unfold codeword at h
  rw [hsum] at h hlt'
  have hdiv := eq_div_of_prefix hlt hlt' h
  cases k with
  | zero => exact symCode_ne hs hs' hne (by omega) (by simpa using hdiv)
  | succ k =>
    have hgap : (symCode lens s + 1) * 2 ^ (k + 1) ≤ symCode lens s' :=
      calc (symCode lens s + 1) * 2 ^ (k + 1)
          ≤ (firstCode lens (nth 0 lens s) + countLen lens (nth 0 lens s)) * 2 ^ (k + 1) :=
            Nat.mul_le_mul_right _ (symCode_lt_next hs hlen)
        _ ≤ firstCode lens (nth 0 lens s + (k + 1)) := firstCode_le_later lens _ k
        _ ≤ symCode lens s' := by rw [symCode, hsum]; exact Nat.le_add_right _ _
    have := (Nat.le_div_iff_mul_le (Nat.two_pow_pos (k + 1))).2 hgap
    omega

end

/-! ### The tree of a canonical code -/

/-- One symbol put into the tree; the list holds the next codeword of each length. -/
def canonStep (q : CTree × List Nat) (e : Nat × Nat) : CTree × List Nat :=
  if e.1 = 0 then q
  else
    let c := nth 0 q.2 (e.1 - 1)
    (q.1.insert e.2 (msbBits e.1 c), q.2.take (e.1 - 1) ++ (c + 1) :: q.2.drop e.1)

/-- The tree with the first `k` symbols in it, and the next codewords. -/
def canonState (maxLen : Nat) (lens : List Nat) (k : Nat) : CTree × List Nat :=
  ((lens.zip (below lens.length)).take k).foldl canonStep (.empty, firstCodes lens maxLen 1 0)

theorem canonical_eq (maxLen : Nat) (lens : List Nat) : canonical maxLen lens = (canonState maxLen lens lens.length).1 := by
  rw [canonState, List.take_of_length_le (by simp [below])]
  rfl

theorem canonState_succ (maxLen : Nat) {lens : List Nat} {k : Nat} (hk : k < lens.length) :
    canonState maxLen lens (k + 1) = canonStep (canonState maxLen lens k) (nth 0 lens k, k) := by
  have hzip : k < (lens.zip (below lens.length)).length := by simpa [below] using hk
  have hget : (lens.zip (below lens.length))[k] = (nth 0 lens k, k) := by simp [below, nth_eq_getElem hk]
  rw [canonState, ← List.take_append_getElem hzip, List.foldl_append, hget]
  rfl

theorem canonState_ne_sym (maxLen : Nat) (lens : List Nat) (m : Nat) {k : Nat} (hk : k ≤ lens.length) :
    (canonState maxLen lens k).1 ≠ .sym m := by
  induction k with
  | zero => exact fun h => CTree.noConfusion h
  | succ k ih =>
    rw [canonState_succ maxLen hk, canonStep]
    split
    · exact ih (by omega)
    · rename_i hlen
      refine insert_ne_sym fun hnil => hlen ?_
      rw [← length_msbBits (nth 0 lens k, k).1 _, hnil]
      rfl

/-- A code's tree is no bare leaf: each symbol takes a bit at least. -/
theorem canonical_ne_sym (maxLen : Nat) (lens : List Nat) (m : Nat) : canonical maxLen lens ≠ .sym m :=
  canonical_eq maxLen lens ▸ canonState_ne_sym maxLen lens m (Nat.le_refl _)

section
variable {maxLen : Nat} {lens : List Nat} {k : Nat}

theorem nth_set_self {l : List Nat} (v : Nat) {i : Nat} (hi : i < l.length) : nth 0 (l.set i v) i = v := by
  simp [nth, hi]

theorem nth_set_ne (l : List Nat) (v : Nat) {i j : Nat} (hij : i ≠ j) : nth 0 (l.set i v) j = nth 0 l j := by
  simp [nth, List.getElem?_set_ne hij]

theorem canonStep_next {q : CTree × List Nat} {e : Nat × Nat} (he : e.1 ≠ 0) (hmax : e.1 ≤ q.2.length) :
    (canonStep q e).2 = q.2.set (e.1 - 1) (nth 0 q.2 (e.1 - 1) + 1) := by
  rw [canonStep, if_neg he, List.set_eq_take_append_cons_drop, if_pos (by omega), Nat.sub_add_cancel (by omega)]

theorem length_canonState (hmax : ∀ x ∈ lens, x ≤ maxLen) (hk : k ≤ lens.length) :
    (canonState maxLen lens k).2.length = maxLen := by
  induction k with
  | zero => exact length_firstCodes lens maxLen 1 0
  | succ k ih =>
    have hrest := ih (by omega)
    have hle : nth 0 lens k ≤ maxLen := hmax _ (nth_eq_getElem (show k < lens.length by omega) ▸ List.getElem_mem _)
    rw [canonState_succ maxLen hk]
    by_cases hlen : nth 0 lens k = 0
    · rw [canonStep, if_pos hlen, hrest]
    · rw [canonStep_next hlen (by omega), List.length_set, hrest]

/-- The next codeword of a length comes after those the symbols so far have taken. -/
theorem nth_canonState (hmax : ∀ x ∈ lens, x ≤ maxLen) (hk : k ≤ lens.length) {l : Nat} (hl : l ≠ 0) (hlm : l ≤ maxLen) :
    nth 0 (canonState maxLen lens k).2 (l - 1) = firstCode lens l + (lens.take k).count l := by
  induction k with
  | zero => simpa [canonState] using nth_firstCodes lens hl hlm
  | succ k ih =>
    have hlt : k < lens.length := hk
    have hrest := ih (by omega)
    have hsize := length_canonState hmax (show k ≤ lens.length by omega)
    have hle : nth 0 lens k ≤ maxLen := hmax _ (nth_eq_getElem hlt ▸ List.getElem_mem _)
    rw [canonState_succ maxLen hk, ← List.take_append_getElem hlt, List.count_append, ← nth_eq_getElem hlt]
    by_cases hzero : nth 0 lens k = 0
    · rw [canonStep, if_pos hzero, hrest, hzero, List.count_singleton, beq_eq_false_iff_ne.2 hl.symm]
      rfl
    · rw [canonStep_next hzero (by omega)]
      by_cases heq : nth 0 lens k = l
      · subst heq
        rw [nth_set_self _ (show nth 0 lens k - 1 < _ by omega), hrest, List.count_singleton_self, Nat.add_assoc]
      · have hne : (nth 0 lens k, k).1 - 1 ≠ l - 1 := by dsimp only; omega
        rw [List.count_singleton, beq_eq_false_iff_ne.2 heq]
        exact (nth_set_ne _ _ hne).trans hrest

/-- The codewords of the symbols so far are the paths of the tree. -/
theorem canonState_leafAt (hmax : ∀ x ∈ lens, x ≤ maxLen) (hkraft : kraft maxLen lens ≤ 2 ^ maxLen) (hk : k ≤ lens.length)
    {s : Nat} (hs : s < k) (hlen : nth 0 lens s ≠ 0) : (canonState maxLen lens k).1.leafAt (codeword lens s) s := by
  have hle : ∀ i < lens.length, nth 0 lens i ≤ maxLen := fun i hi => hmax _ (nth_eq_getElem hi ▸ List.getElem_mem _)
  induction k with
  | zero => omega
  | succ k ih =>
    rw [canonState_succ maxLen hk, canonStep]
    split
    · rename_i hzero
      exact ih (by omega) (Nat.lt_of_le_of_ne (Nat.le_of_lt_succ hs) fun h => hlen (h ▸ hzero))
    · rename_i hzero
      dsimp only at hzero ⊢
      rw [nth_canonState hmax (by omega) hzero (hle k hk)]
      change CTree.leafAt (CTree.insert k (codeword lens k) _) _ _
      rcases Nat.lt_succ_iff_lt_or_eq.1 hs with hlt | heq
      · exact leafAt_insert_other (ih (by omega) hlt)
          (codeword_not_prefix hkraft (by omega) hk (by omega) hlen hzero (hle k hk))
          (codeword_not_prefix hkraft hk (by omega) (by omega) hzero hlen (hle s (by omega)))
      · subst heq
        exact leafAt_insert _ _ _

end

/-- Lengths that make a code leave room for its codewords. -/
theorem kraft_le_of_valid {maxLen : Nat} {mayBeEmpty : Bool} {lens : List Nat} (h : lengthsValid maxLen mayBeEmpty lens = true) :
    kraft maxLen lens ≤ 2 ^ maxLen := by
  have hfilter : ∀ l : List Nat, kraft maxLen l = kraft maxLen (l.filter (· != 0)) := by
    intro l
    rw [kraft_eq_sum, kraft_eq_sum]
    induction l with
    | nil => rfl
    | cons x xs ih => by_cases hx : x = 0 <;> simp [hx, ih]
  unfold lengthsValid at h
  dsimp only at h
  split at h
  · rename_i hnone
    rw [hfilter, hnone]
    exact Nat.zero_le _
  · simp only [Bool.or_eq_true, beq_iff_eq] at h
    rcases h with h | h
    · rw [hfilter, h]
      simp only [kraft, List.foldl_cons, List.foldl_nil, Nat.one_ne_zero, if_false, Nat.zero_add]
      exact Nat.pow_le_pow_right (by decide) (Nat.sub_le _ _)
    · exact h.le

/-- A code's tree reads every symbol from its codeword. -/
theorem decodeSym_codeword {maxLen s : Nat} {mayBeEmpty : Bool} {lens : List Nat} (hvalid : lengthsValid maxLen mayBeEmpty lens = true)
    (hmax : ∀ x ∈ lens, x ≤ maxLen) (hs : s < lens.length) (hlen : nth 0 lens s ≠ 0) :
    Reads (decodeSym (canonical maxLen lens)) (codeword lens s) s := by
  have hleaf := canonState_leafAt hmax (kraft_le_of_valid hvalid) (Nat.le_refl _) hs hlen
  rw [← canonical_eq] at hleaf
  cases hword : codeword lens s with
  | nil => exact absurd (by simpa [codeword, length_msbBits] using congrArg List.length hword) hlen
  | cons b w => exact decodeSym_leafAt (hword ▸ hleaf)

/-- The encoder's table of codewords. -/
theorem nth_codewords {lens : List Nat} {s : Nat} (hs : s < lens.length) (hlen : nth 0 lens s ≠ 0) (hmax : nth 0 lens s ≤ 15) :
    nth [] (codewords lens) s = codeword lens s := by
  have hget : nth [] (codewords lens) s =
      msbBits (nth 0 lens s) (nth 0 (firstCodes lens 15 1 0) (nth 0 lens s - 1) + (lens.take s).count (nth 0 lens s)) := by
    simp [codewords, nth, below, hs]
  rw [hget, nth_firstCodes lens hlen hmax]
  rfl

end Sys2Proof.Machine
end

section
/-! The table section gives back the lengths it was made of (05 R133, R140, R142). -/

namespace Sys2Proof.Machine

/-! ### A table section read from its own words -/

theorem readTableLengths_readsWords : ReadsWords readTableLengths := by
  intro r v r' h
  unfold readTableLengths at h
  split at h
  · exact absurd h (by simp)
  rename_i nl r1 h1
  split at h
  · exact absurd h (by simp)
  rename_i nd r2 h2
  split at h
  · exact absurd h (by simp)
  rename_i nc r3 h3
  split at h
  · exact absurd h (by simp)
  rename_i hnc
  split at h
  · exact absurd h (by simp)
  rename_i cl r4 h4
  dsimp only at h
  split at h
  · exact absurd h (by simp)
  rename_i hcl
  split at h
  · exact absurd h (by simp)
  rename_i ls r5 h5
  split at h
  · exact absurd h (by simp)
  rename_i hserve
  obtain ⟨rfl, rfl⟩ := Dec.ok.inj h
  simp only [not_or, Bool.not_eq_false] at hserve hcl
  obtain ⟨w1, e1, reads1⟩ := readBits_readsWords _ _ _ _ h1
  obtain ⟨w2, e2, reads2⟩ := readBits_readsWords _ _ _ _ h2
  obtain ⟨w3, e3, reads3⟩ := readBits_readsWords _ _ _ _ h3
  obtain ⟨w4, e4, reads4⟩ := readTriples_readsWords _ _ _ _ h4
  obtain ⟨w5, e5, reads5⟩ := readLengths_readsWords (canonical_ne_sym 7 _) _ _ _ _ _ _ _ h5
  exact ⟨w1 ++ (w2 ++ (w3 ++ (w4 ++ w5))), by rw [e1, e2, e3, e4, e5]; simp only [List.append_assoc],
    readTableLengths_reads reads1 reads2 reads3 hnc reads4 hcl reads5 hserve⟩

/-! ### Lengths without those of symbols that are absent at the end -/

section
variable (lens : List Nat) (m : Nat)

theorem nth_append_zeros (s : Nat) : nth 0 (lens ++ List.replicate m 0) s = nth 0 lens s := by
  unfold nth
  rw [List.getD_eq_getElem?_getD, List.getD_eq_getElem?_getD, List.getElem?_append]
  split
  · rfl
  · rename_i hs
    rw [List.getElem?_eq_none (Nat.not_lt.1 hs), List.getElem?_replicate]
    split <;> rfl

theorem kraft_append_zeros (maxLen : Nat) : kraft maxLen (lens ++ List.replicate m 0) = kraft maxLen lens := by
  simp [kraft_eq_sum]

theorem lengthsValid_append_zeros (maxLen : Nat) (mayBeEmpty : Bool) :
    lengthsValid maxLen mayBeEmpty (lens ++ List.replicate m 0) = lengthsValid maxLen mayBeEmpty lens := by
  have hused : (lens ++ List.replicate m 0).filter (· != 0) = lens.filter (· != 0) := by simp
  rw [lengthsValid, lengthsValid, hused, kraft_append_zeros]

theorem firstCode_append_zeros (l : Nat) : firstCode (lens ++ List.replicate m 0) l = firstCode lens l := by
  induction l with
  | zero => rfl
  | succ l ih =>
    have hcount : countLen (lens ++ List.replicate m 0) l = countLen lens l := by
      unfold countLen
      split
      · rfl
      · rename_i hl
        rw [List.count_append, List.count_replicate, if_neg (by simpa using Ne.symm hl), Nat.add_zero]
    rw [firstCode, firstCode, ih, hcount]

theorem codeword_append_zeros {s : Nat} (hs : s < lens.length) :
    codeword (lens ++ List.replicate m 0) s = codeword lens s := by
  rw [codeword, codeword, symCode, symCode, nth_append_zeros, firstCode_append_zeros, List.take_append_of_le_length hs.le]

end

theorem le_foldl_max (l : List Nat) (a : Nat) :
    a ≤ l.foldl (fun a s => max a (s + 1)) a ∧ ∀ s ∈ l, s < l.foldl (fun a s => max a (s + 1)) a := by
  induction l generalizing a with
  | nil => exact ⟨Nat.le_refl a, fun _ h => absurd h List.not_mem_nil⟩
  | cons x xs ih =>
    obtain ⟨hstart, hall⟩ := ih (max a (x + 1))
    refine ⟨(Nat.le_max_left _ _).trans hstart, fun s hs => ?_⟩
    rcases List.mem_cons.1 hs with rfl | hs
    · exact (Nat.le_max_right a (s + 1)).trans hstart
    · exact hall s hs

/-- What is sent is all but zeros at the end. -/
theorem sentLengths_append_zeros (least : Nat) (lens : List Nat) :
    ∃ m, lens = sentLengths least lens ++ List.replicate m 0 := by
  obtain ⟨k, hk, hzero⟩ : ∃ k, sentLengths least lens = lens.take k ∧ ∀ s < lens.length, k ≤ s → nth 0 lens s = 0 := by
    refine ⟨_, rfl, fun s hs hle => by_contra fun hne => ?_⟩
    have hused : s ∈ (below lens.length).filter fun s => nth 0 lens s != 0 := by simp [below, hs, hne]
    have := (le_foldl_max _ 0).2 s hused
    omega
  refine ⟨(lens.drop k).length, ?_⟩
  have hdrop : lens.drop k = List.replicate (lens.drop k).length 0 := by
    refine List.eq_replicate_of_mem fun x hx => ?_
    obtain ⟨i, hi, rfl⟩ := List.getElem_of_mem hx
    rw [List.length_drop] at hi
    rw [List.getElem_drop, ← nth_eq_getElem (by omega)]
    exact hzero _ (by omega) (by omega)
  rw [hk, ← hdrop, List.take_append_drop]

theorem length_sentLengths {least : Nat} {lens : List Nat} (h : least ≤ lens.length) :
    least ≤ (sentLengths least lens).length ∧ (sentLengths least lens).length ≤ lens.length := by
  rw [sentLengths, List.length_take]
  omega

/-! ### The plain table section -/

theorem readTriples_fields {l : List Nat} (h : ∀ x ∈ l, x < 8) :
    Reads (readTriples l.length) (l.flatMap (fieldBits 3)) l := by
  induction l with
  | nil => exact fun _ _ => rfl
  | cons x xs ih =>
    exact readTriples_cons (readBits_field (h x List.mem_cons_self)) (ih fun y hy => h y (List.mem_cons_of_mem x hy))

/-- Lengths sent each as its own symbol. -/
theorem readLengths_symbols {t : CTree} {rep total fuel : Nat} {word : Nat → List Bool} {ls acc : List Nat}
    (hword : ∀ l ∈ ls, l < rep ∧ Reads (decodeSym t) (word l) l) (htotal : acc.length + ls.length = total)
    (hfuel : ls.length ≤ fuel) : Reads (readLengths t rep total fuel acc) (ls.flatMap word) (acc.reverse ++ ls) := by
  induction ls generalizing acc fuel with
  | nil =>
    rw [List.append_nil]
    exact readLengths_done (Nat.le_of_eq htotal.symm)
  | cons l ls ih =>
    obtain ⟨fuel, rfl⟩ := Nat.exists_eq_add_of_le' (Nat.le_trans (Nat.succ_le_succ (Nat.zero_le ls.length)) hfuel)
    obtain ⟨hl, hreads⟩ := hword l List.mem_cons_self
    rw [List.length_cons] at htotal hfuel
    have hrest := ih (acc := l :: acc) (fun x hx => hword x (List.mem_cons_of_mem l hx)) (by rw [List.length_cons]; omega)
      (show ls.length ≤ fuel by omega)
    rw [List.reverse_cons, List.append_assoc] at hrest
    exact readLengths_length (by omega) hl hreads hrest

/-- The plain code-length code, as the decoder takes it from its triples. -/
theorem clLensOf_plain : clLensOf (clOrder.map (nth 0 plainClLens)) = plainClLens ++ List.replicate 3 0 := by decide

theorem decodeSym_plain {l : Nat} (hl : l < 13) :
    Reads (decodeSym (canonical 7 (plainClLens ++ List.replicate 3 0))) (nth [] (codewords plainClLens) l) l := by
  have hlen : nth 0 plainClLens l ≠ 0 ∧ nth 0 plainClLens l ≤ 15 := by
    have hall : ∀ l < 13, nth 0 plainClLens l ≠ 0 ∧ nth 0 plainClLens l ≤ 15 := by decide
    exact hall l hl
  rw [nth_codewords hl hlen.1 hlen.2, ← codeword_append_zeros plainClLens 3 hl]
  exact decodeSym_codeword (mayBeEmpty := false) (by decide) (by decide) (Nat.lt_of_lt_of_le hl (by decide))
    (by rw [nth_append_zeros]; exact hlen.1)

theorem readTableLengths_plain {lit dist : List Nat} (hlit : 258 ≤ lit.length ∧ lit.length ≤ 289)
    (hdist : 1 ≤ dist.length ∧ dist.length ≤ 32) (hlens : ∀ l ∈ lit ++ dist, l ≤ 12) (hserve : tablesServe lit dist) :
    Reads readTableLengths (fieldBits 5 (lit.length - 258) ++ fieldBits 5 (dist.length - 1) ++ fieldBits 4 12 ++
      plainLengths clOrder (lit ++ dist)) (lit, dist) := by
  have htake : (lit ++ dist).take (258 + (lit.length - 258)) = lit := by
    rw [Nat.add_sub_cancel' hlit.1, List.take_left]
  have hdrop : (lit ++ dist).drop (258 + (lit.length - 258)) = dist := by
    rw [Nat.add_sub_cancel' hlit.1, List.drop_left]
  have htriples : Reads (readTriples (12 + 4)) ((clOrder.map (nth 0 plainClLens)).flatMap (fieldBits 3))
      (clOrder.map (nth 0 plainClLens)) := readTriples_fields (l := clOrder.map (nth 0 plainClLens)) (by decide)
  have hlengths := readLengths_symbols (acc := []) (rep := 13) (total := 258 + (lit.length - 258) + (dist.length - 1) + 1)
    (fuel := 258 + (lit.length - 258) + (dist.length - 1) + 2) (ls := lit ++ dist)
    (fun l hl => ⟨Nat.lt_succ_of_le (hlens l hl), decodeSym_plain (Nat.lt_succ_of_le (hlens l hl))⟩)
    (by simp only [List.length_nil, List.length_append]; omega) (by rw [List.length_append]; omega)
  have h := readTableLengths_reads (readBits_field (n := 5) (v := lit.length - 258) (by omega))
    (readBits_field (n := 5) (v := dist.length - 1) (by omega)) (readBits_field (n := 4) (v := 12) (by decide)) (by decide)
    htriples (by rw [clLensOf_plain]; decide) (clLensOf_plain.symm ▸ hlengths) (by
      rw [List.reverse_nil, List.nil_append, htake, hdrop]
      exact hserve)
  rw [List.reverse_nil, List.nil_append, htake, hdrop, List.flatMap_map] at h
  simpa only [plainLengths, List.append_assoc] using h

/-- Whichever way the lengths are sent, they are read back. -/
theorem readTableLengths_maeriTables {lit dist : List Nat} (hlit : 258 ≤ lit.length ∧ lit.length ≤ 289)
    (hdist : 1 ≤ dist.length ∧ dist.length ≤ 32) (hlens : ∀ l ∈ lit ++ dist, l ≤ 12) (hserve : tablesServe lit dist) :
    Reads readTableLengths (maeriTables lit dist) (lit, dist) := by
  unfold maeriTables
  dsimp only
  split
  · rename_i q r hown
    split
    · rename_i hgood
      simp only [Bool.and_eq_true, beq_iff_eq, List.isEmpty_iff] at hgood
      obtain ⟨rfl, hend⟩ := hgood
      exact .of_all readTableLengths_readsWords hown hend
    · exact readTableLengths_plain hlit hdist hlens hserve
  · exact readTableLengths_plain hlit hdist hlens hserve

end Sys2Proof.Machine
end

section
/-! Every parse of a unit spells it: its literals are the unit's bytes, and its matches repeat what stands before them
(05 R131, R132, R141). -/

namespace Sys2Proof.Machine

/-! ### Tokens that spell -/

/-- A token is right at a position of the bytes, and within the limits of Maeri (R131, R132). -/
def Token.Fits (bytes : List Byte) (i : Nat) : Token → Prop
  | .lit b => bytes[i]? = some b
  | .pair len dist => (4 ≤ len ∧ len ≤ 1027) ∧ (1 ≤ dist ∧ dist ≤ 36864) ∧ dist ≤ i ∧ i + len ≤ bytes.length ∧
      ∀ k < len, bytes[i - dist + k]? = bytes[i + k]?

/-- Tokens that from a position on spell the bytes to their end. -/
def Spells (bytes : List Byte) : Nat → List Token → Prop
  | i, [] => i = bytes.length
  | i, t :: ts => t.Fits bytes i ∧ Spells bytes (i + t.span) ts

theorem Token.Fits.span_pos {bytes : List Byte} {i : Nat} {t : Token} (h : t.Fits bytes i) : 1 ≤ t.span := by
  cases t with
  | lit b => exact Nat.le_refl 1
  | pair len dist => exact Nat.le_trans (by decide) h.1.1

theorem Token.Fits.within {bytes : List Byte} {i : Nat} {t : Token} (h : t.Fits bytes i) : i + t.span ≤ bytes.length := by
  cases t with
  | lit b => exact (List.getElem?_eq_some_iff.1 h).1
  | pair len dist =>
    obtain ⟨_, _, _, hend, _⟩ := h
    exact hend

/-! ### Matches -/

theorem commonLen_le : ∀ (k : Nat) (xs ys : List Byte), commonLen k xs ys ≤ k
  | 0, _, _ => Nat.zero_le _
  | _ + 1, [], _ => Nat.zero_le _
  | _ + 1, _ :: _, [] => Nat.zero_le _
  | k + 1, x :: xs, y :: ys => by
    rw [commonLen]
    split
    · exact Nat.succ_le_succ (commonLen_le k xs ys)
    · exact Nat.zero_le _

/-- Strings agree as far as their common length. -/
theorem getElem?_of_lt_commonLen : ∀ {k n : Nat} {xs ys : List Byte}, n < commonLen k xs ys → xs[n]? = ys[n]?
  | 0, _, _, _, h => absurd h (Nat.not_lt_zero _)
  | _ + 1, _, [], _, h => absurd h (Nat.not_lt_zero _)
  | _ + 1, _, _ :: _, [], h => absurd h (Nat.not_lt_zero _)
  | k + 1, n, x :: xs, y :: ys, h => by
    rw [commonLen] at h
    split at h
    · rename_i hxy
      cases n with
      | zero => exact congrArg some hxy
      | succ n => exact getElem?_of_lt_commonLen (xs := xs) (ys := ys) (Nat.lt_of_succ_lt_succ h)
    · exact absurd h (Nat.not_lt_zero _)

theorem mem_examine {g : Ground} {i most stop : Nat} {m : Nat × Nat} : ∀ {js : List Nat}, m ∈ examine g i most stop js →
    ∃ j ∈ js, m = (commonLen most (g.bytes.drop j) (g.bytes.drop i), i - j)
  | j :: js, h => by
    rw [examine] at h
    split at h
    · exact ⟨j, List.mem_cons_self, List.mem_singleton.1 h⟩
    · rcases List.mem_cons.1 h with h | h
      · exact ⟨j, List.mem_cons_self, h⟩
      · obtain ⟨j', hj', hm⟩ := mem_examine h
        exact ⟨j', List.mem_cons_of_mem j hj', hm⟩

theorem mem_chainOf {f : PackFormat} {g : Ground} {i j : Nat} (h : j ∈ chainOf f g i) : j < i ∧ i - j ≤ f.farthest := by
  unfold chainOf at h
  split at h
  · exact absurd h List.not_mem_nil
  · simp only [List.mem_filter, List.mem_reverse, below, List.mem_range, Bool.and_eq_true, decide_eq_true_eq] at h
    exact ⟨h.1, h.2.1⟩

theorem leastBy_mem {α : Type} {before : α → α → Bool} {x : α} : ∀ {l : List α}, leastBy before l = some x → x ∈ l
  | y :: ys, h => by
    unfold leastBy at h
    split at h
    · exact Option.some.inj h ▸ List.mem_cons_self
    · rename_i z hz
      have hmem := leastBy_mem hz
      split at h
      · exact Option.some.inj h ▸ List.mem_cons_self
      · exact Option.some.inj h ▸ List.mem_cons_of_mem y hmem

theorem leastBy_isSome {α : Type} (before : α → α → Bool) (x : α) (xs : List α) :
    ∃ y, leastBy before (x :: xs) = some y := by
  unfold leastBy
  split
  · exact ⟨_, rfl⟩
  · split <;> exact ⟨_, rfl⟩

section
variable {e : Effort} {g : Ground} {i : Nat}

/-- Every length of a match that is found fits, from the least of Maeri on. -/
theorem fits_of_mem_matchesAt (hstop : g.stop = g.bytes.length) {m : Nat × Nat} (h : m ∈ matchesAt maeriPack e g i) {len : Nat}
    (hleast : 4 ≤ len) (hlen : len ≤ m.1) : (Token.pair len m.2).Fits g.bytes i := by
  obtain ⟨hexam, _⟩ := List.mem_filter.1 h
  obtain ⟨j, hj, rfl⟩ := mem_examine hexam
  obtain ⟨hji, hfar⟩ := mem_chainOf (List.mem_of_mem_take hj)
  dsimp only at hlen ⊢
  have hmost := commonLen_le (min maeriPack.longest (g.stop - i)) (g.bytes.drop j) (g.bytes.drop i)
  rw [show maeriPack.longest = 1027 from rfl] at hmost hlen
  rw [show maeriPack.farthest = 36864 from rfl] at hfar
  refine ⟨by omega, by omega, by omega, by omega, fun k hk => ?_⟩
  have hagree := getElem?_of_lt_commonLen (hk.trans_le hlen)
  rwa [List.getElem?_drop, List.getElem?_drop, show j = i - (i - j) by omega] at hagree

theorem fits_of_longestAt (hstop : g.stop = g.bytes.length) {m : Nat × Nat} (h : longestAt maeriPack e g i = some m) :
    (Token.pair m.1 m.2).Fits g.bytes i := by
  have hmem := leastBy_mem h
  exact fits_of_mem_matchesAt hstop hmem (by simpa using (List.mem_filter.1 hmem).2) (Nat.le_refl _)

/-- A lazy step goes on, and to a position with a match. -/
theorem longerAhead_spec {f : PackFormat} {len t : Nat} (h : longerAhead f e g i len = some t) :
    1 ≤ t ∧ ∃ m, longestAt f e g (i + t) = some m := by
  unfold longerAhead at h
  have hmem := List.mem_of_find?_eq_some h
  have hfound := List.find?_some h
  obtain ⟨k, _, rfl⟩ := List.mem_map.1 hmem
  refine ⟨Nat.le_add_left 1 k, ?_⟩
  split at hfound
  · rename_i m hm
    exact ⟨m, hm⟩
  · exact absurd hfound Bool.false_ne_true

/-! ### The greedy and the lazy parse -/

theorem spells_literals {ts : List Token} {n : Nat} (h : i + n ≤ g.bytes.length) (hts : Spells g.bytes (i + n) ts) :
    Spells g.bytes i (literals g i n ++ ts) := by
  induction n generalizing i with
  | zero => simpa [literals, slice] using hts
  | succ n ih =>
    have hi : i < g.bytes.length := by omega
    have hcons : literals g i (n + 1) = .lit g.bytes[i] :: literals g (i + 1) n := by
      rw [literals, slice, List.drop_eq_getElem_cons hi, List.take_succ_cons, List.map_cons]
      rfl
    rw [hcons]
    rw [show i + (n + 1) = i + 1 + n by omega] at hts
    exact ⟨List.getElem?_eq_getElem hi, ih (i := i + 1) (by omega) hts⟩

theorem spells_lazyParse (hstop : g.stop = g.bytes.length) {fuel : Nat} (hi : i ≤ g.stop) (hfuel : g.stop ≤ i + fuel) :
    Spells g.bytes i (lazyParse maeriPack e g fuel i) := by
  induction fuel generalizing i with
  | zero => exact (show i = g.bytes.length by omega)
  | succ fuel ih =>
    unfold lazyParse
    split
    · exact (show i = g.bytes.length by omega)
    · split
      · exact spells_literals (by omega) (ih (by omega) (by omega))
      · rename_i m hm
        split
        · rename_i t ht
          obtain ⟨hpos, m', hm'⟩ := longerAhead_spec ht
          have hahead := (fits_of_longestAt hstop hm').within
          exact spells_literals (by omega) (ih (by omega) (by omega))
        · have hfits := fits_of_longestAt hstop hm
          have hpos : 1 ≤ m.1 := hfits.span_pos
          have hend : i + m.1 ≤ g.bytes.length := hfits.within
          exact ⟨hfits, ih (i := i + m.1) (by omega) (by omega)⟩

/-! ### The optimal parse -/

theorem fits_of_mem_choicesAt (hstop : g.stop = g.bytes.length) {t : Token} (h : t ∈ choicesAt maeriPack e g i) :
    t.Fits g.bytes i := by
  rcases List.mem_append.1 h with h | h
  · obtain ⟨b, hb, rfl⟩ := List.mem_map.1 h
    obtain ⟨k, hk, hget⟩ := List.getElem_of_mem hb
    simp only [slice, List.length_take, List.length_drop] at hk
    obtain rfl : k = 0 := by omega
    simp only [slice, List.getElem_take, List.getElem_drop, Nat.add_zero] at hget
    exact List.getElem?_eq_some_iff.2 ⟨by omega, hget⟩
  · obtain ⟨m, hm, ht⟩ := List.mem_flatMap.1 h
    obtain ⟨k, hk, rfl⟩ := List.mem_map.1 ht
    have hk := List.mem_range.1 hk
    exact fits_of_mem_matchesAt hstop hm (by omega) (by omega)

/-- Tokens at the last positions, each right where it stands. -/
def WaysFit (bytes : List Byte) : List (Nat × Token) → Prop
  | [] => True
  | w :: ws => w.2.Fits bytes (bytes.length - (ws.length + 1)) ∧ WaysFit bytes ws

theorem WaysFit.drop {bytes : List Byte} : ∀ {l : List (Nat × Token)} (_ : WaysFit bytes l) (n : Nat), WaysFit bytes (l.drop n)
  | [], _, _ => by simp [WaysFit]
  | _ :: _, h, 0 => h
  | _ :: _, h, n + 1 => h.2.drop n

theorem spells_walk {bytes : List Byte} {fuel : Nat} {l : List (Nat × Token)} (hl : WaysFit bytes l) (hfuel : l.length ≤ fuel)
    (hlen : l.length ≤ bytes.length) : Spells bytes (bytes.length - l.length) (walk fuel l) := by
  induction fuel generalizing l with
  | zero =>
    obtain rfl := List.eq_nil_of_length_eq_zero (Nat.le_zero.1 hfuel)
    exact Nat.sub_zero _
  | succ fuel ih =>
    cases l with
    | nil => exact Nat.sub_zero _
    | cons w ws =>
      have hpos := hl.1.span_pos
      have hend := hl.1.within
      have hrest := ih (hl.drop w.2.span) (by rw [List.length_drop]; omega) (by rw [List.length_drop]; omega)
      rw [List.length_cons] at hfuel hlen
      rw [List.length_drop, List.length_cons,
        show bytes.length - (ws.length + 1 - w.2.span) = bytes.length - (ws.length + 1) + w.2.span by omega] at hrest
      exact ⟨hl.1, hrest⟩

theorem cheapest_fits (hstop : g.stop = g.bytes.length) (lens : List Nat × List Nat) {k : Nat} (hk : k ≤ g.stop) :
    (cheapest maeriPack e g lens k).length = k ∧ WaysFit g.bytes (cheapest maeriPack e g lens k) := by
  induction k with
  | zero => exact ⟨rfl, trivial⟩
  | succ k ih =>
    obtain ⟨hlen, hfits⟩ := ih (by omega)
    have hlit : literals g (g.stop - (k + 1)) 1 = [.lit (g.bytes[g.stop - (k + 1)]'(by omega))] := by
      rw [literals, slice, List.drop_eq_getElem_cons (by omega)]
      rfl
    unfold cheapest
    dsimp only
    split
    · rename_i w hw
      obtain ⟨t, ht, rfl⟩ := List.mem_map.1 (leastBy_mem hw)
      exact ⟨congrArg Nat.succ hlen, by rw [hlen, ← hstop]; exact fits_of_mem_choicesAt hstop ht, hfits⟩
    · rename_i hnone
      rw [choicesAt, hlit, List.singleton_append, List.map_cons] at hnone
      obtain ⟨y, hy⟩ := leastBy_isSome _ _ _
      exact absurd (hnone.symm.trans hy) (Option.some_ne_none y).symm

theorem spells_optimalParse (hstop : g.stop = g.bytes.length) {n : Nat} (hn : n ≤ g.stop) {before : List Token}
    (hbefore : Spells g.bytes (g.stop - n) before) (passes : Nat) :
    Spells g.bytes (g.stop - n) (optimalParse maeriPack e g n passes before) := by
  induction passes generalizing before with
  | zero => exact hbefore
  | succ k ih =>
    refine ih ?_
    obtain ⟨hlen, hfits⟩ := cheapest_fits (e := e) hstop (ownLengths maeriPack before) hn
    have h := spells_walk hfits (fuel := n) (Nat.le_of_eq hlen) (by omega)
    rwa [hlen, ← hstop] at h

end

/-- The parse of a unit spells it, at every level and after any history. -/
theorem spells_parseUnit (level : Nat) (past unit : List Byte) :
    Spells (past ++ unit) past.length (parseUnit maeriPack level past unit) := by
  have hstop : (ground past unit).stop = (ground past unit).bytes.length := (List.length_append ..).symm
  have hlazy (e : Effort) : Spells (past ++ unit) past.length (lazyParse maeriPack e (ground past unit) unit.length past.length) :=
    spells_lazyParse (g := ground past unit) hstop (Nat.le_add_right _ _) (Nat.le_refl _)
  unfold parseUnit
  dsimp only
  split
  · exact hlazy _
  · have hstart : (ground past unit).stop - unit.length = past.length := Nat.add_sub_cancel ..
    have h := spells_optimalParse (e := effort level) (n := unit.length) hstop (Nat.le_add_left _ _) (hstart.symm ▸ hlazy (effort 7))
      (effort level).passes
    rwa [hstart] at h

end Sys2Proof.Machine
end

section
/-! Bodies, headers and frames: what the encoder writes of tokens that spell a page is decoded to that page (05 R127-R139). -/

namespace Sys2Proof.Machine

/-! ### Codes of lengths and distances (R131, R132) -/

/-- The code chosen for a value begins at or below it, and the next one beyond it. -/
theorem codeFor_spec {f : Nat → Nat × Nat} {v : Nat} (hleast : (f 0).1 ≤ v) {k : Nat} (hk : 0 < k) :
    codeFor f k v < k ∧ (f (codeFor f k v)).1 ≤ v ∧ (codeFor f k v + 1 < k → v < (f (codeFor f k v + 1)).1) := by
  induction k with
  | zero => exact absurd hk (Nat.lt_irrefl 0)
  | succ k ih =>
    unfold codeFor
    split
    · rename_i h
      exact ⟨Nat.lt_succ_self k, h, fun hlt => absurd hlt (Nat.lt_irrefl _)⟩
    · rename_i h
      have hpos : 0 < k := Nat.pos_of_ne_zero fun hzero => h (hzero ▸ hleast)
      obtain ⟨hlt, hle, hnext⟩ := ih hpos
      refine ⟨Nat.lt_succ_of_lt hlt, hle, fun _ => ?_⟩
      by_cases hlast : codeFor f k v + 1 < k
      · exact hnext hlast
      · rw [show codeFor f k v + 1 = k by omega]
        exact Nat.not_le.1 h

/-- Where the ranges of the codes leave no gap, the extra bits of the code chosen hold the rest of the value. -/
theorem codeFor_extra {f : Nat → Nat × Nat} {k v : Nat} (hleast : (f 0).1 ≤ v)
    (hgaps : ∀ c < k, (f (c + 1)).1 ≤ (f c).1 + 2 ^ (f c).2) (hmost : v < (f k).1 + 2 ^ (f k).2) :
    codeFor f (k + 1) v < k + 1 ∧ (f (codeFor f (k + 1) v)).1 ≤ v ∧
      v - (f (codeFor f (k + 1) v)).1 < 2 ^ (f (codeFor f (k + 1) v)).2 := by
  obtain ⟨hlt, hle, hnext⟩ := codeFor_spec hleast (k := k + 1) (Nat.succ_pos k)
  refine ⟨hlt, hle, ?_⟩
  by_cases hlast : codeFor f (k + 1) v < k
  · have := hgaps _ hlast
    have := hnext (Nat.succ_lt_succ hlast)
    omega
  · rw [show codeFor f (k + 1) v = k by omega] at hle ⊢
    omega

theorem lenCode_for {len : Nat} (h : 4 ≤ len ∧ len ≤ 1027) :
    codeFor lenCode 32 len < 32 ∧ (lenCode (codeFor lenCode 32 len)).1 ≤ len ∧
      len - (lenCode (codeFor lenCode 32 len)).1 < 2 ^ (lenCode (codeFor lenCode 32 len)).2 :=
  codeFor_extra h.1 (by decide) (Nat.lt_of_le_of_lt h.2 (by decide))

theorem distCode_for {dist : Nat} (h : 1 ≤ dist ∧ dist ≤ 36864) :
    codeFor distCode 32 dist < 32 ∧ (distCode (codeFor distCode 32 dist)).1 ≤ dist ∧
      dist - (distCode (codeFor distCode 32 dist)).1 < 2 ^ (distCode (codeFor distCode 32 dist)).2 :=
  codeFor_extra h.1 (by decide) (Nat.lt_of_le_of_lt h.2 (by decide))

/-! ### The body (R136) -/

/-- The codewords the encoder uses for a parse are read as their symbols. -/
def CodesRead (codes : Codes) (lens : List Nat × List Nat) (tokens : List Token) : Prop :=
  (∀ s ∈ litSyms maeriPack tokens, Reads (decodeSym codes.lit) (nth [] (codewords lens.1) s) s) ∧
    ∀ s ∈ distSyms maeriPack tokens, Reads (decodeSym codes.dist) (nth [] (codewords lens.2) s) s

theorem Reads.ne_nil {t : CTree} {w : List Bool} {s : Nat} (h : Reads (decodeSym t) w s) : w ≠ [] := by
  rintro rfl
  exact absurd (h [] 0) (by simp [decodeSym, truncated])

/-- A match copied from the history, its own bytes among them. -/
theorem copyMatch_eq {bytes : List Byte} {dist : Nat} {len i : Nat} (hdist : 1 ≤ dist ∧ dist ≤ i) (hend : i + len ≤ bytes.length)
    (hrepeat : ∀ k < len, bytes[i - dist + k]? = bytes[i + k]?) :
    copyMatch len dist (bytes.take i).reverse = (bytes.take (i + len)).reverse := by
  induction len generalizing i with
  | zero => rfl
  | succ len ih =>
    have hi : i < bytes.length := by omega
    have hfirst : nth 0#8 (bytes.take i).reverse (dist - 1) = bytes[i] := by
      have hagree := hrepeat 0 (Nat.succ_pos len)
      rw [Nat.add_zero, Nat.add_zero, List.getElem?_eq_getElem hi, List.getElem?_eq_getElem (by omega)] at hagree
      have hpos : dist - 1 < (bytes.take i).reverse.length := by simp; omega
      rw [nth, List.getD_eq_getElem _ _ hpos, List.getElem_reverse, List.getElem_take, ← Option.some.inj hagree]
      congr 1
      simp
      omega
    have hnext : bytes[i] :: (bytes.take i).reverse = (bytes.take (i + 1)).reverse := by
      rw [← List.take_append_getElem hi, List.reverse_append]
      rfl
    rw [copyMatch, hfirst, hnext, ih (i := i + 1) (by omega) (by omega) fun k hk => ?_]
    · congr 2
      omega
    · have hagree := hrepeat (k + 1) (Nat.succ_lt_succ hk)
      rwa [show i - dist + (k + 1) = i + 1 - dist + k by omega, show i + (k + 1) = i + 1 + k by omega] at hagree

/-- A pair after its length codeword. -/
theorem readPair_reads {codes : Codes} {len dist start n hist orig : Nat} {wd : List Bool} (hlen : 4 ≤ len ∧ len ≤ 1027)
    (hdist : 1 ≤ dist ∧ dist ≤ 36864) (hback : dist ≤ hist + n) (hend : n + len ≤ orig)
    (hword : Reads (decodeSym codes.dist) wd (codeFor distCode 32 dist)) :
    Reads (readPair maeriAlphabet codes (codeFor lenCode 32 len) start n hist (some orig))
      (fieldBits (lenCode (codeFor lenCode 32 len)).2 (len - (lenCode (codeFor lenCode 32 len)).1) ++
        (wd ++ fieldBits (distCode (codeFor distCode 32 dist)).2 (dist - (distCode (codeFor distCode 32 dist)).1)))
      (len, dist) := by
  intro more p
  obtain ⟨_, hlenBase, hlenExtra⟩ := lenCode_for hlen
  obtain ⟨hdistCode, hdistBase, hdistExtra⟩ := distCode_for hdist
  unfold readPair
  simp only [maeriAlphabet, List.append_assoc, readBits_field hlenExtra _ p, hword _ _, readBits_field hdistExtra more _,
    Nat.add_sub_cancel' hlenBase, Nat.add_sub_cancel' hdistBase, passes]
  rw [if_neg (by omega), if_neg (by omega), if_neg (by simpa using hend)]
  simp only [List.length_append, Nat.add_assoc]

section
variable {codes : Codes} {lens : List Nat × List Nat} {bytes : List Byte} {past : Nat}

/-- One symbol of a body at its position: the flow it makes, and what it leaves of the input. -/
theorem readBody_token {t : Token} {i fuel : Nat} {syms : List (Nat × Nat)} (hfits : t.Fits bytes i) (hpast : past ≤ i)
    (hlit : Reads (decodeSym codes.lit) (nth [] (codewords lens.1) (t.litSym maeriPack)) (t.litSym maeriPack))
    (hdist : ∀ s ∈ t.distSym maeriPack, Reads (decodeSym codes.dist) (nth [] (codewords lens.2) s) s) (more : List Bool) (p : Nat) :
    readBody maeriAlphabet codes past (some (bytes.length - past)) (fuel + 1) ⟨i - past, (bytes.take i).reverse, syms⟩
        ⟨tokenBits maeriPack (codewords lens.1) (codewords lens.2) t ++ more, p⟩ =
      readBody maeriAlphabet codes past (some (bytes.length - past)) fuel
        ⟨i + t.span - past, (bytes.take (i + t.span)).reverse, (p, t.span) :: syms⟩
        ⟨more, p + (tokenBits maeriPack (codewords lens.1) (codewords lens.2) t).length⟩ := by
  have hend := hfits.within
  cases t with
  | lit b =>
    obtain ⟨hi, hb⟩ := List.getElem?_eq_some_iff.1 hfits
    have hnext : b :: (bytes.take i).reverse = (bytes.take (i + 1)).reverse := by
      rw [← List.take_append_getElem hi, List.reverse_append, hb]
      rfl
    have hin : passes (some (bytes.length - past)) (i - past + 1) = false := by
      simp only [passes, decide_eq_false_iff_not]
      omega
    rw [readBody]
    simp only [tokenBits, Token.litSym, Token.span] at hlit ⊢
    simp only [hlit more p, b.isLt, if_true, hin, Bool.false_eq_true, if_false, BitVec.ofNat_toNat, BitVec.setWidth_eq, hnext]
    rw [show i - past + 1 = i + 1 - past by omega]
  | pair len dist =>
    obtain ⟨hlen, hfar, hback, hin, hrepeat⟩ := hfits
    have hpair := readPair_reads (codes := codes) (start := p) (n := i - past) (hist := past) hlen hfar
      (show dist ≤ past + (i - past) by omega) (show i - past + len ≤ bytes.length - past by omega)
      (hdist _ rfl)
    rw [readBody]
    simp only [Token.litSym, Token.span, tokenBits, maeriPack] at hlit ⊢
    simp only [List.append_assoc, hlit _ p]
    have hcode := (lenCode_for hlen).1
    rw [if_neg (by omega), if_neg (by omega), if_neg (by simp only [maeriAlphabet]; omega), Nat.add_sub_cancel_left]
    have hread := hpair more (p + (nth [] (codewords lens.1) (257 + codeFor lenCode 32 len)).length)
    simp only [List.append_assoc] at hread
    rw [hread]
    simp only [copyMatch_eq ⟨hfar.1, hback⟩ hin hrepeat, List.length_append, Nat.add_assoc]
    rw [show i - past + len = i + len - past by omega]

/-- A whole body gives the bytes that its tokens spell. -/
theorem readBody_tokens {tokens : List Token} {i fuel : Nat} {syms : List (Nat × Nat)} (hspell : Spells bytes i tokens)
    (hpast : past ≤ i) (hcodes : CodesRead codes lens tokens) (hfuel : tokens.length < fuel) (more : List Bool) (p : Nat) :
    ∃ f : Flow, f.n = bytes.length - past ∧ f.hist = bytes.reverse ∧
      readBody maeriAlphabet codes past (some (bytes.length - past)) fuel ⟨i - past, (bytes.take i).reverse, syms⟩
          ⟨bodyBits maeriPack lens tokens ++ more, p⟩ =
        (f, .ok () ⟨more, p + (bodyBits maeriPack lens tokens).length⟩) := by
  obtain ⟨hlit, hdist⟩ := hcodes
  obtain ⟨fuel, rfl⟩ := Nat.exists_eq_add_of_lt (Nat.lt_of_le_of_lt (Nat.zero_le _) hfuel)
  rw [Nat.zero_add] at hfuel ⊢
  induction tokens generalizing i fuel syms p with
  | nil =>
    obtain rfl : i = bytes.length := hspell
    have hend : Reads (decodeSym codes.lit) (nth [] (codewords lens.1) 256) 256 := hlit 256 (by simp [litSyms])
    refine ⟨⟨bytes.length - past, (bytes.take bytes.length).reverse, syms⟩, rfl, by rw [List.take_length], ?_⟩
    rw [readBody]
    simp only [bodyBits, List.flatMap_nil, List.nil_append, hend more p]
    simp
  | cons t ts ih =>
    obtain ⟨hfits, hrest⟩ := hspell
    rw [List.length_cons] at hfuel
    obtain ⟨fuel, rfl⟩ := Nat.exists_eq_add_of_lt (show 0 < fuel by omega)
    rw [Nat.zero_add] at hfuel ⊢
    have hbits : bodyBits maeriPack lens (t :: ts) =
        tokenBits maeriPack (codewords lens.1) (codewords lens.2) t ++ bodyBits maeriPack lens ts := by
      simp only [bodyBits, List.flatMap_cons, List.append_assoc]
    have hsyms : distSyms maeriPack (t :: ts) = (t.distSym maeriPack).toList ++ distSyms maeriPack ts := by
      unfold distSyms
      rw [List.filterMap_cons]
      cases t.distSym maeriPack <;> rfl
    rw [hsyms] at hdist
    obtain ⟨f, hn, hhist, hread⟩ := ih (i := i + t.span) (syms := (p, t.span) :: syms) hrest (by omega)
      (p + (tokenBits maeriPack (codewords lens.1) (codewords lens.2) t).length)
      (fun s hs => hlit s (List.mem_cons_of_mem _ hs)) (fun s hs => hdist s (List.mem_append_right _ hs)) fuel (by omega)
    refine ⟨f, hn, hhist, ?_⟩
    rw [hbits, List.append_assoc, readBody_token hfits hpast (hlit _ List.mem_cons_self)
      (fun s hs => hdist s (List.mem_append_left _ (Option.mem_toList.2 hs))), hread, List.length_append, Nat.add_assoc]

end

/-- Each token takes a bit of the body at least. -/
theorem length_le_bodyBits {codes : Codes} {lens : List Nat × List Nat} {tokens : List Token} (h : CodesRead codes lens tokens) :
    tokens.length ≤ (bodyBits maeriPack lens tokens).length := by
  have hone : ∀ t ∈ tokens, 1 ≤ (tokenBits maeriPack (codewords lens.1) (codewords lens.2) t).length := by
    intro t ht
    have hword := (h.1 _ (List.mem_append_left _ (List.mem_map_of_mem ht))).ne_nil
    have hpos := List.length_pos_of_ne_nil hword
    cases t with
    | lit b => exact hpos
    | pair len dist =>
      simp only [tokenBits, List.length_append]
      simp only [Token.litSym] at hpos
      omega
  rw [bodyBits, List.length_append, List.length_flatMap]
  have hsum := List.card_nsmul_le_sum (tokens.map fun t => (tokenBits maeriPack (codewords lens.1) (codewords lens.2) t).length) 1
    fun x hx => by
      obtain ⟨t, ht, rfl⟩ := List.mem_map.1 hx
      exact hone t ht
  rw [List.length_map, smul_eq_mul, Nat.mul_one] at hsum
  exact hsum.trans (Nat.le_add_right _ _)

/-! ### Bits as bytes (R128) -/

theorem frameBits_cons (b : Byte) (bs : List Byte) : frameBits (b :: bs) = fieldBits 8 b.toNat ++ frameBits bs := rfl

/-- Eight bits put together are the bits of the byte. -/
theorem bits_of_byte (b : Nat → Bool) : ((below 8).map fun i =>
    (BitVec.ofNat 8 ((below 8).foldl (fun a j => if b j then a + 2 ^ j else a) 0)).getLsbD i) = (below 8).map b := by
  have hall : ∀ b0 b1 b2 b3 b4 b5 b6 b7 : Bool,
      ((below 8).map fun i => (BitVec.ofNat 8 ((below 8).foldl
        (fun a j => if [b0, b1, b2, b3, b4, b5, b6, b7].getD j false then a + 2 ^ j else a) 0)).getLsbD i) =
      [b0, b1, b2, b3, b4, b5, b6, b7] := by decide
  exact hall (b 0) (b 1) (b 2) (b 3) (b 4) (b 5) (b 6) (b 7)

theorem below_map_nth (bits : List Bool) {n : Nat} (h : bits.length ≤ n) :
    (below n).map (nth false bits) = bits ++ List.replicate (n - bits.length) false := by
  refine List.ext_getElem (by simp [below]; omega) fun i hi _ => ?_
  simp only [below, List.getElem_map, List.getElem_range, nth, List.getElem_append]
  split
  · rename_i hlt
    exact List.getD_eq_getElem _ _ hlt
  · rename_i hge
    rw [List.getElem_replicate, List.getD_eq_default _ _ (Nat.not_lt.1 hge)]

/-- Bytes made of bits give back the bits, filled up with zeros. -/
theorem frameBits_bitBytes (bits : List Bool) :
    frameBits (bitBytes bits) = bits ++ List.replicate (8 * ((bits.length + 7) / 8) - bits.length) false := by
  rw [← below_map_nth bits (by omega), frameBits, bitBytes, List.flatMap_map]
  simp only [bits_of_byte fun j => nth false bits (8 * _ + j)]
  generalize (bits.length + 7) / 8 = n
  induction n with
  | zero => rfl
  | succ n ih =>
    have hnext : below (n + 1) = below n ++ [n] := List.range_succ
    have height : below (8 * (n + 1)) = below (8 * n) ++ (below 8).map (8 * n + ·) := List.range_add
    rw [hnext, height, List.flatMap_append, ih, List.flatMap_singleton, List.map_append, List.map_map]
    rfl

/-- Padding of zeros up to a byte boundary is taken. -/
theorem readPadding_zeros {k m p : Nat} (hm : m < 8) (hk : m ≤ k) (hp : (p + m) % 8 = 0) :
    readPadding k ⟨List.replicate m false, p⟩ = .ok () ⟨[], p + m⟩ := by
  induction m generalizing k p with
  | zero =>
    cases k with
    | zero => rfl
    | succ k =>
      rw [readPadding]
      exact if_pos hp
  | succ m ih =>
    obtain ⟨k, rfl⟩ := Nat.exists_eq_add_of_le' (Nat.le_trans (Nat.succ_le_succ (Nat.zero_le m)) hk)
    rw [readPadding, if_neg (by dsimp only; omega)]
    simp only [List.replicate_succ, Bool.false_eq_true, if_false]
    rw [ih (by omega) (by omega) (by omega), Nat.add_assoc, Nat.add_comm 1 m]

end Sys2Proof.Machine
end

section
/-! Packed and stored images decode to what they were made of (05 R129, R130, R136-R138, R142). -/

namespace Sys2Proof.Machine

/-! ### The header (R129, R130) -/

/-- The fields a header may hold (R130). -/
def Header.Lawful (h : Header) : Prop :=
  h.level ≤ 9 ∧ h.mode < 3 ∧ (h.level = 0 ↔ h.mode = 0) ∧ (h.mode = 2 → 4 ≤ h.level) ∧
    (h.mode ≠ 2 → h.dict = 0 ∧ h.tables = false) ∧ h.dict < 1024 ∧ 1 ≤ h.orig ∧ h.orig ≤ 4096

theorem length_headerBytes (h : Header) : (headerBytes h).length = 8 := rfl

theorem leNat_append (a b : List Byte) : leNat (a ++ b) = leNat a + 2 ^ (8 * a.length) * leNat b := by
  induction a with
  | nil => simp [leNat]
  | cons x xs ih =>
    rw [List.cons_append, leNat, leNat, ih, List.length_cons, Nat.mul_succ, Nat.pow_add]
    ring

/-- The header is read back from its bytes. -/
theorem parseHeader_headerBytes {h : Header} (hlaw : h.Lawful) (rest : List Byte) :
    parseHeader (headerBytes h ++ rest) = some h := by
  obtain ⟨level, mode, dict, orig, tables⟩ := h
  obtain ⟨hlevel, hmode, hzero, hleast, hplain, hdict, hone, horig⟩ := hlaw
  dsimp only at hlevel hmode hzero hleast hplain hdict hone horig
  have htab : bNat tables ≤ 1 := by cases tables <;> decide
  have hbytes := leNat_leBytes (n := 7)
    (v := 1 + level * 16 + mode * 2 ^ 8 + dict * 2 ^ 10 + orig * 2 ^ 20 + bNat tables * 2 ^ 33) (by omega)
  have hlen := length_leBytes 7 (1 + level * 16 + mode * 2 ^ 8 + dict * 2 ^ 10 + orig * 2 ^ 20 + bNat tables * 2 ^ 33)
  have hhead : headerBytes ⟨level, mode, dict, orig, tables⟩ =
      leBytes 7 (1 + level * 16 + mode * 2 ^ 8 + dict * 2 ^ 10 + orig * 2 ^ 20 + bNat tables * 2 ^ 33) ++
        [headerCheck (leBytes 7 (1 + level * 16 + mode * 2 ^ 8 + dict * 2 ^ 10 + orig * 2 ^ 20 + bNat tables * 2 ^ 33))] := rfl
  rw [hhead]
  generalize leBytes 7 _ = b at hbytes hlen ⊢
  have htake : ((b ++ [headerCheck b]) ++ rest).take 8 = b ++ [headerCheck b] := List.take_left' (by simp [hlen])
  have hcheck : headerCheck ((b ++ [headerCheck b]) ++ rest) = headerCheck b := by
    unfold headerCheck
    rw [List.append_assoc, List.take_left' hlen, List.take_of_length_le hlen.le]
  have hvalue : leNat (b ++ [headerCheck b]) =
      1 + level * 16 + mode * 2 ^ 8 + dict * 2 ^ 10 + orig * 2 ^ 20 + bNat tables * 2 ^ 33 + 2 ^ 56 * (headerCheck b).toNat := by
    rw [leNat_append, hbytes, hlen, leNat, leNat, Nat.mul_zero, Nat.add_zero]
  have hbyte := (headerCheck b).isLt
  unfold parseHeader
  rw [htake, hcheck, hvalue]
  generalize hv : 1 + level * 16 + mode * 2 ^ 8 + dict * 2 ^ 10 + orig * 2 ^ 20 + bNat tables * 2 ^ 33 +
    2 ^ 56 * (headerCheck b).toNat = v
  have hform : bitsOf v 0 4 = 1 := by unfold bitsOf; omega
  have hl : bitsOf v 4 4 = level := by unfold bitsOf; omega
  have hm : bitsOf v 8 2 = mode := by unfold bitsOf; omega
  have hd : bitsOf v 10 10 = dict := by unfold bitsOf; omega
  have ho : bitsOf v 20 13 = orig := by unfold bitsOf; omega
  have hr : bitsOf v 34 22 = 0 := by unfold bitsOf; omega
  have hc : BitVec.ofNat 8 (bitsOf v 56 8) = headerCheck b := by
    rw [show bitsOf v 56 8 = (headerCheck b).toNat by unfold bitsOf; omega, BitVec.ofNat_toNat, BitVec.setWidth_eq]
  have ht : bitOf v 33 = tables := by
    rw [bitOf, Nat.testBit_eq_decide_div_mod_eq, show v / 2 ^ 33 % 2 = bNat tables by omega]
    cases tables <;> rfl
  simp only [hform, hl, hm, hd, ho, hr, hc, ht]
  rw [if_pos ⟨trivial, hlevel, by omega, hzero, hleast, hplain, hone, horig, trivial, trivial⟩]

/-! ### Frames -/

/-- The body of a good frame is decoded from behind its header. -/
theorem flowFrame_headerBytes {good : Header → Bool} {dictOf : Nat → Option DictBody} {h : Header} {dict : Option DictBody}
    {body : List Byte} {e : Flow × Dec Unit} (hlaw : h.Lawful) (hgood : good h = true)
    (hdict : h.mode ≠ 2 ∧ dict = none ∨ h.mode = 2 ∧ dict.isSome ∧ dictOf h.dict = dict)
    (hbody : decodeBody h dict ⟨frameBits body, 64⟩ = e) : flowFrame good dictOf 0 (headerBytes h ++ body) = e := by
  have hlen : ¬ (headerBytes h ++ body).length < 8 := by
    rw [List.length_append, length_headerBytes]
    omega
  unfold flowFrame
  rw [if_neg hlen, parseHeader_headerBytes hlaw]
  simp only [hgood, Bool.true_eq_false, if_false, List.drop_left' (length_headerBytes h), Nat.mul_zero, Nat.zero_add]
  rcases hdict with ⟨hmode, rfl⟩ | ⟨hmode, hsome, hlook⟩
  · rw [if_neg (by simp [hmode]), if_neg hmode]
    exact hbody
  · rw [hlook, if_neg (by simp [Option.isSome_iff_ne_none.1 hsome]), if_pos hmode]
    exact hbody

theorem decodeFrame_of_flowFrame {good : Header → Bool} {dictOf : Nat → Option DictBody} {bs : List Byte} {f : Flow} {r : Reader}
    (h : flowFrame good dictOf 0 bs = (f, .ok () r)) : decodeFrame good dictOf bs = .good f.out r := by
  unfold decodeFrame
  rw [h]

/-- What a decoded image of a source says. -/
def DecodesTo (dict : Option (Nat × DictBody)) (src image : List Byte) : Prop :=
  ∃ r, decodeFrame (fun h => h.orig == src.length) (fun x => dict.bind fun d => if x = d.1 then some d.2 else none) image =
    .good src r ∧ r.bits = []

/-! ### Stored frames (R138) -/

theorem readStored_frameBits {src : List Byte} (f : Flow) (p : Nat) :
    ∃ g : Flow, g.n = f.n + src.length ∧ g.hist = src.reverse ++ f.hist ∧
      readStored src.length f ⟨frameBits src, p⟩ = (g, .ok () ⟨[], p + 8 * src.length⟩) := by
  induction src generalizing f p with
  | nil => exact ⟨f, rfl, rfl, rfl⟩
  | cons b bs ih =>
    obtain ⟨g, hn, hhist, hread⟩ := ih ⟨f.n + 1, b :: f.hist, (p, 1) :: f.syms⟩ (p + 8)
    refine ⟨g, by rw [hn, List.length_cons]; dsimp only; omega, by rw [hhist, List.reverse_cons, List.append_assoc]; rfl, ?_⟩
    have hbyte := readBits_field b.isLt (frameBits bs) p
    rw [frameBits_cons, List.length_cons, readStored]
    simp only [hbyte, length_fieldBits, BitVec.ofNat_toNat, BitVec.setWidth_eq, hread]
    rw [show p + 8 + 8 * bs.length = p + 8 * (bs.length + 1) by omega]

theorem decodesTo_stored (dict : Option (Nat × DictBody)) {src : List Byte} (hone : 1 ≤ src.length) (hmost : src.length ≤ 4096) :
    DecodesTo dict src (headerBytes ⟨0, 0, 0, src.length, false⟩ ++ src) := by
  obtain ⟨f, hn, hhist, hread⟩ := readStored_frameBits (src := src) {} 64
  have hout : f.out = src := by
    rw [Flow.out, hn, hhist]
    simp [List.take_of_length_le]
  have hlaw : Header.Lawful ⟨0, 0, 0, src.length, false⟩ := by simp [Header.Lawful, hone, hmost]
  have hframe := decodeFrame_of_flowFrame (flowFrame_headerBytes (good := fun h => h.orig == src.length)
    (dictOf := fun x => dict.bind fun d => if x = d.1 then some d.2 else none) (dict := none) hlaw (beq_self_eq_true _)
    (.inl ⟨Nat.zero_ne_add_one 1, rfl⟩) hread)
  exact ⟨_, by rw [hframe, hout], rfl⟩

/-! ### Packed frames (R136, R142) -/

theorem decodeBody_eq {h : Header} {dict : Option DictBody} {past : List Byte} {codes : Codes} {r r1 r2 : Reader} {f : Flow}
    (hmode : h.mode ≠ 0) (hpast : past = (dict.map (·.content)).getD []) (hcodes : bodyCodes h dict r = .ok codes r1)
    (hread : readBody maeriAlphabet codes past.length (some h.orig) (r.bits.length + 1) ⟨0, past.reverse, []⟩ r1 = (f, .ok () r2)) :
    decodeBody h dict r = (f, readPadding 8 r2) := by
  unfold decodeBody
  rw [if_neg hmode, hcodes]
  cases dict <;>
  · subst hpast
    dsimp only [Option.map_none, Option.map_some, Option.getD_none, Option.getD_some] at hread ⊢
    rw [hread]

/-- A body after the codes it is read with, up to the end of its last byte. -/
theorem decodeBody_packed {h : Header} {dict : Option DictBody} {past src : List Byte} {codes : Codes} {tb : List Bool}
    {lens : List Nat × List Nat} {tokens : List Token} (hmode : h.mode ≠ 0) (horig : h.orig = src.length)
    (hpast : past = (dict.map (·.content)).getD []) (hspell : Spells (past ++ src) past.length tokens)
    (htables : Reads (bodyCodes h dict) tb codes) (hcodes : CodesRead codes lens tokens) :
    ∃ f r, decodeBody h dict ⟨frameBits (bitBytes (tb ++ bodyBits maeriPack lens tokens)), 64⟩ = (f, .ok () r) ∧
      f.out = src ∧ r.bits = [] := by
  have hlen := length_le_bodyBits hcodes
  have hpad := readPadding_zeros (k := 8) (p := 64 + tb.length + (bodyBits maeriPack lens tokens).length)
    (m := 8 * (((tb ++ bodyBits maeriPack lens tokens).length + 7) / 8) - (tb ++ bodyBits maeriPack lens tokens).length)
    (by omega) (by omega) (by rw [List.length_append]; omega)
  rw [frameBits_bitBytes, List.append_assoc]
  generalize 8 * (((tb ++ bodyBits maeriPack lens tokens).length + 7) / 8) - (tb ++ bodyBits maeriPack lens tokens).length = m
    at hpad ⊢
  obtain ⟨f, hn, hhist, hread⟩ := readBody_tokens (syms := [])
    (fuel := (tb ++ (bodyBits maeriPack lens tokens ++ List.replicate m false)).length + 1) hspell (Nat.le_refl _) hcodes
    (by simp only [List.length_append]; omega) (List.replicate m false) (64 + tb.length)
  rw [Nat.sub_self, List.take_left, List.length_append (as := past), Nat.add_sub_cancel_left, ← horig] at hread
  rw [List.length_append, Nat.add_sub_cancel_left] at hn
  have hout : f.out = src := by
    rw [Flow.out, hn, hhist, List.reverse_append, List.take_left' (List.length_reverse ..), List.reverse_reverse]
  exact ⟨f, ⟨[], _⟩, (decodeBody_eq hmode hpast (htables _ 64) hread).trans (congrArg _ hpad), hout, rfl⟩

/-! ### The codes of a page (R134, R135, R142) -/

/-- What serves the symbols that occur. -/
theorem codeServes_spec {mayBeEmpty : Bool} {counts lens : List Nat} (h : codeServes mayBeEmpty counts lens = true) :
    lengthsValid 12 mayBeEmpty lens = true ∧ (∀ x ∈ lens, x ≤ 12) ∧
      ∀ s < counts.length, s < lens.length → nth 0 counts s ≠ 0 → nth 0 lens s ≠ 0 := by
  simp only [codeServes, Bool.and_eq_true, List.all_eq_true, decide_eq_true_eq] at h
  obtain ⟨⟨hvalid, hmax⟩, hused⟩ := h
  refine ⟨hvalid, hmax, fun s hs hs' hcount => ?_⟩
  have hmem : (nth 0 counts s, nth 0 lens s) ∈ counts.zip lens := by
    refine List.mem_iff_getElem.2 ⟨s, by rw [List.length_zip]; omega, ?_⟩
    rw [List.getElem_zip, nth_eq_getElem hs, nth_eq_getElem hs']
  simpa [hcount] using hused _ hmem

/-- A symbol that has a codeword is read with the code of the lengths sent. -/
theorem decodeSym_sent {mayBeEmpty : Bool} {lens sent : List Nat} {m s : Nat} (hsent : lens = sent ++ List.replicate m 0)
    (hvalid : lengthsValid 12 mayBeEmpty lens = true) (hmax : ∀ x ∈ lens, x ≤ 12) (hlen : nth 0 lens s ≠ 0) :
    Reads (decodeSym (canonical 12 sent)) (nth [] (codewords lens) s) s := by
  subst hsent
  rw [lengthsValid_append_zeros] at hvalid
  have hs : s < sent.length := by
    rw [nth_append_zeros] at hlen
    by_contra hge
    exact hlen (List.getD_eq_default _ _ (Nat.not_lt.1 hge))
  have hs' : s < (sent ++ List.replicate m 0).length := by rw [List.length_append]; omega
  have hle : nth 0 (sent ++ List.replicate m 0) s ≤ 15 := by
    rw [nth_eq_getElem hs']
    exact (hmax _ (List.getElem_mem _)).trans (by decide)
  rw [nth_codewords hs' hlen hle, codeword_append_zeros sent m hs]
  exact decodeSym_codeword hvalid (fun x hx => hmax x (List.mem_append_left _ hx)) hs (by rwa [nth_append_zeros] at hlen)

theorem length_symCounts (n : Nat) (l : List Nat) : (symCounts n l).length = n := by simp [symCounts, below]

theorem nth_symCounts {n s : Nat} {l : List Nat} (hs : s < n) (hmem : s ∈ l) : nth 0 (symCounts n l) s ≠ 0 := by
  have hcount : nth 0 (symCounts n l) s = l.count s := by simp [nth, symCounts, below, hs]
  rw [hcount]
  exact Nat.pos_iff_ne_zero.1 (List.count_pos_iff.2 hmem)

theorem length_limitedLengths (most : Nat) (counts : List Nat) : (limitedLengths most counts).length = counts.length := by
  simp [limitedLengths, below]

/-- The symbols of a parse lie within the alphabets of Maeri. -/
theorem syms_lt {bytes : List Byte} {i : Nat} {tokens : List Token} (h : Spells bytes i tokens) :
    (∀ s ∈ litSyms maeriPack tokens, s < 289) ∧ ∀ s ∈ distSyms maeriPack tokens, s < 32 := by
  induction tokens generalizing i with
  | nil => exact ⟨by decide, by decide⟩
  | cons t ts ih =>
    obtain ⟨hfits, hrest⟩ := h
    obtain ⟨hlits, hdists⟩ := ih hrest
    cases t with
    | lit b =>
      refine ⟨fun s hs => ?_, hdists⟩
      rcases List.mem_cons.1 hs with rfl | hs
      · exact b.isLt.trans (by decide)
      · exact hlits s hs
    | pair len dist =>
      obtain ⟨hlen, hdist, _⟩ := hfits
      refine ⟨fun s hs => ?_, fun s hs => ?_⟩
      · rcases List.mem_cons.1 hs with rfl | hs
        · exact Nat.add_lt_add_left (lenCode_for hlen).1 257
        · exact hlits s hs
      · rcases List.mem_cons.1 hs with rfl | hs
        · exact (distCode_for hdist).1
        · exact hdists s hs

section
variable {bytes : List Byte} {i : Nat} {tokens : List Token}

/-- The lengths sent of a page's own codes, and what they read. -/
theorem ownCodes_read (hspell : Spells bytes i tokens)
    (hlit : codeServes false (symCounts 289 (litSyms maeriPack tokens)) (ownLengths maeriPack tokens).1 = true)
    (hdist : codeServes true (symCounts 32 (distSyms maeriPack tokens)) (ownLengths maeriPack tokens).2 = true) :
    Reads readTables (maeriTables (sentLengths 258 (ownLengths maeriPack tokens).1) (sentLengths 1 (ownLengths maeriPack tokens).2))
        ⟨canonical 12 (sentLengths 258 (ownLengths maeriPack tokens).1), canonical 12 (sentLengths 1 (ownLengths maeriPack tokens).2)⟩ ∧
      CodesRead ⟨canonical 12 (sentLengths 258 (ownLengths maeriPack tokens).1),
        canonical 12 (sentLengths 1 (ownLengths maeriPack tokens).2)⟩ (ownLengths maeriPack tokens) tokens := by
  obtain ⟨hlitSyms, hdistSyms⟩ := syms_lt hspell
  have hlitLen : (ownLengths maeriPack tokens).1.length = 289 := (length_limitedLengths ..).trans (length_symCounts ..)
  have hdistLen : (ownLengths maeriPack tokens).2.length = 32 := (length_limitedLengths ..).trans (length_symCounts ..)
  generalize ownLengths maeriPack tokens = own at hlit hdist hlitLen hdistLen ⊢
  obtain ⟨hlitValid, hlitMax, hlitUsed⟩ := codeServes_spec hlit
  obtain ⟨hdistValid, hdistMax, hdistUsed⟩ := codeServes_spec hdist
  rw [length_symCounts, hlitLen] at hlitUsed
  rw [length_symCounts, hdistLen] at hdistUsed
  obtain ⟨ml, hml⟩ := sentLengths_append_zeros 258 own.1
  obtain ⟨md, hmd⟩ := sentLengths_append_zeros 1 own.2
  obtain ⟨hl1, hl2⟩ := length_sentLengths (least := 258) (lens := own.1) (by omega)
  obtain ⟨hd1, hd2⟩ := length_sentLengths (least := 1) (lens := own.2) (by omega)
  have hend : nth 0 own.1 256 ≠ 0 := hlitUsed 256 (by decide) (by decide) (nth_symCounts (by decide) (by simp [litSyms]))
  refine ⟨fun more p => ?_, fun s hs => ?_, fun s hs => ?_⟩
  · have hserve : tablesServe (sentLengths 258 own.1) (sentLengths 1 own.2) := by
      refine ⟨?_, ?_, ?_⟩
      · rwa [hml, lengthsValid_append_zeros] at hlitValid
      · rwa [hml, nth_append_zeros] at hend
      · rwa [hmd, lengthsValid_append_zeros] at hdistValid
    have hread := readTableLengths_maeriTables ⟨hl1, by omega⟩ ⟨hd1, by omega⟩ (fun l hl => by
      rcases List.mem_append.1 hl with h | h
      · exact hlitMax l (hml ▸ List.mem_append_left _ h)
      · exact hdistMax l (hmd ▸ List.mem_append_left _ h)) hserve more p
    rw [readTables, hread]
    rfl
  · exact decodeSym_sent hml hlitValid hlitMax (hlitUsed s (hlitSyms s hs) (hlitSyms s hs) (nth_symCounts (hlitSyms s hs) hs))
  · exact decodeSym_sent hmd hdistValid hdistMax
      (hdistUsed s (hdistSyms s hs) (hdistSyms s hs) (nth_symCounts (hdistSyms s hs) hs))

/-- The default codes of a dictionary read every symbol. -/
theorem defaultCodes_read (hspell : Spells bytes i tokens) {lens : List Nat} (hlen : lens.length = 321)
    (hlit : codeServes false (List.replicate 289 1) (lens.take 289) = true)
    (hdist : codeServes false (List.replicate 32 1) (lens.drop 289) = true) :
    CodesRead ⟨canonical 12 (lens.take 289), canonical 12 (lens.drop 289)⟩ (lens.take 289, lens.drop 289) tokens := by
  obtain ⟨hlitSyms, hdistSyms⟩ := syms_lt hspell
  obtain ⟨hlitValid, hlitMax, hlitUsed⟩ := codeServes_spec hlit
  obtain ⟨hdistValid, hdistMax, hdistUsed⟩ := codeServes_spec hdist
  have hone {n s : Nat} (hs : s < n) : nth 0 (List.replicate n 1) s ≠ 0 := by simp [nth, hs]
  refine ⟨fun s hs => ?_, fun s hs => ?_⟩
  · exact decodeSym_sent (m := 0) (List.append_nil _).symm hlitValid hlitMax
      (hlitUsed s (by rw [List.length_replicate]; exact hlitSyms s hs)
        (by have := hlitSyms s hs; rw [List.length_take]; omega) (hone (hlitSyms s hs)))
  · exact decodeSym_sent (m := 0) (List.append_nil _).symm hdistValid hdistMax
      (hdistUsed s (by rw [List.length_replicate]; exact hdistSyms s hs)
        (by have := hdistSyms s hs; rw [List.length_drop]; omega) (hone (hdistSyms s hs)))

end

/-! ### Images (R127, R137, R142) -/

theorem decodesTo_packed {h : Header} {dict : Option (Nat × DictBody)} {body : Option DictBody} {past src : List Byte}
    {codes : Codes} {tb : List Bool} {lens : List Nat × List Nat} {tokens : List Token} (hlaw : h.Lawful) (hmode : h.mode ≠ 0)
    (horig : h.orig = src.length)
    (hdict : h.mode ≠ 2 ∧ body = none ∨ h.mode = 2 ∧ body.isSome ∧ (dict.bind fun d => if h.dict = d.1 then some d.2 else none) = body)
    (hpast : past = (body.map (·.content)).getD []) (hspell : Spells (past ++ src) past.length tokens)
    (htables : Reads (bodyCodes h body) tb codes) (hcodes : CodesRead codes lens tokens) :
    DecodesTo dict src (headerBytes h ++ bitBytes (tb ++ bodyBits maeriPack lens tokens)) := by
  obtain ⟨f, r, hbody, hout, hend⟩ := decodeBody_packed hmode horig hpast hspell htables hcodes
  have hframe := decodeFrame_of_flowFrame (flowFrame_headerBytes (good := fun h => h.orig == src.length)
    (dictOf := fun x => dict.bind fun d => if x = d.1 then some d.2 else none) hlaw (beq_iff_eq.2 horig) hdict hbody)
  exact ⟨r, by rw [hframe, hout], hend⟩

section
variable {level : Nat} {src : List Byte} (hlevel : 1 ≤ level) (hone : 1 ≤ src.length) (hmost : src.length ≤ 4096)
include hlevel hone hmost

theorem decodesTo_maeriImage_plain {defaults : Bool} (hpacks : packs level none src = true) :
    DecodesTo none src (maeriImage level none defaults src) := by
  simp only [packs, Option.map_none, Option.getD_none, Bool.and_eq_true, decide_eq_true_eq, and_true] at hpacks
  obtain ⟨⟨htop, hlit⟩, hdist⟩ := hpacks
  have hspell := spells_parseUnit level [] src
  obtain ⟨htables, hcodes⟩ := ownCodes_read hspell hlit hdist
  have hlaw : Header.Lawful ⟨level, 1, 0, src.length, false⟩ := by
    simp [Header.Lawful, htop, hone, hmost, Nat.ne_of_gt hlevel]
  unfold maeriImage
  dsimp only
  exact decodesTo_packed (body := none) hlaw Nat.one_ne_zero rfl (.inl ⟨show (1 : Nat) ≠ 2 by decide, rfl⟩) rfl hspell htables hcodes

theorem decodesTo_maeriImage_dict {d : Nat × DictBody} {defaults : Bool} (hpacks : packs level (some d) src = true) :
    DecodesTo (some d) src (maeriImage level (some d) defaults src) := by
  simp only [packs, Option.map_some, Option.getD_some, Bool.and_eq_true, decide_eq_true_eq] at hpacks
  obtain ⟨⟨⟨htop, hlit⟩, hdist⟩, ⟨⟨hleast, hnumber, hlens⟩, hlit'⟩, hdist'⟩ := hpacks
  have hspell := spells_parseUnit level d.2.content src
  obtain ⟨htables, hcodes⟩ := ownCodes_read hspell hlit hdist
  have hlaw (tables : Bool) : Header.Lawful ⟨level, 2, d.1, src.length, tables⟩ := by
    simp [Header.Lawful, htop, hone, hmost, hleast, hnumber, Nat.ne_of_gt hlevel]
  have hfound : ((some d).bind fun e => if d.1 = e.1 then some e.2 else none) = some d.2 := if_pos rfl
  have hmine := decodesTo_packed (dict := some d) (body := some d.2) (hlaw false) two_ne_zero rfl (.inr ⟨rfl, rfl, hfound⟩) rfl hspell
    htables hcodes
  have htheirs := decodesTo_packed (dict := some d) (body := some d.2) (tb := []) (hlaw true) two_ne_zero rfl
    (.inr ⟨rfl, rfl, hfound⟩) rfl hspell (fun _ _ => rfl) (defaultCodes_read hspell hlens hlit' hdist')
  rw [List.nil_append] at htheirs
  unfold maeriImage
  cases defaults with
  | false =>
    dsimp only
    exact hmine
  | true =>
    dsimp only
    split
    · exact htheirs
    · exact hmine

end

/-- An image is what decodes to its source, with the checksum behind it. -/
theorem encodeFrame_parts {level : Nat} {dict : Option (Nat × DictBody)} {defaults : Bool} {src : List Byte} (hone : 1 ≤ src.length)
    (hmost : src.length ≤ 4096) (hlevel : level = 0 ∨ packs level dict src = true) :
    ∃ frame, encodeFrame level dict defaults src = frame ++ leBytes 4 (crc32c src).toNat ∧ DecodesTo dict src frame := by
  unfold encodeFrame
  split
  · exact ⟨_, rfl, decodesTo_stored dict hone hmost⟩
  · rename_i hzero
    have hpacks := hlevel.resolve_left hzero
    dsimp only
    split
    · exact ⟨_, rfl, decodesTo_stored dict hone hmost⟩
    · refine ⟨_, rfl, ?_⟩
      cases dict with
      | none => exact decodesTo_maeriImage_plain (Nat.pos_of_ne_zero hzero) hone hmost hpacks
      | some d => exact decodesTo_maeriImage_dict (Nat.pos_of_ne_zero hzero) hone hmost hpacks

/-- Settles O60: the tokens of every parse spell the page, the table section gives back the lengths of its codes, and a
canonical code's tree reads every codeword as its symbol. -/
theorem packedImagesDecode : Obligations.PackedImagesDecode := by
  intro level dict defaults src hone hmost hlevel
  obtain ⟨frame, himage, hdecodes⟩ := encodeFrame_parts (defaults := defaults) hone hmost hlevel
  have hlen : (encodeFrame level dict defaults src).length = frame.length + 4 := by
    rw [himage, List.length_append, length_leBytes]
  dsimp only
  rw [hlen, Nat.add_sub_cancel, himage, List.drop_left, List.take_left]
  exact ⟨Nat.le_add_left 4 _, rfl, hdecodes⟩

end Sys2Proof.Machine
end
